-- ==== Sys2Proof/Word.lean ====
section
/-! DEFINITION. The words of the W4096: the fixed widths of R3 and the plainest slices of them. -/

namespace Sys2Proof

/-- A doubleword (R3): scalar registers, arguments, most system registers. -/
abbrev Word := BitVec 64
/-- A byte (R3). -/
abbrev Byte := BitVec 8
/-- A halfword (R3): the unit of an instruction line. -/
abbrev Half := BitVec 16
/-- A program counter value (R50): line in bits 14:6, slot in bits 5:1. -/
abbrev Pc := BitVec 15
/-- A scalar register number, `s0`-`s63`. -/
abbrev SReg := BitVec 6
/-- A vector register number, `v0`-`v31`. -/
abbrev VReg := BitVec 5
/-- A predicate number `p0`-`p7`, or a mask number `q0`-`q7`. -/
abbrev PReg := BitVec 3
/-- A vector register's value: 64 lanes of 32 bits (R26). -/
abbrev Vec := BitVec 2048

end Sys2Proof
end

