-- ==== Sys2Proof/Config.lean ====
section
/-! DEFINITION. Values that the spec leaves open: constants without a body, so that nothing can tell their
values. The first argument counts the values drawn so far (`State.fresh`). DESIGN CHOICE, log 6. -/

namespace Sys2Proof.Config

/-- The elements of an accumulator bank that is undefined at the start of a step (R22, R184). DESIGN CHOICE, log 6. -/
opaque freeBank : Nat → BitVec 32768

/-- The poison of those elements. -/
opaque freeBankPoison : Nat → BitVec 1024

/-- The byte at an offset of the data area after an ATTR change of a steward tile (R128). -/
opaque freeByte : Nat → Nat → Byte

/-- The marks of the words of the data area after an ATTR change of a steward tile (R128). -/
opaque freeMarks : Nat → BitVec 28672

/-- What the references of a plot's patches read as before a seal has set them, and OUTT while it is NONE (R324, R337):
the plot's draw, and the place of the value. -/
opaque freeSketch : Nat → Nat → BitVec 32

/-- The second word of the host message that a completed job sends (R370). -/
opaque freeMessageWord : Nat → BitVec 64

/-- The data that a 64-byte unit delivers, beside its poison, to a request whose partition has no key (R348): the tweak, the unit as
written. -/
opaque keylessUnit : Nat → BitVec 512 → BitVec 512

/-- Whether a read finds the value before a write through another view (R276): the draw, the word, and how many earlier writes to the
byte stand behind that write. -/
opaque seesOldView : Nat → Nat → Nat → Bool

end Sys2Proof.Config
end

