-- ==== Sys2Proof/Syntax.lean ====
section
/-! DEFINITION. The syntax of Belot (R47-R64) and of the device's events: one constructor of `Instr`
for each row of spec/opcode_table.json, with every operand field of its tail form. -/

namespace Sys2Proof

/-- The guard field of a tail (R52): INV, KIND (true for a vector mask) and INDEX. -/
structure Guard where
  inv : Bool
  mask : Bool
  idx : PReg
deriving DecidableEq, Repr

/-- The guard that is always true: `p0`. -/
def Guard.always : Guard := ⟨false, false, 0⟩

/-- The sync tail of a form E instruction (R56). -/
structure Sync where
  wsem : BitVec 8
  wthr : BitVec 8
  ssem : BitVec 8
  sinc : BitVec 4
  wen : Bool
  site : BitVec 2
deriving DecidableEq, Repr

/-- No wait and no signal. -/
def Sync.none : Sync := ⟨0, 0, 0, 0, false, 0⟩

/-- Access sizes .B .H .W .D (R3). -/
inductive Size where
  | b | h | w | d
deriving DecidableEq, Repr

/-- Bytes of an access size. -/
def Size.bytes : Size → Nat
  | .b => 1 | .h => 2 | .w => 4 | .d => 8

/-- The conditions of CMP and BRC (R76). -/
inductive Cond where
  | eq | ne | lt | ge | ltu | geu
deriving DecidableEq, Repr

/-- The conditions of VCMP (R171). -/
inductive VCond where
  | eq | ne | lt | le | gt | ge | un
deriving DecidableEq, Repr

/-- The operations of VRED and VSCAN (R173, R174). -/
inductive RedOp where
  | add | min | max
deriving DecidableEq, Repr

/-- The operations of AMO (R251). -/
inductive AmoOp where
  | add | and | or | xor | min | max | minu | maxu | swap | cas
deriving DecidableEq, Repr

/-- The operations of REDC and of a Sheaf reduction (R307, R320). -/
inductive SheafOp where
  | add | min | max | and | or | fadd
deriving DecidableEq, Repr

/-- Fence scopes (R96). -/
inductive Scope where
  | s | t | c | g | d | y
deriving DecidableEq, Repr

/-- What the checker stage reports of one execution (R230): no mismatch, a mismatch that the
re-execution did not repeat, or a second mismatch; each mismatch with its UNIT and lane or row. -/
inductive Check where
  | match
  | retried (unit : BitVec 3) (lane : BitVec 6)
  | failed (unit : BitVec 3) (lane : BitVec 6)
deriving DecidableEq, Repr

/-- One Sheaf packet (R307), field by field. -/
structure Packet where
  gang : Nat
  step : Nat
  kind : BitVec 2
  vote : BitVec 2
  cause : BitVec 8
  rop : BitVec 4
  payload : Word
  level : Nat
  index : Nat
  ctile : Nat
  sgen : BitVec 16
  last : Bool
  empty : Bool
  yield : Bool
  /-- Bits 255:198. -/
  reserved : BitVec 58
deriving DecidableEq, Repr

/-- The security triggers of ALARMCFG.POL (R346), in the order of R349. -/
inductive Trigger where
  | glitch | mesh | debug | misuse
deriving DecidableEq, Repr

/-- A publication record's target (R288, R291, R345). -/
inductive PubTarget where
  /-- A translation-table entry at a tier address of HBM. -/
  | entry (addr : Nat)
  /-- One doubleword of a view descriptor: partition, handle, doubleword 0 or 1. -/
  | view (part handle dw : Nat)
  /-- One doubleword of a partition control block. -/
  | pcb (part dw : Nat)
deriving DecidableEq, Repr

/-- A read of memory that a controller has issued: the n-th request, or the n-th immediate atomic (R302). -/
inductive MemAccess where
  | request (n : Nat)
  | atomic (n : Nat)
deriving DecidableEq, Repr

/-- What the flits of a transfer from another package carry: the source package, and the per-destination stream count of the
step (R392). -/
structure Flit where
  pkg : BitVec 16
  count : Nat
deriving DecidableEq, Repr

/-- What comes from a tile of another package of the gang's fabric (R389-R392): a store of an IST, with its sync tail (R248). -/
structure ExtStore where
  dest : Nat
  addr : Nat
  size : Size
  data : Word
  sy : Sync
  flit : Flit
deriving DecidableEq, Repr

/-- A transfer-schedule send of such a tile (R220). -/
structure ExtSend where
  dest : Nat
  doff : Nat
  words : List (Word × Bool)
  flit : Flit
deriving DecidableEq, Repr

/-- Words of a PUT of such a tile, with its sync tail (R152, R390, R402). -/
structure ExtPut where
  dest : Nat
  addr : Nat
  words : List (Word × Bool)
  sy : Sync
  flit : Flit
deriving DecidableEq, Repr

/-- What a tile on another package contributes to a collective (R398): its rank, ROUTINE and the count that match it, its collective
word, its source words, and bit i for a poisoned word i. -/
structure ExtColl where
  rank : Nat
  routine : BitVec 16
  k : Nat
  word : Word
  words : List Word
  poison : Nat
deriving DecidableEq, Repr

/-- An active message from the host (R350), or from such a tile, with its sender's key (R224, R225). -/
structure ExtMsg where
  dest : Nat
  desc : BitVec 512
  host : Bool
  sender : Nat
  routine : BitVec 16
  seq : Nat
  flit : Flit
deriving DecidableEq, Repr

/-- What the fourth command-parity alert of a row loses (R302, R303): the access among the dropped commands, and the addresses of
the words that the repair cannot read, and how many granules of the row fail. -/
structure RowLoss where
  dropped : Option MemAccess
  lost : List Nat
  granules : Nat
deriving DecidableEq, Repr

/-- A link that is reset (R353): the NoC link, or the Eweit port, of that number; `gangs` have SHEAF or COMMIT traffic that must cross it
meanwhile. -/
structure LinkRef where
  noc : Bool
  index : Nat
  gangs : List Nat
deriving DecidableEq, Repr

/-- What bring-up finds (R356): the authenticated Quimor image of the boot ROM, the compute tiles whose self-test fails, and the faulty
lanes of others: (tile, lane); and the package id that system software assigns (R393). -/
structure Bringup where
  pkgid : BitVec 16
  image : List (Nat × BitVec 8)
  failing : List Nat
  lanes : List (Nat × Nat)
deriving DecidableEq, Repr

/-- A remap that is due (R260): the cluster, and the addresses of the words that the failed tile cannot read. -/
structure RemapSite where
  cluster : Nat
  lost : List Nat
deriving DecidableEq, Repr

/-- An instruction of Belot, or an event of the device: the rows of spec/opcode_table.json. -/
inductive Instr where
  -- major 0x00, form S3 (R71)
  | add (g : Guard) (d a b : SReg)
  | sub (g : Guard) (d a b : SReg)
  | and (g : Guard) (d a b : SReg)
  | or (g : Guard) (d a b : SReg)
  | xor (g : Guard) (d a b : SReg)
  | andn (g : Guard) (d a b : SReg)
  | shl (g : Guard) (d a b : SReg)
  | shr (g : Guard) (d a b : SReg)
  | sra (g : Guard) (d a b : SReg)
  | rol (g : Guard) (d a b : SReg)
  | min (g : Guard) (d a b : SReg)
  | max (g : Guard) (d a b : SReg)
  | minu (g : Guard) (d a b : SReg)
  | maxu (g : Guard) (d a b : SReg)
  | mul (g : Guard) (d a b : SReg)
  | mulh (g : Guard) (d a b : SReg)
  | mulhu (g : Guard) (d a b : SReg)
  | div (g : Guard) (d a b : SReg)
  | divu (g : Guard) (d a b : SReg)
  | rem (g : Guard) (d a b : SReg)
  | remu (g : Guard) (d a b : SReg)
  -- major 0x01, form SI (R71)
  | addi (g : Guard) (d a : SReg) (imm : BitVec 15)
  | andImm (g : Guard) (d a : SReg) (imm : BitVec 15)
  | orImm (g : Guard) (d a : SReg) (imm : BitVec 15)
  | xorImm (g : Guard) (d a : SReg) (imm : BitVec 15)
  | andnImm (g : Guard) (d a : SReg) (imm : BitVec 15)
  | shlImm (g : Guard) (d a : SReg) (imm : BitVec 15)
  | shrImm (g : Guard) (d a : SReg) (imm : BitVec 15)
  | sraImm (g : Guard) (d a : SReg) (imm : BitVec 15)
  | rolImm (g : Guard) (d a : SReg) (imm : BitVec 15)
  | minImm (g : Guard) (d a : SReg) (imm : BitVec 15)
  | maxImm (g : Guard) (d a : SReg) (imm : BitVec 15)
  | minuImm (g : Guard) (d a : SReg) (imm : BitVec 15)
  | maxuImm (g : Guard) (d a : SReg) (imm : BitVec 15)
  | mulImm (g : Guard) (d a : SReg) (imm : BitVec 15)
  -- major 0x02 (R73)
  | clz (g : Guard) (d a : SReg)
  | ctz (g : Guard) (d a : SReg)
  | popc (g : Guard) (d a : SReg)
  | abs (g : Guard) (d a : SReg)
  | mov (g : Guard) (d a : SReg)
  | sext (g : Guard) (sz : Size) (d a : SReg)
  | zext (g : Guard) (sz : Size) (d a : SReg)
  -- major 0x03 (R74): len is the length less one
  | bfx (g : Guard) (d a : SReg) (pos len : BitVec 6)
  | bfxS (g : Guard) (d a : SReg) (pos len : BitVec 6)
  | bfi (g : Guard) (d a : SReg) (pos len : BitVec 6)
  -- majors 0x04 and 0x05 (R75, R76): litLen is the LEN of LIT's literal head, lit its tail
  | lit (g : Guard) (d : SReg) (litLen : BitVec 2) (lit : Word)
  | lea (g : Guard) (d a b : SReg) (scale : BitVec 2)
  | sel (g : Guard) (d a b : SReg) (n : PReg)
  | cmp (g : Guard) (cc : Cond) (pd : PReg) (a b : SReg)
  | cmpImm (g : Guard) (cc : Cond) (pd : PReg) (a : SReg) (imm : BitVec 15)
  | tst (g : Guard) (pd : PReg) (a b : SReg)
  | tstZ (g : Guard) (pd : PReg) (a b : SReg)
  | tstImm (g : Guard) (pd : PReg) (a : SReg) (imm : BitVec 15)
  | tstZImm (g : Guard) (pd : PReg) (a : SReg) (imm : BitVec 15)
  -- major 0x10 (R77)
  | pand (g : Guard) (x y z : PReg)
  | por (g : Guard) (x y z : PReg)
  | pxor (g : Guard) (x y z : PReg)
  | pnot (g : Guard) (x y : PReg)
  | pmov (g : Guard) (x y : PReg)
  | pany (g : Guard) (x y : PReg)
  -- major 0x11 (R78-R81)
  | br (g : Guard) (target : BitVec 15)
  | brc (g : Guard) (cc : Cond) (a b : SReg) (target : BitVec 15)
  | jal (g : Guard) (a : SReg) (target : BitVec 15)
  | jr (g : Guard) (a b : SReg)
  | ret (g : Guard)
  | loop (g : Guard) (a : SReg) (target : BitVec 15)
  | rep (g : Guard) (a : SReg) (len : BitVec 6) (n : BitVec 15)
  | repStreamLoad (g : Guard)
  | halt
  | yield
  | nop
  -- major 0x18 (R85-R89)
  | ld (g : Guard) (sz : Size) (d a : SReg) (imm : BitVec 15)
  | st (g : Guard) (sz : Size) (d a : SReg) (imm : BitVec 15)
  | ldv (g : Guard) (sz : Size) (d a : SReg) (imm : BitVec 15)
  | stv (g : Guard) (sz : Size) (d a : SReg) (imm : BitVec 15)
  | ldsD (g : Guard) (d a : SReg) (imm : BitVec 15)
  | ldsDE (g : Guard) (d a : SReg) (imm : BitVec 15)
  | stfD (g : Guard) (d a : SReg) (imm : BitVec 15)
  | ldc (g : Guard) (sz : Size) (d a : SReg) (imm : BitVec 15)
  | stc (g : Guard) (sz : Size) (d a : SReg) (imm : BitVec 15)
  -- majors 0x1C, 0x1D, 0x1E (R90-R97)
  | sysrd (g : Guard) (d : SReg) (n : BitVec 12)
  | syswr (g : Guard) (a : SReg) (n : BitVec 12)
  | trap (g : Guard) (imm : BitVec 11)
  | brk (g : Guard) (imm : BitVec 11)
  | eret
  | eretSkip
  | pclr (g : Guard) (d : SReg)
  | pclrVector (g : Guard) (v : VReg)
  | semwait (g : Guard) (m n : BitVec 8)
  | semsig (g : Guard) (m n : BitVec 8)
  | semrd (g : Guard) (d : SReg) (m : BitVec 8)
  | park
  | wake (g : Guard) (n : BitVec 2)
  | msg (g : Guard) (a : SReg)
  | fence (sc : Scope)
  | vfence (sc : Scope)
  | fmt (minor : BitVec 8)
  -- major 0x20 (R159-R163); ign holds the ignored TV bits 14:10
  | vld (g : Guard) (vd : VReg) (ign : BitVec 5) (s : SReg) (imm : BitVec 11)
  | vst (g : Guard) (vd : VReg) (ign : BitVec 5) (s : SReg) (imm : BitVec 11)
  | vldStream (g : Guard) (vd : VReg) (k : BitVec 3)
  | vstStream (g : Guard) (vd : VReg) (k : BitVec 3)
  | vldb (g : Guard) (vd : VReg) (ign : BitVec 5) (slot : BitVec 6) (imm : BitVec 11)
  | vstb (g : Guard) (vd : VReg) (ign : BitVec 5) (slot : BitVec 6) (imm : BitVec 11)
  | vgath (g : Guard) (vd va : VReg) (s : SReg)
  | vscat (g : Guard) (vd va : VReg) (s : SReg)
  -- major 0x21 (R164)
  | vbcast (g : Guard) (vd : VReg) (s : SReg)
  | vmovs (g : Guard) (d : SReg) (va : VReg) (lane : BitVec 6)
  | vmovv (g : Guard) (vd va : VReg)
  -- major 0x22 (R165-R170)
  | vadd (g : Guard) (vd va vb : VReg) (rm : BitVec 3)
  | vsub (g : Guard) (vd va vb : VReg) (rm : BitVec 3)
  | vmul (g : Guard) (vd va vb : VReg) (rm : BitVec 3)
  | vmin (g : Guard) (vd va vb : VReg) (rm : BitVec 3)
  | vmax (g : Guard) (vd va vb : VReg) (rm : BitVec 3)
  | vfma (g : Guard) (vd va vb vc : VReg) (rm : BitVec 3)
  | vfms (g : Guard) (vd va vb vc : VReg) (rm : BitVec 3)
  | vnfma (g : Guard) (vd va vb vc : VReg) (rm : BitVec 3)
  | vabs (g : Guard) (vd va : VReg) (rm : BitVec 3)
  | vneg (g : Guard) (vd va : VReg) (rm : BitVec 3)
  | vrcp (g : Guard) (vd va : VReg) (rm : BitVec 3)
  | vrsq (g : Guard) (vd va : VReg) (rm : BitVec 3)
  | vexp2 (g : Guard) (vd va : VReg) (rm : BitVec 3)
  | vlog2 (g : Guard) (vd va : VReg) (rm : BitVec 3)
  | vscale (g : Guard) (vd va vb : VReg) (rm : BitVec 3)
  | vclass (g : Guard) (vd va : VReg)
  -- major 0x23 (R171, R172)
  | vcmp (g : Guard) (cc : VCond) (qd : PReg) (va vb : VReg)
  | vsel (g : Guard) (vd va vb : VReg) (n : PReg)
  -- major 0x24 (R173-R176)
  | vred (g : Guard) (op : RedOp) (d : SReg) (va : VReg)
  | vscan (g : Guard) (op : RedOp) (vd va : VReg) (vb : VReg) (rm : BitVec 3)
  | vperm (g : Guard) (vd va vb : VReg)
  | vshuf (g : Guard) (vd va vb vc : VReg)
  | vrot (g : Guard) (vd va : VReg) (n : BitVec 6)
  | vdot (g : Guard) (vd va vb vc : VReg) (rm : BitVec 3)
  -- major 0x25 (R177, R178)
  | vcvt (g : Guard) (vd va : VReg) (rm : BitVec 3)
  | vbscl (g : Guard) (vd va vb vc : VReg) (rm : BitVec 3)
  -- major 0x26 (R179, R180)
  | viadd (g : Guard) (vd va vb : VReg)
  | visub (g : Guard) (vd va vb : VReg)
  | vimul (g : Guard) (vd va vb : VReg)
  | vimad (g : Guard) (vd va vb vc : VReg)
  | viaddSat (g : Guard) (vd va vb : VReg)
  | visubSat (g : Guard) (vd va vb : VReg)
  | vshl (g : Guard) (vd va vb : VReg)
  | vshr (g : Guard) (vd va vb : VReg)
  | vsra (g : Guard) (vd va vb : VReg)
  | vand (g : Guard) (vd va vb : VReg)
  | vor (g : Guard) (vd va vb : VReg)
  | vxor (g : Guard) (vd va vb : VReg)
  | vpopc (g : Guard) (vd va : VReg)
  -- major 0x27 (R181)
  | vpand (g : Guard) (x y z : PReg)
  | vpor (g : Guard) (x y z : PReg)
  | vpnot (g : Guard) (x y : PReg)
  -- majors 0x30 and 0x31 (R184-R192); w is the number of k groups less one
  | mma (g : Guard) (acc ra rb : BitVec 3) (w : BitVec 6) (sy : Sync)
  | mman (g : Guard) (acc ra rb : BitVec 3) (w : BitVec 6) (sy : Sync)
  | mmaq (g : Guard) (acc ra rb : BitVec 3) (w : BitVec 6) (sy : Sync)
  | mmai (g : Guard) (acc ra rb : BitVec 3) (w : BitVec 6) (sy : Sync)
  | mmaRetire (t : Nat)
  /-- `chks` is what the checker stage reports of the k-groups that mismatched, in their order (R230). -/
  | mmaComplete (t : Nat) (chks : List Check)
  | accz (g : Guard) (acc : BitVec 3)
  | accsw (g : Guard) (acc : BitVec 3) (sy : Sync)
  | accumulatorSwap (t : Nat) (acc : BitVec 3)
  | accrd (g : Guard) (vd : VReg) (acc : BitVec 3) (row : BitVec 5)
  | accwr (g : Guard) (vs : VReg) (acc : BitVec 3) (row : BitVec 5)
  | accst (g : Guard) (acc : BitVec 3) (y z : SReg) (sy : Sync)
  | accld (g : Guard) (acc : BitVec 3) (y z : SReg) (sy : Sync)
  | accstComplete (t : Nat) (acc : BitVec 3)
  -- major 0x32 (R193-R196)
  | tblw (g : Guard) (vs : VReg) (q : BitVec 2) (tbl : Bool)
  | tblsw (g : Guard) (tbl : Bool) (sy : Sync)
  | tableSwap (t : Nat) (tbl : Bool)
  | tblrd (g : Guard) (vd : VReg) (q : BitVec 2) (tbl shadow : Bool)
  -- majors 0x38 and 0x39 (R197-R204)
  | bale (g : Guard) (slot : BitVec 6) (a b c : SReg)
  | bstat (g : Guard) (d : SReg) (slot : BitVec 6)
  | bset (g : Guard) (slot : BitVec 6)
  | lookup (g : Guard) (d a b : SReg)
  | ringcfg (g : Guard) (ring : BitVec 3) (a : SReg)
  | ringpush (g : Guard) (ring : BitVec 3) (slot : BitVec 6) (sy : Sync)
  | ringpop (g : Guard) (ring : BitVec 3) (slot : BitVec 6) (sy : Sync)
  | ringstat (g : Guard) (d : SReg) (ring : BitVec 3)
  | pflstop (g : Guard) (ring : BitVec 3) (sy : Sync)
  | pfl (g : Guard) (x : SReg) (sy : Sync)
  | pflComplete (t n : Nat)
  -- major 0x3A (R206-R210)
  | put (g : Guard) (x y z : SReg) (sy : Sync)
  | get (g : Guard) (x y z : SReg) (sy : Sync)
  | putv (g : Guard) (x y z w : SReg) (sy : Sync)
  | getv (g : Guard) (x y z w : SReg) (sy : Sync)
  /-- `ext` is what a GET reads from a tile of another package. -/
  | transferComplete (t n : Nat) (ext : List (Word × Bool))
  | xqstat (g : Guard) (d : SReg)
  | uien (g : Guard) (n : Bool)
  | uiret
  | userInterruptDelivery (t k : Nat)
  -- major 0x3C (R247-R255)
  | ist (g : Guard) (sz : Size) (x y : SReg) (sy : Sync)
  | istfD (g : Guard) (x y : SReg) (sy : Sync)
  | immediateStoreArrival (n : Nat) (ext : Option ExtStore)
  /-- `report` is the conflict report that a destination on another package returns; so below. -/
  | immediateStoreComplete (n : Nat) (report : Bool)
  | amo (g : Guard) (op : AmoOp) (word : Bool) (d a b c : SReg)
  | amof (g : Guard) (op : RedOp) (d a b : SReg)
  | atomicPerform (n : Nat)
  | amodAdd (g : Guard) (a b : SReg)
  | amodRecordArrival (n : Nat)
  | evsig (g : Guard) (a : SReg)
  | evarm (g : Guard) (a b : SReg)
  | mtxrel (g : Guard) (a : SReg)
  | chainedArrival (n : Nat)
  | barrierRelease (n : Nat)
  -- major 0x3D (R317-R337)
  | sync
  | syncdown (t : Nat)
  | vote (g : Guard) (v : BitVec 2) (cause : BitVec 8)
  | redc (g : Guard) (op : SheafOp) (a : SReg)
  | redrd (g : Guard) (d : SReg)
  | xsched (g : Guard) (x : SReg) (sy : Sync)
  | xschedComplete (t : Nat)
  | gcfg (g : Guard) (plot : BitVec 3) (a : SReg)
  | gsig (g : Guard) (d a : SReg)
  | gskip (g : Guard) (d a : SReg)
  | gmap (g : Guard) (d a : SReg)
  | gforce (g : Guard) (a : SReg)
  | gseal (g : Guard) (plot : BitVec 3)
  -- major 0x3E (R371-R381, R396, R397)
  | launch (g : Guard) (d a : SReg)
  | teardown (g : Guard) (d a : SReg)
  | preempt (g : Guard) (d a : SReg)
  | barnsv (g : Guard) (d a b : SReg)
  | barnld (g : Guard) (d a b : SReg)
  | hmsg (g : Guard) (a b : SReg)
  | qcbsv (g : Guard) (d a b : SReg)
  | qcbld (g : Guard) (d a b : SReg)
  | qpend (g : Guard) (d : SReg)
  | coll (g : Guard) (x y z : SReg) (sy : Sync)
  /-- The n-th COLL of tile t; `others` is what the tiles of the rank set on other packages contributed. -/
  | collComplete (t n : Nat) (others : List ExtColl)
  | rankmap (g : Guard) (d a b : SReg)
  -- events of a tile's step
  | stepBudget (t : Nat)
  | startPhase (t : Nat)
  | listDispatch (t : Nat)
  | exchangePhase (t : Nat)
  | transferSendArrival (n : Nat) (ext : Option ExtSend)
  | activeMessageArrival (n : Nat) (ext : Option ExtMsg)
  | messageStart (t : Nat)
  | arrive (t : Nat)
  /-- `ext` are packets from child packages of the fabric (R395). -/
  | sheafCombine (gang node : Nat) (ext : List Packet)
  | commit (t : Nat)
  | mirrorAck (gang : Nat)
  | abort (t : Nat)
  | haltDecision (t : Nat)
  | deadlock (gang : Nat)
  | segmentWakeEnd (t seg : Nat)
  | baleFillComplete (t slot : Nat)
  | baleDrainComplete (t slot : Nat)
  | subscriptionPush (t ring : Nat)
  -- events of the memory side
  | memoryRequest (n : Nat)
  | pageFaultAnswer (n : Nat) (resolved : Bool)
  | publicationRecord (target : PubTarget) (value : Word)
  /-- `count` consecutive alerts on a command to a row: its bank, its pseudo-channel, the tier address of its first
  byte; `loss` is what the dropped commands and the repair lose, `leaf`
  the tier address and level of the leaf entry of the page in the row's frame (none: a twin frame), `spare` a frame of the
  stack's reserve (none: empty). -/
  | hbmParityAlert (stack bank channel addr count : Nat) (loss : RowLoss) (leaf : Option (Nat × Nat)) (spare : Option Nat)
  | stackCriticalTemperature (stack : Nat) (celsius : BitVec 8)
  | stackCooled (stack : Nat) (celsius : BitVec 8)
  | nocLinkFail (link : Nat) (gangs : List Nat)
  | eweitLinkFail (port : Nat) (lost : List Nat) (unreachable : List Nat)
  | resendRequest (port : Nat) (seq : BitVec 12)
  | laneStop (port : Nat) (lane : BitVec 2)
  | laneGo (port : Nat) (lane : BitVec 2)
  | linkReset (link : LinkRef)
  -- events of the package
  /-- What bring-up finds, with the entry PC of the Quimor image (R356). -/
  | packageReset (boot : Bringup) (entry : Pc)
  | partidRst
  | functionLevelReset (part : Nat)
  | hostLinkUncorrectable (part : Nat)
  | keyslotLoad
  | keyslotErase
  | alarm (trig : Trigger) (part : Option Nat)
  | doorbell (part queue : Nat) (tail : BitVec 32)
  | hostWake (part gang : Nat)
  | hostMemoryWrite (part : Nat) (va : Word) (data : List Byte)
  | jobSelection
  | gangLaunch
  | resume
  | jobCompletion (job : Nat)
  | chargeUnit (slot : Nat)
  | quantumExpiry (slot : Nat)
  | timeUnitEnd
  /-- `lost` are the addresses of the words that the failed tile cannot read (R260). -/
  | spareRemap (site : RemapSite)
  | hostMessageTaken
  | scheduleSendCompletion (n : Nat) (report : Bool)
  | amodAcknowledgement (n : Nat)
deriving DecidableEq, Repr

end Sys2Proof
end

