-- ==== Sys2Proof/WellFormed.lean ====
section
/-! DEFINITION. Well-formed instructions: those whose operands an encoding of R54-R64 can hold. An event
is always well formed. -/

namespace Sys2Proof

/-- The bits of a field from bit n upward, as a number. -/
def hi {w : Nat} (x : BitVec w) (n : Nat) : Nat := x.toNat / 2 ^ n

/-- SITE of a sync tail (R56): kind 0 allows the local site only, kind 1 the remote site as well (IST, ISTF), kind
2 the user-level interrupt too (PUT, GET, PUTV, GETV), with SSEM and SINC zero. -/
def siteOk (kind : Nat) (s : Sync) : Bool :=
  match s.site.toNat with
  | 0 => true
  | 1 => decide (1 ≤ kind)
  | 2 => decide (2 ≤ kind) && decide (s.ssem = 0) && decide (s.sinc = 0)
  | _ => false

/-- VOTE's combinations of vote and cause (R319). -/
def voteOk (v : BitVec 2) (cause : BitVec 8) : Bool :=
  if v = 0 ∨ v = 2 then decide (cause = 0) else decide (128 ≤ cause.toNat)

/-- A literal that its literal head's LEN can hold (R55). -/
def litOk (len : BitVec 2) (l : Word) : Bool :=
  match len.toNat with
  | 0 => false
  | 1 => decide ((l.setWidth 16).signExtend 64 = l)
  | 2 => decide ((l.setWidth 32).signExtend 64 = l)
  | _ => true

/-- An instruction of Belot, which has an encoding; false for an event of the device. -/
def Instr.isCode : Instr → Bool
  | .mmaRetire _ => false
  | .mmaComplete _ _ => false
  | .accumulatorSwap _ _ => false
  | .accstComplete _ _ => false
  | .tableSwap _ _ => false
  | .pflComplete _ _ => false
  | .transferComplete _ _ _ => false
  | .userInterruptDelivery _ _ => false
  | .immediateStoreArrival _ _ => false
  | .immediateStoreComplete _ _ => false
  | .atomicPerform _ => false
  | .amodRecordArrival _ => false
  | .chainedArrival _ => false
  | .barrierRelease _ => false
  | .syncdown _ => false
  | .xschedComplete _ => false
  | .collComplete _ _ _ => false
  | .stepBudget _ => false
  | .startPhase _ => false
  | .listDispatch _ => false
  | .exchangePhase _ => false
  | .transferSendArrival _ _ => false
  | .activeMessageArrival _ _ => false
  | .messageStart _ => false
  | .arrive _ => false
  | .sheafCombine _ _ _ => false
  | .commit _ => false
  | .mirrorAck _ => false
  | .abort _ => false
  | .haltDecision _ => false
  | .deadlock _ => false
  | .segmentWakeEnd _ _ => false
  | .baleFillComplete _ _ => false
  | .baleDrainComplete _ _ => false
  | .subscriptionPush _ _ => false
  | .memoryRequest _ => false
  | .pageFaultAnswer _ _ => false
  | .publicationRecord _ _ => false
  | .hbmParityAlert _ _ _ _ _ _ _ _ => false
  | .stackCriticalTemperature _ _ => false
  | .stackCooled _ _ => false
  | .nocLinkFail _ _ => false
  | .eweitLinkFail _ _ _ => false
  | .resendRequest _ _ => false
  | .laneStop _ _ => false
  | .laneGo _ _ => false
  | .linkReset _ => false
  | .packageReset _ _ => false
  | .partidRst => false
  | .functionLevelReset _ => false
  | .hostLinkUncorrectable _ => false
  | .keyslotLoad => false
  | .keyslotErase => false
  | .alarm _ _ => false
  | .doorbell _ _ _ => false
  | .hostWake _ _ => false
  | .hostMemoryWrite _ _ _ => false
  | .jobSelection => false
  | .gangLaunch => false
  | .resume => false
  | .jobCompletion _ => false
  | .chargeUnit _ => false
  | .quantumExpiry _ => false
  | .timeUnitEnd => false
  | .spareRemap _ => false
  | .hostMessageTaken => false
  | .scheduleSendCompletion _ _ => false
  | .amodAcknowledgement _ => false
  | _ => true

/-- The operands are such as an encoding can hold (R53-R64). -/
def Instr.wf : Instr → Bool
  | .add g _ _ _ => !g.mask
  | .sub g _ _ _ => !g.mask
  | .and g _ _ _ => !g.mask
  | .or g _ _ _ => !g.mask
  | .xor g _ _ _ => !g.mask
  | .andn g _ _ _ => !g.mask
  | .shl g _ _ _ => !g.mask
  | .shr g _ _ _ => !g.mask
  | .sra g _ _ _ => !g.mask
  | .rol g _ _ _ => !g.mask
  | .min g _ _ _ => !g.mask
  | .max g _ _ _ => !g.mask
  | .minu g _ _ _ => !g.mask
  | .maxu g _ _ _ => !g.mask
  | .mul g _ _ _ => !g.mask
  | .mulh g _ _ _ => !g.mask
  | .mulhu g _ _ _ => !g.mask
  | .div g _ _ _ => !g.mask
  | .divu g _ _ _ => !g.mask
  | .rem g _ _ _ => !g.mask
  | .remu g _ _ _ => !g.mask
  | .addi g _ _ _ => !g.mask
  | .andImm g _ _ _ => !g.mask
  | .orImm g _ _ _ => !g.mask
  | .xorImm g _ _ _ => !g.mask
  | .andnImm g _ _ _ => !g.mask
  | .shlImm g _ _ _ => !g.mask
  | .shrImm g _ _ _ => !g.mask
  | .sraImm g _ _ _ => !g.mask
  | .rolImm g _ _ _ => !g.mask
  | .minImm g _ _ _ => !g.mask
  | .maxImm g _ _ _ => !g.mask
  | .minuImm g _ _ _ => !g.mask
  | .maxuImm g _ _ _ => !g.mask
  | .mulImm g _ _ _ => !g.mask
  | .clz g _ _ => !g.mask
  | .ctz g _ _ => !g.mask
  | .popc g _ _ => !g.mask
  | .abs g _ _ => !g.mask
  | .mov g _ _ => !g.mask
  | .sext g sz _ _ => !g.mask && decide (sz ≠ .d)
  | .zext g sz _ _ => !g.mask && decide (sz ≠ .d)
  | .bfx g _ _ pos len => !g.mask && decide (pos.toNat + len.toNat + 1 ≤ 64)
  | .bfxS g _ _ pos len => !g.mask && decide (pos.toNat + len.toNat + 1 ≤ 64)
  | .bfi g _ _ pos len => !g.mask && decide (pos.toNat + len.toNat + 1 ≤ 64)
  | .lit g _ len l => !g.mask && litOk len l
  | .lea g _ _ _ _ => !g.mask
  | .sel g _ _ _ _ => !g.mask
  | .cmp g _ _ _ _ => !g.mask
  | .cmpImm g _ _ _ _ => !g.mask
  | .tst g _ _ _ => !g.mask
  | .tstZ g _ _ _ => !g.mask
  | .tstImm g _ _ _ => !g.mask
  | .tstZImm g _ _ _ => !g.mask
  | .pand g _ _ _ => !g.mask
  | .por g _ _ _ => !g.mask
  | .pxor g _ _ _ => !g.mask
  | .pnot g _ _ => !g.mask
  | .pmov g _ _ => !g.mask
  | .pany g _ _ => !g.mask
  | .br g _ => !g.mask
  | .brc g _ _ _ _ => !g.mask
  | .jal g _ _ => !g.mask
  | .jr g _ _ => !g.mask
  | .ret g => !g.mask
  | .loop g _ _ => !g.mask
  | .rep g a len n => !g.mask && decide (if len = 0 then a ≠ 0 ∨ n ≠ 0 else a = 0 ∨ n = 0)
  | .repStreamLoad g => !g.mask
  | .halt => true
  | .yield => true
  | .nop => true
  | .ld g _ _ _ _ => !g.mask
  | .st g _ _ _ _ => !g.mask
  | .ldv g _ _ _ _ => !g.mask
  | .stv g _ _ _ _ => !g.mask
  | .ldsD g _ _ _ => !g.mask
  | .ldsDE g _ _ _ => !g.mask
  | .stfD g _ _ _ => !g.mask
  | .ldc g _ _ _ _ => !g.mask
  | .stc g _ _ _ _ => !g.mask
  | .sysrd g _ _ => !g.mask
  | .syswr g _ _ => !g.mask
  | .trap g _ => !g.mask
  | .brk g _ => !g.mask
  | .eret => true
  | .eretSkip => true
  | .pclr g _ => !g.mask
  | .pclrVector g _ => !g.mask
  | .semwait g _ _ => !g.mask
  | .semsig g _ _ => !g.mask
  | .semrd g _ _ => !g.mask
  | .park => true
  | .wake g _ => !g.mask
  | .msg g _ => !g.mask
  | .fence _ => true
  | .vfence _ => true
  | .fmt m => decide (hi m 4 ≤ 12) && decide (m.toNat % 16 ≤ 12)
  | .vld _ _ _ _ _ => true
  | .vst _ _ _ _ _ => true
  | .vldStream _ _ _ => true
  | .vstStream _ _ _ => true
  | .vldb _ _ _ _ _ => true
  | .vstb _ _ _ _ _ => true
  | .vgath _ _ _ _ => true
  | .vscat _ _ _ _ => true
  | .vbcast _ _ _ => true
  | .vmovs _ _ _ _ => true
  | .vmovv _ _ _ => true
  | .vadd _ _ _ _ rm => decide (rm ≠ 6)
  | .vsub _ _ _ _ rm => decide (rm ≠ 6)
  | .vmul _ _ _ _ rm => decide (rm ≠ 6)
  | .vmin _ _ _ _ rm => decide (rm ≠ 6)
  | .vmax _ _ _ _ rm => decide (rm ≠ 6)
  | .vfma _ _ _ _ _ rm => decide (rm ≠ 6)
  | .vfms _ _ _ _ _ rm => decide (rm ≠ 6)
  | .vnfma _ _ _ _ _ rm => decide (rm ≠ 6)
  | .vabs _ _ _ rm => decide (rm ≠ 6)
  | .vneg _ _ _ rm => decide (rm ≠ 6)
  | .vrcp _ _ _ rm => decide (rm ≠ 6)
  | .vrsq _ _ _ rm => decide (rm ≠ 6)
  | .vexp2 _ _ _ rm => decide (rm ≠ 6)
  | .vlog2 _ _ _ rm => decide (rm ≠ 6)
  | .vscale _ _ _ _ rm => decide (rm ≠ 6)
  | .vclass _ _ _ => true
  | .vcmp _ _ _ _ _ => true
  | .vsel _ _ _ _ _ => true
  | .vred _ _ _ _ => true
  | .vscan _ _ _ _ _ rm => decide (rm ≠ 6)
  | .vperm _ _ _ _ => true
  | .vshuf _ _ _ _ _ => true
  | .vrot _ _ _ _ => true
  | .vdot _ _ _ _ _ rm => decide (rm ≠ 6)
  | .vcvt _ _ _ rm => decide (rm ≠ 6)
  | .vbscl _ _ _ _ _ rm => decide (rm ≠ 6)
  | .viadd _ _ _ _ => true
  | .visub _ _ _ _ => true
  | .vimul _ _ _ _ => true
  | .vimad _ _ _ _ _ => true
  | .viaddSat _ _ _ _ => true
  | .visubSat _ _ _ _ => true
  | .vshl _ _ _ _ => true
  | .vshr _ _ _ _ => true
  | .vsra _ _ _ _ => true
  | .vand _ _ _ _ => true
  | .vor _ _ _ _ => true
  | .vxor _ _ _ _ => true
  | .vpopc _ _ _ => true
  | .vpand g _ _ _ => !g.mask
  | .vpor g _ _ _ => !g.mask
  | .vpnot g _ _ => !g.mask
  | .mma g _ _ _ _ sy => !g.mask && siteOk 0 sy
  | .mman g _ _ _ _ sy => !g.mask && siteOk 0 sy
  | .mmaq g _ _ _ _ sy => !g.mask && siteOk 0 sy
  | .mmai g _ _ _ _ sy => !g.mask && siteOk 0 sy
  | .mmaRetire _ => true
  | .mmaComplete _ _ => true
  | .accz g _ => !g.mask
  | .accsw g _ sy => !g.mask && siteOk 0 sy
  | .accumulatorSwap _ _ => true
  | .accrd g _ _ _ => !g.mask
  | .accwr g _ _ _ => !g.mask
  | .accst g _ _ _ sy => !g.mask && siteOk 0 sy
  | .accld g _ _ _ sy => !g.mask && siteOk 0 sy
  | .accstComplete _ _ => true
  | .tblw g _ _ _ => !g.mask
  | .tblsw g _ sy => !g.mask && siteOk 0 sy
  | .tableSwap _ _ => true
  | .tblrd g _ _ _ _ => !g.mask
  | .bale g _ _ _ _ => !g.mask
  | .bstat g _ _ => !g.mask
  | .bset g _ => !g.mask
  | .lookup g _ _ _ => !g.mask
  | .ringcfg g _ _ => !g.mask
  | .ringpush g _ _ sy => !g.mask && siteOk 0 sy
  | .ringpop g _ _ sy => !g.mask && siteOk 0 sy
  | .ringstat g _ _ => !g.mask
  | .pflstop g _ sy => !g.mask && siteOk 0 sy
  | .pfl g _ sy => !g.mask && siteOk 0 sy
  | .pflComplete _ _ => true
  | .put g _ _ _ sy => !g.mask && siteOk 2 sy
  | .get g _ _ _ sy => !g.mask && siteOk 2 sy
  | .putv g _ _ _ _ sy => !g.mask && siteOk 2 sy
  | .getv g _ _ _ _ sy => !g.mask && siteOk 2 sy
  | .transferComplete _ _ _ => true
  | .xqstat g _ => !g.mask
  | .uien g _ => !g.mask
  | .uiret => true
  | .userInterruptDelivery _ _ => true
  | .ist g _ _ _ sy => !g.mask && siteOk 1 sy
  | .istfD g _ _ sy => !g.mask && siteOk 1 sy
  | .immediateStoreArrival _ _ => true
  | .immediateStoreComplete _ _ => true
  | .amo g op _ _ _ _ c => !g.mask && decide (op = .cas ∨ c = 0)
  | .amof g _ _ _ _ => !g.mask
  | .atomicPerform _ => true
  | .amodAdd g _ _ => !g.mask
  | .amodRecordArrival _ => true
  | .evsig g _ => !g.mask
  | .evarm g _ _ => !g.mask
  | .mtxrel g _ => !g.mask
  | .chainedArrival _ => true
  | .barrierRelease _ => true
  | .sync => true
  | .syncdown _ => true
  | .vote g v cause => !g.mask && voteOk v cause
  | .redc g _ _ => !g.mask
  | .redrd g _ => !g.mask
  | .xsched g _ sy => !g.mask && siteOk 0 sy
  | .xschedComplete _ => true
  | .gcfg g _ _ => !g.mask
  | .gsig g _ _ => !g.mask
  | .gskip g _ _ => !g.mask
  | .gmap g _ _ => !g.mask
  | .gforce g _ => !g.mask
  | .gseal g _ => !g.mask
  | .launch g _ _ => !g.mask
  | .teardown g _ _ => !g.mask
  | .preempt g _ _ => !g.mask
  | .barnsv g _ _ _ => !g.mask
  | .barnld g _ _ _ => !g.mask
  | .hmsg g _ _ => !g.mask
  | .qcbsv g _ _ _ => !g.mask
  | .qcbld g _ _ _ => !g.mask
  | .qpend g _ => !g.mask
  | .coll g _ _ _ sy => !g.mask && siteOk 0 sy
  | .collComplete _ _ _ => true
  | .rankmap g _ _ _ => !g.mask
  | .stepBudget _ => true
  | .startPhase _ => true
  | .listDispatch _ => true
  | .exchangePhase _ => true
  | .transferSendArrival _ _ => true
  | .activeMessageArrival _ _ => true
  | .messageStart _ => true
  | .arrive _ => true
  | .sheafCombine _ _ _ => true
  | .commit _ => true
  | .mirrorAck _ => true
  | .abort _ => true
  | .haltDecision _ => true
  | .deadlock _ => true
  | .segmentWakeEnd _ _ => true
  | .baleFillComplete _ _ => true
  | .baleDrainComplete _ _ => true
  | .subscriptionPush _ _ => true
  | .memoryRequest _ => true
  | .pageFaultAnswer _ _ => true
  | .publicationRecord _ _ => true
  | .hbmParityAlert _ _ _ _ _ _ _ _ => true
  | .stackCriticalTemperature _ _ => true
  | .stackCooled _ _ => true
  | .nocLinkFail _ _ => true
  | .eweitLinkFail _ _ _ => true
  | .resendRequest _ _ => true
  | .laneStop _ _ => true
  | .laneGo _ _ => true
  | .linkReset _ => true
  | .packageReset _ _ => true
  | .partidRst => true
  | .functionLevelReset _ => true
  | .hostLinkUncorrectable _ => true
  | .keyslotLoad => true
  | .keyslotErase => true
  | .alarm _ _ => true
  | .doorbell _ _ _ => true
  | .hostWake _ _ => true
  | .hostMemoryWrite _ _ _ => true
  | .jobSelection => true
  | .gangLaunch => true
  | .resume => true
  | .jobCompletion _ => true
  | .chargeUnit _ => true
  | .quantumExpiry _ => true
  | .timeUnitEnd => true
  | .spareRemap _ => true
  | .hostMessageTaken => true
  | .scheduleSendCompletion _ _ => true
  | .amodAcknowledgement _ => true

end Sys2Proof
end

