-- ==== Sys2Proof/Decode.lean ====
section
/-! DEFINITION. The decoder of Belot (R47-R64), total on any line, and after it the encoder. The heads
and field maps are those of R54 and R62-R64; an encoding that no row assigns decodes to none. -/

namespace Sys2Proof

/-! ## Tail forms (R54): each form's fields, cut from the tail value and put back -/

/-- The guard field (R52) as bits: INV, KIND, INDEX. -/
def Guard.bits (g : Guard) : BitVec 5 := BitVec.ofBool g.inv ++ BitVec.ofBool g.mask ++ g.idx

/-- The guard that five bits give (R52). -/
def Guard.ofBits (b : BitVec 5) : Guard := ⟨b.getLsbD 4, b.getLsbD 3, b.setWidth 3⟩

/-- The sync tail's halfwords B and A, as TV bits 63:32 (R56); bit B 2 is reserved and zero. -/
def Sync.bits (s : Sync) : BitVec 32 :=
  s.ssem ++ s.sinc ++ BitVec.ofBool s.wen ++ (0 : BitVec 1) ++ s.site ++ s.wsem ++ s.wthr

/-- The sync tail that 32 bits give (R56). -/
def Sync.ofBits (b : BitVec 32) : Sync :=
  ⟨b.extractLsb' 8 8, b.extractLsb' 0 8, b.extractLsb' 24 8, b.extractLsb' 20 4, b.getLsbD 19, b.extractLsb' 16 2⟩

/-- The fields of a form P tail (R54). -/
structure TailP where
  g : Guard
  x : BitVec 3
  y : BitVec 3
  z : BitVec 3
deriving DecidableEq, Repr

/-- A form P tail as its tail value. -/
def TailP.pack (t : TailP) : Word := (0 : BitVec 48) ++ (0 : BitVec 2) ++ t.z ++ t.y ++ t.x ++ t.g.bits

/-- The fields of a form P tail value; none when a reserved bit is set (R7). -/
def TailP.cut (v : Word) : Option TailP :=
  if v.extractLsb' 14 2 = 0 then some ⟨Guard.ofBits (v.extractLsb' 0 5), v.extractLsb' 5 3, v.extractLsb' 8 3, v.extractLsb' 11 3⟩ else none

/-- The fields of a form I tail (R54). -/
structure TailI where
  g : Guard
  imm : BitVec 11
deriving DecidableEq, Repr

/-- A form I tail as its tail value. -/
def TailI.pack (t : TailI) : Word := (0 : BitVec 48) ++ t.imm ++ t.g.bits

/-- The fields of a form I tail value. -/
def TailI.cut (v : Word) : Option TailI := some ⟨Guard.ofBits (v.extractLsb' 0 5), v.extractLsb' 5 11⟩

/-- The fields of a form D tail (R54). -/
structure TailD where
  g : Guard
  d : BitVec 6
  imm : BitVec 5
deriving DecidableEq, Repr

/-- A form D tail as its tail value. -/
def TailD.pack (t : TailD) : Word := (0 : BitVec 48) ++ t.imm ++ t.d ++ t.g.bits

/-- The fields of a form D tail value. -/
def TailD.cut (v : Word) : Option TailD := some ⟨Guard.ofBits (v.extractLsb' 0 5), v.extractLsb' 5 6, v.extractLsb' 11 5⟩

/-- The fields of a form S3 tail (R54). -/
structure TailS3 where
  g : Guard
  d : BitVec 6
  a : BitVec 6
  b : BitVec 6
  c : BitVec 6
deriving DecidableEq, Repr

/-- A form S3 tail as its tail value. -/
def TailS3.pack (t : TailS3) : Word := (0 : BitVec 32) ++ (0 : BitVec 3) ++ t.c ++ t.b ++ t.a ++ t.d ++ t.g.bits

/-- The fields of a form S3 tail value; none when a reserved bit is set (R7). -/
def TailS3.cut (v : Word) : Option TailS3 :=
  if v.extractLsb' 29 3 = 0 then some ⟨Guard.ofBits (v.extractLsb' 0 5), v.extractLsb' 5 6, v.extractLsb' 11 6, v.extractLsb' 17 6, v.extractLsb' 23 6⟩ else none

/-- The fields of a form SI tail (R54). -/
structure TailSI where
  g : Guard
  d : BitVec 6
  a : BitVec 6
  imm : BitVec 15
deriving DecidableEq, Repr

/-- A form SI tail as its tail value. -/
def TailSI.pack (t : TailSI) : Word := (0 : BitVec 32) ++ t.imm ++ t.a ++ t.d ++ t.g.bits

/-- The fields of a form SI tail value. -/
def TailSI.cut (v : Word) : Option TailSI := some ⟨Guard.ofBits (v.extractLsb' 0 5), v.extractLsb' 5 6, v.extractLsb' 11 6, v.extractLsb' 17 15⟩

/-- The fields of a form SM tail (R54). -/
structure TailSM where
  g : Guard
  d : BitVec 6
  m : BitVec 8
  n : BitVec 8
deriving DecidableEq, Repr

/-- A form SM tail as its tail value. -/
def TailSM.pack (t : TailSM) : Word := (0 : BitVec 32) ++ (0 : BitVec 5) ++ t.n ++ t.m ++ t.d ++ t.g.bits

/-- The fields of a form SM tail value; none when a reserved bit is set (R7). -/
def TailSM.cut (v : Word) : Option TailSM :=
  if v.extractLsb' 27 5 = 0 then some ⟨Guard.ofBits (v.extractLsb' 0 5), v.extractLsb' 5 6, v.extractLsb' 11 8, v.extractLsb' 19 8⟩ else none

/-- The fields of a form B tail (R54). -/
structure TailB where
  g : Guard
  a : BitVec 6
  b : BitVec 6
  target : BitVec 15
deriving DecidableEq, Repr

/-- A form B tail as its tail value. -/
def TailB.pack (t : TailB) : Word := (0 : BitVec 32) ++ t.target ++ t.b ++ t.a ++ t.g.bits

/-- The fields of a form B tail value. -/
def TailB.cut (v : Word) : Option TailB := some ⟨Guard.ofBits (v.extractLsb' 0 5), v.extractLsb' 5 6, v.extractLsb' 11 6, v.extractLsb' 17 15⟩

/-- The fields of a form V3 tail (R54). -/
structure TailV3 where
  g : Guard
  vd : BitVec 5
  va : BitVec 5
  vb : BitVec 5
  vc : BitVec 5
  rm : BitVec 3
deriving DecidableEq, Repr

/-- A form V3 tail as its tail value. -/
def TailV3.pack (t : TailV3) : Word := (0 : BitVec 32) ++ (0 : BitVec 4) ++ t.rm ++ t.vc ++ t.vb ++ t.va ++ t.vd ++ t.g.bits

/-- The fields of a form V3 tail value; none when a reserved bit is set (R7). -/
def TailV3.cut (v : Word) : Option TailV3 :=
  if v.extractLsb' 28 4 = 0 then some ⟨Guard.ofBits (v.extractLsb' 0 5), v.extractLsb' 5 5, v.extractLsb' 10 5, v.extractLsb' 15 5, v.extractLsb' 20 5, v.extractLsb' 25 3⟩ else none

/-- The fields of a form VS tail (R54). -/
structure TailVS where
  g : Guard
  vd : BitVec 5
  va : BitVec 5
  s : BitVec 6
  imm : BitVec 11
deriving DecidableEq, Repr

/-- A form VS tail as its tail value. -/
def TailVS.pack (t : TailVS) : Word := (0 : BitVec 32) ++ t.imm ++ t.s ++ t.va ++ t.vd ++ t.g.bits

/-- The fields of a form VS tail value. -/
def TailVS.cut (v : Word) : Option TailVS := some ⟨Guard.ofBits (v.extractLsb' 0 5), v.extractLsb' 5 5, v.extractLsb' 10 5, v.extractLsb' 15 6, v.extractLsb' 21 11⟩

/-- The fields of a form VK tail (R54). -/
structure TailVK where
  g : Guard
  vd : BitVec 5
  k : BitVec 3
deriving DecidableEq, Repr

/-- A form VK tail as its tail value. -/
def TailVK.pack (t : TailVK) : Word := (0 : BitVec 48) ++ (0 : BitVec 3) ++ t.k ++ t.vd ++ t.g.bits

/-- The fields of a form VK tail value; none when a reserved bit is set (R7). -/
def TailVK.cut (v : Word) : Option TailVK :=
  if v.extractLsb' 13 3 = 0 then some ⟨Guard.ofBits (v.extractLsb' 0 5), v.extractLsb' 5 5, v.extractLsb' 10 3⟩ else none

/-- The fields of a form E tail (R54). -/
structure TailE where
  g : Guard
  x : BitVec 6
  y : BitVec 6
  z : BitVec 6
  w : BitVec 6
  sy : Sync
deriving DecidableEq, Repr

/-- A form E tail as its tail value. -/
def TailE.pack (t : TailE) : Word := t.sy.bits ++ (0 : BitVec 3) ++ t.w ++ t.z ++ t.y ++ t.x ++ t.g.bits

/-- The fields of a form E tail value; none when a reserved bit is set (R7). -/
def TailE.cut (v : Word) : Option TailE :=
  if v.extractLsb' 29 3 = 0 ∧ v.getLsbD 50 = false then some ⟨Guard.ofBits (v.extractLsb' 0 5), v.extractLsb' 5 6, v.extractLsb' 11 6, v.extractLsb' 17 6, v.extractLsb' 23 6, Sync.ofBits (v.extractLsb' 32 32)⟩ else none

/-- A row of the opcode map: a head and the instruction that its tail's fields give, if it is assigned. -/
abbrev Rows (F : Type) := List (Nat × (F → Option Instr))

/-- An instruction, if a condition on its fields holds. -/
def ifOk (c : Bool) (i : Instr) : Option Instr := if c then some i else none

/-- Heads of form S3 (R62-R64), in order, part 1. -/
def rowsS3a : Rows TailS3 := [
  (0x0200, fun t => ifOk (decide (t.c = 0)) (.add t.g t.d t.a t.b)),
  (0x0201, fun t => ifOk (decide (t.c = 0)) (.sub t.g t.d t.a t.b)),
  (0x0202, fun t => ifOk (decide (t.c = 0)) (.and t.g t.d t.a t.b)),
  (0x0203, fun t => ifOk (decide (t.c = 0)) (.or t.g t.d t.a t.b)),
  (0x0204, fun t => ifOk (decide (t.c = 0)) (.xor t.g t.d t.a t.b)),
  (0x0205, fun t => ifOk (decide (t.c = 0)) (.andn t.g t.d t.a t.b)),
  (0x0206, fun t => ifOk (decide (t.c = 0)) (.shl t.g t.d t.a t.b)),
  (0x0207, fun t => ifOk (decide (t.c = 0)) (.shr t.g t.d t.a t.b)),
  (0x0208, fun t => ifOk (decide (t.c = 0)) (.sra t.g t.d t.a t.b)),
  (0x0209, fun t => ifOk (decide (t.c = 0)) (.rol t.g t.d t.a t.b)),
  (0x020A, fun t => ifOk (decide (t.c = 0)) (.min t.g t.d t.a t.b)),
  (0x020B, fun t => ifOk (decide (t.c = 0)) (.max t.g t.d t.a t.b)),
  (0x020C, fun t => ifOk (decide (t.c = 0)) (.minu t.g t.d t.a t.b)),
  (0x020D, fun t => ifOk (decide (t.c = 0)) (.maxu t.g t.d t.a t.b)),
  (0x0210, fun t => ifOk (decide (t.c = 0)) (.mul t.g t.d t.a t.b)),
  (0x0211, fun t => ifOk (decide (t.c = 0)) (.mulh t.g t.d t.a t.b)),
  (0x0212, fun t => ifOk (decide (t.c = 0)) (.mulhu t.g t.d t.a t.b)),
  (0x0214, fun t => ifOk (decide (t.c = 0)) (.div t.g t.d t.a t.b)),
  (0x0215, fun t => ifOk (decide (t.c = 0)) (.divu t.g t.d t.a t.b)),
  (0x0216, fun t => ifOk (decide (t.c = 0)) (.rem t.g t.d t.a t.b)),
  (0x0217, fun t => ifOk (decide (t.c = 0)) (.remu t.g t.d t.a t.b)),
  (0x0A00, fun t => ifOk (decide (t.b = 0) && decide (t.c = 0)) (.clz t.g t.d t.a)),
  (0x0A01, fun t => ifOk (decide (t.b = 0) && decide (t.c = 0)) (.ctz t.g t.d t.a)),
  (0x0A02, fun t => ifOk (decide (t.b = 0) && decide (t.c = 0)) (.popc t.g t.d t.a)),
  (0x0A03, fun t => ifOk (decide (t.b = 0) && decide (t.c = 0)) (.abs t.g t.d t.a)),
  (0x0A04, fun t => ifOk (decide (t.b = 0) && decide (t.c = 0)) (.mov t.g t.d t.a)),
  (0x0A08, fun t => ifOk (decide (t.b = 0) && decide (t.c = 0)) (.sext t.g .b t.d t.a)),
  (0x0A09, fun t => ifOk (decide (t.b = 0) && decide (t.c = 0)) (.sext t.g .h t.d t.a)),
  (0x0A0A, fun t => ifOk (decide (t.b = 0) && decide (t.c = 0)) (.sext t.g .w t.d t.a)),
  (0x0A0C, fun t => ifOk (decide (t.b = 0) && decide (t.c = 0)) (.zext t.g .b t.d t.a)),
  (0x0A0D, fun t => ifOk (decide (t.b = 0) && decide (t.c = 0)) (.zext t.g .h t.d t.a)),
  (0x0A0E, fun t => ifOk (decide (t.b = 0) && decide (t.c = 0)) (.zext t.g .w t.d t.a)),
  (0x0E00, fun t => ifOk (decide (t.b.toNat + t.c.toNat + 1 ≤ 64)) (.bfx t.g t.d t.a t.b t.c)),
  (0x0E01, fun t => ifOk (decide (t.b.toNat + t.c.toNat + 1 ≤ 64)) (.bfxS t.g t.d t.a t.b t.c)),
  (0x0E02, fun t => ifOk (decide (t.b.toNat + t.c.toNat + 1 ≤ 64)) (.bfi t.g t.d t.a t.b t.c)),
  (0x1201, fun t => ifOk (decide (hi t.c 2 = 0)) (.lea t.g t.d t.a t.b (t.c.setWidth 2))),
  (0x1202, fun t => ifOk (decide (hi t.c 3 = 0)) (.sel t.g t.d t.a t.b (t.c.setWidth 3))),
  (0x1210, fun t => ifOk (decide (hi t.d 3 = 0) && decide (t.c = 0)) (.cmp t.g .eq (t.d.setWidth 3) t.a t.b)),
  (0x1211, fun t => ifOk (decide (hi t.d 3 = 0) && decide (t.c = 0)) (.cmp t.g .ne (t.d.setWidth 3) t.a t.b)),
  (0x1212, fun t => ifOk (decide (hi t.d 3 = 0) && decide (t.c = 0)) (.cmp t.g .lt (t.d.setWidth 3) t.a t.b))]

/-- Heads of form S3 (R62-R64), in order, part 2. -/
def rowsS3b : Rows TailS3 := [
  (0x1213, fun t => ifOk (decide (hi t.d 3 = 0) && decide (t.c = 0)) (.cmp t.g .ge (t.d.setWidth 3) t.a t.b)),
  (0x1214, fun t => ifOk (decide (hi t.d 3 = 0) && decide (t.c = 0)) (.cmp t.g .ltu (t.d.setWidth 3) t.a t.b)),
  (0x1215, fun t => ifOk (decide (hi t.d 3 = 0) && decide (t.c = 0)) (.cmp t.g .geu (t.d.setWidth 3) t.a t.b)),
  (0x1218, fun t => ifOk (decide (hi t.d 3 = 0) && decide (t.c = 0)) (.tst t.g (t.d.setWidth 3) t.a t.b)),
  (0x1219, fun t => ifOk (decide (hi t.d 3 = 0) && decide (t.c = 0)) (.tstZ t.g (t.d.setWidth 3) t.a t.b)),
  (0x7606, fun t => ifOk (decide (t.d = 0) && decide (t.b = 0) && decide (t.c = 0)) (.msg t.g t.a)),
  (0xE200, fun t => some (.bale t.g t.d t.a t.b t.c)),
  (0xE201, fun t => ifOk (decide (t.a = 0) && decide (t.b = 0)) (.bstat t.g t.d t.c)),
  (0xE202, fun t => ifOk (decide (t.d = 0) && decide (t.a = 0) && decide (t.b = 0)) (.bset t.g t.c)),
  (0xE203, fun t => ifOk (decide (t.c = 0)) (.lookup t.g t.d t.a t.b)),
  (0xE600, fun t => ifOk (decide (t.d = 0) && decide (t.b = 0) && decide (hi t.c 3 = 0)) (.ringcfg t.g (t.c.setWidth 3) t.a)),
  (0xE603, fun t => ifOk (decide (t.a = 0) && decide (t.b = 0) && decide (hi t.c 3 = 0)) (.ringstat t.g t.d (t.c.setWidth 3))),
  (0xF210, fun t => ifOk (decide (t.c = 0)) (.amo t.g .add false t.d t.a t.b t.c)),
  (0xF211, fun t => ifOk (decide (t.c = 0)) (.amo t.g .and false t.d t.a t.b t.c)),
  (0xF212, fun t => ifOk (decide (t.c = 0)) (.amo t.g .or false t.d t.a t.b t.c)),
  (0xF213, fun t => ifOk (decide (t.c = 0)) (.amo t.g .xor false t.d t.a t.b t.c)),
  (0xF214, fun t => ifOk (decide (t.c = 0)) (.amo t.g .min false t.d t.a t.b t.c)),
  (0xF215, fun t => ifOk (decide (t.c = 0)) (.amo t.g .max false t.d t.a t.b t.c)),
  (0xF216, fun t => ifOk (decide (t.c = 0)) (.amo t.g .minu false t.d t.a t.b t.c)),
  (0xF217, fun t => ifOk (decide (t.c = 0)) (.amo t.g .maxu false t.d t.a t.b t.c)),
  (0xF218, fun t => ifOk (decide (t.c = 0)) (.amo t.g .swap false t.d t.a t.b t.c)),
  (0xF219, fun t => some (.amo t.g .cas false t.d t.a t.b t.c)),
  (0xF220, fun t => ifOk (decide (t.c = 0)) (.amof t.g .add t.d t.a t.b)),
  (0xF221, fun t => ifOk (decide (t.c = 0)) (.amof t.g .min t.d t.a t.b)),
  (0xF222, fun t => ifOk (decide (t.c = 0)) (.amof t.g .max t.d t.a t.b)),
  (0xF228, fun t => ifOk (decide (t.d = 0) && decide (t.c = 0)) (.amodAdd t.g t.a t.b)),
  (0xF230, fun t => ifOk (decide (t.c = 0)) (.amo t.g .add true t.d t.a t.b t.c)),
  (0xF231, fun t => ifOk (decide (t.c = 0)) (.amo t.g .and true t.d t.a t.b t.c)),
  (0xF232, fun t => ifOk (decide (t.c = 0)) (.amo t.g .or true t.d t.a t.b t.c)),
  (0xF233, fun t => ifOk (decide (t.c = 0)) (.amo t.g .xor true t.d t.a t.b t.c)),
  (0xF234, fun t => ifOk (decide (t.c = 0)) (.amo t.g .min true t.d t.a t.b t.c)),
  (0xF235, fun t => ifOk (decide (t.c = 0)) (.amo t.g .max true t.d t.a t.b t.c)),
  (0xF236, fun t => ifOk (decide (t.c = 0)) (.amo t.g .minu true t.d t.a t.b t.c)),
  (0xF237, fun t => ifOk (decide (t.c = 0)) (.amo t.g .maxu true t.d t.a t.b t.c)),
  (0xF238, fun t => ifOk (decide (t.c = 0)) (.amo t.g .swap true t.d t.a t.b t.c)),
  (0xF239, fun t => some (.amo t.g .cas true t.d t.a t.b t.c)),
  (0xF240, fun t => ifOk (decide (t.d = 0) && decide (t.b = 0) && decide (t.c = 0)) (.evsig t.g t.a)),
  (0xF241, fun t => ifOk (decide (t.d = 0) && decide (t.c = 0)) (.evarm t.g t.a t.b)),
  (0xF242, fun t => ifOk (decide (t.d = 0) && decide (t.b = 0) && decide (t.c = 0)) (.mtxrel t.g t.a)),
  (0xF603, fun t => ifOk (decide (t.a = 0) && decide (t.b = 0) && decide (t.c = 0)) (.redrd t.g t.d))]

/-- Heads of form S3 (R62-R64), in order, part 3. -/
def rowsS3c : Rows TailS3 := [
  (0xF610, fun t => ifOk (decide (t.d = 0) && decide (t.b = 0) && decide (hi t.c 3 = 0)) (.gcfg t.g (t.c.setWidth 3) t.a)),
  (0xF611, fun t => ifOk (decide (t.b = 0) && decide (t.c = 0)) (.gsig t.g t.d t.a)),
  (0xF612, fun t => ifOk (decide (t.b = 0) && decide (t.c = 0)) (.gskip t.g t.d t.a)),
  (0xF613, fun t => ifOk (decide (t.b = 0) && decide (t.c = 0)) (.gmap t.g t.d t.a)),
  (0xF614, fun t => ifOk (decide (t.d = 0) && decide (t.b = 0) && decide (t.c = 0)) (.gforce t.g t.a)),
  (0xF615, fun t => ifOk (decide (t.d = 0) && decide (t.a = 0) && decide (t.b = 0) && decide (hi t.c 3 = 0)) (.gseal t.g (t.c.setWidth 3))),
  (0xF620, fun t => ifOk (decide (t.d = 0) && decide (t.b = 0) && decide (t.c = 0)) (.redc t.g .add t.a)),
  (0xF621, fun t => ifOk (decide (t.d = 0) && decide (t.b = 0) && decide (t.c = 0)) (.redc t.g .min t.a)),
  (0xF622, fun t => ifOk (decide (t.d = 0) && decide (t.b = 0) && decide (t.c = 0)) (.redc t.g .max t.a)),
  (0xF623, fun t => ifOk (decide (t.d = 0) && decide (t.b = 0) && decide (t.c = 0)) (.redc t.g .and t.a)),
  (0xF624, fun t => ifOk (decide (t.d = 0) && decide (t.b = 0) && decide (t.c = 0)) (.redc t.g .or t.a)),
  (0xF625, fun t => ifOk (decide (t.d = 0) && decide (t.b = 0) && decide (t.c = 0)) (.redc t.g .fadd t.a)),
  (0xFA00, fun t => ifOk (decide (t.b = 0) && decide (t.c = 0)) (.launch t.g t.d t.a)),
  (0xFA01, fun t => ifOk (decide (t.b = 0) && decide (t.c = 0)) (.teardown t.g t.d t.a)),
  (0xFA02, fun t => ifOk (decide (t.b = 0) && decide (t.c = 0)) (.preempt t.g t.d t.a)),
  (0xFA03, fun t => ifOk (decide (t.c = 0)) (.barnsv t.g t.d t.a t.b)),
  (0xFA04, fun t => ifOk (decide (t.c = 0)) (.barnld t.g t.d t.a t.b)),
  (0xFA05, fun t => ifOk (decide (t.d = 0) && decide (t.c = 0)) (.hmsg t.g t.a t.b)),
  (0xFA06, fun t => ifOk (decide (t.c = 0)) (.qcbsv t.g t.d t.a t.b)),
  (0xFA07, fun t => ifOk (decide (t.c = 0)) (.qcbld t.g t.d t.a t.b)),
  (0xFA08, fun t => ifOk (decide (t.a = 0) && decide (t.b = 0) && decide (t.c = 0)) (.qpend t.g t.d)),
  (0xFA11, fun t => ifOk (decide (t.c = 0)) (.rankmap t.g t.d t.a t.b))]

/-- All heads of form S3. -/
def rowsS3 : Rows TailS3 := rowsS3a ++ rowsS3b ++ rowsS3c

/-- Heads of form SI (R62-R64), in order, part 1. -/
def rowsSIa : Rows TailSI := [
  (0x0600, fun t => some (.addi t.g t.d t.a t.imm)),
  (0x0602, fun t => some (.andImm t.g t.d t.a t.imm)),
  (0x0603, fun t => some (.orImm t.g t.d t.a t.imm)),
  (0x0604, fun t => some (.xorImm t.g t.d t.a t.imm)),
  (0x0605, fun t => some (.andnImm t.g t.d t.a t.imm)),
  (0x0606, fun t => some (.shlImm t.g t.d t.a t.imm)),
  (0x0607, fun t => some (.shrImm t.g t.d t.a t.imm)),
  (0x0608, fun t => some (.sraImm t.g t.d t.a t.imm)),
  (0x0609, fun t => some (.rolImm t.g t.d t.a t.imm)),
  (0x060A, fun t => some (.minImm t.g t.d t.a t.imm)),
  (0x060B, fun t => some (.maxImm t.g t.d t.a t.imm)),
  (0x060C, fun t => some (.minuImm t.g t.d t.a t.imm)),
  (0x060D, fun t => some (.maxuImm t.g t.d t.a t.imm)),
  (0x0610, fun t => some (.mulImm t.g t.d t.a t.imm)),
  (0x1610, fun t => ifOk (decide (hi t.d 3 = 0)) (.cmpImm t.g .eq (t.d.setWidth 3) t.a t.imm)),
  (0x1611, fun t => ifOk (decide (hi t.d 3 = 0)) (.cmpImm t.g .ne (t.d.setWidth 3) t.a t.imm)),
  (0x1612, fun t => ifOk (decide (hi t.d 3 = 0)) (.cmpImm t.g .lt (t.d.setWidth 3) t.a t.imm)),
  (0x1613, fun t => ifOk (decide (hi t.d 3 = 0)) (.cmpImm t.g .ge (t.d.setWidth 3) t.a t.imm)),
  (0x1614, fun t => ifOk (decide (hi t.d 3 = 0)) (.cmpImm t.g .ltu (t.d.setWidth 3) t.a t.imm)),
  (0x1615, fun t => ifOk (decide (hi t.d 3 = 0)) (.cmpImm t.g .geu (t.d.setWidth 3) t.a t.imm)),
  (0x1618, fun t => ifOk (decide (hi t.d 3 = 0)) (.tstImm t.g (t.d.setWidth 3) t.a t.imm)),
  (0x1619, fun t => ifOk (decide (hi t.d 3 = 0)) (.tstZImm t.g (t.d.setWidth 3) t.a t.imm)),
  (0x6200, fun t => some (.ld t.g .b t.d t.a t.imm)),
  (0x6201, fun t => some (.ld t.g .h t.d t.a t.imm)),
  (0x6202, fun t => some (.ld t.g .w t.d t.a t.imm)),
  (0x6203, fun t => some (.ld t.g .d t.d t.a t.imm)),
  (0x6204, fun t => some (.st t.g .b t.d t.a t.imm)),
  (0x6205, fun t => some (.st t.g .h t.d t.a t.imm)),
  (0x6206, fun t => some (.st t.g .w t.d t.a t.imm)),
  (0x6207, fun t => some (.st t.g .d t.d t.a t.imm)),
  (0x6208, fun t => some (.ldv t.g .b t.d t.a t.imm)),
  (0x6209, fun t => some (.ldv t.g .h t.d t.a t.imm)),
  (0x620A, fun t => some (.ldv t.g .w t.d t.a t.imm)),
  (0x620B, fun t => some (.ldv t.g .d t.d t.a t.imm)),
  (0x620C, fun t => some (.stv t.g .b t.d t.a t.imm)),
  (0x620D, fun t => some (.stv t.g .h t.d t.a t.imm)),
  (0x620E, fun t => some (.stv t.g .w t.d t.a t.imm)),
  (0x620F, fun t => some (.stv t.g .d t.d t.a t.imm)),
  (0x6210, fun t => some (.ldsD t.g t.d t.a t.imm)),
  (0x6211, fun t => some (.ldsDE t.g t.d t.a t.imm))]

/-- Heads of form SI (R62-R64), in order, part 2. -/
def rowsSIb : Rows TailSI := [
  (0x6214, fun t => some (.stfD t.g t.d t.a t.imm)),
  (0x6218, fun t => some (.ldc t.g .b t.d t.a t.imm)),
  (0x6219, fun t => some (.ldc t.g .h t.d t.a t.imm)),
  (0x621A, fun t => some (.ldc t.g .w t.d t.a t.imm)),
  (0x621B, fun t => some (.ldc t.g .d t.d t.a t.imm)),
  (0x621C, fun t => some (.stc t.g .b t.d t.a t.imm)),
  (0x621D, fun t => some (.stc t.g .h t.d t.a t.imm)),
  (0x621E, fun t => some (.stc t.g .w t.d t.a t.imm)),
  (0x621F, fun t => some (.stc t.g .d t.d t.a t.imm)),
  (0x7200, fun t => ifOk (decide (t.a = 0) && decide (t.imm.extractLsb' 12 3 = 0)) (.sysrd t.g t.d (t.imm.setWidth 12))),
  (0x7201, fun t => ifOk (decide (t.d = 0) && decide (t.imm.extractLsb' 12 3 = 0)) (.syswr t.g t.a (t.imm.setWidth 12)))]

/-- All heads of form SI. -/
def rowsSI : Rows TailSI := rowsSIa ++ rowsSIb

/-- Heads of form SM (R62-R64). -/
def rowsSM : Rows TailSM := [
  (0x7600, fun t => ifOk (decide (t.d = 0)) (.semwait t.g t.m t.n)),
  (0x7601, fun t => ifOk (decide (t.d = 0)) (.semsig t.g t.m t.n)),
  (0x7602, fun t => ifOk (decide (t.n = 0)) (.semrd t.g t.d t.m))]

/-- Heads of form B (R62-R64). -/
def rowsB : Rows TailB := [
  (0x4600, fun t => ifOk (decide (t.a = 0) && decide (t.b = 0)) (.br t.g t.target)),
  (0x4601, fun t => ifOk (decide (t.b = 0)) (.jal t.g t.a t.target)),
  (0x4602, fun t => ifOk (decide (t.target = 0)) (.jr t.g t.a t.b)),
  (0x4604, fun t => ifOk (decide (t.b = 0)) (.loop t.g t.a t.target)),
  (0x4605, fun t => if t.b = 0 then some (if t.a = 0 ∧ t.target = 0 then .repStreamLoad t.g else .rep t.g t.a t.b t.target)
    else if t.a ≠ 0 ∧ t.target ≠ 0 then none else some (.rep t.g t.a t.b t.target)),
  (0x4610, fun t => some (.brc t.g .eq t.a t.b t.target)),
  (0x4611, fun t => some (.brc t.g .ne t.a t.b t.target)),
  (0x4612, fun t => some (.brc t.g .lt t.a t.b t.target)),
  (0x4613, fun t => some (.brc t.g .ge t.a t.b t.target)),
  (0x4614, fun t => some (.brc t.g .ltu t.a t.b t.target)),
  (0x4615, fun t => some (.brc t.g .geu t.a t.b t.target))]

/-- Heads of form P (R62-R64). -/
def rowsP : Rows TailP := [
  (0x4100, fun t => some (.pand t.g t.x t.y t.z)),
  (0x4101, fun t => some (.por t.g t.x t.y t.z)),
  (0x4102, fun t => some (.pxor t.g t.x t.y t.z)),
  (0x4103, fun t => ifOk (decide (t.z = 0)) (.pnot t.g t.x t.y)),
  (0x4104, fun t => ifOk (decide (t.z = 0)) (.pmov t.g t.x t.y)),
  (0x4105, fun t => ifOk (decide (t.z = 0)) (.pany t.g t.x t.y)),
  (0x9D00, fun t => some (.vpand t.g t.x t.y t.z)),
  (0x9D01, fun t => some (.vpor t.g t.x t.y t.z)),
  (0x9D02, fun t => ifOk (decide (t.z = 0)) (.vpnot t.g t.x t.y))]

/-- Heads of form I (R62-R64). -/
def rowsI : Rows TailI := [
  (0x4503, fun t => ifOk (decide (t.imm = 0)) (.ret t.g)),
  (0x7102, fun t => some (.trap t.g t.imm)),
  (0x7103, fun t => some (.brk t.g t.imm)),
  (0x7505, fun t => ifOk (decide (t.imm.extractLsb' 2 9 = 0)) (.wake t.g (t.imm.setWidth 2))),
  (0xF501, fun t => ifOk (decide (t.imm.getLsbD 10 = false) && voteOk (t.imm.setWidth 2) (t.imm.extractLsb' 2 8)) (.vote t.g (t.imm.setWidth 2) (t.imm.extractLsb' 2 8)))]

/-- Heads of form D (R62-R64). -/
def rowsD : Rows TailD := [
  (0x7106, fun t => ifOk (decide (t.imm = 0)) (.pclr t.g t.d)),
  (0x7107, fun t => ifOk (decide (t.imm = 0) && decide (hi t.d 5 = 0)) (.pclrVector t.g (t.d.setWidth 5))),
  (0xC500, fun t => ifOk (decide (t.imm = 0) && decide (hi t.d 3 = 0)) (.accz t.g (t.d.setWidth 3))),
  (0xE904, fun t => ifOk (decide (t.imm = 0)) (.xqstat t.g t.d)),
  (0xE908, fun t => ifOk (decide (t.d = 0) && decide (hi t.imm 1 = 0)) (.uien t.g (t.imm.getLsbD 0)))]

/-- Heads of form V3 (R62-R64), in order, part 1. -/
def rowsV3a : Rows TailV3 := [
  (0x8602, fun t => ifOk (decide (t.vb = 0) && decide (t.vc = 0) && decide (t.rm = 0)) (.vmovv t.g t.vd t.va)),
  (0x8A00, fun t => ifOk (decide (t.vc = 0) && decide (t.rm ≠ 6)) (.vadd t.g t.vd t.va t.vb t.rm)),
  (0x8A01, fun t => ifOk (decide (t.vc = 0) && decide (t.rm ≠ 6)) (.vsub t.g t.vd t.va t.vb t.rm)),
  (0x8A02, fun t => ifOk (decide (t.vc = 0) && decide (t.rm ≠ 6)) (.vmul t.g t.vd t.va t.vb t.rm)),
  (0x8A03, fun t => ifOk (decide (t.vc = 0) && decide (t.rm ≠ 6)) (.vmin t.g t.vd t.va t.vb t.rm)),
  (0x8A04, fun t => ifOk (decide (t.vc = 0) && decide (t.rm ≠ 6)) (.vmax t.g t.vd t.va t.vb t.rm)),
  (0x8A08, fun t => ifOk (decide (t.rm ≠ 6)) (.vfma t.g t.vd t.va t.vb t.vc t.rm)),
  (0x8A09, fun t => ifOk (decide (t.rm ≠ 6)) (.vfms t.g t.vd t.va t.vb t.vc t.rm)),
  (0x8A0A, fun t => ifOk (decide (t.rm ≠ 6)) (.vnfma t.g t.vd t.va t.vb t.vc t.rm)),
  (0x8A10, fun t => ifOk (decide (t.vb = 0) && decide (t.vc = 0) && decide (t.rm ≠ 6)) (.vabs t.g t.vd t.va t.rm)),
  (0x8A11, fun t => ifOk (decide (t.vb = 0) && decide (t.vc = 0) && decide (t.rm ≠ 6)) (.vneg t.g t.vd t.va t.rm)),
  (0x8A12, fun t => ifOk (decide (t.vb = 0) && decide (t.vc = 0) && decide (t.rm ≠ 6)) (.vrcp t.g t.vd t.va t.rm)),
  (0x8A13, fun t => ifOk (decide (t.vb = 0) && decide (t.vc = 0) && decide (t.rm ≠ 6)) (.vrsq t.g t.vd t.va t.rm)),
  (0x8A14, fun t => ifOk (decide (t.vb = 0) && decide (t.vc = 0) && decide (t.rm ≠ 6)) (.vexp2 t.g t.vd t.va t.rm)),
  (0x8A15, fun t => ifOk (decide (t.vb = 0) && decide (t.vc = 0) && decide (t.rm ≠ 6)) (.vlog2 t.g t.vd t.va t.rm)),
  (0x8A18, fun t => ifOk (decide (t.vc = 0) && decide (t.rm ≠ 6)) (.vscale t.g t.vd t.va t.vb t.rm)),
  (0x8A19, fun t => ifOk (decide (t.vb = 0) && decide (t.vc = 0) && decide (t.rm = 0)) (.vclass t.g t.vd t.va)),
  (0x8E00, fun t => ifOk (decide (hi t.vd 3 = 0) && decide (t.vc = 0) && decide (t.rm = 0)) (.vcmp t.g .eq (t.vd.setWidth 3) t.va t.vb)),
  (0x8E01, fun t => ifOk (decide (hi t.vd 3 = 0) && decide (t.vc = 0) && decide (t.rm = 0)) (.vcmp t.g .ne (t.vd.setWidth 3) t.va t.vb)),
  (0x8E02, fun t => ifOk (decide (hi t.vd 3 = 0) && decide (t.vc = 0) && decide (t.rm = 0)) (.vcmp t.g .lt (t.vd.setWidth 3) t.va t.vb)),
  (0x8E03, fun t => ifOk (decide (hi t.vd 3 = 0) && decide (t.vc = 0) && decide (t.rm = 0)) (.vcmp t.g .le (t.vd.setWidth 3) t.va t.vb)),
  (0x8E04, fun t => ifOk (decide (hi t.vd 3 = 0) && decide (t.vc = 0) && decide (t.rm = 0)) (.vcmp t.g .gt (t.vd.setWidth 3) t.va t.vb)),
  (0x8E05, fun t => ifOk (decide (hi t.vd 3 = 0) && decide (t.vc = 0) && decide (t.rm = 0)) (.vcmp t.g .ge (t.vd.setWidth 3) t.va t.vb)),
  (0x8E06, fun t => ifOk (decide (hi t.vd 3 = 0) && decide (t.vc = 0) && decide (t.rm = 0)) (.vcmp t.g .un (t.vd.setWidth 3) t.va t.vb)),
  (0x8E08, fun t => ifOk (decide (hi t.vc 3 = 0) && decide (t.rm = 0)) (.vsel t.g t.vd t.va t.vb (t.vc.setWidth 3))),
  (0x9204, fun t => ifOk (decide (t.vc = 0) && decide (t.rm ≠ 6)) (.vscan t.g .add t.vd t.va t.vb t.rm)),
  (0x9205, fun t => ifOk (decide (t.vc = 0) && decide (t.rm ≠ 6)) (.vscan t.g .min t.vd t.va t.vb t.rm)),
  (0x9206, fun t => ifOk (decide (t.vc = 0) && decide (t.rm ≠ 6)) (.vscan t.g .max t.vd t.va t.vb t.rm)),
  (0x9208, fun t => ifOk (decide (t.vc = 0) && decide (t.rm = 0)) (.vperm t.g t.vd t.va t.vb)),
  (0x9209, fun t => ifOk (decide (t.rm = 0)) (.vshuf t.g t.vd t.va t.vb t.vc)),
  (0x920C, fun t => ifOk (decide (t.rm ≠ 6)) (.vdot t.g t.vd t.va t.vb t.vc t.rm)),
  (0x9600, fun t => ifOk (decide (t.vb = 0) && decide (t.vc = 0) && decide (t.rm ≠ 6)) (.vcvt t.g t.vd t.va t.rm)),
  (0x9601, fun t => ifOk (decide (t.rm ≠ 6)) (.vbscl t.g t.vd t.va t.vb t.vc t.rm)),
  (0x9A00, fun t => ifOk (decide (t.vc = 0) && decide (t.rm = 0)) (.viadd t.g t.vd t.va t.vb)),
  (0x9A01, fun t => ifOk (decide (t.vc = 0) && decide (t.rm = 0)) (.visub t.g t.vd t.va t.vb)),
  (0x9A02, fun t => ifOk (decide (t.vc = 0) && decide (t.rm = 0)) (.vimul t.g t.vd t.va t.vb)),
  (0x9A03, fun t => ifOk (decide (t.rm = 0)) (.vimad t.g t.vd t.va t.vb t.vc)),
  (0x9A08, fun t => ifOk (decide (t.vc = 0) && decide (t.rm = 0)) (.vand t.g t.vd t.va t.vb)),
  (0x9A09, fun t => ifOk (decide (t.vc = 0) && decide (t.rm = 0)) (.vor t.g t.vd t.va t.vb)),
  (0x9A0A, fun t => ifOk (decide (t.vc = 0) && decide (t.rm = 0)) (.vxor t.g t.vd t.va t.vb))]

/-- Heads of form V3 (R62-R64), in order, part 2. -/
def rowsV3b : Rows TailV3 := [
  (0x9A0C, fun t => ifOk (decide (t.vc = 0) && decide (t.rm = 0)) (.vshl t.g t.vd t.va t.vb)),
  (0x9A0D, fun t => ifOk (decide (t.vc = 0) && decide (t.rm = 0)) (.vshr t.g t.vd t.va t.vb)),
  (0x9A0E, fun t => ifOk (decide (t.vc = 0) && decide (t.rm = 0)) (.vsra t.g t.vd t.va t.vb)),
  (0x9A10, fun t => ifOk (decide (t.vb = 0) && decide (t.vc = 0) && decide (t.rm = 0)) (.vpopc t.g t.vd t.va)),
  (0x9A80, fun t => ifOk (decide (t.vc = 0) && decide (t.rm = 0)) (.viaddSat t.g t.vd t.va t.vb)),
  (0x9A81, fun t => ifOk (decide (t.vc = 0) && decide (t.rm = 0)) (.visubSat t.g t.vd t.va t.vb))]

/-- All heads of form V3. -/
def rowsV3 : Rows TailV3 := rowsV3a ++ rowsV3b

/-- Heads of form VS (R62-R64). -/
def rowsVS : Rows TailVS := [
  (0x8200, fun t => some (.vld t.g t.vd t.va t.s t.imm)),
  (0x8201, fun t => some (.vst t.g t.vd t.va t.s t.imm)),
  (0x8202, fun t => some (.vldb t.g t.vd t.va t.s t.imm)),
  (0x8203, fun t => some (.vstb t.g t.vd t.va t.s t.imm)),
  (0x8204, fun t => ifOk (decide (t.imm = 0)) (.vgath t.g t.vd t.va t.s)),
  (0x8205, fun t => ifOk (decide (t.imm = 0)) (.vscat t.g t.vd t.va t.s)),
  (0x8600, fun t => ifOk (decide (t.va = 0) && decide (t.imm = 0)) (.vbcast t.g t.vd t.s)),
  (0x8601, fun t => ifOk (decide (t.vd = 0) && decide (t.imm.extractLsb' 6 5 = 0)) (.vmovs t.g t.s t.va (t.imm.setWidth 6))),
  (0x9200, fun t => ifOk (decide (t.vd = 0) && decide (t.imm = 0)) (.vred t.g .add t.s t.va)),
  (0x9201, fun t => ifOk (decide (t.vd = 0) && decide (t.imm = 0)) (.vred t.g .min t.s t.va)),
  (0x9202, fun t => ifOk (decide (t.vd = 0) && decide (t.imm = 0)) (.vred t.g .max t.s t.va)),
  (0x920A, fun t => ifOk (decide (t.s = 0) && decide (t.imm.extractLsb' 6 5 = 0)) (.vrot t.g t.vd t.va (t.imm.setWidth 6))),
  (0xC602, fun t => ifOk (decide (hi t.va 3 = 0) && decide (t.s = 0) && decide (t.imm.extractLsb' 5 6 = 0)) (.accrd t.g t.vd (t.va.setWidth 3) (t.imm.setWidth 5))),
  (0xC603, fun t => ifOk (decide (hi t.va 3 = 0) && decide (t.s = 0) && decide (t.imm.extractLsb' 5 6 = 0)) (.accwr t.g t.vd (t.va.setWidth 3) (t.imm.setWidth 5))),
  (0xCA00, fun t => ifOk (decide (t.vd = 0) && decide (t.s = 0) && decide (t.imm.extractLsb' 3 8 = 0)) (.tblw t.g t.va (t.imm.setWidth 2) (t.imm.getLsbD 2))),
  (0xCA02, fun t => ifOk (decide (t.va = 0) && decide (t.s = 0) && decide (t.imm.extractLsb' 4 7 = 0)) (.tblrd t.g t.vd (t.imm.setWidth 2) (t.imm.getLsbD 2) (t.imm.getLsbD 3)))]

/-- Heads of form VK (R62-R64). -/
def rowsVK : Rows TailVK := [
  (0x8108, fun t => some (.vldStream t.g t.vd t.k)),
  (0x8109, fun t => some (.vstStream t.g t.vd t.k))]

/-- Heads of form E (R62-R64). -/
def rowsE : Rows TailE := [
  (0xC300, fun t => ifOk (decide (hi t.x 3 = 0) && decide (hi t.y 3 = 0) && decide (hi t.z 3 = 0) && siteOk 0 t.sy) (.mma t.g (t.x.setWidth 3) (t.y.setWidth 3) (t.z.setWidth 3) t.w t.sy)),
  (0xC301, fun t => ifOk (decide (hi t.x 3 = 0) && decide (hi t.y 3 = 0) && decide (hi t.z 3 = 0) && siteOk 0 t.sy) (.mman t.g (t.x.setWidth 3) (t.y.setWidth 3) (t.z.setWidth 3) t.w t.sy)),
  (0xC302, fun t => ifOk (decide (hi t.x 3 = 0) && decide (hi t.y 3 = 0) && decide (hi t.z 3 = 0) && siteOk 0 t.sy) (.mmaq t.g (t.x.setWidth 3) (t.y.setWidth 3) (t.z.setWidth 3) t.w t.sy)),
  (0xC303, fun t => ifOk (decide (hi t.x 3 = 0) && decide (hi t.y 3 = 0) && decide (hi t.z 3 = 0) && siteOk 0 t.sy) (.mmai t.g (t.x.setWidth 3) (t.y.setWidth 3) (t.z.setWidth 3) t.w t.sy)),
  (0xC701, fun t => ifOk (decide (hi t.x 3 = 0) && decide (t.y = 0) && decide (t.z = 0) && decide (t.w = 0) && siteOk 0 t.sy) (.accsw t.g (t.x.setWidth 3) t.sy)),
  (0xC704, fun t => ifOk (decide (hi t.x 3 = 0) && decide (t.w = 0) && siteOk 0 t.sy) (.accst t.g (t.x.setWidth 3) t.y t.z t.sy)),
  (0xC705, fun t => ifOk (decide (hi t.x 3 = 0) && decide (t.w = 0) && siteOk 0 t.sy) (.accld t.g (t.x.setWidth 3) t.y t.z t.sy)),
  (0xCB01, fun t => ifOk (decide (hi t.x 1 = 0) && decide (t.y = 0) && decide (t.z = 0) && decide (t.w = 0) && siteOk 0 t.sy) (.tblsw t.g (t.x.getLsbD 0) t.sy)),
  (0xE701, fun t => ifOk (decide (hi t.x 3 = 0) && decide (t.z = 0) && decide (t.w = 0) && siteOk 0 t.sy) (.ringpush t.g (t.x.setWidth 3) t.y t.sy)),
  (0xE702, fun t => ifOk (decide (hi t.x 3 = 0) && decide (t.z = 0) && decide (t.w = 0) && siteOk 0 t.sy) (.ringpop t.g (t.x.setWidth 3) t.y t.sy)),
  (0xEB00, fun t => ifOk (decide (t.w = 0) && siteOk 2 t.sy) (.put t.g t.x t.y t.z t.sy)),
  (0xEB01, fun t => ifOk (decide (t.w = 0) && siteOk 2 t.sy) (.get t.g t.x t.y t.z t.sy)),
  (0xEB02, fun t => ifOk (siteOk 2 t.sy) (.putv t.g t.x t.y t.z t.w t.sy)),
  (0xEB03, fun t => ifOk (siteOk 2 t.sy) (.getv t.g t.x t.y t.z t.w t.sy)),
  (0xEF00, fun t => ifOk (decide (t.y = 0) && decide (t.z = 0) && decide (t.w = 0) && siteOk 0 t.sy) (.pfl t.g t.x t.sy)),
  (0xEF01, fun t => ifOk (decide (hi t.x 3 = 0) && decide (t.y = 0) && decide (t.z = 0) && decide (t.w = 0) && siteOk 0 t.sy) (.pflstop t.g (t.x.setWidth 3) t.sy)),
  (0xF300, fun t => ifOk (decide (t.z = 0) && decide (t.w = 0) && siteOk 1 t.sy) (.ist t.g .b t.x t.y t.sy)),
  (0xF301, fun t => ifOk (decide (t.z = 0) && decide (t.w = 0) && siteOk 1 t.sy) (.ist t.g .h t.x t.y t.sy)),
  (0xF302, fun t => ifOk (decide (t.z = 0) && decide (t.w = 0) && siteOk 1 t.sy) (.ist t.g .w t.x t.y t.sy)),
  (0xF303, fun t => ifOk (decide (t.z = 0) && decide (t.w = 0) && siteOk 1 t.sy) (.ist t.g .d t.x t.y t.sy)),
  (0xF304, fun t => ifOk (decide (t.z = 0) && decide (t.w = 0) && siteOk 1 t.sy) (.istfD t.g t.x t.y t.sy)),
  (0xF704, fun t => ifOk (decide (t.y = 0) && decide (t.z = 0) && decide (t.w = 0) && siteOk 0 t.sy) (.xsched t.g t.x t.sy)),
  (0xFB10, fun t => ifOk (decide (t.w = 0) && siteOk 0 t.sy) (.coll t.g t.x t.y t.z t.sy))]

/-- Heads without a tail (form N). -/
def rowsN : List (Nat × Instr) := [
  (0x4408, .halt),
  (0x4409, .yield),
  (0x440A, .nop),
  (0x7004, .eret),
  (0x7005, .eretSkip),
  (0x7404, .park),
  (0x7800, .fence .s),
  (0x7801, .fence .t),
  (0x7802, .fence .c),
  (0x7803, .fence .g),
  (0x7804, .fence .d),
  (0x7805, .fence .y),
  (0x7808, .vfence .s),
  (0x7809, .vfence .t),
  (0x780A, .vfence .c),
  (0x780B, .vfence .g),
  (0x780C, .vfence .d),
  (0x780D, .vfence .y),
  (0xE809, .uiret),
  (0xF400, .sync)]

/-- A mask guard is assigned in majors 0x20-0x26 only (R53). -/
def guardOk (head : Nat) (g : Guard) : Bool := !g.mask || (decide (0x20 ≤ head / 1024) && decide (head / 1024 ≤ 0x26))

/-- Looks a head up among the rows of one form; none when the form does not hold the head. -/
def pick {F : Type} (rows : Rows F) (g : F → Guard) (t : Option F) (head : Nat) : Option (Option Instr) :=
  (rows.lookup head).map fun f => t.bind fun t => if guardOk head (g t) then f t else none

/-- Whether a halfword is a literal head: MAJOR 0x3F, MINOR 0, LEN 1, 2 or 3 (R55). -/
def isLiteralHead (h : Half) : Bool := decide (h = 0xFD00 ∨ h = 0xFE00 ∨ h = 0xFF00)

/-- The literal that a literal head's LEN and raw tail give, sign-extended (R55). -/
def literal (len : BitVec 2) (raw : Word) : Word :=
  if len = 1 then (raw.setWidth 16).signExtend 64
  else if len = 2 then (raw.setWidth 32).signExtend 64 else raw

/-- LIT with its literal head and raw literal (R55, R75). -/
def decodeLit (t : TailD) (l : Option (Half × Word)) : Option Instr :=
  match l with
  | none => none
  | some (h, raw) =>
    if isLiteralHead h ∧ t.imm = 0 ∧ t.g.mask = false then
      some (.lit t.g t.d (h.extractLsb' 8 2) (literal (h.extractLsb' 8 2) raw))
    else none

/-- The FMT heads: MAJOR 0x3F, LEN 0, both nibbles 0-12 (R59). -/
def decodeFmt (head : Nat) : Option (Option Instr) :=
  if head / 256 = 0xFC then
    some (if head / 16 % 16 ≤ 12 ∧ head % 16 ≤ 12 then some (.fmt (BitVec.ofNat 8 head)) else none)
  else none

/-- The instruction of a head, its tail value and, for LIT, the literal head and raw literal after it (R61). DEDUCED, log 15.
DEDUCED, log 18. -/
def decode (head : Half) (tv : Word) (l : Option (Half × Word)) : Option Instr :=
  let h := head.toNat
  if h = 0x1100 then (TailD.cut tv).bind fun t => decodeLit t l
  else match rowsN.lookup h with
  | some i => some i
  | none =>
    ((decodeFmt h).orElse fun _ =>
      (pick rowsS3 (·.g) (TailS3.cut tv) h).orElse fun _ =>
      (pick rowsSI (·.g) (TailSI.cut tv) h).orElse fun _ =>
      (pick rowsB (·.g) (TailB.cut tv) h).orElse fun _ =>
      (pick rowsP (·.g) (TailP.cut tv) h).orElse fun _ =>
      (pick rowsV3 (·.g) (TailV3.cut tv) h).orElse fun _ =>
      (pick rowsVS (·.g) (TailVS.cut tv) h).orElse fun _ =>
      (pick rowsE (·.g) (TailE.cut tv) h).orElse fun _ =>
      (pick rowsD (·.g) (TailD.cut tv) h).orElse fun _ =>
      (pick rowsI (·.g) (TailI.cut tv) h).orElse fun _ =>
      (pick rowsSM (·.g) (TailSM.cut tv) h).orElse fun _ =>
      pick rowsVK (·.g) (TailVK.cut tv) h).join

/-! ## Lines (R47-R49) -/

/-- Halfwords of a tail by its head's LEN code (R47). -/
def tailLen (head : Half) : Nat :=
  match (head.extractLsb' 8 2).toNat with
  | 0 => 0 | 1 => 1 | 2 => 2 | _ => 4

/-- H of a line header (R47). -/
def lineH (header : Half) : Nat := (header.extractLsb' 11 5).toNat

/-- Tail halfwords of the heads at slots 1 to n. -/
def tailSum (line : Nat → Half) : Nat → Nat
  | 0 => 0
  | n + 1 => tailSum line n + tailLen (line (n + 1))

/-- A malformed line (R48). -/
def malformed (line : Nat → Half) : Bool :=
  decide (lineH (line 0) = 0) || decide ((line 0).setWidth 11 ≠ 0) ||
    decide (32 < 1 + lineH (line 0) + tailSum line (lineH (line 0)))

/-- The tail value of the instruction at slot i (R49, R52). -/
def tailValue (line : Nat → Half) (i : Nat) : Word :=
  let start := 31 - tailSum line (i - 1)
  let n := tailLen (line i)
  let hw (j : Nat) : Word := if j < n then (line (start - j)).setWidth 64 else 0
  hw 0 ||| (hw 1 <<< 16) ||| (hw 2 <<< 32) ||| (hw 3 <<< 48)

/-- The literal head and raw literal after slot i, when the line holds one (R55). -/
def literalAfter (line : Nat → Half) (i : Nat) : Option (Half × Word) :=
  if i < lineH (line 0) ∧ isLiteralHead (line (i + 1)) then some (line (i + 1), tailValue line (i + 1)) else none

/-- The instruction at slot i of a line that is not malformed. -/
def decodeSlot (line : Nat → Half) (i : Nat) : Option Instr :=
  decode (line i) (tailValue line i) (literalAfter line i)

/-- The instruction in one 80-bit slot of an active message (R224); a literal of LEN 3 does not fit. -/
def decodeInline (b : BitVec 80) : Option Instr :=
  let hw (j : Nat) : Half := b.extractLsb' (16 * j) 16
  if hw 0 = 0x1100 then
    decode 0x1100 ((hw 1).setWidth 64)
      (if hw 2 = 0xFF00 then none else some (hw 2, ((hw 4 ++ hw 3).setWidth 64)))
  else
    let n := tailLen (hw 0)
    let part (j : Nat) : Word := if j < n then (hw (j + 1)).setWidth 64 <<< (16 * j) else 0
    decode (hw 0) (part 0 ||| part 1 ||| part 2 ||| part 3) none

/-! ## The encoder -/

/-- An encoded instruction: head, tail value, and LIT's literal head with its raw literal. -/
structure Words where
  head : Half
  tv : Word
  lit : Option (Half × Word)
deriving DecidableEq, Repr

/-- Minor-field offsets of the parameterised heads (R62-R64). -/
def Size.code : Size → Half
  | .b => 0 | .h => 1 | .w => 2 | .d => 3
/-- CMP and BRC conditions in the order of R62. -/
def Cond.code : Cond → Half
  | .eq => 0 | .ne => 1 | .lt => 2 | .ge => 3 | .ltu => 4 | .geu => 5
/-- VCMP conditions in the order of R63. -/
def VCond.code : VCond → Half
  | .eq => 0 | .ne => 1 | .lt => 2 | .le => 3 | .gt => 4 | .ge => 5 | .un => 6
/-- VRED, VSCAN and AMOF operations in the order of R63 and R64. -/
def RedOp.code : RedOp → Half
  | .add => 0 | .min => 1 | .max => 2
/-- AMO operations in the order of R64. -/
def AmoOp.code : AmoOp → Half
  | .add => 0 | .and => 1 | .or => 2 | .xor => 3 | .min => 4 | .max => 5 | .minu => 6 | .maxu => 7 | .swap => 8 | .cas => 9
/-- REDC operations in the order of R64. -/
def SheafOp.code : SheafOp → Half
  | .add => 0 | .min => 1 | .max => 2 | .and => 3 | .or => 4 | .fadd => 5
/-- Fence scopes in the order of R62. -/
def Scope.code : Scope → Half
  | .s => 0 | .t => 1 | .c => 2 | .g => 3 | .d => 4 | .y => 5

/-- A head and tail value without a literal. -/
def plain (head : Half) (tv : Word) : Option Words := some ⟨head, tv, none⟩

/-- The words of an instruction (R54, R62-R64); an event has none. -/
def encode : Instr → Option Words
  | .add g d a b => plain (0x0200) (TailS3.mk g d a b 0).pack
  | .sub g d a b => plain (0x0201) (TailS3.mk g d a b 0).pack
  | .and g d a b => plain (0x0202) (TailS3.mk g d a b 0).pack
  | .or g d a b => plain (0x0203) (TailS3.mk g d a b 0).pack
  | .xor g d a b => plain (0x0204) (TailS3.mk g d a b 0).pack
  | .andn g d a b => plain (0x0205) (TailS3.mk g d a b 0).pack
  | .shl g d a b => plain (0x0206) (TailS3.mk g d a b 0).pack
  | .shr g d a b => plain (0x0207) (TailS3.mk g d a b 0).pack
  | .sra g d a b => plain (0x0208) (TailS3.mk g d a b 0).pack
  | .rol g d a b => plain (0x0209) (TailS3.mk g d a b 0).pack
  | .min g d a b => plain (0x020A) (TailS3.mk g d a b 0).pack
  | .max g d a b => plain (0x020B) (TailS3.mk g d a b 0).pack
  | .minu g d a b => plain (0x020C) (TailS3.mk g d a b 0).pack
  | .maxu g d a b => plain (0x020D) (TailS3.mk g d a b 0).pack
  | .mul g d a b => plain (0x0210) (TailS3.mk g d a b 0).pack
  | .mulh g d a b => plain (0x0211) (TailS3.mk g d a b 0).pack
  | .mulhu g d a b => plain (0x0212) (TailS3.mk g d a b 0).pack
  | .div g d a b => plain (0x0214) (TailS3.mk g d a b 0).pack
  | .divu g d a b => plain (0x0215) (TailS3.mk g d a b 0).pack
  | .rem g d a b => plain (0x0216) (TailS3.mk g d a b 0).pack
  | .remu g d a b => plain (0x0217) (TailS3.mk g d a b 0).pack
  | .addi g d a imm => plain (0x0600) (TailSI.mk g d a imm).pack
  | .andImm g d a imm => plain (0x0602) (TailSI.mk g d a imm).pack
  | .orImm g d a imm => plain (0x0603) (TailSI.mk g d a imm).pack
  | .xorImm g d a imm => plain (0x0604) (TailSI.mk g d a imm).pack
  | .andnImm g d a imm => plain (0x0605) (TailSI.mk g d a imm).pack
  | .shlImm g d a imm => plain (0x0606) (TailSI.mk g d a imm).pack
  | .shrImm g d a imm => plain (0x0607) (TailSI.mk g d a imm).pack
  | .sraImm g d a imm => plain (0x0608) (TailSI.mk g d a imm).pack
  | .rolImm g d a imm => plain (0x0609) (TailSI.mk g d a imm).pack
  | .minImm g d a imm => plain (0x060A) (TailSI.mk g d a imm).pack
  | .maxImm g d a imm => plain (0x060B) (TailSI.mk g d a imm).pack
  | .minuImm g d a imm => plain (0x060C) (TailSI.mk g d a imm).pack
  | .maxuImm g d a imm => plain (0x060D) (TailSI.mk g d a imm).pack
  | .mulImm g d a imm => plain (0x0610) (TailSI.mk g d a imm).pack
  | .clz g d a => plain (0x0A00) (TailS3.mk g d a 0 0).pack
  | .ctz g d a => plain (0x0A01) (TailS3.mk g d a 0 0).pack
  | .popc g d a => plain (0x0A02) (TailS3.mk g d a 0 0).pack
  | .abs g d a => plain (0x0A03) (TailS3.mk g d a 0 0).pack
  | .mov g d a => plain (0x0A04) (TailS3.mk g d a 0 0).pack
  | .sext g sz d a => plain (0x0A08 + sz.code) (TailS3.mk g d a 0 0).pack
  | .zext g sz d a => plain (0x0A0C + sz.code) (TailS3.mk g d a 0 0).pack
  | .bfx g d a pos len => plain (0x0E00) (TailS3.mk g d a pos len).pack
  | .bfxS g d a pos len => plain (0x0E01) (TailS3.mk g d a pos len).pack
  | .bfi g d a pos len => plain (0x0E02) (TailS3.mk g d a pos len).pack
  | .lit g d len l => some ⟨0x1100, (TailD.mk g d 0).pack, some (0xFC00 + (len.setWidth 16 <<< 8), (if len = 1 then (l.setWidth 16).setWidth 64 else if len = 2 then (l.setWidth 32).setWidth 64 else l))⟩
  | .lea g d a b scale => plain (0x1201) (TailS3.mk g d a b (scale.setWidth 6)).pack
  | .sel g d a b n => plain (0x1202) (TailS3.mk g d a b (n.setWidth 6)).pack
  | .cmp g cc pd a b => plain (0x1210 + cc.code) (TailS3.mk g (pd.setWidth 6) a b 0).pack
  | .cmpImm g cc pd a imm => plain (0x1610 + cc.code) (TailSI.mk g (pd.setWidth 6) a imm).pack
  | .tst g pd a b => plain (0x1218) (TailS3.mk g (pd.setWidth 6) a b 0).pack
  | .tstZ g pd a b => plain (0x1219) (TailS3.mk g (pd.setWidth 6) a b 0).pack
  | .tstImm g pd a imm => plain (0x1618) (TailSI.mk g (pd.setWidth 6) a imm).pack
  | .tstZImm g pd a imm => plain (0x1619) (TailSI.mk g (pd.setWidth 6) a imm).pack
  | .pand g x y z => plain (0x4100) (TailP.mk g x y z).pack
  | .por g x y z => plain (0x4101) (TailP.mk g x y z).pack
  | .pxor g x y z => plain (0x4102) (TailP.mk g x y z).pack
  | .pnot g x y => plain (0x4103) (TailP.mk g x y 0).pack
  | .pmov g x y => plain (0x4104) (TailP.mk g x y 0).pack
  | .pany g x y => plain (0x4105) (TailP.mk g x y 0).pack
  | .br g target => plain (0x4600) (TailB.mk g 0 0 target).pack
  | .brc g cc a b target => plain (0x4610 + cc.code) (TailB.mk g a b target).pack
  | .jal g a target => plain (0x4601) (TailB.mk g a 0 target).pack
  | .jr g a b => plain (0x4602) (TailB.mk g a b 0).pack
  | .ret g => plain (0x4503) (TailI.mk g 0).pack
  | .loop g a target => plain (0x4604) (TailB.mk g a 0 target).pack
  | .rep g a len n => plain (0x4605) (TailB.mk g a len n).pack
  | .repStreamLoad g => plain (0x4605) (TailB.mk g 0 0 0).pack
  | .halt => plain (0x4408) 0
  | .yield => plain (0x4409) 0
  | .nop => plain (0x440A) 0
  | .ld g sz d a imm => plain (0x6200 + sz.code) (TailSI.mk g d a imm).pack
  | .st g sz d a imm => plain (0x6204 + sz.code) (TailSI.mk g d a imm).pack
  | .ldv g sz d a imm => plain (0x6208 + sz.code) (TailSI.mk g d a imm).pack
  | .stv g sz d a imm => plain (0x620C + sz.code) (TailSI.mk g d a imm).pack
  | .ldsD g d a imm => plain (0x6210) (TailSI.mk g d a imm).pack
  | .ldsDE g d a imm => plain (0x6211) (TailSI.mk g d a imm).pack
  | .stfD g d a imm => plain (0x6214) (TailSI.mk g d a imm).pack
  | .ldc g sz d a imm => plain (0x6218 + sz.code) (TailSI.mk g d a imm).pack
  | .stc g sz d a imm => plain (0x621C + sz.code) (TailSI.mk g d a imm).pack
  | .sysrd g d n => plain (0x7200) (TailSI.mk g d 0 (n.setWidth 15)).pack
  | .syswr g a n => plain (0x7201) (TailSI.mk g 0 a (n.setWidth 15)).pack
  | .trap g imm => plain (0x7102) (TailI.mk g imm).pack
  | .brk g imm => plain (0x7103) (TailI.mk g imm).pack
  | .eret => plain (0x7004) 0
  | .eretSkip => plain (0x7005) 0
  | .pclr g d => plain (0x7106) (TailD.mk g d 0).pack
  | .pclrVector g v => plain (0x7107) (TailD.mk g (v.setWidth 6) 0).pack
  | .semwait g m n => plain (0x7600) (TailSM.mk g 0 m n).pack
  | .semsig g m n => plain (0x7601) (TailSM.mk g 0 m n).pack
  | .semrd g d m => plain (0x7602) (TailSM.mk g d m 0).pack
  | .park => plain (0x7404) 0
  | .wake g n => plain (0x7505) (TailI.mk g (n.setWidth 11)).pack
  | .msg g a => plain (0x7606) (TailS3.mk g 0 a 0 0).pack
  | .fence sc => plain (0x7800 + sc.code) 0
  | .vfence sc => plain (0x7808 + sc.code) 0
  | .fmt m => plain (0xFC00 + m.setWidth 16) 0
  | .vld g vd ign s imm => plain (0x8200) (TailVS.mk g vd ign s imm).pack
  | .vst g vd ign s imm => plain (0x8201) (TailVS.mk g vd ign s imm).pack
  | .vldStream g vd k => plain (0x8108) (TailVK.mk g vd k).pack
  | .vstStream g vd k => plain (0x8109) (TailVK.mk g vd k).pack
  | .vldb g vd ign slot imm => plain (0x8202) (TailVS.mk g vd ign slot imm).pack
  | .vstb g vd ign slot imm => plain (0x8203) (TailVS.mk g vd ign slot imm).pack
  | .vgath g vd va s => plain (0x8204) (TailVS.mk g vd va s 0).pack
  | .vscat g vd va s => plain (0x8205) (TailVS.mk g vd va s 0).pack
  | .vbcast g vd s => plain (0x8600) (TailVS.mk g vd 0 s 0).pack
  | .vmovs g d va lane => plain (0x8601) (TailVS.mk g 0 va d (lane.setWidth 11)).pack
  | .vmovv g vd va => plain (0x8602) (TailV3.mk g vd va 0 0 0).pack
  | .vadd g vd va vb rm => plain (0x8A00) (TailV3.mk g vd va vb 0 rm).pack
  | .vsub g vd va vb rm => plain (0x8A01) (TailV3.mk g vd va vb 0 rm).pack
  | .vmul g vd va vb rm => plain (0x8A02) (TailV3.mk g vd va vb 0 rm).pack
  | .vmin g vd va vb rm => plain (0x8A03) (TailV3.mk g vd va vb 0 rm).pack
  | .vmax g vd va vb rm => plain (0x8A04) (TailV3.mk g vd va vb 0 rm).pack
  | .vfma g vd va vb vc rm => plain (0x8A08) (TailV3.mk g vd va vb vc rm).pack
  | .vfms g vd va vb vc rm => plain (0x8A09) (TailV3.mk g vd va vb vc rm).pack
  | .vnfma g vd va vb vc rm => plain (0x8A0A) (TailV3.mk g vd va vb vc rm).pack
  | .vabs g vd va rm => plain (0x8A10) (TailV3.mk g vd va 0 0 rm).pack
  | .vneg g vd va rm => plain (0x8A11) (TailV3.mk g vd va 0 0 rm).pack
  | .vrcp g vd va rm => plain (0x8A12) (TailV3.mk g vd va 0 0 rm).pack
  | .vrsq g vd va rm => plain (0x8A13) (TailV3.mk g vd va 0 0 rm).pack
  | .vexp2 g vd va rm => plain (0x8A14) (TailV3.mk g vd va 0 0 rm).pack
  | .vlog2 g vd va rm => plain (0x8A15) (TailV3.mk g vd va 0 0 rm).pack
  | .vscale g vd va vb rm => plain (0x8A18) (TailV3.mk g vd va vb 0 rm).pack
  | .vclass g vd va => plain (0x8A19) (TailV3.mk g vd va 0 0 0).pack
  | .vcmp g cc qd va vb => plain (0x8E00 + cc.code) (TailV3.mk g (qd.setWidth 5) va vb 0 0).pack
  | .vsel g vd va vb n => plain (0x8E08) (TailV3.mk g vd va vb (n.setWidth 5) 0).pack
  | .vred g op d va => plain (0x9200 + op.code) (TailVS.mk g 0 va d 0).pack
  | .vscan g op vd va vb rm => plain (0x9204 + op.code) (TailV3.mk g vd va vb 0 rm).pack
  | .vperm g vd va vb => plain (0x9208) (TailV3.mk g vd va vb 0 0).pack
  | .vshuf g vd va vb vc => plain (0x9209) (TailV3.mk g vd va vb vc 0).pack
  | .vrot g vd va n => plain (0x920A) (TailVS.mk g vd va 0 (n.setWidth 11)).pack
  | .vdot g vd va vb vc rm => plain (0x920C) (TailV3.mk g vd va vb vc rm).pack
  | .vcvt g vd va rm => plain (0x9600) (TailV3.mk g vd va 0 0 rm).pack
  | .vbscl g vd va vb vc rm => plain (0x9601) (TailV3.mk g vd va vb vc rm).pack
  | .viadd g vd va vb => plain (0x9A00) (TailV3.mk g vd va vb 0 0).pack
  | .visub g vd va vb => plain (0x9A01) (TailV3.mk g vd va vb 0 0).pack
  | .vimul g vd va vb => plain (0x9A02) (TailV3.mk g vd va vb 0 0).pack
  | .vimad g vd va vb vc => plain (0x9A03) (TailV3.mk g vd va vb vc 0).pack
  | .viaddSat g vd va vb => plain (0x9A80) (TailV3.mk g vd va vb 0 0).pack
  | .visubSat g vd va vb => plain (0x9A81) (TailV3.mk g vd va vb 0 0).pack
  | .vshl g vd va vb => plain (0x9A0C) (TailV3.mk g vd va vb 0 0).pack
  | .vshr g vd va vb => plain (0x9A0D) (TailV3.mk g vd va vb 0 0).pack
  | .vsra g vd va vb => plain (0x9A0E) (TailV3.mk g vd va vb 0 0).pack
  | .vand g vd va vb => plain (0x9A08) (TailV3.mk g vd va vb 0 0).pack
  | .vor g vd va vb => plain (0x9A09) (TailV3.mk g vd va vb 0 0).pack
  | .vxor g vd va vb => plain (0x9A0A) (TailV3.mk g vd va vb 0 0).pack
  | .vpopc g vd va => plain (0x9A10) (TailV3.mk g vd va 0 0 0).pack
  | .vpand g x y z => plain (0x9D00) (TailP.mk g x y z).pack
  | .vpor g x y z => plain (0x9D01) (TailP.mk g x y z).pack
  | .vpnot g x y => plain (0x9D02) (TailP.mk g x y 0).pack
  | .mma g acc ra rb w sy => plain (0xC300) (TailE.mk g (acc.setWidth 6) (ra.setWidth 6) (rb.setWidth 6) w sy).pack
  | .mman g acc ra rb w sy => plain (0xC301) (TailE.mk g (acc.setWidth 6) (ra.setWidth 6) (rb.setWidth 6) w sy).pack
  | .mmaq g acc ra rb w sy => plain (0xC302) (TailE.mk g (acc.setWidth 6) (ra.setWidth 6) (rb.setWidth 6) w sy).pack
  | .mmai g acc ra rb w sy => plain (0xC303) (TailE.mk g (acc.setWidth 6) (ra.setWidth 6) (rb.setWidth 6) w sy).pack
  | .mmaRetire _ => none
  | .mmaComplete _ _ => none
  | .accz g acc => plain (0xC500) (TailD.mk g (acc.setWidth 6) 0).pack
  | .accsw g acc sy => plain (0xC701) (TailE.mk g (acc.setWidth 6) 0 0 0 sy).pack
  | .accumulatorSwap _ _ => none
  | .accrd g vd acc row => plain (0xC602) (TailVS.mk g vd (acc.setWidth 5) 0 (row.setWidth 11)).pack
  | .accwr g vs acc row => plain (0xC603) (TailVS.mk g vs (acc.setWidth 5) 0 (row.setWidth 11)).pack
  | .accst g acc y z sy => plain (0xC704) (TailE.mk g (acc.setWidth 6) y z 0 sy).pack
  | .accld g acc y z sy => plain (0xC705) (TailE.mk g (acc.setWidth 6) y z 0 sy).pack
  | .accstComplete _ _ => none
  | .tblw g vs q tbl => plain (0xCA00) (TailVS.mk g 0 vs 0 ((BitVec.ofBool tbl ++ q).setWidth 11)).pack
  | .tblsw g tbl sy => plain (0xCB01) (TailE.mk g ((BitVec.ofBool tbl).setWidth 6) 0 0 0 sy).pack
  | .tableSwap _ _ => none
  | .tblrd g vd q tbl shadow => plain (0xCA02) (TailVS.mk g vd 0 0 ((BitVec.ofBool shadow ++ BitVec.ofBool tbl ++ q).setWidth 11)).pack
  | .bale g slot a b c => plain (0xE200) (TailS3.mk g slot a b c).pack
  | .bstat g d slot => plain (0xE201) (TailS3.mk g d 0 0 slot).pack
  | .bset g slot => plain (0xE202) (TailS3.mk g 0 0 0 slot).pack
  | .lookup g d a b => plain (0xE203) (TailS3.mk g d a b 0).pack
  | .ringcfg g ring a => plain (0xE600) (TailS3.mk g 0 a 0 (ring.setWidth 6)).pack
  | .ringpush g ring slot sy => plain (0xE701) (TailE.mk g (ring.setWidth 6) slot 0 0 sy).pack
  | .ringpop g ring slot sy => plain (0xE702) (TailE.mk g (ring.setWidth 6) slot 0 0 sy).pack
  | .ringstat g d ring => plain (0xE603) (TailS3.mk g d 0 0 (ring.setWidth 6)).pack
  | .pflstop g ring sy => plain (0xEF01) (TailE.mk g (ring.setWidth 6) 0 0 0 sy).pack
  | .pfl g x sy => plain (0xEF00) (TailE.mk g x 0 0 0 sy).pack
  | .pflComplete _ _ => none
  | .put g x y z sy => plain (0xEB00) (TailE.mk g x y z 0 sy).pack
  | .get g x y z sy => plain (0xEB01) (TailE.mk g x y z 0 sy).pack
  | .putv g x y z w sy => plain (0xEB02) (TailE.mk g x y z w sy).pack
  | .getv g x y z w sy => plain (0xEB03) (TailE.mk g x y z w sy).pack
  | .transferComplete _ _ _ => none
  | .xqstat g d => plain (0xE904) (TailD.mk g d 0).pack
  | .uien g n => plain (0xE908) (TailD.mk g 0 ((BitVec.ofBool n).setWidth 5)).pack
  | .uiret => plain (0xE809) 0
  | .userInterruptDelivery _ _ => none
  | .ist g sz x y sy => plain (0xF300 + sz.code) (TailE.mk g x y 0 0 sy).pack
  | .istfD g x y sy => plain (0xF304) (TailE.mk g x y 0 0 sy).pack
  | .immediateStoreArrival _ _ => none
  | .immediateStoreComplete _ _ => none
  | .amo g op word d a b c => plain (0xF210 + op.code + (if word then 0x20 else 0)) (TailS3.mk g d a b c).pack
  | .amof g op d a b => plain (0xF220 + op.code) (TailS3.mk g d a b 0).pack
  | .atomicPerform _ => none
  | .amodAdd g a b => plain (0xF228) (TailS3.mk g 0 a b 0).pack
  | .amodRecordArrival _ => none
  | .evsig g a => plain (0xF240) (TailS3.mk g 0 a 0 0).pack
  | .evarm g a b => plain (0xF241) (TailS3.mk g 0 a b 0).pack
  | .mtxrel g a => plain (0xF242) (TailS3.mk g 0 a 0 0).pack
  | .chainedArrival _ => none
  | .barrierRelease _ => none
  | .sync => plain (0xF400) 0
  | .syncdown _ => none
  | .vote g v cause => plain (0xF501) (TailI.mk g ((cause ++ v).setWidth 11)).pack
  | .redc g op a => plain (0xF620 + op.code) (TailS3.mk g 0 a 0 0).pack
  | .redrd g d => plain (0xF603) (TailS3.mk g d 0 0 0).pack
  | .xsched g x sy => plain (0xF704) (TailE.mk g x 0 0 0 sy).pack
  | .xschedComplete _ => none
  | .gcfg g plot a => plain (0xF610) (TailS3.mk g 0 a 0 (plot.setWidth 6)).pack
  | .gsig g d a => plain (0xF611) (TailS3.mk g d a 0 0).pack
  | .gskip g d a => plain (0xF612) (TailS3.mk g d a 0 0).pack
  | .gmap g d a => plain (0xF613) (TailS3.mk g d a 0 0).pack
  | .gforce g a => plain (0xF614) (TailS3.mk g 0 a 0 0).pack
  | .gseal g plot => plain (0xF615) (TailS3.mk g 0 0 0 (plot.setWidth 6)).pack
  | .launch g d a => plain (0xFA00) (TailS3.mk g d a 0 0).pack
  | .teardown g d a => plain (0xFA01) (TailS3.mk g d a 0 0).pack
  | .preempt g d a => plain (0xFA02) (TailS3.mk g d a 0 0).pack
  | .barnsv g d a b => plain (0xFA03) (TailS3.mk g d a b 0).pack
  | .barnld g d a b => plain (0xFA04) (TailS3.mk g d a b 0).pack
  | .hmsg g a b => plain (0xFA05) (TailS3.mk g 0 a b 0).pack
  | .qcbsv g d a b => plain (0xFA06) (TailS3.mk g d a b 0).pack
  | .qcbld g d a b => plain (0xFA07) (TailS3.mk g d a b 0).pack
  | .qpend g d => plain (0xFA08) (TailS3.mk g d 0 0 0).pack
  | .coll g x y z sy => plain (0xFB10) (TailE.mk g x y z 0 sy).pack
  | .collComplete _ _ _ => none
  | .rankmap g d a b => plain (0xFA11) (TailS3.mk g d a b 0).pack
  | .stepBudget _ => none
  | .startPhase _ => none
  | .listDispatch _ => none
  | .exchangePhase _ => none
  | .transferSendArrival _ _ => none
  | .activeMessageArrival _ _ => none
  | .messageStart _ => none
  | .arrive _ => none
  | .sheafCombine _ _ _ => none
  | .commit _ => none
  | .mirrorAck _ => none
  | .abort _ => none
  | .haltDecision _ => none
  | .deadlock _ => none
  | .segmentWakeEnd _ _ => none
  | .baleFillComplete _ _ => none
  | .baleDrainComplete _ _ => none
  | .subscriptionPush _ _ => none
  | .memoryRequest _ => none
  | .pageFaultAnswer _ _ => none
  | .publicationRecord _ _ => none
  | .hbmParityAlert _ _ _ _ _ _ _ _ => none
  | .stackCriticalTemperature _ _ => none
  | .stackCooled _ _ => none
  | .nocLinkFail _ _ => none
  | .eweitLinkFail _ _ _ => none
  | .resendRequest _ _ => none
  | .laneStop _ _ => none
  | .laneGo _ _ => none
  | .linkReset _ => none
  | .packageReset _ _ => none
  | .partidRst => none
  | .functionLevelReset _ => none
  | .hostLinkUncorrectable _ => none
  | .keyslotLoad => none
  | .keyslotErase => none
  | .alarm _ _ => none
  | .doorbell _ _ _ => none
  | .hostWake _ _ => none
  | .hostMemoryWrite _ _ _ => none
  | .jobSelection => none
  | .gangLaunch => none
  | .resume => none
  | .jobCompletion _ => none
  | .chargeUnit _ => none
  | .quantumExpiry _ => none
  | .timeUnitEnd => none
  | .spareRemap _ => none
  | .hostMessageTaken => none
  | .scheduleSendCompletion _ _ => none
  | .amodAcknowledgement _ => none

/-! ## The opcode table's numbering -/

/-- The instruction that the decoder reads from an instruction whose bits the opcode table numbers: the head
stands above the tail value, and every further bit is zero; LIT takes a literal head with a zero literal. -/
def tableHead (nbits w : Nat) : Half := BitVec.ofNat 16 (w >>> (nbits - 16))

/-- The tail value of a table word: the bits below the head. -/
def tableTail (nbits w : Nat) : Word := BitVec.ofNat 64 (w % 2 ^ (nbits - 16))

/-- The literal head that a table word of LIT is given. -/
def tableLit (nbits w : Nat) : Option (Half × Word) :=
  if tableHead nbits w = 0x1100 then some (0xFD00, 0) else none

/-- The instruction of a word of the opcode table. -/
def decodeTableWord (nbits w : Nat) : Option Instr :=
  decode (tableHead nbits w) (tableTail nbits w) (tableLit nbits w)

end Sys2Proof
end

