-- ==== Sys2Proof/Machine/Bits.lean ====
section
/-! DEFINITION. Bit fields and byte order (R4, R8): cutting and replacing fields, little-endian bytes. -/

namespace Sys2Proof.Machine

/-- Bits lo + len - 1 : lo of a value, as a number. -/
def bitsOf {w : Nat} (x : BitVec w) (lo len : Nat) : Nat := x.toNat / 2 ^ lo % 2 ^ len

/-- A value with bits lo + len - 1 : lo replaced by the low bits of v. -/
def withBits {w : Nat} (x : BitVec w) (lo len v : Nat) : BitVec w :=
  (x &&& ~~~(BitVec.ofNat w ((2 ^ len - 1) <<< lo))) ||| BitVec.ofNat w ((v % 2 ^ len) <<< lo)

/-- A value with one bit replaced. -/
def withBit {w : Nat} (x : BitVec w) (i : Nat) (b : Bool) : BitVec w :=
  if b then x ||| BitVec.ofNat w (1 <<< i) else x &&& ~~~(BitVec.ofNat w (1 <<< i))

/-- The n low bytes of a number, lowest first (R4). -/
def toBytes : Nat → Nat → List Byte
  | 0, _ => []
  | n + 1, v => BitVec.ofNat 8 v :: toBytes n (v / 256)

/-- The number that bytes give, lowest first (R4). -/
def ofBytes : List Byte → Nat
  | [] => 0
  | b :: t => b.toNat + 256 * ofBytes t

/-- The signed reading of the low n bits of a number. -/
def signedOf (n v : Nat) : Int := if v % 2 ^ n < 2 ^ (n - 1) then (v % 2 ^ n : Nat) else (v % 2 ^ n : Nat) - (2 ^ n : Nat)

/-- The low n bits of an integer, as a number. -/
def wrapNat (n : Nat) (v : Int) : Nat := (v % (2 ^ n : Nat)).toNat

/-- The low 64 bits of an integer. -/
def wordOf (v : Int) : Word := BitVec.ofInt 64 v

/-- A sign-extended immediate of form SI (R70). -/
def simm (imm : BitVec 15) : Word := imm.signExtend 64

/-- Cuts a list into k pieces of n. -/
def chunks {α : Type} (n : Nat) : Nat → List α → List (List α)
  | 0, _ => []
  | k + 1, l => l.take n :: chunks n k (l.drop n)

end Sys2Proof.Machine
end

