-- ==== Sys2Proof/Machine/State.lean ====
section
/-! DEFINITION. The state of one package of the W4096, as plain data: everything that the spec gives the
machine, and the agenda that says which of its agents moves next. INVENTORY.md lists every field with
its rule and its reset value. -/

namespace Sys2Proof.Machine

/-! ## A strand (R26-R39) -/

/-- What a PARKED strand waits for (R38). Every reason but `park`, `event` and `sync` is tried again when
the strand's turn comes. -/
inductive Reason where
  | sem | event | word | bale | park | sync | qpend
deriving DecidableEq, Repr

/-- The strand states of R38. -/
inductive Run where
  | idle
  | ready
  | parked (why : Reason)
  | stopped
deriving DecidableEq, Repr

/-- Why a READY strand issues nothing until an event (R25, R183): the instruction it has issued and not retired. -/
inductive Hold where
  | none
  | mma
  | accsw (acc : BitVec 3) (sy : Sync)
  | tblsw (tbl : Bool) (sy : Sync)
  | atomic (d : SReg)
  /-- A LAUNCH whose read of the block faulted (R371). -/
  | launch (d : SReg)
  /-- A LAUNCH whose read waits at a frozen stack: its registers, and its place in the order of arrival (R304). -/
  | launchFrozen (d a : SReg) (place : Nat)
deriving DecidableEq, Repr

/-- The repeat state of R83. -/
structure Rep where
  active : Bool := false
  left : Nat := 0
  first : Pc := 0
  len : Nat := 0
  idx : Nat := 0
deriving DecidableEq, Repr

/-- One instruction forwarded to a follower strand (R222), with what the leader's control did (R98). -/
structure Fwd where
  ins : Instr
  pc : Pc
  /-- The next PC that R50 gives, and the one the leader took. -/
  seq : Pc
  next : Pc
  /-- The outcome, target or count of the leader's control instruction (R98). -/
  outcome : Nat
  /-- The repeat state in which the leader issued it (R83, R98). -/
  rep : Rep
deriving DecidableEq, Repr

/-- One strand, or the message context (R26, R35, R38, R46). -/
structure Strand where
  s : SMap Word := []
  stag : BitVec 64 := 0
  p : BitVec 8 := 0
  ptag : BitVec 8 := 0
  v : SMap Vec := []
  vtag : SMap (BitVec 64) := []
  q : SMap (BitVec 64) := []
  qtag : SMap (BitVec 64) := []
  k : SMap (BitVec 64) := []
  pc : Pc := 0
  status : Word := 0
  trappc : Pc := 0
  trapcause : BitVec 8 := 0
  trapval : Word := 0
  tvec : Pc := 0
  scratchsv : Word := 0
  uipc : Pc := 0
  xferid : BitVec 16 := 0
  routine : BitVec 16 := 0
  rseq : BitVec 32 := 0
  rep : Rep := {}
  run : Run := .idle
  hold : Hold := .none
  /-- The wait of the instruction at PC has already subtracted (R57). -/
  took : Bool := false
  /-- The instruction at PC has made its checks and parked: what it read then (R197, R201, R202). -/
  tested : Option Word := none
  /-- Strands that must issue once before this strand does, after a YIELD (R80). -/
  yieldTo : BitVec 8 := 0
  xferCount : BitVec 16 := 0
  msgCount : Nat := 0
  launchCount : Nat := 0
  collCount : Nat := 0
  redcCount : Nat := 0
  /-- Completed transfers whose user-level interrupt waits for delivery: transfer id, handler PC (R44). -/
  uiq : List (BitVec 16 × Pc) := []
  /-- The message context's inline slots, 80 bits each (R224), and whether the message is immediate. -/
  slots : List (BitVec 80) := []
  immediate : Bool := false
  /-- Instructions forwarded to this strand of a follower and not yet issued (R222). -/
  fwdq : List Fwd := []
  /-- A leader's instruction that may still trap before it retires: it is forwarded when it has retired (R223). -/
  fwdHeld : Option Fwd := none
  /-- An event or SYNC wait that a user-level interrupt took the strand from (R44): the PC of its instruction, what it
  waits for, and the answer when it has come. -/
  standing : Option (Pc × Reason × Option Word) := none
  /-- The strand's latest turn issued an instruction; the model's own field, which forwarding reads (R222). -/
  issued : Bool := false
deriving DecidableEq, Repr

/-- A strand at package reset; a steward tile's strands hold PRIV = 3 (R34). -/
def Strand.reset (priv : Word) : Strand := { status := priv }

/-! ## A tile (R127-R155, R184-R231) -/

/-- A delta (R130): the second frame of a versioned line, with its masks and marks. -/
structure Delta where
  frame : Nat
  own : BitVec 128
  remote : BitVec 128
  ownMark : BitVec 16
  remoteMark : BitVec 16
deriving DecidableEq, Repr

/-- Tile memory (R127-R137): bytes by physical address, the line map, deltas, free frames and word marks.
`bytes` lists nonzero bytes; poison is by physical word, full and stale by word address, all from 0x0_8000. -/
structure TMem where
  bytes : List Host.Cell := []
  lineMap : SMap Nat := []
  deltas : SMap Delta := []
  free : List Nat := (List.range 256).map (· + 1536)
  low : Nat := 256
  poison : BitVec 28672 := 0
  full : BitVec 28672 := 0
  stale : BitVec 28672 := 0
deriving DecidableEq, Repr

/-- A bale-table entry (R141), field by field. -/
structure Bale where
  state : BitVec 2 := 0
  pend : Bool := false
  fault : Bool := false
  next : Bool := false
  refill : Bool := false
  offset : BitVec 11 := 0
  size : BitVec 9 := 0
  ring : BitVec 3 := 0
  ringv : Bool := false
  view : BitVec 8 := 0
  tag : BitVec 57 := 0
deriving DecidableEq, Repr

/-- A ring (R147), with the device's own counts: slots bound to an MMA (R187) and whether a push came in
the step (R149); and, while SUBV = 1, the subscription that feeds it (R299). -/
structure Ring where
  first : BitVec 6 := 0
  cntm1 : BitVec 6 := 0
  head : BitVec 6 := 0
  tail : BitVec 6 := 0
  occ : BitVec 7 := 0
  stopin : Bool := false
  subv : Bool := false
  v : Bool := false
  bound : Nat := 0
  pushed : Bool := false
  subSrc : Word := 0
  subLen : Nat := 0
  subView : Nat := 0
  subLeft : Nat := 0
  subForever : Bool := false
  subDone : Nat := 0
deriving DecidableEq, Repr

/-- MEMCFG after package reset (R128). -/
def memcfgReset : Word := 0x0A555555

/-- The tile control context of R22 and the further registers that the step-start snapshot of R228 and the
Barn record hold. -/
structure Ctl where
  sems : SMap (BitVec 16) := []
  bales : SMap Bale := []
  rings : SMap Ring := []
  plb : SMap (BitVec 128) := []
  listptr : Word := 0
  xschedptr : Word := 0
  sstep : BitVec 32 := 0
  seed : Word := 0
  hkey : Word := 0
  /-- Table entries (R111): A live at 0-255, A shadow at 256-511, B live at 512-767, B shadow at 768-1023. -/
  tables : SMap (BitVec 19) := []
  memcfg : Word := memcfgReset
  /-- A GATE value written by SYSWR that takes effect at the next COMMIT (R140). -/
  gateNext : Option (BitVec 14) := none
  fwdcfg : Word := 0
  budget : Word := 0
  plbctl : Word := 0
  evbase : Word := 0x380000
deriving DecidableEq, Repr

/-- One bank of an accumulator (R184): 32 × 32 elements of 32 bits, one poison bit each. -/
structure Bank where
  bits : BitVec 32768 := 0
  poison : BitVec 1024 := 0
deriving DecidableEq, Repr

/-- The forms of MMA (R188). -/
inductive MmaForm where
  | mma | mman | mmaq | mmai
deriving DecidableEq, Repr

/-- An issued MMA (R187): before retirement the bound slots; after it the operand bytes and poison as read. -/
structure Mma where
  form : MmaForm
  acc : BitVec 3
  ra : BitVec 3
  rb : BitVec 3
  slotA : Nat
  slotB : Nat
  groups : Nat
  fa : Nat
  fb : Nat
  strand : Nat
  sy : Sync
  retired : Bool
  /-- Operand bytes of the A and B bales, little-endian, and the poison of their words, as read at retirement. -/
  bytesA : Nat
  poisA : Nat
  bytesB : Nat
  poisB : Nat
deriving DecidableEq, Repr

/-- An ACCST or ACCLD in flight (R192). -/
structure AccMove where
  load : Bool
  addr : Nat
  stride : Nat
  fa : Nat
  fb : Nat
  rm : Nat
  strand : Nat
  routine : BitVec 16
  sy : Sync
  /-- Its words that have moved ahead of the rest: number, and for an ACCLD value and poison (R192, R270). -/
  moved : List (Nat × Word × Bool)
  /-- Its place among the issues that R270 orders. -/
  ord : Nat
deriving DecidableEq, Repr

/-- An entry of the put/get queue (R151), with the issuing routine's index (R315). -/
structure Xfer where
  dir : BitVec 2
  offset : Nat
  len : Nat
  view : Nat
  strand : Nat
  uipc : Pc
  va : Word
  sy : Sync
  id : BitVec 16
  routine : BitVec 16
  /-- Unique number of the transfer on its tile; memory requests name it. -/
  tag : Nat
  /-- A word of the transfer has been moved. -/
  begun : Bool
  /-- The bale it acts on (R207). -/
  slot : Option Nat
  /-- Units of the release quota that it holds for an entry not yet made (R206, R314). -/
  units : Nat
  /-- Its words that have moved to or from a gang tile, ahead of its completion (R270, R402). -/
  moved : List Nat
  /-- Its place among the issues that R270 orders. -/
  ord : Nat
deriving DecidableEq, Repr

/-- An issued page-fetch list (R205) or loader push (R202): slots still being filled, and the signal of its
instruction. -/
structure PflJob where
  slots : List Nat
  sy : Sync
  strand : Nat
  push : Bool
deriving DecidableEq, Repr

/-- An issued COLL (R397, R398): its offsets, its collective word, and the number that matches it. -/
structure Coll where
  src : Nat
  dst : Nat
  word : Word
  sy : Sync
  strand : Nat
  routine : BitVec 16
  k : Nat
deriving DecidableEq, Repr

/-- An active message (R224-R226) with its sender's key. -/
structure Msg where
  desc : BitVec 512
  sender : Nat
  routine : BitVec 16
  seq : Nat
deriving DecidableEq, Repr

/-- A deferred-atomic record (R254). -/
structure AmodRec where
  addr : Nat
  operand : BitVec 32
  tile : Nat
  routine : BitVec 16
  seq : BitVec 32
deriving DecidableEq, Repr

/-- A contribution to the pending reduction (R320). -/
structure Contrib where
  op : SheafOp
  value : Word
  routine : BitVec 16
  seq : Nat
deriving DecidableEq, Repr

/-- Where a tile stands in its step (R13). -/
inductive Phase where
  | free | start | compute | exchange | arrived | halted
deriving DecidableEq, Repr

/-- The sequencer (R211-R220). -/
structure Seq where
  phase : Phase := .free
  laddr : Nat := 0
  count : Nat := 0
  handler : Pc := 0
  preds : Word := 0
  /-- The next entry to examine. -/
  entry : Nat := 0
  /-- The stepped messages taken so far in the step, and the immediate ones started so far. -/
  stepTaken : Nat := 0
  immTaken : Nat := 0
  /-- Schedule sends of the exchange phase or of an XSCHED not yet issued: (entry words). -/
  sends : List (BitVec 128) := []
  /-- The signal of a running XSCHED (R322), and its strand. -/
  xsched : Option (Sync × Nat) := none
  /-- An unresumed trap, or a failure of R216, has stopped the tile's step. -/
  failed : Bool := false
  /-- The dispatches of a leader that a follower has not yet made: entry index, strand, PC (R222). -/
  fwdDispatch : List (Nat × Nat × Pc) := []
deriving DecidableEq, Repr

/-- The arming state of an event unit (R239): COUNT and chain target of barriers 0-7 and event lines 0-31. -/
structure Arming where
  barriers : SMap (BitVec 16 × Option (Bool × Nat × Nat)) := []
  lines : SMap (BitVec 16 × Option (Bool × Nat × Nat)) := []
deriving DecidableEq, Repr

/-- What a resident context leaves in its Barn record (R373, R374): the control context, the gang and the
pool's frames that belong to it. -/
structure BarnRec where
  gang : Nat
  gti : Nat
  ctl : Ctl
  abortcnt : BitVec 8
  abortlim : BitVec 8
  redres : Word
  ldec : BitVec 2
  lcause : BitVec 8
  cbase : Nat
  clines : Nat
  segmask : BitVec 14
  free : List Nat
  msgs : List Msg
  msgFrames : List Nat
  /-- Immediate messages held for the next step (R225). -/
  mail : List Msg
  dlprior : Bool
  /-- Units and lanes that mismatched twice in earlier attempts of the saved step (R230). -/
  persist : List (Nat × Nat)
  /-- Parent signals for the context (R370): semaphore, increment. -/
  parentSigs : List (Nat × Nat)
  /-- The arming state of the cluster's event unit, with the context of member 0 (R239). -/
  arming : Option Arming
  /-- The key record that enciphered it; none when the partition's slot held none (R347, R348). -/
  key : Option (BitVec 512)
deriving DecidableEq, Repr

/-- The tile's vote and the latest decision (VOTESTAT, R305). -/
structure Vote where
  vote : BitVec 2 := 0
  cause : BitVec 8 := 0
  sent : Bool := false
  ldec : BitVec 2 := 0
  lcause : BitVec 8 := 0
  sgen : BitVec 16 := 0
deriving DecidableEq, Repr

/-- One physical tile. -/
structure Tile where
  strands : SMap Strand := []
  ctl : Ctl := {}
  /-- The step-start snapshot (R228). -/
  snap : Ctl := {}
  mem : TMem := {}
  /-- The code region, physical bytes 0x0_0000-0x0_7FFF (R47). -/
  code : List Host.Cell := []
  /-- Bit i: which bank of accumulator i is the working bank (R184). -/
  working : BitVec 8 := 0
  /-- Bank b of accumulator a stands at key 2a + b. -/
  banks : SMap Bank := []
  mmas : List Mma := []
  accMoves : SMap AccMove := []
  xq : List Xfer := []
  xtag : Nat := 0
  pfls : List PflJob := []
  /-- The strand whose command latest gave a bale slot to the loader or the storer, and its place among the issues that R270 orders. -/
  slotBy : SMap (Nat × Nat) := []
  colls : List Coll := []
  /-- Immediate messages on arrival (R225), oldest first, and those held for the next step. -/
  mail : List Msg := []
  mailNext : List Msg := []
  /-- Stepped messages of this step, those handed over by COMMIT for the current step and not taken, and all that
  were at its start, which a rerun takes again. -/
  stepped : List Msg := []
  steppedNow : List Msg := []
  steppedStart : List Msg := []
  msgFrames : List Nat := []
  /-- Deferred-atomic records held as home (R254), and the pool frames they take. -/
  amods : List AmodRec := []
  amodFrames : List Nat := []
  seq : Seq := {}
  vote : Vote := {}
  redc : List Contrib := []
  redres : Word := 0
  /-- The result of the latest SYNC generation fired in this attempt (R321). -/
  syncres : Option Word := none
  /-- The tile has arrived at the current SYNC generation (R318). -/
  syncArrived : Bool := false
  abortcnt : BitVec 8 := 0
  abortlim : BitVec 8 := 3
  chkstat : Word := 0
  /-- FWDCFG as the latest start phase took it (R221). -/
  fwd : Word := 0
  /-- Units and lanes that mismatched twice in earlier attempts of the step (PERSIST, R230), and in this one. -/
  persist : List (Nat × Nat) := []
  twice : List (Nat × Nat) := []
  /-- The all-parked line at its last evaluation, the activity count and PRIOR (R256, R258). -/
  line : Bool := false
  act : BitVec 16 := 0
  dlprior : Bool := false
  /-- Lines of members 0-15 at the latest sample (R258). -/
  dlsample : BitVec 16 := 0
  gang : Nat := 0
  gti : Nat := 0
  cbase : Nat := 0
  clines : Nat := 512
  segmask : BitVec 14 := 0x3FFF
  /-- Segments whose wake is running (R140). -/
  waking : BitVec 14 := 0
  /-- Cycles counted for BUDGET.USED and not yet a unit (R313). -/
  budgetCycles : Nat := 0
  barn : SMap BarnRec := []
  /-- Parent signals to apply at the next start phase (R370): semaphore, increment. -/
  parentSigs : List (Nat × Nat) := []
  /-- Bale slots whose fill has failed: they stay FILLING (R130, R142). -/
  lostFills : BitVec 64 := 0
  /-- Units and lanes that a syndrome with PERSIST = 1 has named in this step, and a persistent fault of SRAM outside
  tile-memory words (R233). -/
  faulty : List (Nat × Nat) := []
  sramBad : Bool := false
  /-- The tile is mapped out of its cluster (R233, R260). -/
  retired : Bool := false
deriving DecidableEq, Repr

/-! ## A cluster (R235-R261) -/

/-- A barrier of an event unit (R239): waiting loads are (tile, context, destination register); a chain target is
(event line, gang cluster index, object). -/
structure Barrier where
  count : BitVec 16 := 0
  chain : Option (Bool × Nat × Nat) := none
  arr : Nat := 0
  gen : BitVec 32 := 0
  waitup : Bool := false
  waiters : List (Nat × Nat × SReg) := []
  /-- Chained arrivals counted in this generation: (cluster key, barrier). -/
  children : List (Nat × Nat) := []
  /-- Arrivals held while WAITUP: a waiting load, an EVSIG, or a chained arrival with its source. -/
  late : List (Option (Nat × Nat × SReg) × Option (Nat × Nat)) := []
deriving DecidableEq, Repr

/-- An event line (R239, R241). -/
structure Line where
  count : BitVec 16 := 0
  chain : Option (Bool × Nat × Nat) := none
  sig : BitVec 16 := 0
  waiters : List (Nat × Nat × SReg) := []
  /-- The line has sent its chained signal since its last arm or decision. -/
  sent : Bool := false
deriving DecidableEq, Repr

/-- A mutex (R239, R242): owner and waiters by tile and context. -/
structure Mutex where
  owner : Option (Nat × Nat) := none
  queue : List (Nat × Nat × SReg) := []
deriving DecidableEq, Repr

/-- A cluster site: its event unit, its spare state (SPARESTAT, R259) and its mesh coordinate (R282). -/
structure Cluster where
  barriers : SMap Barrier := []
  lines : SMap Line := []
  mutexes : SMap Mutex := []
  /-- Arming state at the start of the step (R239). -/
  armed : Arming := {}
  spare : Bool := true
  inuse : Bool := false
  member : BitVec 4 := 0
  req : Bool := false
  newm : BitVec 4 := 0
  /-- A decision has followed REQ, or none is needed (R260). -/
  due : Bool := false
  /-- Physical unit (0-16) of each member whose unit is not its own index (R260). -/
  unitOf : SMap Nat := []
  /-- Mesh coordinate (x, y) plus one, or 0 for a spare site that has none: 1 + x + 8y. -/
  coord : Nat := 0
deriving DecidableEq, Repr

/-! ## The network -/

/-- An immediate store in flight (R248), or performed and not yet completed. -/
structure Ist where
  src : Nat
  strand : Nat
  /-- None: a tile of another package; so below. -/
  dest : Option Nat
  addr : Nat
  size : Size
  data : Word
  sy : Sync
  fenced : Bool
  landed : Bool
  report : Bool
  /-- Its place among the issues that R270 orders. -/
  ord : Nat
deriving DecidableEq, Repr

/-- An immediate atomic in flight (R251): `hbm` for the memory side, else at the home tile. -/
structure Amo where
  src : Nat
  strand : Nat
  hbm : Bool
  addr : Word
  op : AmoOp
  float : Option RedOp
  word : Bool
  x : Word
  y : Word
  suspended : Bool
  /-- It waits at a frozen stack: its place in the order of arrival (R304). -/
  frozen : Option Nat
  /-- The partition whose key and table it uses, and ROOT at its issue (R347, R385). -/
  part : Nat
  root : Nat
  /-- Its read is delivered poisoned after a command-parity failure (R302). -/
  poisoned : Bool
deriving DecidableEq, Repr

/-- A deferred-atomic record in flight, or landed and not yet acknowledged (R254), with its conflict report. -/
structure AmodFlight where
  src : Nat
  home : Nat
  item : AmodRec
  landed : Bool
  report : Bool
  /-- Its place in the order in which the COMMIT class was entered (R283); so below. -/
  ord : Nat
deriving DecidableEq, Repr

/-- A schedule send in flight, or landed and not yet completed (R220). -/
structure Send where
  src : Nat
  dest : Option Nat
  doff : Nat
  words : List (Word × Bool)
  landed : Bool
  report : Bool
  ord : Nat
  /-- Where its words come from at its source, and those that have landed ahead of the rest (R270). -/
  from_ : Nat
  moved : List Nat
deriving DecidableEq, Repr

/-- An active message in flight (R225): stepped or immediate, to a tile key. -/
structure MsgFlight where
  src : Nat
  dest : Nat
  msg : Msg
  ord : Nat
deriving DecidableEq, Repr

/-- A chained arrival or signal, or a release, between event units (R240): source cluster and object,
target cluster and object. -/
structure ChainMsg where
  release : Bool
  srcCluster : Nat
  srcLine : Bool
  srcObj : Nat
  dstCluster : Nat
  dstLine : Bool
  dstObj : Nat
deriving DecidableEq, Repr

/-! ## The memory side (R282-R304) -/

/-- What a memory request serves. -/
inductive ReqFor where
  | xfer (tag : Nat)
  | fill (slot : Nat)
  | drain (slot : Nat)
deriving DecidableEq, Repr

/-- One memory-side request of a tile (R287): a read of memory into the tile, or a write from it. -/
structure Req where
  tile : Nat
  write : Bool
  va : Word
  view : Nat
  len : Nat
  off : Nat
  what : ReqFor
  suspended : Bool
  /-- It waits at a frozen stack: its place in the order of arrival (R304). -/
  frozen : Option Nat
  /-- The partition whose key and table it uses, and ROOT at its issue (R347, R385). -/
  part : Nat
  root : Nat
  /-- The virtual address that its latest fault record named (R290). -/
  faultVa : Nat
  /-- Granules of 32 bytes whose words are delivered poisoned after a command-parity failure (R302). -/
  badGranules : List Nat
  /-- Its words that have moved ahead of the rest: number, value and poison (R270). -/
  moved : List (Nat × Word × Bool)
  /-- The 64-byte units of which it has read a word, each with the key slot as it was at the first one (R348). -/
  opened : List (Nat × Option (BitVec 512))
deriving DecidableEq, Repr

/-- A page twin (R295, R296): the page's leaf entry, its committed frame, the twin frame, and which bytes of
the page the attempt wrote, as (first, last, gang tile index) ranges. -/
structure Twin where
  gang : Nat
  leaf : Nat
  base : Nat
  frame : Nat
  written : List (Nat × Nat × Nat)
deriving DecidableEq, Repr

/-- A byte of plain HBM that a strand's transfer, or the storer (strand 5), has written in a view and not pushed: what it held
before (R276). -/
structure ViewWrite where
  gang : Nat
  gti : Nat
  strand : Nat
  view : Nat
  addr : Nat
  old : Byte
  oldPoison : Bool
deriving DecidableEq, Repr

/-- A pending publication record (R288): gangs it has been published for. -/
structure Pub where
  target : PubTarget
  old : Word
  value : Word
  done : List Nat
deriving DecidableEq, Repr

/-- A release-queue entry (R314, R315): the bytes of a write, with their addresses in the model's memory and poison. -/
structure Rel where
  gang : Nat
  part : Nat
  gti : Nat
  routine : BitVec 16
  seq : Nat
  units : Nat
  bytes : List (Nat × Byte × Bool)
deriving DecidableEq, Repr

/-! ## Gangs, the Sheaf and the Gleaner (R305-R344) -/

/-- One patch of a plot (R324). -/
structure Patch where
  sums : List (BitVec 32) := []
  l1 : BitVec 32 := 0
  refv : Bool := false
  run : BitVec 8 := 0
  outt : Option Nat := none
  force : Bool := false
  /-- The open timestep's signature, merged at commits: written, dirty, valid, sums, L1. -/
  written : Bool := false
  dirty : Bool := false
  valid : Bool := false
  tsums : List (BitVec 32) := []
  tl1 : BitVec 32 := 0
deriving DecidableEq, Repr

/-- A configured plot (R324, R325). `draw` counts the free values drawn when it was configured: what its references
read as while nothing has set them. -/
structure Plot where
  desc : BitVec 512
  draw : Nat := 0
  tcur : BitVec 32 := 0
  tseal : Option (BitVec 32) := none
  row : List Bool := []
  patches : SMap Patch := []
deriving DecidableEq, Repr

/-- What an attempt has told the Gleaner of one plot (R326, R330, R335, R336): observations in order. -/
inductive Observation where
  | counting (plot patch : Nat) (valid : Bool) (sums : List (BitVec 32)) (l1 : BitVec 32)
  | dirty (plot patch : Nat) (foreign : Bool)
  | output (plot slot : Nat) (exact foreign : Bool)
  | force (plot : Nat) (patch : Option Nat)
  | seal (plot : Nat)
  | config (plot : Nat) (desc : BitVec 512)
deriving DecidableEq, Repr

/-- What the tiles of a rank on another package show when every line of them is raised and every engine that serves them is idle (R257):
their activity counts, and the lowest gang tile index of one that has not voted. -/
structure PeerLines where
  acts : List (BitVec 16)
  unvoted : Option Nat
deriving DecidableEq, Repr

/-- Where a gang stands. -/
inductive GangState where
  | running | inBarn | out | stopped
deriving DecidableEq, Repr

/-- A LAUNCH accepted in the current attempt (R371). -/
structure PendLaunch where
  gti : Nat
  routine : BitVec 16
  seq : Nat
  block : Word
  slot : Nat
  part : Nat
deriving DecidableEq, Repr

/-- A gang of this package. -/
structure Gang where
  part : Nat
  clusters : Nat
  perCluster : Nat
  rank : Nat
  ranks : Nat
  rootPkg : BitVec 16
  /-- Tile key of each local index. -/
  place : List Nat
  stepLimit : BitVec 32
  state : GangState
  domain : BitVec 16
  /-- The job that started it: slot, user queue (R357) and STRIDE at its selection, priority; cluster-cycles not yet
  charged, and charge units since its selection (R360, R364); completion fields of the block. A gang whose job another
  package's dispatcher selected has no slot and no queue here: 64 stands for each (R393). -/
  slot : Nat
  qid : Nat
  stride : Nat
  prio : Nat
  cycles : Nat
  charged : Nat
  complva : Word
  parent : Word
  hmsg : Option Word
  preempt : Bool
  /-- The DECIDE being applied, and the tiles that have not applied it. -/
  verdict : Option Packet
  todo : List Nat
  /-- A page-fetch list issued at the start of step 0 on every tile; 0 for none (R366). -/
  pfl0 : Nat
  /-- Sheaf packets sent upward and not yet combined, by sender: a leaf at its cluster key, a die node at 1000 + die,
  another package's root at 5000 + rank, a tile at 10000 + tile. -/
  up : SMap (List Packet)
  /-- A mismatched SYNC generation makes the decision HALT (R318). -/
  mismatch : Bool
  /-- A node has found the present SYNC generation mismatched (R318). -/
  syncMismatch : Bool
  syncDown : Option Word
  syncTodo : List Nat
  plots : SMap Plot
  observed : List Observation
  launches : List PendLaunch
  linkFail : Bool
  /-- A deadlock sample that showed every condition of R257: its cycle and the tiles' activity counts. -/
  sample : Option (Nat × List (BitVec 16))
  /-- The latest mirror image of this rank is not acknowledged yet, and the virtual address of the header of its half (R399). -/
  mirrorWait : Bool
  mirrorAt : Nat
  haltCause : BitVec 8
  /-- SSTEP of the contexts that the Barn or an image holds. -/
  savedStep : BitVec 32
  /-- The records that BARNSV has taken out of the Barn, by local index: a gang image has no room for held immediate messages, parent
  signals and mismatches, nor always for arming state (R239). -/
  aside : List BarnRec
  /-- The partition of the queue whose slot selected the job: another one's, when QSLOTMAP has granted the slot anew (R359). -/
  qpart : Nat := part
  /-- What the tiles of other ranks show for R257, by rank; a rank that shows not every condition has none. -/
  lines : SMap PeerLines := []
  /-- A link failure that came while a decision was being applied: the ranks that it leaves unreachable (R392). -/
  lost : Option (List Nat) := none
deriving DecidableEq, Repr

/-! ## Package and dispatcher (R345-R381) -/

/-- One of the 64 partitions: its control block (R345), key slot, view table, rank map and registers. -/
structure Part where
  root : BitVec 48 := 0
  dlo : BitVec 16 := 0
  dhi : BitVec 16 := 0
  alimit : BitVec 8 := 3
  rquota : BitVec 32 := 0
  pquota : BitVec 16 := 0
  hkey : Word := 0
  clusters : BitVec 256 := 0
  key : Option (BitVec 512) := none
  views : SMap (BitVec 128) := []
  /-- Rank map: package id, BUDDY and MIRROR of each bound rank (R393, R396). -/
  ranks : SMap (BitVec 16 × BitVec 16 × BitVec 48) := []
  qslotmap : BitVec 64 := 0
  qpending : BitVec 64 := 0
  kaddr : BitVec 42 := 0
  bslot : BitVec 2 := 0
  resid : Bool := false
  saved : Bool := false
  /-- Latest doorbell value of each queue (R357). -/
  bells : SMap (BitVec 32) := []
  /-- Gang ids that stand in the wake register of the virtual function (R350). -/
  wakes : List Nat := []
deriving DecidableEq, Repr

/-- A partition at package reset: slots 4p to 4p+3 for p < 16, Barn slot p mod 4 (R346). DEDUCED, log 12. -/
def Part.reset (p : Nat) : Part :=
  { qslotmap := if p < 16 then BitVec.ofNat 64 (15 <<< (4 * p)) else 0, bslot := BitVec.ofNat 2 p }

/-- A mapped queue slot (R358, R359). -/
structure Slot where
  rbase : Word
  rlog2 : Nat
  part : Nat
  qid : Nat
  cont : Bool
  cgang : Nat
  cprio : Nat
  head : BitVec 32
  tail : BitVec 32
  tickets : Nat
  stride : Nat
  qlim : Nat
  pass : Word
  agep : Nat
  wait : Nat
  running : Bool
  /-- The slot was selected in the current time unit (R362). -/
  selected : Bool
deriving DecidableEq, Repr

/-- What the structures of a launch block hold: code, the data images (one, or one for each tile), PLB, records, views (R366). -/
structure Payload where
  code : List Byte
  images : List (List Byte)
  plb : List Byte
  records : List Byte
  views : List Byte
deriving DecidableEq, Repr

/-- A gang that another package's dispatcher starts, of which this package places its part (R393): its partition and id, the block and
what its structures hold. -/
structure PeerJob where
  part : Nat
  gang : Nat
  block : List Word
  payload : Payload
deriving DecidableEq, Repr

/-- Where a job came from (R359). -/
inductive JobSrc where
  | ring | device | cont (gang : Nat)
deriving DecidableEq, Repr

/-- A job selected by the dispatcher and not yet placed, or ended and not yet completed (R363, R370). -/
structure Job where
  slot : Nat
  part : Nat
  src : JobSrc
  /-- The block's virtual address; none while its ring entry has not been read. -/
  block : Option Word
  prio : Nat
  eff : Nat
  /-- The queue that its slot holds at the selection, and that slot's STRIDE (R359, R360). -/
  qpart : Nat := part
  qid : Nat := 0
  stride : Nat := 0
deriving DecidableEq, Repr

/-- A job whose completion word is still to be written (R370): none for an address that cannot be known or used, or
another package's word; `qid` of partition `qpart` is the user queue whose slot the job held, if it held one. -/
structure Done where
  job : Nat
  complva : Option Word
  part : Nat
  status : BitVec 8
  cause : BitVec 8
  sstep : BitVec 32
  gang : BitVec 16
  parent : Word
  hmsg : Option Word
  qid : Option Nat
  qpart : Nat := part
deriving DecidableEq, Repr

/-- Charges and Barn arrivals held for an unmapped queue (R381). -/
structure Held where
  part : Nat
  qid : Nat
  charge : Word
  cont : Option (Nat × Nat)
deriving DecidableEq, Repr

/-- The dispatcher (R357-R372). -/
structure Disp where
  slots : SMap Slot := []
  /-- Device-launch queue of each slot: block address, partition (R371). -/
  launches : SMap (List (Word × Nat)) := []
  job : Option Job := none
  /-- Ranks whose packages have placed their part of the selected job (R393). -/
  peers : List Nat := []
  /-- A read for the selected job faulted and awaits the steward's answer (R369). -/
  jobFault : Bool := false
  jobFailed : Bool := false
  done : List Done := []
  nextJob : Nat := 0
  held : List Held := []
  /-- The slot charged most recently, while its queue is mapped there, and its PASS as the queue left it (R361). -/
  lastSlot : Option Nat := none
  lastPass : Word := 0
  /-- Time units that have ended (R362). -/
  units : Nat := 0
deriving DecidableEq, Repr

/-- Reports to the steward and to system software through the host link (R42, R290, R348, R370 and others). -/
inductive Report where
  | firmwareFault (tile : Nat)
  | gangHalted (gang : Nat) (step : BitVec 32) (cause : BitVec 8)
  | pageFault (gang domain : Nat) (va : Word) (write : Bool)
  | deadlock (gang : Nat)
  | linkFail (gang : Nat)
  | discardedWrite (part : Nat) (addr len : Nat)
  | poisonedHostWord (addr : Nat)
  | droppedMessage (part : Nat)
  | droppedCompletion (part : Nat)
  | allKeysErased
  | frameRetired (addr : Nat)
  | clusterLost (die : Nat)
  | hostAbort (part : Nat) (va : Word)
deriving DecidableEq, Repr

/-- The steward's package registers that are not held per partition (R346). -/
structure Pkg where
  partid : BitVec 6 := 0
  /-- Partitions whose reset, key load (with its KADDR) or key erase has been written and is not done. -/
  rst : List Nat := []
  load : List (Nat × Nat) := []
  erase : List Nat := []
  alarmcfg : BitVec 9 := 0x6A
  seen : BitVec 4 := 0
  lpart : BitVec 6 := 0
  allErased : Bool := false
  alarms : BitVec 16 := 0
  diemax : BitVec 8 := 0
  /-- The temperature of each stack; THERMSTAT.HBMMAX is the highest. -/
  temps : SMap (BitVec 8) := []
  frozen : BitVec 8 := 0
  pkgid : BitVec 16 := 0
  /-- Bring-up has completed (R356). -/
  up : Bool := false
  /-- Authenticated Quimor image: code bytes and entry PC, which a steward tile reset starts again (R401). -/
  image : List (Nat × Byte) := []
  entry : Pc := 0
deriving DecidableEq, Repr

/-- An Eweit port's link layer (R389-R392). Its lanes have the numbers of R390's table, from 0: SHEAF, COMMIT, IMMEDIATE, BULK; each
carries the NoC class of its name (R283). -/
structure Port where
  inService : Bool := true
  /-- The lanes that the receiver at the other end has stopped. -/
  stopped : BitVec 4 := 0
  /-- The sequence number of the next flit, and the flits sent and not acknowledged, oldest first: number, lane. -/
  next : BitVec 12 := 0
  retained : List (BitVec 12 × BitVec 2) := []
  /-- Resends of one flit that have failed in succession, and its sequence number. -/
  resends : Nat := 0
  resendSeq : BitVec 12 := 0
  /-- As a receiver: the number of the flit expected next, how often a resend from it has been requested, and the lanes that it has
  stopped. -/
  expected : BitVec 12 := 0
  asked : Nat := 0
  full : BitVec 4 := 0
deriving DecidableEq, Repr

/-! ## Agenda -/

/-- What the hardware's own failures do to one issue (R230, R232). -/
inductive Hw where
  | ok
  | check (c : Check)
  | sramUe (structure_ : BitVec 8) (index : BitVec 16)
deriving DecidableEq, Repr

/-- Who moves next: a strand, a device event, or the environment (R232, R301, the storer of R142). -/
inductive What where
  | strand (tile k : Nat) (hw : Hw)
  | event (i : Instr)
  /-- Word i of the n-th request, or of the n-th entry of a tile's put/get queue, moves ahead of the rest (R270). -/
  | requestWord (n i : Nat)
  | transferWord (tile n i : Nat)
  /-- So does word i of an ACCST or an ACCLD; word i of the n-th send is read, or lands (R270). -/
  | accWord (tile acc i : Nat)
  | sendRead (n i : Nat)
  | sendWord (n i : Nat)
  /-- A request, an atomic or an immediate store that a segment's wake has held is tried again (R140). -/
  | retryRequest (r : Req)
  | retryAtomic (a : Amo)
  | retryStore (i : Ist)
  /-- A double-bit error in the word at a tile address; `delta` when it lies in the delta frame (R232). -/
  | tileWordError (tile addr : Nat) (delta : Bool)
  /-- A single-bit error, corrected (R232). -/
  | tileWordCorrected (tile : Nat)
  /-- A parity error in a control structure that a unit other than a strand finds (R232). -/
  | tileControlError (tile : Nat) (structure_ : BitVec 8) (index : BitVec 16)
  /-- An error that prevents restoring the snapshot or the line map (R232), and a persistent fault of SRAM outside tile-memory
  words (R233). -/
  | tileRestoreError (tile : Nat)
  | tileSramFault (tile : Nat)
  /-- A correctable error in a row of HBM, or on a channel of the second tier (R301, R351, R355). -/
  | rowCorrected (stack row : Nat)
  | channelCorrected (channel : Nat)
  /-- An uncorrectable error in a 32-byte granule of HBM or the second tier (R301, R351). -/
  | memGranuleError (addr : Nat)
  /-- The storer begins to drain the head slot of a ring (R142). -/
  | storer (tile ring : Nat)
  /-- The steward asks a cluster's SPARESTAT for the remap of a member (R259). -/
  | remapRequest (cluster member : Nat)
  /-- The temperature sensors give new readings (THERMSTAT, R346): the hottest compute die's, and one stack's. -/
  | sensors (die : BitVec 8) (stack : Nat) (hbm : BitVec 8)
  /-- A port sends its next flit on a lane, takes the acknowledgement of every flit up to one, or receives a flit, uncorrectable or not
  (R389); its buffer for a lane becomes short of room, or has room again (R391). -/
  | flitSent (port : Nat) (lane : BitVec 2)
  | flitAck (port : Nat) (seq : BitVec 12)
  | flitReceived (port : Nat) (seq : BitVec 12) (bad : Bool)
  | laneFull (port : Nat) (lane : BitVec 2) (full : Bool)
  /-- The oldest flit that a port out of service retains is sent on another route, by another port (R392). -/
  | flitRerouted (port other : Nat)
  /-- A package comes in or out of reach of the fabric's routes (R392, R396). -/
  | route (pkg : BitVec 16) (reached : Bool)
  /-- What another package does here: words of a PUT to a tile here land (R390), words of a mirror image reach this package's second
  tier (R399), words of another package's second tier become other ones (R400), a gang id is taken or freed there, a rank's part of the
  selected job is placed there, a gang is started or resumed from there (R393), the tiles there show what R257 asks, a RANKMAP there
  writes the map here (R396). -/
  | peerPut (e : ExtPut)
  | peerWrite (part va : Nat) (words : List (Word × Bool))
  | peerTier (pkg : BitVec 16) (part va : Nat) (words : List (Word × Bool))
  | peerJob (job : PeerJob)
  | peerResume (gang : Nat)
  | peerLines (gang rank : Nat) (lines : Option PeerLines)
  | peerGang (id : Nat) (held : Bool)
  | peerPlaced (rank : Nat)
  | peerRank (part rank : Nat) (entry : Option (BitVec 16 × BitVec 16 × BitVec 48))
  /-- Nothing moves. -/
  | idle
deriving DecidableEq, Repr

/-- One turn of the agenda: cycles that pass before it, and what moves. DESIGN CHOICE, log 2. -/
structure Turn where
  cycles : Nat
  what : What
deriving DecidableEq, Repr

/-- What keeps an order of its own among the agents that act in one cycle. -/
inductive Arbiter where
  | tile (t : Nat)
  | events (cluster : Nat)
  | word (addr : Nat)
  | alarms
  | dispatcher
  | launches (part : Nat)
deriving DecidableEq, Repr

/-- An access that waits for a segment's wake (R140): the tile, the segment, and the turn in which it is tried again. -/
structure HeldAccess where
  tile : Nat
  seg : Nat
  who : What
deriving DecidableEq, Repr

/-! ## The package -/

/-- The whole machine. -/
structure State where
  /-- Turns still to be taken, first first; when none is left, strand `curStrand` of `curTile` takes the turn. -/
  agenda : List Turn := []
  /-- CYCLE: cycles since package reset (R35). -/
  cycle : Nat := 0
  /-- The strand that has the turn: tile key, strand number (4 for the message context). -/
  curTile : Nat := 4624
  curStrand : Nat := 0
  /-- Free values drawn so far; the model's own field. -/
  fresh : Nat := 0
  /-- Tiles by key: die·1156 + site·17 + unit, steward tile i at 4624 + i. -/
  tiles : SMap Tile := []
  /-- Clusters by key: die·68 + site; the steward cluster at 272. -/
  clusters : SMap Cluster := []
  gangs : SMap Gang := []
  parts : SMap Part := []
  pkg : Pkg := {}
  disp : Disp := {}
  /-- Spare clusters remaining and active clusters, by die (R259). -/
  dspc : SMap Nat := []
  dact : SMap Nat := []
  /-- HBM at 0, second tier at 2^48, host memory at 2^49: nonzero bytes. -/
  mem : List Host.Cell := []
  /-- The poison marks of memory's 8-byte words, by word number (R129, R301). -/
  memPoison : SMap Bool := []
  /-- The key each 64-byte unit was last written under, plus one; 0 when none (R347). -/
  memKey : SMap Nat := []
  reqs : List Req := []
  twins : List Twin := []
  pubs : List Pub := []
  /-- The twin pool of each stack (R295): frames that promotions have given it, and how many of its first frames have
  been taken; frames retired, and spare use (R303). -/
  twinFree : List Nat := []
  twinNext : SMap Nat := []
  retired : SMap Bool := []
  repairs : SMap Nat := []
  release : List Rel := []
  /-- Messages in the host link queue (R380): partition, two words. -/
  hostq : List (Nat × Word × Word) := []
  ists : List Ist := []
  amos : List Amo := []
  amodNet : List AmodFlight := []
  sends : List Send := []
  msgs : List MsgFlight := []
  chains : List ChainMsg := []
  ports : SMap Port := []
  reports : List Report := []
  /-- NoC links that are out of service (R284). -/
  nocOut : List Nat := []
  /-- Issues numbered for R270 and R283, and requests that have come to wait at a frozen stack (R283, R304). -/
  netOrd : Nat := 0
  waits : Nat := 0
  /-- Stream counts of COMMIT-lane flits accepted in the present step: gang, source package, count (R392). -/
  accepted : List (Nat × BitVec 16 × Nat) := []
  viewWrites : List ViewWrite := []
  /-- Correctable errors by row (8 × row + stack), and by stack (64 × stack + p) and by second-tier channel (64 × channel + p) since the
  last checkpoint of each partition p (R355). -/
  eccRows : SMap Nat := []
  eccStacks : SMap Nat := []
  eccChannels : SMap Nat := []
  /-- Packages that no route reaches, and gang ids that other packages hold (R393, R396). -/
  cutOff : List (BitVec 16) := []
  peerGangs : List Nat := []
  /-- Words of the mirror areas in the second tiers of other packages, by package, partition and virtual address (R399, R400). -/
  farTier : SMap (Word × Bool) := []
  /-- The turn being taken, the accesses that wait for a wake, in order of arrival (R140), and who has moved in the present
  cycle, with its rank; the model's own fields. -/
  acting : What := .idle
  held : List HeldAccess := []
  moved : List (Arbiter × Nat) := []
deriving DecidableEq, Repr

/-- The machine right after package reset, before bring-up step 1 of R356 has started Quimor. DESIGN CHOICE, log 1.
DESIGN CHOICE, log 3. -/
def State.reset : State := {}

/-- Reasons the machine stops with a fault. -/
inductive Fault where
  /-- Raised by a memory request or a walk whose tier address lies outside the memory that R286, R351 and
  R2 give the package; safe: the hardware may go on, and no statement is about what follows. -/
  | noSuchTierAddress (addr : Nat)
deriving DecidableEq, Repr

/-- Reasons the model refuses. -/
inductive Refusal where
  /-- The instruction named has no meaning in the model yet; raised by its arm of `exec`; safe. -/
  | notModelled (mnemonic : String)
deriving DecidableEq, Repr

end Sys2Proof.Machine
end

