-- ==== Sys2Proof/Machine/Ops.lean ====
section
/-! DEFINITION. Named operations over the state that every meaning shares: reaching tiles and strands,
registers with their tags, code lines and the next PC, votes, taking a trap and returning from one,
semaphores and sync tails, and the order of checks at issue. -/

namespace Sys2Proof.Machine

/-! ## Tiles and strands -/

/-- Steward tiles have keys 4624 to 4639. -/
def isSteward (t : Nat) : Bool := decide (4624 ≤ t)

/-- A tile by key. -/
def State.tile (s : State) (t : Nat) : Tile := s.tiles.get t {}

/-- Writes a tile. -/
def State.setTile (s : State) (t : Nat) (x : Tile) : State := { s with tiles := s.tiles.set t {} x }

/-- Changes a tile. -/
def State.updTile (s : State) (t : Nat) (f : Tile → Tile) : State := s.setTile t (f (s.tile t))

/-- PRIV of a strand that has never run: 3 on a steward tile (R34). -/
def resetPriv (t k : Nat) : Word := if isSteward t ∧ k < 4 then 3 else 0

/-- Strand k of tile t. -/
def State.strand (s : State) (t k : Nat) : Strand := (s.tile t).strands.get k (Strand.reset (resetPriv t k))

/-- Writes strand k of tile t. -/
def State.setStrand (s : State) (t k : Nat) (x : Strand) : State :=
  s.updTile t fun T => { T with strands := T.strands.set k (Strand.reset (resetPriv t k)) x }

/-- Changes strand k of tile t. -/
def State.updStrand (s : State) (t k : Nat) (f : Strand → Strand) : State := s.setStrand t k (f (s.strand t k))

/-- The strand whose turn it is. -/
def State.me (s : State) : Strand := s.strand s.curTile s.curStrand

/-- The tile of the strand whose turn it is. -/
def State.myTile (s : State) : Tile := s.tile s.curTile

/-- Writes the strand whose turn it is. -/
def State.setMe (s : State) (x : Strand) : State := s.setStrand s.curTile s.curStrand x

/-- Changes the strand whose turn it is. -/
def State.updMe (s : State) (f : Strand → Strand) : State := s.setMe (f s.me)

/-- Changes the tile of the strand whose turn it is. -/
def State.updMyTile (s : State) (f : Tile → Tile) : State := s.updTile s.curTile f

/-- The gang of a tile, if it has one. -/
def State.gangOf (s : State) (t : Nat) : Option Gang :=
  if (s.tile t).gang = 0 then none else s.gangs.find (s.tile t).gang

/-- A gang by id. -/
def State.gang (s : State) (g : Nat) : Option Gang := s.gangs.find g

/-- Writes a gang. -/
def State.setGang (s : State) (g : Nat) (x : Gang) : State := { s with gangs := s.gangs.insert g x }

/-- Changes a gang, if there is one of that id. -/
def State.updGang (s : State) (g : Nat) (f : Gang → Gang) : State :=
  match s.gangs.find g with
  | some x => s.setGang g (f x)
  | none => s

/-- A partition by number. -/
def State.part (s : State) (p : Nat) : Part := s.parts.get p (Part.reset p)

/-- Changes a partition. -/
def State.updPart (s : State) (p : Nat) (f : Part → Part) : State :=
  { s with parts := s.parts.set p (Part.reset p) (f (s.part p)) }

/-- A cluster at package reset: site 8y + x holds coordinate (x, y), a spare site none (R282). -/
def Cluster.reset (c : Nat) : Cluster := { coord := if c < 272 ∧ c % 68 < 64 then c % 68 + 1 else 0 }

/-- A cluster by key. -/
def State.cluster (s : State) (c : Nat) : Cluster := s.clusters.get c (Cluster.reset c)

/-- Changes a cluster. -/
def State.updCluster (s : State) (c : Nat) (f : Cluster → Cluster) : State :=
  { s with clusters := s.clusters.set c (Cluster.reset c) (f (s.cluster c)) }

/-- The cluster key of a tile: its die and site, or the steward cluster. -/
def clusterOf (t : Nat) : Nat := if isSteward t then 272 else t / 17

/-- GANGSIZE of a gang (R305, R393). -/
def Gang.size (g : Gang) : Nat := g.ranks * g.place.length

/-- The tile key of a gang tile index, when it lies on this package. -/
def Gang.tileAt (g : Gang) (i : Nat) : Option Nat :=
  if i / g.place.length = g.rank then g.place[i % g.place.length]? else none

/-- Adds a report. -/
def State.report (s : State) (r : Report) : State := { s with reports := s.reports ++ [r] }

/-! ## Fields of STATUS (R34) -/

/-- STATUS.PRIV. -/
def Strand.priv (x : Strand) : Nat := bitsOf x.status 0 2
/-- STATUS.PP. -/
def Strand.pp (x : Strand) : Bool := x.status.getLsbD 2
/-- STATUS.PFMT. -/
def Strand.pfmt (x : Strand) : Nat := bitsOf x.status 3 8
/-- STATUS.RM. -/
def Strand.rm (x : Strand) : Nat := bitsOf x.status 11 3
/-- STATUS.UIE. -/
def Strand.uie (x : Strand) : Bool := x.status.getLsbD 19
/-- STATUS.UIA. -/
def Strand.uia (x : Strand) : Bool := x.status.getLsbD 20
/-- STATUS.TD. -/
def Strand.td (x : Strand) : Bool := x.status.getLsbD 21
/-- STATUS.WT. -/
def Strand.wt (x : Strand) : Bool := x.status.getLsbD 33
/-- Changes a field of STATUS. -/
def Strand.setSt (x : Strand) (lo len v : Nat) : Strand := { x with status := withBits x.status lo len v }
/-- STATUS with no prefix pending. -/
def Strand.clearPrefix (x : Strand) : Strand := x.setSt 2 9 0
/-- Sets or clears STATUS.WT. -/
def Strand.setWt (x : Strand) (b : Bool) : Strand := { x with status := withBit x.status 33 b }

/-! ## Registers and their tags (R26, R27, R30) -/

/-- s[r]; s0 reads as zero (R27). -/
def Strand.rd (x : Strand) (r : SReg) : Word := if r = 0 then 0 else x.s.get r.toNat 0
/-- The tag of s[r]; that of s0 is clear (R27). -/
def Strand.tag (x : Strand) (r : SReg) : Bool := if r = 0 then false else x.stag.getLsbD r.toNat
/-- Writes s[r] and its tag; a write to s0 is discarded (R27). -/
def Strand.wr (x : Strand) (r : SReg) (v : Word) (tag : Bool) : Strand :=
  if r = 0 then x else { x with s := x.s.set r.toNat 0 v, stag := withBit x.stag r.toNat tag }
/-- pN; p0 reads as true (R27). -/
def Strand.prd (x : Strand) (n : PReg) : Bool := if n = 0 then true else x.p.getLsbD n.toNat
/-- The tag of pN. -/
def Strand.pt (x : Strand) (n : PReg) : Bool := if n = 0 then false else x.ptag.getLsbD n.toNat
/-- Writes pN and its tag; a write to p0 is discarded (R27). -/
def Strand.pwr (x : Strand) (n : PReg) (v tag : Bool) : Strand :=
  if n = 0 then x else { x with p := withBit x.p n.toNat v, ptag := withBit x.ptag n.toNat tag }
/-- vN. -/
def Strand.vrd (x : Strand) (n : VReg) : Vec := x.v.get n.toNat 0
/-- The lane poison of vN. -/
def Strand.vt (x : Strand) (n : VReg) : BitVec 64 := x.vtag.get n.toNat 0
/-- Writes vN and its lane poison. -/
def Strand.vwr (x : Strand) (n : VReg) (v : Vec) (t : BitVec 64) : Strand :=
  { x with v := x.v.set n.toNat 0 v, vtag := x.vtag.set n.toNat 0 t }
/-- qN. -/
def Strand.qrd (x : Strand) (n : PReg) : BitVec 64 := x.q.get n.toNat 0
/-- The poison of qN's bits. -/
def Strand.qt (x : Strand) (n : PReg) : BitVec 64 := x.qtag.get n.toNat 0
/-- Writes qN and its poison. -/
def Strand.qwr (x : Strand) (n : PReg) (v t : BitVec 64) : Strand :=
  { x with q := x.q.set n.toNat 0 v, qtag := x.qtag.set n.toNat 0 t }
/-- kN. -/
def Strand.krd (x : Strand) (n : BitVec 3) : BitVec 64 := x.k.get n.toNat 0
/-- Writes kN. -/
def Strand.kwr (x : Strand) (n : BitVec 3) (v : BitVec 64) : Strand := { x with k := x.k.set n.toNat 0 v }

/-! ## Code and the program counter (R47-R51, R373) -/

/-- The physical code byte at a physical address. -/
def Tile.codeByte (T : Tile) (a : Nat) : Byte := SMap.get T.code a 0

/-- Whether the resident context owns the code line of address x (R373). -/
def Tile.codeOwned (T : Tile) (x : Nat) : Bool := decide (x < 64 * T.clines)

/-- The physical address of code-region address x in the resident context (R373). -/
def Tile.codePhys (T : Tile) (x : Nat) : Nat := 64 * T.cbase + x

/-- Halfword i of the line that holds pc. -/
def Tile.codeHalf (T : Tile) (pc : Pc) (i : Nat) : Half :=
  let a := T.codePhys (pc.toNat / 64 * 64 + 2 * i)
  T.codeByte (a + 1) ++ T.codeByte a

/-- The slot of a PC (R50). -/
def pcSlot (pc : Pc) : Nat := pc.toNat % 64 / 2

/-- The line address of a PC (R50). -/
def pcLine (pc : Pc) : Nat := pc.toNat / 64 * 64

/-- A line that fetch cannot enter: malformed (R48), or outside the resident context's code (R373). -/
def Tile.badLine (T : Tile) (pc : Pc) : Bool := !T.codeOwned (pcLine pc) || malformed (T.codeHalf pc)

/-- The PC `step` instructions' slots after pc (R50). -/
def Tile.pcAfter (T : Tile) (pc : Pc) (step : Nat) : Pc :=
  if pcSlot pc + step ≤ lineH (T.codeHalf pc 0) then BitVec.ofNat 15 (pc.toNat + 2 * step)
  else BitVec.ofNat 15 (pcLine pc + 66)

/-- The slots of the instruction at pc: 2 for LIT with its literal head, else 1 (R50). -/
def Tile.slotsAt (T : Tile) (pc : Pc) : Nat := if T.codeHalf pc (pcSlot pc) = 0x1100 then 2 else 1

/-- Whether R51 rejects a target, given as a number so that a register target may exceed 15 bits. -/
def Tile.badTarget (T : Tile) (target : Nat) : Bool :=
  let pc : Pc := BitVec.ofNat 15 target
  decide (2 ^ 15 ≤ target) || pc.getLsbD 0 || decide (pcSlot pc = 0) || !T.codeOwned (pcLine pc) ||
    (!malformed (T.codeHalf pc) &&
      (decide (lineH (T.codeHalf pc 0) < pcSlot pc) || isLiteralHead (T.codeHalf pc (pcSlot pc))))

/-- FWDCFG.MODE = 2 in force: the tile follows another (R221). -/
def Tile.follower (T : Tile) : Bool := decide (bitsOf T.fwd 0 2 = 2)

/-- FWDCFG.MODE = 1: the tile leads (R221). -/
def Tile.leader (T : Tile) : Bool := decide (bitsOf T.fwd 0 2 = 1)

/-- The strand whose turn it is runs what its leader forwards: a list routine of a follower (R222). Its message routines
(ROUTINE 0x8000 and above) are its own. -/
def State.forwarded (s : State) : Bool :=
  s.myTile.follower && decide (s.curStrand < 4) && !s.me.routine.getLsbD 15

/-- The next PC by R50 of the strand whose turn it is; a follower takes its leader's, and the message context
counts slots (R222, R227). -/
def State.seqPc (s : State) : Pc :=
  let x := s.me
  if s.curStrand = 4 then x.pc + 1
  else if s.forwarded then (match x.fwdq with | f :: _ => f.seq | [] => x.pc)
  else s.myTile.pcAfter x.pc (s.myTile.slotsAt x.pc)

/-- The next PC and repeat state once the instruction at PC retires (R81). -/
def Rep.next (r : Rep) (seq : Pc) : Pc × Rep :=
  if r.active then
    if r.idx + 1 < r.len then (seq, { r with idx := r.idx + 1 })
    else if 1 < r.left then (r.first, { r with left := r.left - 1, idx := 0 })
    else (seq, {})
  else (seq, r)

/-- The next instruction of the strand whose turn it is, and its repeat state then. A trap handler's own
instructions do not advance the repeat that it interrupted (R83). DEDUCED, log 16. -/
def State.nextOf (s : State) : Pc × Rep :=
  if s.me.td then (s.seqPc, s.me.rep) else s.me.rep.next s.seqPc

/-! ## Votes (R15, R308) -/

/-- Precedence of a vote: HALT over ABORT over PREEMPT over COMMIT (R15). -/
def voteRank (v : BitVec 2) : Nat := if v = 3 then 3 else if v = 1 then 2 else if v = 2 then 1 else 0

/-- Raises a tile's vote when the new one has precedence and the tile has not sent its arrival (R308). -/
def Vote.raise (x : Vote) (v : BitVec 2) (cause : BitVec 8) : Vote :=
  if x.sent = false ∧ voteRank x.vote < voteRank v then { x with vote := v, cause := cause } else x

/-- Raises the vote of a gang tile; a steward tile takes part in no decision (R401). -/
def State.raiseVote (s : State) (t : Nat) (v : BitVec 2) (cause : BitVec 8) : State :=
  if isSteward t then s else s.updTile t fun T => { T with vote := T.vote.raise v cause }

/-- What R216 does after the first unresumed trap or tile-level failure: nothing more is dispatched, parked
strands stop, engine work that has not begun is cancelled, rings count as drained. The message context goes on with its
mail (R46). DEDUCED, log 97. -/
def Tile.fail (T : Tile) : Tile :=
  { T with
    seq := { T.seq with failed := true, sends := [] }
    strands := T.strands.map fun (k, x) =>
      (k, match x.run with | .parked _ => (if k = 4 then x else { x with run := .stopped }) | _ => x)
    mmas := T.mmas.filter (·.retired) ++ (T.mmas.filter (!·.retired)).take 1
    xq := T.xq.filter (·.begun)
    pfls := []
    colls := [] }

/-- Drops the memory requests of a failed tile that belong to work that has not begun (R216). DEDUCED, log 33. -/
def State.cancelWork (s : State) (t : Nat) : State :=
  let keep (r : Req) : Bool :=
    if r.tile = t then
      match r.what with
      | .xfer g => (s.tile t).xq.any (·.tag = g)
      | .fill b => decide (((s.tile t).ctl.bales.get b {}).state = 1)
      | .drain _ => true
    else true
  { s with reqs := s.reqs.filter keep }

/-- A tile of the steward cluster as the boot ROM starts it: the Quimor image in its code region, strand 0
READY at the image's entry (R356, R401). -/
def bootTile (p : Pkg) : Tile :=
  { code := p.image.foldl (fun m c => SMap.set m c.1 0 c.2) []
    strands := [(0, { Strand.reset 3 with pc := p.entry, run := .ready })] }

/-- The steward tile reset of R401: its own state returns to package reset, its engine work is cancelled, and
the boot ROM starts Quimor on it again; the host link reports a firmware fault. -/
def State.resetSteward (s : State) (t : Nat) : State :=
  let s := { s with
    reqs := s.reqs.filter (·.tile ≠ t), ists := s.ists.filter (·.src ≠ t), amos := s.amos.filter (·.src ≠ t)
    held := s.held.filter (·.tile ≠ t) }
  (s.setTile t (bootTile s.pkg)).report (.firmwareFault t)

/-- Ends a gang tile's step by ABORT with a cause (R16, R216), or by HALT. A failure that would end a gang tile's step resets a
steward tile, which takes part in no decision (R401). DESIGN CHOICE, log 93. -/
def State.failTile (s : State) (t : Nat) (v : BitVec 2) (cause : BitVec 8) : State :=
  if isSteward t then s.resetSteward t
  else ((s.raiseVote t v cause).updTile t Tile.fail).cancelWork t

/-! ## Traps (R40-R43) -/

/-- Causes that are never delivered to a handler (R41). -/
def vectored (cause : Nat) : Bool :=
  !(cause = 0x0C || cause = 0x0D || cause = 0x0E || cause = 0x11 || cause = 0x12 || cause = 0x13 || cause = 0x15 ||
    cause = 0x18 || cause = 0x19 || cause = 0x1A)

/-- `stop_strand` of R42: the strand goes to STOPPED, and the tile votes ABORT or the steward tile is reset. The
message context becomes idle and goes on to the next message (R46). -/
def State.stopStrand (s : State) (t k : Nat) (cause : Nat) : State :=
  if isSteward t then s.resetSteward t
  else
    (s.updStrand t k fun x => { x with run := if k = 4 then .idle else .stopped, slots := [] }).failTile t 1
      (BitVec.ofNat 8 cause)

/-- Records a trap in TRAPCAUSE, TRAPPC and TRAPVAL (R42). -/
def Strand.record (x : Strand) (cause : Nat) (pc : Pc) (val : Word) : Strand :=
  { x with trapcause := BitVec.ofNat 8 cause, trappc := pc, trapval := val }

/-- Entry to the handler at TVEC (R42): PRIV, PP and PFMT saved, PP and PFMT cleared, PRIV at least 1, TD set. -/
def Strand.enterHandler (x : Strand) : Strand :=
  let st := withBits (withBits (withBits x.status 22 2 x.priv) 24 1 (if x.pp then 1 else 0)) 25 8 x.pfmt
  let st := withBits st 2 9 0
  let st := withBits st 0 2 (if x.priv = 0 then 1 else x.priv)
  { x with status := withBit st 21 true, pc := x.tvec, run := .ready, hold := .none, took := false, tested := none }

/-- Taking a trap (R42) on strand k of tile t. A follower's trap and one in the message context are handled
as unvectored (R46, R223). -/
def State.takeTrap (s : State) (t k : Nat) (cause : Nat) (pc : Pc) (val : Word) : State :=
  let x := (s.strand t k).record cause pc val
  if !vectored cause || x.td || decide (x.tvec = 0) || decide (k = 4) || (s.tile t).follower then
    (s.setStrand t k x).stopStrand t k cause
  else if (s.tile t).badTarget x.tvec.toNat then
    (s.setStrand t k (x.record 0x03 pc (x.tvec.setWidth 64))).stopStrand t k 0x03
  else s.setStrand t k x.enterHandler

/-- STATUS as ERET leaves it (R43). -/
def Strand.leaveHandler (x : Strand) : Strand :=
  let st := withBits (withBits (withBits x.status 0 2 (bitsOf x.status 22 2)) 2 1 (bitsOf x.status 24 1)) 3 8
    (bitsOf x.status 25 8)
  { x with status := withBit (withBits st 22 11 0) 21 false }

/-- The repeat body's index of a PC: how many body instructions from rep_first reach it, if any does (R83). -/
def Tile.bodyIndex (T : Tile) (first target : Pc) : Nat → Nat → Option Nat
  | 0, _ => none
  | fuel + 1, i =>
    if first = target then some i else Tile.bodyIndex T (T.pcAfter first (T.slotsAt first)) target fuel (i + 1)

/-- The repeat state after a return to a PC: it goes on from a PC in the body, and ends outside (R83). -/
def Tile.repAt (T : Tile) (r : Rep) (pc : Pc) : Rep :=
  if r.active then
    match T.bodyIndex r.first pc r.len 0 with
    | some i => { r with idx := i }
    | none => {}
  else r

/-! ## Immediate stores on their way (R265, R266) -/

/-- The immediate stores of a strand to a word of a tile that have not been performed. -/
def State.istPending (s : State) (src k d word : Nat) : List Ist :=
  s.ists.filter fun i =>
    !i.landed && decide (i.src = src) && decide (i.strand = k) && decide (i.dest = some d) && decide (i.addr / 8 = word)

/-- The immediate stores of a strand to the words of a range of its own tile have been performed, as an engine command that reads
the range needs them (R270). -/
def State.sourceReady (s : State) (t k a len : Nat) : Bool :=
  !s.ists.any fun i =>
    !i.landed && decide (i.src = t) && decide (i.strand = k) && decide (i.dest = some t) && decide (i.addr / 8 * 8 < a + len) &&
      decide (a < i.addr / 8 * 8 + 8)

/-- The immediate stores of a strand to the words of a range of its own tile that were issued before an order number have been
performed (R270). -/
def State.storesBefore (s : State) (t k a len ord : Nat) : Bool :=
  State.sourceReady { s with ists := s.ists.filter fun i => decide (i.ord < ord) } t k a len

/-- The strand whose turn it is has an immediate store on its way to the word at an address of a tile: a later access of it to that word waits, since
it may neither pass the store nor miss its value. DEDUCED, log 108. -/
def State.storePending (s : State) (d a : Nat) : Bool := !(s.istPending s.curTile s.curStrand d (a / 8)).isEmpty

/-- The writes in views that are left once some of them are seen through every view (R275, R276): an earlier write to the same byte goes with
a later one that every view sees. -/
def leftViews (gone : ViewWrite → Bool) : List ViewWrite → List ViewWrite
  | [] => []
  | w :: rest =>
    if gone w || rest.any (fun x => decide (x.addr = w.addr) && gone x) then leftViews gone rest else w :: leftViews gone rest

/-! ## Semaphores (R57) -/

/-- m[i] of a tile. -/
def Tile.sem (T : Tile) (i : Nat) : BitVec 16 := T.ctl.sems.get i 0

/-- Writes m[i]. -/
def Tile.setSem (T : Tile) (i : Nat) (v : BitVec 16) : Tile :=
  { T with ctl := { T.ctl with sems := T.ctl.sems.set i 0 v } }

/-- Whether an increment would take a semaphore above 65,535 (R57). -/
def Tile.semOver (T : Tile) (i inc : Nat) : Bool := decide (65535 < (T.sem i).toNat + inc)

/-- Adds to a semaphore. -/
def Tile.addSem (T : Tile) (i inc : Nat) : Tile := T.setSem i (BitVec.ofNat 16 ((T.sem i).toNat + inc))

/-- An engine completion's signal: an overflow is not applied, and the tile votes ABORT with SEM_OVERFLOW (R57). -/
def State.engineSignal (s : State) (t : Nat) (sy : Sync) : State :=
  if sy.sinc = 0 then s
  else if (s.tile t).semOver sy.ssem.toNat sy.sinc.toNat then s.failTile t 1 0x14
  else s.updTile t fun T => T.addSem sy.ssem.toNat sy.sinc.toNat

/-! ## Issue (R53, R57-R60) -/

/-- The formats an instruction takes (R59): which pairs it accepts, and its pair without a prefix. -/
structure Formats where
  ok : Nat → Nat → Bool
  dfa : Nat
  dfb : Nat

/-- What the checks at issue need to know of an instruction. -/
structure Info where
  /-- Its head, for TRAPVAL (R41). -/
  head : Nat
  guard : Guard := Guard.always
  sync : Sync := Sync.none
  /-- Its completion falls in its retirement cycle, so its signal is delivered then (R57). -/
  sigNow : Bool := true
  formats : Option Formats := none
  priv : Nat := 0
  /-- It is in the restricted set of the message context (R227), and the scalar registers it names. -/
  msgOk : Bool := false
  regs : List SReg := []
  /-- It may stand in a REP body (R82). -/
  bodyOk : Bool := true

/-- What an instruction's own checks and effect come to. -/
inductive Eff where
  /-- It completes; the strand goes on with the next instruction. -/
  | done (s : State)
  /-- It completes; the strand goes on at a PC with a repeat state. -/
  | goto (s : State) (pc : Pc) (r : Rep)
  /-- It traps; TRAPPC is this instruction. -/
  | trap (cause : Nat) (val : Word)
  /-- It traps as `trap` does, for a cause that rests on more than its head, its tail and register values: the trap comes
  only once the wait can be met (R57). -/
  | trapLate (cause : Nat) (val : Word)
  /-- It traps; TRAPPC is the next instruction. -/
  | trapNext (cause : Nat) (val : Word)
  /-- It traps with a TRAPPC of its own (R81: a malformed line that a REP passes over). -/
  | trapAt (pc : Pc) (cause : Nat) (val : Word)
  /-- It cannot issue now: the strand parks and tries again. -/
  | park (why : Reason)
  /-- It has made its checks and cannot issue now: the strand parks, keeps what the checks read, and does not repeat them (R197, R201,
  R202). -/
  | parkTested (why : Reason) (w : Word)
  /-- It cannot issue now: the strand stays READY and tries again; the state holds what the attempt has started
  (the wake of a gated segment, R140). -/
  | retry (s : State)
  /-- It has issued and parks the strand until an event completes it. -/
  | parked (s : State) (why : Reason)
  /-- It has issued and holds the strand until an event retires it. -/
  | hold (s : State) (h : Hold)
  /-- It has issued, and the state is already final (a routine has ended, a device has been reset). -/
  | final (s : State)
  | fault (f : Fault)

/-- The guard's predicate is poisoned (R53). -/
def Strand.guardPoison (x : Strand) (g : Guard) : Bool := !g.mask && x.pt g.idx

/-- The instruction is guarded off: a scalar guard that is false (R53). -/
def Strand.guardedOff (x : Strand) (g : Guard) : Bool := !g.mask && (x.prd g.idx == g.inv)

/-- Retirement at a PC with a repeat state: PC, repeat state, the prefix and the wait's mark move on, a
follower's record is consumed, and the message context ends its message after its last slot (R227). -/
def State.retireAt (s : State) (pc : Pc) (r : Rep) (keepPrefix : Bool) : State :=
  s.updMe fun x =>
    let x := if keepPrefix then x else x.clearPrefix
    let x := { x with pc := pc, rep := r, run := .ready, hold := .none, took := false, tested := none, fwdq := if s.forwarded then x.fwdq.drop 1 else x.fwdq, issued := true }
    if s.curStrand = 4 ∧ x.slots.length ≤ pc.toNat then { x with run := .idle, slots := [], pc := 0 } else x

/-- A strand that has issued lets the strands waiting on it after a YIELD come nearer their turn (R80). -/
def State.noteIssue (s : State) : State :=
  (List.range 5).foldl (fun (s' : State) k =>
    if (s'.strand s.curTile k).yieldTo.getLsbD s.curStrand then
      s'.updStrand s.curTile k fun x => { x with yieldTo := withBit x.yieldTo s.curStrand false }
    else s') s

/-- Adds the retiring instruction's signal to the issuing tile's semaphore (R57, R58). -/
def State.signalMe (s : State) (sy : Sync) : State :=
  if sy.sinc = 0 then s else s.updMyTile fun T => T.addSem sy.ssem.toNat sy.sinc.toNat

/-- Takes the wait: subtracts WTHR unless an earlier cycle has (R57). -/
def State.takeWait (s : State) (sy : Sync) : State :=
  if sy.wen ∧ !s.me.took then
    s.updMyTile fun T => T.setSem sy.wsem.toNat (T.sem sy.wsem.toNat - BitVec.ofNat 16 sy.wthr.toNat)
  else s

/-- The wait can be met: m[WSEM] ≥ WTHR, or the count has been subtracted before (R57). -/
def State.waitMet (s : State) (sy : Sync) : Bool :=
  !sy.wen || s.me.took || decide (sy.wthr.toNat ≤ (s.myTile.sem sy.wsem.toNat).toNat)

/-- An instruction that takes SEM_OVERFLOW after its wait subtracted in an earlier cycle gives the count back,
saturating at 65,535 (R57). -/
def State.refundWait (s : State) (sy : Sync) : State :=
  if sy.wen ∧ s.me.took then
    s.updMyTile fun T =>
      T.setSem sy.wsem.toNat (BitVec.ofNat 16 (Nat.min 65535 ((T.sem sy.wsem.toNat).toNat + sy.wthr.toNat)))
  else s

/-- The trap taken by the strand whose turn it is. -/
def State.trapMe (s : State) (cause : Nat) (pc : Pc) (val : Word) : State :=
  s.takeTrap s.curTile s.curStrand cause pc val

/-- The strand parks (R38). -/
def State.parkMe (s : State) (why : Reason) : State := s.updMe fun x => { x with run := .parked why }

/-- A guarded-off instruction (R58): it waits, signals locally when it retires, and consumes a format prefix. -/
def State.guardOff (s : State) (i : Info) : Host.Outcome State Fault Refusal :=
  if !s.waitMet i.sync then .next (s.parkMe .sem)
  else if decide (i.sync.sinc ≠ 0) && s.myTile.semOver i.sync.ssem.toNat i.sync.sinc.toNat then
    .next ((s.refundWait i.sync).trapMe 0x14 s.me.pc (BitVec.ofNat 64 i.sync.ssem.toNat))
  else
    .next (((s.takeWait i.sync).signalMe i.sync).retireAt s.nextOf.1 s.nextOf.2 false)

/-- Ends an issue by its effect: a trap, a wait not met, SEM_OVERFLOW of a signal delivered at retirement, or
the effect with its wait, signal and retirement (R57, R60). `body` is the own checks and effect, made on a
state in which the wait has been subtracted. DEDUCED, log 8. -/
def State.settle (s : State) (i : Info) (body : State → Eff) (keepPrefix : Bool) : Host.Outcome State Fault Refusal :=
  match body s with
  | .trap c v => .next (s.trapMe c s.me.pc v)
  | .trapLate c v => if s.waitMet i.sync then .next ((s.refundWait i.sync).trapMe c s.me.pc v) else .next (s.parkMe .sem)
  | .trapNext c v =>
    .next ((s.updMe fun x => { x with rep := s.nextOf.2 }).trapMe c s.nextOf.1 v)
  | .trapAt p c v => .next (s.trapMe c p v)
  | .park w => .next (s.parkMe w)
  | .parkTested w v => if s.waitMet i.sync then .next ((s.parkMe w).updMe fun x => { x with tested := some v }) else .next (s.parkMe .sem)
  | .retry s' => if s.waitMet i.sync then .next (s'.updMe fun x => { x with run := .ready }) else .next (s.parkMe .sem)
  | .fault f => .fault f
  | _ =>
    if !s.waitMet i.sync then .next (s.parkMe .sem)
    else if i.sigNow && decide (i.sync.sinc ≠ 0) && s.myTile.semOver i.sync.ssem.toNat i.sync.sinc.toNat then
      .next ((s.refundWait i.sync).trapMe 0x14 s.me.pc (BitVec.ofNat 64 i.sync.ssem.toNat))
    else
      let sig (s' : State) : State := if i.sigNow then s'.signalMe i.sync else s'
      match body (s.takeWait i.sync) with
      | .done s' => .next ((sig s').retireAt s.nextOf.1 s.nextOf.2 keepPrefix)
      | .goto s' pc r => .next ((sig s').retireAt pc r keepPrefix)
      | .parked s' w => .next (s'.updMe fun x => { x with run := .parked w, took := i.sync.wen, issued := true })
      | .hold s' h => .next (s'.updMe fun x => { x with run := .ready, hold := h, took := i.sync.wen, issued := true })
      | .final s' => .next (s'.updMe fun x => { x with issued := true })
      | .fault f => .fault f
      | .trap c v => .next (s.trapMe c s.me.pc v)
      | .trapLate c v => .next (s.trapMe c s.me.pc v)
      | .trapNext c v => .next (s.trapMe c s.nextOf.1 v)
      | .trapAt p c v => .next (s.trapMe c p v)
      | .park w => .next (s.parkMe w)
      | .parkTested w _ => .next (s.parkMe w)
      | .retry s' => .next s'

/-- The format pair in force (R59): the prefix's, or the default. -/
def Strand.formatPair (x : Strand) (f : Formats) : Nat × Nat :=
  if x.pp then (x.pfmt / 16, x.pfmt % 16) else (f.dfa, f.dfb)

/-- The prefix in force is one that the instruction does not take (R59). A reserved code 13 to 15 that a handler's
SPFMT write and ERET put in PFMT is such a prefix, whatever R100 says of a reserved code in a field. DEDUCED,
log 102. -/
def Strand.prefixMisuse (x : Strand) (i : Info) : Bool :=
  x.pp && (match i.formats with | none => true | some f => !f.ok (x.pfmt / 16) (x.pfmt % 16))

/-- Issue of an instruction by the strand whose turn it is, in the order of R60: a body instruction that R82
bars, the prefix, a poisoned guard, the guard, the message context's restrictions, privilege, and then the
instruction's own checks and effect with its wait. DEDUCED, log 28. R60 does not list the ILLEGAL_HEAD of a barred instruction
(R82): it is taken with step 2, the head's own ILLEGAL_HEAD, so before PREFIX_MISUSE. DEDUCED, log 101. -/
def State.issue (s : State) (i : Info) (body : Nat → Nat → State → Eff) : Host.Outcome State Fault Refusal :=
  let x := s.me
  let headVal : Word := BitVec.ofNat 64 i.head
  if x.rep.active && !x.td && !i.bodyOk then .next (s.trapMe 0x01 x.pc headVal)
  else if x.prefixMisuse i then .next (s.trapMe 0x1C x.pc headVal)
  else if x.guardPoison i.guard then .next (s.trapMe 0x08 x.pc (i.guard.idx.setWidth 64))
  else if x.guardedOff i.guard then s.guardOff i
  else if decide (s.curStrand = 4) && (!i.msgOk || i.regs.any fun r => decide (16 ≤ r.toNat)) then
    .next (s.trapMe 0x15 x.pc headVal)
  else if x.priv < i.priv then .next (s.trapMe 0x04 x.pc headVal)
  else
    let f := match i.formats with | some f => x.formatPair f | none => (0, 0)
    s.settle i (body f.1 f.2) false

/-- Retires the instruction that an event has completed on strand k of tile t, with its signal (R57, R190). DEDUCED, log 32. -/
def State.retireHeld (s : State) (t k : Nat) (sy : Sync) : State :=
  let s' := { s with curTile := t, curStrand := k }
  let n := s'.nextOf
  let s' := (s'.signalMe sy).retireAt n.1 n.2 false
  { s' with curTile := s.curTile, curStrand := s.curStrand }

/-- A trap on the instruction that an event was to complete. -/
def State.trapHeld (s : State) (t k : Nat) (cause : Nat) (val : Word) : State :=
  s.takeTrap t k cause (s.strand t k).pc val

end Sys2Proof.Machine
end

