-- ==== Sys2Proof/Machine/Flags.lean ====
section
/-! DEFINITION. The sticky floating-point flags of STATUS (R34, R103, R106, R107). -/

namespace Sys2Proof.Machine

/-- The five sticky flags. -/
structure Flags where
  nx : Bool := false
  uf : Bool := false
  of : Bool := false
  dz : Bool := false
  nv : Bool := false
deriving DecidableEq, Repr

/-- No flag. -/
def Flags.none : Flags := {}

/-- The flags of both. -/
def Flags.or (a b : Flags) : Flags := ⟨a.nx || b.nx, a.uf || b.uf, a.of || b.of, a.dz || b.dz, a.nv || b.nv⟩

/-- The flags in the order of STATUS bits 14 to 18 (R34): NX, UF, OF, DZ, NV. -/
def Flags.bits (f : Flags) : Nat :=
  (if f.nx then 1 else 0) + (if f.uf then 2 else 0) + (if f.of then 4 else 0) + (if f.dz then 8 else 0) + (if f.nv then 16 else 0)

/-- The atomic status of AMOF (R252): NV, DZ, OF, UF, NX from bit 4 down. -/
def Flags.atomic (f : Flags) : Nat := f.bits

/-- ORs flags into STATUS (R34, R106). -/
def Strand.raiseFlags (x : Strand) (f : Flags) : Strand :=
  { x with status := x.status ||| BitVec.ofNat 64 (f.bits * 2 ^ 14) }

end Sys2Proof.Machine
end

