-- ==== Sys2Proof/Machine/Numeric.lean ====
section
/-! DEFINITION. Number formats, rounding and exact arithmetic (R100-R120, R166-R170): a value is an exact
binary number, an infinity or a NaN; one rounding brings it into a format. -/

namespace Sys2Proof.Machine

/-! ## Values and formats (R100-R104, R112) -/

/-- A floating-point layout (R102): exponent and fraction widths, and whether all ones encode infinities and NaNs. -/
structure FloatFmt where
  exp : Nat
  frac : Nat
  special : Bool

/-- FP32. -/
def fp32 : FloatFmt := ⟨8, 23, true⟩
/-- FP16. -/
def fp16 : FloatFmt := ⟨5, 10, true⟩
/-- BF16. -/
def bf16 : FloatFmt := ⟨8, 7, true⟩
/-- E8M10. -/
def e8m10 : FloatFmt := ⟨8, 10, true⟩
/-- FP4 E2M1. -/
def fp4 : FloatFmt := ⟨2, 1, false⟩

/-- The exponent bias (R102). -/
def FloatFmt.bias (f : FloatFmt) : Nat := 2 ^ (f.exp - 1) - 1
/-- The exponent of the unit of a subnormal. -/
def FloatFmt.unit (f : FloatFmt) : Int := 1 - (f.bias : Int) - (f.frac : Int)
/-- The exponent of the largest finite value. -/
def FloatFmt.emax (f : FloatFmt) : Int := (2 ^ f.exp - (if f.special then 2 else 1) : Nat) - (f.bias : Int)
/-- The sign bit. -/
def FloatFmt.sign (f : FloatFmt) (neg : Bool) : Nat := if neg then 2 ^ (f.exp + f.frac) else 0
/-- An infinity. -/
def FloatFmt.inf (f : FloatFmt) (neg : Bool) : Nat := f.sign neg + (2 ^ f.exp - 1) * 2 ^ f.frac
/-- The largest finite magnitude with a sign. -/
def FloatFmt.max (f : FloatFmt) (neg : Bool) : Nat :=
  f.sign neg + (if f.special then (2 ^ f.exp - 1) * 2 ^ f.frac - 1 else 2 ^ (f.exp + f.frac) - 1)
/-- The canonical NaN (R102). -/
def FloatFmt.nan (f : FloatFmt) : Nat := (2 ^ f.exp - 1) * 2 ^ f.frac + 2 ^ (f.frac - 1)

/-- A NaN, an infinity, or a finite value ±(m + ε) × 2^e, where 0 < ε < 1 when `sticky` and ε = 0 otherwise. -/
inductive XVal where
  | nan (signalling : Bool)
  | inf (neg : Bool)
  | fin (neg : Bool) (m : Nat) (e : Int) (sticky : Bool)
deriving DecidableEq, Repr

/-- An exact value. -/
def XVal.exact (neg : Bool) (m : Nat) (e : Int) : XVal := .fin neg m e false
/-- Plus zero. -/
def XVal.zero : XVal := .exact false 0 0
/-- An integer. -/
def XVal.int (v : Int) : XVal := .exact (decide (v < 0)) v.natAbs 0
/-- Whether the value is a signalling NaN. -/
def XVal.snan : XVal → Bool
  | .nan s => s | _ => false
/-- Whether the value is a NaN. -/
def XVal.isNan : XVal → Bool
  | .nan _ => true | _ => false
/-- The value with its sign inverted. -/
def XVal.neg : XVal → XVal
  | .nan s => .nan s | .inf n => .inf (!n) | .fin n m e st => .fin (!n) m e st

/-- The value of a bit pattern in a floating-point format (R102). -/
def FloatFmt.value (f : FloatFmt) (b : Nat) : XVal :=
  let neg := decide (b / 2 ^ (f.exp + f.frac) % 2 = 1)
  let e := b / 2 ^ f.frac % 2 ^ f.exp
  let fr := b % 2 ^ f.frac
  if f.special && decide (e = 2 ^ f.exp - 1) then
    (if fr = 0 then .inf neg else .nan (decide (fr / 2 ^ (f.frac - 1) = 0)))
  else if e = 0 then .exact neg fr f.unit
  else .exact neg (fr + 2 ^ f.frac) (f.unit + (e : Int) - 1)

/-- A tile's live decode tables: the 19-bit entry of each code. -/
structure Tabs where
  a : Nat → Nat
  b : Nat → Nat

/-- Table A, or B. -/
def Tabs.of (t : Tabs) (b : Bool) : Nat → Nat := if b then t.b else t.a

/-- The element width of a format code (R100); E8M10 takes a 32-bit word. -/
def fmtWidth (code : Nat) : Nat :=
  match code with
  | 0 => 32 | 1 => 16 | 2 => 16 | 3 => 32 | 6 => 4 | 9 => 4 | 10 => 16 | 11 => 32 | _ => 8

/-- The floating-point layout of a format code, if it has one. -/
def floatFmt (code : Nat) : Option FloatFmt :=
  match code with
  | 0 => some fp32 | 1 => some fp16 | 2 => some bf16 | 3 => some e8m10 | 6 => some fp4 | _ => none

/-- The range of an integer format (R104): the magnitude of its lowest value, and its highest. -/
def intRange (code : Nat) : Nat × Nat :=
  match code with
  | 7 => (128, 127) | 8 => (0, 255) | 9 => (8, 7) | 10 => (32768, 32767) | _ => (2147483648, 2147483647)

/-- The integer that an element of an integer format holds (R104). -/
def intValue (code b : Nat) : Int := if code = 8 then (b % 256 : Nat) else signedOf (fmtWidth code) b

/-- The exact value of an element of a format (R102, R104, R112). -/
def decodeElem (t : Tabs) (code b : Nat) : XVal :=
  match floatFmt code with
  | some f => f.value b
  | none => if code = 4 then e8m10.value (t.a (b % 256)) else if code = 5 then e8m10.value (t.b (b % 256)) else .int (intValue code b)

/-! ## Rounding (R105-R109) -/

/-- A discarded part f with 0 ≤ f < 1: (num + ε) / den. -/
structure Disc where
  num : Nat
  den : Nat
  sticky : Bool

/-- Nothing is discarded. -/
def Disc.none? (d : Disc) : Bool := decide (d.num = 0) && !d.sticky
/-- f > 1/2. -/
def Disc.over (d : Disc) : Bool := decide (d.den < 2 * d.num) || (decide (2 * d.num = d.den) && d.sticky)
/-- f = 1/2. -/
def Disc.tie (d : Disc) : Bool := decide (2 * d.num = d.den) && !d.sticky

/-- sr_draw (R109). -/
def srDraw (seed : Word) (d : Disc) : Bool :=
  let z : Word := (BitVec.ofNat 64 (d.num * 2 ^ 64 / d.den) ^^^ seed) + 0x6A5D39E1C4B28F17
  let z := (z ^^^ (z >>> 31)) * 0xD1B54A32D192ED03
  let z := (z ^^^ (z >>> 29)) * 0x8CB92BA72F3D8DD7
  let z := z ^^^ (z >>> 32)
  decide (bitsOf z 40 24 < d.num * 2 ^ 24 / d.den)

/-- The decision `up` of R106, for a nonzero discarded part. -/
def roundUp (rm : Nat) (seed : Word) (neg hiEven : Bool) (d : Disc) : Bool :=
  match rm with
  | 0 => d.over || (d.tie && hiEven)
  | 1 => false
  | 2 => !neg
  | 3 => neg
  | 4 => d.over || d.tie
  | _ => srDraw seed d

/-- Number of bits of a magnitude. -/
def bitLen (m : Nat) : Nat := if m = 0 then 0 else Nat.log2 m + 1

/-- (m + ε) × 2^e in units of 2^u: the whole units and the discarded part. -/
def splitAt (m : Nat) (e : Int) (sticky : Bool) (u : Int) : Nat × Disc :=
  if u ≤ e then (m * 2 ^ (e - u).toNat, ⟨0, 1, sticky⟩)
  else (m / 2 ^ (u - e).toNat, ⟨m % 2 ^ (u - e).toNat, 2 ^ (u - e).toNat, sticky⟩)

/-- overflow_result of a floating-point format (R107). -/
def FloatFmt.overflow (f : FloatFmt) (neg : Bool) (rm : Nat) : Nat × Flags :=
  let toInf := f.special && (match rm with | 1 => false | 2 => !neg | 3 => neg | _ => true)
  (if toInf then f.inf neg else f.max neg, { of := true, nx := true })

/-- Tininess after rounding (R106): the value rounded at the format's precision, exponent unbounded, lies below
the smallest normal. `top` is the exponent of the value's leading bit. -/
def FloatFmt.tiny (f : FloatFmt) (neg : Bool) (m : Nat) (e : Int) (sticky : Bool) (top : Int) (rm : Nat) (seed : Word) : Bool :=
  let r := splitAt m e sticky (top - f.frac)
  let up := !r.2.none? && roundUp rm seed neg (decide (r.1 % 2 = 1)) r.2
  let q := if up then r.1 + 1 else r.1
  decide ((if q = 2 ^ (f.frac + 1) then top + 1 else top) < 1 - (f.bias : Int))

/-- round_to for a floating-point format (R106, R107). -/
def FloatFmt.round (f : FloatFmt) (x : XVal) (rm : Nat) (seed : Word) : Nat × Flags :=
  match x with
  | .nan s => if f.special then (f.nan, { nv := s }) else (0, { nv := true })
  | .inf n => if f.special then (f.inf n, {}) else (f.max n, { of := true })
  | .fin neg m e sticky =>
    if m = 0 then (f.sign neg, {})
    else
      let top : Int := e + (bitLen m : Int) - 1
      if f.emax < top then f.overflow neg rm
      else
        let u := if f.unit ≤ top - f.frac then top - (f.frac : Int) else f.unit
        let r := splitAt m e sticky u
        let enc (q : Nat) : Nat := f.sign neg + (u - f.unit).toNat * 2 ^ f.frac + q
        if r.2.none? then (enc r.1, {})
        else
          let q := if roundUp rm seed neg (decide (r.1 % 2 = 1)) r.2 then r.1 + 1 else r.1
          if q = 2 ^ (f.frac + 1) ∧ top = f.emax then f.overflow neg rm
          else (enc q, { nx := true, uf := decide (q ≠ 0) && f.tiny neg m e sticky top rm seed })

/-- round_to for an integer format (R106, R107): the two's complement bits. DEDUCED, log 24. -/
def roundInt (code : Nat) (x : XVal) (rm : Nat) (seed : Word) : Nat × Flags :=
  let w := fmtWidth code
  let lim (neg : Bool) : Nat := if neg then wrapNat w (-((intRange code).1 : Int)) else (intRange code).2
  match x with
  | .nan _ => (0, { nv := true })
  | .inf n => (lim n, { nv := true })
  | .fin neg m e sticky =>
    let limit := (if neg then (intRange code).1 else (intRange code).2) + 1
    let put (q : Nat) : Nat := if neg then wrapNat w (-(q : Int)) else q
    if m ≠ 0 ∧ 64 < e + (bitLen m : Int) then (lim neg, { nv := true })
    else
      let r := splitAt m e sticky 0
      if limit ≤ r.1 then (lim neg, { nv := true })
      else if r.2.none? then (put r.1, {})
      else
        let q := if roundUp rm seed neg (decide (r.1 % 2 = 1)) r.2 then r.1 + 1 else r.1
        if q = limit then (lim neg, { nx := true, nv := true }) else (put q, { nx := true })

/-! ## Decode tables (R111-R115) -/

/-- The sign, the exponent-and-fraction field, and finiteness of a table entry. -/
def entryFinite (v : Nat) : Bool := decide (v / 2 ^ 10 % 256 ≠ 255)

/-- The count F of R114: finite entries before the first that is not finite, among the first 128. -/
def finiteCount (t : Nat → Nat) : Nat → Nat → Nat
  | 0, i => i
  | n + 1, i => if entryFinite (t i) then finiteCount t n (i + 1) else i

/-- F of a table's live array. -/
def tableF (t : Nat → Nat) : Nat := finiteCount t 128 0

/-- A table is encodable (R114). -/
def encodable (t : Nat → Nat) : Bool :=
  let n := tableF t
  decide (1 ≤ n) &&
    ((List.range n).all fun i => decide (t i < 2 ^ 18) && decide (t i ≤ t (if i + 1 < n then i + 1 else i))) &&
    ((List.range (128 - n)).all fun j => !entryFinite (t (n + j)) && (decide (t (n + j) % 2 ^ 10 ≠ 0) || decide (t (n + j) < 2 ^ 18))) &&
    ((List.range 128).all fun i => decide (t (128 + i) = (t i + 2 ^ 18) % 2 ^ 19))

/-- The magnitude of a finite entry, in units of 2^-136. -/
def entryMag (v : Nat) : Nat :=
  match e8m10.value (v % 2 ^ 18) with
  | .fin _ m e _ => m * 2 ^ (e + 136).toNat
  | _ => 0

/-- The highest code among 0 to hi whose value does not exceed a, by the search of R115. -/
def searchCode (val : Nat → Nat) (a : Nat) : Nat → Nat → Nat → Nat
  | 0, lo, _ => lo
  | fuel + 1, lo, hi =>
    if lo < hi then
      let mid := (lo + hi + 1) / 2
      if val mid ≤ a then searchCode val a fuel mid hi else searchCode val a fuel lo (mid - 1)
    else lo

/-- The lowest code below c that has the value of code c. -/
def lowestEqual (val : Nat → Nat) : Nat → Nat
  | 0 => 0
  | c + 1 => if val c = val (c + 1) then lowestEqual val c else c + 1

/-- The lowest code from i on, of n, whose entry satisfies p. -/
def findCode (t : Nat → Nat) (p : Nat → Bool) : Nat → Nat → Option Nat
  | 0, _ => none
  | n + 1, i => if p (t i) then some i else findCode t p n (i + 1)

/-- Encoding of a value into an encodable table (R115, R107). Where several entries hold the largest finite value, or
infinity, the lowest of their codes is given; and the test for overflow comes before that for an exact entry, so a
value equal to max overflows where the table's max and OVER are equal (R107 and R115 do not say). DESIGN CHOICE,
log 103. -/
def encodeTable (t : Nat → Nat) (x : XVal) (rm : Nat) (seed : Word) : Nat × Flags :=
  let n := tableF t
  let sgn (neg : Bool) : Nat := if neg then 128 else 0
  match x with
  | .nan s =>
    match findCode t (fun v => !entryFinite v && decide (v % 2 ^ 10 ≠ 0)) (128 - n) n with
    | some c => (c, { nv := s })
    | none => (0, { nv := true })
  | .inf neg =>
    match findCode t (fun v => !entryFinite v && decide (v % 2 ^ 10 = 0)) (128 - n) n with
    | some c => (c + sgn neg, {})
    | none => (lowestEqual (fun c => entryMag (t c)) (n - 1) + sgn neg, { of := true })
  | .fin neg m e _ =>
    -- magnitudes in units of 2^e0
    let e0 : Int := if e < -136 then e else -136
    let a := m * 2 ^ (e - e0).toNat
    let val (c : Nat) : Nat := entryMag (t c) * 2 ^ (-136 - e0).toNat
    let top := val (n - 1)
    let limit := if n = 1 then top else top + (top - val (n - 2))
    let maxCode := lowestEqual val (n - 1)
    if limit ≤ a then (maxCode + sgn neg, { of := true, nx := true })
    else
      let c := searchCode val a 8 0 (n - 1)
      if a < val 0 then (sgn neg, { nx := true })
      else
        let lo := lowestEqual val c
        if a = val lo then (lo + sgn neg, {})
        else
          let hiVal := if c = n - 1 then limit else val (c + 1)
          let d : Disc := ⟨a - val lo, hiVal - val lo, false⟩
          let up := roundUp rm seed neg (decide ((c + 1) % 2 = 0) && decide (lo % 2 = 1)) d
          if up && decide (c = n - 1) then (maxCode + sgn neg, { of := true, nx := true })
          else ((if up then c + 1 else lo) + sgn neg, { nx := true })

/-- round_to for any format code but blk8 (R106, R110, R115). -/
def roundElem (t : Tabs) (code : Nat) (x : XVal) (rm : Nat) (seed : Word) : Nat × Flags :=
  match floatFmt code with
  | some f => f.round x rm seed
  | none => if code = 4 then encodeTable t.a x rm seed else if code = 5 then encodeTable t.b x rm seed else roundInt code x rm seed

/-! ## Exact arithmetic (R103, R165) -/

/-- NV for the signalling NaNs among values (R103). -/
def snanFlags (xs : List XVal) : Flags := { nv := xs.any XVal.snan }

/-- The exact product (R165). -/
def XVal.mul (a b : XVal) : XVal × Flags :=
  match a, b with
  | .nan s, y => (.nan false, { nv := s || y.snan })
  | _, .nan s => (.nan false, { nv := s })
  | .inf n, .inf n' => (.inf (n != n'), {})
  | .inf n, .fin n' m _ _ => if m = 0 then (.nan false, { nv := true }) else (.inf (n != n'), {})
  | .fin n m _ _, .inf n' => if m = 0 then (.nan false, { nv := true }) else (.inf (n != n'), {})
  | .fin n m e _, .fin n' m' e' _ => (.exact (n != n') (m * m') (e + e'), {})

/-- The least exponent of the finite terms, or a start value. -/
def minExp : List XVal → Int → Int
  | [], e0 => e0
  | .fin _ m e _ :: t, e0 => minExp t (if m ≠ 0 ∧ e < e0 then e else e0)
  | _ :: t, e0 => minExp t e0

/-- A finite term in units of 2^e0. -/
def XVal.scaled (e0 : Int) : XVal → Int
  | .fin n m e _ => let v : Int := (m * 2 ^ (e - e0).toNat : Nat); if n then -v else v
  | _ => 0

/-- The exact sum of terms (R103, R121, R165, R176): NaN for a NaN or infinities of both signs, which set NV; an exact zero is
+0, −0 under RDN, or the sign of its zeros when all terms are zeros of one sign. -/
def sumX (rm : Nat) (ts : List XVal) : XVal × Flags :=
  let pinf := ts.any fun x => decide (x = .inf false)
  let ninf := ts.any fun x => decide (x = .inf true)
  let fl := snanFlags ts
  if ts.any XVal.isNan then (.nan false, fl.or { nv := pinf && ninf })
  else if pinf && ninf then (.nan false, { nv := true })
  else if pinf then (.inf false, {})
  else if ninf then (.inf true, {})
  else
    let e0 := minExp ts 1024
    let v : Int := ts.foldl (fun (a : Int) x => a + x.scaled e0) 0
    if v = 0 then
      let zero (n : Bool) (x : XVal) : Bool := match x with | .fin n' m _ _ => (n' == n) && decide (m = 0) | _ => false
      let neg := if ts.all (zero false) then false else if ts.all (zero true) then true else decide (rm = 3)
      (.exact neg 0 0, {})
    else (.exact (decide (v < 0)) v.natAbs e0, {})

/-- a × b + c with one rounding to come (R165). -/
def fmaX (rm : Nat) (a b c : XVal) (negProduct negAddend : Bool) : XVal × Flags :=
  let p := a.mul b
  let px := if negProduct then p.1.neg else p.1
  let r := sumX rm [px, if negAddend then c.neg else c]
  (r.1, (p.2.or r.2).or (snanFlags [c]))

/-- A value times 2^n (R168). Beyond ±2,000 n changes no result of a rounding, so it is clamped there. -/
def XVal.scale2 (x : XVal) (n : Int) : XVal :=
  match x with
  | .fin neg m e st => .fin neg m (if m = 0 then e else e + (if n < -2000 then -2000 else if 2000 < n then 2000 else n)) st
  | _ => x

/-- minimumNumber and maximumNumber on bits of a floating-point format (R166). -/
def FloatFmt.minMax (f : FloatFmt) (max : Bool) (x y : Nat) : Nat × Flags :=
  let dx := f.value x
  let dy := f.value y
  if dx.snan || dy.snan then (f.nan, { nv := true })
  else if dx.isNan && dy.isNan then (f.nan, {})
  else if dx.isNan then (y, {})
  else if dy.isNan then (x, {})
  else
    -- the order of sign and magnitude bits, −0 below +0
    let key (b : Nat) : Int :=
      let m := b % 2 ^ (f.exp + f.frac)
      if b / 2 ^ (f.exp + f.frac) % 2 = 1 then -(m : Int) - 1 else m
    if max then (if key x < key y then (y, {}) else (x, {})) else (if key y < key x then (y, {}) else (x, {}))

/-- The class bit of R169. -/
def FloatFmt.cls (f : FloatFmt) (b : Nat) : Nat :=
  match f.value b with
  | .nan s => if s then 256 else 512
  | .inf n => if n then 1 else 128
  | .fin n m _ _ =>
    if m = 0 then (if n then 8 else 16) else if m < 2 ^ f.frac then (if n then 4 else 32) else (if n then 2 else 64)

/-- How two values compare, neither a NaN: less, equal (−0 = +0) or greater. -/
def XVal.compare (a b : XVal) : Ordering :=
  match a, b with
  | .inf n, .inf n' => if n = n' then .eq else if n then .lt else .gt
  | .inf n, _ => if n then .lt else .gt
  | _, .inf n => if n then .gt else .lt
  | _, _ =>
    let e0 := minExp [a, b] 1024
    if a.scaled e0 < b.scaled e0 then .lt else if a.scaled e0 = b.scaled e0 then .eq else .gt

/-! ## Reciprocal, root, exponential, logarithm (R170) -/

/-- The square root of a number below 4^n, rounded down. -/
def isqrt : Nat → Nat → Nat
  | 0, _ => 0
  | n + 1, v =>
    let r := 2 * isqrt n (v / 4)
    if (r + 1) * (r + 1) ≤ v then r + 1 else r

/-- Fraction bits of the fixed-point evaluations below. -/
def fixBits : Nat := 320

/-- ln 2 in units of 2^-fixBits: the sum of 1 / (k 2^k), its terms k to k + n - 1. -/
def ln2Sum : Nat → Nat → Nat
  | 0, _ => 0
  | n + 1, k => 2 ^ fixBits / (k * 2 ^ k) + ln2Sum n (k + 1)

/-- exp of y units of 2^-fixBits, less than 1: the series, its terms from k on. -/
def expSum (y : Nat) : Nat → Nat → Nat → Nat
  | 0, _, _ => 0
  | n + 1, k, term => term + expSum y n (k + 1) (term * y / 2 ^ fixBits / (k + 1))

/-- The first n fraction bits of log2 y, by repeated squaring of y in units of 2^-700, 1 ≤ y < 2. -/
def log2Bits : Nat → Nat → Nat → Nat
  | 0, _, acc => acc
  | n + 1, y, acc =>
    let y2 := y * y / 2 ^ 700
    if 2 ^ 701 ≤ y2 then log2Bits n (y2 / 2) (2 * acc + 1) else log2Bits n y2 (2 * acc)

/-- 1 / a (R170). -/
def XVal.rcp (x : XVal) : XVal × Flags :=
  match x with
  | .nan s => (.nan false, { nv := s })
  | .inf n => (.exact n 0 0, {})
  | .fin n m e _ =>
    if m = 0 then (.inf n, { dz := true })
    else
      let k := bitLen m + 200
      (.fin n (2 ^ k / m) (-e - (k : Int)) (decide (2 ^ k % m ≠ 0)), {})

/-- 1 / √a (R170). -/
def XVal.rsq (x : XVal) : XVal × Flags :=
  match x with
  | .nan s => (.nan false, { nv := s })
  | .inf n => if n then (.nan false, { nv := true }) else (.zero, {})
  | .fin n m e _ =>
    if m = 0 then (.inf n, { dz := true })
    else if n then (.nan false, { nv := true })
    else
      let m := if e % 2 = 0 then m else 2 * m
      let e := if e % 2 = 0 then e else e - 1
      let r := isqrt 300 (2 ^ 560 / m)
      (.fin false r (-(e / 2) - 280) (decide (r * r * m ≠ 2 ^ 560)), {})

/-- 2^a (R170). The fraction is evaluated to about 300 bits. UNVERIFIED, log 10. -/
def XVal.exp2 (x : XVal) : XVal × Flags :=
  match x with
  | .nan s => (.nan false, { nv := s })
  | .inf n => (if n then .zero else .inf false, {})
  | .fin n m e _ =>
    if m = 0 then (.exact false 1 0, {})
    else if 12 < e + (bitLen m : Int) then
      (.fin false 1 (if n then -4096 else 4096) false, {})
    else
      -- a in units of 2^-fixBits: exact, since every operand is a multiple of 2^-149
      let v : Int := if 0 ≤ e then (m * 2 ^ e.toNat * 2 ^ fixBits : Nat) else (m * 2 ^ (fixBits - (-e).toNat) : Nat)
      let a : Int := if n then -v else v
      let i := a / (2 ^ fixBits : Nat)
      let fr := (a % (2 ^ fixBits : Nat)).toNat
      if fr = 0 then (.exact false 1 i, {})
      else
        let y := fr * ln2Sum 330 1 / 2 ^ fixBits
        let v := expSum y 80 0 (2 ^ fixBits)
        (.fin false (v / 2 ^ 40) (i - (fixBits - 40 : Nat)) true, {})

/-- log2 a (R170). The fraction is evaluated to 280 bits. -/
def XVal.log2 (x : XVal) : XVal × Flags :=
  match x with
  | .nan s => (.nan false, { nv := s })
  | .inf n => if n then (.nan false, { nv := true }) else (.inf false, {})
  | .fin n m e _ =>
    if m = 0 then (.inf true, { dz := true })
    else if n then (.nan false, { nv := true })
    else
      let k : Int := e + (bitLen m : Int) - 1
      if m = 2 ^ (bitLen m - 1) then (if k = 0 then .zero else .int k, {})
      else
        let f := log2Bits 280 (m * 2 ^ (701 - bitLen m)) 0
        if 0 ≤ k then (.fin false (k.toNat * 2 ^ 280 + f) (-280) true, {})
        else (.fin true ((-k).toNat * 2 ^ 280 - f - 1) (-280) true, {})

end Sys2Proof.Machine
end

