-- ==== Sys2Proof/Machine/TileMem.lean ====
section
/-! DEFINITION. Tile memory (R85, R127-R140): regions and segments, word marks, versioned lines with their
deltas, conflicts, and the reads and writes that strands, engines and remote writers make. -/

namespace Sys2Proof.Machine

/-! ## The map (R127, R128) -/

/-- The attributes of a segment (R127). -/
inductive Attr where
  | v | s | d
deriving DecidableEq, Repr

/-- Where a tile address lies for the resident context. -/
inductive Region where
  | code
  | seg (a : Attr)
  | none
deriving DecidableEq, Repr

/-- The segment of a data address. -/
def segOf (a : Nat) : Nat := (a - 0x8000) / 0x4000

/-- The attribute MEMCFG gives segment i (R128). -/
def attrOf (memcfg : Word) (i : Nat) : Attr :=
  match bitsOf memcfg (2 * i) 2 with
  | 0 => .v | 1 => .s | _ => .d

/-- The region of an address below 0x4_0000 for the resident context: its code lines, and the segments of its
SEGMASK with their attributes (R127, R373). -/
def Tile.region (T : Tile) (a : Nat) : Region :=
  if a < 0x8000 then (if T.codeOwned a then .code else .none)
  else if a < 0x40000 then
    (if T.segmask.getLsbD (segOf a) then .seg (attrOf T.ctl.memcfg (segOf a)) else .none)
  else .none

/-- Whether segment i is power-gated, its wake included (R140). -/
def Tile.gated (T : Tile) (i : Nat) : Bool := T.ctl.memcfg.getLsbD (28 + i)

/-- Whether an address lies in a gated segment. -/
def Tile.gatedAt (T : Tile) (a : Nat) : Bool := decide (0x8000 ≤ a) && decide (a < 0x40000) && T.gated (segOf a)

/-- The first address of a range that lies in a gated segment, taken segment by segment. -/
def Tile.gatedIn (T : Tile) (a len : Nat) : Option Nat :=
  ((List.range (len / 0x4000 + 2)).map fun i => Nat.min (a + 0x4000 * i) (a + len - 1)).find? T.gatedAt

/-- Every byte of a range satisfies a test of its region; segments and the code region are taken whole, so the
range is tested at its ends and at each 64-byte boundary between. -/
def Tile.rangeIs (T : Tile) (p : Region → Bool) (a len : Nat) : Bool :=
  p (T.region a) && p (T.region (a + len - 1)) &&
    (List.range (len / 64 + 1)).all fun i => decide (a + len ≤ a + 64 * i) || p (T.region (a + 64 * i))

/-- Readable by loads: code, V and S (R85). -/
def Region.readable : Region → Bool
  | .code => true | .seg .v => true | .seg .s => true | _ => false
/-- V or S segments. -/
def Region.vs : Region → Bool
  | .seg .v => true | .seg .s => true | _ => false
/-- Code or V segments (R214). -/
def Region.codeV : Region → Bool
  | .code => true | .seg .v => true | _ => false
/-- S segments. -/
def Region.isS : Region → Bool
  | .seg .s => true | _ => false
/-- V segments. -/
def Region.isV : Region → Bool
  | .seg .v => true | _ => false

/-- The first address of a range whose region fails a test. -/
def Tile.firstBad (T : Tile) (p : Region → Bool) : Nat → Nat → Option Nat
  | _, 0 => none
  | a, n + 1 => if p (T.region a) then Tile.firstBad T p (a + 1) n else some a

/-! ## Frames and words (R129) -/

/-- The line of a data address, 0 to 1,791. -/
def lineOf (a : Nat) : Nat := (a - 0x8000) / 128

/-- The word of a data address, 0 to 28,671. -/
def wordIx (a : Nat) : Nat := (a - 0x8000) / 8

/-- The frame that holds a line's committed image (the line map). -/
def TMem.frameOf (m : TMem) (line : Nat) : Nat := m.lineMap.get line line

/-- A physical byte of the data area. -/
def TMem.byte (m : TMem) (phys : Nat) : Byte := SMap.get m.bytes phys 0

/-- The physical address of a data address's committed byte. -/
def TMem.physOf (m : TMem) (a : Nat) : Nat := 128 * m.frameOf (lineOf a) + (a - 0x8000) % 128

/-- Writes a physical byte. -/
def TMem.setByte (m : TMem) (phys : Nat) (b : Byte) : TMem := { m with bytes := SMap.set m.bytes phys 0 b }

/-- Copies one 128-byte frame to another with its poison marks. -/
def TMem.copyFrame (m : TMem) (src dst : Nat) : TMem :=
  let bytes := (List.range 128).foldl (fun b i => SMap.set b (128 * dst + i) 0 (SMap.get m.bytes (128 * src + i) 0)) m.bytes
  { m with bytes := bytes, poison := withBits m.poison (16 * dst) 16 (bitsOf m.poison (16 * src) 16) }

/-! ## Reading -/

/-- The byte that the committed frame holds at a data address. -/
def TMem.committed (m : TMem) (a : Nat) : Byte := m.byte (m.physOf a)

/-- The committed poison mark of the word at a data address. -/
def TMem.committedPoison (m : TMem) (a : Nat) : Bool := m.poison.getLsbD (m.physOf a / 8)

/-- The byte that the own view gives at a V address (R132). -/
def TMem.own (m : TMem) (a : Nat) : Byte :=
  match m.deltas.find (lineOf a) with
  | some d => if d.own.getLsbD (a % 128) then m.byte (128 * d.frame + a % 128) else m.committed a
  | none => m.committed a

/-- The own view's poison of the word at a V address (R132): over its bytes, the own mark for own-masked bytes and
the committed mark for the rest. -/
def TMem.ownPoison (m : TMem) (a : Nat) : Bool :=
  match m.deltas.find (lineOf a) with
  | some d =>
    let w := a % 128 / 8
    let masked := bitsOf d.own (8 * w) 8
    (decide (masked ≠ 0) && d.ownMark.getLsbD w) || (decide (masked ≠ 255) && m.committedPoison a)
  | none => m.committedPoison a

/-- The byte at a tile address as loads of the tile read it: code, the own view of V, the contents of S. -/
def Tile.byteAt (T : Tile) (a : Nat) : Byte :=
  if a < 0x8000 then T.codeByte (T.codePhys a)
  else match T.region a with
  | .seg .v => T.mem.own a
  | _ => T.mem.committed a

/-- The poison that a load takes from the word at a tile address: none in code, a stale word's in S (R85). -/
def Tile.poisonAt (T : Tile) (a : Nat) : Bool :=
  if a < 0x8000 then false
  else match T.region a with
  | .seg .v => T.mem.ownPoison a
  | _ => T.mem.committedPoison a || T.mem.stale.getLsbD (wordIx a)

/-- n bytes from a tile address, as a number (R4). -/
def Tile.readNat (T : Tile) (a n : Nat) : Nat := ofBytes ((List.range n).map fun i => T.byteAt (a + i))

/-- The poison of the words that hold n bytes from an address. -/
def Tile.readPoison (T : Tile) (a n : Nat) : Bool :=
  (List.range (n / 8 + 1)).any fun i => decide (8 * (a / 8) + 8 * i < a + n) && T.poisonAt (8 * (a / 8) + 8 * i)

/-- What another tile reads at an address (R89, R132): committed V, current S with staleness; nothing of D. -/
def Tile.remoteByte (T : Tile) (a : Nat) : Byte := T.mem.committed a

/-- The poison that another tile's read takes (R89, R132). -/
def Tile.remotePoison (T : Tile) (a : Nat) : Bool :=
  match T.region a with
  | .seg .s => T.mem.committedPoison a || T.mem.stale.getLsbD (wordIx a)
  | .seg .v => T.mem.committedPoison a
  | _ => true

/-! ## Writing -/

/-- Takes a free frame of the pool, keeping LOW (R130, R136). -/
def TMem.alloc (m : TMem) : Option (Nat × TMem) :=
  match m.free with
  | [] => none
  | f :: r => some (f, { m with free := r, low := Nat.min m.low r.length })

/-- The delta of a line, allocated when it has none (R130). -/
def TMem.delta (m : TMem) (line : Nat) : Option (Delta × TMem) :=
  match m.deltas.find line with
  | some d => some (d, m)
  | none =>
    m.alloc.map fun (f, m) =>
      let m := m.copyFrame (m.frameOf line) f
      let mark := BitVec.ofNat 16 (bitsOf m.poison (16 * m.frameOf line) 16)
      let d : Delta := ⟨f, 0, 0, mark, 0⟩
      (d, { m with deltas := m.deltas.insert line d })

/-- The byte offsets of a write within its line: from off, n bytes. -/
def lineMask (off n : Nat) : BitVec 128 := BitVec.ofNat 128 ((2 ^ n - 1) <<< off)

/-- Whether an AMOD record targets a 4-byte word that a write of n bytes at a reaches (R133). -/
def Tile.amodHit (T : Tile) (a n : Nat) : Bool := T.amods.any fun r => decide (r.addr < a + n) && decide (a < r.addr + 4)

/-- What a tile write did: the tile, and whether it completed a conflict of R133. -/
structure Wrote where
  tile : Tile
  conflict : Bool
deriving DecidableEq, Repr

/-- Puts bytes into a delta frame. -/
def TMem.putBytes (m : TMem) (phys : Nat) : List Byte → TMem
  | [] => m
  | b :: t => (m.setByte phys b).putBytes (phys + 1) t

/-- Sets the marks of words i to i + n - 1 in a 16-bit mark field. -/
def setMarks (x : BitVec 16) (i n : Nat) (b : Bool) : BitVec 16 := withBits x i n (if b then 2 ^ n - 1 else 0)

/-- A write of bytes that lie in one line of a V segment (R130, R131, R133). `whole` words take the poison given:
an own write sets their own mark, a remote write ORs it into their remote mark. An engine's write sets the full bit of the words
that it reaches (R129). None when no frame is free. -/
def Tile.writeV (T : Tile) (remote engine : Bool) (a : Nat) (bs : List Byte) (poison : Bool) : Option Wrote :=
  (T.mem.delta (lineOf a)).map fun (d, m) =>
    let off := a % 128
    let n := bs.length
    let mask := lineMask off n
    let hit := (if remote then decide ((d.own ||| d.remote) &&& mask ≠ 0) else decide (d.remote &&& mask ≠ 0)) || T.amodHit a n
    let w0 := (off + 7) / 8
    let w1 := (off + n) / 8
    let d' : Delta :=
      if remote then
        { d with remote := d.remote ||| mask, remoteMark := if poison then setMarks d.remoteMark w0 (w1 - w0) true else d.remoteMark }
      else { d with own := d.own ||| mask, ownMark := setMarks d.ownMark w0 (w1 - w0) poison }
    let m := m.putBytes (128 * d.frame + off) bs
    let k := (off + n + 7) / 8 - off / 8
    ⟨{ T with mem := { m with
        deltas := m.deltas.insert (lineOf a) d'
        full := if engine then withBits m.full (wordIx a) k (2 ^ k - 1) else m.full } }, hit⟩

/-- A write at once to an S segment (R129): whole words take the poison given and lose staleness; an engine's
write sets the full bit of its words. -/
def Tile.writeS (T : Tile) (engine : Bool) (a : Nat) (bs : List Byte) (poison : Bool) : Tile :=
  let m := T.mem.putBytes (T.mem.physOf a) bs
  let n := bs.length
  let w0 := (a - 0x8000 + 7) / 8
  let w1 := (a - 0x8000 + n) / 8
  let p0 := (T.mem.physOf a + 7) / 8
  let k := w1 - w0
  let m := { m with
    poison := withBits m.poison p0 k (if poison then 2 ^ k - 1 else 0)
    stale := withBits m.stale w0 k 0
    full := if engine then withBits m.full w0 k (2 ^ k - 1) else m.full }
  { T with mem := m }

/-- A write of bytes that lie in one line, by the attribute of its segment; none when a delta cannot be had, or
when the segment takes no write. -/
def Tile.writeLine (T : Tile) (remote engine : Bool) (a : Nat) (bs : List Byte) (poison : Bool) : Option Wrote :=
  match T.region a with
  | .seg .v => T.writeV remote engine a bs poison
  | .seg .s => some ⟨T.writeS engine a bs poison, false⟩
  | _ => none

/-- Bytes of a list that lie in the line of the first address. -/
def lineRest (a : Nat) : Nat := 128 - a % 128

/-- A write of words with a poison bit each, whole and aligned, over any lines: an engine's write (R129). None when
a delta cannot be had. -/
def Tile.writeWords (T : Tile) (remote : Bool) (a : Nat) : List (Word × Bool) → Option Wrote
  | [] => some ⟨T, false⟩
  | (w, p) :: t =>
    (T.writeLine remote true a (toBytes 8 w.toNat) p).bind fun r =>
      (Tile.writeWords r.tile remote (a + 8) t).map fun r' => ⟨r'.tile, r.conflict || r'.conflict⟩

/-- The words of a range as engines of the tile read them: the own view with each word's poison (R132). -/
def Tile.readWords (T : Tile) (a n : Nat) : List (Word × Bool) :=
  (List.range n).map fun i => (BitVec.ofNat 64 (T.readNat (a + 8 * i) 8), T.poisonAt (a + 8 * i))

/-- A strand's store of bytes that lie in one word (R85): own-origin in V, at once in S. -/
def Tile.store (T : Tile) (a : Nat) (bs : List Byte) : Option Wrote := T.writeLine false false a bs false

/-- The delta lines that a list of addresses needs and that have none. -/
def Tile.newLines (T : Tile) (as : List Nat) : List Nat :=
  ((as.filter fun a => (T.region a).isV && (T.mem.deltas.find (lineOf a)).isNone).map lineOf).eraseDups

/-- A conflict of R133 that lands before the tile's ARRIVE raises its vote to HALT with DELTA_CONFLICT. -/
def State.noteConflict (s : State) (t : Nat) (c : Bool) : State := if c then s.raiseVote t 3 0x0C else s

/-- The turn in which what the present turn does is tried again, when it meets a gated segment (R140). -/
def State.waiter (s : State) : What :=
  let request (n : Nat) : What := match s.reqs[n]? with | some r => .retryRequest r | none => s.acting
  match s.acting with
  | .requestWord n _ => request n
  | .event (.memoryRequest n) => request n
  | .event (.atomicPerform n) => (match s.amos[n]? with | some a => .retryAtomic a | none => s.acting)
  | .event (.immediateStoreArrival n none) => (match s.ists[n]? with | some i => .retryStore i | none => s.acting)
  | w => w

/-- An access to a gated segment starts its wake and is held, in order of arrival (R140). -/
def State.startWake (s : State) (t a : Nat) : State :=
  let h : HeldAccess := ⟨t, segOf a, s.waiter⟩
  let s := s.updTile t fun T => { T with waking := withBit T.waking (segOf a) true }
  if s.held.contains h then s else { s with held := s.held ++ [h] }

/-- The accesses that waited for a segment are tried next, in their order of arrival, before anything else (R140). -/
def State.releaseHeld (s : State) (t seg : Nat) : State :=
  let mine (h : HeldAccess) : Bool := decide (h.tile = t) && decide (h.seg = seg)
  { s with agenda := ((s.held.filter mine).map fun h => ⟨0, h.who⟩) ++ s.agenda, held := s.held.filter fun h => !mine h }

/-- An access to a range starts the wake of the gated segment it meets first; none when it meets none. -/
def State.wakeFor (s : State) (t a len : Nat) : Option State := ((s.tile t).gatedIn a len).map fun g => s.startWake t g

/-! ## Marks and the pool at the decisions (R134-R137) -/

/-- Commits one line with a delta (R134): the poison merge, the flip, and the former frame's return to the pool. -/
def TMem.commitLine (m : TMem) (line : Nat) (d : Delta) : TMem :=
  let old := m.frameOf line
  let word (p : BitVec 28672) (w : Nat) : BitVec 28672 :=
    let o := bitsOf d.own (8 * w) 8
    let r := bitsOf d.remote (8 * w) 8
    let un := decide (o ||| r ≠ 255)
    if o ≠ 0 ∨ r ≠ 0 then
      withBit p (16 * d.frame + w)
        ((decide (o ≠ 0) && d.ownMark.getLsbD w) || (decide (r ≠ 0) && d.remoteMark.getLsbD w) ||
          (un && m.poison.getLsbD (16 * old + w)))
    else p
  { m with
    poison := (List.range 16).foldl word m.poison
    lineMap := m.lineMap.set line line d.frame
    free := m.free ++ [old] }

/-- Commits every line with a delta (R134). -/
def TMem.commit (m : TMem) : TMem :=
  { (m.deltas.foldl (fun m (l, d) => m.commitLine l d) m) with deltas := [] }

/-- Discards every delta (R135). -/
def TMem.abort (m : TMem) : TMem := { m with free := m.free ++ m.deltas.map (·.2.frame), deltas := [] }

/-- The words of a range of tile addresses as a mask over the data area. -/
def wordMask (a n : Nat) : BitVec 28672 := BitVec.ofNat 28672 (2 ^ wordIx (a + n) - 2 ^ wordIx a)

/-- The words of the tile's S segments that turn stale at a decision: all but those of `keep` ranges (R137, R146). -/
def Tile.staleMask (T : Tile) (keep : List (Nat × Nat)) : BitVec 28672 :=
  let segs := (List.range 14).foldl (fun m i =>
    if T.segmask.getLsbD i ∧ attrOf T.ctl.memcfg i = .s then m ||| wordMask (0x8000 + 0x4000 * i) 0x4000 else m) 0
  keep.foldl (fun m (a, n) => m &&& ~~~(wordMask a n)) segs

/-- Marks scratch words stale and empty (R137). -/
def Tile.markStale (T : Tile) (keep : List (Nat × Nat)) : Tile :=
  let k := T.staleMask keep
  { T with mem := { T.mem with stale := T.mem.stale ||| k, full := T.mem.full &&& ~~~k } }

/-- Segments of the resident context with attribute D: the pool's own frames (R128, R136). -/
def poolFrames (memcfg : Word) (segmask : BitVec 14) : List Nat :=
  (List.range 14).flatMap fun i =>
    if segmask.getLsbD i ∧ attrOf memcfg i = .d then (List.range 128).map (128 * i + ·) else []

/-- DPOOL.SIZE (R136): D segments × 128. -/
def Tile.poolSize (T : Tile) : Nat :=
  128 * ((List.range 14).filter fun i => T.segmask.getLsbD i && decide (attrOf T.ctl.memcfg i = .d)).length

/-! ## Cluster space (R89, R235) -/

/-- The data address at the member tile of a cluster-space address (R89). -/
def csOffset (ea : Nat) : Nat := 0x8000 + (ea / 2048) * 128 + ea % 128

/-- The member index of a cluster-space address (R89). -/
def csMember (ea : Nat) : Nat := ea / 128 % 16

/-- The member index of a gang tile: its gang tile index modulo T (R235). -/
def Gang.member (g : Gang) (gti : Nat) : Nat := gti % g.perCluster

/-- The gang cluster index of a gang tile (R235). -/
def Gang.cluster (g : Gang) (gti : Nat) : Nat := gti / g.perCluster

/-- CLUSTERID.FULL (R235): the gang holds all sixteen tiles of the cluster. -/
def State.fullCluster (s : State) (t : Nat) : Bool :=
  match s.gangOf t with
  | some g => decide (g.perCluster = 16)
  | none => false

/-- The tile key of a member of the issuing tile's cluster, when the gang holds whole clusters. -/
def State.memberTile (s : State) (t m : Nat) : Option Nat :=
  (s.gangOf t).bind fun g => g.tileAt ((s.tile t).gti / 16 * 16 + m)

end Sys2Proof.Machine
end

