-- ==== Sys2Proof/Machine/Operands.lean ====
section
/-! DEFINITION. Operand forms: immediates, addresses, guards over lanes, element access and the shapes of
instruction (R52-R56, R70, R85, R156) that the families share. -/

namespace Sys2Proof.Machine

/-- An address formed as an unbounded integer from a base register and an offset (R85). -/
def eaOf (base : Word) (off : Int) : Int := (base.toNat : Int) + off

/-- An address that is a tile address, 0 to 0x3_FFFF. -/
def tileAddr (ea : Int) : Option Nat := if 0 ≤ ea ∧ ea < 0x40000 then some ea.toNat else none

/-- The OR of the tags of scalar registers (R30). -/
def Strand.tags (x : Strand) (rs : List SReg) : Bool := rs.any x.tag

/-- The lowest-numbered poisoned register of a list (R41, R183). -/
def Strand.lowPoison (x : Strand) (rs : List SReg) : Option SReg :=
  (rs.filter x.tag).foldl (fun a r => match a with | none => some r | some b => some (if r.toNat < b.toNat then r else b)) none

/-- The lanes that are active under a guard (R53, R156): a poisoned mask bit counts as active. -/
def Strand.active (x : Strand) (g : Guard) : BitVec 64 :=
  if g.mask then (if g.inv then ~~~(x.qrd g.idx) else x.qrd g.idx) ||| x.qt g.idx else BitVec.allOnes 64

/-- The poison of the governing mask bits (R31, R156); none under a scalar guard. -/
def Strand.maskPoison (x : Strand) (g : Guard) : BitVec 64 := if g.mask then x.qt g.idx else 0

/-- Lane i of a vector. -/
def lane (v : Vec) (i : Nat) : BitVec 32 := v.extractLsb' (32 * i) 32

/-- Element e of width w of a vector or operand (R101). -/
def element (v w e : Nat) : Nat := v / 2 ^ (w * e) % 2 ^ w

/-- A vector value from its elements of width w, lowest first. -/
def packElements (w : Nat) : List Nat → Nat
  | [] => 0
  | x :: t => x % 2 ^ w + 2 ^ w * packElements w t

/-- The bits of a vector that lie in the lanes of a lane mask. -/
def laneBits (m : BitVec 64) : Vec :=
  BitVec.ofNat 2048 (packElements 32 ((List.range 64).map fun i => if m.getLsbD i then 2 ^ 32 - 1 else 0))

/-- Writes the active lanes of a vector register, with their poison (R156). -/
def Strand.vwrLanes (x : Strand) (act : BitVec 64) (d : VReg) (v : Vec) (t : BitVec 64) : Strand :=
  let m := laneBits act
  x.vwr d ((x.vrd d &&& ~~~m) ||| (v &&& m)) ((x.vt d &&& ~~~act) ||| (t &&& act))

/-- A register-only instruction that writes one scalar register. -/
def scalarBody (d : SReg) (v : Strand → Word) (rs : List SReg) : Nat → Nat → State → Eff :=
  fun _ _ s => .done (s.updMe fun x => x.wr d (v x) (x.tags rs))

/-- A register-only instruction that writes one predicate. -/
def predBody (d : PReg) (v tag : Strand → Bool) : Nat → Nat → State → Eff :=
  fun _ _ s => .done (s.updMe fun x => x.pwr d (v x) (tag x))

/-! ## Bales (R141, R143) -/

/-- A bale-table entry. -/
def Tile.bale (T : Tile) (slot : Nat) : Bale := T.ctl.bales.get slot {}

/-- Writes a bale-table entry. -/
def Tile.setBale (T : Tile) (slot : Nat) (b : Bale) : Tile :=
  { T with ctl := { T.ctl with bales := T.ctl.bales.set slot {} b } }

/-- The tile address of a bale. -/
def Bale.addr (b : Bale) : Nat := 128 * b.offset.toNat

/-- The size of a bale in bytes. -/
def Bale.bytes (b : Bale) : Nat := 128 * (b.size.toNat + 1)

/-- What an instruction that names a bale meets when the bale is not READY (R143). -/
def Tile.baleWait (T : Tile) (slot : Nat) : Option Eff :=
  let b := T.bale slot
  if b.state = 2 then none
  else if b.state = 0 ∧ b.pend = false then some (.trap 0x10 (BitVec.ofNat 64 slot))
  else some (.park .bale)

/-! ## Live tables and their swaps (R111, R116) -/

/-- The live tables: A at keys 0 to 255, B at 512 to 767. -/
def Tile.tabs (T : Tile) : Tabs :=
  ⟨fun c => (T.ctl.tables.get c 0).toNat, fun c => (T.ctl.tables.get (512 + c) 0).toNat⟩

/-- A TBLSW on the table waits for its swap (R116). -/
def Tile.swapping (T : Tile) (b : Bool) : Bool :=
  T.strands.any fun kx => match kx.2.hold with | .tblsw t _ => t == b | _ => false

/-- The tables a pair of format codes binds to. -/
def boundTables (fa fb : Nat) : List Bool :=
  (if fa = 4 ∨ fb = 4 then [false] else []) ++ (if fa = 5 ∨ fb = 5 then [true] else [])

/-- The first of some tables that is not encodable, as TABLE_INVALID reports it (R114, R158): table A when both are
not. DEDUCED, log 26. -/
def Tile.invalidTable (T : Tile) (bs : List Bool) : Option Word :=
  (bs.find? fun b => !encodable (T.tabs.of b)).map fun b => if b then 1 else 0

end Sys2Proof.Machine
end

