-- ==== Sys2Proof/Machine/Gangs.lean ====
section
/-! DEFINITION. What a gang, its tiles and the partitions know of each other: owners of clusters, pending faults,
frozen stacks, the activity of engines (R14, R235, R256, R304, R345). -/

namespace Sys2Proof.Machine

/-- The lowest-numbered partition whose CLUSTERS holds coordinate bit i of die d (R345). -/
def State.ownerOfBit (s : State) (i : Nat) : Option Nat :=
  (List.range 64).find? fun p => (s.part p).clusters.getLsbD i

/-- The partition that owns a cluster, by its mesh coordinate (R345). -/
def State.ownerOf (s : State) (c : Nat) : Option Nat :=
  if 272 ≤ c ∨ (s.cluster c).coord = 0 then none else s.ownerOfBit (64 * (c / 68) + ((s.cluster c).coord - 1))

/-- A partition owns at least one cluster (PARTID.ACTIVE). -/
def State.ownsCluster (s : State) (p : Nat) : Bool :=
  (List.range 256).any fun i => decide (s.ownerOfBit i = some p)

/-- The partition whose key and quotas a tile's requests use (R347): its gang's, or PARTID.SEL on a steward tile. -/
def State.partOf (s : State) (t : Nat) : Nat :=
  if isSteward t then s.pkg.partid.toNat else match s.gangOf t with | some g => g.part | none => 0

/-- Tiles of a gang on this package. -/
def Gang.tiles (g : Gang) : List Nat := g.place

/-- Whether a tile belongs to a resident gang. -/
def State.inGang (s : State) (g t : Nat) : Bool := decide ((s.tile t).gang = g) && decide (g ≠ 0)

/-- A strand of the tile is held by a LAUNCH whose read faulted (R371). -/
def Tile.launchHeld (T : Tile) : Bool := T.strands.any fun kx => match kx.2.hold with | .launch _ => true | _ => false

/-- A strand of the tile is held by a LAUNCH whose read waits at a frozen stack (R304). -/
def Tile.launchFrozen (T : Tile) : Bool := T.strands.any fun kx => match kx.2.hold with | .launchFrozen _ _ _ => true | _ => false

/-- A page-fault service is pending for a gang (R290, DLSTAT.PFPEND). -/
def State.faultPending (s : State) (g : Nat) : Bool :=
  (s.reqs.any fun r => r.suspended && s.inGang g r.tile) || (s.amos.any fun a => a.suspended && s.inGang g a.src) ||
    (s.tiles.any fun tT => decide (tT.2.gang = g) && decide (g ≠ 0) && tT.2.launchHeld)

/-- A gang has a request waiting at a frozen stack (R304). -/
def State.gangFrozen (s : State) (g : Nat) : Bool :=
  (s.reqs.any fun r => r.frozen.isSome && s.inGang g r.tile) || (s.amos.any fun a => a.frozen.isSome && s.inGang g a.src) ||
    (s.tiles.any fun tT => decide (tT.2.gang = g) && decide (g ≠ 0) && tT.2.launchFrozen)

/-- A host wake is armed for a gang: its id stands in the wake register of its virtual function (R350). -/
def State.wakeArmed (s : State) (g : Nat) : Bool :=
  match s.gang g with
  | some x => (s.part x.part).wakes.contains g
  | none => false

/-- Disarms the host wake of a gang: at an active message of the host, and at a decision (R350). -/
def State.disarmWake (s : State) (g : Nat) : State :=
  match s.gang g with
  | some x => s.updPart x.part fun q => { q with wakes := q.wakes.filter (· ≠ g) }
  | none => s

/-- BUDGET.PAUSE of a tile (R313). -/
def State.budgetPaused (s : State) (t : Nat) : Bool :=
  s.gangFrozen (s.tile t).gang || s.faultPending (s.tile t).gang

/-- An access of tile `src` to tile `dst` waits: `src` has applied a decision that `dst` has not yet applied (R17), or has begun
a step whose start phase `dst` has still to take (R228, R369). -/
def State.behind (s : State) (src dst : Nat) : Bool :=
  match s.gangOf src with
  | some g =>
    (g.todo.contains dst && !g.todo.contains src) ||
      (g.place.contains dst && decide ((s.tile dst).seq.phase = .start) && decide ((s.tile src).seq.phase ≠ .start))
  | none => false

/-- Drops what a tile has on its way in the network and the memory side. DEDUCED, log 80. -/
def State.dropTraffic (s : State) (t : Nat) : State :=
  { s with
    reqs := s.reqs.filter fun r => decide (r.tile ≠ t), ists := s.ists.filter fun i => decide (i.src ≠ t)
    amos := s.amos.filter fun a => decide (a.src ≠ t), amodNet := s.amodNet.filter fun f => decide (f.src ≠ t)
    sends := s.sends.filter fun f => decide (f.src ≠ t), msgs := s.msgs.filter fun m => decide (m.src ≠ t)
    held := s.held.filter fun h => decide (h.tile ≠ t) }

/-- The all-parked line of a tile (R256). DEDUCED, log 35. -/
def Tile.lineNow (T : Tile) : Bool :=
  let stuck :=
    ((List.range 4).all fun k => match (T.strands.get k {}).run with | .parked _ => true | .idle => true | _ => false) &&
    ((List.range 4).any fun k => match (T.strands.get k {}).run with | .parked _ => true | _ => false) &&
    (T.follower || decide (T.seq.count ≤ T.seq.entry)) && T.seq.fwdDispatch.isEmpty &&
    decide ((T.strands.get 4 {}).run = .idle) && T.mail.isEmpty && T.steppedNow.isEmpty
  match T.seq.phase with
  | .arrived => true
  | .compute => stuck
  | .exchange => stuck
  | _ => false

end Sys2Proof.Machine
end

