-- ==== Sys2Proof/Machine/Abacus.lean ====
section
/-! DEFINITION. The Abacus array, its accumulators and the decode tables (R121, R122, R183-R196). -/

namespace Sys2Proof.Machine

/-! ## Rings as the Abacus sees them (R147-R149, R187) -/

/-- A ring of a tile. -/
def Tile.ring (T : Tile) (r : Nat) : Ring := T.ctl.rings.get r {}

/-- Writes a ring. -/
def Tile.setRing (T : Tile) (r : Nat) (x : Ring) : Tile :=
  { T with ctl := { T.ctl with rings := T.ctl.rings.set r {} x } }

/-- The slot at an offset of a ring, modulo its slot count (R148). -/
def Ring.slot (x : Ring) (off : Nat) : Nat := x.first.toNat + off % (x.cntm1.toNat + 1)

/-- The head slot. -/
def Ring.headSlot (x : Ring) : Nat := x.slot x.head.toNat

/-- The tail slot. -/
def Ring.tailSlot (x : Ring) : Nat := x.slot x.tail.toNat

/-- What an instruction meets that finds no slot to name in a ring (R149); its trap comes once its wait can be met (R57). -/
def Ring.emptyWait (x : Ring) : Eff :=
  if x.subv ∧ !x.stopin then .park .bale else .trapLate 0x10 (BitVec.ofNat 64 x.headSlot)

/-- An effect of an instruction with a wait, when it rests on more than its head, its tail and register values: a trap comes once the
wait can be met (R57). -/
def Eff.late : Eff → Eff
  | .trap c v => .trapLate c v
  | e => e

/-- The pop of the head slot (R148). It moves a READY bale to EMPTY; one that a transfer is draining goes on until every byte is read out,
since R142 lists no other way out of DRAINING. DEDUCED, log 112. -/
def Tile.popRing (T : Tile) (r : Nat) : Tile :=
  let x := T.ring r
  let slot := x.headSlot
  let b := T.bale slot
  let T := if b.state = 2 then T.setBale slot { b with state := 0 } else T
  T.setRing r { x with head := BitVec.ofNat 6 ((x.head.toNat + 1) % (x.cntm1.toNat + 1)), occ := x.occ - 1 }

/-! ## Banks (R184) -/

/-- A bank of an accumulator. -/
def Tile.bank (T : Tile) (acc : Nat) (b : Bool) : Bank := T.banks.get (2 * acc + (if b then 1 else 0)) {}

/-- Which bank works. -/
def Tile.workingBank (T : Tile) (acc : Nat) : Bool := T.working.getLsbD acc

/-- The visible bank. -/
def Tile.visible (T : Tile) (acc : Nat) : Bank := T.bank acc (!T.workingBank acc)

/-- Writes a bank. -/
def Tile.setBank (T : Tile) (acc : Nat) (b : Bool) (x : Bank) : Tile :=
  { T with banks := T.banks.set (2 * acc + (if b then 1 else 0)) {} x }

/-- Element (i, j) of a bank. -/
def Bank.el (b : Bank) (i j : Nat) : Nat := bitsOf b.bits (32 * (32 * i + j)) 32

/-- The poison of element (i, j). -/
def Bank.po (b : Bank) (i j : Nat) : Bool := b.poison.getLsbD (32 * i + j)

/-- A bank from its elements and their poison, row by row. -/
def Bank.of (el : Nat → Nat → Nat × Bool) : Bank :=
  let es := (List.range 1024).map fun n => el (n / 32) (n % 32)
  ⟨BitVec.ofNat 32768 (packElements 32 (es.map (·.1))), BitVec.ofNat 1024 (packElements 1 (es.map fun e => if e.2 then 1 else 0))⟩

/-- A bank with row r replaced. -/
def Bank.withRow (b : Bank) (r : Nat) (row : List (Nat × Bool)) : Bank :=
  ⟨withBits b.bits (1024 * r) 1024 (packElements 32 (row.map (·.1))),
   withBits b.poison (32 * r) 32 (packElements 1 (row.map fun e => if e.2 then 1 else 0))⟩

/-- An ACCSW on the accumulator has issued and not swapped (R189). -/
def Tile.accSwapping (T : Tile) (acc : BitVec 3) : Bool :=
  T.strands.any fun kx => match kx.2.hold with | .accsw a _ => a == acc | _ => false

/-- A visible-bank instruction on the accumulator is held (R189). -/
def Tile.accHeld (T : Tile) (acc : BitVec 3) : Bool := T.accSwapping acc || (T.accMoves.find acc.toNat).isSome

/-! ## MMA (R185-R188) -/

/-- Format pairs of MMA and MMAN (R185). -/
def mmaPairs : Formats :=
  ⟨fun a b => ([1, 2].contains a && [1, 2].contains b) || ([4, 5].contains a && [4, 5].contains b) || (decide (a = 6) && decide (b = 6)), 2, 2⟩
/-- Format pairs of MMAQ. -/
def mmaqPairs : Formats := ⟨fun a b => decide (a = 12) && decide (b = 12), 12, 12⟩
/-- Format pairs of MMAI. -/
def mmaiPairs : Formats :=
  ⟨fun a b => ([7, 8].contains a && [7, 8].contains b) || (decide (a = 9) && decide (b = 9)), 7, 7⟩

/-- Operand bytes of a bale (R186). -/
def operandBytes (form : MmaForm) (fmt g : Nat) : Nat :=
  if form = .mmaq then 1064 * g else 128 * g * fmtWidth fmt

/-- The tables an MMA form binds to: those its formats name; MMAQ's tags may select either (R116, R187). DEDUCED, log 26. -/
def mmaTables (form : MmaForm) (fa fb : Nat) : List Bool :=
  if form = .mmaq then [false, true] else boundTables fa fb

/-- The slot an MMA binds in a ring when `skip` pushed slots are bound before it (R187). -/
def Tile.bindSlot (T : Tile) (r skip : Nat) : Sum Eff Nat :=
  let x := T.ring r
  if x.bound + skip < x.occ.toNat then
    let slot := x.slot (x.head.toNat + x.bound + skip)
    match T.baleWait slot with
    | some e => .inl e.late
    | none => .inr slot
  else .inl x.emptyWait

/-- The issue of an MMA form (R187): held, bound to its slots, queued. Its strand goes on when it retires. -/
def State.mmaIssue (s : State) (form : MmaForm) (acc ra rb : BitVec 3) (w : BitVec 6) (sy : Sync) (fa fb : Nat) : Eff :=
  let T := s.myTile
  let g := w.toNat + 1
  if T.accSwapping acc || (mmaTables form fa fb).any T.swapping || decide (4 ≤ (T.mmas.filter (!·.retired)).length) then .retry s
  else match T.bindSlot ra.toNat 0 with
  | .inl e => e
  | .inr a =>
    match T.bindSlot rb.toNat (if ra = rb then 1 else 0) with
    | .inl e => e
    | .inr b =>
      if (T.bale a).bytes < operandBytes form fa g then .trapLate 0x06 (BitVec.ofNat 64 (T.bale a).addr)
      else if (T.bale b).bytes < operandBytes form fb g then .trapLate 0x06 (BitVec.ofNat 64 (T.bale b).addr)
      else
        let m : Mma := ⟨form, acc, ra, rb, a, b, g, fa, fb, s.curStrand, sy, false, 0, 0, 0, 0⟩
        let bind (r : Nat) (T : Tile) : Tile := let x := T.ring r; T.setRing r { x with bound := x.bound + 1 }
        .hold (s.updMyTile fun T => { bind rb.toNat (bind ra.toNat T) with mmas := T.mmas ++ [m] }) .mma

/-- What the issue of an MMA form needs to know. -/
def mmaInfo (head : Nat) (g : Guard) (sy : Sync) (f : Formats) : Info :=
  { head := head, guard := g, sync := sy, sigNow := false, formats := some f }

/-- MMA (R188). DEDUCED, log 7. -/
def execMma (g : Guard) (acc ra rb : BitVec 3) (w : BitVec 6) (sy : Sync) (s : State) : Host.Outcome State Fault Refusal :=
  s.issue (mmaInfo 0xC300 g sy mmaPairs) fun fa fb s => s.mmaIssue .mma acc ra rb w sy fa fb

/-- MMAN (R188). -/
def execMman (g : Guard) (acc ra rb : BitVec 3) (w : BitVec 6) (sy : Sync) (s : State) : Host.Outcome State Fault Refusal :=
  s.issue (mmaInfo 0xC301 g sy mmaPairs) fun fa fb s => s.mmaIssue .mman acc ra rb w sy fa fb

/-- MMAQ (R188). -/
def execMmaq (g : Guard) (acc ra rb : BitVec 3) (w : BitVec 6) (sy : Sync) (s : State) : Host.Outcome State Fault Refusal :=
  s.issue (mmaInfo 0xC302 g sy mmaqPairs) fun fa fb s => s.mmaIssue .mmaq acc ra rb w sy fa fb

/-- MMAI (R188). -/
def execMmai (g : Guard) (acc ra rb : BitVec 3) (w : BitVec 6) (sy : Sync) (s : State) : Host.Outcome State Fault Refusal :=
  s.issue (mmaInfo 0xC303 g sy mmaiPairs) fun fa fb s => s.mmaIssue .mmai acc ra rb w sy fa fb

/-- The poison of n words from an address, as a number with bit i for word i. -/
def Tile.poisonBits (T : Tile) (a n : Nat) : Nat :=
  packElements 1 ((List.range n).map fun i => if T.poisonAt (a + 8 * i) then 1 else 0)

/-- The index of the MMA that is next to retire: the first that has not. -/
def nextToRetire (ms : List Mma) : Option (Nat × Mma) :=
  let i := (ms.takeWhile (·.retired)).length
  ms[i]?.map fun m => (i, m)

/-- MMA_RETIRE (R187): the operands have been read, the slots are popped, the strand goes on. R187 leaves it open
which bytes of a bound bale a store before retirement changes; all are read at this turn. DESIGN CHOICE, log 9. -/
def execMmaRetire (t : Nat) (s : State) : Host.Outcome State Fault Refusal :=
  let T := s.tile t
  match nextToRetire T.mmas with
  | none => .next s
  | some (i, m) =>
    let na := operandBytes m.form m.fa m.groups
    let nb := operandBytes m.form m.fb m.groups
    let a := (T.bale m.slotA).addr
    let b := (T.bale m.slotB).addr
    match s.wakeFor t a na, s.wakeFor t b nb with
    | some s', _ => .next s'
    | none, some s' => .next s'
    | none, none =>
      if !s.sourceReady t m.strand a na ∨ !s.sourceReady t m.strand b nb then .next s
      else
      let m' : Mma := { m with
        retired := true, bytesA := T.readNat a na, poisA := T.poisonBits a (na / 8)
        bytesB := T.readNat b nb, poisB := T.poisonBits b (nb / 8) }
      let unbind (r : Nat) (T : Tile) : Tile := let x := T.ring r; T.setRing r { x with bound := x.bound - 1 }
      let s' := s.updTile t fun T =>
        let T := unbind m.rb.toNat ((unbind m.ra.toNat T).popRing m.ra.toNat) |>.popRing m.rb.toNat
        { T with mmas := T.mmas.set i m' }
      .next (if (s'.strand t m.strand).hold = .mma then s'.retireHeld t m.strand Sync.none else s')

/-- The block number of group g of row or column i (R186). -/
def blockNum (groups i g : Nat) : Nat := groups * i + g

/-- The tag of a block of an MMAQ operand (R186). -/
def operandTag (bytes groups n : Nat) : Nat := bytes / 2 ^ (8 * (1056 * groups + n / 4) + 2 * (n % 4)) % 4

/-- The scale of a block of an MMAQ operand (R186). -/
def operandScale (bytes groups n : Nat) : Nat := element bytes 8 (1024 * groups + n)

/-- Element k of row or column i of an operand (R186, R188). -/
def operandValue (t : Tabs) (form : MmaForm) (fmt bytes groups i k : Nat) : XVal :=
  let b := element bytes (fmtWidth fmt) (i * (32 * groups) + k)
  if form = .mmaq then
    let n := blockNum groups i (k / 32)
    blockDecode t b (operandScale bytes groups n) (operandTag bytes groups n)
  else decodeElem t fmt b
where
  /-- R119. -/
  blockDecode (t : Tabs) (b scale tag : Nat) : XVal :=
    if tag = 3 then .zero
    else if scale = 255 then .nan false
    else (decodeElem t (if tag = 0 then 4 else if tag = 1 then 5 else 7) b).scale2 ((scale : Int) - 127)

/-- row_poison or col_poison (R188): the words of row i, of its scales and of its tags, element words of blocks
tagged 3 excepted. -/
def operandPoison (form : MmaForm) (fmt bytes pois groups i : Nat) : Bool :=
  let word (b : Nat) : Bool := decide (pois / 2 ^ (b / 8) % 2 = 1)
  if form = .mmaq then
    (List.range groups).any fun g =>
      let n := blockNum groups i g
      word (1024 * groups + n) || word (1056 * groups + n / 4) ||
        (decide (operandTag bytes groups n ≠ 3) && (List.range 4).any fun j => word (i * 32 * groups + 32 * g + 8 * j))
  else
    let rowBytes := 4 * groups * fmtWidth fmt
    (List.range (rowBytes / 8)).any fun j => word (i * rowBytes + 8 * j)

/-- abacus_element (R121). A k-group none of whose products is counted (an MMAQ group skipped by tag 3) adds +0 to
the accumulator, which turns -0 into +0 (R188 does not give the sum of no products). DESIGN CHOICE, log 105. -/
def abacusElement (t : Tabs) (m : Mma) (i j : Nat) : Nat → Nat → Nat
  | 0, acc => acc
  | left + 1, acc =>
    let g := m.groups - (left + 1)
    let skip := m.form = .mmaq ∧
      (operandTag m.bytesA m.groups (blockNum m.groups i g) = 3 ∨ operandTag m.bytesB m.groups (blockNum m.groups j g) = 3)
    let ps : List XVal := if skip then [] else (List.range 32).map fun k =>
      let p := (operandValue t m.form m.fa m.bytesA m.groups i (32 * g + k)).mul
        (operandValue t m.form m.fb m.bytesB m.groups j (32 * g + k))
      if m.form = .mman then p.1.neg else p.1
    let gs := (fp32.round (sumX 0 ps).1 0 0).1
    let acc := (fp32.round (sumX 0 [fp32.value acc, fp32.value gs]).1 0 0).1
    abacusElement t m i j left acc

/-- One element of MMAI (R122). -/
def abacusInt (m : Mma) (i j acc : Nat) : Nat :=
  let el (fmt bytes i k : Nat) : Int := intValue fmt (element bytes (fmtWidth fmt) (i * (32 * m.groups) + k))
  wrapNat 32 ((List.range (32 * m.groups)).foldl (fun v k => v + el m.fa m.bytesA i k * el m.fb m.bytesB j k) (signedOf 32 acc))

/-- The working bank after an MMA (R188). -/
def mmaBank (t : Tabs) (m : Mma) (w : Bank) : Bank :=
  Bank.of fun i j =>
    (if m.form = .mmai then abacusInt m i j (w.el i j) else abacusElement t m i j m.groups (w.el i j),
     w.po i j || operandPoison m.form m.fa m.bytesA m.poisA m.groups i || operandPoison m.form m.fb m.bytesB m.poisB m.groups j)

/-- The syndrome of a mismatch (R230). -/
def Tile.syndrome (T : Tile) (unit : BitVec 3) (lane : BitVec 6) : Nat :=
  unit.toNat + 8 * lane.toNat + (if T.persist.contains (unit.toNat, lane.toNat) then 512 else 0)

/-- A mismatch: LASTSYN takes the syndrome, and a unit and lane with PERSIST = 1 are noted for the next decision (R231, R233). -/
def Tile.noteMismatch (T : Tile) (unit : BitVec 3) (lane : BitVec 6) : Tile :=
  { T with
    chkstat := withBits T.chkstat 32 10 (T.syndrome unit lane)
    faulty := if T.persist.contains (unit.toNat, lane.toNat) then T.faulty ++ [(unit.toNat, lane.toNat)] else T.faulty }

/-- A first mismatch that the re-execution does not repeat: RETRY counts (R230, R231). -/
def Tile.noteRetry (T : Tile) (unit : BitVec 3) (lane : BitVec 6) : Tile :=
  let r := bitsOf T.chkstat 0 16
  { T with chkstat := withBits T.chkstat 0 16 (if r < 65535 then r + 1 else r) }.noteMismatch unit lane

/-- A second mismatch of one instruction: the unit and lane are noted for PERSIST (R230); two first ones do not count. DESIGN CHOICE,
log 118. -/
def Tile.noteFail (T : Tile) (unit : BitVec 3) (lane : BitVec 6) : Tile :=
  { T with twice := T.twice ++ [(unit.toNat, lane.toNat)] }.noteMismatch unit lane

/-- What the checks of a form's k-groups leave, in their order: each one that its re-execution did not repeat counts in RETRY; the flag
says that a second mismatch ended the form (R230). -/
def Tile.noteChecks (T : Tile) : List Check → Tile × Bool
  | [] => (T, false)
  | .match :: rest => Tile.noteChecks T rest
  | .retried u l :: rest => Tile.noteChecks (T.noteRetry u l) rest
  | .failed u l :: _ => (T.noteFail u l, true)

/-- MMA_COMPLETE (R187, R188, R230): the working bank is written and the signal delivered, or a second mismatch of a
k-group makes the tile vote ABORT. -/
def execMmaComplete (t : Nat) (chks : List Check) (s : State) : Host.Outcome State Fault Refusal :=
  let T := s.tile t
  match T.mmas with
  | [] => .next s
  | m :: rest =>
    if !m.retired then .next s
    else
      let drop (T : Tile) : Tile := { T with mmas := rest }
      let write (T : Tile) : Tile :=
        drop (T.setBank m.acc.toNat (T.workingBank m.acc.toNat)
          (mmaBank T.tabs m (T.bank m.acc.toNat (T.workingBank m.acc.toNat))))
      let c := T.noteChecks chks
      if c.2 then .next ((s.setTile t (drop c.1)).failTile t 1 0x0D)
      else .next ((s.setTile t (write c.1)).engineSignal t m.sy)

/-! ## Accumulator instructions (R189-R192) -/

/-- ACCZ (R190). -/
def execAccz (g : Guard) (acc : BitVec 3) (s : State) : Host.Outcome State Fault Refusal :=
  s.issue { head := 0xC500, guard := g } fun _ _ s =>
    if s.myTile.accHeld acc then .retry s
    else .done (s.updMyTile fun T => T.setBank acc.toNat (!T.workingBank acc.toNat) {})

/-- ACCSW: its strand is held until the swap (R190). DEDUCED, log 27. -/
def execAccsw (g : Guard) (acc : BitVec 3) (sy : Sync) (s : State) : Host.Outcome State Fault Refusal :=
  s.issue { head := 0xC701, guard := g, sync := sy, sigNow := s.me.guardedOff g } fun _ _ s =>
    if s.myTile.accHeld acc then .retry s else .hold s (.accsw acc sy)

/-- The strand of a tile that holds for an event. -/
def Tile.holder (T : Tile) (p : Hold → Bool) : Option Nat := (T.strands.find? fun kx => p kx.2.hold).map (·.1)

/-- Retires a swap with its signal, or raises SEM_OVERFLOW with no effect, giving back its wait (R57). -/
def State.retireSwap (s : State) (t k : Nat) (sy : Sync) (effect : State → State) : State :=
  if sy.sinc ≠ 0 ∧ (s.tile t).semOver sy.ssem.toNat sy.sinc.toNat then
    let r := { s with curTile := t, curStrand := k }.refundWait sy
    { r with curTile := s.curTile, curStrand := s.curStrand }.trapHeld t k 0x14 (sy.ssem.setWidth 64)
  else (effect s).retireHeld t k sy

/-- ACCUMULATOR_SWAP (R190): once every MMA on the accumulator has completed. -/
def execAccumulatorSwap (t : Nat) (acc : BitVec 3) (s : State) : Host.Outcome State Fault Refusal :=
  let T := s.tile t
  match T.holder (fun h => match h with | .accsw a _ => a == acc | _ => false) with
  | none => .next s
  | some k =>
    if (T.mmas.any fun m => m.acc == acc) || (T.accMoves.find acc.toNat).isSome then .next s
    else
      match (s.strand t k).hold with
      | .accsw _ sy =>
        .next (s.retireSwap t k sy fun s => s.updTile t fun T => { T with working := T.working ^^^ BitVec.ofNat 8 (1 <<< acc.toNat) })
      | _ => .next s

/-- Pairs of formats of ACCRD and ACCST (R185). -/
def accOut : Formats := ⟨fun a b => (decide (a = 0) && decide (b ≤ 3)) || (decide (a = 11) && decide (b = 11)), 0, 0⟩
/-- Pairs of formats of ACCWR and ACCLD. -/
def accIn : Formats := ⟨fun a b => (decide (b = 0) && decide (a ≤ 3)) || (decide (a = 11) && decide (b = 11)), 0, 0⟩

/-- A tile's conversion of one element between register or memory and accumulator (R110, R191). -/
def Tile.accConvert (T : Tile) (fa fb rm b : Nat) : Nat × Flags := roundElem T.tabs fb (decodeElem T.tabs fa b) rm T.ctl.seed

/-- ACCRD (R191). -/
def execAccrd (g : Guard) (vd : VReg) (acc : BitVec 3) (row : BitVec 5) (s : State) : Host.Outcome State Fault Refusal :=
  s.issue { head := 0xC602, guard := g, formats := some accOut } fun fa fb s =>
    let T := s.myTile
    if T.accHeld acc then .retry s
    else
      let b := T.visible acc.toNat
      let w := fmtWidth fb
      let rs := (List.range 32).map fun j => T.accConvert fa fb s.me.rm (b.el row.toNat j)
      let per := 32 / w
      let t : BitVec 64 := BitVec.ofNat 64 (packElements 1 ((List.range (32 / per)).map fun i =>
        if (List.range per).any fun j => b.po row.toNat (i * per + j) then 1 else 0))
      .done (s.updMe fun x =>
        (x.vwr vd (BitVec.ofNat 2048 (packElements w (rs.map (·.1)))) t).raiseFlags (rs.foldl (fun (f : Flags) r => f.or r.2) {}))

/-- ACCWR (R191). -/
def execAccwr (g : Guard) (vs : VReg) (acc : BitVec 3) (row : BitVec 5) (s : State) : Host.Outcome State Fault Refusal :=
  s.issue { head := 0xC603, guard := g, formats := some accIn } fun fa fb s =>
    let T := s.myTile
    if T.accHeld acc then .retry s
    else
      let x := s.me
      let w := fmtWidth fa
      let v := (x.vrd vs).toNat
      let rs := (List.range 32).map fun j => T.accConvert fa fb x.rm (element v w j)
      let elems := ((List.range 32).zip rs).map fun jr => (jr.2.1, (x.vt vs).getLsbD (jr.1 * w / 32))
      let fl := rs.foldl (fun (f : Flags) r => f.or r.2) {}
      .done ((s.updMyTile fun T =>
        T.setBank acc.toNat (!T.workingBank acc.toNat) ((T.visible acc.toNat).withRow row.toNat elems)).updMe fun x => x.raiseFlags fl)

/-- The first byte of the 32 rows that lies in a region that fails a test (R192). -/
def Tile.badRow (T : Tile) (p : Region → Bool) (a stride len : Nat) : Option Nat :=
  (List.range 32).findSome? fun r =>
    if T.rangeIs p (a + r * stride) len then none else T.firstBad p (a + r * stride) len

/-- The first line, in row order, that needs a delta frame when none is left for it (R192). -/
def Tile.fullLine (T : Tile) (as : List Nat) : Option Nat :=
  ((T.newLines as).drop T.mem.free.length).head?

/-- The first poisoned element of a bank, by row and column. -/
def Bank.firstPoison (b : Bank) : Option (Nat × Nat) :=
  ((List.range 1024).find? fun n => b.poison.getLsbD n).map fun n => (n / 32, n % 32)

/-- The checks and issue of ACCST and ACCLD (R192). -/
def State.accMove (s : State) (load : Bool) (acc : BitVec 3) (y z : SReg) (sy : Sync) (fa fb : Nat) : Eff :=
  let T := s.myTile
  let x := s.me
  let a := (x.rd y).toNat
  let stride := (x.rd z).toNat
  let w := fmtWidth (if load then fa else fb)
  let len := 4 * w
  let region : Region → Bool := if load then Region.readable else Region.vs
  if T.accHeld acc then .retry s
  else match x.lowPoison [y, z] with
  | some r => .trap 0x09 (r.setWidth 64)
  | none =>
    if a % 8 ≠ 0 then .trap 0x05 (x.rd y)
    else if stride % 8 ≠ 0 then .trap 0x05 (x.rd z)
    else match T.badRow region a stride len with
    | some b => .trap 0x06 (BitVec.ofNat 64 b)
    | none =>
      match if load then none else (T.visible acc.toNat).firstPoison with
      | some (r, c) => .trapLate 0x07 (BitVec.ofNat 64 (a + r * stride + c * w / 8))
      | none =>
        let lines := (List.range 32).flatMap fun r => (List.range (len / 64 + 1)).map fun i =>
          a + r * stride + (if 64 * i < len then 64 * i else len - 1)
        match if load then none else T.fullLine lines with
        | some l => .trapLate 0x0B (BitVec.ofNat 64 (0x8000 + 128 * l))
        | none =>
          let m : AccMove := ⟨load, a, stride, fa, fb, x.rm, s.curStrand, x.routine, sy, [], s.netOrd⟩
          let s' := (lines.filter T.gatedAt).foldl (fun s a => s.startWake s.curTile a) s
          .done { s'.updMyTile (fun T => { T with accMoves := T.accMoves.insert acc.toNat m }) with netOrd := s'.netOrd + 1 }

/-- ACCST (R192). -/
def execAccst (g : Guard) (acc : BitVec 3) (y z : SReg) (sy : Sync) (s : State) : Host.Outcome State Fault Refusal :=
  s.issue { head := 0xC704, guard := g, sync := sy, sigNow := false, formats := some accOut } fun fa fb s =>
    s.accMove false acc y z sy fa fb

/-- ACCLD (R192). -/
def execAccld (g : Guard) (acc : BitVec 3) (y z : SReg) (sy : Sync) (s : State) : Host.Outcome State Fault Refusal :=
  s.issue { head := 0xC705, guard := g, sync := sy, sigNow := false, formats := some accIn } fun fa fb s =>
    s.accMove true acc y z sy fa fb

/-- Words of a row of an ACCST or an ACCLD. -/
def AccMove.perRow (m : AccMove) : Nat := fmtWidth (if m.load then m.fa else m.fb) / 2

/-- The address of word i of an ACCST or an ACCLD, counted by row. -/
def AccMove.addrOf (m : AccMove) (i : Nat) : Nat := m.addr + i / m.perRow * m.stride + 8 * (i % m.perRow)

/-- Word i of an ACCST is to be written: it has not moved, nor has a word of a higher row at its address, which it may not replace (R192). -/
def AccMove.writes (m : AccMove) (i : Nat) : Bool :=
  !m.moved.any fun x => decide (x.1 = i) || (decide (i / m.perRow < x.1 / m.perRow) && decide (m.addrOf x.1 = m.addrOf i))

/-- The words of row r of a bank as ACCST stores them, with the flags of their conversions. -/
def Tile.storeRow (T : Tile) (m : AccMove) (b : Bank) (r : Nat) : List (Word × Bool) × Flags :=
  let w := fmtWidth m.fb
  let rs := (List.range 32).map fun j => T.accConvert m.fa m.fb m.rm (b.el r j)
  let v := packElements w (rs.map (·.1))
  ((List.range (4 * w / 8)).map fun i => (BitVec.ofNat 64 (element v 64 i), false),
   rs.foldl (fun (f : Flags) r => f.or r.2) {})

/-- Word i that an ACCLD reads: as it has moved ahead of the rest, or as it stands (R192, R270). -/
def Tile.loadWord (T : Tile) (m : AccMove) (i : Nat) : Word × Bool :=
  match m.moved.find? fun x => decide (x.1 = i) with
  | some x => x.2
  | none => (BitVec.ofNat 64 (T.readNat (m.addrOf i) 8), T.poisonAt (m.addrOf i))

/-- An engine's writes of words at some addresses, in order (R129); none when a delta cannot be had. -/
def Tile.putWords (T : Tile) : List (Nat × Word × Bool) → Option Wrote
  | [] => some ⟨T, false⟩
  | w :: rest =>
    (T.writeWords false w.1 [w.2]).bind fun r => (Tile.putWords r.tile rest).map fun r' => ⟨r'.tile, r.conflict || r'.conflict⟩

/-- Row r of memory as ACCLD loads it, with the flags of its conversions. -/
def Tile.loadRow (T : Tile) (m : AccMove) (r : Nat) : List (Nat × Bool) × Flags :=
  let w := fmtWidth m.fa
  let ws := (List.range m.perRow).map fun i => T.loadWord m (r * m.perRow + i)
  let v := packElements 64 (ws.map (·.1.toNat))
  let rs := (List.range 32).map fun j => T.accConvert m.fa m.fb m.rm (element v w j)
  (((List.range 32).zip rs).map fun jr => (jr.2.1, (ws.getD (jr.1 * w / 64) (0, false)).2), rs.foldl (fun (f : Flags) r => f.or r.2) {})

/-- Writes the rows of an ACCST in order, but for words that have moved ahead; none when a delta cannot be had. -/
def Tile.storeRows (T : Tile) (m : AccMove) (b : Bank) : List Nat → Option (Wrote × Flags)
  | [] => some (⟨T, false⟩, {})
  | r :: rest =>
    let row := T.storeRow m b r
    let words := (((List.range m.perRow).zip row.1).filter fun iw => m.writes (r * m.perRow + iw.1)).map fun iw =>
      (m.addrOf (r * m.perRow + iw.1), iw.2)
    (T.putWords words).bind fun w =>
      (Tile.storeRows w.tile m b rest).map fun w' => (⟨w'.1.tile, w.conflict || w'.1.conflict⟩, row.2.or w'.2)

/-- ORs the flags of a completed ACCST or ACCLD into the STATUS of the routine that issued it (R192, R28). DEDUCED, log 34. -/
def State.lateFlags (s : State) (t k : Nat) (routine : BitVec 16) (f : Flags) : State :=
  let x := s.strand t k
  if x.run ≠ .idle ∧ x.routine = routine then s.setStrand t k (x.raiseFlags f) else s

/-- ACCST_COMPLETE, of an ACCST or an ACCLD (R192); it waits for a segment that is waking (R140). -/
def execAccstComplete (t : Nat) (acc : BitVec 3) (s : State) : Host.Outcome State Fault Refusal :=
  let T := s.tile t
  match T.accMoves.find acc.toNat with
  | none => .next s
  | some m =>
    let len := 4 * fmtWidth (if m.load then m.fa else m.fb)
    let gated := (List.range 32).any fun r =>
      T.gatedAt (m.addr + r * m.stride) || T.gatedAt (m.addr + r * m.stride + len - 1)
    let drop (T : Tile) : Tile := { T with accMoves := T.accMoves.erase acc.toNat }
    if gated then .next ((List.range 32).foldl (fun s r => (s.wakeFor t (m.addr + r * m.stride) len).getD s) s)
    else if (List.range 32).any fun r => !s.storesBefore t m.strand (m.addr + r * m.stride) len m.ord then .next s
    else if m.load then
      let rows := (List.range 32).map fun r => T.loadRow m r
      let elems := rows.map (·.1)
      let b := Bank.of fun i j => ((elems.getD i []).getD j (0, false))
      let fl := rows.foldl (fun (f : Flags) r => f.or r.2) {}
      .next (((s.updTile t fun T => drop (T.setBank acc.toNat (!T.workingBank acc.toNat) b)).lateFlags t m.strand m.routine fl).engineSignal t m.sy)
    else
      match T.storeRows m (T.visible acc.toNat) (List.range 32) with
      | some (w, fl) =>
        .next ((((s.setTile t (drop w.tile)).noteConflict t w.conflict).lateFlags t m.strand m.routine fl).engineSignal t m.sy)
      | none => .next ((s.updTile t drop).failTile t 1 0x0B)

/-- Word i of an ACCST or an ACCLD of a tile moves ahead of the rest (R192, R270). -/
def State.moveAccWord (s : State) (t : Nat) (acc : Nat) (i : Nat) : State :=
  let T := s.tile t
  match T.accMoves.find acc with
  | none => s
  | some m =>
    let a := m.addrOf i
    let keep (x : Word × Bool) (T : Tile) : Tile := { T with accMoves := T.accMoves.insert acc { m with moved := m.moved ++ [(i, x)] } }
    if 32 * m.perRow ≤ i ∨ m.moved.any (fun x => decide (x.1 = i)) ∨ !s.storesBefore t m.strand a 8 m.ord then s
    else if T.gatedAt a then s.startWake t a
    else if m.load then s.updTile t (keep (T.loadWord m i))
    else
      let x := ((T.storeRow m (T.visible acc) (i / m.perRow)).1).getD (i % m.perRow) (0, false)
      if !m.writes i then s.updTile t (keep x)
      else match T.putWords [(a, x)] with
      | some w => ((s.setTile t w.tile).updTile t (keep x)).noteConflict t w.conflict
      | none => s

/-! ## Decode tables (R193-R196) -/

/-- The key of an entry of a table's live or shadow array. -/
def tableKey (tbl shadow : Bool) (c : Nat) : Nat := (if tbl then 512 else 0) + (if shadow then 256 else 0) + c

/-- TBLW: entries 64q to 64q + 63 of the shadow array (R194). -/
def execTblw (g : Guard) (vs : VReg) (q : BitVec 2) (tbl : Bool) (s : State) : Host.Outcome State Fault Refusal :=
  s.issue { head := 0xCA00, guard := g } fun _ _ s =>
    let x := s.me
    match (List.range 64).find? (x.vt vs).getLsbD with
    | some i => .trap 0x07 (BitVec.ofNat 64 ((if tbl then 256 else 0) + 64 * q.toNat + i))
    | none =>
      .done (s.updMyTile fun T =>
        { T with ctl := { T.ctl with tables := (List.range 64).foldl (fun m i =>
            m.set (tableKey tbl true (64 * q.toNat + i)) 0 ((lane (x.vrd vs) i).setWidth 19)) T.ctl.tables } })

/-- TBLSW: its strand is held until the swap (R116, R195). -/
def execTblsw (g : Guard) (tbl : Bool) (sy : Sync) (s : State) : Host.Outcome State Fault Refusal :=
  s.issue { head := 0xCB01, guard := g, sync := sy, sigNow := s.me.guardedOff g } fun _ _ s =>
    if s.myTile.swapping tbl then .retry s else .hold s (.tblsw tbl sy)

/-- The arrays after an exchange of a table's live and shadow (R116). -/
def swapArrays (tbl : Bool) (m : SMap (BitVec 19)) : SMap (BitVec 19) :=
  let base := if tbl then 512 else 0
  let inside (lo : Nat) := m.filter fun kv => decide (lo ≤ kv.1) && decide (kv.1 < lo + 256)
  (m.filter fun kv => decide (kv.1 < base)) ++ (inside (base + 256)).map (fun kv => (kv.1 - 256, kv.2)) ++
    (inside base).map (fun kv => (kv.1 + 256, kv.2)) ++ (m.filter fun kv => decide (base + 512 ≤ kv.1))

/-- TABLE_SWAP (R116, R195): once every operation bound to the live array has completed. -/
def execTableSwap (t : Nat) (tbl : Bool) (s : State) : Host.Outcome State Fault Refusal :=
  let T := s.tile t
  match T.holder (fun h => match h with | .tblsw b _ => b == tbl | _ => false) with
  | none => .next s
  | some k =>
    if T.mmas.any fun m => (mmaTables m.form m.fa m.fb).contains tbl then .next s
    else match (s.strand t k).hold with
    | .tblsw _ sy =>
      .next (s.retireSwap t k sy fun s => s.updTile t fun T => { T with ctl := { T.ctl with tables := swapArrays tbl T.ctl.tables } })
    | _ => .next s

/-- TBLRD, from the live or the shadow array (R196). -/
def execTblrd (g : Guard) (vd : VReg) (q : BitVec 2) (tbl shadow : Bool) (s : State) : Host.Outcome State Fault Refusal :=
  s.issue { head := 0xCA02, guard := g } fun _ _ s =>
    let T := s.myTile
    if !shadow && T.swapping tbl then .retry s
    else
      let v := (List.range 64).map fun i => (T.ctl.tables.get (tableKey tbl shadow (64 * q.toNat + i)) 0).toNat
      .done (s.updMe fun x => x.vwr vd (BitVec.ofNat 2048 (packElements 32 v)) 0)

end Sys2Proof.Machine
end

