-- ==== Sys2Proof/Machine/Memory.lean ====
section
/-! DEFINITION. Scalar loads and stores, the synchronising class and the fences (R85-R88, R96, R97). -/

namespace Sys2Proof.Machine

/-- The checks of R85 on [a + imm] for an access of n bytes: POISON_ADDRESS, MISALIGNED, PROTECTION by the
region, POISON_STORE of the data register of a store, the wake of a gated segment (R140), and the strand's immediate stores to
the word (R265, R266). -/
def State.memAccess (s : State) (a : SReg) (imm : BitVec 15) (n : Nat) (ok : Region → Bool) (data : Option SReg)
    (k : Nat → Eff) : Eff :=
  let x := s.me
  let ea := eaOf (x.rd a) imm.toInt
  if x.tag a then .trap 0x09 (a.setWidth 64)
  else if ea % (n : Int) ≠ 0 then .trap 0x05 (wordOf ea)
  else match tileAddr ea with
  | none => .trap 0x06 (wordOf ea)
  | some e =>
    if !ok (s.myTile.region e) then .trap 0x06 (wordOf ea)
    else if (match data with | some d => x.tag d | none => false) then .trap 0x07 (wordOf ea)
    else if s.myTile.gatedAt e then .retry (s.startWake s.curTile e)
    else if s.storePending s.curTile e then .retry s
    else k e

/-- Sign extension of n bytes read (R85). -/
def loadExtend (n v : Nat) : Word := BitVec.ofInt 64 (signedOf (8 * n) v)

/-- The effect of a load of n bytes at e (R30, R85). DESIGN CHOICE, log 9. -/
def State.loadInto (s : State) (d : SReg) (n e : Nat) : State :=
  s.updMe fun x => x.wr d (loadExtend n (s.myTile.readNat e n)) (s.myTile.poisonAt e)

/-- LD and LDV. -/
def State.load (s : State) (sz : Size) (d a : SReg) (imm : BitVec 15) : Eff :=
  s.memAccess a imm sz.bytes Region.readable none fun e => .done (s.loadInto d sz.bytes e)

/-- A store of n bytes of a strand at e, DELTA_FULL when it needs a delta that cannot be had (R85). -/
def State.storeAt (s : State) (n e : Nat) (v : Word) : Eff :=
  match s.myTile.store e (toBytes n v.toNat) with
  | some w => .done ((s.setTile s.curTile w.tile).noteConflict s.curTile w.conflict)
  | none => .trap 0x0B (BitVec.ofNat 64 e)

/-- The segments a store reaches: V and S, and no V segment for an immediate inline message (R85, R227). -/
def State.storable (s : State) (r : Region) : Bool :=
  r.vs && !(decide (s.curStrand = 4) && s.me.immediate && r.isV)

/-- ST and STV. -/
def State.storeReg (s : State) (sz : Size) (d a : SReg) (imm : BitVec 15) : Eff :=
  s.memAccess a imm sz.bytes s.storable (some d) fun e => s.storeAt sz.bytes e (s.me.rd d)

/-- LD (R86). -/
def execLd (g : Guard) (sz : Size) (d a : SReg) (imm : BitVec 15) (s : State) : Host.Outcome State Fault Refusal :=
  s.issue { head := 0x6200 + sz.code.toNat, guard := g, msgOk := true, regs := [d, a] } fun _ _ s => s.load sz d a imm

/-- ST (R86). -/
def execSt (g : Guard) (sz : Size) (d a : SReg) (imm : BitVec 15) (s : State) : Host.Outcome State Fault Refusal :=
  s.issue { head := 0x6204 + sz.code.toNat, guard := g, msgOk := true, regs := [d, a] } fun _ _ s => s.storeReg sz d a imm

/-- LDV (R87). -/
def execLdv (g : Guard) (sz : Size) (d a : SReg) (imm : BitVec 15) (s : State) : Host.Outcome State Fault Refusal :=
  s.issue { head := 0x6208 + sz.code.toNat, guard := g } fun _ _ s => s.load sz d a imm

/-- STV (R87). -/
def execStv (g : Guard) (sz : Size) (d a : SReg) (imm : BitVec 15) (s : State) : Host.Outcome State Fault Refusal :=
  s.issue { head := 0x620C + sz.code.toNat, guard := g } fun _ _ s => s.storeReg sz d a imm

/-- The full/empty bit of the word at a data address (R129). -/
def Tile.full (T : Tile) (e : Nat) : Bool := T.mem.full.getLsbD (wordIx e)

/-- Sets the full/empty bit of the word at a data address. -/
def Tile.setFull (T : Tile) (e : Nat) (b : Bool) : Tile :=
  { T with mem := { T.mem with full := withBit T.mem.full (wordIx e) b } }

/-- LDS.D and LDS.D.E (R88): parks until the word is full. -/
def State.loadSync (s : State) (empty : Bool) (d a : SReg) (imm : BitVec 15) : Eff :=
  s.memAccess a imm 8 Region.isS none fun e =>
    if s.myTile.full e then
      let s' := s.loadInto d 8 e
      .done (if empty then s'.updMyTile fun T => T.setFull e false else s')
    else .park .word

/-- LDS.D (R88). -/
def execLdsD (g : Guard) (d a : SReg) (imm : BitVec 15) (s : State) : Host.Outcome State Fault Refusal :=
  s.issue { head := 0x6210, guard := g } fun _ _ s => s.loadSync false d a imm

/-- LDS.D.E (R88). -/
def execLdsDE (g : Guard) (d a : SReg) (imm : BitVec 15) (s : State) : Host.Outcome State Fault Refusal :=
  s.issue { head := 0x6211, guard := g } fun _ _ s => s.loadSync true d a imm

/-- Every IST and ISTF that the strand whose turn it is has issued has been performed (R88, R97, R250). -/
def State.storesLanded (s : State) : Bool :=
  s.ists.all fun i => i.landed || decide (i.src ≠ s.curTile) || decide (i.strand ≠ s.curStrand)

/-- STF.D (R88), a release: it waits until the strand's earlier immediate stores are visible. -/
def execStfD (g : Guard) (d a : SReg) (imm : BitVec 15) (s : State) : Host.Outcome State Fault Refusal :=
  s.issue { head := 0x6214, guard := g } fun _ _ s =>
    s.memAccess a imm 8 Region.isS (some d) fun e =>
      if s.storesLanded then
        .done (s.updMyTile fun T => (T.writeS false e (toBytes 8 (s.me.rd d).toNat) false).setFull e true)
      else .retry s

/-- The fence's scope covers the agents that immediate stores reach (R263, R268). -/
def reachesGang : Scope → Bool
  | .g => true | .d => true | .y => true | _ => false

/-- A FENCE can complete: from scope .g on the strand's immediate stores have been performed (R97, R268). DEDUCED, log 17. -/
def State.fenceClear (s : State) (sc : Scope) : Bool := !reachesGang sc || s.storesLanded

/-- No PUT, GET, PUTV or GETV that the strand issued is outstanding (R97). -/
def State.transfersDone (s : State) : Bool := s.myTile.xq.all fun e => decide (e.strand ≠ s.curStrand)

/-- FENCE (R97). -/
def execFence (sc : Scope) (s : State) : Host.Outcome State Fault Refusal :=
  s.issue { head := 0x7800 + sc.code.toNat } fun _ _ s => if s.fenceClear sc then .done s else .retry s

/-- The name under which a tile's writes in views are kept: its gang and gang tile index, or gang 0 and a steward tile's key. -/
def State.viewer (s : State) (t : Nat) : Nat × Nat := if isSteward t then (0, t) else ((s.tile t).gang, (s.tile t).gti)

/-- The scope reaches HBM in every view (R276). -/
def reachesViews : Scope → Bool
  | .d => true | .y => true | _ => false

/-- The writes that the strand whose turn it is has made in views become visible through every other view (R276). -/
def State.pushViews (s : State) : State :=
  let v := s.viewer s.curTile
  { s with viewWrites := leftViews (fun w => decide (w.gang = v.1) && decide (w.gti = v.2) && decide (w.strand = s.curStrand)) s.viewWrites }

/-- VFENCE (R97, R276): at every scope it waits for the strand's transfers; .d and .y push its writes in views. -/
def execVfence (sc : Scope) (s : State) : Host.Outcome State Fault Refusal :=
  s.issue { head := 0x7808 + sc.code.toNat } fun _ _ s =>
    if s.fenceClear sc ∧ s.transfersDone then .done (if reachesViews sc then s.pushViews else s) else .retry s

end Sys2Proof.Machine
end

