-- ==== Sys2Proof/Machine/Cipher.lean ====
section
/-! DEFINITION. AES-256-XTS in data units of 64 bytes (R347). A 16-byte block is a list of 16 bytes, first byte first; byte 4c + r
stands at row r and column c of the cipher's square. PRESUMED, log 106. -/

namespace Sys2Proof.Machine

/-! ## The field of 256 elements -/

/-- Multiplication by x, modulo x^8 + x^4 + x^3 + x + 1. -/
def gfDouble (a : Byte) : Byte := if a.getLsbD 7 then (a <<< 1) ^^^ 0x1B else a <<< 1

/-- The product of two field elements, over the n low bits of the second. -/
def gfMulBits (a b : Byte) : Nat → Byte
  | 0 => 0
  | n + 1 => gfMulBits a b n ^^^ (if b.getLsbD n then (List.range n).foldl (fun x _ => gfDouble x) a else 0)

/-- The product of two field elements. -/
def gfMul (a b : Byte) : Byte := gfMulBits a b 8

/-- The inverse of a field element, a^254; that of 0 is 0. -/
def gfInv (a : Byte) : Byte :=
  let a2 := gfMul a a
  let a4 := gfMul a2 a2
  let a8 := gfMul a4 a4
  let a16 := gfMul a8 a8
  let a32 := gfMul a16 a16
  let a64 := gfMul a32 a32
  let a128 := gfMul a64 a64
  gfMul (gfMul (gfMul a2 a4) (gfMul a8 a16)) (gfMul (gfMul a32 a64) a128)

/-- The S-box. -/
def sbox (a : Byte) : Byte :=
  let b := gfInv a
  b ^^^ b.rotateLeft 1 ^^^ b.rotateLeft 2 ^^^ b.rotateLeft 3 ^^^ b.rotateLeft 4 ^^^ 0x63

/-- The inverse S-box. -/
def invSbox (a : Byte) : Byte := gfInv (a.rotateLeft 1 ^^^ a.rotateLeft 3 ^^^ a.rotateLeft 6 ^^^ 0x05)

/-! ## Rounds -/

/-- The exclusive or of two byte lists. -/
def xorBytes (a b : List Byte) : List Byte := List.zipWith (· ^^^ ·) a b

/-- Byte i of a block. -/
def blockAt (b : List Byte) (i : Nat) : Byte := b.getD i 0

/-- The rows shifted: row r moves r columns to the left. -/
def shiftRows (b : List Byte) : List Byte := (List.range 16).map fun i => blockAt b ((i + 4 * (i % 4)) % 16)

/-- The rows shifted back. -/
def invShiftRows (b : List Byte) : List Byte := (List.range 16).map fun i => blockAt b ((i + 12 * (i % 4)) % 16)

/-- The columns multiplied by a circulant matrix with first row m. -/
def mixWith (m : List Byte) (b : List Byte) : List Byte :=
  (List.range 16).map fun i =>
    let c := i / 4 * 4
    (List.range 4).foldl (fun x j => x ^^^ gfMul (m.getD ((j + 4 - i % 4) % 4) 0) (blockAt b (c + j))) 0

/-- The next four bytes of a key schedule, from those before it, newest first. -/
def scheduleWord256 (i : Nat) (ws : List (List Byte)) : List Byte :=
  let t := ws.headD []
  let rcon (n : Nat) : Byte := (List.range (n - 1)).foldl (fun x _ => gfDouble x) 1
  let t :=
    if i % 8 = 0 then
      xorBytes (((List.range 4).map fun j => sbox (t.getD ((j + 1) % 4) 0))) [rcon (i / 8), 0, 0, 0]
    else if i % 8 = 4 then t.map sbox
    else t
  xorBytes (ws.getD 7 []) t

/-- The words of a key schedule beyond the first eight, newest first. -/
def expandKey : Nat → List (List Byte) → List (List Byte)
  | 0, ws => ws
  | n + 1, ws => expandKey n (scheduleWord256 (60 - (n + 1)) ws :: ws)

/-- The fifteen round keys of a 32-byte key. -/
def roundKeys (key : List Byte) : List (List Byte) :=
  let first := ((List.range 8).map fun i => (key.drop (4 * i)).take 4).reverse
  let ws := (expandKey 52 first).reverse
  (List.range 15).map fun r => ((ws.drop (4 * r)).take 4).flatMap id

/-- A block enciphered under some round keys. -/
def aesEncrypt (rk : List (List Byte)) (b : List Byte) : List Byte :=
  let b := (List.range 13).foldl (fun b r => xorBytes (mixWith [2, 3, 1, 1] (shiftRows (b.map sbox))) (rk.getD (r + 1) [])) (xorBytes b (rk.getD 0 []))
  xorBytes (shiftRows (b.map sbox)) (rk.getD 14 [])

/-- A block deciphered under some round keys. -/
def aesDecrypt (rk : List (List Byte)) (b : List Byte) : List Byte :=
  let b := (List.range 13).foldl (fun b r => mixWith [14, 11, 13, 9] (xorBytes ((invShiftRows b).map invSbox) (rk.getD (13 - r) []))) (xorBytes b (rk.getD 14 []))
  xorBytes ((invShiftRows b).map invSbox) (rk.getD 0 [])

/-! ## Data units -/

/-- The tweak block of the j-th block of a unit: the enciphered tweak times x^j. -/
def tweakAt (t : List Byte) : Nat → List Byte
  | 0 => t
  | j + 1 =>
    let n := ofBytes (tweakAt t j)
    toBytes 16 ((if 2 ^ 127 ≤ n then 2 * n % 2 ^ 128 ^^^ 0x87 else 2 * n))

/-- A unit with each block masked, put through a block function, and masked. -/
def xtsUnit (f : List Byte → List Byte) (key : BitVec 512) (tweak : Nat) (u : BitVec 512) : BitVec 512 :=
  let kb := toBytes 64 key.toNat
  let t := aesEncrypt (roundKeys (kb.drop 32)) (toBytes 16 tweak)
  let bs := toBytes 64 u.toNat
  BitVec.ofNat 512 (ofBytes ((List.range 4).flatMap fun j =>
    let m := tweakAt t j
    xorBytes (f (xorBytes ((bs.drop (16 * j)).take 16) m)) m))

/-- A 64-byte unit enciphered (R347): the data key in bytes 0-31 of the key record, the tweak key in bytes 32-63. PRESUMED, log 106. -/
def xtsEncrypt (key : BitVec 512) (tweak : Nat) (u : BitVec 512) : BitVec 512 :=
  xtsUnit (aesEncrypt (roundKeys ((toBytes 64 key.toNat).take 32))) key tweak u

/-- A 64-byte unit deciphered (R347). -/
def xtsDecrypt (key : BitVec 512) (tweak : Nat) (u : BitVec 512) : BitVec 512 :=
  xtsUnit (aesDecrypt (roundKeys ((toBytes 64 key.toNat).take 32))) key tweak u

end Sys2Proof.Machine
end

