-- ==== Sys2Proof/Machine/Translate.lean ====
section
/-! DEFINITION. Translation (R285, R286, R288, R289), views (R291-R293), the protection lookaside buffer (R153-R155),
gang tile addresses (R402) and the plain reads and writes of memory outside the tiles (R301, R347, R348, R351). -/

namespace Sys2Proof.Machine

/-! ## Tier addresses -/

/-- Where the second tier and host memory stand in the model's one memory: HBM at 0, the second tier at 2^48,
host memory at 2^49. -/
def tierBase (tier : Nat) : Nat := if tier = 1 then 2 ^ 48 else if tier = 2 then 2 ^ 49 else 0

/-- A tier address that the package has: eight stacks of 2^36 bytes (R286), a second tier of 2^42 bytes (R351), host
memory up to 2^48. -/
def tierHolds (tier addr : Nat) : Bool := decide (addr < (if tier = 1 then 2 ^ 42 else if tier = 2 then 2 ^ 48 else 2 ^ 39))

/-- A partition control block's doubleword (R345). -/
def Part.pcbWord (p : Part) (dw : Nat) : Word :=
  match dw with
  | 0 => p.root.setWidth 64
  | 1 => BitVec.ofNat 64 (p.dlo.toNat + p.dhi.toNat * 2 ^ 16 + p.alimit.toNat * 2 ^ 32)
  | 2 => BitVec.ofNat 64 (p.rquota.toNat + p.pquota.toNat * 2 ^ 32)
  | 3 => p.hkey
  | n => BitVec.ofNat 64 (bitsOf p.clusters (64 * (n - 4)) 64)

/-- A partition control block with a doubleword replaced; reserved fields stay 0. -/
def Part.setPcb (p : Part) (dw : Nat) (v : Word) : Part :=
  match dw with
  | 0 => { p with root := BitVec.ofNat 48 (bitsOf v 17 31 * 2 ^ 17) }
  | 1 => { p with dlo := v.setWidth 16, dhi := BitVec.ofNat 16 (bitsOf v 16 16), alimit := BitVec.ofNat 8 (bitsOf v 32 8) }
  | 2 => { p with rquota := v.setWidth 32, pquota := BitVec.ofNat 16 (bitsOf v 32 16) }
  | 3 => { p with hkey := v }
  | n => if n < 8 then { p with clusters := withBits p.clusters (64 * (n - 4)) 64 v.toNat } else p

/-- The byte at an address of the model's memory, as stored; the control block of partition p stands at tier address 64p of stack 0
(R345). DESIGN CHOICE, log 4. -/
def State.memByte (s : State) (a : Nat) : Byte :=
  if a < 0x1000 then BitVec.ofNat 8 (((s.part (a / 64)).pcbWord (a / 8 % 8)).toNat / 256 ^ (a % 8)) else SMap.get s.mem a 0

/-- Stores a byte at an address of the model's memory. -/
def State.setMemByte (s : State) (a : Nat) (b : Byte) : State :=
  if a < 0x1000 then
    s.updPart (a / 64) fun p => p.setPcb (a / 8 % 8) (withBits (p.pcbWord (a / 8 % 8)) (8 * (a % 8)) 8 b.toNat)
  else { s with mem := SMap.set s.mem a 0 b }

/-- The doubleword at an address of the model's memory, as stored. DESIGN CHOICE, log 4. -/
def State.rawWord (s : State) (a : Nat) : Word :=
  BitVec.ofNat 64 (ofBytes ((List.range 8).map fun i => s.memByte (a + i)))

/-- Stores a doubleword at an address of the model's memory. -/
def State.setRawWord (s : State) (a : Nat) (v : Word) : State :=
  (List.range 8).foldl (fun (s : State) i => s.setMemByte (a + i) (BitVec.ofNat 8 (v.toNat / 256 ^ i))) s

/-! ## Keys (R347, R348) -/

/-- The key a request is enciphered with. -/
inductive KeyUse where
  /-- Nothing is enciphered: host memory, the steward range, the release queue. -/
  | plain
  | key (k : BitVec 512)
  /-- The partition's slot holds no key. -/
  | absent
deriving DecidableEq, Repr

/-- The use of a key that the 64-byte unit of an address sees in a request of partition p (R347). A request of a partition without a key
reaches nothing outside the steward range, host memory neither (R348). -/
def State.keyUse (s : State) (p : Nat) (a : Nat) : KeyUse :=
  if a < 0x10000 then .plain
  else match (s.part p).key with
  | some k => if 2 ^ 49 ≤ a then .plain else .key k
  | none => .absent

/-- The tweak of a 64-byte unit (R347): (tier << 46) + (tier address >> 6). -/
def unitTweak (a : Nat) : Nat := if 2 ^ 48 ≤ a then 2 ^ 46 + (a - 2 ^ 48) / 64 else a / 64

/-- The 64-byte unit of the model's memory that holds an address, as written. -/
def State.unit (s : State) (a : Nat) : BitVec 512 :=
  BitVec.ofNat 512 (ofBytes ((List.range 64).map fun i => s.memByte (a / 64 * 64 + i)))

/-- A 64-byte unit that was enciphered under one key, as a reader with a key deciphers it (R347). -/
def recipher (written read : BitVec 512) (tweak : Nat) (u : BitVec 512) : BitVec 512 :=
  if written = read then u else xtsDecrypt read tweak (xtsEncrypt written tweak u)

/-- The unit as a request with a key reads it (R347): memory holds what each unit was written as, with the key it was enciphered
under. A unit that nothing has written reads as listed. Without a key the data are a free value beside their poison. -/
def State.unitAs (s : State) (u : KeyUse) (a : Nat) : BitVec 512 :=
  match u with
  | .plain => s.unit a
  | .absent => Config.keylessUnit (unitTweak a) (s.unit a)
  | .key k =>
    let w := s.memKey.get (a / 64) 0
    if w = 0 then s.unit a else recipher (BitVec.ofNat 512 (w - 1)) k (unitTweak a) (s.unit a)

/-- A request with a key reads the unit of an address as it stands: nothing enciphers it, nothing has written it, or it was
written under that key. -/
def State.readsAsStored (s : State) (u : KeyUse) (a : Nat) : Bool :=
  match u with
  | .plain => true
  | .absent => false
  | .key k => let w := s.memKey.get (a / 64) 0; decide (w = 0) || decide (w = k.toNat + 1)

/-- The byte at an address as a request of partition p reads it. -/
def State.readByteAs (s : State) (p a : Nat) : Byte :=
  let u := s.keyUse p a
  if s.readsAsStored u a then s.memByte a else (s.unitAs u a).extractLsb' (8 * (a % 64)) 8

/-- A byte and its poison as a reader through a view finds them (R276): `now` after the writes made in views that are not yet
pushed, the latest first. A write in another view gives the value before it or the one written, which is a free choice. -/
def viaWrites (draw view : Nat) (now : Byte × Bool) : List ViewWrite → Byte × Bool
  | [] => now
  | w :: rest =>
    if w.view = view then now
    else if Config.seesOldView draw (w.addr / 8) rest.length then viaWrites draw view (w.old, w.oldPoison) rest
    else now

/-- The writes to a byte that stand in views and are not pushed, the latest first. -/
def State.unpushed (s : State) (a : Nat) : List ViewWrite := (s.viewWrites.filter fun w => decide (w.addr = a)).reverse

/-- The poison of the word at an address as a request of partition p reads it: every word without a key (R348). -/
def State.poisonAs (s : State) (p a : Nat) : Bool :=
  decide (s.keyUse p a = .absent) || s.memPoison.get (a / 8) false

/-- The byte at an address, with the poison of its word, as a request of partition p reads it through a view (R276). -/
def State.readVia (s : State) (p view a : Nat) : Byte × Bool :=
  viaWrites s.fresh view (s.readByteAs p a, s.poisonAs p a) (s.unpushed a)

/-- The state after a read that may have made a free choice (R276): the next read makes its own. -/
def State.drawn (s : State) : State := if s.viewWrites.isEmpty then s else { s with fresh := s.fresh + 1 }

/-- Enciphers the unit of an address anew under a key before a write reaches it, so that its other bytes read under
that key as they did. -/
def State.rekey (s : State) (u : KeyUse) (a : Nat) : State :=
  match u with
  | .key k =>
    if s.memKey.get (a / 64) 0 = k.toNat + 1 then s
    else
      let v := s.unitAs u a
      { s with
        mem := (List.range 64).foldl (fun m i => SMap.set m (a / 64 * 64 + i) 0 (v.extractLsb' (8 * i) 8)) s.mem
        memKey := s.memKey.set (a / 64) 0 (k.toNat + 1) }
  | _ => { s with memKey := s.memKey.set (a / 64) 0 0 }

/-- Writes a byte for partition p; without a key nothing is written (R348). -/
def State.writeByteAs (s : State) (p a : Nat) (b : Byte) : State :=
  let u := s.keyUse p a
  if u = .absent then s
  else
    let s := s.rekey u a
    s.setMemByte a b

/-- Writes the poison mark of the word at an address. -/
def State.setPoisonMark (s : State) (a : Nat) (b : Bool) : State :=
  { s with memPoison := s.memPoison.set (a / 8) false b }

/-- Consecutive numbers gathered into ranges. -/
def runs : List Nat → List (Nat × Nat)
  | [] => []
  | a :: rest =>
    match runs rest with
    | (b, c) :: t => if b = a + 1 then (a, c) :: t else (a, a) :: (b, c) :: t
    | [] => [(a, a)]

/-- Tells the host the address ranges of a write that is not performed (R348). -/
def State.reportDiscarded (s : State) (p : Nat) (as : List Nat) : State :=
  (runs as).foldl (fun (s : State) r => s.report (.discardedWrite p r.1 (r.2 + 1 - r.1))) s

/-- The partition's slot holds no key that a write to an address needs (R348). -/
def State.keyless (s : State) (p a : Nat) : Bool := decide (s.keyUse p a = .absent)

/-- Writes bytes given with their addresses and poison for partition p. Each word's mark becomes the OR of the marks
written into it, and of its former mark when the bytes cover only part of it (R294, R301). Host memory keeps a word
that a poisoned word was to replace, and the address is reported (R316). Bytes that need a key that is absent are not written, and
their ranges are reported (R348). What an earlier write in a view had to show of them is gone (R276). -/
def State.writeBytesAs (s : State) (p : Nat) (bs : List (Nat × Byte × Bool)) : State :=
  let s := s.reportDiscarded p ((bs.map (·.1)).filter (s.keyless p))
  let bs := bs.filter fun b => !s.keyless p b.1
  let s := if s.viewWrites.isEmpty then s else { s with viewWrites := s.viewWrites.filter fun w => !bs.any fun b => decide (b.1 = w.addr) }
  let words := (bs.map fun b => b.1 / 8).eraseDups
  words.foldl (fun s w =>
    let mine := bs.filter fun b => decide (b.1 / 8 = w)
    let po := mine.any fun b => b.2.2
    let whole := decide ((mine.map (·.1)).eraseDups.length = 8)
    let a := 8 * w
    if 2 ^ 49 ≤ a ∧ po then s.report (.poisonedHostWord (a - 2 ^ 49))
    else
      let s' := mine.foldl (fun s b => s.writeByteAs p b.1 b.2.1) s
      s'.setPoisonMark a (po || (!whole && s.memPoison.get w false))) s

/-! ## Publication (R288, R291, R345) -/

/-- What a pending record makes of a doubleword for gang g: the new value once published for the gang. -/
def State.published (s : State) (g : Nat) (target : PubTarget) (old : Word) : Word :=
  match s.pubs.find? fun p => p.target == target with
  | some p => if p.done.contains g then p.value else old
  | none => old

/-- The view descriptor of a handle as gang g of partition p sees it (R291). -/
def State.viewDesc (s : State) (p g handle : Nat) : BitVec 128 :=
  let d := (s.part p).views.get handle 0
  let dw (i : Nat) : Word := s.published g (.view p handle i) (BitVec.ofNat 64 (bitsOf d (64 * i) 64))
  dw 1 ++ dw 0

/-- ROOT of a partition as gang g sees it (R285, R345). -/
def State.rootOf (s : State) (p g : Nat) : Nat :=
  bitsOf (s.published g (.pcb p 0) ((s.part p).root.setWidth 64)) 0 48

/-! ## The walk (R285, R286) -/

/-- V of a table entry. -/
def entryV (e : Word) : Bool := e.getLsbD 0
/-- LEAF of a table entry. -/
def entryLeaf (e : Word) : Bool := e.getLsbD 1
/-- R of a table entry. -/
def entryR (e : Word) : Bool := e.getLsbD 2
/-- W of a table entry. -/
def entryW (e : Word) : Bool := e.getLsbD 3
/-- STEP of a table entry. -/
def entryStep (e : Word) : Bool := e.getLsbD 4
/-- TIER of a table entry. -/
def entryTier (e : Word) : Nat := bitsOf e 5 2
/-- DOMAIN of a table entry. -/
def entryDomain (e : Word) : Nat := bitsOf e 8 16
/-- The tier address that ADDR of a table entry names. -/
def entryAddr (e : Word) : Nat := bitsOf e 28 36 * 4096

/-- Bytes that a leaf of a level maps. -/
def pageBytes (level : Nat) : Nat := if level = 1 then 2 ^ 25 else 2 ^ 16

/-- A valid entry of a level that R286 calls malformed. -/
def malformedEntry (level : Nat) (e : Word) : Bool :=
  let leaf := entryLeaf e
  e.getLsbD 7 || decide (bitsOf e 24 4 ≠ 0) || (leaf && decide (level = 0)) || (!leaf && decide (level = 2)) ||
    decide (entryTier e = 3) || (!leaf && decide (entryTier e ≠ 0)) ||
    decide (entryAddr e % (if leaf then pageBytes level else if level = 0 then 65536 else 4096) ≠ 0) ||
    (leaf && entryStep e && (decide (level = 1) || decide (entryTier e ≠ 0)))

/-- The index of a virtual address at a level (R285). -/
def vaIndex (level : Nat) (va : Word) : Nat :=
  if level = 0 then bitsOf va 38 14 else if level = 1 then bitsOf va 25 13 else bitsOf va 16 9

/-- What a walk comes to. -/
inductive Walk where
  /-- A well-formed leaf: its level, its entry's tier address and its value. -/
  | leaf (level entryAt : Nat) (e : Word)
  /-- An invalid or malformed entry (R290). -/
  | fault
  /-- A tier address that the package does not have. -/
  | beyond (addr : Nat)
deriving DecidableEq, Repr

/-- The walk from a table of a level for gang g (R285, R288, R289). -/
def State.walkFrom (s : State) (g : Nat) (va : Word) : Nat → Nat → Nat → Walk
  | 0, _, _ => .fault
  | fuel + 1, level, table =>
    let a := table + 8 * vaIndex level va
    if !tierHolds 0 a then .beyond a
    else
      let e := s.published g (.entry a) (s.rawWord a)
      if !entryV e || malformedEntry level e then .fault
      else if entryLeaf e then .leaf level a e
      else State.walkFrom s g va fuel (level + 1) (entryAddr e)

/-- A request as it is issued: it uses the partition, and the ROOT, of its issue (R347, R385). -/
def State.request (s : State) (t : Nat) (write : Bool) (va : Word) (view len off : Nat) (what : ReqFor) : Req :=
  ⟨t, write, va, view, len, off, what, false, none, s.partOf t, s.rootOf (s.partOf t) (s.tile t).gang, va.toNat, [], [], []⟩

/-- The walk of a canonical virtual address for gang g, from a root table. -/
def State.walk (s : State) (root g : Nat) (va : Word) : Walk := s.walkFrom g va 3 0 root

/-- Bits 63:52 of a virtual address are set (R285). -/
def nonCanonical (va : Word) : Bool := decide (bitsOf va 52 12 ≠ 0)

/-- The address, in the model's memory, of a virtual address in the page of a leaf. -/
def leafPhys (level : Nat) (e : Word) (va : Word) : Nat :=
  tierBase (entryTier e) + entryAddr e + va.toNat % pageBytes level

/-- The twin of a page, by the tier address of its leaf (R295). -/
def State.twinOf (s : State) (leaf : Nat) : Option Twin := s.twins.find? fun t => decide (t.leaf = leaf)

/-! ## Gang tile addresses (R402) -/

/-- The gang tile index and tile offset of a gang tile address. -/
def gangTileVa (va : Word) : Option (Nat × Nat) :=
  if bitsOf va 60 4 = 15 ∧ bitsOf va 41 19 = 0 then some (bitsOf va 18 23, bitsOf va 0 18) else none

/-! ## The PLB (R153-R155) -/

/-- PLB entry i permits the whole range. -/
def Ctl.plbEntryOk (c : Ctl) (i lo len : Nat) (write : Bool) : Bool :=
  let e := c.plb.get i 0
  e.getLsbD 0 && (if write then e.getLsbD 2 else e.getLsbD 1) && decide (bitsOf e 16 48 * 65536 ≤ lo) &&
    decide (lo + len ≤ (bitsOf e 80 48 + 1) * 65536)

/-- The check of R155 on len bytes from lo. -/
def Ctl.plbOk (c : Ctl) (lo len : Nat) (write : Bool) : Bool :=
  !c.plbctl.getLsbD 16 || (List.range 16).any fun i => c.plbEntryOk i lo len write

/-! ## Views (R291-R293) -/

/-- A view descriptor, its fields decoded. -/
structure View where
  base : Nat
  esz : Nat
  kind : Nat
  tb : Nat
  rows : Nat
  cols : Nat
deriving DecidableEq, Repr

/-- The fields of a descriptor. -/
def viewOf (d : BitVec 128) : View :=
  ⟨bitsOf d 0 64, 2 ^ bitsOf d 64 2, bitsOf d 66 2, 2 ^ bitsOf d 68 4, bitsOf d 96 16 + 1, bitsOf d 112 16 + 1⟩

/-- A descriptor is valid under R291; handle 0 never is. -/
def viewValid (handle : Nat) (d : BitVec 128) : Bool :=
  let v := viewOf d
  let tb := bitsOf d 68 4
  decide (handle ≠ 0) && d.getLsbD 72 && decide (v.kind ≠ 3) && decide (bitsOf d 73 23 = 0) &&
    (if v.kind = 2 then decide (1 ≤ tb) && decide (tb ≤ 8) && decide (v.rows % v.tb = 0) && decide (v.cols % v.tb = 0)
     else decide (tb = 0))

/-- SC of R292. -/
def View.sc (v : View) : Nat := (v.cols * v.esz + 31) / 32

/-- The bytes that the view's region covers (R292). -/
def View.bytes (v : View) : Nat := 1024 * ((v.rows + 31) / 32) * v.sc

/-- Its positions, R · C · e (R293). -/
def View.positions (v : View) : Nat := v.rows * v.cols * v.esz

/-- The element (i, j) of element number n (R293). -/
def View.elem (v : View) (n : Nat) : Nat × Nat :=
  match v.kind with
  | 0 => (n / v.cols, n % v.cols)
  | 1 => (n % v.rows, n / v.rows)
  | _ =>
    let q := n / (v.tb * v.tb)
    let r := n % (v.tb * v.tb)
    (q / (v.cols / v.tb) * v.tb + r / v.tb, q % (v.cols / v.tb) * v.tb + r % v.tb)

/-- The virtual address of the byte at a position (R292, R293). -/
def View.addr (v : View) (pos : Nat) : Nat :=
  let ij := v.elem (pos / v.esz)
  let c := ij.2 * v.esz + pos % v.esz
  v.base + 1024 * (ij.1 / 32 * v.sc + c / 32) + 32 * (ij.1 % 32) + c % 32

/-- The position of the byte at a virtual address, when the view reaches it: the inverse of `View.addr`. DEDUCED, log 39. -/
def View.posOf (v : View) (a : Nat) : Option Nat :=
  if v.base ≤ a ∧ a < v.base + v.bytes then
    let o := a - v.base
    let i := 32 * (o / 1024 / v.sc) + o % 1024 / 32
    let c := 32 * (o / 1024 % v.sc) + o % 32
    let j := c / v.esz
    if i < v.rows ∧ j < v.cols then
      let n := match v.kind with
        | 0 => i * v.cols + j
        | 1 => j * v.rows + i
        | _ => (i / v.tb * (v.cols / v.tb) + j / v.tb) * (v.tb * v.tb) + i % v.tb * v.tb + j % v.tb
      some (n * v.esz + c % v.esz)
    else none
  else none

/-- The view of a handle of partition p as gang g sees it, when it is valid (R291). -/
def State.gangView (s : State) (p g handle : Nat) : Option View :=
  let d := s.viewDesc p g handle
  if viewValid handle d then some (viewOf d) else none

/-- The view of a handle as tile t sees it, when it is valid (R206). -/
def State.tileView (s : State) (t handle : Nat) : Option View := s.gangView (s.partOf t) (s.tile t).gang handle

/-- The virtual address, for TRAPVAL, of a range that starts at an address, or at a position of a view: the view's BASE (R155). -/
def State.rangeVa (s : State) (t src view : Nat) : Word :=
  BitVec.ofNat 64 (if view = 0 then src else match s.tileView t view with | some v => v.base | none => src)

/-- The check of R155 for len bytes from va, or for the region of a view. DEDUCED, log 41. -/
def State.rangeOk (s : State) (t : Nat) (va len : Nat) (v : Option View) (write : Bool) : Bool :=
  match v with
  | none => (s.tile t).ctl.plbOk va len write
  | some v => (s.tile t).ctl.plbOk v.base v.bytes write

end Sys2Proof.Machine
end

