-- ==== Sys2Proof/Machine/Bales.lean ====
section
/-! DEFINITION. Bales, rings, page-fetch lists, queue status and user-level interrupts (R44, R45, R141-R149,
R197-R205, R208-R210, R298-R300). -/

namespace Sys2Proof.Machine

/-! ## Bale instructions -/

/-- The low doubleword of a bale-table entry (R141). -/
def Bale.low (b : Bale) : Word :=
  BitVec.ofNat 64 (b.state.toNat + (if b.pend then 4 else 0) + (if b.fault then 8 else 0) + (if b.next then 16 else 0) +
    (if b.refill then 32 else 0) + b.offset.toNat * 2 ^ 6 + b.size.toNat * 2 ^ 17 + b.ring.toNat * 2 ^ 26 +
    (if b.ringv then 2 ^ 29 else 0) + b.view.toNat * 2 ^ 30)

/-- The tile address of a bale, as TRAPVAL. -/
def Bale.val (b : Bale) : Word := BitVec.ofNat 64 b.addr

/-- The bale size word of R197 breaks its rules, or the offset does. -/
def Tile.badBale (T : Tile) (off sz : Word) : Bool :=
  let n := bitsOf sz 0 17
  decide (bitsOf off 0 7 ≠ 0) || decide (n % 128 ≠ 0) || decide (n = 0) || decide (65536 < n) ||
    decide (bitsOf sz 17 15 ≠ 0) || decide (bitsOf sz 40 24 ≠ 0) || !T.rangeIs Region.vs off.toNat n

/-- The entry that BALE writes (R197); RING and RINGV stay. -/
def Bale.setUp (e : Bale) (off sz tag : Word) : Bale :=
  { e with
    state := 0, pend := false, fault := false, next := false, refill := false
    offset := BitVec.ofNat 11 (bitsOf off 7 11), size := BitVec.ofNat 9 (bitsOf sz 0 17 / 128 - 1)
    view := BitVec.ofNat 8 (bitsOf sz 32 8), tag := BitVec.ofNat 57 (bitsOf tag 7 57) }

/-- BALE (R197): its checks come once, before it parks. -/
def execBale (g : Guard) (slot : BitVec 6) (a b c : SReg) (s : State) : Host.Outcome State Fault Refusal :=
  s.issue { head := 0xE200, guard := g } fun _ _ s =>
    let x := s.me
    let T := s.myTile
    let e := T.bale slot.toNat
    match x.lowPoison [a, b, c] with
    | some r => .trap 0x09 (r.setWidth 64)
    | none =>
      if x.tested.isNone && T.badBale (x.rd a) (x.rd b) then .trap 0x06 (x.rd a)
      else if x.tested.isNone && e.ringv && decide (e.state = 2) then .trap 0x06 e.val
      else if e.state = 2 ∨ (e.state = 0 ∧ e.pend = false) then
        .done (s.updMyTile fun T => T.setBale slot.toNat (e.setUp (x.rd a) (x.rd b) (x.rd c)))
      else .parkTested .bale 0

/-- BSTAT (R198). -/
def execBstat (g : Guard) (d : SReg) (slot : BitVec 6) (s : State) : Host.Outcome State Fault Refusal :=
  s.issue { head := 0xE201, guard := g } fun _ _ s =>
    .done (s.updMe fun x => x.wr d (s.myTile.bale slot.toNat).low false)

/-- BSET to EMPTY (R199). A parked BSET tries its cases from the first: a slot that has become a ring's raises PROTECTION then too.
DESIGN CHOICE, log 113. -/
def execBset (g : Guard) (slot : BitVec 6) (s : State) : Host.Outcome State Fault Refusal :=
  s.issue { head := 0xE202, guard := g } fun _ _ s =>
    let e := s.myTile.bale slot.toNat
    if e.ringv then .trap 0x06 e.val
    else if e.state = 2 then .done (s.updMyTile fun T => T.setBale slot.toNat { e with state := 0 })
    else if e.state = 0 ∧ e.pend = false then .done s
    else .park .bale

/-- The lowest slot whose tag matches (R144), or the miss code 64 (R200). -/
def Tile.lookup (T : Tile) (va : Word) (view : Nat) : Nat :=
  ((List.range 64).find? fun i =>
    let e := T.bale i
    decide (e.state ≠ 0) && decide (e.tag.toNat = bitsOf va 7 57) && decide (e.view.toNat = view)).getD 64

/-- LOOKUP (R200). -/
def execLookup (g : Guard) (d a b : SReg) (s : State) : Host.Outcome State Fault Refusal :=
  s.issue { head := 0xE203, guard := g } fun _ _ s =>
    let x := s.me
    .done (s.updMe fun y => y.wr d (BitVec.ofNat 64 (s.myTile.lookup (x.rd a) (bitsOf (x.rd b) 0 8))) (x.tags [a, b]))

/-! ## Ring instructions -/

/-- The slots of a ring. -/
def Ring.members (x : Ring) : List Nat := (List.range (x.cntm1.toNat + 1)).map (x.first.toNat + ·)

/-- The descriptor of a ring (R147). -/
def Ring.word (x : Ring) : Word :=
  BitVec.ofNat 64 (x.first.toNat + x.cntm1.toNat * 2 ^ 6 + x.head.toNat * 2 ^ 12 + x.tail.toNat * 2 ^ 18 +
    x.occ.toNat * 2 ^ 24 + (if x.stopin then 2 ^ 31 else 0) + (if x.subv then 2 ^ 32 else 0) + (if x.v then 2 ^ 33 else 0))

/-- A ring as RINGCFG loads it from a descriptor (R201). -/
def Ring.fromWord (w : Word) : Ring :=
  { first := BitVec.ofNat 6 (bitsOf w 0 6), cntm1 := BitVec.ofNat 6 (bitsOf w 6 6), v := w.getLsbD 33 }

/-- Step 5 of R201. -/
def Tile.badRing (T : Tile) (ring : BitVec 3) (x : Ring) : Bool :=
  (x.v && decide (63 < x.first.toNat + x.cntm1.toNat)) || x.members.any fun i => let e := T.bale i; e.ringv && decide (e.ring ≠ ring)

/-- The effect of RINGCFG (R201). That the ring received a push in the step stays known (R149). -/
def Tile.setUpRing (T : Tile) (ring : BitVec 3) (x : Ring) : Tile :=
  let clear (T : Tile) (i : Nat) : Tile := let e := T.bale i; if e.ring = ring then T.setBale i { e with ringv := false } else T
  let join (T : Tile) (i : Nat) : Tile := T.setBale i { T.bale i with ring := ring, ringv := true }
  let T := (List.range 64).foldl clear (T.setRing ring.toNat { x with pushed := (T.ring ring.toNat).pushed })
  if x.v then x.members.foldl join T else T

/-- RINGCFG (R201): the descriptor is read and checked once, before it parks. DEDUCED, log 107. -/
def execRingcfg (g : Guard) (ring : BitVec 3) (a : SReg) (s : State) : Host.Outcome State Fault Refusal :=
  s.issue { head := 0xE600, guard := g } fun _ _ s =>
    s.memAccess a 0 8 Region.readable none fun e =>
      let T := s.myTile
      let w := s.me.tested.getD (BitVec.ofNat 64 (T.readNat e 8))
      let x := Ring.fromWord w
      let r := T.ring ring.toNat
      if s.me.tested.isNone && T.poisonAt e then .trap 0x07 (s.me.rd a)
      else if s.me.tested.isNone && T.badRing ring x then .trap 0x06 (s.me.rd a)
      else if r.occ = 0 ∧ r.subv = false ∧ r.bound = 0 then .done (s.updMyTile fun T => T.setUpRing ring x)
      else .parkTested .bale w

/-- The push of the tail slot (R148): TAIL and OCC move on. -/
def Tile.pushRing (T : Tile) (r : Nat) : Tile :=
  let x := T.ring r
  T.setRing r { x with tail := BitVec.ofNat 6 ((x.tail.toNat + 1) % (x.cntm1.toNat + 1)), occ := x.occ + 1, pushed := true }

/-- The range that a fill of a bale reads, as it goes to the memory side: its tag as an address or a position. -/
def State.fillRequest (s : State) (t slot : Nat) : State :=
  let b := (s.tile t).bale slot
  { s with reqs := s.reqs ++ [s.request t false (BitVec.ofNat 64 (b.tag.toNat * 128)) b.view.toNat b.bytes b.addr (.fill slot)] }

/-- The loader starts the fill of a slot from its tag: PEND and REFILL set, a request to the memory side (R142, R299). -/
def State.startFill (s : State) (t slot : Nat) (tag : BitVec 57) (view : BitVec 8) (next : Bool) : State :=
  let s := s.updTile t fun T =>
    T.setBale slot { T.bale slot with tag := tag, view := view, pend := true, refill := true, next := next || (T.bale slot).next }
  s.fillRequest t slot

/-- The range of a fill passes R155, and its view is valid and reaches so far when it has one. For a loader push, whose rule names only
the check of R155, that a view fails at issue and with PROTECTION is the model's choice. DESIGN CHOICE, log 114. -/
def State.fillOk (s : State) (t : Nat) (src len view : Nat) : Bool :=
  if view = 0 then s.rangeOk t src len none false
  else match s.tileView t view with
  | some v => decide (src + len ≤ v.positions) && s.rangeOk t src len (some v) false
  | none => false

/-- Bale slots of the tile whose turn it is that a strand's command gives to the loader or the storer: their words follow the immediate
stores that the strand has issued before (R270). -/
def State.claimSlots (s : State) (slots : List Nat) : State :=
  let me := (s.curStrand, s.netOrd)
  { s.updMyTile (fun T => { T with slotBy := slots.foldl (fun m i => m.set i (0, 0) me) T.slotBy }) with netOrd := s.netOrd + 1 }

/-- RINGPUSH (R202): its causes come once, before it parks; a push waits on while STOPIN = 1, and the tail slot, hence what kind of
push it is, is the one of the cycle in which it is performed (R148, R149). DEDUCED, log 40. -/
def execRingpush (g : Guard) (ring : BitVec 3) (slot : BitVec 6) (sy : Sync) (s : State) : Host.Outcome State Fault Refusal :=
  let tailNow := (s.myTile.ring ring.toNat).tailSlot
  s.issue { head := 0xE701, guard := g, sync := sy, sigNow := decide (tailNow = slot.toNat) } fun _ _ s =>
    let T := s.myTile
    let x := T.ring ring.toNat
    let t := x.tailSlot
    let e := T.bale t
    let y := T.bale slot.toNat
    if s.me.tested.isNone && (!x.v || x.stopin) then .trapLate 0x06 e.val
    else if s.me.tested.isNone && decide (slot.toNat ≠ t) && x.members.contains slot.toNat then .trapLate 0x06 e.val
    else if !(x.v && !x.stopin && decide (x.occ.toNat ≤ x.cntm1.toNat) && decide (e.state = 0) && !e.pend) then .parkTested .bale 0
    else if slot.toNat = t then
      .done ((s.claimSlots [t]).updMyTile fun T => (T.setBale t { e with state := 2, refill := false }).pushRing ring.toNat)
    else if !s.fillOk s.curTile (y.tag.toNat * 128) e.bytes y.view.toNat then
      .trapLate 0x06 (s.rangeVa s.curTile (y.tag.toNat * 128) y.view.toNat)
    else
      let s' := (s.claimSlots [t]).updMyTile fun T =>
        let T := T.setBale slot.toNat { y with tag := y.tag + BitVec.ofNat 57 (e.size.toNat + 1) }
        { T.pushRing ring.toNat with pfls := T.pfls ++ [⟨[t], sy, s.curStrand, true⟩] }
      .done (s'.startFill s.curTile t y.tag y.view false)

/-- RINGPOP (R203). -/
def execRingpop (g : Guard) (ring : BitVec 3) (slot : BitVec 6) (sy : Sync) (s : State) : Host.Outcome State Fault Refusal :=
  s.issue { head := 0xE702, guard := g, sync := sy } fun _ _ s =>
    let T := s.myTile
    let x := T.ring ring.toNat
    if !x.v then .trapLate 0x06 0
    else if x.bound ≠ 0 then .retry s
    else if x.occ = 0 then x.emptyWait
    else match T.baleWait x.headSlot with
    | some e => e.late
    | none =>
      if x.headSlot ≠ slot.toNat then .trapLate 0x06 (T.bale x.headSlot).val
      else .done (s.updMyTile fun T => T.popRing ring.toNat)

/-- RINGSTAT (R204). -/
def execRingstat (g : Guard) (d : SReg) (ring : BitVec 3) (s : State) : Host.Outcome State Fault Refusal :=
  s.issue { head := 0xE603, guard := g } fun _ _ s =>
    .done (s.updMe fun x => x.wr d (s.myTile.ring ring.toNat).word false)

/-- PFLSTOP (R204): a stop token, which ends a subscription without a count (R299). -/
def execPflstop (g : Guard) (ring : BitVec 3) (sy : Sync) (s : State) : Host.Outcome State Fault Refusal :=
  s.issue { head := 0xEF01, guard := g, sync := sy } fun _ _ s =>
    let x := s.myTile.ring ring.toNat
    if !x.v then .trapLate 0x06 0
    else .done (s.updMyTile fun T => T.setRing ring.toNat { x with stopin := true, subv := x.subv && !x.subForever })

/-! ## Page-fetch lists (R205, R298, R299) -/

/-- An entry of a page-fetch list (R298). -/
structure PflEntry where
  src : Nat
  len : Nat
  view : Nat
  vv : Bool
  mode : Nat
  tgt : Nat
  npush : Nat
  reserved : Bool
deriving DecidableEq, Repr

/-- The 24 bytes of an entry. -/
def Tile.pflEntry (T : Tile) (a : Nat) : PflEntry :=
  let d0 := T.readNat a 8
  let d1 : Word := BitVec.ofNat 64 (T.readNat (a + 8) 8)
  let d2 : Word := BitVec.ofNat 64 (T.readNat (a + 16) 8)
  ⟨d0, bitsOf d1 0 18, bitsOf d1 18 8, d1.getLsbD 26, bitsOf d1 27 2, bitsOf d1 29 6, bitsOf d2 0 32,
   decide (bitsOf d1 35 29 ≠ 0) || decide (bitsOf d2 32 32 ≠ 0)⟩

/-- A field of an entry breaks R298. -/
def PflEntry.bad (e : PflEntry) : Bool :=
  e.reserved || decide (e.mode = 3) || decide (e.src % 128 ≠ 0) || decide (e.len % 128 ≠ 0) || decide (e.len = 0) ||
    decide (65536 < e.len) || (e.vv == decide (e.view = 0)) || (decide (e.mode ≠ 2) && decide (e.npush ≠ 0)) ||
    (decide (e.mode = 2) && decide (8 ≤ e.tgt))

/-- The target of an entry can take its fill (R298). -/
def Tile.pflTargetOk (T : Tile) (e : PflEntry) : Bool :=
  if e.mode = 2 then
    let x := T.ring e.tgt
    x.v && !x.subv && !x.stopin && x.members.all fun i => decide ((T.bale i).bytes = e.len)
  else
    let b := T.bale e.tgt
    decide (b.state = 0) && !b.pend && !b.ringv && decide (b.bytes = e.len)

/-- The bytes of the range that R155 checks for an entry; none when its subscription has no end (R298). -/
def PflEntry.range (e : PflEntry) : Nat := if e.mode = 2 then e.npush * e.len else e.len

/-- An entry has none of the faults that R298 lists: fields, target, view, and a range inside the view. -/
def State.pflEntryFits (s : State) (t : Nat) (e : PflEntry) : Bool :=
  !e.bad && (s.tile t).pflTargetOk e &&
    (decide (e.view = 0) || (match s.tileView t e.view with
      | some v => decide (e.range = 0) || decide (e.src + e.range ≤ v.positions)
      | none => false))

/-- An entry passes step 5 of R205. -/
def State.pflEntryOk (s : State) (t : Nat) (e : PflEntry) : Bool :=
  s.pflEntryFits t e && (decide (e.range = 0) || s.fillOk t e.src e.range e.view)

/-- TRAPVAL of an entry that fails step 5: its SRC for what R298 lists, and for R155 its virtual address (R205). DEDUCED, log 41. -/
def State.pflVal (s : State) (t : Nat) (e : PflEntry) : Word :=
  if s.pflEntryFits t e then s.rangeVa t e.src e.view else BitVec.ofNat 64 e.src

/-- The start of an entry (R299). DEDUCED, log 37. DEDUCED, log 38. -/
def State.pflStart (s : State) (t : Nat) (e : PflEntry) : State :=
  if e.mode = 2 then
    s.updTile t fun T =>
      T.setRing e.tgt { T.ring e.tgt with
        subv := true, subSrc := BitVec.ofNat 64 e.src, subLen := e.len, subView := e.view, subLeft := e.npush
        subForever := decide (e.npush = 0), subDone := 0 }
  else s.startFill t e.tgt (BitVec.ofNat 57 (e.src / 128)) (BitVec.ofNat 8 e.view) (decide (e.mode = 1))

/-- PFL (R205). -/
def execPfl (g : Guard) (x : SReg) (sy : Sync) (s : State) : Host.Outcome State Fault Refusal :=
  s.issue { head := 0xEF00, guard := g, sync := sy, sigNow := false } fun _ _ s =>
    s.memAccess x 0 8 Region.readable none fun a =>
      let T := s.myTile
      let n := T.readNat a 8 % 4096
      let bytes := 8 + 24 * n
      let v := s.me.rd x
      if !T.rangeIs Region.readable a bytes then .trapLate 0x06 v
      else if (T.gatedIn a bytes).isSome then .retry ((s.wakeFor s.curTile a bytes).getD s)
      else if !s.sourceReady s.curTile s.curStrand a bytes then .retry s
      else if T.readPoison a bytes then .trapLate 0x07 v
      else
        let es := (List.range n).map fun i => T.pflEntry (a + 8 + 24 * i)
        match es.find? fun e => !s.pflEntryOk s.curTile e with
        | some e => .trapLate 0x06 (s.pflVal s.curTile e)
        | none =>
          let slots := (es.filter fun e => decide (e.mode ≠ 2)).map (·.tgt)
          let s' := (s.claimSlots slots).updMyTile fun T => { T with pfls := T.pfls ++ [⟨slots, sy, s.curStrand, false⟩] }
          .done (es.foldl (fun s e => s.pflStart s.curTile e) s')

/-- PFL_COMPLETE of the n-th list of a tile (R205). -/
def execPflComplete (t n : Nat) (s : State) : Host.Outcome State Fault Refusal :=
  match (s.tile t).pfls[n]? with
  | some j =>
    if j.slots.isEmpty && !j.push then
      .next ((s.updTile t fun T => { T with pfls := T.pfls.eraseIdx n }).engineSignal t j.sy)
    else .next s
  | none => .next s

/-- A request of the slot's fill is outstanding. -/
def State.filling (s : State) (t slot : Nat) : Bool := s.reqs.any fun r => decide (r.tile = t) && decide (r.what = .fill slot)

/-- BALE_FILL_COMPLETE of a loader fill (R142): every byte is written; a loader push completes with its signal (R202). -/
def execBaleFillComplete (t slot : Nat) (s : State) : Host.Outcome State Fault Refusal :=
  let b := (s.tile t).bale slot
  if b.state = 1 ∧ b.pend = true ∧ b.fault = false ∧ s.filling t slot = false ∧ (s.tile t).lostFills.getLsbD slot = false ∧
      (s.tile t).xq.all (fun e => decide (e.slot ≠ some slot)) then
    let done := (s.tile t).pfls.filter fun j => j.push && j.slots.contains slot
    let s' := s.updTile t fun T =>
      { (T.setBale slot { b with state := 2, pend := false }) with
        pfls := (T.pfls.filter fun j => !(j.push && j.slots.contains slot)).map fun j => { j with slots := j.slots.filter (· ≠ slot) } }
    .next (done.foldl (fun s j => s.engineSignal t j.sy) s')
  else .next s

/-- SUBSCRIPTION_PUSH (R299): the loader's next push of a subscribed ring, or the failure of its range. -/
def execSubscriptionPush (t ring : Nat) (s : State) : Host.Outcome State Fault Refusal :=
  let T := s.tile t
  let x := T.ring ring
  let slot := x.tailSlot
  let e := T.bale slot
  if x.subv ∧ !x.stopin ∧ x.occ.toNat ≤ x.cntm1.toNat ∧ e.state = 0 ∧ e.pend = false ∧ T.seq.failed = false then
    let src := x.subSrc.toNat + x.subDone * x.subLen
    if !s.fillOk t src x.subLen x.subView then .next (s.failTile t 1 0x06)
    else
      let s' := s.updTile t fun T =>
        let T := T.pushRing ring
        let y := T.ring ring
        let last := !x.subForever && decide (x.subLeft = 1)
        T.setRing ring { y with
          subDone := x.subDone + 1, subLeft := x.subLeft - 1, subv := !last, stopin := last }
      .next (s'.startFill t slot (BitVec.ofNat 57 (src / 128)) (BitVec.ofNat 8 x.subView) false)
  else .next s

/-! ## Queue status and user-level interrupts (R44, R209, R210) -/

/-- XQSTAT (R209). -/
def execXqstat (g : Guard) (d : SReg) (s : State) : Host.Outcome State Fault Refusal :=
  s.issue { head := 0xE904, guard := g } fun _ _ s =>
    let q := s.myTile.xq
    let mine := (q.filter fun e => decide (e.strand = s.curStrand)).length
    .done (s.updMe fun x => x.wr d (BitVec.ofNat 64 (q.length + mine * 2 ^ 6 + x.xferCount.toNat * 2 ^ 16)) false)

/-- UIEN (R210). -/
def execUien (g : Guard) (n : Bool) (s : State) : Host.Outcome State Fault Refusal :=
  s.issue { head := 0xE908, guard := g } fun _ _ s => .done (s.updMe fun x => { x with status := withBit x.status 19 n })

/-- UIRET (R210): in a REP body it ends the repeat. A UIPC that the tests of R51 refuse raises BAD_TARGET, as it does
for ERET. DEDUCED, log 53. -/
def execUiret (s : State) : Host.Outcome State Fault Refusal :=
  s.issue { head := 0xE809 } fun _ _ s =>
    let x := s.me
    if !x.uia then .trap 0x04 0xE809
    else if s.myTile.badTarget x.uipc.toNat then .trap 0x03 (x.uipc.setWidth 64)
    else
      -- a wait left standing is resumed only by a return to its own instruction
      let keep := match x.standing with | some w => decide (w.1 = x.uipc) | none => false
      .goto (s.updMe fun x =>
        { x with status := withBit x.status 20 false, standing := if keep then x.standing else none }) x.uipc {}

/-- A strand can take a user-level interrupt (R44, R83): between two of its instructions. -/
def Strand.canInterrupt (x : Strand) : Bool :=
  decide (x.priv = 0) && x.uie && !x.uia && !x.td && !x.pp && !x.rep.active && decide (x.hold = .none) &&
    (match x.run with | .ready => true | .parked _ => true | _ => false)

/-- The wait that a strand parked on an event or a SYNC leaves standing while its interrupt is handled (R44). DEDUCED, log 99. -/
def Strand.leaveWait (x : Strand) : Strand :=
  match x.run with
  | .parked .event => { x with standing := some (x.pc, .event, none) }
  | .parked .sync => { x with standing := some (x.pc, .sync, none) }
  | _ => x

/-- USER_INTERRUPT_DELIVERY (R44, R208). -/
def execUserInterruptDelivery (t k : Nat) (s : State) : Host.Outcome State Fault Refusal :=
  let x := s.strand t k
  match x.uiq with
  | [] => .next s
  | (id, handler) :: rest =>
    if x.canInterrupt then
      let y := { x.leaveWait with uiq := rest, tested := none }
      if (s.tile t).badTarget handler.toNat then
        .next ((s.setStrand t k { y with run := .ready }).takeTrap t k 0x03 x.pc (handler.setWidth 64))
      else
        .next (s.setStrand t k
          { y with uipc := x.pc, xferid := id, status := withBit x.status 20 true, pc := handler, run := .ready })
    else .next s

end Sys2Proof.Machine
end

