-- ==== Sys2Proof/Machine/Signature.lean ====
section
/-! DEFINITION. What the Gleaner sees of writes: plot descriptors, signatures, counting writes, DIRTY marks and output
slots (R324-R327, R330). -/

namespace Sys2Proof.Machine

/-! ## Plot descriptors (R325) -/

/-- BASE. -/
def plotBase (d : BitVec 512) : Nat := bitsOf d 0 64
/-- VIEW. -/
def plotView (d : BitVec 512) : Nat := bitsOf d 64 8
/-- FMT. -/
def plotFmt (d : BitVec 512) : Nat := bitsOf d 72 2
/-- The patch size in bytes. -/
def plotPatch (d : BitVec 512) : Nat := 128 * (bitsOf d 80 7 + 1)
/-- NPATCH. -/
def plotCount (d : BitVec 512) : Nat := bitsOf d 88 12 + 1
/-- K. -/
def plotK (d : BitVec 512) : Nat := bitsOf d 104 8
/-- THETA. -/
def plotTheta (d : BitVec 512) : Nat := bitsOf d 128 32
/-- PSEED. -/
def plotSeed (d : BitVec 512) : Word := BitVec.ofNat 64 (bitsOf d 192 64)
/-- OUTBASE. -/
def plotOut (d : BitVec 512) : Nat := bitsOf d 256 64
/-- The output slot size in bytes. -/
def plotOutSize (d : BitVec 512) : Nat := 128 * (bitsOf d 320 9 + 1)
/-- MAPBASE. -/
def plotMap (d : BitVec 512) : Nat := bitsOf d 384 64
/-- Rows retained in the skip-map region. -/
def plotRows (d : BitVec 512) : Nat := bitsOf d 448 8 + 1

/-! ## Signatures (R327) -/

/-- sigma(m, e): true for +1. -/
def sigma (seed : Word) (m e : Nat) : Bool :=
  let z := (seed ^^^ BitVec.ofNat 64 (m * 2 ^ 40) ^^^ BitVec.ofNat 64 e) + 0x6A5D39E1C4B28F17
  let z := (z ^^^ (z >>> 31)) * 0xD1B54A32D192ED03
  let z := (z ^^^ (z >>> 29)) * 0x8CB92BA72F3D8DD7
  let z := z ^^^ (z >>> 32)
  !z.getLsbD 63

/-- The exact sum of some values, rounded once to FP32 with RNE. -/
def fp32Sum (xs : List XVal) : Nat := (fp32.round (sumX 0 xs).1 0 0).1

/-- The absolute value of an element. -/
def XVal.abs (x : XVal) : XVal :=
  match x with
  | .fin true _ _ _ => x.neg
  | .inf true => x.neg
  | _ => x

/-- An FP32 bit pattern is infinite or a NaN. -/
def fp32Special (b : Nat) : Bool := decide (b / 2 ^ 23 % 256 = 255)

/-- The signature of a patch's words: its sums, its L1 norm, and valid. -/
def signature (d : BitVec 512) (words : List (Word × Bool)) : Bool × List (BitVec 32) × BitVec 32 :=
  let fmt := plotFmt d
  let w := fmtWidth fmt
  let v := packElements 64 (words.map (·.1.toNat))
  let f := (floatFmt fmt).getD fp32
  let xs := (List.range (words.length * 64 / w)).map fun e => f.value (v / 2 ^ (w * e) % 2 ^ w)
  let sums := (List.range 16).map fun m =>
    fp32Sum (((List.range xs.length).zip xs).map fun ex => if sigma (plotSeed d) m ex.1 then ex.2 else ex.2.neg)
  let l1 := fp32Sum (xs.map XVal.abs)
  let odd := xs.any fun x => match x with | .fin _ _ _ _ => false | _ => true
  (!odd && !(words.any (·.2)) && !(sums.any fp32Special) && !fp32Special l1, sums.map (BitVec.ofNat 32), BitVec.ofNat 32 l1)

/-! ## Observations (R326, R330) -/

/-- The unit of a run of equal units that an offset from its base lies in. -/
def unitOf (base size count a : Nat) : Option Nat :=
  if base ≤ a ∧ a < base + size * count then some ((a - base) / size) else none

/-- The unit that a range covers exactly. -/
def exactUnit (base size count start len : Nat) : Option Nat :=
  if len = size ∧ base ≤ start ∧ start < base + size * count ∧ (start - base) % size = 0 then some ((start - base) / size) else none

/-- What is written in one turn of a write as the Gleaner sees it (R326, R330): its agent's gang (0: none), whether a storer, PUT or PUTV
made it, its addressing, its range, the virtual addresses of the bytes and where they land in the model's memory, the words of the whole
write, and whether the write is complete with them. -/
structure Seen where
  agent : Nat
  engine : Bool
  view : Nat
  start : Nat
  len : Nat
  vas : List Nat
  phys : List Nat
  words : List (Word × Bool)
  last : Bool
deriving DecidableEq, Repr

/-- A write in plain addressing that no engine of a gang makes. -/
def Seen.plain (agent va len : Nat) (phys : List Nat) : Seen :=
  ⟨agent, false, 0, va, len, (List.range len).map (va + ·), phys, [], true⟩

/-- What a write tells one plot of gang g. -/
def State.seenBy (s : State) (g : Nat) (part i : Nat) (d : BitVec 512) (w : Seen) : List Observation :=
  let own := decide (w.agent = g)
  let pos (a : Nat) : Option Nat :=
    if plotView d = 0 then some a
    else match s.viewDesc part g (plotView d) with
    | v => if viewValid (plotView d) v then (viewOf v).posOf a else none
  let patches := (w.vas.filterMap fun a => (pos a).bind (unitOf (plotBase d) (plotPatch d) (plotCount d))).eraseDups
  let outs := (w.vas.filterMap (unitOf (plotOut d) (plotOutSize d) (plotCount d))).eraseDups
  let counted :=
    if own ∧ w.engine ∧ w.view = plotView d then exactUnit (plotBase d) (plotPatch d) (plotCount d) w.start w.len else none
  let exact :=
    if own ∧ w.engine ∧ w.view = 0 then exactUnit (plotOut d) (plotOutSize d) (plotCount d) w.start w.len else none
  (match counted with
   | some p => if w.last then (let r := signature d w.words; [Observation.counting i p r.1 r.2.1 r.2.2]) else []
   | none => []) ++
  ((patches.filter fun p => decide (counted ≠ some p)).map fun p => .dirty i p (!own)) ++
  (match exact with | some q => [.output i q true false] | none => []) ++
  (outs.filter fun q => decide (exact ≠ some q)).map fun q => .output i q false (!own)

/-- The virtual addresses in some pages, each named by an address in it, at which gang g of partition p maps some bytes of the
model's memory: through a leaf's frame, or its twin. -/
def State.aliases (s : State) (p g : Nat) (pages phys : List Nat) : List Nat :=
  pages.flatMap fun a =>
    match s.walk (s.rootOf p g) g (BitVec.ofNat 64 a) with
    | .leaf level leaf e =>
      (leafPhys level e (BitVec.ofNat 64 (a / 65536 * 65536)) :: ((s.twinOf leaf).map (·.frame)).toList).flatMap fun base =>
        (phys.filter fun x => decide (base ≤ x) && decide (x < base + 65536)).map fun x => a / 65536 * 65536 + (x - base)
    | _ => []

/-- An address in each 64 KiB page of a range. -/
def pagesOf (lo len : Nat) : List Nat :=
  (List.range ((lo % 65536 + len + 65535) / 65536)).map fun i => if i = 0 then lo else (lo / 65536 + i) * 65536

/-- The pages that hold the patches and the output slots of a plot. -/
def State.plotRange (s : State) (p g : Nat) (d : BitVec 512) : List Nat :=
  let v := viewOf (s.viewDesc p g (plotView d))
  let patches := if plotView d = 0 then (plotBase d, plotCount d * plotPatch d) else (v.base, v.bytes)
  pagesOf patches.1 patches.2 ++ pagesOf (plotOut d) (plotCount d * plotOutSize d)

/-- Tells the plots of every gang of bytes written in the address space of a partition: a gang finds them where its tables map them, under
whatever address they were written. Bytes that need a key which is absent are not written (R348). -/
def State.observe (s : State) (part : Nat) (w : Seen) : State :=
  let kept : List (Nat × Nat) := (w.vas.zip w.phys).filter fun x => !s.keyless part x.2
  let w' : Seen := { w with vas := kept.map (·.1), phys := kept.map (·.2), engine := w.engine && decide (kept.length = w.vas.length) }
  let plot (g : Nat) (G : Gang) (i : Nat) (d : BitVec 512) : List Observation :=
    let far := s.aliases G.part g (s.plotRange G.part g d) w'.phys
    if G.part = part then s.seenBy g G.part i d { w' with vas := (w'.vas ++ far).eraseDups }
    else s.seenBy g G.part i d { w' with agent := 0, engine := false, vas := far.eraseDups }
  if !w.vas.isEmpty && kept.isEmpty then s else { s with gangs := s.gangs.map fun (g, G) =>
      (g, { G with observed := G.observed ++ G.plots.flatMap fun (i, P) => plot g G i P.desc }) }

end Sys2Proof.Machine
end

