-- ==== Sys2Proof/Machine/MemorySide.lean ====
section
/-! DEFINITION. The memory side: requests, page faults, page twins, release-queue entries, publication records,
parity alerts, row repair and critical temperature (R284-R304, R314). -/

namespace Sys2Proof.Machine

/-! ## Requests and their pages (R285, R287) -/

/-- The virtual addresses of the bytes that a request moves, in order, by the view table of its issue's partition (R385); none when its
view is not valid. -/
def State.reqVas (s : State) (r : Req) : Option (List Nat) :=
  if r.view = 0 then some ((List.range r.len).map (r.va.toNat + ·))
  else (s.gangView r.part (s.tile r.tile).gang r.view).map fun v => (List.range r.len).map fun i => v.addr (r.va.toNat + i)

/-- A page of a range: its number, and the leaf that maps it. -/
structure Page where
  num : Nat
  level : Nat
  leaf : Nat
  e : Word
deriving DecidableEq, Repr

/-- What the translation of some pages comes to: the pages, or the first one that fails. -/
inductive Pages where
  | ok (ps : List Page)
  | nonCanonical (va : Nat)
  | fault (va : Nat)
  | beyond (addr : Nat)
deriving DecidableEq, Repr

/-- The translation of the pages of some virtual addresses for gang g, from a root table. -/
def State.translate (s : State) (root g : Nat) : List Nat → Pages
  | [] => .ok []
  | a :: rest =>
    if 2 ^ 52 ≤ a then .nonCanonical a
    else match s.walk root g (BitVec.ofNat 64 a) with
    | .beyond x => .beyond x
    | .fault => .fault a
    | .leaf l at_ e =>
      if !tierHolds (entryTier e) (entryAddr e) then .beyond (entryAddr e)
      else match State.translate s root g rest with
      | .ok ps => .ok (⟨a / 65536, l, at_, e⟩ :: ps)
      | r => r

/-- The translation of the pages of some virtual addresses for gang g of partition p, from the ROOT it has now. -/
def State.pages (s : State) (p g : Nat) (as : List Nat) : Pages := s.translate (s.rootOf p g) g as

/-- The first address in each 64 KiB page of some addresses. -/
def pageHeads (vas : List Nat) : List Nat :=
  ((vas.map (· / 65536)).eraseDups).filterMap fun n => vas.find? fun a => decide (a / 65536 = n)

/-- The address in the model's memory of a virtual address in one of some pages. -/
def physIn (ps : List Page) (a : Nat) : Nat :=
  match ps.find? fun p => decide (p.num = a / 65536) with
  | some p => leafPhys p.level p.e (BitVec.ofNat 64 a)
  | none => 0

/-- Checks 1, 2 and 4 of R287: the cause of the first that a tile's request to a page fails. A steward tile's requests skip the domain
check (R385). -/
def State.pageCause (s : State) (t : Nat) (write view : Bool) (e : Word) : Option Nat :=
  let c := (s.tile t).ctl
  if !isSteward t ∧ c.plbctl.getLsbD 16 ∧ entryDomain e ≠ bitsOf c.plbctl 0 16 then some 0x06
  else if (if write then !entryW e else !entryR e) then some 0x06
  else if view && decide (entryTier e ≠ 0) then some 0x1B
  else none

/-- A page lies in a stack that is in critical-temperature self-refresh (R304). -/
def State.frozenPage (s : State) (p : Page) : Bool :=
  decide (entryTier p.e = 0) && s.pkg.frozen.getLsbD (entryAddr p.e / 2 ^ 36)

/-- Removes the n-th request. -/
def State.dropReq (s : State) (n : Nat) : State := { s with reqs := s.reqs.eraseIdx n }

/-- The transfer that a request serves. -/
def State.xferOf (s : State) (r : Req) : Option Xfer :=
  match r.what with
  | .xfer g => (s.tile r.tile).xq.find? fun e => decide (e.tag = g)
  | _ => none

/-- The bale that a request fills (R142, R207). -/
def State.filledSlot (s : State) (r : Req) : Option Nat :=
  if r.write then none
  else match r.what with
  | .fill slot => some slot
  | .xfer _ => (s.xferOf r).bind (·.slot)
  | .drain _ => none

/-- The fill of a slot has failed: the bale stays as it is (R130, R142). -/
def Tile.loseFill (T : Tile) (slot : Option Nat) : Tile :=
  match slot with
  | some b => { T with lostFills := withBit T.lostFills b true }
  | none => T

/-- Removes the n-th request, which has failed, and, when it serves a transfer, the transfer; a bale that it filled stays FILLING. -/
def State.dropWork (s : State) (n : Nat) (r : Req) : State :=
  let b := s.filledSlot r
  (s.dropReq n).updTile r.tile fun T =>
    let T := T.loseFill b
    match r.what with
    | .xfer g => { T with xq := T.xq.filter fun e => decide (e.tag ≠ g) }
    | _ => T

/-- TRAPCAUSE and TRAPVAL of the strand whose transfer a failing request serves (R290, R295). -/
def State.recordWork (s : State) (r : Req) (cause va : Nat) : State :=
  match s.xferOf r with
  | some e => s.updStrand r.tile e.strand fun x => { x with trapcause := BitVec.ofNat 8 cause, trapval := BitVec.ofNat 64 va }
  | none => s

/-- A request that fails for good: it is not performed, and its tile votes ABORT with the cause (R287, R290, R295). DEDUCED, log 43. -/
def State.failReq (s : State) (n : Nat) (r : Req) (cause va : Nat) : State :=
  let s := if cause = 0x18 ∨ cause = 0x0B then s.recordWork r cause va else s
  (s.dropWork n r).failTile r.tile 1 (BitVec.ofNat 8 cause)

/-- The fill of an EMPTY bale begins (R142). -/
def Tile.beginFill (T : Tile) (slot : Nat) : Tile :=
  let b := T.bale slot
  if b.state = 0 ∧ b.pend = true then T.setBale slot { b with state := 1 } else T

/-- FAULT of a bale that is FILLING. DEDUCED, log 42. -/
def Tile.setFault (T : Tile) (slot : Nat) (v : Bool) : Tile :=
  let b := T.bale slot
  if b.state = 1 then T.setBale slot { b with fault := v } else T

/-- Step 1 and 2 of R290: the n-th request is suspended with a fault record, whose address a failure will name, and a bale that it
fills takes FAULT. -/
def State.suspendReq (s : State) (n : Nat) (r : Req) (va : Nat) : State :=
  let g := (s.tile r.tile).gang
  let s := { s with reqs := s.reqs.set n { r with suspended := true, faultVa := va } }
  let s := match s.filledSlot r with
    | some b => s.updTile r.tile fun T => (T.beginFill b).setFault b true
    | none => s
  s.report (.pageFault g (bitsOf (s.tile r.tile).ctl.plbctl 0 16) (BitVec.ofNat 64 va) r.write)

/-! ## Release quota (R314, R345) -/

/-- RQUOTA of a partition as gang g sees it. -/
def State.rquotaOf (s : State) (p g : Nat) : Nat :=
  bitsOf (s.published g (.pcb p 2) ((s.part p).rquota.setWidth 64)) 0 32

/-- Units of an entry of some bytes (R314); none for no byte. -/
def entryUnits (len : Nat) : Nat := if len = 0 then 0 else (len + 63) / 64 + 1

/-- Units that a partition holds, in entries and in transfers whose entry is still to be made. -/
def State.unitsOf (s : State) (p : Nat) : Nat :=
  ((s.release.filter fun r => decide (r.part = p)).map (·.units)).sum +
    ((s.tiles.filter fun (t, _) => decide (s.partOf t = p) && !isSteward t).map fun (_, T) => (T.xq.map (·.units)).sum).sum

/-- Units that the package's 64 MiB hold. -/
def State.unitsAll (s : State) : Nat :=
  (s.release.map (·.units)).sum + (s.tiles.map fun (_, T) => (T.xq.map (·.units)).sum).sum

/-- `need` further units fit the partition's quota and the package's queue. -/
def State.quotaHolds (s : State) (p g need : Nat) : Bool :=
  decide (s.unitsOf p + need ≤ s.rquotaOf p g) && decide (s.unitsAll + need ≤ 2 ^ 20)

/-- The bytes of some addresses that lie in second-tier or host pages. -/
def releaseBytes (ps : List Page) (vas : List Nat) : Nat := (vas.filter fun a => decide (2 ^ 48 ≤ physIn ps a)).length

/-! ## Page twins (R295-R297) -/

/-- The first frame, from number k on, of the 65,536 that a stack's twin pool begins with, at the top of the stack; a retired one is
passed over (R303). -/
def State.freshFrame (s : State) (stack : Nat) : Nat → Nat → Option (Nat × Nat)
  | 0, _ => none
  | fuel + 1, k =>
    let f := (stack + 1) * 2 ^ 36 - 2 ^ 32 + k * 65536
    if 65536 ≤ k then none else if s.retired.get f false then State.freshFrame s stack fuel (k + 1) else some (f, k + 1)

/-- A frame of a stack's twin pool: one that a promotion has given it, or the next of those it begins with. No frame that has been retired
is taken (R303). DESIGN CHOICE, log 11. -/
def State.takeFrame (s : State) (stack : Nat) : Option (Nat × State) :=
  match s.twinFree.find? fun f => decide (f / 2 ^ 36 = stack) && !s.retired.get f false with
  | some f => some (f, { s with twinFree := s.twinFree.erase f })
  | none =>
    (s.freshFrame stack (s.retired.length + 1) (s.twinNext.get stack 0)).map fun fk =>
      (fk.1, { s with twinNext := s.twinNext.set stack 0 fk.2 })

/-- Copies a 64 KiB frame with its poison marks and the keys of its units. -/
def State.copyFrame (s : State) (src dst : Nat) : State :=
  let move {α : Type} [DecidableEq α] (m : SMap α) (d : α) (unit : Nat) : SMap α :=
    (m.filter fun kv => decide (src / unit ≤ kv.1) && decide (kv.1 < (src + 65536) / unit)).foldl
      (fun m kv => m.set (kv.1 - src / unit + dst / unit) d kv.2)
      (m.filter fun kv => !(decide (dst / unit ≤ kv.1) && decide (kv.1 < (dst + 65536) / unit)))
  { s with mem := move s.mem 0 1, memPoison := move s.memPoison false 8, memKey := move s.memKey 0 64 }

/-- What the first write of an attempt to a stepped page meets (R295): the twin, or the cause of a failure. -/
def State.allocTwin (s : State) (g : Nat) (p : Page) : Sum Nat State :=
  match s.twinOf p.leaf with
  | some t => if t.gang = g then .inr s else .inl 0x06
  | none =>
    let stack := entryAddr p.e / 2 ^ 36
    if 65536 ≤ (s.twins.filter fun t => decide (t.frame / 2 ^ 36 = stack)).length then .inl 0x0B
    else match s.takeFrame stack with
    | none => .inl 0x0B
    | some (f, s') =>
      let s' := s'.copyFrame (entryAddr p.e) f
      .inr { s' with twins := s'.twins ++ [⟨g, p.leaf, entryAddr p.e, f, []⟩] }

/-- The twins of all the stepped pages that a write reaches, or the first failure with its page. -/
def State.allocTwins (s : State) (g : Nat) : List Page → Sum (Nat × Nat) State
  | [] => .inr s
  | p :: rest =>
    if entryStep p.e then
      match s.allocTwin g p with
      | .inl c => .inl (c, p.num)
      | .inr s' => State.allocTwins s' g rest
    else State.allocTwins s g rest

/-- Notes the bytes that gang tile i writes in a twin; whether another tile of the gang has written one of them (R296). -/
def Twin.note (t : Twin) (i : Nat) (offs : List Nat) : Twin × Bool :=
  let hit := offs.any fun o => t.written.any fun w => decide (w.1 ≤ o) && decide (o ≤ w.2.1) && decide (w.2.2 ≠ i)
  ({ t with written := t.written ++ (runs offs).map fun r => (r.1, r.2, i) }, hit)

/-- Writes the bytes of a gang tile into the twins of its gang; whether the step conflicts (R296). -/
def State.writeTwins (s : State) (p i : Nat) (ps : List Page) (bs : List (Nat × Byte × Bool)) : State × Bool :=
  ps.foldl (fun ((s : State), (c : Bool)) pg =>
    if entryStep pg.e then
      match s.twinOf pg.leaf with
      | some t =>
        let mine := bs.filter fun b => decide (b.1 / 65536 = pg.num)
        let r := t.note i (mine.map fun b => b.1 % 65536)
        let s := { s with twins := s.twins.map fun (u : Twin) => if u.leaf = pg.leaf then r.1 else u }
        (s.writeBytesAs p (mine.map fun b => (t.frame + b.1 % 65536, b.2)), c || r.2)
      | none => (s, c)
    else (s, c)) (s, false)

/-! ## Serving a request (R287) -/

/-- Word i of a request moves now: a word alone, or all that have not moved ahead of the rest (R270). -/
def Req.due (r : Req) (only : Option Nat) (i : Nat) : Bool :=
  (match only with | some j => decide (i = j) | none => true) && !r.moved.any fun m => decide (m.1 = i)

/-- The words of a request that move now, each with the virtual addresses of its bytes. -/
def Req.pick (r : Req) (only : Option Nat) (vas : List Nat) : List (Nat × List Nat) :=
  ((List.range (r.len / 8)).zip (chunks 8 (r.len / 8) vas)).filter fun iv => r.due only iv.1

/-- A word as a request of partition p reads it through a view at some addresses of the model's memory: it takes the poison of the
words that supply it (R294, R301), and of a granule that is delivered poisoned (R302). Where another view's write is
not yet to be seen (R276), whether it is seen is the free value Config.seesOldView. DESIGN CHOICE, log 100. -/
def State.readWordVia (s : State) (p view : Nat) (bad : List Nat) (as : List Nat) : Word × Bool :=
  let bs := as.map (s.readVia p view)
  (BitVec.ofNat 64 (ofBytes (bs.map (·.1))), bs.any (·.2) || as.any fun a => bad.contains (a / 32))

/-- The state in which a request reads the unit of an address: with the key slot as it was when the request's first word of the unit was
deciphered (R348). -/
def State.asOpened (s : State) (r : Req) (a : Nat) : State :=
  match r.opened.find? fun u => decide (u.1 = a / 64) with
  | some u => s.updPart r.part fun q => { q with key := u.2 }
  | none => s

/-- A word as a request reads it at some addresses: each byte from its unit as the request has opened it. -/
def State.readWordOf (s : State) (r : Req) (as : List Nat) : Word × Bool :=
  let ws := as.map fun a => (s.asOpened r a).readWordVia r.part r.view r.badGranules [a]
  (BitVec.ofNat 64 (ofBytes (ws.map fun w => w.1.setWidth 8)), ws.any (·.2))

/-- The units of some addresses that a request opens now. -/
def State.opens (s : State) (r : Req) (as : List Nat) : List (Nat × Option (BitVec 512)) :=
  (((as.map (· / 64)).eraseDups).filter fun u => !r.opened.any fun o => decide (o.1 = u)).map fun u => (u, (s.part r.part).key)

/-- The words of some virtual addresses as a request of partition p in plain addressing reads them. -/
def State.readWordsAs (s : State) (p : Nat) (ps : List Page) (vas : List Nat) : List (Word × Bool) :=
  (chunks 8 (vas.length / 8) vas).map fun va => s.readWordVia p 0 [] (va.map (physIn ps))

/-- An engine's write of words, each at its own place in a range of tile addresses (R129); none when a delta cannot be had. -/
def Tile.writeAt (T : Tile) (off : Nat) (words : List (Nat × Word × Bool)) : Option Wrote :=
  T.putWords (words.map fun w => (off + 8 * w.1, w.2))

/-- Marks the transfer of a request as begun (R152). Its bale starts to fill or to drain with its first word, when its state is the
one of R207. -/
def Tile.startXfer (T : Tile) (tag : Nat) : Tile :=
  match T.xq.find? fun e => decide (e.tag = tag) with
  | none => T
  | some e =>
    let fits : Option Nat :=
      if e.begun then e.slot
      else e.slot.bind fun b =>
        let x := T.bale b
        if e.dir = 1 ∨ e.dir = 3 then (if x.state = 1 ∨ (x.state = 0 ∧ x.pend = true) then some b else none)
        else if x.state = 2 then some b else none
    let T := { T with xq := T.xq.map fun y => if y.tag = tag then { y with begun := true, slot := fits } else y }
    match fits with
    | some b =>
      if e.begun then T
      else if e.dir = 1 ∨ e.dir = 3 then T.beginFill b
      else T.setBale b { T.bale b with state := 3 }
    | none => T

/-- The work of a request begins with its first word (R142, R152). -/
def State.beginWork (s : State) (r : Req) : State :=
  match r.what with
  | .xfer g => s.updTile r.tile fun T => T.startXfer g
  | .fill b => s.updTile r.tile fun T => T.beginFill b
  | .drain _ => s

/-- The n-th request after some of its words have moved: dropped with its last words, or kept with what has moved. -/
def State.moveOn (s : State) (n : Nat) (r : Req) (only : Option Nat) (words : List (Nat × Word × Bool))
    (units : List (Nat × Option (BitVec 512))) : State :=
  match only with
  | none => s.dropReq n
  | some _ => { s with reqs := s.reqs.set n { r with frozen := none, moved := r.moved ++ words, opened := r.opened ++ units } }

/-- A read: the words reach the tile as engine writes (R129, R145), or the tile has no frame for them (R130). So it is with a
loader's fill of a bale that lies outside V and S segments. DESIGN CHOICE, log 115. -/
def State.performRead (s : State) (n : Nat) (r : Req) (only : Option Nat) (ps : List Page) (vas : List Nat) : State :=
  let mine := (r.pick only vas).map fun iv => (iv.1, iv.2.map (physIn ps))
  let words := mine.map fun ia => (ia.1, s.readWordOf r ia.2)
  match (s.tile r.tile).writeAt r.off words with
  | some w => (((s.drawn.setTile r.tile w.tile).noteConflict r.tile w.conflict)).moveOn n r only words (s.opens r (mine.flatMap (·.2)))
  | none => (s.dropWork n r).failTile r.tile 1 0x0B

/-- The bytes of some words with the poison of their word, at some addresses. -/
def spread (vas : List Nat) (words : List (Word × Bool)) : List (Nat × Byte × Bool) :=
  vas.zip (words.flatMap fun w => (toBytes 8 w.1.toNat).map fun b => (b, w.2))

/-- The release entry of a write (R314, R315), keyed by the transfer's routine and id. DESIGN CHOICE, log 45. -/
def State.enterRelease (s : State) (r : Req) (units : Nat) (bytes : List (Nat × Byte × Bool)) : State :=
  if bytes.isEmpty then s
  else
    let T := s.tile r.tile
    let key := match s.xferOf r with | some e => (e.routine, e.id.toNat) | none => (0, 0)
    let s := { s with release := s.release ++ [⟨T.gang, r.part, T.gti, key.1, key.2, units, bytes⟩] }
    match r.what with
    | .xfer g => s.updTile r.tile fun T => { T with xq := T.xq.map fun e => if e.tag = g then { e with units := 0 } else e }
    | _ => s

/-- Bytes that PUT, PUTV or the storer writes to plain HBM: performed in the request's view, and by a strand, or by the storer as
strand 5 (R276). -/
def State.writeInView (s : State) (r : Req) (bs : List (Nat × Byte × Bool)) : State :=
  let v := if isSteward r.tile then (0, r.tile) else ((s.tile r.tile).gang, (s.tile r.tile).gti)
  let k := match s.xferOf r with | some e => e.strand | none => 5
  let kept := s.viewWrites
  let new := (bs.filter fun b => decide (b.1 < 2 ^ 48) && !s.keyless r.part b.1).map fun b =>
    (⟨v.1, v.2, k, r.view, b.1, s.readByteAs r.part b.1, s.poisonAs r.part b.1⟩ : ViewWrite)
  let s := s.writeBytesAs r.part bs
  { s with viewWrites := kept ++ new }

/-- What a request's write of bytes tells the Gleaner (R326, R330): the virtual addresses, where they land, the words of a write that is
complete with them. -/
def State.seen (s : State) (r : Req) (last : Bool) (vas phys : List Nat) (words : List (Word × Bool)) : Seen :=
  ⟨(s.tile r.tile).gang, true, r.view, r.va.toNat, r.len, vas, phys, words, last⟩

/-- Where a gang's write of a byte lands: in the twin of a stepped page, else in the page's frame (R295). -/
def State.landsAt (s : State) (ps : List Page) (a : Nat) : Nat :=
  match (ps.find? fun q => decide (q.num = a / 65536) && entryStep q.e).bind fun q => s.twinOf q.leaf with
  | some t => t.frame + a % 65536
  | none => physIn ps a

/-- The bytes of a request's words that moved before, in some pages, at their virtual addresses. -/
def Req.movedBytes (r : Req) (ps : List Page) (vas : List Nat) : List (Nat × Byte × Bool) :=
  let at_ := chunks 8 (r.len / 8) vas
  (spread (r.moved.flatMap fun m => at_.getD m.1 []) (r.moved.map (·.2))).filter fun b => ps.any fun q => decide (q.num = b.1 / 65536)

/-- HBM words that a transfer completes with some bytes, of which it wrote others before: each takes the marks of what the transfer wrote
into it, and loses its former one (R294). -/
def State.settleMarks (s : State) (before now : List (Nat × Byte × Bool)) : State :=
  if before.isEmpty then s
  else ((now.map fun b => b.1 / 8).eraseDups).foldl (fun (s : State) w =>
    let mine := (before ++ now).filter fun b => decide (b.1 / 8 = w)
    if (mine.map (·.1)).eraseDups.length = 8 then s.setPoisonMark (8 * w) (mine.any (·.2.2)) else s) s

/-- All the words of a request, those that moved ahead of the rest among them, in their order. -/
def Req.wordsWith (r : Req) (words : List (Nat × Word × Bool)) : List (Word × Bool) :=
  (List.range (r.len / 8)).map fun i => (((r.moved ++ words).find? fun m => decide (m.1 = i)).map (·.2)).getD (0, false)

/-- Words of a write whose pages have passed every check: a steward tile's at once (R401); a gang tile's into twins and plain HBM,
and with its last word into the release queue (R295, R314). Words that need a key which is absent are not written, and their
ranges are reported (R348). The Gleaner sees what each turn writes (R326). -/
def State.performWrite (s : State) (n : Nat) (r : Req) (only : Option Nat) (ps : List Page) (vas : List Nat) : State :=
  let T := s.tile r.tile
  let p := r.part
  let mine := r.pick only vas
  let words := mine.map fun iv => (iv.1, BitVec.ofNat 64 (T.readNat (r.off + 8 * iv.1) 8), T.poisonAt (r.off + 8 * iv.1))
  let bs := spread (mine.flatMap (·.2)) (words.map (·.2))
  let place (l : List (Nat × Byte × Bool)) := l.map fun b => (physIn ps b.1, b.2)
  let all := if only.isNone then r.wordsWith words else []
  let now := mine.flatMap (·.2)
  let before := r.movedBytes ps vas
  if isSteward r.tile then
    let s := (s.writeInView r (place bs)).settleMarks (place before) (place bs)
    (s.observe p (s.seen r only.isNone now (now.map (physIn ps)) all)).moveOn n r only words []
  else
    let need := if only.isNone then entryUnits (releaseBytes ps vas) else 0
    let held := match s.xferOf r with | some e => e.units | none => 0
    if held < need ∧ !s.quotaHolds p T.gang (need - held) then s.failReq n r 0x19 0
    else
      let lost := bs.filter fun b => decide (physIn ps b.1 < 2 ^ 48) && s.keyless p (physIn ps b.1)
      let s := s.reportDiscarded p (lost.map fun b => physIn ps b.1)
      let bs := bs.filter fun b => !(decide (physIn ps b.1 < 2 ^ 48) && s.keyless p (physIn ps b.1))
      let touched := ps.filter fun pg => bs.any fun b => decide (b.1 / 65536 = pg.num)
      match s.allocTwins T.gang touched with
      | .inl (c, num) => s.failReq n r c ((vas.find? fun a => decide (a / 65536 = num)).getD 0)
      | .inr s' =>
        let stepped (a : Nat) : Bool := ps.any fun pg => decide (pg.num = a / 65536) && entryStep pg.e
        let plain := bs.filter fun b => !stepped b.1 && decide (physIn ps b.1 < 2 ^ 48)
        let out := (spread vas all).filter fun b => decide (2 ^ 48 ≤ physIn ps b.1)
        let w := (s'.writeInView r (place plain)).writeTwins p T.gti touched bs
        let land (l : List (Nat × Byte × Bool)) :=
          (l.map fun b => (w.1.landsAt ps b.1, b.2)).filter fun b => decide (b.1 < 2 ^ 48)
        let s := w.1.settleMarks (land before) (land bs)
        let s := s.observe p (s.seen r only.isNone now (now.map (s.landsAt ps)) all)
        ((s.enterRelease r need (place out)).noteConflict r.tile w.2).moveOn n r only words []

/-- Every earlier transfer of the tile has begun (R152). -/
def Tile.xferInOrder (T : Tile) (tag : Nat) : Bool := (T.xq.takeWhile fun e => decide (e.tag ≠ tag)).all (·.begun)

/-- Every earlier transfer of the tile has begun, when the request serves one (R152). -/
def State.inOrder (s : State) (r : Req) : Bool :=
  match r.what with
  | .xfer g => (s.tile r.tile).xferInOrder g
  | _ => true

/-- An immediate store of a strand to a word of a tile that was issued before the order number and has not been performed. -/
def State.istAhead (s : State) (src k d word ord : Nat) : Bool := (s.istPending src k d word).any fun i => decide (i.ord < ord)

/-- A word of a transfer's own tile waits for the immediate stores that its strand has issued to it before (R265, R266, R270). -/
def State.xferWordHeld (s : State) (t : Nat) (e : Xfer) (i : Nat) : Bool := s.istAhead t e.strand t ((e.offset + 8 * i) / 8) e.ord

/-- A word of a bale that the loader or the storer moves waits for those of the strand that gave it the slot. -/
def State.slotWordHeld (s : State) (r : Req) (b i : Nat) : Bool :=
  let by_ := (s.tile r.tile).slotBy.get b (0, 0)
  s.istAhead r.tile by_.1 r.tile ((r.off + 8 * i) / 8) by_.2

/-- A word of a request waits so. -/
def State.wordHeld (s : State) (r : Req) (i : Nat) : Bool :=
  match r.what with
  | .xfer _ => (match s.xferOf r with | some e => s.xferWordHeld r.tile e i | none => false)
  | .fill b => s.slotWordHeld r b i
  | .drain b => s.slotWordHeld r b i

/-- The n-th request comes to wait at a frozen stack, in the order of arrival (R304). -/
def State.freezeReq (s : State) (n : Nat) (r : Req) : State :=
  match r.frozen with
  | some _ => s
  | none => { s with reqs := s.reqs.set n { r with frozen := some s.waits }, waits := s.waits + 1 }

/-- The base die serves the n-th request, or one word of it (R270, R287): walk, checks, and the access. -/
def State.serve (s : State) (n : Nat) (only : Option Nat) : Host.Outcome State Fault Refusal :=
  match s.reqs[n]? with
  | none => .next s
  | some r =>
    let due := (List.range (r.len / 8)).filter (r.due only)
    if r.suspended ∨ !s.inOrder r ∨ (only.isSome ∧ due.isEmpty) ∨ due.any (s.wordHeld r) then .next s
    else match s.wakeFor r.tile (r.off + 8 * only.getD 0) (if only.isSome then 8 else r.len) with
    | some s' => .next s'
    | none =>
      match s.reqVas r with
      | none => .next (s.failReq n r 0x1B 0)
      | some vas =>
        let now := if only.isSome then (r.pick only vas).flatMap (·.2) else vas
        match s.translate r.root (s.tile r.tile).gang (pageHeads now) with
        | .beyond a => .fault (.noSuchTierAddress a)
        | .nonCanonical a => .next (s.failReq n r 0x18 a)
        | .fault a => .next (s.suspendReq n r a)
        | .ok ps =>
          match ps.findSome? fun p => s.pageCause r.tile r.write (decide (r.view ≠ 0)) p.e with
          | some c => .next (s.failReq n r c r.va.toNat)
          | none =>
            if ps.any s.frozenPage then .next (s.freezeReq n r)
            else
              let s := s.beginWork r
              .next (if r.write then s.performWrite n r only ps vas else s.performRead n r only ps vas)

/-- MEMORY_REQUEST (R287): all the words of a request that have not moved. -/
def execMemoryRequest (n : Nat) (s : State) : Host.Outcome State Fault Refusal := s.serve n none

/-- The steward's answer to the n-th request's fault (R290): it is retried from the walk, or dropped. -/
def State.answerReq (s : State) (n : Nat) (r : Req) (resolved : Bool) : State :=
  if resolved then
    let s := { s with reqs := s.reqs.set n { r with suspended := false } }
    match s.filledSlot r with
    | some b => s.updTile r.tile fun T => T.setFault b false
    | none => s
  else s.failReq n r 0x18 r.faultVa

/-! ## Publication records (R288, R291, R345) -/

/-- The doubleword that a target holds now. -/
def State.targetWord (s : State) : PubTarget → Word
  | .entry a => s.rawWord a
  | .view p h dw => BitVec.ofNat 64 (bitsOf ((s.part p).views.get h 0) (64 * dw) 64)
  | .pcb p dw => (s.part p).pcbWord dw

/-- Writes a target's doubleword. -/
def State.writeTarget (s : State) (t : PubTarget) (v : Word) : State :=
  match t with
  | .entry a => s.setRawWord a v
  | .view p h dw => s.updPart p fun q => { q with views := q.views.set h 0 (withBits (q.views.get h 0) (64 * dw) 64 v.toNat) }
  | .pcb p dw => s.updPart p fun q => q.setPcb dw v

/-- The old value had V = 0, so that the record is published at once (R288). -/
def State.targetInvalid (s : State) : PubTarget → Bool
  | .entry a => !entryV (s.rawWord a)
  | .view p h _ => !((s.part p).views.get h 0).getLsbD 72
  | .pcb _ _ => false

/-- The resident gangs that a record must be published for: those of the entry's domain, old or new, or of the
partition whose view table or control block it changes. DESIGN CHOICE, log 47. -/
def State.pubGangs (s : State) (p : Pub) : List Nat :=
  (s.gangs.filter fun gG =>
    decide (gG.2.state = .running) &&
      (match p.target with
       | .entry _ => decide (gG.2.domain.toNat = entryDomain p.old) || decide (gG.2.domain.toNat = entryDomain p.value)
       | .view q _ _ => decide (gG.2.part = q)
       | .pcb q _ => decide (gG.2.part = q))).map (·.1)

/-- The first record that can retire: the first of its target, published for every gang that counts (R288). -/
def State.retirable (s : State) : Option Nat :=
  (List.range s.pubs.length).find? fun i =>
    match s.pubs[i]? with
    | some p =>
      ((s.pubs.take i).all fun q => q.target != p.target) &&
        (s.targetInvalid p.target || (s.pubGangs p).all p.done.contains)
    | none => false

/-- Retires every record that can retire, with those that their retirement frees. -/
def State.settlePubs : Nat → State → State
  | 0, s => s
  | fuel + 1, s =>
    match s.retirable with
    | none => s
    | some i =>
      match s.pubs[i]? with
      | none => s
      | some p =>
        let s := { s.writeTarget p.target p.value with pubs := s.pubs.eraseIdx i }
        State.settlePubs fuel { s with pubs := s.pubs.map fun q => if q.target == p.target then { q with old := p.value } else q }

/-- Publishes every record for a gang at its COMMIT: those that stand first for their target (R288). -/
def State.publishFor (s : State) (g : Nat) : State :=
  let first (i : Nat) (p : Pub) : Bool := (s.pubs.take i).all fun q => q.target != p.target
  let pubs := ((List.range s.pubs.length).zip s.pubs).map fun ip =>
    if first ip.1 ip.2 then { ip.2 with done := ip.2.done ++ [g] } else ip.2
  State.settlePubs s.pubs.length { s with pubs := pubs }

/-- PUBLICATION_RECORD (R288). -/
def execPublicationRecord (target : PubTarget) (value : Word) (s : State) : Host.Outcome State Fault Refusal :=
  match target with
  | .entry a =>
    if !tierHolds 0 a then .fault (.noSuchTierAddress a)
    else
      let s' : State := { s with pubs := s.pubs ++ [⟨target, s.rawWord a, value, []⟩] }
      .next (s'.settlePubs s'.pubs.length)
  | t =>
    let s' : State := { s with pubs := s.pubs ++ [⟨t, s.targetWord t, value, []⟩] }
    .next (s'.settlePubs s'.pubs.length)

/-! ## Reliability and temperature (R301-R304) -/

/-- The spares of one kind that a bank or pseudo-channel has used: keys of `repairs`. -/
def spareKey (kind stack place : Nat) : Nat := 8 * (place * 8 + stack) + kind

/-- The kind of spare that repairs a row, and how many it takes: a spare row, a remap entry, a spare granule for each of the row's failing
granules; none when they are exhausted (R303). -/
def State.spareFor (s : State) (stack bank channel granules : Nat) : Option (Nat × Nat) :=
  if s.repairs.get (spareKey 0 stack bank) 0 < 4 then some (spareKey 0 stack bank, 1)
  else if s.repairs.get (spareKey 1 stack channel) 0 < 32 then some (spareKey 1 stack channel, 1)
  else if s.repairs.get (spareKey 2 stack bank) 0 + granules ≤ 8 then some (spareKey 2 stack bank, granules)
  else none

/-- Poisons every word of a frame. -/
def State.poisonFrame (s : State) (frame bytes : Nat) : State :=
  (List.range (bytes / 8)).foldl (fun s i => s.setPoisonMark (frame + 8 * i) true) s

/-- Poisons the words of some addresses. -/
def State.poisonWords (s : State) (as : List Nat) : State := as.foldl (fun (s : State) a => s.setPoisonMark a true) s

/-- A leaf becomes invalid by a publication record (R288, R303). -/
def State.invalidateLeaf (s : State) (l : Nat) : State :=
  let s' : State := { s with pubs := s.pubs ++ [⟨.entry l, s.rawWord l, withBit (s.rawWord l) 0 false, []⟩] }
  State.settlePubs s'.pubs.length s'

/-- Step 4 of R303: the page of a leaf moves to a reserve frame, every word poisoned, and its twin keeps that frame as the committed one;
with the reserve empty, its leaf becomes invalid by a publication record (R288). A twin frame is replaced in the same way: with the
reserve empty, the leaf of its page becomes invalid. -/
def State.retireFrame (s : State) (addr : Nat) (leaf : Option (Nat × Nat)) (spare : Option Nat) : State :=
  let old := addr / 65536 * 65536
  let s := ({ s with retired := s.retired.set old false true }).report (.frameRetired old)
  match leaf, spare with
  | some (l, level), some f =>
    let s := (s.setRawWord l (withBits (s.rawWord l) 28 36 (f / 4096))).poisonFrame f (pageBytes level)
    { s with twins := s.twins.map fun (t : Twin) => if t.leaf = l then { t with base := f } else t }
  | some (l, _), none => s.invalidateLeaf l
  | none, some f =>
    let twins := s.twins.map fun (t : Twin) => if t.frame = old then { t with frame := f } else t
    State.poisonFrame { s with twins := twins } f 65536
  | none, none => (match s.twins.find? fun t => decide (t.frame = old) with | some t => s.invalidateLeaf t.leaf | none => s)

/-- A read among the dropped commands is delivered poisoned (R302): the words of the granule it would have read. -/
def State.dropRead (s : State) (addr : Nat) (dropped : Option MemAccess) : State :=
  match dropped with
  | some (.request n) =>
    (match s.reqs[n]? with
     | some r => { s with reqs := s.reqs.set n { r with badGranules := r.badGranules ++ [addr / 32] } }
     | none => s)
  | some (.atomic n) =>
    (match s.amos[n]? with
     | some a => { s with amos := s.amos.set n { a with poisoned := true } }
     | none => s)
  | none => s

/-- HBM_PARITY_ALERT (R302, R303): the first three alerts on a command are replayed with no effect; the fourth fails the
row, delivers a dropped read poisoned and repairs the row; the words of the row's stack that steps 1 to 3 cannot read are moved
poisoned. DESIGN CHOICE, log 48. -/
def execHbmParityAlert (stack bank channel addr count : Nat) (loss : RowLoss)
    (leaf : Option (Nat × Nat)) (spare : Option Nat) (s : State) : Host.Outcome State Fault Refusal :=
  if count < 4 then .next s
  else
    let s := s.dropRead addr loss.dropped
    match s.spareFor stack bank channel loss.granules with
    | some (k, n) =>
      .next (State.poisonWords { s with repairs := s.repairs.set k 0 (s.repairs.get k 0 + n) }
        (loss.lost.filter fun a => decide (a / 2 ^ 36 = stack)))
    | none => .next (s.retireFrame addr leaf spare)

/-- The highest temperature of the stacks (THERMSTAT, R346). -/
def State.stackTemp (s : State) (stack : Nat) (celsius : BitVec 8) : State :=
  { s with pkg := { s.pkg with temps := s.pkg.temps.set stack 0 celsius } }

/-- STACK_CRITICAL_TEMPERATURE (R304). -/
def execStackCriticalTemperature (stack : Nat) (celsius : BitVec 8) (s : State) : Host.Outcome State Fault Refusal :=
  let s := s.stackTemp stack celsius
  .next { s with pkg := { s.pkg with frozen := withBit s.pkg.frozen stack true } }

end Sys2Proof.Machine
end

