-- ==== Sys2Proof/Machine/Transfers.lean ====
section
/-! DEFINITION. Put and get, their completion, the drains of bales and the end of a segment's wake (R140, R142,
R150-R152, R206, R207, R402). -/

namespace Sys2Proof.Machine

/-! ## Issue (R206) -/

/-- The directions of R151: 0 PUT, 1 GET, 2 PUTV, 3 GETV. -/
structure Direction where
  code : BitVec 2
  write : Bool
  view : Bool
deriving DecidableEq, Repr

/-- The transfer parameter word and the tile range break the rules of R206. -/
def Tile.badParameters (T : Tile) (off p : Word) (site : BitVec 2) : Bool :=
  let len := bitsOf p 0 18
  decide (len = 0) || decide (len % 8 ≠ 0) || decide (229376 < len) || decide (bitsOf p 18 14 ≠ 0) ||
    decide (bitsOf p 47 17 ≠ 0) || (decide (site = 2) != decide (bitsOf p 32 15 ≠ 0)) || !T.rangeIs Region.vs off.toNat len

/-- The checks of R402 on a gang tile address. -/
def State.gangTileOk (s : State) (t idx off len : Nat) : Bool :=
  (match s.gangOf t with | some g => decide (idx < g.size) | none => false) && decide (0x8000 ≤ off) && decide (off + len ≤ 0x40000)

/-- Units of the release quota that a write of a gang tile needs at issue; none when a page of it faults (R206). DEDUCED, log 44. -/
def State.unitsAtIssue (s : State) (t : Nat) (vas : List Nat) : Option Nat :=
  match s.pages (s.partOf t) (s.tile t).gang (pageHeads vas) with
  | .ok ps => some (entryUnits (releaseBytes ps vas))
  | _ => none

/-- The bale that a transfer over a tile range acts on (R207): the lowest of exactly that range, when its state fits. -/
def Tile.xferSlot (T : Tile) (d : Direction) (off len : Nat) : Option Nat :=
  match (List.range 64).find? fun i => decide ((T.bale i).addr = off) && decide ((T.bale i).bytes = len) with
  | some i => if (T.bale i).state = (if d.write then 2 else 0) then some i else none
  | none => none

/-- A transfer enters the queue (R151, R206), with its request to the memory side unless it goes to a gang tile. -/
def State.enqueue (s : State) (d : Direction) (off len : Nat) (va : Word) (view : Nat) (uipc : Pc) (sy : Sync) (units : Nat) :
    State :=
  let t := s.curTile
  let T := s.myTile
  let slot := T.xferSlot d off len
  let e : Xfer :=
    ⟨d.code, off, len, view, s.curStrand, uipc, va, sy, s.me.xferCount, s.me.routine, T.xtag, false, slot, units, [], s.netOrd⟩
  let s' := s.updMyTile fun T =>
    let T := { T with xq := T.xq ++ [e], xtag := T.xtag + 1 }
    match slot with
    | some b => if d.write then T else T.setBale b { T.bale b with pend := true }
    | none => T
  let s' := { s'.updMe fun x => { x with xferCount := x.xferCount + 1 } with netOrd := s.netOrd + 1 }
  if !d.view && (gangTileVa va).isSome then s'
  else { s' with reqs := s'.reqs ++ [s.request t d.write va view len off (.xfer T.xtag)] }

/-- PUT, GET, PUTV and GETV (R206). -/
def State.transfer (s : State) (d : Direction) (x y z w : SReg) (sy : Sync) : Eff :=
  let m := s.me
  let T := s.myTile
  let t := s.curTile
  let off := m.rd x
  let va := m.rd y
  let p := m.rd z
  let len := bitsOf p 0 18
  let handle := bitsOf (m.rd w) 0 8
  match m.lowPoison ([x, y, z] ++ if d.view then [w] else []) with
  | some r => .trap 0x09 (r.setWidth 64)
  | none =>
    if bitsOf off 0 3 ≠ 0 then .trap 0x05 off
    else if bitsOf va 0 3 ≠ 0 then .trap 0x05 va
    else if T.badParameters off p sy.site then .trap 0x06 off
    else
      let v := if d.view then s.tileView t handle else none
      if d.view && (match v with | some v => decide (v.positions < va.toNat + len) | none => true) then
        .trap 0x1B (BitVec.ofNat 64 handle)
      else
        let gt := if d.view then none else gangTileVa va
        let fail : Option Word := match gt with
          | some (i, o) => if s.gangTileOk t i o len then none else some va
          | none =>
            if s.rangeOk t va.toNat len v d.write then none
            else some (match v with | some v => BitVec.ofNat 64 v.base | none => va)
        match fail with
        | some a => .trap 0x06 a
        | none =>
          let vas := match v with
            | some v => (List.range len).map fun i => v.addr (va.toNat + i)
            | none => (List.range len).map (va.toNat + ·)
          let units := if d.write ∧ !isSteward t ∧ gt.isNone then (s.unitsAtIssue t vas).getD 0 else 0
          if units ≠ 0 ∧ !s.quotaHolds (s.partOf t) T.gang units then .trap 0x19 (BitVec.ofNat 64 (s.partOf t))
          else if 32 ≤ T.xq.length then .retry s
          else .done (s.enqueue d off.toNat len va (if d.view then handle else 0) (BitVec.ofNat 15 (bitsOf p 32 15)) sy units)

/-- What the issue of a transfer needs to know. -/
def xferInfo (head : Nat) (g : Guard) (sy : Sync) : Info := { head := head, guard := g, sync := sy, sigNow := false }

/-- PUT (R206). -/
def execPut (g : Guard) (x y z : SReg) (sy : Sync) (s : State) : Host.Outcome State Fault Refusal :=
  s.issue (xferInfo 0xEB00 g sy) fun _ _ s => s.transfer ⟨0, true, false⟩ x y z 0 sy

/-- GET (R206). -/
def execGet (g : Guard) (x y z : SReg) (sy : Sync) (s : State) : Host.Outcome State Fault Refusal :=
  s.issue (xferInfo 0xEB01 g sy) fun _ _ s => s.transfer ⟨1, false, false⟩ x y z 0 sy

/-- PUTV (R206). -/
def execPutv (g : Guard) (x y z w : SReg) (sy : Sync) (s : State) : Host.Outcome State Fault Refusal :=
  s.issue (xferInfo 0xEB02 g sy) fun _ _ s => s.transfer ⟨2, true, true⟩ x y z w sy

/-- GETV (R206). -/
def execGetv (g : Guard) (x y z w : SReg) (sy : Sync) (s : State) : Host.Outcome State Fault Refusal :=
  s.issue (xferInfo 0xEB03 g sy) fun _ _ s => s.transfer ⟨3, false, true⟩ x y z w sy

/-! ## Remote writes (R131, R133) -/

/-- A conflict that a write of tile `src` completes at tile t: before t's ARRIVE t votes HALT, after it the report
returns to the writer (R133). DEDUCED, log 55. -/
def State.noteRemote (s : State) (src t : Nat) (c : Bool) : State :=
  if !c then s
  else if (s.tile t).vote.sent then s.raiseVote src 3 0x0C
  else s.raiseVote t 3 0x0C

/-- The words of another tile's write land at tile t, each by the attribute of its segment (R20, R402): a word that lies
in no V or S segment is not written, and t votes ABORT with PROTECTION; without a frame t votes ABORT with
DELTA_FULL (R130). The flag says whether a conflict was completed. -/
def State.landWords (s : State) (t : Nat) (remote : Bool) (a : Nat) : List (Word × Bool) → State × Bool
  | [] => (s, false)
  | w :: rest =>
    let T := s.tile t
    if !(T.region a).vs then
      let r := State.landWords s t remote (a + 8) rest
      (r.1.failTile t 1 0x06, r.2)
    else match T.writeWords remote a [w] with
    | some x =>
      let r := State.landWords (s.setTile t x.tile) t remote (a + 8) rest
      (r.1, x.conflict || r.2)
    | none =>
      let r := State.landWords s t remote (a + 8) rest
      (r.1.failTile t 1 0x0B, r.2)

/-- What a GET reads in the word at an address of a gang tile (R402): committed V, current S, or the own view at the issuing tile; a word
of a D segment is not read. -/
def Tile.foreignWord (T : Tile) (own : Bool) (a : Nat) : Option (Word × Bool) :=
  if (T.region a).vs then
    if own then some (BitVec.ofNat 64 (T.readNat a 8), T.poisonAt a)
    else some (BitVec.ofNat 64 (ofBytes ((List.range 8).map fun j => T.remoteByte (a + j))), T.remotePoison a)
  else none

/-- A word that was read is written at tile t; the flag says that no frame was free for it (R130). -/
def State.landRead (s : State) (t a : Nat) (w : Word × Bool) : State × Bool :=
  match (s.tile t).writeWords false a [w] with
  | some x => ((s.setTile t x.tile).noteConflict t x.conflict, false)
  | none => (s, true)

/-- Word i of a transfer to or from a gang tile (R402); `ext` is what another package's tile returns. The flag says that tile t
had no frame for a word that it fetched. -/
def State.gangWord (s : State) (t : Nat) (e : Xfer) (idx off : Nat) (ext : List (Word × Bool)) (i : Nat) : State × Bool :=
  match (s.gangOf t).bind fun g => g.tileAt idx with
  | some d =>
    if e.dir = 0 then
      let r := s.landWords d (decide (d ≠ t)) (off + 8 * i) ((s.tile t).readWords (e.offset + 8 * i) 1)
      (if d = t then r.1.noteConflict t r.2 else r.1.noteRemote t d r.2, false)
    else match (s.tile d).foreignWord (decide (d = t)) (off + 8 * i) with
    | none => (s.failTile d 1 0x06, false)
    | some w => s.landRead t (e.offset + 8 * i) w
  | none =>
    if e.dir = 0 then (s, false)
    else match ext[i]? with
    | some w => s.landRead t (e.offset + 8 * i) w
    | none => (s, false)

/-- The words of a transfer that have not moved ahead of the rest (R270). -/
def Xfer.left (e : Xfer) : List Nat := (List.range (e.len / 8)).filter fun i => !e.moved.contains i

/-- The words of a transfer to or from a gang tile that are left (R402). -/
def State.gangTransfer (s : State) (t : Nat) (e : Xfer) (idx off : Nat) (ext : List (Word × Bool)) : State × Bool :=
  e.left.foldl (fun (r : State × Bool) i => let x := r.1.gangWord t e idx off ext i; (x.1, r.2 || x.2)) (s, false)

/-! ## Completion (R152, R207) -/

/-- The bale state at the completion of a transfer (R207). -/
def Tile.endXfer (T : Tile) (e : Xfer) : Tile :=
  match e.slot with
  | some b =>
    let x := T.bale b
    if e.dir = 1 ∨ e.dir = 3 then (if x.state = 1 then T.setBale b { x with state := 2, pend := false, fault := false } else T)
    else if x.state = 3 then T.setBale b { x with state := 0 } else T
  | none => T

/-- A transfer leaves the queue. -/
def Tile.dropXfer (T : Tile) (tag : Nat) : Tile := { T with xq := T.xq.filter fun x => decide (x.tag ≠ tag) }

/-- The signal of a completed transfer by its SITE (R152). -/
def State.xferSignal (s : State) (t : Nat) (e : Xfer) : State :=
  if e.sy.site = 2 then s.updStrand t e.strand fun x => { x with uiq := x.uiq ++ [(e.id, e.uipc)] }
  else if e.sy.site = 1 then
    match gangTileVa e.va with
    | some (i, _) =>
      if e.dir = 0 ∨ e.dir = 1 then
        match (s.gangOf t).bind fun g => g.tileAt i with
        | some d => s.engineSignal d e.sy
        | none => s
      else s.engineSignal t e.sy
    | none => s.engineSignal t e.sy
  else s.engineSignal t e.sy

/-- The gang tile of this package, and the offset at it, that a PUT or GET names (R402). -/
def State.xferDest (s : State) (t : Nat) (e : Xfer) : Option (Nat × Nat) :=
  if e.dir = 0 ∨ e.dir = 1 then
    match gangTileVa e.va with
    | some (i, off) => ((s.gangOf t).bind fun g => g.tileAt i).map fun d => (d, off)
    | none => none
  else none

/-- Words of a transfer to or from a gang tile that are to move now must wait: the other tile is in another step (R17), an earlier
transfer has not begun (R152), or the strand's earlier immediate store to one of them has not been performed (R265, R266, R270). -/
def State.gangHeld (s : State) (t : Nat) (e : Xfer) (is : List Nat) : Bool :=
  let far (i : Nat) : Bool := match s.xferDest t e with
    | some (d, off) => s.istAhead t e.strand d ((off + 8 * i) / 8) e.ord
    | none => false
  (match s.xferDest t e with | some (d, _) => s.behind t d | none => false) || !(s.tile t).xferInOrder e.tag ||
    is.any fun i => s.xferWordHeld t e i || far i

/-- An access to the tile ranges of a gang-tile transfer, from word i on, that meets a gated segment: its wake begins (R140). -/
def State.xferWake (s : State) (t : Nat) (e : Xfer) (i len : Nat) : Option State :=
  match s.wakeFor t (e.offset + 8 * i) len with
  | some s' => some s'
  | none =>
    match s.xferDest t e with
    | some (d, off) => s.wakeFor d (off + 8 * i) len
    | none => none

/-- A fetch whose words the tile had no frame for (R130): the transfer is gone, its bale stays FILLING, and the tile votes ABORT. -/
def State.fetchFailed (s : State) (t : Nat) (e : Xfer) : State :=
  (s.updTile t fun T => (T.loseFill e.slot).dropXfer e.tag).failTile t 1 0x0B

/-- The transfer as its first word leaves it (R142, R152). -/
def State.startedXfer (s : State) (t n : Nat) (e : Xfer) : State × Xfer :=
  let s := s.updTile t fun T => T.startXfer e.tag
  (s, ((s.tile t).xq[n]?).getD e)

/-- Word i of the n-th entry of a tile's queue, a transfer to or from a gang tile, moves ahead of the rest (R270). What another
package's tile returns comes with the completion. -/
def State.moveWord (s : State) (t n i : Nat) : State :=
  match (s.tile t).xq[n]? with
  | none => s
  | some e =>
    match s.xferDest t e, gangTileVa e.va with
    | some _, some (idx, off) =>
      if !e.left.contains i || s.gangHeld t e [i] then s
      else match s.xferWake t e i 8 with
      | some s' => s'
      | none =>
        let p := s.startedXfer t n e
        let r := p.1.gangWord t p.2 idx off [] i
        if r.2 then r.1.fetchFailed t p.2
        else r.1.updTile t fun T => { T with xq := T.xq.map fun x => if x.tag = e.tag then { x with moved := x.moved ++ [i] } else x }
    | _, _ => s

/-- A transfer has completed (R152, R207). -/
def State.finishXfer (s : State) (t : Nat) (e : Xfer) : State :=
  (s.updTile t fun T => (T.dropXfer e.tag).endXfer e).xferSignal t e

/-- TRANSFER_COMPLETE of the n-th entry of a tile's queue (R152). What is left of a transfer to a gang tile is made here; another has
been made by its memory request. DESIGN CHOICE, log 51. -/
def execTransferComplete (t n : Nat) (ext : List (Word × Bool)) (s : State) : Host.Outcome State Fault Refusal :=
  match (s.tile t).xq[n]? with
  | none => .next s
  | some e =>
    match if e.dir = 0 ∨ e.dir = 1 then gangTileVa e.va else none with
    | some (i, off) =>
      if s.gangHeld t e e.left then .next s
      else match s.xferWake t e 0 e.len with
      | some s' => .next s'
      | none =>
        let p := s.startedXfer t n e
        let r := p.1.gangTransfer t p.2 i off ext
        .next (if r.2 then r.1.fetchFailed t p.2 else r.1.finishXfer t p.2)
    | none =>
      if e.begun ∧ s.reqs.all (fun r => decide (r.tile ≠ t) || decide (r.what ≠ .xfer e.tag)) then .next (s.finishXfer t e)
      else .next s

/-! ## Drains (R142, R148) -/

/-- The storer begins to drain the head slot of a ring (R142): a write of the bale to its tag. Any ring may be drained so, one that the
loader fills too. DESIGN CHOICE, log 46. -/
def State.beginDrain (s : State) (t ring : Nat) : State :=
  let T := s.tile t
  let x := T.ring ring
  let slot := x.headSlot
  let b := T.bale slot
  if x.v ∧ x.occ ≠ 0 ∧ b.state = 2 ∧ x.bound = 0 then
    let s := s.updTile t fun T => T.setBale slot { b with state := 3 }
    { s with reqs := s.reqs ++
        [s.request t true (BitVec.ofNat 64 (b.tag.toNat * 128)) b.view.toNat b.bytes b.addr (.drain slot)] }
  else s

/-- Every byte of a slot that is being drained has been read out: no request of it is left, and no word of a transfer to a gang tile. -/
def State.readOut (s : State) (t slot : Nat) : Bool :=
  (s.reqs.all fun r => decide (r.tile ≠ t) || decide (r.what ≠ .drain slot) && (match s.xferOf r with | some e => decide (e.slot ≠ some slot) | none => true)) &&
    (s.tile t).xq.all fun e => decide (e.slot ≠ some slot) || (s.xferDest t e).isNone || e.left.isEmpty

/-- BALE_DRAIN_COMPLETE (R142, R148): every byte has been read out; the storer pops a ring's head slot. A transfer that drained the
bale does not act on it any more (R207). -/
def execBaleDrainComplete (t slot : Nat) (s : State) : Host.Outcome State Fault Refusal :=
  let T := s.tile t
  let b := T.bale slot
  if b.state = 3 ∧ s.readOut t slot then
    let ofXfer := T.xq.any fun e => decide (e.slot = some slot)
    let r := b.ring.toNat
    if !ofXfer ∧ b.ringv ∧ (T.ring r).headSlot = slot ∧ (T.ring r).occ ≠ 0 then
      .next (s.updTile t fun T => (T.setBale slot { b with state := 0 }).popRing r)
    else
      .next (s.updTile t fun T =>
        { T.setBale slot { b with state := 0 } with xq := T.xq.map fun e => if e.slot = some slot then { e with slot := none } else e })
  else .next s

/-! ## The end of a wake (R140) -/

/-- A segment as its wake leaves it: every word zero, poisoned, empty and not stale. -/
def TMem.wakeSegment (m : TMem) (seg : Nat) : TMem :=
  let k := wordMask (0x8000 + 0x4000 * seg) 0x4000
  { m with
    bytes := m.bytes.filter fun b => !(decide (0x4000 * seg ≤ b.1) && decide (b.1 < 0x4000 * (seg + 1)))
    poison := m.poison ||| k, full := m.full &&& ~~~k, stale := m.stale &&& ~~~k }

/-- SEGMENT_WAKE_END (R140): GATE clears; the accesses that waited are tried again in their order of arrival, and complete. -/
def execSegmentWakeEnd (t seg : Nat) (s : State) : Host.Outcome State Fault Refusal :=
  let T := s.tile t
  if T.waking.getLsbD seg ∧ T.gated seg then
    let s := s.updTile t fun T =>
      { T with
        waking := withBit T.waking seg false
        ctl := { T.ctl with memcfg := withBit T.ctl.memcfg (28 + seg) false }
        mem := T.mem.wakeSegment seg }
    .next (s.releaseHeld t seg)
  else .next s

end Sys2Proof.Machine
end

