-- ==== Sys2Proof/Machine/Cluster.lean ====
section
/-! DEFINITION. Cluster space, the event unit, immediate stores, immediate and deferred atomics (R89, R235-R255). -/

namespace Sys2Proof.Machine

/-! ## Cluster space (R89, R236) -/

/-- Traffic of the COMMIT class between two tiles that was entered before an order number has not arrived: deferred-atomic records,
schedule sends and stepped messages keep one order for each source and destination (R283). -/
def State.commitAhead (s : State) (src dest ord : Nat) : Bool :=
  (s.amodNet.any fun f => !f.landed && decide (f.src = src) && decide (f.home = dest) && decide (f.ord < ord)) ||
    (s.sends.any fun f => !f.landed && decide (f.src = src) && decide (f.dest = some dest) && decide (f.ord < ord)) ||
    s.msgs.any fun m => !m.msg.desc.getLsbD 2 && decide (m.src = src) && decide (m.dest = dest) && decide (m.ord < ord)

/-- What an address of LDC, STC or an atomic names. -/
inductive CsPlace where
  /-- Cluster space: the home tile and its data address. -/
  | home (t a : Nat)
  /-- The event window: the offset. -/
  | event (off : Nat)
  | none
deriving DecidableEq, Repr

/-- The classification of an address by a tile of a gang that holds whole clusters (R89, R236, R237). -/
def State.csPlace (s : State) (t : Nat) (ea : Int) : CsPlace :=
  if !s.fullCluster t then .none
  else if 0 ≤ ea ∧ ea < 0x380000 then
    match s.memberTile t (csMember ea.toNat) with
    | some h => .home h (csOffset ea.toNat)
    | none => .none
  else
    let base := (s.tile t).ctl.evbase.toNat
    if base ≤ ea ∧ ea < base + 0x1000 then .event (ea.toNat - base) else .none

/-- The common checks of LDC and STC up to the classification (R85, R89): POISON_ADDRESS, MISALIGNED. -/
def State.csAccess (s : State) (a : SReg) (imm : BitVec 15) (n : Nat) (k : Int → CsPlace → Eff) : Eff :=
  let x := s.me
  let ea := eaOf (x.rd a) imm.toInt
  if x.tag a then .trap 0x09 (a.setWidth 64)
  else if ea % (n : Int) ≠ 0 then .trap 0x05 (wordOf ea)
  else k ea (s.csPlace s.curTile ea)

/-- The load of LDC at its home (R89): the own view at the issuing tile, the committed image elsewhere; a delta-pool
word at the target reads poisoned and makes the target vote ABORT. -/
def State.loadCluster (s : State) (d : SReg) (n h a : Nat) : State :=
  let H := s.tile h
  if h = s.curTile then s.updMe fun x => x.wr d (loadExtend n (H.readNat a n)) (H.poisonAt a)
  else
    let v := ofBytes ((List.range n).map fun i => H.remoteByte (a + i))
    let s := if (H.region a).vs then s else s.failTile h 1 0x06
    s.updMe fun x => x.wr d (loadExtend n v) (H.remotePoison a)

/-- The store of STC at its home (R89); without a frame at the issuing tile it is DELTA_FULL, with its own ea as TRAPVAL (R85). -/
def State.storeCluster (s : State) (n h a : Nat) (v ea : Word) : Eff :=
  let t := s.curTile
  if h = t then (match s.storeAt n a v with | .trap c _ => .trap c ea | r => r)
  else if !((s.tile h).region a).vs then .done (s.failTile h 1 0x06)
  else match (s.tile h).writeLine true false a (toBytes n v.toNat) false with
  | some w => .done ((s.setTile h w.tile).noteRemote t h w.conflict)
  | none => .done (s.failTile h 1 0x0B)

/-! ## Event-unit objects (R238-R242) -/

/-- An object of the event unit. -/
inductive EvObj where
  | barrier (b : Nat)
  | mutex (m : Nat)
  | line (e : Nat)
deriving DecidableEq, Repr

/-- The object at an offset of the window (R238). -/
def evObj (off : Nat) : Option EvObj :=
  if off % 8 ≠ 0 then none
  else if off < 0x40 then some (.barrier (off / 8))
  else if 0x100 ≤ off ∧ off < 0x180 then some (.mutex ((off - 0x100) / 8))
  else if 0x200 ≤ off ∧ off < 0x300 then some (.line ((off - 0x200) / 8))
  else none

/-- A barrier. -/
def Cluster.barrier (c : Cluster) (b : Nat) : Barrier := c.barriers.get b {}
/-- Writes a barrier. -/
def Cluster.setBarrier (c : Cluster) (b : Nat) (x : Barrier) : Cluster := { c with barriers := c.barriers.set b {} x }
/-- An event line. -/
def Cluster.line (c : Cluster) (e : Nat) : Line := c.lines.get e {}
/-- Writes an event line. -/
def Cluster.setLine (c : Cluster) (e : Nat) (x : Line) : Cluster := { c with lines := c.lines.set e {} x }
/-- A mutex. -/
def Cluster.mutex (c : Cluster) (m : Nat) : Mutex := c.mutexes.get m {}
/-- Writes a mutex. -/
def Cluster.setMutex (c : Cluster) (m : Nat) (x : Mutex) : Cluster := { c with mutexes := c.mutexes.set m {} x }

/-- An event-space load completes at strand k of tile t with a value (R240-R242); when a user-level interrupt has taken
the strand from its wait, the answer waits for its return (R44). -/
def State.finishEvent (s : State) (t k : Nat) (d : SReg) (v : Word) : State :=
  let x := s.strand t k
  if x.run = .parked .event then (s.setStrand t k (x.wr d v false)).retireHeld t k Sync.none
  else match x.standing with
  | some (pc, .event, none) => s.setStrand t k { x with standing := some (pc, .event, some v) }
  | _ => s

/-- The gang whose tiles a cluster holds. -/
def State.clusterGang (s : State) (c : Nat) : Option Gang :=
  ((List.range 17).find? fun u => decide ((s.tile (17 * c + u)).gang ≠ 0)).bind fun u => s.gangOf (17 * c + u)

/-- The cluster key of a gang cluster of the gang that cluster c belongs to, when it lies on the same die (R246). -/
def State.gangCluster (s : State) (c cl : Nat) : Option Nat :=
  (s.clusterGang c).bind fun g => (g.tileAt (16 * cl)).bind fun t =>
    if clusterOf t / 68 = c / 68 then some (clusterOf t) else none

/-- Sends the chained message of an object to its chain target (R240, R241). DESIGN CHOICE, log 49. -/
def State.sendChain (s : State) (c : Nat) (line : Bool) (obj : Nat) (target : Option (Bool × Nat × Nat)) : State :=
  match target with
  | none => s
  | some (l, cl, o) =>
    match s.gangCluster c cl with
    | some d => { s with chains := s.chains ++ [⟨false, c, line, obj, d, l, o⟩] }
    | none => s

/-- A barrier fires (R240): its loads complete with the new GEN, releases go to the barriers whose chained arrivals it
counted, and it is empty again. -/
def State.fireBarrier (s : State) (c b : Nat) : State :=
  let x := (s.cluster c).barrier b
  let gen := x.gen + 1
  let y : Barrier := { x with gen := gen, arr := 0, waitup := false, waiters := [], children := [], late := [] }
  let s := s.updCluster c fun C => C.setBarrier b y
  let s := x.waiters.foldl (fun s w => s.finishEvent w.1 w.2.1 w.2.2 (gen.setWidth 64)) s
  { s with chains := s.chains ++ x.children.map fun ch => ⟨true, c, false, b, ch.1, false, ch.2⟩ }

/-- One arrival at a barrier that is not in WAITUP (R240). -/
def State.countArrival (s : State) (c b : Nat) (w : Option (Nat × Nat × SReg)) (child : Option (Nat × Nat)) : State :=
  let x := (s.cluster c).barrier b
  let y := { x with arr := x.arr + 1, waiters := x.waiters ++ w.toList, children := x.children ++ child.toList }
  let s := s.updCluster c fun C => C.setBarrier b y
  if y.arr < y.count.toNat then s
  else match y.chain with
  | some (false, _, _) => (s.updCluster c fun C => C.setBarrier b { y with waitup := true }).sendChain c false b y.chain
  | _ => (s.sendChain c false b y.chain).fireBarrier c b

/-- An arrival at an armed barrier (R240): held while it is in WAITUP. -/
def State.arriveBarrier (s : State) (c b : Nat) (w : Option (Nat × Nat × SReg)) (child : Option (Nat × Nat)) : State :=
  let x := (s.cluster c).barrier b
  if x.waitup then s.updCluster c fun C => C.setBarrier b { x with late := x.late ++ [(w, child)] }
  else s.countArrival c b w child

/-- A release reaches a barrier in WAITUP (R240): it fires, and the held arrivals count toward the new generation. -/
def State.releaseBarrier (s : State) (c b : Nat) : State :=
  let x := (s.cluster c).barrier b
  if x.waitup then x.late.foldl (fun s a => s.arriveBarrier c b a.1 a.2) (s.fireBarrier c b) else s

/-- A signal at an armed event line (R241): when it fires, its loads complete and its chain is sent once. -/
def State.signalLine (s : State) (c e : Nat) : State :=
  let x := (s.cluster c).line e
  let sig : BitVec 16 := if x.sig = 65535 then x.sig else x.sig + 1
  if x.count.toNat ≤ sig.toNat then
    let s := s.updCluster c fun C => C.setLine e { x with sig := sig, waiters := [], sent := true }
    let s := if x.sent then s else s.sendChain c true e x.chain
    x.waiters.foldl (fun s w => s.finishEvent w.1 w.2.1 w.2.2 (sig.setWidth 64)) s
  else s.updCluster c fun C => C.setLine e { x with sig := sig }

/-- An object takes no arrival, wait or signal (R239). -/
def Cluster.disarmed (c : Cluster) : EvObj → Bool
  | .barrier b => decide ((c.barrier b).count = 0)
  | .line e => decide ((c.line e).count = 0)
  | .mutex _ => false

/-- The wait of the instruction at PC that a user-level interrupt left standing, with its answer if it has come (R44). -/
def Strand.resumed (x : Strand) (why : Reason) : Option (Option Word) :=
  match x.standing with
  | some w => if w.1 = x.pc ∧ w.2.1 = why ∧ !x.uia then some w.2.2 else none
  | none => none

/-- An event-space load (R238, R240-R242, R244). A load that comes back from a user-level interrupt resumes the wait it
left standing (R44). -/
def State.eventLoad (s : State) (d : SReg) (off : Nat) (val : Word) : Eff :=
  let t := s.curTile
  let k := s.curStrand
  let c := clusterOf t
  let C := s.cluster c
  let x := s.me
  let resumed := x.resumed .event
  match resumed with
  | some (some v) => .done (s.updMe fun x => { x.wr d v false with standing := none })
  | some none => .parked (s.updMe fun x => { x with standing := none }) .event
  | none =>
    match evObj off with
    | none => .trap 0x06 val
    | some o =>
      if C.disarmed o then .trap 0x06 val
      else match o with
      | .barrier b =>
        if !s.storesLanded then .retry s
        else
          -- the arrival is counted on a strand that waits; a barrier that fires at once completes it
          let w := (s.updMe fun x => { x with standing := some (x.pc, .event, none), run := .ready }).arriveBarrier c b (some (t, k, d)) none
          match w.me.standing with
          | some (_, _, some v) => .done (w.updMe fun x => { x.wr d v false with standing := none })
          | _ => .parked (w.updMe fun x => { x with standing := none }) .event
      | .mutex m =>
        let y := C.mutex m
        if y.owner.isNone then .done ((s.updCluster c fun C => C.setMutex m { y with owner := some (t, k) }).updMe fun x => x.wr d 0 false)
        else .parked (s.updCluster c fun C => C.setMutex m { y with queue := y.queue ++ [(t, k, d)] }) .event
      | .line e =>
        let y := C.line e
        if y.count.toNat ≤ y.sig.toNat then .done (s.updMe fun x => x.wr d (y.sig.setWidth 64) false)
        else .parked (s.updCluster c fun C => C.setLine e { y with waiters := y.waiters ++ [(t, k, d)] }) .event

/-- LDC (R89). -/
def execLdc (g : Guard) (sz : Size) (d a : SReg) (imm : BitVec 15) (s : State) : Host.Outcome State Fault Refusal :=
  s.issue { head := 0x6218 + sz.code.toNat, guard := g } fun _ _ s =>
    s.csAccess a imm sz.bytes fun ea p =>
      match p with
      | .none => .trap 0x06 (wordOf ea)
      | .event off => if sz = .d then s.eventLoad d off (wordOf ea) else .trap 0x06 (wordOf ea)
      | .home h e =>
        if !(s.myTile.region e).vs then .trap 0x06 (wordOf ea)
        else if s.behind s.curTile h then .retry s
        else if (s.tile h).gatedAt e then .retry (s.startWake h e)
        else if s.storePending h e then .retry s
        else .done (s.loadCluster d sz.bytes h e)

/-- STC (R89): to a versioned line of another tile it goes by the COMMIT class, behind what that class carries there (R283). -/
def execStc (g : Guard) (sz : Size) (d a : SReg) (imm : BitVec 15) (s : State) : Host.Outcome State Fault Refusal :=
  s.issue { head := 0x621C + sz.code.toNat, guard := g } fun _ _ s =>
    s.csAccess a imm sz.bytes fun ea p =>
      match p with
      | .home h e =>
        if !(s.myTile.region e).vs then .trap 0x06 (wordOf ea)
        else if s.me.tag d then .trap 0x07 (wordOf ea)
        else if s.behind s.curTile h then .retry s
        else if (s.tile h).gatedAt e then .retry (s.startWake h e)
        else if s.storePending h e then .retry s
        else if h ≠ s.curTile ∧ ((s.tile h).region e).isV ∧ s.commitAhead s.curTile h s.netOrd then .retry s
        else s.storeCluster sz.bytes h e (s.me.rd d) (wordOf ea)
      | _ => .trap 0x06 (wordOf ea)

/-! ## EVSIG, EVARM, MTXREL (R246, R247) -/

/-- Causes 1 to 3 of R247 on the event address. -/
def State.eventAccess (s : State) (rs : List SReg) (a : SReg) (k : EvObj → Eff) : Eff :=
  let x := s.me
  let v := x.rd a
  match x.lowPoison rs with
  | some r => .trap 0x09 (r.setWidth 64)
  | none =>
    if v.toNat % 8 ≠ 0 then .trap 0x05 v
    else match s.csPlace s.curTile v.toNat with
    | .event off => (match evObj off with | some o => k o | none => .trap 0x06 v)
    | _ => .trap 0x06 v

/-- EVSIG (R240, R241, R247). -/
def execEvsig (g : Guard) (a : SReg) (s : State) : Host.Outcome State Fault Refusal :=
  s.issue { head := 0xF240, guard := g, msgOk := true, regs := [a] } fun _ _ s =>
    s.eventAccess [a] a fun o =>
      let c := clusterOf s.curTile
      if (s.cluster c).disarmed o then .trap 0x06 (s.me.rd a)
      else match o with
      | .mutex _ => .trap 0x06 (s.me.rd a)
      | .barrier b => if s.storesLanded then .done (s.arriveBarrier c b none none) else .retry s
      | .line e => if s.storesLanded then .done (s.signalLine c e) else .retry s

/-- A chain target of an arming word (R246): event line, gang cluster index, object; none when the word breaks the
rules of R246 or R247. With CHV = 0 the target's fields are ignored. DESIGN CHOICE, log 120. -/
def State.armWord (s : State) (o : EvObj) (w : Word) : Option (BitVec 16 × Option (Bool × Nat × Nat)) :=
  let t := s.curTile
  let count : BitVec 16 := w.setWidth 16
  let obj := bitsOf w 17 5
  let line := w.getLsbD 22
  let cl := bitsOf w 23 18
  if bitsOf w 41 23 ≠ 0 then none
  else if !w.getLsbD 16 then some (count, none)
  else
    let self := match s.gangOf t with | some g => decide (cl = g.cluster (s.tile t).gti) | none => false
    let same := match o with | .barrier b => !line && decide (b = obj) | .line e => line && decide (e = obj) | .mutex _ => false
    if (!line && decide (8 ≤ obj)) || (self && same) || (s.gangCluster (clusterOf t) cl).isNone then none
    else some (count, some (line, cl, obj))

/-- EVARM (R246, R247). -/
def execEvarm (g : Guard) (a b : SReg) (s : State) : Host.Outcome State Fault Refusal :=
  s.issue { head := 0xF241, guard := g } fun _ _ s =>
    s.eventAccess [a, b] a fun o =>
      let c := clusterOf s.curTile
      let C := s.cluster c
      let v := s.me.rd a
      match o with
      | .mutex _ => .trap 0x06 v
      | .barrier i =>
        match s.armWord o (s.me.rd b) with
        | none => .trap 0x06 v
        | some (n, ch) =>
          let x := C.barrier i
          if x.arr ≠ 0 ∨ x.waitup ∨ !x.waiters.isEmpty then .trap 0x06 v
          else .done (s.updCluster c fun C => C.setBarrier i { count := n, chain := ch })
      | .line e =>
        match s.armWord o (s.me.rd b) with
        | none => .trap 0x06 v
        | some (n, ch) =>
          if !(C.line e).waiters.isEmpty then .trap 0x06 v
          else .done (s.updCluster c fun C => C.setLine e { count := n, chain := ch })

/-- MTXREL (R242, R247). -/
def execMtxrel (g : Guard) (a : SReg) (s : State) : Host.Outcome State Fault Refusal :=
  s.issue { head := 0xF242, guard := g } fun _ _ s =>
    s.eventAccess [a] a fun o =>
      let c := clusterOf s.curTile
      let v := s.me.rd a
      match o with
      | .mutex m =>
        let x := (s.cluster c).mutex m
        if x.owner ≠ some (s.curTile, s.curStrand) then .trap 0x06 v
        else if !s.storesLanded then .retry s
        else match x.queue with
        | [] => .done (s.updCluster c fun C => C.setMutex m {})
        | w :: rest => .done ((s.updCluster c fun C => C.setMutex m ⟨some (w.1, w.2.1), rest⟩).finishEvent w.1 w.2.1 w.2.2 0)
      | _ => .trap 0x06 v

/-- A cluster votes ABORT with PROTECTION for a chain message to a disarmed object (R239). DEDUCED, log 50. -/
def State.failCluster (s : State) (c : Nat) : State :=
  (List.range 17).foldl (fun s u => if (s.tile (17 * c + u)).gang ≠ 0 then s.failTile (17 * c + u) 1 0x06 else s) s

/-- An earlier message between the same two event units has not arrived: SHEAF traffic keeps its order (R283). -/
def State.chainAhead (s : State) (n : Nat) (m : ChainMsg) : Bool :=
  (s.chains.take n).any fun c => decide (c.srcCluster = m.srcCluster) && decide (c.dstCluster = m.dstCluster)

/-- CHAINED_ARRIVAL (R240, R241): the n-th message on the network between event units. -/
def execChainedArrival (n : Nat) (s : State) : Host.Outcome State Fault Refusal :=
  match s.chains[n]? with
  | none => .next s
  | some m =>
    if m.release ∨ s.chainAhead n m then .next s
    else
      let s := { s with chains := s.chains.eraseIdx n }
      let o : EvObj := if m.dstLine then .line m.dstObj else .barrier m.dstObj
      if (s.cluster m.dstCluster).disarmed o then .next (s.failCluster m.srcCluster)
      else if m.dstLine then .next (s.signalLine m.dstCluster m.dstObj)
      else .next (s.arriveBarrier m.dstCluster m.dstObj none (if m.srcLine then none else some (m.srcCluster, m.srcObj)))

/-- BARRIER_RELEASE (R240). -/
def execBarrierRelease (n : Nat) (s : State) : Host.Outcome State Fault Refusal :=
  match s.chains[n]? with
  | none => .next s
  | some m =>
    if m.release ∧ !s.chainAhead n m then .next (State.releaseBarrier { s with chains := s.chains.eraseIdx n } m.dstCluster m.dstObj)
    else .next s

/-! ## Immediate stores (R248-R250) -/

/-- IST and ISTF.D (R248). -/
def State.immediateStore (s : State) (fenced : Bool) (sz : Size) (x y : SReg) (sy : Sync) : Eff :=
  let m := s.me
  let t := s.curTile
  let v := m.rd y
  let off := bitsOf v 0 18
  let dest := bitsOf v 32 23
  let size := match s.gangOf t with | some g => g.size | none => 0
  if m.tag y then .trap 0x09 (y.setWidth 64)
  else if off % sz.bytes ≠ 0 then .trap 0x05 v
  else if bitsOf v 18 14 ≠ 0 ∨ bitsOf v 55 9 ≠ 0 ∨ size ≤ dest ∨ off < 0x8000 then .trap 0x06 v
  else if m.tag x then .trap 0x07 v
  else if 64 ≤ (s.ists.filter fun i => decide (i.src = t)).length then .retry s
  else
    let d := (s.gangOf t).bind fun g => g.tileAt dest
    .done { s with ists := s.ists ++ [⟨t, s.curStrand, d, off, sz, m.rd x, sy, fenced, false, false, s.netOrd⟩], netOrd := s.netOrd + 1 }

/-- IST (R248). -/
def execIst (g : Guard) (sz : Size) (x y : SReg) (sy : Sync) (s : State) : Host.Outcome State Fault Refusal :=
  s.issue { head := 0xF300 + sz.code.toNat, guard := g, sync := sy, sigNow := false } fun _ _ s =>
    s.immediateStore false sz x y sy

/-- ISTF.D (R248, R250). -/
def execIstfD (g : Guard) (x y : SReg) (sy : Sync) (s : State) : Host.Outcome State Fault Refusal :=
  s.issue { head := 0xF304, guard := g, sync := sy, sigNow := false } fun _ _ s => s.immediateStore true .d x y sy

/-- The bytes of a store performed by tile t's memory (R249): the tile after it and whether a conflict was completed;
none when no frame is free. -/
def Tile.performStore (T : Tile) (remote : Bool) (a n : Nat) (v : Word) : Option Wrote :=
  match T.region a with
  | .seg .v => T.writeV remote true a (toBytes n v.toNat) false
  | _ =>
    let w := a / 8 * 8
    let poison := decide (n < 8) && T.poisonAt w
    let bytes := (List.range 8).map fun i =>
      if a ≤ w + i ∧ w + i < a + n then BitVec.ofNat 8 (v.toNat / 256 ^ (w + i - a)) else T.byteAt (w + i)
    some ⟨T.writeS true w bytes poison, false⟩

/-- An immediate store reaches tile d (R249): the state, and the report of a conflict completed after d's ARRIVE. -/
def State.landStore (s : State) (remote : Bool) (d a n : Nat) (v : Word) : State × Bool :=
  if !((s.tile d).region a).vs then (s.failTile d 1 0x06, false)
  else match (s.tile d).performStore remote a n v with
  | none => (s.failTile d 1 0x0B, false)
  | some w =>
    let s := s.setTile d w.tile
    if w.conflict then (if (s.tile d).vote.sent then (s, true) else (s.raiseVote d 3 0x0C, false)) else (s, false)

/-- A store may be performed now (R250): ISTF.D after every earlier store of its strand, any store after those of its
strand to its word. -/
def State.storeReady (s : State) (n : Nat) (i : Ist) : Bool :=
  (s.ists.take n).all fun j =>
    j.landed || decide (j.src ≠ i.src) || decide (j.strand ≠ i.strand) ||
      !(i.fenced || (decide (j.dest = i.dest) && decide (j.addr / 8 = i.addr / 8)))

/-- A flit of the COMMIT lane from another package is accepted, once in a step: none when its count has been accepted already (R392). -/
def State.accept (s : State) (dest : Nat) (f : Flit) : Option State :=
  let x := ((s.tile dest).gang, f.pkg, f.count)
  if s.accepted.contains x then none else some { s with accepted := s.accepted ++ [x] }

/-- An immediate store from another package: into a V segment it rides the COMMIT lane. With SITE 1 its signal is delivered here (R249). -/
def State.landForeign (s : State) (e : ExtStore) : State :=
  match if ((s.tile e.dest).region e.addr).isV then s.accept e.dest e.flit else some s with
  | none => s
  | some s =>
    let s := (s.landStore true e.dest e.addr e.size.bytes e.data).1
    if e.sy.site = 1 then s.engineSignal e.dest e.sy else s

/-- IMMEDIATE_STORE_ARRIVAL (R249): the n-th store in flight, or one of another package. -/
def execImmediateStoreArrival (n : Nat) (ext : Option ExtStore) (s : State) : Host.Outcome State Fault Refusal :=
  match ext with
  | some e =>
    if (s.tile e.dest).gatedAt e.addr then .next (s.startWake e.dest e.addr)
    else .next (s.landForeign e)
  | none =>
    match s.ists[n]? with
    | none => .next s
    | some i =>
      if i.landed ∨ !s.storeReady n i then .next s
      else match i.dest with
      | none => .next { s with ists := s.ists.set n { i with landed := true } }
      | some d =>
        if s.behind i.src d then .next s
        else if (s.tile d).gatedAt i.addr then .next (s.startWake d i.addr)
        else
          let r := s.landStore (decide (d ≠ i.src)) d i.addr i.size.bytes i.data
          .next { r.1 with ists := r.1.ists.set n { i with landed := true, report := r.2 } }

/-- IMMEDIATE_STORE_COMPLETE (R249): its signal by SITE, and the conflict report of R133. A store that was dropped
completes too. DESIGN CHOICE, log 121. -/
def execImmediateStoreComplete (n : Nat) (report : Bool) (s : State) : Host.Outcome State Fault Refusal :=
  match s.ists[n]? with
  | none => .next s
  | some i =>
    if !i.landed then .next s
    else
      let s := s.noteConflict i.src (i.report || (i.dest.isNone && report))
      let s := { s with ists := s.ists.eraseIdx n }
      if i.sy.site = 1 then
        match i.dest with
        | some d => .next (s.engineSignal d i.sy)
        | none => .next s
      else .next (s.engineSignal i.src i.sy)

/-! ## Immediate atomics (R251-R253) -/

/-- Where an atomic of n bytes of a tile goes, after the checks of address (R155, R251): none for PROTECTION. -/
def State.atomicPlace (s : State) (t : Nat) (v : Word) (n : Nat) : Option Bool :=
  if v.toNat < 0x380000 then
    match s.csPlace t v.toNat with
    | .home _ e => if ((s.tile t).region e).isS then some false else none
    | _ => none
  else if v.toNat < 0x400000 then none
  else if s.rangeOk t v.toNat n none false ∧ s.rangeOk t v.toNat n none true then some true
  else none

/-- AMO and AMOF (R251): the strand is held until the old value returns. -/
def State.atomic (s : State) (op : AmoOp) (float : Option RedOp) (word : Bool) (d a b c : SReg) : Eff :=
  let x := s.me
  let v := x.rd a
  let n := if word then 4 else 8
  if x.tag a then .trap 0x09 (a.setWidth 64)
  else if v.toNat % n ≠ 0 then .trap 0x05 v
  else match s.atomicPlace s.curTile v n with
  | none => .trap 0x06 v
  | some hbm =>
    if x.tag b || (decide (op = .cas) && x.tag c) then .trap 0x0A v
    else
      let p := s.partOf s.curTile
      .hold { s with amos := s.amos ++
        [⟨s.curTile, s.curStrand, hbm, v, op, float, word, x.rd b, x.rd c, false, none, p, s.rootOf p s.myTile.gang, false⟩] } (.atomic d)

/-- AMO (R251). -/
def execAmo (g : Guard) (op : AmoOp) (word : Bool) (d a b c : SReg) (s : State) : Host.Outcome State Fault Refusal :=
  s.issue { head := (if word then 0xF230 else 0xF210) + op.code.toNat, guard := g, sigNow := false } fun _ _ s =>
    s.atomic op none word d a b c

/-- AMOF (R251). -/
def execAmof (g : Guard) (op : RedOp) (d a b : SReg) (s : State) : Host.Outcome State Fault Refusal :=
  s.issue { head := 0xF220 + op.code.toNat, guard := g, sigNow := false } fun _ _ s => s.atomic .swap (some op) true d a b 0

/-- The new value of an integer atomic of n bits (R252). -/
def amoNew (op : AmoOp) (n w x y : Nat) : Nat :=
  match op with
  | .add => (w + x) % 2 ^ n
  | .and => w &&& x
  | .or => w ||| x
  | .xor => w ^^^ x
  | .min => if signedOf n w ≤ signedOf n x then w else x
  | .max => if signedOf n x ≤ signedOf n w then w else x
  | .minu => Nat.min w x
  | .maxu => Nat.max w x
  | .swap => x
  | .cas => if w = y then x else w

/-- The new value of AMOF and its atomic status (R252). -/
def amofNew (op : RedOp) (w x : Nat) : Nat × Flags :=
  match op with
  | .add =>
    let r := sumX 0 [fp32.value w, fp32.value x]
    let q := fp32.round r.1 0 0
    (q.1, r.2.or q.2)
  | _ =>
    if (fp32.value w).snan then (w ||| 0x400000, { nv := true })
    else if (fp32.value x).snan then (x ||| 0x400000, { nv := true })
    else fp32.minMax (decide (op = .max)) w x

/-- The word that an atomic stores, and what its register takes: value and tag (R252). -/
def Amo.result (m : Amo) (w : Nat) (poisoned : Bool) : Nat × Word × Bool :=
  let n := if m.word then 32 else 64
  match m.float with
  | some op =>
    let r := amofNew op w (m.x.toNat % 2 ^ 32)
    (r.1, BitVec.ofNat 64 ((if poisoned then 0 else r.2.atomic) * 2 ^ 32 + w), poisoned)
  | none => (amoNew m.op n w (m.x.toNat % 2 ^ n) (m.y.toNat % 2 ^ n), BitVec.ofInt 64 (signedOf n w), poisoned)

/-- The old value returns to the strand, which goes on (R251). -/
def State.finishAtomic (s : State) (m : Amo) (v : Word) (tag : Bool) : State :=
  match (s.strand m.src m.strand).hold with
  | .atomic d => (s.updStrand m.src m.strand fun x => x.wr d v tag).retireHeld m.src m.strand Sync.none
  | _ => s

/-- The strand of an atomic takes a trap on its return (R251, R290). -/
def State.trapAtomic (s : State) (m : Amo) (cause : Nat) : State :=
  match (s.strand m.src m.strand).hold with
  | .atomic _ => s.trapHeld m.src m.strand cause m.addr
  | _ => s

/-- An atomic at its home tile (R89, R252, R253). -/
def State.atomicHome (s : State) (m : Amo) (h a : Nat) : State :=
  let H := s.tile h
  let n := if m.word then 4 else 8
  let w := ofBytes ((List.range n).map fun i => H.remoteByte (a + i))
  if !(H.region a).isS then
    (s.failTile h 1 0x06).finishAtomic m (m.result w true).2.1 true
  else
    let po := H.remotePoison (a / 8 * 8)
    let r := m.result w po
    let s := if po then s else s.updTile h fun T => T.writeS false a (toBytes n r.1) false
    s.finishAtomic m r.2.1 r.2.2

/-- An atomic at the memory side (R251, R252, R287, R290, R304). -/
def State.atomicHbm (s : State) (n : Nat) (m : Amo) : Host.Outcome State Fault Refusal :=
  let t := m.src
  let drop (s : State) : State := { s with amos := s.amos.eraseIdx n }
  let p := m.part
  let g := (s.tile t).gang
  match s.translate m.root g [m.addr.toNat] with
  | .beyond a => .fault (.noSuchTierAddress a)
  | .nonCanonical _ => .next ((drop s).trapAtomic m 0x18)
  | .fault _ =>
    .next (State.report { s with amos := s.amos.set n { m with suspended := true } }
      (.pageFault g (bitsOf (s.tile t).ctl.plbctl 0 16) m.addr true))
  | .ok ps =>
    match ps.head? with
    | none => .next s
    | some pg =>
      if (s.pageCause t false false pg.e).isSome ∨ (s.pageCause t true false pg.e).isSome ∨ entryStep pg.e ∨ entryTier pg.e ≠ 0 then
        .next ((drop s).trapAtomic m 0x06)
      else if s.frozenPage pg then 
        .next (match m.frozen with
          | some _ => s
          | none => { s with amos := s.amos.set n { m with frozen := some s.waits }, waits := s.waits + 1 })
      else
        let len := if m.word then 4 else 8
        let a := leafPhys pg.level pg.e m.addr
        let bs := (List.range len).map fun i => s.readVia p 0 (a + i)
        let w := ofBytes (bs.map (·.1))
        let po := bs.any (·.2) || m.poisoned
        let r := m.result w po
        let s := drop s.drawn
        let bytes := toBytes len r.1
        let s := if po then s
          else (s.writeBytesAs p (((List.range len).zip bytes).map fun ib => (a + ib.1, ib.2, false))).observe p
            (Seen.plain g m.addr.toNat len ((List.range len).map (a + ·)))
        .next (s.finishAtomic m r.2.1 r.2.2)

/-- ATOMIC_PERFORM (R253): the n-th atomic in flight. -/
def execAtomicPerform (n : Nat) (s : State) : Host.Outcome State Fault Refusal :=
  match s.amos[n]? with
  | none => .next s
  | some m =>
    if m.suspended then .next s
    else if m.hbm then s.atomicHbm n m
    else match s.memberTile m.src (csMember m.addr.toNat) with
    | none => .next s
    | some h =>
      let a := csOffset m.addr.toNat
      if s.behind m.src h ∨ s.istPending m.src m.strand h (a / 8) ≠ [] then .next s
      else if (s.tile h).gatedAt a then .next (s.startWake h a)
      else .next (State.atomicHome { s with amos := s.amos.eraseIdx n } m h a)

/-- The steward's answer to the fault of the n-th atomic (R290). -/
def State.answerAtomic (s : State) (n : Nat) (m : Amo) (resolved : Bool) : State :=
  if resolved then { s with amos := s.amos.set n { m with suspended := false } }
  else State.trapAtomic { s with amos := s.amos.eraseIdx n } m 0x18

/-! ## Deferred atomics (R254) -/

/-- AMOD.ADD (R254). -/
def execAmodAdd (g : Guard) (a b : SReg) (s : State) : Host.Outcome State Fault Refusal :=
  s.issue { head := 0xF228, guard := g } fun _ _ s =>
    let x := s.me
    let v := x.rd a
    let t := s.curTile
    if isSteward t then .trap 0x06 0
    else if x.tag a then .trap 0x09 (a.setWidth 64)
    else if v.toNat % 4 ≠ 0 then .trap 0x05 v
    else match s.csPlace t v.toNat with
    | .home h e =>
      if !(s.myTile.region e).isV then .trap 0x06 v
      else if x.tag b then .trap 0x0A v
      else
        let r : AmodRec := ⟨e, (x.rd b).setWidth 32, s.myTile.gti, x.routine, x.rseq⟩
        .done { (s.updMe fun x => { x with rseq := x.rseq + 1 }) with amodNet := s.amodNet ++ [⟨t, h, r, false, false, s.netOrd⟩], netOrd := s.netOrd + 1 }
    | _ => .trap 0x06 v

/-- A frame for the tile's next records, when the last one is full: eight records to a frame (R254). -/
def Tile.amodFrame (T : Tile) : Option Tile :=
  if T.amods.length % 8 ≠ 0 then some T
  else T.mem.alloc.map fun fm => { T with mem := fm.2, amodFrames := T.amodFrames ++ [fm.1] }

/-- The 4-byte word of a record is in a mask of its line's delta (R133). -/
def TMem.masked (m : TMem) (a : Nat) : Bool :=
  match m.deltas.find (lineOf a) with
  | some d => decide ((d.own ||| d.remote) &&& lineMask (a % 128) 4 ≠ 0)
  | none => false

/-- AMOD_RECORD_ARRIVAL (R89, R133, R254). -/
def execAmodRecordArrival (n : Nat) (s : State) : Host.Outcome State Fault Refusal :=
  match s.amodNet[n]? with
  | none => .next s
  | some f =>
    if f.landed ∨ s.behind f.src f.home ∨ s.commitAhead f.src f.home f.ord then .next s
    else
      let h := f.home
      let mark (s : State) (report : Bool) : State := { s with amodNet := s.amodNet.set n { f with landed := true, report := report } }
      if !((s.tile h).region f.item.addr).isV then .next (mark (s.failTile h 1 0x06) false)
      else match (s.tile h).amodFrame with
      | none => .next (mark (s.failTile h 1 0x0B) false)
      | some T =>
        let hit := T.mem.masked f.item.addr
        let s := s.setTile h { T with amods := T.amods ++ [f.item] }
        if hit ∧ !T.vote.sent then .next (mark (s.raiseVote h 3 0x0C) false) else .next (mark s hit)

/-- AMOD_ACKNOWLEDGEMENT (R254). -/
def execAmodAcknowledgement (n : Nat) (s : State) : Host.Outcome State Fault Refusal :=
  match s.amodNet[n]? with
  | none => .next s
  | some f =>
    if f.landed then .next { s.noteConflict f.src f.report with amodNet := s.amodNet.eraseIdx n } else .next s

end Sys2Proof.Machine
end

