-- ==== Sys2Proof/Machine/SysRegs.lean ====
section
/-! DEFINITION. The system registers of R36: who may read and write each, what each reads, what a write does. -/

namespace Sys2Proof.Machine

/-! ## Privileges (R36) -/

/-- The lowest privilege that reads register n and the lowest that writes it (none: writes are ignored); none for a
number that R36 does not list. -/
def sysAccess (n : Nat) : Option (Nat × Option Nat) :=
  if n < 0x0C then some (if n = 5 then 1 else 0, some 0)
  else match n with
  | 0x100 => some (0, none) | 0x101 => some (1, none) | 0x102 => some (0, none)
  | 0x103 => some (0, some 3) | 0x104 => some (3, some 3) | 0x105 => some (0, some 1)
  | 0x106 => some (0, none) | 0x107 => some (0, some 1) | 0x108 => some (0, some 1)
  | 0x109 => some (0, some 1) | 0x10A => some (0, none) | 0x10B => some (1, some 1)
  | 0x10C => some (1, some 3) | 0x10D => some (0, some 1) | 0x10E => some (0, none)
  | 0x200 => some (0, none) | 0x201 => some (0, some 1) | 0x202 => some (1, some 3) | 0x203 => some (1, none)
  | 0x300 => some (0, none) | 0x301 => some (0, none) | 0x302 => some (0, none) | 0x303 => some (0, none)
  | 0x304 => some (0, none) | 0x305 => some (0, none)
  | 0x400 => some (3, some 3) | 0x401 => some (3, some 3) | 0x402 => some (3, some 3) | 0x403 => some (3, none)
  | 0x404 => some (3, some 3) | 0x405 => some (3, some 3) | 0x406 => some (3, some 3) | 0x407 => some (3, none)
  | _ => none

/-! ## Reading -/

/-- A number placed at a bit position. -/
def fieldAt (lo v : Nat) : Nat := v * 2 ^ lo

/-- A flag placed at a bit position. -/
def flagAt (lo : Nat) (b : Bool) : Nat := if b then 2 ^ lo else 0

/-- TBLSTAT (R193). -/
def Tile.tblstat (T : Tile) : Nat :=
  let enc (b : Bool) := encodable (T.tabs.of b)
  let f (b : Bool) : Nat := if enc b then tableF (T.tabs.of b) else 0
  flagAt 0 (enc false) + flagAt 1 (enc true) + flagAt 2 (T.swapping false) + flagAt 3 (T.swapping true) +
    fieldAt 4 (f false) + fieldAt 12 (f true)

/-- The member index of a tile in its gang (R235); 0 for a tile of no gang. -/
def State.memberOf (s : State) (t : Nat) : Nat :=
  match s.gangOf t with | some g => (s.tile t).gti % g.perCluster | none => 0

/-- FWDCFG with HOPS (R221). -/
def State.fwdcfgRead (s : State) (t : Nat) : Nat :=
  let v := (s.tile t).ctl.fwdcfg
  let lead := bitsOf v 2 4
  let own := s.memberOf t
  bitsOf v 0 6 + fieldAt 6 (if bitsOf v 0 2 = 2 then (if own ≤ lead then lead - own else own - lead) else 0)

/-- VOTESTAT (R305). -/
def Vote.stat (v : Vote) : Nat :=
  v.vote.toNat + fieldAt 2 v.cause.toNat + flagAt 10 v.sent + fieldAt 11 v.ldec.toNat + fieldAt 13 v.lcause.toNat +
    fieldAt 21 v.sgen.toNat

/-- CLUSTERID, whose PCL and DIE read 0 below supervisor level (R235). -/
def State.clusterid (s : State) (t priv : Nat) : Nat :=
  match s.gangOf t with
  | none => 0
  | some g =>
    let gti := (s.tile t).gti
    let c := clusterOf t
    gti % g.perCluster + fieldAt 4 (gti / g.perCluster) + flagAt 22 (decide (g.perCluster = 16)) +
      (if priv = 0 then 0 else fieldAt 23 (c % 68) + fieldAt 30 (c / 68))

/-- SPARESTAT of a cluster (R259). -/
def State.sparestat (s : State) (c : Nat) : Nat :=
  let x := s.cluster c
  flagAt 0 x.spare + flagAt 1 x.inuse + fieldAt 2 x.member.toNat + flagAt 6 x.req + fieldAt 7 x.newm.toNat +
    fieldAt 11 (s.dspc.get (c / 68) 4) + fieldAt 14 (s.dact.get (c / 68) 64)

/-- DLSTAT (R258). -/
def State.dlstat (s : State) (t : Nat) : Nat :=
  let T := s.tile t
  T.dlsample.toNat + flagAt 16 T.lineNow + flagAt 17 (s.wakeArmed T.gang) + flagAt 18 (s.faultPending T.gang) +
    flagAt 19 T.dlprior + fieldAt 20 T.act.toNat

/-- PLBCTL with VALIDS (R153). -/
def Ctl.plbctlRead (c : Ctl) : Nat :=
  bitsOf c.plbctl 0 17 + ((List.range 16).map fun i => flagAt (32 + i) ((c.plb.get i 0).getLsbD 0)).sum

/-- BUDGET (R305, R313). -/
def State.budgetRead (s : State) (t : Nat) : Nat :=
  bitsOf (s.tile t).ctl.budget 0 48 + flagAt 48 (s.budgetPaused t)

/-- THERMSTAT.HBMMAX: the hottest stack (R346). -/
def Pkg.hbmmax (k : Pkg) : BitVec 8 := k.temps.foldl (fun m t => if m.toNat < t.2.toNat then t.2 else m) 0

/-- The package registers of R346. -/
def State.packageRead (s : State) (n : Nat) : Nat :=
  let k := s.pkg
  let sel := k.partid.toNat
  let p := s.part sel
  match n with
  | 0x400 => sel + flagAt 6 (s.ownsCluster sel) + flagAt 7 (!k.rst.isEmpty)
  | 0x401 =>
    flagAt 0 p.key.isSome + flagAt 1 (k.load.any (·.1 = sel)) + flagAt 2 (k.erase.contains sel) + fieldAt 6 p.kaddr.toNat
  | 0x402 => k.alarmcfg.toNat
  | 0x403 => k.seen.toNat + fieldAt 4 k.lpart.toNat + flagAt 10 k.allErased + fieldAt 11 k.alarms.toNat
  | 0x404 => p.qslotmap.toNat
  | 0x405 => p.qpending.toNat
  | 0x406 => p.bslot.toNat + flagAt 2 p.resid + flagAt 3 p.saved
  | _ => k.diemax.toNat + fieldAt 8 k.hbmmax.toNat + fieldAt 16 85 + fieldAt 24 k.frozen.toNat

/-- The gang registers, which read 0 on a steward tile (R401). -/
def State.gangRead (s : State) (t n priv : Nat) : Nat :=
  let T := s.tile t
  match n with
  | 0x102 => T.ctl.sstep.toNat
  | 0x10D => s.budgetRead t
  | 0x10E => T.vote.stat
  | 0x200 => s.clusterid t priv
  | 0x300 => T.gang
  | 0x301 => (match s.gangOf t with | some g => g.size + fieldAt 23 (g.perCluster - 1) | none => 0)
  | 0x302 => T.redres.toNat
  | 0x303 => T.abortcnt.toNat + fieldAt 8 T.abortlim.toNat
  | _ => (match s.gangOf t with | some g => g.rank + fieldAt 10 (g.ranks - 1) | none => 0)

/-- The value of system register n as a strand of tile t reads it. DESIGN CHOICE, log 14. -/
def State.sysRead (s : State) (n : Nat) : Word :=
  let x := s.me
  let t := s.curTile
  let T := s.myTile
  let num : Nat :=
    match n with
    | 0x000 => x.status.toNat | 0x001 => x.trappc.toNat | 0x002 => x.trapcause.toNat | 0x003 => x.trapval.toNat
    | 0x004 => x.tvec.toNat | 0x005 => x.scratchsv.toNat | 0x006 => x.uipc.toNat | 0x007 => x.xferid.toNat
    | 0x008 => x.routine.toNat | 0x009 => x.rseq.toNat | 0x00A => s.curStrand | 0x00B => s.cycle
    | 0x100 => T.gti
    | 0x101 => t
    | 0x103 => T.ctl.seed.toNat
    | 0x104 => T.ctl.hkey.toNat
    | 0x105 => T.ctl.memcfg.toNat
    | 0x106 => T.mem.free.length + fieldAt 11 T.poolSize + fieldAt 22 T.mem.low
    | 0x107 => T.ctl.listptr.toNat
    | 0x108 => T.ctl.xschedptr.toNat
    | 0x109 => s.fwdcfgRead t
    | 0x10A => T.tblstat
    | 0x10B => T.chkstat.toNat
    | 0x10C => T.ctl.plbctlRead
    | 0x201 => T.ctl.evbase.toNat
    | 0x202 => s.sparestat (clusterOf t)
    | 0x203 => s.dlstat t
    | 0x305 => s.pkg.pkgid.toNat + (match s.gangOf t with | some g => fieldAt 16 g.rootPkg.toNat | none => 0)
    | _ => if 0x400 ≤ n then s.packageRead n else if isSteward t then 0 else s.gangRead t n x.priv
  BitVec.ofNat 64 num

/-! ## Writing -/

/-- A write of STATUS (R34). -/
def Strand.writeStatus (x : Strand) (v : Word) : Strand :=
  let st := if bitsOf v 11 3 < 6 then withBits x.status 11 3 (bitsOf v 11 3) else x.status
  let st := withBits st 14 6 (bitsOf v 14 6)
  { x with status := if 1 ≤ x.priv then withBits st 24 9 (bitsOf v 24 9) else st }

/-- A write of a strand register 0x000 to 0x00B (R34, R35). -/
def Strand.writeReg (x : Strand) (n : Nat) (v : Word) : Strand :=
  match n with
  | 0 => x.writeStatus v
  | 6 => { x with uipc := v.setWidth 15 }
  | _ =>
    if x.priv = 0 then x
    else match n with
    | 1 => { x with trappc := v.setWidth 15 }
    | 2 => { x with trapcause := v.setWidth 8 }
    | 3 => { x with trapval := v }
    | 4 => { x with tvec := v.setWidth 15 }
    | 5 => { x with scratchsv := v }
    | _ => x

/-- A MEMCFG value is valid (R128). -/
def memcfgValid (v : Word) : Bool :=
  let d := ((List.range 14).filter fun i => decide (bitsOf v (2 * i) 2 = 2)).length
  ((List.range 14).all fun i => decide (bitsOf v (2 * i) 2 ≠ 3) && (!v.getLsbD (28 + i) || decide (bitsOf v (2 * i) 2 = 1))) &&
    [2, 4, 6, 8].contains d

/-- MEMCFG as a GATE change to `gate` leaves it: newly set bits gate their segments, a cleared bit of a gated
segment starts its wake and reads 1 until that ends (R140). -/
def Tile.applyGate (T : Tile) (gate : BitVec 14) : Tile :=
  let old : BitVec 14 := BitVec.ofNat 14 (bitsOf T.ctl.memcfg 28 14)
  { T with
    ctl := { T.ctl with memcfg := withBits T.ctl.memcfg 28 14 (old ||| gate).toNat }
    waking := T.waking ||| (old &&& ~~~gate) }

/-- The data area's bytes after an ATTR change of a steward tile: free values, in canonical form (R128). -/
def undefinedBytes (draw : Nat) : List Host.Cell :=
  (List.range 229376).filterMap fun i =>
    if Config.freeByte draw i = 0 then none else some (i, Config.freeByte draw i)

/-- Tile memory after an ATTR change: no delta, every segment's contents undefined, the pool's frames free. -/
def undefinedMemory (draw : Nat) (memcfg : Word) (segmask : BitVec 14) : TMem :=
  let pool := poolFrames memcfg segmask
  { bytes := undefinedBytes draw, free := pool, low := pool.length, poison := Config.freeMarks draw,
    full := Config.freeMarks (draw + 1), stale := Config.freeMarks (draw + 2) }

/-- A write of MEMCFG (R128, R140): GATE only, at the next COMMIT, on a gang tile; the whole register at once on a
steward tile. -/
def State.writeMemcfg (s : State) (v : Word) : State :=
  let T := s.myTile
  let v := v &&& BitVec.ofNat 64 (2 ^ 42 - 1)
  if isSteward s.curTile then
    if !memcfgValid v then s
    else if bitsOf v 0 28 = bitsOf T.ctl.memcfg 0 28 then
      s.updMyTile fun T => T.applyGate (BitVec.ofNat 14 (bitsOf v 28 14))
    else
      { (s.updMyTile fun T =>
          ({ T with
              ctl := { T.ctl with memcfg := withBits v 28 14 (bitsOf T.ctl.memcfg 28 14) }
              mem := undefinedMemory s.fresh v T.segmask } : Tile).applyGate (BitVec.ofNat 14 (bitsOf v 28 14))) with
        fresh := s.fresh + 3 }
  else
    let r := withBits T.ctl.memcfg 28 14 (bitsOf v 28 14)
    if memcfgValid r then
      s.updMyTile fun T => { T with ctl := { T.ctl with gateNext := some (BitVec.ofNat 14 (bitsOf v 28 14)) } }
    else s

/-- A write of ALARMCFG (R346). -/
def Pkg.writeAlarmcfg (k : Pkg) (v : Word) : Pkg :=
  if k.alarmcfg.getLsbD 8 ∨ (List.range 4).any (fun i => decide (bitsOf v (2 * i) 2 = 3)) then k
  else { k with alarmcfg := v.setWidth 9 }

/-- A write of a package register (R346). DESIGN CHOICE, log 29. -/
def State.packageWrite (s : State) (n : Nat) (v : Word) : State :=
  let sel := s.pkg.partid.toNat
  match n with
  | 0x400 =>
    let new := bitsOf v 0 6
    { s with pkg := { s.pkg with
        partid := BitVec.ofNat 6 new, rst := if v.getLsbD 7 then s.pkg.rst ++ [new] else s.pkg.rst } }
  | 0x401 =>
    -- KADDR names a record in the steward range, tier addresses 0x0000 to 0xFFFF (R345, R346)
    if 0x400 ≤ bitsOf v 6 42 then s
    else
      let s := s.updPart sel fun p => { p with kaddr := BitVec.ofNat 42 (bitsOf v 6 42) }
      { s with pkg := { s.pkg with
          load := if v.getLsbD 1 then s.pkg.load ++ [(sel, bitsOf v 6 42)] else s.pkg.load
          erase := if v.getLsbD 2 then s.pkg.erase ++ [sel] else s.pkg.erase } }
  | 0x402 => { s with pkg := s.pkg.writeAlarmcfg v }
  | 0x404 =>
    let others := (List.range 64).foldl (fun m p => if p = sel then m else m ||| (s.part p).qslotmap) (0 : BitVec 64)
    if v &&& others = 0 then s.updPart sel fun p => { p with qslotmap := v } else s
  | 0x405 => s.updPart sel fun p => { p with qpending := p.qpending &&& ~~~v }
  | 0x406 => s.updPart sel fun p => { p with bslot := v.setWidth 2 }
  | _ => s

/-- A write of the tile's and cluster's registers. -/
def State.tileWrite (s : State) (n : Nat) (v : Word) : State :=
  let ctl (f : Ctl → Ctl) : State := s.updMyTile fun T => { T with ctl := f T.ctl }
  match n with
  | 0x103 => ctl fun c => { c with seed := v }
  | 0x104 => ctl fun c => { c with hkey := v &&& 0xFFFF03FF }
  | 0x105 => s.writeMemcfg v
  | 0x107 => ctl fun c => { c with listptr := v &&& 0xFFFFFF }
  | 0x108 => ctl fun c => { c with xschedptr := v &&& 0x3FFFF }
  | 0x109 => if bitsOf v 0 2 = 3 then s else ctl fun c => { c with fwdcfg := v &&& 0x3F }
  | 0x10B => s.updMyTile fun T => { T with chkstat := withBits T.chkstat 0 32 (bitsOf v 0 32) }
  | 0x10C => ctl fun c => { c with plbctl := v &&& 0x1FFFF }
  | 0x10D =>
    if isSteward s.curTile then s else ctl fun c => { c with budget := withBits c.budget 0 24 (bitsOf v 0 24) }
  | 0x201 => if bitsOf v 12 10 < 0x380 then s else ctl fun c => { c with evbase := v &&& 0x3FF000 }
  | 0x202 =>
    let c := clusterOf s.curTile
    if v.getLsbD 6 ∧ ((s.cluster c).inuse ∨ !(s.cluster c).spare) then s
    else s.updCluster c fun x => { x with req := v.getLsbD 6, newm := BitVec.ofNat 4 (bitsOf v 7 4) }
  | _ => s

/-- A write of system register n (R90). -/
def State.sysWrite (s : State) (n : Nat) (v : Word) : State :=
  if n < 0x0C then s.updMe fun x => x.writeReg n v
  else if 0x400 ≤ n then s.packageWrite n v
  else s.tileWrite n v

end Sys2Proof.Machine
end

