-- ==== Sys2Proof/Machine/System.lean ====
section
/-! DEFINITION. System instructions of majors 0x1C and 0x1D: system registers, traps and returns, poison repair,
semaphores, parking and messages (R90-R95). -/

namespace Sys2Proof.Machine

/-- TRAPVAL of ILLEGAL_HEAD and PRIVILEGE for a system register (R41). -/
def sysVal (head n : Nat) : Word := BitVec.ofNat 64 (head + n * 2 ^ 16)

/-- SYSRD (R90). -/
def execSysrd (g : Guard) (d : SReg) (n : BitVec 12) (s : State) : Host.Outcome State Fault Refusal :=
  s.issue { head := 0x7200, guard := g } fun _ _ s =>
    match sysAccess n.toNat with
    | none => .trap 0x01 (sysVal 0x7200 n.toNat)
    | some (r, _) =>
      if s.me.priv < r then .trap 0x04 (sysVal 0x7200 n.toNat)
      else .done (s.updMe fun x => x.wr d (s.sysRead n.toNat) false)

/-- SYSWR (R90); a write to a read-only register is ignored (R36). -/
def execSyswr (g : Guard) (a : SReg) (n : BitVec 12) (s : State) : Host.Outcome State Fault Refusal :=
  s.issue { head := 0x7201, guard := g } fun _ _ s =>
    match sysAccess n.toNat with
    | none => .trap 0x01 (sysVal 0x7201 n.toNat)
    | some (_, w) =>
      if (match w with | some l => decide (s.me.priv < l) | none => false) then .trap 0x04 (sysVal 0x7201 n.toNat)
      else if s.me.tag a then .trap 0x07 (n.setWidth 64)
      else .done (if w.isNone then s else s.sysWrite n.toNat (s.me.rd a))

/-- TRAP (R91). -/
def execTrap (g : Guard) (imm : BitVec 11) (s : State) : Host.Outcome State Fault Refusal :=
  s.issue { head := 0x7102, guard := g } fun _ _ _ => .trapNext 0x17 (imm.setWidth 64)

/-- BRK (R91). -/
def execBrk (g : Guard) (imm : BitVec 11) (s : State) : Host.Outcome State Fault Refusal :=
  s.issue { head := 0x7103, guard := g } fun _ _ _ => .trapNext 0x16 (imm.setWidth 64)

/-- The return from a trap (R43, R51, R83): to TRAPPC, or to its successor. DEDUCED, log 53. -/
def State.trapReturn (s : State) (head : Word) (skip : Bool) : Eff :=
  let x := s.me
  if x.priv = 0 ∨ x.td = false then .trap 0x04 head
  else
    let T := s.myTile
    let at_ := T.repAt x.rep x.trappc
    let dest : Pc × Rep := if skip then at_.next (T.pcAfter x.trappc (T.slotsAt x.trappc)) else (x.trappc, at_)
    if T.badTarget dest.1.toNat then .trap 0x03 (dest.1.setWidth 64)
    else .goto (s.setMe x.leaveHandler) dest.1 dest.2

/-- ERET (R43, R92). PP and PFMT are those it restores. -/
def execEret (s : State) : Host.Outcome State Fault Refusal :=
  let x := s.me
  if x.rep.active ∧ !x.td then .next (s.trapMe 0x01 x.pc 0x7004)
  else if x.pp then .next (s.trapMe 0x1C x.pc 0x7004)
  else if s.curStrand = 4 then .next (s.trapMe 0x15 x.pc 0x7004)
  else s.settle { head := 0x7004 } (fun s => s.trapReturn 0x7004 false) true

/-- ERET.SKIP (R43, R92); on followers the forwarded trapping instruction is dropped (R223). -/
def execEretSkip (s : State) : Host.Outcome State Fault Refusal :=
  let x := s.me
  if x.rep.active ∧ !x.td then .next (s.trapMe 0x01 x.pc 0x7005)
  else if x.pp then .next (s.trapMe 0x1C x.pc 0x7005)
  else if s.curStrand = 4 then .next (s.trapMe 0x15 x.pc 0x7005)
  else s.settle { head := 0x7005 } (fun s => s.trapReturn 0x7005 true) true

/-- PCLR of a scalar register (R92). -/
def execPclr (g : Guard) (d : SReg) (s : State) : Host.Outcome State Fault Refusal :=
  s.issue { head := 0x7106, guard := g, priv := 1 } fun _ _ s =>
    .done (s.updMe fun x => x.wr d (x.rd d) false)

/-- PCLR of a vector register (R92). -/
def execPclrVector (g : Guard) (v : VReg) (s : State) : Host.Outcome State Fault Refusal :=
  s.issue { head := 0x7107, guard := g, priv := 1 } fun _ _ s =>
    .done (s.updMe fun x => x.vwr v (x.vrd v) 0)

/-- SEMWAIT (R93). -/
def execSemwait (g : Guard) (m n : BitVec 8) (s : State) : Host.Outcome State Fault Refusal :=
  s.issue { head := 0x7600, guard := g } fun _ _ s =>
    if n.toNat ≤ (s.myTile.sem m.toNat).toNat then
      .done (s.updMyTile fun T => T.setSem m.toNat (T.sem m.toNat - BitVec.ofNat 16 n.toNat))
    else .park .sem

/-- SEMSIG (R93). -/
def execSemsig (g : Guard) (m n : BitVec 8) (s : State) : Host.Outcome State Fault Refusal :=
  s.issue { head := 0x7601, guard := g, msgOk := true } fun _ _ s =>
    if s.myTile.semOver m.toNat n.toNat then .trap 0x14 (m.setWidth 64)
    else .done (s.updMyTile fun T => T.addSem m.toNat n.toNat)

/-- SEMRD (R93). -/
def execSemrd (g : Guard) (d : SReg) (m : BitVec 8) (s : State) : Host.Outcome State Fault Refusal :=
  s.issue { head := 0x7602, guard := g } fun _ _ s =>
    .done (s.updMe fun x => x.wr d ((s.myTile.sem m.toNat).setWidth 64) false)

/-- PARK (R39, R94). -/
def execPark (s : State) : Host.Outcome State Fault Refusal :=
  s.issue { head := 0x7404 } fun _ _ s =>
    if s.me.wt then .done (s.updMe fun x => x.setWt false) else .parked s .park

/-- A wake reaches strand k of tile t (R39): a PARK completes, a live strand takes the wake token. -/
def State.wakeStrand (s : State) (t k : Nat) : State :=
  match (s.strand t k).run with
  | .parked .park => s.retireHeld t k Sync.none
  | .ready => s.updStrand t k fun x => x.setWt true
  | .parked _ => s.updStrand t k fun x => x.setWt true
  | _ => s

/-- WAKE (R39, R94). -/
def execWake (g : Guard) (n : BitVec 2) (s : State) : Host.Outcome State Fault Refusal :=
  s.issue { head := 0x7505, guard := g, msgOk := true } fun _ _ s => .done (s.wakeStrand s.curTile n.toNat)

/-- The doublewords of a message descriptor as one value (R224). -/
def Tile.descriptor (T : Tile) (a : Nat) : BitVec 512 := BitVec.ofNat 512 (T.readNat a 64)

/-- Messages of the immediate class that wait at a tile or are on their way to it (R225). -/
def State.mailLoad (s : State) (t : Nat) : Nat :=
  (s.tile t).mail.length + (s.tile t).mailNext.length + (s.msgs.filter fun m => decide (m.dest = t) && m.msg.desc.getLsbD 2).length

/-- MSG (R95, R225). A message to another package leaves the model. DESIGN CHOICE, log 36. -/
def execMsg (g : Guard) (a : SReg) (s : State) : Host.Outcome State Fault Refusal :=
  s.issue { head := 0x7606, guard := g } fun _ _ s =>
    let x := s.me
    let v := x.rd a
    let T := s.myTile
    if x.tag a then .trap 0x09 (a.setWidth 64)
    else if v.toNat % 64 ≠ 0 then .trap 0x05 v
    else match tileAddr v.toNat with
    | none => .trap 0x06 v
    | some e =>
      if !T.rangeIs Region.vs e 64 then .trap 0x06 v
      else if T.gatedAt e then .retry (s.startWake s.curTile e)
      else if !s.sourceReady s.curTile s.curStrand e 64 then .retry s
      else if T.readPoison e 64 then .trap 0x07 v
      else
        let d := T.descriptor e
        let dest := bitsOf d 9 23
        let size := match s.gangOf s.curTile with | some q => q.size | none => 0
        if size ≤ dest then .trap 0x06 v
        else
          let s' := s.updMe fun x => { x with msgCount := x.msgCount + 1 }
          match (s.gangOf s.curTile).bind fun q => q.tileAt dest with
          | none => .done s'
          | some t =>
            if d.getLsbD 2 ∧ 16 ≤ s.mailLoad t then .retry s
            else .done { s' with msgs := s'.msgs ++ [⟨s.curTile, t, ⟨d, T.gti, x.routine, x.msgCount⟩, s'.netOrd⟩], netOrd := s'.netOrd + 1 }

end Sys2Proof.Machine
end

