-- ==== Sys2Proof/Machine/Sequencer.lean ====
section
/-! DEFINITION. The sequencer: the start phase, dispatch, the exchange phase, transfer-schedule sends, active messages and
the step budget (R13, R211-R228, R313, R322). -/

namespace Sys2Proof.Machine

/-! ## What the sequencer reads (R211-R214) -/

/-- A structure of the sequencer lies in the code region or in V segments (R214). -/
def Tile.placed (T : Tile) (a len : Nat) : Bool := decide (len = 0) || T.rangeIs Region.codeV a len

/-- A byte as the step found it: code, or the committed image (R214). -/
def Tile.startByte (T : Tile) (a : Nat) : Byte := if a < 0x8000 then T.codeByte (T.codePhys a) else T.mem.committed a

/-- A doubleword as the step found it. -/
def Tile.startWord (T : Tile) (a : Nat) : Word := BitVec.ofNat 64 (ofBytes ((List.range 8).map fun i => T.startByte (a + i)))

/-- The committed poison of the words of a range. -/
def Tile.startPoison (T : Tile) (a len : Nat) : Bool :=
  (List.range (len / 8)).any fun i => decide (0x8000 ≤ a + 8 * i) && T.mem.committedPoison (a + 8 * i)

/-- A list descriptor (R212). -/
structure ListDesc where
  laddr : Nat
  count : Nat
  handler : Pc
  paddr : Nat
  pv : Bool
  reserved : Bool
deriving DecidableEq, Repr

/-- The descriptor in two doublewords. -/
def listDesc (d0 d1 : Word) : ListDesc :=
  ⟨bitsOf d0 0 18, bitsOf d0 18 12, BitVec.ofNat 15 (bitsOf d0 30 15), bitsOf d1 0 18, d1.getLsbD 18,
   decide (bitsOf d0 45 19 ≠ 0) || decide (bitsOf d1 19 45 ≠ 0)⟩

/-- The list period of LISTPTR (R211). -/
def listPeriod (listptr : Word) : Nat := bitsOf listptr 18 6 + 1

/-- The address of the list descriptor of the tile's step (R211, R212). -/
def Tile.descAddr (T : Tile) : Nat :=
  bitsOf T.snap.listptr 3 15 * 8 + 16 * (T.ctl.sstep.toNat % listPeriod T.snap.listptr)

/-- The list descriptor of the tile's step. -/
def Tile.stepDesc (T : Tile) : ListDesc := listDesc (T.startWord T.descAddr) (T.startWord (T.descAddr + 8))

/-- A list entry (R213). -/
structure Entry where
  pc : Pc
  kind : Nat
  inv : Bool
  pred : Nat
  plot : Nat
  patch : Nat
  reserved : Bool
  arg0 : Word
  arg1 : Word
deriving DecidableEq, Repr

/-- The entry at a tile address. -/
def Tile.entryAt (T : Tile) (a : Nat) : Entry :=
  let d := T.startWord a
  ⟨BitVec.ofNat 15 (bitsOf d 0 15), bitsOf d 15 2, d.getLsbD 17, bitsOf d 18 6, bitsOf d 24 3, bitsOf d 27 12,
   decide (bitsOf d 39 25 ≠ 0), T.startWord (a + 8), T.startWord (a + 16)⟩

/-- The skip bit of a patch in the latest sealed row of a plot; 0 when none is sealed (R331). -/
def Plot.skip (P : Plot) (patch : Nat) : Bool := P.tseal.isSome && P.row.getD patch false

/-- An entry breaks step 1 of R214, or its guard names a plot or patch that does not exist (R331). -/
def Entry.bad (e : Entry) (plots : SMap Plot) : Bool :=
  e.reserved || decide (e.kind = 3) || (decide (e.pred ≠ 0) && decide (e.kind ≠ 1)) ||
    ((decide (e.plot ≠ 0) || decide (e.patch ≠ 0)) && decide (e.kind ≠ 2)) ||
    (decide (e.kind = 2) && (match plots.find e.plot with | none => true | some P => decide (plotCount P.desc ≤ e.patch)))

/-- The value of an entry's guard (R214, R331). -/
def Entry.guard (e : Entry) (preds : Word) (plots : SMap Plot) : Bool :=
  let v := match e.kind with
    | 0 => true
    | 1 => preds.getLsbD e.pred
    | _ => (match plots.find e.plot with | some P => !P.skip e.patch | none => true)
  v != e.inv

/-- The plots of a tile's gang. -/
def State.plotsOf (s : State) (t : Nat) : SMap Plot := match s.gangOf t with | some g => g.plots | none => []

/-- The entries of a descriptor. -/
def Tile.entries (T : Tile) (d : ListDesc) : List Entry := (List.range d.count).map fun i => T.entryAt (d.laddr + 24 * i)

/-- The cause with which the start phase fails on its list structures (R214); none when they pass. DEDUCED, log 56. -/
def Tile.listCause (T : Tile) (plots : SMap Plot) : Option (BitVec 8) :=
  let a := T.descAddr
  if !T.placed a 16 then some 0x06
  else
    let d := T.stepDesc
    if d.reserved || decide (d.laddr % 8 ≠ 0) || decide (d.paddr % 8 ≠ 0) || !T.placed d.laddr (24 * d.count) ||
        (d.pv && !T.placed d.paddr 8) || (T.entries d).any fun e => e.bad plots then some 0x06
    else if T.startPoison a 16 || T.startPoison d.laddr (24 * d.count) || (d.pv && T.startPoison d.paddr 8) then some 0x08
    else none

/-! ## The start phase (R13, R212, R221, R228, R370) -/

/-- Tiles of the gang in the cluster of tile t. -/
def State.clusterMates (s : State) (t : Nat) : List Nat :=
  match s.gangOf t with
  | some g => g.place.filter fun u => decide (clusterOf u = clusterOf t)
  | none => []

/-- FWDCFG as it governs a tile's step: as its start phase took it, or will take it. -/
def Tile.stepFwd (T : Tile) : Word := if T.seq.phase = .start then T.ctl.fwdcfg else T.fwd

/-- The LEADER of a follower is a tile of the same gang and cluster that leads (R221). -/
def State.leaderOk (s : State) (t : Nat) : Bool :=
  let v := (s.tile t).ctl.fwdcfg
  decide (bitsOf v 0 2 ≠ 2) ||
    (s.clusterMates t).any fun u => decide (s.memberOf u = bitsOf v 2 4) && decide (bitsOf (s.tile u).stepFwd 0 2 = 1)

/-- Applies the parent signals that wait for the start phase (R370); the flag says whether one overflowed. -/
def Tile.takeSignals (T : Tile) : Tile × Bool :=
  let r := T.parentSigs.foldl (fun (x : Tile × Bool) si =>
    if x.1.semOver si.1 si.2 then (x.1, true) else (x.1.addSem si.1 si.2, x.2)) (T, false)
  ({ r.1 with parentSigs := [] }, r.2)

/-- Both banks of every accumulator, undefined at the start of a step (R22). -/
def freeBanks (draw : Nat) : SMap Bank :=
  (List.range 16).foldl (fun m i => m.set i {} ⟨Config.freeBank (draw + i), Config.freeBankPoison (draw + i)⟩) []

/-- The tile as the first cycle of the start phase leaves it: the snapshot, the registers that take effect now, and the
sequencer at the first entry. -/
def Tile.beginStep (T : Tile) (draw : Nat) : Tile :=
  let T := { T with snap := T.ctl, fwd := T.ctl.fwdcfg, banks := freeBanks draw, steppedStart := T.steppedNow }
  let d := T.stepDesc
  { T with seq := {
      phase := .compute, laddr := d.laddr, count := d.count, handler := d.handler
      preds := if d.pv then T.startWord d.paddr else 0, fwdDispatch := T.seq.fwdDispatch, failed := T.seq.failed } }

/-- The page-fetch list that a launch names for step 0, as PFL would issue it without a signal (R13, R369); a list that
PFL would refuse makes the tile vote ABORT with that cause. DEDUCED, log 60. -/
def State.issuePfl0 (s : State) (t a : Nat) : State :=
  let T := s.tile t
  let n := T.readNat a 8 % 4096
  let bytes := 8 + 24 * n
  if a % 8 ≠ 0 then s.failTile t 1 0x05
  else if !T.rangeIs Region.readable a 8 || !T.rangeIs Region.readable a bytes then s.failTile t 1 0x06
  else if T.readPoison a bytes then s.failTile t 1 0x07
  else
    let es := (List.range n).map fun i => T.pflEntry (a + 8 + 24 * i)
    if es.any fun e => !s.pflEntryOk t e then s.failTile t 1 0x06
    else
      let slots := (es.filter fun e => decide (e.mode ≠ 2)).map (·.tgt)
      es.foldl (fun s e => s.pflStart t e) (s.updTile t fun T => { T with pfls := T.pfls ++ [⟨slots, Sync.none, 0, false⟩] })

/-- A page-fetch list for step 0 that lies in a gated segment starts its wake, and the start phase waits for it (R140). -/
def State.pfl0Wake (s : State) (t : Nat) : Option State :=
  match s.gangOf t with
  | some g =>
    if g.pfl0 ≠ 0 ∧ g.pfl0 % 8 = 0 ∧ (s.tile t).ctl.sstep = 0 then s.wakeFor t g.pfl0 (8 + 24 * ((s.tile t).readNat g.pfl0 8 % 4096)) else none
  | none => none

/-- START_PHASE (R212-R214, R221, R228), once every tile of the gang in the cluster has applied the latest decision, so that a
leader's MODE is the one in force (R221). DEDUCED, log 61. -/
def execStartPhase (t : Nat) (s : State) : Host.Outcome State Fault Refusal :=
  if (s.tile t).seq.phase ≠ .start ∨ (s.clusterMates t).any (s.behind t) then .next s
  else match s.pfl0Wake t with
  | some s' => .next s'
  | none =>
    let sig := (s.tile t).takeSignals
    let ok := s.leaderOk t
    let s' : State := { s.setTile t (sig.1.beginStep s.fresh) with fresh := s.fresh + 16 }
    let s' := if sig.2 then s'.failTile t 1 0x14 else s'
    let s' := match s'.gangOf t with
      | some g => if g.pfl0 ≠ 0 ∧ (s'.tile t).ctl.sstep = 0 then s'.issuePfl0 t g.pfl0 else s'
      | none => s'
    if !ok then .next (s'.failTile t 1 0x06)
    else match (s'.tile t).listCause (s'.plotsOf t) with
    | some c => .next (s'.failTile t 1 c)
    | none => .next s'

/-! ## Dispatch (R28, R214, R215, R222) -/

/-- The lowest-numbered IDLE strand. -/
def State.idleStrand (s : State) (t : Nat) : Option Nat := (List.range 4).find? fun k => decide ((s.strand t k).run = .idle)

/-- A strand as dispatch sets it (R28); what its leader has already forwarded stays with it (R222). -/
def Strand.dispatched (x : Strand) (pc handler : Pc) (routine : BitVec 16) (a0 a1 : Word) : Strand :=
  { (((Strand.reset 0).wr 2 a0 false).wr 3 a1 false) with
    pc := pc, tvec := handler, routine := routine, run := .ready, fwdq := x.fwdq }

/-- Dispatch to strand k of tile t; a PC that R51 rejects raises BAD_TARGET there (R214). -/
def State.dispatchTo (s : State) (t k : Nat) (pc : Pc) (routine : BitVec 16) (a0 a1 : Word) (check : Bool) : State :=
  let s := s.updStrand t k fun x => x.dispatched pc (s.tile t).seq.handler routine a0 a1
  if check && (s.tile t).badTarget pc.toNat then s.takeTrap t k 0x03 pc (pc.setWidth 64) else s

/-- The tiles that follow tile t in its cluster (R221). -/
def State.followers (s : State) (t : Nat) : List Nat :=
  (s.clusterMates t).filter fun u =>
    let v := (s.tile u).stepFwd
    decide (u ≠ t) && decide (bitsOf v 0 2 = 2) && decide (bitsOf v 2 4 = s.memberOf t)

/-- The message that is taken next: stepped messages in their order, then immediate ones (R226). -/
def Tile.nextMsg (T : Tile) : Option (Bool × Msg) :=
  match T.steppedNow, T.mail with
  | m :: _, _ => some (true, m)
  | [], m :: _ => some (false, m)
  | [], [] => none

/-- A message that starts a routine waits for a strand ahead of the list (R215). -/
def Tile.msgFirst (T : Tile) : Bool := match T.nextMsg with | some (_, m) => decide (bitsOf m.desc 0 2 = 0) | none => false

/-- A leader waits for tiles of its cluster that have not applied the latest decision. DEDUCED, log 61. -/
def State.leadWaits (s : State) (t : Nat) : Bool :=
  (s.tile t).leader && (s.clusterMates t).any fun u => s.behind t u

/-- The sequencer of an independent tile or a leader examines its next entry (R215, R222). -/
def State.examine (s : State) (t : Nat) : State :=
  let T := s.tile t
  let q := T.seq
  let e := T.entryAt (q.laddr + 24 * q.entry)
  if !e.guard q.preds (s.plotsOf t) then s.updTile t fun T => { T with seq := { T.seq with entry := q.entry + 1 } }
  else match s.idleStrand t with
  | none => s
  | some k =>
    let s := s.updTile t fun T => { T with seq := { T.seq with entry := q.entry + 1 } }
    let s := if T.leader then (s.followers t).foldl (fun s u => s.updTile u fun U =>
        { U with seq := { U.seq with fwdDispatch := U.seq.fwdDispatch ++ [(q.entry, k, e.pc)] } }) s
      else s
    s.dispatchTo t k e.pc (BitVec.ofNat 16 q.entry) e.arg0 e.arg1 true

/-- A follower makes the next of its leader's dispatches (R222). -/
def State.follow (s : State) (t : Nat) : State :=
  let T := s.tile t
  match T.seq.fwdDispatch with
  | [] => s
  | (n, k, pc) :: rest =>
    if (s.strand t k).run ≠ .idle then s
    else
      let e := T.entryAt (T.seq.laddr + 24 * n)
      let s := s.updTile t fun T => { T with seq := { T.seq with entry := n + 1, fwdDispatch := rest } }
      let s := s.dispatchTo t k pc (BitVec.ofNat 16 n) e.arg0 e.arg1 false
      if T.seq.count ≤ n then s.takeTrap t k 0x11 pc (pc.setWidth 64) else s

/-- LIST_DISPATCH (R215): one entry. -/
def execListDispatch (t : Nat) (s : State) : Host.Outcome State Fault Refusal :=
  let T := s.tile t
  if T.seq.phase ≠ .compute ∨ T.seq.failed ∨ T.msgFirst ∨ s.leadWaits t then .next s
  else if T.follower then .next (s.follow t)
  else if T.seq.entry < T.seq.count then .next (s.examine t)
  else .next s

/-! ## Active messages (R224-R227) -/

/-- Slot j of a message's inline code. -/
def msgSlot (d : BitVec 512) (j : Nat) : BitVec 80 := d.extractLsb' (192 + 80 * j) 80

/-- Slots of a KIND 1 message. -/
def msgSlots (d : BitVec 512) : List (BitVec 80) := (List.range (bitsOf d 3 2 + 1)).map (msgSlot d)

/-- A receiver discards a message: a reserved KIND, a reserved field, a literal of LEN 3 (R224). -/
def msgBad (d : BitVec 512) : Bool :=
  decide (2 ≤ bitsOf d 0 2) || decide (bitsOf d 5 4 ≠ 0) || decide (bitsOf d 47 17 ≠ 0) ||
    (decide (bitsOf d 0 2 = 1) && (msgSlots d).any fun b => b.extractLsb' 0 16 == 0x1100#16 && b.extractLsb' 32 16 == 0xFF00#16)

/-- The mail queue is full: sixteen messages, those held for the next step included (R225). DEDUCED, log 58. -/
def Tile.mailFull (T : Tile) : Bool := decide (16 ≤ T.mail.length + T.mailNext.length)

/-- A message reaches tile t (R224, R225). -/
def State.receiveMsg (s : State) (t : Nat) (m : Msg) : State :=
  let T := s.tile t
  if msgBad m.desc then s.failTile t 1 0x15
  else if !m.desc.getLsbD 2 then
    match T.mem.alloc with
    | none => s.failTile t 1 0x0B
    | some (f, mem) => s.setTile t { T with mem := mem, msgFrames := T.msgFrames ++ [f], stepped := T.stepped ++ [m] }
  else if T.seq.phase = .start ∨ T.seq.phase = .compute then s.setTile t { T with mail := T.mail ++ [m] }
  else s.setTile t { T with mailNext := T.mailNext ++ [m] }

/-- ACTIVE_MESSAGE_ARRIVAL (R225, R350): the n-th message on the network, or one from the host or another package. -/
def execActiveMessageArrival (n : Nat) (ext : Option ExtMsg) (s : State) : Host.Outcome State Fault Refusal :=
  match ext with
  | some e =>
    let g := (s.tile e.dest).gang
    if g = 0 ∨ (e.desc.getLsbD 2 ∧ (s.tile e.dest).mailFull) then .next s
    else
      let s := if e.host then s.disarmWake g else s
      match if e.desc.getLsbD 2 then some s else s.accept e.dest e.flit with
      | some s => .next (s.receiveMsg e.dest ⟨e.desc, e.sender, e.routine, e.seq⟩)
      | none => .next s
  | none =>
    match s.msgs[n]? with
    | none => .next s
    | some f =>
      if s.behind f.src f.dest ∨ (!f.msg.desc.getLsbD 2 ∧ s.commitAhead f.src f.dest f.ord) then .next s
      else .next (State.receiveMsg { s with msgs := s.msgs.eraseIdx n } f.dest f.msg)

/-- The order in which stepped messages are taken (R226). -/
def Msg.before (a b : Msg) : Bool :=
  if a.sender ≠ b.sender then decide (a.sender < b.sender)
  else if a.routine ≠ b.routine then decide (a.routine.toNat < b.routine.toNat)
  else decide (a.seq ≤ b.seq)

/-- Takes the next message out of the queue it waits in; a stepped message's frame returns to the pool (R225). DEDUCED, log 57. -/
def Tile.takeMsg (T : Tile) (isStepped : Bool) : Tile :=
  if isStepped then
    { T with
      steppedNow := T.steppedNow.drop 1, msgFrames := T.msgFrames.drop 1
      mem := { T.mem with free := T.mem.free ++ T.msgFrames.take 1 }
      seq := { T.seq with stepTaken := T.seq.stepTaken + 1 } }
  else { T with mail := T.mail.drop 1, seq := { T.seq with immTaken := T.seq.immTaken + 1 } }

/-- ROUTINE of a routine that a message starts (R226). -/
def Tile.msgRoutine (T : Tile) (isStepped : Bool) : BitVec 16 :=
  if isStepped then BitVec.ofNat 16 (0x8000 + T.seq.stepTaken) else BitVec.ofNat 16 (0xC000 + T.seq.immTaken)

/-- MESSAGE_START (R46, R226): the next message takes the lowest IDLE strand, or the message context, which goes on with its
messages on a failed tile too (R46). -/
def execMessageStart (t : Nat) (s : State) : Host.Outcome State Fault Refusal :=
  let T := s.tile t
  if T.seq.phase ≠ .compute then .next s
  else match T.nextMsg with
  | none => .next s
  | some (st, m) =>
    let a0 := BitVec.ofNat 64 (bitsOf m.desc 64 64)
    let a1 := BitVec.ofNat 64 (bitsOf m.desc 128 64)
    if bitsOf m.desc 0 2 = 0 then
      if T.seq.failed then .next s
      else match s.idleStrand t with
      | none => .next s
      | some k =>
        .next ((s.updTile t fun T => T.takeMsg st).dispatchTo t k (BitVec.ofNat 15 (bitsOf m.desc 32 15)) (T.msgRoutine st) a0 a1 true)
    else if (s.strand t 4).run ≠ .idle then .next s
    else
      .next ((s.updTile t fun T => T.takeMsg st).updStrand t 4 fun _ =>
        { (((Strand.reset 0).wr 2 a0 false).wr 3 a1 false) with slots := msgSlots m.desc, immediate := !st, run := .ready })

/-! ## Transfer schedules (R218-R220, R322) -/

/-- SRC, LEN, DEST and DOFF of a schedule entry (R219). -/
structure SendEntry where
  src : Nat
  len : Nat
  dest : Nat
  doff : Nat
deriving DecidableEq, Repr

/-- The fields of an entry. -/
def sendEntry (e : BitVec 128) : SendEntry := ⟨bitsOf e 0 18, bitsOf e 18 18, bitsOf e 36 23, bitsOf e 64 18⟩

/-- An entry breaks R219 or a sender check of R220. -/
def Tile.badSend (T : Tile) (size : Nat) (e : BitVec 128) : Bool :=
  let x := sendEntry e
  decide (x.src % 8 ≠ 0) || decide (x.len % 8 ≠ 0) || decide (x.doff % 8 ≠ 0) || decide (x.len < 8) || decide (229376 < x.len) ||
    !T.rangeIs Region.vs x.src x.len || decide (bitsOf e 59 5 ≠ 0) || decide (bitsOf e 82 46 ≠ 0) || decide (size ≤ x.dest)

/-- A schedule word: its entries' address and count, and whether SADDR breaks R218; its reserved bits are ignored (R7).
DEDUCED, log 62. -/
def scheduleWord (w : Word) : Nat × Nat × Bool := (bitsOf w 0 18, bitsOf w 18 12, decide (bitsOf w 0 3 ≠ 0))

/-- The entries from a tile address, through the own view. -/
def Tile.sendEntries (T : Tile) (a n : Nat) : List (BitVec 128) := (List.range n).map fun i => BitVec.ofNat 128 (T.readNat (a + 16 * i) 16)

/-- GANGSIZE of a tile's gang. -/
def State.gangSize (s : State) (t : Nat) : Nat := match s.gangOf t with | some g => g.size | none => 0

/-- Issues the schedule's sends in entry order with up to eight in flight (R220); an access to a gated segment starts its
wake and the send waits for it (R140). -/
def State.issueSends (s : State) (t : Nat) : Nat → State
  | 0 => s
  | fuel + 1 =>
    match (s.tile t).seq.sends with
    | [] => s
    | e :: rest =>
      let x := sendEntry e
      if 8 ≤ (s.sends.filter fun f => decide (f.src = t)).length then s
      else match s.wakeFor t x.src x.len with
      | some s' => s'
      | none =>
        let f : Send := ⟨t, (s.gangOf t).bind fun g => g.tileAt x.dest, x.doff, (s.tile t).readWords x.src (x.len / 8), false, false, s.netOrd, x.src, []⟩
        let s := s.updTile t fun T => { T with seq := { T.seq with sends := rest } }
        State.issueSends { s with sends := s.sends ++ [f], netOrd := s.netOrd + 1 } t fuel

/-- Strand k of a tile has no routine that runs: it is IDLE, or STOPPED by a trap or by its leader's (R223). DEDUCED, log 63. -/
def State.strandDone (s : State) (t k : Nat) : Bool :=
  match (s.strand t k).run with | .idle => true | .stopped => true | _ => false

/-- The leader of a follower, in the follower's attempt of the step, or the tile itself, has no entry left to dispatch. -/
def State.listDone (s : State) (t : Nat) : Bool :=
  let T := s.tile t
  if T.follower then
    T.seq.fwdDispatch.isEmpty &&
      (s.clusterMates t).any fun u =>
        let U := s.tile u
        decide (s.memberOf u = bitsOf T.fwd 2 4) && !s.behind t u &&
          (U.seq.failed || (decide (U.seq.phase ≠ .start) && decide (U.seq.count ≤ U.seq.entry)))
  else decide (T.seq.count ≤ T.seq.entry)

/-- The compute phase has ended (R215). -/
def State.computeDone (s : State) (t : Nat) : Bool :=
  let T := s.tile t
  s.listDone t && (List.range 5).all (s.strandDone t) && T.steppedNow.isEmpty && T.mail.isEmpty && T.seq.xsched.isNone

/-- The exchange phase begins (R220): the schedule is read and checked whole. -/
def State.beginExchange (s : State) (t : Nat) : State :=
  let s := s.updTile t fun T => { T with seq := { T.seq with phase := .exchange } }
  let T := s.tile t
  let a := bitsOf T.snap.xschedptr 3 15 * 8 + 8 * (T.ctl.sstep.toNat % listPeriod T.snap.listptr)
  if !T.placed a 8 then s.failTile t 1 0x06
  else
    let w := scheduleWord (BitVec.ofNat 64 (T.readNat a 8))
    let es := T.sendEntries w.1 w.2.1
    if w.2.2 || !T.placed w.1 (16 * w.2.1) || es.any (T.badSend (s.gangSize t)) then s.failTile t 1 0x06
    else if T.readPoison a 8 || (decide (w.2.1 ≠ 0) && T.readPoison w.1 (16 * w.2.1)) then s.failTile t 1 0x08
    else (s.updTile t fun T => { T with seq := { T.seq with sends := es } }).issueSends t 8

/-- EXCHANGE_PHASE (R220): the phase begins, or sends that wait are issued. -/
def execExchangePhase (t : Nat) (s : State) : Host.Outcome State Fault Refusal :=
  let T := s.tile t
  if T.seq.failed then .next s
  else if !T.seq.sends.isEmpty then .next (s.issueSends t 8)
  else if T.seq.phase = .compute ∧ s.computeDone t then .next (s.beginExchange t)
  else .next s

/-- Words at tile d as remote-origin writes, each at its own place in a range (R131); none when no frame is free. -/
def Tile.landAt (T : Tile) (off : Nat) : List (Nat × Word × Bool) → Option Wrote
  | [] => some ⟨T, false⟩
  | w :: rest =>
    (T.writeWords true (off + 8 * w.1) [w.2]).bind fun r =>
      (Tile.landAt r.tile off rest).map fun r' => ⟨r'.tile, r.conflict || r'.conflict⟩

/-- Words of a send of n words land at tile d (R131, R220): when its range is not wholly in V segments nothing is written; the flag says
that a conflict was completed after d's ARRIVE. -/
def State.landSend (s : State) (d doff n : Nat) (words : List (Nat × Word × Bool)) : State × Bool :=
  let T := s.tile d
  if !T.rangeIs Region.isV doff (8 * n) then (s.failTile d 1 0x06, false)
  else match T.landAt doff words with
  | none => (s.failTile d 1 0x0B, false)
  | some w =>
    let s := s.setTile d w.tile
    if w.conflict then (if T.vote.sent then (s, true) else (s.raiseVote d 3 0x0C, false)) else (s, false)

/-- The words of a send that have not landed. -/
def Send.left (f : Send) : List (Nat × Word × Bool) := ((List.range f.words.length).zip f.words).filter fun iw => !f.moved.contains iw.1

/-- Word i of the n-th send is read now, in place of its first reading (R270). -/
def State.readSendWord (s : State) (n i : Nat) : State :=
  match s.sends[n]? with
  | some f =>
    let T := s.tile f.src
    if f.landed ∨ f.moved.contains i ∨ f.words.length ≤ i ∨ T.gatedAt (f.from_ + 8 * i) then s
    else { s with sends := s.sends.set n { f with words := f.words.set i (BitVec.ofNat 64 (T.readNat (f.from_ + 8 * i) 8), T.poisonAt (f.from_ + 8 * i)) } }
  | none => s

/-- Word i of the n-th send lands ahead of the rest (R270). -/
def State.landSendWord (s : State) (n i : Nat) : State :=
  match s.sends[n]? with
  | some f =>
    (match f.dest with
     | some d =>
       if f.landed ∨ s.behind f.src d ∨ s.commitAhead f.src d f.ord then s
       else
         let r := s.landSend d f.doff f.words.length (f.left.filter fun iw => decide (iw.1 = i))
         { r.1 with sends := r.1.sends.set n { f with moved := f.moved ++ [i], report := f.report || r.2 } }
     | none => s)
  | none => s

/-- TRANSFER_SEND_ARRIVAL (R220): the n-th send in flight, or one of another package. -/
def execTransferSendArrival (n : Nat) (ext : Option ExtSend) (s : State) : Host.Outcome State Fault Refusal :=
  match ext with
  | some e =>
    (match s.accept e.dest e.flit with
     | some s => .next (s.landSend e.dest e.doff e.words.length ((List.range e.words.length).zip e.words)).1
     | none => .next s)
  | none =>
    match s.sends[n]? with
    | none => .next s
    | some f =>
      if f.landed then .next s
      else match f.dest with
      | none => .next { s with sends := s.sends.set n { f with landed := true } }
      | some d =>
        if s.behind f.src d ∨ s.commitAhead f.src d f.ord then .next s
        else
          let r := s.landSend d f.doff f.words.length f.left
          .next { r.1 with sends := r.1.sends.set n { f with landed := true, report := f.report || r.2 } }

/-- SCHEDULE_SEND_COMPLETION (R133, R220): the n-th send, with a conflict report; `report` is another package's. -/
def execScheduleSendCompletion (n : Nat) (report : Bool) (s : State) : Host.Outcome State Fault Refusal :=
  match s.sends[n]? with
  | none => .next s
  | some f =>
    if f.landed then
      let s := s.noteConflict f.src (f.report || (f.dest.isNone && report))
      .next (State.issueSends { s with sends := s.sends.eraseIdx n } f.src 8)
    else .next s

/-- XSCHED (R322): the schedule is checked and its entries are read in the cycle of its issue, in which its wait is met (R57); the place
of the schedule word alone is known before. The strand's earlier immediate stores to what it reads come first (R270). -/
def execXsched (g : Guard) (x : SReg) (sy : Sync) (s : State) : Host.Outcome State Fault Refusal :=
  s.issue { head := 0xF704, guard := g, sync := sy, sigNow := false } fun _ _ s =>
    let t := s.curTile
    let T := s.myTile
    let v := s.me.rd x
    if isSteward t then .trap 0x06 0
    else if s.me.tag x then .trap 0x09 (x.setWidth 64)
    else if v.toNat % 8 ≠ 0 then .trap 0x05 v
    else if !T.placed v.toNat 8 then .trap 0x06 v
    else if !s.sourceReady t s.curStrand v.toNat 8 then .retry s
    else
      let w := scheduleWord (BitVec.ofNat 64 (T.readNat v.toNat 8))
      if w.2.2 || !T.placed w.1 (16 * w.2.1) then .trapLate 0x06 v
      else if !s.sourceReady t s.curStrand w.1 (16 * w.2.1) then .retry s
      else if T.readPoison v.toNat 8 || (decide (w.2.1 ≠ 0) && T.readPoison w.1 (16 * w.2.1)) then .trapLate 0x07 v
      else
        let es := T.sendEntries w.1 w.2.1
        match (List.range es.length).find? fun i => T.badSend (s.gangSize t) (es.getD i 0) with
        | some i => .trapLate 0x06 (BitVec.ofNat 64 (w.1 + 16 * i))
        | none =>
          if T.seq.xsched.isSome || es.any fun e => !s.sourceReady t s.curStrand (sendEntry e).src (sendEntry e).len then .retry s
          else
            .done ((s.updMyTile fun T => { T with seq := { T.seq with sends := es, xsched := some (sy, s.curStrand) } }).issueSends t 8)

/-- XSCHED_COMPLETE (R322): every send of the tile's XSCHED has completed. -/
def execXschedComplete (t : Nat) (s : State) : Host.Outcome State Fault Refusal :=
  match (s.tile t).seq.xsched with
  | none => .next s
  | some (sy, _) =>
    if (s.tile t).seq.sends.isEmpty ∧ s.sends.all (fun f => decide (f.src ≠ t)) then
      .next ((s.updTile t fun T => { T with seq := { T.seq with xsched := none } }).engineSignal t sy)
    else .next s

/-! ## The step budget (R313) -/

/-- STEP_BUDGET (R313): USED has reached LIMIT before the tile has sent its arrival. -/
def execStepBudget (t : Nat) (s : State) : Host.Outcome State Fault Refusal :=
  let T := s.tile t
  let limit := bitsOf T.ctl.budget 0 24
  let running := match T.seq.phase with | .start => true | .compute => true | .exchange => true | _ => false
  if !running || T.vote.sent || T.seq.failed || decide (limit = 0) || decide (bitsOf T.ctl.budget 24 24 < limit) then .next s
  else
    let s := match (List.range 4).find? fun k => decide ((s.strand t k).run ≠ .idle) with
      | some k => s.updStrand t k fun x => x.record 0x12 x.pc (BitVec.ofNat 64 (s.budgetRead t))
      | none => s
    .next (s.failTile t 1 0x12)

end Sys2Proof.Machine
end

