-- ==== Sys2Proof/Machine/Vector.lean ====
section
/-! DEFINITION. Vector moves, floating-point arithmetic, compares, selects and permutes (R156-R158, R164-R172, R175). -/

namespace Sys2Proof.Machine

/-! ## Shared shapes -/

/-- The rounding mode an rm field selects (R54, R105). -/
def Strand.rmOf (x : Strand) (rm : BitVec 3) : Nat := if rm = 7 then x.rm else rm.toNat

/-- The elements of width w in active lanes, each computed with its flags (R156). -/
def elementwise (w : Nat) (act : BitVec 64) (f : Nat → Nat × Flags) : Vec × Flags :=
  let rs := (List.range (2048 / w)).map fun e => if act.getLsbD (w * e / 32) then f e else (0, {})
  (BitVec.ofNat 2048 (packElements w (rs.map (·.1))), rs.foldl (fun fl r => fl.or r.2) {})

/-- The poison of lanes of several sources. -/
def Strand.vtags (x : Strand) (vs : List VReg) : BitVec 64 := vs.foldl (fun t v => t ||| x.vt v) 0

/-- Element e of width w of a vector register. -/
def Strand.elem (x : Strand) (w : Nat) (v : VReg) (e : Nat) : Nat := element (x.vrd v).toNat w e

/-- Writes a lane-wise result: elements of width w from the same elements of the sources (R156). -/
def State.vecWrite (s : State) (g : Guard) (vd : VReg) (srcs : List VReg) (w : Nat) (f : Strand → Nat → Nat × Flags) : State :=
  s.updMe fun x =>
    let act := x.active g
    let r := elementwise w act (f x)
    (x.vwrLanes act vd r.1 (x.vtags srcs ||| x.maskPoison g)).raiseFlags r.2

/-- An instruction that only moves or combines bits of lanes; its rm field is zero. -/
def State.laneOp (s : State) (g : Guard) (vd : VReg) (srcs : List VReg) (f : Strand → Nat → Nat) : Eff :=
  .done (s.vecWrite g vd srcs 32 fun x e => (f x e, {}))

/-! ## Moves (R164) -/

/-- VBCAST (R164). -/
def execVbcast (g : Guard) (vd : VReg) (r : SReg) (s : State) : Host.Outcome State Fault Refusal :=
  s.issue { head := 0x8600, guard := g } fun _ _ s =>
    .done (s.updMe fun x =>
      let act := x.active g
      let v : Vec := BitVec.ofNat 2048 (packElements 32 (List.replicate 64 (bitsOf (x.rd r) 0 32)))
      x.vwrLanes act vd v ((if x.tag r then BitVec.allOnes 64 else 0) ||| x.maskPoison g))

/-- VMOVS: under a mask guard only when the lane is active (R164). -/
def execVmovs (g : Guard) (d : SReg) (va : VReg) (ln : BitVec 6) (s : State) : Host.Outcome State Fault Refusal :=
  s.issue { head := 0x8601, guard := g } fun _ _ s =>
    let x := s.me
    if (x.active g).getLsbD ln.toNat then
      .done (s.setMe (x.wr d ((lane (x.vrd va) ln.toNat).setWidth 64)
        ((x.vt va ||| x.maskPoison g).getLsbD ln.toNat)))
    else .done s

/-- VMOVV (R164). -/
def execVmovv (g : Guard) (vd va : VReg) (s : State) : Host.Outcome State Fault Refusal :=
  s.issue { head := 0x8602, guard := g } fun _ _ s => s.laneOp g vd [va] fun x e => x.elem 32 va e

/-! ## Floating-point arithmetic (R165-R170) -/

/-- Equal pairs of fp32, fp16 and bf16; fp32 without a prefix (R157). -/
def floatPairs : Formats := ⟨fun a b => a == b && decide (a ≤ 2), 0, 0⟩

/-- The layout of an fp32, fp16 or bf16 code. -/
def layout (fa : Nat) : FloatFmt := (floatFmt fa).getD fp32

/-- An operation on exact values, rounded once (R165). -/
def State.floatOp (s : State) (g : Guard) (vd : VReg) (srcs : List VReg) (rm : BitVec 3) (fa : Nat)
    (op : Nat → List XVal → XVal × Flags) : Eff :=
  let f := layout fa
  let mode := s.me.rmOf rm
  let seed := s.myTile.ctl.seed
  .done (s.vecWrite g vd srcs (fmtWidth fa) fun x e =>
    let r := op mode (srcs.map fun v => f.value (x.elem (fmtWidth fa) v e))
    let q := f.round r.1 mode seed
    (q.1, r.2.or q.2))

/-- An operation on the bits of elements, not rounded. -/
def State.bitsOp (s : State) (g : Guard) (vd : VReg) (srcs : List VReg) (fa : Nat)
    (op : FloatFmt → List Nat → Nat × Flags) : Eff :=
  .done (s.vecWrite g vd srcs (fmtWidth fa) fun x e => op (layout fa) (srcs.map fun v => x.elem (fmtWidth fa) v e))

/-- The value at a place of an operand list. -/
def arg (xs : List XVal) (i : Nat) : XVal := xs.getD i .zero

/-- What the issue of a major 0x22 instruction needs to know. -/
def floatInfo (head : Nat) (g : Guard) : Info := { head := head, guard := g, formats := some floatPairs }

/-- VADD (R165). -/
def execVadd (g : Guard) (vd va vb : VReg) (rm : BitVec 3) (s : State) : Host.Outcome State Fault Refusal :=
  s.issue (floatInfo 0x8A00 g) fun fa _ s => s.floatOp g vd [va, vb] rm fa sumX

/-- VSUB (R165). -/
def execVsub (g : Guard) (vd va vb : VReg) (rm : BitVec 3) (s : State) : Host.Outcome State Fault Refusal :=
  s.issue (floatInfo 0x8A01 g) fun fa _ s =>
    s.floatOp g vd [va, vb] rm fa fun mode xs => sumX mode [arg xs 0, (arg xs 1).neg]

/-- VMUL (R165). -/
def execVmul (g : Guard) (vd va vb : VReg) (rm : BitVec 3) (s : State) : Host.Outcome State Fault Refusal :=
  s.issue (floatInfo 0x8A02 g) fun fa _ s => s.floatOp g vd [va, vb] rm fa fun _ xs => (arg xs 0).mul (arg xs 1)

/-- VMIN (R166). -/
def execVmin (g : Guard) (vd va vb : VReg) (_rm : BitVec 3) (s : State) : Host.Outcome State Fault Refusal :=
  s.issue (floatInfo 0x8A03 g) fun fa _ s =>
    s.bitsOp g vd [va, vb] fa fun f xs => f.minMax false (xs.getD 0 0) (xs.getD 1 0)

/-- VMAX (R166). -/
def execVmax (g : Guard) (vd va vb : VReg) (_rm : BitVec 3) (s : State) : Host.Outcome State Fault Refusal :=
  s.issue (floatInfo 0x8A04 g) fun fa _ s =>
    s.bitsOp g vd [va, vb] fa fun f xs => f.minMax true (xs.getD 0 0) (xs.getD 1 0)

/-- VFMA (R165). -/
def execVfma (g : Guard) (vd va vb vc : VReg) (rm : BitVec 3) (s : State) : Host.Outcome State Fault Refusal :=
  s.issue (floatInfo 0x8A08 g) fun fa _ s =>
    s.floatOp g vd [va, vb, vc] rm fa fun mode xs => fmaX mode (arg xs 0) (arg xs 1) (arg xs 2) false false

/-- VFMS (R165). -/
def execVfms (g : Guard) (vd va vb vc : VReg) (rm : BitVec 3) (s : State) : Host.Outcome State Fault Refusal :=
  s.issue (floatInfo 0x8A09 g) fun fa _ s =>
    s.floatOp g vd [va, vb, vc] rm fa fun mode xs => fmaX mode (arg xs 0) (arg xs 1) (arg xs 2) false true

/-- VNFMA (R165). -/
def execVnfma (g : Guard) (vd va vb vc : VReg) (rm : BitVec 3) (s : State) : Host.Outcome State Fault Refusal :=
  s.issue (floatInfo 0x8A0A g) fun fa _ s =>
    s.floatOp g vd [va, vb, vc] rm fa fun mode xs => fmaX mode (arg xs 0) (arg xs 1) (arg xs 2) true false

/-- VABS and VNEG on the bits of one element (R167). -/
def FloatFmt.signOp (f : FloatFmt) (negate : Bool) (b : Nat) : Nat × Flags :=
  match f.value b with
  | .nan sg => (f.nan, { nv := sg })
  | _ =>
    let m := b % 2 ^ (f.exp + f.frac)
    if negate then (if m = b then b + f.sign true else m, {}) else (m, {})

/-- VABS (R167). -/
def execVabs (g : Guard) (vd va : VReg) (_rm : BitVec 3) (s : State) : Host.Outcome State Fault Refusal :=
  s.issue (floatInfo 0x8A10 g) fun fa _ s => s.bitsOp g vd [va] fa fun f xs => f.signOp false (xs.getD 0 0)

/-- VNEG (R167). -/
def execVneg (g : Guard) (vd va : VReg) (_rm : BitVec 3) (s : State) : Host.Outcome State Fault Refusal :=
  s.issue (floatInfo 0x8A11 g) fun fa _ s => s.bitsOp g vd [va] fa fun f xs => f.signOp true (xs.getD 0 0)

/-- VRCP (R170). -/
def execVrcp (g : Guard) (vd va : VReg) (rm : BitVec 3) (s : State) : Host.Outcome State Fault Refusal :=
  s.issue (floatInfo 0x8A12 g) fun fa _ s => s.floatOp g vd [va] rm fa fun _ xs => (arg xs 0).rcp

/-- VRSQ (R170). -/
def execVrsq (g : Guard) (vd va : VReg) (rm : BitVec 3) (s : State) : Host.Outcome State Fault Refusal :=
  s.issue (floatInfo 0x8A13 g) fun fa _ s => s.floatOp g vd [va] rm fa fun _ xs => (arg xs 0).rsq

/-- VEXP2 (R170). -/
def execVexp2 (g : Guard) (vd va : VReg) (rm : BitVec 3) (s : State) : Host.Outcome State Fault Refusal :=
  s.issue (floatInfo 0x8A14 g) fun fa _ s => s.floatOp g vd [va] rm fa fun _ xs => (arg xs 0).exp2

/-- VLOG2 (R170). -/
def execVlog2 (g : Guard) (vd va : VReg) (rm : BitVec 3) (s : State) : Host.Outcome State Fault Refusal :=
  s.issue (floatInfo 0x8A15 g) fun fa _ s => s.floatOp g vd [va] rm fa fun _ xs => (arg xs 0).log2

/-- VSCALE: vb holds integers of the element's width (R168). -/
def execVscale (g : Guard) (vd va vb : VReg) (rm : BitVec 3) (s : State) : Host.Outcome State Fault Refusal :=
  s.issue (floatInfo 0x8A18 g) fun fa _ s =>
    let f := layout fa
    let w := fmtWidth fa
    let mode := s.me.rmOf rm
    let seed := s.myTile.ctl.seed
    .done (s.vecWrite g vd [va, vb] w fun x e =>
      f.round ((f.value (x.elem w va e)).scale2 (signedOf w (x.elem w vb e))) mode seed)

/-- VCLASS (R169). -/
def execVclass (g : Guard) (vd va : VReg) (s : State) : Host.Outcome State Fault Refusal :=
  s.issue (floatInfo 0x8A19 g) fun fa _ s => s.bitsOp g vd [va] fa fun f xs => (f.cls (xs.getD 0 0), {})

/-! ## Compare and select (R171, R172) -/

/-- One element's compare: its truth and whether it sets NV (R171). -/
def compareElem (fa : Nat) (cc : VCond) (a b : Nat) : Bool × Bool :=
  let x := if fa = 11 then XVal.int (signedOf 32 a) else (layout fa).value a
  let y := if fa = 11 then XVal.int (signedOf 32 b) else (layout fa).value b
  if x.isNan || y.isNan then
    let quietNv := match cc with | .lt => true | .le => true | .gt => true | .ge => true | _ => false
    (decide (cc = .ne) || decide (cc = .un), x.snan || y.snan || quietNv)
  else
    let o := x.compare y
    (match cc with
      | .eq => decide (o = .eq) | .ne => decide (o ≠ .eq) | .lt => decide (o = .lt) | .le => decide (o ≠ .gt)
      | .gt => decide (o = .gt) | .ge => decide (o ≠ .lt) | .un => false, false)

/-- VCMP: in the 16-bit formats a bit needs both elements of its lane (R171). -/
def execVcmp (g : Guard) (cc : VCond) (qd : PReg) (va vb : VReg) (s : State) : Host.Outcome State Fault Refusal :=
  s.issue { head := 0x8E00 + cc.code.toNat, guard := g, formats := some ⟨fun a b => a == b && (decide (a ≤ 2) || decide (a = 11)), 0, 0⟩ }
    fun fa _ s =>
      let x := s.me
      let w := fmtWidth fa
      let act := x.active g
      let r (e : Nat) : Bool × Bool := compareElem fa cc (x.elem w va e) (x.elem w vb e)
      let bit (i : Nat) : Bool × Bool :=
        if !act.getLsbD i then (false, false)
        else if w = 32 then r i
        else ((r (2 * i)).1 && (r (2 * i + 1)).1, (r (2 * i)).2 || (r (2 * i + 1)).2)
      let rs := (List.range 64).map bit
      let v : BitVec 64 := BitVec.ofNat 64 (packElements 1 (rs.map fun b => if b.1 then 1 else 0))
      let t := x.vtags [va, vb] ||| x.maskPoison g
      .done (s.setMe ((x.qwr qd ((x.qrd qd &&& ~~~act) ||| (v &&& act)) ((x.qt qd &&& ~~~act) ||| (t &&& act))).raiseFlags
        { nv := rs.any (·.2) }))

/-- VSEL (R172). -/
def execVsel (g : Guard) (vd va vb : VReg) (n : PReg) (s : State) : Host.Outcome State Fault Refusal :=
  s.issue { head := 0x8E08, guard := g } fun _ _ s =>
    .done (s.updMe fun x =>
      let act := x.active g
      let m := x.qrd n
      let lm := laneBits m
      let t := (x.vt va &&& m) ||| (x.vt vb &&& ~~~m) ||| x.qt n
      x.vwrLanes act vd ((x.vrd va &&& lm) ||| (x.vrd vb &&& ~~~lm)) (t ||| x.maskPoison g))

/-! ## Permutes (R175) -/

/-- Moves 32-bit lanes: lane i comes from lane src i of a register, with the poison of an index register's lane. -/
def State.permute (s : State) (g : Guard) (vd : VReg) (src : Strand → Nat → VReg × Nat) (index : Option VReg) : Eff :=
  .done (s.updMe fun x =>
    let act := x.active g
    let val (i : Nat) : Nat := let p := src x i; (lane (x.vrd p.1) p.2).toNat
    let tag (i : Nat) : Nat := let p := src x i; if (x.vt p.1).getLsbD p.2 then 1 else 0
    let v : Vec := BitVec.ofNat 2048 (packElements 32 ((List.range 64).map val))
    let t : BitVec 64 := BitVec.ofNat 64 (packElements 1 ((List.range 64).map tag))
    let ti : BitVec 64 := match index with | some r => x.vt r | none => 0
    x.vwrLanes act vd v (t ||| ti ||| x.maskPoison g))

/-- VPERM (R175). -/
def execVperm (g : Guard) (vd va vb : VReg) (s : State) : Host.Outcome State Fault Refusal :=
  s.issue { head := 0x9208, guard := g } fun _ _ s =>
    s.permute g vd (fun x i => (va, bitsOf (lane (x.vrd vb) i) 0 6)) (some vb)

/-- VSHUF (R175). -/
def execVshuf (g : Guard) (vd va vb vc : VReg) (s : State) : Host.Outcome State Fault Refusal :=
  s.issue { head := 0x9209, guard := g } fun _ _ s =>
    s.permute g vd (fun x i =>
      let c := lane (x.vrd vc) i
      (if c.getLsbD 6 then vb else va, bitsOf c 0 6)) (some vc)

/-- VROT (R175). -/
def execVrot (g : Guard) (vd va : VReg) (n : BitVec 6) (s : State) : Host.Outcome State Fault Refusal :=
  s.issue { head := 0x920A, guard := g } fun _ _ s =>
    s.permute g vd (fun _ i => (va, (i + n.toNat) % 64)) none

end Sys2Proof.Machine
end

