-- ==== Sys2Proof/Machine/VectorReduce.lean ====
section
/-! DEFINITION. Vector reductions, scans, dot products, conversions, integer and mask instructions
(R119, R120, R123, R124, R173, R174, R176-R181). -/

namespace Sys2Proof.Machine

/-! ## Reductions and scans -/

/-- One node of VRED and VSCAN on FP32 bits (R123, R124, R166). DEDUCED, log 66. -/
def fp32Node (op : RedOp) (rm : Nat) (seed : Word) (a b : Nat) : Nat × Flags :=
  match op with
  | .add =>
    let r := sumX rm [fp32.value a, fp32.value b]
    let q := fp32.round r.1 rm seed
    (q.1, r.2.or q.2)
  | .min => fp32.minMax false a b
  | .max => fp32.minMax true a b

/-- One level of the tree of R123: none stands for EMPTY. -/
def treeLevel (node : Nat → Nat → Nat × Flags) : List (Option Nat) → List (Option Nat) × Flags
  | a :: b :: t =>
    let r := treeLevel node t
    match a, b with
    | some x, some y => let q := node x y; (some q.1 :: r.1, r.2.or q.2)
    | some x, none => (some x :: r.1, r.2)
    | none, y => (y :: r.1, r.2)
  | l => (l, {})

/-- The fixed pairwise tree of R123 over 2^levels leaves. -/
def treeReduce (node : Nat → Nat → Nat × Flags) : Nat → List (Option Nat) → Option Nat × Flags
  | 0, l => (l.getD 0 none, {})
  | n + 1, l =>
    let r := treeLevel node l
    let q := treeReduce node n r.1
    (q.1, r.2.or q.2)

/-- The result of a reduction with no active element (R123). -/
def emptyResult : RedOp → Nat
  | .add => 0 | .min => fp32.inf false | .max => fp32.inf true

/-- A binary logarithm of a small power of two. -/
def log2Count (n : Nat) : Nat := Nat.log2 n

/-- VRED (R123, R173). -/
def execVred (g : Guard) (op : RedOp) (d : SReg) (va : VReg) (s : State) : Host.Outcome State Fault Refusal :=
  s.issue { head := 0x9200 + op.code.toNat, guard := g,
            formats := some ⟨fun a b => decide (b = 0) && [0, 1, 2, 4, 5, 7, 8, 10].contains a, 0, 0⟩ } fun fa _ s =>
    if (boundTables fa 0).any s.myTile.swapping then .retry s
    else
      let x := s.me
      let w := fmtWidth fa
      let act := x.active g
      let leaf (e : Nat) : Option Nat × Flags :=
        if act.getLsbD (w * e / 32) then
          let q := fp32.round (decodeElem s.myTile.tabs fa (x.elem w va e)) 0 0
          (some q.1, q.2)
        else (none, {})
      let leaves := (List.range (2048 / w)).map leaf
      let fl := leaves.foldl (fun (f : Flags) l => f.or l.2) {}
      let r := treeReduce (fp32Node op 0 0) (log2Count (2048 / w)) (leaves.map (·.1))
      let tag := decide (((x.vt va &&& act) ||| x.maskPoison g) ≠ 0)
      .done (s.setMe ((x.wr d (BitVec.ofNat 64 (r.1.getD (emptyResult op))) tag).raiseFlags (fl.or r.2)))

/-- The running values of VSCAN over the active elements (R124, R174): the first is converted, and op then takes
each element as it is. DEDUCED, log 23. -/
def scanRun (act : Nat → Bool) (raw : Nat → Nat) (conv : Nat → Nat × Flags) (node : Nat → Nat → Nat × Flags) :
    List Nat → Option Nat → List Nat × Flags
  | [], _ => ([], {})
  | e :: t, run =>
    if act e then
      let q : Nat × Flags := match run with
        | none => conv e
        | some v => node v (raw e)
      let r := scanRun act raw conv node t (some q.1)
      (q.1 :: r.1, q.2.or r.2)
    else
      let r := scanRun act raw conv node t run
      (0 :: r.1, r.2)

/-- The OR of poison over the active lanes from 0 to each lane. -/
def prefixPoison (t : BitVec 64) : BitVec 64 :=
  BitVec.ofNat 64 (packElements 1 ((List.range 64).map fun i => if bitsOf t 0 (i + 1) ≠ 0 then 1 else 0))

/-- One node of an INT32 scan (R174). -/
def int32Node (op : RedOp) (a b : Nat) : Nat × Flags :=
  let x := signedOf 32 a
  let y := signedOf 32 b
  match op with
  | .add => (wrapNat 32 (x + y), {})
  | .min => (wrapNat 32 (if x ≤ y then x else y), {})
  | .max => (wrapNat 32 (if x ≤ y then y else x), {})

/-- VSCAN (R124, R174). A poisoned mask bit poisons its own lane only. DESIGN CHOICE, log 117. -/
def execVscan (g : Guard) (op : RedOp) (vd va _vb : VReg) (rm : BitVec 3) (s : State) : Host.Outcome State Fault Refusal :=
  s.issue { head := 0x9204 + op.code.toNat, guard := g, formats := some ⟨fun a b => a == b && (decide (a = 0) || decide (a = 11)), 0, 0⟩ }
    fun fa _ s =>
      let x := s.me
      let mode := x.rmOf rm
      let seed := s.myTile.ctl.seed
      let act := x.active g
      let el (e : Nat) : Nat := x.elem 32 va e
      let conv (e : Nat) : Nat × Flags := if fa = 11 then (el e, {}) else fp32.round (fp32.value (el e)) mode seed
      let node (v c : Nat) : Nat × Flags := if fa = 11 then int32Node op v c else fp32Node op mode seed v c
      let r := scanRun act.getLsbD el conv node (List.range 64) none
      let t := prefixPoison (x.vt va &&& act) ||| x.maskPoison g
      .done (s.setMe ((x.vwrLanes act vd (BitVec.ofNat 2048 (packElements 32 r.1)) t).raiseFlags r.2))

/-! ## VDOT (R176) -/

/-- The format pairs of VDOT (R157). -/
def dotPairs : Formats :=
  ⟨fun a b => (decide (b = 0) && [0, 1, 2, 4, 5, 6].contains a) || (decide (b = 11) && [7, 8, 9].contains a), 0, 0⟩

/-- VDOT on one lane (R176). -/
def dotLane (t : Tabs) (fa fb mode : Nat) (seed : Word) (a b c : Nat) : Nat × Flags :=
  let w := fmtWidth fa
  let es := List.range (32 / w)
  if fb = 11 then
    (wrapNat 32 (es.foldl (fun v e => v + intValue fa (element a w e) * intValue fa (element b w e)) (signedOf 32 c)), {})
  else
    let ps := es.map fun e => (decodeElem t fa (element a w e)).mul (decodeElem t fa (element b w e))
    let fl := ps.foldl (fun (f : Flags) p => f.or p.2) {}
    let r := sumX mode (ps.map (·.1) ++ [fp32.value c])
    let q := fp32.round r.1 mode seed
    (q.1, (fl.or r.2).or q.2)

/-- VDOT (R176). -/
def execVdot (g : Guard) (vd va vb vc : VReg) (rm : BitVec 3) (s : State) : Host.Outcome State Fault Refusal :=
  s.issue { head := 0x920C, guard := g, formats := some dotPairs } fun fa fb s =>
    if (boundTables fa fb).any s.myTile.swapping then .retry s
    else
      let mode := s.me.rmOf rm
      let T := s.myTile
      .done (s.vecWrite g vd [va, vb, vc] 32 fun x i =>
        dotLane T.tabs fa fb mode T.ctl.seed (x.elem 32 va i) (x.elem 32 vb i) (x.elem 32 vc i))

/-! ## Conversions (R110, R177, R178) -/

/-- The poison of a destination lane of a conversion: that of the lanes that `from_` gives for each element in it. -/
def convertPoison (n wd : Nat) (from_ : Nat → Bool) : BitVec 64 :=
  BitVec.ofNat 64 (packElements 1 ((List.range 64).map fun i =>
    if (List.range (32 / wd)).any fun j => decide (i * (32 / wd) + j < n) && from_ (i * (32 / wd) + j) then 1 else 0))

/-- The count of elements a conversion takes (R177). -/
def convertCount (ws wd : Nat) : Nat := Nat.min (2048 / ws) (2048 / wd)

/-- Writes the result of a conversion: n elements of width wd, zeros above (R177). DEDUCED, log 22. A poisoned mask bit
poisons a zero-filled lane too. DESIGN CHOICE, log 116. -/
def State.convert (s : State) (g : Guard) (vd : VReg) (ws wd : Nat) (poison : Strand → Nat → Bool)
    (f : Strand → Nat → Nat × Flags) : Eff :=
  .done (s.updMe fun x =>
    let act := x.active g
    let n := convertCount ws wd
    let r := elementwise wd act fun e => if e < n then f x e else (0, {})
    (x.vwrLanes act vd r.1 (convertPoison n wd (poison x) ||| x.maskPoison g)).raiseFlags r.2)

/-- VCVT of one element (R110, R177): with equal formats it is copied, but for a NaN. DEDUCED, log 22. -/
def convertElem (t : Tabs) (fa fb : Nat) (b mode : Nat) (seed : Word) : Nat × Flags :=
  let v := decodeElem t fa b
  if fa = fb ∧ v.isNan = false then (b, {}) else roundElem t fb v mode seed

/-- VCVT (R177). -/
def execVcvt (g : Guard) (vd va : VReg) (rm : BitVec 3) (s : State) : Host.Outcome State Fault Refusal :=
  s.issue { head := 0x9600, guard := g,
            formats := some ⟨fun a b => decide (a ≤ 11) && decide (a ≠ 3) && decide (b ≤ 11) && decide (b ≠ 3), 11, 0⟩ } fun fa fb s =>
    let T := s.myTile
    if (boundTables fa fb).any T.swapping then .retry s
    else match T.invalidTable (boundTables 0 fb) with
    | some v => .trap 0x0F v
    | none =>
      let mode := s.me.rmOf rm
      let ws := fmtWidth fa
      s.convert g vd ws (fmtWidth fb) (fun x e => (x.vt va).getLsbD (ws * e / 32)) fun x e =>
        convertElem T.tabs fa fb (x.elem ws va e) mode T.ctl.seed

/-- The value of a block element (R119): its byte, its block's scale and tag. -/
def blockValue (t : Tabs) (b scale tag : Nat) : XVal :=
  if tag = 3 then .zero
  else if scale = 255 then .nan false
  else (decodeElem t (if tag = 0 then 4 else if tag = 1 then 5 else 7) b).scale2 ((scale : Int) - 127)

/-- The encoding of a value into a block element (R120). With tag 3 and scale 255 together the tag is tested first,
so no flag is set (R120 and R178 do not say which sentence wins). DESIGN CHOICE, log 104. -/
def blockEncode (t : Tabs) (v : XVal) (scale tag mode : Nat) (seed : Word) : Nat × Flags :=
  if tag = 3 then (0, {})
  else if scale = 255 then (0, { nv := true })
  else roundElem t (if tag = 0 then 4 else if tag = 1 then 5 else 7) (v.scale2 (127 - (scale : Int))) mode seed

/-- The scale byte of block j in vb, and its tag in lane 0 of vc (R178). -/
def Strand.blockScale (x : Strand) (vb : VReg) (j : Nat) : Nat := x.elem 8 vb j
/-- The tag of block j (R178). -/
def Strand.blockTag (x : Strand) (vc : VReg) (j : Nat) : Nat := bitsOf (x.vrd vc) (2 * j) 2

/-- The tables that the tags of the first n blocks select (R116, R158). -/
def Strand.blockTables (x : Strand) (vc : VReg) (n : Nat) : List Bool :=
  (if (List.range n).any fun j => decide (x.blockTag vc j = 0) then [false] else []) ++
    (if (List.range n).any fun j => decide (x.blockTag vc j = 1) then [true] else [])

/-- VBSCL (R178). -/
def execVbscl (g : Guard) (vd va vb vc : VReg) (rm : BitVec 3) (s : State) : Host.Outcome State Fault Refusal :=
  s.issue { head := 0x9601, guard := g,
            formats := some ⟨fun a b => (decide (a = 12) && decide (b ≤ 2)) || (decide (b = 12) && decide (a ≤ 2)), 12, 0⟩ } fun fa fb s =>
    let T := s.myTile
    let x := s.me
    let n := convertCount (fmtWidth fa) (fmtWidth fb)
    let bs := x.blockTables vc (n / 32)
    if bs.any T.swapping then .retry s
    else match if fb = 12 then T.invalidTable bs else none with
    | some v => .trap 0x0F v
    | none =>
      let mode := x.rmOf rm
      let ws := fmtWidth fa
      let poison (x : Strand) (e : Nat) : Bool :=
        (x.vt va).getLsbD (ws * e / 32) || (x.vt vb).getLsbD (e / 32 / 4) || (x.vt vc).getLsbD 0
      s.convert g vd ws (fmtWidth fb) poison fun x e =>
        let j := e / 32
        if fa = 12 then (layout fb).round (blockValue T.tabs (x.elem 8 va e) (x.blockScale vb j) (x.blockTag vc j)) mode T.ctl.seed
        else blockEncode T.tabs ((layout fa).value (x.elem ws va e)) (x.blockScale vb j) (x.blockTag vc j) mode T.ctl.seed

/-! ## Integer and bitwise instructions (R179, R180) -/

/-- The format pairs of the integer instructions (R157). -/
def intPairs : Formats := ⟨fun a b => a == b && [7, 8, 10, 11].contains a, 11, 11⟩

/-- An integer instruction of major 0x26: the operands as integers and the raw bits, wrapped to the width. DEDUCED, log 25. -/
def State.intOp (s : State) (g : Guard) (vd : VReg) (srcs : List VReg) (fa : Nat)
    (op : List Int → List Nat → Int) : Eff :=
  let w := fmtWidth fa
  .done (s.vecWrite g vd srcs w fun x e =>
    let bs := srcs.map fun v => x.elem w v e
    (wrapNat w (op (bs.map (intValue fa)) bs), {}))

/-- What the issue of an integer vector instruction needs to know. -/
def intInfo (head : Nat) (g : Guard) : Info := { head := head, guard := g, formats := some intPairs }

/-- Clamps an integer to the range of a format (R104). -/
def clampInt (fa : Nat) (v : Int) : Int :=
  let lo : Int := -((intRange fa).1 : Int)
  let hi : Int := (intRange fa).2
  if v < lo then lo else if hi < v then hi else v

/-- VIADD (R179). -/
def execViadd (g : Guard) (vd va vb : VReg) (s : State) : Host.Outcome State Fault Refusal :=
  s.issue (intInfo 0x9A00 g) fun fa _ s => s.intOp g vd [va, vb] fa fun x _ => x.getD 0 0 + x.getD 1 0

/-- VISUB (R179). -/
def execVisub (g : Guard) (vd va vb : VReg) (s : State) : Host.Outcome State Fault Refusal :=
  s.issue (intInfo 0x9A01 g) fun fa _ s => s.intOp g vd [va, vb] fa fun x _ => x.getD 0 0 - x.getD 1 0

/-- VIMUL (R179). -/
def execVimul (g : Guard) (vd va vb : VReg) (s : State) : Host.Outcome State Fault Refusal :=
  s.issue (intInfo 0x9A02 g) fun fa _ s => s.intOp g vd [va, vb] fa fun x _ => x.getD 0 0 * x.getD 1 0

/-- VIMAD (R179). -/
def execVimad (g : Guard) (vd va vb vc : VReg) (s : State) : Host.Outcome State Fault Refusal :=
  s.issue (intInfo 0x9A03 g) fun fa _ s =>
    s.intOp g vd [va, vb, vc] fa fun x _ => x.getD 0 0 * x.getD 1 0 + x.getD 2 0

/-- VIADD.SAT (R179). -/
def execViaddSat (g : Guard) (vd va vb : VReg) (s : State) : Host.Outcome State Fault Refusal :=
  s.issue (intInfo 0x9A80 g) fun fa _ s => s.intOp g vd [va, vb] fa fun x _ => clampInt fa (x.getD 0 0 + x.getD 1 0)

/-- VISUB.SAT (R179). -/
def execVisubSat (g : Guard) (vd va vb : VReg) (s : State) : Host.Outcome State Fault Refusal :=
  s.issue (intInfo 0x9A81 g) fun fa _ s => s.intOp g vd [va, vb] fa fun x _ => clampInt fa (x.getD 0 0 - x.getD 1 0)

/-- VSHL (R179). -/
def execVshl (g : Guard) (vd va vb : VReg) (s : State) : Host.Outcome State Fault Refusal :=
  s.issue (intInfo 0x9A0C g) fun fa _ s =>
    s.intOp g vd [va, vb] fa fun _ b => (b.getD 0 0 * 2 ^ (b.getD 1 0 % fmtWidth fa) : Nat)

/-- VSHR (R179). -/
def execVshr (g : Guard) (vd va vb : VReg) (s : State) : Host.Outcome State Fault Refusal :=
  s.issue (intInfo 0x9A0D g) fun fa _ s =>
    s.intOp g vd [va, vb] fa fun _ b => (b.getD 0 0 / 2 ^ (b.getD 1 0 % fmtWidth fa) : Nat)

/-- VSRA (R179). -/
def execVsra (g : Guard) (vd va vb : VReg) (s : State) : Host.Outcome State Fault Refusal :=
  s.issue (intInfo 0x9A0E g) fun fa _ s =>
    s.intOp g vd [va, vb] fa fun x b => x.getD 0 0 / (2 ^ (b.getD 1 0 % fmtWidth fa) : Nat)

/-- A bitwise instruction on whole lanes (R180). -/
def State.bitwise (s : State) (g : Guard) (vd va vb : VReg) (op : Vec → Vec → Vec) : Eff :=
  .done (s.updMe fun x => x.vwrLanes (x.active g) vd (op (x.vrd va) (x.vrd vb)) (x.vtags [va, vb] ||| x.maskPoison g))

/-- VAND (R180). -/
def execVand (g : Guard) (vd va vb : VReg) (s : State) : Host.Outcome State Fault Refusal :=
  s.issue { head := 0x9A08, guard := g } fun _ _ s => s.bitwise g vd va vb (· &&& ·)

/-- VOR (R180). -/
def execVor (g : Guard) (vd va vb : VReg) (s : State) : Host.Outcome State Fault Refusal :=
  s.issue { head := 0x9A09, guard := g } fun _ _ s => s.bitwise g vd va vb (· ||| ·)

/-- VXOR (R180). -/
def execVxor (g : Guard) (vd va vb : VReg) (s : State) : Host.Outcome State Fault Refusal :=
  s.issue { head := 0x9A0A, guard := g } fun _ _ s => s.bitwise g vd va vb (· ^^^ ·)

/-- Ones among the n low bits of a lane. -/
def laneOnes (x : Nat) : Nat → Nat
  | 0 => 0
  | n + 1 => x % 2 + laneOnes (x / 2) n

/-- VPOPC (R180). -/
def execVpopc (g : Guard) (vd va : VReg) (s : State) : Host.Outcome State Fault Refusal :=
  s.issue { head := 0x9A10, guard := g } fun _ _ s => s.laneOp g vd [va] fun x e => laneOnes (x.elem 32 va e) 32

/-! ## Masks (R181) -/

/-- A mask instruction: all 64 bits, poison of each source. -/
def maskBody (qx : PReg) (srcs : List PReg) (op : Strand → BitVec 64) : Nat → Nat → State → Eff :=
  fun _ _ s => .done (s.updMe fun x => x.qwr qx (op x) (srcs.foldl (fun t q => t ||| x.qt q) 0))

/-- VPAND (R181). -/
def execVpand (g : Guard) (qx y z : PReg) (s : State) : Host.Outcome State Fault Refusal :=
  s.issue { head := 0x9D00, guard := g } (maskBody qx [y, z] fun x => x.qrd y &&& x.qrd z)

/-- VPOR (R181). -/
def execVpor (g : Guard) (qx y z : PReg) (s : State) : Host.Outcome State Fault Refusal :=
  s.issue { head := 0x9D01, guard := g } (maskBody qx [y, z] fun x => x.qrd y ||| x.qrd z)

/-- VPNOT (R181). -/
def execVpnot (g : Guard) (qx y : PReg) (s : State) : Host.Outcome State Fault Refusal :=
  s.issue { head := 0x9D02, guard := g } (maskBody qx [y] fun x => ~~~(x.qrd y))

end Sys2Proof.Machine
end

