-- ==== Sys2Proof/Machine/Sheaf.lean ====
section
/-! DEFINITION. Votes, reductions and the Sheaf tree: ARRIVE, SYNC, combining, the root's decision and deadlock detection
(R14-R19, R256-R258, R305-R310, R317-R321, R392, R395). -/

namespace Sys2Proof.Machine

/-! ## Reductions (R123, R125, R309, R320) -/

/-- The ROP code of an op (R307). -/
def ropOf : SheafOp → BitVec 4
  | .add => 1 | .min => 2 | .max => 3 | .and => 4 | .or => 5 | .fadd => 6

/-- The node rule on two values (R309): integers exactly, FADD on bits 31:0 by RNE with no flag. -/
def sheafNode (rop : BitVec 4) (a b : Word) : Word :=
  match rop.toNat with
  | 1 => a + b
  | 2 => if a.toInt ≤ b.toInt then a else b
  | 3 => if b.toInt ≤ a.toInt then a else b
  | 4 => a &&& b
  | 5 => a ||| b
  | 6 => BitVec.ofNat 64 (fp32Node .add 0 0 (a.toNat % 2 ^ 32) (b.toNat % 2 ^ 32)).1
  | _ => a

/-- A leaf of the tree as R123 takes it: for FADD the low word, a NaN as the canonical NaN. -/
def sheafLeaf (rop : BitVec 4) (v : Word) : Word :=
  if rop = 6 then BitVec.ofNat 64 (if (fp32.value (v.toNat % 2 ^ 32)).isNan then 0x7FC00000 else v.toNat % 2 ^ 32) else v

/-- The result of an EMPTY reduction (R310). -/
def sheafEmpty (rop : BitVec 4) : Word :=
  match rop.toNat with
  | 2 => 0x7FFFFFFFFFFFFFFF
  | 3 => 0x8000000000000000
  | 4 => 0xFFFFFFFFFFFFFFFF
  | _ => 0

/-- A partial (l, e) of a reduction; EMPTY when it has no value. -/
structure RedPart where
  level : Nat
  index : Nat
  value : Option Word
deriving DecidableEq, Repr

/-- log2 N of R310: N is GANGSIZE padded to a power of two. -/
def treeDepth (size : Nat) : Nat := if size ≤ 1 then 0 else Nat.log2 (size - 1) + 1

/-- Two partials under the node rule of R123. -/
def joinParts (rop : BitVec 4) (a b : Option Word) : Option Word :=
  match a, b with
  | some x, some y => some (sheafNode rop x y)
  | some x, none => some x
  | none, y => y

/-- One application of step 3 or step 4 of R309, if one applies. -/
def stepParts (rop : BitVec 4) (size : Nat) (ps : List RedPart) : Option (List RedPart) :=
  let here (p : RedPart) : Bool := decide (p.level < treeDepth size) && decide (p.index % 2 = 0)
  let sibling (p : RedPart) : Option RedPart := ps.find? fun q => decide (q.level = p.level) && decide (q.index = p.index + 1)
  let padded (p : RedPart) : Bool := decide (size ≤ (p.index + 1) * 2 ^ p.level)
  match ps.find? fun p => here p && ((sibling p).isSome || padded p) with
  | none => none
  | some p =>
    let rest := ps.filter fun q => !(decide (q.level = p.level) && decide (q.index / 2 = p.index / 2))
    let v := match sibling p with | some q => joinParts rop p.value q.value | none => p.value
    some (⟨p.level + 1, p.index / 2, v⟩ :: rest)

/-- Steps 3 and 4 of R309 until neither applies. -/
def mergeParts (rop : BitVec 4) (size : Nat) : Nat → List RedPart → List RedPart
  | 0, ps => ps
  | fuel + 1, ps => match stepParts rop size ps with | none => ps | some qs => mergeParts rop size fuel qs

/-- A contribution goes before another (R320): increasing ROUTINE, then issue order. -/
def Contrib.before (a b : Contrib) : Bool :=
  if a.routine = b.routine then decide (a.seq ≤ b.seq) else decide (a.routine.toNat < b.routine.toNat)

/-- Inserts into a list sorted by an order. -/
def insertBy {α : Type} (le : α → α → Bool) (x : α) : List α → List α
  | [] => [x]
  | y :: t => if le x y then x :: y :: t else y :: insertBy le x t

/-- Sorts a list by an order, keeping the places of equals. -/
def sortBy {α : Type} (le : α → α → Bool) : List α → List α
  | [] => []
  | x :: t => insertBy le x (sortBy le t)

/-- The partial that a tile forms when its reduction closes (R320): ROP and value. -/
def closeReduction (cs : List Contrib) : BitVec 4 × Option Word :=
  match sortBy Contrib.before cs with
  | [] => (0, none)
  | c :: rest =>
    let op := ropOf c.op
    (op, some (sheafLeaf op (rest.foldl (fun a d => sheafNode op a d.value) (if op = 6 then c.value &&& 0xFFFFFFFF else c.value))))

/-! ## Packets (R306-R309) -/

/-- The clusters that hold tiles of the gang on this package. -/
def Gang.clusterKeys (g : Gang) : List Nat := (g.place.map clusterOf).eraseDups

/-- Their dies. -/
def Gang.dies (g : Gang) : List Nat := (g.clusterKeys.map (· / 68)).eraseDups

/-- The node at which the gang's tree ends on this package (R306, R395): a leaf (its cluster key), a die node at 1000 +
die, or the package root at 2000. -/
def Gang.root (g : Gang) : Nat :=
  if g.ranks ≠ 1 then 2000
  else match g.clusterKeys, g.dies with
  | [c], _ => c
  | _, [d] => 1000 + d
  | _, _ => 2000

/-- The ranks whose package roots send to this one's (R395). -/
def Gang.childRanks (g : Gang) : List Nat := (List.range g.ranks).filter fun r => decide (1 ≤ r) && decide ((r - 1) / 8 = g.rank)

/-- The senders that a node waits for (R309). -/
def Gang.children (g : Gang) (node : Nat) : List Nat :=
  if node < 272 then (g.place.filter fun t => decide (clusterOf t = node)).map (10000 + ·)
  else if node = 2000 then g.dies.map (1000 + ·) ++ g.childRanks.map (5000 + ·)
  else g.clusterKeys.filter fun c => decide (c / 68 + 1000 = node)

/-- What a sender has sent upward. -/
def Gang.sent (g : Gang) (sender : Nat) : List Packet := g.up.get sender []

/-- Adds packets from a sender. -/
def Gang.push (g : Gang) (sender : Nat) (ps : List Packet) : Gang := { g with up := g.up.set sender [] (g.sent sender ++ ps) }

/-- The sender has sent its whole batch of a kind: ARRIVE, or SYNCUP of a generation. -/
def batchIn (kind : BitVec 2) (gen : BitVec 16) (ps : List Packet) : Bool :=
  ps.any fun p => p.kind == kind && p.last && (kind == 0#2 || p.sgen == gen)

/-- Every child has sent its ARRIVE batch (R309). -/
def Gang.arriveReady (g : Gang) (node : Nat) : Bool := (g.children node).all fun c => batchIn 0 0 (g.sent c)

/-- The SYNC generation that a child has sent packets of. -/
def Gang.syncGen (g : Gang) (node : Nat) : Option (BitVec 16) :=
  (((g.children node).flatMap g.sent).find? fun p => p.kind == 2#2).map (·.sgen)

/-- Every child has sent its SYNCUP batch of the generation, or its ARRIVE batch (R318). -/
def Gang.syncReady (g : Gang) (node : Nat) (gen : BitVec 16) : Bool :=
  (g.children node).all fun c => batchIn 2 gen (g.sent c) || batchIn 0 0 (g.sent c)

/-- What a node combines a batch into (R309). -/
structure Combined where
  vote : BitVec 2
  cause : BitVec 8
  ctile : Nat
  rop : BitVec 4
  mismatched : Bool
  parts : List RedPart
deriving DecidableEq, Repr

/-- Combining of the packets of a batch (R309). In a SYNC generation an ARRIVE packet counts with an EMPTY partial (R318). -/
def combine (size : Nat) (isSync : Bool) (ps : List Packet) : Combined :=
  let best := ps.foldl (fun (v : BitVec 2) p => if voteRank v < voteRank p.vote then p.vote else v) 0
  let those := ps.filter fun p => p.vote == best
  let ctile := those.foldl (fun m p => Nat.min m p.ctile) (match those with | p :: _ => p.ctile | [] => 0)
  let cause := match those.find? fun p => decide (p.ctile = ctile) with | some p => p.cause | none => 0
  let counted := ps.filter fun p => !isSync || p.kind == 2#2
  let rops := ((counted.map (·.rop)).filter fun r => r ≠ 0).eraseDups
  let rop := rops.headD 0
  let part (p : Packet) : RedPart := ⟨p.level, p.index, if p.empty || (isSync && p.kind == 0#2) then none else some p.payload⟩
  ⟨best, cause, ctile, rop, decide (1 < rops.length), mergeParts rop size (2 * ps.length + 64) (ps.map part)⟩

/-- The packets that a node sends upward (R309). -/
def Combined.packets (c : Combined) (gang step : Nat) (kind : BitVec 2) (gen : BitVec 16) : List Packet :=
  let n := c.parts.length
  ((List.range n).zip c.parts).map fun ip =>
    ⟨gang, step, kind, c.vote, c.cause, c.rop, ip.2.value.getD 0, ip.2.level, ip.2.index, c.ctile, gen, decide (ip.1 + 1 = n),
     ip.2.value.isNone, false, 0⟩

/-- The result at a root (R310). -/
def Combined.result (c : Combined) : Word := match c.parts with | p :: _ => p.value.getD (sheafEmpty c.rop) | [] => sheafEmpty c.rop

/-! ## Quiet tiles and ARRIVE (R14, R216, R308) -/

/-- A ring has consumed its stop token (R149). -/
def Ring.consumed (x : Ring) : Bool :=
  !x.v || (x.stopin && decide (x.occ = 0)) || (decide (x.occ = 0) && !x.subv && !x.pushed)

/-- Traffic that counts as engine work of a tile is in flight (R14, R254). -/
def State.traffic (s : State) (t : Nat) : Bool :=
  (s.reqs.any fun r => decide (r.tile = t)) || (s.ists.any fun i => decide (i.src = t)) || (s.amos.any fun a => decide (a.src = t)) ||
    (s.amodNet.any fun f => decide (f.src = t)) || (s.sends.any fun f => decide (f.src = t)) || (s.msgs.any fun m => decide (m.src = t))

/-- A bale is being filled or drained, or a fill or drain of it is pending. -/
def Tile.baleBusy (T : Tile) : Bool := T.ctl.bales.any fun kb => decide (kb.2.state = 1) || decide (kb.2.state = 3) || kb.2.pend

/-- The tile is quiet (R14); after a failure, R216 governs. DEDUCED, log 31. -/
def State.quietTile (s : State) (t : Nat) : Bool :=
  let T := s.tile t
  let engines := T.mmas.isEmpty && T.accMoves.isEmpty && T.xq.isEmpty && T.pfls.isEmpty && T.colls.isEmpty && !s.traffic t
  let strands := (List.range 5).all (s.strandDone t)
  if T.seq.failed then
    (match T.seq.phase with | .compute => true | .exchange => true | _ => false) && strands && !s.traffic t && T.accMoves.isEmpty &&
      T.xq.all (fun e => !e.begun) && T.mmas.all (fun m => !m.retired)
  else
    decide (T.seq.phase = .exchange) && strands && engines && T.seq.sends.isEmpty && !T.baleBusy &&
      T.ctl.rings.all (fun kr => kr.2.consumed)

/-- A packet of a tile (R308, R318). -/
def Tile.packet (T : Tile) (kind : BitVec 2) : Packet :=
  let r := closeReduction T.redc
  ⟨T.gang, T.ctl.sstep.toNat, kind, if kind = 0 then T.vote.vote else 0, if kind = 0 then T.vote.cause else 0, r.1, r.2.getD 0, 0, T.gti,
   T.gti, if kind = 0 then 0 else T.vote.sgen, true, r.2.isNone, false, 0⟩

/-- ARRIVE (R14, R308, R399): a quiet tile sends its vote and its partial. -/
def execArrive (t : Nat) (s : State) : Host.Outcome State Fault Refusal :=
  match s.gangOf t with
  | none => .next s
  | some g =>
    let T := s.tile t
    if T.vote.sent || g.mirrorWait || g.todo.contains t || !s.quietTile t then .next s
    else
      let s := s.updGang T.gang fun G => G.push (10000 + t) [T.packet 0]
      .next (s.updTile t fun T =>
        { T with vote := { T.vote with sent := true }, redc := [], seq := { T.seq with phase := .arrived } })

/-! ## SYNC, VOTE, REDC, REDRD (R317-R321) -/

/-- The tile arrives at the current SYNC generation (R318). -/
def State.syncArrive (s : State) (t : Nat) : State :=
  let T := s.tile t
  if T.syncArrived then s
  else
    let s := s.updGang T.gang fun G => G.push (10000 + t) [T.packet 2]
    s.updTile t fun T => { T with redc := [], syncArrived := true }

/-- SYNC (R318). -/
def execSync (s : State) : Host.Outcome State Fault Refusal :=
  s.issue { head := 0xF400 } fun _ _ s =>
    if isSteward s.curTile then .trap 0x06 0
    else match s.me.resumed .sync with
    | some (some _) => .done (s.updMe fun x => { x with standing := none })
    | some none => .parked (s.updMe fun x => { x with standing := none }) .sync
    | none => if s.storesLanded then .parked (s.syncArrive s.curTile) .sync else .retry s

/-- A SYNC parked on strand k of tile t completes (R318). -/
def State.finishSync (s : State) (t k : Nat) : State :=
  let x := s.strand t k
  if x.run = .parked .sync then s.retireHeld t k Sync.none
  else match x.standing with
  | some (pc, .sync, none) => s.setStrand t k { x with standing := some (pc, .sync, some 0) }
  | _ => s

/-- SYNCDOWN at a tile (R318, R321). -/
def execSyncdown (t : Nat) (s : State) : Host.Outcome State Fault Refusal :=
  match s.gangOf t with
  | none => .next s
  | some g =>
    match g.syncDown with
    | none => .next s
    | some v =>
      if g.syncTodo.contains t then
        let rest := g.syncTodo.erase t
        let s := s.updGang (s.tile t).gang fun G => { G with syncTodo := rest, syncDown := if rest.isEmpty then none else some v }
        let s := s.updTile t fun T => { T with syncres := some v, syncArrived := false, vote := { T.vote with sgen := T.vote.sgen + 1 } }
        .next ((List.range 4).foldl (fun s k => s.finishSync t k) s)
      else .next s

/-- VOTE (R319). -/
def execVote (g : Guard) (v : BitVec 2) (cause : BitVec 8) (s : State) : Host.Outcome State Fault Refusal :=
  s.issue { head := 0xF501, guard := g } fun _ _ s =>
    if isSteward s.curTile then .trap 0x06 0 else .done (s.raiseVote s.curTile v cause)

/-- REDC (R320). -/
def execRedc (g : Guard) (op : SheafOp) (a : SReg) (s : State) : Host.Outcome State Fault Refusal :=
  s.issue { head := 0xF620 + ((ropOf op).toNat - 1), guard := g } fun _ _ s =>
    let x := s.me
    let T := s.myTile
    if isSteward s.curTile then .trap 0x06 0
    else if x.tag a then .trap 0x07 (a.setWidth 64)
    else match T.redc.find? fun c => decide (c.op ≠ op) with
    | some c => .trap 0x06 ((ropOf c.op).setWidth 64)
    | none =>
      if 64 ≤ T.redc.length then .trap 0x06 64
      else
        .done ((s.updMe fun x => { x with redcCount := x.redcCount + 1 }).updMyTile fun T =>
          { T with redc := T.redc ++ [⟨op, x.rd a, x.routine, x.redcCount⟩] })

/-- REDRD (R321). -/
def execRedrd (g : Guard) (d : SReg) (s : State) : Host.Outcome State Fault Refusal :=
  s.issue { head := 0xF603, guard := g } fun _ _ s =>
    if isSteward s.curTile then .trap 0x06 0
    else .done (s.updMe fun x => x.wr d (s.myTile.syncres.getD s.myTile.redres) false)

/-! ## The decision (R310) -/

/-- The DECIDE packet for a combined vote (R310): the abort limit, pre-emption and the step limit applied. -/
def Gang.decision (g : Gang) (id step : Nat) (abortcnt limit : BitVec 8) (vote : BitVec 2) (cause : BitVec 8) (ctile : Nat)
    (payload : Word) : Packet :=
  let v : BitVec 2 := if vote = 1 ∧ abortcnt.toNat + 1 = limit.toNat then 3 else vote
  let v : BitVec 2 := if v = 0 ∧ g.preempt then 2 else v
  let v : BitVec 2 := if v = 2 ∧ step + 1 = g.stepLimit.toNat then 0 else v
  let good := decide (v = 0) || decide (v = 2)
  ⟨id, step, 1, v, if good then 0 else cause, 0, payload, 0, 0, if good then 0 else ctile, 0, true, false, decide (v = 1) && g.preempt, 0⟩

/-- A decision serves the pre-emption request that waits for it, or discards it (R19, R310): it pre-empts the gang, stops it, or
is the commit of its last step. -/
def Gang.serves (g : Gang) (p : Packet) : Bool :=
  match p.vote.toNat with
  | 0 => decide (p.step + 1 = g.stepLimit.toNat)
  | 1 => p.yield
  | _ => true

/-- The decision goes to every tile of the gang, to the memory side and to the release queue; the wake that a host has
armed is disarmed (R350). A request stays pending until a decision serves it (R19). What the tiles of a discarded attempt
have under way goes with it (R18). -/
def State.broadcast (s : State) (id : Nat) (p : Packet) : State :=
  let s := s.updGang id fun G =>
    { G with
      verdict := some p, todo := G.place, preempt := G.preempt && !G.serves p, linkFail := false, mismatch := false
      syncMismatch := false, up := [], syncDown := none, syncTodo := [], sample := none, lines := [] }
  let s := s.disarmWake id
  let s := { s with accepted := s.accepted.filter fun x => decide (x.1 ≠ id) }
  match s.gang id with
  | some g => if p.vote = 1 ∨ p.vote = 3 then g.place.foldl State.dropTraffic s else s
  | none => s

/-- The DECIDE packet of the root for a combined vote. -/
def State.rootPacket (s : State) (id : Nat) (g : Gang) (vote : BitVec 2) (cause : BitVec 8) (ctile : Nat) (payload : Word) : Packet :=
  let T := s.tile (g.place.headD 0)
  g.decision id T.ctl.sstep.toNat T.abortcnt T.abortlim vote cause ctile payload

/-- The root decides on a combined vote. -/
def State.rootDecides (s : State) (id : Nat) (vote : BitVec 2) (cause : BitVec 8) (ctile : Nat) (payload : Word) : State :=
  match s.gang id with
  | none => s
  | some g => s.broadcast id (s.rootPacket id g vote cause ctile payload)

/-- The root decides ABORT for a link of the fabric that has left service, with the pre-emption of R19 (R392, R400). -/
def State.rootYields (s : State) (id : Nat) (ctile : Nat) : State :=
  match s.gang id with
  | none => s
  | some g =>
    let p := s.rootPacket id g 1 0x1A ctile 0
    s.broadcast id { p with yield := decide (p.vote = 1) }

/-- The child rank through whose package root the packets of a rank come (R395). -/
def viaRank (me : Nat) : Nat → Nat → Nat
  | 0, r => r
  | fuel + 1, r => if r = 0 ∨ (r - 1) / 8 = me then r else viaRank me fuel ((r - 1) / 8)

/-- Takes the packets that reach the package root from other packages: from child ranks upward, DECIDE and SYNCDOWN from
the fabric root; a packet with a reserved ROP or a nonzero reserved field is lost (R307, R395). -/
def State.takePackets (s : State) (id : Nat) (ext : List Packet) : State :=
  ext.foldl (fun s p =>
    if 7 ≤ p.rop.toNat ∨ p.reserved ≠ 0 then s.updGang id fun G => { G with linkFail := true }
    else match p.kind with
    | 1 => s.broadcast id p
    | 3 => s.updGang id fun G => { G with syncDown := some p.payload, syncTodo := G.place }
    | _ => s.updGang id fun G =>
        let r := if G.place.isEmpty then 0 else p.ctile / G.place.length
        G.push (5000 + viaRank G.rank 8 r) [p]) s

/-- Forgets the packets of a batch that a node has combined. -/
def Gang.consume (g : Gang) (node : Nat) (isSync : Bool) : Gang :=
  { g with up := (g.children node).foldl (fun m c =>
      m.set c [] (if isSync then (m.get c []).filter fun p => p.kind ≠ 2 else [])) g.up }

/-- A node whose children have all sent a batch combines it: the root decides or fires the generation, another node sends
upward (R309, R310, R318). A package root other than the fabric root sends to another package. -/
def State.combineAt (s : State) (id node : Nat) (g : Gang) : State :=
  let isRoot := decide (node = g.root) && decide (g.rank = 0)
  let pk := (g.children node).flatMap g.sent
  let step := (s.tile (g.place.headD 0)).ctl.sstep.toNat
  if isRoot && g.linkFail then s.rootDecides id 3 0x1A 0 0
  else if g.arriveReady node then
    let c := combine g.size false (pk.filter fun p => p.kind == 0#2)
    let s := s.setGang id { g.consume node false with mismatch := g.mismatch || c.mismatched }
    if isRoot then
      if g.mismatch || c.mismatched then s.rootDecides id 3 0x06 0 0
      else s.rootDecides id c.vote c.cause c.ctile c.result
    else if node = 2000 then s
    else s.updGang id fun G => G.push node (c.packets id step 0 0)
  else match g.syncGen node with
  | none => s
  | some gen =>
    if !g.syncReady node gen || (isRoot && !g.syncTodo.isEmpty) then s
    else
      let c := combine g.size true (pk.filter fun p => p.kind == 0#2 || p.sgen == gen)
      let bad := g.syncMismatch || c.mismatched
      let s := s.setGang id { g.consume node true with mismatch := g.mismatch || c.mismatched, syncMismatch := bad }
      if isRoot then
        s.updGang id fun G => { G with syncDown := some (if bad then 0 else c.result), syncTodo := G.place, syncMismatch := false }
      else if node = 2000 then s
      else s.updGang id fun G => G.push node (c.packets id step 2 gen)

/-- SHEAF_COMBINE (R309, R310, R395). -/
def execSheafCombine (gang node : Nat) (ext : List Packet) (s : State) : Host.Outcome State Fault Refusal :=
  match s.gang gang with
  | none => .next s
  | some g0 =>
    if g0.state ≠ .running ∨ g0.verdict.isSome then .next s
    else
      let s := if node = 2000 then s.takePackets gang ext else s
      match s.gang gang with
      | none => .next s
      | some g => .next (if g.verdict.isSome then s else s.combineAt gang node g)

/-! ## Deadlock (R256-R258) -/

/-- The depth of a rank in the tree of R395. -/
def rankDepth : Nat → Nat → Nat
  | 0, _ => 0
  | fuel + 1, r => if r = 0 then 0 else 1 + rankDepth fuel ((r - 1) / 8)

/-- The Sheaf round trip of a gang in cycles (R306, R395). DEDUCED, log 65. -/
def Gang.roundTrip (g : Gang) : Nat :=
  if g.ranks ≠ 1 then 480 + 1200 * rankDepth 8 (g.ranks - 1) else if g.root < 272 then 32 else if g.root < 2000 then 160 else 480

/-- The loader has a push to make into a subscribed ring: one that waits only for an EMPTY slot counts as idle (R257). -/
def Tile.loaderBusy (T : Tile) : Bool :=
  T.ctl.rings.any fun kr =>
    kr.2.subv && !kr.2.stopin && decide (kr.2.occ.toNat ≤ kr.2.cntm1.toNat) && decide ((T.bale kr.2.tailSlot).state = 0) &&
      !(T.bale kr.2.tailSlot).pend

/-- The storer has a slot to drain: the head of a ring that a strand has pushed READY and nothing has bound (R148). DESIGN CHOICE,
log 46. -/
def Tile.storerBusy (T : Tile) : Bool :=
  T.ctl.rings.any fun kr =>
    kr.2.v && decide (kr.2.occ ≠ 0) && decide (kr.2.bound = 0) && decide ((T.bale kr.2.headSlot).state = 2) &&
      !(T.bale kr.2.headSlot).refill

/-- The engines of a tile have no work of their own: on a failed tile, none that has begun, since the rest is cancelled and its rings
count as drained (R216); a COLL that waits for its partners counts as idle (R398). -/
def Tile.engineWork (T : Tile) : Bool :=
  if T.seq.failed then T.xq.any (·.begun) || T.mmas.any (·.retired) || !T.accMoves.isEmpty
  else
    !T.xq.isEmpty || !T.pfls.isEmpty || !T.mmas.isEmpty || !T.accMoves.isEmpty || !T.seq.sends.isEmpty || T.baleBusy || T.loaderBusy || T.storerBusy

/-- A tile shows what R257 asks of its engines. -/
def State.enginesIdle (s : State) (t : Nat) : Bool :=
  !(s.tile t).engineWork && !s.traffic t && decide ((s.tile t).waking = 0)

/-- Every other rank of the gang shows what R257 asks of its tiles. -/
def Gang.peersIdle (g : Gang) : Bool := (List.range g.ranks).all fun r => decide (r = 0) || (g.lines.find r).isSome

/-- A packet of the gang is still under way in the tree. -/
def Gang.sheafBusy (g : Gang) : Bool :=
  !g.syncTodo.isEmpty || (g.root :: (g.clusterKeys ++ g.dies.map (1000 + ·))).any fun n =>
    g.arriveReady n || (match g.syncGen n with | some gen => g.syncReady n gen | none => false)

/-- Every condition of R257 that one sample shows; an image that waits for its acknowledgement is traffic on Eweit (R399). -/
def State.deadlocked (s : State) (id : Nat) (g : Gang) : Bool :=
  g.place.all (fun t => (s.tile t).lineNow && s.enginesIdle t) && g.peersIdle &&
    (g.place.any (fun t => !(s.tile t).vote.sent) || g.lines.any fun rl => rl.2.unvoted.isSome) && !g.sheafBusy &&
    (s.chains.all fun c => !(g.clusterKeys.contains c.srcCluster)) && !s.wakeArmed id && !g.mirrorWait && !s.faultPending id && !s.gangFrozen id

/-- DLSTAT.PARKED of a tile: the lines of members 0 to 15 of its cluster (R258). -/
def State.lineSample (s : State) (t : Nat) : BitVec 16 :=
  (s.clusterMates t).foldl (fun m u =>
    if s.memberOf u < 16 then withBit m (s.memberOf u) (s.tile u).lineNow else m) 0

/-- DEADLOCK is raised (R257, R310): parked strands stop, and the root decides ABORT, whatever votes have arrived. -/
def State.raiseDeadlock (s : State) (id : Nat) (g : Gang) : State :=
  let stop (s : State) (t : Nat) : State :=
    s.updTile t fun T => { T with strands := T.strands.map fun kx =>
      (kx.1, match kx.2.run with | .parked _ => { kx.2 with run := .stopped } | _ => kx.2) }
  let waiting := ((g.place.filter fun t => !(s.tile t).vote.sent).map fun t => (s.tile t).gti) ++ g.lines.filterMap fun rl => rl.2.unvoted
  let ctile := waiting.foldl Nat.min (waiting.headD 0)
  ((g.place.foldl stop s).rootDecides id 1 0x13 ctile 0).report (.deadlock id)

/-- DEADLOCK (R257): a sample of the gang; the second of two that agree, a round trip apart, raises it. -/
def execDeadlock (gang : Nat) (s : State) : Host.Outcome State Fault Refusal :=
  match s.gang gang with
  | none => .next s
  | some g =>
    if g.state ≠ .running ∨ g.verdict.isSome ∨ g.rank ≠ 0 then .next s
    else
      let s' := g.place.foldl (fun s' t => s'.updTile t fun T => { T with dlsample := s.lineSample t }) s
      let acts := (g.place.map fun t => (s.tile t).act) ++ g.lines.flatMap fun rl => rl.2.acts
      if !s.deadlocked gang g then .next (s'.setGang gang { g with sample := none })
      else match g.sample with
      | some (c, a) =>
        if a = acts then
          if g.roundTrip ≤ s.cycle - c then .next (s'.raiseDeadlock gang g) else .next s'
        else .next (s'.setGang gang { g with sample := some (s.cycle, acts) })
      | none => .next (s'.setGang gang { g with sample := some (s.cycle, acts) })

end Sys2Proof.Machine
end

