-- ==== Sys2Proof/Machine/Gleaner.lean ====
section
/-! DEFINITION. The Gleaner: its instructions and its commit work (R324-R337, R345). -/

namespace Sys2Proof.Machine

/-! ## GCFG (R325, R335) -/

/-- DIS of a descriptor. -/
def plotOff (d : BitVec 512) : Bool := d.getLsbD 74

/-- Check 4 of R335. -/
def badDescriptor (d : BitVec 512) : Bool :=
  decide (bitsOf d 75 5 ≠ 0) || d.getLsbD 87 || decide (bitsOf d 100 4 ≠ 0) || decide (bitsOf d 112 16 ≠ 0) ||
    decide (bitsOf d 160 32 ≠ 0) || decide (bitsOf d 329 55 ≠ 0) || decide (bitsOf d 456 56 ≠ 0) || decide (plotFmt d = 3) ||
    decide (2 ^ 31 ≤ plotTheta d) || fp32Special (plotTheta d) || decide (plotBase d % 128 ≠ 0) || decide (plotOut d % 128 ≠ 0) ||
    decide (plotMap d % 128 ≠ 0) || decide (plotPatch d % (fmtWidth (plotFmt d) / 8) ≠ 0)

/-- Bytes of a row of the skip map (R329). -/
def rowBytes (d : BitVec 512) : Nat := (plotCount d + 1023) / 1024 * 128

/-- What the check of some pages comes to. -/
inductive PageCheck where
  | ok
  | bad
  | beyond (addr : Nat)
deriving DecidableEq, Repr

/-- Both checks pass; a failure decides, whatever the other needs. -/
def PageCheck.and (a b : PageCheck) : PageCheck :=
  match a, b with
  | .ok, y => y
  | .bad, _ => .bad
  | .beyond _, .bad => .bad
  | .beyond x, _ => .beyond x

/-- The page of a virtual address is mapped and passes a test. -/
def State.pagePasses (s : State) (p g : Nat) (test : Word → Bool) (a : Nat) : PageCheck :=
  if 2 ^ 52 ≤ a then .bad
  else match s.walk (s.rootOf p g) g (BitVec.ofNat 64 a) with
  | .beyond x => .beyond x
  | .fault => .bad
  | .leaf _ _ e => if !test e then .bad else if tierHolds (entryTier e) (entryAddr e) then .ok else .beyond (entryAddr e)

/-- All the pages of a range are mapped and pass a test. -/
def State.pagesPass (s : State) (p g lo len : Nat) (test : Word → Bool) : PageCheck :=
  (pagesOf lo len).foldl (fun r a => r.and (s.pagePasses p g test a)) .ok

/-- The pages of check 6 of R335. DEDUCED, log 67. -/
def State.plotPages (s : State) (t : Nat) (d : BitVec 512) : PageCheck :=
  let p := s.partOf t
  let g := (s.tile t).gang
  let domain := bitsOf (s.tile t).ctl.plbctl 0 16
  let stepped (e : Word) : Bool := entryStep e && decide (entryTier e = 0) && entryR e && entryW e && decide (entryDomain e = domain)
  let plain (e : Word) : Bool := !entryStep e && decide (entryTier e = 0) && entryW e
  let v := viewOf (s.viewDesc p g (plotView d))
  let patches := if plotView d = 0 then (plotBase d, plotCount d * plotPatch d) else (v.base, v.bytes)
  ((s.pagesPass p g patches.1 patches.2 stepped).and (s.pagesPass p g (plotOut d) (plotCount d * plotOutSize d) stepped)).and
    (s.pagesPass p g (plotMap d) (plotRows d * rowBytes d) plain)

/-- The latest configuration of a plot that the attempt has issued. DEDUCED, log 68. -/
def Gang.pendingConfig (g : Gang) (plot : Nat) : Option (BitVec 512) :=
  g.observed.findSome? fun o => match o with | .config i d => if i = plot then some d else none | _ => none

/-- Records that a plot holds, its reservation of the attempt included (R324, R335). -/
def Gang.records (g : Gang) (plot : Nat) : Nat :=
  let own := match g.plots.find plot with | some P => plotCount P.desc | none => 0
  let new := match g.pendingConfig plot with | some d => if plotOff d then 0 else plotCount d | none => 0
  Nat.max own new

/-- PQUOTA of a partition as gang g sees it (R345). -/
def State.pquotaOf (s : State) (p g : Nat) : Nat :=
  bitsOf (s.published g (.pcb p 2) ((s.part p).pcbWord 2)) 32 16

/-- Check 6's quota: the partition's and the package's 65,536 hold the plot's records beside all others (R335, R345). -/
def State.recordsFit (s : State) (id plot need : Nat) : Bool :=
  let of_ (p : Gang → Bool) : Nat :=
    ((s.gangs.filter fun gG => p gG.2).map fun gG =>
      ((List.range 8).map fun i => if gG.1 = id ∧ i = plot then 0 else gG.2.records i).sum).sum
  match s.gang id with
  | none => false
  | some g =>
    decide (of_ (fun G => decide (G.part = g.part)) + need ≤ s.pquotaOf g.part id) && decide (of_ (fun _ => true) + need ≤ 65536)

/-- Records an observation of the attempt. -/
def State.note (s : State) (id : Nat) (o : Observation) : State := s.updGang id fun G => { G with observed := G.observed ++ [o] }

/-- A GCFG whose checks have passed: it is kept for the commit; a different one of the same plot in the attempt conflicts
(R332, R335). -/
def State.configure (s : State) (t plot : Nat) (d : BitVec 512) : State :=
  let id := (s.tile t).gang
  let d := if plotOff d then BitVec.ofNat 512 (2 ^ 74) else d
  match (s.gang id).bind fun g => g.pendingConfig plot with
  | some e => if e = d then s else s.raiseVote t 3 0x0C
  | none => s.note id (.config plot d)

/-- GCFG (R335). -/
def execGcfg (g : Guard) (plot : BitVec 3) (a : SReg) (s : State) : Host.Outcome State Fault Refusal :=
  s.issue { head := 0xF610, guard := g } fun _ _ s =>
    let x := s.me
    let T := s.myTile
    let t := s.curTile
    let v := x.rd a
    if isSteward t then .trap 0x06 0
    else if x.tag a then .trap 0x09 (a.setWidth 64)
    else if v.toNat % 8 ≠ 0 then .trap 0x05 v
    else if !T.rangeIs Region.readable v.toNat 64 then .trap 0x06 v
    else match s.wakeFor t v.toNat 64 with
    | some s' => .retry s'
    | none =>
      let d := T.descriptor v.toNat
      if T.readPoison v.toNat 64 then .trap 0x07 v
      else if plotOff d then .done (s.configure t plot.toNat d)
      else if badDescriptor d then .trap 0x06 v
      else
        let vd := s.viewDesc (s.partOf t) T.gang (plotView d)
        if plotView d ≠ 0 ∧ (!viewValid (plotView d) vd ∨ (viewOf vd).positions < plotBase d + plotCount d * plotPatch d) then
          .trap 0x1B v
        else match s.plotPages t d with
        | .beyond b => .fault (.noSuchTierAddress b)
        | .bad => .trap 0x06 v
        | .ok => if s.recordsFit T.gang plot.toNat (plotCount d) then .done (s.configure t plot.toNat d) else .trap 0x06 v

/-! ## GSIG, GSKIP, GMAP, GFORCE, GSEAL (R334, R336, R337) -/

/-- A selector word's fields. -/
structure Selector where
  patch : Nat
  plot : Nat
  all : Bool
  index : Nat
  word : Nat
  reserved : Bool
deriving DecidableEq, Repr

/-- The fields of s[a]. -/
def selector (v : Word) : Selector :=
  ⟨bitsOf v 0 12, bitsOf v 12 3, v.getLsbD 15, bitsOf v 16 5, bitsOf v 21 6, decide (bitsOf v 27 37 ≠ 0)⟩

/-- The common checks of an instruction with a selector: its configured plot, or the trap; `bad` adds the instruction's
own cases. -/
def State.selected (s : State) (a : SReg) (bad : Selector → Plot → Bool) (k : Selector → Plot → Eff) : Eff :=
  let x := s.me
  let v := x.rd a
  let q := selector v
  if isSteward s.curTile then .trap 0x06 0
  else if x.tag a then .trap 0x09 (a.setWidth 64)
  else match (s.plotsOf s.curTile).find q.plot with
  | none => .trap 0x06 v
  | some P => if q.reserved || bad q P then .trap 0x06 v else k q P

/-- The state of a patch. -/
def Plot.patch (P : Plot) (p : Nat) : Patch := P.patches.get p {}

/-- A reference sum, or the L1 norm at index 16; a free value while no seal has set it. -/
def Plot.reference (P : Plot) (p i : Nat) : BitVec 32 :=
  let x := P.patch p
  if x.sums.isEmpty then Config.freeSketch P.draw (17 * p + i) else if i = 16 then x.l1 else x.sums.getD i 0

/-- GSIG (R337). -/
def execGsig (g : Guard) (d a : SReg) (s : State) : Host.Outcome State Fault Refusal :=
  s.issue { head := 0xF611, guard := g } fun _ _ s =>
    s.selected a (fun q P => q.all || decide (q.word ≠ 0) || decide (17 < q.index) ||
        (if q.index = 17 then decide (q.patch ≠ 0) else decide (plotCount P.desc ≤ q.patch))) fun q P =>
      let v : Nat :=
        if q.index = 17 then (match P.tseal with | some t => t.toNat + 2 ^ 32 | none => 0)
        else (P.reference q.patch q.index).toNat + (if (P.patch q.patch).refv then 2 ^ 32 else 0)
      .done (s.updMe fun x => x.wr d (BitVec.ofNat 64 v) false)

/-- GSKIP (R337). -/
def execGskip (g : Guard) (d a : SReg) (s : State) : Host.Outcome State Fault Refusal :=
  s.issue { head := 0xF612, guard := g } fun _ _ s =>
    s.selected a (fun q P => q.all || decide (q.word ≠ 0) || decide (q.index ≠ 0) || decide (plotCount P.desc ≤ q.patch)) fun q P =>
      let x := P.patch q.patch
      let outt : Nat := match x.outt with | some t => t | none => (Config.freeSketch P.draw (17 * 4096 + q.patch)).toNat
      .done (s.updMe fun y => y.wr d (BitVec.ofNat 64
        ((if P.skip q.patch then 1 else 0) + (if x.refv then 2 else 0) + (if x.force then 4 else 0) + x.run.toNat * 2 ^ 8 +
          (if x.outt.isSome then 2 ^ 16 else 0) + outt * 2 ^ 32)) false)

/-- A 64-bit word of row TSEAL (R337). -/
def Plot.mapWord (P : Plot) (w : Nat) : Word :=
  BitVec.ofNat 64 (packElements 1 ((List.range 64).map fun i => if P.skip (64 * w + i) then 1 else 0))

/-- GMAP (R337). -/
def execGmap (g : Guard) (d a : SReg) (s : State) : Host.Outcome State Fault Refusal :=
  s.issue { head := 0xF613, guard := g } fun _ _ s =>
    s.selected a (fun q P => q.all || decide (q.patch ≠ 0) || decide (q.index ≠ 0) || decide ((plotCount P.desc + 63) / 64 ≤ q.word)) fun q P =>
      .done (s.updMe fun x => x.wr d (P.mapWord q.word) false)

/-- GFORCE (R336). -/
def execGforce (g : Guard) (a : SReg) (s : State) : Host.Outcome State Fault Refusal :=
  s.issue { head := 0xF614, guard := g } fun _ _ s =>
    s.selected a (fun q P => decide (q.word ≠ 0) || decide (q.index ≠ 0) ||
        (if q.all then decide (q.patch ≠ 0) else decide (plotCount P.desc ≤ q.patch))) fun q _ =>
      .done (s.note s.myTile.gang (.force q.plot (if q.all then none else some q.patch)))

/-- GSEAL (R336). -/
def execGseal (g : Guard) (plot : BitVec 3) (s : State) : Host.Outcome State Fault Refusal :=
  s.issue { head := 0xF615, guard := g } fun _ _ s =>
    if isSteward s.curTile then .trap 0x06 0
    else if ((s.plotsOf s.curTile).find plot.toNat).isNone then .trap 0x06 (plot.setWidth 64)
    else .done (s.note s.myTile.gang (.seal plot.toNat))

/-! ## Commit work (R328-R333) -/

/-- Changes a patch. -/
def Plot.setPatch (P : Plot) (p : Nat) (f : Patch → Patch) : Plot := { P with patches := P.patches.set p {} (f (P.patch p)) }

/-- Step 1 of R332 for one observation of plot i. -/
def Plot.merge (P : Plot) (i : Nat) (o : Observation) : Plot :=
  match o with
  | .counting j p valid sums l1 =>
    if j = i then P.setPatch p fun x =>
      if x.written then { x with dirty := true } else { x with written := true, valid := valid, tsums := sums, tl1 := l1 }
    else P
  | .dirty j p _ => if j = i then P.setPatch p fun x => { x with dirty := true } else P
  | _ => P

/-- Step 2: the output slots that the attempt's writes reached, and whether every write of a slot was exact (R330). -/
def Plot.outputs (P : Plot) (i : Nat) (os : List Observation) : Plot :=
  let outs := os.filterMap fun o => match o with | .output j q e _ => if j = i then some (q, e) else none | _ => none
  ((outs.map (·.1)).eraseDups).foldl (fun P q =>
    let exact := outs.all fun x => decide (x.1 ≠ q) || x.2
    P.setPatch q fun x => { x with outt := if exact then P.tseal.map (·.toNat) else none }) P

/-- Step 3: GFORCE. -/
def Plot.forces (P : Plot) (i : Nat) (os : List Observation) : Plot :=
  os.foldl (fun P o => match o with
    | .force j (some p) => if j = i then P.setPatch p fun x => { x with force := true } else P
    | .force j none =>
      if j = i then (List.range (plotCount P.desc)).foldl (fun P p => P.setPatch p fun x => { x with force := true }) P else P
    | _ => P) P

/-- A finite FP32 value in units of 2^-149. -/
def fp32Units (b : BitVec 32) : Int :=
  let m := bitsOf b 0 23
  let e := bitsOf b 23 8
  let v : Nat := if e = 0 then m else (2 ^ 23 + m) * 2 ^ (e - 1)
  if b.getLsbD 31 then -(v : Int) else v

/-- The distance of R328 is at most THETA times the L1 norm of the reference; exact on real values. -/
def closeEnough (theta : Nat) (x : Patch) : Bool :=
  let bound := fp32Units (BitVec.ofNat 32 theta) * fp32Units x.l1
  (x.tsums.zip x.sums).all fun ab => decide (((fp32Units ab.1 - fp32Units ab.2).natAbs : Int) * 2 ^ 149 ≤ bound)

/-- One patch at a seal (R328): the skip bit and the patch after it. -/
def Patch.sealed (x : Patch) (k theta : Nat) : Bool × Patch :=
  let ok := x.written && !x.dirty && x.valid
  let skip := ok && x.refv && !x.force && decide (x.run.toNat < k) && x.outt.isSome && closeEnough theta x
  (skip, { x with
    run := if skip then x.run + 1 else 0
    sums := if ok then x.tsums else x.sums, l1 := if ok then x.tl1 else x.l1, refv := ok
    force := false, written := false, dirty := false, valid := false, tsums := [], tl1 := 0 })

/-- The seal of a plot's open timestep (R328). -/
def Plot.seal (P : Plot) : Plot :=
  let rs := (List.range (plotCount P.desc)).map fun p => (p, (P.patch p).sealed (plotK P.desc) (plotTheta P.desc))
  { P with
    row := rs.map fun r => r.2.1, tseal := some P.tcur, tcur := P.tcur + 1
    patches := rs.foldl (fun m r => m.set r.1 {} r.2.2) P.patches }

/-- The bytes of the latest sealed row (R329). -/
def Plot.rowData (P : Plot) : List Byte :=
  (List.range (rowBytes P.desc)).map fun i =>
    BitVec.ofNat 8 (packElements 1 ((List.range 8).map fun j => if P.skip (8 * i + j) then 1 else 0))

/-- Writes the row that a seal has made into the skip-map region (R329), in pages that are still mapped. DESIGN CHOICE, log 69. -/
def State.writeRow (s : State) (id : Nat) (g : Gang) (P : Plot) : State :=
  match P.tseal with
  | none => s
  | some t =>
    let a := plotMap P.desc + t.toNat % plotRows P.desc * rowBytes P.desc
    match s.pages g.part id (pagesOf a (rowBytes P.desc)) with
    | .ok ps =>
      let data := P.rowData
      s.writeBytesAs g.part (((List.range data.length).zip data).map fun ib => (physIn ps (a + ib.1), ib.2, false))
    | _ => s

/-- Steps 1 to 4 of R332 for plot i, and whether it was sealed. -/
def Plot.commit (P : Plot) (i : Nat) (os : List Observation) : Plot × Bool :=
  let P := ((os.foldl (fun P o => P.merge i o) P).outputs i os).forces i os
  if os.any fun o => decide (o = .seal i) then (P.seal, true) else (P, false)

/-- The Gleaner's commit work for a gang (R332). -/
def State.gleanerCommit (s : State) (id : Nat) : State :=
  match s.gang id with
  | none => s
  | some g =>
    let done := g.plots.map fun iP => (iP.1, iP.2.commit iP.1 g.observed)
    let s := done.foldl (fun s d => if d.2.2 then s.writeRow id g d.2.1 else s) s
    let plots : SMap Plot := done.map fun d => (d.1, d.2.1)
    let configs := (List.range 8).filterMap fun i => (g.pendingConfig i).map fun d => (i, d)
    let plots := configs.foldl (fun (m : SMap Plot) c =>
      if plotOff c.2 then m.erase c.1 else m.insert c.1 { desc := c.2, draw := s.fresh + c.1 }) plots
    { s.setGang id { g with plots := plots, observed := [] } with fresh := s.fresh + 8 }

/-- What an abort leaves of the attempt's observations: those of other agents' writes (R326, R330, R333). -/
def State.gleanerAbort (s : State) (id : Nat) : State :=
  s.updGang id fun G => { G with observed := G.observed.filter fun o =>
    match o with | .dirty _ _ f => f | .output _ _ _ f => f | _ => false }

end Sys2Proof.Machine
end

