-- ==== Sys2Proof/Machine/Queues.lean ====
section
/-! DEFINITION. Queue slots, stride scheduling and the reads of the dispatcher (R357-R364, R369, R381). -/

namespace Sys2Proof.Machine

/-! ## Reads of the dispatcher and of the steward's instructions (R287, R369, R371, R377) -/

/-- What a read of len bytes comes to: the bytes and whether a word of them is poisoned, or why there are none. -/
inductive JobRead where
  | ok (bytes : List Byte) (poisoned : Bool)
  | fault (va : Nat)
  /-- A non-canonical address, or a check of R287 that fails. -/
  | bad
  /-- A page lies in a frozen stack (R304). -/
  | wait
  | beyond (addr : Nat)
deriving DecidableEq, Repr

/-- A read of len bytes at a virtual address for partition p as gang g sees its tables; `ok` tests each leaf entry. -/
def State.jobRead (s : State) (p g : Nat) (ok : Word → Bool) (va : Word) (len : Nat) : JobRead :=
  match s.pages p g (pagesOf va.toNat len) with
  | .beyond a => .beyond a
  | .nonCanonical _ => .bad
  | .fault a => .fault a
  | .ok ps =>
    if !(ps.all fun x => entryR x.e && ok x.e) then .bad
    else if ps.any s.frozenPage then .wait
    else
      let as := (List.range len).map fun i => physIn ps (va.toNat + i)
      let bs := as.map (s.readVia p 0)
      .ok (bs.map (·.1)) (bs.any (·.2))

/-- The dispatcher reads pages of the partition's domains (R369). DEDUCED, log 70. -/
def State.jobDomain (s : State) (p : Nat) (e : Word) : Bool :=
  decide ((s.part p).dlo.toNat ≤ entryDomain e) && decide (entryDomain e ≤ (s.part p).dhi.toNat)

/-- A read by the dispatcher for a job of partition p. -/
def State.dispRead (s : State) (p : Nat) (va : Word) (len : Nat) : JobRead := s.jobRead p 0 (s.jobDomain p) va len

/-- A doubleword from eight bytes. -/
def wordAt (bs : List Byte) (i : Nat) : Word := BitVec.ofNat 64 (ofBytes ((bs.drop (8 * i)).take 8))

/-! ## Slots (R358-R362) -/

/-- A mapped slot. -/
def State.slot (s : State) (k : Nat) : Option Slot := s.disp.slots.find k

/-- Changes a mapped slot. -/
def State.updSlot (s : State) (k : Nat) (f : Slot → Slot) : State :=
  match s.slot k with
  | some x => { s with disp := { s.disp with slots := s.disp.slots.insert k (f x) } }
  | none => s

/-- The mapped slot of a user queue. -/
def State.slotOf (s : State) (part qid : Nat) : Option Nat :=
  (s.disp.slots.find? fun kx => decide (kx.2.part = part) && decide (kx.2.qid = qid)).map (·.1)

/-- Device launches that wait for a slot (R371). -/
def State.waiting (s : State) (k : Nat) : List (Word × Nat) := s.disp.launches.get k []

/-- The address of the ring entry that is next, counted from HEAD (R359). -/
def Slot.entryVa (x : Slot) : Word := x.rbase + BitVec.ofNat 64 (8 * (x.head.toNat % 2 ^ x.rlog2))

/-- The head job of a slot, when it can be selected (R359). -/
def State.headJob (s : State) (k : Nat) (x : Slot) : Option JobSrc :=
  if x.cont then
    match s.gang x.cgang with
    | some g => if g.state = .inBarn then some (.cont x.cgang) else none
    | none => none
  else if !(s.waiting k).isEmpty then some .device
  else if x.head ≠ x.tail then some .ring
  else none

/-- The slot is ready (R359). -/
def State.slotReady (s : State) (k : Nat) : Bool :=
  match s.slot k with
  | some x => !x.running && (s.headJob k x).isSome
  | none => false

/-- The slot is running. -/
def State.slotRunning (s : State) (k : Nat) : Bool := match s.slot k with | some x => x.running | none => false

/-- The virtual address of the launch block that a ring's next entry holds, when it can be read whole. -/
def State.ringBlock (s : State) (x : Slot) : Option Word :=
  match s.dispRead x.part x.entryVa 8 with
  | .ok bs false => some (wordAt bs 0)
  | _ => none

/-- PRIO of the launch block at an address; 0 while it cannot be read. DEDUCED, log 71. -/
def State.blockPrio (s : State) (p : Nat) (block : Option Word) : Nat :=
  match block with
  | none => 0
  | some va =>
    match s.dispRead p va 8 with
    | .ok bs false => bitsOf (wordAt bs 0) 28 2
    | _ => 0

/-- PRIO of a slot's head job. -/
def State.slotPrio (s : State) (k : Nat) (x : Slot) : Nat :=
  match s.headJob k x with
  | some (.cont _) => x.cprio
  | some .device => (match s.waiting k with | l :: _ => s.blockPrio l.2 (some l.1) | [] => 0)
  | some .ring => s.blockPrio x.part (s.ringBlock x)
  | none => 0

/-- Effective priority E of a slot (R362). -/
def State.slotE (s : State) (k : Nat) (x : Slot) : Nat :=
  Nat.min 3 (s.slotPrio k x + x.wait / (if x.agep = 0 then 65536 else x.agep))

/-- GPASS (R361). -/
def State.gpass (s : State) : Word :=
  match s.disp.slots.filter fun kx => s.slotReady kx.1 with
  | [] => ((s.disp.lastSlot.bind s.slot).map (·.pass)).getD s.disp.lastPass
  | kx :: rest => rest.foldl (fun m y => if y.2.pass.toNat < m.toNat then y.2.pass else m) kx.2.pass

/-- Raises PASS of each slot that became ready between two states after a time in which it was neither ready nor running
(R361). -/
def State.noteReady (s0 s1 : State) : State :=
  s1.disp.slots.foldl (fun s kx =>
    if s1.slotReady kx.1 && !s0.slotReady kx.1 && !s0.slotRunning kx.1 && decide (kx.2.pass.toNat < s0.gpass.toNat) then
      s.updSlot kx.1 fun x => { x with pass := s0.gpass }
    else s) s1

/-- A slot goes before another at selection (R363): highest E, then lowest PASS, then lowest number. -/
def slotBefore (a b : Nat × Nat × Slot) : Bool :=
  if a.2.1 ≠ b.2.1 then decide (b.2.1 < a.2.1)
  else if a.2.2.pass ≠ b.2.2.pass then decide (a.2.2.pass.toNat < b.2.2.pass.toNat)
  else decide (a.1 ≤ b.1)

/-- The ready slots with their E, the one selected first in front. -/
def State.readySlots (s : State) : List (Nat × Nat × Slot) :=
  sortBy slotBefore ((s.disp.slots.filter fun kx => s.slotReady kx.1).map fun kx => (kx.1, s.slotE kx.1 kx.2, kx.2))

/-! ## Doorbells, charges and time (R357, R360-R362, R364, R381) -/

/-- DOORBELL (R357). -/
def execDoorbell (part queue : Nat) (tail : BitVec 32) (s : State) : Host.Outcome State Fault Refusal :=
  let s1 := s.updPart part fun p => { p with bells := p.bells.set queue 0 tail }
  match s.slotOf part queue with
  | some k => .next (State.noteReady s (s1.updSlot k fun x => { x with tail := tail }))
  | none => .next (s1.updPart part fun p => { p with qpending := withBit p.qpending queue true })

/-- What the IO die holds for an unmapped queue. -/
def State.heldFor (s : State) (part qid : Nat) : Held :=
  (s.disp.held.find? fun h => decide (h.part = part) && decide (h.qid = qid)).getD ⟨part, qid, 0, none⟩

/-- Changes what the IO die holds for an unmapped queue. -/
def State.updHeld (s : State) (part qid : Nat) (f : Held → Held) : State :=
  let h := f (s.heldFor part qid)
  if 64 ≤ qid then s
  else { s with disp := { s.disp with
      held := (s.disp.held.filter fun x => !(decide (x.part = part) && decide (x.qid = qid))) ++ [h] } }

/-- The running gang whose job slot k started, with a whole charge unit to pay. DESIGN CHOICE, log 74. -/
def State.chargeable (s : State) (k : Nat) : Option (Nat × Gang) :=
  s.gangs.find? fun gG => decide (gG.2.slot = k) && decide (gG.2.state = .running) && decide (65536 ≤ gG.2.cycles)

/-- One charge unit of a gang (R360, R381): STRIDE goes to the PASS of the slot that holds the job's queue, or is held for the queue. -/
def State.chargeOne (s : State) (id : Nat) (g : Gang) : State :=
  let s := s.setGang id { g with cycles := g.cycles - 65536, charged := g.charged + 1 }
  match s.slotOf g.qpart g.qid with
  | some k =>
    let s := s.updSlot k fun x => { x with pass := x.pass + BitVec.ofNat 64 x.stride }
    { s with disp := { s.disp with lastSlot := some k } }
  | none => s.updHeld g.qpart g.qid fun h => { h with charge := h.charge + BitVec.ofNat 64 g.stride }

/-- The units that a gang has still to pay, at the end of its job or of its stay on its tiles (R360). -/
def State.chargeRest (s : State) (id : Nat) : State :=
  match s.gang id with
  | none => s
  | some g =>
    (List.range (g.cycles / 65536)).foldl (fun (s : State) _ => match s.gang id with | some g => s.chargeOne id g | none => s) s

/-- CHARGE_UNIT (R360, R381). -/
def execChargeUnit (slot : Nat) (s : State) : Host.Outcome State Fault Refusal :=
  match s.chargeable slot with
  | none => .next s
  | some (id, g) => .next (s.chargeOne id g)

/-- QUANTUM_EXPIRY (R364). -/
def execQuantumExpiry (slot : Nat) (s : State) : Host.Outcome State Fault Refusal :=
  match s.slot slot with
  | none => .next s
  | some x =>
    match s.gangs.find? fun gG => decide (gG.2.qpart = x.part) && decide (gG.2.qid = x.qid) && decide (gG.2.state = .running) with
    | none => .next s
    | some (id, g) =>
      if x.qlim ≠ 0 ∧ x.qlim ≤ g.charged ∧ s.readySlots.any (fun y => decide (y.1 ≠ slot) && decide (g.prio ≤ y.2.1)) then
        .next (s.setGang id { g with preempt := true })
      else .next s

/-- TIME_UNIT_END (R362), once for each time unit of 65,536 cycles. -/
def execTimeUnitEnd (s : State) : Host.Outcome State Fault Refusal :=
  if s.cycle / 65536 ≤ s.disp.units then .next s
  else
    let age (k : Nat) (x : Slot) : Slot :=
      { x with wait := if s.slotReady k && !x.selected then Nat.min (2 ^ 24 - 1) (x.wait + 1) else x.wait, selected := false }
    .next { s with disp := { s.disp with
      units := s.disp.units + 1, slots := s.disp.slots.map fun kx => (kx.1, age kx.1 kx.2) } }

/-! ## Selection (R363) -/

/-- Takes the head job of a ready slot. -/
def State.takeJob (s : State) (k e : Nat) (x : Slot) : State :=
  match s.headJob k x with
  | none => s
  | some src =>
    let x' := { x with running := true, selected := true, wait := 0 }
    let prio := s.slotPrio k x
    let put (x : Slot) (launches : SMap (List (Word × Nat))) (j : Job) : State :=
      { s with disp := { s.disp with slots := s.disp.slots.insert k x, launches := launches, job := some j, peers := [], jobFault := false, jobFailed := false } }
    let job (part : Nat) (block : Option Word) : Job := ⟨k, part, src, block, prio, e, x.part, x.qid, x.stride⟩
    match src with
    | .device =>
      (match s.waiting k with
       | l :: rest => put x' (s.disp.launches.set k [] rest) (job l.2 (some l.1))
       | [] => s)
    | .ring => put { x' with head := x.head + 1 } s.disp.launches (job x.part (s.ringBlock x))
    | _ => put x' s.disp.launches (job x.part none)

/-- Drops the selected job back to its slot (R363). -/
def State.dropJob (s : State) (j : Job) : State :=
  let s := s.updSlot j.slot fun x => { x with running := false, head := if j.src = .ring then x.head - 1 else x.head }
  let launches := match j.src, j.block with
    | .device, some b => s.disp.launches.set j.slot [] ((b, j.part) :: s.waiting j.slot)
    | _, _ => s.disp.launches
  { s with disp := { s.disp with launches := launches, job := none, jobFault := false, jobFailed := false } }

/-- JOB_SELECTION (R363): a job is selected, or the selected one goes back to its slot because it cannot be placed and
another slot's E is above its own. `placed` tells whether the selected job can be placed now. -/
def State.selectJob (s : State) (placed : Job → Bool) : State :=
  match s.disp.job with
  | some j => if !s.disp.jobFault && !placed j && s.readySlots.any (fun y => decide (j.eff < y.2.1)) then s.dropJob j else s
  | none =>
    match s.readySlots with
    | [] => s
    | y :: _ => s.takeJob y.1 y.2.1 y.2.2

/-! ## Completion records and submission (R370-R372) -/

/-- The fields of a launch block that a completion uses: COMPLVA when the word can be written there, the parent's
signal, the host message. -/
def completionOf (b : List Word) : Option Word × Word × Option Word :=
  let va := b.getD 16 0
  (if va.toNat % 8 = 0 then some va else none, b.getD 17 0, if (b.getD 19 0).getLsbD 0 then some (b.getD 18 0) else none)

/-- Ends a job that started nothing (R369, R371, R372); `queue` is the queue whose slot it held, with its partition. DEDUCED, log 75. -/
def State.endUnstarted (s : State) (part : Nat) (block : Option (List Word)) (status : BitVec 8) (queue : Option (Nat × Nat)) : State :=
  let f := match block with | some b => completionOf b | none => (none, 0, none)
  { s with disp := { s.disp with
      done := s.disp.done ++
        [⟨s.disp.nextJob, f.1, part, status, 0, 0, 0, f.2.1, f.2.2, queue.map (·.2), (queue.map (·.1)).getD part⟩]
      nextJob := s.disp.nextJob + 1 } }

/-- The queue whose slot a selected job holds. -/
def Job.queue (j : Job) : Option (Nat × Nat) := some (j.qpart, j.qid)

/-- Doubleword i of a launch block of which some words cannot be read, or are poisoned, as its completion uses it: such a COMPLVA is no
address, and another such word counts as 0. DEDUCED, log 75. -/
def State.soundWord (s : State) (p : Nat) (va : Word) (i : Nat) : Word :=
  match s.dispRead p (va + BitVec.ofNat 64 (8 * i)) 8 with
  | .ok bs false => wordAt bs 0
  | _ => if i = 16 then 1 else 0

/-- The doublewords of a launch block, as a completion that starts nothing uses them (R369, R370). -/
def State.blockWords (s : State) (p : Nat) (va : Word) : List Word :=
  match s.dispRead p va 256 with
  | .ok bs false => (List.range 32).map (wordAt bs)
  | _ => (List.range 32).map (s.soundWord p va)

/-- A launch that is submitted (R371, R372): cancelled, refused, or queued for its slot. -/
def State.submitLaunch (s : State) (block : Word) (slot part : Nat) : State :=
  if !s.ownsCluster part then s.endUnstarted part (some (s.blockWords part block)) 3 none
  else if !(s.part part).qslotmap.getLsbD slot || decide (8 ≤ (s.waiting slot).length) then
    s.endUnstarted part (some (s.blockWords part block)) 6 none
  else
    State.noteReady s
      { s with disp := { s.disp with launches := s.disp.launches.set slot [] (s.waiting slot ++ [(block, part)]) } }

/-- The read of a LAUNCH by the strand whose turn it is, and its answer (R371). A read that comes to a frozen stack waits there (R304). -/
def State.launchRead (s : State) (d a : SReg) : Eff :=
  let x := s.me
  let t := s.curTile
  let v := x.rd a
  let p := s.partOf t
  let answer (c : Word) : Eff := .done (s.updMe fun x => x.wr d c false)
  match s.jobRead p (s.tile t).gang (fun e => (s.pageCause t false false e).isNone) v 8 with
  | .beyond b => .fault (.noSuchTierAddress b)
  | .wait => .hold { s with waits := s.waits + 1 } (.launchFrozen d a s.waits)
  | .bad => answer 4
  | .fault va =>
    .hold (s.report (.pageFault s.myTile.gang (bitsOf s.myTile.ctl.plbctl 0 16) (BitVec.ofNat 64 va) false)) (.launch d)
  | .ok bs po =>
    let w := wordAt bs 0
    let part := bitsOf w 22 6
    let slot := bitsOf w 30 6
    if po then answer 5
    else if part ≠ p then answer 1
    else if !(s.part part).qslotmap.getLsbD slot then answer 2
    else if !s.ownsCluster part then answer 3
    else
      let s' := s.updMe fun x => { x.wr d 0 false with launchCount := x.launchCount + 1 }
      if isSteward t then .done (s'.submitLaunch v slot part)
      else
        .done (s'.updGang s.myTile.gang fun G =>
          { G with launches := G.launches ++ [⟨s.myTile.gti, x.routine, x.launchCount, v, slot, part⟩] })

/-- LAUNCH (R371). -/
def execLaunch (g : Guard) (d a : SReg) (s : State) : Host.Outcome State Fault Refusal :=
  s.issue { head := 0xFA00, guard := g } fun _ _ s =>
    let v := s.me.rd a
    if s.me.tag a then .trap 0x09 (a.setWidth 64)
    else if v.toNat % 64 ≠ 0 then .trap 0x05 v
    else if !s.rangeOk s.curTile v.toNat 256 none false then .trap 0x06 v
    else s.launchRead d a

/-- The read of a LAUNCH that strand k of tile t holds for is made now (R304). -/
def State.serveLaunch (s : State) (t k : Nat) : Host.Outcome State Fault Refusal :=
  let back (r : State) : State := { r with curTile := s.curTile, curStrand := s.curStrand }
  match (s.strand t k).hold with
  | .launchFrozen d a _ =>
    (match ({ s with curTile := t, curStrand := k } : State).launchRead d a with
     | .done r => .next ((back r).retireHeld t k Sync.none)
     | .hold r h => .next (back (r.updMe fun x => { x with hold := h }))
     | .fault f => .fault f
     | _ => .next s)
  | _ => .next s

/-- The steward's answer to the fault of a LAUNCH's read (R290, R371): the instruction is tried again, or answers 4. -/
def State.answerLaunch (s : State) (t k : Nat) (resolved : Bool) : State :=
  match (s.strand t k).hold with
  | .launch d =>
    if resolved then s.updStrand t k fun x => { x with hold := .none }
    else (s.updStrand t k fun x => x.wr d 4 false).retireHeld t k Sync.none
  | _ => s

/-! ## PREEMPT, HMSG and the queue control blocks (R378, R380, R381) -/

/-- PREEMPT (R378). -/
def execPreempt (g : Guard) (d a : SReg) (s : State) : Host.Outcome State Fault Refusal :=
  s.issue { head := 0xFA02, guard := g, priv := 3 } fun _ _ s =>
    let x := s.me
    let id := bitsOf (x.rd a) 0 16
    let answer (s : State) (c : Word) : Eff := .done (s.updMe fun x => x.wr d c false)
    if x.tag a then .trap 0x09 (a.setWidth 64)
    else match s.gang id with
    | none => answer s 1
    | some G =>
      if G.state ≠ .running then answer s 1
      else if G.preempt then answer s 2
      else answer (s.setGang id { G with preempt := true }) 0

/-- HMSG (R380): held while the host link queue is full. -/
def execHmsg (g : Guard) (a b : SReg) (s : State) : Host.Outcome State Fault Refusal :=
  s.issue { head := 0xFA05, guard := g, priv := 3 } fun _ _ s =>
    let x := s.me
    match x.lowPoison [a, b] with
    | some r => .trap 0x09 (r.setWidth 64)
    | none =>
      if 64 ≤ s.hostq.length then .retry s
      else .done { s with hostq := s.hostq ++ [(s.pkg.partid.toNat, x.rd a, x.rd b)] }

/-- HOST_MESSAGE_TAKEN (R380). -/
def execHostMessageTaken (s : State) : Host.Outcome State Fault Refusal := .next { s with hostq := s.hostq.drop 1 }

/-- The eight doublewords of a mapped slot's queue control block (R358). -/
def Slot.qcb (x : Slot) : List Word :=
  [ x.rbase,
    BitVec.ofNat 64 (x.rlog2 + fieldAt 4 x.part + fieldAt 10 x.qid + flagAt 16 x.cont + fieldAt 17 x.cgang + fieldAt 33 x.cprio),
    BitVec.ofNat 64 (x.head.toNat + fieldAt 32 x.tail.toNat),
    BitVec.ofNat 64 (x.tickets + fieldAt 16 x.stride + fieldAt 37 x.qlim),
    x.pass,
    BitVec.ofNat 64 (x.agep + fieldAt 16 x.wait), 0, 0 ]

/-- A slot from the doublewords of a queue control block; STRIDE from TICKETS (R358). -/
def Slot.ofQcb (w : List Word) (tail : BitVec 32) : Slot :=
  let dw (i : Nat) : Word := w.getD i 0
  let tickets := bitsOf (dw 3) 0 16
  { rbase := dw 0, rlog2 := bitsOf (dw 1) 0 4, part := bitsOf (dw 1) 4 6, qid := bitsOf (dw 1) 10 6, cont := (dw 1).getLsbD 16,
    cgang := bitsOf (dw 1) 17 16, cprio := bitsOf (dw 1) 33 2, head := BitVec.ofNat 32 (bitsOf (dw 2) 0 32), tail := tail,
    tickets := tickets, stride := 2 ^ 20 / tickets, qlim := bitsOf (dw 3) 37 24, pass := dw 4, agep := bitsOf (dw 5) 0 16,
    wait := bitsOf (dw 5) 16 24, running := false, selected := false }

/-- Code 3 of QCBLD (R381). DEDUCED, log 78. -/
def badQcb (w : List Word) : Bool :=
  let dw (i : Nat) : Word := w.getD i 0
  decide (bitsOf (dw 3) 0 16 = 0) || decide (bitsOf (dw 1) 0 4 = 0) || decide (bitsOf (dw 1) 35 29 ≠ 0) ||
    decide (bitsOf (dw 3) 61 3 ≠ 0) || decide (bitsOf (dw 5) 40 24 ≠ 0) || decide (dw 6 ≠ 0) || decide (dw 7 ≠ 0)

/-- The checks that QCBSV and QCBLD share, before their codes. -/
def State.qcbAccess (s : State) (a b : SReg) (k : Word → Nat → Eff) : Eff :=
  let x := s.me
  match x.lowPoison [a, b] with
  | some r => .trap 0x09 (r.setWidth 64)
  | none => if (x.rd a).toNat % 64 ≠ 0 then .trap 0x05 (x.rd a) else k (x.rd a) (bitsOf (x.rd b) 0 6)

/-- Writes an answer code of a steward's instruction, with the state its effect leaves. -/
def State.answerMe (s : State) (d : SReg) (c : Word) : Eff := .done (s.updMe fun x => x.wr d c false)

/-- A job of a queue has ended, or started nothing, and its completion is still to be made. -/
def State.unended (s : State) (part qid : Nat) (p : Done → Bool) : Bool :=
  s.disp.done.any fun d => decide (d.qpart = part) && decide (d.qid = some qid) && p d

/-- The slot runs a job that has not been placed: the selected one, or one that completes without having started. -/
def State.unplaced (s : State) (k : Nat) : Bool :=
  (match s.disp.job with | some j => decide (j.slot = k) | none => false) ||
    (match s.slot k with | some x => s.unended x.part x.qid fun d => decide (d.gang = 0) | none => false)

/-- The slot holds no queue any more. -/
def State.unmapSlot (s : State) (k : Nat) (x : Slot) : State :=
  let last := decide (s.disp.lastSlot = some k)
  { s with disp := { s.disp with
      slots := s.disp.slots.erase k, lastSlot := if last then none else s.disp.lastSlot
      lastPass := if last then x.pass else s.disp.lastPass } }

/-- QCBSV (R381). -/
def execQcbsv (g : Guard) (d a b : SReg) (s : State) : Host.Outcome State Fault Refusal :=
  s.issue { head := 0xFA06, guard := g, priv := 3 } fun _ _ s =>
    s.qcbAccess a b fun va k =>
      let p := s.pkg.partid.toNat
      match s.slot k with
      | none => s.answerMe d 1
      | some x =>
        if s.unplaced k then s.answerMe d 2
        else match s.pages p 0 [va.toNat] with
        | .beyond z => .fault (.noSuchTierAddress z)
        | .ok ps =>
          if !(ps.all fun q => entryW q.e) then s.answerMe d 4
          else if ps.any s.frozenPage then .retry s
          else
            let bytes := x.qcb.flatMap fun w => toBytes 8 w.toNat
            let as := (List.range 64).map (va.toNat + ·)
            let s' := s.writeBytesAs p ((as.zip bytes).map fun ab => (physIn ps ab.1, ab.2, false))
            let s' := s'.observe p (Seen.plain 0 va.toNat 64 (as.map (physIn ps)))
            State.answerMe (s'.unmapSlot k x) d 0
        | _ => s.answerMe d 4

/-- The slot that QCBLD maps: the held charges and the held Barn arrival of its queue are taken, and a job of the queue that
runs, or has ended and not completed, is the slot's again (R359, R381). -/
def State.mapSlot (s : State) (k : Nat) (x : Slot) : State :=
  let h := s.heldFor x.part x.qid
  let x := { x with pass := x.pass + h.charge }
  let x := match h.cont with | some (g, prio) => { x with cont := true, cgang := g, cprio := prio } | none => x
  let running := s.unended x.part x.qid (fun _ => true) || s.gangs.any fun gG =>
    decide (gG.2.qpart = x.part) && decide (gG.2.qid = x.qid) && (decide (gG.2.state = .running) || decide (gG.2.state = .stopped))
  let s' := s.updPart x.part fun p => { p with qpending := withBit p.qpending x.qid false }
  State.noteReady s
    { s' with disp := { s'.disp with
        slots := s'.disp.slots.insert k { x with running := running }
        held := s'.disp.held.filter fun y => !(decide (y.part = x.part) && decide (y.qid = x.qid)) } }

/-- QCBLD (R381). -/
def execQcbld (g : Guard) (d a b : SReg) (s : State) : Host.Outcome State Fault Refusal :=
  s.issue { head := 0xFA07, guard := g, priv := 3 } fun _ _ s =>
    s.qcbAccess a b fun va k =>
      if (s.slot k).isSome then s.answerMe d 1
      else match s.jobRead s.pkg.partid.toNat 0 (fun _ => true) va 64 with
      | .beyond z => .fault (.noSuchTierAddress z)
      | .wait => .retry s
      | .ok bs false =>
        let w := (List.range 8).map (wordAt bs)
        let x := Slot.ofQcb w 0
        if !(s.part x.part).qslotmap.getLsbD k || (s.slotOf x.part x.qid).isSome then s.answerMe d 2
        else if badQcb w then s.answerMe d 3
        else (s.mapSlot k { x with tail := (s.part x.part).bells.get x.qid 0 }).answerMe d 0
      | _ => s.answerMe d 4

/-- The lowest pending doorbell, by partition and then queue. -/
def State.firstPending (s : State) : Option (Nat × Nat) :=
  (List.range 64).findSome? fun p => ((List.range 64).find? fun q => (s.part p).qpending.getLsbD q).map fun q => (p, q)

/-- QPEND (R38, R381). -/
def execQpend (g : Guard) (d : SReg) (s : State) : Host.Outcome State Fault Refusal :=
  s.issue { head := 0xFA08, guard := g, priv := 3 } fun _ _ s =>
    match s.firstPending with
    | none => .park .qpend
    | some (p, q) =>
      (s.updPart p fun x => { x with qpending := withBit x.qpending q false }).answerMe d (BitVec.ofNat 64 (64 * p + q))

end Sys2Proof.Machine
end

