-- ==== Sys2Proof/Machine/Record.lean ====
section
/-! DEFINITION. The Barn record of a context: its 4,096 bytes, and what they hold under another key (R347, R348, R373, R374, R376). The
layout of a record is not visible to programs; the one below is the model's (log 21). -/

namespace Sys2Proof.Machine

/-! ## Packing fields -/

/-- Fields of some widths as one number, the first lowest. -/
def packFields : List (Nat × Nat) → Nat
  | [] => 0
  | (w, v) :: t => v % 2 ^ w + 2 ^ w * packFields t

/-- The fields of some widths of a number. -/
def cutFields : List Nat → Nat → List Nat
  | [], _ => []
  | w :: t, n => n % 2 ^ w :: cutFields t (n / 2 ^ w)

/-! ## The record of a tile in a gang image (R374, R376) -/

/-- Widths of the fields of a record's head. -/
def headWidths : List Nat :=
  [16, 23, 18, 4, 10, 10, 6, 7, 2, 32, 18, 16, 64, 64, 1, 64, 16, 8, 8, 64, 2, 8, 9, 10, 14, 1, 24, 18, 32, 64, 64, 42, 6, 48, 17, 22, 6]

/-- Widths of a bale's, a ring's and a PLB entry's fields. -/
def baleWidths : List Nat := [2, 1, 1, 1, 1, 11, 9, 3, 1, 8, 57]
/-- Widths of a ring's fields. -/
def ringWidths : List Nat := [6, 6, 6, 6, 7, 1]
/-- Widths of a PLB entry's fields. -/
def plbWidths : List Nat := [1, 1, 1, 48, 48]

/-- Widths of an armed object's fields: COUNT, and its chain target (R239). -/
def armWidths : List Nat := [16, 1, 1, 18, 5]

/-- The tables of a record, after its head and its rings: the widths of an element's fields, and the number of elements. Semaphores,
bales, the PLB, decode tables; in the sparse form, armed objects. -/
def recordTables : List (List Nat × Nat) := [([16], 256), (baleWidths, 64), (plbWidths, 16), ([19], 1024)]

/-- Widths of the fields of the head and of the rings. -/
def frontWidths : List Nat := headWidths ++ (List.replicate 8 ringWidths).flatten

/-- A flag as a number. -/
def bit (b : Bool) : Nat := if b then 1 else 0

/-- The fields of a bale. -/
def Bale.fields (b : Bale) : List Nat :=
  [b.state.toNat, bit b.pend, bit b.fault, bit b.next, bit b.refill, b.offset.toNat, b.size.toNat, b.ring.toNat, bit b.ringv, b.view.toNat,
   b.tag.toNat]

/-- The fields of a ring between two steps. -/
def Ring.fields (x : Ring) : List Nat := [x.first.toNat, x.cntm1.toNat, x.head.toNat, x.tail.toNat, x.occ.toNat, bit x.v]

/-- The fields of a PLB entry. -/
def plbFields (e : BitVec 128) : List Nat := [bitsOf e 0 1, bitsOf e 1 1, bitsOf e 2 1, bitsOf e 16 48, bitsOf e 80 48]

/-- The fields of the head and of the rings: gang g's and the tile's context. DESIGN CHOICE, log 21. -/
def frontFields (g : Gang) (r : BarnRec) : List Nat :=
  let c := r.ctl
  [r.gang, r.gti, g.clusters - 1, g.perCluster - 1, g.rank, g.ranks - 1, g.part, g.qid, g.prio, g.stepLimit.toNat, g.pfl0, g.rootPkg.toNat,
   g.complva.toNat, g.parent.toNat, bit g.hmsg.isSome, (g.hmsg.getD 0).toNat, r.msgs.length, r.abortcnt.toNat, r.abortlim.toNat,
   r.redres.toNat, r.ldec.toNat, r.lcause.toNat, r.cbase, r.clines, r.segmask.toNat, bit r.dlprior, c.listptr.toNat, c.xschedptr.toNat,
   c.sstep.toNat, c.seed.toNat, c.hkey.toNat, c.memcfg.toNat, c.fwdcfg.toNat, c.budget.toNat, c.plbctl.toNat, c.evbase.toNat, g.qpart] ++
    ((List.range 8).map fun i => (c.rings.get i {}).fields).flatten

/-- The elements of the tables. -/
def tableFields (r : BarnRec) : List (List (List Nat)) :=
  let c := r.ctl
  [(List.range 256).map fun i => [(c.sems.get i 0).toNat], (List.range 64).map fun i => (c.bales.get i {}).fields,
   (List.range 16).map fun i => plbFields (c.plb.get i 0), (List.range 1024).map fun i => [(c.tables.get i 0).toNat]]

/-- The fields of an object's arming state. -/
def armFields (x : BitVec 16 × Option (Bool × Nat × Nat)) : List Nat :=
  match x.2 with
  | none => [x.1.toNat, 0, 0, 0, 0]
  | some (l, cl, o) => [x.1.toNat, 1, bit l, cl, o]

/-- The arming state as the elements of a table: barriers 0 to 7, then event lines 0 to 31. -/
def Arming.fields (a : Arming) : List (List Nat) :=
  ((List.range 8).map fun i => armFields (a.barriers.get i (0, none))) ++ (List.range 32).map fun i => armFields (a.lines.get i (0, none))

/-- A table in the sparse form: a bit for each element that is not all zero, then those elements. -/
def sparseTable (widths : List Nat) (els : List (List Nat)) : List (Nat × Nat) :=
  (els.map fun e => (1, bit (e.any (· ≠ 0)))) ++ (els.filter fun e => e.any (· ≠ 0)).flatMap fun e => widths.zip e

/-- A record as a number, in one of two forms: every field in its place; or, when an armed event unit goes with it and the whole fits
4,096 bytes, its tables sparse and the arming state after them. -/
def recordNumber (g : Gang) (r : BarnRec) : Nat :=
  let front := frontWidths.zip (frontFields g r)
  let tables := (recordTables.map (·.1)).zip (tableFields r)
  let plain := 2 * packFields (front ++ tables.flatMap fun t => t.2.flatMap fun e => t.1.zip e)
  let a := r.arming.getD {}
  let sparse := 1 + 2 * packFields (front ++ (tables ++ [(armWidths, a.fields)]).flatMap fun t => sparseTable t.1 t.2)
  if a = {} ∨ 2 ^ 32768 ≤ sparse then plain else sparse

/-- A record as the 512 doublewords of its 4,096 bytes. -/
def recordWords (g : Gang) (r : BarnRec) : List Word :=
  let n := recordNumber g r
  (List.range 512).map fun i => BitVec.ofNat 64 (n / 2 ^ (64 * i))

/-- A bale from its fields, from index i on. -/
def baleOf (f : Nat → Nat) (i : Nat) : Bale :=
  { state := BitVec.ofNat 2 (f i), pend := f (i + 1) == 1, fault := f (i + 2) == 1, next := f (i + 3) == 1, refill := f (i + 4) == 1
    offset := BitVec.ofNat 11 (f (i + 5)), size := BitVec.ofNat 9 (f (i + 6)), ring := BitVec.ofNat 3 (f (i + 7)), ringv := f (i + 8) == 1
    view := BitVec.ofNat 8 (f (i + 9)), tag := BitVec.ofNat 57 (f (i + 10)) }

/-- A ring from its fields. -/
def ringOf (f : Nat → Nat) (i : Nat) : Ring :=
  { first := BitVec.ofNat 6 (f i), cntm1 := BitVec.ofNat 6 (f (i + 1)), head := BitVec.ofNat 6 (f (i + 2))
    tail := BitVec.ofNat 6 (f (i + 3)), occ := BitVec.ofNat 7 (f (i + 4)), v := f (i + 5) == 1 }

/-- A PLB entry from its fields. -/
def plbEntryOf (f : Nat → Nat) (i : Nat) : BitVec 128 :=
  BitVec.ofNat 128 (f i + 2 * f (i + 1) + 4 * f (i + 2) + f (i + 3) * 2 ^ 16 + f (i + 4) * 2 ^ 80)

/-- A sparse map of n values. -/
def tabulate {α : Type} [DecidableEq α] (n : Nat) (d : α) (f : Nat → α) : SMap α :=
  (List.range n).foldl (fun m i => m.set i d (f i)) []

/-- A record read back: its context, the gang that its head describes, and the number of its messages. -/
structure RecordIn where
  ctx : BarnRec
  gang : Gang
  msgs : Nat
deriving DecidableEq, Repr

/-- A gang that a record's head describes, held by nothing yet. -/
def headGang (f : Nat → Nat) : Gang :=
  { part := f 6, clusters := f 2 + 1, perCluster := f 3 + 1, rank := f 4, ranks := f 5 + 1, rootPkg := BitVec.ofNat 16 (f 11), place := []
    stepLimit := BitVec.ofNat 32 (f 9), state := .inBarn, domain := BitVec.ofNat 16 (f 34), slot := 0, qpart := f 36, qid := f 7, stride := 0, prio := f 8
    cycles := 0, charged := 0, complva := BitVec.ofNat 64 (f 12), parent := BitVec.ofNat 64 (f 13)
    hmsg := if f 14 = 1 then some (BitVec.ofNat 64 (f 15)) else none, preempt := false, verdict := none, todo := [], pfl0 := f 10
    up := [], mismatch := false, syncDown := none, syncTodo := [], plots := [], observed := [], launches := []
    linkFail := false, sample := none, mirrorWait := false, mirrorAt := 0, haltCause := 0, savedStep := BitVec.ofNat 32 (f 28)
    aside := [], syncMismatch := false }

/-- n elements of some widths from a number, and what is left of it. -/
def cutTable (widths : List Nat) (n x : Nat) : List (List Nat) × Nat :=
  ((List.range n).map fun i => cutFields widths (x / 2 ^ (widths.sum * i)), x / 2 ^ (widths.sum * n))

/-- The elements whose bits are set, each all zero where its bit is not. -/
def fillElements (widths : List Nat) : List Nat → Nat → List (List Nat) × Nat
  | [], x => ([], x)
  | b :: rest, x =>
    if b = 1 then
      let r := fillElements widths rest (x / 2 ^ widths.sum)
      (cutFields widths x :: r.1, r.2)
    else
      let r := fillElements widths rest x
      (widths.map (fun _ => 0) :: r.1, r.2)

/-- A table of n elements in the sparse form. -/
def cutSparse (widths : List Nat) (n x : Nat) : List (List Nat) × Nat :=
  fillElements widths (cutFields (List.replicate n 1) x) (x / 2 ^ n)

/-- The tables of a record, one after another. -/
def cutTables (cut : List Nat → Nat → Nat → List (List Nat) × Nat) : List (List Nat × Nat) → Nat → List (List (List Nat))
  | [], _ => []
  | t :: rest, x => let r := cut t.1 t.2 x; r.1 :: cutTables cut rest r.2

/-- The arming state of an object from its fields. -/
def armOf (e : List Nat) : BitVec 16 × Option (Bool × Nat × Nat) :=
  (BitVec.ofNat 16 (e.getD 0 0), if e.getD 1 0 = 1 then some (e.getD 2 0 == 1, e.getD 3 0, e.getD 4 0) else none)

/-- The arming state from the elements of its table. -/
def armingOf (els : List (List Nat)) : Arming :=
  ⟨tabulate 8 (0, none) fun i => armOf (els.getD i []), tabulate 32 (0, none) fun i => armOf (els.getD (8 + i) [])⟩

/-- The record in 512 doublewords. -/
def recordOf (ws : List Word) : RecordIn :=
  let all := packFields (ws.map fun w => (64, w.toNat))
  let sparse := decide (all % 2 = 1)
  let n := all / 2
  let fs := cutFields frontWidths n
  let rest := n / 2 ^ frontWidths.sum
  let ts := if sparse then cutTables cutSparse (recordTables ++ [(armWidths, 40)]) rest else cutTables cutTable recordTables rest
  let f (i : Nat) : Nat := fs.getD i 0
  let w (i : Nat) : Word := BitVec.ofNat 64 (f i)
  let el (t i : Nat) : Nat → Nat := let e := (ts.getD t []).getD i []; fun j => e.getD j 0
  let ctl : Ctl :=
    { sems := tabulate 256 0 fun i => BitVec.ofNat 16 (el 0 i 0), bales := tabulate 64 {} fun i => baleOf (el 1 i) 0
      rings := tabulate 8 {} fun i => ringOf f (37 + 6 * i), plb := tabulate 16 0 fun i => plbEntryOf (el 2 i) 0
      tables := tabulate 1024 0 fun i => BitVec.ofNat 19 (el 3 i 0), listptr := w 26, xschedptr := w 27, sstep := BitVec.ofNat 32 (f 28)
      seed := w 29, hkey := w 30, memcfg := w 31, fwdcfg := w 32, budget := w 33, plbctl := w 34, evbase := w 35 }
  ⟨{ gang := f 0, gti := f 1, ctl := ctl, abortcnt := BitVec.ofNat 8 (f 17), abortlim := BitVec.ofNat 8 (f 18), redres := w 19
     ldec := BitVec.ofNat 2 (f 20), lcause := BitVec.ofNat 8 (f 21), cbase := f 22, clines := f 23, segmask := BitVec.ofNat 14 (f 24)
     free := [], msgs := [], msgFrames := [], mail := [], dlprior := f 25 == 1, persist := [], parentSigs := []
     arming := if sparse then some (armingOf (ts.getD 4 [])) else none, key := none },
   headGang f, f 16⟩

/-! ## The rest of a tile's image (R376) -/

/-- V segments of a context. -/
def BarnRec.vSegs (r : BarnRec) : List Nat :=
  (List.range 14).filter fun i => r.segmask.getLsbD i && decide (attrOf r.ctl.memcfg i = .v)

/-- The committed words of a segment with their marks, in the order of their addresses. -/
def TMem.segmentWords (m : TMem) (i : Nat) : List (Word × Bool) :=
  (List.range 2048).map fun w =>
    let a := 0x8000 + 0x4000 * i + 8 * w
    (BitVec.ofNat 64 (ofBytes ((List.range 8).map fun j => m.committed (a + j))), m.committedPoison a)

/-- A carried message: the descriptor and the sender's key. -/
def Msg.words (x : Msg) : List Word :=
  ((List.range 8).map fun i => BitVec.ofNat 64 (bitsOf x.desc (64 * i) 64)) ++
    [BitVec.ofNat 64 x.sender, x.routine.setWidth 64, BitVec.ofNat 64 x.seq, 0, 0, 0, 0, 0]

/-- A message read back. -/
def msgOf (ws : List Word) : Msg :=
  ⟨BitVec.ofNat 512 (packFields ((ws.take 8).map fun w => (64, w.toNat))), (ws.getD 8 0).toNat, (ws.getD 9 0).setWidth 16, (ws.getD 10 0).toNat⟩

/-- The image of a tile as words with their marks. -/
def Tile.image (T : Tile) (g : Gang) (r : BarnRec) : List (Word × Bool) :=
  let clean (l : List Word) : List (Word × Bool) := l.map fun w => (w, false)
  clean (recordWords g r) ++
    clean ((List.range (8 * r.clines)).map fun i =>
      BitVec.ofNat 64 (ofBytes ((List.range 8).map fun j => T.codeByte (64 * r.cbase + 8 * i + j)))) ++
    r.vSegs.flatMap T.mem.segmentWords ++ clean (r.msgs.flatMap Msg.words)

/-! ## The context of a running tile (R239, R374) -/

/-- The arming state of an event unit (R239). -/
def Cluster.arming (c : Cluster) : Arming :=
  ⟨(c.barriers.map fun kb => (kb.1, (kb.2.count, kb.2.chain))).filter fun x => decide (x.2 ≠ (0, none)),
   (c.lines.map fun kl => (kl.1, (kl.2.count, kl.2.chain))).filter fun x => decide (x.2 ≠ (0, none))⟩

/-- The Barn record of a tile's context, with the arming state that goes with it and the key that enciphers it. -/
def Tile.record (T : Tile) (arming : Option Arming) (key : Option (BitVec 512)) : BarnRec :=
  { gang := T.gang, gti := T.gti, ctl := T.ctl, abortcnt := T.abortcnt, abortlim := T.abortlim, redres := T.redres, ldec := T.vote.ldec
    lcause := T.vote.lcause, cbase := T.cbase, clines := T.clines, segmask := T.segmask, free := T.mem.free, msgs := T.steppedNow
    msgFrames := T.msgFrames, mail := T.mail, dlprior := T.dlprior, persist := T.persist, parentSigs := T.parentSigs
    arming := arming, key := key }

/-- The record of the context that runs on tile t of gang g: the arming state of a cluster goes with its member 0 (R239). -/
def State.contextOf (s : State) (g : Gang) (t : Nat) : BarnRec :=
  let T := s.tile t
  T.record (if T.gti % g.perCluster = 0 then some (s.cluster (clusterOf t)).arming else none) (s.part g.part).key

/-! ## Keys (R347, R348) -/

/-- The tier address of the record of Barn slot b on tile t, for its tweak. DESIGN CHOICE, log 13. -/
def barnAddr (t b : Nat) : Nat := 16384 * t + 4096 * b

/-- The tweak of unit i of that record (R347): tier 2. -/
def barnTweak (t b i : Nat) : Nat := 2 * 2 ^ 46 + barnAddr t b / 64 + i

/-- A record of 512 doublewords with each 64-byte unit changed. -/
def mapUnits (f : Nat → BitVec 512 → BitVec 512) (ws : List Word) : List Word :=
  (List.range 64).flatMap fun i =>
    let u := f i (BitVec.ofNat 512 (packFields (((ws.drop (8 * i)).take 8).map fun w => (64, w.toNat))))
    (List.range 8).map fun j => BitVec.ofNat 64 (bitsOf u (64 * j) 64)

/-- A record with the registers that some doublewords give; what the device itself knows of the context stays: its gang, its shape, its
frames and its messages. DESIGN CHOICE, log 13. -/
def BarnRec.withWords (r : BarnRec) (ws : List Word) : BarnRec :=
  let x := (recordOf ws).ctx
  { r with
    ctl := x.ctl, abortcnt := x.abortcnt, abortlim := x.abortlim, redres := x.redres, ldec := x.ldec, lcause := x.lcause
    dlprior := x.dlprior, arming := r.arming.map fun a => x.arming.getD a }

/-- The record of slot b on tile t as a partition with a key, or without one, reads it: as it was saved under the same key, deciphered
under another one; without a key on either side its data are free values (R347, R348). -/
def BarnRec.under (r : BarnRec) (g : Gang) (key : Option (BitVec 512)) (t b : Nat) : BarnRec :=
  match r.key, key with
  | some k, some k' =>
    if k = k' then r else r.withWords (mapUnits (fun i u => recipher k k' (barnTweak t b i) u) (recordWords g r))
  | _, _ => r.withWords (mapUnits (fun i u => Config.keylessUnit (barnTweak t b i) u) (recordWords g r))

end Sys2Proof.Machine
end

