-- ==== Sys2Proof/Machine/Launch.lean ====
section
/-! DEFINITION. The launch block, placement, the start and the resume of a gang, and the completion of a job
(R366-R370, R373, R374, R393). -/

namespace Sys2Proof.Machine

/-! ## The launch block (R366, R369) -/

/-- A field of a launch block: bits of one of its doublewords. -/
def blk (b : List Word) (dw lo len : Nat) : Nat := bitsOf (b.getD dw 0) lo len

/-- Bits of doubleword dw that R366 lists. -/
def blockBits (dw : Nat) : Nat :=
  match dw with
  | 0 => 36 | 1 => 56 | 3 => 56 | 5 => 29 | 7 => 18 | 11 => 16 | 14 => 39 | 17 => 51 | 19 => 1
  | n => if n < 20 then 64 else 0

/-- A reserved bit of a launch block is set: above a doubleword's fields, or in dw20 to dw31. -/
def blockReserved (b : List Word) : Bool :=
  (List.range 32).any fun i => decide (2 ^ blockBits i ≤ (b.getD i 0).toNat)

/-- MEMCFG of the block. -/
def blkMemcfg (b : List Word) : Word := BitVec.ofNat 64 (blk b 3 0 42)
/-- SEGMASK of the block. -/
def blkSegmask (b : List Word) : BitVec 14 := BitVec.ofNat 14 (blk b 3 42 14)
/-- Clusters of the block. -/
def blkClusters (b : List Word) : Nat := blk b 0 0 18 + 1
/-- Tiles per cluster of the block. -/
def blkTiles (b : List Word) : Nat := blk b 0 18 4 + 1

/-- Clusters that a partition owns, by key. -/
def State.owned (s : State) (p : Nat) : List Nat := (List.range 272).filter fun c => decide (s.ownerOf c = some p)

/-- A field of the block lies outside its range, or breaks a rule of R369 that needs no structure. -/
def State.blockBad (s : State) (j : Job) (b : List Word) : Bool :=
  let cfg := blkMemcfg b
  blockReserved b || decide (blk b 1 0 32 = 0) || decide (blk b 5 0 10 = 0) || decide (512 < blk b 5 0 10) ||
    decide (512 < blk b 5 0 10 + blk b 5 10 9) || decide (229376 < blk b 7 0 18) || decide (blk b 7 0 18 % 8 ≠ 0) ||
    decide (blk b 16 0 64 % 8 ≠ 0) || decide (255 < blk b 14 12 9) || !memcfgValid cfg ||
    ((List.range 14).any fun i => !(blkSegmask b).getLsbD i && (decide (attrOf cfg i ≠ .s) || cfg.getLsbD (28 + i))) ||
    decide (blk b 11 0 16 < (s.part j.part).dlo.toNat) || decide ((s.part j.part).dhi.toNat < blk b 11 0 16) ||
    decide ((s.owned j.part).length < blkClusters b) || (decide (j.src = .ring) && decide (blk b 0 22 6 ≠ j.part))

/-! ## Initialisation records (R367) -/

/-- The effect of a record on the entry's low doubleword (R141): STATE, PEND, FAULT, NEXT and REFILL become 0. -/
def Bale.ofLow (b : Bale) (v : Word) : Bale :=
  { b with
    state := 0, pend := false, fault := false, next := false, refill := false
    offset := BitVec.ofNat 11 (bitsOf v 6 11), size := BitVec.ofNat 9 (bitsOf v 17 9), ring := BitVec.ofNat 3 (bitsOf v 26 3)
    ringv := v.getLsbD 29, view := BitVec.ofNat 8 (bitsOf v 30 8) }

/-- The effect of a record on the entry's high doubleword. -/
def Bale.ofHigh (b : Bale) (v : Word) : Bale :=
  { b with state := 0, pend := false, fault := false, next := false, refill := false, tag := BitVec.ofNat 57 (bitsOf v 0 57) }

/-- Applies an initialisation record; none for one that R369 refuses. Its reserved bits are ignored (R7). -/
def Tile.applyRecord (T : Tile) (d v : Word) : Option Tile :=
  let kind := bitsOf d 0 4
  let i := bitsOf d 4 10
  if 8 ≤ kind then none
  else if kind = 0 then (if i < 256 then some (T.setSem i (v.setWidth 16)) else none)
  else if kind = 1 then (if i < 64 then some (T.setBale i ((T.bale i).ofLow v)) else none)
  else if kind = 2 then (if i < 64 then some (T.setBale i ((T.bale i).ofHigh v)) else none)
  else if kind = 3 then
    if 8 ≤ i ∨ T.badRing (BitVec.ofNat 3 i) (Ring.fromWord v) then none else some (T.setUpRing (BitVec.ofNat 3 i) (Ring.fromWord v))
  else if i < 256 then
    some { T with ctl := { T.ctl with tables := T.ctl.tables.set (256 * (kind - 4) + i) 0 (v.setWidth 19) } }
  else none

/-- Applies the records in their order. -/
def Tile.applyRecords (T : Tile) : List Word → Option Tile
  | d :: v :: rest => (T.applyRecord d v).bind fun T => Tile.applyRecords T rest
  | _ => some T

/-! ## Reading a job whole (R369) -/

/-- What the preparation of the selected job comes to. -/
inductive Plan where
  /-- A page lies in a frozen stack. -/
  | wait
  /-- A read faults; with the address of the block, once its ring entry has been read. -/
  | fault (va : Nat) (block : Option Word)
  | invalid (block : Option (List Word))
  /-- It cannot be placed now. -/
  | full
  | start (block : List Word) (p : Payload) (clusters : List Nat)
  | beyond (addr : Nat)
deriving DecidableEq, Repr

/-- Reads of several ranges, or the plan that the first one which fails gives. -/
def State.readAll (s : State) (p : Nat) (at_ : Word) (b : List Word) : List (Word × Nat) → Sum Plan (List (List Byte))
  | [] => .inr []
  | r :: rest =>
    match (if r.2 = 0 then JobRead.ok [] false else s.dispRead p r.1 r.2) with
    | .beyond a => .inl (.beyond a)
    | .wait => .inl .wait
    | .fault va => .inl (.fault va (some at_))
    | .bad => .inl (.invalid (some b))
    | .ok bs po =>
      if po then .inl (.invalid (some b))
      else match State.readAll s p at_ b rest with
      | .inr l => .inr (bs :: l)
      | e => e

/-- Ranks that a partition's rank map binds from 0 on (R393); 1 for a partition that binds fewer than two. -/
def Part.rankCount (p : Part) : Nat :=
  let n := ((List.range 1024).find? fun r => (p.ranks.find r).isNone).getD 1024
  if n < 2 then 1 else n

/-- This package's rank for a partition; none when its rank map does not bind it. -/
def State.myRank (s : State) (p : Nat) : Option Nat :=
  if (s.part p).rankCount = 1 then some 0
  else (List.range (s.part p).rankCount).find? fun r =>
    match (s.part p).ranks.find r with | some e => decide (e.1 = s.pkg.pkgid) | none => false

/-- The package of rank 0 of a partition's gang over some ranks (R393). -/
def State.rootPackage (s : State) (p ranks : Nat) : BitVec 16 :=
  if ranks = 1 then s.pkg.pkgid else match (s.part p).ranks.find 0 with | some e => e.1 | none => 0

/-- The tiles of the gang on this package. -/
def blkLocal (b : List Word) : Nat := blkClusters b * blkTiles b

/-- The ranges that a block's structures take. -/
def blkRanges (b : List Word) (rank : Nat) : List (Word × Nat) :=
  let img (i : Nat) : Word × Nat := (b.getD 6 0 + b.getD 8 0 * BitVec.ofNat 64 i, blk b 7 0 18)
  [(b.getD 4 0, 64 * blk b 5 0 10), (b.getD 12 0, 256), (b.getD 13 0, 16 * blk b 14 0 12), (b.getD 15 0, 16 * blk b 14 12 9)] ++
    (if b.getD 8 0 = 0 then [img 0] else (List.range (blkLocal b)).map fun l => img (rank * blkLocal b + l))

/-- The doublewords of some bytes. -/
def wordsOf (bs : List Byte) : List Word := (List.range (bs.length / 8)).map (wordAt bs)

/-- View descriptor i of some bytes. -/
def viewAt (bs : List Byte) (i : Nat) : BitVec 128 := wordAt bs (2 * i + 1) ++ wordAt bs (2 * i)

/-- Unit u of a cluster stands for one of its members (R260). -/
def Cluster.stands (C : Cluster) (u : Nat) : Bool := (List.range 16).any fun m => decide (C.unitOf.get m m = u)

/-- The cluster is free for a context (R368): no gang runs on it, and on each of its tiles the segments and code lines are
disjoint from those of every resident context, and Barn slot `bslot` holds none; no member of it is retired (R261). -/
def State.clusterFree (s : State) (c : Nat) (segmask : BitVec 14) (cbase clines bslot : Nat) : Bool :=
  (List.range 17).all fun u =>
    let T := s.tile (17 * c + u)
    decide (T.gang = 0) && (T.barn.find bslot).isNone && !(T.retired && (s.cluster c).stands u) &&
      T.barn.all fun kr =>
        let r := kr.2
        decide (r.segmask &&& segmask = 0) && (decide (r.cbase + r.clines ≤ cbase) || decide (cbase + clines ≤ r.cbase))

/-- Inserts a cluster by (die, y, x). -/
def State.siteBefore (s : State) (a b : Nat) : Bool :=
  if a / 68 ≠ b / 68 then decide (a / 68 < b / 68) else decide ((s.cluster a).coord ≤ (s.cluster b).coord)

/-- The placement of R368 for n clusters, if there is one. -/
def State.placement (s : State) (p n : Nat) (segmask : BitVec 14) (cbase clines : Nat) : Option (List Nat) :=
  let free := sortBy s.siteBefore ((s.owned p).filter fun c => s.clusterFree c segmask cbase clines (s.part p).bslot.toNat)
  let on (d : Nat) : List Nat := free.filter fun c => decide (c / 68 = d)
  match (List.range 4).find? fun d => decide (n ≤ (on d).length) with
  | some d => some ((on d).take n)
  | none => if n ≤ free.length then some (free.take n) else none

/-- Prepares a job that starts a gang, none of whose reads has been answered FAILED: reads, checks and placement (R368, R369). -/
def State.planSound (s : State) (j : Job) : Plan :=
  let entry : Sum Plan Word := match j.block with
    | some v => .inr v
    | none =>
      match s.slot j.slot with
      | none => .inl (.invalid none)
      | some x =>
        match s.dispRead j.part (x.rbase + BitVec.ofNat 64 (8 * ((x.head - 1).toNat % 2 ^ x.rlog2))) 8 with
        | .ok bs false => .inr (wordAt bs 0)
        | .beyond a => .inl (.beyond a)
        | .wait => .inl .wait
        | .fault va => .inl (.fault va none)
        | _ => .inl (.invalid none)
  match entry with
  | .inl p => p
  | .inr va =>
    let inHbm (e : Word) : Bool := s.jobDomain j.part e && decide (entryTier e = 0)
    if va.toNat % 64 ≠ 0 then .invalid none
    else match s.jobRead j.part 0 inHbm va 256 with
    | .beyond a => .beyond a
    | .wait => .wait
    | .fault f => .fault f (some va)
    | .bad => .invalid (some (s.blockWords j.part va))
    | .ok _ true => .invalid (some (s.blockWords j.part va))
    | .ok bs false =>
      let b := (List.range 32).map (wordAt bs)
      if s.blockBad j b then .invalid (some b)
      else match s.myRank j.part with
      | none => .full
      | some rank =>
        match s.readAll j.part va b (blkRanges b rank) with
        | .inl p => p
        | .inr (code :: plb :: recs :: views :: images) =>
          if (Tile.applyRecords {} (wordsOf recs)).isNone || (List.range (blk b 14 12 9)).any (fun i => !viewValid (i + 1) (viewAt views i)) then
            .invalid (some b)
          else match s.placement j.part (blkClusters b) (blkSegmask b) (blk b 5 10 9) (blk b 5 0 10) with
          | some cs => .start b ⟨code, images, plb, recs, views⟩ cs
          | none => .full
        | .inr _ => .full

/-- Prepares a job that starts a gang: it is INVALID once a read for it has been answered FAILED (R369). -/
def State.plan (s : State) (j : Job) : Plan :=
  if s.disp.jobFailed then .invalid (j.block.map (s.blockWords j.part)) else s.planSound j

/-! ## Tiles between gangs (R370, R373) -/

/-- The tile once no gang runs on it: its memory, its code, its Barn records and its own reliability state stay. -/
def Tile.vacate (T : Tile) : Tile :=
  { mem := { T.mem with deltas := [] }, code := T.code, chkstat := T.chkstat, barn := T.barn, retired := T.retired }

/-- The words of the segments of a mask. -/
def segWords (segmask : BitVec 14) : BitVec 28672 :=
  (List.range 14).foldl (fun m i => if segmask.getLsbD i then m ||| wordMask (0x8000 + 0x4000 * i) 0x4000 else m) 0

/-- Tile memory at the start of a gang (R369): the image in its V and S segments, zero in the rest of its segments, every
mark of them clear, the lines in their own frames, the pool whole. DEDUCED, log 72. -/
def TMem.launch (m : TMem) (cfg : Word) (segmask : BitVec 14) (image : List Byte) : TMem :=
  let k := ~~~(segWords segmask)
  let bytes := m.bytes.filter fun c => !segmask.getLsbD (c.1 / 0x4000)
  let pool := poolFrames cfg segmask
  let takes (i : Nat) : Bool := segmask.getLsbD (i / 0x4000) && decide (attrOf cfg (i / 0x4000) ≠ .d) && !cfg.getLsbD (28 + i / 0x4000)
  { m with
    bytes := ((List.range image.length).zip image).foldl (fun b ib => if takes ib.1 then SMap.set b ib.1 0 ib.2 else b) bytes
    poison := m.poison &&& k, full := m.full &&& k, stale := m.stale &&& k
    lineMap := m.lineMap.filter fun kv => !segmask.getLsbD (kv.1 / 128)
    deltas := [], free := pool, low := pool.length }

/-- The PLB's sixteen entries (R153, R366). -/
def plbOf (bs : List Byte) : SMap (BitVec 128) := (List.range 16).foldl (fun m i => m.set i 0 (viewAt bs i)) []

/-- FWDCFG of a block: MODE 3 selects no forwarding. DEDUCED, log 77. -/
def blkFwd (b : List Word) : Word := if blk b 5 19 2 = 3 then 0 else BitVec.ofNat 64 (blk b 5 19 6)

/-- The control context that a block gives a tile, before the records (R345, R366, R369). -/
def blkCtl (b : List Word) (hkey : Word) (plb : List Byte) : Ctl :=
  { memcfg := blkMemcfg b, seed := b.getD 2 0, hkey := hkey &&& 0xFFFF03FF, listptr := b.getD 9 0 &&& 0xFFFFFF,
    xschedptr := b.getD 10 0 &&& 0x3FFFF, fwdcfg := blkFwd b, budget := BitVec.ofNat 64 (blk b 1 32 24),
    plbctl := BitVec.ofNat 64 (blk b 11 0 16 + 2 ^ 16), plb := plbOf plb }

/-- A tile at the start of a gang. -/
def Tile.launch (T : Tile) (b : List Word) (p : Payload) (id gti : Nat) (hkey : Word) (alimit : BitVec 8) (image : List Byte) : Tile :=
  let cbase := blk b 5 10 9
  let clines := blk b 5 0 10
  let V := T.vacate
  let old := V.code.filter fun c => !(decide (64 * cbase ≤ c.1) && decide (c.1 < 64 * (cbase + clines)))
  let V := { V with
    ctl := blkCtl b hkey p.plb
    mem := V.mem.launch (blkMemcfg b) (blkSegmask b) image
    code := ((List.range p.code.length).zip p.code).foldl (fun (m : List Host.Cell) (ib : Nat × Byte) => SMap.set m (64 * cbase + ib.1) 0 ib.2) old
    seq := { phase := .start }, abortlim := alimit, gang := id, gti := gti, cbase := cbase, clines := clines, segmask := blkSegmask b }
  (V.applyRecords (wordsOf p.records)).getD V

/-- The tile key of local index l on some clusters. -/
def State.tileKey (s : State) (clusters : List Nat) (per l : Nat) : Nat :=
  let c := clusters.getD (l / per) 0
  17 * c + (s.cluster c).unitOf.get (l % per) (l % per)

/-- An event unit with nothing armed (R239). -/
def Cluster.disarm (c : Cluster) : Cluster := { c with barriers := [], lines := [], mutexes := [], armed := {} }

/-- The lowest gang id that no gang of the package holds (R368), and, for a gang over packages, none of another package (R393). -/
def State.freeGangId (s : State) (ranks : Nat) : Nat :=
  ((List.range 65535).map (· + 1)).find? (fun i => (s.gang i).isNone && (decide (ranks = 1) || !s.peerGangs.contains i)) |>.getD 65535

/-- Every other rank's package has placed its part of the selected job (R393). -/
def State.peersPlaced (s : State) (p : Nat) : Bool :=
  (List.range (s.part p).rankCount).all fun r => decide (s.myRank p = some r) || s.disp.peers.contains r || decide ((s.part p).rankCount = 1)

/-- The tiles of a placement in local order. -/
def State.placeTiles (s : State) (clusters : List Nat) (per : Nat) : List Nat :=
  (List.range (clusters.length * per)).map (s.tileKey clusters per)

/-- The placement and the start of gang `id` on this package (R369, R373, R393). -/
def State.placeGang (s : State) (j : Job) (id : Nat) (b : List Word) (p : Payload) (clusters : List Nat) : State :=
  let q := s.part j.part
  let per := blkTiles b
  let rank := (s.myRank j.part).getD 0
  let place := s.placeTiles clusters per
  let c := completionOf b
  let g : Gang := {
    part := j.part, clusters := clusters.length, perCluster := per, rank := rank, ranks := q.rankCount
    rootPkg := s.rootPackage j.part q.rankCount
    place := place, stepLimit := BitVec.ofNat 32 (blk b 1 0 32), state := .running, domain := BitVec.ofNat 16 (blk b 11 0 16)
    slot := j.slot, qpart := j.qpart, qid := j.qid, stride := j.stride
    prio := blk b 0 28 2, cycles := 0, charged := 0, complva := b.getD 16 0, parent := c.2.1, hmsg := c.2.2
    preempt := false, verdict := none, todo := [], pfl0 := blk b 14 21 18, up := [], mismatch := false, syncDown := none, syncTodo := []
    plots := [], observed := [], launches := [], linkFail := false, sample := none
    mirrorWait := false, mirrorAt := 0, haltCause := 0, savedStep := 0, aside := [], syncMismatch := false }
  let image (l : Nat) : List Byte := if b.getD 8 0 = 0 then p.images.headD [] else p.images.getD l []
  let s := ((List.range place.length).zip place).foldl (fun s lt =>
    s.updTile lt.2 fun T => T.launch b p id (rank * place.length + lt.1) q.hkey q.alimit (image lt.1)) s
  let s := clusters.foldl (fun s c => s.updCluster c Cluster.disarm) s
  let s := s.updPart j.part fun q => { q with
    views := (List.range (blk b 14 12 9)).foldl (fun m i => m.set (i + 1) 0 (viewAt p.views i)) q.views, resid := true, saved := false }
  s.setGang id g

/-- The start of the selected job's gang, with the lowest free id (R368, R369, R393). -/
def State.startGang (s : State) (j : Job) (b : List Word) (p : Payload) (clusters : List Nat) : State :=
  let s := s.placeGang j (s.freeGangId (s.part j.part).rankCount) b p clusters
  { s with disp := { s.disp with job := none, jobFault := false, jobFailed := false } }

/-- A job that another package's dispatcher has selected: no slot and no queue of this package's is its own. -/
def peerJobOf (p : Nat) : Job := { slot := 64, part := p, src := .device, block := none, prio := 0, eff := 0, qid := 64 }

/-- This package's part of a gang that another package's dispatcher starts (R393): nothing is placed for a rank that the map does not
give it, for an id that it holds, or with no clusters free. -/
def State.startPeer (s : State) (x : PeerJob) : State :=
  let b := x.block
  if (s.myRank x.part).isNone ∨ (s.gang x.gang).isSome ∨ s.blockBad (peerJobOf x.part) b then s
  else match s.placement x.part (blkClusters b) (blkSegmask b) (blk b 5 10 9) (blk b 5 0 10) with
  | some cs => s.placeGang (peerJobOf x.part) x.gang b x.payload cs
  | none => s

/-- GANG_LAUNCH (R368, R369, R372, R393): the selected job starts, waits, or completes as INVALID or, for a partition that owns no
cluster, as CANCELLED. -/
def execGangLaunch (s : State) : Host.Outcome State Fault Refusal :=
  match s.disp.job with
  | none => .next s
  | some j =>
    match j.src with
    | .cont _ => .next s
    | _ =>
      let ended (s : State) : State := { s with disp := { s.disp with job := none, jobFault := false, jobFailed := false } }
      if s.disp.jobFault ∨ !s.pkg.up then .next s
      else if !s.ownsCluster j.part then .next (ended (s.endUnstarted j.part (j.block.map (s.blockWords j.part)) 3 j.queue))
      else match s.plan j with
      | .beyond a => .fault (.noSuchTierAddress a)
      | .wait => .next s
      | .full => .next s
      | .fault va block =>
        .next (State.report { s with disp := { s.disp with jobFault := true, job := some { j with block := block } } }
          (.pageFault 0 (s.part j.part).dlo.toNat (BitVec.ofNat 64 va) false))
      | .invalid b => .next (ended (s.endUnstarted j.part b 4 j.queue))
      | .start b p cs => .next (if s.peersPlaced j.part then s.startGang j b p cs else s)

/-! ## Resume (R374) -/

/-- The context as a resume loads it on a tile (R374). -/
def Tile.restore (T : Tile) (bslot : Nat) (r : BarnRec) : Tile :=
  { T.vacate with
    ctl := r.ctl, mem := { T.mem with deltas := [], free := r.free, low := (poolFrames r.ctl.memcfg r.segmask).length }
    seq := { phase := .start }, vote := { ldec := r.ldec, lcause := r.lcause }, abortcnt := r.abortcnt, abortlim := r.abortlim
    redres := r.redres, gang := r.gang, gti := r.gti, cbase := r.cbase, clines := r.clines, segmask := r.segmask
    steppedNow := r.msgs, msgFrames := r.msgFrames, mail := r.mail, dlprior := r.dlprior, persist := r.persist, parentSigs := r.parentSigs
    barn := T.barn.erase bslot }

/-- The event unit of a cluster with an arming state in force (R239). -/
def Cluster.arm (c : Cluster) (a : Arming) : Cluster :=
  { c.disarm with
    barriers := a.barriers.map fun kb => (kb.1, { count := kb.2.1, chain := kb.2.2 })
    lines := a.lines.map fun kb => (kb.1, { count := kb.2.1, chain := kb.2.2 })
    armed := a }

/-- The tile's bales whose fill is still to be made are asked for again: a rerun's refills, and after a restore (R146). -/
def State.refill (s : State) (t : Nat) : State :=
  (List.range 64).foldl (fun s i =>
    let b := (s.tile t).bale i
    if b.pend && decide (b.state = 0) && b.refill then s.fillRequest t i else s) s

/-- The Barn's records of a gang are all there and no other gang runs on its tiles. -/
def State.canResume (s : State) (id : Nat) (g : Gang) : Bool :=
  decide (g.state = .inBarn) && g.place.all fun t =>
    decide ((s.tile t).gang = 0) &&
      (match (s.tile t).barn.find (s.part g.part).bslot.toNat with | some r => decide (r.gang = id) | none => false)

/-- Loads the Barn record of gang g on tile t, as the partition's key reads it (R347); the arming state of its cluster goes with
member 0 (R239). -/
def State.restoreTile (s : State) (g : Gang) (bslot t : Nat) : State :=
  match (s.tile t).barn.find bslot with
  | some r =>
    let r := r.under g (s.part g.part).key t bslot
    let s := (s.updTile t fun T => T.restore bslot r).refill t
    if r.gti % g.perCluster = 0 then s.updCluster (clusterOf t) fun C => C.arm (r.arming.getD {}) else s
  | none => s

/-- A gang in the Barn runs again, for a job (R374). -/
def State.resumeGang (s : State) (id : Nat) (g : Gang) (j : Job) : State :=
  let bslot := (s.part g.part).bslot.toNat
  let s := g.place.foldl (fun (s : State) t => s.restoreTile g bslot t) s
  let s := s.setGang id { g with
    state := .running, slot := j.slot, qpart := j.qpart, qid := j.qid, stride := j.stride, prio := j.prio, charged := 0, sample := none
    rootPkg := s.rootPackage g.part g.ranks }
  s.updPart g.part fun q => { q with resid := true, saved := false }

/-- This package's part of a gang that another package's dispatcher resumes (R374, R393). -/
def State.resumePeer (s : State) (id : Nat) : State :=
  match s.gang id with
  | some g => if s.canResume id g then s.resumeGang id g { peerJobOf g.part with prio := g.prio } else s
  | none => s

/-- RESUME (R363, R364, R374): the selected CONT job runs again. -/
def execResume (s : State) : Host.Outcome State Fault Refusal :=
  match s.disp.job with
  | none => .next s
  | some j =>
    match j.src with
    | .cont id =>
      (match s.gang id with
       | none => .next s
       | some g =>
         if !s.canResume id g then .next s
         else
           let s := (s.resumeGang id g j).updSlot j.slot fun x => { x with cont := false }
           .next { s with disp := { s.disp with job := none } })
    | _ => .next s

/-! ## Selection's test of placement (R363) -/

/-- The selected job can be placed, or need not wait for clusters. -/
def State.placeable (s : State) (j : Job) : Bool :=
  match j.src with
  | .cont id => (match s.gang id with | some g => s.canResume id g | none => false)
  | _ => (match s.plan j with | .full => false | .wait => false | _ => true)

/-- JOB_SELECTION (R363). No gang is launched before bring-up completes (R356). -/
def execJobSelection (s : State) : Host.Outcome State Fault Refusal :=
  if s.pkg.up then .next (s.selectJob s.placeable) else .next s

/-! ## Completion (R370) -/

/-- The completion word. -/
def Done.word (d : Done) : Word := d.gang ++ d.sstep ++ d.cause ++ d.status

/-- The page of a completion word or of a host write: HBM, writable, of the partition's domains, and plain. DESIGN CHOICE, log 76. -/
def State.plainPage (s : State) (p : Nat) (e : Word) : Bool :=
  entryW e && !entryStep e && decide (entryTier e = 0) && s.jobDomain p e

/-- A gang of partition p is in a state. -/
def State.partHas (s : State) (p : Nat) (st : GangState) : Bool := s.gangs.any fun gG => decide (gG.2.part = p) && decide (gG.2.state = st)

/-- Frees what a gang holds: its tiles, Barn records, residency, plots and id (R333, R370). BARNCTL keeps what other gangs of the
partition have there. -/
def State.freeGang (s : State) (id : Nat) : State :=
  match s.gang id with
  | none => s
  | some g =>
    let s := g.place.foldl (fun s t => s.updTile t fun T =>
      let V := if T.gang = id then T.vacate else T
      { V with barn := V.barn.filter fun kr => decide (kr.2.gang ≠ id) }) s
    let s : State := { s with gangs := SMap.erase s.gangs id }
    let s := s.updPart g.part fun q => { q with resid := s.partHas g.part .running, saved := s.partHas g.part .inBarn }
    State.settlePubs s.pubs.length s

/-- The parent's signal of a completed job (R370): on the tile, or on its Barn record; dropped when the parent is not
there. A tile of another package lies outside the model. -/
def State.signalParent (s : State) (part : Nat) (w : Word) : State :=
  let id := bitsOf w 0 16
  let i := bitsOf w 16 23
  let sig := (bitsOf w 39 8, bitsOf w 47 4)
  if sig.2 = 0 then s
  else match s.gang id with
  | none => s
  | some g =>
    if g.part ≠ part ∨ g.size ≤ i then s
    else match g.tileAt i with
    | none => s
    | some t =>
      if g.state = .running then s.updTile t fun T => { T with parentSigs := T.parentSigs ++ [sig] }
      else if g.state = .inBarn then
        s.updTile t fun T => { T with barn := T.barn.map fun kr =>
          (kr.1, if kr.2.gang = id then { kr.2 with parentSigs := kr.2.parentSigs ++ [sig] } else kr.2) }
      else s

/-- The host message of a completed job (R370): a committed entry of the release queue, performed at once; its second
word is not stated. -/
def State.hostMessage (s : State) (part : Nat) (msg : Option Word) : State :=
  match msg with
  | none => s
  | some w =>
    if s.quotaHolds part 0 2 then
      { s with hostq := s.hostq ++ [(part, w, Config.freeMessageWord s.fresh)], fresh := s.fresh + 1 }
    else s.report (.droppedMessage part)

/-- A completion has a message for the host, and the host link queue is full (R380). DEDUCED, log 111. -/
def State.hostFull (s : State) (msg : Option Word) : Bool := msg.isSome && decide (64 ≤ s.hostq.length)

/-- Writes the completion word, or drops it and tells the host; none while its stack is frozen. The Gleaner sees the write (R326). -/
def State.writeCompletion (s : State) (d : Done) : Sum Nat (Option State) :=
  match d.complva with
  | none => .inr (some (s.report (.droppedCompletion d.part)))
  | some va =>
    match s.pages d.part 0 [va.toNat] with
    | .beyond a => .inl a
    | .ok ps =>
      if !(ps.all fun q => s.plainPage d.part q.e) then .inr (some (s.report (.droppedCompletion d.part)))
      else if ps.any s.frozenPage then .inr none
      else
        let as := (List.range 8).map (va.toNat + ·)
        let s := s.writeBytesAs d.part (((List.range 8).zip (toBytes 8 d.word.toNat)).map fun ib => (physIn ps (va.toNat + ib.1), ib.2, false))
        .inr (some (s.observe d.part (Seen.plain 0 va.toNat 8 (as.map (physIn ps)))))
    | _ => .inr (some (s.report (.droppedCompletion d.part)))

/-- JOB_COMPLETION (R370): what the job held is freed, its word is written, and its parent and the host are told. The
word of a gang over packages is written by the package of rank 0 (R393). -/
def execJobCompletion (job : Nat) (s : State) : Host.Outcome State Fault Refusal :=
  match s.disp.done.find? fun d => decide (d.job = job) with
  | none => .next s
  | some d =>
    let foreign := match s.gang d.gang.toNat with | some g => decide (g.rank ≠ 0) | none => false
    let quiet := decide (d.status = 3) || decide (d.status = 5) || foreign
    if !quiet && s.hostFull d.hmsg then .next s
    else match (if foreign then .inr (some s) else s.writeCompletion d) with
    | .inl a => .fault (.noSuchTierAddress a)
    | .inr none => .next s
    | .inr (some s1) =>
      let s1 := if d.gang = 0 then s1 else s1.freeGang d.gang.toNat
      let s1 := if quiet then s1 else (s1.signalParent d.part d.parent).hostMessage d.part d.hmsg
      let s1 := match d.qid.bind (s1.slotOf d.qpart) with
        | some k => s1.updSlot k fun x => { x with running := false }
        | none => s1
      .next { s1 with disp := { s1.disp with done := s1.disp.done.filter fun x => decide (x.job ≠ job) } }

end Sys2Proof.Machine
end

