-- ==== Sys2Proof/Machine/Commit.lean ====
section
/-! DEFINITION. What a decision does: commit work, abort, halt, the Barn save and the completion of a gang (R17-R19, R22,
R134-R137, R146, R228, R239, R255, R297, R311, R312, R315, R370, R374). -/

namespace Sys2Proof.Machine

/-! ## Deferred atomics at commit (R126, R255) -/

/-- The Reckoner order (R255). -/
def AmodRec.before (a b : AmodRec) : Bool :=
  if a.addr ≠ b.addr then decide (a.addr < b.addr)
  else if a.tile ≠ b.tile then decide (a.tile < b.tile)
  else if a.routine ≠ b.routine then decide (a.routine.toNat < b.routine.toNat)
  else decide (a.seq.toNat ≤ b.seq.toNat)

/-- The mark that the word at a V address will have after the merge of R134. -/
def TMem.mergedPoison (m : TMem) (a : Nat) : Bool :=
  match m.deltas.find (lineOf a) with
  | none => m.committedPoison a
  | some d =>
    let w := a % 128 / 8
    let o := bitsOf d.own (8 * w) 8
    let r := bitsOf d.remote (8 * w) 8
    if o ||| r = 0 then m.poison.getLsbD (16 * d.frame + w)
    else
      (decide (o ≠ 0) && d.ownMark.getLsbD w) || (decide (r ≠ 0) && d.remoteMark.getLsbD w) ||
        (decide (o ||| r ≠ 255) && m.committedPoison a)

/-- Applies a record to the word in its line's post-commit frame; a poisoned word stays as it is (R134, R255). -/
def TMem.applyAmod (m : TMem) (r : AmodRec) : TMem :=
  let frame := match m.deltas.find (lineOf r.addr) with | some d => d.frame | none => m.frameOf (lineOf r.addr)
  let phys := 128 * frame + (r.addr - 0x8000) % 128
  let old := ofBytes ((List.range 4).map fun i => m.byte (phys + i))
  if m.mergedPoison r.addr then m else m.putBytes phys (toBytes 4 (fp32Node .add 0 0 old r.operand.toNat).1)

/-- Step 1 of R17. -/
def Tile.reckon (T : Tile) : Tile := { T with mem := (sortBy AmodRec.before T.amods).foldl TMem.applyAmod T.mem }

/-! ## Parts of the control context (R146, R149, R233) -/

/-- A ring at a decision (R149). -/
def Ring.decided (x : Ring) : Ring :=
  { x with
    stopin := false, subv := false, bound := 0, pushed := false, subSrc := 0, subLen := 0, subView := 0, subLeft := 0
    subForever := false, subDone := 0 }

/-- Bales with NEXT = 1, as ranges of tile addresses. -/
def Tile.staged (T : Tile) : List (Nat × Nat) := (T.ctl.bales.filter fun kb => kb.2.next).map fun kb => (kb.2.addr, kb.2.bytes)

/-- A unit and lane that a syndrome with PERSIST = 1 has named (R233): a lane goes to spare lane 0, then 1; a third one, or the
Abacus, retires the tile. DEDUCED, log 81. A lane that has a spare already stays as it is. DESIGN CHOICE, log 119. -/
def Tile.mapLane (T : Tile) (ul : Nat × Nat) : Tile :=
  let c := T.chkstat
  if ul.1 = 3 then { T with retired := true }
  else if ul.1 ≠ 2 ∨ (c.getLsbD 42 ∧ bitsOf c 43 6 = ul.2) ∨ (c.getLsbD 49 ∧ bitsOf c 50 6 = ul.2) then T
  else if !c.getLsbD 42 then { T with chkstat := withBits (withBit c 42 true) 43 6 ul.2 }
  else if !c.getLsbD 49 then { T with chkstat := withBits (withBit c 49 true) 50 6 ul.2 }
  else { T with retired := true }

/-- Every lane that the step has named is mapped out at the decision, and a persistent fault of SRAM outside tile-memory words retires
the tile (R233). -/
def Tile.mapLanes (T : Tile) : Tile :=
  let T := T.faulty.foldl Tile.mapLane T
  { T with faulty := [], sramBad := false, retired := T.retired || T.sramBad }

/-- What every decision does to a tile's passing state: strands, accumulators, engines, reductions, SYNC results. A raised
all-parked line falls (R256). The phase is the next attempt's start, unless the tile stops. DESIGN CHOICE, log 82. -/
def Tile.endAttempt (T : Tile) (goes : Bool) (vote : BitVec 2) (cause : BitVec 8) : Tile :=
  { T.mapLanes with
    strands := [], banks := [], mmas := [], accMoves := [], xq := [], pfls := [], colls := [], working := 0
    seq := { phase := if goes then .start else .halted }, vote := { ldec := vote, lcause := cause }
    slotBy := [], redc := [], syncres := none, syncArrived := false, amods := [], amodFrames := [], stepped := [], mailNext := []
    budgetCycles := 0, lostFills := 0, line := false, act := if T.line then T.act + 1 else T.act }

/-! ## Commit work of a tile (R17, R311) -/

/-- The control context with BUDGET.USED at 0 for an attempt that begins (R305, R313). -/
def Ctl.newAttempt (c : Ctl) : Ctl := { c with budget := withBits c.budget 24 24 0 }

/-- Commit work: records, merge and flip, staleness, the pool, and the registers. -/
def Tile.commitStep (T : Tile) (goes : Bool) (p : Packet) : Tile :=
  let R := T.reckon
  let keep := R.staged
  let M := ({ R with mem := R.mem.commit } : Tile).markStale keep
  let mem := { M.mem with free := M.mem.free ++ T.amodFrames, low := T.poolSize }
  let ctl : Ctl := { T.ctl with
    bales := T.ctl.bales.map fun kb => (kb.1, { kb.2 with next := false })
    rings := T.ctl.rings.map fun kr => (kr.1, kr.2.decided), sstep := T.ctl.sstep + 1, gateNext := none }
  let ctl := ctl.newAttempt
  let N := { (M.endAttempt goes p.vote p.cause) with
    mem := mem, ctl := ctl, redres := p.payload, abortcnt := 0, dlprior := false, persist := [], twice := []
    steppedNow := sortBy Msg.before T.stepped, mail := T.mailNext }
  match T.ctl.gateNext with
  | some g => N.applyGate g
  | none => N

/-! ## Abort of a tile (R18, R135, R146, R225, R228, R312) -/

/-- A bale at an abort (R146): `now` as the attempt leaves it, `old` of the snapshot. Where both of R146's bullets
apply (READY with REFILL = 1 in the snapshot, NEXT = 1 in the attempt) the first is taken and the slot becomes EMPTY
with PEND = 1 (R18 and R146 do not say which holds). DESIGN CHOICE, log 95. -/
def Bale.aborted (now old : Bale) : Bale :=
  if old.refill ∧ (old.state = 2 ∨ (old.state = 0 ∧ old.pend = true)) then { old with state := 0, pend := true, fault := false }
  else if now.next then { old with state := 0, pend := false, fault := false }
  else old

/-- The bale table at an abort. -/
def abortedBales (now old : SMap Bale) : SMap Bale :=
  (List.range 64).foldl (fun m i => m.set i {} ((now.get i {}).aborted (old.get i {}))) []

/-- The tile with the snapshot that a discard goes back to: its own, or the present context before the start phase. -/
def Tile.snapped (T : Tile) : Tile := if T.seq.phase = .start then { T with snap := T.ctl, steppedStart := T.steppedNow } else T

/-- The discard of an attempt: deltas, records, stepped messages; the messages of the step's start are there again. DEDUCED, log 59.
DEDUCED, log 79. -/
def Tile.abortStep (T : Tile) (goes : Bool) (vote : BitVec 2) (cause : BitVec 8) : Tile :=
  let T := T.snapped
  let freed := T.mem.abort.free ++ T.amodFrames ++ T.msgFrames
  let n := T.steppedStart.length
  let M := ({ T with ctl := { T.snap with bales := abortedBales T.ctl.bales T.snap.bales }, mem := T.mem.abort } : Tile).markStale []
  { (M.endAttempt goes vote cause) with
    mem := { M.mem with free := freed.drop n, low := T.poolSize }
    ctl := ({ M.ctl with rings := M.ctl.rings.map fun kr => (kr.1, kr.2.decided) } : Ctl).newAttempt
    abortcnt := T.abortcnt + 1, dlprior := T.dlprior || decide (cause = 0x13), persist := T.persist ++ T.twice, twice := []
    steppedNow := T.steppedStart, msgFrames := freed.take n, mail := [] }

/-! ## The gang's work outside its tiles (R239, R297, R315, R333, R371) -/

/-- Promotes the gang's twins (R297): each frame goes into ADDR of its leaf, and the former frame to the pool. -/
def State.promote (s : State) (id : Nat) : State :=
  let mine := s.twins.filter fun w => decide (w.gang = id)
  let s := mine.foldl (fun s w => s.setRawWord w.leaf (withBits (s.rawWord w.leaf) 28 36 (w.frame / 4096))) s
  { s with twins := s.twins.filter fun w => decide (w.gang ≠ id), twinFree := s.twinFree ++ mine.map (·.base) }

/-- Drops the gang's twins (R297). -/
def State.dropTwins (s : State) (id : Nat) : State :=
  let mine := s.twins.filter fun w => decide (w.gang = id)
  { s with twins := s.twins.filter fun w => decide (w.gang ≠ id), twinFree := s.twinFree ++ mine.map (·.frame) }

/-- The order in which the release queue performs a step's entries (R315). -/
def Rel.before (a b : Rel) : Bool :=
  if a.gti ≠ b.gti then decide (a.gti < b.gti)
  else if a.routine ≠ b.routine then decide (a.routine.toNat < b.routine.toNat)
  else decide (a.seq ≤ b.seq)

/-- Performs the gang's release entries (R315, R316, R348). -/
def State.performRelease (s : State) (id : Nat) : State :=
  let mine := sortBy Rel.before (s.release.filter fun r => decide (r.gang = id))
  mine.foldl (fun s r => s.writeBytesAs r.part r.bytes) { s with release := s.release.filter fun r => decide (r.gang ≠ id) }

/-- Discards the gang's release entries. -/
def State.dropRelease (s : State) (id : Nat) : State := { s with release := s.release.filter fun r => decide (r.gang ≠ id) }

/-- The gang's event units at a decision (R239): dynamic fields zero, mutexes free, and the arming state kept, or that of
the step's start after an abort; messages between them that are still under way go with the step. -/
def State.decideEvents (s : State) (g : Gang) (commit : Bool) : State :=
  let s := g.clusterKeys.foldl (fun s c => s.updCluster c fun C => C.arm (if commit then C.arming else C.armed)) s
  { s with chains := s.chains.filter fun m => !(g.clusterKeys.contains m.srcCluster) }

/-- A launch of a gang goes before another (R371). -/
def PendLaunch.before (a b : PendLaunch) : Bool :=
  if a.gti ≠ b.gti then decide (a.gti < b.gti)
  else if a.routine ≠ b.routine then decide (a.routine.toNat < b.routine.toNat)
  else decide (a.seq ≤ b.seq)

/-- What a COMMIT does for the gang outside its tiles, made with the first tile that applies it; its writes in views are then
visible to every view (R276). -/
def State.commitGang (s : State) (id : Nat) (g : Gang) : State :=
  let s := (((s.promote id).gleanerCommit id).performRelease id).publishFor id
  let s := s.decideEvents g true
  let s := { s with viewWrites := leftViews (fun w => decide (w.gang = id)) s.viewWrites }
  let s := (sortBy PendLaunch.before g.launches).foldl (fun s l => s.submitLaunch l.block l.slot l.part) s
  s.updGang id fun G => { G with launches := [] }

/-- What an ABORT or a HALT does for the gang outside its tiles. -/
def State.abortGang (s : State) (id : Nat) (g : Gang) : State :=
  let s := (((s.dropTwins id).gleanerAbort id).dropRelease id).decideEvents g false
  s.updGang id fun G => { G with launches := [] }

/-! ## The end of a decision (R370, R374) -/

/-- The tile once its context is saved in Barn slot `bslot`. -/
def Tile.save (T : Tile) (bslot : Nat) (r : BarnRec) : Tile := { T.vacate with barn := T.barn.insert bslot r }

/-- A record that partition p writes into Barn slot b of tile t without a key is not usable, and the host is told its range (R348). -/
def State.reportBarn (s : State) (p b t : Nat) : State :=
  if (s.part p).key.isSome then s else s.report (.discardedWrite p (3 * 2 ^ 48 + barnAddr t b) 4096)

/-- The context of tile t of gang g goes to Barn slot b. -/
def State.saveTile (s : State) (g : Gang) (b t : Nat) : State :=
  let r := s.contextOf g t
  (s.updTile t fun T => T.save b r).reportBarn g.part b t

/-- The gang's contexts go to the Barn, and its slot has a CONT job; the arrival is held for an unmapped queue
(R364, R374, R381). Publication records no longer wait for it (R288). DEDUCED, log 73. -/
def State.saveGang (s : State) (id : Nat) (g : Gang) : State :=
  let b := (s.part g.part).bslot.toNat
  let step := (s.tile (g.place.headD 0)).ctl.sstep
  let s := g.place.foldl (fun (s : State) t => s.saveTile g b t) s
  let s := g.clusterKeys.foldl (fun (s : State) c => s.updCluster c Cluster.disarm) s
  let s := (s.setGang id { g with savedStep := step, state := .inBarn, verdict := none, todo := [] }).chargeRest id
  let s := s.updPart g.part fun q => { q with resid := false, saved := true }
  let s := State.settlePubs s.pubs.length s
  match s.slotOf g.qpart g.qid with
  | some k => s.updSlot k fun x => { x with cont := true, cgang := id, cprio := g.prio, running := false }
  | none => s.updHeld g.qpart g.qid fun h => { h with cont := some (id, g.prio) }

/-- The writes in views that a gang which ends has not pushed: no strand pushes them any more (R276). -/
def State.orphanViews (s : State) (id : Nat) : State :=
  if s.viewWrites.isEmpty then s
  else { s with viewWrites := s.viewWrites.map fun (w : ViewWrite) => if w.gang = id then { w with gang := 0, gti := 0 } else w }

/-- The gang has ended: it pays its last charge units (R360), publication records no longer wait for it (R288), and its job's
completion word is to be written (R370). -/
def State.endGang (s : State) (id : Nat) (g : Gang) (status : BitVec 8) (cause : BitVec 8) (sstep : BitVec 32) : State :=
  let s := (s.setGang id { g with state := .stopped, verdict := none, todo := [], preempt := false, haltCause := cause }).chargeRest id
  let s := State.settlePubs s.pubs.length (s.orphanViews id)
  { s with disp := { s.disp with
      done := s.disp.done ++
        [⟨s.disp.nextJob, some g.complva, g.part, status, cause, sstep, BitVec.ofNat 16 id, g.parent, g.hmsg, some g.qid, g.qpart⟩]
      nextJob := s.disp.nextJob + 1 } }

/-- The mirror area of the gang's rank: BUDDY, and the area's virtual address (R396, R399). -/
def State.mirrorArea (s : State) (g : Gang) : Option (BitVec 16 × Nat) :=
  match (s.part g.part).ranks.find g.rank with
  | some e => if g.ranks ≠ 1 ∧ e.2.2 ≠ 0 then some (e.2.1, 65536 * e.2.2.toNat) else none
  | none => none

/-- Where the word at a virtual address of a partition stands in another package's second tier. -/
def farKey (pkg : BitVec 16) (p va : Nat) : Nat := 2 ^ 61 * (64 * pkg.toNat + p) + va / 8

/-- A word of another package's second tier. -/
def State.farWord (s : State) (pkg : BitVec 16) (p va : Nat) : Word × Bool := s.farTier.get (farKey pkg p va) (0, false)

/-- Writes words to another package's second tier, from an aligned virtual address. -/
def State.putFar (s : State) (pkg : BitVec 16) (p va : Nat) (ws : List (Word × Bool)) : State :=
  { s with farTier := ((List.range ws.length).zip ws).foldl (fun m iw => m.set (farKey pkg p (va + 8 * iw.1)) (0, false) iw.2) s.farTier }

/-- H of a mirror area: 65,536 and the size of the image of some words, rounded up to a multiple of 65,536 (R399). DEDUCED, log 122. -/
def mirrorSize (words : Nat) : Nat := 65536 + (8 * words + 65535) / 65536 * 65536

/-- COMPLETE of a half's header. -/
def mirrorComplete (header : Word) : Bool := header.getLsbD 32

/-- The header of the half that does not hold the latest complete image, from the headers of half 0, at `base`, and of half 1, H later;
half 0 when neither is complete (R399). DEDUCED, log 122. -/
def mirrorTarget (base h : Nat) (h0 h1 : Word) : Nat :=
  if mirrorComplete h0 && (!mirrorComplete h1 || decide (bitsOf h1 0 32 ≤ bitsOf h0 0 32)) then base + h else base

/-- The gang image of a running gang (R376). -/
def State.runningImage (s : State) (g : Gang) : List (Word × Bool) := g.place.flatMap fun t => (s.tile t).image g (s.contextOf g t)

/-- The gang begins to stream its image into a half of its mirror area: COMPLETE of the header is cleared first, and the image follows at
offset 65,536 (R399). -/
def State.streamImage (s : State) (g : Gang) (buddy : BitVec 16) (base : Nat) (image : List (Word × Bool)) : State × Gang :=
  let h := mirrorSize image.length
  let header (a : Nat) : Word := (s.farWord buddy g.part a).1
  let a := mirrorTarget base h (header base) (header (base + h))
  let s := (s.putFar buddy g.part a [(withBit (header a) 32 false, false)]).putFar buddy g.part (a + 65536) image
  (s, { g with mirrorWait := true, mirrorAt := a })

/-- A gang to which a COMMIT has been applied, with what it sends: a mirrored rank streams its image (R399). -/
def State.mirrorGang (s : State) (g : Gang) : State × Gang :=
  match s.mirrorArea g with
  | some (buddy, base) => s.streamImage g buddy base (s.runningImage g)
  | none => (s, g)

/-- Tile t has applied the decision; with the last tile the gang goes on, is saved, or ends. -/
def State.applied (s : State) (id t : Nat) (p : Packet) : State :=
  match s.gang id with
  | none => s
  | some g =>
    let todo := g.todo.erase t
    if !todo.isEmpty then s.setGang id { g with todo := todo }
    else
      let s := g.clusterKeys.foldl (fun (s : State) c => s.updCluster c fun C => { C with due := C.req }) s
      let step := (s.tile t).ctl.sstep
      match p.vote.toNat with
      | 3 => (s.endGang id g 2 p.cause step).report (.gangHalted id step p.cause)
      | 1 =>
        if p.yield then s.saveGang id g
        else s.setGang id { g with verdict := none, todo := [] }
      | v =>
        if step = g.stepLimit then s.endGang id g 1 0 step
        else
          let m := s.mirrorGang g
          if v = 2 then m.1.saveGang id m.2 else m.1.setGang id { m.2 with verdict := none, todo := [] }

/-- Tile t, which has still to apply its gang's decision, with the gang and the decision. -/
def State.pending (s : State) (t : Nat) : Option (Gang × Packet) :=
  (s.gangOf t).bind fun g => g.verdict.bind fun p => if g.todo.contains t then some (g, p) else none

/-- The commit work of tile t, with the gang's at the first tile. -/
def State.commitTile (s : State) (t : Nat) (g : Gang) (p : Packet) : State :=
  let id := (s.tile t).gang
  let s1 := if g.todo = g.place then s.commitGang id g else s
  let goes := decide (p.vote = 0) && decide ((s.tile t).ctl.sstep + 1 ≠ g.stepLimit)
  (s1.updTile t fun T => T.commitStep goes p).applied id t p

/-- COMMIT (R17, R19, R311): the decision COMMIT or PREEMPT at tile t. DESIGN CHOICE, log 5. -/
def execCommit (t : Nat) (s : State) : Host.Outcome State Fault Refusal :=
  match s.pending t with
  | none => .next s
  | some (g, p) =>
    if p.vote = 1 ∨ p.vote = 3 then .next s else .next (s.commitTile t g p)

/-- The discard of an attempt at tile t, with the gang's at the first tile; refills are asked for when the rerun starts. -/
def State.discard (s : State) (t : Nat) (g : Gang) (p : Packet) : State :=
  let id := (s.tile t).gang
  let s1 := if g.todo = g.place then s.abortGang id g else s
  let goes := decide (p.vote = 1) && !p.yield
  let s1 := (s1.dropTraffic t).updTile t fun T => T.abortStep goes p.vote p.cause
  (if goes then s1.refill t else s1).applied id t p

/-- ABORT (R18, R19, R312) at tile t. -/
def execAbort (t : Nat) (s : State) : Host.Outcome State Fault Refusal :=
  match s.pending t with
  | none => .next s
  | some (g, p) => if p.vote = 1 then .next (s.discard t g p) else .next s

/-- HALT_DECISION (R18, R312) at tile t. -/
def execHaltDecision (t : Nat) (s : State) : Host.Outcome State Fault Refusal :=
  match s.pending t with
  | none => .next s
  | some (g, p) => if p.vote = 3 then .next (s.discard t g p) else .next s

/-- Tile t applies whatever decision it has still to apply. -/
def State.decideTile (s : State) (t : Nat) : State :=
  match s.pending t with
  | none => s
  | some (g, p) => if p.vote = 1 ∨ p.vote = 3 then s.discard t g p else s.commitTile t g p

/-- SSTEP of a gang on this package: of its tiles, or of its saved contexts. -/
def State.gangStep (s : State) (g : Gang) : BitVec 32 :=
  match g.state with
  | .running => (s.tile (g.place.headD 0)).ctl.sstep
  | .stopped => (s.tile (g.place.headD 0)).ctl.sstep
  | _ => g.savedStep

/-- The header of a complete half: SSTEP, and COMPLETE (R399). -/
def mirrorHeader (sstep : BitVec 32) : Word := withBit (sstep.setWidth 64) 32 true

/-- MIRROR_ACK (R399): the buddy has acknowledged the last word of the image; the header of its half takes COMPLETE with SSTEP. -/
def execMirrorAck (gang : Nat) (s : State) : Host.Outcome State Fault Refusal :=
  match s.gang gang with
  | none => .next s
  | some g =>
    if g.mirrorWait then
      let s := s.setGang gang { g with mirrorWait := false }
      match s.mirrorArea g with
      | some (buddy, _) => .next (s.putFar buddy g.part g.mirrorAt [(mirrorHeader (s.gangStep g), false)])
      | none => .next s
    else .next s

end Sys2Proof.Machine
end

