-- ==== Sys2Proof/Machine/Barn.lean ====
section
/-! DEFINITION. Gang images, BARNSV and BARNLD (R376, R379). -/

namespace Sys2Proof.Machine

/-! ## Words of the steward in memory (R377, R401) -/

/-- What a read of words comes to. -/
inductive WordsRead where
  | ok (ws : List (Word × Bool))
  | bad
  | wait
  | beyond (addr : Nat)
deriving DecidableEq, Repr

/-- n words from a virtual address, with their marks, for the partition that PARTID.SEL names. -/
def State.stewardWords (s : State) (va n : Nat) : WordsRead :=
  let p := s.pkg.partid.toNat
  match s.pages p 0 (pagesOf va (8 * n)) with
  | .beyond a => .beyond a
  | .ok ps =>
    if !(ps.all fun q => entryR q.e) then .bad
    else if ps.any s.frozenPage then .wait
    else .ok (s.readWordsAs p ps ((List.range (8 * n)).map (va + ·)))
  | _ => .bad

/-- Writes words from an aligned virtual address whose pages are given. -/
def State.putWords (s : State) (p : Nat) (ps : List Page) (va : Nat) : List (Word × Bool) → State
  | [] => s
  | w :: rest =>
    let s' := s.writeBytesAs p (((List.range 8).zip (toBytes 8 w.1.toNat)).map fun ib => (physIn ps (va + ib.1), ib.2, w.2))
    State.putWords s' p ps (va + 8) rest

/-! ## BARNSV (R379) -/

/-- The Barn record of gang id on tile t. -/
def State.barnRecord (s : State) (id t : Nat) : Option BarnRec := ((s.tile t).barn.find? fun kr => decide (kr.2.gang = id)).map (·.2)

/-- The records of a gang in the Barn, by local index, as a steward request reads them: with the key of PARTID.SEL (R347). -/
def State.gangRecords (s : State) (id : Nat) (g : Gang) : List (Nat × BarnRec) :=
  g.place.filterMap fun t =>
    (s.barnRecord id t).map fun r => (t, r.under g (s.part s.pkg.partid.toNat).key t (s.part g.part).bslot.toNat)

/-- The image of a gang in the Barn. -/
def State.gangImage (s : State) (id : Nat) (g : Gang) : List (Word × Bool) :=
  (s.gangRecords id g).flatMap fun tr => (s.tile tr.1).image g tr.2

/-- The gang leaves the Barn: its records and residency are free (R379). -/
def State.takeOut (s : State) (id : Nat) (g : Gang) : State :=
  let aside := (s.gangRecords id g).map (·.2)
  let s := g.place.foldl (fun s t => s.updTile t fun T => { T with barn := T.barn.filter fun kr => decide (kr.2.gang ≠ id) }) s
  let s := s.updPart g.part fun q => { q with saved := false }
  s.setGang id { g with state := .out, place := [], aside := aside }

/-- The checks that BARNSV and BARNLD share. -/
def State.imageAccess (s : State) (a b : SReg) (k : Nat → Word → Eff) : Eff :=
  let x := s.me
  match x.lowPoison [a, b] with
  | some r => .trap 0x09 (r.setWidth 64)
  | none => if (x.rd a).toNat % 65536 ≠ 0 then .trap 0x05 (x.rd a) else k (x.rd a).toNat (x.rd b)

/-- BARNSV (R379). The Gleaner sees what it writes (R326, R330). -/
def execBarnsv (g : Guard) (d a b : SReg) (s : State) : Host.Outcome State Fault Refusal :=
  s.issue { head := 0xFA03, guard := g, priv := 3 } fun _ _ s =>
    s.imageAccess a b fun va w =>
      let id := bitsOf w 0 16
      match s.gang id with
      | none => s.answerMe d 1
      | some G =>
        if G.state ≠ .inBarn then s.answerMe d 1
        else
          let ws := s.gangImage id G
          let p := s.pkg.partid.toNat
          match s.pages p 0 (pagesOf va (8 * ws.length)) with
          | .beyond z => .fault (.noSuchTierAddress z)
          | .ok ps =>
            if !(ps.all fun q => entryW q.e && decide (entryTier q.e ≤ 1)) then s.answerMe d 2
            else if ps.any s.frozenPage then .retry s
            else
              let as := (List.range (8 * ws.length)).map (va + ·)
              let s := (s.putWords p ps va ws).observe p (Seen.plain 0 va (8 * ws.length) (as.map (physIn ps)))
              (s.takeOut id ((s.gang id).getD G)).answerMe d 0
          | _ => s.answerMe d 2

/-! ## BARNLD (R379) -/

/-- A tile's part of an image: its record, its code, its V segments, its messages. -/
structure TileImage where
  head : RecordIn
  code : List Word
  frames : List (Word × Bool)
  msgs : List Msg
deriving DecidableEq, Repr

/-- What the reading of an image comes to. -/
inductive ImageRead where
  | ok (ts : List TileImage)
  | bad
  | wait
  | beyond (addr : Nat)
deriving DecidableEq, Repr

/-- The record fits tile number i of its image and the shape that the image's first record gives. -/
def RecordIn.fits (r : RecordIn) (first : RecordIn) (i : Nat) : Bool :=
  let L := first.gang.clusters * first.gang.perCluster
  decide (r.ctx.gang = first.ctx.gang) && decide (r.ctx.gti = first.gang.rank * L + i) && decide (r.gang.clusters = first.gang.clusters) &&
    decide (r.gang.perCluster = first.gang.perCluster) && decide (1 ≤ r.ctx.clines) && decide (r.ctx.cbase + r.ctx.clines ≤ 512) &&
    memcfgValid r.ctx.ctl.memcfg && decide (r.ctx.segmask = first.ctx.segmask) && decide (r.ctx.cbase = first.ctx.cbase) &&
    decide (r.ctx.clines = first.ctx.clines) && decide (r.msgs ≤ (poolFrames r.ctx.ctl.memcfg r.ctx.segmask).length)

/-- The package in whose second tier the image at a virtual address stands, when that is another one: the BUDDY of a rank of PARTID.SEL,
in the mirror area whose header before the image has COMPLETE set (R399, R400). DEDUCED, log 123. -/
def State.farImage (s : State) (va : Nat) : Option (BitVec 16) :=
  let p := s.pkg.partid.toNat
  ((s.part p).ranks.find? fun re =>
    decide (re.2.2.1 ≠ s.pkg.pkgid) && decide (re.2.2.2 ≠ 0) && decide (65536 * re.2.2.2.toNat + 65536 ≤ va) &&
      mirrorComplete (s.farWord re.2.2.1 p (va - 65536)).1).map (·.2.2.1)

/-- n words of an image, from another package's second tier or from memory here. -/
def State.imageWords (s : State) (far : Option (BitVec 16)) (va n : Nat) : WordsRead :=
  match far with
  | some k => .ok ((List.range n).map fun i => s.farWord k s.pkg.partid.toNat (va + 8 * i))
  | none => s.stewardWords va n

/-- Reads the images of tiles i, i + 1, ... from a virtual address. -/
def State.readImages (s : State) (far : Option (BitVec 16)) (first : RecordIn) : Nat → Nat → Nat → ImageRead
  | 0, _, _ => .ok []
  | k + 1, i, va =>
    match s.imageWords far va 512 with
    | .beyond a => .beyond a
    | .wait => .wait
    | .bad => .bad
    | .ok hs =>
      let r := recordOf (hs.map (·.1))
      if hs.any (·.2) || !r.fits first i then .bad
      else
        let nc := 8 * r.ctx.clines
        let nf := 2048 * r.ctx.vSegs.length
        let n := nc + nf + 16 * r.msgs
        match s.imageWords far (va + 4096) n with
        | .beyond a => .beyond a
        | .wait => .wait
        | .bad => .bad
        | .ok ws =>
          let code := ws.take nc
          let msgs := ws.drop (nc + nf)
          if code.any (·.2) || msgs.any (·.2) then .bad
          else match State.readImages s far first k (i + 1) (va + 4096 + 8 * n) with
          | .ok rest =>
            .ok (⟨r, code.map (·.1), (ws.drop nc).take nf, (chunks 16 r.msgs (msgs.map (·.1))).map msgOf⟩ :: rest)
          | e => e

/-- The whole image at an address. -/
def State.readImage (s : State) (va : Nat) : ImageRead :=
  let far := s.farImage va
  match s.imageWords far va 512 with
  | .beyond a => .beyond a
  | .wait => .wait
  | .bad => .bad
  | .ok hs =>
    let r := recordOf (hs.map (·.1))
    s.readImages far r (r.gang.clusters * r.gang.perCluster) 0 va

/-- The cluster at a coordinate of a die, from a halfword of a placement list. -/
def State.listedCluster (s : State) (h : Nat) : Option Nat :=
  (List.range 68).map (fun i => 68 * (h / 64 % 4) + i) |>.find? fun c => decide ((s.cluster c).coord = 1 + h % 8 + 8 * (h / 8 % 8))

/-- The clusters that a list of halfwords names, when they are a placement for the context. -/
def State.listPlacement (s : State) (p : Nat) (r : BarnRec) (hs : List Nat) : Option (List Nat) :=
  let cs := hs.filterMap s.listedCluster
  let ok (c : Nat) : Bool := decide (s.ownerOf c = some p) && s.clusterFree c r.segmask r.cbase r.clines (s.part p).bslot.toNat
  if cs.length = hs.length ∧ cs.eraseDups.length = cs.length ∧ cs.all ok then some cs else none

/-- The placement that BARNLD takes: of its list, or of R368. DEDUCED, log 92. -/
def State.imagePlacement (s : State) (p : Nat) (r : RecordIn) (list : Word) : Option (List Nat) :=
  if list = 0 then s.placement p r.gang.clusters r.ctx.segmask r.ctx.cbase r.ctx.clines
  else match s.jobRead p 0 (fun _ => true) list (2 * r.gang.clusters) with
  | .ok bs false => s.listPlacement p r.ctx ((List.range r.gang.clusters).map fun i => ofBytes ((bs.drop (2 * i)).take 2))
  | _ => none

/-- Tile memory with a carried image in it (R376): V frames in their own lines, S segments stale, the pool free but for
the messages' frames. -/
def TMem.load (m : TMem) (r : BarnRec) (frames : List (Word × Bool)) : TMem :=
  let k := ~~~(segWords r.segmask)
  let sMask := segWords (BitVec.ofNat 14 (((List.range 14).filter fun i => r.segmask.getLsbD i && decide (attrOf r.ctl.memcfg i = .s)).map (2 ^ ·)).sum)
  let base := { m with
    bytes := m.bytes.filter fun c => !r.segmask.getLsbD (c.1 / 0x4000)
    poison := m.poison &&& k, full := m.full &&& k, stale := (m.stale &&& k) ||| sMask
    lineMap := m.lineMap.filter fun kv => !r.segmask.getLsbD (kv.1 / 128) }
  let words := r.vSegs.flatMap fun i => (List.range 2048).map fun w => 2048 * i + w
  (words.zip frames).foldl (fun (m : TMem) wf =>
    { m.putBytes (8 * wf.1) (toBytes 8 wf.2.1.toNat) with poison := withBit m.poison wf.1 wf.2.2 }) base

/-- A tile with a carried context in Barn slot `bslot`, enciphered by a key; `aside` is the record that BARNSV took out, which has what an
image has no room for. -/
def Tile.load (T : Tile) (x : TileImage) (bslot : Nat) (key : Option (BitVec 512)) (aside : Option BarnRec) : Tile :=
  let r := x.head.ctx
  let pool := poolFrames r.ctl.memcfg r.segmask
  let m := x.msgs.length
  let rec' := { r with
    msgs := x.msgs, msgFrames := pool.take m, free := pool.drop m, mail := (aside.map (·.mail)).getD []
    parentSigs := (aside.map (·.parentSigs)).getD [], persist := (aside.map (·.persist)).getD []
    arming := r.arming.orElse fun _ => aside.bind (·.arming), key := key }
  let bytes := x.code.flatMap fun w => toBytes 8 w.toNat
  { T with
    mem := T.mem.load r x.frames
    code := ((List.range bytes.length).zip bytes).foldl (fun (c : List Host.Cell) (ib : Nat × Byte) => SMap.set c (64 * r.cbase + ib.1) 0 ib.2) T.code
    barn := T.barn.insert bslot rec' }

/-- The gang of an image stands in the Barn at a placement, and is the CONT job of its queue's slot. -/
def State.loadImage (s : State) (p id : Nat) (g : Gang) (ts : List TileImage) (clusters : List Nat) : State :=
  let s0 := s
  let place := s.placeTiles clusters g.perCluster
  let bslot := (s.part p).bslot.toNat
  let s := ((List.range place.length).zip (place.zip ts)).foldl (fun (s : State) x =>
    (s.updTile x.2.1 fun T => T.load x.2.2 bslot (s.part p).key g.aside[x.1]?).reportBarn p bslot x.2.1) s
  let s := s.updPart p fun q => { q with saved := true }
  let s := s.setGang id { g with state := .inBarn, place := place, aside := [], rootPkg := s.rootPackage p g.ranks }
  State.noteReady s0 (match s.slotOf g.qpart g.qid with
    | some k => s.updSlot k fun x => { x with cont := true, cgang := id, cprio := g.prio }
    | none => s.updHeld g.qpart g.qid fun h => { h with cont := some (id, g.prio) })

/-- BARNLD (R379, R400): an image of a gang that BARNSV took out keeps what the package holds of it; another image stands
for the gang that its record describes. -/
def execBarnld (g : Guard) (d a b : SReg) (s : State) : Host.Outcome State Fault Refusal :=
  s.issue { head := 0xFA04, guard := g, priv := 3 } fun _ _ s =>
    s.imageAccess a b fun va list =>
      match s.readImage va with
      | .beyond z => .fault (.noSuchTierAddress z)
      | .wait => .retry s
      | .bad => s.answerMe d 2
      | .ok [] => s.answerMe d 2
      | .ok (x :: rest) =>
        let id := x.head.ctx.gang
        let p := s.pkg.partid.toNat
        let held : Bool := match s.gang id with | some G => decide (G.state ≠ .out) || decide (G.part ≠ p) | none => false
        if id = 0 then s.answerMe d 2
        else if held = true then s.answerMe d 3
        else match s.imagePlacement p x.head list with
        | none => s.answerMe d 1
        | some cs =>
          let G := { (s.gang id).getD x.head.gang with part := p }
          (s.loadImage p id G (x :: rest) cs).answerMe d 0

end Sys2Proof.Machine
end

