-- ==== Sys2Proof/Machine/Scalar.lean ====
section
/-! DEFINITION. Scalar instructions of majors 0x00-0x05 (R70-R76): integer arithmetic and logic, unary and
bit-field operations, LIT, LEA, SEL, CMP and TST. -/

namespace Sys2Proof.Machine

/-- What the issue of a scalar instruction in the restricted set of R227 needs to know. -/
def scalarInfo (head : Nat) (g : Guard) (regs : List SReg) : Info :=
  { head := head, guard := g, msgOk := true, regs := regs }

/-- Rotate left; by 0 it returns x (R71). -/
def rolWord (x : Word) (sh : Nat) : Word := (x <<< sh) ||| (x >>> (64 - sh))

/-- Signed lesser (R71). -/
def minS (x y : Word) : Word := if x.toInt ≤ y.toInt then x else y
/-- Signed greater (R71). -/
def maxS (x y : Word) : Word := if x.toInt ≤ y.toInt then y else x
/-- Unsigned lesser (R71). -/
def minU (x y : Word) : Word := if x.toNat ≤ y.toNat then x else y
/-- Unsigned greater (R71). -/
def maxU (x y : Word) : Word := if x.toNat ≤ y.toNat then y else x
/-- Bits 127:64 of the signed product (R71). -/
def mulHigh (x y : Word) : Word := BitVec.ofInt 64 (x.toInt * y.toInt / 2 ^ 64)
/-- Bits 127:64 of the unsigned product (R71). -/
def mulHighU (x y : Word) : Word := BitVec.ofNat 64 (x.toNat * y.toNat / 2 ^ 64)

/-- The signed quotient of R72. -/
def divS (x y : Word) : Word :=
  if y = 0 then BitVec.allOnes 64 else BitVec.ofInt 64 (x.toInt.tdiv y.toInt)
/-- The signed remainder of R72. -/
def remS (x y : Word) : Word :=
  if y = 0 then x else BitVec.ofInt 64 (x.toInt - y.toInt * x.toInt.tdiv y.toInt)
/-- The unsigned quotient of R72. -/
def divU (x y : Word) : Word := if y = 0 then BitVec.allOnes 64 else BitVec.ofNat 64 (x.toNat / y.toNat)
/-- The unsigned remainder of R72. -/
def remU (x y : Word) : Word := if y = 0 then x else BitVec.ofNat 64 (x.toNat % y.toNat)

/-- The number of leading zero bits among the n low bits (R73). -/
def leadingZeros (x : Nat) : Nat → Nat
  | 0 => 0
  | n + 1 => if x / 2 ^ n % 2 = 1 then 0 else 1 + leadingZeros x n

/-- The number of trailing zero bits, at most n (R73). -/
def trailingZeros (x : Nat) : Nat → Nat
  | 0 => 0
  | n + 1 => if x % 2 = 1 then 0 else 1 + trailingZeros (x / 2) n

/-- The number of one bits among the n low bits (R73). -/
def onesCount (x : Nat) : Nat → Nat
  | 0 => 0
  | n + 1 => x % 2 + onesCount (x / 2) n

/-- ABS; that of −2^63 is −2^63 (R73). -/
def absWord (x : Word) : Word := if x.toInt < 0 then -x else x

/-- Sign extension from a size (R73). -/
def sextSize (sz : Size) (x : Word) : Word :=
  match sz with
  | .b => (x.setWidth 8).signExtend 64 | .h => (x.setWidth 16).signExtend 64
  | .w => (x.setWidth 32).signExtend 64 | .d => x

/-- Zero extension from a size (R73). -/
def zextSize (sz : Size) (x : Word) : Word :=
  match sz with
  | .b => (x.setWidth 8).setWidth 64 | .h => (x.setWidth 16).setWidth 64
  | .w => (x.setWidth 32).setWidth 64 | .d => x

/-- The field x<pos + len : pos>, len being the length less one (R74). -/
def fieldOf (x : Word) (pos len : BitVec 6) : Nat := bitsOf x pos.toNat (len.toNat + 1)

/-- The truth of a CMP or BRC condition (R76). -/
def condHolds (cc : Cond) (x y : Word) : Bool :=
  match cc with
  | .eq => decide (x = y) | .ne => decide (x ≠ y)
  | .lt => decide (x.toInt < y.toInt) | .ge => decide (y.toInt ≤ x.toInt)
  | .ltu => decide (x.toNat < y.toNat) | .geu => decide (y.toNat ≤ x.toNat)

/-- ADD (R71). -/
def execAdd (g : Guard) (d a b : SReg) (s : State) : Host.Outcome State Fault Refusal :=
  s.issue (scalarInfo 0x0200 g [d, a, b]) (scalarBody d (fun x => x.rd a + x.rd b) [a, b])

/-- SUB (R71). -/
def execSub (g : Guard) (d a b : SReg) (s : State) : Host.Outcome State Fault Refusal :=
  s.issue (scalarInfo 0x0201 g [d, a, b]) (scalarBody d (fun x => x.rd a - x.rd b) [a, b])

/-- AND (R71). -/
def execAnd (g : Guard) (d a b : SReg) (s : State) : Host.Outcome State Fault Refusal :=
  s.issue (scalarInfo 0x0202 g [d, a, b]) (scalarBody d (fun x => x.rd a &&& x.rd b) [a, b])

/-- OR (R71). -/
def execOr (g : Guard) (d a b : SReg) (s : State) : Host.Outcome State Fault Refusal :=
  s.issue (scalarInfo 0x0203 g [d, a, b]) (scalarBody d (fun x => x.rd a ||| x.rd b) [a, b])

/-- XOR (R71). -/
def execXor (g : Guard) (d a b : SReg) (s : State) : Host.Outcome State Fault Refusal :=
  s.issue (scalarInfo 0x0204 g [d, a, b]) (scalarBody d (fun x => x.rd a ^^^ x.rd b) [a, b])

/-- ANDN (R71). -/
def execAndn (g : Guard) (d a b : SReg) (s : State) : Host.Outcome State Fault Refusal :=
  s.issue (scalarInfo 0x0205 g [d, a, b]) (scalarBody d (fun x => x.rd a &&& ~~~(x.rd b)) [a, b])

/-- SHL (R71). -/
def execShl (g : Guard) (d a b : SReg) (s : State) : Host.Outcome State Fault Refusal :=
  s.issue (scalarInfo 0x0206 g [d, a, b]) (scalarBody d (fun x => x.rd a <<< bitsOf (x.rd b) 0 6) [a, b])

/-- SHR (R71). -/
def execShr (g : Guard) (d a b : SReg) (s : State) : Host.Outcome State Fault Refusal :=
  s.issue (scalarInfo 0x0207 g [d, a, b]) (scalarBody d (fun x => x.rd a >>> bitsOf (x.rd b) 0 6) [a, b])

/-- SRA (R71). -/
def execSra (g : Guard) (d a b : SReg) (s : State) : Host.Outcome State Fault Refusal :=
  s.issue (scalarInfo 0x0208 g [d, a, b]) (scalarBody d (fun x => (x.rd a).sshiftRight (bitsOf (x.rd b) 0 6)) [a, b])

/-- ROL (R71). -/
def execRol (g : Guard) (d a b : SReg) (s : State) : Host.Outcome State Fault Refusal :=
  s.issue (scalarInfo 0x0209 g [d, a, b]) (scalarBody d (fun x => rolWord (x.rd a) (bitsOf (x.rd b) 0 6)) [a, b])

/-- MIN (R71). -/
def execMin (g : Guard) (d a b : SReg) (s : State) : Host.Outcome State Fault Refusal :=
  s.issue (scalarInfo 0x020A g [d, a, b]) (scalarBody d (fun x => minS (x.rd a) (x.rd b)) [a, b])

/-- MAX (R71). -/
def execMax (g : Guard) (d a b : SReg) (s : State) : Host.Outcome State Fault Refusal :=
  s.issue (scalarInfo 0x020B g [d, a, b]) (scalarBody d (fun x => maxS (x.rd a) (x.rd b)) [a, b])

/-- MINU (R71). -/
def execMinu (g : Guard) (d a b : SReg) (s : State) : Host.Outcome State Fault Refusal :=
  s.issue (scalarInfo 0x020C g [d, a, b]) (scalarBody d (fun x => minU (x.rd a) (x.rd b)) [a, b])

/-- MAXU (R71). -/
def execMaxu (g : Guard) (d a b : SReg) (s : State) : Host.Outcome State Fault Refusal :=
  s.issue (scalarInfo 0x020D g [d, a, b]) (scalarBody d (fun x => maxU (x.rd a) (x.rd b)) [a, b])

/-- MUL (R71). -/
def execMul (g : Guard) (d a b : SReg) (s : State) : Host.Outcome State Fault Refusal :=
  s.issue (scalarInfo 0x0210 g [d, a, b]) (scalarBody d (fun x => x.rd a * x.rd b) [a, b])

/-- MULH (R71). -/
def execMulh (g : Guard) (d a b : SReg) (s : State) : Host.Outcome State Fault Refusal :=
  s.issue (scalarInfo 0x0211 g [d, a, b]) (scalarBody d (fun x => mulHigh (x.rd a) (x.rd b)) [a, b])

/-- MULHU (R71). -/
def execMulhu (g : Guard) (d a b : SReg) (s : State) : Host.Outcome State Fault Refusal :=
  s.issue (scalarInfo 0x0212 g [d, a, b]) (scalarBody d (fun x => mulHighU (x.rd a) (x.rd b)) [a, b])

/-- DIV (R72). -/
def execDiv (g : Guard) (d a b : SReg) (s : State) : Host.Outcome State Fault Refusal :=
  s.issue (scalarInfo 0x0214 g [d, a, b]) (scalarBody d (fun x => divS (x.rd a) (x.rd b)) [a, b])

/-- DIVU (R72). -/
def execDivu (g : Guard) (d a b : SReg) (s : State) : Host.Outcome State Fault Refusal :=
  s.issue (scalarInfo 0x0215 g [d, a, b]) (scalarBody d (fun x => divU (x.rd a) (x.rd b)) [a, b])

/-- REM (R72). -/
def execRem (g : Guard) (d a b : SReg) (s : State) : Host.Outcome State Fault Refusal :=
  s.issue (scalarInfo 0x0216 g [d, a, b]) (scalarBody d (fun x => remS (x.rd a) (x.rd b)) [a, b])

/-- REMU (R72). -/
def execRemu (g : Guard) (d a b : SReg) (s : State) : Host.Outcome State Fault Refusal :=
  s.issue (scalarInfo 0x0217 g [d, a, b]) (scalarBody d (fun x => remU (x.rd a) (x.rd b)) [a, b])

/-- ADDI (R71). -/
def execAddi (g : Guard) (d a : SReg) (imm : BitVec 15) (s : State) : Host.Outcome State Fault Refusal :=
  s.issue (scalarInfo 0x0600 g [d, a]) (scalarBody d (fun x => x.rd a + simm imm) [a])

/-- AND with an immediate operand (R71). -/
def execAndImm (g : Guard) (d a : SReg) (imm : BitVec 15) (s : State) : Host.Outcome State Fault Refusal :=
  s.issue (scalarInfo 0x0602 g [d, a]) (scalarBody d (fun x => x.rd a &&& simm imm) [a])

/-- OR with an immediate operand (R71). -/
def execOrImm (g : Guard) (d a : SReg) (imm : BitVec 15) (s : State) : Host.Outcome State Fault Refusal :=
  s.issue (scalarInfo 0x0603 g [d, a]) (scalarBody d (fun x => x.rd a ||| simm imm) [a])

/-- XOR with an immediate operand (R71). -/
def execXorImm (g : Guard) (d a : SReg) (imm : BitVec 15) (s : State) : Host.Outcome State Fault Refusal :=
  s.issue (scalarInfo 0x0604 g [d, a]) (scalarBody d (fun x => x.rd a ^^^ simm imm) [a])

/-- ANDN with an immediate operand (R71). -/
def execAndnImm (g : Guard) (d a : SReg) (imm : BitVec 15) (s : State) : Host.Outcome State Fault Refusal :=
  s.issue (scalarInfo 0x0605 g [d, a]) (scalarBody d (fun x => x.rd a &&& ~~~(simm imm)) [a])

/-- SHL with an immediate operand (R71). -/
def execShlImm (g : Guard) (d a : SReg) (imm : BitVec 15) (s : State) : Host.Outcome State Fault Refusal :=
  s.issue (scalarInfo 0x0606 g [d, a]) (scalarBody d (fun x => x.rd a <<< bitsOf (simm imm) 0 6) [a])

/-- SHR with an immediate operand (R71). -/
def execShrImm (g : Guard) (d a : SReg) (imm : BitVec 15) (s : State) : Host.Outcome State Fault Refusal :=
  s.issue (scalarInfo 0x0607 g [d, a]) (scalarBody d (fun x => x.rd a >>> bitsOf (simm imm) 0 6) [a])

/-- SRA with an immediate operand (R71). -/
def execSraImm (g : Guard) (d a : SReg) (imm : BitVec 15) (s : State) : Host.Outcome State Fault Refusal :=
  s.issue (scalarInfo 0x0608 g [d, a]) (scalarBody d (fun x => (x.rd a).sshiftRight (bitsOf (simm imm) 0 6)) [a])

/-- ROL with an immediate operand (R71). -/
def execRolImm (g : Guard) (d a : SReg) (imm : BitVec 15) (s : State) : Host.Outcome State Fault Refusal :=
  s.issue (scalarInfo 0x0609 g [d, a]) (scalarBody d (fun x => rolWord (x.rd a) (bitsOf (simm imm) 0 6)) [a])

/-- MIN with an immediate operand (R71). -/
def execMinImm (g : Guard) (d a : SReg) (imm : BitVec 15) (s : State) : Host.Outcome State Fault Refusal :=
  s.issue (scalarInfo 0x060A g [d, a]) (scalarBody d (fun x => minS (x.rd a) (simm imm)) [a])

/-- MAX with an immediate operand (R71). -/
def execMaxImm (g : Guard) (d a : SReg) (imm : BitVec 15) (s : State) : Host.Outcome State Fault Refusal :=
  s.issue (scalarInfo 0x060B g [d, a]) (scalarBody d (fun x => maxS (x.rd a) (simm imm)) [a])

/-- MINU with an immediate operand (R71). -/
def execMinuImm (g : Guard) (d a : SReg) (imm : BitVec 15) (s : State) : Host.Outcome State Fault Refusal :=
  s.issue (scalarInfo 0x060C g [d, a]) (scalarBody d (fun x => minU (x.rd a) (simm imm)) [a])

/-- MAXU with an immediate operand (R71). -/
def execMaxuImm (g : Guard) (d a : SReg) (imm : BitVec 15) (s : State) : Host.Outcome State Fault Refusal :=
  s.issue (scalarInfo 0x060D g [d, a]) (scalarBody d (fun x => maxU (x.rd a) (simm imm)) [a])

/-- MUL with an immediate operand (R71). -/
def execMulImm (g : Guard) (d a : SReg) (imm : BitVec 15) (s : State) : Host.Outcome State Fault Refusal :=
  s.issue (scalarInfo 0x0610 g [d, a]) (scalarBody d (fun x => x.rd a * simm imm) [a])

/-- CLZ (R73). -/
def execClz (g : Guard) (d a : SReg) (s : State) : Host.Outcome State Fault Refusal :=
  s.issue (scalarInfo 0x0A00 g [d, a]) (scalarBody d (fun x => BitVec.ofNat 64 (leadingZeros (x.rd a).toNat 64)) [a])

/-- CTZ (R73). -/
def execCtz (g : Guard) (d a : SReg) (s : State) : Host.Outcome State Fault Refusal :=
  s.issue (scalarInfo 0x0A01 g [d, a]) (scalarBody d (fun x => BitVec.ofNat 64 (trailingZeros (x.rd a).toNat 64)) [a])

/-- POPC (R73). -/
def execPopc (g : Guard) (d a : SReg) (s : State) : Host.Outcome State Fault Refusal :=
  s.issue (scalarInfo 0x0A02 g [d, a]) (scalarBody d (fun x => BitVec.ofNat 64 (onesCount (x.rd a).toNat 64)) [a])

/-- ABS (R73). -/
def execAbs (g : Guard) (d a : SReg) (s : State) : Host.Outcome State Fault Refusal :=
  s.issue (scalarInfo 0x0A03 g [d, a]) (scalarBody d (fun x => absWord (x.rd a)) [a])

/-- MOV (R73). -/
def execMov (g : Guard) (d a : SReg) (s : State) : Host.Outcome State Fault Refusal :=
  s.issue (scalarInfo 0x0A04 g [d, a]) (scalarBody d (fun x => x.rd a) [a])

/-- SEXT.B, .H, .W (R73). -/
def execSext (g : Guard) (sz : Size) (d a : SReg) (s : State) : Host.Outcome State Fault Refusal :=
  s.issue (scalarInfo (0x0A08 + sz.code.toNat) g [d, a]) (scalarBody d (fun x => sextSize sz (x.rd a)) [a])

/-- ZEXT.B, .H, .W (R73). -/
def execZext (g : Guard) (sz : Size) (d a : SReg) (s : State) : Host.Outcome State Fault Refusal :=
  s.issue (scalarInfo (0x0A0C + sz.code.toNat) g [d, a]) (scalarBody d (fun x => zextSize sz (x.rd a)) [a])

/-- BFX (R74). -/
def execBfx (g : Guard) (d a : SReg) (pos len : BitVec 6) (s : State) : Host.Outcome State Fault Refusal :=
  s.issue (scalarInfo 0x0E00 g [d, a]) (scalarBody d (fun x => BitVec.ofNat 64 (fieldOf (x.rd a) pos len)) [a])

/-- BFX.S (R74). -/
def execBfxS (g : Guard) (d a : SReg) (pos len : BitVec 6) (s : State) : Host.Outcome State Fault Refusal :=
  s.issue (scalarInfo 0x0E01 g [d, a])
    (scalarBody d (fun x => BitVec.ofInt 64 (signedOf (len.toNat + 1) (fieldOf (x.rd a) pos len))) [a])

/-- BFI, which reads s[d] too (R74). -/
def execBfi (g : Guard) (d a : SReg) (pos len : BitVec 6) (s : State) : Host.Outcome State Fault Refusal :=
  s.issue (scalarInfo 0x0E02 g [d, a])
    (scalarBody d (fun x => withBits (x.rd d) pos.toNat (len.toNat + 1) (x.rd a).toNat) [d, a])

/-- LIT (R55, R75). -/
def execLit (g : Guard) (d : SReg) (_len : BitVec 2) (l : Word) (s : State) : Host.Outcome State Fault Refusal :=
  s.issue (scalarInfo 0x1100 g [d]) (scalarBody d (fun _ => l) [])

/-- LEA (R75). -/
def execLea (g : Guard) (d a b : SReg) (scale : BitVec 2) (s : State) : Host.Outcome State Fault Refusal :=
  s.issue (scalarInfo 0x1201 g [d, a, b]) (scalarBody d (fun x => x.rd a + (x.rd b <<< scale.toNat)) [a, b])

/-- SEL, whose predicate is data (R75). -/
def execSel (g : Guard) (d a b : SReg) (n : PReg) (s : State) : Host.Outcome State Fault Refusal :=
  s.issue (scalarInfo 0x1202 g [d, a, b]) fun _ _ s =>
    .done (s.updMe fun x => x.wr d (if x.prd n then x.rd a else x.rd b) (x.tags [a, b] || x.pt n))

/-- CMP (R76). -/
def execCmp (g : Guard) (cc : Cond) (pd : PReg) (a b : SReg) (s : State) : Host.Outcome State Fault Refusal :=
  s.issue (scalarInfo (0x1210 + cc.code.toNat) g [a, b])
    (predBody pd (fun x => condHolds cc (x.rd a) (x.rd b)) (fun x => x.tags [a, b]))

/-- CMP with an immediate operand (R76). -/
def execCmpImm (g : Guard) (cc : Cond) (pd : PReg) (a : SReg) (imm : BitVec 15) (s : State) : Host.Outcome State Fault Refusal :=
  s.issue (scalarInfo (0x1610 + cc.code.toNat) g [a])
    (predBody pd (fun x => condHolds cc (x.rd a) (simm imm)) (fun x => x.tags [a]))

/-- TST (R76). -/
def execTst (g : Guard) (pd : PReg) (a b : SReg) (s : State) : Host.Outcome State Fault Refusal :=
  s.issue (scalarInfo 0x1218 g [a, b])
    (predBody pd (fun x => decide ((x.rd a &&& x.rd b) ≠ 0)) (fun x => x.tags [a, b]))

/-- TST.Z (R76). -/
def execTstZ (g : Guard) (pd : PReg) (a b : SReg) (s : State) : Host.Outcome State Fault Refusal :=
  s.issue (scalarInfo 0x1219 g [a, b])
    (predBody pd (fun x => decide ((x.rd a &&& x.rd b) = 0)) (fun x => x.tags [a, b]))

/-- TST with an immediate operand (R76). -/
def execTstImm (g : Guard) (pd : PReg) (a : SReg) (imm : BitVec 15) (s : State) : Host.Outcome State Fault Refusal :=
  s.issue (scalarInfo 0x1618 g [a])
    (predBody pd (fun x => decide ((x.rd a &&& simm imm) ≠ 0)) (fun x => x.tags [a]))

/-- TST.Z with an immediate operand (R76). -/
def execTstZImm (g : Guard) (pd : PReg) (a : SReg) (imm : BitVec 15) (s : State) : Host.Outcome State Fault Refusal :=
  s.issue (scalarInfo 0x1619 g [a])
    (predBody pd (fun x => decide ((x.rd a &&& simm imm) = 0)) (fun x => x.tags [a]))

end Sys2Proof.Machine
end

