-- ==== Sys2Proof/Machine/Control.lean ====
section
/-! DEFINITION. Control transfer, HALT, YIELD, NOP, REP and FMT (R59, R78-R84). -/

namespace Sys2Proof.Machine

/-- A taken transfer to a target (R51, R78), which in the message context is a forward skip (R227). A follower's
leader has checked the target. DEDUCED, log 52. -/
def State.jump (s s' : State) (target : Nat) : Eff :=
  let bad :=
    if s.curStrand = 4 then decide (target ≤ s.me.pc.toNat) || decide (s.me.slots.length < target)
    else if s.forwarded then false
    else s.myTile.badTarget target
  if bad then .trap 0x03 (BitVec.ofNat 64 target) else .goto s' (BitVec.ofNat 15 target) s.me.rep

/-- What the issue of a control instruction needs to know; none may stand in a REP body (R82). -/
def controlInfo (head : Nat) (g : Guard) : Info := { head := head, guard := g, bodyOk := false }

/-- BR (R78); in the message context a forward skip (R99, R227). -/
def execBr (g : Guard) (target : BitVec 15) (s : State) : Host.Outcome State Fault Refusal :=
  s.issue { head := 0x4600, guard := g, msgOk := true, bodyOk := false } fun _ _ s => s.jump s target.toNat

/-- BRC (R78). -/
def execBrc (g : Guard) (cc : Cond) (a b : SReg) (target : BitVec 15) (s : State) : Host.Outcome State Fault Refusal :=
  s.issue (controlInfo (0x4610 + cc.code.toNat) g) fun _ _ s =>
    match s.me.lowPoison [a, b] with
    | some r => .trap 0x08 (r.setWidth 64)
    | none => if condHolds cc (s.me.rd a) (s.me.rd b) then s.jump s target.toNat else .done s

/-- JAL (R78). -/
def execJal (g : Guard) (a : SReg) (target : BitVec 15) (s : State) : Host.Outcome State Fault Refusal :=
  s.issue (controlInfo 0x4601 g) fun _ _ s =>
    s.jump (s.updMe fun x => x.wr a (s.seqPc.setWidth 64) false) target.toNat

/-- JR, which reads its target before it writes the link (R78). -/
def execJr (g : Guard) (a b : SReg) (s : State) : Host.Outcome State Fault Refusal :=
  s.issue (controlInfo 0x4602 g) fun _ _ s =>
    if s.me.tag b then .trap 0x08 (b.setWidth 64)
    else s.jump (s.updMe fun x => x.wr a (s.seqPc.setWidth 64) false) (s.me.rd b).toNat

/-- RET: to s1 (R78). -/
def execRet (g : Guard) (s : State) : Host.Outcome State Fault Refusal :=
  s.issue (controlInfo 0x4503 g) fun _ _ s =>
    if s.me.tag 1 then .trap 0x08 1 else s.jump s (s.me.rd 1).toNat

/-- LOOP (R79). -/
def execLoop (g : Guard) (a : SReg) (target : BitVec 15) (s : State) : Host.Outcome State Fault Refusal :=
  s.issue (controlInfo 0x4604 g) fun _ _ s =>
    if s.me.tag a then .trap 0x08 (a.setWidth 64)
    else if (s.me.rd a).toNat ≤ 1 then .done (s.updMe fun x => x.wr a 0 false)
    else s.jump (s.updMe fun x => x.wr a (x.rd a - 1) false) target.toNat

/-- The first malformed line among those of the next n instructions from pc, or the PC after them (R81). -/
def Tile.skipBody (T : Tile) (pc : Pc) : Nat → Sum Pc Pc
  | 0 => .inr pc
  | n + 1 => if T.badLine pc then .inl pc else Tile.skipBody T (T.pcAfter pc (T.slotsAt pc)) n

/-- REP with a count and a body, of a length that is not zero (R81). A follower takes its leader's landing when the count is 0. -/
def execRep (g : Guard) (a : SReg) (len : BitVec 6) (n : BitVec 15) (s : State) : Host.Outcome State Fault Refusal :=
  s.issue (controlInfo 0x4605 g) fun _ _ s =>
    if s.me.td ∨ len = 0 then .trap 0x01 0x4605
    else if s.me.tag a then .trap 0x08 (a.setWidth 64)
    else
      let count := if a = 0 then n.toNat else (s.me.rd a).toNat
      if count = 0 then
        match s.forwarded, s.me.fwdq with
        | true, f :: _ => .goto s f.next {}
        | _, _ =>
          match s.myTile.skipBody s.seqPc len.toNat with
          | .inl pc => .trapAt (BitVec.ofNat 15 (pcLine pc)) 0x02 (BitVec.ofNat 64 (pcLine pc))
          | .inr pc => .goto s pc {}
      else .goto s s.seqPc ⟨true, count, s.seqPc, len.toNat, 0⟩

/-- REP's stream-load form: k0-k7 from s24-s31 (R29, R81). -/
def execRepStreamLoad (g : Guard) (s : State) : Host.Outcome State Fault Refusal :=
  s.issue (controlInfo 0x4605 g) fun _ _ s =>
    if s.me.td then .trap 0x01 0x4605
    else match s.me.lowPoison [24, 25, 26, 27, 28, 29, 30, 31] with
    | some r => .trap 0x09 (r.setWidth 64)
    | none =>
      .done (s.updMe fun x => (List.range 8).foldl (fun x i =>
        x.kwr (BitVec.ofNat 3 i) (BitVec.ofNat 64 (bitsOf (x.rd (BitVec.ofNat 6 (24 + i))) 0 34))) x)

/-- A put/get entry of the strand with interrupt completion mode is outstanding, or its completion awaits
delivery with UIE = 1 (R45). The second part has no exception for a strand inside its user-interrupt handler or a
trap handler (UIA = 1 or TD = 1), where the interrupt cannot be delivered: its HALT waits on (R45 does not say).
DESIGN CHOICE, log 98. -/
def State.uiOutstanding (s : State) : Bool :=
  (s.myTile.xq.any fun e => decide (e.strand = s.curStrand) && decide (e.sy.site = 2)) ||
    (s.me.uie && !s.me.uiq.isEmpty)

/-- The effect of HALT: the routine ends, waiting under R45; with TD = 1 the tile votes ABORT with TRAPCAUSE (R43). -/
def State.halt (s : State) : Eff :=
  if s.uiOutstanding then .retry s
  else
    let x := s.me
    let s' := s.setMe { x with run := .idle, took := false, uiq := [], fwdq := if s.forwarded then x.fwdq.drop 1 else x.fwdq, rep := {} }
    .final (if x.td then s'.failTile s.curTile 1 x.trapcause else s')

/-- HALT (R80). A follower halts with its leader, whose handler it may have been, wherever the follower itself stands (R98). -/
def execHalt (s : State) : Host.Outcome State Fault Refusal :=
  let i := controlInfo 0x4408 Guard.always
  if s.forwarded then s.settle i State.halt false else s.issue i fun _ _ s => s.halt

/-- YIELD (R80): the strand then waits until every other READY strand of the tile has issued once. -/
def execYield (s : State) : Host.Outcome State Fault Refusal :=
  s.issue (controlInfo 0x4409 Guard.always) fun _ _ s =>
    let m := (List.range 4).foldl (fun m k =>
      if k ≠ s.curStrand ∧ (s.strand s.curTile k).run = .ready then withBit m k true else m) (0 : BitVec 8)
    .done (s.updMe fun x => { x with yieldTo := m })

/-- NOP (R80). -/
def execNop (s : State) : Host.Outcome State Fault Refusal :=
  s.issue { head := 0x440A } fun _ _ s => .done s

/-- FMT (R59): a second FMT after FMT raises PREFIX_MISUSE; the prefix outlives its own retirement. -/
def execFmt (minor : BitVec 8) (s : State) : Host.Outcome State Fault Refusal :=
  let x := s.me
  let head : Word := 0xFC00 + minor.setWidth 64
  if x.pp then .next (s.trapMe 0x1C x.pc head)
  else if s.curStrand = 4 then .next (s.trapMe 0x15 x.pc head)
  else
    s.settle { head := head.toNat } (fun s => .done (s.updMe fun x => x.setSt 2 9 (1 + 2 * minor.toNat))) true

end Sys2Proof.Machine
end

