-- ==== Sys2Proof/Machine/Package.lean ====
section
/-! DEFINITION. Package events: bring-up, partition resets and TEARDOWN, keys and alarms, the host link, page-fault answers,
spare tiles, warnings and temperature (R233, R259-R261, R290, R304, R333, R346-R350, R352-R356, R372, R378). -/

namespace Sys2Proof.Machine

/-! ## Bring-up (R356) -/

/-- A spare cluster takes the coordinate of a retired one, or the die has one active cluster fewer (R261). -/
def State.retireCluster (s : State) (c : Nat) : State :=
  let d := c / 68
  let coord := (s.cluster c).coord
  let spares := s.dspc.get d 4
  let site := (List.range 4).map (fun i => 68 * d + 64 + i) |>.find? fun x =>
    decide ((s.cluster x).coord = 0) && (List.range 17).all fun u => !(s.tile (17 * x + u)).retired
  let s := s.updCluster c fun C => { C with coord := 0 }
  match site with
  | some x =>
    if spares = 0 then { s.report (.clusterLost d) with dact := s.dact.set d 64 (s.dact.get d 64 - 1) }
    else { s.updCluster x fun C => { C with coord := coord } with dspc := s.dspc.set d 4 (spares - 1) }
  | none => { s.report (.clusterLost d) with dact := s.dact.set d 64 (s.dact.get d 64 - 1) }

/-- A compute tile whose self-test fails is retired: the spare of its cluster takes its place, or, with the spare in use or bad, the
cluster is retired (R261, R356). -/
def State.failTest (s : State) (t : Nat) : State :=
  let c := clusterOf t
  let s := s.updTile t fun T => { T with retired := true }
  let C := s.cluster c
  match (List.range 16).find? fun m => decide (C.unitOf.get m m = t % 17) with
  | none => s.updCluster c fun C => { C with spare := false }
  | some m =>
    if C.spare then
      s.updCluster c fun C => { C with unitOf := C.unitOf.insert m 16, inuse := true, spare := false, member := BitVec.ofNat 4 m }
    else if C.coord = 0 then s
    else s.retireCluster c

/-- The tile self-test of bring-up (R356): tiles that fail, then faulty lanes of vector units (R233). -/
def State.selfTest (s : State) (failing : List Nat) (lanes : List (Nat × Nat)) : State :=
  let failing := failing.filter fun t => decide (t < 4624)
  let s := failing.foldl State.failTest s
  (lanes.filter fun l => decide (l.1 < 4624)).foldl (fun (s : State) l =>
    let s := s.updTile l.1 fun T => T.mapLane (2, l.2)
    if (s.tile l.1).retired && !failing.contains l.1 then s.failTest l.1 else s) s

/-- PACKAGE_RESET (R356): the machine at package reset, then the five steps of bring-up, with the package id that system software assigns
at it (R393); what the agenda still holds follows. DESIGN CHOICE, log 83. -/
def execPackageReset (boot : Bringup) (entry : Pc) (s : State) : Host.Outcome State Fault Refusal :=
  let k : Pkg := { pkgid := boot.pkgid, up := true, image := boot.image, entry := entry }
  .next (State.selfTest { State.reset with
    agenda := s.agenda, fresh := s.fresh, pkg := k, tiles := (List.range 16).map fun i => (4624 + i, bootTile k) } boot.failing boot.lanes)

/-! ## Partition reset (R353, R354, R357, R372, R378, R381) -/

/-- Ends a gang for a reset of its partition: a decision already broadcast is applied at every tile first; a started job
completes as TORN_DOWN, one that the fabric holds stopped (R392) among them, and one in the Barn as CANCELLED. -/
def State.endTorn (s : State) (id : Nat) : State :=
  let s := match s.gang id with | some g => g.todo.foldl (fun (s : State) t => s.decideTile t) s | none => s
  match s.gang id with
  | none => s
  | some g =>
    match g.state with
    | .stopped => if s.disp.done.any fun d => decide (d.gang.toNat = id) then s else s.endGang id g 5 0 (s.gangStep g)
    | .running =>
      let s := g.place.foldl (fun (s : State) t => s.dropTraffic t) (s.abortGang id g)
      s.endGang id g 5 0 (s.tile (g.place.headD 0)).ctl.sstep
    | _ => s.endGang id g 3 0 g.savedStep

/-- Ends a gang so, and frees its plot state (R333). -/
def State.tearGang (s : State) (id : Nat) : State := (s.endTorn id).updGang id fun g => { g with plots := [], observed := [] }

/-- A tile of the partition's clusters after its reset: nothing stays but its reliability state and the contexts of other
partitions. -/
def Tile.wipe (T : Tile) (foreign : SMap BarnRec) : Tile :=
  let segs := foreign.foldl (fun (m : BitVec 14) kr => m ||| kr.2.segmask) 0
  let k := segWords segs
  let m := T.mem
  { chkstat := T.chkstat, retired := T.retired, barn := foreign
    mem := { m with
      bytes := m.bytes.filter fun c => segs.getLsbD (c.1 / 0x4000)
      lineMap := m.lineMap.filter fun kv => segs.getLsbD (kv.1 / 128)
      deltas := [], poison := m.poison &&& k, full := m.full &&& k, stale := m.stale &&& k }
    code := T.code.filter fun c => foreign.any fun kr => decide (64 * kr.2.cbase ≤ c.1) && decide (c.1 < 64 * (kr.2.cbase + kr.2.clines)) }

/-- A tile on which another partition's gang runs: what a partition's own contexts in its Barn slots hold there goes. -/
def Tile.wipeBarn (T : Tile) (own kept : SMap BarnRec) : Tile :=
  let segs := own.foldl (fun (m : BitVec 14) kr => m ||| kr.2.segmask) 0
  let k := ~~~(segWords segs)
  let m := T.mem
  { T with
    barn := kept
    mem := { m with
      bytes := m.bytes.filter fun c => !segs.getLsbD (c.1 / 0x4000)
      lineMap := m.lineMap.filter fun kv => !segs.getLsbD (kv.1 / 128)
      poison := m.poison &&& k, full := m.full &&& k, stale := m.stale &&& k }
    code := T.code.filter fun c => !own.any fun kr => decide (64 * kr.2.cbase ≤ c.1) && decide (c.1 < 64 * (kr.2.cbase + kr.2.clines)) }

/-- Wipes tile t for a reset of partition p; what another partition has there stays. -/
def State.wipeTile (s : State) (p t : Nat) : State :=
  let other (id : Nat) : Bool := match s.gang id with | some g => decide (g.part ≠ p) | none => false
  s.updTile t fun T =>
    let kept := T.barn.filter fun kr => other kr.2.gang
    if other T.gang then T.wipeBarn (T.barn.filter fun kr => !other kr.2.gang) kept else T.wipe kept

/-- Cancels launches of a partition, by the addresses of their blocks (R372, R378). -/
def State.cancelLaunches (s : State) (p : Nat) (blocks : List Word) : State :=
  blocks.foldl (fun s b => s.endUnstarted p (some (s.blockWords p b)) 3 none) s

/-- Cancels the launches of a partition that wait for a slot, and its selected job; its queues lose their slots, and what the IO die
holds for them goes (R378, R381). -/
def State.cancelJobs (s : State) (p : Nat) : State :=
  let picked := match s.disp.job with
    | some j => if j.part = p then some j else none
    | none => none
  let s := s.cancelLaunches p (s.disp.launches.flatMap fun kl => (kl.2.filter fun l => decide (l.2 = p)).map (·.1))
  let s := match picked with
    | some j => (match j.src with | .cont _ => s | _ => s.endUnstarted p (j.block.map (s.blockWords p)) 3 j.queue)
    | none => s
  let s := (s.disp.slots.filter fun kx => decide (kx.2.part = p)).foldl (fun (s : State) kx => s.unmapSlot kx.1 kx.2) s
  let launches := (s.disp.launches.map fun kl => (kl.1, kl.2.filter fun l => decide (l.2 ≠ p))).filter fun kl => !kl.2.isEmpty
  { s with disp := { s.disp with
      launches := launches, job := if picked.isSome then none else s.disp.job
      jobFault := if picked.isSome then false else s.disp.jobFault, jobFailed := if picked.isSome then false else s.disp.jobFailed
      held := s.disp.held.filter fun h => decide (h.part ≠ p) } }

/-- The launches of a gang that a decision already broadcast will submit: a COMMIT or a PREEMPT that no tile has applied (R371). -/
def Gang.submits (g : Gang) : List PendLaunch :=
  match g.verdict with
  | some d => if d.vote = 1 ∨ d.vote = 3 then [] else sortBy PendLaunch.before g.launches
  | none => []

/-- Ends every gang of some ids for a reset of partition p: what their decisions submit meets the reset and is cancelled (R372). -/
def State.tearGangs (s : State) (p : Nat) (ids : List Nat) : State :=
  let met := ids.flatMap fun id => match s.gang id with | some g => g.submits.map (·.block) | none => []
  let s := ids.foldl (fun (s : State) id => s.updGang id fun g => { g with launches := [] }) s
  (ids.foldl State.tearGang s).cancelLaunches p met

/-- A partition reset (R353): dispatch stops, every gang of the partition ends, and its clusters, Barn slots, doorbells and
pending bits are cleared. The key slot stays (R354). DESIGN CHOICE, log 20. -/
def State.resetPartition (s : State) (p : Nat) : State :=
  let ids := (s.gangs.filter fun gG => decide (gG.2.part = p)).map (·.1)
  let s := (s.tearGangs p ids).cancelJobs p
  let clusters := s.owned p ++ (s.gangs.filter fun gG => decide (gG.2.part = p)).flatMap fun gG => gG.2.clusterKeys
  let s := clusters.eraseDups.foldl (fun s c =>
    ((List.range 17).foldl (fun s u => s.wipeTile p (17 * c + u)) s).updCluster c fun C =>
      if (List.range 17).all fun u => decide ((s.tile (17 * c + u)).gang = 0) || ids.contains (s.tile (17 * c + u)).gang then C.disarm
      else C) s
  let s := s.updPart p fun q => { q with qpending := 0, bells := [], resid := false, saved := false }
  State.settlePubs s.pubs.length s

/-- PARTID_RST (R346, R353): the reset that a write of PARTID.RST has asked for. DESIGN CHOICE, log 30. -/
def execPartidRst (s : State) : Host.Outcome State Fault Refusal :=
  match s.pkg.rst with
  | [] => .next s
  | p :: rest => .next (State.resetPartition { s with pkg := { s.pkg with rst := rest } } p)

/-- FUNCTION_LEVEL_RESET (R350). -/
def execFunctionLevelReset (part : Nat) (s : State) : Host.Outcome State Fault Refusal := .next (s.resetPartition part)

/-- HOST_LINK_UNCORRECTABLE (R352). -/
def execHostLinkUncorrectable (part : Nat) (s : State) : Host.Outcome State Fault Refusal := .next (s.resetPartition part)

/-- TEARDOWN (R378). -/
def execTeardown (g : Guard) (d a : SReg) (s : State) : Host.Outcome State Fault Refusal :=
  s.issue { head := 0xFA01, guard := g, priv := 3 } fun _ _ s =>
    let p := bitsOf (s.me.rd a) 0 6
    if s.me.tag a then .trap 0x09 (a.setWidth 64)
    else (s.resetPartition p).answerMe d (if s.ownsCluster p then 0 else 1)

/-! ## Keys and alarms (R346-R349) -/

/-- The number of a trigger, in the order of ALARMCFG.POL. -/
def triggerIndex : Trigger → Nat
  | .glitch => 0 | .mesh => 1 | .debug => 2 | .misuse => 3

/-- ALARMSTAT after a trigger. -/
def Pkg.noteAlarm (k : Pkg) (t : Trigger) (part : Option Nat) : Pkg :=
  { k with
    seen := withBit k.seen (triggerIndex t) true, alarms := if k.alarms = 65535 then k.alarms else k.alarms + 1
    lpart := match t, part with | .misuse, some p => BitVec.ofNat 6 p | _, _ => k.lpart }

/-- Erases a key slot (R348). -/
def State.eraseKey (s : State) (p : Nat) : State := s.updPart p fun q => { q with key := none }

/-- Policy 2 of R349. -/
def State.eraseAll (s : State) : State :=
  let s := (List.range 64).foldl (fun (s : State) p => (s.eraseKey p).resetPartition p) s
  ({ s with pkg := { s.pkg with allErased := true } } : State).report .allKeysErased

/-- An alarm acts by its trigger's policy (R349). DEDUCED, log 84. -/
def State.raiseAlarm (s : State) (t : Trigger) (part : Option Nat) : State :=
  let policy := bitsOf s.pkg.alarmcfg (2 * triggerIndex t) 2
  let s := { s with pkg := s.pkg.noteAlarm t part }
  let target := match t with | .glitch => none | .mesh => none | _ => part
  if policy = 0 then s
  else match (if policy = 1 then target else none) with
  | some p => (s.eraseKey p).resetPartition p
  | none => s.eraseAll

/-- ALARM (R349). -/
def execAlarm (t : Trigger) (part : Option Nat) (s : State) : Host.Outcome State Fault Refusal := .next (s.raiseAlarm t part)

/-- KEYSLOT_LOAD (R347): a LOAD into a slot that holds a key is key misuse. -/
def execKeyslotLoad (s : State) : Host.Outcome State Fault Refusal :=
  match s.pkg.load with
  | [] => .next s
  | (p, kaddr) :: rest =>
    let s : State := { s with pkg := { s.pkg with load := rest } }
    if (s.part p).key.isSome then .next (s.raiseAlarm .misuse (some p))
    else
      let a := 64 * kaddr
      let k := s.unit a
      let s := s.updPart p fun q => { q with key := some k }
      .next ((List.range 8).foldl (fun s i => s.setRawWord (a + 8 * i) 0) s)

/-- KEYSLOT_ERASE (R348). -/
def execKeyslotErase (s : State) : Host.Outcome State Fault Refusal :=
  match s.pkg.erase with
  | [] => .next s
  | p :: rest => .next (State.eraseKey { s with pkg := { s.pkg with erase := rest } } p)

/-! ## Host link (R350) -/

/-- HOST_WAKE (R350): the id stands in the wake register of the partition's virtual function, which holds one. DEDUCED, log 85. -/
def execHostWake (part gang : Nat) (s : State) : Host.Outcome State Fault Refusal :=
  .next (s.updPart part fun q => { q with wakes := [gang] })

/-- HOST_MEMORY_WRITE (R350): only plain HBM pages of the partition's domains take it; another is a completer abort.
DESIGN CHOICE, log 86. -/
def execHostMemoryWrite (part : Nat) (va : Word) (data : List Byte) (s : State) : Host.Outcome State Fault Refusal :=
  match s.pages part 0 (pagesOf va.toNat data.length) with
  | .beyond a => .fault (.noSuchTierAddress a)
  | .ok ps =>
    if !(ps.all fun q => s.plainPage part q.e) then .next (s.report (.hostAbort part va))
    else if ps.any s.frozenPage then .next s
    else
      let as := (List.range data.length).map (va.toNat + ·)
      let bs := (as.zip data).map fun ab => (physIn ps ab.1, ab.2, false)
      .next ((s.writeBytesAs part bs).observe part (Seen.plain 0 va.toNat data.length (as.map (physIn ps))))
  | _ => .next (s.report (.hostAbort part va))

/-! ## Page-fault answers (R290, R369, R371) -/

/-- The strands held by a LAUNCH whose read faulted, by tile and strand. -/
def State.launchHolds (s : State) : List (Nat × Nat) :=
  s.tiles.flatMap fun tT => tT.2.strands.filterMap fun kx => match kx.2.hold with | .launch _ => some (tT.1, kx.1) | _ => none

/-- PAGE_FAULT_ANSWER (R290): what waits is numbered: memory requests, then atomics, then LAUNCHes, then the selected job. -/
def execPageFaultAnswer (n : Nat) (resolved : Bool) (s : State) : Host.Outcome State Fault Refusal :=
  let a := s.reqs.length
  let b := a + s.amos.length
  let c := b + s.launchHolds.length
  if n < a then
    match s.reqs[n]? with
    | some r => .next (if r.suspended then s.answerReq n r resolved else s)
    | none => .next s
  else if n < b then
    match s.amos[n - a]? with
    | some m => .next (if m.suspended then s.answerAtomic (n - a) m resolved else s)
    | none => .next s
  else if n < c then
    match s.launchHolds[n - b]? with
    | some (t, k) => .next (s.answerLaunch t k resolved)
    | none => .next s
  else if s.disp.jobFault then .next { s with disp := { s.disp with jobFault := false, jobFailed := !resolved } }
  else .next s

/-! ## Spare tiles and spare clusters (R259-R261) -/

/-- The spare as the remap leaves it: the member's code, committed image, control context and messages; words that the failed tile
cannot read poisoned; S segments stale. -/
def Tile.remapped (T spare : Tile) (lost : List Nat) : Tile :=
  let k := T.staleMask []
  let m := T.mem
  let lost := lost.filter fun a => decide (0x8000 ≤ a) && decide (a < 0x40000)
  { T with
    chkstat := spare.chkstat, retired := false, persist := [], twice := []
    mem := { m with
      stale := m.stale ||| k, full := m.full &&& ~~~k
      poison := lost.foldl (fun (p : BitVec 28672) a => withBit p (m.physOf a / 8) true) m.poison } }

/-- The spare of a cluster takes a member's place (R260). DEDUCED, log 87. -/
def State.remapTile (s : State) (c m : Nat) (lost : List Nat) : State :=
  let C := s.cluster c
  let old := 17 * c + C.unitOf.get m m
  let new := 17 * c + 16
  let T := s.tile old
  let s := s.setTile new (T.remapped (s.tile new) lost)
  let s := s.setTile old { retired := true }
  let s := s.updCluster c fun C => { C with
    unitOf := C.unitOf.insert m 16, inuse := true, spare := false, member := BitVec.ofNat 4 m, req := false }
  { s with gangs := s.gangs.map fun gG => (gG.1, { gG.2 with place := gG.2.place.map fun t => if t = old then new else t }) }

/-- No attempt of a step runs on a tile: it has no gang, its gang does not run, or the last decision has just been applied. -/
def State.between (s : State) (t : Nat) : Bool :=
  match s.gangOf t with
  | none => true
  | some g =>
    decide (g.state ≠ .running) || ((match (s.tile t).seq.phase with | .start => true | .halted => true | _ => false) && g.todo.isEmpty)

/-- A gang runs on a cluster. -/
def State.clusterRuns (s : State) (c : Nat) : Bool :=
  (List.range 17).any fun u => match s.gangOf (17 * c + u) with | some g => decide (g.state = .running) | none => false

/-- SPARE_REMAP (R260, R261): the remap that REQ asks for, after the decision that follows it; in a cluster whose spare is in use and
that no gang holds, a further retired tile retires the whole cluster. -/
def execSpareRemap (site : RemapSite) (s : State) : Host.Outcome State Fault Refusal :=
  let c := site.cluster
  let C := s.cluster c
  let free := (List.range 17).all fun u => s.between (17 * c + u)
  let empty := (List.range 17).all fun u => decide ((s.tile (17 * c + u)).gang = 0) && (s.tile (17 * c + u)).barn.isEmpty
  let broken := (List.range 17).any fun u => (s.tile (17 * c + u)).retired && C.stands u
  if C.req ∧ C.spare ∧ free ∧ (C.due ∨ !s.clusterRuns c) then .next (s.remapTile c C.newm.toNat site.lost)
  else if C.inuse ∧ broken ∧ empty ∧ C.coord ≠ 0 then .next (s.retireCluster c)
  else .next s

/-- The steward asks for the remap of a member (R259): a write of REQ with NEWM to the cluster's SPARESTAT. DESIGN CHOICE, log 54. -/
def State.requestRemap (s : State) (cluster member : Nat) : State :=
  let C := s.cluster cluster
  if C.inuse ∨ !C.spare then s
  else s.updCluster cluster fun C => { C with req := true, due := false, newm := BitVec.ofNat 4 member }

/-! ## Warnings and temperature (R301, R304, R351, R355) -/

/-- A checkpoint of a partition is requested: each of its running gangs has a pre-emption request (R19, R355), and the counts since its
last checkpoint start anew. -/
def State.checkpoint (s : State) (p : Nat) : State :=
  { s with
    gangs := s.gangs.map fun gG =>
      (gG.1, if gG.2.part = p ∧ gG.2.state = .running then { gG.2 with preempt := true } else gG.2)
    eccStacks := s.eccStacks.filter fun kn => decide (kn.1 % 64 ≠ p), eccChannels := s.eccChannels.filter fun kn => decide (kn.1 % 64 ≠ p) }

/-- A checkpoint of every partition: memory's warnings do not name one. DESIGN CHOICE, log 109. -/
def State.checkpointAll (s : State) : State := (List.range 64).foldl State.checkpoint s

/-- A tile's RETRY reaches 16, or its SECC 256 (R355). -/
def Tile.warns (old new : Tile) : Bool :=
  (decide (bitsOf old.chkstat 0 16 < 16) && decide (16 ≤ bitsOf new.chkstat 0 16)) ||
    (decide (bitsOf old.chkstat 16 16 < 256) && decide (256 ≤ bitsOf new.chkstat 16 16))

/-- The warnings that a turn has brought about on tiles. -/
def State.warned (old new : State) : State :=
  new.tiles.foldl (fun (s : State) kT => if Tile.warns (old.tile kT.1) kT.2 then s.checkpoint (new.partOf kT.1) else s) new

/-- A correctable error counts toward a checkpoint of each partition, at 64 since the partition's last one: `get` and `put` are the count
of partition p. -/
def State.countTo64 (s : State) (get : State → Nat → Nat) (put : State → Nat → Nat → State) : State :=
  (List.range 64).foldl (fun (s : State) p => if get s p + 1 < 64 then put s p (get s p + 1) else s.checkpoint p) s

/-- A correctable error in a row of HBM: 2 in one row, or 64 on the stack since the last checkpoint (R301, R355). -/
def State.rowError (s : State) (stack row : Nat) : State :=
  let k := 8 * row + stack
  let n := s.eccRows.get k 0 + 1
  let s := { s with eccRows := s.eccRows.set k 0 n }
  let s := if n = 2 then s.checkpointAll else s
  s.countTo64 (fun s p => s.eccStacks.get (64 * stack + p) 0)
    fun s p n => { s with eccStacks := s.eccStacks.set (64 * stack + p) 0 n }

/-- A correctable error on a channel of the second tier: 64 since the last checkpoint (R351, R355). -/
def State.channelError (s : State) (channel : Nat) : State :=
  s.countTo64 (fun s p => s.eccChannels.get (64 * channel + p) 0)
    fun s p n => { s with eccChannels := s.eccChannels.set (64 * channel + p) 0 n }

/-- What waits at a frozen stack: the n-th request, the n-th atomic, the LAUNCH of a strand (R304). -/
inductive Waiter where
  | request (n : Nat)
  | atomic (n : Nat)
  | launch (t k : Nat)
deriving DecidableEq, Repr

/-- The strands whose LAUNCH waits at a frozen stack, with their places. -/
def State.launchWaiters (s : State) : List (Nat × Waiter) :=
  s.tiles.flatMap fun tT => tT.2.strands.filterMap fun kx =>
    match kx.2.hold with | .launchFrozen _ _ w => some (w, Waiter.launch tT.1 kx.1) | _ => none

/-- What waits at a frozen stack, with its places in the order of arrival (R304). -/
def State.waitingAll (s : State) : List (Nat × Waiter) :=
  (((List.range s.reqs.length).zip s.reqs).filterMap fun ir => ir.2.frozen.map fun w => (w, Waiter.request ir.1)) ++
    (((List.range s.amos.length).zip s.amos).filterMap fun ia => ia.2.frozen.map fun w => (w, Waiter.atomic ia.1)) ++ s.launchWaiters

/-- The first of them whose place is below a bound. -/
def State.waitingFirst (s : State) (bound : Nat) : Option Waiter :=
  ((sortBy (fun a b => decide (a.1 ≤ b.1)) (s.waitingAll.filter fun x => decide (x.1 < bound))).head?).map (·.2)

/-- A waiter is served; it has its place no longer. -/
def State.serveWaiter (s : State) : Waiter → Host.Outcome State Fault Refusal
  | .request n =>
    (match s.reqs[n]? with | some r => State.serve { s with reqs := s.reqs.set n { r with frozen := none } } n none | none => .next s)
  | .atomic n =>
    (match s.amos[n]? with | some a => execAtomicPerform n { s with amos := s.amos.set n { a with frozen := none } } | none => .next s)
  | .launch t k => s.serveLaunch t k

/-- Serves the waiting accesses whose places are below a bound, in their order; one that another frozen stack holds waits there again. -/
def State.serveWaiting (bound : Nat) : Nat → State → Host.Outcome State Fault Refusal
  | 0, s => .next s
  | fuel + 1, s =>
    match s.waitingFirst bound with
    | none => .next s
    | some a =>
      match s.serveWaiter a with
      | .next s => State.serveWaiting bound fuel s
      | .fault f => .fault f
      | .refused r => .refused r

/-- STACK_COOLED (R304): below the threshold of THERMSTAT the stack leaves self-refresh, and what waits is served in its order of
arrival. -/
def execStackCooled (stack : Nat) (celsius : BitVec 8) (s : State) : Host.Outcome State Fault Refusal :=
  let s := s.stackTemp stack celsius
  if 85 ≤ celsius.toNat then .next s
  else State.serveWaiting s.waits s.waitingAll.length { s with pkg := { s.pkg with frozen := withBit s.pkg.frozen stack false } }

end Sys2Proof.Machine
end

