-- ==== Sys2Proof/Machine/Fabric.lean ====
section
/-! DEFINITION. The fabric: collectives, the rank map, Eweit ports, links that leave service or are trained anew, and what other packages
send here (R284, R353, R389-R393, R396-R400). -/

namespace Sys2Proof.Machine

/-! ## COLL (R397, R398) -/

/-- LEN of a collective word. -/
def collLen (w : Word) : Nat := bitsOf w 0 18
/-- KIND of a collective word. -/
def collKind (w : Word) : Nat := bitsOf w 18 3
/-- ROOT of a collective word. -/
def collRoot (w : Word) : Nat := bitsOf w 32 10

/-- Check 3 of R397 for a gang of some ranks. -/
def badColl (w : Word) (ranks : Nat) : Bool :=
  decide (bitsOf w 21 11 ≠ 0) || decide (bitsOf w 42 22 ≠ 0) || decide (5 < collKind w) || (decide (collKind w ≠ 4) && decide (collRoot w ≠ 0)) ||
    decide (collLen w < 8) || decide (65536 < collLen w) || decide (collLen w % 8 ≠ 0) || decide (ranks ≤ collRoot w)

/-- Bytes of a collective's result. -/
def collOut (w : Word) (ranks : Nat) : Nat := if collKind w = 5 then ranks * collLen w else collLen w

/-- COLL (R397). -/
def execColl (g : Guard) (x y z : SReg) (sy : Sync) (s : State) : Host.Outcome State Fault Refusal :=
  s.issue { head := 0xFB10, guard := g, sync := sy, sigNow := false } fun _ _ s =>
    let m := s.me
    let t := s.curTile
    let T := s.myTile
    let src := m.rd x
    let dst := m.rd y
    let w := m.rd z
    let ranks := match s.gangOf t with | some G => G.ranks | none => 1
    if isSteward t then .trap 0x06 0
    else match m.lowPoison [x, y, z] with
    | some r => .trap 0x09 (r.setWidth 64)
    | none =>
      if src.toNat % 8 ≠ 0 then .trap 0x05 src
      else if dst.toNat % 8 ≠ 0 then .trap 0x05 dst
      else if badColl w ranks then .trap 0x06 w
      else if !T.rangeIs Region.vs src.toNat (collLen w) then .trap 0x06 src
      else if !T.rangeIs Region.vs dst.toNat (collOut w ranks) then .trap 0x06 dst
      else
        .done ((s.updMe fun x => { x with collCount := x.collCount + 1 }).updMyTile fun T =>
          { T with colls := T.colls ++ [⟨src.toNat, dst.toNat, w, sy, s.curStrand, m.routine, m.collCount⟩] })

/-- One rank's part of a collective: its collective word and its source words with their poison. -/
structure CollPart where
  word : Word
  words : List (Word × Bool)
deriving DecidableEq, Repr

/-- The FP32 tree of R123 over some leaves, RNE. -/
def fp32Tree (vs : List Word) : Word :=
  let ps : List RedPart := ((List.range vs.length).zip vs).map fun iv => ⟨0, iv.1, some (sheafLeaf 6 iv.2)⟩
  match mergeParts 6 vs.length (2 * vs.length + 64) ps with
  | p :: _ => p.value.getD 0
  | [] => 0

/-- The result of an op over the ranks' doublewords at one place (R398). -/
def collWord (kind : Nat) (vs : List Word) : Word :=
  if kind = 1 then
    let half (i : Nat) : Word := fp32Tree (vs.map fun v => BitVec.ofNat 64 (bitsOf v (32 * i) 32))
    half 0 ||| half 1 <<< 32
  else
    let rop : BitVec 4 := if kind = 0 then 1 else if kind = 2 then 2 else 3
    match vs with
    | [] => 0
    | v :: rest => rest.foldl (sheafNode rop) v

/-- The result words of a collective, each with its poison (R398). -/
def collResult (w : Word) (parts : List (List (Word × Bool))) : List (Word × Bool) :=
  let at_ (i : Nat) : List (Word × Bool) := parts.map fun p => p.getD i (0, false)
  match collKind w with
  | 4 => parts.getD (collRoot w) []
  | 5 => parts.flatten
  | k => (List.range (collLen w / 8)).map fun i => (collWord k ((at_ i).map (·.1)), (at_ i).any (·.2))

/-- What another package's tile contributes belongs to this collective: the k-th COLL of the same routine (R398). -/
def joins (o : ExtColl) (c : Coll) : Bool := decide (o.routine = c.routine) && decide (o.k = c.k)

/-- The part of rank q: this tile's own, or what the tile of another package has contributed to this collective. DEDUCED, log 90. -/
def State.collPart (s : State) (t : Nat) (c : Coll) (own q : Nat) (others : List ExtColl) : Option CollPart :=
  if q = own then some ⟨c.word, (s.tile t).readWords c.src (collLen c.word / 8)⟩
  else (others.find? fun o => decide (o.rank = q) && joins o c).map fun o =>
    ⟨o.word, ((List.range o.words.length).zip o.words).map fun iv => (iv.2, o.poison.testBit iv.1)⟩

/-- The n-th COLL of a tile leaves its engines. -/
def State.endColl (s : State) (t n : Nat) : State := s.updTile t fun T => { T with colls := T.colls.eraseIdx n }

/-- COLL_COMPLETE (R398): once every rank of the set has issued, the result is written and the signal delivered; collective
words that differ make the tile vote HALT. -/
def execCollComplete (t n : Nat) (others : List ExtColl) (s : State) : Host.Outcome State Fault Refusal :=
  match (s.tile t).colls[n]?, s.gangOf t with
  | some c, some g =>
    let parts := (List.range g.ranks).filterMap fun q => s.collPart t c g.rank q others
    if parts.length ≠ g.ranks ∨ !s.sourceReady t c.strand c.src (collLen c.word) then .next s
    else if parts.any (fun p => decide (p.word ≠ c.word)) then .next ((s.endColl t n).raiseVote t 3 0x06)
    else match s.wakeFor t c.src (collLen c.word), s.wakeFor t c.dst (collOut c.word g.ranks) with
    | some s', _ => .next s'
    | none, some s' => .next s'
    | none, none =>
      match (s.tile t).writeWords false c.dst (collResult c.word (parts.map (·.words))) with
      | none => .next ((s.endColl t n).failTile t 1 0x0B)
      | some w => .next ((((s.setTile t w.tile).noteConflict t w.conflict).endColl t n).engineSignal t c.sy)
  | _, _ => .next s

/-! ## RANKMAP (R396) -/

/-- A package can be reached: it is this one, or a port is in service and a route of the fabric leads to it (R392). DESIGN CHOICE, log 88. -/
def State.reachable (s : State) (pkg : BitVec 16) : Bool :=
  decide (pkg = s.pkg.pkgid) || (!s.cutOff.contains pkg && (List.range 64).any fun i => (s.ports.get i {}).inService)

/-- A gang of the partition that is not in the Barn uses a rank. DEDUCED, log 88. -/
def State.rankUsed (s : State) (p rank : Nat) : Bool :=
  s.gangs.any fun gG =>
    decide (gG.2.part = p) && decide (gG.2.ranks ≠ 1) && decide (rank < gG.2.ranks) && decide (gG.2.state ≠ .inBarn)

/-- Writes or erases an entry of a partition's rank map (R396). -/
def State.bindRank (s : State) (p rank : Nat) (entry : Option (BitVec 16 × BitVec 16 × BitVec 48)) : State :=
  s.updPart p fun q => { q with ranks := match entry with | some e => q.ranks.insert rank e | none => SMap.erase q.ranks rank }

/-- RANKMAP (R396). -/
def execRankmap (g : Guard) (d a b : SReg) (s : State) : Host.Outcome State Fault Refusal :=
  s.issue { head := 0xFA11, guard := g, priv := 3 } fun _ _ s =>
    let x := s.me
    let v := x.rd a
    let w := x.rd b
    let p := s.pkg.partid.toNat
    let rank := bitsOf v 0 10
    let mirror : BitVec 48 := BitVec.ofNat 48 (bitsOf v 16 48)
    let pkg : BitVec 16 := w.setWidth 16
    let buddy : BitVec 16 := BitVec.ofNat 16 (bitsOf w 16 16)
    match x.lowPoison [a, b] with
    | some r => .trap 0x09 (r.setWidth 64)
    | none =>
      if bitsOf v 10 6 ≠ 0 ∨ bitsOf w 32 32 ≠ 0 ∨ (buddy = pkg ∧ mirror ≠ 0) then .trap 0x06 v
      else if s.rankUsed p rank then s.answerMe d 1
      else if pkg ≠ 0xFFFF ∧ !s.reachable pkg then s.answerMe d 2
      else
        (s.bindRank p rank (if pkg = 0xFFFF then none else some (pkg, buddy, mirror))).answerMe d 0

/-! ## Eweit ports (R389, R391, R392) -/

/-- An Eweit port. -/
def State.port (s : State) (i : Nat) : Port := s.ports.get i {}

/-- Changes a port. -/
def State.updPort (s : State) (i : Nat) (f : Port → Port) : State := { s with ports := s.ports.set i {} (f (s.port i)) }

/-- The port keeps a flit of that number, until it is acknowledged (R389). -/
def Port.retains (x : Port) (seq : BitVec 12) : Bool := x.retained.any fun f => decide (f.1 = seq)

/-- A port in service sends its next flit on a lane that the receiver has not stopped, and keeps it until it is acknowledged (R389, R391). -/
def Port.send (x : Port) (lane : BitVec 2) : Port :=
  if x.inService && !x.stopped.getLsbD lane.toNat then { x with retained := x.retained ++ [(x.next, lane)], next := x.next + 1 } else x

/-- The port drops the flits up to the one acknowledged; a resend among them has succeeded (R389). -/
def Port.acknowledge (x : Port) (seq : BitVec 12) : Port :=
  if !x.retains seq then x
  else
    let n := (x.retained.takeWhile fun f => decide (f.1 ≠ seq)).length + 1
    { x with retained := x.retained.drop n, resends := if (x.retained.take n).any fun f => decide (f.1 = x.resendSeq) then 0 else x.resends }

/-- A port leaves service (R392): the flits of SHEAF that it retains are lost, and those of the adaptive lanes wait for another route. -/
def Port.fail (x : Port) : Port := { x with inService := false, retained := x.retained.filter fun f => decide (f.2 ≠ 0) }

/-- The port receives a flit (R389): it takes the one expected next; for another, or an uncorrectable one, it requests a resend from the
number expected, once, and again when the resend fails. The link leaves service when a third resend in succession fails. DEDUCED, log 19. -/
def Port.receive (x : Port) (seq : BitVec 12) (bad : Bool) : Port :=
  if !x.inService then x
  else if seq = x.expected ∧ bad = false then { x with expected := x.expected + 1, asked := 0 }
  else if x.asked = 0 then { x with asked := 1 }
  else if seq = x.expected then (if x.asked < 3 then { x with asked := x.asked + 1 } else ({ x with asked := x.asked + 1 } : Port).fail)
  else x

/-- RESEND_REQUEST (R389): a link whose resend of one flit has failed three times in succession leaves service; a request for a flit that
the port does not keep asks for nothing. DEDUCED, log 19. -/
def execResendRequest (port : Nat) (seq : BitVec 12) (s : State) : Host.Outcome State Fault Refusal :=
  .next (s.updPort port fun x =>
    let n := if x.resends ≠ 0 ∧ x.resendSeq = seq then x.resends + 1 else 1
    let y : Port := { x with resends := n, resendSeq := seq }
    if !x.retains seq then x else if n ≤ 3 then y else y.fail)

/-- The oldest flit that a port out of service retains goes another way, by a port in service whose lane is not stopped; SHEAF has no
second route, and its flits are gone (R392). -/
def State.rerouteFlit (s : State) (port other : Nat) : State :=
  let x := s.port port
  let y := s.port other
  match x.retained with
  | [] => s
  | f :: rest =>
    if x.inService || !y.inService || y.stopped.getLsbD f.2.toNat then s
    else (s.updPort port fun x => { x with retained := rest }).updPort other fun y => y.send f.2

/-- LANE_STOP (R391). -/
def execLaneStop (port : Nat) (lane : BitVec 2) (s : State) : Host.Outcome State Fault Refusal :=
  .next (s.updPort port fun x => { x with stopped := withBit x.stopped lane.toNat true })

/-- LANE_GO (R391). -/
def execLaneGo (port : Nat) (lane : BitVec 2) (s : State) : Host.Outcome State Fault Refusal :=
  .next (s.updPort port fun x => { x with stopped := withBit x.stopped lane.toNat false })

/-! ## Links that leave service, or are trained anew (R284, R353, R392) -/

/-- SHEAF and COMMIT traffic of a gang's tiles that is under way is lost (R283, R284). -/
def State.loseTraffic (s : State) (id : Nat) (g : Gang) : State :=
  { s with
    sends := s.sends.filter fun f => f.landed || !s.inGang id f.src
    amodNet := s.amodNet.filter fun f => f.landed || !s.inGang id f.src
    msgs := s.msgs.filter fun m => m.msg.desc.getLsbD 2 || !s.inGang id m.src
    chains := s.chains.filter fun m => !g.clusterKeys.contains m.srcCluster
    gangs := s.gangs.insert id { g with up := [], linkFail := true } }

/-- A running gang whose traffic must cross a link that is out of service: it stops at its next decision, and the steward is told (R284).
DEDUCED, log 64. -/
def State.stopByLink (s : State) (id : Nat) : State :=
  match s.gang id with
  | none => s
  | some g => if g.state = .running then (s.loseTraffic id g).report (.linkFail id) else s

/-- NOC_LINK_FAIL (R284): the link leaves service; `gangs` are those with SHEAF or COMMIT traffic that must cross it. -/
def execNocLinkFail (link : Nat) (gangs : List Nat) (s : State) : Host.Outcome State Fault Refusal :=
  .next (gangs.foldl State.stopByLink { s with nocOut := if s.nocOut.contains link then s.nocOut else s.nocOut ++ [link] })

/-- LINK_RESET (R353): a NoC link, or an Eweit port, is trained anew; adaptive traffic has gone round it, and SHEAF and COMMIT traffic that
must cross it meanwhile is lost as R284 says. DESIGN CHOICE, log 110. -/
def execLinkReset (link : LinkRef) (s : State) : Host.Outcome State Fault Refusal :=
  let s : State :=
    if link.noc then { s with nocOut := s.nocOut.filter (· ≠ link.index) } else s.updPort link.index fun _ => {}
  .next (link.gangs.foldl State.stopByLink s)

/-- This package's part of a gang whose root cannot be reached: the attempt is discarded as at an ABORT, and the part is
held stopped (R392). Publication records no longer wait for it (R288). DEDUCED, log 89. -/
def State.holdGang (s : State) (id : Nat) (g : Gang) : State :=
  let s := s.abortGang id g
  let s := g.place.foldl (fun (s : State) t => (s.dropTraffic t).updTile t fun T => T.abortStep false 1 0x1A) s
  let s := s.updGang id fun G => { G with state := .stopped, preempt := false, lost := none }
  State.settlePubs s.pubs.length s

/-- A gang that has lost a SHEAF or COMMIT flit, or has a rank that cannot be reached (R392): its root decides ABORT with LINK_FAIL and
pre-emption by abort; while a decision is being applied, it does so once that is done. -/
def State.loseLink (s : State) (unreachable : List Nat) (id : Nat) : State :=
  match s.gang id with
  | none => s
  | some g =>
    if g.state ≠ .running then s
    else if g.verdict.isSome then s.setGang id { g with lost := some (g.lost.getD [] ++ unreachable) }
    else
      let gone := unreachable.filter fun r => decide (r < g.ranks)
      let ctile := match gone with | [] => 0 | r :: rest => rest.foldl Nat.min r * g.place.length
      let s := s.report (.linkFail id)
      if g.rank = 0 then s.rootYields id ctile
      else if gone.contains 0 then s.holdGang id g
      else s

/-- A link failure that came while a decision was being applied takes effect once it is: on a gang that goes on. -/
def State.settleLink (s : State) (id : Nat) : State :=
  match s.gang id with
  | none => s
  | some g =>
    match g.lost with
    | none => s
    | some ranks =>
      if g.state = .running ∧ g.verdict.isSome then s else (s.setGang id { g with lost := none }).loseLink ranks id

/-- The packages of some ranks of a gang, as its partition's rank map binds them. -/
def State.rankPackages (s : State) (id : Nat) (ranks : List Nat) : List (BitVec 16) :=
  match s.gang id with
  | none => []
  | some g => (ranks.filter fun r => decide (r < g.ranks)).filterMap fun r => ((s.part g.part).ranks.find r).map (·.1)

/-- EWEIT_LINK_FAIL (R392): the port leaves service; `lost` are the gangs concerned, `unreachable` the ranks whose packages no route
reaches any more. -/
def execEweitLinkFail (port : Nat) (lost unreachable : List Nat) (s : State) : Host.Outcome State Fault Refusal :=
  let gone := (lost.flatMap fun id => s.rankPackages id unreachable).filter fun p => !s.cutOff.contains p
  .next (lost.foldl (State.loseLink · unreachable) { s.updPort port Port.fail with cutOff := s.cutOff ++ gone.eraseDups })

/-- A package comes in or out of reach (R392, R396). -/
def State.setRoute (s : State) (pkg : BitVec 16) (reached : Bool) : State :=
  let rest := s.cutOff.filter (· ≠ pkg)
  { s with cutOff := if reached then rest else rest ++ [pkg] }

/-! ## What other packages send here (R390, R399, R400) -/

/-- Words of a PUT of another package's tile land (R390, R402): those of versioned lines ride the COMMIT lane, whose duplicates are dropped.
With SITE 1 its signal is delivered here (R152). -/
def State.landPut (s : State) (e : ExtPut) : State :=
  match s.wakeFor e.dest e.addr (8 * e.words.length) with
  | some s' => s'
  | none =>
    match if ((s.tile e.dest).region e.addr).isV then s.accept e.dest e.flit else some s with
    | none => s
    | some s =>
      let r := s.landWords e.dest true e.addr e.words
      let s := if r.2 && !(r.1.tile e.dest).vote.sent then r.1.raiseVote e.dest 3 0x0C else r.1
      if e.sy.site = 1 then s.engineSignal e.dest e.sy else s

/-- Words of a mirror image, with their poison, reach this package's second tier, as the partition's tables map their virtual addresses
(R399). -/
def State.receiveMirror (s : State) (p va : Nat) (ws : List (Word × Bool)) : State :=
  match s.pages p 0 (pagesOf va (8 * ws.length)) with
  | .ok ps => if ps.all (fun q => entryW q.e && decide (entryTier q.e = 1)) then s.putWords p ps va ws else s
  | _ => s

end Sys2Proof.Machine
end

