-- ==== Sys2Proof/Machine/Predicate.lean ====
section
/-! DEFINITION. Predicate instructions of major 0x10 (R77). -/

namespace Sys2Proof.Machine

/-- PAND (R77). -/
def execPand (g : Guard) (px y z : PReg) (s : State) : Host.Outcome State Fault Refusal :=
  s.issue { head := 0x4100, guard := g } (predBody px (fun x => x.prd y && x.prd z) (fun x => x.pt y || x.pt z))

/-- POR (R77). -/
def execPor (g : Guard) (px y z : PReg) (s : State) : Host.Outcome State Fault Refusal :=
  s.issue { head := 0x4101, guard := g } (predBody px (fun x => x.prd y || x.prd z) (fun x => x.pt y || x.pt z))

/-- PXOR (R77). -/
def execPxor (g : Guard) (px y z : PReg) (s : State) : Host.Outcome State Fault Refusal :=
  s.issue { head := 0x4102, guard := g } (predBody px (fun x => x.prd y != x.prd z) (fun x => x.pt y || x.pt z))

/-- PNOT (R77). -/
def execPnot (g : Guard) (px y : PReg) (s : State) : Host.Outcome State Fault Refusal :=
  s.issue { head := 0x4103, guard := g } (predBody px (fun x => !x.prd y) (fun x => x.pt y))

/-- PMOV (R77). -/
def execPmov (g : Guard) (px y : PReg) (s : State) : Host.Outcome State Fault Refusal :=
  s.issue { head := 0x4104, guard := g } (predBody px (fun x => x.prd y) (fun x => x.pt y))

/-- PANY: every bit of the mask contributes its poison (R77). -/
def execPany (g : Guard) (px y : PReg) (s : State) : Host.Outcome State Fault Refusal :=
  s.issue { head := 0x4105, guard := g } (predBody px (fun x => decide (x.qrd y ≠ 0)) (fun x => decide (x.qt y ≠ 0)))

end Sys2Proof.Machine
end

