-- ==== Sys2Proof/Machine/VectorMemory.lean ====
section
/-! DEFINITION. Vector access to tile memory (R159-R163). -/

namespace Sys2Proof.Machine

/-- The numbers of the lanes of a lane mask, lowest first. -/
def lanesOf (m : BitVec 64) : List Nat := (List.range 64).filter m.getLsbD

/-- The first lane whose address fails a test, with the address. -/
def firstLane (ls : List Nat) (addr : Nat → Int) (bad : Int → Bool) : Option Int :=
  (ls.find? fun i => bad (addr i)).map addr

/-- A lane's address lies outside the segments that the access may reach (R159). -/
def Tile.laneBad (T : Tile) (ok : Region → Bool) (a : Int) : Bool :=
  match tileAddr a with
  | some e => !ok (T.region e)
  | none => true

/-- Starts the wake of every gated segment that the lanes touch (R140). -/
def State.wakeLanes (s : State) (as : List Nat) : State :=
  (as.filter s.myTile.gatedAt).foldl (fun s a => s.startWake s.curTile a) s

/-- Loads the active lanes (R159), after the strand's immediate stores to their words (R265, R266). -/
def State.loadLanes (s : State) (g : Guard) (vd : VReg) (addr : Nat → Int) : Eff :=
  let T := s.myTile
  let act := s.me.active g
  let ls := lanesOf act
  match firstLane ls addr (T.laneBad Region.readable) with
  | some a => .trap 0x06 (wordOf a)
  | none =>
    if ls.any fun i => T.gatedAt (addr i).toNat then .retry (s.wakeLanes (ls.map fun i => (addr i).toNat))
    else if ls.any fun i => s.storePending s.curTile (addr i).toNat then .retry s
    else
      let val (i : Nat) : Nat := if act.getLsbD i then T.readNat (addr i).toNat 4 else 0
      let v : Vec := BitVec.ofNat 2048 (packElements 32 ((List.range 64).map val))
      let t : BitVec 64 := BitVec.ofNat 64 (packElements 1 ((List.range 64).map fun i =>
        if act.getLsbD i && T.poisonAt (addr i).toNat then 1 else 0))
      .done (s.updMe fun x => x.vwrLanes act vd v (t ||| x.maskPoison g))

/-- The lanes that a store writes: of lanes with one address only the highest (R163). -/
def finalLanes (ls : List Nat) (addr : Nat → Nat) : List Nat :=
  ls.filter fun i => ls.all fun j => decide (j ≤ i) || decide (addr j ≠ addr i)

/-- Writes the lanes: whole words where both halves are written, else four bytes (R159). -/
def writeLanes (addr : Nat → Nat) (val : Nat → Nat) (fin : List Nat) : List Nat → Tile → Option Wrote
  | [], T => some ⟨T, false⟩
  | i :: rest, T =>
    let a := addr i
    let mate (b : Nat) : Option Nat := fin.find? fun j => decide (addr j = b)
    let bytes : List Byte :=
      if a % 8 = 0 then
        match mate (a + 4) with
        | some j => toBytes 4 (val i) ++ toBytes 4 (val j)
        | none => toBytes 4 (val i)
      else if (mate (a - 4)).isSome then []
      else toBytes 4 (val i)
    if bytes.isEmpty then writeLanes addr val fin rest T
    else
      (T.store a bytes).bind fun w => (writeLanes addr val fin rest w.tile).map fun w' => ⟨w'.tile, w.conflict || w'.conflict⟩

/-- The first lane, in lane order, whose line needs a delta frame when no free frame is left for it (R159). -/
def Tile.fullLane (T : Tile) (addr : Nat → Nat) : List Nat → List Nat → Option Nat
  | [], _ => none
  | i :: rest, lines =>
    let l := lineOf (addr i)
    if (T.region (addr i)).isV && (T.mem.deltas.find l).isNone && !lines.contains l then
      (if T.mem.free.length ≤ lines.length then some i else Tile.fullLane T addr rest (l :: lines))
    else Tile.fullLane T addr rest lines

/-- Stores the active lanes, with the checks of R159 from PROTECTION on. -/
def State.storeLanes (s : State) (g : Guard) (vs : VReg) (addr : Nat → Int) : Eff :=
  let T := s.myTile
  let x := s.me
  let ls := lanesOf (x.active g)
  match firstLane ls addr (T.laneBad Region.vs) with
  | some a => .trap 0x06 (wordOf a)
  | none =>
    match ls.find? (x.vt vs ||| x.maskPoison g).getLsbD with
    | some i => .trap 0x07 (wordOf (addr i))
    | none =>
      if ls.any fun i => T.gatedAt (addr i).toNat then .retry (s.wakeLanes (ls.map fun i => (addr i).toNat))
      else if ls.any fun i => s.storePending s.curTile (addr i).toNat then .retry s
      else
        let a (i : Nat) : Nat := (addr i).toNat
        let fin := finalLanes ls a
        match T.fullLane a ls [], writeLanes a (fun i => (lane (x.vrd vs) i).toNat) fin fin T with
        | none, some w => .done ((s.setTile s.curTile w.tile).noteConflict s.curTile w.conflict)
        | some i, _ => .trap 0x0B (wordOf (addr i))
        | none, none => .trap 0x0B (wordOf (addr 0))

/-- The base checks of VLD and VST: a poisoned base, and a misaligned address, over the active lanes (R161). -/
def State.baseCheck (s : State) (g : Guard) (base : Option SReg) (ea : Int) (k : State → Eff) : Eff :=
  if s.me.active g = 0 then .done s
  else match base.filter s.me.tag with
  | some r => .trap 0x09 (r.setWidth 64)
  | none => if ea % 8 ≠ 0 then .trap 0x05 (wordOf ea) else k s

/-- The address of the base form (R161). -/
def vecBase (x : Strand) (r : SReg) (imm : BitVec 11) : Int := eaOf (x.rd r) (8 * imm.toInt)

/-- Lane i's address of a contiguous access. -/
def contig (ea : Int) (i : Nat) : Int := ea + 4 * (i : Int)

/-- VLD with a base and an offset (R161). -/
def execVld (g : Guard) (vd : VReg) (_ign : BitVec 5) (r : SReg) (imm : BitVec 11) (s : State) : Host.Outcome State Fault Refusal :=
  s.issue { head := 0x8200, guard := g } fun _ _ s =>
    let ea := vecBase s.me r imm
    s.baseCheck g (some r) ea fun s => s.loadLanes g vd (contig ea)

/-- VST with a base and an offset (R161). -/
def execVst (g : Guard) (vd : VReg) (_ign : BitVec 5) (r : SReg) (imm : BitVec 11) (s : State) : Host.Outcome State Fault Refusal :=
  s.issue { head := 0x8201, guard := g } fun _ _ s =>
    let ea := vecBase s.me r imm
    s.baseCheck g (some r) ea fun s => s.storeLanes g vd (contig ea)

/-- kN.ADDR (R29). -/
def Strand.streamAddr (x : Strand) (k : BitVec 3) : Int := (bitsOf (x.krd k) 0 18 : Nat)

/-- The advance of a stream register (R29, R84). -/
def Strand.advance (x : Strand) (k : BitVec 3) : Strand :=
  let v := x.krd k
  x.kwr k (withBits v 0 18 (wrapNat 18 ((bitsOf v 0 18 : Nat) + signedOf 16 (bitsOf v 18 16))))

/-- Advances the stream register of an instruction that completes. -/
def Eff.advancing (k : BitVec 3) : Eff → Eff
  | .done s => .done (s.updMe fun x => x.advance k)
  | e => e

/-- VLD through a stream register (R161). -/
def execVldStream (g : Guard) (vd : VReg) (k : BitVec 3) (s : State) : Host.Outcome State Fault Refusal :=
  s.issue { head := 0x8108, guard := g } fun _ _ s =>
    let ea := s.me.streamAddr k
    (s.baseCheck g none ea fun s => s.loadLanes g vd (contig ea)).advancing k

/-- VST through a stream register (R161). -/
def execVstStream (g : Guard) (vd : VReg) (k : BitVec 3) (s : State) : Host.Outcome State Fault Refusal :=
  s.issue { head := 0x8109, guard := g } fun _ _ s =>
    let ea := s.me.streamAddr k
    (s.baseCheck g none ea fun s => s.storeLanes g vd (contig ea)).advancing k

/-- The checks of R162 that do not depend on lanes, and the address. -/
def State.baleAccess (s : State) (slot : BitVec 6) (imm : BitVec 11) (k : Int → Eff) : Eff :=
  match s.myTile.baleWait slot.toNat with
  | some e => e
  | none =>
    let b := s.myTile.bale slot.toNat
    if b.bytes < 32 * imm.toNat + 256 then .trap 0x06 (BitVec.ofNat 64 (b.addr + b.bytes))
    else k ((b.addr + 32 * imm.toNat : Nat) : Int)

/-- VLDB (R162). -/
def execVldb (g : Guard) (vd : VReg) (_ign : BitVec 5) (slot : BitVec 6) (imm : BitVec 11) (s : State) : Host.Outcome State Fault Refusal :=
  s.issue { head := 0x8202, guard := g } fun _ _ s =>
    s.baleAccess slot imm fun ea => s.baseCheck g none ea fun s => s.loadLanes g vd (contig ea)

/-- VSTB (R162). -/
def execVstb (g : Guard) (vd : VReg) (_ign : BitVec 5) (slot : BitVec 6) (imm : BitVec 11) (s : State) : Host.Outcome State Fault Refusal :=
  s.issue { head := 0x8203, guard := g } fun _ _ s =>
    s.baleAccess slot imm fun ea => s.baseCheck g none ea fun s => s.storeLanes g vd (contig ea)

/-- The checks of R163 before PROTECTION: a poisoned base, a poisoned index lane, a misaligned lane. -/
def State.indexCheck (s : State) (g : Guard) (va : VReg) (r : SReg) (k : (Nat → Int) → Eff) : Eff :=
  let x := s.me
  let ls := lanesOf (x.active g)
  let addr (i : Nat) : Int := eaOf (x.rd r) (lane (x.vrd va) i).toNat
  if ls.isEmpty then .done s
  else if x.tag r then .trap 0x09 (r.setWidth 64)
  else if ls.any (x.vt va).getLsbD then .trap 0x09 (va.setWidth 64)
  else match firstLane ls addr (fun a => decide (a % 4 ≠ 0)) with
  | some a => .trap 0x05 (wordOf a)
  | none => k addr

/-- VGATH (R163). -/
def execVgath (g : Guard) (vd va : VReg) (r : SReg) (s : State) : Host.Outcome State Fault Refusal :=
  s.issue { head := 0x8204, guard := g } fun _ _ s => s.indexCheck g va r fun addr => s.loadLanes g vd addr

/-- VSCAT (R163). -/
def execVscat (g : Guard) (vd va : VReg) (r : SReg) (s : State) : Host.Outcome State Fault Refusal :=
  s.issue { head := 0x8205, guard := g } fun _ _ s => s.indexCheck g va r fun addr => s.storeLanes g vd addr

end Sys2Proof.Machine
end

