-- ==== Sys2Proof/Machine/Dispatch.lean ====
section
/-! DEFINITION. Dispatch: one arm per constructor of Instr, each a call of its meaning. -/

namespace Sys2Proof.Machine

/-- What an instruction or a device event does. -/
def exec (i : Instr) (s : State) : Host.Outcome State Fault Refusal :=
  match i with
  | .add g d a b => Sys2Proof.Machine.execAdd g d a b s
  | .sub g d a b => Sys2Proof.Machine.execSub g d a b s
  | .and g d a b => Sys2Proof.Machine.execAnd g d a b s
  | .or g d a b => Sys2Proof.Machine.execOr g d a b s
  | .xor g d a b => Sys2Proof.Machine.execXor g d a b s
  | .andn g d a b => Sys2Proof.Machine.execAndn g d a b s
  | .shl g d a b => Sys2Proof.Machine.execShl g d a b s
  | .shr g d a b => Sys2Proof.Machine.execShr g d a b s
  | .sra g d a b => Sys2Proof.Machine.execSra g d a b s
  | .rol g d a b => Sys2Proof.Machine.execRol g d a b s
  | .min g d a b => Sys2Proof.Machine.execMin g d a b s
  | .max g d a b => Sys2Proof.Machine.execMax g d a b s
  | .minu g d a b => Sys2Proof.Machine.execMinu g d a b s
  | .maxu g d a b => Sys2Proof.Machine.execMaxu g d a b s
  | .mul g d a b => Sys2Proof.Machine.execMul g d a b s
  | .mulh g d a b => Sys2Proof.Machine.execMulh g d a b s
  | .mulhu g d a b => Sys2Proof.Machine.execMulhu g d a b s
  | .div g d a b => Sys2Proof.Machine.execDiv g d a b s
  | .divu g d a b => Sys2Proof.Machine.execDivu g d a b s
  | .rem g d a b => Sys2Proof.Machine.execRem g d a b s
  | .remu g d a b => Sys2Proof.Machine.execRemu g d a b s
  | .addi g d a imm => Sys2Proof.Machine.execAddi g d a imm s
  | .andImm g d a imm => Sys2Proof.Machine.execAndImm g d a imm s
  | .orImm g d a imm => Sys2Proof.Machine.execOrImm g d a imm s
  | .xorImm g d a imm => Sys2Proof.Machine.execXorImm g d a imm s
  | .andnImm g d a imm => Sys2Proof.Machine.execAndnImm g d a imm s
  | .shlImm g d a imm => Sys2Proof.Machine.execShlImm g d a imm s
  | .shrImm g d a imm => Sys2Proof.Machine.execShrImm g d a imm s
  | .sraImm g d a imm => Sys2Proof.Machine.execSraImm g d a imm s
  | .rolImm g d a imm => Sys2Proof.Machine.execRolImm g d a imm s
  | .minImm g d a imm => Sys2Proof.Machine.execMinImm g d a imm s
  | .maxImm g d a imm => Sys2Proof.Machine.execMaxImm g d a imm s
  | .minuImm g d a imm => Sys2Proof.Machine.execMinuImm g d a imm s
  | .maxuImm g d a imm => Sys2Proof.Machine.execMaxuImm g d a imm s
  | .mulImm g d a imm => Sys2Proof.Machine.execMulImm g d a imm s
  | .clz g d a => Sys2Proof.Machine.execClz g d a s
  | .ctz g d a => Sys2Proof.Machine.execCtz g d a s
  | .popc g d a => Sys2Proof.Machine.execPopc g d a s
  | .abs g d a => Sys2Proof.Machine.execAbs g d a s
  | .mov g d a => Sys2Proof.Machine.execMov g d a s
  | .sext g sz d a => Sys2Proof.Machine.execSext g sz d a s
  | .zext g sz d a => Sys2Proof.Machine.execZext g sz d a s
  | .bfx g d a pos len => Sys2Proof.Machine.execBfx g d a pos len s
  | .bfxS g d a pos len => Sys2Proof.Machine.execBfxS g d a pos len s
  | .bfi g d a pos len => Sys2Proof.Machine.execBfi g d a pos len s
  | .lit g d litLen lit => Sys2Proof.Machine.execLit g d litLen lit s
  | .lea g d a b scale => Sys2Proof.Machine.execLea g d a b scale s
  | .sel g d a b n => Sys2Proof.Machine.execSel g d a b n s
  | .cmp g cc pd a b => Sys2Proof.Machine.execCmp g cc pd a b s
  | .cmpImm g cc pd a imm => Sys2Proof.Machine.execCmpImm g cc pd a imm s
  | .tst g pd a b => Sys2Proof.Machine.execTst g pd a b s
  | .tstZ g pd a b => Sys2Proof.Machine.execTstZ g pd a b s
  | .tstImm g pd a imm => Sys2Proof.Machine.execTstImm g pd a imm s
  | .tstZImm g pd a imm => Sys2Proof.Machine.execTstZImm g pd a imm s
  | .pand g x y z => Sys2Proof.Machine.execPand g x y z s
  | .por g x y z => Sys2Proof.Machine.execPor g x y z s
  | .pxor g x y z => Sys2Proof.Machine.execPxor g x y z s
  | .pnot g x y => Sys2Proof.Machine.execPnot g x y s
  | .pmov g x y => Sys2Proof.Machine.execPmov g x y s
  | .pany g x y => Sys2Proof.Machine.execPany g x y s
  | .br g target => Sys2Proof.Machine.execBr g target s
  | .brc g cc a b target => Sys2Proof.Machine.execBrc g cc a b target s
  | .jal g a target => Sys2Proof.Machine.execJal g a target s
  | .jr g a b => Sys2Proof.Machine.execJr g a b s
  | .ret g => Sys2Proof.Machine.execRet g s
  | .loop g a target => Sys2Proof.Machine.execLoop g a target s
  | .rep g a len n => Sys2Proof.Machine.execRep g a len n s
  | .repStreamLoad g => Sys2Proof.Machine.execRepStreamLoad g s
  | .halt => Sys2Proof.Machine.execHalt s
  | .yield => Sys2Proof.Machine.execYield s
  | .nop => Sys2Proof.Machine.execNop s
  | .ld g sz d a imm => Sys2Proof.Machine.execLd g sz d a imm s
  | .st g sz d a imm => Sys2Proof.Machine.execSt g sz d a imm s
  | .ldv g sz d a imm => Sys2Proof.Machine.execLdv g sz d a imm s
  | .stv g sz d a imm => Sys2Proof.Machine.execStv g sz d a imm s
  | .ldsD g d a imm => Sys2Proof.Machine.execLdsD g d a imm s
  | .ldsDE g d a imm => Sys2Proof.Machine.execLdsDE g d a imm s
  | .stfD g d a imm => Sys2Proof.Machine.execStfD g d a imm s
  | .ldc g sz d a imm => Sys2Proof.Machine.execLdc g sz d a imm s
  | .stc g sz d a imm => Sys2Proof.Machine.execStc g sz d a imm s
  | .sysrd g d n => Sys2Proof.Machine.execSysrd g d n s
  | .syswr g a n => Sys2Proof.Machine.execSyswr g a n s
  | .trap g imm => Sys2Proof.Machine.execTrap g imm s
  | .brk g imm => Sys2Proof.Machine.execBrk g imm s
  | .eret => Sys2Proof.Machine.execEret s
  | .eretSkip => Sys2Proof.Machine.execEretSkip s
  | .pclr g d => Sys2Proof.Machine.execPclr g d s
  | .pclrVector g v => Sys2Proof.Machine.execPclrVector g v s
  | .semwait g m n => Sys2Proof.Machine.execSemwait g m n s
  | .semsig g m n => Sys2Proof.Machine.execSemsig g m n s
  | .semrd g d m => Sys2Proof.Machine.execSemrd g d m s
  | .park => Sys2Proof.Machine.execPark s
  | .wake g n => Sys2Proof.Machine.execWake g n s
  | .msg g a => Sys2Proof.Machine.execMsg g a s
  | .fence sc => Sys2Proof.Machine.execFence sc s
  | .vfence sc => Sys2Proof.Machine.execVfence sc s
  | .fmt minor => Sys2Proof.Machine.execFmt minor s
  | .vld g vd ign x imm => Sys2Proof.Machine.execVld g vd ign x imm s
  | .vst g vd ign x imm => Sys2Proof.Machine.execVst g vd ign x imm s
  | .vldStream g vd k => Sys2Proof.Machine.execVldStream g vd k s
  | .vstStream g vd k => Sys2Proof.Machine.execVstStream g vd k s
  | .vldb g vd ign slot imm => Sys2Proof.Machine.execVldb g vd ign slot imm s
  | .vstb g vd ign slot imm => Sys2Proof.Machine.execVstb g vd ign slot imm s
  | .vgath g vd va x => Sys2Proof.Machine.execVgath g vd va x s
  | .vscat g vd va x => Sys2Proof.Machine.execVscat g vd va x s
  | .vbcast g vd x => Sys2Proof.Machine.execVbcast g vd x s
  | .vmovs g d va lane => Sys2Proof.Machine.execVmovs g d va lane s
  | .vmovv g vd va => Sys2Proof.Machine.execVmovv g vd va s
  | .vadd g vd va vb rm => Sys2Proof.Machine.execVadd g vd va vb rm s
  | .vsub g vd va vb rm => Sys2Proof.Machine.execVsub g vd va vb rm s
  | .vmul g vd va vb rm => Sys2Proof.Machine.execVmul g vd va vb rm s
  | .vmin g vd va vb rm => Sys2Proof.Machine.execVmin g vd va vb rm s
  | .vmax g vd va vb rm => Sys2Proof.Machine.execVmax g vd va vb rm s
  | .vfma g vd va vb vc rm => Sys2Proof.Machine.execVfma g vd va vb vc rm s
  | .vfms g vd va vb vc rm => Sys2Proof.Machine.execVfms g vd va vb vc rm s
  | .vnfma g vd va vb vc rm => Sys2Proof.Machine.execVnfma g vd va vb vc rm s
  | .vabs g vd va rm => Sys2Proof.Machine.execVabs g vd va rm s
  | .vneg g vd va rm => Sys2Proof.Machine.execVneg g vd va rm s
  | .vrcp g vd va rm => Sys2Proof.Machine.execVrcp g vd va rm s
  | .vrsq g vd va rm => Sys2Proof.Machine.execVrsq g vd va rm s
  | .vexp2 g vd va rm => Sys2Proof.Machine.execVexp2 g vd va rm s
  | .vlog2 g vd va rm => Sys2Proof.Machine.execVlog2 g vd va rm s
  | .vscale g vd va vb rm => Sys2Proof.Machine.execVscale g vd va vb rm s
  | .vclass g vd va => Sys2Proof.Machine.execVclass g vd va s
  | .vcmp g cc qd va vb => Sys2Proof.Machine.execVcmp g cc qd va vb s
  | .vsel g vd va vb n => Sys2Proof.Machine.execVsel g vd va vb n s
  | .vred g op d va => Sys2Proof.Machine.execVred g op d va s
  | .vscan g op vd va vb rm => Sys2Proof.Machine.execVscan g op vd va vb rm s
  | .vperm g vd va vb => Sys2Proof.Machine.execVperm g vd va vb s
  | .vshuf g vd va vb vc => Sys2Proof.Machine.execVshuf g vd va vb vc s
  | .vrot g vd va n => Sys2Proof.Machine.execVrot g vd va n s
  | .vdot g vd va vb vc rm => Sys2Proof.Machine.execVdot g vd va vb vc rm s
  | .vcvt g vd va rm => Sys2Proof.Machine.execVcvt g vd va rm s
  | .vbscl g vd va vb vc rm => Sys2Proof.Machine.execVbscl g vd va vb vc rm s
  | .viadd g vd va vb => Sys2Proof.Machine.execViadd g vd va vb s
  | .visub g vd va vb => Sys2Proof.Machine.execVisub g vd va vb s
  | .vimul g vd va vb => Sys2Proof.Machine.execVimul g vd va vb s
  | .vimad g vd va vb vc => Sys2Proof.Machine.execVimad g vd va vb vc s
  | .viaddSat g vd va vb => Sys2Proof.Machine.execViaddSat g vd va vb s
  | .visubSat g vd va vb => Sys2Proof.Machine.execVisubSat g vd va vb s
  | .vshl g vd va vb => Sys2Proof.Machine.execVshl g vd va vb s
  | .vshr g vd va vb => Sys2Proof.Machine.execVshr g vd va vb s
  | .vsra g vd va vb => Sys2Proof.Machine.execVsra g vd va vb s
  | .vand g vd va vb => Sys2Proof.Machine.execVand g vd va vb s
  | .vor g vd va vb => Sys2Proof.Machine.execVor g vd va vb s
  | .vxor g vd va vb => Sys2Proof.Machine.execVxor g vd va vb s
  | .vpopc g vd va => Sys2Proof.Machine.execVpopc g vd va s
  | .vpand g x y z => Sys2Proof.Machine.execVpand g x y z s
  | .vpor g x y z => Sys2Proof.Machine.execVpor g x y z s
  | .vpnot g x y => Sys2Proof.Machine.execVpnot g x y s
  | .mma g acc ra rb w sy => Sys2Proof.Machine.execMma g acc ra rb w sy s
  | .mman g acc ra rb w sy => Sys2Proof.Machine.execMman g acc ra rb w sy s
  | .mmaq g acc ra rb w sy => Sys2Proof.Machine.execMmaq g acc ra rb w sy s
  | .mmai g acc ra rb w sy => Sys2Proof.Machine.execMmai g acc ra rb w sy s
  | .mmaRetire t => Sys2Proof.Machine.execMmaRetire t s
  | .mmaComplete t chks => Sys2Proof.Machine.execMmaComplete t chks s
  | .accz g acc => Sys2Proof.Machine.execAccz g acc s
  | .accsw g acc sy => Sys2Proof.Machine.execAccsw g acc sy s
  | .accumulatorSwap t acc => Sys2Proof.Machine.execAccumulatorSwap t acc s
  | .accrd g vd acc row => Sys2Proof.Machine.execAccrd g vd acc row s
  | .accwr g vs acc row => Sys2Proof.Machine.execAccwr g vs acc row s
  | .accst g acc y z sy => Sys2Proof.Machine.execAccst g acc y z sy s
  | .accld g acc y z sy => Sys2Proof.Machine.execAccld g acc y z sy s
  | .accstComplete t acc => Sys2Proof.Machine.execAccstComplete t acc s
  | .tblw g vs q tbl => Sys2Proof.Machine.execTblw g vs q tbl s
  | .tblsw g tbl sy => Sys2Proof.Machine.execTblsw g tbl sy s
  | .tableSwap t tbl => Sys2Proof.Machine.execTableSwap t tbl s
  | .tblrd g vd q tbl shadow => Sys2Proof.Machine.execTblrd g vd q tbl shadow s
  | .bale g slot a b c => Sys2Proof.Machine.execBale g slot a b c s
  | .bstat g d slot => Sys2Proof.Machine.execBstat g d slot s
  | .bset g slot => Sys2Proof.Machine.execBset g slot s
  | .lookup g d a b => Sys2Proof.Machine.execLookup g d a b s
  | .ringcfg g ring a => Sys2Proof.Machine.execRingcfg g ring a s
  | .ringpush g ring slot sy => Sys2Proof.Machine.execRingpush g ring slot sy s
  | .ringpop g ring slot sy => Sys2Proof.Machine.execRingpop g ring slot sy s
  | .ringstat g d ring => Sys2Proof.Machine.execRingstat g d ring s
  | .pflstop g ring sy => Sys2Proof.Machine.execPflstop g ring sy s
  | .pfl g x sy => Sys2Proof.Machine.execPfl g x sy s
  | .pflComplete t n => Sys2Proof.Machine.execPflComplete t n s
  | .put g x y z sy => Sys2Proof.Machine.execPut g x y z sy s
  | .get g x y z sy => Sys2Proof.Machine.execGet g x y z sy s
  | .putv g x y z w sy => Sys2Proof.Machine.execPutv g x y z w sy s
  | .getv g x y z w sy => Sys2Proof.Machine.execGetv g x y z w sy s
  | .transferComplete t n ext => Sys2Proof.Machine.execTransferComplete t n ext s
  | .xqstat g d => Sys2Proof.Machine.execXqstat g d s
  | .uien g n => Sys2Proof.Machine.execUien g n s
  | .uiret => Sys2Proof.Machine.execUiret s
  | .userInterruptDelivery t k => Sys2Proof.Machine.execUserInterruptDelivery t k s
  | .ist g sz x y sy => Sys2Proof.Machine.execIst g sz x y sy s
  | .istfD g x y sy => Sys2Proof.Machine.execIstfD g x y sy s
  | .immediateStoreArrival n ext => Sys2Proof.Machine.execImmediateStoreArrival n ext s
  | .immediateStoreComplete n report => Sys2Proof.Machine.execImmediateStoreComplete n report s
  | .amo g op word d a b c => Sys2Proof.Machine.execAmo g op word d a b c s
  | .amof g op d a b => Sys2Proof.Machine.execAmof g op d a b s
  | .atomicPerform n => Sys2Proof.Machine.execAtomicPerform n s
  | .amodAdd g a b => Sys2Proof.Machine.execAmodAdd g a b s
  | .amodRecordArrival n => Sys2Proof.Machine.execAmodRecordArrival n s
  | .evsig g a => Sys2Proof.Machine.execEvsig g a s
  | .evarm g a b => Sys2Proof.Machine.execEvarm g a b s
  | .mtxrel g a => Sys2Proof.Machine.execMtxrel g a s
  | .chainedArrival n => Sys2Proof.Machine.execChainedArrival n s
  | .barrierRelease n => Sys2Proof.Machine.execBarrierRelease n s
  | .sync => Sys2Proof.Machine.execSync s
  | .syncdown t => Sys2Proof.Machine.execSyncdown t s
  | .vote g v cause => Sys2Proof.Machine.execVote g v cause s
  | .redc g op a => Sys2Proof.Machine.execRedc g op a s
  | .redrd g d => Sys2Proof.Machine.execRedrd g d s
  | .xsched g x sy => Sys2Proof.Machine.execXsched g x sy s
  | .xschedComplete t => Sys2Proof.Machine.execXschedComplete t s
  | .gcfg g plot a => Sys2Proof.Machine.execGcfg g plot a s
  | .gsig g d a => Sys2Proof.Machine.execGsig g d a s
  | .gskip g d a => Sys2Proof.Machine.execGskip g d a s
  | .gmap g d a => Sys2Proof.Machine.execGmap g d a s
  | .gforce g a => Sys2Proof.Machine.execGforce g a s
  | .gseal g plot => Sys2Proof.Machine.execGseal g plot s
  | .launch g d a => Sys2Proof.Machine.execLaunch g d a s
  | .teardown g d a => Sys2Proof.Machine.execTeardown g d a s
  | .preempt g d a => Sys2Proof.Machine.execPreempt g d a s
  | .barnsv g d a b => Sys2Proof.Machine.execBarnsv g d a b s
  | .barnld g d a b => Sys2Proof.Machine.execBarnld g d a b s
  | .hmsg g a b => Sys2Proof.Machine.execHmsg g a b s
  | .qcbsv g d a b => Sys2Proof.Machine.execQcbsv g d a b s
  | .qcbld g d a b => Sys2Proof.Machine.execQcbld g d a b s
  | .qpend g d => Sys2Proof.Machine.execQpend g d s
  | .coll g x y z sy => Sys2Proof.Machine.execColl g x y z sy s
  | .collComplete t n others => Sys2Proof.Machine.execCollComplete t n others s
  | .rankmap g d a b => Sys2Proof.Machine.execRankmap g d a b s
  | .stepBudget t => Sys2Proof.Machine.execStepBudget t s
  | .startPhase t => Sys2Proof.Machine.execStartPhase t s
  | .listDispatch t => Sys2Proof.Machine.execListDispatch t s
  | .exchangePhase t => Sys2Proof.Machine.execExchangePhase t s
  | .transferSendArrival n ext => Sys2Proof.Machine.execTransferSendArrival n ext s
  | .activeMessageArrival n ext => Sys2Proof.Machine.execActiveMessageArrival n ext s
  | .messageStart t => Sys2Proof.Machine.execMessageStart t s
  | .arrive t => Sys2Proof.Machine.execArrive t s
  | .sheafCombine gang node ext => Sys2Proof.Machine.execSheafCombine gang node ext s
  | .commit t => Sys2Proof.Machine.execCommit t s
  | .mirrorAck gang => Sys2Proof.Machine.execMirrorAck gang s
  | .abort t => Sys2Proof.Machine.execAbort t s
  | .haltDecision t => Sys2Proof.Machine.execHaltDecision t s
  | .deadlock gang => Sys2Proof.Machine.execDeadlock gang s
  | .segmentWakeEnd t seg => Sys2Proof.Machine.execSegmentWakeEnd t seg s
  | .baleFillComplete t slot => Sys2Proof.Machine.execBaleFillComplete t slot s
  | .baleDrainComplete t slot => Sys2Proof.Machine.execBaleDrainComplete t slot s
  | .subscriptionPush t ring => Sys2Proof.Machine.execSubscriptionPush t ring s
  | .memoryRequest n => Sys2Proof.Machine.execMemoryRequest n s
  | .pageFaultAnswer n resolved => Sys2Proof.Machine.execPageFaultAnswer n resolved s
  | .publicationRecord target value => Sys2Proof.Machine.execPublicationRecord target value s
  | .hbmParityAlert stack bank channel addr count loss leaf spare => Sys2Proof.Machine.execHbmParityAlert stack bank channel addr count loss leaf spare s
  | .stackCriticalTemperature stack celsius => Sys2Proof.Machine.execStackCriticalTemperature stack celsius s
  | .stackCooled stack celsius => Sys2Proof.Machine.execStackCooled stack celsius s
  | .nocLinkFail link gangs => Sys2Proof.Machine.execNocLinkFail link gangs s
  | .eweitLinkFail port lost unreachable => Sys2Proof.Machine.execEweitLinkFail port lost unreachable s
  | .resendRequest port seq => Sys2Proof.Machine.execResendRequest port seq s
  | .laneStop port lane => Sys2Proof.Machine.execLaneStop port lane s
  | .laneGo port lane => Sys2Proof.Machine.execLaneGo port lane s
  | .linkReset link => Sys2Proof.Machine.execLinkReset link s
  | .packageReset boot entry => Sys2Proof.Machine.execPackageReset boot entry s
  | .partidRst => Sys2Proof.Machine.execPartidRst s
  | .functionLevelReset part => Sys2Proof.Machine.execFunctionLevelReset part s
  | .hostLinkUncorrectable part => Sys2Proof.Machine.execHostLinkUncorrectable part s
  | .keyslotLoad => Sys2Proof.Machine.execKeyslotLoad s
  | .keyslotErase => Sys2Proof.Machine.execKeyslotErase s
  | .alarm trig part => Sys2Proof.Machine.execAlarm trig part s
  | .doorbell part queue tail => Sys2Proof.Machine.execDoorbell part queue tail s
  | .hostWake part gang => Sys2Proof.Machine.execHostWake part gang s
  | .hostMemoryWrite part va data => Sys2Proof.Machine.execHostMemoryWrite part va data s
  | .jobSelection => Sys2Proof.Machine.execJobSelection s
  | .gangLaunch => Sys2Proof.Machine.execGangLaunch s
  | .resume => Sys2Proof.Machine.execResume s
  | .jobCompletion job => Sys2Proof.Machine.execJobCompletion job s
  | .chargeUnit slot => Sys2Proof.Machine.execChargeUnit slot s
  | .quantumExpiry slot => Sys2Proof.Machine.execQuantumExpiry slot s
  | .timeUnitEnd => Sys2Proof.Machine.execTimeUnitEnd s
  | .spareRemap site => Sys2Proof.Machine.execSpareRemap site s
  | .hostMessageTaken => Sys2Proof.Machine.execHostMessageTaken s
  | .scheduleSendCompletion n report => Sys2Proof.Machine.execScheduleSendCompletion n report s
  | .amodAcknowledgement n => Sys2Proof.Machine.execAmodAcknowledgement n s

end Sys2Proof.Machine
end

