-- ==== Sys2Proof/Machine/Order.lean ====
section
/-! DEFINITION. The orders that the spec fixes among agents that act in one cycle (R57, R88, R226, R243, R253, R349, R357, R372, R381,
R386): what a turn claims, and when it comes a cycle later because of a claim of the same cycle. -/

namespace Sys2Proof.Machine

/-! ## What an instruction is to an order -/

/-- The sync tail of an instruction of form E. -/
def syncTail : Instr → Option Sync
  | .mma _ _ _ _ _ sy => some sy
  | .mman _ _ _ _ _ sy => some sy
  | .mmaq _ _ _ _ _ sy => some sy
  | .mmai _ _ _ _ _ sy => some sy
  | .accsw _ _ sy => some sy
  | .accst _ _ _ _ sy => some sy
  | .accld _ _ _ _ sy => some sy
  | .tblsw _ _ sy => some sy
  | .ringpush _ _ _ sy => some sy
  | .ringpop _ _ _ sy => some sy
  | .pflstop _ _ sy => some sy
  | .pfl _ _ sy => some sy
  | .put _ _ _ _ sy => some sy
  | .get _ _ _ _ sy => some sy
  | .putv _ _ _ _ _ sy => some sy
  | .getv _ _ _ _ _ sy => some sy
  | .ist _ _ _ _ sy => some sy
  | .istfD _ _ _ sy => some sy
  | .xsched _ _ sy => some sy
  | .coll _ _ _ _ sy => some sy
  | _ => none

/-- The instruction tries a wait on what strands of a tile share, after the increments and the wakes of its cycle: on a semaphore, the
full bit of a word, or a wake token (R39, R57, R88). -/
def triesWait : Instr → Bool
  | .park => true
  | .semwait .. => true
  | .ldsD .. => true
  | .ldsDE .. => true
  | i => match syncTail i with | some sy => sy.wen | none => false

/-- The tile at which an event is an engine's or a unit's own work. -/
def eventTile : Instr → Option Nat
  | .mmaRetire t => some t
  | .mmaComplete t _ => some t
  | .accumulatorSwap t _ => some t
  | .accstComplete t _ => some t
  | .tableSwap t _ => some t
  | .pflComplete t _ => some t
  | .transferComplete t _ _ => some t
  | .userInterruptDelivery t _ => some t
  | .xschedComplete t => some t
  | .collComplete t _ _ => some t
  | .stepBudget t => some t
  | .startPhase t => some t
  | .listDispatch t => some t
  | .exchangePhase t => some t
  | .messageStart t => some t
  | .arrive t => some t
  | .syncdown t => some t
  | .baleFillComplete t _ => some t
  | .baleDrainComplete t _ => some t
  | .subscriptionPush t _ => some t
  | _ => none

/-- The tiles whose semaphores an event's signal reaches, by its SITE (R57, R152, R249). -/
def State.signalTiles (s : State) (i : Instr) : List Nat :=
  match i with
  | .immediateStoreComplete n _ =>
    (match s.ists[n]? with
     | some x => if x.sy.site = 1 then x.dest.toList else [x.src]
     | none => [])
  | .immediateStoreArrival n none => ((s.ists[n]?).bind (·.dest)).toList
  | .immediateStoreArrival _ (some e) => [e.dest]
  | .transferComplete t n _ =>
    t :: (match (s.tile t).xq[n]? with
          | some e => if e.sy.site = 1 then ((s.xferDest t e).map (·.1)).toList else []
          | none => [])
  | i => (eventTile i).toList

/-- The strand whose instruction an event retires with its signal: that of a swap (R57, R190, R193). -/
def State.swapStrand (s : State) (i : Instr) : Option (Nat × Nat) :=
  match i with
  | .accumulatorSwap t acc =>
    ((s.tile t).holder fun h => match h with | .accsw a _ => a == acc | _ => false).map fun k => (t, k)
  | .tableSwap t tbl => ((s.tile t).holder fun h => match h with | .tblsw b _ => b == tbl | _ => false).map fun k => (t, k)
  | _ => none

/-- The address at which an instruction of the strand whose turn it is reaches its cluster's event unit (R89, R239). -/
def State.eventAddress (s : State) : Instr → Option Nat
  | .ldc _ _ _ a imm =>
    let v := (s.me.rd a + imm.signExtend 64).toNat
    if 0x380000 ≤ v ∧ v < 0x400000 then some v else none
  | .evsig _ a => some (s.me.rd a).toNat
  | .evarm _ a _ => some (s.me.rd a).toNat
  | .mtxrel _ a => some (s.me.rd a).toNat
  | _ => none

/-- The gang cluster index of a cluster. -/
def State.clusterIndex (s : State) (c : Nat) : Nat :=
  match s.clusterGang c with
  | some g => g.clusterKeys.idxOf c
  | none => 0

/-! ## Claims -/

/-- The rank of an instruction of strand k on its tile: SEMRD, which reads what its cycle starts with, before everything (R93); after the
engines, at 1, a strand without a wait at 2 + k, one with a wait at 10 + k; and the message context at 30 (R39, R57, R226). -/
def strandRank (k : Nat) (i : Instr) : Nat :=
  if k = 4 then 30
  else match i with
  | .semrd .. => 0
  | i => if triesWait i then 10 + k else 2 + k

/-- What the instruction that strand k of tile t would issue claims; an event unit ranks by member and context (R243). -/
def State.strandClaims (s : State) (t k : Nat) (i : Instr) : List (Arbiter × Nat) :=
  let own : Arbiter × Nat := (.tile t, strandRank k i)
  let unit : List (Arbiter × Nat) :=
    if (s.eventAddress i).isSome then [(.events (clusterOf t), 8 * s.memberOf t + k)] else []
  let more : List (Arbiter × Nat) :=
    match i with
    | .qcbsv .. => [(.dispatcher, 1)]
    | .qcbld .. => [(.dispatcher, 1)]
    | .qpend .. => [(.dispatcher, 1)]
    | .launch .. => if isSteward t then [(.launches (s.partOf t), 0)] else []
    | .teardown _ _ a => [(.launches (bitsOf (s.me.rd a) 0 6), 1)]
    | _ => []
  own :: (unit ++ more)

/-- The rank of an alarm among those of one cycle (R349). -/
def alarmRank : Trigger → Nat
  | .glitch => 0 | .mesh => 1 | .debug => 2 | .misuse => 3

/-- A reset of any partition, as an alarm's policy may make it. -/
def anyReset : List (Arbiter × Nat) := (List.range 64).map fun p => (.launches p, 1)

/-- A chained message comes after every member's request, by source cluster, object kind and object (R243). -/
def State.chainClaims (s : State) (n : Nat) : List (Arbiter × Nat) :=
  match s.chains[n]? with
  | some m => [(.events m.dstCluster, 1000 + 64 * (2 * s.clusterIndex m.srcCluster + (if m.srcLine then 1 else 0)) + m.srcObj)]
  | none => []

/-- An atomic claims its word (R253). -/
def State.atomicClaims (s : State) (n : Nat) : List (Arbiter × Nat) :=
  match s.amos[n]? with
  | some m =>
    let space := if m.hbm then 1000 + m.part else clusterOf m.src
    [(.word (2 ^ 61 * space + m.addr.toNat / 8), 8 * (s.tile m.src).gti + m.strand)]
  | none => []

/-- What an event claims. -/
def State.eventClaims (s : State) (i : Instr) : List (Arbiter × Nat) :=
  match i with
  | .chainedArrival n => s.chainClaims n
  | .barrierRelease n => s.chainClaims n
  | .atomicPerform n => s.atomicClaims n
  | .alarm trig _ => (.alarms, alarmRank trig) :: anyReset
  | .keyslotLoad => (.alarms, 3) :: anyReset
  | .doorbell .. => [(.dispatcher, 0)]
  | .jobCompletion _ => [(.dispatcher, 2)]
  | .gangLaunch => [(.dispatcher, 3)]
  | .resume => [(.dispatcher, 3)]
  | .jobSelection => [(.dispatcher, 3)]
  | .commit t => (match s.gangOf t with | some g => g.launches.map fun l => (.launches l.part, 0) | none => [])
  | .partidRst => (s.pkg.rst.take 1).map fun p => (.launches p, 1)
  | .functionLevelReset p => [(.launches p, 1)]
  | .hostLinkUncorrectable p => [(.launches p, 1)]
  | i => (match s.swapStrand i with
    | some tk => [(.tile tk.1, 2 + tk.2)]
    | none => (s.signalTiles i).map fun t => (.tile t, 1))

/-- Two claims of one cycle that stand in the wrong order, the earlier one first: a lower rank after a higher one; the message context
after a strand of its tile, since it issues only in cycles in which none does (R226); a second atomic on a word, which takes one a
cycle (R253). -/
def disordered (earlier later : Arbiter × Nat) : Bool :=
  decide (earlier.1 = later.1) &&
    (match later.1 with
     | .word _ => true
     | .tile _ => decide (later.2 < earlier.2) || (decide (later.2 = 30) && decide (earlier.2 ≠ 1) && decide (earlier.2 < 30))
     | _ => decide (later.2 < earlier.2))

/-- Some claim of a turn stands in the wrong order after the claims of its cycle. -/
def State.outOfOrder (s : State) (claims : List (Arbiter × Nat)) : Bool := claims.any fun c => s.moved.any fun m => disordered m c

end Sys2Proof.Machine
end

