-- ==== Sys2Proof/Machine/Turn.lean ====
section
/-! DEFINITION. One turn of the agenda: the cycles that pass, what a strand fetches and how its instruction ends, the
leader's forwarding, the events, the strands that a turn wakes, and the hardware's own failures (R18, R25, R35, R38, R48, R57, R80, R98,
R216, R222, R223, R230, R232, R233, R256, R313, R355, R360). -/

namespace Sys2Proof.Machine

/-! ## Time -/

/-- BUDGET.USED counts whole units of 1,024 cycles (R313). -/
def Tile.countBudget (T : Tile) (c : Nat) : Tile :=
  let n := T.budgetCycles + c
  { T with
    budgetCycles := n % 1024
    ctl := { T.ctl with budget := withBits T.ctl.budget 24 24 (Nat.min (2 ^ 24 - 1) (bitsOf T.ctl.budget 24 24 + n / 1024)) } }

/-- A tile whose budget counts: from the start phase until it sends its arrival, with no pause (R313). -/
def State.budgetRuns (s : State) (t : Nat) (T : Tile) : Bool :=
  decide (T.gang ≠ 0) && (decide (T.seq.phase = .start) || decide (T.seq.phase = .compute) || decide (T.seq.phase = .exchange)) &&
    !T.vote.sent && !s.budgetPaused t

/-- Cycles pass: CYCLE (R35), the budgets (R313), and the cluster-cycles of running gangs (R360). -/
def State.passTime (s : State) (c : Nat) : State :=
  { s with
    cycle := s.cycle + c
    tiles := s.tiles.map fun kT => (kT.1, if s.budgetRuns kT.1 kT.2 then kT.2.countBudget c else kT.2)
    gangs := s.gangs.map fun kg =>
      (kg.1, if kg.2.state = .running then { kg.2 with cycles := kg.2.cycles + kg.2.clusters * c } else kg.2) }

/-! ## A strand's turn -/

/-- The state with the turn given to strand k of tile t. -/
def State.giveTurn (s : State) (t k : Nat) : State := { s with curTile := t, curStrand := k }

/-- The strand whose turn it is runs a list routine of a leader (R222). -/
def State.leadsList (s : State) : Bool := s.myTile.leader && decide (s.curStrand < 4) && !s.me.routine.getLsbD 15

/-- What the strand whose turn it is runs is forwarded to its tile's followers: a list routine of a leader, outside its
trap handler (R222, R223). -/
def State.leads (s : State) : Bool := s.leadsList && !s.me.td

/-- Followers that still take what tile t forwards: one whose tile has failed discards it (R223). -/
def State.liveFollowers (s : State) (t : Nat) : List Nat := (s.followers t).filter fun u => !(s.tile u).seq.failed

/-- The network buffers 32 instructions per follower strand, and a leader strand whose follower buffer is full is held
(R222). -/
def State.leaderRoom (s : State) : Bool :=
  !s.leads || (s.liveFollowers s.curTile).all fun u => decide ((s.strand u s.curStrand).fwdq.length < 32)

/-- A YIELD holds the strand while a strand it gave way to is READY and has not issued (R80). DEDUCED, log 96. -/
def State.yielded (s : State) : Bool :=
  (List.range 5).any fun k => s.me.yieldTo.getLsbD k && decide ((s.strand s.curTile k).run = .ready)

/-- A completed transfer's user-level interrupt can be delivered to the strand whose turn it is (R44). -/
def State.interruptDue (s : State) : Bool := !s.me.uiq.isEmpty && s.me.canInterrupt

/-- The strand whose turn it is can try to issue (R38): READY, not held, and with no user-level interrupt to take first (R44, R210). A
PARKED strand is READY once its condition holds. -/
def State.canTry (s : State) : Bool :=
  decide (s.me.hold = .none) && !s.yielded && s.leaderRoom && !s.interruptDue && decide (s.me.run = .ready)

/-- A READY strand of a failed tile goes to STOPPED at its next issue (R216); so does one whose MMA was cancelled. The message
context goes on (R46). -/
def State.stopsNow (s : State) : Bool :=
  s.myTile.seq.failed && decide (s.curStrand ≠ 4) && decide (s.me.run = .ready) &&
    (decide (s.me.hold = .none) ||
      (decide (s.me.hold = .mma) && s.myTile.mmas.all fun m => m.retired || decide (m.strand ≠ s.curStrand)))

/-- What a strand's fetch gives. -/
inductive Fetched where
  | instr (i : Instr)
  | trap (cause : Nat) (pc : Pc) (val : Word)
  | nothing
deriving DecidableEq, Repr

/-- The instruction in an inline slot of the message context (R224, R227). -/
def Strand.fetchSlot (x : Strand) : Fetched :=
  match x.slots[x.pc.toNat]? with
  | none => .nothing
  | some b => match decodeInline b with
    | some i => .instr i
    | none => .trap 0x01 x.pc ((b.setWidth 16).setWidth 64)

/-- The instruction at a PC of a tile's code region: ILLEGAL_LINE on entry to a bad line, ILLEGAL_HEAD for an encoding that no
row assigns (R48, R60, R61). -/
def Tile.fetchAt (T : Tile) (pc : Pc) : Fetched :=
  if T.badLine pc then .trap 0x02 (BitVec.ofNat 15 (pcLine pc)) (BitVec.ofNat 64 (pcLine pc))
  else match decodeSlot (T.codeHalf pc) (pcSlot pc) with
    | some i => .instr i
    | none => .trap 0x01 pc ((T.codeHalf pc (pcSlot pc)).setWidth 64)

/-- What the strand whose turn it is fetches: an inline slot, what its leader forwards, or the code at its PC. -/
def State.fetch (s : State) : Fetched :=
  if s.curStrand = 4 then s.me.fetchSlot
  else if s.forwarded then (match s.me.fwdq with | f :: _ => .instr f.ins | [] => .nothing)
  else s.myTile.fetchAt s.me.pc

/-- The strand before its issue: nothing issued in this turn yet, and a forwarded instruction's PC and repeat state are its leader's. -/
def State.prepare (s : State) : State :=
  if s.forwarded then
    s.updMe fun x => match x.fwdq with
      | f :: _ => { x with issued := false, pc := f.pc, rep := f.rep }
      | [] => { x with issued := false }
  else s.updMe fun x => { x with issued := false }

/-- The outcome, target or count that R98 has a follower compare with its leader's, as a number: the guard of BR, the condition
of BRC, the counter of LOOP, the target of JR and RET, the count of REP. A REP guarded off counts 1, and every other
instruction agrees. DEDUCED, log 91. -/
def State.outcome (s : State) : Instr → Nat
  | .br g _ => if s.me.guardedOff g then 0 else 1
  | .brc g cc a b _ => if s.me.guardedOff g then 0 else if condHolds cc (s.me.rd a) (s.me.rd b) then 1 else 0
  | .loop g a _ => if s.me.guardedOff g then 0 else if (s.me.rd a).toNat ≤ 1 then 0 else 1
  | .jr g _ b => if s.me.guardedOff g then 0 else (s.me.rd b).toNat + 1
  | .ret g => if s.me.guardedOff g then 0 else (s.me.rd 1).toNat + 1
  | .rep g a _ n => if s.me.guardedOff g then 1 else if a = 0 then n.toNat else (s.me.rd a).toNat
  | _ => 0

/-- The next PC of the strand whose turn it is, as an issue has left it: where it went, or where it will go on. -/
def State.wentTo (s r : State) : Pc :=
  let x := r.strand s.curTile s.curStrand
  if x.run = .ready ∧ x.hold = .none then x.pc else s.nextOf.1

/-- A follower's outcome, target or count differs from its leader's (R98). -/
def State.diverged (s : State) (i : Instr) : Bool :=
  s.forwarded && (match s.me.fwdq with | f :: _ => decide (s.outcome i ≠ f.outcome) | [] => false)

/-- An instruction reaches the followers of strand k of tile t (R222). -/
def State.sendFwd (s : State) (t k : Nat) (f : Fwd) : State :=
  (s.liveFollowers t).foldl (fun (r : State) u => r.updStrand u k fun x => { x with fwdq := x.fwdq ++ [f] }) s

/-- An issued instruction that holds its strand may still trap on that instruction: an atomic, a swap, a LAUNCH (R57, R251, R371). -/
def Hold.mayTrap : Hold → Bool
  | .atomic _ => true
  | .accsw _ _ => true
  | .tblsw _ _ => true
  | .launch _ => true
  | .launchFrozen _ _ _ => true
  | _ => false

/-- The leader's instruction reaches its followers (R222); a HALT does so from its trap handler too, where it ends the routine
(R43, R98). One that may still trap waits for its retirement, since its followers stand at the trapping point (R223). -/
def State.forward (s : State) (i : Instr) (r : State) : State :=
  if s.leads || (s.leadsList && decide (i = .halt)) then
    let f : Fwd := ⟨i, s.me.pc, s.seqPc, s.wentTo r, s.outcome i, s.me.rep⟩
    if (r.strand s.curTile s.curStrand).hold.mayTrap then r.updStrand s.curTile s.curStrand fun x => { x with fwdHeld := some f }
    else r.sendFwd s.curTile s.curStrand f
  else r

/-- Strand k of tile t forwards the instruction that it held, once it has retired; one that has trapped is not forwarded (R223). -/
def State.releaseFwd (s : State) (t k : Nat) : State :=
  let x := s.strand t k
  match x.fwdHeld with
  | some f =>
    if x.hold = .none then
      let s := s.updStrand t k fun x => { x with fwdHeld := none }
      if x.run = .ready ∧ x.td = false then s.sendFwd t k f else s
    else s
  | none => s

/-- The end of an issue, from the state before it and the state after: a second mismatch of the checker discards it and traps,
a first one counts (R230); a follower's divergence traps (R98); a leader forwards (R222). -/
def State.issued (s : State) (hw : Hw) (i : Instr) (r : State) : State :=
  if !(r.strand s.curTile s.curStrand).issued then r
  else match hw with
  | .check (.failed u l) =>
    (s.updMyTile fun T => T.noteFail u l).trapMe 0x0D s.me.pc (BitVec.ofNat 64 (s.myTile.syndrome u l))
  | _ =>
    if s.diverged i then s.trapMe 0x11 s.me.pc (s.me.pc.setWidth 64)
    else
      let r := match hw with
        | .check (.retried u l) => r.updTile s.curTile fun T => T.noteRetry u l
        | _ => r
      (s.forward i r).noteIssue

/-- The strand whose turn it is issues what it fetches (R60), or takes SRAM_UE at the instruction that reads a failing
structure (R232). DEDUCED, log 94. -/
def State.tryIssue (s : State) (hw : Hw) : Host.Outcome State Fault Refusal :=
  match s.fetch with
  | .nothing => .next s
  | .trap c pc v => .next (s.trapMe c pc v)
  | .instr i =>
    match hw with
    | .sramUe st ix => .next (s.trapMe 0x0E s.me.pc (BitVec.ofNat 64 (st.toNat + 256 * ix.toNat)))
    | _ =>
      match exec i s with
      | .next r => .next (s.issued hw i r)
      | .fault f => .fault f
      | .refused r => .refused r

/-- The tile has still to apply an ABORT or a HALT: nothing of the attempt goes on there (R18). -/
def State.discarding (s : State) (t : Nat) : Bool :=
  match s.pending t with
  | some (_, p) => decide (p.vote = 1) || decide (p.vote = 3)
  | none => false

/-- A strand's turn: its next issue, or the delivery of a user-level interrupt before it (R44, R210). -/
def State.strandTurn (s : State) (t k : Nat) (hw : Hw) : Host.Outcome State Fault Refusal :=
  let s := s.giveTurn t k
  if s.discarding t then .next s
  else if s.stopsNow then .next (s.updMe fun x => { x with run := .stopped, hold := .none })
  else if s.interruptDue then execUserInterruptDelivery t k s
  else if s.canTry then s.prepare.tryIssue hw
  else .next s

/-! ## The hardware's own errors (R232, R301) -/

/-- A double-bit error in the word at a data address (R232): the mark of the physical frame in which it lies. -/
def Tile.wordError (T : Tile) (a : Nat) (delta : Bool) : Tile :=
  if a < 0x8000 ∨ 0x40000 ≤ a then T
  else
    let m := T.mem
    let w := a % 128 / 8
    if delta then
      match m.deltas.find (lineOf a) with
      | none => T
      | some d =>
        let d' : Delta := { d with ownMark := withBit d.ownMark w true, remoteMark := withBit d.remoteMark w true }
        { T with mem := { m with deltas := m.deltas.insert (lineOf a) d', poison := withBit m.poison (16 * d.frame + w) true } }
    else { T with mem := { m with poison := withBit m.poison (m.physOf a / 8) true } }

/-- A corrected single-bit error: SECC counts (R231, R232). -/
def Tile.wordCorrected (T : Tile) : Tile :=
  let n := bitsOf T.chkstat 16 16
  { T with chkstat := withBits T.chkstat 16 16 (if n < 65535 then n + 1 else n) }

/-- An uncorrectable error in a 32-byte granule of memory: its four words read poisoned (R301, R351). -/
def State.granuleError (s : State) (addr : Nat) : State :=
  (List.range 4).foldl (fun (s : State) i => s.setPoisonMark (addr / 32 * 32 + 8 * i) true) s

/-! ## The turn -/

/-- An event's turn: one of a tile that has still to discard its attempt does nothing. -/
def State.eventTurn (s : State) (i : Instr) : Host.Outcome State Fault Refusal :=
  if i.isCode then .next s
  else match eventTile i with
  | some t => if s.discarding t then .next s else exec i s
  | none => exec i s

/-- The turn of something that another package does. -/
def State.peerTurn (s : State) : What → State
  | .peerPut e => s.landPut e
  | .peerWrite p va ws => s.receiveMirror p va ws
  | .peerTier k p va ws => s.putFar k p va ws
  | .peerJob x => s.startPeer x
  | .peerResume id => s.resumePeer id
  | .peerLines id r x => s.updGang id fun g =>
      { g with lines := match x with | some v => g.lines.insert r v | none => SMap.erase g.lines r }
  | .peerGang id h => { s with peerGangs := if h then s.peerGangs ++ [id] else s.peerGangs.filter (· ≠ id) }
  | .peerPlaced r => { s with disp := { s.disp with peers := s.disp.peers ++ [r] } }
  | .peerRank p r e => s.bindRank p r e
  | _ => s

/-- What a turn's agent does. -/
def State.act (s : State) : What → Host.Outcome State Fault Refusal
  | .strand t k hw => s.strandTurn t k hw
  | .event i => s.eventTurn i
  | .requestWord n i => s.serve n (some i)
  | .transferWord t n i => .next (if s.discarding t then s else s.moveWord t n i)
  | .accWord t acc i => .next (if s.discarding t then s else s.moveAccWord t acc i)
  | .sendRead n i => .next (s.readSendWord n i)
  | .sendWord n i => .next (s.landSendWord n i)
  | .retryRequest r => if s.reqs.contains r then s.serve (s.reqs.idxOf r) none else .next s
  | .retryAtomic a => if s.amos.contains a then execAtomicPerform (s.amos.idxOf a) s else .next s
  | .retryStore i => if s.ists.contains i then execImmediateStoreArrival (s.ists.idxOf i) none s else .next s
  | .tileWordError t a delta => .next (s.updTile t fun T => T.wordError a delta)
  | .tileWordCorrected t => .next (s.updTile t Tile.wordCorrected)
  | .tileControlError t _ _ => .next (s.failTile t 1 0x0E)
  | .tileRestoreError t => .next (s.failTile t 3 0x0E)
  | .tileSramFault t => .next (s.updTile t fun T => { T with sramBad := true })
  | .rowCorrected stack row => .next (s.rowError stack row)
  | .channelCorrected c => .next (s.channelError c)
  | .memGranuleError a => .next (s.granuleError a)
  | .storer t ring => .next (if s.discarding t then s else s.beginDrain t ring)
  | .remapRequest c m => .next (s.requestRemap c m)
  | .sensors die stack hbm => .next (State.stackTemp { s with pkg := { s.pkg with diemax := die } } stack hbm)
  | .flitSent port lane => .next (s.updPort port fun x => x.send lane)
  | .flitReceived port seq bad => .next (s.updPort port fun x => x.receive seq bad)
  | .laneFull port lane full => .next (s.updPort port fun x => { x with full := withBit x.full lane.toNat full })
  | .flitRerouted port other => .next (s.rerouteFlit port other)
  | .route pkg reached => .next (s.setRoute pkg reached)
  | .flitAck port seq => .next (s.updPort port fun x => x.acknowledge seq)
  | .idle => .next s
  | w => .next (s.peerTurn w)

/-- A tile after a turn: its all-parked line, whose falls the activity count counts (R256). -/
def Tile.watchLine (T : Tile) : Tile :=
  if T.gang = 0 then T else { T with line := T.lineNow, act := if T.line && !T.lineNow then T.act + 1 else T.act }

/-- The strand runs a routine of its tile's list. -/
def Strand.listRoutine (x : Strand) : Bool := !x.routine.getLsbD 15

/-- A follower's strand k stops with its leader's: what is still forwarded to it goes, and so do the dispatches that it has not made. -/
def Tile.stopFollowing (T : Tile) (k : Nat) : Tile :=
  let x := T.strands.get k {}
  let T := { T with seq := { T.seq with fwdDispatch := T.seq.fwdDispatch.filter fun d => decide (d.2.1 ≠ k) } }
  if x.listRoutine then { T with strands := T.strands.set k {} { x with run := .stopped, hold := .none, fwdq := [] } } else T

/-- When a list routine of a leader stops in a turn, the same strands of its followers go to STOPPED (R223). -/
def State.stopFollowers (old new : State) (t : Nat) : State :=
  if (new.tile t).leader then
    (List.range 4).foldl (fun (s : State) k =>
      let x := new.strand t k
      if decide (x.run = .stopped) && decide ((old.strand t k).run ≠ .stopped) && x.listRoutine then
        (new.followers t).foldl (fun (s : State) u => s.updTile u fun U => U.stopFollowing k) s
      else s) new
  else new

/-- What the strand is parked on, it tests itself: a semaphore, a full bit, a bale or a ring, QPENDING. -/
def Reason.own : Reason → Bool
  | .sem => true
  | .word => true
  | .bale => true
  | .qpend => true
  | _ => false

/-- What strand k of tile t leaves if it tries now, unless it parks again: the condition that it awaits holds. -/
def State.tryWake (s : State) (t k : Nat) : Option State :=
  match (s.strand t k).run with
  | .parked w =>
    if !w.own then none
    else match (s.giveTurn t k).prepare.tryIssue .ok with
    | .next r => (match (r.strand t k).run with | .parked _ => none | _ => some r)
    | _ => some s
  | _ => none

/-- Parked strands whose condition holds are READY (R38). Each is tried against what those before it would leave, in strand order (R57). -/
def State.wakeStrands (s : State) : State :=
  let ks := s.tiles.flatMap fun kT => (List.range 5).map fun k => (kT.1, k)
  (ks.foldl (fun (x : State × State) tk =>
    match x.2.tryWake tk.1 tk.2 with
    | some r => (x.1.updStrand tk.1 tk.2 fun y => { y with run := .ready }, r)
    | none => x) (s, s)).1

/-- What every turn ends with: leaders forward what they held, followers stop with their leaders, strands wake, the all-parked lines are
watched, and warnings ask for checkpoints. -/
def State.watch (old s : State) : State :=
  let ts := s.tiles.map (·.1)
  let s := ts.foldl (fun (s : State) t => (List.range 4).foldl (fun (s : State) k => s.releaseFwd t k) s) s
  let s := (s.gangs.map (·.1)).foldl State.settleLink s
  let s := (ts.foldl (State.stopFollowers old) s).wakeStrands
  State.warned old { s with tiles := s.tiles.map fun kT => (kT.1, kT.2.watchLine) }

/-- What a turn claims of the orders within a cycle. -/
def State.claims (s : State) : What → List (Arbiter × Nat)
  | .strand t k _ =>
    let x := s.giveTurn t k
    if !x.canTry then [] else (match x.fetch with | .instr i => x.strandClaims t k i | _ => [])
  | .event i => s.eventClaims i
  | .retryAtomic a => s.atomicClaims (s.amos.idxOf a)
  | _ => []

/-- The state in which a turn's agent acts: cycles have passed, one more when an order within the cycle wants it. -/
def State.begin (s : State) (x : Turn) : State :=
  let claims := s.claims x.what
  let late := decide (x.cycles = 0) && s.outOfOrder claims
  { s.passTime (if late then 1 else x.cycles) with
    acting := x.what, moved := if decide (x.cycles = 0) && !late then s.moved ++ claims else claims }

/-- One turn: cycles pass, the agent acts, and what every turn ends with. -/
def State.take (s : State) (x : Turn) : Host.Outcome State Fault Refusal :=
  match (s.begin x).act x.what with
  | .next s' => .next (State.watch (s.begin x) s')
  | .fault f => .fault f
  | .refused r => .refused r

/-- The next turn: the agenda's first, or one cycle for the strand that had the latest. -/
def State.nextTurn (s : State) : Turn × State :=
  match s.agenda with
  | [] => (⟨1, .strand s.curTile s.curStrand .ok⟩, s)
  | x :: rest => (x, { s with agenda := rest })

/-! ## Placing one instruction -/

/-- The i-th halfword of a number. -/
def halfOf (v i : Nat) : Nat := v / 2 ^ (16 * i) % 2 ^ 16

/-- The halfwords of a code line that holds one instruction of the opcode table's numbering: the header, the head in
slot 1, its tail from halfword 31 downward (R47-R49); LIT takes a literal head with a zero literal after it (R55). -/
def oneLine (nbits w : Nat) : List (Nat × Nat) :=
  let head := tableHead nbits w
  let tv := (tableTail nbits w).toNat
  let lit := decide (head = 0x1100)
  [(0, if lit then 2 * 2048 else 2048), (1, head.toNat)] ++ (if lit then [(2, 0xFD00)] else []) ++
    (List.range (tailLen head)).map fun j => (31 - j, halfOf tv j)

/-- The bytes of a line's halfwords. -/
def lineBytes (l : List (Nat × Nat)) : List Host.Cell :=
  l.foldl (fun m ih => SMap.set (SMap.set m (2 * ih.1) 0 (BitVec.ofNat 8 ih.2)) (2 * ih.1 + 1) 0 (BitVec.ofNat 8 (ih.2 / 256))) []

/-- The tile with one instruction in line 0 of its code and strand 0 READY at it. -/
def Tile.withLine (T : Tile) (nbits w : Nat) : Tile :=
  let x : Strand := { Strand.reset 3 with pc := 2, run := .ready }
  { T with code := lineBytes (oneLine nbits w), strands := SMap.set T.strands 0 (Strand.reset 3) x }

end Sys2Proof.Machine
end

