-- ==== Sys2Proof/Machine/Step.lean ====
section
/-! DEFINITION. The step: one turn of the agenda; and the placing of one instruction where the next step fetches. -/

namespace Sys2Proof.Machine

/-- One step of the machine. -/
def step (s : State) : Host.Outcome State Fault Refusal := s.nextTurn.2.take s.nextTurn.1

/-- The state with one instruction placed where the next step fetches it: in line 0 of the code region of the steward tile
0, which stands for the authenticated image that bring-up starts there (R356), with its strand 0 READY at it. -/
def State.withFetchWord (s : State) (nbits w : Nat) : State :=
  { s.updTile 4624 fun T => T.withLine nbits w with agenda := [], curTile := 4624, curStrand := 0, pkg := { s.pkg with up := true } }

end Sys2Proof.Machine
end

