-- ==== Sys2Proof/Safety.lean ====
section
/-! DEFINITION. The words that statements use: when an instruction clears the checks at issue and runs its own effect
(R60), retirement (R50, R57), and the form of the state that every step is to keep. -/

namespace Sys2Proof.Safety

open Sys2Proof.Machine

/-! ## Canonical form -/

/-- Memory's canonical form: addresses strictly rising, no listed byte equal to 0, which an unlisted address reads as. -/
abbrev Memory.wf (m : List Host.Cell) : Prop := SMap.wf (0 : Byte) m = true

/-- The memories of one tile, code and data, in canonical form. -/
abbrev Tile.memWf (T : Tile) : Prop := Memory.wf T.code ∧ Memory.wf T.mem.bytes

/-- The byte of the package's memory at an address. -/
def memByte (s : State) (a : Nat) : Byte := SMap.get s.mem a 0

/-! ## Issue (R60) -/

/-- An instruction of the restricted set of R227, which names some scalar registers. -/
def inSet (g : Guard) (regs : List SReg) : Info := { head := 0, guard := g, msgOk := true, regs := regs }

/-- An instruction outside that set, without a prefix, a privilege check or a sync tail. -/
def ordinary (g : Guard) : Info := { head := 0, guard := g }

/-- An instruction that R82 bars from a REP body. -/
def barred (g : Guard) : Info := { head := 0, guard := g, bodyOk := false }

/-- An instruction that needs a privilege level. -/
def privileged (g : Guard) (level : Nat) : Info := { head := 0, guard := g, priv := level }

/-- An instruction that takes a format prefix. -/
def formatted (g : Guard) (f : Formats) : Info := { head := 0, guard := g, formats := some f }

/-- The checks that R60 makes before an instruction's own causes let it through: it may stand where it stands (R82), a prefix
in force is one it takes (R59), its guard is not poisoned and not false (R53, R58), the message context may run it (R227),
and the privilege level allows it. -/
def Clears (s : State) (i : Info) : Prop :=
  (s.me.rep.active = true → s.me.td = false → i.bodyOk = true) ∧
  s.me.prefixMisuse i = false ∧
  s.me.guardPoison i.guard = false ∧
  s.me.guardedOff i.guard = false ∧
  (s.curStrand = 4 → i.msgOk = true ∧ ∀ r ∈ i.regs, r.toNat < 16) ∧
  i.priv ≤ s.me.priv

/-- The format pair in force for the strand whose turn it is (R59). -/
def pairOf (s : State) (f : Formats) : Nat × Nat := s.me.formatPair f

/-- An instruction issued at `s` has had its effect, which gave `s'`, and retires: the strand goes on at the next PC
(R50, R81), with no prefix in force (R59). -/
def retired (s s' : State) : State := s'.retireAt s.nextOf.1 s.nextOf.2 false

/-- The same, where the instruction has set the PC and the repeat state. -/
def retiredAt (s' : State) (pc : Pc) (r : Rep) : State := s'.retireAt pc r false

/-- The state after an instruction whose one result goes to s[d] with a tag (R27, R30). -/
def regResult (s : State) (d : SReg) (v : Word) (tag : Bool) : State := retired s (s.updMe fun x => x.wr d v tag)

/-- The state after an instruction with an effect, which gave `u`, and an answer code in s[d] with a clear tag. -/
def answers (s u : State) (d : SReg) (c : Word) : State := retired s (u.updMe fun x => x.wr d c false)

/-- The state after an instruction whose one result goes to predicate pN with a tag (R27, R30). -/
def predResult (s : State) (n : PReg) (v tag : Bool) : State := retired s (s.updMe fun x => x.pwr n v tag)

/-- The wait of a sync tail can be met now and its signal, where it is due at retirement, does not overflow (R57). -/
def SyncReady (s : State) (sy : Sync) (sigNow : Bool) : Prop :=
  s.waitMet sy = true ∧ (sigNow = true → sy.sinc ≠ 0 → s.myTile.semOver sy.ssem.toNat sy.sinc.toNat = false)

/-- The strand whose turn it is takes a trap at its instruction (R42). -/
def traps (s : State) (cause : Nat) (val : Word) : State := s.trapMe cause s.me.pc val

/-! ## Control (R50, R51) -/

/-- A transfer of control to a target completes: R51 has nothing against it; on a follower the leader has checked it; in the
message context it skips forward over inline slots (R99, R227). -/
def Landing (s : State) (target : Nat) : Prop :=
  if s.curStrand = 4 then s.me.pc.toNat < target ∧ target ≤ s.me.slots.length
  else s.forwarded = true ∨ s.myTile.badTarget target = false

/-- The strand goes on at a target. -/
def goesTo (s s' : State) (target : Nat) : State := retiredAt s' (BitVec.ofNat 15 target) s.me.rep

/-! ## Traps (R42) -/

/-- A trap of strand k of tile t with this cause reaches its handler (R42): the cause is vectored, no handler runs, TVEC holds
one, and R51 accepts it; a follower and the message context have none (R46, R223). -/
def Handled (s : State) (t k cause : Nat) : Prop :=
  vectored cause = true ∧ (s.strand t k).td = false ∧ (s.strand t k).tvec ≠ 0 ∧ k ≠ 4 ∧
    (s.tile t).follower = false ∧ (s.tile t).badTarget (s.strand t k).tvec.toNat = false

/-! ## Tile memory (R85, R127-R131) -/

/-- A scalar access of n bytes at [a + imm] passes the checks of R85 before its store data: the base is not poisoned, the
address is a tile address and a multiple of n, its region serves, its segment is not gated, and no immediate store of the strand
to its word is in flight (R265, R266). -/
def Reaches (s : State) (a : SReg) (imm : BitVec 15) (n : Nat) (ok : Region → Bool) (e : Nat) : Prop :=
  s.me.tag a = false ∧ ((s.me.rd a).toNat : Int) + imm.toInt = e ∧ e < 0x40000 ∧ e % n = 0 ∧
    ok (s.myTile.region e) = true ∧ s.myTile.gatedAt e = false ∧ s.storePending s.curTile e = false

/-- The value of a load of a size at an address over a view of memory: its bytes, lowest first, sign-extended (R4, R85). -/
def bytesValue (f : Nat → Byte) (sz : Size) (e : Nat) : Word :=
  match sz with
  | .b => (f e).signExtend 64
  | .h => (f (e + 1) ++ f e).signExtend 64
  | .w => (f (e + 3) ++ f (e + 2) ++ f (e + 1) ++ f e).signExtend 64
  | .d => f (e + 7) ++ f (e + 6) ++ f (e + 5) ++ f (e + 4) ++ f (e + 3) ++ f (e + 2) ++ f (e + 1) ++ f e

/-- What a load of a size at a tile address reads (R85). -/
def loadValue (T : Tile) (sz : Size) (e : Nat) : Word := bytesValue T.byteAt sz e

/-- A line of a versioned or scratch segment of the resident context. -/
def dataLine (T : Tile) (l : Nat) : Bool := (T.region (0x8000 + 128 * l)).vs

/-- The lines of the versioned and scratch segments of the resident context. -/
def dataLines (T : Tile) : List Nat := (List.range 1792).filter (dataLine T)

/-- The frames of a tile's data lines, deltas and free list: each of them once when every frame has one owner. -/
def frameOwners (T : Tile) : List Nat := (dataLines T).map T.mem.frameOf ++ T.mem.deltas.map (·.2.frame) ++ T.mem.free

/-- Deltas stand in line order, and every frame has one owner: the committed image of one data line, the delta of one data line, or the free list (R129,
R130, R136). -/
def FramesOk (T : Tile) : Prop :=
  (T.mem.deltas.map (·.1)).Pairwise (· < ·) ∧ (∀ x ∈ T.mem.deltas, x.1 ∈ dataLines T) ∧ (frameOwners T).Nodup

/-- The byte at a versioned address is in the own mask: the tile's strands and engines read what they have written there (R132). -/
def ownWritten (T : Tile) (a : Nat) : Bool :=
  match T.mem.deltas.find (lineOf a) with
  | some d => d.own.getLsbD (a % 128)
  | none => false

/-- A store of a strand at a data address finds its delta: the line has one, or a frame is free; a scratch segment needs
none (R85, R130). -/
def HasDelta (T : Tile) (e : Nat) : Prop :=
  T.region e = .seg .s ∨ (T.mem.deltas.find (lineOf e)).isSome = true ∨ T.mem.free ≠ []

/-- Tile memory after a store of n bytes of v at e, against tile memory before: the bytes stored read back, and every
other byte that loads can read is as before. -/
def StoredAt (T U : Tile) (e n : Nat) (v : Word) : Prop :=
  (∀ i, i < n → U.byteAt (e + i) = v.extractLsb' (8 * i) 8) ∧
    (∀ a, (T.region a).readable = true → a < e ∨ e + n ≤ a → U.byteAt a = T.byteAt a) ∧ U.region = T.region

/-- No tile but t differs. -/
def OtherTilesSame (s s' : State) (t : Nat) : Prop := ∀ u, u ≠ t → s'.tile u = s.tile u

/-! ## Frames of the strand -/

/-- What an instruction that writes no vector, mask, stream or strand system register leaves: all of those, and STATUS but for
its prefix fields, which retirement clears (R59). -/
def OtherRegsSame (x y : Strand) : Prop :=
  y.v = x.v ∧ y.vtag = x.vtag ∧ y.q = x.q ∧ y.qtag = x.qtag ∧ y.k = x.k ∧ y.status = (x.setSt 2 9 0).status ∧
    y.trappc = x.trappc ∧ y.trapcause = x.trapcause ∧ y.trapval = x.trapval ∧ y.tvec = x.tvec ∧
    y.scratchsv = x.scratchsv ∧ y.uipc = x.uipc ∧ y.xferid = x.xferid ∧ y.routine = x.routine ∧ y.rseq = x.rseq

/-! ## Vectors (R101, R156-R163) -/

/-- A vector instruction with elements of width w completes: under the guard's active lanes vd takes the elements of `f`, with
the poison `poison` of their lanes and of the governing mask bits; its other lanes stay as they are; the flags that `f` gives
for the active elements are ORed into STATUS; and nothing else changes (R156). -/
def VecDone (s : State) (g : Guard) (vd : VReg) (w : Nat) (f : Nat → Nat × Flags) (poison : Nat → Bool)
    (o : Host.Outcome State Fault Refusal) : Prop :=
  ∃ (v : Vec) (p : BitVec 64) (fl : Flags),
    o = .next (retired s (s.updMe fun x => (x.vwr vd v p).raiseFlags fl)) ∧
    (∀ e, e < 2048 / w → element v.toNat w e =
      if (s.me.active g).getLsbD (w * e / 32) then (f e).1 % 2 ^ w else element (s.me.vrd vd).toNat w e) ∧
    (∀ i, i < 64 → p.getLsbD i =
      if (s.me.active g).getLsbD i then poison i || (s.me.maskPoison g).getLsbD i else (s.me.vt vd).getLsbD i) ∧
    (∀ b, b < 5 → (fl.bits.testBit b = true ↔
      ∃ e, e < 2048 / w ∧ (s.me.active g).getLsbD (w * e / 32) = true ∧ (f e).2.bits.testBit b = true))

/-- A result that is rounded once, with the flags of the operation and of the rounding (R106, R165). -/
def roundedTo (F : FloatFmt) (mode : Nat) (seed : Word) (r : XVal × Flags) : Nat × Flags :=
  ((F.round r.1 mode seed).1, r.2.or (F.round r.1 mode seed).2)

/-- The poison of lane i of some vector registers. -/
def lanePoison (s : State) (vs : List VReg) (i : Nat) : Bool := vs.any fun v => (s.me.vt v).getLsbD i

/-- Every active lane's address lies in a region that serves the access, and not in a gated segment (R159), and no immediate
store of the strand to its word is in flight (R265). -/
def LanesReach (s : State) (g : Guard) (addr : Nat → Nat) (ok : Region → Bool) : Prop :=
  ∀ i, i < 64 → (s.me.active g).getLsbD i = true →
    addr i < 0x40000 ∧ ok (s.myTile.region (addr i)) = true ∧ s.myTile.gatedAt (addr i) = false ∧
      s.storePending s.curTile (addr i) = false

/-- What vd holds after a load of the active lanes from their addresses (R159). -/
def LanesLoaded (s : State) (g : Guard) (vd : VReg) (addr : Nat → Nat) (v : Vec) (p : BitVec 64) : Prop :=
  ∀ i, i < 64 →
    (lane v i = if (s.me.active g).getLsbD i then
        s.myTile.byteAt (addr i + 3) ++ s.myTile.byteAt (addr i + 2) ++ s.myTile.byteAt (addr i + 1) ++ s.myTile.byteAt (addr i)
      else lane (s.me.vrd vd) i) ∧
    (p.getLsbD i = if (s.me.active g).getLsbD i then s.myTile.poisonAt (addr i) || (s.me.maskPoison g).getLsbD i
      else (s.me.vt vd).getLsbD i)

/-- A store of the active lanes of vs can be made: no active lane is poisoned, and the free frames suffice for the lines that
need a delta (R159). -/
def LanesStorable (s : State) (g : Guard) (vs : VReg) (addr : Nat → Nat) : Prop :=
  (∀ i, i < 64 → (s.me.active g).getLsbD i = true → ((s.me.vt vs).getLsbD i || (s.me.maskPoison g).getLsbD i) = false) ∧
    s.myTile.fullLane addr (lanesOf (s.me.active g)) [] = none

/-- The tile after a store of the active lanes of vs: of the lanes with one address the highest is stored, its bytes read
back, every other byte that loads can read is as before, and the frames keep their owners (R159, R163). -/
def LanesStored (s : State) (g : Guard) (vs : VReg) (addr : Nat → Nat) (U : Tile) : Prop :=
  (∀ i, i < 64 → (s.me.active g).getLsbD i = true →
    (∀ j, i < j → j < 64 → (s.me.active g).getLsbD j = true → addr j ≠ addr i) →
    ∀ b, b < 4 → U.byteAt (addr i + b) = (s.me.vrd vs).extractLsb' (32 * i + 8 * b) 8) ∧
  (∀ a, (s.myTile.region a).readable = true →
    (∀ i, i < 64 → (s.me.active g).getLsbD i = true → a < addr i ∨ addr i + 4 ≤ a) → U.byteAt a = s.myTile.byteAt a) ∧
  U.region = s.myTile.region ∧ FramesOk U

/-- Two states differ at most in the memory and the vote of one tile. -/
def TileMemOnly (s t : State) : Prop :=
  t.me = s.me ∧ t.mem = s.mem ∧ t.curTile = s.curTile ∧ t.curStrand = s.curStrand ∧ OtherTilesSame s t s.curTile

/-- Two states differ at most in the registers, tables and queues of one tile, not in its memory nor its strands'. -/
def TileCtlOnly (s t : State) : Prop :=
  TileMemOnly s t ∧ t.myTile.mem = s.myTile.mem ∧ t.myTile.strands = s.myTile.strands

/-- The value that an integer atomic leaves in a word of n bits (R252). -/
def amoValue {n : Nat} (op : AmoOp) (w x y : BitVec n) : BitVec n :=
  match op with
  | .add => w + x
  | .and => w &&& x
  | .or => w ||| x
  | .xor => w ^^^ x
  | .min => if w.sle x then w else x
  | .max => if x.sle w then w else x
  | .minu => if w.ule x then w else x
  | .maxu => if x.ule w then w else x
  | .swap => x
  | .cas => if w = y then x else w

/-- What another tile's write of n bytes of v at e leaves (R131, R132, R249): in a scratch segment the bytes at once; in a versioned one,
for the commit: until then other tiles read what they read before, and the tile itself too, but for stored bytes that it has written
itself. -/
def RemoteStored (T U : Tile) (e n : Nat) (v : Word) : Prop :=
  (T.region e = .seg .s → StoredAt T U e n v) ∧
  (T.region e = .seg .v → (∀ i, i < n → U.mem.commit.committed (e + i) = v.extractLsb' (8 * i) 8) ∧
    (∀ b, (T.region b).vs = true → U.remoteByte b = T.remoteByte b) ∧
    (∀ b, (T.region b).readable = true → b < e ∨ e + n ≤ b ∨ ownWritten T b = false → U.byteAt b = T.byteAt b))

/-- s[a] holds an aligned address at an offset of the event window of a gang that holds its whole cluster (R237, R238). -/
def EventAt (s : State) (a : SReg) (off : Nat) : Prop :=
  s.me.tag a = false ∧ s.fullCluster s.curTile = true ∧ 0x380000 ≤ (s.me.rd a).toNat ∧
    (s.me.rd a).toNat = s.myTile.ctl.evbase.toNat + off ∧ off % 8 = 0 ∧ (s.me.rd a).toNat % 8 = 0

/-- Strand k of tile t, parked on an event-space load of d, goes on with a value (R240-R242). -/
def Answered (u : State) (t k : Nat) (d : SReg) (v : Word) : Prop :=
  (u.strand t k).run = .ready ∧ (u.strand t k).hold = .none ∧ (u.strand t k).rd d = (if d = 0 then 0 else v) ∧
    (u.strand t k).tag d = false

/-- s[a] + imm is an aligned address at an offset of the event window of a gang that holds its whole cluster (R89, R237, R238). -/
def EventLoadAt (s : State) (a : SReg) (imm : BitVec 15) (off : Nat) : Prop :=
  s.me.tag a = false ∧ s.fullCluster s.curTile = true ∧ off % 8 = 0 ∧ ∃ ea : Nat,
    ((s.me.rd a).toNat : Int) + imm.toInt = ea ∧ 0x380000 ≤ ea ∧ ea = s.myTile.ctl.evbase.toNat + off ∧ ea % 8 = 0

/-- The strand whose turn it is parks on an event-space load; its registers, memory and the other tiles are as they were (R38). -/
def WaitsForEvent (s t : State) : Prop :=
  t.me = { s.me with run := .parked .event, took := false, issued := true } ∧ t.curTile = s.curTile ∧ t.curStrand = s.curStrand ∧
    t.mem = s.mem ∧ t.myTile.mem = s.myTile.mem ∧ OtherTilesSame s t s.curTile

/-! ## Rounding (R106, R107) -/

/-- The magnitude that code c of a format stands for, in units of 2^k (R102). -/
def codeMag (F : FloatFmt) (k : Int) (c : Nat) : Nat :=
  match F.value c with
  | .fin _ m e _ => m * 2 ^ (e - k).toNat
  | _ => 0

/-- `up` is what a rounding mode says of a magnitude a strictly between lo, an even code or not, and hi (R106): to nearest with ties
to even, toward zero, up, down, to nearest with ties away. -/
def RoundsUp (mode : Nat) (neg hiEven : Bool) (lo a hi : Nat) (up : Bool) : Prop :=
  (mode = 0 → (up = true ↔ hi - a < a - lo ∨ (hi - a = a - lo ∧ hiEven = true))) ∧ (mode = 1 → up = false) ∧
    (mode = 2 → up = !neg) ∧ (mode = 3 → up = neg) ∧ (mode = 4 → (up = true ↔ hi - a ≤ a - lo))

/-- `round` of a format with infinities brings ±m × 2^e into it as R106 and R107 say: a magnitude at or above OVER overflows; an exact
one keeps its value and sets no flag; another goes to one of its two neighbours, as the mode says, with NX, and with UF for a subnormal
result; up to OVER is an overflow. -/
def RoundsRight (F : FloatFmt) (neg : Bool) (m : Nat) (e : Int) (mode : Nat) (seed : Word) : Prop :=
  ∀ (k : Int) (a limit : Nat) (r : Nat × Flags), k = min e F.unit → a = m * 2 ^ (e - k).toNat → limit = 2 ^ (F.emax + 1 - k).toNat →
    r = F.round (.fin neg m e false) mode seed →
    (limit ≤ a → r = F.overflow neg mode) ∧
    (a < limit → ∃ c hi : Nat, c ≤ F.max false ∧ hi = (if c = F.max false then limit else codeMag F k (c + 1)) ∧ codeMag F k c ≤ a ∧ a < hi ∧
      (a = codeMag F k c → r = (F.sign neg + c, {})) ∧
      (codeMag F k c < a → ∃ up : Bool, RoundsUp mode neg (decide ((c + 1) % 2 = 0)) (codeMag F k c) a hi up ∧
        (up = true → c = F.max false → r = F.overflow neg mode) ∧
        ∀ q, q = (if up then c + 1 else c) → q ≤ F.max false →
          r.1 = F.sign neg + q ∧ r.2.nx = true ∧ (r.2.of, r.2.dz, r.2.nv) = (false, false, false) ∧
          (r.2.uf = true → a < 2 ^ (1 - (F.bias : Int) - k).toNat) ∧ (mode ≤ 4 → 0 < q → q < 2 ^ F.frac → r.2.uf = true)))

/-- `sumX` of some terms is their exact sum (R103, R165): NaN for a NaN, with NV for a signalling one, and for infinities of both signs,
with NV; an infinity; else the exact total, counted in units of 2^k. A total of zero is the zero of its terms when they are zeros of one
sign, and else +0, or −0 rounding down; of no terms it is +0. -/
def SumsRight (mode : Nat) (xs : List XVal) : Prop :=
  ((∃ x ∈ xs, x.isNan = true) → ∃ nv, sumX mode xs = (.nan false, { nv := nv }) ∧
    (nv = true ↔ (∃ x ∈ xs, x.snan = true) ∨ (.inf true ∈ xs ∧ .inf false ∈ xs))) ∧
  ((∀ x ∈ xs, x.isNan = false) →
    (.inf true ∈ xs → .inf false ∈ xs → sumX mode xs = (.nan false, { nv := true })) ∧
    (∀ n, .inf n ∈ xs → .inf (!n) ∉ xs → sumX mode xs = (.inf n, {})) ∧
    ((∀ n, .inf n ∉ xs) → ∀ k total : Int, (∀ n m e st, .fin n m e st ∈ xs → m ≠ 0 → k ≤ e) → k ≤ 1024 →
      total = (xs.map fun x => x.scaled k).sum →
      (total ≠ 0 → ∃ m e, sumX mode xs = (.fin (decide (total < 0)) m e false, {}) ∧ k ≤ e ∧ m * 2 ^ (e - k).toNat = total.natAbs) ∧
      (total = 0 → ∃ neg, sumX mode xs = (.fin neg 0 0 false, {}) ∧ (xs = [] → neg = false) ∧
        (∀ z, (∀ x ∈ xs, ∃ e st, x = .fin z 0 e st) → xs ≠ [] → neg = z) ∧
        ((∀ z, ∃ x ∈ xs, ∀ e st, x ≠ .fin z 0 e st) → neg = decide (mode = 3)))))

/-- `mul` of two values is their exact product, its sign the XOR of theirs; 0 × ∞ is NaN with NV (R103, R165). -/
def ProductRight (a b : XVal) : Prop :=
  (a.isNan = true ∨ b.isNan = true → a.mul b = (.nan false, { nv := a.snan || b.snan })) ∧
  ∀ n z, (a = .inf n → b = .inf z → a.mul b = (.inf (n != z), {})) ∧
    (∀ m e st, a = .inf n ∧ b = .fin z m e st ∨ a = .fin z m e st ∧ b = .inf n →
      a.mul b = if m = 0 then (.nan false, { nv := true }) else (.inf (n != z), {})) ∧
    ∀ m e st m' e' st', a = .fin n m e st → b = .fin z m' e' st' → a.mul b = (.fin (n != z) (m * m') (e + e') false, {})

/-- `roundInt` brings ±m × 2^e into an integer format of w bits, from −low to high (R104, R106, R107): at or past OVER of its sign it
is the limit with NV; an integer keeps its value and sets no flag; another goes to one of its two neighbours with NX, and up to OVER to the
limit with NV as well. -/
def IntRoundsRight (code : Nat) (neg : Bool) (m : Nat) (e : Int) (mode : Nat) (seed : Word) : Prop :=
  ∀ (k : Int) (a unit low high cap limit : Nat) (bits : Nat → Nat) (r : Nat × Flags), k = min e 0 → a = m * 2 ^ (e - k).toNat →
    unit = 2 ^ (0 - k).toNat → (code, low, high) ∈ [(7, 128, 127), (8, 0, 255), (9, 8, 7), (10, 2 ^ 15, 2 ^ 15 - 1), (11, 2 ^ 31, 2 ^ 31 - 1)] →
    limit = (if neg then low else high) → cap = limit + 1 →
    (∀ q, bits q = ((if neg then -(q : Int) else q) % 2 ^ fmtWidth code).toNat) → r = roundInt code (.fin neg m e false) mode seed →
    (cap * unit ≤ a → r = (bits limit, { nv := true })) ∧
    (a < cap * unit → ∃ q, q < cap ∧ q * unit ≤ a ∧ a < (q + 1) * unit ∧ (a = q * unit → r = (bits q, {})) ∧
      (q * unit < a → ∃ up, RoundsUp mode neg (decide ((q + 1) % 2 = 0)) (q * unit) a ((q + 1) * unit) up ∧
        (up = false → r = (bits q, { nx := true })) ∧ (up = true → q + 1 < cap → r = (bits (q + 1), { nx := true })) ∧
        (up = true → q + 1 = cap → r = (bits limit, { nx := true, nv := true }))))

/-- What an element of a format code stands for, and how a value is brought into the format (R102, R104, R110, R112): a floating-point
layout, a table's entry and its encoding, or an integer. -/
def CodecOf (t : Tabs) (code : Nat) : Prop :=
  (∀ F, floatFmt code = some F → ∀ b v mode seed, decodeElem t code b = F.value b ∧ roundElem t code v mode seed = F.round v mode seed) ∧
  (∀ (T : Nat → Nat), (code = 4 ∧ T = t.a ∨ code = 5 ∧ T = t.b) → ∀ b v mode seed, decodeElem t code b = e8m10.value (T (b % 256)) ∧
    roundElem t code v mode seed = encodeTable T v mode seed) ∧
  (code ∈ [7, 8, 9, 10, 11] → ∀ b v mode seed, roundElem t code v mode seed = roundInt code v mode seed ∧ ∀ i : Int,
    i = (if code = 8 then ((b % 256 : Nat) : Int) else signedOf (fmtWidth code) b) →
      decodeElem t code b = .fin (decide (i < 0)) i.natAbs 0 false ∧ intValue code b = i)

/-- The lesser or the greater of two elements is one of their patterns, sets no flag, and −0 lies below +0; a quiet NaN gives way to the
other operand, two give the canonical NaN, and a signalling one gives it with NV (R166). -/
def MinMaxRight (F : FloatFmt) (mx : Bool) (x y : Nat) (r : Nat × Flags) : Prop :=
  ((F.value x).snan = true ∨ (F.value y).snan = true → r = (F.nan, { nv := true })) ∧
  ((F.value x).snan = false → (F.value y).snan = false →
    ((F.value x).isNan = true → r = (if (F.value y).isNan then F.nan else y, {})) ∧
    ((F.value x).isNan = false → (F.value y).isNan = true → r = (x, {})) ∧
    ((F.value x).isNan = false → (F.value y).isNan = false → (r = (x, {}) ∨ r = (y, {})) ∧
      (∀ z, z = x ∨ z = y → (F.value r.1).compare (F.value z) ≠ (if mx then .lt else .gt)) ∧
      (x = F.sign true → y = 0 → r.1 = if mx then 0 else F.sign true) ∧
      (x = 0 → y = F.sign true → r.1 = if mx then 0 else F.sign true)))

/-- The class code of a pattern with a sign, an exponent field and a fraction (R169). -/
def classCode (F : FloatFmt) (neg : Bool) (exp frac : Nat) : Nat :=
  if exp = 2 ^ F.exp - 1 then
    if frac = 0 then (if neg then 1 else 128) else if frac / 2 ^ (F.frac - 1) = 0 then 256 else 512
  else if exp = 0 then if frac = 0 then (if neg then 8 else 16) else (if neg then 4 else 32)
  else (if neg then 2 else 64)

/-! ## Dispatch (R28) -/

/-- A strand as a dispatch sets it (R28): its arguments in s2 and s3, PC, TVEC and ROUTINE as given, READY; every other register, tag,
mask, stream register, strand system register and count is zero or clear, and nothing is pending. What a leader has already forwarded to
it stays (R222). -/
def Dispatched (old x : Strand) (pc handler : Pc) (routine : BitVec 16) (a0 a1 : Word) : Prop :=
  x = { s := x.s, pc := pc, tvec := handler, routine := routine, run := .ready, fwdq := old.fwdq } ∧
    (∀ r, x.rd r = if r = 2 then a0 else if r = 3 then a1 else 0) ∧
    (x.k, x.stag, x.p, x.ptag, x.v, x.vtag, x.q, x.qtag) = ([], 0, 0, 0, [], [], [], []) ∧
    (x.status, x.trappc, x.trapcause, x.trapval, x.scratchsv, x.uipc, x.xferid, x.rseq, x.rep) = (0, 0, 0, 0, 0, 0, 0, 0, {})

/-! ## Engine commands and events -/

/-- An instruction that an event retires has issued (R25, R57): its strand stays READY, issues nothing until then, and keeps its
registers; no other tile and no byte of the package's memory differs. -/
def HeldBy (s t : State) (h : Hold) (sy : Sync) : Prop :=
  t.me = { s.me with run := .ready, hold := h, took := sy.wen, issued := true } ∧ t.curTile = s.curTile ∧
    t.curStrand = s.curStrand ∧ OtherTilesSame s t s.curTile ∧ t.mem = s.mem

/-- An instruction with a sync tail completes at issue with an effect `f`: the wait is taken, the effect made, the signal
delivered when it is due at retirement, and the strand goes on (R57, R60). -/
def syncDone (s : State) (sy : Sync) (sigNow : Bool) (f : State → State) : State :=
  retired s (if sigNow then (f (s.takeWait sy)).signalMe sy else f (s.takeWait sy))

/-- An engine completion of tile t can deliver its signal (R57). -/
def SignalFits (s : State) (t : Nat) (sy : Sync) : Prop :=
  sy.sinc = 0 ∨ (s.tile t).semOver sy.ssem.toNat sy.sinc.toNat = false

/-- The semaphores of tile t after a signal (R57). -/
def Signalled (s u : State) (t : Nat) (sy : Sync) : Prop :=
  ∀ i, (u.tile t).sem i = if sy.sinc ≠ 0 ∧ i = sy.ssem.toNat then
      BitVec.ofNat 16 (((s.tile t).sem i).toNat + sy.sinc.toNat)
    else (s.tile t).sem i

/-- The strand that an event has completed goes on: it holds for nothing and its registers are as they were. -/
def GoesOn (s u : State) (t k : Nat) : Prop :=
  (u.strand t k).hold = .none ∧ (∀ r, (u.strand t k).rd r = (s.strand t k).rd r ∧ (u.strand t k).tag r = (s.strand t k).tag r)

/-- Every word of a scratch segment is stale and empty (R137). -/
def ScratchStale (T U : Tile) : Prop :=
  ∀ a, T.region a = .seg .s → U.mem.stale.getLsbD (wordIx a) = true ∧ U.mem.full.getLsbD (wordIx a) = false

/-- The rings after a decision: STOPIN, SUBV and what a subscription holds are clear, nothing is bound or pushed, and the rest is as in a
control context (R149). -/
def RingsDecided (c : Ctl) (U : Tile) : Prop :=
  ∀ i old, old = c.rings.get i {} → U.ring i =
    { first := old.first, cntm1 := old.cntm1, head := old.head, tail := old.tail, occ := old.occ, v := old.v }

/-- Gang g, of which tile t was the last to apply a decision that pre-empts it, stands in the Barn (R19, R374): every tile has saved its
context and is free, tile t with SSTEP `step` and ABORTCNT `aborts`, the others as they stood; its slot has a CONT job. -/
def InBarn (s u : State) (g : Gang) (t : Nat) (step : BitVec 32) (aborts : BitVec 8) : Prop :=
  (∃ h, u.gang (s.tile t).gang = some h ∧ h.state = .inBarn ∧ h.verdict = none ∧ h.todo = []) ∧
  (∀ i ∈ g.place, (u.tile i).gang = 0 ∧ (u.tile i).strands = [] ∧
    ∃ r, (u.tile i).barn.find (s.part g.part).bslot.toNat = some r ∧ r.gang = (s.tile i).gang ∧ r.gti = (s.tile i).gti ∧
      (i = t → r.ctl.sstep = step ∧ r.abortcnt = aborts) ∧
      (i ≠ t → r.ctl = (s.tile i).ctl ∧ r.abortcnt = (s.tile i).abortcnt)) ∧
  (∀ k x, s.slotOf g.qpart g.qid = some k → s.slot k = some x →
    ∃ y, u.slot k = some y ∧ y.cont = true ∧ y.cgang = (s.tile t).gang ∧ y.cprio = g.prio ∧ y.running = false) ∧
  (s.pubs = [] → (u.part g.part).resid = false ∧ (u.part g.part).saved = true)

end Sys2Proof.Safety
end

