-- ==== Sys2Proof/Certificates/Slice0/Obligations.lean ====
section
/-! DEFINITION. The statements about the machine, each with the rule of the spec it formalises. -/

open Sys2Proof Sys2Proof.Machine Sys2Proof.Safety

/-- The register forms of R71 write their result and its tag and retire (R71). -/
def Obligations.ScalarRegisterOperations : Prop :=
  ∀ (s : State) (g : Guard) (d a b : SReg) (x y : Word) (tag : Bool),
    Clears s (inSet g [d, a, b]) → s.me.rd a = x → s.me.rd b = y → (s.me.tag a || s.me.tag b) = tag →
    exec (.add g d a b) s = .next (regResult s d (x + y) tag) ∧
    exec (.sub g d a b) s = .next (regResult s d (x - y) tag) ∧
    exec (.and g d a b) s = .next (regResult s d (x &&& y) tag) ∧
    exec (.or g d a b) s = .next (regResult s d (x ||| y) tag) ∧
    exec (.xor g d a b) s = .next (regResult s d (x ^^^ y) tag) ∧
    exec (.andn g d a b) s = .next (regResult s d (x &&& ~~~y) tag) ∧
    exec (.shl g d a b) s = .next (regResult s d (x <<< (y.toNat % 64)) tag) ∧
    exec (.shr g d a b) s = .next (regResult s d (x >>> (y.toNat % 64)) tag) ∧
    exec (.sra g d a b) s = .next (regResult s d (x.sshiftRight (y.toNat % 64)) tag) ∧
    exec (.rol g d a b) s = .next (regResult s d (x.rotateLeft (y.toNat % 64)) tag) ∧
    exec (.min g d a b) s = .next (regResult s d (if y.slt x then y else x) tag) ∧
    exec (.max g d a b) s = .next (regResult s d (if x.slt y then y else x) tag) ∧
    exec (.minu g d a b) s = .next (regResult s d (if y.ult x then y else x) tag) ∧
    exec (.maxu g d a b) s = .next (regResult s d (if x.ult y then y else x) tag) ∧
    exec (.mul g d a b) s = .next (regResult s d (x * y) tag) ∧
    exec (.mulh g d a b) s = .next (regResult s d (BitVec.ofInt 64 (x.toInt * y.toInt / 2 ^ 64)) tag) ∧
    exec (.mulhu g d a b) s = .next (regResult s d (BitVec.ofNat 64 (x.toNat * y.toNat / 2 ^ 64)) tag)

/-- The immediate forms of R71 take the sign-extended immediate in place of y (R71, R70). -/
def Obligations.ScalarImmediateOperations : Prop :=
  ∀ (s : State) (g : Guard) (d a : SReg) (imm : BitVec 15) (x y : Word) (tag : Bool),
    Clears s (inSet g [d, a]) → s.me.rd a = x → imm.signExtend 64 = y → s.me.tag a = tag →
    exec (.addi g d a imm) s = .next (regResult s d (x + y) tag) ∧
    exec (.andImm g d a imm) s = .next (regResult s d (x &&& y) tag) ∧
    exec (.orImm g d a imm) s = .next (regResult s d (x ||| y) tag) ∧
    exec (.xorImm g d a imm) s = .next (regResult s d (x ^^^ y) tag) ∧
    exec (.andnImm g d a imm) s = .next (regResult s d (x &&& ~~~y) tag) ∧
    exec (.shlImm g d a imm) s = .next (regResult s d (x <<< (y.toNat % 64)) tag) ∧
    exec (.shrImm g d a imm) s = .next (regResult s d (x >>> (y.toNat % 64)) tag) ∧
    exec (.sraImm g d a imm) s = .next (regResult s d (x.sshiftRight (y.toNat % 64)) tag) ∧
    exec (.rolImm g d a imm) s = .next (regResult s d (x.rotateLeft (y.toNat % 64)) tag) ∧
    exec (.minImm g d a imm) s = .next (regResult s d (if y.slt x then y else x) tag) ∧
    exec (.maxImm g d a imm) s = .next (regResult s d (if x.slt y then y else x) tag) ∧
    exec (.minuImm g d a imm) s = .next (regResult s d (if y.ult x then y else x) tag) ∧
    exec (.maxuImm g d a imm) s = .next (regResult s d (if x.ult y then y else x) tag) ∧
    exec (.mulImm g d a imm) s = .next (regResult s d (x * y) tag)

/-- Division truncates toward zero, divides by zero as R72 says, and never traps (R72). -/
def Obligations.Division : Prop :=
  ∀ (s : State) (g : Guard) (d a b : SReg) (x y : Word) (tag : Bool),
    Clears s (inSet g [d, a, b]) → s.me.rd a = x → s.me.rd b = y → (s.me.tag a || s.me.tag b) = tag →
    (y = 0 →
      exec (.div g d a b) s = .next (regResult s d (BitVec.ofInt 64 (-1)) tag) ∧
      exec (.divu g d a b) s = .next (regResult s d (BitVec.ofInt 64 (-1)) tag) ∧
      exec (.rem g d a b) s = .next (regResult s d x tag) ∧
      exec (.remu g d a b) s = .next (regResult s d x tag)) ∧
    (x.toInt = -2 ^ 63 → y.toInt = -1 →
      exec (.div g d a b) s = .next (regResult s d (BitVec.ofInt 64 (-2 ^ 63)) tag) ∧
      exec (.rem g d a b) s = .next (regResult s d 0 tag)) ∧
    (y ≠ 0 →
      exec (.div g d a b) s = .next (regResult s d (BitVec.ofInt 64 (x.toInt.tdiv y.toInt)) tag) ∧
      exec (.divu g d a b) s = .next (regResult s d (BitVec.ofNat 64 (x.toNat / y.toNat)) tag) ∧
      exec (.rem g d a b) s = .next (regResult s d (BitVec.ofInt 64 (x.toInt.tmod y.toInt)) tag) ∧
      exec (.remu g d a b) s = .next (regResult s d (BitVec.ofNat 64 (x.toNat % y.toNat)) tag))

/-- The unary and bit-field operations of R73 and R74 (R73, R74). -/
def Obligations.UnaryAndFieldOperations : Prop :=
  ∀ (s : State) (g : Guard) (d a : SReg) (pos len : BitVec 6) (x : Word) (tag : Bool),
    Clears s (inSet g [d, a]) → s.me.rd a = x → s.me.tag a = tag → pos.toNat + len.toNat + 1 ≤ 64 →
    (∃ n : Nat, exec (.clz g d a) s = .next (regResult s d (BitVec.ofNat 64 n) tag) ∧ n ≤ 64 ∧
      x.toNat < 2 ^ (64 - n) ∧ (x ≠ 0 → 2 ^ (63 - n) ≤ x.toNat) ∧ (x = 0 → n = 64)) ∧
    (∃ n : Nat, exec (.ctz g d a) s = .next (regResult s d (BitVec.ofNat 64 n) tag) ∧ n ≤ 64 ∧
      x.toNat % 2 ^ n = 0 ∧ (x ≠ 0 → x.getLsbD n = true) ∧ (x = 0 → n = 64)) ∧
    exec (.popc g d a) s =
      .next (regResult s d (BitVec.ofNat 64 ((List.range 64).countP fun i => x.getLsbD i)) tag) ∧
    exec (.abs g d a) s = .next (regResult s d (if x.msb then -x else x) tag) ∧
    exec (.mov g d a) s = .next (regResult s d x tag) ∧
    exec (.sext g .b d a) s = .next (regResult s d ((x.setWidth 8).signExtend 64) tag) ∧
    exec (.sext g .h d a) s = .next (regResult s d ((x.setWidth 16).signExtend 64) tag) ∧
    exec (.sext g .w d a) s = .next (regResult s d ((x.setWidth 32).signExtend 64) tag) ∧
    exec (.zext g .b d a) s = .next (regResult s d (x &&& 0xFF) tag) ∧
    exec (.zext g .h d a) s = .next (regResult s d (x &&& 0xFFFF) tag) ∧
    exec (.zext g .w d a) s = .next (regResult s d (x &&& 0xFFFFFFFF) tag) ∧
    exec (.bfx g d a pos len) s =
      .next (regResult s d ((x.extractLsb' pos.toNat (len.toNat + 1)).setWidth 64) tag) ∧
    exec (.bfxS g d a pos len) s =
      .next (regResult s d ((x.extractLsb' pos.toNat (len.toNat + 1)).signExtend 64) tag) ∧
    (∃ v : Word, exec (.bfi g d a pos len) s = .next (regResult s d v (s.me.tag d || tag)) ∧
      ∀ i, i < 64 → v.getLsbD i =
        if pos.toNat ≤ i ∧ i < pos.toNat + len.toNat + 1 then x.getLsbD (i - pos.toNat) else (s.me.rd d).getLsbD i)

/-- LIT, LEA and SEL write what R75 says (R75). -/
def Obligations.LitLeaSel : Prop :=
  ∀ (s : State) (g : Guard) (d a b : SReg) (x y : Word) (tag : Bool),
    s.me.rd a = x → s.me.rd b = y → (s.me.tag a || s.me.tag b) = tag →
    (∀ (len : BitVec 2) (l : Word), Clears s (inSet g [d]) → exec (.lit g d len l) s = .next (regResult s d l false)) ∧
    (∀ scale : BitVec 2, Clears s (inSet g [d, a, b]) →
      exec (.lea g d a b scale) s = .next (regResult s d (x + y <<< scale.toNat) tag)) ∧
    (∀ n : PReg, Clears s (inSet g [d, a, b]) →
      exec (.sel g d a b n) s = .next (regResult s d (if s.me.prd n then x else y) (tag || s.me.pt n)))

/-- CMP and predicate instructions write their predicate with the tag their operands give (R76, R77, R181). -/
def Obligations.ComparisonsAndPredicates : Prop :=
  (∀ (s : State) (g : Guard) (pd : PReg) (a b : SReg) (imm : BitVec 15) (x y z : Word),
    s.me.rd a = x → s.me.rd b = y → imm.signExtend 64 = z →
    (Clears s (inSet g [a, b]) →
      exec (.cmp g .eq pd a b) s = .next (predResult s pd (decide (x = y)) (s.me.tag a || s.me.tag b)) ∧
      exec (.cmp g .ne pd a b) s = .next (predResult s pd (decide (x ≠ y)) (s.me.tag a || s.me.tag b)) ∧
      exec (.cmp g .lt pd a b) s = .next (predResult s pd (x.slt y) (s.me.tag a || s.me.tag b)) ∧
      exec (.cmp g .ge pd a b) s = .next (predResult s pd (!x.slt y) (s.me.tag a || s.me.tag b)) ∧
      exec (.cmp g .ltu pd a b) s = .next (predResult s pd (x.ult y) (s.me.tag a || s.me.tag b)) ∧
      exec (.cmp g .geu pd a b) s = .next (predResult s pd (!x.ult y) (s.me.tag a || s.me.tag b)) ∧
      exec (.tst g pd a b) s = .next (predResult s pd (decide (x &&& y ≠ 0)) (s.me.tag a || s.me.tag b)) ∧
      exec (.tstZ g pd a b) s = .next (predResult s pd (decide (x &&& y = 0)) (s.me.tag a || s.me.tag b))) ∧
    (Clears s (inSet g [a]) →
      exec (.cmpImm g .eq pd a imm) s = .next (predResult s pd (decide (x = z)) (s.me.tag a)) ∧
      exec (.cmpImm g .ne pd a imm) s = .next (predResult s pd (decide (x ≠ z)) (s.me.tag a)) ∧
      exec (.cmpImm g .lt pd a imm) s = .next (predResult s pd (x.slt z) (s.me.tag a)) ∧
      exec (.cmpImm g .ge pd a imm) s = .next (predResult s pd (!x.slt z) (s.me.tag a)) ∧
      exec (.cmpImm g .ltu pd a imm) s = .next (predResult s pd (x.ult z) (s.me.tag a)) ∧
      exec (.cmpImm g .geu pd a imm) s = .next (predResult s pd (!x.ult z) (s.me.tag a)) ∧
      exec (.tstImm g pd a imm) s = .next (predResult s pd (decide (x &&& z ≠ 0)) (s.me.tag a)) ∧
      exec (.tstZImm g pd a imm) s = .next (predResult s pd (decide (x &&& z = 0)) (s.me.tag a)))) ∧
  (∀ (s : State) (g : Guard) (x y z : PReg), Clears s (ordinary g) →
    exec (.pand g x y z) s = .next (predResult s x (s.me.prd y && s.me.prd z) (s.me.pt y || s.me.pt z)) ∧
    exec (.por g x y z) s = .next (predResult s x (s.me.prd y || s.me.prd z) (s.me.pt y || s.me.pt z)) ∧
    exec (.pxor g x y z) s = .next (predResult s x (xor (s.me.prd y) (s.me.prd z)) (s.me.pt y || s.me.pt z)) ∧
    exec (.pnot g x y) s = .next (predResult s x (!s.me.prd y) (s.me.pt y)) ∧
    exec (.pmov g x y) s = .next (predResult s x (s.me.prd y) (s.me.pt y)) ∧
    exec (.pany g x y) s = .next (predResult s x (decide (s.me.qrd y ≠ 0)) (decide (s.me.qt y ≠ 0))) ∧
    exec (.vpand g x y z) s =
      .next (retired s (s.updMe fun m => m.qwr x (m.qrd y &&& m.qrd z) (m.qt y ||| m.qt z))) ∧
    exec (.vpor g x y z) s =
      .next (retired s (s.updMe fun m => m.qwr x (m.qrd y ||| m.qrd z) (m.qt y ||| m.qt z))) ∧
    exec (.vpnot g x y) s = .next (retired s (s.updMe fun m => m.qwr x (~~~(m.qrd y)) (m.qt y))))

/-- BR, BRC, JAL, JR, RET and LOOP: where each goes and what each links or counts (R51, R76, R78, R79, R98, R99, R227). -/
def Obligations.Branches : Prop :=
  ∀ (s : State) (g : Guard) (a b : SReg) (target : BitVec 15) (link : Strand → Strand),
    (∀ x, link x = x.wr a (s.seqPc.setWidth 64) false) →
    (Clears s { barred g with msgOk := true } →
      (Landing s target.toNat → exec (.br g target) s = .next (goesTo s s target.toNat)) ∧
      (¬ Landing s target.toNat → exec (.br g target) s = .next (traps s 0x03 (BitVec.ofNat 64 target.toNat)))) ∧
    (Clears s (barred g) →
    (Landing s target.toNat → exec (.jal g a target) s = .next (goesTo s (s.updMe link) target.toNat)) ∧
    (¬ Landing s target.toNat → exec (.jal g a target) s = .next (traps s 0x03 (BitVec.ofNat 64 target.toNat))) ∧
    (s.me.tag b = false →
      (Landing s (s.me.rd b).toNat →
        exec (.jr g a b) s = .next (goesTo s (s.updMe link) (s.me.rd b).toNat)) ∧
      (¬ Landing s (s.me.rd b).toNat → exec (.jr g a b) s = .next (traps s 0x03 (s.me.rd b)))) ∧
    (s.me.tag 1 = false →
      (Landing s (s.me.rd 1).toNat → exec (.ret g) s = .next (goesTo s s (s.me.rd 1).toNat)) ∧
      (¬ Landing s (s.me.rd 1).toNat → exec (.ret g) s = .next (traps s 0x03 (s.me.rd 1)))) ∧
    (s.me.tag a = false →
      ((s.me.rd a).toNat ≤ 1 →
        exec (.loop g a target) s = .next (retired s (s.updMe fun x => x.wr a 0 false))) ∧
      (1 < (s.me.rd a).toNat → Landing s target.toNat →
        exec (.loop g a target) s = .next (goesTo s (s.updMe fun x => x.wr a (s.me.rd a - 1) false) target.toNat)) ∧
      (1 < (s.me.rd a).toNat → ¬ Landing s target.toNat →
        exec (.loop g a target) s = .next (traps s 0x03 (BitVec.ofNat 64 target.toNat)))) ∧
    (s.me.tag a = false → s.me.tag b = false → ∀ cc : Cond,
      (condHolds cc (s.me.rd a) (s.me.rd b) = false → exec (.brc g cc a b target) s = .next (retired s s)) ∧
      (condHolds cc (s.me.rd a) (s.me.rd b) = true → Landing s target.toNat →
        exec (.brc g cc a b target) s = .next (goesTo s s target.toNat)) ∧
      (condHolds cc (s.me.rd a) (s.me.rd b) = true → ¬ Landing s target.toNat →
        exec (.brc g cc a b target) s = .next (traps s 0x03 (BitVec.ofNat 64 target.toNat)))))

/-- A branch on a poisoned operand and a target that R51 rejects trap with no effect (R51, R55, R78, R79, R81, R373). -/
def Obligations.BranchTraps : Prop :=
  (∀ (s : State) (g : Guard) (cc : Cond) (a b : SReg) (len : BitVec 6) (target : BitVec 15), Clears s (barred g) →
    (s.me.tag b = true → exec (.jr g a b) s = .next (traps s 0x08 (b.setWidth 64))) ∧
    (s.me.tag 1 = true → exec (.ret g) s = .next (traps s 0x08 1)) ∧
    (s.me.tag a = true → exec (.loop g a target) s = .next (traps s 0x08 (a.setWidth 64))) ∧
    (s.me.tag a = true → s.me.td = false → len ≠ 0 → exec (.rep g a len target) s = .next (traps s 0x08 (a.setWidth 64))) ∧
    (s.me.tag a = true → (s.me.tag b = true → a.toNat ≤ b.toNat) →
      exec (.brc g cc a b target) s = .next (traps s 0x08 (a.setWidth 64))) ∧
    (s.me.tag b = true → (s.me.tag a = true → b.toNat ≤ a.toNat) →
      exec (.brc g cc a b target) s = .next (traps s 0x08 (b.setWidth 64)))) ∧
  (∀ (T : Tile) (t : Nat),
    (t < 2 ^ 15 → T.codeOwned (t / 64 * 64) = true →
      (T.badTarget t = true ↔
        t % 2 = 1 ∨ t % 64 / 2 = 0 ∨
          (malformed (T.codeHalf (BitVec.ofNat 15 t)) = false ∧
            ((T.codeHalf (BitVec.ofNat 15 t) 0).toNat / 2048 < t % 64 / 2 ∨
              T.codeHalf (BitVec.ofNat 15 t) (t % 64 / 2) ∈ ([0xFD00, 0xFE00, 0xFF00] : List Half))))) ∧
    (t < 2 ^ 15 → T.codeOwned (t / 64 * 64) = false → T.badTarget t = true) ∧
    (2 ^ 15 ≤ t → T.badTarget t = true))

/-- REP starts its repeat, which ends when R81 says; a count of zero passes over the body (R48, R50, R81, R83, R84). -/
def Obligations.Repeat : Prop :=
  ((∀ (s : State) (g : Guard) (a : SReg) (len : BitVec 6) (n : BitVec 15), Clears s (barred g) → s.me.td = false → len ≠ 0 →
    s.me.tag a = false → ∀ count, count = (if a = 0 then n.toNat else (s.me.rd a).toNat) → 0 < count →
    exec (.rep g a len n) s = .next (retiredAt s s.seqPc ⟨true, count, s.seqPc, len.toNat, 0⟩)) ∧
  (∀ (s : State) (g : Guard), Clears s (barred g) → s.me.td = false →
    (∀ r : SReg, 24 ≤ r.toNat → r.toNat < 32 → s.me.tag r = false) →
    ∃ x : Strand, exec (.repStreamLoad g) s = .next (retired s (s.setMe x)) ∧
      (∀ i, i < 8 → x.krd (BitVec.ofNat 3 i) = s.me.rd (BitVec.ofNat 6 (24 + i)) &&& 0x3FFFFFFFF) ∧
      x = { s.me with k := x.k }) ∧
  (∀ (r : Rep) (seq : Pc), r.active = true →
    (r.idx + 1 < r.len → r.next seq = (seq, { r with idx := r.idx + 1 })) ∧
    (r.len ≤ r.idx + 1 → 1 < r.left → r.next seq = (r.first, { r with left := r.left - 1, idx := 0 })) ∧
    (r.len ≤ r.idx + 1 → r.left ≤ 1 → (r.next seq).1 = seq ∧ (r.next seq).2.active = false))) ∧
  (∀ (s : State) (g : Guard) (a : SReg) (len : BitVec 6) (n : BitVec 15), Clears s (barred g) → s.me.td = false → len ≠ 0 →
    s.me.tag a = false → s.forwarded = false → (if a = 0 then n.toNat else (s.me.rd a).toNat) = 0 →
    ∀ at_ : Nat → Pc, at_ 0 = s.seqPc → (∀ i, at_ (i + 1) = s.myTile.pcAfter (at_ i) (s.myTile.slotsAt (at_ i))) →
    ((∀ i, i < len.toNat → s.myTile.badLine (at_ i) = false) →
      exec (.rep g a len n) s = .next (retiredAt s (at_ len.toNat) {})) ∧
    (∀ j, j < len.toNat → (∀ i, i < j → s.myTile.badLine (at_ i) = false) → s.myTile.badLine (at_ j) = true →
      exec (.rep g a len n) s =
        .next (s.trapMe 0x02 (BitVec.ofNat 15 (pcLine (at_ j))) (BitVec.ofNat 64 (pcLine (at_ j)))))) ∧
  (∀ (s : State) (g : Guard) (a : SReg) (len : BitVec 6) (n : BitVec 15), Clears s (barred g) →
    s.me.td = true ∨ len = 0 → exec (.rep g a len n) s = .next (traps s 0x01 0x4605))

/-- HALT ends the routine, YIELD and NOP only go on, FMT sets its prefix (R43, R45, R59, R80). -/
def Obligations.HaltYieldNopFmt : Prop :=
  (∀ s : State, Clears s (barred Guard.always) → s.uiOutstanding = false → ∃ t, exec .halt s = .next t ∧
    (s.me.td = false → t.me.run = .idle ∧ t.myTile.vote = s.myTile.vote ∧ t.myTile.mem = s.myTile.mem ∧
      (∀ r, t.me.rd r = s.me.rd r) ∧ OtherTilesSame s t s.curTile) ∧
    (s.me.td = true → isSteward s.curTile = false → t.me.run = .idle ∧
      t.myTile.vote = s.myTile.vote.raise 1 s.me.trapcause ∧ t.myTile.seq.failed = true)) ∧
  (∀ s : State, Clears s (ordinary Guard.always) → exec .nop s = .next (retired s s)) ∧
  (∀ s : State, Clears s (barred Guard.always) → ∃ y, exec .yield s = .next (retired s (s.updMe fun x => { x with yieldTo := y })) ∧
    (∀ k, k < 8 → (y.getLsbD k = true ↔ k < 4 ∧ k ≠ s.curStrand ∧ (s.strand s.curTile k).run = .ready))) ∧
  (∀ (s : State) (minor : BitVec 8), s.me.pp = false → s.curStrand ≠ 4 → ∃ t,
    exec (.fmt minor) s = .next t ∧ t = (s.updMe fun x => x.setSt 2 9 (1 + 2 * minor.toNat)).retireAt s.nextOf.1 s.nextOf.2 true ∧
    t.me.pp = true ∧ t.me.pfmt = minor.toNat)

/-- Taking a trap: what is saved, what STATUS becomes, where the strand goes (R42). -/
def Obligations.TrapEntry : Prop :=
  ∀ (s : State) (t k cause : Nat) (pc : Pc) (val : Word) (x y : Strand), Handled s t k cause → x = s.strand t k →
    y = (s.takeTrap t k cause pc val).strand t k →
    y.trapcause = BitVec.ofNat 8 cause ∧ y.trappc = pc ∧ y.trapval = val ∧ y.pc = x.tvec ∧ y.run = .ready ∧
    bitsOf y.status 22 2 = x.priv ∧ y.status.getLsbD 24 = x.pp ∧ bitsOf y.status 25 8 = x.pfmt ∧
    y.pp = false ∧ y.pfmt = 0 ∧ y.priv = (if x.priv = 0 then 1 else x.priv) ∧ y.td = true ∧
    (∀ i, (11 ≤ i ∧ i ≤ 20) ∨ 33 ≤ i → y.status.getLsbD i = x.status.getLsbD i) ∧
    y.s = x.s ∧ y.stag = x.stag ∧ y.p = x.p ∧ y.ptag = x.ptag ∧ y.v = x.v ∧ y.vtag = x.vtag ∧ y.q = x.q ∧
    y.qtag = x.qtag ∧ y.k = x.k ∧ y.rep = x.rep ∧ y.tvec = x.tvec ∧
    (∀ u j, u ≠ t ∨ j ≠ k → (s.takeTrap t k cause pc val).strand u j = s.strand u j) ∧
    (∀ u, u ≠ t → (s.takeTrap t k cause pc val).tile u = s.tile u) ∧
    ((s.takeTrap t k cause pc val).tile t).mem = (s.tile t).mem ∧ (s.takeTrap t k cause pc val).mem = s.mem

/-- Traps without a handler stop the strand; TRAP and BRK save the next instruction (R16, R40, R42, R46, R83, R91, R223, R401). -/
def Obligations.TrapStopsAndCalls : Prop :=
  (∀ (s : State) (t k cause : Nat) (pc : Pc) (val : Word) (x : Strand) (r : State), x = s.strand t k →
    r = s.takeTrap t k cause pc val →
    (isSteward t = false →
      (vectored cause = false ∨ x.td = true ∨ x.tvec = 0 ∨ k = 4 ∨ (s.tile t).follower = true) →
      (r.strand t k).trapcause = BitVec.ofNat 8 cause ∧ (r.strand t k).trappc = pc ∧ (r.strand t k).trapval = val ∧
      (r.strand t k).status = x.status ∧ (r.strand t k).run = (if k = 4 then .idle else .stopped) ∧
      (r.tile t).vote = (s.tile t).vote.raise 1 (BitVec.ofNat 8 cause) ∧ (r.tile t).seq.failed = true) ∧
    (isSteward t = false → vectored cause = true → x.td = false → x.tvec ≠ 0 → k ≠ 4 → (s.tile t).follower = false →
      (s.tile t).badTarget x.tvec.toNat = true →
      (r.strand t k).trapcause = 0x03 ∧ (r.strand t k).trappc = pc ∧ (r.strand t k).trapval = x.tvec.setWidth 64 ∧
      (r.strand t k).status = x.status ∧ (r.strand t k).run = .stopped ∧
      (r.tile t).vote = (s.tile t).vote.raise 1 0x03 ∧ (r.tile t).seq.failed = true) ∧
    (isSteward t = true → ¬ Handled s t k cause →
      r.tile t = bootTile s.pkg ∧ r.reports = s.reports ++ [.firmwareFault t])) ∧
  (∀ (s : State) (g : Guard) (imm : BitVec 11), Clears s (ordinary g) →
    (∃ t, exec (.trap g imm) s = .next t ∧ (Handled s s.curTile s.curStrand 0x17 →
      t.me.pc = s.me.tvec ∧ t.me.trapcause = 0x17 ∧ t.me.trappc = s.nextOf.1 ∧ t.me.trapval = imm.setWidth 64 ∧
      t.me.td = true ∧ t.me.rep = s.nextOf.2 ∧ t.me.s = s.me.s ∧ t.me.stag = s.me.stag)) ∧
    (∃ t, exec (.brk g imm) s = .next t ∧ (Handled s s.curTile s.curStrand 0x16 →
      t.me.pc = s.me.tvec ∧ t.me.trapcause = 0x16 ∧ t.me.trappc = s.nextOf.1 ∧ t.me.trapval = imm.setWidth 64 ∧
      t.me.td = true ∧ t.me.rep = s.nextOf.2 ∧ t.me.s = s.me.s ∧ t.me.stag = s.me.stag)))

/-- ERET and ERET.SKIP restore PRIV, PP and PFMT, clear the saved fields, and return (R43). -/
def Obligations.TrapReturn : Prop :=
  ∀ (s : State), s.me.pp = false → s.curStrand ≠ 4 →
    (s.me.priv ≠ 0 → s.me.td = true → s.me.rep.active = false →
      (s.myTile.badTarget s.me.trappc.toNat = false → ∃ t, exec .eret s = .next t ∧ t.me.pc = s.me.trappc ∧
        t.me.priv = bitsOf s.me.status 22 2 ∧ t.me.pp = s.me.status.getLsbD 24 ∧ t.me.pfmt = bitsOf s.me.status 25 8 ∧
        t.me.td = false ∧ bitsOf t.me.status 22 11 = 0 ∧
        (∀ i, (11 ≤ i ∧ i ≤ 20) ∨ 33 ≤ i → t.me.status.getLsbD i = s.me.status.getLsbD i) ∧
        t.me.s = s.me.s ∧ t.me.stag = s.me.stag ∧ t.me.run = .ready ∧ OtherTilesSame s t s.curTile) ∧
      (∀ next, next = s.myTile.pcAfter s.me.trappc (s.myTile.slotsAt s.me.trappc) →
        s.myTile.badTarget next.toNat = false → ∃ t, exec .eretSkip s = .next t ∧ t.me.pc = next ∧
        t.me.priv = bitsOf s.me.status 22 2 ∧ t.me.pp = s.me.status.getLsbD 24 ∧ t.me.pfmt = bitsOf s.me.status 25 8 ∧
        t.me.td = false ∧ bitsOf t.me.status 22 11 = 0 ∧
        (∀ i, (11 ≤ i ∧ i ≤ 20) ∨ 33 ≤ i → t.me.status.getLsbD i = s.me.status.getLsbD i) ∧
        t.me.s = s.me.s ∧ t.me.stag = s.me.stag ∧ t.me.run = .ready ∧ OtherTilesSame s t s.curTile)) ∧
    ((s.me.rep.active = true → s.me.td = true) → (s.me.priv = 0 ∨ s.me.td = false) →
      exec .eret s = .next (traps s 0x04 0x7004) ∧ exec .eretSkip s = .next (traps s 0x04 0x7005))

/-- SYSRD and SYSWR: which numbers exist, who may use them, and what they do (R5, R36, R41, R90). -/
def Obligations.SystemRegisterAccess : Prop :=
  ∀ (s : State) (g : Guard) (d a : SReg) (n : BitVec 12), Clears s (ordinary g) →
    ((sysAccess n.toNat).isSome = true ↔ n.toNat < 0x00C ∨ (0x100 ≤ n.toNat ∧ n.toNat ≤ 0x10E) ∨
      (0x200 ≤ n.toNat ∧ n.toNat ≤ 0x203) ∨ (0x300 ≤ n.toNat ∧ n.toNat ≤ 0x305) ∨ (0x400 ≤ n.toNat ∧ n.toNat ≤ 0x407)) ∧
    (sysAccess n.toNat = none →
      exec (.sysrd g d n) s = .next (traps s 0x01 (BitVec.ofNat 64 (0x7200 + n.toNat * 2 ^ 16))) ∧
      exec (.syswr g a n) s = .next (traps s 0x01 (BitVec.ofNat 64 (0x7201 + n.toNat * 2 ^ 16)))) ∧
    (∀ r w, sysAccess n.toNat = some (r, w) →
      (r ≤ s.me.priv → exec (.sysrd g d n) s = .next (regResult s d (s.sysRead n.toNat) false)) ∧
      (s.me.priv < r → exec (.sysrd g d n) s = .next (traps s 0x04 (BitVec.ofNat 64 (0x7200 + n.toNat * 2 ^ 16)))) ∧
      (∀ l, w = some l → s.me.priv < l →
        exec (.syswr g a n) s = .next (traps s 0x04 (BitVec.ofNat 64 (0x7201 + n.toNat * 2 ^ 16)))) ∧
      ((∀ l, w = some l → l ≤ s.me.priv) → s.me.tag a = true →
        exec (.syswr g a n) s = .next (traps s 0x07 (n.setWidth 64))) ∧
      (w = none → s.me.tag a = false → exec (.syswr g a n) s = .next (retired s s)) ∧
      (∀ l, w = some l → l ≤ s.me.priv → s.me.tag a = false →
        exec (.syswr g a n) s = .next (retired s (s.sysWrite n.toNat (s.me.rd a)))))

/-- The strand's and the tile's system registers read and write as R34 to R36 and their owners say (R34, R35, R36, R128, R136, R138, R153, R211, R305, R313, R346, R401). -/
def Obligations.SystemRegisters : Prop :=
  (∀ (s : State) (v : Word) (x : Strand), x = s.me →
    s.sysRead 0x000 = x.status ∧ s.sysRead 0x001 = x.trappc.setWidth 64 ∧ s.sysRead 0x002 = x.trapcause.setWidth 64 ∧
    s.sysRead 0x003 = x.trapval ∧ s.sysRead 0x004 = x.tvec.setWidth 64 ∧ s.sysRead 0x005 = x.scratchsv ∧
    s.sysRead 0x006 = x.uipc.setWidth 64 ∧ s.sysRead 0x007 = x.xferid.setWidth 64 ∧
    s.sysRead 0x008 = x.routine.setWidth 64 ∧ s.sysRead 0x009 = x.rseq.setWidth 64 ∧
    s.sysRead 0x00A = BitVec.ofNat 64 s.curStrand ∧ s.sysRead 0x00B = BitVec.ofNat 64 s.cycle ∧
    (∀ i, i < 64 → (s.sysWrite 0x000 v).me.status.getLsbD i =
      if (11 ≤ i ∧ i ≤ 13 ∧ bitsOf v 11 3 < 6) ∨ (14 ≤ i ∧ i ≤ 19) ∨ (24 ≤ i ∧ i ≤ 32 ∧ 1 ≤ x.priv) then v.getLsbD i
      else x.status.getLsbD i) ∧
    (1 ≤ x.priv →
      s.sysWrite 0x001 v = s.setMe { x with trappc := v.setWidth 15 } ∧
      s.sysWrite 0x002 v = s.setMe { x with trapcause := v.setWidth 8 } ∧
      s.sysWrite 0x003 v = s.setMe { x with trapval := v } ∧
      s.sysWrite 0x004 v = s.setMe { x with tvec := v.setWidth 15 } ∧
      s.sysWrite 0x005 v = s.setMe { x with scratchsv := v }) ∧
    (x.priv = 0 → ∀ n, n ∈ [1, 2, 3, 4, 5] → s.sysWrite n v = s.setMe x) ∧
    s.sysWrite 0x006 v = s.setMe { x with uipc := v.setWidth 15 } ∧
    (∀ n, n ∈ [7, 8, 9, 10, 11] → s.sysWrite n v = s.setMe x)) ∧
  (∀ (s : State) (v : Word) (T : Tile), T = s.myTile →
    s.sysRead 0x100 = BitVec.ofNat 64 T.gti ∧ s.sysRead 0x101 = BitVec.ofNat 64 s.curTile ∧ s.sysRead 0x103 = T.ctl.seed ∧ s.sysRead 0x104 = T.ctl.hkey ∧
    s.sysRead 0x105 = T.ctl.memcfg ∧ s.sysRead 0x107 = T.ctl.listptr ∧ s.sysRead 0x108 = T.ctl.xschedptr ∧
    s.sysRead 0x10B = T.chkstat ∧ s.sysRead 0x201 = T.ctl.evbase ∧
    s.sysRead 0x106 = BitVec.ofNat 64 (T.mem.free.length + T.poolSize * 2 ^ 11 + T.mem.low * 2 ^ 22) ∧
    (isSteward s.curTile = false →
      s.sysRead 0x102 = T.ctl.sstep.setWidth 64 ∧ s.sysRead 0x300 = BitVec.ofNat 64 T.gang ∧
      s.sysRead 0x302 = T.redres ∧ s.sysRead 0x303 = BitVec.ofNat 64 (T.abortcnt.toNat + T.abortlim.toNat * 2 ^ 8)) ∧
    (isSteward s.curTile = true →
      s.sysRead 0x102 = 0 ∧ s.sysRead 0x10D = 0 ∧ s.sysRead 0x10E = 0 ∧ s.sysRead 0x200 = 0 ∧ s.sysRead 0x300 = 0 ∧
      s.sysRead 0x301 = 0 ∧ s.sysRead 0x302 = 0 ∧ s.sysRead 0x303 = 0 ∧ s.sysRead 0x304 = 0) ∧
    s.sysWrite 0x103 v = s.setTile s.curTile { T with ctl := { T.ctl with seed := v } } ∧
    (∃ k, s.sysWrite 0x104 v = s.setTile s.curTile { T with ctl := { T.ctl with hkey := k } } ∧ ∀ i, i < 64 →
      k.getLsbD i = ((decide (i ≤ 9) || (decide (16 ≤ i) && decide (i ≤ 31))) && v.getLsbD i)) ∧
    (isSteward s.curTile = true → s.sysWrite 0x10D v = s) ∧
    (isSteward s.curTile = false →
      ∃ k, s.sysWrite 0x10D v = s.setTile s.curTile { T with ctl := { T.ctl with budget := k } } ∧ ∀ i, i < 64 →
        k.getLsbD i = if i < 24 then v.getLsbD i else T.ctl.budget.getLsbD i) ∧
    s.sysWrite 0x107 v = s.setTile s.curTile { T with ctl := { T.ctl with listptr := v &&& 0xFFFFFF } } ∧
    s.sysWrite 0x108 v = s.setTile s.curTile { T with ctl := { T.ctl with xschedptr := v &&& 0x3FFFF } } ∧
    s.sysWrite 0x10C v = s.setTile s.curTile { T with ctl := { T.ctl with plbctl := v &&& 0x1FFFF } } ∧
    (bitsOf v 12 10 < 0x380 → s.sysWrite 0x201 v = s) ∧
    (0x380 ≤ bitsOf v 12 10 →
      s.sysWrite 0x201 v = s.setTile s.curTile { T with ctl := { T.ctl with evbase := v &&& 0x3FF000 } }) ∧
    (∀ p, p = s.pkg.partid.toNat → (∃ q, q < 64 ∧ q ≠ p ∧ (s.part q).qslotmap &&& v ≠ 0) → s.sysWrite 0x404 v = s))

/-- SEMWAIT, SEMSIG, SEMRD, PCLR, PARK and WAKE act on semaphores, tags and wake tokens (R38, R39, R92, R93, R94, R99, R227). -/
def Obligations.SemaphoresAndWaking : Prop :=
  (∀ (s : State) (g : Guard) (d : SReg) (v : VReg) (m n : BitVec 8), Clears s (ordinary g) →
    (n.toNat ≤ (s.myTile.sem m.toNat).toNat → exec (.semwait g m n) s =
      .next (retired s (s.setTile s.curTile
        (s.myTile.setSem m.toNat (BitVec.ofNat 16 ((s.myTile.sem m.toNat).toNat - n.toNat)))))) ∧
    ((s.myTile.sem m.toNat).toNat < n.toNat →
      exec (.semwait g m n) s = .next (s.updMe fun x => { x with run := .parked .sem })) ∧
    exec (.semrd g d m) s = .next (regResult s d ((s.myTile.sem m.toNat).setWidth 64) false) ∧
    (1 ≤ s.me.priv →
      exec (.pclr g d) s = .next (regResult s d (s.me.rd d) false) ∧
      exec (.pclrVector g v) s = .next (retired s (s.updMe fun x => x.vwr v (x.vrd v) 0))) ∧
    (s.me.priv = 0 →
      exec (.pclr g d) s = .next (traps s 0x04 0x7106) ∧ exec (.pclrVector g v) s = .next (traps s 0x04 0x7107))) ∧
  (∀ (s : State) (g : Guard) (m n : BitVec 8), Clears s { ordinary g with msgOk := true } →
    ((s.myTile.sem m.toNat).toNat + n.toNat ≤ 65535 → exec (.semsig g m n) s =
      .next (retired s (s.setTile s.curTile
        (s.myTile.setSem m.toNat (BitVec.ofNat 16 ((s.myTile.sem m.toNat).toNat + n.toNat)))))) ∧
    (65535 < (s.myTile.sem m.toNat).toNat + n.toNat → exec (.semsig g m n) s = .next (traps s 0x14 (m.setWidth 64)))) ∧
  (∀ (s : State) (g : Guard) (n : BitVec 2),
    (Clears s (ordinary Guard.always) →
      (s.me.wt = true → exec .park s = .next (retired s (s.updMe fun x => x.setWt false))) ∧
      (s.me.wt = false → exec .park s = .next (s.updMe fun x => { x with run := .parked .park, took := false, issued := true }))) ∧
    (Clears s { ordinary g with msgOk := true } →
      (∀ run, (s.strand s.curTile n.toNat).run = run →
        (run = .idle ∨ run = .stopped → exec (.wake g n) s = .next (retired s s)) ∧
        (run = .ready ∨ (∃ w, run = .parked w ∧ w ≠ .park) →
          exec (.wake g n) s = .next (retired s (s.updStrand s.curTile n.toNat fun x => x.setWt true))) ∧
        (run = .ready → n.toNat = s.curStrand → exec (.wake g n) s = .next (retired s (s.updMe fun x => x.setWt true))) ∧
        (run = .parked .park → n.toNat ≠ s.curStrand → ∀ (x : Strand) (seq : Pc) (rest : List Fwd), x = s.strand s.curTile n.toNat →
          (if s.myTile.follower = true ∧ x.listRoutine = true then ∃ f, x.fwdq = f :: rest ∧ seq = f.seq
            else seq = s.myTile.pcAfter x.pc (s.myTile.slotsAt x.pc) ∧ rest = x.fwdq) →
          ∀ go : Pc × Rep, go = (if x.td then (seq, x.rep) else x.rep.next seq) →
          exec (.wake g n) s = .next (retired s (s.setStrand s.curTile n.toNat
            { x.clearPrefix with
              pc := go.1, rep := go.2, run := .ready, hold := .none, took := false, tested := none, fwdq := rest, issued := true }))))))

/-- LD and LDV write the sign-extended bytes at their address, tagged with the word's poison (R85, R86, R87). -/
def Obligations.LoadsFromTileMemory : Prop :=
  ∀ (s : State) (g : Guard) (sz : Size) (d a : SReg) (imm : BitVec 15) (e : Nat),
    Reaches s a imm sz.bytes Region.readable e →
    (Clears s (inSet g [d, a]) →
      exec (.ld g sz d a imm) s = .next (regResult s d (loadValue s.myTile sz e) (s.myTile.poisonAt e))) ∧
    (Clears s (ordinary g) →
      exec (.ldv g sz d a imm) s = .next (regResult s d (loadValue s.myTile sz e) (s.myTile.poisonAt e)))

/-- What a load of the tile reads in each region (R85, R89, R129, R132). -/
def Obligations.TileMemoryViews : Prop :=
  ∀ (T : Tile) (a : Nat),
    (a < 0x8000 → T.byteAt a = SMap.get T.code (64 * T.cbase + a) 0 ∧ T.poisonAt a = false) ∧
    (T.region a = .seg .v → 0x8000 ≤ a ∧ T.remoteByte a = T.mem.byte (128 * T.mem.frameOf (lineOf a) + a % 128) ∧
      (T.mem.deltas.find (lineOf a) = none → T.byteAt a = T.remoteByte a ∧
        T.poisonAt a = T.mem.poison.getLsbD (16 * T.mem.frameOf (lineOf a) + a % 128 / 8)) ∧
      (∀ d, T.mem.deltas.find (lineOf a) = some d →
        (d.own.getLsbD (a % 128) = true → T.byteAt a = T.mem.byte (128 * d.frame + a % 128)) ∧
        (d.own.getLsbD (a % 128) = false → T.byteAt a = T.remoteByte a))) ∧
    (T.region a = .seg .s → 0x8000 ≤ a ∧ T.byteAt a = T.mem.byte (128 * T.mem.frameOf (lineOf a) + a % 128) ∧
      T.remoteByte a = T.byteAt a ∧
      T.poisonAt a = (T.mem.poison.getLsbD (16 * T.mem.frameOf (lineOf a) + a % 128 / 8) || T.mem.stale.getLsbD (wordIx a))) ∧
    ((T.region a).readable = true ↔ T.region a = .code ∨ T.region a = .seg .v ∨ T.region a = .seg .s) ∧
    (0x40000 ≤ a → T.region a = .none)

/-- Loads and stores raise R85's causes in R85's order, and then have no effect (R85). -/
def Obligations.MemoryAccessChecks : Prop :=
  ∀ (s : State) (g : Guard) (sz : Size) (d a : SReg) (imm : BitVec 15) (ea : Int), Clears s (inSet g [d, a]) →
    ((s.me.rd a).toNat : Int) + imm.toInt = ea →
    (s.me.tag a = true →
      exec (.ld g sz d a imm) s = .next (traps s 0x09 (a.setWidth 64)) ∧
      exec (.st g sz d a imm) s = .next (traps s 0x09 (a.setWidth 64))) ∧
    (s.me.tag a = false → ea % (sz.bytes : Int) ≠ 0 →
      exec (.ld g sz d a imm) s = .next (traps s 0x05 (BitVec.ofInt 64 ea)) ∧
      exec (.st g sz d a imm) s = .next (traps s 0x05 (BitVec.ofInt 64 ea))) ∧
    (s.me.tag a = false → ea % (sz.bytes : Int) = 0 → (ea < 0 ∨ 0x40000 ≤ ea) →
      exec (.ld g sz d a imm) s = .next (traps s 0x06 (BitVec.ofInt 64 ea)) ∧
      exec (.st g sz d a imm) s = .next (traps s 0x06 (BitVec.ofInt 64 ea))) ∧
    (∀ e : Nat, s.me.tag a = false → ea = e → e < 0x40000 → e % sz.bytes = 0 →
      ((s.myTile.region e).readable = false → exec (.ld g sz d a imm) s = .next (traps s 0x06 (BitVec.ofNat 64 e))) ∧
      (s.storable (s.myTile.region e) = false → exec (.st g sz d a imm) s = .next (traps s 0x06 (BitVec.ofNat 64 e))) ∧
      (s.storable (s.myTile.region e) = true → s.me.tag d = true →
        exec (.st g sz d a imm) s = .next (traps s 0x07 (BitVec.ofNat 64 e))) ∧
      (s.storable (s.myTile.region e) = true → s.me.tag d = false → s.myTile.gatedAt e = false →
        s.storePending s.curTile e = false → ¬ HasDelta s.myTile e → exec (.st g sz d a imm) s = .next (traps s 0x0B (BitVec.ofNat 64 e))))

/-- ST and STV store their bytes, change no other readable byte, and clear a whole word's poison (R85, R86, R87, R129, R130, R131). -/
def Obligations.StoresToTileMemory : Prop :=
  ∀ (s : State) (g : Guard) (sz : Size) (d a : SReg) (imm : BitVec 15) (e : Nat) (i : Instr),
    (i = .st g sz d a imm ∧ Clears s (inSet g [d, a])) ∨ (i = .stv g sz d a imm ∧ Clears s (ordinary g)) →
    Reaches s a imm sz.bytes s.storable e → s.me.tag d = false → FramesOk s.myTile → HasDelta s.myTile e →
    ∃ t, exec i s = .next t ∧ StoredAt s.myTile t.myTile e sz.bytes (s.me.rd d) ∧
      (sz = .d → t.myTile.poisonAt e = false) ∧ FramesOk t.myTile ∧
      (∀ r, t.me.rd r = s.me.rd r ∧ t.me.tag r = s.me.tag r) ∧ (∀ n, t.me.prd n = s.me.prd n ∧ t.me.pt n = s.me.pt n) ∧
      OtherRegsSame s.me t.me ∧ t.curTile = s.curTile ∧ t.curStrand = s.curStrand ∧
      OtherTilesSame s t s.curTile ∧ t.mem = s.mem

/-- Reset, a commit and an abort leave every frame of a tile in one place, and free the frames they replace (R134, R135, R136). -/
def Obligations.FramesKept : Prop :=
  FramesOk ({} : Tile) ∧
  (∀ T : Tile, FramesOk T →
    FramesOk { T with mem := T.mem.commit } ∧ FramesOk { T with mem := T.mem.abort } ∧
    (frameOwners { T with mem := T.mem.commit }).Perm (frameOwners T) ∧ (frameOwners { T with mem := T.mem.abort }).Perm (frameOwners T) ∧
    (∀ l d, (l, d) ∈ T.mem.deltas →
      T.mem.commit.frameOf l = d.frame ∧ T.mem.frameOf l ∈ T.mem.commit.free ∧ d.frame ∈ T.mem.abort.free) ∧
    (∀ f ∈ T.mem.free, f ∈ T.mem.commit.free ∧ f ∈ T.mem.abort.free) ∧
    (∀ l, l ∉ T.mem.deltas.map (·.1) → T.mem.commit.frameOf l = T.mem.frameOf l) ∧
    (∀ l, T.mem.abort.frameOf l = T.mem.frameOf l) ∧ T.mem.commit.deltas = [] ∧ T.mem.abort.deltas = [])

/-- LDS.D and LDS.D.E wait for a full word, STF.D writes and fills one (R88). -/
def Obligations.SynchronisingAccesses : Prop :=
  ∀ (s : State) (g : Guard) (d a : SReg) (imm : BitVec 15), Clears s (ordinary g) →
    (∀ e, Reaches s a imm 8 Region.isS e →
      (s.myTile.mem.full.getLsbD (wordIx e) = true →
        exec (.ldsD g d a imm) s = .next (regResult s d (loadValue s.myTile .d e) (s.myTile.poisonAt e)) ∧
        ∃ t, exec (.ldsDE g d a imm) s = .next t ∧ t.me.rd d = (if d = 0 then 0 else loadValue s.myTile .d e) ∧
          t.myTile.mem.full = withBit s.myTile.mem.full (wordIx e) false ∧ t.myTile.byteAt = s.myTile.byteAt) ∧
      (s.myTile.mem.full.getLsbD (wordIx e) = false →
        exec (.ldsD g d a imm) s = .next (s.updMe fun x => { x with run := .parked .word }) ∧
        exec (.ldsDE g d a imm) s = .next (s.updMe fun x => { x with run := .parked .word })) ∧
      (s.me.tag d = false → s.storesLanded = true → FramesOk s.myTile →
        ∃ t, exec (.stfD g d a imm) s = .next t ∧ StoredAt s.myTile t.myTile e 8 (s.me.rd d) ∧
          t.myTile.mem.full.getLsbD (wordIx e) = true ∧ OtherTilesSame s t s.curTile ∧ t.mem = s.mem) ∧
      (s.me.tag d = false → s.storesLanded = false →
        exec (.stfD g d a imm) s = .next (s.updMe fun x => { x with run := .ready }))) ∧
    (∀ e : Nat, s.me.tag a = false → ((s.me.rd a).toNat : Int) + imm.toInt = e → e < 0x40000 → e % 8 = 0 →
      (s.myTile.region e).isS = false →
      exec (.ldsD g d a imm) s = .next (traps s 0x06 (BitVec.ofNat 64 e)) ∧
      exec (.ldsDE g d a imm) s = .next (traps s 0x06 (BitVec.ofNat 64 e)) ∧
      exec (.stfD g d a imm) s = .next (traps s 0x06 (BitVec.ofNat 64 e)))

/-- FENCE and VFENCE complete once what they cover has been performed; VFENCE.d and .y push view writes (R96, R97, R268, R276). -/
def Obligations.FencesComplete : Prop :=
  ∀ (s : State), Clears s (ordinary Guard.always) →
    (∀ sc, sc ∈ [Scope.s, Scope.t, Scope.c] → exec (.fence sc) s = .next (retired s s) ∧
      (s.transfersDone = true → exec (.vfence sc) s = .next (retired s s)) ∧
      (s.transfersDone = false → exec (.vfence sc) s = .next (s.updMe fun x => { x with run := .ready }))) ∧
    (∀ sc, sc ∈ [Scope.g, Scope.d, Scope.y] →
      (s.storesLanded = true → exec (.fence sc) s = .next (retired s s)) ∧
      (s.storesLanded = false → exec (.fence sc) s = .next (s.updMe fun x => { x with run := .ready })) ∧
      (s.storesLanded = true → s.transfersDone = true → ∃ vs, exec (.vfence sc) s = .next (retired s { s with viewWrites := vs }) ∧
        (sc = .g → vs = s.viewWrites) ∧
        (sc ≠ .g → ∀ mine : ViewWrite → Prop, (∀ w, mine w ↔ (w.gang, w.gti) = s.viewer s.curTile ∧ w.strand = s.curStrand) →
          ∀ w, w ∈ vs ↔ ∃ before after, s.viewWrites = before ++ w :: after ∧ ¬ mine w ∧ ∀ x ∈ after, mine x → x.addr ≠ w.addr)) ∧
      (s.storesLanded = false ∨ s.transfersDone = false →
        exec (.vfence sc) s = .next (s.updMe fun x => { x with run := .ready })))

/-- LDC and STC reach the member tile that the address names (R85, R89, R131, R132, R236, R237, R238). -/
def Obligations.ClusterAccess : Prop :=
  (∀ (s : State) (g : Guard) (sz : Size) (d a : SReg) (imm : BitVec 15) (ea h e : Nat), Clears s (ordinary g) →
    s.me.tag a = false → ((s.me.rd a).toNat : Int) + imm.toInt = ea → ea % sz.bytes = 0 → ea < 0x380000 →
    s.fullCluster s.curTile = true → s.memberTile s.curTile (ea / 128 % 16) = some h →
    e = 0x8000 + ea / 2048 * 128 + ea % 128 → (s.myTile.region e).vs = true →
    (s.me.tag d = true → exec (.stc g sz d a imm) s = .next (traps s 0x07 (BitVec.ofNat 64 ea))) ∧
    (s.behind s.curTile h = false → (s.tile h).gatedAt e = false → s.storePending h e = false →
    (h = s.curTile →
      exec (.ldc g sz d a imm) s = .next (regResult s d (loadValue s.myTile sz e) (s.myTile.poisonAt e))) ∧
    (h ≠ s.curTile → ((s.tile h).region e).vs = true →
      exec (.ldc g sz d a imm) s =
        .next (regResult s d (bytesValue (s.tile h).remoteByte sz e) ((s.tile h).remotePoison e))) ∧
    (h ≠ s.curTile → ((s.tile h).region e).vs = false → isSteward h = false → ∃ u v, exec (.ldc g sz d a imm) s = .next (regResult u d v true) ∧
      u.me = s.me ∧ u.mem = s.mem ∧ (u.tile h).vote = (s.tile h).vote.raise 1 0x06 ∧ (u.tile h).mem = (s.tile h).mem ∧
      OtherTilesSame s u h) ∧
    (s.me.tag d = false →
      (h = s.curTile → FramesOk s.myTile →
        (HasDelta s.myTile e → ∃ u, exec (.stc g sz d a imm) s = .next (retired s u) ∧ u.me = s.me ∧
          StoredAt s.myTile u.myTile e sz.bytes (s.me.rd d) ∧ (sz = .d → u.myTile.poisonAt e = false) ∧ FramesOk u.myTile ∧
          OtherTilesSame s u s.curTile ∧ u.mem = s.mem) ∧
        (¬ HasDelta s.myTile e → exec (.stc g sz d a imm) s = .next (traps s 0x0B (BitVec.ofNat 64 ea)))) ∧
      (h ≠ s.curTile → ((s.tile h).region e).vs = false → isSteward h = false → ∃ u, exec (.stc g sz d a imm) s = .next (retired s u) ∧
        u.me = s.me ∧ u.mem = s.mem ∧ (u.tile h).vote = (s.tile h).vote.raise 1 0x06 ∧ (u.tile h).mem = (s.tile h).mem ∧
        OtherTilesSame s u h) ∧
      (h ≠ s.curTile → (((s.tile h).region e).isV = true → s.commitAhead s.curTile h s.netOrd = false) → FramesOk (s.tile h) →
        ((s.tile h).region e).vs = true →
        (HasDelta (s.tile h) e → ∃ u, exec (.stc g sz d a imm) s = .next (retired s u) ∧ u.me = s.me ∧ FramesOk (u.tile h) ∧
          RemoteStored (s.tile h) (u.tile h) e sz.bytes (s.me.rd d) ∧ u.myTile.mem = s.myTile.mem ∧
          (∀ v, v ≠ h → v ≠ s.curTile → u.tile v = s.tile v) ∧ u.mem = s.mem) ∧
        (¬ HasDelta (s.tile h) e → isSteward h = false → ∃ u, exec (.stc g sz d a imm) s = .next (retired s u) ∧ u.me = s.me ∧
          (u.tile h).vote = (s.tile h).vote.raise 1 0x0B ∧ (u.tile h).mem = (s.tile h).mem ∧ OtherTilesSame s u h ∧ u.mem = s.mem))))) ∧
  (∀ (s : State) (g : Guard) (sz : Size) (d a : SReg) (imm : BitVec 15) (ea : Int) (base : Nat), Clears s (ordinary g) →
    s.me.tag a = false → ((s.me.rd a).toNat : Int) + imm.toInt = ea → base = s.myTile.ctl.evbase.toNat →
    (ea % (sz.bytes : Int) ≠ 0 → exec (.ldc g sz d a imm) s = .next (traps s 0x05 (BitVec.ofInt 64 ea)) ∧
      exec (.stc g sz d a imm) s = .next (traps s 0x05 (BitVec.ofInt 64 ea))) ∧
    (ea % (sz.bytes : Int) = 0 →
      (s.fullCluster s.curTile = false ∨ ea < 0 ∨ (0x380000 ≤ ea ∧ (ea < base ∨ base + 0x1000 ≤ ea)) ∨
        (0 ≤ ea ∧ ea < 0x380000 ∧ (s.myTile.region (0x8000 + ea.toNat / 2048 * 128 + ea.toNat % 128)).vs = false) →
        exec (.ldc g sz d a imm) s = .next (traps s 0x06 (BitVec.ofInt 64 ea)) ∧
        exec (.stc g sz d a imm) s = .next (traps s 0x06 (BitVec.ofInt 64 ea))) ∧
      (0x380000 ≤ ea → exec (.stc g sz d a imm) s = .next (traps s 0x06 (BitVec.ofInt 64 ea)) ∧
        (sz ≠ .d → exec (.ldc g sz d a imm) s = .next (traps s 0x06 (BitVec.ofInt 64 ea)))))) ∧
  (∀ (s : State) (g : Guard) (sz : Size) (d a : SReg) (imm : BitVec 15), Clears s (ordinary g) → s.me.tag a = true →
    exec (.ldc g sz d a imm) s = .next (traps s 0x09 (a.setWidth 64)) ∧ exec (.stc g sz d a imm) s = .next (traps s 0x09 (a.setWidth 64)))

/-- MSG reads its descriptor and hands the message to the NoC (R95, R225). -/
def Obligations.MessageSend : Prop :=
  ∀ (s : State) (g : Guard) (a : SReg) (e dest h : Nat) (q : Gang), Clears s (ordinary g) → s.me.tag a = false →
    (s.me.rd a).toNat = e → e < 0x40000 → e % 64 = 0 → s.myTile.rangeIs Region.vs e 64 = true →
    s.myTile.gatedAt e = false → s.sourceReady s.curTile s.curStrand e 64 = true → s.gangOf s.curTile = some q → dest = bitsOf (s.myTile.descriptor e) 9 23 →
    (s.myTile.readPoison e 64 = true → exec (.msg g a) s = .next (traps s 0x07 (s.me.rd a))) ∧
    (s.myTile.readPoison e 64 = false → q.size ≤ dest → exec (.msg g a) s = .next (traps s 0x06 (s.me.rd a))) ∧
    (s.myTile.readPoison e 64 = false → dest < q.size → q.tileAt dest = some h →
      ((s.myTile.descriptor e).getLsbD 2 = true → s.mailLoad h < 16) →
      ∃ t, exec (.msg g a) s = .next (retired s t) ∧ t.myTile.mem = s.myTile.mem ∧ (∀ r, t.me.rd r = s.me.rd r) ∧
        t.msgs = s.msgs ++ [⟨s.curTile, h, ⟨s.myTile.descriptor e, s.myTile.gti, s.me.routine, s.me.msgCount⟩, s.netOrd⟩] ∧
        t.me.msgCount = s.me.msgCount + 1)

/-- VLD, VLDB and VGATH load their active lanes with the poison of the words that hold them (R159, R161, R162, R163, R84). -/
def Obligations.VectorLoads : Prop :=
  ∀ (s : State) (g : Guard) (vd va : VReg) (ign : BitVec 5) (r : SReg) (k : BitVec 3) (slot : BitVec 6) (imm : BitVec 11)
    (ea : Nat), Clears s (ordinary g) →
    (s.me.active g ≠ 0 → s.me.tag r = false → ((s.me.rd r).toNat : Int) + 8 * imm.toInt = ea → ea % 8 = 0 →
      LanesReach s g (fun i => ea + 4 * i) Region.readable →
      ∃ v p, LanesLoaded s g vd (fun i => ea + 4 * i) v p ∧
        exec (.vld g vd ign r imm) s = .next (retired s (s.updMe fun x => x.vwr vd v p))) ∧
    (s.me.active g = 0 → exec (.vld g vd ign r imm) s = .next (retired s s) ∧
      exec (.vldStream g vd k) s = .next (retired s (s.updMe fun x => x.advance k)) ∧
      ((s.myTile.bale slot.toNat).state = 2 → 32 * imm.toNat + 256 ≤ (s.myTile.bale slot.toNat).bytes →
        exec (.vldb g vd ign slot imm) s = .next (retired s s)) ∧
      exec (.vgath g vd va r) s = .next (retired s s)) ∧
    (s.me.active g ≠ 0 → bitsOf (s.me.krd k) 0 18 = ea → ea % 8 = 0 →
      LanesReach s g (fun i => ea + 4 * i) Region.readable →
      ∃ v p kv, LanesLoaded s g vd (fun i => ea + 4 * i) v p ∧
        (bitsOf kv 0 18 : Int) = ((ea : Int) + (BitVec.ofNat 16 (bitsOf (s.me.krd k) 18 16)).toInt) % 2 ^ 18 ∧
        bitsOf kv 18 46 = bitsOf (s.me.krd k) 18 46 ∧
        exec (.vldStream g vd k) s = .next (retired s ((s.updMe fun x => x.vwr vd v p).updMe fun x => x.kwr k kv))) ∧
    (s.me.active g ≠ 0 → (s.myTile.bale slot.toNat).state = 2 →
      32 * imm.toNat + 256 ≤ (s.myTile.bale slot.toNat).bytes → ea = (s.myTile.bale slot.toNat).addr + 32 * imm.toNat →
      LanesReach s g (fun i => ea + 4 * i) Region.readable →
      ∃ v p, LanesLoaded s g vd (fun i => ea + 4 * i) v p ∧
        exec (.vldb g vd ign slot imm) s = .next (retired s (s.updMe fun x => x.vwr vd v p))) ∧
    (s.me.active g ≠ 0 → s.me.tag r = false → (∀ i, i < 64 → (s.me.active g).getLsbD i = true → (s.me.vt va).getLsbD i = false) →
      ∀ addr : Nat → Nat, (∀ i, addr i = (s.me.rd r).toNat + (lane (s.me.vrd va) i).toNat) →
      (∀ i, i < 64 → (s.me.active g).getLsbD i = true → addr i % 4 = 0) → LanesReach s g addr Region.readable →
      ∃ v p, LanesLoaded s g vd addr v p ∧
        exec (.vgath g vd va r) s = .next (retired s (s.updMe fun x => x.vwr vd v p)))

/-- VST, VSTB and VSCAT store their active lanes and change no other readable byte (R159, R161, R162, R163, R129, R130). -/
def Obligations.VectorStores : Prop :=
  ∀ (s : State) (g : Guard) (vd va : VReg) (ign : BitVec 5) (r : SReg) (k : BitVec 3) (slot : BitVec 6) (imm : BitVec 11)
    (ea : Nat), Clears s (ordinary g) →
    (s.me.active g = 0 → exec (.vst g vd ign r imm) s = .next (retired s s) ∧
      exec (.vstStream g vd k) s = .next (retired s (s.updMe fun x => x.advance k)) ∧
      ((s.myTile.bale slot.toNat).state = 2 → 32 * imm.toNat + 256 ≤ (s.myTile.bale slot.toNat).bytes →
        exec (.vstb g vd ign slot imm) s = .next (retired s s)) ∧
      exec (.vscat g vd va r) s = .next (retired s s)) ∧
    (s.me.active g ≠ 0 → FramesOk s.myTile →
    (s.me.tag r = false → ((s.me.rd r).toNat : Int) + 8 * imm.toInt = ea → ea % 8 = 0 →
      LanesReach s g (fun i => ea + 4 * i) Region.vs → LanesStorable s g vd (fun i => ea + 4 * i) →
      ∃ t, exec (.vst g vd ign r imm) s = .next (retired s t) ∧ LanesStored s g vd (fun i => ea + 4 * i) t.myTile ∧
        TileMemOnly s t) ∧
    (bitsOf (s.me.krd k) 0 18 = ea → ea % 8 = 0 → LanesReach s g (fun i => ea + 4 * i) Region.vs →
      LanesStorable s g vd (fun i => ea + 4 * i) →
      ∃ t, exec (.vstStream g vd k) s = .next (retired s (t.updMe fun x => x.advance k)) ∧
        LanesStored s g vd (fun i => ea + 4 * i) t.myTile ∧ TileMemOnly s t) ∧
    ((s.myTile.bale slot.toNat).state = 2 → 32 * imm.toNat + 256 ≤ (s.myTile.bale slot.toNat).bytes →
      ea = (s.myTile.bale slot.toNat).addr + 32 * imm.toNat → LanesReach s g (fun i => ea + 4 * i) Region.vs →
      LanesStorable s g vd (fun i => ea + 4 * i) →
      ∃ t, exec (.vstb g vd ign slot imm) s = .next (retired s t) ∧ LanesStored s g vd (fun i => ea + 4 * i) t.myTile ∧
        TileMemOnly s t) ∧
    (s.me.tag r = false → (∀ i, i < 64 → (s.me.active g).getLsbD i = true → (s.me.vt va).getLsbD i = false) →
      ∀ addr : Nat → Nat, (∀ i, addr i = (s.me.rd r).toNat + (lane (s.me.vrd va) i).toNat) →
      (∀ i, i < 64 → (s.me.active g).getLsbD i = true → addr i % 4 = 0) → LanesReach s g addr Region.vs →
      LanesStorable s g vd addr →
      ∃ t, exec (.vscat g vd va r) s = .next (retired s t) ∧ LanesStored s g vd addr t.myTile ∧ TileMemOnly s t))

/-- VBCAST, VMOVS, VMOVV, VSEL and the permutes move lanes unchanged with their poison (R164, R172, R175). -/
def Obligations.VectorMoves : Prop :=
  ∀ (s : State) (g : Guard) (d r : SReg) (vd va vb vc : VReg) (n : PReg) (ln : BitVec 6), Clears s (ordinary g) →
    VecDone s g vd 32 (fun _ => (bitsOf (s.me.rd r) 0 32, {})) (fun _ => s.me.tag r) (exec (.vbcast g vd r) s) ∧
    VecDone s g vd 32 (fun i => ((lane (s.me.vrd va) i).toNat, {})) (lanePoison s [va]) (exec (.vmovv g vd va) s) ∧
    ((s.me.active g).getLsbD ln.toNat = true → exec (.vmovs g d va ln) s =
      .next (regResult s d ((lane (s.me.vrd va) ln.toNat).setWidth 64)
        ((s.me.vt va).getLsbD ln.toNat || (s.me.maskPoison g).getLsbD ln.toNat))) ∧
    ((s.me.active g).getLsbD ln.toNat = false → exec (.vmovs g d va ln) s = .next (retired s s)) ∧
    VecDone s g vd 32
      (fun i => (if (s.me.qrd n).getLsbD i then (lane (s.me.vrd va) i).toNat else (lane (s.me.vrd vb) i).toNat, {}))
      (fun i => (if (s.me.qrd n).getLsbD i then (s.me.vt va).getLsbD i else (s.me.vt vb).getLsbD i) || (s.me.qt n).getLsbD i)
      (exec (.vsel g vd va vb n) s) ∧
    VecDone s g vd 32 (fun i => ((lane (s.me.vrd va) ((lane (s.me.vrd vb) i).toNat % 64)).toNat, {}))
      (fun i => (s.me.vt va).getLsbD ((lane (s.me.vrd vb) i).toNat % 64) || (s.me.vt vb).getLsbD i)
      (exec (.vperm g vd va vb) s) ∧
    VecDone s g vd 32
      (fun i => ((lane (s.me.vrd (if (lane (s.me.vrd vc) i).getLsbD 6 then vb else va)) ((lane (s.me.vrd vc) i).toNat % 64)).toNat, {}))
      (fun i => (s.me.vt (if (lane (s.me.vrd vc) i).getLsbD 6 then vb else va)).getLsbD ((lane (s.me.vrd vc) i).toNat % 64) ||
        (s.me.vt vc).getLsbD i)
      (exec (.vshuf g vd va vb vc) s) ∧
    VecDone s g vd 32 (fun i => ((lane (s.me.vrd va) ((i + ln.toNat) % 64)).toNat, {}))
      (fun i => (s.me.vt va).getLsbD ((i + ln.toNat) % 64)) (exec (.vrot g vd va ln) s)

/-- Each element of a major 0x22 result is the exact result rounded once in the format in force; sums, products and rounding themselves (R102, R103, R106, R107, R156, R165, R166, R167, R168, R169, R170, R171). -/
def Obligations.VectorFloat : Prop :=
  (∀ (s : State) (g : Guard) (vd va vb vc : VReg) (rm : BitVec 3) (fa w mode : Nat) (F : FloatFmt) (x : VReg → Nat → XVal)
    (R : XVal × Flags → Nat × Flags), Clears s (formatted g floatPairs) →
    fa = (pairOf s floatPairs).1 → F = layout fa → w = fmtWidth fa → mode = (if rm = 7 then s.me.rm else rm.toNat) →
    (∀ v e, x v e = F.value (s.me.elem w v e)) → (∀ r, R r = roundedTo F mode s.myTile.ctl.seed r) →
    VecDone s g vd w (fun e => R (sumX mode [x va e, x vb e])) (lanePoison s [va, vb]) (exec (.vadd g vd va vb rm) s) ∧
    VecDone s g vd w (fun e => R (sumX mode [x va e, (x vb e).neg])) (lanePoison s [va, vb]) (exec (.vsub g vd va vb rm) s) ∧
    VecDone s g vd w (fun e => R ((x va e).mul (x vb e))) (lanePoison s [va, vb]) (exec (.vmul g vd va vb rm) s) ∧
    VecDone s g vd w (fun e => R (fmaX mode (x va e) (x vb e) (x vc e) false false)) (lanePoison s [va, vb, vc])
      (exec (.vfma g vd va vb vc rm) s) ∧
    VecDone s g vd w (fun e => R (fmaX mode (x va e) (x vb e) (x vc e) false true)) (lanePoison s [va, vb, vc])
      (exec (.vfms g vd va vb vc rm) s) ∧
    VecDone s g vd w (fun e => R (fmaX mode (x va e) (x vb e) (x vc e) true false)) (lanePoison s [va, vb, vc])
      (exec (.vnfma g vd va vb vc rm) s) ∧
    VecDone s g vd w (fun e => R (x va e).rcp) (lanePoison s [va]) (exec (.vrcp g vd va rm) s) ∧
    VecDone s g vd w (fun e => R (x va e).rsq) (lanePoison s [va]) (exec (.vrsq g vd va rm) s) ∧
    VecDone s g vd w (fun e => R (x va e).exp2) (lanePoison s [va]) (exec (.vexp2 g vd va rm) s) ∧
    VecDone s g vd w (fun e => R (x va e).log2) (lanePoison s [va]) (exec (.vlog2 g vd va rm) s) ∧
    VecDone s g vd w (fun e => F.round ((x va e).scale2 (signedOf w (s.me.elem w vb e))) mode s.myTile.ctl.seed)
      (lanePoison s [va, vb]) (exec (.vscale g vd va vb rm) s) ∧
    VecDone s g vd w (fun e => F.minMax false (s.me.elem w va e) (s.me.elem w vb e)) (lanePoison s [va, vb])
      (exec (.vmin g vd va vb rm) s) ∧
    VecDone s g vd w (fun e => F.minMax true (s.me.elem w va e) (s.me.elem w vb e)) (lanePoison s [va, vb])
      (exec (.vmax g vd va vb rm) s) ∧
    VecDone s g vd w (fun e => F.signOp false (s.me.elem w va e)) (lanePoison s [va]) (exec (.vabs g vd va rm) s) ∧
    VecDone s g vd w (fun e => F.signOp true (s.me.elem w va e)) (lanePoison s [va]) (exec (.vneg g vd va rm) s) ∧
    VecDone s g vd w (fun e => (F.cls (s.me.elem w va e), {})) (lanePoison s [va]) (exec (.vclass g vd va) s)) ∧
  (∀ (mode : Nat) (xs : List XVal) (a b c : XVal) (np nc : Bool), SumsRight mode xs ∧ ProductRight a b ∧
    ∀ p r, p = a.mul b → r = sumX mode [if np then p.1.neg else p.1, if nc then c.neg else c] →
      (fmaX mode a b c np nc).1 = r.1 ∧ (fmaX mode a b c np nc).2 = { nv := p.2.nv || r.2.nv || c.snan }) ∧
  (∀ F : FloatFmt, F ∈ [fp32, fp16, bf16, e8m10] →
    (∀ (neg : Bool) (m : Nat) (e : Int) (mode : Nat) (seed : Word), RoundsRight F neg m e mode seed) ∧
    (∀ (x : Bool) (mode : Nat) (seed : Word), F.round (.nan x) mode seed = (F.nan, { nv := x }) ∧
      F.round (.inf x) mode seed = (F.inf x, {}) ∧
      F.overflow x mode = (if mode = 1 ∨ (mode = 2 ∧ x = true) ∨ (mode = 3 ∧ x = false) then F.max x else F.inf x,
        { of := true, nx := true })) ∧
    (∀ (mx : Bool) (x y : Nat), x < 2 ^ (1 + F.exp + F.frac) → y < 2 ^ (1 + F.exp + F.frac) → MinMaxRight F mx x y (F.minMax mx x y)) ∧
    (∀ (neg : Bool) (exp frac b : Nat), exp < 2 ^ F.exp → frac < 2 ^ F.frac → b = F.sign neg + exp * 2 ^ F.frac + frac →
      F.cls b = classCode F neg exp frac ∧
      (exp = 2 ^ F.exp - 1 → frac ≠ 0 → ∀ n, F.signOp n b = (F.nan, { nv := decide (frac / 2 ^ (F.frac - 1) = 0) })) ∧
      (exp ≠ 2 ^ F.exp - 1 ∨ frac = 0 → F.signOp false b = (exp * 2 ^ F.frac + frac, {}) ∧
        F.signOp true b = (F.sign (!neg) + exp * 2 ^ F.frac + frac, {}))))

/-- VCMP writes the condition of each active lane to qd (R156, R171). -/
def Obligations.VectorCompare : Prop :=
  (∀ (s : State) (g : Guard) (cc : VCond) (qd : PReg) (va vb : VReg) (fa : Nat) (r : Nat → Bool × Bool),
    Clears s { head := 0, guard := g, formats := some ⟨fun a b => a == b && (decide (a ≤ 2) || decide (a = 11)), 0, 0⟩ } →
    fa = (pairOf s ⟨fun a b => a == b && (decide (a ≤ 2) || decide (a = 11)), 0, 0⟩).1 →
    (∀ e, r e = compareElem fa cc (s.me.elem (fmtWidth fa) va e) (s.me.elem (fmtWidth fa) vb e)) →
    ∃ v p nv, exec (.vcmp g cc qd va vb) s = .next (retired s (s.updMe fun x => (x.qwr qd v p).raiseFlags { nv := nv })) ∧
      (∀ i, i < 64 → v.getLsbD i = if (s.me.active g).getLsbD i then
          (if fmtWidth fa = 32 then (r i).1 else (r (2 * i)).1 && (r (2 * i + 1)).1)
        else (s.me.qrd qd).getLsbD i) ∧
      (∀ i, i < 64 → p.getLsbD i = if (s.me.active g).getLsbD i then lanePoison s [va, vb] i || (s.me.maskPoison g).getLsbD i
        else (s.me.qt qd).getLsbD i) ∧
      (nv = true ↔ ∃ e, e < 2048 / fmtWidth fa ∧ (s.me.active g).getLsbD (fmtWidth fa * e / 32) = true ∧ (r e).2 = true)) ∧
  (∀ (fa : Nat) (cc : VCond) (a b : Nat), fa ≤ 2 →
    (((layout fa).value a).isNan = true ∨ ((layout fa).value b).isNan = true →
      ((compareElem fa cc a b).1 = true ↔ cc = .ne ∨ cc = .un) ∧
      ((compareElem fa cc a b).2 = true ↔ ((layout fa).value a).snan = true ∨ ((layout fa).value b).snan = true ∨
        cc = .lt ∨ cc = .le ∨ cc = .gt ∨ cc = .ge)) ∧
    (((layout fa).value a).isNan = false → ((layout fa).value b).isNan = false →
      (compareElem fa cc a b).2 = false ∧
      ((compareElem fa cc a b).1 = true ↔
        cc = .eq ∧ ((layout fa).value a).compare ((layout fa).value b) = .eq ∨
        cc = .ne ∧ ((layout fa).value a).compare ((layout fa).value b) ≠ .eq ∨
        cc = .lt ∧ ((layout fa).value a).compare ((layout fa).value b) = .lt ∨
        cc = .le ∧ ((layout fa).value a).compare ((layout fa).value b) ≠ .gt ∨
        cc = .gt ∧ ((layout fa).value a).compare ((layout fa).value b) = .gt ∨
        cc = .ge ∧ ((layout fa).value a).compare ((layout fa).value b) ≠ .lt))) ∧
  (∀ (cc : VCond) (a b : Nat), (compareElem 11 cc a b).2 = false ∧
    ((compareElem 11 cc a b).1 = true ↔
      cc = .eq ∧ signedOf 32 a = signedOf 32 b ∨ cc = .ne ∧ signedOf 32 a ≠ signedOf 32 b ∨
      cc = .lt ∧ signedOf 32 a < signedOf 32 b ∨ cc = .le ∧ signedOf 32 a ≤ signedOf 32 b ∨
      cc = .gt ∧ signedOf 32 b < signedOf 32 a ∨ cc = .ge ∧ signedOf 32 b ≤ signedOf 32 a))

/-- The integer and bitwise vector instructions compute each element modulo its width (R179, R180). -/
def Obligations.VectorIntegers : Prop :=
  (∀ (s : State) (g : Guard) (vd va vb vc : VReg) (fa w : Nat) (i : VReg → Nat → Int), Clears s (formatted g intPairs) →
    fa = (pairOf s intPairs).1 → w = fmtWidth fa → (∀ v e, i v e = intValue fa (s.me.elem w v e)) →
    VecDone s g vd w (fun e => (((i va e + i vb e) % 2 ^ w).toNat, {})) (lanePoison s [va, vb]) (exec (.viadd g vd va vb) s) ∧
    VecDone s g vd w (fun e => (((i va e - i vb e) % 2 ^ w).toNat, {})) (lanePoison s [va, vb]) (exec (.visub g vd va vb) s) ∧
    VecDone s g vd w (fun e => (((i va e * i vb e) % 2 ^ w).toNat, {})) (lanePoison s [va, vb]) (exec (.vimul g vd va vb) s) ∧
    VecDone s g vd w (fun e => (((i va e * i vb e + i vc e) % 2 ^ w).toNat, {})) (lanePoison s [va, vb, vc])
      (exec (.vimad g vd va vb vc) s) ∧
    VecDone s g vd w (fun e => ((clampInt fa (i va e + i vb e) % 2 ^ w).toNat, {})) (lanePoison s [va, vb])
      (exec (.viaddSat g vd va vb) s) ∧
    VecDone s g vd w (fun e => ((clampInt fa (i va e - i vb e) % 2 ^ w).toNat, {})) (lanePoison s [va, vb])
      (exec (.visubSat g vd va vb) s) ∧
    VecDone s g vd w (fun e => (s.me.elem w va e * 2 ^ (s.me.elem w vb e % w), {})) (lanePoison s [va, vb])
      (exec (.vshl g vd va vb) s) ∧
    VecDone s g vd w (fun e => (s.me.elem w va e / 2 ^ (s.me.elem w vb e % w), {})) (lanePoison s [va, vb])
      (exec (.vshr g vd va vb) s) ∧
    VecDone s g vd w (fun e => (((i va e / 2 ^ (s.me.elem w vb e % w)) % 2 ^ w).toNat, {})) (lanePoison s [va, vb])
      (exec (.vsra g vd va vb) s)) ∧
  (∀ (s : State) (g : Guard) (vd va vb : VReg), Clears s (ordinary g) →
    VecDone s g vd 32 (fun i => ((lane (s.me.vrd va) i &&& lane (s.me.vrd vb) i).toNat, {})) (lanePoison s [va, vb])
      (exec (.vand g vd va vb) s) ∧
    VecDone s g vd 32 (fun i => ((lane (s.me.vrd va) i ||| lane (s.me.vrd vb) i).toNat, {})) (lanePoison s [va, vb])
      (exec (.vor g vd va vb) s) ∧
    VecDone s g vd 32 (fun i => ((lane (s.me.vrd va) i ^^^ lane (s.me.vrd vb) i).toNat, {})) (lanePoison s [va, vb])
      (exec (.vxor g vd va vb) s) ∧
    VecDone s g vd 32 (fun i => ((List.range 32).countP fun b => (lane (s.me.vrd va) i).getLsbD b, {})) (lanePoison s [va])
      (exec (.vpopc g vd va) s))

/-- VRED, VSCAN, VDOT, VCVT and VBSCL, and the dot product and conversions they make (R104, R110, R112, R119, R120, R123, R124, R158, R173, R174, R176, R177). -/
def Obligations.ReductionsAndConversions : Prop :=
  (∀ (s : State) (g : Guard) (op : RedOp) (d : SReg) (va : VReg) (F : Formats) (fa w : Nat) (leaf : Nat → Option Nat × Flags),
    F = ⟨fun a b => decide (b = 0) && [0, 1, 2, 4, 5, 7, 8, 10].contains a, 0, 0⟩ → Clears s (formatted g F) →
    fa = (pairOf s F).1 → w = fmtWidth fa → (∀ b ∈ boundTables fa 0, s.myTile.swapping b = false) →
    (∀ e, leaf e = if (s.me.active g).getLsbD (w * e / 32) then
        (some (fp32.round (decodeElem s.myTile.tabs fa (s.me.elem w va e)) 0 0).1,
          (fp32.round (decodeElem s.myTile.tabs fa (s.me.elem w va e)) 0 0).2)
      else (none, {})) →
    ∃ v tag fl, exec (.vred g op d va) s = .next (retired s (s.updMe fun x => (x.wr d v tag).raiseFlags fl)) ∧
      v = BitVec.ofNat 64 ((treeReduce (fp32Node op 0 0) (Nat.log2 (2048 / w)) ((List.range (2048 / w)).map fun e => (leaf e).1)).1.getD
        (emptyResult op)) ∧
      (tag = true ↔ ∃ i, i < 64 ∧ ((s.me.active g).getLsbD i = true ∧ (s.me.vt va).getLsbD i = true ∨
        (s.me.maskPoison g).getLsbD i = true)) ∧
      (s.me.active g = 0 → v = BitVec.ofNat 64 (match op with | .add => 0 | .min => 0x7F800000 | .max => 0xFF800000))) ∧
  (∀ (s : State) (g : Guard) (op : RedOp) (vd va vb : VReg) (rm : BitVec 3) (F : Formats) (fa : Nat)
    (step : Option Nat → Nat → Nat × Flags),
    F = ⟨fun a b => a == b && (decide (a = 0) || decide (a = 11)), 0, 0⟩ → Clears s (formatted g F) → fa = (pairOf s F).1 →
    (∀ a, step none a = if fa = 11 then (a, {}) else fp32.round (fp32.value a) (s.me.rmOf rm) s.myTile.ctl.seed) →
    (∀ v a, step (some v) a = if fa = 11 then int32Node op v a else fp32Node op (s.me.rmOf rm) s.myTile.ctl.seed v a) →
    ∃ run : Nat → Option Nat, run 0 = none ∧
      (∀ i, i < 64 → run (i + 1) =
        if (s.me.active g).getLsbD i then some (step (run i) (s.me.elem 32 va i)).1 else run i) ∧
      VecDone s g vd 32 (fun i => step (run i) (s.me.elem 32 va i))
        (fun i => (List.range (i + 1)).any fun j => (s.me.active g).getLsbD j && (s.me.vt va).getLsbD j)
        (exec (.vscan g op vd va vb rm) s)) ∧
  (∀ (s : State) (g : Guard) (vd va vb vc : VReg) (rm : BitVec 3) (fa fb : Nat), Clears s (formatted g dotPairs) →
    (fa, fb) = pairOf s dotPairs → (∀ b ∈ boundTables fa fb, s.myTile.swapping b = false) →
    VecDone s g vd 32 (fun i => dotLane s.myTile.tabs fa fb (s.me.rmOf rm) s.myTile.ctl.seed (s.me.elem 32 va i) (s.me.elem 32 vb i)
      (s.me.elem 32 vc i)) (lanePoison s [va, vb, vc]) (exec (.vdot g vd va vb vc rm) s)) ∧
  (∀ (s : State) (g : Guard) (vd va : VReg) (rm : BitVec 3) (F : Formats) (fa fb n : Nat),
    F = ⟨fun a b => decide (a ≤ 11) && decide (a ≠ 3) && decide (b ≤ 11) && decide (b ≠ 3), 11, 0⟩ → Clears s (formatted g F) →
    (fa, fb) = pairOf s F → (∀ b ∈ boundTables fa fb, s.myTile.swapping b = false) →
    n = min (2048 / fmtWidth fa) (2048 / fmtWidth fb) →
    ((∀ b ∈ boundTables 0 fb, encodable (s.myTile.tabs.of b) = true) →
      VecDone s g vd (fmtWidth fb)
        (fun e => if e < n then convertElem s.myTile.tabs fa fb (s.me.elem (fmtWidth fa) va e) (s.me.rmOf rm) s.myTile.ctl.seed
          else (0, {}))
        (fun i => (List.range n).any fun e => decide (fmtWidth fb * e / 32 = i) && (s.me.vt va).getLsbD (fmtWidth fa * e / 32))
        (exec (.vcvt g vd va rm) s)) ∧
    (∀ b, boundTables 0 fb = [b] → encodable (s.myTile.tabs.of b) = false →
      exec (.vcvt g vd va rm) s = .next (traps s 0x0F (if b then 1 else 0)))) ∧
  (∀ (s : State) (g : Guard) (vd va vb vc : VReg) (rm : BitVec 3) (F : Formats) (fa fb n : Nat),
    F = ⟨fun a b => (decide (a = 12) && decide (b ≤ 2)) || (decide (b = 12) && decide (a ≤ 2)), 12, 0⟩ → Clears s (formatted g F) →
    (fa, fb) = pairOf s F → n = min (2048 / fmtWidth fa) (2048 / fmtWidth fb) →
    (∀ b ∈ s.me.blockTables vc (n / 32), s.myTile.swapping b = false) →
    (∀ b, fb = 12 → b ∈ s.me.blockTables vc (n / 32) → encodable (s.myTile.tabs.of b) = false →
      (b = true → false ∈ s.me.blockTables vc (n / 32) → encodable (s.myTile.tabs.of false) = true) →
      exec (.vbscl g vd va vb vc rm) s = .next (traps s 0x0F (if b then 1 else 0))) ∧
    ((fb = 12 → ∀ b ∈ s.me.blockTables vc (n / 32), encodable (s.myTile.tabs.of b) = true) →
    VecDone s g vd (fmtWidth fb)
      (fun e => if e < n then
          (if fa = 12 then (layout fb).round (blockValue s.myTile.tabs (s.me.elem 8 va e) (s.me.elem 8 vb (e / 32))
              (bitsOf (s.me.vrd vc) (2 * (e / 32)) 2)) (s.me.rmOf rm) s.myTile.ctl.seed
            else blockEncode s.myTile.tabs ((layout fa).value (s.me.elem (fmtWidth fa) va e)) (s.me.elem 8 vb (e / 32))
              (bitsOf (s.me.vrd vc) (2 * (e / 32)) 2) (s.me.rmOf rm) s.myTile.ctl.seed)
        else (0, {}))
      (fun i => (List.range n).any fun e => decide (fmtWidth fb * e / 32 = i) &&
        ((s.me.vt va).getLsbD (fmtWidth fa * e / 32) || (s.me.vt vb).getLsbD (e / 32 / 4) || (s.me.vt vc).getLsbD 0))
      (exec (.vbscl g vd va vb vc rm) s))) ∧
  (∀ (t : Tabs) (fa fb mode a b c w : Nat) (seed : Word) (ps : List (XVal × Flags)) (r q : _ × Flags), w = fmtWidth fa →
    ps = (List.range (32 / w)).map (fun e => (decodeElem t fa (element a w e)).mul (decodeElem t fa (element b w e))) →
    r = sumX mode (ps.map (·.1) ++ [fp32.value c]) → q = fp32.round r.1 mode seed →
    dotLane t fa 11 mode seed a b c = (((signedOf 32 c + ((List.range (32 / w)).map fun e =>
      intValue fa (element a w e) * intValue fa (element b w e)).sum) % 2 ^ 32).toNat, {}) ∧
    (fb ≠ 11 → (dotLane t fa fb mode seed a b c).1 = q.1 ∧ ∀ i, i < 5 → ((dotLane t fa fb mode seed a b c).2.bits.testBit i = true ↔
      (∃ p ∈ ps, p.2.bits.testBit i = true) ∨ r.2.bits.testBit i = true ∨ q.2.bits.testBit i = true))) ∧
  (∀ (t : Tabs) (fa fb b mode scale tag : Nat) (seed : Word) (v : XVal), CodecOf t fa ∧
    (fa = fb → (decodeElem t fa b).isNan = false → convertElem t fa fb b mode seed = (b, {})) ∧
    (fa ≠ fb ∨ (decodeElem t fa b).isNan = true → convertElem t fa fb b mode seed = roundElem t fb (decodeElem t fa b) mode seed) ∧
    (∀ neg m e, IntRoundsRight fa neg m e mode seed) ∧
    blockEncode t v scale 3 mode seed = (0, {}) ∧ (tag ≠ 3 → blockEncode t v 255 tag mode seed = (0, { nv := true })) ∧
    blockValue t b scale 3 = .fin false 0 0 false ∧ (tag ≠ 3 → blockValue t b 255 tag = .nan false) ∧
    (∀ code, (tag, code) ∈ [(0, 4), (1, 5), (2, 7)] → scale < 255 →
      (∀ neg m e st, v = .fin neg m e st → blockEncode t v scale tag mode seed =
        roundElem t code (.fin neg m (if m = 0 then e else e + (127 - (scale : Int))) st) mode seed) ∧
      ((∀ neg m e st, v ≠ .fin neg m e st) → blockEncode t v scale tag mode seed = roundElem t code v mode seed) ∧
      (∀ neg m e st, decodeElem t code b = .fin neg m e st →
        blockValue t b scale tag = .fin neg m (if m = 0 then e else e + ((scale : Int) - 127)) st) ∧
      ((∀ neg m e st, decodeElem t code b ≠ .fin neg m e st) → blockValue t b scale tag = decodeElem t code b)))

/-- MMA forms issue bound to their slots, retire with their operands read, and complete on the working bank (R119, R121, R122, R183, R187, R188). -/
def Obligations.AbacusMultiplications : Prop :=
  (∀ (s : State) (g : Guard) (acc ra rb : BitVec 3) (w : BitVec 6) (sy : Sync) (form : MmaForm) (F : Formats) (i : Instr)
    (fa fb a b : Nat),
    (i = .mma g acc ra rb w sy ∧ form = .mma ∧ F = mmaPairs) ∨ (i = .mman g acc ra rb w sy ∧ form = .mman ∧ F = mmaPairs) ∨
      (i = .mmaq g acc ra rb w sy ∧ form = .mmaq ∧ F = mmaqPairs) ∨ (i = .mmai g acc ra rb w sy ∧ form = .mmai ∧ F = mmaiPairs) →
    Clears s (formatted g F) → (fa, fb) = pairOf s F → s.waitMet sy = true → s.myTile.accSwapping acc = false →
    (∀ x ∈ mmaTables form fa fb, s.myTile.swapping x = false) → (s.myTile.mmas.filter fun m => !m.retired).length < 4 →
    (s.myTile.ring ra.toNat).bound < (s.myTile.ring ra.toNat).occ.toNat →
    a = (s.myTile.ring ra.toNat).slot ((s.myTile.ring ra.toNat).head.toNat + (s.myTile.ring ra.toNat).bound) →
    (s.myTile.ring rb.toNat).bound + (if ra = rb then 1 else 0) < (s.myTile.ring rb.toNat).occ.toNat →
    b = (s.myTile.ring rb.toNat).slot
      ((s.myTile.ring rb.toNat).head.toNat + (s.myTile.ring rb.toNat).bound + (if ra = rb then 1 else 0)) →
    (s.myTile.bale a).state = 2 → (s.myTile.bale b).state = 2 →
    operandBytes form fa (w.toNat + 1) ≤ (s.myTile.bale a).bytes → operandBytes form fb (w.toNat + 1) ≤ (s.myTile.bale b).bytes →
    ∃ t, exec i s = .next t ∧ HeldBy s t .mma sy ∧
      t.myTile.mmas = s.myTile.mmas ++ [⟨form, acc, ra, rb, a, b, w.toNat + 1, fa, fb, s.curStrand, sy, false, 0, 0, 0, 0⟩] ∧
      (∀ r, t.myTile.ring r = { s.myTile.ring r with
        bound := (s.myTile.ring r).bound + (if r = ra.toNat then 1 else 0) + (if r = rb.toNat then 1 else 0) }) ∧
      t.myTile.mem = s.myTile.mem ∧ t.myTile.banks = s.myTile.banks) ∧
  (∀ (s : State) (t i na nb : Nat) (m : Mma), nextToRetire (s.tile t).mmas = some (i, m) →
    na = operandBytes m.form m.fa m.groups → nb = operandBytes m.form m.fb m.groups →
    (s.tile t).gatedIn ((s.tile t).bale m.slotA).addr na = none → (s.tile t).gatedIn ((s.tile t).bale m.slotB).addr nb = none →
    s.sourceReady t m.strand ((s.tile t).bale m.slotA).addr na = true →
    s.sourceReady t m.strand ((s.tile t).bale m.slotB).addr nb = true →
    ∃ u, exec (.mmaRetire t) s = .next u ∧
      (u.tile t).mmas = (s.tile t).mmas.set i { m with
        retired := true
        bytesA := (s.tile t).readNat ((s.tile t).bale m.slotA).addr na
        poisA := (s.tile t).poisonBits ((s.tile t).bale m.slotA).addr (na / 8)
        bytesB := (s.tile t).readNat ((s.tile t).bale m.slotB).addr nb
        poisB := (s.tile t).poisonBits ((s.tile t).bale m.slotB).addr (nb / 8) } ∧
      (u.tile t).banks = (s.tile t).banks ∧ (u.tile t).mem = (s.tile t).mem ∧
      ((s.strand t m.strand).hold = .mma → GoesOn s u t m.strand)) ∧
  (∀ (s : State) (t : Nat) (m : Mma) (rest : List Mma) (chks : List Check), (s.tile t).mmas = m :: rest → m.retired = true →
    SignalFits s t m.sy → (∀ c ∈ chks, c = .match) →
    ∃ u, exec (.mmaComplete t chks) s = .next u ∧ (u.tile t).mmas = rest ∧ Signalled s u t m.sy ∧
      (u.tile t).working = (s.tile t).working ∧ (u.tile t).visible m.acc.toNat = (s.tile t).visible m.acc.toNat ∧
      ∀ i j, i < 32 → j < 32 →
        ((u.tile t).bank m.acc.toNat ((s.tile t).workingBank m.acc.toNat)).el i j =
          (if m.form = .mmai then
              abacusInt m i j (((s.tile t).bank m.acc.toNat ((s.tile t).workingBank m.acc.toNat)).el i j)
            else abacusElement (s.tile t).tabs m i j m.groups
              (((s.tile t).bank m.acc.toNat ((s.tile t).workingBank m.acc.toNat)).el i j)) % 2 ^ 32 ∧
        ((u.tile t).bank m.acc.toNat ((s.tile t).workingBank m.acc.toNat)).po i j =
          (((s.tile t).bank m.acc.toNat ((s.tile t).workingBank m.acc.toNat)).po i j ||
            operandPoison m.form m.fa m.bytesA m.poisA m.groups i || operandPoison m.form m.fb m.bytesB m.poisB m.groups j)) ∧
  (∀ (t : Tabs) (m : Mma) (i j acc : Nat) (tag scale : Nat → Nat → Nat → Nat) (value : Nat → Nat → Nat → Nat → XVal),
    (∀ bytes x k, tag bytes x k = bytes / 2 ^ (8 * (1056 * m.groups + (m.groups * x + k / 32) / 4) + 2 * ((m.groups * x + k / 32) % 4)) % 4 ∧
      scale bytes x k = bytes / 2 ^ (8 * (1024 * m.groups + (m.groups * x + k / 32))) % 256) →
    (∀ fmt bytes x k, value fmt bytes x k = if m.form = .mmaq then
        blockValue t (element bytes (fmtWidth fmt) (x * (32 * m.groups) + k)) (scale bytes x k) (tag bytes x k)
      else decodeElem t fmt (element bytes (fmtWidth fmt) (x * (32 * m.groups) + k))) →
    abacusInt m i j acc = ((signedOf 32 acc + ((List.range (32 * m.groups)).map fun k =>
      intValue m.fa (element m.bytesA (fmtWidth m.fa) (i * (32 * m.groups) + k)) *
        intValue m.fb (element m.bytesB (fmtWidth m.fb) (j * (32 * m.groups) + k))).sum) % 2 ^ 32).toNat ∧
    ∃ (run : Nat → Nat) (products : Nat → List XVal), run 0 = acc ∧ abacusElement t m i j m.groups acc = run m.groups ∧
      (∀ g, products g = if m.form = .mmaq ∧ (tag m.bytesA i (32 * g) = 3 ∨ tag m.bytesB j (32 * g) = 3) then [] else
        (List.range 32).map fun k => let p := ((value m.fa m.bytesA i (32 * g + k)).mul (value m.fb m.bytesB j (32 * g + k))).1
          if m.form = .mman then p.neg else p) ∧
      ∀ g, g < m.groups → run (g + 1) = (fp32.round (sumX 0 [fp32.value (run g),
        fp32.value (fp32.round (sumX 0 (products g)).1 0 0).1]).1 0 0).1)

/-- ACCZ, ACCSW, ACCRD, ACCWR and the moves between an accumulator and tile memory (R110, R189, R190, R191, R192). -/
def Obligations.Accumulators : Prop :=
  (∀ (s : State) (g : Guard) (acc : BitVec 3) (sy : Sync), s.myTile.accHeld acc = false →
    (Clears s (ordinary g) → exec (.accz g acc) s =
      .next (retired s (s.updMyTile fun T => T.setBank acc.toNat (!T.workingBank acc.toNat) {}))) ∧
    (Clears s (ordinary g) → s.waitMet sy = true → ∃ t, exec (.accsw g acc sy) s = .next t ∧ HeldBy s t (.accsw acc sy) sy ∧
      t.myTile.banks = s.myTile.banks ∧ t.myTile.working = s.myTile.working)) ∧
  (∀ (s : State) (t k : Nat) (acc : BitVec 3) (sy : Sync),
    (s.tile t).holder (fun h => match h with | .accsw a _ => a == acc | _ => false) = some k →
    (s.strand t k).hold = .accsw acc sy → (∀ m ∈ (s.tile t).mmas, m.acc ≠ acc) → (s.tile t).accMoves.find acc.toNat = none →
    SignalFits s t sy →
    ∃ u, exec (.accumulatorSwap t acc) s = .next u ∧ GoesOn s u t k ∧ Signalled s u t sy ∧ (u.tile t).banks = (s.tile t).banks ∧
      ∀ a : BitVec 3, (u.tile t).workingBank a.toNat = if a = acc then !(s.tile t).workingBank a.toNat else (s.tile t).workingBank a.toNat) ∧
  (∀ (s : State) (g : Guard) (vd : VReg) (acc : BitVec 3) (row : BitVec 5) (fa fb : Nat), s.myTile.accHeld acc = false →
    (Clears s (formatted g accOut) → (fa, fb) = pairOf s accOut →
      ∃ v p fl, exec (.accrd g vd acc row) s = .next (retired s (s.updMe fun x => (x.vwr vd v p).raiseFlags fl)) ∧
        (∀ j, j < 2048 / fmtWidth fb → element v.toNat (fmtWidth fb) j = if j < 32 then
          (s.myTile.accConvert fa fb s.me.rm ((s.myTile.visible acc.toNat).el row.toNat j)).1 % 2 ^ fmtWidth fb else 0) ∧
        (∀ i, i < 64 → p.getLsbD i = (List.range 32).any fun j =>
          decide (fmtWidth fb * j / 32 = i) && (s.myTile.visible acc.toNat).po row.toNat j) ∧
        ∀ b, b < 5 → (fl.bits.testBit b = true ↔ ∃ j, j < 32 ∧
          (s.myTile.accConvert fa fb s.me.rm ((s.myTile.visible acc.toNat).el row.toNat j)).2.bits.testBit b = true)) ∧
    (Clears s (formatted g accIn) → (fa, fb) = pairOf s accIn →
      ∃ t fl, exec (.accwr g vd acc row) s = .next (retired s (t.updMe fun x => x.raiseFlags fl)) ∧ t.me = s.me ∧
        t.myTile.working = s.myTile.working ∧ OtherTilesSame s t s.curTile ∧
        (t.myTile.bank acc.toNat (s.myTile.workingBank acc.toNat)) = (s.myTile.bank acc.toNat (s.myTile.workingBank acc.toNat)) ∧
        (∀ b, b < 5 → (fl.bits.testBit b = true ↔ ∃ j, j < 32 ∧
          (s.myTile.accConvert fa fb s.me.rm (element (s.me.vrd vd).toNat (fmtWidth fa) j)).2.bits.testBit b = true)) ∧
        ∀ i j, i < 32 → j < 32 →
          (t.myTile.visible acc.toNat).el i j = (if i = row.toNat then
            (s.myTile.accConvert fa fb s.me.rm (element (s.me.vrd vd).toNat (fmtWidth fa) j)).1 % 2 ^ 32
            else (s.myTile.visible acc.toNat).el i j) ∧
          (t.myTile.visible acc.toNat).po i j = (if i = row.toNat then (s.me.vt vd).getLsbD (j * fmtWidth fa / 32)
            else (s.myTile.visible acc.toNat).po i j))) ∧
  (∀ (s : State) (g : Guard) (acc : BitVec 3) (y z : SReg) (sy : Sync) (fa fb a n : Nat), s.myTile.accHeld acc = false →
    s.me.tag y = false → s.me.tag z = false → a = (s.me.rd y).toNat → n = (s.me.rd z).toNat → a % 8 = 0 → n % 8 = 0 →
    s.waitMet sy = true →
    (Clears s (formatted g accIn) → (fa, fb) = pairOf s accIn → s.myTile.badRow Region.readable a n (4 * fmtWidth fa) = none →
      ∃ t, exec (.accld g acc y z sy) s = .next (retired s t) ∧ t.me = s.me ∧
        t.myTile.accMoves.find acc.toNat = some ⟨true, a, n, fa, fb, s.me.rm, s.curStrand, s.me.routine, sy, [], s.netOrd⟩ ∧
        t.myTile.banks = s.myTile.banks ∧ t.myTile.mem = s.myTile.mem) ∧
    (Clears s (formatted g accOut) → (fa, fb) = pairOf s accOut → s.myTile.badRow Region.vs a n (4 * fmtWidth fb) = none →
      (s.myTile.visible acc.toNat).poison = 0 →
      s.myTile.fullLine ((List.range 32).flatMap fun r => (List.range (4 * fmtWidth fb / 64 + 1)).map fun i =>
        a + r * n + (if 64 * i < 4 * fmtWidth fb then 64 * i else 4 * fmtWidth fb - 1)) = none →
      ∃ t, exec (.accst g acc y z sy) s = .next (retired s t) ∧ t.me = s.me ∧
        t.myTile.accMoves.find acc.toNat = some ⟨false, a, n, fa, fb, s.me.rm, s.curStrand, s.me.routine, sy, [], s.netOrd⟩ ∧
        t.myTile.banks = s.myTile.banks ∧ t.myTile.mem = s.myTile.mem)) ∧
  (∀ (s : State) (t : Nat) (acc : BitVec 3) (m : AccMove) (x : Strand), (s.tile t).accMoves.find acc.toNat = some m → m.load = true →
    m.moved = [] → x = s.strand t m.strand → (∀ r, r < 32 → (s.tile t).gatedAt (m.addr + r * m.stride) = false ∧
      (s.tile t).gatedAt (m.addr + r * m.stride + 4 * fmtWidth m.fa - 1) = false ∧
      s.storesBefore t m.strand (m.addr + r * m.stride) (4 * fmtWidth m.fa) m.ord = true) → SignalFits s t m.sy →
    ∃ u fl, exec (.accstComplete t acc) s = .next u ∧ (u.tile t).accMoves.find acc.toNat = none ∧ Signalled s u t m.sy ∧
      (u.tile t).mem = (s.tile t).mem ∧
      u.strand t m.strand = (if x.run ≠ .idle ∧ x.routine = m.routine then x.raiseFlags fl else x) ∧
      (∀ b, b < 5 → (fl.bits.testBit b = true ↔ ∃ i j, i < 32 ∧ j < 32 ∧ ((s.tile t).accConvert m.fa m.fb m.rm
        (element ((s.tile t).readNat (m.addr + i * m.stride) (4 * fmtWidth m.fa)) (fmtWidth m.fa) j)).2.bits.testBit b = true)) ∧
      ∀ i j, i < 32 → j < 32 →
        ((u.tile t).visible acc.toNat).el i j = ((s.tile t).accConvert m.fa m.fb m.rm
          (element ((s.tile t).readNat (m.addr + i * m.stride) (4 * fmtWidth m.fa)) (fmtWidth m.fa) j)).1 % 2 ^ 32 ∧
        ((u.tile t).visible acc.toNat).po i j = (s.tile t).poisonAt (m.addr + i * m.stride + j * fmtWidth m.fa / 8)) ∧
  (∀ (s : State) (t len : Nat) (acc : BitVec 3) (m : AccMove) (x : Strand) (row : Nat → Nat), (s.tile t).accMoves.find acc.toNat = some m →
    m.load = false → m.moved = [] → x = s.strand t m.strand → len = 4 * fmtWidth m.fb → len = 64 ∨ len = 128 → (∀ r, row r = m.addr + r * m.stride) → m.addr % 8 = 0 →
    m.stride % 8 = 0 →
    (∀ r, r < 32 → (s.tile t).rangeIs Region.vs (row r) len = true ∧ (s.tile t).gatedAt (row r) = false ∧
      (s.tile t).gatedAt (row r + len - 1) = false ∧ s.storesBefore t m.strand (row r) len m.ord = true) → FramesOk (s.tile t) →
    (s.tile t).fullLine ((List.range 32).flatMap fun r => (List.range (len / 64 + 1)).map fun i =>
      row r + (if 64 * i < len then 64 * i else len - 1)) = none → SignalFits s t m.sy →
    ∃ u fl, exec (.accstComplete t acc) s = .next u ∧ (u.tile t).accMoves.find acc.toNat = none ∧ Signalled s u t m.sy ∧
      u.strand t m.strand = (if x.run ≠ .idle ∧ x.routine = m.routine then x.raiseFlags fl else x) ∧
      (∀ b, b < 5 → (fl.bits.testBit b = true ↔ ∃ i j, i < 32 ∧ j < 32 ∧ ((s.tile t).accConvert m.fa m.fb m.rm
        (((s.tile t).visible acc.toNat).el i j)).2.bits.testBit b = true)) ∧
      (u.tile t).banks = (s.tile t).banks ∧ (u.tile t).working = (s.tile t).working ∧ u.mem = s.mem ∧ OtherTilesSame s u t ∧
      FramesOk (u.tile t) ∧
      (∀ i j b, i < 32 → j < 32 → b < fmtWidth m.fb / 8 → (∀ r, i < r → r < 32 → row i + j * (fmtWidth m.fb / 8) + b < row r ∨
          row r + len ≤ row i + j * (fmtWidth m.fb / 8) + b) →
        (u.tile t).byteAt (row i + j * (fmtWidth m.fb / 8) + b) =
          BitVec.ofNat 8 (((s.tile t).accConvert m.fa m.fb m.rm (((s.tile t).visible acc.toNat).el i j)).1 / 2 ^ (8 * b))) ∧
      ∀ a, ((s.tile t).region a).readable = true → (∀ r, r < 32 → a < row r ∨ row r + len ≤ a) →
        (u.tile t).byteAt a = (s.tile t).byteAt a)

/-- TBLW writes the shadow array, TBLSW exchanges the arrays at TABLE_SWAP, TBLRD reads one (R111, R116, R193, R194, R195, R196). -/
def Obligations.DecodeTables : Prop :=
  (∀ (s : State) (g : Guard) (v : VReg) (q : BitVec 2) (tbl shadow : Bool) (sy : Sync), Clears s (ordinary g) →
    (s.me.vt v = 0 → ∃ t, exec (.tblw g v q tbl) s = .next (retired s t) ∧ t.me = s.me ∧ OtherTilesSame s t s.curTile ∧
      ∀ key, t.myTile.ctl.tables.get key 0 =
        if tableKey tbl true (64 * q.toNat) ≤ key ∧ key < tableKey tbl true (64 * q.toNat) + 64 then
          (lane (s.me.vrd v) (key - tableKey tbl true (64 * q.toNat))).setWidth 19
        else s.myTile.ctl.tables.get key 0) ∧
    (shadow = true ∨ s.myTile.swapping tbl = false → ∃ x, exec (.tblrd g v q tbl shadow) s = .next (retired s (s.updMe fun y => y.vwr v x 0)) ∧
      ∀ i, i < 64 → lane x i = (s.myTile.ctl.tables.get (tableKey tbl shadow (64 * q.toNat + i)) 0).setWidth 32) ∧
    (s.myTile.swapping tbl = false → s.waitMet sy = true →
      ∃ t, exec (.tblsw g tbl sy) s = .next t ∧ HeldBy s t (.tblsw tbl sy) sy ∧ t.myTile.ctl.tables = s.myTile.ctl.tables)) ∧
  (∀ (s : State) (t k : Nat) (tbl : Bool) (sy : Sync),
    (s.tile t).holder (fun h => match h with | .tblsw b _ => b == tbl | _ => false) = some k →
    (s.strand t k).hold = .tblsw tbl sy → (∀ m ∈ (s.tile t).mmas, tbl ∉ mmaTables m.form m.fa m.fb) → SignalFits s t sy →
    SMap.wf 0 (s.tile t).ctl.tables = true →
    ∃ u, exec (.tableSwap t tbl) s = .next u ∧ GoesOn s u t k ∧ Signalled s u t sy ∧
      ∀ (b sh : Bool) (c : Nat), c < 256 → (u.tile t).ctl.tables.get (tableKey b sh c) 0 =
        (s.tile t).ctl.tables.get (tableKey b (if b = tbl then !sh else sh) c) 0)

/-- BALE, BSTAT, BSET, LOOKUP and the ring instructions act on the bale table and the rings (R141, R142, R144, R147, R148, R149, R197, R198, R199, R201, R203, R204). -/
def Obligations.BalesAndRings : Prop :=
  ((∀ (s : State) (g : Guard) (slot : BitVec 6) (d a b c : SReg) (n : Nat), Clears s (ordinary g) →
    (s.me.tag a = false → s.me.tag b = false → s.me.tag c = false → n = bitsOf (s.me.rd b) 0 17 → bitsOf (s.me.rd a) 0 7 = 0 →
      n % 128 = 0 → 0 < n → n ≤ 65536 → bitsOf (s.me.rd b) 17 15 = 0 → bitsOf (s.me.rd b) 40 24 = 0 →
      s.myTile.rangeIs Region.vs (s.me.rd a).toNat n = true →
      ((s.myTile.bale slot.toNat).state = 2 ∧ (s.myTile.bale slot.toNat).ringv = false ∨
        (s.myTile.bale slot.toNat).state = 0 ∧ (s.myTile.bale slot.toNat).pend = false) →
      ∃ t, exec (.bale g slot a b c) s = .next (retired s t) ∧ TileCtlOnly s t ∧
        ∀ i, t.myTile.bale i = if i = slot.toNat then
          { state := 0, pend := false, fault := false, next := false, refill := false
            offset := (s.me.rd a).extractLsb' 7 11, size := BitVec.ofNat 9 (n / 128 - 1)
            ring := (s.myTile.bale slot.toNat).ring, ringv := (s.myTile.bale slot.toNat).ringv
            view := (s.me.rd b).extractLsb' 32 8, tag := (s.me.rd c).extractLsb' 7 57 }
          else s.myTile.bale i) ∧
    exec (.bstat g d slot) s = .next (regResult s d (s.myTile.bale slot.toNat).low false) ∧
    ((s.myTile.bale slot.toNat).ringv = false → (s.myTile.bale slot.toNat).state = 2 →
      ∃ t, exec (.bset g slot) s = .next (retired s t) ∧ TileCtlOnly s t ∧
        ∀ i, t.myTile.bale i =
          if i = slot.toNat then { s.myTile.bale slot.toNat with state := 0 } else s.myTile.bale i) ∧
    ((s.myTile.bale slot.toNat).ringv = false → (s.myTile.bale slot.toNat).state = 0 →
      (s.myTile.bale slot.toNat).pend = false → exec (.bset g slot) s = .next (retired s s)) ∧
    (∃ m, exec (.lookup g d a b) s = .next (regResult s d (BitVec.ofNat 64 m) (s.me.tag a || s.me.tag b)) ∧ m ≤ 64 ∧
      (m < 64 → (s.myTile.bale m).state ≠ 0 ∧ (s.myTile.bale m).tag = (s.me.rd a).extractLsb' 7 57 ∧
        (s.myTile.bale m).view = (s.me.rd b).extractLsb' 0 8) ∧
      ∀ j, j < m → j < 64 → (s.myTile.bale j).state = 0 ∨ (s.myTile.bale j).tag ≠ (s.me.rd a).extractLsb' 7 57 ∨
        (s.myTile.bale j).view ≠ (s.me.rd b).extractLsb' 0 8)) ∧
  (∀ b : Bale, b.low.extractLsb' 0 2 = b.state ∧ b.low.getLsbD 2 = b.pend ∧ b.low.getLsbD 3 = b.fault ∧
    b.low.getLsbD 4 = b.next ∧ b.low.getLsbD 5 = b.refill ∧ b.low.extractLsb' 6 11 = b.offset ∧
    b.low.extractLsb' 17 9 = b.size ∧ b.low.extractLsb' 26 3 = b.ring ∧ b.low.getLsbD 29 = b.ringv ∧
    b.low.extractLsb' 30 8 = b.view ∧ b.low.extractLsb' 38 26 = 0)) ∧
  ((∀ (s : State) (g : Guard) (ring : BitVec 3) (slot : BitVec 6) (d a : SReg) (sy : Sync) (r : Ring) (e : Nat),
    Clears s (ordinary g) → r = s.myTile.ring ring.toNat →
    (∀ (x : Ring) (w : Word), Reaches s a 0 8 Region.readable e → w = s.me.tested.getD (loadValue s.myTile .d e) →
      (s.me.tested = none → s.myTile.poisonAt e = false ∧ s.myTile.badRing ring x = false) →
      x = { first := w.extractLsb' 0 6, cntm1 := w.extractLsb' 6 6, v := w.getLsbD 33 } →
      r.occ = 0 → r.subv = false → r.bound = 0 →
      ∃ t, exec (.ringcfg g ring a) s = .next (retired s t) ∧ TileCtlOnly s t ∧
        (∀ i, t.myTile.ring i = if i = ring.toNat then { x with pushed := r.pushed } else s.myTile.ring i) ∧
        ∀ i, i < 64 → t.myTile.bale i =
          if x.v = true ∧ x.first.toNat ≤ i ∧ i ≤ x.first.toNat + x.cntm1.toNat then
            { s.myTile.bale i with ring := ring, ringv := true }
          else if (s.myTile.bale i).ring = ring then { s.myTile.bale i with ringv := false } else s.myTile.bale i) ∧
    (r.v = true → r.stopin = false → r.occ.toNat ≤ r.cntm1.toNat → (s.myTile.bale r.tailSlot).state = 0 →
      (s.myTile.bale r.tailSlot).pend = false → r.tailSlot = slot.toNat → SyncReady s sy true →
      ∃ claims ord, exec (.ringpush g ring slot sy) s = .next (syncDone s sy true fun x =>
        { x.updMyTile fun T =>
            { (T.setBale slot.toNat { s.myTile.bale slot.toNat with state := 2, refill := false }).setRing ring.toNat
                { r with tail := BitVec.ofNat 6 ((r.tail.toNat + 1) % (r.cntm1.toNat + 1)), occ := r.occ + 1, pushed := true } with
              slotBy := claims } with
          netOrd := ord })) ∧
    (∀ (x : Nat) (y : Bale), r.v = true → r.stopin = false → r.occ.toNat ≤ r.cntm1.toNat → x = r.tailSlot → y = s.myTile.bale slot.toNat →
      (s.myTile.bale x).state = 0 → (s.myTile.bale x).pend = false → x ≠ slot.toNat → slot.toNat ∉ r.members →
      s.fillOk s.curTile (y.tag.toNat * 128) (s.myTile.bale x).bytes y.view.toNat = true → s.waitMet sy = true →
      ∃ t, exec (.ringpush g ring slot sy) s = .next (retired s t) ∧ t.me = s.me ∧ OtherTilesSame s t s.curTile ∧
        t.myTile.ring ring.toNat =
          { r with tail := BitVec.ofNat 6 ((r.tail.toNat + 1) % (r.cntm1.toNat + 1)), occ := r.occ + 1, pushed := true } ∧
        t.myTile.bale x = { s.myTile.bale x with tag := y.tag, view := y.view, pend := true, refill := true } ∧
        t.myTile.bale slot.toNat = { y with tag := y.tag + BitVec.ofNat 57 ((s.myTile.bale x).size.toNat + 1) } ∧
        t.myTile.pfls = s.myTile.pfls ++ [⟨[x], sy, s.curStrand, true⟩] ∧
        ∃ va, t.reqs = s.reqs ++ [⟨s.curTile, false, BitVec.ofNat 64 (y.tag.toNat * 128), y.view.toNat, (s.myTile.bale x).bytes,
          (s.myTile.bale x).addr, .fill x, false, none, s.partOf s.curTile, s.rootOf (s.partOf s.curTile) s.myTile.gang, va, [], [], []⟩]) ∧
    (r.v = true → r.bound = 0 → r.occ ≠ 0 → (s.myTile.bale r.headSlot).state = 2 → r.headSlot = slot.toNat → SyncReady s sy true →
      exec (.ringpop g ring slot sy) s = .next (syncDone s sy true fun x => x.updMyTile fun T =>
        (T.setBale slot.toNat { T.bale slot.toNat with state := 0 }).setRing ring.toNat
          { r with head := BitVec.ofNat 6 ((r.head.toNat + 1) % (r.cntm1.toNat + 1)), occ := r.occ - 1 })) ∧
    exec (.ringstat g d ring) s = .next (regResult s d r.word false) ∧
    (r.v = true → SyncReady s sy true →
      exec (.pflstop g ring sy) s = .next (syncDone s sy true fun x => x.updMyTile fun T => T.setRing ring.toNat
        { r with stopin := true, subv := r.subv && !r.subForever }))) ∧
  (∀ r : Ring, r.word.extractLsb' 0 6 = r.first ∧ r.word.extractLsb' 6 6 = r.cntm1 ∧ r.word.extractLsb' 12 6 = r.head ∧
    r.word.extractLsb' 18 6 = r.tail ∧ r.word.extractLsb' 24 7 = r.occ ∧ r.word.getLsbD 31 = r.stopin ∧
    r.word.getLsbD 32 = r.subv ∧ r.word.getLsbD 33 = r.v ∧ r.word.extractLsb' 34 30 = 0))

/-- PFL starts its entries, and the loader's and storer's events end fills, drains and lists (R142, R148, R202, R205, R298, R299). -/
def Obligations.LoaderAndStorer : Prop :=
  (∀ (s : State) (g : Guard) (x : SReg) (sy : Sync) (a n : Nat), Clears s (ordinary g) → s.waitMet sy = true →
    Reaches s x 0 8 Region.readable a → n = s.myTile.readNat a 8 % 4096 →
    s.myTile.rangeIs Region.readable a (8 + 24 * n) = true → s.myTile.gatedIn a (8 + 24 * n) = none →
    s.myTile.readPoison a (8 + 24 * n) = false → s.sourceReady s.curTile s.curStrand a (8 + 24 * n) = true →
    (∀ i e, i < n → (∀ j, j < i → s.pflEntryOk s.curTile (s.myTile.pflEntry (a + 8 + 24 * j)) = true) →
      e = s.myTile.pflEntry (a + 8 + 24 * i) → s.pflEntryFits s.curTile e = false →
      exec (.pfl g x sy) s = .next ((s.refundWait sy).trapMe 0x06 s.me.pc (BitVec.ofNat 64 e.src))) ∧
    ((∀ i, i < n → s.pflEntryOk s.curTile (s.myTile.pflEntry (a + 8 + 24 * i)) = true) →
    ∃ t slots, exec (.pfl g x sy) s = .next (retired s t) ∧ t.me = s.me ∧ OtherTilesSame s t s.curTile ∧ t.mem = s.mem ∧
      t.myTile.mem = s.myTile.mem ∧ t.myTile.pfls = s.myTile.pfls ++ [⟨slots, sy, s.curStrand, false⟩] ∧
      ∀ i e, i < n → e = s.myTile.pflEntry (a + 8 + 24 * i) →
        (e.mode = 2 → (t.myTile.ring e.tgt).subv = true) ∧
        (e.mode ≠ 2 → e.tgt ∈ slots ∧ (t.myTile.bale e.tgt).pend = true ∧ (t.myTile.bale e.tgt).refill = true))) ∧
  (∀ (s : State) (t slot : Nat) (b : Bale), b = (s.tile t).bale slot →
    (b.state = 1 → b.pend = true → b.fault = false → s.filling t slot = false → (s.tile t).lostFills.getLsbD slot = false → (∀ e ∈ (s.tile t).xq, e.slot ≠ some slot) →
      (∀ j ∈ (s.tile t).pfls, slot ∈ j.slots → j.push = false) →
      ∃ u, exec (.baleFillComplete t slot) s = .next u ∧ (u.tile t).mem = (s.tile t).mem ∧ u.mem = s.mem ∧
        ∀ i, (u.tile t).bale i = if i = slot then { b with state := 2, pend := false } else (s.tile t).bale i) ∧
    (∀ j, b.state = 1 → b.pend = true → b.fault = false → s.filling t slot = false → (s.tile t).lostFills.getLsbD slot = false →
      (∀ e ∈ (s.tile t).xq, e.slot ≠ some slot) → (s.tile t).pfls = [j] → j.push = true → slot ∈ j.slots → SignalFits s t j.sy →
      ∃ u, exec (.baleFillComplete t slot) s = .next u ∧ (u.tile t).pfls = [] ∧ Signalled s u t j.sy ∧
        (u.tile t).bale slot = { b with state := 2, pend := false }) ∧
    (b.state = 3 → s.readOut t slot = true →
      (b.ringv = true → ((s.tile t).ring b.ring.toNat).headSlot = slot → ((s.tile t).ring b.ring.toNat).occ ≠ 0 →
        (∀ e ∈ (s.tile t).xq, e.slot ≠ some slot) →
        ∃ u, exec (.baleDrainComplete t slot) s = .next u ∧ (u.tile t).bale slot = { b with state := 0 } ∧
          (u.tile t).ring b.ring.toNat = { (s.tile t).ring b.ring.toNat with
            head := BitVec.ofNat 6 ((((s.tile t).ring b.ring.toNat).head.toNat + 1) %
              (((s.tile t).ring b.ring.toNat).cntm1.toNat + 1))
            occ := ((s.tile t).ring b.ring.toNat).occ - 1 }) ∧
      (b.ringv = false ∨ (∃ e ∈ (s.tile t).xq, e.slot = some slot) →
        ∃ u, exec (.baleDrainComplete t slot) s = .next u ∧ (u.tile t).ctl.rings = (s.tile t).ctl.rings ∧
        (∀ e ∈ (u.tile t).xq, e.slot ≠ some slot) ∧ ∀ i, (u.tile t).bale i = if i = slot then { b with state := 0 } else (s.tile t).bale i))) ∧
  (∀ (s : State) (t n : Nat) (j : PflJob), (s.tile t).pfls[n]? = some j → j.slots = [] → j.push = false → SignalFits s t j.sy →
    ∃ u, exec (.pflComplete t n) s = .next u ∧ (u.tile t).pfls = (s.tile t).pfls.eraseIdx n ∧ Signalled s u t j.sy) ∧
  (∀ (s : State) (t ring : Nat) (r : Ring) (e : Bale) (src : Nat), r = (s.tile t).ring ring → e = (s.tile t).bale r.tailSlot →
    r.subv = true → r.stopin = false → r.occ.toNat ≤ r.cntm1.toNat → e.state = 0 → e.pend = false → (s.tile t).seq.failed = false →
    src = r.subSrc.toNat + r.subDone * r.subLen → s.fillOk t src r.subLen r.subView = true →
    ∃ u, exec (.subscriptionPush t ring) s = .next u ∧
      (u.tile t).bale r.tailSlot =
        { e with tag := BitVec.ofNat 57 (src / 128), view := BitVec.ofNat 8 r.subView, pend := true, refill := true } ∧
      (u.tile t).ring ring = { r with
        tail := BitVec.ofNat 6 ((r.tail.toNat + 1) % (r.cntm1.toNat + 1)), occ := r.occ + 1, pushed := true
        subDone := r.subDone + 1, subLeft := r.subLeft - 1
        subv := r.subForever || decide (r.subLeft ≠ 1), stopin := !r.subForever && decide (r.subLeft = 1) })

/-- PUT, GET, PUTV and GETV enter the queue; TRANSFER_COMPLETE ends them, gang tiles' too; user-level interrupts (R44, R150, R151, R152, R206, R207, R208, R209, R210, R402). -/
def Obligations.Transfers : Prop :=
  ((∀ (s : State) (g : Guard) (x y z w : SReg) (sy : Sync) (d : Direction) (i : Instr) (len hnd : Nat) (v : Option View)
    (vas : List Nat) (units : Nat),
    (i = .put g x y z sy ∧ d = ⟨0, true, false⟩) ∨ (i = .get g x y z sy ∧ d = ⟨1, false, false⟩) ∨
      (i = .putv g x y z w sy ∧ d = ⟨2, true, true⟩ ∧ s.me.tag w = false) ∨
      (i = .getv g x y z w sy ∧ d = ⟨3, false, true⟩ ∧ s.me.tag w = false) →
    Clears s (ordinary g) → s.waitMet sy = true → s.me.tag x = false → s.me.tag y = false → s.me.tag z = false →
    bitsOf (s.me.rd x) 0 3 = 0 → bitsOf (s.me.rd y) 0 3 = 0 → len = bitsOf (s.me.rd z) 0 18 →
    s.myTile.badParameters (s.me.rd x) (s.me.rd z) sy.site = false → s.myTile.xq.length < 32 →
    hnd = (if d.view then bitsOf (s.me.rd w) 0 8 else 0) → v = (if d.view then s.tileView s.curTile hnd else none) →
    (d.view = true → ∃ vw, v = some vw ∧ (s.me.rd y).toNat + len ≤ vw.positions) →
    (match (if d.view then none else gangTileVa (s.me.rd y)) with
      | some io => s.gangTileOk s.curTile io.1 io.2 len = true
      | none => s.rangeOk s.curTile (s.me.rd y).toNat len v d.write = true) →
    vas = (match v with
      | some vw => (List.range len).map fun i => vw.addr ((s.me.rd y).toNat + i)
      | none => (List.range len).map ((s.me.rd y).toNat + ·)) →
    units = (if d.write ∧ !isSteward s.curTile ∧ (if d.view then none else gangTileVa (s.me.rd y)).isNone then
      (s.unitsAtIssue s.curTile vas).getD 0 else 0) →
    (units = 0 ∨ s.quotaHolds (s.partOf s.curTile) s.myTile.gang units = true) →
    ∃ t, exec i s = .next (retired s t) ∧ t.me = { s.me with xferCount := s.me.xferCount + 1 } ∧ t.mem = s.mem ∧
      t.myTile.mem = s.myTile.mem ∧ OtherTilesSame s t s.curTile ∧
      t.myTile.xq = s.myTile.xq ++ [⟨d.code, (s.me.rd x).toNat, len, hnd, s.curStrand,
        BitVec.ofNat 15 (bitsOf (s.me.rd z) 32 15), s.me.rd y, sy, s.me.xferCount, s.me.routine, s.myTile.xtag, false,
        s.myTile.xferSlot d (s.me.rd x).toNat len, units, [], s.netOrd⟩] ∧
      t.reqs = if d.view = false ∧ (gangTileVa (s.me.rd y)).isSome then s.reqs
        else s.reqs ++ [⟨s.curTile, d.write, s.me.rd y, hnd, len, (s.me.rd x).toNat, .xfer s.myTile.xtag, false, none,
          s.partOf s.curTile, s.rootOf (s.partOf s.curTile) s.myTile.gang, (s.me.rd y).toNat, [], [], []⟩]) ∧
  (∀ (s : State) (g : Guard) (d : SReg) (n : Bool), Clears s (ordinary g) →
    exec (.xqstat g d) s = .next (regResult s d
      (BitVec.ofNat 64 (s.myTile.xq.length + 2 ^ 6 * s.myTile.xq.countP (fun e => e.strand == s.curStrand) +
        2 ^ 16 * s.me.xferCount.toNat)) false) ∧
    exec (.uien g n) s = .next (retired s (s.updMe fun x => { x with status := withBit x.status 19 n })))) ∧
  ((∀ (s : State) (t n : Nat) (e : Xfer) (ext : List (Word × Bool)), (s.tile t).xq[n]? = some e → e.begun = true →
    (e.dir = 2 ∨ e.dir = 3 ∨ gangTileVa e.va = none) → (∀ r ∈ s.reqs, r.tile ≠ t ∨ r.what ≠ .xfer e.tag) →
    (e.sy.site = 2 ∨ SignalFits s t e.sy) →
    ∃ u, exec (.transferComplete t n ext) s = .next u ∧ (u.tile t).xq = (s.tile t).xq.filter (fun x => x.tag != e.tag) ∧
      u.mem = s.mem ∧ (u.tile t).mem = (s.tile t).mem ∧ OtherTilesSame s u t ∧
      (e.sy.site ≠ 2 → Signalled s u t e.sy) ∧
      (e.sy.site = 2 → (u.strand t e.strand).uiq = (s.strand t e.strand).uiq ++ [(e.id, e.uipc)]) ∧
      ∀ b, e.slot = some b →
        ((e.dir = 1 ∨ e.dir = 3) → ((s.tile t).bale b).state = 1 →
          (u.tile t).bale b = { (s.tile t).bale b with state := 2, pend := false, fault := false }) ∧
        ((e.dir = 0 ∨ e.dir = 2) → ((s.tile t).bale b).state = 3 → (u.tile t).bale b = { (s.tile t).bale b with state := 0 })) ∧
  (∀ (s : State) (t n d idx off : Nat) (e : Xfer) (ext : List (Word × Bool)) (w : Wrote), (s.tile t).xq[n]? = some e →
    gangTileVa e.va = some (idx, off) → ((s.gangOf t).bind fun g => g.tileAt idx) = some d → d ≠ t → e.moved = [] →
    s.gangHeld t e e.left = false → s.xferWake t e 0 e.len = none → e.len % 8 = 0 → (s.tile d).rangeIs Region.vs off e.len = true →
    e.sy.site = 0 → SignalFits s t e.sy →
    (e.dir = 0 → (s.tile d).writeWords true off ((s.tile t).readWords e.offset (e.len / 8)) = some w →
      ∃ u, exec (.transferComplete t n ext) s = .next u ∧ (u.tile t).xq = (s.tile t).xq.filter (fun x => x.tag != e.tag) ∧
        (u.tile d).mem = w.tile.mem ∧ (u.tile t).mem = (s.tile t).mem ∧ Signalled s u t e.sy ∧ u.mem = s.mem) ∧
    (e.dir = 1 → (s.tile t).writeWords false e.offset ((List.range (e.len / 8)).map fun i =>
        ((s.tile d).remoteByte (off + 8 * i + 7) ++ (s.tile d).remoteByte (off + 8 * i + 6) ++ (s.tile d).remoteByte (off + 8 * i + 5) ++
          (s.tile d).remoteByte (off + 8 * i + 4) ++ (s.tile d).remoteByte (off + 8 * i + 3) ++ (s.tile d).remoteByte (off + 8 * i + 2) ++
          (s.tile d).remoteByte (off + 8 * i + 1) ++ (s.tile d).remoteByte (off + 8 * i),
          (s.tile d).remotePoison (off + 8 * i))) = some w →
      ∃ u, exec (.transferComplete t n ext) s = .next u ∧ (u.tile t).xq = (s.tile t).xq.filter (fun x => x.tag != e.tag) ∧
        (u.tile t).mem = w.tile.mem ∧ OtherTilesSame s u t ∧ Signalled s u t e.sy ∧ u.mem = s.mem)) ∧
  (∀ (s : State) (t k : Nat) (id : BitVec 16) (handler : Pc) (rest : List (BitVec 16 × Pc)),
    (s.strand t k).uiq = (id, handler) :: rest → (s.strand t k).canInterrupt = true → (s.tile t).badTarget handler.toNat = false →
    ∃ u, exec (.userInterruptDelivery t k) s = .next u ∧ (u.strand t k).uipc = (s.strand t k).pc ∧
      (u.strand t k).xferid = id ∧ (u.strand t k).pc = handler ∧ (u.strand t k).status = withBit (s.strand t k).status 20 true ∧
      (u.strand t k).uiq = rest ∧ (u.strand t k).run = .ready ∧ OtherTilesSame s u t ∧ u.mem = s.mem) ∧
  (∀ s : State, Clears s (ordinary Guard.always) → s.me.uia = true → s.myTile.badTarget s.me.uipc.toNat = false →
    ∃ t, exec .uiret s = .next (retiredAt t s.me.uipc {}) ∧ t.me.status = withBit s.me.status 20 false ∧ t.mem = s.mem ∧
      OtherTilesSame s t s.curTile ∧ ∀ r, t.me.rd r = s.me.rd r))

/-- IST and ISTF.D send a store to a gang tile; its arrival performs it and its completion signals (R131, R132, R248, R249, R250). -/
def Obligations.ImmediateStores : Prop :=
  (∀ (s : State) (g : Guard) (x y : SReg) (sy : Sync) (sz : Size) (fenced : Bool) (i : Instr) (q : Gang) (off dest : Nat),
    (i = .ist g sz x y sy ∧ fenced = false) ∨ (i = .istfD g x y sy ∧ fenced = true ∧ sz = .d) → Clears s (ordinary g) →
    s.waitMet sy = true → s.me.tag x = false → s.me.tag y = false → s.gangOf s.curTile = some q →
    off = bitsOf (s.me.rd y) 0 18 → dest = bitsOf (s.me.rd y) 32 23 → off % sz.bytes = 0 → 0x8000 ≤ off →
    bitsOf (s.me.rd y) 18 14 = 0 → bitsOf (s.me.rd y) 55 9 = 0 → dest < q.size →
    (s.ists.filter fun j => j.src == s.curTile).length < 64 →
    ∃ t, exec i s = .next (retired s t) ∧ t.me = s.me ∧ t.mem = s.mem ∧ t.myTile.mem = s.myTile.mem ∧
      OtherTilesSame s t s.curTile ∧
      t.ists = s.ists ++ [⟨s.curTile, s.curStrand, q.tileAt dest, off, sz, s.me.rd x, sy, fenced, false, false, s.netOrd⟩]) ∧
  (∀ (s : State) (n d : Nat) (i : Ist), s.ists[n]? = some i → i.landed = false → s.storeReady n i = true → i.dest = some d →
    i.addr % i.size.bytes = 0 → s.behind i.src d = false → (s.tile d).gatedAt i.addr = false →
    ((s.tile d).region i.addr).vs = true → HasDelta (s.tile d) i.addr → FramesOk (s.tile d) → i.src ≠ d →
    ∃ u report, exec (.immediateStoreArrival n none) s = .next u ∧
      RemoteStored (s.tile d) (u.tile d) i.addr i.size.bytes i.data ∧ FramesOk (u.tile d) ∧
      ((s.tile d).region i.addr = .seg .s → report = false ∧ (u.tile d).mem.full.getLsbD (wordIx i.addr) = true) ∧
      u.ists = s.ists.set n { i with landed := true, report := report } ∧ OtherTilesSame s u d ∧ u.mem = s.mem) ∧
  (∀ (s : State) (n : Nat) (i : Ist), s.ists[n]? = some i → i.landed = true → i.report = false →
    (i.sy.site ≠ 1 → SignalFits s i.src i.sy →
      ∃ u, exec (.immediateStoreComplete n false) s = .next u ∧ u.ists = s.ists.eraseIdx n ∧ Signalled s u i.src i.sy ∧
        OtherTilesSame s u i.src) ∧
    (∀ d, i.sy.site = 1 → i.dest = some d → SignalFits s d i.sy →
      ∃ u, exec (.immediateStoreComplete n false) s = .next u ∧ u.ists = s.ists.eraseIdx n ∧ Signalled s u d i.sy ∧
        OtherTilesSame s u d))

/-- AMO, AMOF and AMOD.ADD perform one read and one write at their home, in package memory or at the commit (R89, R126, R133, R251, R252, R253, R254, R255). -/
def Obligations.Atomics : Prop :=
  ((∀ (s : State) (g : Guard) (op : AmoOp) (fop : RedOp) (word hbm : Bool) (d a b c : SReg) (i : Instr) (m : Amo) (v : Word),
    (i = .amo g op word d a b c ∧ m = ⟨s.curTile, s.curStrand, hbm, v, op, none, word, s.me.rd b, s.me.rd c, false, none,
        s.partOf s.curTile, s.rootOf (s.partOf s.curTile) s.myTile.gang, false⟩ ∧
      (op = .cas → s.me.tag c = false)) ∨
    (i = .amof g fop d a b ∧ m = ⟨s.curTile, s.curStrand, hbm, v, .swap, some fop, true, s.me.rd b, 0, false, none,
        s.partOf s.curTile, s.rootOf (s.partOf s.curTile) s.myTile.gang, false⟩ ∧ word = true) →
    Clears s (ordinary g) → s.me.tag a = false → s.me.tag b = false → v = s.me.rd a →
    v.toNat % (if word then 4 else 8) = 0 →
    (hbm = false ∧ v.toNat < 0x380000 ∧ s.fullCluster s.curTile = true ∧ (s.memberTile s.curTile (csMember v.toNat)).isSome = true ∧
        (s.myTile.region (csOffset v.toNat)).isS = true ∨
      hbm = true ∧ 0x400000 ≤ v.toNat ∧ s.rangeOk s.curTile v.toNat (if word then 4 else 8) none false = true ∧
        s.rangeOk s.curTile v.toNat (if word then 4 else 8) none true = true) →
    ∃ t, exec i s = .next t ∧ HeldBy s t (.atomic d) Sync.none ∧ t.amos = s.amos ++ [m] ∧ t.myTile.mem = s.myTile.mem) ∧
  (∀ (s : State) (n h a len w : Nat) (m : Amo) (d : SReg) (po : Bool), s.amos[n]? = some m → m.suspended = false → m.hbm = false →
    s.memberTile m.src (csMember m.addr.toNat) = some h → a = csOffset m.addr.toNat → len = (if m.word then 4 else 8) →
    a % len = 0 → s.behind m.src h = false → s.istPending m.src m.strand h (a / 8) = [] → (s.tile h).gatedAt a = false →
    (s.tile h).region a = .seg .s → FramesOk (s.tile h) →
    (s.strand m.src m.strand).hold = .atomic d → po = (s.tile h).remotePoison (a / 8 * 8) →
    w = ofBytes ((List.range len).map fun i => (s.tile h).remoteByte (a + i)) →
    ∃ u new, exec (.atomicPerform n) s = .next u ∧ u.amos = s.amos.eraseIdx n ∧ u.mem = s.mem ∧
      (po = false → StoredAt (s.tile h) (u.tile h) a len (BitVec.ofNat 64 new)) ∧
      (po = true → (u.tile h).mem = (s.tile h).mem) ∧
      (u.strand m.src m.strand).hold = .none ∧ (u.strand m.src m.strand).tag d = (decide (d ≠ 0) && po) ∧
      (m.float = none → new = amoNew m.op (8 * len) w (m.x.toNat % 2 ^ (8 * len)) (m.y.toNat % 2 ^ (8 * len)) ∧
        (u.strand m.src m.strand).rd d = if d = 0 then 0 else
          bytesValue (s.tile h).remoteByte (if m.word then .w else .d) a) ∧
      (∀ op, m.float = some op → m.word = true → new = (amofNew op w (m.x.toNat % 2 ^ 32)).1 ∧
        (u.strand m.src m.strand).rd d = if d = 0 then 0 else
          BitVec.ofNat 64 ((if po then 0 else (amofNew op w (m.x.toNat % 2 ^ 32)).2.atomic) * 2 ^ 32 + w))) ∧
  (∀ (s : State) (n len w a : Nat) (m : Amo) (d : SReg) (pg : Page) (ps : List Page) (bs : List (Byte × Bool)) (po : Bool),
    s.amos[n]? = some m → m.suspended = false → m.hbm = true → len = (if m.word then 4 else 8) →
    s.translate m.root (s.tile m.src).gang [m.addr.toNat] = .ok (pg :: ps) →
    s.pageCause m.src false false pg.e = none → s.pageCause m.src true false pg.e = none → entryStep pg.e = false →
    entryTier pg.e = 0 → s.frozenPage pg = false → a = leafPhys pg.level pg.e m.addr → (s.strand m.src m.strand).hold = .atomic d →
    bs = (List.range len).map (fun i => s.readVia m.part 0 (a + i)) → w = ofBytes (bs.map (·.1)) →
    po = (bs.any (·.2) || m.poisoned) →
    ∃ u new, exec (.atomicPerform n) s = .next u ∧ u.amos = s.amos.eraseIdx n ∧
      u.mem = (if po then s.mem else (s.drawn.writeBytesAs m.part (((List.range len).zip (toBytes len new)).map fun ib =>
        (a + ib.1, ib.2, false))).mem) ∧
      (u.strand m.src m.strand).hold = .none ∧ (u.strand m.src m.strand).tag d = (decide (d ≠ 0) && po) ∧
      (∀ t, (u.tile t).mem = (s.tile t).mem) ∧
      (m.float = none → new = amoNew m.op (8 * len) w (m.x.toNat % 2 ^ (8 * len)) (m.y.toNat % 2 ^ (8 * len)) ∧
        (u.strand m.src m.strand).rd d = if d = 0 then 0 else BitVec.ofInt 64 (signedOf (8 * len) w)) ∧
      (∀ op, m.float = some op → m.word = true → new = (amofNew op w (m.x.toNat % 2 ^ 32)).1 ∧
        (u.strand m.src m.strand).rd d = if d = 0 then 0 else
          BitVec.ofNat 64 ((if po then 0 else (amofNew op w (m.x.toNat % 2 ^ 32)).2.atomic) * 2 ^ 32 + w))) ∧
  (∀ (n : Nat) (op : AmoOp) (w x y : BitVec n), 0 < n → amoNew op n w.toNat x.toNat y.toNat = (amoValue op w x y).toNat)) ∧
  ((∀ (s : State) (g : Guard) (a b : SReg) (h : Nat), Clears s (ordinary g) → isSteward s.curTile = false → s.me.tag a = false →
    s.me.tag b = false → (s.me.rd a).toNat % 4 = 0 → (s.me.rd a).toNat < 0x380000 → s.fullCluster s.curTile = true →
    s.memberTile s.curTile (csMember (s.me.rd a).toNat) = some h →
    (s.myTile.region (csOffset (s.me.rd a).toNat)).isV = true →
    ∃ t, exec (.amodAdd g a b) s = .next (retired s t) ∧ t.me = { s.me with rseq := s.me.rseq + 1 } ∧ t.mem = s.mem ∧
      OtherTilesSame s t s.curTile ∧ t.myTile.mem = s.myTile.mem ∧
      t.amodNet = s.amodNet ++ [⟨s.curTile, h, ⟨csOffset (s.me.rd a).toNat, (s.me.rd b).extractLsb' 0 32, s.myTile.gti,
        s.me.routine, s.me.rseq⟩, false, false, s.netOrd⟩]) ∧
  (∀ (s : State) (n : Nat) (f : AmodFlight), s.amodNet[n]? = some f →
    (f.landed = false → s.behind f.src f.home = false → s.commitAhead f.src f.home f.ord = false →
      ((s.tile f.home).region f.item.addr).isV = true →
      ((s.tile f.home).amods.length % 8 ≠ 0 ∨ (s.tile f.home).mem.free ≠ []) →
      ∃ u report, exec (.amodRecordArrival n) s = .next u ∧ (u.tile f.home).amods = (s.tile f.home).amods ++ [f.item] ∧
        ((s.tile f.home).mem.deltas.find (lineOf f.item.addr) = none → report = false) ∧ u.mem = s.mem ∧
        u.amodNet = s.amodNet.set n { f with landed := true, report := report } ∧ OtherTilesSame s u f.home ∧
        (u.tile f.home).mem.bytes = (s.tile f.home).mem.bytes ∧ (u.tile f.home).mem.deltas = (s.tile f.home).mem.deltas) ∧
    (f.landed = true → f.report = false →
      exec (.amodAcknowledgement n) s = .next { s with amodNet := s.amodNet.eraseIdx n })) ∧
  (∀ T : Tile, ∃ l : List AmodRec, l.Perm T.amods ∧ l.Pairwise (fun x y => x.before y = true) ∧ T.reckon = { T with mem := l.foldl TMem.applyAmod T.mem }) ∧
  (∀ x y : AmodRec, x.before y = true ↔ x.addr < y.addr ∨ x.addr = y.addr ∧ (x.tile < y.tile ∨ x.tile = y.tile ∧
    (x.routine.toNat < y.routine.toNat ∨ x.routine = y.routine ∧ x.seq.toNat ≤ y.seq.toNat))) ∧
  (∀ (m : TMem) (r : AmodRec) (frame phys old : Nat),
    frame = (match m.deltas.find (lineOf r.addr) with | some d => d.frame | none => m.frameOf (lineOf r.addr)) →
    phys = 128 * frame + (r.addr - 0x8000) % 128 → old = ofBytes ((List.range 4).map fun i => m.byte (phys + i)) →
    (m.mergedPoison r.addr = true → m.applyAmod r = m) ∧
    (m.mergedPoison r.addr = false →
      (∀ p, (m.applyAmod r).byte p = if phys ≤ p ∧ p < phys + 4 then
          BitVec.ofNat 8 ((fp32.round (sumX 0 [fp32.value old, fp32.value r.operand.toNat]).1 0 0).1 / 2 ^ (8 * (p - phys))) else m.byte p) ∧
      m.applyAmod r = { m with bytes := (m.applyAmod r).bytes })))

/-- EVSIG, EVARM, MTXREL and the event-space LDC.D act on the cluster's event unit; chained arrivals and releases (R89, R238, R239, R240, R241, R242, R246, R247). -/
def Obligations.EventUnit : Prop :=
  (∀ (s : State) (g : Guard) (a : SReg) (c i : Nat) (x : Line), Clears s (inSet g [a]) → s.storesLanded = true →
    c = clusterOf s.curTile → i < 32 → EventAt s a (0x200 + 8 * i) → x = (s.cluster c).line i → x.count ≠ 0 →
    ∀ sig : BitVec 16, sig = (if x.sig = 65535 then x.sig else x.sig + 1) →
    (sig.toNat < x.count.toNat →
      exec (.evsig g a) s = .next (retired s (s.updCluster c fun C => C.setLine i { x with sig := sig }))) ∧
    (∀ t k d, x.count.toNat ≤ sig.toNat → x.chain = none → x.waiters = [(t, k, d)] → (t, k) ≠ (s.curTile, s.curStrand) → k ≠ 4 →
      (s.strand t k).run = .parked .event →
      ∃ u, exec (.evsig g a) s = .next u ∧ ((u.cluster c).line i) = { x with sig := sig, waiters := [], sent := true } ∧
        Answered u t k d (sig.setWidth 64))) ∧
  (∀ (s : State) (g : Guard) (a : SReg) (c i : Nat) (x : Barrier), Clears s (inSet g [a]) → s.storesLanded = true →
    c = clusterOf s.curTile → i < 8 → EventAt s a (8 * i) → x = (s.cluster c).barrier i → x.count ≠ 0 → x.waitup = false →
    (x.arr + 1 < x.count.toNat →
      exec (.evsig g a) s = .next (retired s (s.updCluster c fun C => C.setBarrier i { x with arr := x.arr + 1 }))) ∧
    (∀ t k d, x.count.toNat ≤ x.arr + 1 → x.chain = none → x.waiters = [(t, k, d)] → (t, k) ≠ (s.curTile, s.curStrand) → k ≠ 4 →
      (s.strand t k).run = .parked .event →
      ∃ u, exec (.evsig g a) s = .next u ∧
        (u.cluster c).barrier i = { x with gen := x.gen + 1, arr := 0, waiters := [], children := [], late := [] } ∧
        Answered u t k d ((x.gen + 1).setWidth 64))) ∧
  (∀ (s : State) (g : Guard) (a b : SReg) (c i : Nat) (n : BitVec 16) (ch : Option (Bool × Nat × Nat)), Clears s (ordinary g) →
    c = clusterOf s.curTile → s.me.tag b = false →
    (i < 8 → EventAt s a (8 * i) → s.armWord (.barrier i) (s.me.rd b) = some (n, ch) → ((s.cluster c).barrier i).arr = 0 →
      ((s.cluster c).barrier i).waitup = false → ((s.cluster c).barrier i).waiters = [] →
      exec (.evarm g a b) s = .next (retired s (s.updCluster c fun C => C.setBarrier i { count := n, chain := ch }))) ∧
    (i < 32 → EventAt s a (0x200 + 8 * i) → s.armWord (.line i) (s.me.rd b) = some (n, ch) → ((s.cluster c).line i).waiters = [] →
      exec (.evarm g a b) s = .next (retired s (s.updCluster c fun C => C.setLine i { count := n, chain := ch })))) ∧
  (∀ (s : State) (o : EvObj) (w : Word), bitsOf w 41 23 = 0 → w.getLsbD 16 = false →
    s.armWord o w = some (w.extractLsb' 0 16, none)) ∧
  (∀ (s : State) (g : Guard) (a : SReg) (c i : Nat), Clears s (ordinary g) → s.storesLanded = true → c = clusterOf s.curTile →
    i < 16 → EventAt s a (0x100 + 8 * i) → ((s.cluster c).mutex i).owner = some (s.curTile, s.curStrand) →
    (((s.cluster c).mutex i).queue = [] →
      exec (.mtxrel g a) s = .next (retired s (s.updCluster c fun C => C.setMutex i {}))) ∧
    (∀ t k d rest, ((s.cluster c).mutex i).queue = (t, k, d) :: rest → (t, k) ≠ (s.curTile, s.curStrand) → k ≠ 4 →
      (s.strand t k).run = .parked .event →
      ∃ u, exec (.mtxrel g a) s = .next u ∧ (u.cluster c).mutex i = ⟨some (t, k), rest⟩ ∧ Answered u t k d 0)) ∧
  (∀ (s : State) (n : Nat) (m : ChainMsg) (x : Barrier), s.chains[n]? = some m → m.dstLine = false →
    s.chainAhead n m = false → x = (s.cluster m.dstCluster).barrier m.dstObj →
    (m.release = false → m.srcLine = false → x.count ≠ 0 → x.waitup = false → x.arr + 1 < x.count.toNat →
      exec (.chainedArrival n) s = .next (({ s with chains := s.chains.eraseIdx n } : State).updCluster m.dstCluster fun C =>
        C.setBarrier m.dstObj { x with arr := x.arr + 1, children := x.children ++ [(m.srcCluster, m.srcObj)] })) ∧
    (m.release = true → x.waitup = true → x.late = [] → x.waiters = [] →
      ∃ u, exec (.barrierRelease n) s = .next u ∧
        (u.cluster m.dstCluster).barrier m.dstObj = { x with gen := x.gen + 1, arr := 0, waitup := false, waiters := [], children := [] } ∧
        u.chains = s.chains.eraseIdx n ++ x.children.map fun ch => ⟨true, m.dstCluster, false, m.dstObj, ch.1, false, ch.2⟩)) ∧
  (∀ (s : State) (g : Guard) (d a : SReg) (imm : BitVec 15) (c i : Nat), Clears s (ordinary g) → c = clusterOf s.curTile →
    s.me.standing = none → ∀ me, me = (s.curTile, s.curStrand, d) →
    (∀ x, i < 32 → EventLoadAt s a imm (0x200 + 8 * i) → x = (s.cluster c).line i → x.count ≠ 0 →
      (x.count.toNat ≤ x.sig.toNat → exec (.ldc g .d d a imm) s = .next (regResult s d (x.sig.setWidth 64) false)) ∧
      (x.sig.toNat < x.count.toNat → ∃ u, exec (.ldc g .d d a imm) s = .next u ∧ WaitsForEvent s u ∧
        (u.cluster c).line i = { x with waiters := x.waiters ++ [me] })) ∧
    (∀ x, i < 16 → EventLoadAt s a imm (0x100 + 8 * i) → x = (s.cluster c).mutex i →
      (x.owner = none → exec (.ldc g .d d a imm) s = .next (regResult (s.updCluster c fun C =>
        C.setMutex i { x with owner := some (s.curTile, s.curStrand) }) d 0 false)) ∧
      (x.owner ≠ none → ∃ u, exec (.ldc g .d d a imm) s = .next u ∧ WaitsForEvent s u ∧
        (u.cluster c).mutex i = { x with queue := x.queue ++ [me] })) ∧
    (∀ x, i < 8 → EventLoadAt s a imm (8 * i) → x = (s.cluster c).barrier i → x.count ≠ 0 → x.waitup = false → s.storesLanded = true →
      (x.arr + 1 < x.count.toNat → ∃ u, exec (.ldc g .d d a imm) s = .next u ∧ WaitsForEvent s u ∧
        (u.cluster c).barrier i = { x with arr := x.arr + 1, waiters := x.waiters ++ [me] }) ∧
      (x.count.toNat ≤ x.arr + 1 → x.chain = none → x.waiters = [] → ∃ u, exec (.ldc g .d d a imm) s = .next (retired s u) ∧
        u.me = { s.me.wr d ((x.gen + 1).setWidth 64) false with run := .ready } ∧
        (u.cluster c).barrier i = { x with gen := x.gen + 1, arr := 0, waiters := [], children := [], late := [] } ∧
        u.mem = s.mem ∧ OtherTilesSame s u s.curTile)))

/-- SYNC, VOTE, REDC and REDRD on a gang tile; SYNCDOWN completes a SYNC; ARRIVE sends a quiet tile's vote and partial (R14, R15, R308, R317, R318, R319, R320, R321). -/
def Obligations.SheafInstructions : Prop :=
  (∀ (s : State) (gd : Guard) (q : Gang) (v : BitVec 2) (cause : BitVec 8) (op : SheafOp) (a d : SReg),
    isSteward s.curTile = false → s.gangOf s.curTile = some q →
    (Clears s (ordinary Guard.always) → s.me.standing = none → s.storesLanded = true →
      ∃ t, exec .sync s = .next t ∧ t.me = { s.me with run := .parked .sync, took := false, issued := true } ∧
        t.myTile.syncArrived = true ∧ OtherTilesSame s t s.curTile ∧ t.mem = s.mem ∧
        t.gang s.myTile.gang = some (if s.myTile.syncArrived then q else q.push (10000 + s.curTile) [s.myTile.packet 2])) ∧
    (Clears s (ordinary gd) → ∃ t, exec (.vote gd v cause) s = .next (retired s t) ∧ t.me = s.me ∧ t.mem = s.mem ∧
      OtherTilesSame s t s.curTile ∧ t.myTile.mem = s.myTile.mem ∧
      t.myTile.vote = if s.myTile.vote.sent = false ∧ voteRank s.myTile.vote.vote < voteRank v then
          { s.myTile.vote with vote := v, cause := cause } else s.myTile.vote) ∧
    (Clears s (ordinary gd) → s.me.tag a = false → (∀ c ∈ s.myTile.redc, c.op = op) → s.myTile.redc.length < 64 →
      ∃ t, exec (.redc gd op a) s = .next (retired s t) ∧ t.me = { s.me with redcCount := s.me.redcCount + 1 } ∧
        t.myTile.redc = s.myTile.redc ++ [⟨op, s.me.rd a, s.me.routine, s.me.redcCount⟩] ∧ t.mem = s.mem ∧
        OtherTilesSame s t s.curTile ∧ t.myTile.mem = s.myTile.mem) ∧
    (Clears s (ordinary gd) →
      exec (.redrd gd d) s = .next (regResult s d (s.myTile.syncres.getD s.myTile.redres) false))) ∧
  (∀ (s : State) (t : Nat) (q : Gang) (v : Word), s.gangOf t = some q →
    (q.syncDown = some v → t ∈ q.syncTodo →
      ∃ u, exec (.syncdown t) s = .next u ∧ (u.tile t).syncres = some v ∧ (u.tile t).syncArrived = false ∧
        (u.tile t).vote = { (s.tile t).vote with sgen := (s.tile t).vote.sgen + 1 } ∧ u.mem = s.mem ∧
        ∀ k, k < 4 → (s.strand t k).run = .parked .sync → (u.strand t k).run = .ready ∧ (u.strand t k).hold = .none ∧
          ∀ r, (u.strand t k).rd r = (s.strand t k).rd r) ∧
    ((s.tile t).vote.sent = false → q.mirrorWait = false → t ∉ q.todo → s.quietTile t = true →
      ∃ u, exec (.arrive t) s = .next u ∧ (u.tile t).vote = { (s.tile t).vote with sent := true } ∧
        (u.tile t).seq.phase = .arrived ∧ (u.tile t).redc = [] ∧ u.mem = s.mem ∧ OtherTilesSame s u t ∧
        u.gang (s.tile t).gang = some (q.push (10000 + t) [(s.tile t).packet 0]))) ∧
  (∀ T : Tile, (T.packet 0).kind = 0 ∧ (T.packet 0).vote = T.vote.vote ∧ (T.packet 0).cause = T.vote.cause ∧
    (T.packet 0).ctile = T.gti ∧ (T.packet 0).step = T.ctl.sstep.toNat ∧
    (T.redc = [] → (T.packet 0).empty = true ∧ (T.packet 0).rop = 0) ∧
    (T.redc ≠ [] → (∀ c ∈ T.redc, c.op = .add) → (T.packet 0).empty = false ∧ (T.packet 0).rop = 1 ∧
      (T.packet 0).payload = (T.redc.map (·.value)).sum))

/-- SHEAF_COMBINE at the root decides on the strongest vote; DEADLOCK makes the decision ABORT, or HALT at the limit (R15, R257, R309, R310, R312). -/
def Obligations.SheafDecision : Prop :=
  (∀ (s : State) (id node : Nat) (g : Gang) (c : Combined), s.gang id = some g → g.state = .running → g.verdict = none →
    g.linkFail = false → g.arriveReady node = true →
    c = combine g.size false (((g.children node).flatMap g.sent).filter fun p => p.kind == 0#2) →
    (node = g.root → g.rank = 0 → g.mismatch = false → c.mismatched = false →
      ∃ u h, exec (.sheafCombine id node []) s = .next u ∧ u.gang id = some h ∧ h.todo = g.place ∧ u.mem = s.mem ∧
        u.tiles = s.tiles ∧
        h.verdict = some (g.decision id (s.tile (g.place.headD 0)).ctl.sstep.toNat (s.tile (g.place.headD 0)).abortcnt
          (s.tile (g.place.headD 0)).abortlim c.vote c.cause c.ctile c.result)) ∧
    (node ≠ g.root → node ≠ 2000 → ∃ u h, exec (.sheafCombine id node []) s = .next u ∧ u.gang id = some h ∧ h.verdict = none ∧
      u.tiles = s.tiles ∧
      h.sent node = (g.consume node false).sent node ++ c.packets id (s.tile (g.place.headD 0)).ctl.sstep.toNat 0 0)) ∧
  (∀ (size : Nat) (ps : List Packet), (∀ p ∈ ps, voteRank p.vote ≤ voteRank (combine size false ps).vote) ∧
    (ps ≠ [] → ∃ p ∈ ps, p.vote = (combine size false ps).vote ∧ p.ctile = (combine size false ps).ctile ∧
      p.cause = (combine size false ps).cause) ∧
    ((∀ p ∈ ps, p.vote = 0) → (combine size false ps).vote = 0) ∧
    (∀ p ∈ ps, p.vote = (combine size false ps).vote → (combine size false ps).ctile ≤ p.ctile) ∧
    ((∀ p ∈ ps, p.empty = true) → (combine size false ps).result = sheafEmpty (combine size false ps).rop) ∧
    ((combine size false ps).mismatched = true ↔ ∃ p ∈ ps, ∃ q ∈ ps, p.rop ≠ 0 ∧ q.rop ≠ 0 ∧ p.rop ≠ q.rop)) ∧
  (∀ p q : Packet, (p.level, p.index, p.empty) = (0, 0, false) → (q.level, q.index, q.empty) = (0, 1, false) → p.rop = q.rop →
    p.rop ≠ 0 → (combine 2 false [p, q]).result = sheafNode p.rop p.payload q.payload) ∧
  (∀ (g : Gang) (id step : Nat) (n limit : BitVec 8) (v : BitVec 2) (cause : BitVec 8) (ctile : Nat) (w : Word) (p : Packet),
    p = g.decision id step n limit v cause ctile w →
    p.kind = 1 ∧ p.payload = w ∧ (v = 3 → p.vote = 3 ∧ p.cause = cause ∧ p.ctile = ctile) ∧
    (v = 1 → p.vote = (if n.toNat + 1 = limit.toNat then 3 else 1) ∧ p.cause = cause) ∧
    (v = 0 → p.vote = (if g.preempt = true ∧ step + 1 ≠ g.stepLimit.toNat then 2 else 0) ∧ p.cause = 0 ∧ p.ctile = 0) ∧
    p.yield = (decide (p.vote = 1) && g.preempt) ∧
    (v = 2 → p.vote = if step + 1 = g.stepLimit.toNat then 0 else 2)) ∧
  (∀ (s : State) (id c : Nat) (g : Gang), s.gang id = some g → g.state = .running → g.verdict = none → g.rank = 0 →
    s.deadlocked id g = true → g.sample = some (c, g.place.map fun t => (s.tile t).act) → g.roundTrip ≤ s.cycle - c →
    ∃ u h p, exec (.deadlock id) s = .next u ∧ u.gang id = some h ∧ h.verdict = some p ∧ h.todo = g.place ∧
      p.cause = 0x13 ∧ p.vote = (if (s.tile (g.place.headD 0)).abortcnt.toNat + 1 = (s.tile (g.place.headD 0)).abortlim.toNat
        then 3 else 1) ∧ p.yield = (decide (p.vote = 1) && g.preempt) ∧
      (∃ t ∈ g.place, (s.tile t).vote.sent = false ∧ p.ctile = (s.tile t).gti) ∧
      (∀ t ∈ g.place, (s.tile t).vote.sent = false → p.ctile ≤ (s.tile t).gti) ∧
      (∀ t ∈ g.place, (u.tile t).mem = (s.tile t).mem ∧ ∀ k r, (s.strand t k).run = .parked r → (u.strand t k).run = .stopped) ∧
      u.reports = s.reports ++ [.deadlock id] ∧ u.mem = s.mem)

/-- COMMIT, ABORT and HALT_DECISION apply the gang's decision at a tile; a pre-empted gang stands in the Barn (R17, R18, R19, R134, R135, R137, R146, R149, R312, R313, R370, R374). -/
def Obligations.Decisions : Prop :=
  (∀ (s : State) (t : Nat) (g : Gang) (p : Packet) (T : Tile), s.gangOf t = some g → g.verdict = some p → t ∈ g.todo → T = s.tile t →
    (p.vote = 0 → ∃ u, exec (.commit t) s = .next u ∧ (u.tile t).mem.deltas = [] ∧
      (∀ l d, T.mem.deltas.find l = some d → (T.mem.deltas.map (·.1)).Pairwise (· < ·) → (u.tile t).mem.frameOf l = d.frame) ∧
      (∀ l, l ∉ T.mem.deltas.map (·.1) → (u.tile t).mem.frameOf l = T.mem.frameOf l) ∧
      (u.tile t).mem.bytes = T.reckon.mem.bytes ∧ (T.amods = [] → T.reckon = T) ∧ (u.tile t).ctl.sstep = T.ctl.sstep + 1 ∧
      bitsOf (u.tile t).ctl.budget 24 24 = 0 ∧ (u.tile t).ctl.sems = T.ctl.sems ∧ (u.tile t).redres = p.payload ∧ (u.tile t).abortcnt = 0 ∧ (u.tile t).strands = [] ∧
      (u.tile t).vote = { ldec := 0, lcause := p.cause } ∧
      (u.tile t).seq.phase = (if T.ctl.sstep + 1 = g.stepLimit then .halted else .start) ∧ OtherTilesSame s u t ∧
      (∀ a, T.region a = .seg .s → ∀ staged : Prop, (staged ↔ ∃ kb ∈ T.ctl.bales, kb.2.next = true ∧ kb.2.addr ≤ a ∧ a < kb.2.addr + kb.2.bytes) →
        (staged → (u.tile t).mem.stale.getLsbD (wordIx a) = T.mem.stale.getLsbD (wordIx a) ∧
          (u.tile t).mem.full.getLsbD (wordIx a) = T.mem.full.getLsbD (wordIx a)) ∧
        (¬ staged → (u.tile t).mem.stale.getLsbD (wordIx a) = true ∧ (u.tile t).mem.full.getLsbD (wordIx a) = false)) ∧
      (∀ i, (u.tile t).bale i = { T.bale i with next := false }) ∧ RingsDecided T.ctl (u.tile t) ∧
      ((T.mem.deltas.map (·.1)).Pairwise (· < ·) →
        (u.tile t).mem.free.Perm (T.mem.free ++ T.mem.deltas.map (fun x => T.mem.frameOf x.1) ++ T.amodFrames))) ∧
    (p.vote = 1 → p.yield = false → T.seq.phase ≠ .start → ∃ u, exec (.abort t) s = .next u ∧ (u.tile t).mem.deltas = [] ∧
      (∀ l, (u.tile t).mem.frameOf l = T.mem.frameOf l) ∧ (u.tile t).mem.bytes = T.mem.bytes ∧
      (u.tile t).ctl.sstep = T.snap.sstep ∧ (u.tile t).ctl.sems = T.snap.sems ∧ (u.tile t).abortcnt = T.abortcnt + 1 ∧
      bitsOf (u.tile t).ctl.budget 24 24 = 0 ∧ (u.tile t).strands = [] ∧ (u.tile t).seq.phase = .start ∧ OtherTilesSame s u t ∧
      ScratchStale T (u.tile t) ∧ RingsDecided T.snap (u.tile t) ∧
      (∀ i old, i < 64 → old = T.snap.bales.get i {} →
        (old.state = 2 → old.refill = true → (u.tile t).bale i = { old with state := 0, pend := true, fault := false }) ∧
        (old.refill = false → (T.bale i).next = true → (u.tile t).bale i = { old with state := 0, pend := false, fault := false }) ∧
        (old.refill = false → (T.bale i).next = false → (u.tile t).bale i = old)) ∧
      ((u.tile t).mem.free ++ (u.tile t).msgFrames).Perm
        (T.mem.free ++ T.mem.deltas.map (·.2.frame) ++ T.amodFrames ++ T.msgFrames)) ∧
    (p.vote = 2 → T.ctl.sstep + 1 ≠ g.stepLimit → g.todo = [t] → g.place.Nodup → ∃ u, exec (.commit t) s = .next u ∧
      InBarn s u g t (T.ctl.sstep + 1) 0) ∧
    (p.vote = 1 → p.yield = true → T.seq.phase ≠ .start → g.todo = [t] → g.place.Nodup → ∃ u, exec (.abort t) s = .next u ∧
      InBarn s u g t T.snap.sstep (T.abortcnt + 1)) ∧
    (p.vote = 3 → ∃ u, exec (.haltDecision t) s = .next u ∧ (u.tile t).mem.deltas = [] ∧
      (∀ l, (u.tile t).mem.frameOf l = T.mem.frameOf l) ∧ (u.tile t).strands = [] ∧ (u.tile t).seq.phase = .halted ∧
      OtherTilesSame s u t ∧ ((u.tile t).mem.free ++ (u.tile t).msgFrames).Perm
        (T.mem.free ++ T.mem.deltas.map (·.2.frame) ++ T.amodFrames ++ T.msgFrames) ∧ (T.seq.phase ≠ .start → ScratchStale T (u.tile t)) ∧
      (g.todo = [t] → u.reports = s.reports ++ [.gangHalted T.gang (u.tile t).ctl.sstep p.cause] ∧ ∃ h, u.gang T.gang = some h ∧ h.state = .stopped ∧ h.haltCause = p.cause ∧
        u.disp.done = s.disp.done ++ [⟨s.disp.nextJob, some g.complva, g.part, 2, p.cause, (u.tile t).ctl.sstep,
          BitVec.ofNat 16 T.gang, g.parent, g.hmsg, some g.qid, g.qpart⟩])))

/-- START_PHASE snapshots the control context and opens the list; LIST_DISPATCH and MESSAGE_START dispatch routines (R28, R46, R212, R214, R215, R221, R224, R226, R228). -/
def Obligations.StartAndDispatch : Prop :=
  (∀ (s : State) (t : Nat) (T : Tile), T = s.tile t → T.seq.phase = .start → T.parentSigs = [] → s.leaderOk t = true →
    (∀ u ∈ s.clusterMates t, s.behind t u = false) →
    (∀ q, s.gangOf t = some q → q.pfl0 = 0 ∨ T.ctl.sstep ≠ 0) →
    (T.beginStep s.fresh).listCause (s.plotsOf t) = none →
    ∃ u, exec (.startPhase t) s = .next u ∧ (u.tile t).seq.phase = .compute ∧ (u.tile t).seq.entry = 0 ∧
      (u.tile t).seq.count = (u.tile t).stepDesc.count ∧ (u.tile t).seq.laddr = (u.tile t).stepDesc.laddr ∧
      (u.tile t).seq.handler = (u.tile t).stepDesc.handler ∧ (u.tile t).snap = (u.tile t).ctl ∧
      (u.tile t).ctl = T.ctl ∧ (u.tile t).fwd = T.ctl.fwdcfg ∧
      (u.tile t).mem = T.mem ∧ (u.tile t).strands = T.strands ∧ OtherTilesSame s u t ∧ u.mem = s.mem) ∧
  (∀ (s : State) (t : Nat) (T : Tile) (e : Entry), T = s.tile t → T.seq.phase = .compute → T.seq.failed = false →
    T.msgFirst = false → T.leader = false → T.follower = false → T.seq.entry < T.seq.count →
    e = T.entryAt (T.seq.laddr + 24 * T.seq.entry) →
    (e.guard T.seq.preds (s.plotsOf t) = false → ∃ u, exec (.listDispatch t) s = .next u ∧
      u.tile t = { T with seq := { T.seq with entry := T.seq.entry + 1 } } ∧ OtherTilesSame s u t ∧ u.mem = s.mem) ∧
    (∀ k, e.guard T.seq.preds (s.plotsOf t) = true → s.idleStrand t = some k → T.badTarget e.pc.toNat = false →
      ∃ u, exec (.listDispatch t) s = .next u ∧
        Dispatched (s.strand t k) (u.strand t k) e.pc T.seq.handler (BitVec.ofNat 16 T.seq.entry) e.arg0 e.arg1 ∧
        (u.tile t).seq.entry = T.seq.entry + 1 ∧ (u.tile t).mem = T.mem ∧ OtherTilesSame s u t ∧ u.mem = s.mem ∧
        ∀ j, j ≠ k → u.strand t j = s.strand t j)) ∧
  (∀ (s : State) (t : Nat) (st : Bool) (m : Msg), (s.tile t).seq.phase = .compute → (s.tile t).nextMsg = some (st, m) →
    (∀ k, bitsOf m.desc 0 2 = 0 → (s.tile t).seq.failed = false → s.idleStrand t = some k →
      (s.tile t).badTarget (bitsOf m.desc 32 15) = false →
      ∃ u, exec (.messageStart t) s = .next u ∧ Dispatched (s.strand t k) (u.strand t k) (m.desc.extractLsb' 32 15) (s.tile t).seq.handler
          (BitVec.ofNat 16 (if st then 0x8000 + (s.tile t).seq.stepTaken else 0xC000 + (s.tile t).seq.immTaken))
          (m.desc.extractLsb' 64 64) (m.desc.extractLsb' 128 64) ∧
        (∀ j, j ≠ k → u.strand t j = s.strand t j) ∧ OtherTilesSame s u t ∧ u.mem = s.mem) ∧
    (bitsOf m.desc 0 2 = 1 → (s.strand t 4).run = .idle →
      ∃ u x, exec (.messageStart t) s = .next u ∧ u.strand t 4 = { x with slots := msgSlots m.desc, immediate := !st } ∧
        Dispatched {} x 0 0 0 (m.desc.extractLsb' 64 64) (m.desc.extractLsb' 128 64) ∧
        (∀ j, j ≠ 4 → u.strand t j = s.strand t j) ∧ OtherTilesSame s u t ∧ u.mem = s.mem) ∧
    ((bitsOf m.desc 0 2 = 0 → (s.tile t).seq.failed = false ∧ (s.idleStrand t).isSome = true) → (bitsOf m.desc 0 2 ≠ 0 → (s.strand t 4).run = .idle) →
      ∃ u, exec (.messageStart t) s = .next u ∧ (st = true → (u.tile t).steppedNow = (s.tile t).steppedNow.drop 1) ∧
        (st = false → (u.tile t).mail = (s.tile t).mail.drop 1)))

/-- The exchange phase's sends, XSCHED, arriving messages, the step budget and the end of a wake (R131, R140, R218, R219, R220, R225, R313, R322). -/
def Obligations.ExchangeAndMessages : Prop :=
  (∀ (s : State) (t a : Nat) (T : Tile) (w : Nat × Nat × Bool) (es : List (BitVec 128)), T = s.tile t → es.length ≤ 8 →
    es = T.sendEntries w.1 w.2.1 → w = scheduleWord (BitVec.ofNat 64 (T.readNat a 8)) → w.2.2 = false →
    T.placed a 8 = true → T.placed w.1 (16 * w.2.1) = true → T.readPoison a 8 = false →
    (w.2.1 ≠ 0 → T.readPoison w.1 (16 * w.2.1) = false) → (∀ e ∈ es, T.badSend (s.gangSize t) e = false) →
    (∀ f ∈ s.sends, f.src ≠ t) → (∀ e ∈ es, T.gatedIn (sendEntry e).src (sendEntry e).len = none) →
    ∀ fs : List Send, fs = (List.range es.length).map (fun i => ⟨t, (s.gangOf t).bind fun g => g.tileAt (sendEntry (es.getD i 0)).dest,
      (sendEntry (es.getD i 0)).doff, T.readWords (sendEntry (es.getD i 0)).src ((sendEntry (es.getD i 0)).len / 8), false, false,
      s.netOrd + i, (sendEntry (es.getD i 0)).src, []⟩) →
    (T.seq.failed = false → T.seq.sends = [] → T.seq.phase = .compute → s.computeDone t = true →
      a = bitsOf T.snap.xschedptr 3 15 * 8 + 8 * (T.ctl.sstep.toNat % listPeriod T.snap.listptr) →
      ∃ u, exec (.exchangePhase t) s = .next u ∧ (u.tile t).seq.phase = .exchange ∧ (u.tile t).seq.sends = [] ∧
        u.sends = s.sends ++ fs ∧ (u.tile t).mem = T.mem ∧ u.mem = s.mem ∧ OtherTilesSame s u t) ∧
    (∀ (g : Guard) (x : SReg) (sy : Sync), t = s.curTile → isSteward t = false → Clears s (ordinary g) → s.waitMet sy = true →
      s.me.tag x = false → (s.me.rd x).toNat = a → a % 8 = 0 → T.seq.xsched = none →
      s.sourceReady t s.curStrand a 8 = true → s.sourceReady t s.curStrand w.1 (16 * w.2.1) = true →
      (∀ e ∈ es, s.sourceReady t s.curStrand (sendEntry e).src (sendEntry e).len = true) →
      ∃ u, exec (.xsched g x sy) s = .next (retired s u) ∧ u.me = s.me ∧ u.myTile.seq.xsched = some (sy, s.curStrand) ∧
        u.myTile.seq.sends = [] ∧ u.sends = s.sends ++ fs ∧ u.myTile.mem = T.mem ∧ u.mem = s.mem ∧ OtherTilesSame s u t)) ∧
  (∀ (s : State) (t k : Nat) (sy : Sync), (s.tile t).seq.xsched = some (sy, k) → (s.tile t).seq.sends = [] →
    (∀ f ∈ s.sends, f.src ≠ t) → SignalFits s t sy →
    ∃ u, exec (.xschedComplete t) s = .next u ∧ (u.tile t).seq.xsched = none ∧ Signalled s u t sy ∧ OtherTilesSame s u t) ∧
  (∀ (s : State) (n d : Nat) (f : Send) (w : Wrote), s.sends[n]? = some f →
    (f.landed = false → f.dest = some d → s.behind f.src d = false → s.commitAhead f.src d f.ord = false →
      (s.tile d).rangeIs Region.isV f.doff (8 * f.words.length) = true → (s.tile d).writeWords true f.doff f.words = some w →
      ∃ u report, exec (.transferSendArrival n none) s = .next u ∧ (u.tile d).mem = w.tile.mem ∧ OtherTilesSame s u d ∧
        u.sends = s.sends.set n { f with landed := true, report := report } ∧ (w.conflict = false → report = false)) ∧
    (f.landed = true → f.report = false → (s.tile f.src).seq.sends = [] →
      exec (.scheduleSendCompletion n false) s = .next { s with sends := s.sends.eraseIdx n })) ∧
  (∀ (s : State) (n : Nat) (f : MsgFlight), s.msgs[n]? = some f → s.behind f.src f.dest = false → msgBad f.msg.desc = false →
    (f.msg.desc.getLsbD 2 = false → s.commitAhead f.src f.dest f.ord = false → (s.tile f.dest).mem.free ≠ [] →
      ∃ u, exec (.activeMessageArrival n none) s = .next u ∧ u.msgs = s.msgs.eraseIdx n ∧
        (u.tile f.dest).stepped = (s.tile f.dest).stepped ++ [f.msg] ∧
        (u.tile f.dest).msgFrames = (s.tile f.dest).msgFrames ++ [(s.tile f.dest).mem.free.headD 0] ∧
        (u.tile f.dest).mem.free = (s.tile f.dest).mem.free.tail ∧ OtherTilesSame s u f.dest) ∧
    (f.msg.desc.getLsbD 2 = true → (s.tile f.dest).seq.phase = .compute →
      ∃ u, exec (.activeMessageArrival n none) s = .next u ∧ u.msgs = s.msgs.eraseIdx n ∧
        (u.tile f.dest).mail = (s.tile f.dest).mail ++ [f.msg] ∧ OtherTilesSame s u f.dest)) ∧
  (∀ (s : State) (t : Nat), isSteward t = false →
    (s.tile t).seq.phase = .compute ∨ (s.tile t).seq.phase = .exchange → (s.tile t).vote.sent = false → (s.tile t).seq.failed = false →
    bitsOf (s.tile t).ctl.budget 0 24 ≠ 0 → bitsOf (s.tile t).ctl.budget 0 24 ≤ bitsOf (s.tile t).ctl.budget 24 24 →
    ∃ u, exec (.stepBudget t) s = .next u ∧ (u.tile t).vote = (s.tile t).vote.raise 1 0x12 ∧ (u.tile t).seq.failed = true ∧
      OtherTilesSame s u t ∧ u.mem = s.mem) ∧
  (∀ (s : State) (t seg : Nat), seg < 14 → (s.tile t).waking.getLsbD seg = true → (s.tile t).gated seg = true →
    ∃ u, exec (.segmentWakeEnd t seg) s = .next u ∧ OtherTilesSame s u t ∧ u.mem = s.mem ∧
      u.agenda = (s.held.filter fun h => decide (h.tile = t) && decide (h.seg = seg)).map (fun h => ⟨0, h.who⟩) ++ s.agenda ∧
      (∀ h, h ∈ u.held ↔ h ∈ s.held ∧ ¬ (h.tile = t ∧ h.seg = seg)) ∧
      (∀ i, (u.tile t).gated i = if i = seg then false else (s.tile t).gated i) ∧ (u.tile t).waking.getLsbD seg = false ∧
      (∀ p, (u.tile t).mem.byte p =
        if 0x4000 * seg ≤ p ∧ p < 0x4000 * (seg + 1) then 0 else (s.tile t).mem.byte p) ∧
      ∀ i, i < 28672 → 2048 * seg ≤ i → i < 2048 * (seg + 1) → (u.tile t).mem.poison.getLsbD i = true ∧
        (u.tile t).mem.full.getLsbD i = false ∧ (u.tile t).mem.stale.getLsbD i = false)

/-- GCFG, GSIG, GSKIP, GMAP, GFORCE and GSEAL check their operands and act on the plots of the gang (R324, R332, R334, R335, R336, R337). -/
def Obligations.Gleaner : Prop :=
  (∀ (s : State) (g : Guard) (plot : BitVec 3) (a : SReg) (d : BitVec 512) (G : Gang), isSteward s.curTile = false →
    Clears s (ordinary g) → s.me.tag a = false → (s.me.rd a).toNat % 8 = 0 →
    s.myTile.rangeIs Region.readable (s.me.rd a).toNat 64 = true → s.wakeFor s.curTile (s.me.rd a).toNat 64 = none →
    s.myTile.readPoison (s.me.rd a).toNat 64 = false → d = s.myTile.descriptor (s.me.rd a).toNat →
    s.gang s.myTile.gang = some G →
    (d.getLsbD 74 = true ∨
      badDescriptor d = false ∧
      (plotView d = 0 ∨ viewValid (plotView d) (s.viewDesc (s.partOf s.curTile) s.myTile.gang (plotView d)) = true ∧
        plotBase d + plotCount d * plotPatch d ≤ (viewOf (s.viewDesc (s.partOf s.curTile) s.myTile.gang (plotView d))).positions) ∧
      s.plotPages s.curTile d = .ok ∧ s.recordsFit s.myTile.gang plot.toNat (plotCount d) = true →
      ∀ e, e = (if d.getLsbD 74 then BitVec.ofNat 512 (2 ^ 74) else d) →
        (G.pendingConfig plot.toNat = none → exec (.gcfg g plot a) s =
          .next (retired s (s.setGang s.myTile.gang { G with observed := G.observed ++ [.config plot.toNat e] }))) ∧
        (G.pendingConfig plot.toNat = some e → exec (.gcfg g plot a) s = .next (retired s s)) ∧
        (∀ f, G.pendingConfig plot.toNat = some f → f ≠ e →
          exec (.gcfg g plot a) s = .next (retired s (s.raiseVote s.curTile 3 0x0C)))) ∧
    (d.getLsbD 74 = false → badDescriptor d = true → exec (.gcfg g plot a) s = .next (traps s 0x06 (s.me.rd a))) ∧
    (d.getLsbD 74 = false → badDescriptor d = false → plotView d ≠ 0 →
      viewValid (plotView d) (s.viewDesc (s.partOf s.curTile) s.myTile.gang (plotView d)) = false →
      exec (.gcfg g plot a) s = .next (traps s 0x1B (s.me.rd a)))) ∧
  (∀ (s : State) (g : Guard) (d a : SReg) (q : Selector) (P : Plot) (G : Gang), isSteward s.curTile = false → Clears s (ordinary g) →
    s.me.tag a = false → q = selector (s.me.rd a) → s.gangOf s.curTile = some G → G.plots.find q.plot = some P →
    q.reserved = false →
    (q.all = false → q.word = 0 → q.index ≤ 16 → q.patch < plotCount P.desc →
      exec (.gsig g d a) s = .next (regResult s d (BitVec.ofNat 64
        ((P.reference q.patch q.index).toNat + if (P.patch q.patch).refv then 2 ^ 32 else 0)) false)) ∧
    (q.all = false → q.word = 0 → q.index = 17 → q.patch = 0 →
      exec (.gsig g d a) s = .next (regResult s d (match P.tseal with | some t => t.setWidth 64 + 2 ^ 32 | none => 0) false)) ∧
    (q.all = false → q.word = 0 → q.index = 0 → q.patch < plotCount P.desc → ∃ v : Word,
      exec (.gskip g d a) s = .next (regResult s d v false) ∧ v.getLsbD 0 = P.skip q.patch ∧
      v.getLsbD 1 = (P.patch q.patch).refv ∧ v.getLsbD 2 = (P.patch q.patch).force ∧
      v.extractLsb' 3 5 = 0 ∧ v.extractLsb' 8 8 = (P.patch q.patch).run ∧ v.getLsbD 16 = (P.patch q.patch).outt.isSome ∧
      v.extractLsb' 17 15 = 0 ∧ ∀ t : BitVec 32, (P.patch q.patch).outt = some t.toNat → v.extractLsb' 32 32 = t) ∧
    (q.all = false → q.patch = 0 → q.index = 0 → 64 * q.word < plotCount P.desc → ∃ v : Word,
      exec (.gmap g d a) s = .next (regResult s d v false) ∧ ∀ i, i < 64 → v.getLsbD i = P.skip (64 * q.word + i)) ∧
    (q.word = 0 → q.index = 0 → (if q.all then q.patch = 0 else q.patch < plotCount P.desc) →
      exec (.gforce g a) s = .next (retired s (s.setGang s.myTile.gang
        { G with observed := G.observed ++ [.force q.plot (if q.all then none else some q.patch)] })))) ∧
  (∀ (s : State) (g : Guard) (d a : SReg) (G : Gang), isSteward s.curTile = false → Clears s (ordinary g) → s.me.tag a = false →
    s.gangOf s.curTile = some G → G.plots.find (selector (s.me.rd a)).plot = none →
    exec (.gsig g d a) s = .next (traps s 0x06 (s.me.rd a)) ∧ exec (.gskip g d a) s = .next (traps s 0x06 (s.me.rd a)) ∧
    exec (.gmap g d a) s = .next (traps s 0x06 (s.me.rd a)) ∧ exec (.gforce g a) s = .next (traps s 0x06 (s.me.rd a))) ∧
  (∀ (s : State) (g : Guard) (plot : BitVec 3) (G : Gang), isSteward s.curTile = false → Clears s (ordinary g) →
    s.gangOf s.curTile = some G →
    ((G.plots.find plot.toNat).isSome = true → exec (.gseal g plot) s =
      .next (retired s (s.setGang s.myTile.gang { G with observed := G.observed ++ [.seal plot.toNat] }))) ∧
    (G.plots.find plot.toNat = none → exec (.gseal g plot) s = .next (traps s 0x06 (plot.setWidth 64))))

/-- LAUNCH answers its code; PREEMPT, HMSG, QCBSV, QCBLD, QPEND and TEARDOWN act as the steward's instructions (R38, R357, R358, R371, R378, R380, R381). -/
def Obligations.Steward : Prop :=
  (∀ (s : State) (g : Guard) (d a : SReg) (p : Nat), Clears s (ordinary g) → s.me.tag a = false → p = s.partOf s.curTile →
    (s.me.rd a).toNat % 64 = 0 → s.rangeOk s.curTile (s.me.rd a).toNat 256 none false = true →
    (∀ bs po w, s.jobRead p s.myTile.gang (fun e => (s.pageCause s.curTile false false e).isNone) (s.me.rd a) 8 = .ok bs po →
      w = wordAt bs 0 →
      (po = true → exec (.launch g d a) s = .next (answers s s d 5)) ∧
      (po = false → bitsOf w 22 6 ≠ p → exec (.launch g d a) s = .next (answers s s d 1)) ∧
      (po = false → bitsOf w 22 6 = p → (s.part p).qslotmap.getLsbD (bitsOf w 30 6) = false →
        exec (.launch g d a) s = .next (answers s s d 2)) ∧
      (po = false → bitsOf w 22 6 = p → (s.part p).qslotmap.getLsbD (bitsOf w 30 6) = true → s.ownsCluster p = false →
        exec (.launch g d a) s = .next (answers s s d 3)) ∧
      (∀ G, po = false → bitsOf w 22 6 = p → (s.part p).qslotmap.getLsbD (bitsOf w 30 6) = true → s.ownsCluster p = true →
        isSteward s.curTile = false → s.gang s.myTile.gang = some G → ∃ u, exec (.launch g d a) s = .next (retired s u) ∧
          u.me = { s.me.wr d 0 false with launchCount := s.me.launchCount + 1 } ∧ OtherTilesSame s u s.curTile ∧ u.mem = s.mem ∧
          u.gang s.myTile.gang = some { G with launches := G.launches ++
            [⟨s.myTile.gti, s.me.routine, s.me.launchCount, s.me.rd a, bitsOf w 30 6, p⟩] })) ∧
    (s.jobRead p s.myTile.gang (fun e => (s.pageCause s.curTile false false e).isNone) (s.me.rd a) 8 = .bad →
      exec (.launch g d a) s = .next (answers s s d 4)) ∧
    (∀ va, s.jobRead p s.myTile.gang (fun e => (s.pageCause s.curTile false false e).isNone) (s.me.rd a) 8 = .fault va →
      ∃ u, exec (.launch g d a) s = .next u ∧ HeldBy s u (.launch d) Sync.none ∧
        u.reports = s.reports ++ [.pageFault s.myTile.gang (bitsOf s.myTile.ctl.plbctl 0 16) (BitVec.ofNat 64 va) false])) ∧
  (∀ (s : State) (g : Guard) (d a : SReg) (id : Nat), Clears s (privileged g 3) → s.me.tag a = false → id = bitsOf (s.me.rd a) 0 16 →
    (s.gang id = none → exec (.preempt g d a) s = .next (answers s s d 1)) ∧
    (∀ G, s.gang id = some G → G.state ≠ .running → exec (.preempt g d a) s = .next (answers s s d 1)) ∧
    (∀ G, s.gang id = some G → G.state = .running → G.preempt = true → exec (.preempt g d a) s = .next (answers s s d 2)) ∧
    (∀ G, s.gang id = some G → G.state = .running → G.preempt = false →
      exec (.preempt g d a) s = .next (answers s (s.setGang id { G with preempt := true }) d 0))) ∧
  (∀ (s : State) (g : Guard) (a b : SReg), Clears s (privileged g 3) → s.me.tag a = false → s.me.tag b = false →
    (s.hostq.length < 64 → exec (.hmsg g a b) s =
      .next (retired s { s with hostq := s.hostq ++ [(s.pkg.partid.toNat, s.me.rd a, s.me.rd b)] })) ∧
    (64 ≤ s.hostq.length → exec (.hmsg g a b) s = .next (s.updMe fun x => { x with run := .ready }))) ∧
  (∀ (s : State) (g : Guard) (d a b : SReg) (k : Nat), Clears s (privileged g 3) → s.me.tag a = false → s.me.tag b = false →
    k = bitsOf (s.me.rd b) 0 6 → (s.me.rd a).toNat % 64 = 0 →
    (s.slot k = none → exec (.qcbsv g d a b) s = .next (answers s s d 1)) ∧
    (∀ x, s.slot k = some x → (∃ j, s.disp.job = some j ∧ j.slot = k) ∨
      (∃ e ∈ s.disp.done, e.gang = 0 ∧ e.part = x.part ∧ e.qid = some x.qid) → exec (.qcbsv g d a b) s = .next (answers s s d 2)) ∧
    (∀ x ps, s.slot k = some x → (∀ j, s.disp.job = some j → j.slot ≠ k) →
      (∀ e ∈ s.disp.done, e.gang = 0 → e.part = x.part → e.qid ≠ some x.qid) →
      s.pages s.pkg.partid.toNat 0 [(s.me.rd a).toNat] = .ok ps → (ps.all fun q => entryW q.e) = true →
      ps.any s.frozenPage = false → ∃ u, exec (.qcbsv g d a b) s = .next (answers s u d 0) ∧ u.slot k = none ∧
        (∀ j, j ≠ k → u.slot j = s.slot j) ∧ u.tiles = s.tiles ∧
        u.mem = (s.writeBytesAs s.pkg.partid.toNat (((List.range 64).zip (x.qcb.flatMap fun w => toBytes 8 w.toNat)).map fun ib =>
          (physIn ps ((s.me.rd a).toNat + ib.1), ib.2, false))).mem)) ∧
  (∀ (s : State) (g : Guard) (d a b : SReg) (k : Nat) (bs : List Byte) (w : List Word) (x : Slot), Clears s (privileged g 3) →
    s.me.tag a = false → s.me.tag b = false → k = bitsOf (s.me.rd b) 0 6 → (s.me.rd a).toNat % 64 = 0 →
    s.jobRead s.pkg.partid.toNat 0 (fun _ => true) (s.me.rd a) 64 = .ok bs false → w = (List.range 8).map (wordAt bs) →
    x = Slot.ofQcb w 0 →
    ((s.slot k).isSome = true → exec (.qcbld g d a b) s = .next (answers s s d 1)) ∧
    (s.slot k = none → (s.part x.part).qslotmap.getLsbD k = false ∨ (s.slotOf x.part x.qid).isSome = true →
      exec (.qcbld g d a b) s = .next (answers s s d 2)) ∧
    (s.slot k = none → (s.part x.part).qslotmap.getLsbD k = true → s.slotOf x.part x.qid = none → badQcb w = true →
      exec (.qcbld g d a b) s = .next (answers s s d 3)) ∧
    (s.slot k = none → (s.part x.part).qslotmap.getLsbD k = true → s.slotOf x.part x.qid = none → badQcb w = false →
      ∃ u y, exec (.qcbld g d a b) s = .next (answers s u d 0) ∧ u.slot k = some y ∧
        y.rbase = w.getD 0 0 ∧ y.part = x.part ∧ y.qid = x.qid ∧ y.head.toNat = bitsOf (w.getD 2 0) 0 32 ∧
        y.tail = (s.part x.part).bells.get x.qid 0 ∧ y.stride = 2 ^ 20 / bitsOf (w.getD 3 0) 0 16 ∧
        (y.pass = w.getD 4 0 + (s.heldFor x.part x.qid).charge ∨ y.pass = s.gpass) ∧
        (∀ q, q < 64 → (u.part x.part).qpending.getLsbD q = (decide (q ≠ x.qid) && (s.part x.part).qpending.getLsbD q)) ∧
        u.mem = s.mem ∧ u.tiles = s.tiles)) ∧
  (∀ (s : State) (g : Guard) (d : SReg), Clears s (privileged g 3) →
    ((∀ p q, p < 64 → q < 64 → (s.part p).qpending.getLsbD q = false) →
      exec (.qpend g d) s = .next (s.updMe fun x => { x with run := .parked .qpend })) ∧
    ∀ p q, p < 64 → q < 64 → (s.part p).qpending.getLsbD q = true →
      (∀ i j, i < p → j < 64 → (s.part i).qpending.getLsbD j = false) → (∀ j, j < q → (s.part p).qpending.getLsbD j = false) →
      exec (.qpend g d) s = .next (answers s (s.updPart p fun x => { x with qpending := withBit x.qpending q false }) d
        (BitVec.ofNat 64 (64 * p + q)))) ∧
  (∀ (s : State) (g : Guard) (d a : SReg), Clears s (privileged g 3) → s.me.tag a = false →
    exec (.teardown g d a) s = .next (answers s (s.resetPartition (bitsOf (s.me.rd a) 0 6)) d
      (if s.ownsCluster (bitsOf (s.me.rd a) 0 6) then 0 else 1)))

/-- BARNSV and BARNLD move a gang between the Barn and memory; RANKMAP binds ranks; COLL combines words; the mirror area holds images (R376, R379, R396, R397, R398, R399, R400). -/
def Obligations.BarnAndRanks : Prop :=
  (∀ (s : State) (g : Guard) (d a b : SReg), Clears s (privileged g 3) → s.me.tag a = false → s.me.tag b = false →
    (s.me.rd a).toNat % 65536 ≠ 0 → exec (.barnsv g d a b) s = .next (traps s 0x05 (s.me.rd a)) ∧
      exec (.barnld g d a b) s = .next (traps s 0x05 (s.me.rd a))) ∧
  (∀ (s : State) (g : Guard) (d a b : SReg) (id : Nat), Clears s (privileged g 3) → s.me.tag a = false → s.me.tag b = false →
    (s.me.rd a).toNat % 65536 = 0 → id = bitsOf (s.me.rd b) 0 16 →
    (s.gang id = none → exec (.barnsv g d a b) s = .next (answers s s d 1)) ∧
    (∀ G, s.gang id = some G → G.state ≠ .inBarn → exec (.barnsv g d a b) s = .next (answers s s d 1)) ∧
    (∀ G ws ps, s.gang id = some G → G.state = .inBarn → ws = s.gangImage id G →
      s.pages s.pkg.partid.toNat 0 (pagesOf (s.me.rd a).toNat (8 * ws.length)) = .ok ps →
      (ps.all fun q => entryW q.e && decide (entryTier q.e ≤ 1)) = true → ps.any s.frozenPage = false →
      ∃ u h, exec (.barnsv g d a b) s = .next (answers s u d 0) ∧ u.gang id = some h ∧ h.state = .out ∧
        u.mem = (s.putWords s.pkg.partid.toNat ps (s.me.rd a).toNat ws).mem ∧
        ∀ t ∈ G.place, ∀ k r, (u.tile t).barn.find k = some r → r.gang ≠ id)) ∧
  (∀ (s : State) (g : Guard) (d a b : SReg), Clears s (privileged g 3) → s.me.tag a = false → s.me.tag b = false →
    (s.me.rd a).toNat % 65536 = 0 →
    (s.readImage (s.me.rd a).toNat = .bad → exec (.barnld g d a b) s = .next (answers s s d 2)) ∧
    ∀ x rest id, s.readImage (s.me.rd a).toNat = .ok (x :: rest) → id = x.head.ctx.gang → id ≠ 0 →
      (∀ G, s.gang id = some G → G.state ≠ .out → exec (.barnld g d a b) s = .next (answers s s d 3)) ∧
      ((∀ G, s.gang id = some G → G.state = .out ∧ G.part = s.pkg.partid.toNat) →
        (s.imagePlacement s.pkg.partid.toNat x.head (s.me.rd b) = none →
          exec (.barnld g d a b) s = .next (answers s s d 1)) ∧
        ∀ cs, s.imagePlacement s.pkg.partid.toNat x.head (s.me.rd b) = some cs →
          ∃ u h, exec (.barnld g d a b) s = .next (answers s u d 0) ∧ u.gang id = some h ∧ h.state = .inBarn ∧
            h.part = s.pkg.partid.toNat ∧ u.mem = s.mem ∧
            ∀ G, s.gang id = some G → h.place = s.placeTiles cs G.perCluster ∧ h.plots = G.plots)) ∧
  (∀ (s : State) (g : Guard) (d a b : SReg) (p rank : Nat) (pkg : BitVec 16) (e : BitVec 16 × BitVec 16 × BitVec 48),
    Clears s (privileged g 3) → s.me.tag a = false → s.me.tag b = false → p = s.pkg.partid.toNat → rank = bitsOf (s.me.rd a) 0 10 →
    pkg = (s.me.rd b).extractLsb' 0 16 → e = (pkg, (s.me.rd b).extractLsb' 16 16, (s.me.rd a).extractLsb' 16 48) →
    ((s.me.rd a).extractLsb' 10 6 ≠ 0 ∨ (s.me.rd b).extractLsb' 32 32 ≠ 0 ∨ (e.2.1 = pkg ∧ e.2.2 ≠ 0) →
      exec (.rankmap g d a b) s = .next (traps s 0x06 (s.me.rd a))) ∧
    ((s.me.rd a).extractLsb' 10 6 = 0 → (s.me.rd b).extractLsb' 32 32 = 0 → (e.2.1 ≠ pkg ∨ e.2.2 = 0) →
      (s.rankUsed p rank = true → exec (.rankmap g d a b) s = .next (answers s s d 1)) ∧
      (s.rankUsed p rank = false → pkg ≠ 0xFFFF → s.reachable pkg = false →
        exec (.rankmap g d a b) s = .next (answers s s d 2)) ∧
      (s.rankUsed p rank = false → pkg ≠ 0xFFFF → s.reachable pkg = true →
        ∃ u, exec (.rankmap g d a b) s = .next (answers s u d 0) ∧ (u.part p).ranks.find rank = some e ∧
          (∀ r, r ≠ rank → (u.part p).ranks.find r = (s.part p).ranks.find r) ∧ u.tiles = s.tiles ∧ u.mem = s.mem) ∧
      (s.rankUsed p rank = false → pkg = 0xFFFF →
        ∃ u, exec (.rankmap g d a b) s = .next (answers s u d 0) ∧ (u.part p).ranks.find rank = none ∧
          (∀ r, r ≠ rank → (u.part p).ranks.find r = (s.part p).ranks.find r) ∧ u.tiles = s.tiles ∧ u.mem = s.mem)) ∧
    (s.reachable pkg = true ↔ pkg = s.pkg.pkgid ∨ (pkg ∉ s.cutOff ∧ ∃ i, i < 64 ∧ (s.port i).inService = true)) ∧
    (∀ k, (s.setRoute pkg false).reachable k = (decide (k = s.pkg.pkgid) || (decide (k ≠ pkg) && s.reachable k))) ∧
    (s.rankUsed p rank = true ↔ ∃ y ∈ s.gangs, y.2.part = p ∧ y.2.ranks ≠ 1 ∧ rank < y.2.ranks ∧ y.2.state ≠ .inBarn)) ∧
  (∀ (s : State) (g : Guard) (x y z : SReg) (sy : Sync) (G : Gang), isSteward s.curTile = false → s.gangOf s.curTile = some G →
    Clears s (ordinary g) → s.waitMet sy = true → s.me.tag x = false → s.me.tag y = false → s.me.tag z = false →
    (s.me.rd x).toNat % 8 = 0 → (s.me.rd y).toNat % 8 = 0 →
    (badColl (s.me.rd z) G.ranks = true → exec (.coll g x y z sy) s = .next (traps s 0x06 (s.me.rd z))) ∧
    (badColl (s.me.rd z) G.ranks = false → s.myTile.rangeIs Region.vs (s.me.rd x).toNat (collLen (s.me.rd z)) = true →
      s.myTile.rangeIs Region.vs (s.me.rd y).toNat (collOut (s.me.rd z) G.ranks) = true →
      ∃ u, exec (.coll g x y z sy) s = .next (retired s u) ∧ u.me = { s.me with collCount := s.me.collCount + 1 } ∧
        u.myTile.colls = s.myTile.colls ++ [⟨(s.me.rd x).toNat, (s.me.rd y).toNat, s.me.rd z, sy, s.curStrand, s.me.routine,
          s.me.collCount⟩] ∧ u.myTile.mem = s.myTile.mem ∧ u.mem = s.mem ∧ OtherTilesSame s u s.curTile)) ∧
  (∀ (s : State) (id : Nat) (g : Gang), s.gang id = some g → g.mirrorWait = true →
    ∃ u, exec (.mirrorAck id) s = .next u ∧ u.gang id = some { g with mirrorWait := false } ∧ u.tiles = s.tiles ∧ u.mem = s.mem ∧
      ∀ buddy base, s.mirrorArea g = some (buddy, base) → ∃ w : Word, u.farWord buddy g.part g.mirrorAt = (w, false) ∧
        w.extractLsb' 0 32 = s.gangStep g ∧ w.getLsbD 32 = true ∧ w.extractLsb' 33 31 = 0 ∧
        ∀ k p a, farKey k p a ≠ farKey buddy g.part g.mirrorAt → u.farWord k p a = s.farWord k p a) ∧
  (∀ (s u : State) (g h : Gang) (buddy : BitVec 16) (base size other : Nat) (image : List (Word × Bool)) (header : Nat → Word),
    (u, h) = s.streamImage g buddy base image → base % 8 = 0 → size = 65536 + (8 * image.length + 65535) / 65536 * 65536 →
    (∀ a, header a = (s.farWord buddy g.part a).1) → h.mirrorAt + other = 2 * base + size →
    h = { g with mirrorWait := true, mirrorAt := h.mirrorAt } ∧ (h.mirrorAt = base ∨ h.mirrorAt = base + size) ∧
      ((header h.mirrorAt).getLsbD 32 = true → (header other).getLsbD 32 = true ∧
        ((header h.mirrorAt).extractLsb' 0 32).toNat ≤ ((header other).extractLsb' 0 32).toNat) ∧
      (u.farWord buddy g.part h.mirrorAt).1.getLsbD 32 = false ∧
      (∀ i, i < image.length → u.farWord buddy g.part (h.mirrorAt + 65536 + 8 * i) = image.getD i (0, false)) ∧
      (∀ a, other ≤ a → a < other + size → u.farWord buddy g.part a = s.farWord buddy g.part a) ∧ u.tiles = s.tiles ∧ u.mem = s.mem) ∧
  (∀ (s : State) (t n : Nat) (c : Coll) (G : Gang) (others : List ExtColl) (parts : List CollPart),
    isSteward t = false → (s.tile t).colls[n]? = some c → s.gangOf t = some G →
    parts = (List.range G.ranks).filterMap (fun q => s.collPart t c G.rank q others) → parts.length = G.ranks →
    s.sourceReady t c.strand c.src (collLen c.word) = true →
    (∀ p ∈ parts, p = ⟨c.word, (s.tile t).readWords c.src (collLen c.word / 8)⟩ ∨
      ∃ o ∈ others, o.rank ≠ G.rank ∧ o.routine = c.routine ∧ o.k = c.k ∧ p.word = o.word ∧ p.words.map (·.1) = o.words) ∧
    ((parts.any fun p => decide (p.word ≠ c.word)) = true →
      ∃ u, exec (.collComplete t n others) s = .next u ∧ (u.tile t).vote = (s.tile t).vote.raise 3 0x06 ∧ u.mem = s.mem ∧
        (u.tile t).colls = (s.tile t).colls.eraseIdx n ∧ OtherTilesSame s u t) ∧
    (∀ w, (parts.any fun p => decide (p.word ≠ c.word)) = false → s.wakeFor t c.src (collLen c.word) = none →
      s.wakeFor t c.dst (collOut c.word G.ranks) = none →
      (s.tile t).writeWords false c.dst (collResult c.word (parts.map (·.words))) = some w → SignalFits s t c.sy →
      ∃ u, exec (.collComplete t n others) s = .next u ∧ (u.tile t).mem = w.tile.mem ∧ Signalled s u t c.sy ∧
        (u.tile t).colls = (s.tile t).colls.eraseIdx n ∧ u.mem = s.mem ∧ OtherTilesSame s u t))

/-- A request is served, suspended or failed as its pages say; answers and publication records do as R288 and R290 say (R145, R276, R285, R287, R288, R290, R294, R302, R347). -/
def Obligations.MemorySide : Prop :=
  (∀ (s : State) (n : Nat) (r : Req) (vas : List Nat) (words : List (Nat × Word × Bool)), s.reqs[n]? = some r → r.suspended = false →
    r.moved = [] → s.inOrder r = true → (∀ i, s.wordHeld r i = false) → s.wakeFor r.tile r.off r.len = none → s.reqVas r = some vas →
    (∀ a, s.translate r.root (s.tile r.tile).gang (pageHeads vas) = .fault a →
      ∃ u, exec (.memoryRequest n) s = .next u ∧ u.reqs = s.reqs.set n { r with suspended := true, faultVa := a } ∧ u.mem = s.mem ∧
        OtherTilesSame s u r.tile ∧ (u.tile r.tile).mem = (s.tile r.tile).mem ∧ u.reports = s.reports ++ [.pageFault (s.tile r.tile).gang
          (bitsOf (s.tile r.tile).ctl.plbctl 0 16) (BitVec.ofNat 64 a) r.write]) ∧
    (∀ ps, s.translate r.root (s.tile r.tile).gang (pageHeads vas) = .ok ps →
      (∀ c, ps.findSome? (fun p => s.pageCause r.tile r.write (decide (r.view ≠ 0)) p.e) = some c → isSteward r.tile = false →
        ∃ u, exec (.memoryRequest n) s = .next u ∧ (u.tile r.tile).vote = (s.tile r.tile).vote.raise 1 (BitVec.ofNat 8 c) ∧
          (u.tile r.tile).seq.failed = true ∧ OtherTilesSame s u r.tile ∧ u.mem = s.mem ∧ u.reqs.Sublist (s.reqs.eraseIdx n) ∧
          ∀ q ∈ s.reqs.eraseIdx n, q.tile ≠ r.tile → q ∈ u.reqs) ∧
      (ps.findSome? (fun p => s.pageCause r.tile r.write (decide (r.view ≠ 0)) p.e) = none → ps.any s.frozenPage = true →
        r.frozen = none → exec (.memoryRequest n) s =
          .next { s with reqs := s.reqs.set n { r with frozen := some s.waits }, waits := s.waits + 1 }) ∧
      (ps.findSome? (fun p => s.pageCause r.tile r.write (decide (r.view ≠ 0)) p.e) = none → ps.any s.frozenPage = false →
        (∀ w, r.write = false → r.opened = [] → words = ((List.range (r.len / 8)).zip (chunks 8 (r.len / 8) vas)).map (fun iv =>
            (iv.1, s.readWordVia r.part r.view r.badGranules (iv.2.map (physIn ps)))) →
          (s.tile r.tile).writeAt r.off words = some w →
          ∃ u, exec (.memoryRequest n) s = .next u ∧ u.reqs = s.reqs.eraseIdx n ∧ (u.tile r.tile).mem = w.tile.mem ∧
            u.mem = s.mem ∧ OtherTilesSame s u r.tile) ∧
        (r.write = true → isSteward r.tile = true →
          ∃ u, exec (.memoryRequest n) s = .next u ∧ u.reqs = s.reqs.eraseIdx n ∧ u.mem = (s.writeBytesAs r.part
            ((spread vas ((s.tile r.tile).readWords r.off (r.len / 8))).map fun b => (physIn ps b.1, b.2))).mem) ∧
        (r.write = true → isSteward r.tile = false →
          (∀ p ∈ ps, entryStep p.e = false) → (∀ a ∈ vas, physIn ps a < 2 ^ 48 ∧ s.keyless r.part (physIn ps a) = false) →
          ∃ u, exec (.memoryRequest n) s = .next u ∧ u.reqs = s.reqs.eraseIdx n ∧ u.release = s.release ∧
            (u.tile r.tile).mem = (s.tile r.tile).mem ∧ OtherTilesSame s u r.tile ∧
            u.mem = (s.writeBytesAs r.part
              ((spread vas ((s.tile r.tile).readWords r.off (r.len / 8))).map fun b => (physIn ps b.1, b.2))).mem)))) ∧
  (∀ (s : State) (p view : Nat) (bad as : List Nat), s.viewWrites = [] →
    (s.readWordVia p view bad as).1 = BitVec.ofNat 64 (ofBytes (as.map (s.readByteAs p))) ∧
    ((s.readWordVia p view bad as).2 = true ↔ ∃ a ∈ as, s.poisonAs p a = true ∨ a / 32 ∈ bad)) ∧
  (∀ (s : State) (n : Nat) (r : Req), s.reqs[n]? = some r → r.suspended = true →
    (∃ u, exec (.pageFaultAnswer n true) s = .next u ∧ u.reqs = s.reqs.set n { r with suspended := false } ∧
      OtherTilesSame s u r.tile ∧ u.mem = s.mem) ∧
    (isSteward r.tile = false → ∃ u, exec (.pageFaultAnswer n false) s = .next u ∧
      (u.tile r.tile).vote = (s.tile r.tile).vote.raise 1 0x18 ∧ (u.tile r.tile).seq.failed = true ∧ OtherTilesSame s u r.tile ∧
      u.mem = s.mem ∧ u.reqs.Sublist (s.reqs.eraseIdx n) ∧ (∀ q ∈ s.reqs.eraseIdx n, q.tile ≠ r.tile → q ∈ u.reqs) ∧
      ∀ e, s.xferOf r = some e → (u.strand r.tile e.strand).trapcause = 0x18 ∧
        (u.strand r.tile e.strand).trapval = BitVec.ofNat 64 r.faultVa)) ∧
  (∀ (s : State) (v : Word), s.pubs = [] →
    (∀ a, a < 2 ^ 39 → (s.rawWord a).getLsbD 0 = false → exec (.publicationRecord (.entry a) v) s = .next (s.setRawWord a v)) ∧
    (∀ a id G, a < 2 ^ 39 → (s.rawWord a).getLsbD 0 = true → (id, G) ∈ s.gangs → G.state = .running →
      G.domain.toNat = entryDomain (s.rawWord a) →
      exec (.publicationRecord (.entry a) v) s = .next { s with pubs := [⟨.entry a, s.rawWord a, v, []⟩] }) ∧
    (∀ p dw, (∀ x ∈ s.gangs, x.2.part ≠ p ∨ x.2.state ≠ .running) →
      exec (.publicationRecord (.pcb p dw) v) s = .next (s.updPart p fun q => q.setPcb dw v)) ∧
    (∀ p h dw, (∀ x ∈ s.gangs, x.2.part ≠ p ∨ x.2.state ≠ .running) →
      exec (.publicationRecord (.view p h dw) v) s = .next (s.updPart p fun q =>
        { q with views := q.views.set h 0 (withBits (q.views.get h 0) (64 * dw) 64 v.toNat) }))) ∧
  (∀ (s : State) (p : Nat) (k : BitVec 512) (bs : List (Nat × Byte × Bool)), (s.part p).key = some k → (bs.map (·.1)).Nodup →
    (∀ b ∈ bs, b.2.2 = false ∧ 0x10000 ≤ b.1 ∧ b.1 < 2 ^ 49) →
    (∀ b ∈ bs, (s.writeBytesAs p bs).readByteAs p b.1 = b.2.1) ∧
    (∀ a, 0x10000 ≤ a → a < 2 ^ 49 → a ∉ bs.map (·.1) → (s.writeBytesAs p bs).readByteAs p a = s.readByteAs p a) ∧
    ∀ a, (∀ b ∈ bs, b.1 / 64 ≠ a / 64) → memByte (s.writeBytesAs p bs) a = memByte s a)

/-- Port events, parity alerts, row repair, critical temperature and link failures do what their rules say (R284, R302, R303, R304, R353, R389, R391, R392). -/
def Obligations.FabricAndStacks : Prop :=
  (∀ (s : State) (port : Nat),
    (∀ seq n, n = (if (s.port port).resends ≠ 0 ∧ (s.port port).resendSeq = seq then (s.port port).resends + 1 else 1) →
      ∃ u, exec (.resendRequest port seq) s = .next u ∧ (seq ∉ (s.port port).retained.map (·.1) → u.port port = s.port port) ∧
        (seq ∈ (s.port port).retained.map (·.1) → (u.port port).resends = n ∧ (u.port port).resendSeq = seq ∧
          (u.port port).inService = ((s.port port).inService && decide (n ≤ 3)) ∧ (u.port port).stopped = (s.port port).stopped ∧
          (∀ f, f ∈ (u.port port).retained ↔ f ∈ (s.port port).retained ∧ (n ≤ 3 ∨ f.2 ≠ 0))) ∧
        ∀ i, i ≠ port → u.port i = s.port i) ∧
    (∀ lane : BitVec 2, ∃ u v, exec (.laneStop port lane) s = .next u ∧ exec (.laneGo port lane) s = .next v ∧
      (∀ i, i < 4 → (u.port port).stopped.getLsbD i = (decide (i = lane.toNat) || (s.port port).stopped.getLsbD i) ∧
        (v.port port).stopped.getLsbD i = (decide (i ≠ lane.toNat) && (s.port port).stopped.getLsbD i)) ∧
      ∀ i, i ≠ port → u.port i = s.port i ∧ v.port i = s.port i) ∧
    (∃ u, exec (.linkReset ⟨false, port, []⟩) s = .next u ∧ u.port port = {} ∧ u.cutOff = s.cutOff ∧ u.gangs = s.gangs ∧ u.tiles = s.tiles ∧
      ∀ i, i ≠ port → u.port i = s.port i) ∧
    (∀ unreachable, ∃ u, exec (.eweitLinkFail port [] unreachable) s = .next u ∧ (u.port port).inService = false ∧
      (∀ f, f ∈ (u.port port).retained ↔ f ∈ (s.port port).retained ∧ f.2 ≠ 0) ∧
      u.tiles = s.tiles ∧ u.gangs = s.gangs ∧ u.mem = s.mem ∧ ∀ i, i ≠ port → u.port i = s.port i) ∧
    (∀ (unreachable : List Nat) (id : Nat) (g : Gang), s.gang id = some g → g.state = .running → g.verdict = none →
      (g.rank = 0 → ∃ u h p, exec (.eweitLinkFail port [id] unreachable) s = .next u ∧ (u.port port).inService = false ∧
        u.gang id = some h ∧ h.verdict = some p ∧ h.todo = g.place ∧ p.cause = 0x1A ∧
        p.vote = (if (s.tile (g.place.headD 0)).abortcnt.toNat + 1 = (s.tile (g.place.headD 0)).abortlim.toNat then 3 else 1) ∧
        p.yield = decide (p.vote = 1) ∧ ((∀ r ∈ unreachable, g.ranks ≤ r) → p.ctile = 0) ∧
        (∀ r ∈ unreachable, r < g.ranks → (∀ q ∈ unreachable, q < g.ranks → r ≤ q) → p.ctile = r * g.place.length) ∧
        (∀ r ∈ unreachable, r < g.ranks → ∀ e, (s.part g.part).ranks.find r = some e → e.1 ∈ u.cutOff) ∧
        u.reports = s.reports ++ [.linkFail id] ∧ u.tiles = s.tiles ∧ u.mem = s.mem) ∧
      (g.rank ≠ 0 → 0 ∈ unreachable → 0 < g.ranks → ∃ u h, exec (.eweitLinkFail port [id] unreachable) s = .next u ∧
        u.gang id = some h ∧ h.state = .stopped ∧ ∀ t ∈ g.place, (u.tile t).mem.deltas = [] ∧ (u.tile t).seq.phase = .halted))) ∧
  (∀ (x : Port) (a b : List (BitVec 12 × BitVec 2)) (seq : BitVec 12) (lane : BitVec 2), x.retained = a ++ (seq, lane) :: b →
    seq ∉ a.map (·.1) → (x.acknowledge seq).retained = b ∧
      (x.acknowledge seq).resends = if x.resendSeq ∈ a.map (·.1) ++ [seq] then 0 else x.resends) ∧
  (∀ (x : Port) (lane : BitVec 2) (seq : BitVec 12) (bad : Bool), x.inService = true →
    (x.stopped.getLsbD lane.toNat = true → x.send lane = x) ∧
    (x.stopped.getLsbD lane.toNat = false → x.send lane = { x with retained := x.retained ++ [(x.next, lane)], next := x.next + 1 }) ∧
    (seq = x.expected → bad = false → x.receive seq bad = { x with expected := x.expected + 1, asked := 0 }) ∧
    (seq ≠ x.expected ∨ bad = true → x.asked = 0 → x.receive seq bad = { x with asked := 1 }) ∧
    (seq = x.expected → bad = true → 0 < x.asked → (x.receive seq bad).asked = x.asked + 1 ∧
      (x.receive seq bad).inService = decide (x.asked < 3) ∧ (x.receive seq bad).expected = x.expected)) ∧
  (∀ (s : State) (link id : Nat) (g : Gang), s.gang id = some g → g.state = .running →
    ∃ u v, exec (.nocLinkFail link [id]) s = .next u ∧ exec (.linkReset ⟨true, link, [id]⟩) s = .next v ∧
      link ∈ u.nocOut ∧ link ∉ v.nocOut ∧ (∀ l, l ≠ link → (l ∈ u.nocOut ↔ l ∈ s.nocOut) ∧ (l ∈ v.nocOut ↔ l ∈ s.nocOut)) ∧
      ∀ w ∈ [u, v], w.gang id = some { g with up := [], linkFail := true } ∧ w.reports = s.reports ++ [.linkFail id] ∧
        w.tiles = s.tiles ∧ w.mem = s.mem ∧ (∀ f, f ∈ w.sends ↔ f ∈ s.sends ∧ (f.landed = true ∨ s.inGang id f.src = false)) ∧
        (∀ f, f ∈ w.amodNet ↔ f ∈ s.amodNet ∧ (f.landed = true ∨ s.inGang id f.src = false)) ∧
        ∀ m, m ∈ w.chains ↔ m ∈ s.chains ∧ m.srcCluster ∉ g.clusterKeys) ∧
  (∀ (s : State) (stack bank channel addr count rows : Nat) (dropped : Option MemAccess) (lost : List Nat)
    (leaf : Option (Nat × Nat)) (spare : Option Nat),
    (count < 4 → exec (.hbmParityAlert stack bank channel addr count ⟨dropped, lost, rows⟩ leaf spare) s = .next s) ∧
    (4 ≤ count → s.repairs.get (spareKey 0 stack bank) 0 < 4 →
      ∃ u, exec (.hbmParityAlert stack bank channel addr count ⟨dropped, lost, rows⟩ leaf spare) s = .next u ∧
        u.repairs.get (spareKey 0 stack bank) 0 = s.repairs.get (spareKey 0 stack bank) 0 + 1 ∧ u.mem = s.mem ∧ u.tiles = s.tiles ∧
        u.retired = s.retired ∧ (∀ a ∈ lost, a / 2 ^ 36 = stack → u.memPoison.get (a / 8) false = true) ∧
        (∀ n r, dropped = some (.request n) → s.reqs[n]? = some r →
          u.reqs = s.reqs.set n { r with badGranules := r.badGranules ++ [addr / 32] }) ∧
        ∀ n a, dropped = some (.atomic n) → s.amos[n]? = some a → u.amos = s.amos.set n { a with poisoned := true }) ∧
    (∀ key n, 4 ≤ count → 4 ≤ s.repairs.get (spareKey 0 stack bank) 0 →
      (s.repairs.get (spareKey 1 stack channel) 0 < 32 ∧ key = spareKey 1 stack channel ∧ n = 1 ∨
        32 ≤ s.repairs.get (spareKey 1 stack channel) 0 ∧ s.repairs.get (spareKey 2 stack bank) 0 + rows ≤ 8 ∧
          key = spareKey 2 stack bank ∧ n = rows) →
      ∃ u, exec (.hbmParityAlert stack bank channel addr count ⟨dropped, lost, rows⟩ leaf spare) s = .next u ∧
        (∀ k, u.repairs.get k 0 = s.repairs.get k 0 + if k = key then n else 0) ∧ u.mem = s.mem ∧ u.tiles = s.tiles ∧
        u.retired = s.retired) ∧
    (4 ≤ count → 4 ≤ s.repairs.get (spareKey 0 stack bank) 0 → 32 ≤ s.repairs.get (spareKey 1 stack channel) 0 →
      8 < s.repairs.get (spareKey 2 stack bank) 0 + rows →
      ∃ u, exec (.hbmParityAlert stack bank channel addr count ⟨dropped, lost, rows⟩ leaf spare) s = .next u ∧
        u.retired.get (addr / 65536 * 65536) false = true ∧ u.reports = s.reports ++ [.frameRetired (addr / 65536 * 65536)] ∧
        u.tiles = s.tiles ∧
        (∀ l level, leaf = some (l, level) → spare = none → s.pubs = [] → 0x1000 ≤ l → (s.rawWord l).getLsbD 0 = true →
          ((∀ x ∈ s.gangs, x.2.state ≠ .running) → (u.rawWord l).getLsbD 0 = false ∧ u.pubs = []) ∧
          (∀ x ∈ s.gangs, x.2.state = .running → x.2.domain.toNat = entryDomain (s.rawWord l) →
            u.pubs = [⟨.entry l, s.rawWord l, withBit (s.rawWord l) 0 false, []⟩])) ∧
        ∀ l level f, leaf = some (l, level) → spare = some f → ∀ w ∈ u.twins, w.leaf = l → w.base = f)) ∧
  (∀ (s : State) (stack : Nat) (celsius : BitVec 8) (k : Pkg), stack < 8 → k = { s.pkg with temps := s.pkg.temps.set stack 0 celsius } →
    (exec (.stackCriticalTemperature stack celsius) s =
      .next { s with pkg := { k with frozen := withBit s.pkg.frozen stack true } }) ∧
    (85 ≤ celsius.toNat → exec (.stackCooled stack celsius) s = .next { s with pkg := k }) ∧
    (celsius.toNat < 85 → ∀ v, v = { s with pkg := { k with frozen := withBit s.pkg.frozen stack false } } →
      ((∀ r ∈ s.reqs, r.frozen = none) → (∀ a ∈ s.amos, a.frozen = none) → s.launchWaiters = [] → exec (.stackCooled stack celsius) s = .next v) ∧
      (∀ n w r, s.waitingAll = [(w, .request n)] → w < s.waits → s.reqs[n]? = some r →
        exec (.stackCooled stack celsius) s = exec (.memoryRequest n) { v with reqs := s.reqs.set n { r with frozen := none } }) ∧
      (∀ n w a, s.waitingAll = [(w, .atomic n)] → w < s.waits → s.amos[n]? = some a →
        exec (.stackCooled stack celsius) s = exec (.atomicPerform n) { v with amos := s.amos.set n { a with frozen := none } }))) ∧
  (∀ k : Pkg, (∀ i, (k.temps.get i 0).toNat ≤ k.hbmmax.toNat) ∧ (k.hbmmax = 0 ∨ ∃ x ∈ k.temps, x.2 = k.hbmmax))

/-- Package reset, partition resets, keys, alarms, the host link and spare tiles act as their rules say (R260, R346, R347, R348, R349, R350, R353, R356, R380, R401). -/
def Obligations.PackageEvents : Prop :=
  (∀ (s : State) (pkgid : BitVec 16) (image : List (Nat × BitVec 8)) (entry : Pc), ∃ u, exec (.packageReset ⟨pkgid, image, [], []⟩ entry) s = .next u ∧
    u.mem = [] ∧ u.gangs = [] ∧ u.parts = [] ∧ u.clusters = [] ∧ u.cycle = 0 ∧ u.pkg.up = true ∧ u.pkg.pkgid = pkgid ∧
    u.agenda = s.agenda ∧ ∀ i, i < 16 → (u.strand (4624 + i) 0).run = .ready ∧ (u.strand (4624 + i) 0).pc = entry ∧
      (u.strand (4624 + i) 0).status = 3 ∧ (u.tile (4624 + i)).mem = {} ∧
      (u.tile (4624 + i)).code = image.foldl (fun m c => SMap.set m c.1 0 c.2) []) ∧
  (∀ (s : State) (pkgid : BitVec 16) (image : List (Nat × BitVec 8)) (entry : Pc) (c m : Nat), c < 272 → m < 16 →
    ∃ u, exec (.packageReset ⟨pkgid, image, [17 * c + m], []⟩ entry) s = .next u ∧ (u.tile (17 * c + m)).retired = true ∧
      (u.cluster c).unitOf.get m m = 16 ∧ (u.cluster c).inuse = true ∧ (u.cluster c).spare = false ∧ u.pkg.up = true) ∧
  (∀ (s : State) (p : Nat), exec (.functionLevelReset p) s = .next (s.resetPartition p) ∧
    exec (.hostLinkUncorrectable p) s = .next (s.resetPartition p) ∧
    (∀ rest, s.pkg.rst = p :: rest →
      exec .partidRst s = .next (({ s with pkg := { s.pkg with rst := rest } } : State).resetPartition p)) ∧
    (s.pkg.rst = [] → exec .partidRst s = .next s) ∧
    ((s.resetPartition p).part p).qpending = 0 ∧ ((s.resetPartition p).part p).bells = [] ∧
    ((∀ x ∈ s.gangs, x.2.part ≠ p) → s.pubs = [] → ∀ u, u = s.resetPartition p →
      u.mem = s.mem ∧ u.gangs = s.gangs ∧ (u.part p).key = (s.part p).key ∧ (u.part p).views = (s.part p).views ∧
      (∀ k x, u.slot k = some x → x.part ≠ p) ∧ (∀ j, u.disp.job = some j → j.part ≠ p) ∧
      ∀ c t, s.ownerOf c = some p → t / 17 = c → s.gang (s.tile t).gang = none →
        (u.tile t).strands = [] ∧ (u.tile t).gang = 0 ∧ (u.tile t).seq = {} ∧ (u.tile t).ctl = {} ∧
        (u.tile t).retired = (s.tile t).retired ∧ (u.tile t).chkstat = (s.tile t).chkstat ∧
        ((s.tile t).barn = [] → (u.tile t).mem.bytes = [] ∧ (u.tile t).code = [] ∧ (u.tile t).mem.poison = 0))) ∧
  (∀ (s : State) (p k : Nat) (rest : List (Nat × Nat)), s.pkg.load = (p, k) :: rest →
    ((s.part p).key = none → ∃ u, exec .keyslotLoad s = .next u ∧ (u.part p).key = some (s.unit (64 * k)) ∧ u.pkg.load = rest ∧
      (∀ a, 0x1000 ≤ a → u.memByte a = if a / 64 = k then 0 else s.memByte a) ∧ u.tiles = s.tiles) ∧
    ((s.part p).key ≠ none → exec .keyslotLoad s =
      .next (({ s with pkg := { s.pkg with load := rest } } : State).raiseAlarm .misuse (some p)))) ∧
  (∀ (s : State) (p : Nat) (rest : List Nat), s.pkg.erase = p :: rest → ∃ u, exec .keyslotErase s = .next u ∧
    (u.part p).key = none ∧ u.pkg.erase = rest ∧ u.mem = s.mem ∧ u.tiles = s.tiles ∧ ∀ q, q ≠ p → u.part q = s.part q) ∧
  (∀ (s : State) (t : Trigger) (part : Option Nat) (v : State), v = { s with pkg := s.pkg.noteAlarm t part } →
    v.pkg.seen.getLsbD (triggerIndex t) = true ∧
    (bitsOf s.pkg.alarmcfg (2 * triggerIndex t) 2 = 0 → exec (.alarm t part) s = .next v) ∧
    (∀ p, bitsOf s.pkg.alarmcfg (2 * triggerIndex t) 2 = 1 → part = some p → t = .debug ∨ t = .misuse →
      exec (.alarm t part) s = .next ((v.updPart p fun q => { q with key := none }).resetPartition p)) ∧
    (2 ≤ bitsOf s.pkg.alarmcfg (2 * triggerIndex t) 2 → ∃ u l, exec (.alarm t part) s = .next u ∧ u.pkg.allErased = true ∧
      u.reports = l ++ [.allKeysErased])) ∧
  (∀ (s : State) (part gang : Nat), exec (.hostWake part gang) s = .next (s.updPart part fun q => { q with wakes := [gang] }) ∧
    ∀ id G, s.gang id = some G → G.part = part →
      (s.updPart part fun q => { q with wakes := [gang] }).wakeArmed id = decide (id = gang)) ∧
  (∀ (s : State) (part : Nat) (va : Word) (data : List Byte) (ps : List Page),
    s.pages part 0 (pagesOf va.toNat data.length) = .ok ps →
    ((ps.all fun q => s.plainPage part q.e) = true → ps.any s.frozenPage = false →
      ∃ u, exec (.hostMemoryWrite part va data) s = .next u ∧ u.tiles = s.tiles ∧ u.mem = (s.writeBytesAs part
        ((((List.range data.length).map (va.toNat + ·)).zip data).map fun ab => (physIn ps ab.1, ab.2, false))).mem) ∧
    ((ps.all fun q => s.plainPage part q.e) = false →
      exec (.hostMemoryWrite part va data) s = .next { s with reports := s.reports ++ [.hostAbort part va] })) ∧
  (∀ (s : State), exec .hostMessageTaken s = .next { s with hostq := s.hostq.drop 1 }) ∧
  (∀ (s : State) (c m : Nat) (C : Cluster) (lost : List Nat), C = s.cluster c → m = C.newm.toNat → C.req = true → C.spare = true →
    (∀ u, u < 17 → s.between (17 * c + u) = true) → (C.due = true ∨ s.clusterRuns c = false) → C.unitOf.get m m < 16 →
    ∃ u, exec (.spareRemap ⟨c, lost⟩) s = .next u ∧ (u.cluster c).unitOf.get m m = 16 ∧ (u.cluster c).inuse = true ∧
      (u.cluster c).spare = false ∧ (u.cluster c).req = false ∧ (u.tile (17 * c + C.unitOf.get m m)).retired = true ∧
      (u.tile (17 * c + 16)).ctl = (s.tile (17 * c + C.unitOf.get m m)).ctl ∧
      (u.tile (17 * c + 16)).code = (s.tile (17 * c + C.unitOf.get m m)).code ∧
      (u.tile (17 * c + 16)).mem.bytes = (s.tile (17 * c + C.unitOf.get m m)).mem.bytes ∧
      (u.tile (17 * c + 16)).retired = false ∧ u.mem = s.mem ∧
      ∀ a ∈ lost, 0x8000 ≤ a → a < 0x40000 → (s.tile (17 * c + C.unitOf.get m m)).mem.physOf a / 8 < 28672 →
        (u.tile (17 * c + 16)).mem.poison.getLsbD ((s.tile (17 * c + C.unitOf.get m m)).mem.physOf a / 8) = true)

/-- Doorbells, charges, quanta, time units, selection, launch, resume and completion act on slots and gangs (R357, R360, R361, R362, R363, R364, R368, R369, R370, R374, R381, R393). -/
def Obligations.Dispatcher : Prop :=
  (∀ (s : State) (part queue : Nat) (tail : BitVec 32),
    (∀ k x, s.slotOf part queue = some k → s.slot k = some x → ∃ u y, exec (.doorbell part queue tail) s = .next u ∧
      u.slot k = some y ∧ y = { x with tail := tail, pass := y.pass } ∧ (y.pass = x.pass ∨ y.pass = s.gpass) ∧
      (u.part part).bells.get queue 0 = tail ∧ (u.part part).qpending = (s.part part).qpending ∧ u.tiles = s.tiles ∧ u.mem = s.mem) ∧
    (s.slotOf part queue = none → queue < 64 → ∃ u, exec (.doorbell part queue tail) s = .next u ∧
      (u.part part).bells.get queue 0 = tail ∧ u.disp = s.disp ∧ u.tiles = s.tiles ∧ u.mem = s.mem ∧
      ∀ q, q < 64 → (u.part part).qpending.getLsbD q = (decide (q = queue) || (s.part part).qpending.getLsbD q))) ∧
  (∀ (s : State) (slot id : Nat) (g : Gang), s.chargeable slot = some (id, g) → 65536 ≤ g.cycles ∧ ∃ u,
    exec (.chargeUnit slot) s = .next u ∧ u.gang id = some { g with cycles := g.cycles - 65536, charged := g.charged + 1 } ∧
    u.tiles = s.tiles ∧ u.mem = s.mem ∧
    (∀ k x, s.slotOf g.qpart g.qid = some k → s.slot k = some x →
      u.slot k = some { x with pass := x.pass + BitVec.ofNat 64 x.stride }) ∧
    (s.slotOf g.qpart g.qid = none →
      (u.heldFor g.qpart g.qid).charge = (s.heldFor g.qpart g.qid).charge + BitVec.ofNat 64 g.stride)) ∧
  (∀ (s : State) (k id : Nat) (x : Slot) (g : Gang), s.slot k = some x →
    (s.gangs.find? fun gG => decide (gG.2.qpart = x.part) && decide (gG.2.qid = x.qid) && decide (gG.2.state = .running)) = some (id, g) →
    (x.qlim ≠ 0 → x.qlim ≤ g.charged → (∃ y ∈ s.readySlots, y.1 ≠ k ∧ g.prio ≤ y.2.1) →
      exec (.quantumExpiry k) s = .next (s.setGang id { g with preempt := true })) ∧
    (x.qlim = 0 ∨ g.charged < x.qlim → exec (.quantumExpiry k) s = .next s)) ∧
  (∀ (s : State), s.disp.units < s.cycle / 65536 → ∃ u, exec .timeUnitEnd s = .next u ∧ u.disp.units = s.disp.units + 1 ∧
    u.tiles = s.tiles ∧ u.mem = s.mem ∧ ∀ k x, s.slot k = some x → u.slot k = some { x with
      wait := if s.slotReady k = true ∧ x.selected = false then Nat.min (2 ^ 24 - 1) (x.wait + 1) else x.wait, selected := false }) ∧
  (∀ (s : State), s.pkg.up = true → s.disp.job = none →
    (∀ k e x rest, s.readySlots = (k, e, x) :: rest → s.slot k = some x → s.slotReady k = true ∧ e = s.slotE k x ∧
      (∀ y ∈ s.readySlots, y.2.1 < e ∨ y.2.1 = e ∧ (x.pass.toNat < y.2.2.pass.toNat ∨ x.pass = y.2.2.pass ∧ k ≤ y.1)) ∧
      ∃ u j y, exec .jobSelection s = .next u ∧ u.disp.job = some j ∧ j.slot = k ∧ j.eff = e ∧ u.slot k = some y ∧
        s.headJob k x = some j.src ∧ y = { x with running := true, selected := true, wait := 0, head := y.head } ∧
        y.head = (if j.src = .ring then x.head + 1 else x.head) ∧ u.tiles = s.tiles ∧ u.gangs = s.gangs ∧ u.mem = s.mem) ∧
    (s.readySlots = [] → exec .jobSelection s = .next s)) ∧
  (∀ (s : State) (j : Job), s.disp.job = some j → (∀ id, j.src ≠ .cont id) → s.disp.jobFault = false → s.pkg.up = true →
    (s.ownsCluster j.part = false → ∃ u d, exec .gangLaunch s = .next u ∧ u.disp.job = none ∧ u.disp.done = s.disp.done ++ [d] ∧
      d.status = 3 ∧ d.gang = 0 ∧ u.tiles = s.tiles ∧ u.gangs = s.gangs ∧ u.mem = s.mem) ∧
    (s.ownsCluster j.part = true →
    (∀ b p cs, s.plan j = .start b p cs → s.peersPlaced j.part = true →
      (∃ i, 1 ≤ i ∧ i ≤ 65535 ∧ s.gang i = none ∧ ((s.part j.part).rankCount = 1 ∨ i ∉ s.peerGangs)) →
      ∃ u id g, exec .gangLaunch s = .next u ∧ 1 ≤ id ∧ s.gang id = none ∧
        (∀ i, 1 ≤ i → i < id → (s.gang i).isSome = true ∨ ((s.part j.part).rankCount ≠ 1 ∧ i ∈ s.peerGangs)) ∧ u.gang id = some g ∧ g.state = .running ∧ g.part = j.part ∧ g.place = s.placeTiles cs (blkTiles b) ∧
        g.stepLimit = BitVec.ofNat 32 (blk b 1 0 32) ∧ g.plots = [] ∧ u.disp.job = none ∧ u.mem = s.mem ∧
        ∀ t ∈ g.place, (u.tile t).gang = id ∧ (u.tile t).seq.phase = .start ∧ (u.tile t).strands = [] ∧
          (u.tile t).ctl.memcfg = blkMemcfg b ∧ (u.tile t).ctl.sstep = 0 ∧ (u.tile t).mem.deltas = [] ∧
          (u.tile t).abortcnt = 0 ∧ (u.tile t).vote = {}) ∧
    (∀ b, s.plan j = .invalid b → ∃ u d, exec .gangLaunch s = .next u ∧ u.disp.job = none ∧ u.disp.done = s.disp.done ++ [d] ∧
      d.status = 4 ∧ d.gang = 0 ∧ u.tiles = s.tiles ∧ u.gangs = s.gangs ∧ u.mem = s.mem) ∧
    (s.plan j = .full → exec .gangLaunch s = .next s) ∧
    (∀ b p cs, s.plan j = .start b p cs → s.peersPlaced j.part = false → exec .gangLaunch s = .next s))) ∧
  (∀ (s : State) (j : Job) (id : Nat) (g : Gang), s.disp.job = some j → j.src = .cont id → s.gang id = some g →
    s.canResume id g = true → ∃ u h, exec .resume s = .next u ∧ u.gang id = some h ∧ h.state = .running ∧ h.place = g.place ∧
      h.plots = g.plots ∧ h.charged = 0 ∧ u.disp.job = none ∧ u.mem = s.mem ∧
      ∀ t ∈ g.place, ∃ r, (s.tile t).barn.find (s.part g.part).bslot.toNat = some r ∧ (u.tile t).gang = id ∧
        (u.tile t).seq.phase = .start ∧ (u.tile t).strands = [] ∧ (u.tile t).mem.bytes = (s.tile t).mem.bytes ∧
        (r.key ≠ none → r.key = (s.part g.part).key → (u.tile t).ctl.sstep = r.ctl.sstep ∧ (u.tile t).ctl.sems = r.ctl.sems ∧
          (u.tile t).ctl.memcfg = r.ctl.memcfg ∧ (u.tile t).ctl.listptr = r.ctl.listptr ∧ (u.tile t).abortcnt = r.abortcnt)) ∧
  (∀ (s s1 : State) (job : Nat) (d : Done) (g : Gang), s.disp.done.find? (fun d => decide (d.job = job)) = some d →
    d.gang ≠ 0 → s.gang d.gang.toNat = some g → g.rank = 0 → (d.hmsg = none ∨ s.hostq.length < 64) →
    s.writeCompletion d = .inr (some s1) →
    ∃ u, exec (.jobCompletion job) s = .next u ∧ u.gang d.gang.toNat = none ∧
      (∀ e ∈ u.disp.done, e.job ≠ job) ∧ (s.pubs = [] → u.mem = s1.mem)) ∧
  (∀ d : Done, d.word.extractLsb' 0 8 = d.status ∧ d.word.extractLsb' 8 8 = d.cause ∧ d.word.extractLsb' 16 32 = d.sstep ∧
    d.word.extractLsb' 48 16 = d.gang) ∧
  (∀ (s : State) (d : Done) (va : Word) (ps : List Page), d.complva = some va → s.pages d.part 0 [va.toNat] = .ok ps →
    (ps.all fun q => s.plainPage d.part q.e) = true → ps.any s.frozenPage = false →
    ∃ u, s.writeCompletion d = .inr (some u) ∧ u.tiles = s.tiles ∧
      u.mem = (s.writeBytesAs d.part (((List.range 8).zip (toBytes 8 d.word.toNat)).map fun ib =>
        (physIn ps (va.toNat + ib.1), ib.2, false))).mem)

/-- A strand's turn runs exec of the instruction at its PC, and an event's turn exec of the event; the next PC (R25, R38, R48, R50, R60, R61, R81). -/
def Obligations.StepRunsDecoded : Prop :=
  (∀ (s v b w x : State) (c t k : Nat), s.nextTurn = (⟨c, .strand t k .ok⟩, v) → b = v.begin ⟨c, .strand t k .ok⟩ →
    w = b.giveTurn t k → w.discarding t = false →
    w.stopsNow = false → w.canTry = true → w.forwarded = false → k ≠ 4 → x = w.updMe (fun y => { y with issued := false }) →
    (∀ i, w.myTile.badLine w.me.pc = false → decodeSlot (w.myTile.codeHalf w.me.pc) (pcSlot w.me.pc) = some i →
      step s = match exec i x with
        | .next r => .next (State.watch b (x.issued .ok i r))
        | .fault f => .fault f
        | .refused f => .refused f) ∧
    (w.myTile.badLine w.me.pc = false → decodeSlot (w.myTile.codeHalf w.me.pc) (pcSlot w.me.pc) = none →
      step s = .next (State.watch b (x.trapMe 0x01 w.me.pc ((w.myTile.codeHalf w.me.pc (pcSlot w.me.pc)).setWidth 64)))) ∧
    (w.myTile.badLine w.me.pc = true →
      step s = .next (State.watch b (x.trapMe 0x02 (BitVec.ofNat 15 (pcLine w.me.pc)) (BitVec.ofNat 64 (pcLine w.me.pc)))))) ∧
  (∀ (s v b : State) (c : Nat) (e : Instr), s.nextTurn = (⟨c, .event e⟩, v) → b = v.begin ⟨c, .event e⟩ → e.isCode = false →
    (∀ t, eventTile e = some t → b.discarding t = false) →
    step s = match exec e b with
      | .next r => .next (State.watch b r)
      | .fault f => .fault f
      | .refused f => .refused f) ∧
  (∀ (s : State) (x : Turn), (s.begin x).cycle = s.cycle +
      (if x.cycles = 0 ∧ s.outOfOrder (s.claims x.what) = true then 1 else x.cycles) ∧
    ((s.begin x).curTile, (s.begin x).curStrand, (s.begin x).mem) = (s.curTile, s.curStrand, s.mem)) ∧
  (∀ s : State, s.agenda = [] → s.nextTurn = (⟨1, .strand s.curTile s.curStrand .ok⟩, s)) ∧
  (∀ (s : State) (x : Turn) (l : List Turn), s.agenda = x :: l → s.nextTurn = (x, { s with agenda := l })) ∧
  (∀ (x r : State) (i : Instr), x.leadsList = false → x.forwarded = false →
    x.issued .ok i r = if (r.strand x.curTile x.curStrand).issued then (r.noteIssue) else r) ∧
  (∀ (T : Tile) (pc : Pc) (slot h n : Nat), pc.toNat % 2 = 0 → slot = pc.toNat % 64 / 2 → h = (T.codeHalf pc 0).toNat / 2048 →
    n = (if T.codeHalf pc slot = 0x1100 then 2 else 1) →
    T.slotsAt pc = n ∧ (slot + n ≤ h → (T.pcAfter pc n).toNat = pc.toNat + 2 * n) ∧
    (h < slot + n → (T.pcAfter pc n).toNat = (pc.toNat / 64 * 64 + 66) % 2 ^ 15)) ∧
  (∀ s : State, (s.curStrand = 4 → s.seqPc = s.me.pc + 1) ∧
    (s.curStrand ≠ 4 → s.forwarded = false → s.seqPc = s.myTile.pcAfter s.me.pc (s.myTile.slotsAt s.me.pc)) ∧
    (s.me.td = true ∨ s.me.rep.active = false → s.nextOf = (s.seqPc, s.me.rep))) ∧
  (∀ (s : State) (pc : Pc) (r : Rep) (keep : Bool) (t : State), t = s.retireAt pc r keep →
    (s.curStrand ≠ 4 ∨ pc.toNat < s.me.slots.length → t.me.pc = pc ∧ t.me.rep = r ∧ t.me.run = .ready ∧ t.me.hold = .none) ∧
    (s.curStrand = 4 → s.me.slots.length ≤ pc.toNat → t.me.run = .idle ∧ t.me.slots = []) ∧
    (keep = false → t.me.pp = false ∧ t.me.pfmt = 0) ∧ t.me.s = s.me.s ∧ t.me.stag = s.me.stag ∧ t.me.p = s.me.p ∧
    t.me.ptag = s.me.ptag ∧ t.me.v = s.me.v ∧ t.me.vtag = s.me.vtag ∧ t.me.q = s.me.q ∧ t.me.qtag = s.me.qtag ∧
    t.me.k = s.me.k ∧ OtherTilesSame s t s.curTile ∧ t.mem = s.mem)

/-- The checks of R60 before an instruction's own causes, in order; a form E instruction that is guarded off waits and signals (R53, R58, R59, R60). -/
def Obligations.IssueOrder : Prop :=
  (∀ (s : State) (g : Guard) (d a b : SReg) (imm : BitVec 15) (i : Instr) (head : Nat),
    (i, head) ∈ [(Instr.add g d a b, 0x0200), (Instr.addi g d a imm, 0x0600), (Instr.ld g .d d a imm, 0x6203),
      (Instr.preempt g d a, 0xFA02), (Instr.hmsg g a b, 0xFA05), (Instr.qpend g d, 0xFA08), (Instr.teardown g d a, 0xFA01),
      (Instr.barnsv g d a b, 0xFA03), (Instr.rankmap g d a b, 0xFA11)] →
    g.mask = false → s.me.rep.active = false →
    (s.me.pp = true → exec i s = .next (traps s 0x1C (BitVec.ofNat 64 head))) ∧
    (s.me.pp = false → s.me.pt g.idx = true → exec i s = .next (traps s 0x08 (g.idx.setWidth 64))) ∧
    (s.me.pp = false → s.me.pt g.idx = false → s.me.prd g.idx = g.inv → exec i s = .next (retired s s))) ∧
  (∀ (s : State) (g : Guard) (d a b : SReg) (i : Instr) (head : Nat),
    (i, head) ∈ [(Instr.preempt g d a, 0xFA02), (Instr.hmsg g a b, 0xFA05), (Instr.qpend g d, 0xFA08), (Instr.teardown g d a, 0xFA01),
      (Instr.barnsv g d a b, 0xFA03), (Instr.rankmap g d a b, 0xFA11)] →
    g.mask = false → s.me.rep.active = false → s.me.pp = false → s.me.pt g.idx = false → s.me.prd g.idx ≠ g.inv →
    (s.curStrand = 4 → exec i s = .next (traps s 0x15 (BitVec.ofNat 64 head))) ∧
    (s.curStrand ≠ 4 → s.me.priv < 3 → exec i s = .next (traps s 0x04 (BitVec.ofNat 64 head)))) ∧
  (∀ (x : Strand) (g : Guard), g.mask = true → x.guardedOff g = false ∧ x.guardPoison g = false) ∧
  (∀ (s : State) (g : Guard) (acc ra rb ring : BitVec 3) (n slot : BitVec 6) (x y z w : SReg) (tbl : Bool) (sz : Size) (sy : Sync) (i : Instr)
    (F : Option Formats),
    (i, F) ∈ [(Instr.mma g acc ra rb n sy, some mmaPairs), (Instr.mman g acc ra rb n sy, some mmaPairs), (Instr.mmaq g acc ra rb n sy, some mmaqPairs),
      (Instr.mmai g acc ra rb n sy, some mmaiPairs), (Instr.accsw g acc sy, none), (Instr.accst g acc y z sy, some accOut),
      (Instr.accld g acc y z sy, some accIn), (Instr.tblsw g tbl sy, none), (Instr.ringpush g ring slot sy, none),
      (Instr.ringpop g ring slot sy, none), (Instr.pflstop g ring sy, none), (Instr.pfl g x sy, none), (Instr.put g x y z sy, none),
      (Instr.get g x y z sy, none), (Instr.putv g x y z w sy, none), (Instr.getv g x y z w sy, none), (Instr.ist g sz x y sy, none),
      (Instr.istfD g x y sy, none), (Instr.xsched g x sy, none), (Instr.coll g x y z sy, none)] →
    g.mask = false → s.me.prefixMisuse { head := 0, guard := g, formats := F } = false → s.me.pt g.idx = false → s.me.prd g.idx = g.inv →
    (SyncReady s sy true → exec i s = .next (retired s ((s.takeWait sy).signalMe sy))) ∧
    (s.waitMet sy = false → exec i s = .next (s.updMe fun m => { m with run := .parked .sem })) ∧
    (s.waitMet sy = true → sy.sinc ≠ 0 → s.myTile.semOver sy.ssem.toNat sy.sinc.toNat = true →
      exec i s = .next ((s.refundWait sy).trapMe 0x14 s.me.pc (sy.ssem.setWidth 64))))

/-- s0 reads as zero and p0 as true with clear tags, and writes to them are discarded; other registers keep what is written (R27). -/
def Obligations.HardwiredRegisters : Prop :=
  (∀ (x : Strand) (v : Word) (b t : Bool), x.rd 0 = 0 ∧ x.tag 0 = false ∧ x.wr 0 v t = x ∧
    x.prd 0 = true ∧ x.pt 0 = false ∧ x.pwr 0 b t = x) ∧
  (∀ (x : Strand) (d : SReg) (v : Word) (t : Bool), d ≠ 0 →
    (∀ r, (x.wr d v t).rd r = (if r = d then v else x.rd r) ∧ (x.wr d v t).tag r = (if r = d then t else x.tag r)) ∧
    x.wr d v t = { x with s := (x.wr d v t).s, stag := (x.wr d v t).stag }) ∧
  (∀ (x : Strand) (d : PReg) (v t : Bool), d ≠ 0 →
    (∀ r, (x.pwr d v t).prd r = (if r = d then v else x.prd r) ∧ (x.pwr d v t).pt r = (if r = d then t else x.pt r)) ∧
    x.pwr d v t = { x with p := (x.pwr d v t).p, ptag := (x.pwr d v t).ptag }) ∧
  (∀ (x : Strand) (d : VReg) (v : Vec) (t : BitVec 64),
    (∀ r, (x.vwr d v t).vrd r = (if r = d then v else x.vrd r) ∧ (x.vwr d v t).vt r = (if r = d then t else x.vt r)) ∧
    x.vwr d v t = { x with v := (x.vwr d v t).v, vtag := (x.vwr d v t).vtag }) ∧
  (∀ (x : Strand) (d : PReg) (v t : BitVec 64),
    (∀ r, (x.qwr d v t).qrd r = (if r = d then v else x.qrd r) ∧ (x.qwr d v t).qt r = (if r = d then t else x.qt r)) ∧
    x.qwr d v t = { x with q := (x.qwr d v t).q, qtag := (x.qwr d v t).qtag }) ∧
  (∀ (x : Strand) (d : BitVec 3) (v : BitVec 64),
    (∀ r, (x.kwr d v).krd r = if r = d then v else x.krd r) ∧ x.kwr d v = { x with k := (x.kwr d v).k })

/-- What package reset leaves: the reset values that the spec states, and memories in canonical form (R34, R35, R128, R345, R346, R349). -/
def Obligations.ResetState : Prop :=
  State.reset.cycle = 0 ∧ State.reset.gangs = [] ∧ State.reset.agenda = [] ∧ State.reset.pkg.up = false ∧
  State.reset.pkg.alarmcfg = 0x6A ∧ Memory.wf State.reset.mem ∧ (∀ a, memByte State.reset a = 0) ∧
  (∀ t, (State.reset.tile t).ctl.memcfg = 0x0A555555 ∧ (State.reset.tile t).abortcnt = 0 ∧ (State.reset.tile t).ctl.sems = [] ∧
    (State.reset.tile t).ctl.tables = [] ∧ (State.reset.tile t).ctl.bales = [] ∧ (State.reset.tile t).ctl.rings = [] ∧
    (State.reset.tile t).gang = 0 ∧ Tile.memWf (State.reset.tile t) ∧ FramesOk (State.reset.tile t)) ∧
  (∀ t k, (State.reset.strand t k).run = .idle ∧ (State.reset.strand t k).tvec = 0 ∧
    (State.reset.strand t k).status = if isSteward t = true ∧ k < 4 then 3 else 0) ∧
  (∀ p, (State.reset.part p).key = none ∧ (State.reset.part p).bslot = BitVec.ofNat 2 p ∧ (State.reset.part p).clusters = 0) ∧
  (∀ p q, p < 64 → q < 64 → ((State.reset.part p).qslotmap.getLsbD q = true ↔ p < 16 ∧ q / 4 = p))

/-- Words written out from the encoding tables decode to their instructions; reserved bits and misplaced guards refuse (R49, R52, R53, R54, R55, R56, R59, R61, R62, R63, R64). -/
def Obligations.DecodeWords : Prop :=
  decode 0x0200 0x00061020 none = some (.add ⟨false, false, 0⟩ 1 2 3) ∧
  decode 0x0200 0x0006103B none = none ∧
  decode 0x0200 0x00061033 none = some (.add ⟨true, false, 3⟩ 1 2 3) ∧
  decode 0x0200 0x00861020 none = none ∧ decode 0x0200 0x20061020 none = none ∧
  decode 0x0600 0xFFFE1020 none = some (.addi ⟨false, false, 0⟩ 1 2 0x7FFF) ∧
  decode 0x1210 0x00061020 none = some (.cmp ⟨false, false, 0⟩ .eq 1 2 3) ∧
  decode 0x1210 0x00061120 none = none ∧
  decode 0x1100 0x00A0 (some (0xFD00, 0x8000)) = some (.lit ⟨false, false, 0⟩ 5 1 0xFFFFFFFFFFFF8000) ∧
  decode 0x1100 0x00A0 none = none ∧
  decode 0x4600 0x00420000 none = some (.br ⟨false, false, 0⟩ 0x21) ∧
  decode 0x6203 0x00100920 none = some (.ld ⟨false, false, 0⟩ .d 9 1 8) ∧
  decode 0x4408 0 none = some .halt ∧ decode 0xFC31 0 none = some (.fmt 0x31) ∧ decode 0xFCD0 0 none = none ∧
  decode 0x8A00 0x02018829 none = some (.vadd ⟨false, true, 1⟩ 1 2 3 1) ∧
  decode 0x7600 0x01818000 none = some (.semwait ⟨false, false, 0⟩ 0x30 0x30) ∧
  decode 0xC300 0x04030102_00061020 none = none ∧
  decode 0xC300 0x04380802_00061020 none = some (.mma ⟨false, false, 0⟩ 1 2 3 0
    { wsem := 8, wthr := 2, ssem := 4, sinc := 3, wen := true, site := 0 }) ∧
  decode 0xF501 0x7020 none = some (.vote ⟨false, false, 0⟩ 1 0xE0) ∧
  decode 0xFA00 0x00001020 none = some (.launch ⟨false, false, 0⟩ 1 2) ∧
  decode 0xFB10 0x00000000_000C4100 none = some (.coll ⟨false, false, 0⟩ 8 8 6 Sync.none) ∧
  decode 0x0300 0 none = none ∧ decode 0xFFFF 0 none = none

/-- Decoding what encode gives for a well-formed instruction gives it back, and what decodes is well formed (R52, R54, R55, R56, R59, R61, R62, R63, R64). -/
def Obligations.EncodeDecode : Prop :=
  (∀ i : Instr, i.wf = true → i.isCode = true → ∃ w, encode i = some w ∧ decode w.head w.tv w.lit = some i) ∧
  (∀ (head : Half) (tv : Word) (l : Option (Half × Word)) (i : Instr), decode head tv l = some i → i.wf = true ∧ i.isCode = true)

/-- Every step keeps the package's memory in canonical form (R25, R285, R294, R347, R353). -/
def Obligations.MemoryKept : Prop :=
  ∀ s t : State, Memory.wf s.mem → step s = .next t → Memory.wf t.mem
end

