-- ==== Sys2Proof/Laws/Issue.lean ====
section
/-! SUPPORT. What an issue comes to, once for every shape of effect: the laws that a statement about one instruction cites
instead of unfolding the order of checks. -/

namespace Sys2Proof.Laws

open Sys2Proof.Machine Sys2Proof.Safety

/-- `Clears` does not look at the head. -/
theorem clears_congr {s : State} {i j : Info} (h : Clears s i) (hb : i.bodyOk = j.bodyOk) (hf : i.formats = j.formats)
    (hg : i.guard = j.guard) (hm : i.msgOk = j.msgOk) (hr : i.regs = j.regs) (hp : i.priv = j.priv) : Clears s j := by
  simpa [Clears, Strand.prefixMisuse, hb, hf, hg, hm, hr, hp] using h

/-- An instruction that the checks let through comes to its own causes and effect. -/
theorem issue_clears {s : State} {i : Info} (h : Clears s i) (body : Nat → Nat → State → Eff) :
    s.issue i body = s.settle i
      (body (match i.formats with | some f => s.me.formatPair f | none => (0, 0)).1
        (match i.formats with | some f => s.me.formatPair f | none => (0, 0)).2) false := by
  obtain ⟨h1, h2, h3, h4, h5, h6⟩ := h
  have e1 : (s.me.rep.active && !s.me.td && !i.bodyOk) = false := by
    cases ha : s.me.rep.active <;> cases ht : s.me.td <;> simp_all
  have e5 : (decide (s.curStrand = 4) && (!i.msgOk || i.regs.any fun r => decide (16 ≤ r.toNat))) = false := by
    by_cases hc : s.curStrand = 4
    · obtain ⟨a, b⟩ := h5 hc
      simp only [hc, a, decide_true, Bool.true_and, Bool.not_true, Bool.false_or, List.any_eq_false, decide_eq_true_eq]
      intro r hr
      have := b r hr
      omega
    · simp [hc]
  simp only [State.issue, e1, h2, h3, h4, e5, Nat.not_lt.mpr h6, Bool.false_eq_true, if_false]
  all_goals rfl

/-- Settling an effect that completes, without a sync tail. -/
theorem settle_done {s s' : State} {i : Info} {b : State → Eff} (kp : Bool) (hs : i.sync = Sync.none) (hb : b s = .done s') :
    s.settle i b kp = .next (s'.retireAt s.nextOf.1 s.nextOf.2 kp) := by
  simp [State.settle, hb, hs, Sync.none, State.waitMet, State.takeWait, State.signalMe]

theorem settle_goto {s s' : State} {i : Info} {b : State → Eff} {pc : Pc} {r : Rep} (kp : Bool) (hs : i.sync = Sync.none)
    (hb : b s = .goto s' pc r) : s.settle i b kp = .next (s'.retireAt pc r kp) := by
  simp [State.settle, hb, hs, Sync.none, State.waitMet, State.takeWait, State.signalMe]

theorem settle_final {s s' : State} {i : Info} {b : State → Eff} (kp : Bool) (hs : i.sync = Sync.none)
    (hb : b s = .final s') : s.settle i b kp = .next (s'.updMe fun x => { x with issued := true }) := by
  simp [State.settle, hb, hs, Sync.none, State.waitMet, State.takeWait]

theorem settle_parked {s s' : State} {i : Info} {b : State → Eff} {w : Reason} (kp : Bool) (hs : i.sync = Sync.none)
    (hb : b s = .parked s' w) :
    s.settle i b kp = .next (s'.updMe fun x => { x with run := .parked w, took := false, issued := true }) := by
  simp [State.settle, hb, hs, Sync.none, State.waitMet, State.takeWait]

theorem settle_hold {s s' : State} {i : Info} {b : State → Eff} {k : Hold} (kp : Bool) (hs : i.sync = Sync.none)
    (hb : b s = .hold s' k) :
    s.settle i b kp = .next (s'.updMe fun x => { x with run := .ready, hold := k, took := false, issued := true }) := by
  simp [State.settle, hb, hs, Sync.none, State.waitMet, State.takeWait]

theorem settle_trap {s : State} {i : Info} {b : State → Eff} {c : Nat} {v : Word} (kp : Bool) (hb : b s = .trap c v) :
    s.settle i b kp = .next (s.trapMe c s.me.pc v) := by
  simp [State.settle, hb]

theorem settle_trapNext {s : State} {i : Info} {b : State → Eff} {c : Nat} {v : Word} (kp : Bool) (hb : b s = .trapNext c v) :
    s.settle i b kp = .next ((s.updMe fun x => { x with rep := s.nextOf.2 }).trapMe c s.nextOf.1 v) := by
  simp [State.settle, hb]

theorem settle_park {s : State} {i : Info} {b : State → Eff} {w : Reason} (kp : Bool) (hb : b s = .park w) :
    s.settle i b kp = .next (s.parkMe w) := by
  simp [State.settle, hb]

theorem settle_retry {s s' : State} {i : Info} {b : State → Eff} (kp : Bool) (hw : s.waitMet i.sync = true) (hb : b s = .retry s') :
    s.settle i b kp = .next (s'.updMe fun x => { x with run := .ready }) := by
  simp [State.settle, hb, hw]

theorem settle_fault {s : State} {i : Info} {b : State → Eff} {f : Fault} (kp : Bool) (hb : b s = .fault f) :
    s.settle i b kp = .fault f := by
  simp [State.settle, hb]

/-- An instruction without a prefix or a sync tail whose effect completes. -/
theorem issue_done {s s' : State} {i : Info} {body : Nat → Nat → State → Eff} (h : Clears s i) (hf : i.formats = none)
    (hs : i.sync = Sync.none) (hb : body 0 0 s = .done s') :
    s.issue i body = .next (s'.retireAt s.nextOf.1 s.nextOf.2 false) := by
  rw [issue_clears h, hf]
  exact settle_done _ hs hb

/-- The same for an instruction that takes a format prefix. -/
theorem issue_done_fmt {s s' : State} {i : Info} {f : Formats} {body : Nat → Nat → State → Eff} (h : Clears s i)
    (hf : i.formats = some f) (hs : i.sync = Sync.none) (hb : body (s.me.formatPair f).1 (s.me.formatPair f).2 s = .done s') :
    s.issue i body = .next (s'.retireAt s.nextOf.1 s.nextOf.2 false) := by
  rw [issue_clears h, hf]
  exact settle_done _ hs hb

/-- An instruction whose own cause traps. -/
theorem issue_trap {s : State} {i : Info} {c : Nat} {v : Word} {body : Nat → Nat → State → Eff} (h : Clears s i)
    (hf : i.formats = none) (hb : body 0 0 s = .trap c v) : s.issue i body = .next (s.trapMe c s.me.pc v) := by
  rw [issue_clears h, hf]
  exact settle_trap _ hb

/-- An instruction with a sync tail whose wait can be met and whose signal does not overflow (R57). -/
theorem settle_done_sync {s s' : State} {i : Info} {b : State → Eff} (kp : Bool) (hr : SyncReady s i.sync i.sigNow)
    (h0 : ∃ s₀, b s = .done s₀) (hb : b (s.takeWait i.sync) = .done s') :
    s.settle i b kp =
      .next ((if i.sigNow then s'.signalMe i.sync else s').retireAt s.nextOf.1 s.nextOf.2 kp) := by
  obtain ⟨s₀, h0⟩ := h0
  obtain ⟨hw, ho⟩ := hr
  simp only [State.settle, h0, hw, hb]
  split
  · simp_all
  · split
    · rename_i _ h
      simp only [Bool.and_eq_true, decide_eq_true_eq] at h
      exact absurd h.2 (by simp [ho h.1.1 h.1.2])
    · rfl

end Sys2Proof.Laws
end

