-- ==== Sys2Proof/Laws/SMap.lean ====
section
/-! SUPPORT. Laws of sparse maps: reading after a write, and that writes keep the canonical form. -/

namespace Sys2Proof.Machine

variable {α : Type}

@[simp] theorem SMap.find_nil (k : Nat) : SMap.find ([] : SMap α) k = none := rfl

@[simp] theorem SMap.get_nil (k : Nat) (d : α) : SMap.get ([] : SMap α) k d = d := rfl

@[simp] theorem SMap.find_insert_self (m : SMap α) (k : Nat) (v : α) : (m.insert k v).find k = some v := by
  induction m with
  | nil => simp [SMap.insert, SMap.find]
  | cons x t ih =>
    simp only [SMap.insert]
    split
    · simp [SMap.find]
    · split
      · simp [SMap.find]
      · rename_i h
        simpa [SMap.find, Ne.symm h] using ih

theorem SMap.find_insert_ne (m : SMap α) {k j : Nat} (v : α) (h : j ≠ k) : (m.insert k v).find j = m.find j := by
  induction m with
  | nil => simp [SMap.insert, SMap.find, Ne.symm h]
  | cons x t ih =>
    simp only [SMap.insert]
    split
    · simp [SMap.find, Ne.symm h]
    · split
      · rename_i e
        subst e
        simp [SMap.find, Ne.symm h]
      · simp [SMap.find, ih]

@[simp] theorem SMap.find_erase_self (m : SMap α) (k : Nat) : (m.erase k).find k = none := by
  induction m with
  | nil => rfl
  | cons x t ih =>
    simp only [SMap.erase]
    split
    · exact ih
    · rename_i h
      simpa [SMap.find, h] using ih

theorem SMap.find_erase_ne (m : SMap α) {k j : Nat} (h : j ≠ k) : (m.erase k).find j = m.find j := by
  induction m with
  | nil => rfl
  | cons x t ih =>
    simp only [SMap.erase]
    split
    · rename_i e
      subst e
      simpa [SMap.find, Ne.symm h] using ih
    · simp [SMap.find, ih]

variable [DecidableEq α]

/-- A key reads as what was written at it. -/
@[simp] theorem SMap.get_set_self (m : SMap α) (k : Nat) (d v : α) : (m.set k d v).get k d = v := by
  simp only [SMap.get, SMap.set]
  split
  · rename_i h
    simp [h]
  · simp

/-- Every other key reads as before. -/
theorem SMap.get_set_ne (m : SMap α) {k j : Nat} (d v : α) (h : j ≠ k) : (m.set k d v).get j d = m.get j d := by
  simp only [SMap.get, SMap.set]
  split
  · rw [SMap.find_erase_ne m h]
  · rw [SMap.find_insert_ne m v h]

/-- Reading after a write, either way. -/
theorem SMap.get_set (m : SMap α) (k j : Nat) (d v : α) : (m.set k d v).get j d = if j = k then v else m.get j d := by
  split
  · rename_i h
    subst h
    simp
  · rename_i h
    exact SMap.get_set_ne m d v h

/-- A lower bound can be lowered. -/
theorem SMap.wfFrom_mono {d : α} {lo lo' : Nat} (h : lo' ≤ lo) (m : SMap α) (hm : SMap.wfFrom d lo m = true) :
    SMap.wfFrom d lo' m = true := by
  cases m with
  | nil => rfl
  | cons x t =>
    simp only [SMap.wfFrom, Bool.and_eq_true, decide_eq_true_eq] at *
    exact ⟨⟨by omega, hm.1.2⟩, hm.2⟩

theorem SMap.wfFrom_insert {d v : α} (hv : v ≠ d) (m : SMap α) : ∀ {lo k : Nat}, lo ≤ k → SMap.wfFrom d lo m = true →
    SMap.wfFrom d lo (m.insert k v) = true := by
  induction m with
  | nil => intro lo k h _; simp [SMap.insert, SMap.wfFrom, h, hv]
  | cons x t ih =>
    intro lo k h hm
    simp only [SMap.wfFrom, Bool.and_eq_true, decide_eq_true_eq] at hm
    simp only [SMap.insert]
    split
    · simp only [SMap.wfFrom, Bool.and_eq_true, decide_eq_true_eq]
      exact ⟨⟨h, hv⟩, ⟨by omega, hm.1.2⟩, hm.2⟩
    · split
      · rename_i e
        subst e
        simp only [SMap.wfFrom, Bool.and_eq_true, decide_eq_true_eq]
        exact ⟨⟨h, hv⟩, hm.2⟩
      · simp only [SMap.wfFrom, Bool.and_eq_true, decide_eq_true_eq]
        exact ⟨hm.1, ih (by omega) hm.2⟩

theorem SMap.wfFrom_erase {d : α} (m : SMap α) (k : Nat) : ∀ {lo : Nat}, SMap.wfFrom d lo m = true →
    SMap.wfFrom d lo (m.erase k) = true := by
  induction m with
  | nil => intro lo h; exact h
  | cons x t ih =>
    intro lo hm
    simp only [SMap.wfFrom, Bool.and_eq_true, decide_eq_true_eq] at hm
    simp only [SMap.erase]
    split
    · exact SMap.wfFrom_mono (by omega) _ (ih hm.2)
    · simp only [SMap.wfFrom, Bool.and_eq_true, decide_eq_true_eq]
      exact ⟨hm.1, ih hm.2⟩

/-- A write keeps the canonical form. -/
theorem SMap.wf_set {d : α} (m : SMap α) (k : Nat) (v : α) (h : SMap.wf d m = true) : SMap.wf d (m.set k d v) = true := by
  simp only [SMap.wf, SMap.set] at *
  split
  · exact SMap.wfFrom_erase m k h
  · rename_i hv
    exact SMap.wfFrom_insert hv m (Nat.zero_le k) h

/-- Unlisting a key keeps the canonical form. -/
theorem SMap.wf_erase {d : α} (m : SMap α) (k : Nat) (h : SMap.wf d m = true) : SMap.wf d (m.erase k) = true :=
  SMap.wfFrom_erase m k h

/-- Leaving entries out keeps the canonical form. -/
theorem SMap.wf_filter {d : α} (p : Nat × α → Bool) (m : SMap α) (h : SMap.wf d m = true) :
    SMap.wf d (m.filter p) = true := by
  have aux : ∀ (m : SMap α) (lo : Nat), SMap.wfFrom d lo m = true → SMap.wfFrom d lo (m.filter p) = true := by
    intro m
    induction m with
    | nil => intro lo h; exact h
    | cons x t ih =>
      intro lo hm
      simp only [SMap.wfFrom, Bool.and_eq_true, decide_eq_true_eq] at hm
      simp only [List.filter]
      split
      · simp only [SMap.wfFrom, Bool.and_eq_true, decide_eq_true_eq]
        exact ⟨hm.1, ih _ hm.2⟩
      · exact SMap.wfFrom_mono (by omega) _ (ih _ hm.2)
  exact aux m 0 h

/-- Writes one after another keep the canonical form. -/
theorem SMap.wf_foldl_set {β : Type} {d : α} (f : SMap α → β → SMap α) (l : List β)
    (hf : ∀ m b, SMap.wf d m = true → SMap.wf d (f m b) = true) :
    ∀ m : SMap α, SMap.wf d m = true → SMap.wf d (l.foldl f m) = true := by
  induction l with
  | nil => intro m h; exact h
  | cons b t ih => intro m h; exact ih _ (hf m b h)

end Sys2Proof.Machine
end

