-- ==== Sys2Proof/Laws/Memory.lean ====
section
/-! SUPPORT. Every operation on memory, of the package and of a tile, keeps the canonical form: addresses rising, no byte
listed that an unlisted address reads as. And reading a byte of the package's memory after a write. -/

namespace Sys2Proof.Machine

open Sys2Proof.Safety

/-! ## The package's memory (R285, R301, R347) -/

theorem State.reset_mem_wf : Memory.wf State.reset.mem := rfl

/-- A fold whose every step keeps a property keeps it. -/
theorem foldl_keeps {α β : Type} {P : α → Prop} {f : α → β → α} (hf : ∀ a b, P a → P (f a b)) :
    ∀ (l : List β) (a : α), P a → P (l.foldl f a)
  | [], _, h => h
  | b :: l, a, h => foldl_keeps hf l (f a b) (hf a b h)

theorem State.setMemByte_mem_wf (s : State) (a : Nat) (b : Byte) (h : Memory.wf s.mem) : Memory.wf (s.setMemByte a b).mem := by
  unfold State.setMemByte
  split
  · exact h
  · exact SMap.wf_set _ _ _ h

theorem State.setRawWord_mem_wf (s : State) (a : Nat) (v : Word) (h : Memory.wf s.mem) : Memory.wf (s.setRawWord a v).mem :=
  foldl_keeps (P := fun s : State => Memory.wf s.mem) (fun s i hs => s.setMemByte_mem_wf (a + i) (BitVec.ofNat 8 (v.toNat / 256 ^ i)) hs) _ _ h

theorem State.reportDiscarded_mem (s : State) (p : Nat) (as : List Nat) : (s.reportDiscarded p as).mem = s.mem :=
  foldl_keeps (P := fun x : State => x.mem = s.mem) (f := fun (s : State) (r : Nat × Nat) => s.report (.discardedWrite p r.1 (r.2 + 1 - r.1)))
    (fun _ _ h => h) _ _ rfl

theorem State.rekey_mem_wf (s : State) (u : KeyUse) (a : Nat) (h : Memory.wf s.mem) : Memory.wf (s.rekey u a).mem := by
  unfold State.rekey
  split
  · split
    · exact h
    · exact SMap.wf_foldl_set _ _ (fun m _ hm => SMap.wf_set m _ _ hm) _ h
  · exact h

theorem State.writeByteAs_mem_wf (s : State) (p a : Nat) (b : Byte) (h : Memory.wf s.mem) : Memory.wf (s.writeByteAs p a b).mem := by
  simp only [State.writeByteAs]
  split
  · exact h
  · exact State.setMemByte_mem_wf _ _ _ (s.rekey_mem_wf _ a h)

theorem State.setPoisonMark_mem (s : State) (a : Nat) (b : Bool) : (s.setPoisonMark a b).mem = s.mem := rfl

theorem State.writeBytesAs_mem_wf (s : State) (p : Nat) (bs : List (Nat × Byte × Bool)) (h : Memory.wf s.mem) :
    Memory.wf (s.writeBytesAs p bs).mem := by
  simp only [State.writeBytesAs]
  refine foldl_keeps (P := fun s : State => Memory.wf s.mem) (fun s w hs => ?_) _ _ ?_
  rotate_left
  · split <;> simpa only [State.reportDiscarded_mem] using h
  split
  · exact hs
  · exact foldl_keeps (P := fun s : State => Memory.wf s.mem) (fun s b hs => s.writeByteAs_mem_wf p b.1 b.2.1 hs) _ _ hs

theorem State.copyFrame_mem_wf (s : State) (src dst : Nat) (h : Memory.wf s.mem) : Memory.wf (s.copyFrame src dst).mem :=
  SMap.wf_foldl_set _ _ (fun m _ hm => SMap.wf_set m _ _ hm) _ (SMap.wf_filter _ _ h)

/-- A byte of the package's memory after one write of a doubleword: the doubleword's own byte, or as before. -/
theorem State.setRawWord_byte_ne (s : State) (a : Nat) (v : Word) {j : Nat} (h : ∀ i < 8, j ≠ a + i) :
    SMap.get (s.setRawWord a v).mem j 0 = SMap.get s.mem j 0 := by
  have aux : ∀ (l : List Nat) (s : State), (∀ i ∈ l, i < 8) →
      SMap.get (l.foldl (fun (s : State) i => s.setMemByte (a + i) (BitVec.ofNat 8 (v.toNat / 256 ^ i))) s).mem j 0 = SMap.get s.mem j 0 := by
    intro l
    induction l with
    | nil => intro s _; rfl
    | cons x l ih =>
      intro s hl
      rw [List.foldl_cons, ih _ (fun i hi => hl i (List.mem_cons_of_mem _ hi))]
      unfold State.setMemByte
      split
      · rfl
      · exact SMap.get_set_ne _ _ _ (h x (hl x List.mem_cons_self))
  exact aux _ _ (fun i hi => List.mem_range.mp hi)

/-! ## Tile memory (R127-R137) -/

theorem TMem.setByte_wf (m : TMem) (a : Nat) (b : Byte) (h : Memory.wf m.bytes) : Memory.wf (m.setByte a b).bytes :=
  SMap.wf_set _ _ _ h

theorem TMem.putBytes_wf (bs : List Byte) : ∀ (m : TMem) (a : Nat), Memory.wf m.bytes → Memory.wf (m.putBytes a bs).bytes := by
  induction bs with
  | nil => intro m a h; exact h
  | cons b t ih => intro m a h; exact ih _ _ (m.setByte_wf a b h)

theorem TMem.copyFrame_wf (m : TMem) (src dst : Nat) (h : Memory.wf m.bytes) : Memory.wf (m.copyFrame src dst).bytes := by
  simp only [TMem.copyFrame]
  exact SMap.wf_foldl_set _ _ (fun m _ hm => SMap.wf_set m _ _ hm) _ h

theorem TMem.alloc_wf {m m' : TMem} {f : Nat} (e : m.alloc = some (f, m')) (h : Memory.wf m.bytes) : Memory.wf m'.bytes := by
  unfold TMem.alloc at e
  split at e
  · cases e
  · cases e; exact h

theorem TMem.delta_wf {m m' : TMem} {line : Nat} {d : Delta} (e : m.delta line = some (d, m')) (h : Memory.wf m.bytes) :
    Memory.wf m'.bytes := by
  unfold TMem.delta at e
  split at e
  · cases e; exact h
  · obtain ⟨⟨f, m₁⟩, ha, he⟩ := Option.map_eq_some_iff.mp e
    simp only [Prod.mk.injEq] at he
    have hc := TMem.copyFrame_wf m₁ (m₁.frameOf line) f (TMem.alloc_wf ha h)
    rw [← he.2]
    exact hc

theorem Tile.writeV_wf {T : Tile} {remote engine : Bool} {a : Nat} {bs : List Byte} {poison : Bool} {w : Wrote}
    (e : T.writeV remote engine a bs poison = some w) (h : Memory.wf T.mem.bytes) : Memory.wf w.tile.mem.bytes := by
  obtain ⟨⟨d, m⟩, hd, he⟩ := Option.map_eq_some_iff.mp e
  cases he
  exact TMem.putBytes_wf bs _ _ (TMem.delta_wf hd h)

theorem Tile.writeS_wf (T : Tile) (engine : Bool) (a : Nat) (bs : List Byte) (poison : Bool) (h : Memory.wf T.mem.bytes) :
    Memory.wf (T.writeS engine a bs poison).mem.bytes := TMem.putBytes_wf bs _ _ h

theorem Tile.writeLine_wf {T : Tile} {remote engine : Bool} {a : Nat} {bs : List Byte} {poison : Bool} {w : Wrote}
    (e : T.writeLine remote engine a bs poison = some w) (h : Memory.wf T.mem.bytes) : Memory.wf w.tile.mem.bytes := by
  unfold Tile.writeLine at e
  split at e
  · exact Tile.writeV_wf e h
  · cases e; exact Tile.writeS_wf T engine a bs poison h
  · cases e

theorem Tile.writeWords_wf (ws : List (Word × Bool)) : ∀ {T : Tile} {remote : Bool} {a : Nat} {w : Wrote},
    T.writeWords remote a ws = some w → Memory.wf T.mem.bytes → Memory.wf w.tile.mem.bytes := by
  induction ws with
  | nil => intro T remote a w e h; cases e; exact h
  | cons x t ih =>
    intro T remote a w e h
    obtain ⟨r, hr, e⟩ := Option.bind_eq_some_iff.mp e
    obtain ⟨r', hr', e⟩ := Option.map_eq_some_iff.mp e
    cases e
    have h' := ih hr' (Tile.writeLine_wf hr h)
    exact h'

theorem TMem.commit_wf (m : TMem) (h : Memory.wf m.bytes) : Memory.wf m.commit.bytes :=
  foldl_keeps (P := fun m : TMem => Memory.wf m.bytes) (f := fun m (ld : Nat × Delta) => m.commitLine ld.1 ld.2)
    (fun _ _ hm => hm) m.deltas m h

theorem TMem.abort_wf (m : TMem) (h : Memory.wf m.bytes) : Memory.wf m.abort.bytes := h

theorem TMem.launch_wf (m : TMem) (cfg : Word) (segmask : BitVec 14) (image : List Byte) (h : Memory.wf m.bytes) :
    Memory.wf (m.launch cfg segmask image).bytes := by
  simp only [TMem.launch]
  refine SMap.wf_foldl_set _ _ (fun b ib hb => ?_) _ (SMap.wf_filter _ _ h)
  split
  · exact SMap.wf_set _ _ _ hb
  · exact hb

theorem TMem.load_wf (m : TMem) (r : BarnRec) (frames : List (Word × Bool)) (h : Memory.wf m.bytes) :
    Memory.wf (m.load r frames).bytes := by
  simp only [TMem.load]
  exact foldl_keeps (P := fun m : TMem => Memory.wf m.bytes) (fun _ wf hm => TMem.putBytes_wf (toBytes 8 wf.2.1.toNat) _ _ hm) _ _
    (SMap.wf_filter _ _ h)

theorem TMem.wakeSegment_wf (m : TMem) (seg : Nat) (h : Memory.wf m.bytes) : Memory.wf (m.wakeSegment seg).bytes :=
  SMap.wf_filter _ _ h

/-- The bytes that a free value gives a whole data area are listed in canonical form. -/
theorem undefinedBytes_wf (draw : Nat) : Memory.wf (undefinedBytes draw) := by
  have aux : ∀ n k, SMap.wfFrom (0 : Byte) k ((List.range' k n).filterMap fun i =>
      if Config.freeByte draw i = 0 then none else some (i, Config.freeByte draw i)) = true := by
    intro n
    induction n with
    | zero => intro k; rfl
    | succ n ih =>
      intro k
      rw [List.range'_succ, List.filterMap_cons]
      by_cases hb : Config.freeByte draw k = 0
      · rw [if_pos hb]; exact SMap.wfFrom_mono (Nat.le_succ k) _ (ih (k + 1))
      · rw [if_neg hb]
        simp only [SMap.wfFrom, Nat.le_refl, decide_true, Bool.true_and, Bool.and_eq_true, decide_eq_true_eq]
        exact ⟨hb, ih (k + 1)⟩
  unfold undefinedBytes
  rw [List.range_eq_range']
  exact aux _ 0

theorem undefinedMemory_wf (draw : Nat) (cfg : Word) (segmask : BitVec 14) : Memory.wf (undefinedMemory draw cfg segmask).bytes := by
  have h := undefinedBytes_wf draw
  simpa only [undefinedMemory] using h

end Sys2Proof.Machine
end

