-- ==== Sys2Proof/Laws/State.lean ====
section
/-! SUPPORT. Reading the state back after each named update: one lemma per field and update, so that no proof unfolds a
record. -/

namespace Sys2Proof.Machine

/-! ## Tiles and strands -/

@[simp] theorem State.tile_setTile_self (s : State) (t : Nat) (x : Tile) : (s.setTile t x).tile t = x := by
  simp [State.tile, State.setTile, SMap.get_set_self]

theorem State.tile_setTile_ne (s : State) {t u : Nat} (h : u ≠ t) (x : Tile) : (s.setTile t x).tile u = s.tile u := by
  simp [State.tile, State.setTile, SMap.get_set_ne _ _ _ h]

@[simp] theorem State.tile_updTile_self (s : State) (t : Nat) (f : Tile → Tile) : (s.updTile t f).tile t = f (s.tile t) := by
  simp [State.updTile]

theorem State.tile_updTile_ne (s : State) {t u : Nat} (h : u ≠ t) (f : Tile → Tile) : (s.updTile t f).tile u = s.tile u := by
  simp [State.updTile, State.tile_setTile_ne s h]

theorem State.tile_setStrand_ne (s : State) {t u : Nat} (h : u ≠ t) (k : Nat) (x : Strand) :
    (s.setStrand t k x).tile u = s.tile u := by
  simp [State.setStrand, State.tile_updTile_ne s h]

@[simp] theorem State.strand_setStrand_self (s : State) (t k : Nat) (x : Strand) : (s.setStrand t k x).strand t k = x := by
  simp [State.strand, State.setStrand, SMap.get_set_self]

theorem State.strand_setStrand_ne (s : State) {t u k j : Nat} (h : u ≠ t ∨ j ≠ k) (x : Strand) :
    (s.setStrand t k x).strand u j = s.strand u j := by
  by_cases hu : u = t
  · subst hu
    have hj : j ≠ k := by simpa using h
    simp [State.strand, State.setStrand, SMap.get, SMap.set]
    split
    · rw [SMap.find_erase_ne _ hj]
    · rw [SMap.find_insert_ne _ _ hj]
  · simp [State.strand, State.tile_setStrand_ne s hu]

@[simp] theorem State.strand_updStrand_self (s : State) (t k : Nat) (f : Strand → Strand) :
    (s.updStrand t k f).strand t k = f (s.strand t k) := by
  simp [State.updStrand]

theorem State.strand_updStrand_ne (s : State) {t u k j : Nat} (h : u ≠ t ∨ j ≠ k) (f : Strand → Strand) :
    (s.updStrand t k f).strand u j = s.strand u j := by
  simp [State.updStrand, State.strand_setStrand_ne s h]

/-! ## `setTile` -/

@[simp] theorem State.setTile_agenda (s : State) (t : Nat) (x : Tile) : (s.setTile t x).agenda = s.agenda := rfl
@[simp] theorem State.setTile_cycle (s : State) (t : Nat) (x : Tile) : (s.setTile t x).cycle = s.cycle := rfl
@[simp] theorem State.setTile_curTile (s : State) (t : Nat) (x : Tile) : (s.setTile t x).curTile = s.curTile := rfl
@[simp] theorem State.setTile_curStrand (s : State) (t : Nat) (x : Tile) : (s.setTile t x).curStrand = s.curStrand := rfl
@[simp] theorem State.setTile_fresh (s : State) (t : Nat) (x : Tile) : (s.setTile t x).fresh = s.fresh := rfl
@[simp] theorem State.setTile_clusters (s : State) (t : Nat) (x : Tile) : (s.setTile t x).clusters = s.clusters := rfl
@[simp] theorem State.setTile_gangs (s : State) (t : Nat) (x : Tile) : (s.setTile t x).gangs = s.gangs := rfl
@[simp] theorem State.setTile_parts (s : State) (t : Nat) (x : Tile) : (s.setTile t x).parts = s.parts := rfl
@[simp] theorem State.setTile_pkg (s : State) (t : Nat) (x : Tile) : (s.setTile t x).pkg = s.pkg := rfl
@[simp] theorem State.setTile_disp (s : State) (t : Nat) (x : Tile) : (s.setTile t x).disp = s.disp := rfl
@[simp] theorem State.setTile_dspc (s : State) (t : Nat) (x : Tile) : (s.setTile t x).dspc = s.dspc := rfl
@[simp] theorem State.setTile_dact (s : State) (t : Nat) (x : Tile) : (s.setTile t x).dact = s.dact := rfl
@[simp] theorem State.setTile_mem (s : State) (t : Nat) (x : Tile) : (s.setTile t x).mem = s.mem := rfl
@[simp] theorem State.setTile_memPoison (s : State) (t : Nat) (x : Tile) : (s.setTile t x).memPoison = s.memPoison := rfl
@[simp] theorem State.setTile_memKey (s : State) (t : Nat) (x : Tile) : (s.setTile t x).memKey = s.memKey := rfl
@[simp] theorem State.setTile_reqs (s : State) (t : Nat) (x : Tile) : (s.setTile t x).reqs = s.reqs := rfl
@[simp] theorem State.setTile_twins (s : State) (t : Nat) (x : Tile) : (s.setTile t x).twins = s.twins := rfl
@[simp] theorem State.setTile_pubs (s : State) (t : Nat) (x : Tile) : (s.setTile t x).pubs = s.pubs := rfl
@[simp] theorem State.setTile_twinFree (s : State) (t : Nat) (x : Tile) : (s.setTile t x).twinFree = s.twinFree := rfl
@[simp] theorem State.setTile_twinNext (s : State) (t : Nat) (x : Tile) : (s.setTile t x).twinNext = s.twinNext := rfl
@[simp] theorem State.setTile_retired (s : State) (t : Nat) (x : Tile) : (s.setTile t x).retired = s.retired := rfl
@[simp] theorem State.setTile_repairs (s : State) (t : Nat) (x : Tile) : (s.setTile t x).repairs = s.repairs := rfl
@[simp] theorem State.setTile_release (s : State) (t : Nat) (x : Tile) : (s.setTile t x).release = s.release := rfl
@[simp] theorem State.setTile_hostq (s : State) (t : Nat) (x : Tile) : (s.setTile t x).hostq = s.hostq := rfl
@[simp] theorem State.setTile_ists (s : State) (t : Nat) (x : Tile) : (s.setTile t x).ists = s.ists := rfl
@[simp] theorem State.setTile_amos (s : State) (t : Nat) (x : Tile) : (s.setTile t x).amos = s.amos := rfl
@[simp] theorem State.setTile_amodNet (s : State) (t : Nat) (x : Tile) : (s.setTile t x).amodNet = s.amodNet := rfl
@[simp] theorem State.setTile_sends (s : State) (t : Nat) (x : Tile) : (s.setTile t x).sends = s.sends := rfl
@[simp] theorem State.setTile_msgs (s : State) (t : Nat) (x : Tile) : (s.setTile t x).msgs = s.msgs := rfl
@[simp] theorem State.setTile_chains (s : State) (t : Nat) (x : Tile) : (s.setTile t x).chains = s.chains := rfl
@[simp] theorem State.setTile_ports (s : State) (t : Nat) (x : Tile) : (s.setTile t x).ports = s.ports := rfl
@[simp] theorem State.setTile_reports (s : State) (t : Nat) (x : Tile) : (s.setTile t x).reports = s.reports := rfl
@[simp] theorem State.setTile_nocOut (s : State) (t : Nat) (x : Tile) : (s.setTile t x).nocOut = s.nocOut := rfl
@[simp] theorem State.setTile_netOrd (s : State) (t : Nat) (x : Tile) : (s.setTile t x).netOrd = s.netOrd := rfl
@[simp] theorem State.setTile_waits (s : State) (t : Nat) (x : Tile) : (s.setTile t x).waits = s.waits := rfl
@[simp] theorem State.setTile_accepted (s : State) (t : Nat) (x : Tile) : (s.setTile t x).accepted = s.accepted := rfl
@[simp] theorem State.setTile_viewWrites (s : State) (t : Nat) (x : Tile) : (s.setTile t x).viewWrites = s.viewWrites := rfl
@[simp] theorem State.setTile_eccRows (s : State) (t : Nat) (x : Tile) : (s.setTile t x).eccRows = s.eccRows := rfl
@[simp] theorem State.setTile_eccStacks (s : State) (t : Nat) (x : Tile) : (s.setTile t x).eccStacks = s.eccStacks := rfl
@[simp] theorem State.setTile_eccChannels (s : State) (t : Nat) (x : Tile) : (s.setTile t x).eccChannels = s.eccChannels := rfl
@[simp] theorem State.setTile_cutOff (s : State) (t : Nat) (x : Tile) : (s.setTile t x).cutOff = s.cutOff := rfl
@[simp] theorem State.setTile_peerGangs (s : State) (t : Nat) (x : Tile) : (s.setTile t x).peerGangs = s.peerGangs := rfl
@[simp] theorem State.setTile_farTier (s : State) (t : Nat) (x : Tile) : (s.setTile t x).farTier = s.farTier := rfl
@[simp] theorem State.setTile_acting (s : State) (t : Nat) (x : Tile) : (s.setTile t x).acting = s.acting := rfl
@[simp] theorem State.setTile_held (s : State) (t : Nat) (x : Tile) : (s.setTile t x).held = s.held := rfl
@[simp] theorem State.setTile_moved (s : State) (t : Nat) (x : Tile) : (s.setTile t x).moved = s.moved := rfl

/-! ## `updTile` -/

@[simp] theorem State.updTile_agenda (s : State) (t : Nat) (f : Tile → Tile) : (s.updTile t f).agenda = s.agenda := rfl
@[simp] theorem State.updTile_cycle (s : State) (t : Nat) (f : Tile → Tile) : (s.updTile t f).cycle = s.cycle := rfl
@[simp] theorem State.updTile_curTile (s : State) (t : Nat) (f : Tile → Tile) : (s.updTile t f).curTile = s.curTile := rfl
@[simp] theorem State.updTile_curStrand (s : State) (t : Nat) (f : Tile → Tile) : (s.updTile t f).curStrand = s.curStrand := rfl
@[simp] theorem State.updTile_fresh (s : State) (t : Nat) (f : Tile → Tile) : (s.updTile t f).fresh = s.fresh := rfl
@[simp] theorem State.updTile_clusters (s : State) (t : Nat) (f : Tile → Tile) : (s.updTile t f).clusters = s.clusters := rfl
@[simp] theorem State.updTile_gangs (s : State) (t : Nat) (f : Tile → Tile) : (s.updTile t f).gangs = s.gangs := rfl
@[simp] theorem State.updTile_parts (s : State) (t : Nat) (f : Tile → Tile) : (s.updTile t f).parts = s.parts := rfl
@[simp] theorem State.updTile_pkg (s : State) (t : Nat) (f : Tile → Tile) : (s.updTile t f).pkg = s.pkg := rfl
@[simp] theorem State.updTile_disp (s : State) (t : Nat) (f : Tile → Tile) : (s.updTile t f).disp = s.disp := rfl
@[simp] theorem State.updTile_dspc (s : State) (t : Nat) (f : Tile → Tile) : (s.updTile t f).dspc = s.dspc := rfl
@[simp] theorem State.updTile_dact (s : State) (t : Nat) (f : Tile → Tile) : (s.updTile t f).dact = s.dact := rfl
@[simp] theorem State.updTile_mem (s : State) (t : Nat) (f : Tile → Tile) : (s.updTile t f).mem = s.mem := rfl
@[simp] theorem State.updTile_memPoison (s : State) (t : Nat) (f : Tile → Tile) : (s.updTile t f).memPoison = s.memPoison := rfl
@[simp] theorem State.updTile_memKey (s : State) (t : Nat) (f : Tile → Tile) : (s.updTile t f).memKey = s.memKey := rfl
@[simp] theorem State.updTile_reqs (s : State) (t : Nat) (f : Tile → Tile) : (s.updTile t f).reqs = s.reqs := rfl
@[simp] theorem State.updTile_twins (s : State) (t : Nat) (f : Tile → Tile) : (s.updTile t f).twins = s.twins := rfl
@[simp] theorem State.updTile_pubs (s : State) (t : Nat) (f : Tile → Tile) : (s.updTile t f).pubs = s.pubs := rfl
@[simp] theorem State.updTile_twinFree (s : State) (t : Nat) (f : Tile → Tile) : (s.updTile t f).twinFree = s.twinFree := rfl
@[simp] theorem State.updTile_twinNext (s : State) (t : Nat) (f : Tile → Tile) : (s.updTile t f).twinNext = s.twinNext := rfl
@[simp] theorem State.updTile_retired (s : State) (t : Nat) (f : Tile → Tile) : (s.updTile t f).retired = s.retired := rfl
@[simp] theorem State.updTile_repairs (s : State) (t : Nat) (f : Tile → Tile) : (s.updTile t f).repairs = s.repairs := rfl
@[simp] theorem State.updTile_release (s : State) (t : Nat) (f : Tile → Tile) : (s.updTile t f).release = s.release := rfl
@[simp] theorem State.updTile_hostq (s : State) (t : Nat) (f : Tile → Tile) : (s.updTile t f).hostq = s.hostq := rfl
@[simp] theorem State.updTile_ists (s : State) (t : Nat) (f : Tile → Tile) : (s.updTile t f).ists = s.ists := rfl
@[simp] theorem State.updTile_amos (s : State) (t : Nat) (f : Tile → Tile) : (s.updTile t f).amos = s.amos := rfl
@[simp] theorem State.updTile_amodNet (s : State) (t : Nat) (f : Tile → Tile) : (s.updTile t f).amodNet = s.amodNet := rfl
@[simp] theorem State.updTile_sends (s : State) (t : Nat) (f : Tile → Tile) : (s.updTile t f).sends = s.sends := rfl
@[simp] theorem State.updTile_msgs (s : State) (t : Nat) (f : Tile → Tile) : (s.updTile t f).msgs = s.msgs := rfl
@[simp] theorem State.updTile_chains (s : State) (t : Nat) (f : Tile → Tile) : (s.updTile t f).chains = s.chains := rfl
@[simp] theorem State.updTile_ports (s : State) (t : Nat) (f : Tile → Tile) : (s.updTile t f).ports = s.ports := rfl
@[simp] theorem State.updTile_reports (s : State) (t : Nat) (f : Tile → Tile) : (s.updTile t f).reports = s.reports := rfl
@[simp] theorem State.updTile_nocOut (s : State) (t : Nat) (f : Tile → Tile) : (s.updTile t f).nocOut = s.nocOut := rfl
@[simp] theorem State.updTile_netOrd (s : State) (t : Nat) (f : Tile → Tile) : (s.updTile t f).netOrd = s.netOrd := rfl
@[simp] theorem State.updTile_waits (s : State) (t : Nat) (f : Tile → Tile) : (s.updTile t f).waits = s.waits := rfl
@[simp] theorem State.updTile_accepted (s : State) (t : Nat) (f : Tile → Tile) : (s.updTile t f).accepted = s.accepted := rfl
@[simp] theorem State.updTile_viewWrites (s : State) (t : Nat) (f : Tile → Tile) : (s.updTile t f).viewWrites = s.viewWrites := rfl
@[simp] theorem State.updTile_eccRows (s : State) (t : Nat) (f : Tile → Tile) : (s.updTile t f).eccRows = s.eccRows := rfl
@[simp] theorem State.updTile_eccStacks (s : State) (t : Nat) (f : Tile → Tile) : (s.updTile t f).eccStacks = s.eccStacks := rfl
@[simp] theorem State.updTile_eccChannels (s : State) (t : Nat) (f : Tile → Tile) : (s.updTile t f).eccChannels = s.eccChannels := rfl
@[simp] theorem State.updTile_cutOff (s : State) (t : Nat) (f : Tile → Tile) : (s.updTile t f).cutOff = s.cutOff := rfl
@[simp] theorem State.updTile_peerGangs (s : State) (t : Nat) (f : Tile → Tile) : (s.updTile t f).peerGangs = s.peerGangs := rfl
@[simp] theorem State.updTile_farTier (s : State) (t : Nat) (f : Tile → Tile) : (s.updTile t f).farTier = s.farTier := rfl
@[simp] theorem State.updTile_acting (s : State) (t : Nat) (f : Tile → Tile) : (s.updTile t f).acting = s.acting := rfl
@[simp] theorem State.updTile_held (s : State) (t : Nat) (f : Tile → Tile) : (s.updTile t f).held = s.held := rfl
@[simp] theorem State.updTile_moved (s : State) (t : Nat) (f : Tile → Tile) : (s.updTile t f).moved = s.moved := rfl

/-! ## `setStrand` -/

@[simp] theorem State.setStrand_agenda (s : State) (t k : Nat) (x : Strand) : (s.setStrand t k x).agenda = s.agenda := rfl
@[simp] theorem State.setStrand_cycle (s : State) (t k : Nat) (x : Strand) : (s.setStrand t k x).cycle = s.cycle := rfl
@[simp] theorem State.setStrand_curTile (s : State) (t k : Nat) (x : Strand) : (s.setStrand t k x).curTile = s.curTile := rfl
@[simp] theorem State.setStrand_curStrand (s : State) (t k : Nat) (x : Strand) : (s.setStrand t k x).curStrand = s.curStrand := rfl
@[simp] theorem State.setStrand_fresh (s : State) (t k : Nat) (x : Strand) : (s.setStrand t k x).fresh = s.fresh := rfl
@[simp] theorem State.setStrand_clusters (s : State) (t k : Nat) (x : Strand) : (s.setStrand t k x).clusters = s.clusters := rfl
@[simp] theorem State.setStrand_gangs (s : State) (t k : Nat) (x : Strand) : (s.setStrand t k x).gangs = s.gangs := rfl
@[simp] theorem State.setStrand_parts (s : State) (t k : Nat) (x : Strand) : (s.setStrand t k x).parts = s.parts := rfl
@[simp] theorem State.setStrand_pkg (s : State) (t k : Nat) (x : Strand) : (s.setStrand t k x).pkg = s.pkg := rfl
@[simp] theorem State.setStrand_disp (s : State) (t k : Nat) (x : Strand) : (s.setStrand t k x).disp = s.disp := rfl
@[simp] theorem State.setStrand_dspc (s : State) (t k : Nat) (x : Strand) : (s.setStrand t k x).dspc = s.dspc := rfl
@[simp] theorem State.setStrand_dact (s : State) (t k : Nat) (x : Strand) : (s.setStrand t k x).dact = s.dact := rfl
@[simp] theorem State.setStrand_mem (s : State) (t k : Nat) (x : Strand) : (s.setStrand t k x).mem = s.mem := rfl
@[simp] theorem State.setStrand_memPoison (s : State) (t k : Nat) (x : Strand) : (s.setStrand t k x).memPoison = s.memPoison := rfl
@[simp] theorem State.setStrand_memKey (s : State) (t k : Nat) (x : Strand) : (s.setStrand t k x).memKey = s.memKey := rfl
@[simp] theorem State.setStrand_reqs (s : State) (t k : Nat) (x : Strand) : (s.setStrand t k x).reqs = s.reqs := rfl
@[simp] theorem State.setStrand_twins (s : State) (t k : Nat) (x : Strand) : (s.setStrand t k x).twins = s.twins := rfl
@[simp] theorem State.setStrand_pubs (s : State) (t k : Nat) (x : Strand) : (s.setStrand t k x).pubs = s.pubs := rfl
@[simp] theorem State.setStrand_twinFree (s : State) (t k : Nat) (x : Strand) : (s.setStrand t k x).twinFree = s.twinFree := rfl
@[simp] theorem State.setStrand_twinNext (s : State) (t k : Nat) (x : Strand) : (s.setStrand t k x).twinNext = s.twinNext := rfl
@[simp] theorem State.setStrand_retired (s : State) (t k : Nat) (x : Strand) : (s.setStrand t k x).retired = s.retired := rfl
@[simp] theorem State.setStrand_repairs (s : State) (t k : Nat) (x : Strand) : (s.setStrand t k x).repairs = s.repairs := rfl
@[simp] theorem State.setStrand_release (s : State) (t k : Nat) (x : Strand) : (s.setStrand t k x).release = s.release := rfl
@[simp] theorem State.setStrand_hostq (s : State) (t k : Nat) (x : Strand) : (s.setStrand t k x).hostq = s.hostq := rfl
@[simp] theorem State.setStrand_ists (s : State) (t k : Nat) (x : Strand) : (s.setStrand t k x).ists = s.ists := rfl
@[simp] theorem State.setStrand_amos (s : State) (t k : Nat) (x : Strand) : (s.setStrand t k x).amos = s.amos := rfl
@[simp] theorem State.setStrand_amodNet (s : State) (t k : Nat) (x : Strand) : (s.setStrand t k x).amodNet = s.amodNet := rfl
@[simp] theorem State.setStrand_sends (s : State) (t k : Nat) (x : Strand) : (s.setStrand t k x).sends = s.sends := rfl
@[simp] theorem State.setStrand_msgs (s : State) (t k : Nat) (x : Strand) : (s.setStrand t k x).msgs = s.msgs := rfl
@[simp] theorem State.setStrand_chains (s : State) (t k : Nat) (x : Strand) : (s.setStrand t k x).chains = s.chains := rfl
@[simp] theorem State.setStrand_ports (s : State) (t k : Nat) (x : Strand) : (s.setStrand t k x).ports = s.ports := rfl
@[simp] theorem State.setStrand_reports (s : State) (t k : Nat) (x : Strand) : (s.setStrand t k x).reports = s.reports := rfl
@[simp] theorem State.setStrand_nocOut (s : State) (t k : Nat) (x : Strand) : (s.setStrand t k x).nocOut = s.nocOut := rfl
@[simp] theorem State.setStrand_netOrd (s : State) (t k : Nat) (x : Strand) : (s.setStrand t k x).netOrd = s.netOrd := rfl
@[simp] theorem State.setStrand_waits (s : State) (t k : Nat) (x : Strand) : (s.setStrand t k x).waits = s.waits := rfl
@[simp] theorem State.setStrand_accepted (s : State) (t k : Nat) (x : Strand) : (s.setStrand t k x).accepted = s.accepted := rfl
@[simp] theorem State.setStrand_viewWrites (s : State) (t k : Nat) (x : Strand) : (s.setStrand t k x).viewWrites = s.viewWrites := rfl
@[simp] theorem State.setStrand_eccRows (s : State) (t k : Nat) (x : Strand) : (s.setStrand t k x).eccRows = s.eccRows := rfl
@[simp] theorem State.setStrand_eccStacks (s : State) (t k : Nat) (x : Strand) : (s.setStrand t k x).eccStacks = s.eccStacks := rfl
@[simp] theorem State.setStrand_eccChannels (s : State) (t k : Nat) (x : Strand) : (s.setStrand t k x).eccChannels = s.eccChannels := rfl
@[simp] theorem State.setStrand_cutOff (s : State) (t k : Nat) (x : Strand) : (s.setStrand t k x).cutOff = s.cutOff := rfl
@[simp] theorem State.setStrand_peerGangs (s : State) (t k : Nat) (x : Strand) : (s.setStrand t k x).peerGangs = s.peerGangs := rfl
@[simp] theorem State.setStrand_farTier (s : State) (t k : Nat) (x : Strand) : (s.setStrand t k x).farTier = s.farTier := rfl
@[simp] theorem State.setStrand_acting (s : State) (t k : Nat) (x : Strand) : (s.setStrand t k x).acting = s.acting := rfl
@[simp] theorem State.setStrand_held (s : State) (t k : Nat) (x : Strand) : (s.setStrand t k x).held = s.held := rfl
@[simp] theorem State.setStrand_moved (s : State) (t k : Nat) (x : Strand) : (s.setStrand t k x).moved = s.moved := rfl

/-! ## `updStrand` -/

@[simp] theorem State.updStrand_agenda (s : State) (t k : Nat) (f : Strand → Strand) : (s.updStrand t k f).agenda = s.agenda := rfl
@[simp] theorem State.updStrand_cycle (s : State) (t k : Nat) (f : Strand → Strand) : (s.updStrand t k f).cycle = s.cycle := rfl
@[simp] theorem State.updStrand_curTile (s : State) (t k : Nat) (f : Strand → Strand) : (s.updStrand t k f).curTile = s.curTile := rfl
@[simp] theorem State.updStrand_curStrand (s : State) (t k : Nat) (f : Strand → Strand) : (s.updStrand t k f).curStrand = s.curStrand := rfl
@[simp] theorem State.updStrand_fresh (s : State) (t k : Nat) (f : Strand → Strand) : (s.updStrand t k f).fresh = s.fresh := rfl
@[simp] theorem State.updStrand_clusters (s : State) (t k : Nat) (f : Strand → Strand) : (s.updStrand t k f).clusters = s.clusters := rfl
@[simp] theorem State.updStrand_gangs (s : State) (t k : Nat) (f : Strand → Strand) : (s.updStrand t k f).gangs = s.gangs := rfl
@[simp] theorem State.updStrand_parts (s : State) (t k : Nat) (f : Strand → Strand) : (s.updStrand t k f).parts = s.parts := rfl
@[simp] theorem State.updStrand_pkg (s : State) (t k : Nat) (f : Strand → Strand) : (s.updStrand t k f).pkg = s.pkg := rfl
@[simp] theorem State.updStrand_disp (s : State) (t k : Nat) (f : Strand → Strand) : (s.updStrand t k f).disp = s.disp := rfl
@[simp] theorem State.updStrand_dspc (s : State) (t k : Nat) (f : Strand → Strand) : (s.updStrand t k f).dspc = s.dspc := rfl
@[simp] theorem State.updStrand_dact (s : State) (t k : Nat) (f : Strand → Strand) : (s.updStrand t k f).dact = s.dact := rfl
@[simp] theorem State.updStrand_mem (s : State) (t k : Nat) (f : Strand → Strand) : (s.updStrand t k f).mem = s.mem := rfl
@[simp] theorem State.updStrand_memPoison (s : State) (t k : Nat) (f : Strand → Strand) : (s.updStrand t k f).memPoison = s.memPoison := rfl
@[simp] theorem State.updStrand_memKey (s : State) (t k : Nat) (f : Strand → Strand) : (s.updStrand t k f).memKey = s.memKey := rfl
@[simp] theorem State.updStrand_reqs (s : State) (t k : Nat) (f : Strand → Strand) : (s.updStrand t k f).reqs = s.reqs := rfl
@[simp] theorem State.updStrand_twins (s : State) (t k : Nat) (f : Strand → Strand) : (s.updStrand t k f).twins = s.twins := rfl
@[simp] theorem State.updStrand_pubs (s : State) (t k : Nat) (f : Strand → Strand) : (s.updStrand t k f).pubs = s.pubs := rfl
@[simp] theorem State.updStrand_twinFree (s : State) (t k : Nat) (f : Strand → Strand) : (s.updStrand t k f).twinFree = s.twinFree := rfl
@[simp] theorem State.updStrand_twinNext (s : State) (t k : Nat) (f : Strand → Strand) : (s.updStrand t k f).twinNext = s.twinNext := rfl
@[simp] theorem State.updStrand_retired (s : State) (t k : Nat) (f : Strand → Strand) : (s.updStrand t k f).retired = s.retired := rfl
@[simp] theorem State.updStrand_repairs (s : State) (t k : Nat) (f : Strand → Strand) : (s.updStrand t k f).repairs = s.repairs := rfl
@[simp] theorem State.updStrand_release (s : State) (t k : Nat) (f : Strand → Strand) : (s.updStrand t k f).release = s.release := rfl
@[simp] theorem State.updStrand_hostq (s : State) (t k : Nat) (f : Strand → Strand) : (s.updStrand t k f).hostq = s.hostq := rfl
@[simp] theorem State.updStrand_ists (s : State) (t k : Nat) (f : Strand → Strand) : (s.updStrand t k f).ists = s.ists := rfl
@[simp] theorem State.updStrand_amos (s : State) (t k : Nat) (f : Strand → Strand) : (s.updStrand t k f).amos = s.amos := rfl
@[simp] theorem State.updStrand_amodNet (s : State) (t k : Nat) (f : Strand → Strand) : (s.updStrand t k f).amodNet = s.amodNet := rfl
@[simp] theorem State.updStrand_sends (s : State) (t k : Nat) (f : Strand → Strand) : (s.updStrand t k f).sends = s.sends := rfl
@[simp] theorem State.updStrand_msgs (s : State) (t k : Nat) (f : Strand → Strand) : (s.updStrand t k f).msgs = s.msgs := rfl
@[simp] theorem State.updStrand_chains (s : State) (t k : Nat) (f : Strand → Strand) : (s.updStrand t k f).chains = s.chains := rfl
@[simp] theorem State.updStrand_ports (s : State) (t k : Nat) (f : Strand → Strand) : (s.updStrand t k f).ports = s.ports := rfl
@[simp] theorem State.updStrand_reports (s : State) (t k : Nat) (f : Strand → Strand) : (s.updStrand t k f).reports = s.reports := rfl
@[simp] theorem State.updStrand_nocOut (s : State) (t k : Nat) (f : Strand → Strand) : (s.updStrand t k f).nocOut = s.nocOut := rfl
@[simp] theorem State.updStrand_netOrd (s : State) (t k : Nat) (f : Strand → Strand) : (s.updStrand t k f).netOrd = s.netOrd := rfl
@[simp] theorem State.updStrand_waits (s : State) (t k : Nat) (f : Strand → Strand) : (s.updStrand t k f).waits = s.waits := rfl
@[simp] theorem State.updStrand_accepted (s : State) (t k : Nat) (f : Strand → Strand) : (s.updStrand t k f).accepted = s.accepted := rfl
@[simp] theorem State.updStrand_viewWrites (s : State) (t k : Nat) (f : Strand → Strand) : (s.updStrand t k f).viewWrites = s.viewWrites := rfl
@[simp] theorem State.updStrand_eccRows (s : State) (t k : Nat) (f : Strand → Strand) : (s.updStrand t k f).eccRows = s.eccRows := rfl
@[simp] theorem State.updStrand_eccStacks (s : State) (t k : Nat) (f : Strand → Strand) : (s.updStrand t k f).eccStacks = s.eccStacks := rfl
@[simp] theorem State.updStrand_eccChannels (s : State) (t k : Nat) (f : Strand → Strand) : (s.updStrand t k f).eccChannels = s.eccChannels := rfl
@[simp] theorem State.updStrand_cutOff (s : State) (t k : Nat) (f : Strand → Strand) : (s.updStrand t k f).cutOff = s.cutOff := rfl
@[simp] theorem State.updStrand_peerGangs (s : State) (t k : Nat) (f : Strand → Strand) : (s.updStrand t k f).peerGangs = s.peerGangs := rfl
@[simp] theorem State.updStrand_farTier (s : State) (t k : Nat) (f : Strand → Strand) : (s.updStrand t k f).farTier = s.farTier := rfl
@[simp] theorem State.updStrand_acting (s : State) (t k : Nat) (f : Strand → Strand) : (s.updStrand t k f).acting = s.acting := rfl
@[simp] theorem State.updStrand_held (s : State) (t k : Nat) (f : Strand → Strand) : (s.updStrand t k f).held = s.held := rfl
@[simp] theorem State.updStrand_moved (s : State) (t k : Nat) (f : Strand → Strand) : (s.updStrand t k f).moved = s.moved := rfl

/-! ## `setMe` -/

@[simp] theorem State.setMe_agenda (s : State) (x : Strand) : (s.setMe x).agenda = s.agenda := rfl
@[simp] theorem State.setMe_cycle (s : State) (x : Strand) : (s.setMe x).cycle = s.cycle := rfl
@[simp] theorem State.setMe_curTile (s : State) (x : Strand) : (s.setMe x).curTile = s.curTile := rfl
@[simp] theorem State.setMe_curStrand (s : State) (x : Strand) : (s.setMe x).curStrand = s.curStrand := rfl
@[simp] theorem State.setMe_fresh (s : State) (x : Strand) : (s.setMe x).fresh = s.fresh := rfl
@[simp] theorem State.setMe_clusters (s : State) (x : Strand) : (s.setMe x).clusters = s.clusters := rfl
@[simp] theorem State.setMe_gangs (s : State) (x : Strand) : (s.setMe x).gangs = s.gangs := rfl
@[simp] theorem State.setMe_parts (s : State) (x : Strand) : (s.setMe x).parts = s.parts := rfl
@[simp] theorem State.setMe_pkg (s : State) (x : Strand) : (s.setMe x).pkg = s.pkg := rfl
@[simp] theorem State.setMe_disp (s : State) (x : Strand) : (s.setMe x).disp = s.disp := rfl
@[simp] theorem State.setMe_dspc (s : State) (x : Strand) : (s.setMe x).dspc = s.dspc := rfl
@[simp] theorem State.setMe_dact (s : State) (x : Strand) : (s.setMe x).dact = s.dact := rfl
@[simp] theorem State.setMe_mem (s : State) (x : Strand) : (s.setMe x).mem = s.mem := rfl
@[simp] theorem State.setMe_memPoison (s : State) (x : Strand) : (s.setMe x).memPoison = s.memPoison := rfl
@[simp] theorem State.setMe_memKey (s : State) (x : Strand) : (s.setMe x).memKey = s.memKey := rfl
@[simp] theorem State.setMe_reqs (s : State) (x : Strand) : (s.setMe x).reqs = s.reqs := rfl
@[simp] theorem State.setMe_twins (s : State) (x : Strand) : (s.setMe x).twins = s.twins := rfl
@[simp] theorem State.setMe_pubs (s : State) (x : Strand) : (s.setMe x).pubs = s.pubs := rfl
@[simp] theorem State.setMe_twinFree (s : State) (x : Strand) : (s.setMe x).twinFree = s.twinFree := rfl
@[simp] theorem State.setMe_twinNext (s : State) (x : Strand) : (s.setMe x).twinNext = s.twinNext := rfl
@[simp] theorem State.setMe_retired (s : State) (x : Strand) : (s.setMe x).retired = s.retired := rfl
@[simp] theorem State.setMe_repairs (s : State) (x : Strand) : (s.setMe x).repairs = s.repairs := rfl
@[simp] theorem State.setMe_release (s : State) (x : Strand) : (s.setMe x).release = s.release := rfl
@[simp] theorem State.setMe_hostq (s : State) (x : Strand) : (s.setMe x).hostq = s.hostq := rfl
@[simp] theorem State.setMe_ists (s : State) (x : Strand) : (s.setMe x).ists = s.ists := rfl
@[simp] theorem State.setMe_amos (s : State) (x : Strand) : (s.setMe x).amos = s.amos := rfl
@[simp] theorem State.setMe_amodNet (s : State) (x : Strand) : (s.setMe x).amodNet = s.amodNet := rfl
@[simp] theorem State.setMe_sends (s : State) (x : Strand) : (s.setMe x).sends = s.sends := rfl
@[simp] theorem State.setMe_msgs (s : State) (x : Strand) : (s.setMe x).msgs = s.msgs := rfl
@[simp] theorem State.setMe_chains (s : State) (x : Strand) : (s.setMe x).chains = s.chains := rfl
@[simp] theorem State.setMe_ports (s : State) (x : Strand) : (s.setMe x).ports = s.ports := rfl
@[simp] theorem State.setMe_reports (s : State) (x : Strand) : (s.setMe x).reports = s.reports := rfl
@[simp] theorem State.setMe_nocOut (s : State) (x : Strand) : (s.setMe x).nocOut = s.nocOut := rfl
@[simp] theorem State.setMe_netOrd (s : State) (x : Strand) : (s.setMe x).netOrd = s.netOrd := rfl
@[simp] theorem State.setMe_waits (s : State) (x : Strand) : (s.setMe x).waits = s.waits := rfl
@[simp] theorem State.setMe_accepted (s : State) (x : Strand) : (s.setMe x).accepted = s.accepted := rfl
@[simp] theorem State.setMe_viewWrites (s : State) (x : Strand) : (s.setMe x).viewWrites = s.viewWrites := rfl
@[simp] theorem State.setMe_eccRows (s : State) (x : Strand) : (s.setMe x).eccRows = s.eccRows := rfl
@[simp] theorem State.setMe_eccStacks (s : State) (x : Strand) : (s.setMe x).eccStacks = s.eccStacks := rfl
@[simp] theorem State.setMe_eccChannels (s : State) (x : Strand) : (s.setMe x).eccChannels = s.eccChannels := rfl
@[simp] theorem State.setMe_cutOff (s : State) (x : Strand) : (s.setMe x).cutOff = s.cutOff := rfl
@[simp] theorem State.setMe_peerGangs (s : State) (x : Strand) : (s.setMe x).peerGangs = s.peerGangs := rfl
@[simp] theorem State.setMe_farTier (s : State) (x : Strand) : (s.setMe x).farTier = s.farTier := rfl
@[simp] theorem State.setMe_acting (s : State) (x : Strand) : (s.setMe x).acting = s.acting := rfl
@[simp] theorem State.setMe_held (s : State) (x : Strand) : (s.setMe x).held = s.held := rfl
@[simp] theorem State.setMe_moved (s : State) (x : Strand) : (s.setMe x).moved = s.moved := rfl

/-! ## `updMe` -/

@[simp] theorem State.updMe_agenda (s : State) (f : Strand → Strand) : (s.updMe f).agenda = s.agenda := rfl
@[simp] theorem State.updMe_cycle (s : State) (f : Strand → Strand) : (s.updMe f).cycle = s.cycle := rfl
@[simp] theorem State.updMe_curTile (s : State) (f : Strand → Strand) : (s.updMe f).curTile = s.curTile := rfl
@[simp] theorem State.updMe_curStrand (s : State) (f : Strand → Strand) : (s.updMe f).curStrand = s.curStrand := rfl
@[simp] theorem State.updMe_fresh (s : State) (f : Strand → Strand) : (s.updMe f).fresh = s.fresh := rfl
@[simp] theorem State.updMe_clusters (s : State) (f : Strand → Strand) : (s.updMe f).clusters = s.clusters := rfl
@[simp] theorem State.updMe_gangs (s : State) (f : Strand → Strand) : (s.updMe f).gangs = s.gangs := rfl
@[simp] theorem State.updMe_parts (s : State) (f : Strand → Strand) : (s.updMe f).parts = s.parts := rfl
@[simp] theorem State.updMe_pkg (s : State) (f : Strand → Strand) : (s.updMe f).pkg = s.pkg := rfl
@[simp] theorem State.updMe_disp (s : State) (f : Strand → Strand) : (s.updMe f).disp = s.disp := rfl
@[simp] theorem State.updMe_dspc (s : State) (f : Strand → Strand) : (s.updMe f).dspc = s.dspc := rfl
@[simp] theorem State.updMe_dact (s : State) (f : Strand → Strand) : (s.updMe f).dact = s.dact := rfl
@[simp] theorem State.updMe_mem (s : State) (f : Strand → Strand) : (s.updMe f).mem = s.mem := rfl
@[simp] theorem State.updMe_memPoison (s : State) (f : Strand → Strand) : (s.updMe f).memPoison = s.memPoison := rfl
@[simp] theorem State.updMe_memKey (s : State) (f : Strand → Strand) : (s.updMe f).memKey = s.memKey := rfl
@[simp] theorem State.updMe_reqs (s : State) (f : Strand → Strand) : (s.updMe f).reqs = s.reqs := rfl
@[simp] theorem State.updMe_twins (s : State) (f : Strand → Strand) : (s.updMe f).twins = s.twins := rfl
@[simp] theorem State.updMe_pubs (s : State) (f : Strand → Strand) : (s.updMe f).pubs = s.pubs := rfl
@[simp] theorem State.updMe_twinFree (s : State) (f : Strand → Strand) : (s.updMe f).twinFree = s.twinFree := rfl
@[simp] theorem State.updMe_twinNext (s : State) (f : Strand → Strand) : (s.updMe f).twinNext = s.twinNext := rfl
@[simp] theorem State.updMe_retired (s : State) (f : Strand → Strand) : (s.updMe f).retired = s.retired := rfl
@[simp] theorem State.updMe_repairs (s : State) (f : Strand → Strand) : (s.updMe f).repairs = s.repairs := rfl
@[simp] theorem State.updMe_release (s : State) (f : Strand → Strand) : (s.updMe f).release = s.release := rfl
@[simp] theorem State.updMe_hostq (s : State) (f : Strand → Strand) : (s.updMe f).hostq = s.hostq := rfl
@[simp] theorem State.updMe_ists (s : State) (f : Strand → Strand) : (s.updMe f).ists = s.ists := rfl
@[simp] theorem State.updMe_amos (s : State) (f : Strand → Strand) : (s.updMe f).amos = s.amos := rfl
@[simp] theorem State.updMe_amodNet (s : State) (f : Strand → Strand) : (s.updMe f).amodNet = s.amodNet := rfl
@[simp] theorem State.updMe_sends (s : State) (f : Strand → Strand) : (s.updMe f).sends = s.sends := rfl
@[simp] theorem State.updMe_msgs (s : State) (f : Strand → Strand) : (s.updMe f).msgs = s.msgs := rfl
@[simp] theorem State.updMe_chains (s : State) (f : Strand → Strand) : (s.updMe f).chains = s.chains := rfl
@[simp] theorem State.updMe_ports (s : State) (f : Strand → Strand) : (s.updMe f).ports = s.ports := rfl
@[simp] theorem State.updMe_reports (s : State) (f : Strand → Strand) : (s.updMe f).reports = s.reports := rfl
@[simp] theorem State.updMe_nocOut (s : State) (f : Strand → Strand) : (s.updMe f).nocOut = s.nocOut := rfl
@[simp] theorem State.updMe_netOrd (s : State) (f : Strand → Strand) : (s.updMe f).netOrd = s.netOrd := rfl
@[simp] theorem State.updMe_waits (s : State) (f : Strand → Strand) : (s.updMe f).waits = s.waits := rfl
@[simp] theorem State.updMe_accepted (s : State) (f : Strand → Strand) : (s.updMe f).accepted = s.accepted := rfl
@[simp] theorem State.updMe_viewWrites (s : State) (f : Strand → Strand) : (s.updMe f).viewWrites = s.viewWrites := rfl
@[simp] theorem State.updMe_eccRows (s : State) (f : Strand → Strand) : (s.updMe f).eccRows = s.eccRows := rfl
@[simp] theorem State.updMe_eccStacks (s : State) (f : Strand → Strand) : (s.updMe f).eccStacks = s.eccStacks := rfl
@[simp] theorem State.updMe_eccChannels (s : State) (f : Strand → Strand) : (s.updMe f).eccChannels = s.eccChannels := rfl
@[simp] theorem State.updMe_cutOff (s : State) (f : Strand → Strand) : (s.updMe f).cutOff = s.cutOff := rfl
@[simp] theorem State.updMe_peerGangs (s : State) (f : Strand → Strand) : (s.updMe f).peerGangs = s.peerGangs := rfl
@[simp] theorem State.updMe_farTier (s : State) (f : Strand → Strand) : (s.updMe f).farTier = s.farTier := rfl
@[simp] theorem State.updMe_acting (s : State) (f : Strand → Strand) : (s.updMe f).acting = s.acting := rfl
@[simp] theorem State.updMe_held (s : State) (f : Strand → Strand) : (s.updMe f).held = s.held := rfl
@[simp] theorem State.updMe_moved (s : State) (f : Strand → Strand) : (s.updMe f).moved = s.moved := rfl

/-! ## `updMyTile` -/

@[simp] theorem State.updMyTile_agenda (s : State) (f : Tile → Tile) : (s.updMyTile f).agenda = s.agenda := rfl
@[simp] theorem State.updMyTile_cycle (s : State) (f : Tile → Tile) : (s.updMyTile f).cycle = s.cycle := rfl
@[simp] theorem State.updMyTile_curTile (s : State) (f : Tile → Tile) : (s.updMyTile f).curTile = s.curTile := rfl
@[simp] theorem State.updMyTile_curStrand (s : State) (f : Tile → Tile) : (s.updMyTile f).curStrand = s.curStrand := rfl
@[simp] theorem State.updMyTile_fresh (s : State) (f : Tile → Tile) : (s.updMyTile f).fresh = s.fresh := rfl
@[simp] theorem State.updMyTile_clusters (s : State) (f : Tile → Tile) : (s.updMyTile f).clusters = s.clusters := rfl
@[simp] theorem State.updMyTile_gangs (s : State) (f : Tile → Tile) : (s.updMyTile f).gangs = s.gangs := rfl
@[simp] theorem State.updMyTile_parts (s : State) (f : Tile → Tile) : (s.updMyTile f).parts = s.parts := rfl
@[simp] theorem State.updMyTile_pkg (s : State) (f : Tile → Tile) : (s.updMyTile f).pkg = s.pkg := rfl
@[simp] theorem State.updMyTile_disp (s : State) (f : Tile → Tile) : (s.updMyTile f).disp = s.disp := rfl
@[simp] theorem State.updMyTile_dspc (s : State) (f : Tile → Tile) : (s.updMyTile f).dspc = s.dspc := rfl
@[simp] theorem State.updMyTile_dact (s : State) (f : Tile → Tile) : (s.updMyTile f).dact = s.dact := rfl
@[simp] theorem State.updMyTile_mem (s : State) (f : Tile → Tile) : (s.updMyTile f).mem = s.mem := rfl
@[simp] theorem State.updMyTile_memPoison (s : State) (f : Tile → Tile) : (s.updMyTile f).memPoison = s.memPoison := rfl
@[simp] theorem State.updMyTile_memKey (s : State) (f : Tile → Tile) : (s.updMyTile f).memKey = s.memKey := rfl
@[simp] theorem State.updMyTile_reqs (s : State) (f : Tile → Tile) : (s.updMyTile f).reqs = s.reqs := rfl
@[simp] theorem State.updMyTile_twins (s : State) (f : Tile → Tile) : (s.updMyTile f).twins = s.twins := rfl
@[simp] theorem State.updMyTile_pubs (s : State) (f : Tile → Tile) : (s.updMyTile f).pubs = s.pubs := rfl
@[simp] theorem State.updMyTile_twinFree (s : State) (f : Tile → Tile) : (s.updMyTile f).twinFree = s.twinFree := rfl
@[simp] theorem State.updMyTile_twinNext (s : State) (f : Tile → Tile) : (s.updMyTile f).twinNext = s.twinNext := rfl
@[simp] theorem State.updMyTile_retired (s : State) (f : Tile → Tile) : (s.updMyTile f).retired = s.retired := rfl
@[simp] theorem State.updMyTile_repairs (s : State) (f : Tile → Tile) : (s.updMyTile f).repairs = s.repairs := rfl
@[simp] theorem State.updMyTile_release (s : State) (f : Tile → Tile) : (s.updMyTile f).release = s.release := rfl
@[simp] theorem State.updMyTile_hostq (s : State) (f : Tile → Tile) : (s.updMyTile f).hostq = s.hostq := rfl
@[simp] theorem State.updMyTile_ists (s : State) (f : Tile → Tile) : (s.updMyTile f).ists = s.ists := rfl
@[simp] theorem State.updMyTile_amos (s : State) (f : Tile → Tile) : (s.updMyTile f).amos = s.amos := rfl
@[simp] theorem State.updMyTile_amodNet (s : State) (f : Tile → Tile) : (s.updMyTile f).amodNet = s.amodNet := rfl
@[simp] theorem State.updMyTile_sends (s : State) (f : Tile → Tile) : (s.updMyTile f).sends = s.sends := rfl
@[simp] theorem State.updMyTile_msgs (s : State) (f : Tile → Tile) : (s.updMyTile f).msgs = s.msgs := rfl
@[simp] theorem State.updMyTile_chains (s : State) (f : Tile → Tile) : (s.updMyTile f).chains = s.chains := rfl
@[simp] theorem State.updMyTile_ports (s : State) (f : Tile → Tile) : (s.updMyTile f).ports = s.ports := rfl
@[simp] theorem State.updMyTile_reports (s : State) (f : Tile → Tile) : (s.updMyTile f).reports = s.reports := rfl
@[simp] theorem State.updMyTile_nocOut (s : State) (f : Tile → Tile) : (s.updMyTile f).nocOut = s.nocOut := rfl
@[simp] theorem State.updMyTile_netOrd (s : State) (f : Tile → Tile) : (s.updMyTile f).netOrd = s.netOrd := rfl
@[simp] theorem State.updMyTile_waits (s : State) (f : Tile → Tile) : (s.updMyTile f).waits = s.waits := rfl
@[simp] theorem State.updMyTile_accepted (s : State) (f : Tile → Tile) : (s.updMyTile f).accepted = s.accepted := rfl
@[simp] theorem State.updMyTile_viewWrites (s : State) (f : Tile → Tile) : (s.updMyTile f).viewWrites = s.viewWrites := rfl
@[simp] theorem State.updMyTile_eccRows (s : State) (f : Tile → Tile) : (s.updMyTile f).eccRows = s.eccRows := rfl
@[simp] theorem State.updMyTile_eccStacks (s : State) (f : Tile → Tile) : (s.updMyTile f).eccStacks = s.eccStacks := rfl
@[simp] theorem State.updMyTile_eccChannels (s : State) (f : Tile → Tile) : (s.updMyTile f).eccChannels = s.eccChannels := rfl
@[simp] theorem State.updMyTile_cutOff (s : State) (f : Tile → Tile) : (s.updMyTile f).cutOff = s.cutOff := rfl
@[simp] theorem State.updMyTile_peerGangs (s : State) (f : Tile → Tile) : (s.updMyTile f).peerGangs = s.peerGangs := rfl
@[simp] theorem State.updMyTile_farTier (s : State) (f : Tile → Tile) : (s.updMyTile f).farTier = s.farTier := rfl
@[simp] theorem State.updMyTile_acting (s : State) (f : Tile → Tile) : (s.updMyTile f).acting = s.acting := rfl
@[simp] theorem State.updMyTile_held (s : State) (f : Tile → Tile) : (s.updMyTile f).held = s.held := rfl
@[simp] theorem State.updMyTile_moved (s : State) (f : Tile → Tile) : (s.updMyTile f).moved = s.moved := rfl

/-! ## The strand whose turn it is -/

@[simp] theorem State.me_setMe (s : State) (x : Strand) : (s.setMe x).me = x := by
  simp [State.me, State.setMe]

@[simp] theorem State.me_updMe (s : State) (f : Strand → Strand) : (s.updMe f).me = f s.me := by
  simp [State.updMe]

theorem State.tile_updMe_ne (s : State) {u : Nat} (h : u ≠ s.curTile) (f : Strand → Strand) : (s.updMe f).tile u = s.tile u := by
  simp [State.updMe, State.setMe, State.tile_setStrand_ne s h]

theorem State.strand_updMe_ne (s : State) {u j : Nat} (h : u ≠ s.curTile ∨ j ≠ s.curStrand) (f : Strand → Strand) :
    (s.updMe f).strand u j = s.strand u j := by
  simp [State.updMe, State.setMe, State.strand_setStrand_ne s h]

@[simp] theorem State.myTile_updMyTile (s : State) (f : Tile → Tile) : (s.updMyTile f).myTile = f s.myTile := by
  simp [State.myTile, State.updMyTile]

/-! ## What a strand update leaves of a tile -/

@[simp] theorem State.setStrand_tile_ctl (s : State) (t k u : Nat) (x : Strand) :
    ((s.setStrand t k x).tile u).ctl = (s.tile u).ctl := by
  by_cases h : u = t
  · subst h; simp [State.setStrand]
  · rw [State.tile_setStrand_ne s h]
@[simp] theorem State.updMe_tile_ctl (s : State) (u : Nat) (g : Strand → Strand) :
    ((s.updMe g).tile u).ctl = (s.tile u).ctl := by
  simp [State.updMe, State.setMe]
@[simp] theorem State.updMe_myTile_ctl (s : State) (g : Strand → Strand) : (s.updMe g).myTile.ctl = s.myTile.ctl := by
  simp [State.myTile]
@[simp] theorem State.setStrand_tile_snap (s : State) (t k u : Nat) (x : Strand) :
    ((s.setStrand t k x).tile u).snap = (s.tile u).snap := by
  by_cases h : u = t
  · subst h; simp [State.setStrand]
  · rw [State.tile_setStrand_ne s h]
@[simp] theorem State.updMe_tile_snap (s : State) (u : Nat) (g : Strand → Strand) :
    ((s.updMe g).tile u).snap = (s.tile u).snap := by
  simp [State.updMe, State.setMe]
@[simp] theorem State.updMe_myTile_snap (s : State) (g : Strand → Strand) : (s.updMe g).myTile.snap = s.myTile.snap := by
  simp [State.myTile]
@[simp] theorem State.setStrand_tile_mem (s : State) (t k u : Nat) (x : Strand) :
    ((s.setStrand t k x).tile u).mem = (s.tile u).mem := by
  by_cases h : u = t
  · subst h; simp [State.setStrand]
  · rw [State.tile_setStrand_ne s h]
@[simp] theorem State.updMe_tile_mem (s : State) (u : Nat) (g : Strand → Strand) :
    ((s.updMe g).tile u).mem = (s.tile u).mem := by
  simp [State.updMe, State.setMe]
@[simp] theorem State.updMe_myTile_mem (s : State) (g : Strand → Strand) : (s.updMe g).myTile.mem = s.myTile.mem := by
  simp [State.myTile]
@[simp] theorem State.setStrand_tile_code (s : State) (t k u : Nat) (x : Strand) :
    ((s.setStrand t k x).tile u).code = (s.tile u).code := by
  by_cases h : u = t
  · subst h; simp [State.setStrand]
  · rw [State.tile_setStrand_ne s h]
@[simp] theorem State.updMe_tile_code (s : State) (u : Nat) (g : Strand → Strand) :
    ((s.updMe g).tile u).code = (s.tile u).code := by
  simp [State.updMe, State.setMe]
@[simp] theorem State.updMe_myTile_code (s : State) (g : Strand → Strand) : (s.updMe g).myTile.code = s.myTile.code := by
  simp [State.myTile]
@[simp] theorem State.setStrand_tile_working (s : State) (t k u : Nat) (x : Strand) :
    ((s.setStrand t k x).tile u).working = (s.tile u).working := by
  by_cases h : u = t
  · subst h; simp [State.setStrand]
  · rw [State.tile_setStrand_ne s h]
@[simp] theorem State.updMe_tile_working (s : State) (u : Nat) (g : Strand → Strand) :
    ((s.updMe g).tile u).working = (s.tile u).working := by
  simp [State.updMe, State.setMe]
@[simp] theorem State.updMe_myTile_working (s : State) (g : Strand → Strand) : (s.updMe g).myTile.working = s.myTile.working := by
  simp [State.myTile]
@[simp] theorem State.setStrand_tile_banks (s : State) (t k u : Nat) (x : Strand) :
    ((s.setStrand t k x).tile u).banks = (s.tile u).banks := by
  by_cases h : u = t
  · subst h; simp [State.setStrand]
  · rw [State.tile_setStrand_ne s h]
@[simp] theorem State.updMe_tile_banks (s : State) (u : Nat) (g : Strand → Strand) :
    ((s.updMe g).tile u).banks = (s.tile u).banks := by
  simp [State.updMe, State.setMe]
@[simp] theorem State.updMe_myTile_banks (s : State) (g : Strand → Strand) : (s.updMe g).myTile.banks = s.myTile.banks := by
  simp [State.myTile]
@[simp] theorem State.setStrand_tile_mmas (s : State) (t k u : Nat) (x : Strand) :
    ((s.setStrand t k x).tile u).mmas = (s.tile u).mmas := by
  by_cases h : u = t
  · subst h; simp [State.setStrand]
  · rw [State.tile_setStrand_ne s h]
@[simp] theorem State.updMe_tile_mmas (s : State) (u : Nat) (g : Strand → Strand) :
    ((s.updMe g).tile u).mmas = (s.tile u).mmas := by
  simp [State.updMe, State.setMe]
@[simp] theorem State.updMe_myTile_mmas (s : State) (g : Strand → Strand) : (s.updMe g).myTile.mmas = s.myTile.mmas := by
  simp [State.myTile]
@[simp] theorem State.setStrand_tile_accMoves (s : State) (t k u : Nat) (x : Strand) :
    ((s.setStrand t k x).tile u).accMoves = (s.tile u).accMoves := by
  by_cases h : u = t
  · subst h; simp [State.setStrand]
  · rw [State.tile_setStrand_ne s h]
@[simp] theorem State.updMe_tile_accMoves (s : State) (u : Nat) (g : Strand → Strand) :
    ((s.updMe g).tile u).accMoves = (s.tile u).accMoves := by
  simp [State.updMe, State.setMe]
@[simp] theorem State.updMe_myTile_accMoves (s : State) (g : Strand → Strand) : (s.updMe g).myTile.accMoves = s.myTile.accMoves := by
  simp [State.myTile]
@[simp] theorem State.setStrand_tile_xq (s : State) (t k u : Nat) (x : Strand) :
    ((s.setStrand t k x).tile u).xq = (s.tile u).xq := by
  by_cases h : u = t
  · subst h; simp [State.setStrand]
  · rw [State.tile_setStrand_ne s h]
@[simp] theorem State.updMe_tile_xq (s : State) (u : Nat) (g : Strand → Strand) :
    ((s.updMe g).tile u).xq = (s.tile u).xq := by
  simp [State.updMe, State.setMe]
@[simp] theorem State.updMe_myTile_xq (s : State) (g : Strand → Strand) : (s.updMe g).myTile.xq = s.myTile.xq := by
  simp [State.myTile]
@[simp] theorem State.setStrand_tile_xtag (s : State) (t k u : Nat) (x : Strand) :
    ((s.setStrand t k x).tile u).xtag = (s.tile u).xtag := by
  by_cases h : u = t
  · subst h; simp [State.setStrand]
  · rw [State.tile_setStrand_ne s h]
@[simp] theorem State.updMe_tile_xtag (s : State) (u : Nat) (g : Strand → Strand) :
    ((s.updMe g).tile u).xtag = (s.tile u).xtag := by
  simp [State.updMe, State.setMe]
@[simp] theorem State.updMe_myTile_xtag (s : State) (g : Strand → Strand) : (s.updMe g).myTile.xtag = s.myTile.xtag := by
  simp [State.myTile]
@[simp] theorem State.setStrand_tile_pfls (s : State) (t k u : Nat) (x : Strand) :
    ((s.setStrand t k x).tile u).pfls = (s.tile u).pfls := by
  by_cases h : u = t
  · subst h; simp [State.setStrand]
  · rw [State.tile_setStrand_ne s h]
@[simp] theorem State.updMe_tile_pfls (s : State) (u : Nat) (g : Strand → Strand) :
    ((s.updMe g).tile u).pfls = (s.tile u).pfls := by
  simp [State.updMe, State.setMe]
@[simp] theorem State.updMe_myTile_pfls (s : State) (g : Strand → Strand) : (s.updMe g).myTile.pfls = s.myTile.pfls := by
  simp [State.myTile]
@[simp] theorem State.setStrand_tile_slotBy (s : State) (t k u : Nat) (x : Strand) :
    ((s.setStrand t k x).tile u).slotBy = (s.tile u).slotBy := by
  by_cases h : u = t
  · subst h; simp [State.setStrand]
  · rw [State.tile_setStrand_ne s h]
@[simp] theorem State.updMe_tile_slotBy (s : State) (u : Nat) (g : Strand → Strand) :
    ((s.updMe g).tile u).slotBy = (s.tile u).slotBy := by
  simp [State.updMe, State.setMe]
@[simp] theorem State.updMe_myTile_slotBy (s : State) (g : Strand → Strand) : (s.updMe g).myTile.slotBy = s.myTile.slotBy := by
  simp [State.myTile]
@[simp] theorem State.setStrand_tile_colls (s : State) (t k u : Nat) (x : Strand) :
    ((s.setStrand t k x).tile u).colls = (s.tile u).colls := by
  by_cases h : u = t
  · subst h; simp [State.setStrand]
  · rw [State.tile_setStrand_ne s h]
@[simp] theorem State.updMe_tile_colls (s : State) (u : Nat) (g : Strand → Strand) :
    ((s.updMe g).tile u).colls = (s.tile u).colls := by
  simp [State.updMe, State.setMe]
@[simp] theorem State.updMe_myTile_colls (s : State) (g : Strand → Strand) : (s.updMe g).myTile.colls = s.myTile.colls := by
  simp [State.myTile]
@[simp] theorem State.setStrand_tile_mail (s : State) (t k u : Nat) (x : Strand) :
    ((s.setStrand t k x).tile u).mail = (s.tile u).mail := by
  by_cases h : u = t
  · subst h; simp [State.setStrand]
  · rw [State.tile_setStrand_ne s h]
@[simp] theorem State.updMe_tile_mail (s : State) (u : Nat) (g : Strand → Strand) :
    ((s.updMe g).tile u).mail = (s.tile u).mail := by
  simp [State.updMe, State.setMe]
@[simp] theorem State.updMe_myTile_mail (s : State) (g : Strand → Strand) : (s.updMe g).myTile.mail = s.myTile.mail := by
  simp [State.myTile]
@[simp] theorem State.setStrand_tile_mailNext (s : State) (t k u : Nat) (x : Strand) :
    ((s.setStrand t k x).tile u).mailNext = (s.tile u).mailNext := by
  by_cases h : u = t
  · subst h; simp [State.setStrand]
  · rw [State.tile_setStrand_ne s h]
@[simp] theorem State.updMe_tile_mailNext (s : State) (u : Nat) (g : Strand → Strand) :
    ((s.updMe g).tile u).mailNext = (s.tile u).mailNext := by
  simp [State.updMe, State.setMe]
@[simp] theorem State.updMe_myTile_mailNext (s : State) (g : Strand → Strand) : (s.updMe g).myTile.mailNext = s.myTile.mailNext := by
  simp [State.myTile]
@[simp] theorem State.setStrand_tile_stepped (s : State) (t k u : Nat) (x : Strand) :
    ((s.setStrand t k x).tile u).stepped = (s.tile u).stepped := by
  by_cases h : u = t
  · subst h; simp [State.setStrand]
  · rw [State.tile_setStrand_ne s h]
@[simp] theorem State.updMe_tile_stepped (s : State) (u : Nat) (g : Strand → Strand) :
    ((s.updMe g).tile u).stepped = (s.tile u).stepped := by
  simp [State.updMe, State.setMe]
@[simp] theorem State.updMe_myTile_stepped (s : State) (g : Strand → Strand) : (s.updMe g).myTile.stepped = s.myTile.stepped := by
  simp [State.myTile]
@[simp] theorem State.setStrand_tile_steppedNow (s : State) (t k u : Nat) (x : Strand) :
    ((s.setStrand t k x).tile u).steppedNow = (s.tile u).steppedNow := by
  by_cases h : u = t
  · subst h; simp [State.setStrand]
  · rw [State.tile_setStrand_ne s h]
@[simp] theorem State.updMe_tile_steppedNow (s : State) (u : Nat) (g : Strand → Strand) :
    ((s.updMe g).tile u).steppedNow = (s.tile u).steppedNow := by
  simp [State.updMe, State.setMe]
@[simp] theorem State.updMe_myTile_steppedNow (s : State) (g : Strand → Strand) : (s.updMe g).myTile.steppedNow = s.myTile.steppedNow := by
  simp [State.myTile]
@[simp] theorem State.setStrand_tile_steppedStart (s : State) (t k u : Nat) (x : Strand) :
    ((s.setStrand t k x).tile u).steppedStart = (s.tile u).steppedStart := by
  by_cases h : u = t
  · subst h; simp [State.setStrand]
  · rw [State.tile_setStrand_ne s h]
@[simp] theorem State.updMe_tile_steppedStart (s : State) (u : Nat) (g : Strand → Strand) :
    ((s.updMe g).tile u).steppedStart = (s.tile u).steppedStart := by
  simp [State.updMe, State.setMe]
@[simp] theorem State.updMe_myTile_steppedStart (s : State) (g : Strand → Strand) : (s.updMe g).myTile.steppedStart = s.myTile.steppedStart := by
  simp [State.myTile]
@[simp] theorem State.setStrand_tile_msgFrames (s : State) (t k u : Nat) (x : Strand) :
    ((s.setStrand t k x).tile u).msgFrames = (s.tile u).msgFrames := by
  by_cases h : u = t
  · subst h; simp [State.setStrand]
  · rw [State.tile_setStrand_ne s h]
@[simp] theorem State.updMe_tile_msgFrames (s : State) (u : Nat) (g : Strand → Strand) :
    ((s.updMe g).tile u).msgFrames = (s.tile u).msgFrames := by
  simp [State.updMe, State.setMe]
@[simp] theorem State.updMe_myTile_msgFrames (s : State) (g : Strand → Strand) : (s.updMe g).myTile.msgFrames = s.myTile.msgFrames := by
  simp [State.myTile]
@[simp] theorem State.setStrand_tile_amods (s : State) (t k u : Nat) (x : Strand) :
    ((s.setStrand t k x).tile u).amods = (s.tile u).amods := by
  by_cases h : u = t
  · subst h; simp [State.setStrand]
  · rw [State.tile_setStrand_ne s h]
@[simp] theorem State.updMe_tile_amods (s : State) (u : Nat) (g : Strand → Strand) :
    ((s.updMe g).tile u).amods = (s.tile u).amods := by
  simp [State.updMe, State.setMe]
@[simp] theorem State.updMe_myTile_amods (s : State) (g : Strand → Strand) : (s.updMe g).myTile.amods = s.myTile.amods := by
  simp [State.myTile]
@[simp] theorem State.setStrand_tile_amodFrames (s : State) (t k u : Nat) (x : Strand) :
    ((s.setStrand t k x).tile u).amodFrames = (s.tile u).amodFrames := by
  by_cases h : u = t
  · subst h; simp [State.setStrand]
  · rw [State.tile_setStrand_ne s h]
@[simp] theorem State.updMe_tile_amodFrames (s : State) (u : Nat) (g : Strand → Strand) :
    ((s.updMe g).tile u).amodFrames = (s.tile u).amodFrames := by
  simp [State.updMe, State.setMe]
@[simp] theorem State.updMe_myTile_amodFrames (s : State) (g : Strand → Strand) : (s.updMe g).myTile.amodFrames = s.myTile.amodFrames := by
  simp [State.myTile]
@[simp] theorem State.setStrand_tile_seq (s : State) (t k u : Nat) (x : Strand) :
    ((s.setStrand t k x).tile u).seq = (s.tile u).seq := by
  by_cases h : u = t
  · subst h; simp [State.setStrand]
  · rw [State.tile_setStrand_ne s h]
@[simp] theorem State.updMe_tile_seq (s : State) (u : Nat) (g : Strand → Strand) :
    ((s.updMe g).tile u).seq = (s.tile u).seq := by
  simp [State.updMe, State.setMe]
@[simp] theorem State.updMe_myTile_seq (s : State) (g : Strand → Strand) : (s.updMe g).myTile.seq = s.myTile.seq := by
  simp [State.myTile]
@[simp] theorem State.setStrand_tile_vote (s : State) (t k u : Nat) (x : Strand) :
    ((s.setStrand t k x).tile u).vote = (s.tile u).vote := by
  by_cases h : u = t
  · subst h; simp [State.setStrand]
  · rw [State.tile_setStrand_ne s h]
@[simp] theorem State.updMe_tile_vote (s : State) (u : Nat) (g : Strand → Strand) :
    ((s.updMe g).tile u).vote = (s.tile u).vote := by
  simp [State.updMe, State.setMe]
@[simp] theorem State.updMe_myTile_vote (s : State) (g : Strand → Strand) : (s.updMe g).myTile.vote = s.myTile.vote := by
  simp [State.myTile]
@[simp] theorem State.setStrand_tile_redc (s : State) (t k u : Nat) (x : Strand) :
    ((s.setStrand t k x).tile u).redc = (s.tile u).redc := by
  by_cases h : u = t
  · subst h; simp [State.setStrand]
  · rw [State.tile_setStrand_ne s h]
@[simp] theorem State.updMe_tile_redc (s : State) (u : Nat) (g : Strand → Strand) :
    ((s.updMe g).tile u).redc = (s.tile u).redc := by
  simp [State.updMe, State.setMe]
@[simp] theorem State.updMe_myTile_redc (s : State) (g : Strand → Strand) : (s.updMe g).myTile.redc = s.myTile.redc := by
  simp [State.myTile]
@[simp] theorem State.setStrand_tile_redres (s : State) (t k u : Nat) (x : Strand) :
    ((s.setStrand t k x).tile u).redres = (s.tile u).redres := by
  by_cases h : u = t
  · subst h; simp [State.setStrand]
  · rw [State.tile_setStrand_ne s h]
@[simp] theorem State.updMe_tile_redres (s : State) (u : Nat) (g : Strand → Strand) :
    ((s.updMe g).tile u).redres = (s.tile u).redres := by
  simp [State.updMe, State.setMe]
@[simp] theorem State.updMe_myTile_redres (s : State) (g : Strand → Strand) : (s.updMe g).myTile.redres = s.myTile.redres := by
  simp [State.myTile]
@[simp] theorem State.setStrand_tile_syncres (s : State) (t k u : Nat) (x : Strand) :
    ((s.setStrand t k x).tile u).syncres = (s.tile u).syncres := by
  by_cases h : u = t
  · subst h; simp [State.setStrand]
  · rw [State.tile_setStrand_ne s h]
@[simp] theorem State.updMe_tile_syncres (s : State) (u : Nat) (g : Strand → Strand) :
    ((s.updMe g).tile u).syncres = (s.tile u).syncres := by
  simp [State.updMe, State.setMe]
@[simp] theorem State.updMe_myTile_syncres (s : State) (g : Strand → Strand) : (s.updMe g).myTile.syncres = s.myTile.syncres := by
  simp [State.myTile]
@[simp] theorem State.setStrand_tile_syncArrived (s : State) (t k u : Nat) (x : Strand) :
    ((s.setStrand t k x).tile u).syncArrived = (s.tile u).syncArrived := by
  by_cases h : u = t
  · subst h; simp [State.setStrand]
  · rw [State.tile_setStrand_ne s h]
@[simp] theorem State.updMe_tile_syncArrived (s : State) (u : Nat) (g : Strand → Strand) :
    ((s.updMe g).tile u).syncArrived = (s.tile u).syncArrived := by
  simp [State.updMe, State.setMe]
@[simp] theorem State.updMe_myTile_syncArrived (s : State) (g : Strand → Strand) : (s.updMe g).myTile.syncArrived = s.myTile.syncArrived := by
  simp [State.myTile]
@[simp] theorem State.setStrand_tile_abortcnt (s : State) (t k u : Nat) (x : Strand) :
    ((s.setStrand t k x).tile u).abortcnt = (s.tile u).abortcnt := by
  by_cases h : u = t
  · subst h; simp [State.setStrand]
  · rw [State.tile_setStrand_ne s h]
@[simp] theorem State.updMe_tile_abortcnt (s : State) (u : Nat) (g : Strand → Strand) :
    ((s.updMe g).tile u).abortcnt = (s.tile u).abortcnt := by
  simp [State.updMe, State.setMe]
@[simp] theorem State.updMe_myTile_abortcnt (s : State) (g : Strand → Strand) : (s.updMe g).myTile.abortcnt = s.myTile.abortcnt := by
  simp [State.myTile]
@[simp] theorem State.setStrand_tile_abortlim (s : State) (t k u : Nat) (x : Strand) :
    ((s.setStrand t k x).tile u).abortlim = (s.tile u).abortlim := by
  by_cases h : u = t
  · subst h; simp [State.setStrand]
  · rw [State.tile_setStrand_ne s h]
@[simp] theorem State.updMe_tile_abortlim (s : State) (u : Nat) (g : Strand → Strand) :
    ((s.updMe g).tile u).abortlim = (s.tile u).abortlim := by
  simp [State.updMe, State.setMe]
@[simp] theorem State.updMe_myTile_abortlim (s : State) (g : Strand → Strand) : (s.updMe g).myTile.abortlim = s.myTile.abortlim := by
  simp [State.myTile]
@[simp] theorem State.setStrand_tile_chkstat (s : State) (t k u : Nat) (x : Strand) :
    ((s.setStrand t k x).tile u).chkstat = (s.tile u).chkstat := by
  by_cases h : u = t
  · subst h; simp [State.setStrand]
  · rw [State.tile_setStrand_ne s h]
@[simp] theorem State.updMe_tile_chkstat (s : State) (u : Nat) (g : Strand → Strand) :
    ((s.updMe g).tile u).chkstat = (s.tile u).chkstat := by
  simp [State.updMe, State.setMe]
@[simp] theorem State.updMe_myTile_chkstat (s : State) (g : Strand → Strand) : (s.updMe g).myTile.chkstat = s.myTile.chkstat := by
  simp [State.myTile]
@[simp] theorem State.setStrand_tile_fwd (s : State) (t k u : Nat) (x : Strand) :
    ((s.setStrand t k x).tile u).fwd = (s.tile u).fwd := by
  by_cases h : u = t
  · subst h; simp [State.setStrand]
  · rw [State.tile_setStrand_ne s h]
@[simp] theorem State.updMe_tile_fwd (s : State) (u : Nat) (g : Strand → Strand) :
    ((s.updMe g).tile u).fwd = (s.tile u).fwd := by
  simp [State.updMe, State.setMe]
@[simp] theorem State.updMe_myTile_fwd (s : State) (g : Strand → Strand) : (s.updMe g).myTile.fwd = s.myTile.fwd := by
  simp [State.myTile]
@[simp] theorem State.setStrand_tile_persist (s : State) (t k u : Nat) (x : Strand) :
    ((s.setStrand t k x).tile u).persist = (s.tile u).persist := by
  by_cases h : u = t
  · subst h; simp [State.setStrand]
  · rw [State.tile_setStrand_ne s h]
@[simp] theorem State.updMe_tile_persist (s : State) (u : Nat) (g : Strand → Strand) :
    ((s.updMe g).tile u).persist = (s.tile u).persist := by
  simp [State.updMe, State.setMe]
@[simp] theorem State.updMe_myTile_persist (s : State) (g : Strand → Strand) : (s.updMe g).myTile.persist = s.myTile.persist := by
  simp [State.myTile]
@[simp] theorem State.setStrand_tile_twice (s : State) (t k u : Nat) (x : Strand) :
    ((s.setStrand t k x).tile u).twice = (s.tile u).twice := by
  by_cases h : u = t
  · subst h; simp [State.setStrand]
  · rw [State.tile_setStrand_ne s h]
@[simp] theorem State.updMe_tile_twice (s : State) (u : Nat) (g : Strand → Strand) :
    ((s.updMe g).tile u).twice = (s.tile u).twice := by
  simp [State.updMe, State.setMe]
@[simp] theorem State.updMe_myTile_twice (s : State) (g : Strand → Strand) : (s.updMe g).myTile.twice = s.myTile.twice := by
  simp [State.myTile]
@[simp] theorem State.setStrand_tile_line (s : State) (t k u : Nat) (x : Strand) :
    ((s.setStrand t k x).tile u).line = (s.tile u).line := by
  by_cases h : u = t
  · subst h; simp [State.setStrand]
  · rw [State.tile_setStrand_ne s h]
@[simp] theorem State.updMe_tile_line (s : State) (u : Nat) (g : Strand → Strand) :
    ((s.updMe g).tile u).line = (s.tile u).line := by
  simp [State.updMe, State.setMe]
@[simp] theorem State.updMe_myTile_line (s : State) (g : Strand → Strand) : (s.updMe g).myTile.line = s.myTile.line := by
  simp [State.myTile]
@[simp] theorem State.setStrand_tile_act (s : State) (t k u : Nat) (x : Strand) :
    ((s.setStrand t k x).tile u).act = (s.tile u).act := by
  by_cases h : u = t
  · subst h; simp [State.setStrand]
  · rw [State.tile_setStrand_ne s h]
@[simp] theorem State.updMe_tile_act (s : State) (u : Nat) (g : Strand → Strand) :
    ((s.updMe g).tile u).act = (s.tile u).act := by
  simp [State.updMe, State.setMe]
@[simp] theorem State.updMe_myTile_act (s : State) (g : Strand → Strand) : (s.updMe g).myTile.act = s.myTile.act := by
  simp [State.myTile]
@[simp] theorem State.setStrand_tile_dlprior (s : State) (t k u : Nat) (x : Strand) :
    ((s.setStrand t k x).tile u).dlprior = (s.tile u).dlprior := by
  by_cases h : u = t
  · subst h; simp [State.setStrand]
  · rw [State.tile_setStrand_ne s h]
@[simp] theorem State.updMe_tile_dlprior (s : State) (u : Nat) (g : Strand → Strand) :
    ((s.updMe g).tile u).dlprior = (s.tile u).dlprior := by
  simp [State.updMe, State.setMe]
@[simp] theorem State.updMe_myTile_dlprior (s : State) (g : Strand → Strand) : (s.updMe g).myTile.dlprior = s.myTile.dlprior := by
  simp [State.myTile]
@[simp] theorem State.setStrand_tile_dlsample (s : State) (t k u : Nat) (x : Strand) :
    ((s.setStrand t k x).tile u).dlsample = (s.tile u).dlsample := by
  by_cases h : u = t
  · subst h; simp [State.setStrand]
  · rw [State.tile_setStrand_ne s h]
@[simp] theorem State.updMe_tile_dlsample (s : State) (u : Nat) (g : Strand → Strand) :
    ((s.updMe g).tile u).dlsample = (s.tile u).dlsample := by
  simp [State.updMe, State.setMe]
@[simp] theorem State.updMe_myTile_dlsample (s : State) (g : Strand → Strand) : (s.updMe g).myTile.dlsample = s.myTile.dlsample := by
  simp [State.myTile]
@[simp] theorem State.setStrand_tile_gang (s : State) (t k u : Nat) (x : Strand) :
    ((s.setStrand t k x).tile u).gang = (s.tile u).gang := by
  by_cases h : u = t
  · subst h; simp [State.setStrand]
  · rw [State.tile_setStrand_ne s h]
@[simp] theorem State.updMe_tile_gang (s : State) (u : Nat) (g : Strand → Strand) :
    ((s.updMe g).tile u).gang = (s.tile u).gang := by
  simp [State.updMe, State.setMe]
@[simp] theorem State.updMe_myTile_gang (s : State) (g : Strand → Strand) : (s.updMe g).myTile.gang = s.myTile.gang := by
  simp [State.myTile]
@[simp] theorem State.setStrand_tile_gti (s : State) (t k u : Nat) (x : Strand) :
    ((s.setStrand t k x).tile u).gti = (s.tile u).gti := by
  by_cases h : u = t
  · subst h; simp [State.setStrand]
  · rw [State.tile_setStrand_ne s h]
@[simp] theorem State.updMe_tile_gti (s : State) (u : Nat) (g : Strand → Strand) :
    ((s.updMe g).tile u).gti = (s.tile u).gti := by
  simp [State.updMe, State.setMe]
@[simp] theorem State.updMe_myTile_gti (s : State) (g : Strand → Strand) : (s.updMe g).myTile.gti = s.myTile.gti := by
  simp [State.myTile]
@[simp] theorem State.setStrand_tile_cbase (s : State) (t k u : Nat) (x : Strand) :
    ((s.setStrand t k x).tile u).cbase = (s.tile u).cbase := by
  by_cases h : u = t
  · subst h; simp [State.setStrand]
  · rw [State.tile_setStrand_ne s h]
@[simp] theorem State.updMe_tile_cbase (s : State) (u : Nat) (g : Strand → Strand) :
    ((s.updMe g).tile u).cbase = (s.tile u).cbase := by
  simp [State.updMe, State.setMe]
@[simp] theorem State.updMe_myTile_cbase (s : State) (g : Strand → Strand) : (s.updMe g).myTile.cbase = s.myTile.cbase := by
  simp [State.myTile]
@[simp] theorem State.setStrand_tile_clines (s : State) (t k u : Nat) (x : Strand) :
    ((s.setStrand t k x).tile u).clines = (s.tile u).clines := by
  by_cases h : u = t
  · subst h; simp [State.setStrand]
  · rw [State.tile_setStrand_ne s h]
@[simp] theorem State.updMe_tile_clines (s : State) (u : Nat) (g : Strand → Strand) :
    ((s.updMe g).tile u).clines = (s.tile u).clines := by
  simp [State.updMe, State.setMe]
@[simp] theorem State.updMe_myTile_clines (s : State) (g : Strand → Strand) : (s.updMe g).myTile.clines = s.myTile.clines := by
  simp [State.myTile]
@[simp] theorem State.setStrand_tile_segmask (s : State) (t k u : Nat) (x : Strand) :
    ((s.setStrand t k x).tile u).segmask = (s.tile u).segmask := by
  by_cases h : u = t
  · subst h; simp [State.setStrand]
  · rw [State.tile_setStrand_ne s h]
@[simp] theorem State.updMe_tile_segmask (s : State) (u : Nat) (g : Strand → Strand) :
    ((s.updMe g).tile u).segmask = (s.tile u).segmask := by
  simp [State.updMe, State.setMe]
@[simp] theorem State.updMe_myTile_segmask (s : State) (g : Strand → Strand) : (s.updMe g).myTile.segmask = s.myTile.segmask := by
  simp [State.myTile]
@[simp] theorem State.setStrand_tile_waking (s : State) (t k u : Nat) (x : Strand) :
    ((s.setStrand t k x).tile u).waking = (s.tile u).waking := by
  by_cases h : u = t
  · subst h; simp [State.setStrand]
  · rw [State.tile_setStrand_ne s h]
@[simp] theorem State.updMe_tile_waking (s : State) (u : Nat) (g : Strand → Strand) :
    ((s.updMe g).tile u).waking = (s.tile u).waking := by
  simp [State.updMe, State.setMe]
@[simp] theorem State.updMe_myTile_waking (s : State) (g : Strand → Strand) : (s.updMe g).myTile.waking = s.myTile.waking := by
  simp [State.myTile]
@[simp] theorem State.setStrand_tile_budgetCycles (s : State) (t k u : Nat) (x : Strand) :
    ((s.setStrand t k x).tile u).budgetCycles = (s.tile u).budgetCycles := by
  by_cases h : u = t
  · subst h; simp [State.setStrand]
  · rw [State.tile_setStrand_ne s h]
@[simp] theorem State.updMe_tile_budgetCycles (s : State) (u : Nat) (g : Strand → Strand) :
    ((s.updMe g).tile u).budgetCycles = (s.tile u).budgetCycles := by
  simp [State.updMe, State.setMe]
@[simp] theorem State.updMe_myTile_budgetCycles (s : State) (g : Strand → Strand) : (s.updMe g).myTile.budgetCycles = s.myTile.budgetCycles := by
  simp [State.myTile]
@[simp] theorem State.setStrand_tile_barn (s : State) (t k u : Nat) (x : Strand) :
    ((s.setStrand t k x).tile u).barn = (s.tile u).barn := by
  by_cases h : u = t
  · subst h; simp [State.setStrand]
  · rw [State.tile_setStrand_ne s h]
@[simp] theorem State.updMe_tile_barn (s : State) (u : Nat) (g : Strand → Strand) :
    ((s.updMe g).tile u).barn = (s.tile u).barn := by
  simp [State.updMe, State.setMe]
@[simp] theorem State.updMe_myTile_barn (s : State) (g : Strand → Strand) : (s.updMe g).myTile.barn = s.myTile.barn := by
  simp [State.myTile]
@[simp] theorem State.setStrand_tile_parentSigs (s : State) (t k u : Nat) (x : Strand) :
    ((s.setStrand t k x).tile u).parentSigs = (s.tile u).parentSigs := by
  by_cases h : u = t
  · subst h; simp [State.setStrand]
  · rw [State.tile_setStrand_ne s h]
@[simp] theorem State.updMe_tile_parentSigs (s : State) (u : Nat) (g : Strand → Strand) :
    ((s.updMe g).tile u).parentSigs = (s.tile u).parentSigs := by
  simp [State.updMe, State.setMe]
@[simp] theorem State.updMe_myTile_parentSigs (s : State) (g : Strand → Strand) : (s.updMe g).myTile.parentSigs = s.myTile.parentSigs := by
  simp [State.myTile]
@[simp] theorem State.setStrand_tile_lostFills (s : State) (t k u : Nat) (x : Strand) :
    ((s.setStrand t k x).tile u).lostFills = (s.tile u).lostFills := by
  by_cases h : u = t
  · subst h; simp [State.setStrand]
  · rw [State.tile_setStrand_ne s h]
@[simp] theorem State.updMe_tile_lostFills (s : State) (u : Nat) (g : Strand → Strand) :
    ((s.updMe g).tile u).lostFills = (s.tile u).lostFills := by
  simp [State.updMe, State.setMe]
@[simp] theorem State.updMe_myTile_lostFills (s : State) (g : Strand → Strand) : (s.updMe g).myTile.lostFills = s.myTile.lostFills := by
  simp [State.myTile]
@[simp] theorem State.setStrand_tile_faulty (s : State) (t k u : Nat) (x : Strand) :
    ((s.setStrand t k x).tile u).faulty = (s.tile u).faulty := by
  by_cases h : u = t
  · subst h; simp [State.setStrand]
  · rw [State.tile_setStrand_ne s h]
@[simp] theorem State.updMe_tile_faulty (s : State) (u : Nat) (g : Strand → Strand) :
    ((s.updMe g).tile u).faulty = (s.tile u).faulty := by
  simp [State.updMe, State.setMe]
@[simp] theorem State.updMe_myTile_faulty (s : State) (g : Strand → Strand) : (s.updMe g).myTile.faulty = s.myTile.faulty := by
  simp [State.myTile]
@[simp] theorem State.setStrand_tile_sramBad (s : State) (t k u : Nat) (x : Strand) :
    ((s.setStrand t k x).tile u).sramBad = (s.tile u).sramBad := by
  by_cases h : u = t
  · subst h; simp [State.setStrand]
  · rw [State.tile_setStrand_ne s h]
@[simp] theorem State.updMe_tile_sramBad (s : State) (u : Nat) (g : Strand → Strand) :
    ((s.updMe g).tile u).sramBad = (s.tile u).sramBad := by
  simp [State.updMe, State.setMe]
@[simp] theorem State.updMe_myTile_sramBad (s : State) (g : Strand → Strand) : (s.updMe g).myTile.sramBad = s.myTile.sramBad := by
  simp [State.myTile]
@[simp] theorem State.setStrand_tile_retired (s : State) (t k u : Nat) (x : Strand) :
    ((s.setStrand t k x).tile u).retired = (s.tile u).retired := by
  by_cases h : u = t
  · subst h; simp [State.setStrand]
  · rw [State.tile_setStrand_ne s h]
@[simp] theorem State.updMe_tile_retired (s : State) (u : Nat) (g : Strand → Strand) :
    ((s.updMe g).tile u).retired = (s.tile u).retired := by
  simp [State.updMe, State.setMe]
@[simp] theorem State.updMe_myTile_retired (s : State) (g : Strand → Strand) : (s.updMe g).myTile.retired = s.myTile.retired := by
  simp [State.myTile]

/-- The code that a tile fetches depends on its code region and the resident context's code lines only. -/
theorem Tile.codeHalf_congr {T U : Tile} (h1 : U.code = T.code) (h2 : U.cbase = T.cbase) : U.codeHalf = T.codeHalf := by
  funext pc i
  simp only [Tile.codeHalf, Tile.codePhys, Tile.codeByte, h1, h2]

theorem Tile.badTarget_congr {T U : Tile} (h1 : U.code = T.code) (h2 : U.cbase = T.cbase) (h3 : U.clines = T.clines) :
    U.badTarget = T.badTarget := by
  funext n
  simp only [Tile.badTarget, Tile.codeOwned, Tile.codeHalf_congr h1 h2, h3]

theorem Tile.pcAfter_congr {T U : Tile} (h1 : U.code = T.code) (h2 : U.cbase = T.cbase) : U.pcAfter = T.pcAfter := by
  funext pc n
  simp only [Tile.pcAfter, Tile.codeHalf_congr h1 h2]

theorem Tile.slotsAt_congr {T U : Tile} (h1 : U.code = T.code) (h2 : U.cbase = T.cbase) : U.slotsAt = T.slotsAt := by
  funext pc
  simp only [Tile.slotsAt, Tile.codeHalf_congr h1 h2]


/-! ## Registers -/

@[simp] theorem Strand.rd_zero (x : Strand) : x.rd 0#6 = 0#64 := rfl
@[simp] theorem Strand.tag_zero (x : Strand) : x.tag 0#6 = false := rfl
@[simp] theorem Strand.prd_zero (x : Strand) : x.prd 0#3 = true := rfl
@[simp] theorem Strand.pt_zero (x : Strand) : x.pt 0#3 = false := rfl
@[simp] theorem Strand.wr_zero (x : Strand) (v : Word) (t : Bool) : x.wr 0#6 v t = x := rfl
@[simp] theorem Strand.pwr_zero (x : Strand) (v t : Bool) : x.pwr 0#3 v t = x := rfl

@[simp] theorem Strand.wr_p (x : Strand) (r : SReg) (v : Word) (t : Bool) : (x.wr r v t).p = x.p := by
  unfold Strand.wr; split <;> rfl
@[simp] theorem Strand.wr_ptag (x : Strand) (r : SReg) (v : Word) (t : Bool) : (x.wr r v t).ptag = x.ptag := by
  unfold Strand.wr; split <;> rfl
@[simp] theorem Strand.wr_v (x : Strand) (r : SReg) (v : Word) (t : Bool) : (x.wr r v t).v = x.v := by
  unfold Strand.wr; split <;> rfl
@[simp] theorem Strand.wr_vtag (x : Strand) (r : SReg) (v : Word) (t : Bool) : (x.wr r v t).vtag = x.vtag := by
  unfold Strand.wr; split <;> rfl
@[simp] theorem Strand.wr_q (x : Strand) (r : SReg) (v : Word) (t : Bool) : (x.wr r v t).q = x.q := by
  unfold Strand.wr; split <;> rfl
@[simp] theorem Strand.wr_qtag (x : Strand) (r : SReg) (v : Word) (t : Bool) : (x.wr r v t).qtag = x.qtag := by
  unfold Strand.wr; split <;> rfl
@[simp] theorem Strand.wr_k (x : Strand) (r : SReg) (v : Word) (t : Bool) : (x.wr r v t).k = x.k := by
  unfold Strand.wr; split <;> rfl
@[simp] theorem Strand.wr_pc (x : Strand) (r : SReg) (v : Word) (t : Bool) : (x.wr r v t).pc = x.pc := by
  unfold Strand.wr; split <;> rfl
@[simp] theorem Strand.wr_status (x : Strand) (r : SReg) (v : Word) (t : Bool) : (x.wr r v t).status = x.status := by
  unfold Strand.wr; split <;> rfl
@[simp] theorem Strand.wr_trappc (x : Strand) (r : SReg) (v : Word) (t : Bool) : (x.wr r v t).trappc = x.trappc := by
  unfold Strand.wr; split <;> rfl
@[simp] theorem Strand.wr_trapcause (x : Strand) (r : SReg) (v : Word) (t : Bool) : (x.wr r v t).trapcause = x.trapcause := by
  unfold Strand.wr; split <;> rfl
@[simp] theorem Strand.wr_trapval (x : Strand) (r : SReg) (v : Word) (t : Bool) : (x.wr r v t).trapval = x.trapval := by
  unfold Strand.wr; split <;> rfl
@[simp] theorem Strand.wr_tvec (x : Strand) (r : SReg) (v : Word) (t : Bool) : (x.wr r v t).tvec = x.tvec := by
  unfold Strand.wr; split <;> rfl
@[simp] theorem Strand.wr_scratchsv (x : Strand) (r : SReg) (v : Word) (t : Bool) : (x.wr r v t).scratchsv = x.scratchsv := by
  unfold Strand.wr; split <;> rfl
@[simp] theorem Strand.wr_uipc (x : Strand) (r : SReg) (v : Word) (t : Bool) : (x.wr r v t).uipc = x.uipc := by
  unfold Strand.wr; split <;> rfl
@[simp] theorem Strand.wr_xferid (x : Strand) (r : SReg) (v : Word) (t : Bool) : (x.wr r v t).xferid = x.xferid := by
  unfold Strand.wr; split <;> rfl
@[simp] theorem Strand.wr_routine (x : Strand) (r : SReg) (v : Word) (t : Bool) : (x.wr r v t).routine = x.routine := by
  unfold Strand.wr; split <;> rfl
@[simp] theorem Strand.wr_rseq (x : Strand) (r : SReg) (v : Word) (t : Bool) : (x.wr r v t).rseq = x.rseq := by
  unfold Strand.wr; split <;> rfl
@[simp] theorem Strand.wr_rep (x : Strand) (r : SReg) (v : Word) (t : Bool) : (x.wr r v t).rep = x.rep := by
  unfold Strand.wr; split <;> rfl
@[simp] theorem Strand.wr_run (x : Strand) (r : SReg) (v : Word) (t : Bool) : (x.wr r v t).run = x.run := by
  unfold Strand.wr; split <;> rfl
@[simp] theorem Strand.wr_hold (x : Strand) (r : SReg) (v : Word) (t : Bool) : (x.wr r v t).hold = x.hold := by
  unfold Strand.wr; split <;> rfl
@[simp] theorem Strand.wr_took (x : Strand) (r : SReg) (v : Word) (t : Bool) : (x.wr r v t).took = x.took := by
  unfold Strand.wr; split <;> rfl
@[simp] theorem Strand.wr_tested (x : Strand) (r : SReg) (v : Word) (t : Bool) : (x.wr r v t).tested = x.tested := by
  unfold Strand.wr; split <;> rfl
@[simp] theorem Strand.wr_yieldTo (x : Strand) (r : SReg) (v : Word) (t : Bool) : (x.wr r v t).yieldTo = x.yieldTo := by
  unfold Strand.wr; split <;> rfl
@[simp] theorem Strand.wr_xferCount (x : Strand) (r : SReg) (v : Word) (t : Bool) : (x.wr r v t).xferCount = x.xferCount := by
  unfold Strand.wr; split <;> rfl
@[simp] theorem Strand.wr_msgCount (x : Strand) (r : SReg) (v : Word) (t : Bool) : (x.wr r v t).msgCount = x.msgCount := by
  unfold Strand.wr; split <;> rfl
@[simp] theorem Strand.wr_launchCount (x : Strand) (r : SReg) (v : Word) (t : Bool) : (x.wr r v t).launchCount = x.launchCount := by
  unfold Strand.wr; split <;> rfl
@[simp] theorem Strand.wr_collCount (x : Strand) (r : SReg) (v : Word) (t : Bool) : (x.wr r v t).collCount = x.collCount := by
  unfold Strand.wr; split <;> rfl
@[simp] theorem Strand.wr_redcCount (x : Strand) (r : SReg) (v : Word) (t : Bool) : (x.wr r v t).redcCount = x.redcCount := by
  unfold Strand.wr; split <;> rfl
@[simp] theorem Strand.wr_uiq (x : Strand) (r : SReg) (v : Word) (t : Bool) : (x.wr r v t).uiq = x.uiq := by
  unfold Strand.wr; split <;> rfl
@[simp] theorem Strand.wr_slots (x : Strand) (r : SReg) (v : Word) (t : Bool) : (x.wr r v t).slots = x.slots := by
  unfold Strand.wr; split <;> rfl
@[simp] theorem Strand.wr_immediate (x : Strand) (r : SReg) (v : Word) (t : Bool) : (x.wr r v t).immediate = x.immediate := by
  unfold Strand.wr; split <;> rfl
@[simp] theorem Strand.wr_fwdq (x : Strand) (r : SReg) (v : Word) (t : Bool) : (x.wr r v t).fwdq = x.fwdq := by
  unfold Strand.wr; split <;> rfl
@[simp] theorem Strand.wr_fwdHeld (x : Strand) (r : SReg) (v : Word) (t : Bool) : (x.wr r v t).fwdHeld = x.fwdHeld := by
  unfold Strand.wr; split <;> rfl
@[simp] theorem Strand.wr_standing (x : Strand) (r : SReg) (v : Word) (t : Bool) : (x.wr r v t).standing = x.standing := by
  unfold Strand.wr; split <;> rfl
@[simp] theorem Strand.wr_issued (x : Strand) (r : SReg) (v : Word) (t : Bool) : (x.wr r v t).issued = x.issued := by
  unfold Strand.wr; split <;> rfl
@[simp] theorem Strand.pwr_s (x : Strand) (n : PReg) (v t : Bool) : (x.pwr n v t).s = x.s := by
  unfold Strand.pwr; split <;> rfl
@[simp] theorem Strand.pwr_stag (x : Strand) (n : PReg) (v t : Bool) : (x.pwr n v t).stag = x.stag := by
  unfold Strand.pwr; split <;> rfl
@[simp] theorem Strand.pwr_v (x : Strand) (n : PReg) (v t : Bool) : (x.pwr n v t).v = x.v := by
  unfold Strand.pwr; split <;> rfl
@[simp] theorem Strand.pwr_vtag (x : Strand) (n : PReg) (v t : Bool) : (x.pwr n v t).vtag = x.vtag := by
  unfold Strand.pwr; split <;> rfl
@[simp] theorem Strand.pwr_q (x : Strand) (n : PReg) (v t : Bool) : (x.pwr n v t).q = x.q := by
  unfold Strand.pwr; split <;> rfl
@[simp] theorem Strand.pwr_qtag (x : Strand) (n : PReg) (v t : Bool) : (x.pwr n v t).qtag = x.qtag := by
  unfold Strand.pwr; split <;> rfl
@[simp] theorem Strand.pwr_k (x : Strand) (n : PReg) (v t : Bool) : (x.pwr n v t).k = x.k := by
  unfold Strand.pwr; split <;> rfl
@[simp] theorem Strand.pwr_pc (x : Strand) (n : PReg) (v t : Bool) : (x.pwr n v t).pc = x.pc := by
  unfold Strand.pwr; split <;> rfl
@[simp] theorem Strand.pwr_status (x : Strand) (n : PReg) (v t : Bool) : (x.pwr n v t).status = x.status := by
  unfold Strand.pwr; split <;> rfl
@[simp] theorem Strand.pwr_trappc (x : Strand) (n : PReg) (v t : Bool) : (x.pwr n v t).trappc = x.trappc := by
  unfold Strand.pwr; split <;> rfl
@[simp] theorem Strand.pwr_trapcause (x : Strand) (n : PReg) (v t : Bool) : (x.pwr n v t).trapcause = x.trapcause := by
  unfold Strand.pwr; split <;> rfl
@[simp] theorem Strand.pwr_trapval (x : Strand) (n : PReg) (v t : Bool) : (x.pwr n v t).trapval = x.trapval := by
  unfold Strand.pwr; split <;> rfl
@[simp] theorem Strand.pwr_tvec (x : Strand) (n : PReg) (v t : Bool) : (x.pwr n v t).tvec = x.tvec := by
  unfold Strand.pwr; split <;> rfl
@[simp] theorem Strand.pwr_scratchsv (x : Strand) (n : PReg) (v t : Bool) : (x.pwr n v t).scratchsv = x.scratchsv := by
  unfold Strand.pwr; split <;> rfl
@[simp] theorem Strand.pwr_uipc (x : Strand) (n : PReg) (v t : Bool) : (x.pwr n v t).uipc = x.uipc := by
  unfold Strand.pwr; split <;> rfl
@[simp] theorem Strand.pwr_xferid (x : Strand) (n : PReg) (v t : Bool) : (x.pwr n v t).xferid = x.xferid := by
  unfold Strand.pwr; split <;> rfl
@[simp] theorem Strand.pwr_routine (x : Strand) (n : PReg) (v t : Bool) : (x.pwr n v t).routine = x.routine := by
  unfold Strand.pwr; split <;> rfl
@[simp] theorem Strand.pwr_rseq (x : Strand) (n : PReg) (v t : Bool) : (x.pwr n v t).rseq = x.rseq := by
  unfold Strand.pwr; split <;> rfl
@[simp] theorem Strand.pwr_rep (x : Strand) (n : PReg) (v t : Bool) : (x.pwr n v t).rep = x.rep := by
  unfold Strand.pwr; split <;> rfl
@[simp] theorem Strand.pwr_run (x : Strand) (n : PReg) (v t : Bool) : (x.pwr n v t).run = x.run := by
  unfold Strand.pwr; split <;> rfl
@[simp] theorem Strand.pwr_hold (x : Strand) (n : PReg) (v t : Bool) : (x.pwr n v t).hold = x.hold := by
  unfold Strand.pwr; split <;> rfl
@[simp] theorem Strand.pwr_took (x : Strand) (n : PReg) (v t : Bool) : (x.pwr n v t).took = x.took := by
  unfold Strand.pwr; split <;> rfl
@[simp] theorem Strand.pwr_tested (x : Strand) (n : PReg) (v t : Bool) : (x.pwr n v t).tested = x.tested := by
  unfold Strand.pwr; split <;> rfl
@[simp] theorem Strand.pwr_yieldTo (x : Strand) (n : PReg) (v t : Bool) : (x.pwr n v t).yieldTo = x.yieldTo := by
  unfold Strand.pwr; split <;> rfl
@[simp] theorem Strand.pwr_xferCount (x : Strand) (n : PReg) (v t : Bool) : (x.pwr n v t).xferCount = x.xferCount := by
  unfold Strand.pwr; split <;> rfl
@[simp] theorem Strand.pwr_msgCount (x : Strand) (n : PReg) (v t : Bool) : (x.pwr n v t).msgCount = x.msgCount := by
  unfold Strand.pwr; split <;> rfl
@[simp] theorem Strand.pwr_launchCount (x : Strand) (n : PReg) (v t : Bool) : (x.pwr n v t).launchCount = x.launchCount := by
  unfold Strand.pwr; split <;> rfl
@[simp] theorem Strand.pwr_collCount (x : Strand) (n : PReg) (v t : Bool) : (x.pwr n v t).collCount = x.collCount := by
  unfold Strand.pwr; split <;> rfl
@[simp] theorem Strand.pwr_redcCount (x : Strand) (n : PReg) (v t : Bool) : (x.pwr n v t).redcCount = x.redcCount := by
  unfold Strand.pwr; split <;> rfl
@[simp] theorem Strand.pwr_uiq (x : Strand) (n : PReg) (v t : Bool) : (x.pwr n v t).uiq = x.uiq := by
  unfold Strand.pwr; split <;> rfl
@[simp] theorem Strand.pwr_slots (x : Strand) (n : PReg) (v t : Bool) : (x.pwr n v t).slots = x.slots := by
  unfold Strand.pwr; split <;> rfl
@[simp] theorem Strand.pwr_immediate (x : Strand) (n : PReg) (v t : Bool) : (x.pwr n v t).immediate = x.immediate := by
  unfold Strand.pwr; split <;> rfl
@[simp] theorem Strand.pwr_fwdq (x : Strand) (n : PReg) (v t : Bool) : (x.pwr n v t).fwdq = x.fwdq := by
  unfold Strand.pwr; split <;> rfl
@[simp] theorem Strand.pwr_fwdHeld (x : Strand) (n : PReg) (v t : Bool) : (x.pwr n v t).fwdHeld = x.fwdHeld := by
  unfold Strand.pwr; split <;> rfl
@[simp] theorem Strand.pwr_standing (x : Strand) (n : PReg) (v t : Bool) : (x.pwr n v t).standing = x.standing := by
  unfold Strand.pwr; split <;> rfl
@[simp] theorem Strand.pwr_issued (x : Strand) (n : PReg) (v t : Bool) : (x.pwr n v t).issued = x.issued := by
  unfold Strand.pwr; split <;> rfl
@[simp] theorem Strand.vwr_s (x : Strand) (n : VReg) (v : Vec) (t : BitVec 64) : (x.vwr n v t).s = x.s := rfl
@[simp] theorem Strand.vwr_stag (x : Strand) (n : VReg) (v : Vec) (t : BitVec 64) : (x.vwr n v t).stag = x.stag := rfl
@[simp] theorem Strand.vwr_p (x : Strand) (n : VReg) (v : Vec) (t : BitVec 64) : (x.vwr n v t).p = x.p := rfl
@[simp] theorem Strand.vwr_ptag (x : Strand) (n : VReg) (v : Vec) (t : BitVec 64) : (x.vwr n v t).ptag = x.ptag := rfl
@[simp] theorem Strand.vwr_q (x : Strand) (n : VReg) (v : Vec) (t : BitVec 64) : (x.vwr n v t).q = x.q := rfl
@[simp] theorem Strand.vwr_qtag (x : Strand) (n : VReg) (v : Vec) (t : BitVec 64) : (x.vwr n v t).qtag = x.qtag := rfl
@[simp] theorem Strand.vwr_k (x : Strand) (n : VReg) (v : Vec) (t : BitVec 64) : (x.vwr n v t).k = x.k := rfl
@[simp] theorem Strand.vwr_pc (x : Strand) (n : VReg) (v : Vec) (t : BitVec 64) : (x.vwr n v t).pc = x.pc := rfl
@[simp] theorem Strand.vwr_status (x : Strand) (n : VReg) (v : Vec) (t : BitVec 64) : (x.vwr n v t).status = x.status := rfl
@[simp] theorem Strand.vwr_trappc (x : Strand) (n : VReg) (v : Vec) (t : BitVec 64) : (x.vwr n v t).trappc = x.trappc := rfl
@[simp] theorem Strand.vwr_trapcause (x : Strand) (n : VReg) (v : Vec) (t : BitVec 64) : (x.vwr n v t).trapcause = x.trapcause := rfl
@[simp] theorem Strand.vwr_trapval (x : Strand) (n : VReg) (v : Vec) (t : BitVec 64) : (x.vwr n v t).trapval = x.trapval := rfl
@[simp] theorem Strand.vwr_tvec (x : Strand) (n : VReg) (v : Vec) (t : BitVec 64) : (x.vwr n v t).tvec = x.tvec := rfl
@[simp] theorem Strand.vwr_scratchsv (x : Strand) (n : VReg) (v : Vec) (t : BitVec 64) : (x.vwr n v t).scratchsv = x.scratchsv := rfl
@[simp] theorem Strand.vwr_uipc (x : Strand) (n : VReg) (v : Vec) (t : BitVec 64) : (x.vwr n v t).uipc = x.uipc := rfl
@[simp] theorem Strand.vwr_xferid (x : Strand) (n : VReg) (v : Vec) (t : BitVec 64) : (x.vwr n v t).xferid = x.xferid := rfl
@[simp] theorem Strand.vwr_routine (x : Strand) (n : VReg) (v : Vec) (t : BitVec 64) : (x.vwr n v t).routine = x.routine := rfl
@[simp] theorem Strand.vwr_rseq (x : Strand) (n : VReg) (v : Vec) (t : BitVec 64) : (x.vwr n v t).rseq = x.rseq := rfl
@[simp] theorem Strand.vwr_rep (x : Strand) (n : VReg) (v : Vec) (t : BitVec 64) : (x.vwr n v t).rep = x.rep := rfl
@[simp] theorem Strand.vwr_run (x : Strand) (n : VReg) (v : Vec) (t : BitVec 64) : (x.vwr n v t).run = x.run := rfl
@[simp] theorem Strand.vwr_hold (x : Strand) (n : VReg) (v : Vec) (t : BitVec 64) : (x.vwr n v t).hold = x.hold := rfl
@[simp] theorem Strand.vwr_took (x : Strand) (n : VReg) (v : Vec) (t : BitVec 64) : (x.vwr n v t).took = x.took := rfl
@[simp] theorem Strand.vwr_tested (x : Strand) (n : VReg) (v : Vec) (t : BitVec 64) : (x.vwr n v t).tested = x.tested := rfl
@[simp] theorem Strand.vwr_yieldTo (x : Strand) (n : VReg) (v : Vec) (t : BitVec 64) : (x.vwr n v t).yieldTo = x.yieldTo := rfl
@[simp] theorem Strand.vwr_xferCount (x : Strand) (n : VReg) (v : Vec) (t : BitVec 64) : (x.vwr n v t).xferCount = x.xferCount := rfl
@[simp] theorem Strand.vwr_msgCount (x : Strand) (n : VReg) (v : Vec) (t : BitVec 64) : (x.vwr n v t).msgCount = x.msgCount := rfl
@[simp] theorem Strand.vwr_launchCount (x : Strand) (n : VReg) (v : Vec) (t : BitVec 64) : (x.vwr n v t).launchCount = x.launchCount := rfl
@[simp] theorem Strand.vwr_collCount (x : Strand) (n : VReg) (v : Vec) (t : BitVec 64) : (x.vwr n v t).collCount = x.collCount := rfl
@[simp] theorem Strand.vwr_redcCount (x : Strand) (n : VReg) (v : Vec) (t : BitVec 64) : (x.vwr n v t).redcCount = x.redcCount := rfl
@[simp] theorem Strand.vwr_uiq (x : Strand) (n : VReg) (v : Vec) (t : BitVec 64) : (x.vwr n v t).uiq = x.uiq := rfl
@[simp] theorem Strand.vwr_slots (x : Strand) (n : VReg) (v : Vec) (t : BitVec 64) : (x.vwr n v t).slots = x.slots := rfl
@[simp] theorem Strand.vwr_immediate (x : Strand) (n : VReg) (v : Vec) (t : BitVec 64) : (x.vwr n v t).immediate = x.immediate := rfl
@[simp] theorem Strand.vwr_fwdq (x : Strand) (n : VReg) (v : Vec) (t : BitVec 64) : (x.vwr n v t).fwdq = x.fwdq := rfl
@[simp] theorem Strand.vwr_fwdHeld (x : Strand) (n : VReg) (v : Vec) (t : BitVec 64) : (x.vwr n v t).fwdHeld = x.fwdHeld := rfl
@[simp] theorem Strand.vwr_standing (x : Strand) (n : VReg) (v : Vec) (t : BitVec 64) : (x.vwr n v t).standing = x.standing := rfl
@[simp] theorem Strand.vwr_issued (x : Strand) (n : VReg) (v : Vec) (t : BitVec 64) : (x.vwr n v t).issued = x.issued := rfl
@[simp] theorem Strand.qwr_s (x : Strand) (n : PReg) (v t : BitVec 64) : (x.qwr n v t).s = x.s := rfl
@[simp] theorem Strand.qwr_stag (x : Strand) (n : PReg) (v t : BitVec 64) : (x.qwr n v t).stag = x.stag := rfl
@[simp] theorem Strand.qwr_p (x : Strand) (n : PReg) (v t : BitVec 64) : (x.qwr n v t).p = x.p := rfl
@[simp] theorem Strand.qwr_ptag (x : Strand) (n : PReg) (v t : BitVec 64) : (x.qwr n v t).ptag = x.ptag := rfl
@[simp] theorem Strand.qwr_v (x : Strand) (n : PReg) (v t : BitVec 64) : (x.qwr n v t).v = x.v := rfl
@[simp] theorem Strand.qwr_vtag (x : Strand) (n : PReg) (v t : BitVec 64) : (x.qwr n v t).vtag = x.vtag := rfl
@[simp] theorem Strand.qwr_k (x : Strand) (n : PReg) (v t : BitVec 64) : (x.qwr n v t).k = x.k := rfl
@[simp] theorem Strand.qwr_pc (x : Strand) (n : PReg) (v t : BitVec 64) : (x.qwr n v t).pc = x.pc := rfl
@[simp] theorem Strand.qwr_status (x : Strand) (n : PReg) (v t : BitVec 64) : (x.qwr n v t).status = x.status := rfl
@[simp] theorem Strand.qwr_trappc (x : Strand) (n : PReg) (v t : BitVec 64) : (x.qwr n v t).trappc = x.trappc := rfl
@[simp] theorem Strand.qwr_trapcause (x : Strand) (n : PReg) (v t : BitVec 64) : (x.qwr n v t).trapcause = x.trapcause := rfl
@[simp] theorem Strand.qwr_trapval (x : Strand) (n : PReg) (v t : BitVec 64) : (x.qwr n v t).trapval = x.trapval := rfl
@[simp] theorem Strand.qwr_tvec (x : Strand) (n : PReg) (v t : BitVec 64) : (x.qwr n v t).tvec = x.tvec := rfl
@[simp] theorem Strand.qwr_scratchsv (x : Strand) (n : PReg) (v t : BitVec 64) : (x.qwr n v t).scratchsv = x.scratchsv := rfl
@[simp] theorem Strand.qwr_uipc (x : Strand) (n : PReg) (v t : BitVec 64) : (x.qwr n v t).uipc = x.uipc := rfl
@[simp] theorem Strand.qwr_xferid (x : Strand) (n : PReg) (v t : BitVec 64) : (x.qwr n v t).xferid = x.xferid := rfl
@[simp] theorem Strand.qwr_routine (x : Strand) (n : PReg) (v t : BitVec 64) : (x.qwr n v t).routine = x.routine := rfl
@[simp] theorem Strand.qwr_rseq (x : Strand) (n : PReg) (v t : BitVec 64) : (x.qwr n v t).rseq = x.rseq := rfl
@[simp] theorem Strand.qwr_rep (x : Strand) (n : PReg) (v t : BitVec 64) : (x.qwr n v t).rep = x.rep := rfl
@[simp] theorem Strand.qwr_run (x : Strand) (n : PReg) (v t : BitVec 64) : (x.qwr n v t).run = x.run := rfl
@[simp] theorem Strand.qwr_hold (x : Strand) (n : PReg) (v t : BitVec 64) : (x.qwr n v t).hold = x.hold := rfl
@[simp] theorem Strand.qwr_took (x : Strand) (n : PReg) (v t : BitVec 64) : (x.qwr n v t).took = x.took := rfl
@[simp] theorem Strand.qwr_tested (x : Strand) (n : PReg) (v t : BitVec 64) : (x.qwr n v t).tested = x.tested := rfl
@[simp] theorem Strand.qwr_yieldTo (x : Strand) (n : PReg) (v t : BitVec 64) : (x.qwr n v t).yieldTo = x.yieldTo := rfl
@[simp] theorem Strand.qwr_xferCount (x : Strand) (n : PReg) (v t : BitVec 64) : (x.qwr n v t).xferCount = x.xferCount := rfl
@[simp] theorem Strand.qwr_msgCount (x : Strand) (n : PReg) (v t : BitVec 64) : (x.qwr n v t).msgCount = x.msgCount := rfl
@[simp] theorem Strand.qwr_launchCount (x : Strand) (n : PReg) (v t : BitVec 64) : (x.qwr n v t).launchCount = x.launchCount := rfl
@[simp] theorem Strand.qwr_collCount (x : Strand) (n : PReg) (v t : BitVec 64) : (x.qwr n v t).collCount = x.collCount := rfl
@[simp] theorem Strand.qwr_redcCount (x : Strand) (n : PReg) (v t : BitVec 64) : (x.qwr n v t).redcCount = x.redcCount := rfl
@[simp] theorem Strand.qwr_uiq (x : Strand) (n : PReg) (v t : BitVec 64) : (x.qwr n v t).uiq = x.uiq := rfl
@[simp] theorem Strand.qwr_slots (x : Strand) (n : PReg) (v t : BitVec 64) : (x.qwr n v t).slots = x.slots := rfl
@[simp] theorem Strand.qwr_immediate (x : Strand) (n : PReg) (v t : BitVec 64) : (x.qwr n v t).immediate = x.immediate := rfl
@[simp] theorem Strand.qwr_fwdq (x : Strand) (n : PReg) (v t : BitVec 64) : (x.qwr n v t).fwdq = x.fwdq := rfl
@[simp] theorem Strand.qwr_fwdHeld (x : Strand) (n : PReg) (v t : BitVec 64) : (x.qwr n v t).fwdHeld = x.fwdHeld := rfl
@[simp] theorem Strand.qwr_standing (x : Strand) (n : PReg) (v t : BitVec 64) : (x.qwr n v t).standing = x.standing := rfl
@[simp] theorem Strand.qwr_issued (x : Strand) (n : PReg) (v t : BitVec 64) : (x.qwr n v t).issued = x.issued := rfl
@[simp] theorem Strand.kwr_s (x : Strand) (n : BitVec 3) (v : BitVec 64) : (x.kwr n v).s = x.s := rfl
@[simp] theorem Strand.kwr_stag (x : Strand) (n : BitVec 3) (v : BitVec 64) : (x.kwr n v).stag = x.stag := rfl
@[simp] theorem Strand.kwr_p (x : Strand) (n : BitVec 3) (v : BitVec 64) : (x.kwr n v).p = x.p := rfl
@[simp] theorem Strand.kwr_ptag (x : Strand) (n : BitVec 3) (v : BitVec 64) : (x.kwr n v).ptag = x.ptag := rfl
@[simp] theorem Strand.kwr_v (x : Strand) (n : BitVec 3) (v : BitVec 64) : (x.kwr n v).v = x.v := rfl
@[simp] theorem Strand.kwr_vtag (x : Strand) (n : BitVec 3) (v : BitVec 64) : (x.kwr n v).vtag = x.vtag := rfl
@[simp] theorem Strand.kwr_q (x : Strand) (n : BitVec 3) (v : BitVec 64) : (x.kwr n v).q = x.q := rfl
@[simp] theorem Strand.kwr_qtag (x : Strand) (n : BitVec 3) (v : BitVec 64) : (x.kwr n v).qtag = x.qtag := rfl
@[simp] theorem Strand.kwr_pc (x : Strand) (n : BitVec 3) (v : BitVec 64) : (x.kwr n v).pc = x.pc := rfl
@[simp] theorem Strand.kwr_status (x : Strand) (n : BitVec 3) (v : BitVec 64) : (x.kwr n v).status = x.status := rfl
@[simp] theorem Strand.kwr_trappc (x : Strand) (n : BitVec 3) (v : BitVec 64) : (x.kwr n v).trappc = x.trappc := rfl
@[simp] theorem Strand.kwr_trapcause (x : Strand) (n : BitVec 3) (v : BitVec 64) : (x.kwr n v).trapcause = x.trapcause := rfl
@[simp] theorem Strand.kwr_trapval (x : Strand) (n : BitVec 3) (v : BitVec 64) : (x.kwr n v).trapval = x.trapval := rfl
@[simp] theorem Strand.kwr_tvec (x : Strand) (n : BitVec 3) (v : BitVec 64) : (x.kwr n v).tvec = x.tvec := rfl
@[simp] theorem Strand.kwr_scratchsv (x : Strand) (n : BitVec 3) (v : BitVec 64) : (x.kwr n v).scratchsv = x.scratchsv := rfl
@[simp] theorem Strand.kwr_uipc (x : Strand) (n : BitVec 3) (v : BitVec 64) : (x.kwr n v).uipc = x.uipc := rfl
@[simp] theorem Strand.kwr_xferid (x : Strand) (n : BitVec 3) (v : BitVec 64) : (x.kwr n v).xferid = x.xferid := rfl
@[simp] theorem Strand.kwr_routine (x : Strand) (n : BitVec 3) (v : BitVec 64) : (x.kwr n v).routine = x.routine := rfl
@[simp] theorem Strand.kwr_rseq (x : Strand) (n : BitVec 3) (v : BitVec 64) : (x.kwr n v).rseq = x.rseq := rfl
@[simp] theorem Strand.kwr_rep (x : Strand) (n : BitVec 3) (v : BitVec 64) : (x.kwr n v).rep = x.rep := rfl
@[simp] theorem Strand.kwr_run (x : Strand) (n : BitVec 3) (v : BitVec 64) : (x.kwr n v).run = x.run := rfl
@[simp] theorem Strand.kwr_hold (x : Strand) (n : BitVec 3) (v : BitVec 64) : (x.kwr n v).hold = x.hold := rfl
@[simp] theorem Strand.kwr_took (x : Strand) (n : BitVec 3) (v : BitVec 64) : (x.kwr n v).took = x.took := rfl
@[simp] theorem Strand.kwr_tested (x : Strand) (n : BitVec 3) (v : BitVec 64) : (x.kwr n v).tested = x.tested := rfl
@[simp] theorem Strand.kwr_yieldTo (x : Strand) (n : BitVec 3) (v : BitVec 64) : (x.kwr n v).yieldTo = x.yieldTo := rfl
@[simp] theorem Strand.kwr_xferCount (x : Strand) (n : BitVec 3) (v : BitVec 64) : (x.kwr n v).xferCount = x.xferCount := rfl
@[simp] theorem Strand.kwr_msgCount (x : Strand) (n : BitVec 3) (v : BitVec 64) : (x.kwr n v).msgCount = x.msgCount := rfl
@[simp] theorem Strand.kwr_launchCount (x : Strand) (n : BitVec 3) (v : BitVec 64) : (x.kwr n v).launchCount = x.launchCount := rfl
@[simp] theorem Strand.kwr_collCount (x : Strand) (n : BitVec 3) (v : BitVec 64) : (x.kwr n v).collCount = x.collCount := rfl
@[simp] theorem Strand.kwr_redcCount (x : Strand) (n : BitVec 3) (v : BitVec 64) : (x.kwr n v).redcCount = x.redcCount := rfl
@[simp] theorem Strand.kwr_uiq (x : Strand) (n : BitVec 3) (v : BitVec 64) : (x.kwr n v).uiq = x.uiq := rfl
@[simp] theorem Strand.kwr_slots (x : Strand) (n : BitVec 3) (v : BitVec 64) : (x.kwr n v).slots = x.slots := rfl
@[simp] theorem Strand.kwr_immediate (x : Strand) (n : BitVec 3) (v : BitVec 64) : (x.kwr n v).immediate = x.immediate := rfl
@[simp] theorem Strand.kwr_fwdq (x : Strand) (n : BitVec 3) (v : BitVec 64) : (x.kwr n v).fwdq = x.fwdq := rfl
@[simp] theorem Strand.kwr_fwdHeld (x : Strand) (n : BitVec 3) (v : BitVec 64) : (x.kwr n v).fwdHeld = x.fwdHeld := rfl
@[simp] theorem Strand.kwr_standing (x : Strand) (n : BitVec 3) (v : BitVec 64) : (x.kwr n v).standing = x.standing := rfl
@[simp] theorem Strand.kwr_issued (x : Strand) (n : BitVec 3) (v : BitVec 64) : (x.kwr n v).issued = x.issued := rfl
@[simp] theorem Strand.setSt_s (x : Strand) (lo len v : Nat) : (x.setSt lo len v).s = x.s := rfl
@[simp] theorem Strand.setSt_stag (x : Strand) (lo len v : Nat) : (x.setSt lo len v).stag = x.stag := rfl
@[simp] theorem Strand.setSt_p (x : Strand) (lo len v : Nat) : (x.setSt lo len v).p = x.p := rfl
@[simp] theorem Strand.setSt_ptag (x : Strand) (lo len v : Nat) : (x.setSt lo len v).ptag = x.ptag := rfl
@[simp] theorem Strand.setSt_v (x : Strand) (lo len v : Nat) : (x.setSt lo len v).v = x.v := rfl
@[simp] theorem Strand.setSt_vtag (x : Strand) (lo len v : Nat) : (x.setSt lo len v).vtag = x.vtag := rfl
@[simp] theorem Strand.setSt_q (x : Strand) (lo len v : Nat) : (x.setSt lo len v).q = x.q := rfl
@[simp] theorem Strand.setSt_qtag (x : Strand) (lo len v : Nat) : (x.setSt lo len v).qtag = x.qtag := rfl
@[simp] theorem Strand.setSt_k (x : Strand) (lo len v : Nat) : (x.setSt lo len v).k = x.k := rfl
@[simp] theorem Strand.setSt_pc (x : Strand) (lo len v : Nat) : (x.setSt lo len v).pc = x.pc := rfl
@[simp] theorem Strand.setSt_trappc (x : Strand) (lo len v : Nat) : (x.setSt lo len v).trappc = x.trappc := rfl
@[simp] theorem Strand.setSt_trapcause (x : Strand) (lo len v : Nat) : (x.setSt lo len v).trapcause = x.trapcause := rfl
@[simp] theorem Strand.setSt_trapval (x : Strand) (lo len v : Nat) : (x.setSt lo len v).trapval = x.trapval := rfl
@[simp] theorem Strand.setSt_tvec (x : Strand) (lo len v : Nat) : (x.setSt lo len v).tvec = x.tvec := rfl
@[simp] theorem Strand.setSt_scratchsv (x : Strand) (lo len v : Nat) : (x.setSt lo len v).scratchsv = x.scratchsv := rfl
@[simp] theorem Strand.setSt_uipc (x : Strand) (lo len v : Nat) : (x.setSt lo len v).uipc = x.uipc := rfl
@[simp] theorem Strand.setSt_xferid (x : Strand) (lo len v : Nat) : (x.setSt lo len v).xferid = x.xferid := rfl
@[simp] theorem Strand.setSt_routine (x : Strand) (lo len v : Nat) : (x.setSt lo len v).routine = x.routine := rfl
@[simp] theorem Strand.setSt_rseq (x : Strand) (lo len v : Nat) : (x.setSt lo len v).rseq = x.rseq := rfl
@[simp] theorem Strand.setSt_rep (x : Strand) (lo len v : Nat) : (x.setSt lo len v).rep = x.rep := rfl
@[simp] theorem Strand.setSt_run (x : Strand) (lo len v : Nat) : (x.setSt lo len v).run = x.run := rfl
@[simp] theorem Strand.setSt_hold (x : Strand) (lo len v : Nat) : (x.setSt lo len v).hold = x.hold := rfl
@[simp] theorem Strand.setSt_took (x : Strand) (lo len v : Nat) : (x.setSt lo len v).took = x.took := rfl
@[simp] theorem Strand.setSt_tested (x : Strand) (lo len v : Nat) : (x.setSt lo len v).tested = x.tested := rfl
@[simp] theorem Strand.setSt_yieldTo (x : Strand) (lo len v : Nat) : (x.setSt lo len v).yieldTo = x.yieldTo := rfl
@[simp] theorem Strand.setSt_xferCount (x : Strand) (lo len v : Nat) : (x.setSt lo len v).xferCount = x.xferCount := rfl
@[simp] theorem Strand.setSt_msgCount (x : Strand) (lo len v : Nat) : (x.setSt lo len v).msgCount = x.msgCount := rfl
@[simp] theorem Strand.setSt_launchCount (x : Strand) (lo len v : Nat) : (x.setSt lo len v).launchCount = x.launchCount := rfl
@[simp] theorem Strand.setSt_collCount (x : Strand) (lo len v : Nat) : (x.setSt lo len v).collCount = x.collCount := rfl
@[simp] theorem Strand.setSt_redcCount (x : Strand) (lo len v : Nat) : (x.setSt lo len v).redcCount = x.redcCount := rfl
@[simp] theorem Strand.setSt_uiq (x : Strand) (lo len v : Nat) : (x.setSt lo len v).uiq = x.uiq := rfl
@[simp] theorem Strand.setSt_slots (x : Strand) (lo len v : Nat) : (x.setSt lo len v).slots = x.slots := rfl
@[simp] theorem Strand.setSt_immediate (x : Strand) (lo len v : Nat) : (x.setSt lo len v).immediate = x.immediate := rfl
@[simp] theorem Strand.setSt_fwdq (x : Strand) (lo len v : Nat) : (x.setSt lo len v).fwdq = x.fwdq := rfl
@[simp] theorem Strand.setSt_fwdHeld (x : Strand) (lo len v : Nat) : (x.setSt lo len v).fwdHeld = x.fwdHeld := rfl
@[simp] theorem Strand.setSt_standing (x : Strand) (lo len v : Nat) : (x.setSt lo len v).standing = x.standing := rfl
@[simp] theorem Strand.setSt_issued (x : Strand) (lo len v : Nat) : (x.setSt lo len v).issued = x.issued := rfl
@[simp] theorem Strand.setWt_s (x : Strand) (b : Bool) : (x.setWt b).s = x.s := rfl
@[simp] theorem Strand.setWt_stag (x : Strand) (b : Bool) : (x.setWt b).stag = x.stag := rfl
@[simp] theorem Strand.setWt_p (x : Strand) (b : Bool) : (x.setWt b).p = x.p := rfl
@[simp] theorem Strand.setWt_ptag (x : Strand) (b : Bool) : (x.setWt b).ptag = x.ptag := rfl
@[simp] theorem Strand.setWt_v (x : Strand) (b : Bool) : (x.setWt b).v = x.v := rfl
@[simp] theorem Strand.setWt_vtag (x : Strand) (b : Bool) : (x.setWt b).vtag = x.vtag := rfl
@[simp] theorem Strand.setWt_q (x : Strand) (b : Bool) : (x.setWt b).q = x.q := rfl
@[simp] theorem Strand.setWt_qtag (x : Strand) (b : Bool) : (x.setWt b).qtag = x.qtag := rfl
@[simp] theorem Strand.setWt_k (x : Strand) (b : Bool) : (x.setWt b).k = x.k := rfl
@[simp] theorem Strand.setWt_pc (x : Strand) (b : Bool) : (x.setWt b).pc = x.pc := rfl
@[simp] theorem Strand.setWt_trappc (x : Strand) (b : Bool) : (x.setWt b).trappc = x.trappc := rfl
@[simp] theorem Strand.setWt_trapcause (x : Strand) (b : Bool) : (x.setWt b).trapcause = x.trapcause := rfl
@[simp] theorem Strand.setWt_trapval (x : Strand) (b : Bool) : (x.setWt b).trapval = x.trapval := rfl
@[simp] theorem Strand.setWt_tvec (x : Strand) (b : Bool) : (x.setWt b).tvec = x.tvec := rfl
@[simp] theorem Strand.setWt_scratchsv (x : Strand) (b : Bool) : (x.setWt b).scratchsv = x.scratchsv := rfl
@[simp] theorem Strand.setWt_uipc (x : Strand) (b : Bool) : (x.setWt b).uipc = x.uipc := rfl
@[simp] theorem Strand.setWt_xferid (x : Strand) (b : Bool) : (x.setWt b).xferid = x.xferid := rfl
@[simp] theorem Strand.setWt_routine (x : Strand) (b : Bool) : (x.setWt b).routine = x.routine := rfl
@[simp] theorem Strand.setWt_rseq (x : Strand) (b : Bool) : (x.setWt b).rseq = x.rseq := rfl
@[simp] theorem Strand.setWt_rep (x : Strand) (b : Bool) : (x.setWt b).rep = x.rep := rfl
@[simp] theorem Strand.setWt_run (x : Strand) (b : Bool) : (x.setWt b).run = x.run := rfl
@[simp] theorem Strand.setWt_hold (x : Strand) (b : Bool) : (x.setWt b).hold = x.hold := rfl
@[simp] theorem Strand.setWt_took (x : Strand) (b : Bool) : (x.setWt b).took = x.took := rfl
@[simp] theorem Strand.setWt_tested (x : Strand) (b : Bool) : (x.setWt b).tested = x.tested := rfl
@[simp] theorem Strand.setWt_yieldTo (x : Strand) (b : Bool) : (x.setWt b).yieldTo = x.yieldTo := rfl
@[simp] theorem Strand.setWt_xferCount (x : Strand) (b : Bool) : (x.setWt b).xferCount = x.xferCount := rfl
@[simp] theorem Strand.setWt_msgCount (x : Strand) (b : Bool) : (x.setWt b).msgCount = x.msgCount := rfl
@[simp] theorem Strand.setWt_launchCount (x : Strand) (b : Bool) : (x.setWt b).launchCount = x.launchCount := rfl
@[simp] theorem Strand.setWt_collCount (x : Strand) (b : Bool) : (x.setWt b).collCount = x.collCount := rfl
@[simp] theorem Strand.setWt_redcCount (x : Strand) (b : Bool) : (x.setWt b).redcCount = x.redcCount := rfl
@[simp] theorem Strand.setWt_uiq (x : Strand) (b : Bool) : (x.setWt b).uiq = x.uiq := rfl
@[simp] theorem Strand.setWt_slots (x : Strand) (b : Bool) : (x.setWt b).slots = x.slots := rfl
@[simp] theorem Strand.setWt_immediate (x : Strand) (b : Bool) : (x.setWt b).immediate = x.immediate := rfl
@[simp] theorem Strand.setWt_fwdq (x : Strand) (b : Bool) : (x.setWt b).fwdq = x.fwdq := rfl
@[simp] theorem Strand.setWt_fwdHeld (x : Strand) (b : Bool) : (x.setWt b).fwdHeld = x.fwdHeld := rfl
@[simp] theorem Strand.setWt_standing (x : Strand) (b : Bool) : (x.setWt b).standing = x.standing := rfl
@[simp] theorem Strand.setWt_issued (x : Strand) (b : Bool) : (x.setWt b).issued = x.issued := rfl
@[simp] theorem Strand.clearPrefix_s (x : Strand) : (x.clearPrefix).s = x.s := rfl
@[simp] theorem Strand.clearPrefix_stag (x : Strand) : (x.clearPrefix).stag = x.stag := rfl
@[simp] theorem Strand.clearPrefix_p (x : Strand) : (x.clearPrefix).p = x.p := rfl
@[simp] theorem Strand.clearPrefix_ptag (x : Strand) : (x.clearPrefix).ptag = x.ptag := rfl
@[simp] theorem Strand.clearPrefix_v (x : Strand) : (x.clearPrefix).v = x.v := rfl
@[simp] theorem Strand.clearPrefix_vtag (x : Strand) : (x.clearPrefix).vtag = x.vtag := rfl
@[simp] theorem Strand.clearPrefix_q (x : Strand) : (x.clearPrefix).q = x.q := rfl
@[simp] theorem Strand.clearPrefix_qtag (x : Strand) : (x.clearPrefix).qtag = x.qtag := rfl
@[simp] theorem Strand.clearPrefix_k (x : Strand) : (x.clearPrefix).k = x.k := rfl
@[simp] theorem Strand.clearPrefix_pc (x : Strand) : (x.clearPrefix).pc = x.pc := rfl
@[simp] theorem Strand.clearPrefix_trappc (x : Strand) : (x.clearPrefix).trappc = x.trappc := rfl
@[simp] theorem Strand.clearPrefix_trapcause (x : Strand) : (x.clearPrefix).trapcause = x.trapcause := rfl
@[simp] theorem Strand.clearPrefix_trapval (x : Strand) : (x.clearPrefix).trapval = x.trapval := rfl
@[simp] theorem Strand.clearPrefix_tvec (x : Strand) : (x.clearPrefix).tvec = x.tvec := rfl
@[simp] theorem Strand.clearPrefix_scratchsv (x : Strand) : (x.clearPrefix).scratchsv = x.scratchsv := rfl
@[simp] theorem Strand.clearPrefix_uipc (x : Strand) : (x.clearPrefix).uipc = x.uipc := rfl
@[simp] theorem Strand.clearPrefix_xferid (x : Strand) : (x.clearPrefix).xferid = x.xferid := rfl
@[simp] theorem Strand.clearPrefix_routine (x : Strand) : (x.clearPrefix).routine = x.routine := rfl
@[simp] theorem Strand.clearPrefix_rseq (x : Strand) : (x.clearPrefix).rseq = x.rseq := rfl
@[simp] theorem Strand.clearPrefix_rep (x : Strand) : (x.clearPrefix).rep = x.rep := rfl
@[simp] theorem Strand.clearPrefix_run (x : Strand) : (x.clearPrefix).run = x.run := rfl
@[simp] theorem Strand.clearPrefix_hold (x : Strand) : (x.clearPrefix).hold = x.hold := rfl
@[simp] theorem Strand.clearPrefix_took (x : Strand) : (x.clearPrefix).took = x.took := rfl
@[simp] theorem Strand.clearPrefix_tested (x : Strand) : (x.clearPrefix).tested = x.tested := rfl
@[simp] theorem Strand.clearPrefix_yieldTo (x : Strand) : (x.clearPrefix).yieldTo = x.yieldTo := rfl
@[simp] theorem Strand.clearPrefix_xferCount (x : Strand) : (x.clearPrefix).xferCount = x.xferCount := rfl
@[simp] theorem Strand.clearPrefix_msgCount (x : Strand) : (x.clearPrefix).msgCount = x.msgCount := rfl
@[simp] theorem Strand.clearPrefix_launchCount (x : Strand) : (x.clearPrefix).launchCount = x.launchCount := rfl
@[simp] theorem Strand.clearPrefix_collCount (x : Strand) : (x.clearPrefix).collCount = x.collCount := rfl
@[simp] theorem Strand.clearPrefix_redcCount (x : Strand) : (x.clearPrefix).redcCount = x.redcCount := rfl
@[simp] theorem Strand.clearPrefix_uiq (x : Strand) : (x.clearPrefix).uiq = x.uiq := rfl
@[simp] theorem Strand.clearPrefix_slots (x : Strand) : (x.clearPrefix).slots = x.slots := rfl
@[simp] theorem Strand.clearPrefix_immediate (x : Strand) : (x.clearPrefix).immediate = x.immediate := rfl
@[simp] theorem Strand.clearPrefix_fwdq (x : Strand) : (x.clearPrefix).fwdq = x.fwdq := rfl
@[simp] theorem Strand.clearPrefix_fwdHeld (x : Strand) : (x.clearPrefix).fwdHeld = x.fwdHeld := rfl
@[simp] theorem Strand.clearPrefix_standing (x : Strand) : (x.clearPrefix).standing = x.standing := rfl
@[simp] theorem Strand.clearPrefix_issued (x : Strand) : (x.clearPrefix).issued = x.issued := rfl
@[simp] theorem Strand.record_s (x : Strand) (c : Nat) (pc : Pc) (v : Word) : (x.record c pc v).s = x.s := rfl
@[simp] theorem Strand.record_stag (x : Strand) (c : Nat) (pc : Pc) (v : Word) : (x.record c pc v).stag = x.stag := rfl
@[simp] theorem Strand.record_p (x : Strand) (c : Nat) (pc : Pc) (v : Word) : (x.record c pc v).p = x.p := rfl
@[simp] theorem Strand.record_ptag (x : Strand) (c : Nat) (pc : Pc) (v : Word) : (x.record c pc v).ptag = x.ptag := rfl
@[simp] theorem Strand.record_v (x : Strand) (c : Nat) (pc : Pc) (v : Word) : (x.record c pc v).v = x.v := rfl
@[simp] theorem Strand.record_vtag (x : Strand) (c : Nat) (pc : Pc) (v : Word) : (x.record c pc v).vtag = x.vtag := rfl
@[simp] theorem Strand.record_q (x : Strand) (c : Nat) (pc : Pc) (v : Word) : (x.record c pc v).q = x.q := rfl
@[simp] theorem Strand.record_qtag (x : Strand) (c : Nat) (pc : Pc) (v : Word) : (x.record c pc v).qtag = x.qtag := rfl
@[simp] theorem Strand.record_k (x : Strand) (c : Nat) (pc : Pc) (v : Word) : (x.record c pc v).k = x.k := rfl
@[simp] theorem Strand.record_pc (x : Strand) (c : Nat) (pc : Pc) (v : Word) : (x.record c pc v).pc = x.pc := rfl
@[simp] theorem Strand.record_status (x : Strand) (c : Nat) (pc : Pc) (v : Word) : (x.record c pc v).status = x.status := rfl
@[simp] theorem Strand.record_tvec (x : Strand) (c : Nat) (pc : Pc) (v : Word) : (x.record c pc v).tvec = x.tvec := rfl
@[simp] theorem Strand.record_scratchsv (x : Strand) (c : Nat) (pc : Pc) (v : Word) : (x.record c pc v).scratchsv = x.scratchsv := rfl
@[simp] theorem Strand.record_uipc (x : Strand) (c : Nat) (pc : Pc) (v : Word) : (x.record c pc v).uipc = x.uipc := rfl
@[simp] theorem Strand.record_xferid (x : Strand) (c : Nat) (pc : Pc) (v : Word) : (x.record c pc v).xferid = x.xferid := rfl
@[simp] theorem Strand.record_routine (x : Strand) (c : Nat) (pc : Pc) (v : Word) : (x.record c pc v).routine = x.routine := rfl
@[simp] theorem Strand.record_rseq (x : Strand) (c : Nat) (pc : Pc) (v : Word) : (x.record c pc v).rseq = x.rseq := rfl
@[simp] theorem Strand.record_rep (x : Strand) (c : Nat) (pc : Pc) (v : Word) : (x.record c pc v).rep = x.rep := rfl
@[simp] theorem Strand.record_run (x : Strand) (c : Nat) (pc : Pc) (v : Word) : (x.record c pc v).run = x.run := rfl
@[simp] theorem Strand.record_hold (x : Strand) (c : Nat) (pc : Pc) (v : Word) : (x.record c pc v).hold = x.hold := rfl
@[simp] theorem Strand.record_took (x : Strand) (c : Nat) (pc : Pc) (v : Word) : (x.record c pc v).took = x.took := rfl
@[simp] theorem Strand.record_tested (x : Strand) (c : Nat) (pc : Pc) (v : Word) : (x.record c pc v).tested = x.tested := rfl
@[simp] theorem Strand.record_yieldTo (x : Strand) (c : Nat) (pc : Pc) (v : Word) : (x.record c pc v).yieldTo = x.yieldTo := rfl
@[simp] theorem Strand.record_xferCount (x : Strand) (c : Nat) (pc : Pc) (v : Word) : (x.record c pc v).xferCount = x.xferCount := rfl
@[simp] theorem Strand.record_msgCount (x : Strand) (c : Nat) (pc : Pc) (v : Word) : (x.record c pc v).msgCount = x.msgCount := rfl
@[simp] theorem Strand.record_launchCount (x : Strand) (c : Nat) (pc : Pc) (v : Word) : (x.record c pc v).launchCount = x.launchCount := rfl
@[simp] theorem Strand.record_collCount (x : Strand) (c : Nat) (pc : Pc) (v : Word) : (x.record c pc v).collCount = x.collCount := rfl
@[simp] theorem Strand.record_redcCount (x : Strand) (c : Nat) (pc : Pc) (v : Word) : (x.record c pc v).redcCount = x.redcCount := rfl
@[simp] theorem Strand.record_uiq (x : Strand) (c : Nat) (pc : Pc) (v : Word) : (x.record c pc v).uiq = x.uiq := rfl
@[simp] theorem Strand.record_slots (x : Strand) (c : Nat) (pc : Pc) (v : Word) : (x.record c pc v).slots = x.slots := rfl
@[simp] theorem Strand.record_immediate (x : Strand) (c : Nat) (pc : Pc) (v : Word) : (x.record c pc v).immediate = x.immediate := rfl
@[simp] theorem Strand.record_fwdq (x : Strand) (c : Nat) (pc : Pc) (v : Word) : (x.record c pc v).fwdq = x.fwdq := rfl
@[simp] theorem Strand.record_fwdHeld (x : Strand) (c : Nat) (pc : Pc) (v : Word) : (x.record c pc v).fwdHeld = x.fwdHeld := rfl
@[simp] theorem Strand.record_standing (x : Strand) (c : Nat) (pc : Pc) (v : Word) : (x.record c pc v).standing = x.standing := rfl
@[simp] theorem Strand.record_issued (x : Strand) (c : Nat) (pc : Pc) (v : Word) : (x.record c pc v).issued = x.issued := rfl
@[simp] theorem Strand.leaveHandler_s (x : Strand) : (x.leaveHandler).s = x.s := rfl
@[simp] theorem Strand.leaveHandler_stag (x : Strand) : (x.leaveHandler).stag = x.stag := rfl
@[simp] theorem Strand.leaveHandler_p (x : Strand) : (x.leaveHandler).p = x.p := rfl
@[simp] theorem Strand.leaveHandler_ptag (x : Strand) : (x.leaveHandler).ptag = x.ptag := rfl
@[simp] theorem Strand.leaveHandler_v (x : Strand) : (x.leaveHandler).v = x.v := rfl
@[simp] theorem Strand.leaveHandler_vtag (x : Strand) : (x.leaveHandler).vtag = x.vtag := rfl
@[simp] theorem Strand.leaveHandler_q (x : Strand) : (x.leaveHandler).q = x.q := rfl
@[simp] theorem Strand.leaveHandler_qtag (x : Strand) : (x.leaveHandler).qtag = x.qtag := rfl
@[simp] theorem Strand.leaveHandler_k (x : Strand) : (x.leaveHandler).k = x.k := rfl
@[simp] theorem Strand.leaveHandler_pc (x : Strand) : (x.leaveHandler).pc = x.pc := rfl
@[simp] theorem Strand.leaveHandler_trappc (x : Strand) : (x.leaveHandler).trappc = x.trappc := rfl
@[simp] theorem Strand.leaveHandler_trapcause (x : Strand) : (x.leaveHandler).trapcause = x.trapcause := rfl
@[simp] theorem Strand.leaveHandler_trapval (x : Strand) : (x.leaveHandler).trapval = x.trapval := rfl
@[simp] theorem Strand.leaveHandler_tvec (x : Strand) : (x.leaveHandler).tvec = x.tvec := rfl
@[simp] theorem Strand.leaveHandler_scratchsv (x : Strand) : (x.leaveHandler).scratchsv = x.scratchsv := rfl
@[simp] theorem Strand.leaveHandler_uipc (x : Strand) : (x.leaveHandler).uipc = x.uipc := rfl
@[simp] theorem Strand.leaveHandler_xferid (x : Strand) : (x.leaveHandler).xferid = x.xferid := rfl
@[simp] theorem Strand.leaveHandler_routine (x : Strand) : (x.leaveHandler).routine = x.routine := rfl
@[simp] theorem Strand.leaveHandler_rseq (x : Strand) : (x.leaveHandler).rseq = x.rseq := rfl
@[simp] theorem Strand.leaveHandler_rep (x : Strand) : (x.leaveHandler).rep = x.rep := rfl
@[simp] theorem Strand.leaveHandler_run (x : Strand) : (x.leaveHandler).run = x.run := rfl
@[simp] theorem Strand.leaveHandler_hold (x : Strand) : (x.leaveHandler).hold = x.hold := rfl
@[simp] theorem Strand.leaveHandler_took (x : Strand) : (x.leaveHandler).took = x.took := rfl
@[simp] theorem Strand.leaveHandler_tested (x : Strand) : (x.leaveHandler).tested = x.tested := rfl
@[simp] theorem Strand.leaveHandler_yieldTo (x : Strand) : (x.leaveHandler).yieldTo = x.yieldTo := rfl
@[simp] theorem Strand.leaveHandler_xferCount (x : Strand) : (x.leaveHandler).xferCount = x.xferCount := rfl
@[simp] theorem Strand.leaveHandler_msgCount (x : Strand) : (x.leaveHandler).msgCount = x.msgCount := rfl
@[simp] theorem Strand.leaveHandler_launchCount (x : Strand) : (x.leaveHandler).launchCount = x.launchCount := rfl
@[simp] theorem Strand.leaveHandler_collCount (x : Strand) : (x.leaveHandler).collCount = x.collCount := rfl
@[simp] theorem Strand.leaveHandler_redcCount (x : Strand) : (x.leaveHandler).redcCount = x.redcCount := rfl
@[simp] theorem Strand.leaveHandler_uiq (x : Strand) : (x.leaveHandler).uiq = x.uiq := rfl
@[simp] theorem Strand.leaveHandler_slots (x : Strand) : (x.leaveHandler).slots = x.slots := rfl
@[simp] theorem Strand.leaveHandler_immediate (x : Strand) : (x.leaveHandler).immediate = x.immediate := rfl
@[simp] theorem Strand.leaveHandler_fwdq (x : Strand) : (x.leaveHandler).fwdq = x.fwdq := rfl
@[simp] theorem Strand.leaveHandler_fwdHeld (x : Strand) : (x.leaveHandler).fwdHeld = x.fwdHeld := rfl
@[simp] theorem Strand.leaveHandler_standing (x : Strand) : (x.leaveHandler).standing = x.standing := rfl
@[simp] theorem Strand.leaveHandler_issued (x : Strand) : (x.leaveHandler).issued = x.issued := rfl
@[simp] theorem Strand.enterHandler_s (x : Strand) : (x.enterHandler).s = x.s := rfl
@[simp] theorem Strand.enterHandler_stag (x : Strand) : (x.enterHandler).stag = x.stag := rfl
@[simp] theorem Strand.enterHandler_p (x : Strand) : (x.enterHandler).p = x.p := rfl
@[simp] theorem Strand.enterHandler_ptag (x : Strand) : (x.enterHandler).ptag = x.ptag := rfl
@[simp] theorem Strand.enterHandler_v (x : Strand) : (x.enterHandler).v = x.v := rfl
@[simp] theorem Strand.enterHandler_vtag (x : Strand) : (x.enterHandler).vtag = x.vtag := rfl
@[simp] theorem Strand.enterHandler_q (x : Strand) : (x.enterHandler).q = x.q := rfl
@[simp] theorem Strand.enterHandler_qtag (x : Strand) : (x.enterHandler).qtag = x.qtag := rfl
@[simp] theorem Strand.enterHandler_k (x : Strand) : (x.enterHandler).k = x.k := rfl
@[simp] theorem Strand.enterHandler_trappc (x : Strand) : (x.enterHandler).trappc = x.trappc := rfl
@[simp] theorem Strand.enterHandler_trapcause (x : Strand) : (x.enterHandler).trapcause = x.trapcause := rfl
@[simp] theorem Strand.enterHandler_trapval (x : Strand) : (x.enterHandler).trapval = x.trapval := rfl
@[simp] theorem Strand.enterHandler_tvec (x : Strand) : (x.enterHandler).tvec = x.tvec := rfl
@[simp] theorem Strand.enterHandler_scratchsv (x : Strand) : (x.enterHandler).scratchsv = x.scratchsv := rfl
@[simp] theorem Strand.enterHandler_uipc (x : Strand) : (x.enterHandler).uipc = x.uipc := rfl
@[simp] theorem Strand.enterHandler_xferid (x : Strand) : (x.enterHandler).xferid = x.xferid := rfl
@[simp] theorem Strand.enterHandler_routine (x : Strand) : (x.enterHandler).routine = x.routine := rfl
@[simp] theorem Strand.enterHandler_rseq (x : Strand) : (x.enterHandler).rseq = x.rseq := rfl
@[simp] theorem Strand.enterHandler_rep (x : Strand) : (x.enterHandler).rep = x.rep := rfl
@[simp] theorem Strand.enterHandler_yieldTo (x : Strand) : (x.enterHandler).yieldTo = x.yieldTo := rfl
@[simp] theorem Strand.enterHandler_xferCount (x : Strand) : (x.enterHandler).xferCount = x.xferCount := rfl
@[simp] theorem Strand.enterHandler_msgCount (x : Strand) : (x.enterHandler).msgCount = x.msgCount := rfl
@[simp] theorem Strand.enterHandler_launchCount (x : Strand) : (x.enterHandler).launchCount = x.launchCount := rfl
@[simp] theorem Strand.enterHandler_collCount (x : Strand) : (x.enterHandler).collCount = x.collCount := rfl
@[simp] theorem Strand.enterHandler_redcCount (x : Strand) : (x.enterHandler).redcCount = x.redcCount := rfl
@[simp] theorem Strand.enterHandler_uiq (x : Strand) : (x.enterHandler).uiq = x.uiq := rfl
@[simp] theorem Strand.enterHandler_slots (x : Strand) : (x.enterHandler).slots = x.slots := rfl
@[simp] theorem Strand.enterHandler_immediate (x : Strand) : (x.enterHandler).immediate = x.immediate := rfl
@[simp] theorem Strand.enterHandler_fwdq (x : Strand) : (x.enterHandler).fwdq = x.fwdq := rfl
@[simp] theorem Strand.enterHandler_fwdHeld (x : Strand) : (x.enterHandler).fwdHeld = x.fwdHeld := rfl
@[simp] theorem Strand.enterHandler_standing (x : Strand) : (x.enterHandler).standing = x.standing := rfl
@[simp] theorem Strand.enterHandler_issued (x : Strand) : (x.enterHandler).issued = x.issued := rfl

theorem getLsbD_withBit {w : Nat} (x : BitVec w) (i j : Nat) (b : Bool) :
    (withBit x i b).getLsbD j = if j = i ∧ j < w then b else x.getLsbD j := by
  have ht : (1 <<< i).testBit j = decide (i = j) := by rw [Nat.one_shiftLeft, Nat.testBit_two_pow]
  have hx : ¬ j < w → x.getLsbD j = false := fun h => BitVec.getLsbD_of_ge _ _ (by omega)
  cases b <;>
    simp only [withBit, if_true, Bool.false_eq_true, if_false, BitVec.getLsbD_or, BitVec.getLsbD_and, BitVec.getLsbD_not,
      BitVec.getLsbD_ofNat, ht] <;>
    by_cases hw : j < w <;> by_cases h : i = j <;> simp_all [eq_comm (a := j)]

theorem Strand.rd_wr_self (x : Strand) (r : SReg) (v : Word) (t : Bool) : (x.wr r v t).rd r = if r = 0 then 0 else v := by
  by_cases h : r = 0#6
  · subst h; rfl
  · simp [Strand.wr, Strand.rd, h, SMap.get_set_self]

theorem Strand.rd_wr_ne (x : Strand) {r q : SReg} (h : q ≠ r) (v : Word) (t : Bool) : (x.wr r v t).rd q = x.rd q := by
  unfold Strand.wr
  split
  · rfl
  · have : q.toNat ≠ r.toNat := fun hh => h (BitVec.eq_of_toNat_eq hh)
    simp [Strand.rd, SMap.get_set_ne _ _ _ this]

theorem Strand.tag_wr_self (x : Strand) (r : SReg) (v : Word) (t : Bool) : (x.wr r v t).tag r = if r = 0 then false else t := by
  by_cases h : r = 0
  · subst h; rfl
  · have : r.toNat < 64 := r.isLt
    rw [Strand.tag, if_neg h, if_neg h, Strand.wr, if_neg h]
    simp only [getLsbD_withBit, this, and_self, if_true]

theorem Strand.tag_wr_ne (x : Strand) {r q : SReg} (h : q ≠ r) (v : Word) (t : Bool) : (x.wr r v t).tag q = x.tag q := by
  unfold Strand.wr
  split
  · rfl
  · have : q.toNat ≠ r.toNat := fun hh => h (BitVec.eq_of_toNat_eq hh)
    simp [Strand.tag, getLsbD_withBit, this]

@[simp] theorem Strand.prd_wr (x : Strand) (r : SReg) (v : Word) (t : Bool) (n : PReg) : (x.wr r v t).prd n = x.prd n := by
  simp [Strand.prd]

@[simp] theorem Strand.pt_wr (x : Strand) (r : SReg) (v : Word) (t : Bool) (n : PReg) : (x.wr r v t).pt n = x.pt n := by
  simp [Strand.pt]

theorem Strand.prd_pwr_self (x : Strand) (n : PReg) (v t : Bool) : (x.pwr n v t).prd n = if n = 0 then true else v := by
  by_cases h : n = 0
  · subst h; rfl
  · have : n.toNat < 8 := n.isLt
    rw [Strand.prd, if_neg h, if_neg h, Strand.pwr, if_neg h]
    simp only [getLsbD_withBit, this, and_self, if_true]

theorem Strand.prd_pwr_ne (x : Strand) {n m : PReg} (h : m ≠ n) (v t : Bool) : (x.pwr n v t).prd m = x.prd m := by
  unfold Strand.pwr
  split
  · rfl
  · have : m.toNat ≠ n.toNat := fun hh => h (BitVec.eq_of_toNat_eq hh)
    simp [Strand.prd, getLsbD_withBit, this]

/-- One bit after a field has been replaced. -/
theorem getLsbD_withBits {w : Nat} (x : BitVec w) (lo len v i : Nat) (hw : i < w) :
    (withBits x lo len v).getLsbD i = if lo ≤ i ∧ i < lo + len then v.testBit (i - lo) else x.getLsbD i := by
  simp only [withBits, BitVec.getLsbD_or, BitVec.getLsbD_and, BitVec.getLsbD_not, BitVec.getLsbD_ofNat, hw, decide_true,
    Bool.true_and, Nat.testBit_shiftLeft, Nat.testBit_two_pow_sub_one, Nat.testBit_mod_two_pow]
  by_cases h1 : lo ≤ i
  · by_cases h2 : i < lo + len
    · have : i - lo < len := by omega
      simp [h1, h2, this]
    · have : ¬ i - lo < len := by omega
      simp [h1, h2, this]
  · simp [h1]

/-- A bit outside a replaced field is unchanged. -/
theorem getLsbD_withBits_ne {w : Nat} (x : BitVec w) (lo len v i : Nat) (h : i < lo ∨ lo + len ≤ i) :
    (withBits x lo len v).getLsbD i = x.getLsbD i := by
  by_cases hw : i < w
  · rw [getLsbD_withBits x lo len v i hw, if_neg (by omega)]
  · rw [BitVec.getLsbD_of_ge _ _ (by omega), BitVec.getLsbD_of_ge _ _ (by omega)]

/-- A field of a value reads back what was put into it. -/
theorem bitsOf_withBits_self {w : Nat} (x : BitVec w) (lo len v : Nat) (h : lo + len ≤ w) :
    bitsOf (withBits x lo len v) lo len = v % 2 ^ len := by
  apply Nat.eq_of_testBit_eq
  intro i
  simp only [bitsOf, Nat.testBit_mod_two_pow, Nat.testBit_div_two_pow]
  by_cases hi : i < len
  · have e : (withBits x lo len v).toNat.testBit (i + lo) = (withBits x lo len v).getLsbD (i + lo) := rfl
    rw [e, getLsbD_withBits x lo len v (i + lo) (by omega), if_pos (by omega)]
    simp [hi]
  · simp [hi]

/-- A field that lies outside a replaced one is unchanged. -/
theorem bitsOf_withBits_ne {w : Nat} (x : BitVec w) (lo len v a n : Nat) (h : a + n ≤ lo ∨ lo + len ≤ a) :
    bitsOf (withBits x lo len v) a n = bitsOf x a n := by
  apply Nat.eq_of_testBit_eq
  intro i
  simp only [bitsOf, Nat.testBit_mod_two_pow, Nat.testBit_div_two_pow]
  by_cases hi : i < n
  · have e : ∀ y : BitVec w, y.toNat.testBit (i + a) = y.getLsbD (i + a) := fun _ => rfl
    rw [e, e, getLsbD_withBits_ne x lo len v (i + a) (by omega)]
  · simp [hi]

end Sys2Proof.Machine
end

