-- ==== Sys2Proof/Laws/Retire.lean ====
section
/-! SUPPORT. What retirement leaves (R50, R59, R81): the strand's registers, every tile's memory, and the package. -/

namespace Sys2Proof.Laws

open Sys2Proof.Machine Sys2Proof.Safety

/-- The strand as retirement leaves it, before the message context ends its message. -/
theorem me_retireAt (s : State) (pc : Pc) (r : Rep) (kp : Bool) :
    (s.retireAt pc r kp).me =
      (let x := if kp then s.me else s.me.clearPrefix
       let x := { x with pc := pc, rep := r, run := .ready, hold := .none, took := false, tested := none, fwdq := if s.forwarded then x.fwdq.drop 1 else x.fwdq, issued := true }
       if s.curStrand = 4 ∧ x.slots.length ≤ pc.toNat then { x with run := .idle, slots := [], pc := 0 } else x) := by
  simp only [State.retireAt, State.me_updMe]

@[simp] theorem retireAt_rd (s : State) (pc : Pc) (r : Rep) (kp : Bool) (n : SReg) : (s.retireAt pc r kp).me.rd n = s.me.rd n := by
  rw [me_retireAt]; cases kp <;> simp only [Bool.false_eq_true, if_false, if_true] <;> split <;> rfl

@[simp] theorem retireAt_tag (s : State) (pc : Pc) (r : Rep) (kp : Bool) (n : SReg) : (s.retireAt pc r kp).me.tag n = s.me.tag n := by
  rw [me_retireAt]; cases kp <;> simp only [Bool.false_eq_true, if_false, if_true] <;> split <;> rfl

@[simp] theorem retireAt_prd (s : State) (pc : Pc) (r : Rep) (kp : Bool) (n : PReg) : (s.retireAt pc r kp).me.prd n = s.me.prd n := by
  rw [me_retireAt]; cases kp <;> simp only [Bool.false_eq_true, if_false, if_true] <;> split <;> rfl

@[simp] theorem retireAt_pt (s : State) (pc : Pc) (r : Rep) (kp : Bool) (n : PReg) : (s.retireAt pc r kp).me.pt n = s.me.pt n := by
  rw [me_retireAt]; cases kp <;> simp only [Bool.false_eq_true, if_false, if_true] <;> split <;> rfl

@[simp] theorem retireAt_vrd (s : State) (pc : Pc) (r : Rep) (kp : Bool) (n : VReg) : (s.retireAt pc r kp).me.vrd n = s.me.vrd n := by
  rw [me_retireAt]; cases kp <;> simp only [Bool.false_eq_true, if_false, if_true] <;> split <;> rfl

@[simp] theorem retireAt_vt (s : State) (pc : Pc) (r : Rep) (kp : Bool) (n : VReg) : (s.retireAt pc r kp).me.vt n = s.me.vt n := by
  rw [me_retireAt]; cases kp <;> simp only [Bool.false_eq_true, if_false, if_true] <;> split <;> rfl

@[simp] theorem retireAt_qrd (s : State) (pc : Pc) (r : Rep) (kp : Bool) (n : PReg) : (s.retireAt pc r kp).me.qrd n = s.me.qrd n := by
  rw [me_retireAt]; cases kp <;> simp only [Bool.false_eq_true, if_false, if_true] <;> split <;> rfl

@[simp] theorem retireAt_krd (s : State) (pc : Pc) (r : Rep) (kp : Bool) (n : BitVec 3) : (s.retireAt pc r kp).me.krd n = s.me.krd n := by
  rw [me_retireAt]; cases kp <;> simp only [Bool.false_eq_true, if_false, if_true] <;> split <;> rfl

/-- Retirement keeps every register but the PC, the repeat state and the prefix fields of STATUS. -/
theorem retireAt_others (s : State) (pc : Pc) (r : Rep) : OtherRegsSame s.me (s.retireAt pc r false).me := by
  rw [me_retireAt]
  simp only [Bool.false_eq_true, if_false]
  split <;> exact ⟨rfl, rfl, rfl, rfl, rfl, rfl, rfl, rfl, rfl, rfl, rfl, rfl, rfl, rfl, rfl⟩

@[simp] theorem retireAt_curTile (s : State) (pc : Pc) (r : Rep) (kp : Bool) : (s.retireAt pc r kp).curTile = s.curTile := rfl
@[simp] theorem retireAt_curStrand (s : State) (pc : Pc) (r : Rep) (kp : Bool) : (s.retireAt pc r kp).curStrand = s.curStrand := rfl
@[simp] theorem retireAt_mem (s : State) (pc : Pc) (r : Rep) (kp : Bool) : (s.retireAt pc r kp).mem = s.mem := rfl
@[simp] theorem retireAt_gangs (s : State) (pc : Pc) (r : Rep) (kp : Bool) : (s.retireAt pc r kp).gangs = s.gangs := rfl

/-- No other tile differs after retirement. -/
theorem retireAt_tile_ne (s : State) {u : Nat} (h : u ≠ s.curTile) (pc : Pc) (r : Rep) (kp : Bool) :
    (s.retireAt pc r kp).tile u = s.tile u := State.tile_updMe_ne s h _

/-- Retirement touches no tile memory, code or control register. -/
@[simp] theorem retireAt_tile_mem (s : State) (u : Nat) (pc : Pc) (r : Rep) (kp : Bool) :
    ((s.retireAt pc r kp).tile u).mem = (s.tile u).mem := by simp [State.retireAt]
@[simp] theorem retireAt_tile_code (s : State) (u : Nat) (pc : Pc) (r : Rep) (kp : Bool) :
    ((s.retireAt pc r kp).tile u).code = (s.tile u).code := by simp [State.retireAt]
@[simp] theorem retireAt_tile_ctl (s : State) (u : Nat) (pc : Pc) (r : Rep) (kp : Bool) :
    ((s.retireAt pc r kp).tile u).ctl = (s.tile u).ctl := by simp [State.retireAt]
@[simp] theorem retireAt_tile_cbase (s : State) (u : Nat) (pc : Pc) (r : Rep) (kp : Bool) :
    ((s.retireAt pc r kp).tile u).cbase = (s.tile u).cbase := by simp [State.retireAt]
@[simp] theorem retireAt_tile_clines (s : State) (u : Nat) (pc : Pc) (r : Rep) (kp : Bool) :
    ((s.retireAt pc r kp).tile u).clines = (s.tile u).clines := by simp [State.retireAt]
@[simp] theorem retireAt_tile_segmask (s : State) (u : Nat) (pc : Pc) (r : Rep) (kp : Bool) :
    ((s.retireAt pc r kp).tile u).segmask = (s.tile u).segmask := by simp [State.retireAt]
@[simp] theorem retireAt_tile_gang (s : State) (u : Nat) (pc : Pc) (r : Rep) (kp : Bool) :
    ((s.retireAt pc r kp).tile u).gang = (s.tile u).gang := by simp [State.retireAt]
@[simp] theorem retireAt_tile_vote (s : State) (u : Nat) (pc : Pc) (r : Rep) (kp : Bool) :
    ((s.retireAt pc r kp).tile u).vote = (s.tile u).vote := by simp [State.retireAt]

end Sys2Proof.Laws
end

