-- ==== Sys2Proof/Laws/TileMem.lean ====
section
/-! SUPPORT. Tile memory: what its writes do to bytes, frames and deltas, once for every named operation. -/

namespace Sys2Proof.Laws

open Sys2Proof.Machine Sys2Proof.Safety

/-! ## Sorted maps -/

theorem mem_of_find {α : Type} {m : SMap α} {k : Nat} {v : α} (h : m.find k = some v) : (k, v) ∈ m := by
  induction m with
  | nil => simp [SMap.find] at h
  | cons x t ih =>
    obtain ⟨k', v'⟩ := x
    simp only [SMap.find] at h
    split at h
    · rename_i hk; subst hk; simp at h; subst h; simp
    · exact List.mem_cons_of_mem _ (ih h)

theorem find_of_mem {α : Type} {m : SMap α} (hs : (m.map (·.1)).Pairwise (· < ·)) {k : Nat} {v : α} (h : (k, v) ∈ m) :
    m.find k = some v := by
  induction m with
  | nil => simp at h
  | cons x t ih =>
    obtain ⟨k', v'⟩ := x
    simp only [List.map_cons, List.pairwise_cons] at hs
    rcases List.mem_cons.mp h with h | h
    · cases h; simp [SMap.find]
    · have : k' < k := hs.1 k (List.mem_map_of_mem (f := (·.1)) h)
      simp [SMap.find, Nat.ne_of_lt this, ih hs.2 h]

theorem find_none_of_notMem {α : Type} {m : SMap α} {k : Nat} (h : k ∉ m.map (·.1)) : m.find k = none := by
  induction m with
  | nil => rfl
  | cons x t ih =>
    obtain ⟨k', v'⟩ := x
    simp only [List.map_cons, List.mem_cons, not_or] at h
    simp [SMap.find, Ne.symm h.1, ih h.2]

/-- Replacing a listed entry keeps the keys and every projection that the two values share. -/
theorem insert_listed {α β : Type} (m : SMap α) (hs : (m.map (·.1)).Pairwise (· < ·)) {k : Nat} {v v' : α} (f : α → β)
    (h : m.find k = some v) (hf : f v' = f v) :
    (m.insert k v').map (·.1) = m.map (·.1) ∧ (m.insert k v').map (fun x => f x.2) = m.map (fun x => f x.2) := by
  induction m with
  | nil => simp [SMap.find] at h
  | cons x t ih =>
    obtain ⟨k', w⟩ := x
    simp only [List.map_cons, List.pairwise_cons] at hs
    by_cases hk : k' = k
    · subst hk
      simp only [SMap.find, if_true, Option.some.injEq] at h
      subst h
      simp [SMap.insert, hf]
    · simp only [SMap.find, hk, if_false] at h
      have hlt : k' < k := hs.1 k (List.mem_map_of_mem (f := (·.1)) (mem_of_find h))
      obtain ⟨a, b⟩ := ih hs.2 h
      have h1 : ¬ k < k' := by omega
      have h2 : ¬ k = k' := by omega
      simp only [SMap.insert, h1, h2, if_false, List.map_cons, a, b, and_self]

/-- Inserting a new entry: one more, in order. -/
theorem insert_new {α : Type} (m : SMap α) (hs : (m.map (·.1)).Pairwise (· < ·)) {k : Nat} (v : α) (h : m.find k = none) :
    ((m.insert k v).map (·.1)).Pairwise (· < ·) ∧ (m.insert k v).Perm ((k, v) :: m) := by
  have key : ∀ m : SMap α, (m.map (·.1)).Pairwise (· < ·) → m.find k = none →
      ((m.insert k v).map (·.1)).Pairwise (· < ·) ∧ (m.insert k v).Perm ((k, v) :: m) ∧
        (∀ lo, lo < k → (∀ x ∈ m.map (·.1), lo < x) → ∀ x ∈ (m.insert k v).map (·.1), lo < x) := by
    intro m
    induction m with
    | nil => intro _ _; simp [SMap.insert]
    | cons x t ih =>
      intro hs h
      obtain ⟨k', w⟩ := x
      simp only [List.map_cons, List.pairwise_cons] at hs
      by_cases hk : k' = k
      · simp [SMap.find, hk] at h
      · simp only [SMap.find, hk, if_false] at h
        obtain ⟨a, b, c⟩ := ih hs.2 h
        by_cases hlt : k < k'
        · simp only [SMap.insert, hlt, if_true, List.map_cons, List.pairwise_cons]
          refine ⟨⟨?_, hs⟩, List.Perm.refl _, ?_⟩
          · intro y hy
            rcases List.mem_cons.mp hy with hy | hy
            · omega
            · have := hs.1 y hy; omega
          · intro lo h1 h2 y hy
            rcases List.mem_cons.mp hy with hy | hy
            · omega
            · exact h2 y hy
        · have h2 : ¬ k = k' := by omega
          simp only [SMap.insert, hlt, h2, if_false, List.map_cons, List.pairwise_cons]
          refine ⟨⟨c k' (by omega) hs.1, a⟩, ?_, ?_⟩
          · exact (List.Perm.cons _ b).trans (List.Perm.swap _ _ _)
          · intro lo h1 h2 y hy
            rcases List.mem_cons.mp hy with hy | hy
            · rw [hy]; exact h2 k' (by simp)
            · exact c lo h1 (fun z hz => h2 z (List.mem_cons_of_mem _ hz)) y hy
  obtain ⟨a, b, _⟩ := key m hs h
  exact ⟨a, b⟩

/-! ## Bytes -/

theorem byte_setByte (m : TMem) (p q : Nat) (b : Byte) : (m.setByte p b).byte q = if q = p then b else m.byte q := by
  simp only [TMem.byte, TMem.setByte, SMap.get_set]

@[simp] theorem frameOf_setByte (m : TMem) (p : Nat) (b : Byte) : (m.setByte p b).frameOf = m.frameOf := rfl

theorem putBytes_fields (bs : List Byte) : ∀ (m : TMem) (p : Nat),
    (m.putBytes p bs).lineMap = m.lineMap ∧ (m.putBytes p bs).deltas = m.deltas ∧ (m.putBytes p bs).free = m.free ∧
    (m.putBytes p bs).poison = m.poison ∧ (m.putBytes p bs).full = m.full ∧ (m.putBytes p bs).stale = m.stale ∧
    (m.putBytes p bs).low = m.low := by
  induction bs with
  | nil => intro m p; simp [TMem.putBytes]
  | cons b t ih => intro m p; simpa [TMem.putBytes, TMem.setByte] using ih (m.setByte p b) (p + 1)

theorem frameOf_putBytes (m : TMem) (p : Nat) (bs : List Byte) : (m.putBytes p bs).frameOf = m.frameOf := by
  funext l; simp [TMem.frameOf, (putBytes_fields bs m p).1]

theorem byte_putBytes (bs : List Byte) : ∀ (m : TMem) (p q : Nat),
    (m.putBytes p bs).byte q = if p ≤ q ∧ q < p + bs.length then bs.getD (q - p) 0 else m.byte q := by
  induction bs with
  | nil =>
    intro m p q
    simp only [TMem.putBytes, List.length_nil, Nat.add_zero]
    rw [if_neg (by omega)]
  | cons b t ih =>
    intro m p q
    rw [TMem.putBytes, ih, byte_setByte]
    by_cases h1 : p + 1 ≤ q ∧ q < p + 1 + t.length
    · rw [if_pos h1, if_pos (by simp; omega), show q - p = (q - (p + 1)) + 1 by omega]
      simp
    · rw [if_neg h1]
      by_cases h2 : q = p
      · subst h2; simp
      · rw [if_neg h2, if_neg (by simp; omega)]

theorem copyFrame_fields (m : TMem) (src dst : Nat) :
    (m.copyFrame src dst).lineMap = m.lineMap ∧ (m.copyFrame src dst).deltas = m.deltas ∧
    (m.copyFrame src dst).free = m.free ∧ (m.copyFrame src dst).full = m.full ∧ (m.copyFrame src dst).stale = m.stale :=
  ⟨rfl, rfl, rfl, rfl, rfl⟩

theorem byte_copyFrame (m : TMem) (src dst q : Nat) :
    (m.copyFrame src dst).byte q =
      if 128 * dst ≤ q ∧ q < 128 * dst + 128 then m.byte (128 * src + (q - 128 * dst)) else m.byte q := by
  have key : ∀ n (q : Nat), SMap.get ((List.range n).foldl (fun b i => SMap.set b (128 * dst + i) 0 (SMap.get m.bytes (128 * src + i) 0)) m.bytes) q 0 =
      if 128 * dst ≤ q ∧ q < 128 * dst + n then SMap.get m.bytes (128 * src + (q - 128 * dst)) 0 else SMap.get m.bytes q 0 := by
    intro n
    induction n with
    | zero => intro q; rw [if_neg (by omega)]; rfl
    | succ n ih =>
      intro q
      rw [List.range_succ, List.foldl_append, List.foldl_cons, List.foldl_nil, SMap.get_set, ih]
      by_cases h : q = 128 * dst + n
      · subst h
        rw [if_pos rfl, if_pos (by omega)]
        congr 2; omega
      · rw [if_neg h]
        by_cases h2 : 128 * dst ≤ q ∧ q < 128 * dst + n
        · rw [if_pos h2, if_pos (by omega)]
        · rw [if_neg h2, if_neg (by omega)]
  exact key 128 q

/-! ## Regions and lines -/

/-- A region is the same over a line. -/
theorem region_line (T : Tile) (a : Nat) (h : 0x8000 ≤ a) : T.region (0x8000 + 128 * lineOf a) = T.region a := by
  have e : segOf (0x8000 + 128 * lineOf a) = segOf a := by simp only [segOf, lineOf]; omega
  have h1 : ¬ (0x8000 + 128 * lineOf a < 0x8000) := by omega
  have h2 : ¬ (a < 0x8000) := by omega
  have h3 : (0x8000 + 128 * lineOf a < 0x40000) ↔ a < 0x40000 := by simp only [lineOf]; omega
  simp only [Tile.region, h1, h2, if_false, h3, e]

theorem region_data {T : Tile} {a : Nat} {x : Attr} (h : T.region a = .seg x) : 0x8000 ≤ a ∧ a < 0x40000 := by
  unfold Tile.region at h
  split at h
  · split at h <;> cases h
  · split at h
    · omega
    · cases h

theorem lineOf_mem {T : Tile} {a : Nat} (h : (T.region a).vs = true) : lineOf a ∈ dataLines T := by
  have hd : 0x8000 ≤ a ∧ a < 0x40000 := by
    cases hr : T.region a with
    | seg x => exact region_data hr
    | code => rw [hr] at h; cases h
    | none => rw [hr] at h; cases h
  simp only [dataLines, List.mem_filter, List.mem_range, dataLine]
  refine ⟨by simp only [lineOf]; omega, ?_⟩
  rw [region_line T a hd.1]; exact h

theorem physOf_eq (m : TMem) (a : Nat) (h : 0x8000 ≤ a) : m.physOf a = 128 * m.frameOf (lineOf a) + a % 128 := by
  simp only [TMem.physOf]; omega

/-! ## Owners of frames -/

theorem frames_lines {T : Tile} (h : FramesOk T) {l l' : Nat} (hl : l ∈ dataLines T) (hl' : l' ∈ dataLines T)
    (e : T.mem.frameOf l = T.mem.frameOf l') : l = l' := by
  have := (List.nodup_append.mp (List.nodup_append.mp h.2.2).1).1
  exact List.inj_on_of_nodup_map this hl hl' e

theorem frames_line_delta {T : Tile} (h : FramesOk T) {l l' : Nat} {d : Delta} (hl : l ∈ dataLines T)
    (hd : T.mem.deltas.find l' = some d) : T.mem.frameOf l ≠ d.frame := by
  have := (List.nodup_append.mp (List.nodup_append.mp h.2.2).1).2.2
  exact this _ (List.mem_map_of_mem (f := T.mem.frameOf) hl) _ (List.mem_map_of_mem (f := fun x : Nat × Delta => x.2.frame) (mem_of_find hd))

theorem frames_deltas {T : Tile} (h : FramesOk T) {l l' : Nat} {d d' : Delta} (hd : T.mem.deltas.find l = some d)
    (hd' : T.mem.deltas.find l' = some d') (e : d.frame = d'.frame) : l = l' := by
  have := (List.nodup_append.mp (List.nodup_append.mp h.2.2).1).2.1
  have := List.inj_on_of_nodup_map this (mem_of_find hd) (mem_of_find hd') e
  exact (Prod.ext_iff.mp this).1

theorem frames_free {T : Tile} (h : FramesOk T) {f : Nat} (hf : f ∈ T.mem.free) :
    (∀ l ∈ dataLines T, T.mem.frameOf l ≠ f) ∧ (∀ l d, T.mem.deltas.find l = some d → d.frame ≠ f) := by
  have := (List.nodup_append.mp h.2.2).2.2
  refine ⟨fun l hl => this _ ?_ _ hf, fun l d hd => this _ ?_ _ hf⟩
  · exact List.mem_append_left _ (List.mem_map_of_mem hl)
  · exact List.mem_append_right _ (List.mem_map_of_mem (f := fun x : Nat × Delta => x.2.frame) (mem_of_find hd))

/-- What taking a line's delta does: the line has it already, or the first free frame becomes it, holding the committed image. -/
theorem delta_cases {m m' : TMem} {l : Nat} {d : Delta} (h : m.delta l = some (d, m')) :
    (m.deltas.find l = some d ∧ m' = m) ∨
    (m.deltas.find l = none ∧ ∃ f r, m.free = f :: r ∧ d.frame = f ∧ d.own = 0 ∧ d.remote = 0 ∧ m'.free = r ∧
      m'.lineMap = m.lineMap ∧ m'.deltas = m.deltas.insert l d ∧ m'.full = m.full ∧ m'.stale = m.stale ∧
      (∀ q, m'.byte q = (m.copyFrame (m.frameOf l) f).byte q)) := by
  unfold TMem.delta at h
  split at h
  · rename_i x hx
    simp at h
    obtain ⟨h1, h2⟩ := h
    subst h1; subst h2
    exact .inl ⟨hx, rfl⟩
  · rename_i hx
    unfold TMem.alloc at h
    split at h
    · simp at h
    · rename_i f r hf
      simp only [Option.map_some, Option.some.injEq, Prod.mk.injEq] at h
      obtain ⟨h1, h2⟩ := h
      subst h1; subst h2
      exact .inr ⟨hx, f, r, hf, rfl, rfl, rfl, rfl, rfl, rfl, rfl, rfl,
        fun q => by simp only [TMem.byte, TMem.copyFrame]; rfl⟩

theorem delta_some {m : TMem} {l : Nat} (h : (m.deltas.find l).isSome = true ∨ m.free ≠ []) : ∃ d m', m.delta l = some (d, m') := by
  unfold TMem.delta
  cases hx : m.deltas.find l with
  | some d => exact ⟨d, m, rfl⟩
  | none =>
    rw [hx] at h
    simp only [Option.isSome_none, Bool.false_eq_true, false_or] at h
    cases hf : m.free with
    | nil => exact absurd hf h
    | cons f r => simp [TMem.alloc, hf]

/-! ## Writes of strands and engines -/

theorem getLsbD_lineMask (off n j : Nat) : (lineMask off n).getLsbD j = (decide (j < 128) && decide (off ≤ j) && decide (j < off + n)) := by
  simp only [lineMask, BitVec.getLsbD_ofNat, Nat.testBit_shiftLeft, Nat.testBit_two_pow_sub_one]
  by_cases h1 : j < 128 <;> by_cases h2 : off ≤ j <;> by_cases h3 : j < off + n <;>
    simp only [h1, h2, h3, decide_true, decide_false, Bool.true_and, Bool.and_true, Bool.and_false, Bool.false_and,
      decide_eq_true_eq, decide_eq_false_iff_not] <;> omega

/-- What a versioned write did, in parts: the delta, and the memory that holds its bytes. -/
theorem writeV_parts {T : Tile} {remote eng poison : Bool} {a : Nat} {bs : List Byte} {w : Wrote}
    (h : T.writeV remote eng a bs poison = some w) :
    ∃ d d' m fu, T.mem.delta (lineOf a) = some (d, m) ∧ d'.frame = d.frame ∧
      d'.own = (if remote then d.own else d.own ||| lineMask (a % 128) bs.length) ∧
      w.tile = { T with mem := { m.putBytes (128 * d.frame + a % 128) bs with
        deltas := (m.putBytes (128 * d.frame + a % 128) bs).deltas.insert (lineOf a) d', full := fu } } := by
  unfold Tile.writeV at h
  cases hd : T.mem.delta (lineOf a) with
  | none => rw [hd] at h; cases h
  | some x =>
    obtain ⟨d, m⟩ := x
    rw [hd] at h
    simp only [Option.map_some, Option.some.injEq] at h
    subst h
    cases remote
    · exact ⟨d, _, m, _, rfl, by rfl, by rfl, rfl⟩
    · exact ⟨d, _, m, _, rfl, by rfl, by rfl, rfl⟩

theorem find_insert_other {m : SMap Delta} {l l' : Nat} (d : Delta) (h : l' ≠ l) : (m.insert l d).find l' = m.find l' :=
  SMap.find_insert_ne m d h

/-- The frames of a tile after a versioned write. -/
theorem writeV_frames {T : Tile} {remote eng poison : Bool} {a : Nat} {bs : List Byte} {w : Wrote} (hf : FramesOk T)
    (hr : T.region a = .seg .v) (h : T.writeV remote eng a bs poison = some w) : FramesOk w.tile ∧ w.tile.region = T.region := by
  obtain ⟨d, d', m, _, hd, hfr, _, hw⟩ := writeV_parts h
  have hreg : w.tile.region = T.region := by rw [hw]; rfl
  refine ⟨?_, hreg⟩
  have hl : lineOf a ∈ dataLines T := lineOf_mem (by rw [hr]; rfl)
  have hdl : dataLines w.tile = dataLines T := by
    simp only [dataLines]; congr 1; funext l; simp only [dataLine, hreg]
  obtain ⟨pl, pd, pf, -⟩ := putBytes_fields bs m (128 * d.frame + a % 128)
  have efo : w.tile.mem.frameOf = T.mem.frameOf := by
    rcases delta_cases hd with ⟨-, rfl⟩ | ⟨-, f, r, -, -, -, -, -, e, -⟩
    · rw [hw]; funext l; simp only [TMem.frameOf, pl]
    · rw [hw]; funext l; simp only [TMem.frameOf, pl, e]
  have ede : w.tile.mem.deltas = m.deltas.insert (lineOf a) d' := by rw [hw]; simp only [pd]
  have efr : w.tile.mem.free = m.free := by rw [hw]; simp only [pf]
  rcases delta_cases hd with ⟨hx, rfl⟩ | ⟨hx, f, r, e1, e2, -, -, e3, e4, e5, -⟩
  · obtain ⟨k1, k2⟩ := insert_listed T.mem.deltas hf.1 (v' := d') Delta.frame hx hfr
    refine ⟨?_, ?_, ?_⟩
    · rw [ede, k1]; exact hf.1
    · intro x hxm
      rw [hdl]
      have : x.1 ∈ (T.mem.deltas.insert (lineOf a) d').map (·.1) := List.mem_map_of_mem (by rw [← ede]; exact hxm)
      rw [k1, List.mem_map] at this
      obtain ⟨y, hy, e⟩ := this
      rw [← e]; exact hf.2.1 y hy
    · rw [frameOwners, hdl, efo, ede, k2, efr]; exact hf.2.2
  · have hins : m.deltas.insert (lineOf a) d' = T.mem.deltas.insert (lineOf a) d' := by
      rw [e5]
      have key : ∀ mm : SMap Delta, (mm.insert (lineOf a) d).insert (lineOf a) d' = mm.insert (lineOf a) d' := by
        intro mm
        induction mm with
        | nil => simp [SMap.insert]
        | cons y t ih =>
          obtain ⟨k', w'⟩ := y
          simp only [SMap.insert]
          by_cases c1 : lineOf a < k'
          · simp [c1, SMap.insert]
          · by_cases c2 : lineOf a = k'
            · simp [c2, SMap.insert]
            · simp [c1, c2, SMap.insert, ih]
      exact key _
    obtain ⟨k1, k2⟩ := insert_new T.mem.deltas hf.1 d' hx
    refine ⟨?_, ?_, ?_⟩
    · rw [ede, hins]; exact k1
    · intro x hxm
      rw [hdl]
      rw [ede, hins] at hxm
      rcases List.mem_cons.mp (k2.mem_iff.mp hxm) with h' | h'
      · rw [h']; exact hl
      · exact hf.2.1 x h'
    · rw [frameOwners, hdl, efo, ede, hins, efr, e3]
      have p2 : ((T.mem.deltas.insert (lineOf a) d').map (·.2.frame)).Perm (f :: T.mem.deltas.map (·.2.frame)) := by
        have := k2.map (fun x : Nat × Delta => x.2.frame)
        simpa [hfr, e2] using this
      have hn := hf.2.2
      rw [frameOwners] at hn
      rw [e1] at hn
      refine List.Perm.nodup ?_ hn
      simp only [List.append_assoc]
      refine List.Perm.append_left _ ?_
      refine List.Perm.trans ?_ (List.Perm.append_right r p2.symm)
      simp

/-- Bytes of other lines are as before a versioned write. -/
theorem writeV_other {T : Tile} {remote eng poison : Bool} {a b : Nat} {bs : List Byte} {w : Wrote} (hf : FramesOk T)
    (hr : T.region a = .seg .v) (h : T.writeV remote eng a bs poison = some w) (hlen : a % 128 + bs.length ≤ 128)
    (hb : (T.region b).vs = true) :
    w.tile.mem.committed b = T.mem.committed b ∧
    (lineOf b ≠ lineOf a → w.tile.mem.own b = T.mem.own b) ∧
    (lineOf b = lineOf a → w.tile.mem.own b =
      if remote = false ∧ a % 128 ≤ b % 128 ∧ b % 128 < a % 128 + bs.length then bs.getD (b % 128 - a % 128) 0
      else if (match T.mem.deltas.find (lineOf a) with | some d => d.own.getLsbD (b % 128) | none => false) = true ∧
          a % 128 ≤ b % 128 ∧ b % 128 < a % 128 + bs.length then bs.getD (b % 128 - a % 128) 0
      else T.mem.own b) ∧
    (∃ d', w.tile.mem.deltas.find (lineOf a) = some d' ∧
      ∀ i, i < bs.length → w.tile.mem.byte (128 * d'.frame + (a % 128 + i)) = bs.getD i 0) := by
  obtain ⟨d, d', m, _, hd, hfr, hown, hw⟩ := writeV_parts h
  obtain ⟨pl, pd, pf, -⟩ := putBytes_fields bs m (128 * d.frame + a % 128)
  have hl : lineOf a ∈ dataLines T := lineOf_mem (by rw [hr]; rfl)
  have hlb : lineOf b ∈ dataLines T := lineOf_mem hb
  have hda : 0x8000 ≤ a := (region_data hr).1
  have hdb : 0x8000 ≤ b := by
    cases hrb : T.region b with
    | seg x => exact (region_data hrb).1
    | code => rw [hrb] at hb; cases hb
    | none => rw [hrb] at hb; cases hb
  have efo : w.tile.mem.frameOf = T.mem.frameOf := by
    rcases delta_cases hd with ⟨-, rfl⟩ | ⟨-, f, r, -, -, -, -, -, e, -⟩
    · rw [hw]; funext l; simp only [TMem.frameOf, pl]
    · rw [hw]; funext l; simp only [TMem.frameOf, pl, e]
  have ebyte : ∀ q, w.tile.mem.byte q = (m.putBytes (128 * d.frame + a % 128) bs).byte q := by intro q; rw [hw]; rfl
  -- a byte that lies in no part of the delta's frame is as before
  have eout : ∀ q, q / 128 ≠ d.frame → w.tile.mem.byte q = T.mem.byte q := by
    intro q hq
    rw [ebyte, byte_putBytes, if_neg (by omega)]
    rcases delta_cases hd with ⟨-, rfl⟩ | ⟨-, f, r, -, e2, -, -, -, -, -, -, -, eb⟩
    · rfl
    · rw [eb, byte_copyFrame, if_neg (by omega)]
  have hframe : ∀ l ∈ dataLines T, T.mem.frameOf l ≠ d.frame := by
    intro l hll
    rcases delta_cases hd with ⟨hx, -⟩ | ⟨-, f, r, e1, e2, -⟩
    · exact frames_line_delta hf hll hx
    · rw [e2]; exact (frames_free hf (by rw [e1]; simp)).1 l hll
  have ecom : w.tile.mem.committed b = T.mem.committed b := by
    have e : w.tile.mem.physOf b = T.mem.physOf b := by simp only [TMem.physOf, efo]
    simp only [TMem.committed, e]
    apply eout
    rw [physOf_eq _ _ hdb]
    have := hframe _ hlb
    omega
  have efind : w.tile.mem.deltas.find (lineOf a) = some d' := by rw [hw]; simp
  refine ⟨ecom, fun hne => ?_, fun heq => ?_, d', efind, fun i hi => ?_⟩
  · have e1 : w.tile.mem.deltas.find (lineOf b) = T.mem.deltas.find (lineOf b) := by
      rw [hw]
      simp only [pd, find_insert_other _ hne]
      rcases delta_cases hd with ⟨-, rfl⟩ | ⟨-, f, r, -, -, -, -, -, -, e5, -⟩
      · rfl
      · rw [e5, find_insert_other _ hne]
    simp only [TMem.own, e1]
    cases hx : T.mem.deltas.find (lineOf b) with
    | none => exact ecom
    | some d2 =>
      have hdf : d2.frame ≠ d.frame := by
        rcases delta_cases hd with ⟨hx', -⟩ | ⟨-, f, r, ee1, ee2, -⟩
        · intro e; exact hne (frames_deltas hf hx hx' e)
        · rw [ee2]; exact (frames_free hf (by rw [ee1]; simp)).2 _ _ hx
      simp only []
      split
      · apply eout; omega
      · exact ecom
  · have hm : b % 128 < 128 := Nat.mod_lt _ (by decide)
    simp only [TMem.own, heq, efind, hfr, hown]
    have ein : ∀ j, j < 128 → w.tile.mem.byte (128 * d.frame + j) =
        if a % 128 ≤ j ∧ j < a % 128 + bs.length then bs.getD (j - a % 128) 0 else m.byte (128 * d.frame + j) := by
      intro j hj
      rw [ebyte, byte_putBytes]
      by_cases c : a % 128 ≤ j ∧ j < a % 128 + bs.length
      · rw [if_pos (by omega), if_pos c]; congr 1; omega
      · rw [if_neg (by omega), if_neg c]
    rcases delta_cases hd with ⟨hx, rfl⟩ | ⟨hx, f, r, -, e2, eo, -⟩
    · rw [hx]
      simp only []
      cases remote
      · simp only [Bool.false_eq_true, if_false, BitVec.getLsbD_or, getLsbD_lineMask, hm, decide_true, Bool.true_and, true_and]
        by_cases c : a % 128 ≤ b % 128 ∧ b % 128 < a % 128 + bs.length
        · simp only [c.1, c.2, decide_true, Bool.true_and, Bool.or_true, if_true, and_self]
          rw [ein _ hm, if_pos c]
        · rw [if_neg c]
          have c' : (decide (a % 128 ≤ b % 128) && decide (b % 128 < a % 128 + bs.length)) = false := by
            simp only [Bool.and_eq_false_iff, decide_eq_false_iff_not]; omega
          rw [c', Bool.or_false]
          simp only [c, and_false, if_false]
          split
          · rw [ein _ hm, if_neg c]
          · exact ecom
      · simp only [if_true, Bool.true_eq_false, false_and, if_false]
        by_cases co : d.own.getLsbD (b % 128) = true
        · simp only [co, if_true, true_and]
          rw [ein _ hm]
        · simp only [co, false_and]
          exact ecom
    · rw [hx]
      simp only [eo, Bool.false_eq_true, false_and, if_false]
      cases remote
      · simp only [Bool.false_eq_true, if_false, true_and, BitVec.getLsbD_or, getLsbD_lineMask, hm, decide_true, Bool.true_and]
        have z : (0 : BitVec 128).getLsbD (b % 128) = false := by simp
        rw [z, Bool.false_or]
        by_cases c : a % 128 ≤ b % 128 ∧ b % 128 < a % 128 + bs.length
        · simp only [c.1, c.2, decide_true, Bool.and_self, if_true, and_self]
          rw [ein _ hm, if_pos c]
        · rw [if_neg c]
          have c' : (decide (a % 128 ≤ b % 128) && decide (b % 128 < a % 128 + bs.length)) = false := by
            simp only [Bool.and_eq_false_iff, decide_eq_false_iff_not]; omega
          rw [c', if_neg (by simp)]
          exact ecom
      · simp only [if_true, Bool.true_eq_false, false_and, if_false]
        have z : (0 : BitVec 128).getLsbD (b % 128) = false := by simp
        rw [z, if_neg (by simp)]
        exact ecom
  · rw [hfr, ebyte, byte_putBytes, if_pos (by omega)]
    congr 1; omega

/-- The frames of a tile after a scratch write are as before, and each byte is the written one or as before. -/
theorem writeS_bytes {T : Tile} {eng poison : Bool} {a b : Nat} {bs : List Byte} (hf : FramesOk T)
    (hr : T.region a = .seg .s) (hlen : a % 128 + bs.length ≤ 128) :
    (T.writeS eng a bs poison).mem.deltas = T.mem.deltas ∧ (T.writeS eng a bs poison).mem.free = T.mem.free ∧
    (T.writeS eng a bs poison).mem.frameOf = T.mem.frameOf ∧ (T.writeS eng a bs poison).region = T.region ∧
    ((T.region b).vs = true → (T.writeS eng a bs poison).mem.committed b =
      if a ≤ b ∧ b < a + bs.length then bs.getD (b - a) 0 else T.mem.committed b) ∧
    ((T.region b).vs = true → (T.writeS eng a bs poison).mem.own b =
      if a ≤ b ∧ b < a + bs.length ∧ T.mem.deltas.find (lineOf b) = none then bs.getD (b - a) 0 else
        if a ≤ b ∧ b < a + bs.length then (T.writeS eng a bs poison).mem.own b else T.mem.own b) := by
  obtain ⟨pl, pd, pf, -⟩ := putBytes_fields bs T.mem (T.mem.physOf a)
  have e1 : (T.writeS eng a bs poison).mem.frameOf = T.mem.frameOf := by
    funext l; simp only [Tile.writeS, TMem.frameOf, pl]
  have e2 : (T.writeS eng a bs poison).mem.deltas = T.mem.deltas := pd
  have eb : ∀ q, (T.writeS eng a bs poison).mem.byte q = (T.mem.putBytes (T.mem.physOf a) bs).byte q := fun _ => rfl
  have hl : lineOf a ∈ dataLines T := lineOf_mem (by rw [hr]; rfl)
  have hda : 0x8000 ≤ a := (region_data hr).1
  have ecom : (T.region b).vs = true → (T.writeS eng a bs poison).mem.committed b =
      if a ≤ b ∧ b < a + bs.length then bs.getD (b - a) 0 else T.mem.committed b := by
    intro hb
    have hlb : lineOf b ∈ dataLines T := lineOf_mem hb
    have hdb : 0x8000 ≤ b := by
      cases hrb : T.region b with
      | seg x => exact (region_data hrb).1
      | code => rw [hrb] at hb; cases hb
      | none => rw [hrb] at hb; cases hb
    have ep : (T.writeS eng a bs poison).mem.physOf b = T.mem.physOf b := by simp only [TMem.physOf, e1]
    simp only [TMem.committed, ep, eb, byte_putBytes]
    rw [physOf_eq _ _ hda, physOf_eq _ _ hdb]
    by_cases hll : lineOf a = lineOf b
    · have : b / 128 = a / 128 := by simp only [lineOf] at hll; omega
      rw [hll]
      by_cases c : a ≤ b ∧ b < a + bs.length
      · rw [if_pos c, if_pos (by omega),
          show 128 * T.mem.frameOf (lineOf b) + b % 128 - (128 * T.mem.frameOf (lineOf b) + a % 128) = b - a by omega]
      · rw [if_neg c, if_neg (by omega)]
    · have hne : T.mem.frameOf (lineOf a) ≠ T.mem.frameOf (lineOf b) := fun e => hll (frames_lines hf hl hlb e)
      have : b / 128 ≠ a / 128 := by simp only [lineOf] at hll; omega
      rw [if_neg (by omega), if_neg (by omega)]
  refine ⟨e2, pf, e1, rfl, ecom, fun hb => ?_⟩
  have hlb : lineOf b ∈ dataLines T := lineOf_mem hb
  by_cases c : a ≤ b ∧ b < a + bs.length
  · by_cases cd : T.mem.deltas.find (lineOf b) = none
    · rw [if_pos ⟨c.1, c.2, cd⟩]
      simp only [TMem.own, e2, cd]
      rw [ecom hb, if_pos c]
    · rw [if_neg (fun h => cd h.2.2), if_pos c]
  · rw [if_neg (fun h => c ⟨h.1, h.2.1⟩), if_neg c]
    simp only [TMem.own, e2]
    cases hx : T.mem.deltas.find (lineOf b) with
    | none => simp only []; rw [ecom hb, if_neg c]
    | some d =>
      simp only []
      split
      · rw [eb, byte_putBytes, physOf_eq _ _ hda, if_neg]
        have := frames_line_delta hf hl hx
        omega
      · rw [ecom hb, if_neg c]

/-- A store of the tile's own strand in one line of a versioned or scratch segment: its bytes read back, every other byte that
a load reads is as before, and the frames keep their owners. -/
theorem store_reads {T : Tile} {a : Nat} {bs : List Byte} {w : Wrote} (hf : FramesOk T) (hr : (T.region a).vs = true)
    (hlen : a % 128 + bs.length ≤ 128) (h : T.store a bs = some w) :
    (∀ i, i < bs.length → w.tile.byteAt (a + i) = bs.getD i 0) ∧
    (∀ b, (T.region b).readable = true → b < a ∨ a + bs.length ≤ b → w.tile.byteAt b = T.byteAt b) ∧
    w.tile.region = T.region ∧ FramesOk w.tile := by
  have hcases : T.region a = .seg .v ∨ T.region a = .seg .s := by
    cases hx : T.region a with
    | code => rw [hx] at hr; cases hr
    | none => rw [hx] at hr; cases hr
    | seg x => cases x <;> first | exact .inl rfl | exact .inr rfl | (rw [hx] at hr; cases hr)
  have hda : 0x8000 ≤ a := by rcases hcases with h | h <;> exact (region_data h).1
  have hline : ∀ i, i < bs.length → T.region (a + i) = T.region a := by
    intro i hi
    rw [← region_line T a hda, ← region_line T (a + i) (by omega), show lineOf (a + i) = lineOf a by simp only [lineOf]; omega]
  rcases hcases with hv | hs
  · have hw : T.writeV false false a bs false = some w := by simpa [Tile.store, Tile.writeLine, hv] using h
    have hreg : w.tile.region = T.region := by
      obtain ⟨d, d', m, _, -, -, -, e⟩ := writeV_parts hw; rw [e]; rfl
    have hcode : ∀ b, b < 0x8000 → w.tile.byteAt b = T.byteAt b := by
      intro b hb
      obtain ⟨d, d', m, _, -, -, -, e⟩ := writeV_parts hw
      simp only [Tile.byteAt, hb, if_true]; rw [e]; rfl
    refine ⟨fun i hi => ?_, fun b hb ho => ?_, hreg, (writeV_frames hf hv hw).1⟩
    · have hb : (T.region (a + i)).vs = true := by rw [hline i hi]; exact hr
      obtain ⟨-, -, k, -⟩ := writeV_other (b := a + i) hf hv hw hlen hb
      have e1 : w.tile.byteAt (a + i) = w.tile.mem.own (a + i) := by
        simp only [Tile.byteAt, if_neg (show ¬ a + i < 0x8000 by omega), hreg, hline i hi, hv]
      rw [e1, k (by simp only [lineOf]; omega), if_pos ⟨rfl, by omega, by omega⟩]
      congr 1; omega
    · by_cases hc : b < 0x8000
      · exact hcode b hc
      · have hbv : (T.region b).vs = true := by
          cases hx : T.region b with
          | code => simp only [Tile.region, if_neg hc] at hx; split at hx <;> [split at hx; skip] <;> cases hx
          | none => rw [hx] at hb; cases hb
          | seg x => cases x <;> first | rfl | (rw [hx] at hb; cases hb)
        obtain ⟨k1, k2, k3, -⟩ := writeV_other (b := b) hf hv hw hlen hbv
        have e2 : w.tile.mem.own b = T.mem.own b := by
          by_cases hl : lineOf b = lineOf a
          · have hb8 : 0x8000 ≤ b := Nat.not_lt.mp hc
            have hq : b / 128 = a / 128 := by simp only [lineOf] at hl; omega
            rw [k3 hl, if_neg (by omega), if_neg (by omega)]
          · exact k2 hl
        simp only [Tile.byteAt, if_neg hc, hreg]
        cases hx : T.region b with
        | code => exact k1
        | none => exact k1
        | seg x => cases x <;> first | exact e2 | exact k1
  · have hw : w.tile = T.writeS false a bs false := by
      have : some (⟨T.writeS false a bs false, false⟩ : Wrote) = some w := by simpa [Tile.store, Tile.writeLine, hs] using h
      rw [← Option.some.inj this]
    obtain ⟨ed, ef, eo, er, -, -⟩ := writeS_bytes (eng := false) (poison := false) (b := a) hf hs hlen
    have hfr : FramesOk w.tile := by
      rw [hw]
      have hdl : dataLines (T.writeS false a bs false) = dataLines T := by unfold dataLines dataLine; rw [er]
      unfold FramesOk frameOwners
      rw [hdl, ed, ef, eo]
      exact hf
    refine ⟨fun i hi => ?_, fun b hb ho => ?_, by rw [hw]; exact er, hfr⟩
    · have hb : (T.region (a + i)).vs = true := by rw [hline i hi]; exact hr
      obtain ⟨-, -, -, -, k, -⟩ := writeS_bytes (eng := false) (poison := false) (b := a + i) hf hs hlen
      rw [hw]
      simp only [Tile.byteAt, if_neg (show ¬ a + i < 0x8000 by omega), er, hline i hi, hs]
      rw [k hb, if_pos (by omega)]
      congr 1; omega
    · by_cases hc : b < 0x8000
      · rw [hw]; simp only [Tile.byteAt, hc, if_true]; rfl
      · have hbv : (T.region b).vs = true := by
          cases hx : T.region b with
          | code => simp only [Tile.region, if_neg hc] at hx; split at hx <;> [split at hx; skip] <;> cases hx
          | none => rw [hx] at hb; cases hb
          | seg x => cases x <;> first | rfl | (rw [hx] at hb; cases hb)
        obtain ⟨-, -, -, -, k, k'⟩ := writeS_bytes (eng := false) (poison := false) (b := b) hf hs hlen
        have k := k hbv
        have k' := k' hbv
        rw [if_neg (by omega)] at k
        rw [if_neg (by omega), if_neg (by omega)] at k'
        rw [hw]
        simp only [Tile.byteAt, if_neg hc, er]
        cases hx : T.region b with
        | code => exact k
        | none => exact k
        | seg x => cases x <;> first | exact k' | exact k

/-! ## Commit and abort (R134, R135) -/

/-- Committing one line moves the line's frame, and no other. -/
theorem commitLine_frameOf (m : TMem) (l l' : Nat) (d : Delta) :
    (m.commitLine l d).frameOf l' = if l' = l then d.frame else m.frameOf l' := by
  simp only [TMem.commitLine, TMem.frameOf]
  by_cases h : l' = l
  · subst h; rw [SMap.get_set_self, if_pos rfl]
  · rw [if_neg h]
    simp only [SMap.get, SMap.set]
    split
    · rw [SMap.find_erase_ne _ h]
    · rw [SMap.find_insert_ne _ _ h]

/-- The frames of the lines after a list of deltas is committed, and the pool. -/
theorem commitAll (ds : SMap Delta) : ∀ (m : TMem), (ds.map (·.1)).Pairwise (· < ·) →
    (∀ l, (ds.foldl (fun m x => m.commitLine x.1 x.2) m).frameOf l = match ds.find l with | some d => d.frame | none => m.frameOf l) ∧
    (ds.foldl (fun m x => m.commitLine x.1 x.2) m).free = m.free ++ ds.map (fun x : Nat × Delta => m.frameOf x.1) ∧
    (ds.foldl (fun m x => m.commitLine x.1 x.2) m).bytes = m.bytes := by
  induction ds with
  | nil => intro m _; simp
  | cons y t ih =>
    obtain ⟨k, d⟩ := y
    intro m hs
    simp only [List.map_cons, List.pairwise_cons] at hs
    obtain ⟨i1, i2, i3⟩ := ih (m.commitLine k d) hs.2
    have hk : SMap.find t k = none := find_none_of_notMem (fun hmem => absurd (hs.1 k hmem) (lt_irrefl k))
    refine ⟨fun l => ?_, ?_, ?_⟩
    · rw [List.foldl_cons, i1 l]
      simp only [SMap.find]
      by_cases hl : k = l
      · subst hl; rw [hk, if_pos rfl]; simp only [commitLine_frameOf, if_true]
      · rw [if_neg hl]
        cases SMap.find t l with
        | some d2 => rfl
        | none => simp only [commitLine_frameOf]; rw [if_neg (fun h => hl h.symm)]
    · rw [List.foldl_cons, i2]
      have e1 : (m.commitLine k d).free = m.free ++ [m.frameOf k] := rfl
      have e2 : t.map (fun x : Nat × Delta => (m.commitLine k d).frameOf x.1) = t.map (fun x : Nat × Delta => m.frameOf x.1) := by
        apply List.map_congr_left
        intro x hx
        have : x.1 ≠ k := fun e => absurd (hs.1 x.1 (List.mem_map_of_mem hx)) (by rw [e]; exact lt_irrefl k)
        rw [commitLine_frameOf, if_neg this]
      rw [e1, e2]; simp
    · rw [List.foldl_cons, i3]; rfl

/-- Moving one line's frame to its delta's frame is a swap: a line list without repeats keeps its frames. -/
theorem frames_moved (ds : SMap Delta) (f : Nat → Nat) (L : List Nat) (hs : (ds.map (·.1)).Pairwise (· < ·))
    (hL : L.Nodup) (hd : ∀ x ∈ ds, x.1 ∈ L) :
    ((L.map fun l => match ds.find l with | some d => d.frame | none => f l) ++ ds.map fun x : Nat × Delta => f x.1).Perm
      (L.map f ++ ds.map (fun x : Nat × Delta => x.2.frame)) := by
  induction ds with
  | nil => simp
  | cons y t ih =>
    obtain ⟨k, d⟩ := y
    simp only [List.map_cons, List.pairwise_cons] at hs
    have hk : SMap.find t k = none := find_none_of_notMem (fun hmem => absurd (hs.1 k hmem) (lt_irrefl k))
    have ih := ih hs.2 (fun x hx => hd x (List.mem_cons_of_mem _ hx))
    have hkL : k ∈ L := hd (k, d) List.mem_cons_self
    obtain ⟨A, B, rfl⟩ := List.append_of_mem hkL
    have hA : ∀ l ∈ A, l ≠ k := fun l hl e => by
      subst e; exact (List.nodup_append.mp hL).2.2 l hl l List.mem_cons_self rfl
    have hB : ∀ l ∈ B, l ≠ k := fun l hl e => by
      subst e; exact (List.nodup_cons.mp (List.nodup_append.mp hL).2.1).1 hl
    have cA : A.map (fun l => match SMap.find ((k, d) :: t) l with | some d => d.frame | none => f l) =
        A.map (fun l => match SMap.find t l with | some d => d.frame | none => f l) :=
      List.map_congr_left fun l hl => by simp only [SMap.find]; rw [if_neg (fun e => hA l hl e.symm)]
    have cB : B.map (fun l => match SMap.find ((k, d) :: t) l with | some d => d.frame | none => f l) =
        B.map (fun l => match SMap.find t l with | some d => d.frame | none => f l) :=
      List.map_congr_left fun l hl => by simp only [SMap.find]; rw [if_neg (fun e => hB l hl e.symm)]
    simp only [List.map_append, List.map_cons] at ih ⊢
    rw [cA, cB]
    simp only [hk] at ih
    simp only [SMap.find, if_true]
    have p1 : (A.map (fun l => match SMap.find t l with | some d => d.frame | none => f l) ++
        d.frame :: B.map (fun l => match SMap.find t l with | some d => d.frame | none => f l) ++ f k :: t.map fun x : Nat × Delta => f x.1).Perm
        (d.frame :: (A.map (fun l => match SMap.find t l with | some d => d.frame | none => f l) ++
        f k :: B.map (fun l => match SMap.find t l with | some d => d.frame | none => f l) ++ t.map fun x : Nat × Delta => f x.1)) := by
      refine (List.perm_middle.append_right _).trans ?_
      simp only [List.cons_append]
      refine List.Perm.cons _ ?_
      refine List.perm_middle.trans ?_
      simp only [List.append_assoc, List.cons_append]
      exact List.perm_middle.symm
    refine p1.trans ?_
    refine (List.Perm.cons _ ih).trans ?_
    exact List.perm_middle.symm

/-- A commit leaves every frame one owner (R134, R136). -/
theorem commit_frames {T : Tile} (hf : FramesOk T) : FramesOk { T with mem := T.mem.commit } ∧
    (∀ l, T.mem.commit.frameOf l = match T.mem.deltas.find l with | some d => d.frame | none => T.mem.frameOf l) ∧
    T.mem.commit.bytes = T.mem.bytes := by
  obtain ⟨c1, c2, c3⟩ := commitAll T.mem.deltas T.mem hf.1
  have e1 : T.mem.commit.frameOf = (T.mem.deltas.foldl (fun m x => m.commitLine x.1 x.2) T.mem).frameOf := rfl
  refine ⟨⟨List.Pairwise.nil, fun x hx => (List.not_mem_nil hx).elim, ?_⟩, fun l => by rw [e1]; exact c1 l, c3⟩
  have hreg : ({ T with mem := T.mem.commit } : Tile).region = T.region := rfl
  have hdl : dataLines { T with mem := T.mem.commit } = dataLines T := by unfold dataLines dataLine; rw [hreg]
  have hfo : ∀ l, T.mem.commit.frameOf l = match T.mem.deltas.find l with | some d => d.frame | none => T.mem.frameOf l := fun l => by
    rw [e1]; exact c1 l
  have efree : T.mem.commit.free = T.mem.free ++ T.mem.deltas.map (fun x : Nat × Delta => T.mem.frameOf x.1) := c2
  show (((dataLines { T with mem := T.mem.commit }).map T.mem.commit.frameOf ++ [] ++ T.mem.commit.free)).Nodup
  rw [hdl, List.append_nil, efree, show T.mem.commit.frameOf = _ from funext hfo]
  have hp := frames_moved T.mem.deltas T.mem.frameOf (dataLines T) hf.1 (List.Nodup.filter _ List.nodup_range) hf.2.1
  refine List.Perm.nodup ?_ hf.2.2
  refine List.Perm.trans (List.Perm.append_right _ hp.symm) ?_
  simp only [List.append_assoc]
  exact List.Perm.append_left _ List.perm_append_comm

/-- An abort leaves every frame one owner (R135, R136). -/
theorem abort_frames {T : Tile} (hf : FramesOk T) : FramesOk { T with mem := T.mem.abort } := by
  refine ⟨List.Pairwise.nil, fun x hx => (List.not_mem_nil hx).elim, ?_⟩
  have hreg : ({ T with mem := T.mem.abort } : Tile).region = T.region := rfl
  have hdl : dataLines { T with mem := T.mem.abort } = dataLines T := by unfold dataLines dataLine; rw [hreg]
  show ((dataLines { T with mem := T.mem.abort }).map T.mem.frameOf ++ [] ++
    (T.mem.free ++ T.mem.deltas.map (fun x : Nat × Delta => x.2.frame))).Nodup
  rw [hdl]
  have h := hf.2.2
  rw [frameOwners] at h
  refine List.Perm.nodup ?_ h
  simp only [List.append_nil, List.append_assoc]
  exact List.Perm.append_left _ List.perm_append_comm

end Sys2Proof.Laws
end

