-- ==== Sys2Proof/Laws/Vector.lean ====
section
/-! SUPPORT. Elements and lanes of vectors (R101, R156): what packing, the lane mask and a lane-wise write come to. -/

namespace Sys2Proof.Laws

open Sys2Proof.Machine Sys2Proof.Safety

theorem packElements_lt (w : Nat) : ∀ l : List Nat, packElements w l < 2 ^ (w * l.length)
  | [] => by simp [packElements]
  | x :: t => by
    have ih := packElements_lt w t
    have h1 : x % 2 ^ w < 2 ^ w := Nat.mod_lt _ (by positivity)
    simp only [packElements, List.length_cons]
    rw [show w * (t.length + 1) = w + w * t.length by ring, pow_add]
    calc x % 2 ^ w + 2 ^ w * packElements w t < 2 ^ w + 2 ^ w * packElements w t := by omega
      _ = 2 ^ w * (packElements w t + 1) := by ring
      _ ≤ 2 ^ w * 2 ^ (w * t.length) := Nat.mul_le_mul_left _ ih

/-- Element e of packed elements. -/
theorem element_pack (w : Nat) : ∀ (l : List Nat) (e : Nat), e < l.length → element (packElements w l) w e = l.getD e 0 % 2 ^ w
  | [], e, h => absurd h (Nat.not_lt_zero e)
  | x :: t, 0, _ => by
    simp [element, packElements, Nat.add_mul_mod_self_left]
  | x :: t, e + 1, h => by
    have ih := element_pack w t e (by simpa using h)
    simp only [element, packElements, List.getD_cons_succ] at ih ⊢
    rw [show w * (e + 1) = w + w * e by ring, pow_add, ← Nat.div_div_eq_div_mul,
      Nat.add_mul_div_left _ _ (by positivity), Nat.div_eq_of_lt (Nat.mod_lt _ (by positivity)), Nat.zero_add, ih]

/-- Packing into a vector loses nothing. -/
theorem toNat_pack (w n : Nat) (l : List Nat) (h : w * l.length ≤ n) : (BitVec.ofNat n (packElements w l)).toNat = packElements w l := by
  rw [BitVec.toNat_ofNat, Nat.mod_eq_of_lt]
  exact lt_of_lt_of_le (packElements_lt w l) (Nat.pow_le_pow_right (by decide) h)

/-- Bit j of an element. -/
theorem testBit_element (v w e j : Nat) : (element v w e).testBit j = (decide (j < w) && v.testBit (w * e + j)) := by
  simp only [element, Nat.testBit_mod_two_pow, Nat.testBit_div_two_pow]
  rw [Nat.add_comm]

/-- A bit of packed bits. -/
theorem getLsbD_pack1 (n : Nat) (f : Nat → Bool) (i : Nat) (h : i < n) :
    (BitVec.ofNat n (packElements 1 ((List.range n).map fun i => if f i then 1 else 0))).getLsbD i = f i := by
  rw [BitVec.getLsbD, toNat_pack _ _ _ (by simp)]
  have := element_pack 1 ((List.range n).map fun i => if f i then 1 else 0) i (by simpa using h)
  have t := testBit_element (packElements 1 ((List.range n).map fun i => if f i then 1 else 0)) 1 i 0
  rw [this] at t
  simp only [Nat.one_mul, Nat.add_zero] at t
  rw [show decide (0 < 1) = true from rfl, Bool.true_and] at t
  rw [← t, List.getD_eq_getElem _ _ (by simpa using h)]
  simp only [List.getElem_map, List.getElem_range]
  cases f i <;> rfl

/-- The lane mask of a vector covers exactly the lanes of the mask. -/
theorem getLsbD_laneBits (m : BitVec 64) (j : Nat) : (laneBits m).getLsbD j = (decide (j < 2048) && m.getLsbD (j / 32)) := by
  by_cases hj : j < 2048
  · have hl : j / 32 < 64 := by omega
    rw [laneBits, BitVec.getLsbD, toNat_pack _ _ _ (by simp)]
    have e := element_pack 32 ((List.range 64).map fun i => if m.getLsbD i then 2 ^ 32 - 1 else 0) (j / 32) (by simpa using hl)
    have t := testBit_element (packElements 32 ((List.range 64).map fun i => if m.getLsbD i then 2 ^ 32 - 1 else 0)) 32 (j / 32) (j % 32)
    rw [e, List.getD_eq_getElem _ _ (by simpa using hl)] at t
    simp only [List.getElem_map, List.getElem_range] at t
    rw [show 32 * (j / 32) + j % 32 = j from Nat.div_add_mod j 32] at t
    have hm : j % 32 < 32 := Nat.mod_lt _ (by decide)
    simp only [hm, decide_true, Bool.true_and] at t
    rw [← t]
    simp only [hj, decide_true, Bool.true_and]
    cases hb : m.getLsbD (j / 32)
    · simp
    · simp only [if_true, Nat.testBit_mod_two_pow, hm, decide_true, Bool.true_and, Nat.testBit_two_pow_sub_one]
  · rw [BitVec.getLsbD_of_ge _ _ (by omega)]; simp [hj]

/-- One bit of the vector that a lane-wise write leaves. -/
theorem getLsbD_merge (old v : Vec) (act : BitVec 64) (j : Nat) :
    ((old &&& ~~~(laneBits act)) ||| (v &&& laneBits act)).getLsbD j =
      if act.getLsbD (j / 32) then v.getLsbD j else old.getLsbD j := by
  by_cases hj : j < 2048
  · simp only [BitVec.getLsbD_or, BitVec.getLsbD_and, BitVec.getLsbD_not, getLsbD_laneBits, hj, decide_true, Bool.true_and]
    cases act.getLsbD (j / 32) <;> simp
  · rw [BitVec.getLsbD_of_ge _ _ (by omega), BitVec.getLsbD_of_ge v _ (by omega), BitVec.getLsbD_of_ge old _ (by omega)]; simp

/-- One element of the vector that a lane-wise write leaves, for a width that divides a lane. -/
theorem element_merge (old v : Vec) (act : BitVec 64) {w : Nat} (hw : 0 < w) (hd : w ∣ 32) (e : Nat) :
    element ((old &&& ~~~(laneBits act)) ||| (v &&& laneBits act)).toNat w e =
      if act.getLsbD (w * e / 32) then element v.toNat w e else element old.toNat w e := by
  apply Nat.eq_of_testBit_eq
  intro j
  have key : ∀ x : Nat, (if act.getLsbD (w * e / 32) then element v.toNat w e else element old.toNat w e).testBit x =
      if act.getLsbD (w * e / 32) then (element v.toNat w e).testBit x else (element old.toNat w e).testBit x := by
    intro x; split <;> rfl
  rw [key, testBit_element, testBit_element, testBit_element]
  by_cases hj : j < w
  · have hdiv : (w * e + j) / 32 = w * e / 32 := by
      obtain ⟨k, hk⟩ := hd
      have hk0 : 0 < k := by rcases Nat.eq_zero_or_pos k with h | h; · subst h; simp at hk
                             · exact h
      rw [hk, ← Nat.div_div_eq_div_mul, ← Nat.div_div_eq_div_mul, Nat.mul_add_div hw, Nat.div_eq_of_lt hj, Nat.add_zero,
        Nat.mul_div_cancel_left _ hw]
    have m := getLsbD_merge old v act (w * e + j)
    rw [hdiv] at m
    simp only [BitVec.getLsbD] at m
    simp only [hj, decide_true, Bool.true_and]
    rw [m]; rfl
  · simp [hj]

/-- One lane's poison after a lane-wise write. -/
theorem getLsbD_mergeTag (old t act : BitVec 64) (i : Nat) :
    ((old &&& ~~~act) ||| (t &&& act)).getLsbD i = if act.getLsbD i then t.getLsbD i else old.getLsbD i := by
  by_cases hi : i < 64
  · simp only [BitVec.getLsbD_or, BitVec.getLsbD_and, BitVec.getLsbD_not, hi, decide_true, Bool.true_and]
    cases act.getLsbD i <;> simp
  · rw [BitVec.getLsbD_of_ge _ _ (by omega), BitVec.getLsbD_of_ge t _ (by omega), BitVec.getLsbD_of_ge old _ (by omega)]; simp

/-- A lane is a 32-bit element. -/
theorem lane_eq (v : Vec) (i : Nat) : (lane v i).toNat = element v.toNat 32 i := by
  rw [lane, BitVec.extractLsb'_toNat, element, Nat.shiftRight_eq_div_pow]

/-- The flags of a list of results. -/
theorem bits_foldl_or (rs : List (Nat × Flags)) (b : Nat) (hb : b < 5) : ∀ fl : Flags,
    ((rs.foldl (fun fl r => fl.or r.2) fl).bits.testBit b = true ↔ fl.bits.testBit b = true ∨ ∃ r ∈ rs, r.2.bits.testBit b = true) := by
  have one : ∀ x y : Flags, ((x.or y).bits.testBit b = true ↔ x.bits.testBit b = true ∨ y.bits.testBit b = true) := by
    rintro ⟨a1, a2, a3, a4, a5⟩ ⟨b1, b2, b3, b4, b5⟩
    interval_cases b <;> revert a1 a2 a3 a4 a5 b1 b2 b3 b4 b5 <;> decide
  induction rs with
  | nil => intro fl; simp
  | cons r t ih =>
    intro fl
    rw [List.foldl_cons, ih, one]
    simp only [List.mem_cons, exists_eq_or_imp, or_assoc]

/-- Elements computed in active lanes, and the flags they raise (R156). -/
theorem elementwise_spec (w : Nat) (act : BitVec 64) (f : Nat → Nat × Flags) (hw : w * (2048 / w) ≤ 2048) :
    (∀ e, e < 2048 / w → act.getLsbD (w * e / 32) = true → element (elementwise w act f).1.toNat w e = (f e).1 % 2 ^ w) ∧
    (∀ b, b < 5 → ((elementwise w act f).2.bits.testBit b = true ↔
      ∃ e, e < 2048 / w ∧ act.getLsbD (w * e / 32) = true ∧ (f e).2.bits.testBit b = true)) := by
  refine ⟨fun e he ha => ?_, fun b hb => ?_⟩
  · simp only [elementwise]
    rw [toNat_pack _ _ _ (by simpa using hw), element_pack _ _ _ (by simpa using he),
      List.getD_eq_getElem _ _ (by simpa using he)]
    simp only [List.getElem_map, List.getElem_range, ha, if_true]
  · simp only [elementwise]
    rw [bits_foldl_or _ _ hb]
    have z : ({} : Flags).bits.testBit b = false := by interval_cases b <;> decide
    simp only [z, Bool.false_eq_true, false_or, List.mem_map, List.mem_range]
    constructor
    · rintro ⟨r, ⟨e, he, rfl⟩, h⟩
      by_cases ha : act.getLsbD (w * e / 32) = true
      · exact ⟨e, he, ha, by simpa [ha] using h⟩
      · simp only [ha, Bool.false_eq_true, if_false, z] at h
    · rintro ⟨e, he, ha, h⟩
      exact ⟨_, ⟨e, he, rfl⟩, by simpa [ha] using h⟩

end Sys2Proof.Laws
end

