-- ==== Sys2Proof/Laws/Outcomes.lean ====
section
/-! SUPPORT. Outcomes of an issue: what `issue` comes to for each effect of a body, and the checks that stop it before. -/

namespace Sys2Proof.Laws

open Sys2Proof.Machine Sys2Proof.Safety

theorem clears_as {s : State} {i : Info} (h : Clears s i) (j : Info) (hb : i.bodyOk = j.bodyOk := by rfl) (hf : i.formats = j.formats := by rfl)
    (hg : i.guard = j.guard := by rfl) (hm : i.msgOk = j.msgOk := by rfl) (hr : i.regs = j.regs := by rfl) (hp : i.priv = j.priv := by rfl) : Clears s j := clears_congr h hb hf hg hm hr hp

theorem updMe_congr {s : State} {f g : Strand → Strand} (h : f s.me = g s.me) : s.updMe f = s.updMe g := by
  simp [State.updMe, h]

theorem shift_amount (y : Word) : bitsOf y 0 6 = y.toNat % 64 := by simp [bitsOf]

theorem rolWord_eq (x : Word) (n : Nat) (h : n < 64) : rolWord x n = x.rotateLeft n := by
  simp [rolWord, BitVec.rotateLeft, BitVec.rotateLeftAux, Nat.mod_eq_of_lt h]

theorem issue_scalar {s : State} {d : SReg} {v : Strand → Word} {rs : List SReg} {i : Info} {w : Word} {tag : Bool}
    (h : Clears s i) (hf : i.formats = none) (hs : i.sync = Sync.none) (hv : v s.me = w) (ht : s.me.tags rs = tag) :
    s.issue i (scalarBody d v rs) = .next (regResult s d w tag) := by
  rw [issue_done h hf hs rfl]
  simp only [regResult, retired]
  rw [updMe_congr (g := fun x => x.wr d w tag)]
  simp [hv, ht]

theorem issue_predicate {s : State} {d : PReg} {v t : Strand → Bool} {i : Info} {w : Bool} {tag : Bool}
    (h : Clears s i) (hf : i.formats = none) (hs : i.sync = Sync.none) (hv : v s.me = w) (ht : t s.me = tag) :
    s.issue i (predBody d v t) = .next (predResult s d w tag) := by
  rw [issue_done h hf hs rfl]
  simp only [predResult, retired]
  rw [updMe_congr (g := fun x => x.pwr d w tag)]
  simp [hv, ht]

theorem tags_pair (x : Strand) (a b : SReg) : x.tags [a, b] = (x.tag a || x.tag b) := by simp [Strand.tags]

theorem tags_one (x : Strand) (a : SReg) : x.tags [a] = x.tag a := by simp [Strand.tags]

theorem minS_eq (x y : Word) : minS x y = if y.slt x then y else x := by
  simp only [minS, BitVec.slt]; split <;> split <;> simp_all <;> omega

theorem maxS_eq (x y : Word) : maxS x y = if x.slt y then y else x := by
  simp only [maxS, BitVec.slt]; split <;> split <;> simp_all
  all_goals (apply BitVec.eq_of_toInt_eq; omega)

theorem minU_eq (x y : Word) : minU x y = if y.ult x then y else x := by
  simp only [minU, BitVec.ult]; split <;> split <;> simp_all <;> omega

theorem maxU_eq (x y : Word) : maxU x y = if x.ult y then y else x := by
  simp only [maxU, BitVec.ult]; split <;> split <;> simp_all
  all_goals (apply BitVec.eq_of_toNat_eq; omega)

theorem leadingZeros_spec (x : Nat) : ∀ n, x < 2 ^ n → leadingZeros x n ≤ n ∧ x < 2 ^ (n - leadingZeros x n) ∧ (x ≠ 0 → leadingZeros x n < n ∧ 2 ^ (n - 1 - leadingZeros x n) ≤ x) ∧ (x = 0 → leadingZeros x n = n) := by
  intro n
  induction n with
  | zero => intro h; simp [leadingZeros] at *; omega
  | succ n ih =>
    intro h
    by_cases hb : x / 2 ^ n % 2 = 1
    · simp only [leadingZeros, hb, if_true]
      have : 2 ^ n ≤ x := by
        by_contra hc
        rw [Nat.div_eq_of_lt (by omega)] at hb; simp at hb
      refine ⟨by omega, by simpa using h, fun _ => ⟨by omega, by simpa using this⟩, fun h0 => ?_⟩
      have := Nat.two_pow_pos n; omega
    · simp only [leadingZeros, hb, if_false]
      have hx : x < 2 ^ n := by
        by_contra hc
        have h1 : x / 2 ^ n = 1 := by
          rw [Nat.div_eq_iff (Nat.two_pow_pos n)]; rw [pow_succ] at h; omega
        simp [h1] at hb
      obtain ⟨a, b, c, d⟩ := ih hx
      refine ⟨by omega, ?_, fun h0 => ⟨?_, ?_⟩, fun h0 => ?_⟩
      · rwa [show n + 1 - (1 + leadingZeros x n) = n - leadingZeros x n by omega]
      · have := (c h0).1; omega
      · have := (c h0).2
        rwa [show n + 1 - 1 - (1 + leadingZeros x n) = n - 1 - leadingZeros x n by omega]
      · have := d h0; omega

theorem trailingZeros_spec : ∀ (n x : Nat), x < 2 ^ n → trailingZeros x n ≤ n ∧ x % 2 ^ trailingZeros x n = 0 ∧ (x ≠ 0 → x.testBit (trailingZeros x n) = true) ∧ (x = 0 → trailingZeros x n = n) := by
  intro n
  induction n with
  | zero => intro x h; simp [trailingZeros] at *; omega
  | succ n ih =>
    intro x h
    by_cases hb : x % 2 = 1
    · simp only [trailingZeros, hb, if_true]
      refine ⟨by omega, by simp [Nat.mod_one], fun _ => by simp [Nat.testBit_zero, hb], fun h0 => by omega⟩
    · simp only [trailingZeros, hb, if_false]
      obtain ⟨a, b, c, d⟩ := ih (x / 2) (by rw [pow_succ] at h; omega)
      refine ⟨by omega, ?_, fun h0 => ?_, fun h0 => ?_⟩
      · have h2 : x = 2 * (x / 2) := by omega
        rw [h2, Nat.add_comm, pow_succ, Nat.mul_comm (2 ^ _) 2, Nat.mul_mod_mul_left]
        have : 2 * (x / 2) / 2 = x / 2 := by omega
        rw [this, b]
      · rw [Nat.add_comm, Nat.testBit_add_one]; exact c (by omega)
      · have := d (by omega); omega

theorem onesCount_spec : ∀ (n x : Nat), onesCount x n = (List.range n).countP fun i => x.testBit i := by
  intro n
  induction n with
  | zero => intro x; simp [onesCount]
  | succ n ih =>
    intro x
    rw [onesCount, ih, List.range_succ_eq_map, List.countP_cons, List.countP_map]
    have : (fun i => (x / 2).testBit i) = ((fun i => x.testBit i) ∘ Nat.succ) := by
      funext i; simp [Nat.testBit_add_one]
    rw [this]
    simp only [Nat.testBit_zero, decide_eq_true_eq]
    rw [Nat.add_comm]; congr 1
    split <;> omega

theorem issue_goto {s s' : State} {i : Info} {pc : Pc} {r : Rep} {body : Nat → Nat → State → Eff} (h : Clears s i) (hf : i.formats = none)
    (hs : i.sync = Sync.none) (hb : body 0 0 s = .goto s' pc r) :
    s.issue i body = .next (s'.retireAt pc r false) := by
  rw [issue_clears h, hf]
  exact settle_goto _ hs hb

theorem issue_trapAt {s : State} {i : Info} {p : Pc} {c : Nat} {v : Word} {body : Nat → Nat → State → Eff} (h : Clears s i)
    (hf : i.formats = none) (hb : body 0 0 s = .trapAt p c v) : s.issue i body = .next (s.trapMe c p v) := by
  rw [issue_clears h, hf]; simp [State.settle, hb]

theorem issue_final {s s' : State} {i : Info} {body : Nat → Nat → State → Eff} (h : Clears s i) (hf : i.formats = none)
    (hs : i.sync = Sync.none) (hb : body 0 0 s = .final s') :
    s.issue i body = .next (s'.updMe fun x => { x with issued := true }) := by
  rw [issue_clears h, hf]
  exact settle_final _ hs hb

theorem jump_ok {s s' : State} {t : Nat} (h : Landing s t) : s.jump s' t = .goto s' (BitVec.ofNat 15 t) s.me.rep := by
  unfold Landing at h
  unfold State.jump
  by_cases h4 : s.curStrand = 4
  · simp only [h4, if_true] at h ⊢
    rw [if_neg]; simp; omega
  · simp only [h4, if_false] at h ⊢
    rcases h with h | h
    · simp [h]
    · by_cases hf : s.forwarded = true
      · simp [hf]
      · simp [hf, h]

theorem jump_bad {s s' : State} {t : Nat} (h : ¬ Landing s t) : s.jump s' t = .trap 0x03 (BitVec.ofNat 64 t) := by
  unfold Landing at h
  unfold State.jump
  by_cases h4 : s.curStrand = 4
  · simp only [h4, if_true] at h ⊢
    rw [if_pos]; simp; omega
  · simp only [h4, if_false] at h ⊢
    simp only [not_or, Bool.not_eq_true, Bool.not_eq_false] at h
    simp [h.1, h.2]

theorem clears_branch {s : State} {g : Guard} (h : Clears s (barred g)) : Clears s { head := 0x4600, guard := g, msgOk := true, bodyOk := false } := by
  obtain ⟨h1, h2, h3, h4, h5, h6⟩ := h
  exact ⟨h1, h2, h3, h4, fun h => by have := (h5 h).1; simp [Safety.barred] at this, h6⟩

theorem streams_loaded (x : Strand) : ∀ n, n ≤ 8 →
    let y := (List.range n).foldl (fun x i => x.kwr (BitVec.ofNat 3 i) (BitVec.ofNat 64 (bitsOf (x.rd (BitVec.ofNat 6 (24 + i))) 0 34))) x
    (∀ r, y.rd r = x.rd r) ∧ (∀ i, i < n → y.krd (BitVec.ofNat 3 i) = x.rd (BitVec.ofNat 6 (24 + i)) &&& 0x3FFFFFFFF) ∧ y = { x with k := y.k } := by
  have hm : ∀ v : Word, BitVec.ofNat 64 (bitsOf v 0 34) = v &&& 0x3FFFFFFFF := by
    intro v
    apply BitVec.eq_of_toNat_eq
    have := Nat.and_two_pow_sub_one_eq_mod v.toNat 34
    simp only [bitsOf, BitVec.toNat_ofNat, BitVec.toNat_and]
    norm_num at this ⊢
    show v.toNat % 17179869184 % 18446744073709551616 = v.toNat &&& 17179869183
    rw [this]; omega
  intro n
  induction n with
  | zero => intro _; simp
  | succ n ih =>
    intro hn
    obtain ⟨h1, h2, h3⟩ := ih (by omega)
    simp only [List.range_succ, List.foldl_append, List.foldl_cons, List.foldl_nil]
    generalize (List.range n).foldl (fun x i => x.kwr (BitVec.ofNat 3 i) (BitVec.ofNat 64 (bitsOf (x.rd (BitVec.ofNat 6 (24 + i))) 0 34))) x = y at *
    refine ⟨fun r => h1 r, fun i hi => ?_, ?_⟩
    · simp only [Strand.krd, Strand.kwr, SMap.get_set]
      have : (BitVec.ofNat 3 i).toNat = (BitVec.ofNat 3 n).toNat ↔ i = n := by
        simp only [BitVec.toNat_ofNat]; omega
      by_cases hin : i = n
      · subst hin; simp only [if_true, h1, hm]
      · rw [if_neg (by rw [this]; exact hin)]; exact h2 i (by omega)
    · rw [h3]; rfl

theorem skipBody_ok (T : Tile) (p : Nat → Pc) : ∀ (n k : Nat), (∀ i, p (i + 1) = T.pcAfter (p i) (T.slotsAt (p i))) →
    (∀ i, i < n → T.badLine (p (k + i)) = false) → T.skipBody (p k) n = .inr (p (k + n)) := by
  intro n
  induction n with
  | zero => intro k _ _; simp [Tile.skipBody]
  | succ n ih =>
    intro k hp h
    have h0 := h 0 (by omega)
    simp only [Nat.add_zero] at h0
    simp only [Tile.skipBody, h0, Bool.false_eq_true, if_false, ← hp]
    rw [ih (k + 1) hp (fun i hi => by have := h (i + 1) (by omega); rwa [show k + 1 + i = k + (i + 1) by omega])]
    congr 2; omega

theorem skipBody_bad (T : Tile) (p : Nat → Pc) : ∀ (n k j : Nat), (∀ i, p (i + 1) = T.pcAfter (p i) (T.slotsAt (p i))) → j < n →
    (∀ i, i < j → T.badLine (p (k + i)) = false) → T.badLine (p (k + j)) = true → T.skipBody (p k) n = .inl (p (k + j)) := by
  intro n
  induction n with
  | zero => intro k j _ h; omega
  | succ n ih =>
    intro k j hp hj h hb
    cases j with
    | zero => simp only [Nat.add_zero] at hb ⊢; simp [Tile.skipBody, hb]
    | succ j =>
      have h0 := h 0 (by omega)
      simp only [Nat.add_zero] at h0
      simp only [Tile.skipBody, h0, Bool.false_eq_true, if_false, ← hp]
      rw [ih (k + 1) j hp (by omega) (fun i hi => by have := h (i + 1) (by omega); rwa [show k + 1 + i = k + (i + 1) by omega]) (by rwa [show k + 1 + j = k + (j + 1) by omega])]
      congr 2; omega

theorem failTile_vote (s : State) (t : Nat) (h : isSteward t = false) (v : BitVec 2) (c : BitVec 8) :
    ((s.failTile t v c).tile t).vote = (s.tile t).vote.raise v c ∧ ((s.failTile t v c).tile t).seq.failed = true := by
  simp [State.failTile, h, State.cancelWork, State.raiseVote, State.updTile, State.tile, State.setTile, Tile.fail]

theorem get_map_values {α β : Type} (m : SMap α) (f : Nat × α → β) (k : Nat) (d : α) (e : β) (h : f (k, d) = e) :
    SMap.get (m.map fun x => (x.1, f x)) k e = f (k, SMap.get m k d) := by
  induction m with
  | nil => simp [SMap.get, SMap.find, h]
  | cons x t ih =>
    simp only [SMap.get, List.map_cons, SMap.find] at *
    by_cases hx : x.1 = k
    · subst hx; simp
    · simp [hx, ih]

theorem fail_keeps_idle (T : Tile) (k : Nat) (d : Strand) (hr : (SMap.get T.strands k d).run = .idle) :
    (SMap.get T.fail.strands k d).run = .idle := by
  simp only [Tile.fail]
  generalize T.strands = m at *
  induction m with
  | nil => exact hr
  | cons x t ih =>
    simp only [SMap.get, List.map_cons, SMap.find] at *
    by_cases hx : x.1 = k
    · simp only [hx, if_true, Option.getD_some] at *
      split
      · rename_i h1; rw [hr] at h1; cases h1
      · exact hr
    · simp only [hx, if_false] at *
      exact ih hr

theorem failTile_keeps_idle (s : State) (t k : Nat) (h : isSteward t = false) (v : BitVec 2) (c : BitVec 8) (hr : (s.strand t k).run = .idle) :
    ((s.failTile t v c).strand t k).run = .idle := by
  simp only [State.failTile, h, Bool.false_eq_true, if_false, State.cancelWork, State.raiseVote]
  simp only [State.strand, State.updTile, State.tile, State.setTile, SMap.get_set_self]
  exact fail_keeps_idle _ _ _ hr

theorem failTile_turn (s : State) (t : Nat) (h : isSteward t = false) (v : BitVec 2) (c : BitVec 8) :
    (s.failTile t v c).curTile = s.curTile ∧ (s.failTile t v c).curStrand = s.curStrand := by
  simp [State.failTile, h, State.cancelWork, State.raiseVote, State.updTile, State.setTile]

theorem issue_park {s : State} {i : Info} {w : Reason} {body : Nat → Nat → State → Eff} (h : Clears s i)
    (hf : i.formats = none) (hb : body 0 0 s = .park w) : s.issue i body = .next (s.parkMe w) := by
  rw [issue_clears h, hf]; exact settle_park _ hb

theorem issue_parked {s s' : State} {i : Info} {w : Reason} {body : Nat → Nat → State → Eff} (h : Clears s i)
    (hf : i.formats = none) (hs : i.sync = Sync.none) (hb : body 0 0 s = .parked s' w) : s.issue i body = .next (s'.updMe fun x => { x with run := .parked w, took := false, issued := true }) := by
  rw [issue_clears h, hf]; exact settle_parked _ hs hb

theorem issue_retry {s s' : State} {i : Info} {body : Nat → Nat → State → Eff} (h : Clears s i)
    (hf : i.formats = none) (hw : s.waitMet i.sync = true) (hb : body 0 0 s = .retry s') :
    s.issue i body = .next (s'.updMe fun x => { x with run := .ready }) := by
  rw [issue_clears h, hf]; exact settle_retry _ hw hb

theorem issue_done2 {s s' : State} {i : Info} {body : Nat → Nat → State → Eff} (h : Clears s i) (hf : i.formats = none)
    (hs : i.sync = Sync.none) (hb : body 0 0 s = .done s') :
    s.issue i body = .next (retired s s') := issue_done h hf hs hb

theorem lowPoison_none (x : Strand) (rs : List SReg) (h : ∀ r ∈ rs, x.tag r = false) : x.lowPoison rs = none := by
  have : rs.filter x.tag = [] := by
    rw [List.filter_eq_nil_iff]; intro r hr; simp [h r hr]
  simp [Strand.lowPoison, this]

theorem issue_misused_prefix {s : State} {i : Info} {b} (hr : s.me.rep.active = false) (hf : i.formats = none) (h : s.me.pp = true) :
  s.issue i b = .next (traps s 0x1C (BitVec.ofNat 64 i.head)) := by
  simp [State.issue, hr, Strand.prefixMisuse, h, hf, traps]

theorem issue_poisoned_guard {s : State} {i : Info} {b} (hr : s.me.rep.active = false) (h : s.me.pp = false) (hg : i.guard.mask = false)
   (h2 : s.me.pt i.guard.idx = true) :
  s.issue i b = .next (traps s 0x08 (i.guard.idx.setWidth 64)) := by
  simp [State.issue, hr, Strand.prefixMisuse, h, traps, Strand.guardPoison, hg, h2]

theorem issue_guarded_off {s : State} {i : Info} {b} (hr : s.me.rep.active = false) (h : s.me.pp = false) (hg : i.guard.mask = false)
   (h2 : s.me.pt i.guard.idx = false) (h3 : s.me.prd i.guard.idx = i.guard.inv) (hs : i.sync = Sync.none) :
  s.issue i b = .next (retired s s) := by
  simp [State.issue, hr, Strand.prefixMisuse, h, Strand.guardPoison, hg, h2, Strand.guardedOff, h3, State.guardOff, hs, Sync.none, State.waitMet, State.takeWait, State.signalMe, retired]

theorem issue_restricted {s : State} {i : Info} {b} (hr : s.me.rep.active = false) (h : s.me.pp = false) (hg : i.guard.mask = false)
   (h2 : s.me.pt i.guard.idx = false) (h3 : s.me.prd i.guard.idx ≠ i.guard.inv) (hm : i.msgOk = false) (h4 : s.curStrand = 4) :
  s.issue i b = .next (traps s 0x15 (BitVec.ofNat 64 i.head)) := by
  simp [State.issue, hr, Strand.prefixMisuse, h, Strand.guardPoison, hg, h2, Strand.guardedOff, h3, hm, h4, traps]

theorem issue_privilege {s : State} {i : Info} {b} (hr : s.me.rep.active = false) (h : s.me.pp = false) (hg : i.guard.mask = false)
   (h2 : s.me.pt i.guard.idx = false) (h3 : s.me.prd i.guard.idx ≠ i.guard.inv) (h4 : s.curStrand ≠ 4) (hp : s.me.priv < i.priv) :
  s.issue i b = .next (traps s 0x04 (BitVec.ofNat 64 i.head)) := by
  simp [State.issue, hr, Strand.prefixMisuse, h, Strand.guardPoison, hg, h2, Strand.guardedOff, h3, h4, hp, traps]

end Sys2Proof.Laws
end

