-- ==== Sys2Proof/Laws/Traps.lean ====
section
/-! SUPPORT. Taking a trap, returning from one, and the failure of a tile: what each leaves. -/

namespace Sys2Proof.Laws

open Sys2Proof.Machine Sys2Proof.Safety

theorem takeTrap_handled {s : State} {t k cause : Nat} {pc : Pc} {val : Word} (h : Handled s t k cause) :
    s.takeTrap t k cause pc val = s.setStrand t k (((s.strand t k).record cause pc val).enterHandler) := by
  obtain ⟨h1, h2, h3, h4, h5, h6⟩ := h
  have e2 : ((s.strand t k).record cause pc val).td = false := h2
  have e3 : ((s.strand t k).record cause pc val).tvec = (s.strand t k).tvec := rfl
  unfold State.takeTrap
  simp only [h1, e2, e3, h3, h4, h5, h6, decide_false, Bool.not_true, Bool.or_false, Bool.false_eq_true, if_false]

theorem bit_mod (b : Bool) : (if b then 1 else 0) % 2 ^ 1 = if b then 1 else 0 := by cases b <;> rfl

theorem pfmt_lt (x : Strand) : x.pfmt < 2 ^ 8 := Nat.mod_lt _ (by decide)

theorem priv_lt (x : Strand) : x.priv < 4 := Nat.mod_lt _ (by decide)

theorem enterHandler_bits (x : Strand) :
    bitsOf x.enterHandler.status 22 2 = x.priv ∧ x.enterHandler.status.getLsbD 24 = x.pp ∧ bitsOf x.enterHandler.status 25 8 = x.pfmt ∧
    x.enterHandler.pp = false ∧ x.enterHandler.pfmt = 0 ∧ x.enterHandler.priv = (if x.priv = 0 then 1 else x.priv) ∧ x.enterHandler.td = true ∧
    (∀ i, (11 ≤ i ∧ i ≤ 20) ∨ 33 ≤ i → x.enterHandler.status.getLsbD i = x.status.getLsbD i) := by
  have hp := priv_lt x
  have hf := pfmt_lt x
  have hw : ∀ (y : Word) (a n : Nat), a + n ≤ 21 ∨ 22 ≤ a → bitsOf (withBit y 21 true) a n = bitsOf y a n := by
    intro y a n ha
    apply Nat.eq_of_testBit_eq
    intro i
    simp only [bitsOf, Nat.testBit_mod_two_pow, Nat.testBit_div_two_pow]
    by_cases hi : i < n
    · have e : ∀ y : Word, y.toNat.testBit (i + a) = y.getLsbD (i + a) := fun _ => rfl
      rw [e, e, getLsbD_withBit, if_neg (by omega)]
    · simp [hi]
  simp only [Strand.enterHandler, Strand.pp, Strand.pfmt, Strand.priv, Strand.td]
  refine ⟨?_, ?_, ?_, ?_, ?_, ?_, ?_, ?_⟩
  · rw [hw _ _ _ (by omega), bitsOf_withBits_ne _ _ _ _ _ _ (by omega), bitsOf_withBits_ne _ _ _ _ _ _ (by omega), bitsOf_withBits_ne _ _ _ _ _ _ (by omega), bitsOf_withBits_ne _ _ _ _ _ _ (by omega), bitsOf_withBits_self _ _ _ _ (by omega)]
    exact Nat.mod_eq_of_lt (Nat.mod_lt _ (by decide))
  · rw [getLsbD_withBit, if_neg (by omega), getLsbD_withBits_ne _ _ _ _ _ (by omega), getLsbD_withBits_ne _ _ _ _ _ (by omega), getLsbD_withBits_ne _ _ _ _ _ (by omega), getLsbD_withBits _ _ _ _ _ (by omega), if_pos (by omega)]
    show (if x.pp = true then 1 else 0).testBit 0 = x.pp
    cases x.pp <;> rfl
  · rw [hw _ _ _ (by omega), bitsOf_withBits_ne _ _ _ _ _ _ (by omega), bitsOf_withBits_ne _ _ _ _ _ _ (by omega), bitsOf_withBits_self _ _ _ _ (by omega)]
    exact Nat.mod_eq_of_lt (Nat.mod_lt _ (by decide))
  · rw [getLsbD_withBit, if_neg (by omega), getLsbD_withBits_ne _ _ _ _ _ (by omega), getLsbD_withBits _ _ _ _ _ (by omega), if_pos (by omega)]
    simp
  · rw [hw _ _ _ (by omega), bitsOf_withBits_ne _ _ _ _ _ _ (by omega)]
    apply Nat.eq_of_testBit_eq
    intro i
    simp only [bitsOf, Nat.testBit_mod_two_pow, Nat.testBit_div_two_pow, Nat.zero_testBit]
    by_cases hi : i < 8
    · have e : ∀ y : Word, y.toNat.testBit (i + 3) = y.getLsbD (i + 3) := fun _ => rfl
      rw [e, getLsbD_withBits _ _ _ _ _ (by omega), if_pos (by omega)]; simp
    · simp [hi]
  · rw [hw _ _ _ (by omega), bitsOf_withBits_self _ _ _ _ (by omega)]
    simp only [Strand.priv] at hp
    show (if x.priv = 0 then 1 else x.priv) % 2 ^ 2 = if x.priv = 0 then 1 else x.priv
    have : x.priv < 4 := hp
    split <;> omega
  · rw [getLsbD_withBit, if_pos (by omega)]
  · intro i hi
    rw [getLsbD_withBit, if_neg (by omega), getLsbD_withBits_ne _ _ _ _ _ (by omega), getLsbD_withBits_ne _ _ _ _ _ (by omega), getLsbD_withBits_ne _ _ _ _ _ (by omega), getLsbD_withBits_ne _ _ _ _ _ (by omega), getLsbD_withBits_ne _ _ _ _ _ (by omega)]

theorem fail_keeps_strand (T : Tile) (k : Nat) (d : Strand) (hr : ∀ w, (SMap.get T.strands k d).run ≠ .parked w) (hd : ∀ w, d.run ≠ .parked w) :
    SMap.get T.fail.strands k d = SMap.get T.strands k d := by
  simp only [Tile.fail]
  generalize T.strands = m at *
  induction m with
  | nil => rfl
  | cons x t ih =>
    simp only [SMap.get, List.map_cons, SMap.find] at *
    by_cases hx : x.1 = k
    · simp only [hx, if_true, Option.getD_some] at *
      split
      · rename_i h1; exact absurd h1 (hr _)
      · rfl
    · simp only [hx, if_false] at *
      exact ih hr

theorem failTile_keeps_strand (s : State) (t k : Nat) (h : isSteward t = false) (v : BitVec 2) (c : BitVec 8) (hr : ∀ w, (s.strand t k).run ≠ .parked w) :
    ((s.failTile t v c).strand t k) = s.strand t k := by
  simp only [State.failTile, h, Bool.false_eq_true, if_false, State.cancelWork, State.raiseVote]
  simp only [State.strand, State.updTile, State.tile, State.setTile, SMap.get_set_self]
  exact fail_keeps_strand _ _ _ hr (fun w h => by cases h)

theorem stopStrand_spec (s : State) (t k cause : Nat) (h : isSteward t = false) :
    (s.stopStrand t k cause).strand t k = { s.strand t k with run := if k = 4 then .idle else .stopped, slots := [] } ∧
    ((s.stopStrand t k cause).tile t).vote = (s.tile t).vote.raise 1 (BitVec.ofNat 8 cause) ∧ ((s.stopStrand t k cause).tile t).seq.failed = true := by
  unfold State.stopStrand
  simp only [h, Bool.false_eq_true, if_false]
  refine ⟨?_, ?_, ?_⟩
  · rw [failTile_keeps_strand _ _ _ h]
    · simp
    · intro w; simp only [State.strand_updStrand_self]; split <;> simp
  · rw [(failTile_vote _ _ h _ _).1]; simp [State.updStrand]
  · rw [(failTile_vote _ _ h _ _).2]

theorem trapNext_spec {s : State} {c : Nat} {v : Word} (h : Handled s s.curTile s.curStrand c) :
    ∀ t, t = (s.updMe fun x => { x with rep := s.nextOf.2 }).trapMe c s.nextOf.1 v →
    t.me.pc = s.me.tvec ∧ t.me.trapcause = BitVec.ofNat 8 c ∧ t.me.trappc = s.nextOf.1 ∧ t.me.trapval = v ∧
      t.me.td = true ∧ t.me.rep = s.nextOf.2 ∧ t.me.s = s.me.s ∧ t.me.stag = s.me.stag := by
  intro t ht
  have hm : (s.updMe fun x => { x with rep := s.nextOf.2 }).me = { s.me with rep := s.nextOf.2 } := by simp
  have hc1 : (s.updMe fun x => { x with rep := s.nextOf.2 }).curTile = s.curTile := rfl
  have hc2 : (s.updMe fun x => { x with rep := s.nextOf.2 }).curStrand = s.curStrand := rfl
  have hT : ∀ u, ((s.updMe fun x => { x with rep := s.nextOf.2 }).tile u).follower = (s.tile u).follower ∧ ∀ n, ((s.updMe fun x => { x with rep := s.nextOf.2 }).tile u).badTarget n = (s.tile u).badTarget n := by
    intro u
    refine ⟨by simp [Tile.follower], fun n => congrFun (Tile.badTarget_congr (by simp) (by simp) (by simp)) n⟩
  generalize hs1 : (s.updMe fun x => { x with rep := s.nextOf.2 }) = s1 at *
  have hh : Handled s1 s1.curTile s1.curStrand c := by
    obtain ⟨h1, h2, h3, h4, h5, h6⟩ := h
    have e : s1.strand s1.curTile s1.curStrand = { s.me with rep := s.nextOf.2 } := hm
    refine ⟨h1, by rw [e]; exact h2, by rw [e]; exact h3, by rw [hc2]; exact h4, ?_, ?_⟩
    · rw [hc1, (hT _).1]; exact h5
    · rw [e, hc1, (hT _).2]; exact h6
  have em : t.me = (s1.me.record c s.nextOf.1 v).enterHandler := by
    rw [ht, State.trapMe, takeTrap_handled hh]
    exact State.me_setMe s1 _
  rw [em, hm]
  exact ⟨rfl, rfl, rfl, rfl, (enterHandler_bits _).2.2.2.2.2.2.1, rfl, rfl, rfl⟩

theorem issue_trapNext {s : State} {i : Info} {c : Nat} {v : Word} {body : Nat → Nat → State → Eff} (h : Clears s i)
    (hf : i.formats = none) (hb : body 0 0 s = .trapNext c v) : s.issue i body = .next ((s.updMe fun x => { x with rep := s.nextOf.2 }).trapMe c s.nextOf.1 v) := by
  rw [issue_clears h, hf]; exact settle_trapNext _ hb

theorem leaveHandler_bits (x : Strand) :
    x.leaveHandler.priv = bitsOf x.status 22 2 ∧ x.leaveHandler.pp = x.status.getLsbD 24 ∧ x.leaveHandler.pfmt = bitsOf x.status 25 8 ∧
    x.leaveHandler.td = false ∧ bitsOf x.leaveHandler.status 22 11 = 0 ∧
    (∀ i, (11 ≤ i ∧ i ≤ 20) ∨ 33 ≤ i → x.leaveHandler.status.getLsbD i = x.status.getLsbD i) := by
  have hw : ∀ (y : Word) (a n : Nat), a + n ≤ 21 ∨ 22 ≤ a → bitsOf (withBit y 21 false) a n = bitsOf y a n := by
    intro y a n ha
    apply Nat.eq_of_testBit_eq
    intro i
    simp only [bitsOf, Nat.testBit_mod_two_pow, Nat.testBit_div_two_pow]
    by_cases hi : i < n
    · have e : ∀ y : Word, y.toNat.testBit (i + a) = y.getLsbD (i + a) := fun _ => rfl
      rw [e, e, getLsbD_withBit, if_neg (by omega)]
    · simp [hi]
  simp only [Strand.leaveHandler, Strand.pp, Strand.pfmt, Strand.priv, Strand.td]
  refine ⟨?_, ?_, ?_, ?_, ?_, ?_⟩
  · rw [hw _ _ _ (by omega), bitsOf_withBits_ne _ _ _ _ _ _ (by omega), bitsOf_withBits_ne _ _ _ _ _ _ (by omega), bitsOf_withBits_ne _ _ _ _ _ _ (by omega), bitsOf_withBits_self _ _ _ _ (by omega)]
    exact Nat.mod_eq_of_lt (Nat.mod_lt _ (by decide))
  · rw [getLsbD_withBit, if_neg (by omega), getLsbD_withBits_ne _ _ _ _ _ (by omega), getLsbD_withBits_ne _ _ _ _ _ (by omega), getLsbD_withBits _ _ _ _ _ (by omega), if_pos (by omega)]
    simp only [Nat.sub_self, bitsOf, Nat.testBit_mod_two_pow, Nat.testBit_div_two_pow]
    rfl
  · rw [hw _ _ _ (by omega), bitsOf_withBits_ne _ _ _ _ _ _ (by omega), bitsOf_withBits_self _ _ _ _ (by omega)]
    exact Nat.mod_eq_of_lt (Nat.mod_lt _ (by decide))
  · rw [getLsbD_withBit, if_pos (by omega)]
  · exact (hw _ _ _ (by omega)).trans ((bitsOf_withBits_self _ _ _ _ (by omega)).trans (Nat.zero_mod _))
  · intro i hi
    rw [getLsbD_withBit, if_neg (by omega), getLsbD_withBits_ne _ _ _ _ _ (by omega), getLsbD_withBits_ne _ _ _ _ _ (by omega), getLsbD_withBits_ne _ _ _ _ _ (by omega), getLsbD_withBits_ne _ _ _ _ _ (by omega)]

end Sys2Proof.Laws
end

