-- ==== Sys2Proof/Laws/Access.lean ====
section
/-! SUPPORT. Loads and stores: which accesses go through, the bytes they give and take, and what a retirement leaves of a tile. -/

namespace Sys2Proof.Laws

open Sys2Proof.Machine Sys2Proof.Safety

theorem loadExtend_byte (b : Byte) : loadExtend 1 (ofBytes [b]) = b.signExtend 64 := by
  revert b; decide +kernel

theorem append_toNat {n : Nat} (x : BitVec n) (b : Byte) : (x ++ b).toNat = x.toNat * 256 + b.toNat := by
  rw [BitVec.toNat_append, ← Nat.shiftLeft_add_eq_or_of_lt b.isLt, Nat.shiftLeft_eq]

theorem loadExtend_readNat (T : Tile) (sz : Size) (e : Nat) : loadExtend sz.bytes (T.readNat e sz.bytes) = loadValue T sz e := by
  have key : ∀ (n : Nat) (x : BitVec n) (v : Nat), 0 < n → n ≤ 64 → v = x.toNat → BitVec.ofInt 64 (signedOf n v) = x.signExtend 64 := by
    intro n x v hn h64 hv
    apply BitVec.eq_of_toInt_eq
    rw [BitVec.toInt_signExtend_of_le h64, BitVec.toInt_ofInt]
    have e1 : signedOf n v = x.toInt := by
      rw [BitVec.toInt_eq_toNat_cond, hv]
      have hx := x.isLt
      simp only [signedOf, Nat.mod_eq_of_lt hx]
      have : 2 ^ n = 2 * 2 ^ (n - 1) := by rw [← pow_succ']; congr 1; omega
      split <;> split <;> omega
    rw [e1]
    have l1 := BitVec.le_toInt (x := x)
    have l2 := BitVec.toInt_lt (x := x)
    have l3 : (2 : Int) ^ (n - 1) ≤ 2 ^ 63 := pow_le_pow_right₀ (by norm_num) (by omega)
    rw [Int.bmod_eq_of_le] <;> omega
  cases sz
  · exact key 8 (T.byteAt e) _ (by decide) (by decide) (by simp [Tile.readNat, ofBytes, Size.bytes, List.range_succ])
  · refine key 16 (T.byteAt (e + 1) ++ T.byteAt e) _ (by decide) (by decide) ?_
    simp only [bytesValue, Tile.readNat, ofBytes, Size.bytes, List.range_succ, List.range_zero, List.nil_append, List.cons_append, List.map_cons, List.map_nil, Nat.add_zero, append_toNat]
    omega
  · refine key 32 (T.byteAt (e + 3) ++ T.byteAt (e + 2) ++ T.byteAt (e + 1) ++ T.byteAt e) _ (by decide) (by decide) ?_
    simp only [bytesValue, Tile.readNat, ofBytes, Size.bytes, List.range_succ, List.range_zero, List.nil_append, List.cons_append, List.map_cons, List.map_nil, Nat.add_zero, append_toNat]
    omega
  · refine (key 64 (T.byteAt (e + 7) ++ T.byteAt (e + 6) ++ T.byteAt (e + 5) ++ T.byteAt (e + 4) ++
      T.byteAt (e + 3) ++ T.byteAt (e + 2) ++ T.byteAt (e + 1) ++ T.byteAt e) _ (by decide) (by decide) ?_).trans (by simp [loadValue, bytesValue])
    simp only [bytesValue, Tile.readNat, ofBytes, Size.bytes, List.range_succ, List.range_zero, List.nil_append, List.cons_append, List.map_cons, List.map_nil, Nat.add_zero, append_toNat]
    omega

theorem memAccess_reaches {s : State} {a : SReg} {imm : BitVec 15} {n e : Nat} {ok : Region → Bool} {data : Option SReg} {k : Nat → Eff}
    (h : Reaches s a imm n ok e) (hd : ∀ d, data = some d → s.me.tag d = false) : s.memAccess a imm n ok data k = k e := by
  obtain ⟨h1, h2, h3, h4, h5, h6, h7⟩ := h
  have h4' : ((e : Int)) % (n : Int) = 0 := by exact_mod_cast h4
  have h3' : (0 : Int) ≤ e ∧ (e : Int) < 0x40000 := by omega
  simp only [State.memAccess, eaOf, h1, h2, h4', tileAddr, h3', h5, h6, h7, Int.toNat_natCast, Bool.false_eq_true, if_false, ne_eq, not_true_eq_false, and_self, if_true, Bool.not_true]
  cases data with
  | none => simp
  | some d => simp [hd d rfl]

theorem own_ok (m : TMem) (T : Tile) (a d : _) (hd : m.deltas.find (lineOf a) = some d) (hf : d.own.getLsbD (a % 128) = true) :
    m.own a = m.byte (128 * d.frame + a % 128) := by simp [TMem.own, hd, hf]

theorem newd {T : Tile} {e : Nat} {bs : List Byte} (hr : T.region e = .seg .v) (h : ¬ HasDelta T e) : T.store e bs = none := by
  simp only [HasDelta, hr, not_or, ne_eq, not_not, Bool.not_eq_true, Option.isSome_eq_false_iff, Option.isNone_iff_eq_none] at h
  obtain ⟨-, h1, h2⟩ := h
  simp [Tile.store, Tile.writeLine, hr, Tile.writeV, TMem.delta, h1, TMem.alloc, h2]

theorem toBytes_length : ∀ (n v : Nat), (toBytes n v).length = n
  | 0, _ => rfl
  | n + 1, v => by simp [toBytes, toBytes_length n]

theorem toBytes_getD : ∀ (n v i : Nat), i < n → (toBytes n v).getD i 0 = BitVec.ofNat 8 (v / 256 ^ i)
  | 0, _, i, h => absurd h (Nat.not_lt_zero i)
  | n + 1, v, 0, _ => by simp [toBytes]
  | n + 1, v, i + 1, h => by
    have := toBytes_getD n (v / 256) i (by omega)
    simp only [toBytes, List.getD_cons_succ, this, Nat.div_div_eq_div_mul, pow_succ']

theorem toBytes_word (n : Nat) (v : Word) (i : Nat) (h : i < n) : (toBytes n v.toNat).getD i 0 = v.extractLsb' (8 * i) 8 := by
  rw [toBytes_getD n _ i h]
  apply BitVec.eq_of_toNat_eq
  rw [BitVec.extractLsb'_toNat, Nat.shiftRight_eq_div_pow, BitVec.toNat_ofNat, show 256 = 2 ^ 8 by rfl, ← pow_mul]

theorem size_fits_line (sz : Size) (e : Nat) (h : e % sz.bytes = 0) : e % 128 + sz.bytes ≤ 128 := by
  cases sz <;> simp only [Size.bytes] at * <;> omega

theorem store_isSome {T : Tile} {e : Nat} {bs : List Byte} (hr : (T.region e).vs = true) (h : HasDelta T e) : ∃ w, T.store e bs = some w := by
  cases hx : T.region e with
  | code => rw [hx] at hr; cases hr
  | none => rw [hx] at hr; cases hr
  | seg x =>
    cases x
    · simp only [HasDelta, hx] at h
      obtain ⟨d, m, hd⟩ := delta_some (m := T.mem) (l := lineOf e) (by rcases h with h | h | h; cases h; exact .inl h; exact .inr h)
      simp [Tile.store, Tile.writeLine, hx, Tile.writeV, hd]
    · simp [Tile.store, Tile.writeLine, hx]
    · rw [hx] at hr; cases hr

theorem withBits_getLsbD {w : Nat} (x : BitVec w) (lo len v i : Nat) (h : i < w) :
    (withBits x lo len v).getLsbD i = if lo ≤ i ∧ i < lo + len then v.testBit (i - lo) else x.getLsbD i := by
  simp only [withBits, BitVec.getLsbD_or, BitVec.getLsbD_and, BitVec.getLsbD_not, BitVec.getLsbD_ofNat, h, decide_true, Bool.true_and, Nat.testBit_shiftLeft, Nat.testBit_two_pow_sub_one, Nat.testBit_mod_two_pow]
  by_cases h1 : lo ≤ i
  · by_cases h2 : i < lo + len
    · have : i - lo < len := by omega
      simp [h1, h2, this]
    · have : ¬ i - lo < len := by omega
      simp [h1, h2, this]
  · simp [h1]

theorem store_poison {T : Tile} {e : Nat} {bs : List Byte} {w : Wrote} (hf : FramesOk T) (hr : (T.region e).vs = true) (hl : bs.length = 8) (h8 : e % 8 = 0)
    (h : T.store e bs = some w) : w.tile.poisonAt e = false := by
  have hlen : e % 128 + bs.length ≤ 128 := by omega
  obtain ⟨-, -, hreg, -⟩ := store_reads hf hr hlen h
  cases hx : T.region e with
  | code => rw [hx] at hr; cases hr
  | none => rw [hx] at hr; cases hr
  | seg x =>
    have hd8 := region_data hx
    cases x
    · have hw : T.writeV false false e bs false = some w := by simpa [Tile.store, Tile.writeLine, hx] using h
      simp only [Tile.poisonAt, if_neg (Nat.not_lt.mpr hd8.1), hreg, hx, TMem.ownPoison]
      simp only [Tile.writeV, Option.map_eq_some_iff] at hw
      obtain ⟨⟨d, m⟩, hd, hw⟩ := hw
      rw [← hw]
      simp only [Bool.false_eq_true, if_false]
      rw [SMap.find_insert_self]
      simp only [setMarks, hl]
      have e0 : ((e % 128 + 7) / 8) = e % 128 / 8 := by omega
      have e1 : (e % 128 + 8) / 8 - e % 128 / 8 = 1 := by omega
      have m0 : (withBits d.ownMark (e % 128 / 8) 1 0).getLsbD (e % 128 / 8) = false := by
        rw [withBits_getLsbD _ _ _ _ _ (by omega)]; simp
      have m1 : bitsOf (d.own ||| lineMask (e % 128) 8) (8 * (e % 128 / 8)) 8 = 255 := by
        have : ∀ j, (bitsOf (d.own ||| lineMask (e % 128) 8) (8 * (e % 128 / 8)) 8).testBit j = (255 : Nat).testBit j := by
          intro j
          simp only [bitsOf, Nat.testBit_mod_two_pow, Nat.testBit_div_two_pow]
          rw [show (255 : Nat) = 2 ^ 8 - 1 by rfl, Nat.testBit_two_pow_sub_one]
          by_cases hj : j < 8
          · have : (d.own ||| lineMask (e % 128) 8).toNat.testBit (j + 8 * (e % 128 / 8)) = true := by
              have := getLsbD_lineMask (e % 128) 8 (j + 8 * (e % 128 / 8))
              have c1 : j + 8 * (e % 128 / 8) < 128 := by omega
              have c2 : e % 128 ≤ j + 8 * (e % 128 / 8) := by omega
              have c3 : j + 8 * (e % 128 / 8) < e % 128 + 8 := by omega
              simp only [c1, c2, c3, decide_true, Bool.and_self] at this
              change (d.own ||| lineMask (e % 128) 8).getLsbD _ = true
              rw [BitVec.getLsbD_or, this, Bool.or_true]
            simp only [hj, decide_true, Bool.true_and]; exact this
          · simp [hj]
        exact Nat.eq_of_testBit_eq this
      rw [e0, e1]
      simp [m0, m1]
    · have hw : w.tile = T.writeS false e bs false := by
        have : some (⟨T.writeS false e bs false, false⟩ : Wrote) = some w := by simpa [Tile.store, Tile.writeLine, hx] using h
        rw [← Option.some.inj this]
      obtain ⟨ed, ef, eo, er, -, -⟩ := writeS_bytes (eng := false) (poison := false) (b := e) hf hx hlen
      have ep : (T.writeS false e bs false).mem.physOf e = T.mem.physOf e := by simp only [TMem.physOf, eo]
      simp only [Tile.poisonAt, if_neg (Nat.not_lt.mpr hd8.1), hreg, hx, TMem.committedPoison]
      rw [hw, ep]
      have q : ∀ (x : BitVec 28672) (k i : Nat), (withBits x k 1 0).getLsbD i = if k = i then false else x.getLsbD i := by
        intro x k i
        by_cases hi : i < 28672
        · rw [withBits_getLsbD _ _ _ _ _ hi]
          by_cases c : k = i
          · simp [c]
          · rw [if_neg (by omega), if_neg c]
        · rw [BitVec.getLsbD_of_ge _ _ (by omega), BitVec.getLsbD_of_ge _ _ (by omega)]; simp
      have a1 : (e - 0x8000 + 7) / 8 = wordIx e := by simp only [wordIx]; omega
      have a2 : (e - 0x8000 + 8) / 8 - wordIx e = 1 := by simp only [wordIx]; omega
      have a3 : (T.mem.physOf e + 7) / 8 = T.mem.physOf e / 8 := by rw [physOf_eq _ _ hd8.1]; omega
      simp only [Tile.writeS, hl, a1, a2, a3, Bool.false_eq_true, if_false]
      rw [q, q]; simp
    · rw [hx] at hr; cases hr

theorem noteConflict_fields (s : State) (t : Nat) (c : Bool) (u : Nat) :
    ((s.noteConflict t c).tile u).mem = (s.tile u).mem ∧ ((s.noteConflict t c).tile u).code = (s.tile u).code ∧
    ((s.noteConflict t c).tile u).ctl = (s.tile u).ctl ∧ ((s.noteConflict t c).tile u).cbase = (s.tile u).cbase ∧
    ((s.noteConflict t c).tile u).clines = (s.tile u).clines ∧ ((s.noteConflict t c).tile u).segmask = (s.tile u).segmask ∧
    ((s.noteConflict t c).tile u).strands = (s.tile u).strands ∧ (u ≠ t → (s.noteConflict t c).tile u = s.tile u) ∧
    (s.noteConflict t c).curTile = s.curTile ∧ (s.noteConflict t c).curStrand = s.curStrand ∧ (s.noteConflict t c).mem = s.mem := by
  unfold State.noteConflict State.raiseVote
  split
  · split
    · simp
    · by_cases hu : u = t
      · subst hu; simp [State.tile_updTile_self]
      · simp [State.tile_updTile_ne s hu, hu]
  · simp

theorem store_done {s : State} {n e : Nat} {v : Word} {w : Wrote} (h : s.myTile.store e (toBytes n v.toNat) = some w) :
    s.storeAt n e v = .done ((s.setTile s.curTile w.tile).noteConflict s.curTile w.conflict) := by
  simp only [State.storeAt, h]

theorem byteAt_congr {T U : Tile} (h1 : T.mem = U.mem) (h2 : T.code = U.code) (h3 : T.ctl = U.ctl) (h4 : T.cbase = U.cbase)
    (h5 : T.clines = U.clines) (h6 : T.segmask = U.segmask) :
    T.byteAt = U.byteAt ∧ T.region = U.region ∧ T.poisonAt = U.poisonAt ∧ (FramesOk T ↔ FramesOk U) := by
  have hr : T.region = U.region := by funext a; unfold Tile.region Tile.codeOwned; rw [h3, h5, h6]
  refine ⟨?_, hr, ?_, ?_⟩
  · funext a; simp only [Tile.byteAt, Tile.codeByte, Tile.codePhys, h1, h2, h4, hr]
  · funext a; simp only [Tile.poisonAt, h1, hr]
  · unfold FramesOk frameOwners dataLines dataLine; rw [h1, hr]

theorem store_keeps {T : Tile} {a : Nat} {bs : List Byte} {w : Wrote} (h : T.store a bs = some w) :
    w.tile.strands = T.strands ∧ w.tile.code = T.code ∧ w.tile.ctl = T.ctl := by
  simp only [Tile.store, Tile.writeLine] at h
  split at h
  · obtain ⟨d, d', m, _, -, -, -, e⟩ := writeV_parts h; rw [e]; exact ⟨rfl, rfl, rfl⟩
  · rw [← Option.some.inj h]; exact ⟨rfl, rfl, rfl⟩
  · cases h

theorem setFull_byteAt (T : Tile) (e : Nat) (b : Bool) : (T.setFull e b).byteAt = T.byteAt := rfl

theorem updMe_reads (s : State) (f : Strand → Strand) :
    (s.updMe f).myTile.byteAt = s.myTile.byteAt ∧ (s.updMe f).myTile.region = s.myTile.region ∧ (s.updMe f).myTile.mem = s.myTile.mem ∧
    (FramesOk (s.updMe f).myTile ↔ FramesOk s.myTile) := by
  have := byteAt_congr (T := (s.updMe f).myTile) (U := s.myTile) (by simp) (by simp) (by simp) (by simp) (by simp) (by simp)
  exact ⟨this.1, this.2.1, by simp, this.2.2.2⟩

theorem retireAt_reads (s : State) (pc : Pc) (r : Rep) (u : Nat) :
    ((s.retireAt pc r false).tile u).byteAt = (s.tile u).byteAt ∧ ((s.retireAt pc r false).tile u).region = (s.tile u).region ∧
    ((s.retireAt pc r false).tile u).mem = (s.tile u).mem ∧ (FramesOk ((s.retireAt pc r false).tile u) ↔ FramesOk (s.tile u)) := by
  have := byteAt_congr (T := (s.retireAt pc r false).tile u) (U := s.tile u) (by simp) (by simp) (by simp) (by simp) (by simp) (by simp)
  exact ⟨this.1, this.2.1, by simp, this.2.2.2⟩

theorem memAccess_protection {s : State} {a : SReg} {imm : BitVec 15} {n e : Nat} {ok : Region → Bool} {data : Option SReg} {k : Nat → Eff}
    (ht : s.me.tag a = false) (he : ((s.me.rd a).toNat : Int) + imm.toInt = e) (h4 : e < 0x40000) (hm : e % n = 0)
    (hr : ok (s.myTile.region e) = false) : s.memAccess a imm n ok data k = .trap 0x06 (BitVec.ofNat 64 e) := by
  have hm' : (e : Int) % (n : Int) = 0 := by exact_mod_cast hm
  have hta : tileAddr (e : Int) = some e := by simp only [tileAddr]; rw [if_pos (by omega)]; simp
  have hw : wordOf (e : Int) = BitVec.ofNat 64 e := by simp [wordOf]
  simp only [State.memAccess, ht, eaOf, he, hm', hta, hr, hw]; simp

theorem noteRemote_fields (s : State) (src t : Nat) (c : Bool) (u : Nat) :
    ((s.noteRemote src t c).tile u).mem = (s.tile u).mem ∧ ((s.noteRemote src t c).tile u).code = (s.tile u).code ∧
    ((s.noteRemote src t c).tile u).ctl = (s.tile u).ctl ∧ ((s.noteRemote src t c).tile u).cbase = (s.tile u).cbase ∧
    ((s.noteRemote src t c).tile u).clines = (s.tile u).clines ∧ ((s.noteRemote src t c).tile u).segmask = (s.tile u).segmask ∧
    (u ≠ t → u ≠ src → (s.noteRemote src t c).tile u = s.tile u) ∧
    (s.noteRemote src t c).curTile = s.curTile ∧ (s.noteRemote src t c).mem = s.mem := by
  have key : ∀ w, ((s.raiseVote w 3 0x0C).tile u).mem = (s.tile u).mem ∧ ((s.raiseVote w 3 0x0C).tile u).code = (s.tile u).code ∧
    ((s.raiseVote w 3 0x0C).tile u).ctl = (s.tile u).ctl ∧ ((s.raiseVote w 3 0x0C).tile u).cbase = (s.tile u).cbase ∧
    ((s.raiseVote w 3 0x0C).tile u).clines = (s.tile u).clines ∧ ((s.raiseVote w 3 0x0C).tile u).segmask = (s.tile u).segmask ∧
    (u ≠ w → (s.raiseVote w 3 0x0C).tile u = s.tile u) ∧
    (s.raiseVote w 3 0x0C).curTile = s.curTile ∧ (s.raiseVote w 3 0x0C).mem = s.mem := by
    intro w
    unfold State.raiseVote
    split
    · simp
    · by_cases hu : u = w
      · subst hu; simp [State.tile_updTile_self]
      · simp [State.tile_updTile_ne s hu, hu]
  unfold State.noteRemote
  split
  · simp
  · split
    · obtain ⟨a, b, c, d, e, f, g, h, i⟩ := key src; exact ⟨a, b, c, d, e, f, fun _ x => g x, h, i⟩
    · obtain ⟨a, b, c, d, e, f, g, h, i⟩ := key t; exact ⟨a, b, c, d, e, f, fun x _ => g x, h, i⟩

theorem loadExtend_bytes (f : Nat → Byte) (sz : Size) (e : Nat) :
    loadExtend sz.bytes (ofBytes ((List.range sz.bytes).map fun i => f (e + i))) = bytesValue f sz e := by
  let T : Tile := { clines := 0, code := [] }
  have key : ∀ (n : Nat) (x : BitVec n) (v : Nat), 0 < n → n ≤ 64 → v = x.toNat → BitVec.ofInt 64 (signedOf n v) = x.signExtend 64 := by
    intro n x v hn h64 hv
    apply BitVec.eq_of_toInt_eq
    rw [BitVec.toInt_signExtend_of_le h64, BitVec.toInt_ofInt]
    have e1 : signedOf n v = x.toInt := by
      rw [BitVec.toInt_eq_toNat_cond, hv]
      have hx := x.isLt
      simp only [signedOf, Nat.mod_eq_of_lt hx]
      have : 2 ^ n = 2 * 2 ^ (n - 1) := by rw [← pow_succ']; congr 1; omega
      split <;> split <;> omega
    rw [e1]
    have l1 := BitVec.le_toInt (x := x)
    have l2 := BitVec.toInt_lt (x := x)
    have l3 : (2 : Int) ^ (n - 1) ≤ 2 ^ 63 := pow_le_pow_right₀ (by norm_num) (by omega)
    rw [Int.bmod_eq_of_le] <;> omega
  cases sz
  · exact key 8 (f e) _ (by decide) (by decide) (by simp [ofBytes, Size.bytes, List.range_succ])
  · refine key 16 (f (e + 1) ++ f e) _ (by decide) (by decide) ?_
    simp only [ofBytes, Size.bytes, List.range_succ, List.range_zero, List.nil_append, List.cons_append, List.map_cons, List.map_nil, Nat.add_zero, append_toNat]
    omega
  · refine key 32 (f (e + 3) ++ f (e + 2) ++ f (e + 1) ++ f e) _ (by decide) (by decide) ?_
    simp only [ofBytes, Size.bytes, List.range_succ, List.range_zero, List.nil_append, List.cons_append, List.map_cons, List.map_nil, Nat.add_zero, append_toNat]
    omega
  · refine (key 64 (f (e + 7) ++ f (e + 6) ++ f (e + 5) ++ f (e + 4) ++ f (e + 3) ++ f (e + 2) ++ f (e + 1) ++ f e) _ (by decide) (by decide) ?_).trans (by simp [bytesValue])
    simp only [ofBytes, Size.bytes, List.range_succ, List.range_zero, List.nil_append, List.cons_append, List.map_cons, List.map_nil, Nat.add_zero, append_toNat]
    omega

theorem retired_reads (s s' : State) (U : Tile) (h : Nat) (h1 : (s'.tile h).mem = U.mem) (h2 : (s'.tile h).code = U.code) (h3 : (s'.tile h).ctl = U.ctl)
    (h4 : (s'.tile h).cbase = U.cbase) (h5 : (s'.tile h).clines = U.clines) (h6 : (s'.tile h).segmask = U.segmask) :
    ((retired s s').tile h).byteAt = U.byteAt ∧ ((retired s s').tile h).region = U.region ∧ (FramesOk ((retired s s').tile h) ↔ FramesOk U) ∧
    ((retired s s').tile h).mem = U.mem := by
  have k := byteAt_congr (T := (retired s s').tile h) (U := U) (by rw [retired, retireAt_tile_mem, h1]) (by rw [retired, retireAt_tile_code, h2])
    (by rw [retired, retireAt_tile_ctl, h3]) (by rw [retired, retireAt_tile_cbase, h4]) (by rw [retired, retireAt_tile_clines, h5])
    (by rw [retired, retireAt_tile_segmask, h6])
  exact ⟨k.1, k.2.1, k.2.2.2, by rw [retired, retireAt_tile_mem, h1]⟩

theorem writeV_keeps {T : Tile} {r eng : Bool} {a : Nat} {bs : List Byte} {w : Wrote} (h : T.writeV r eng a bs false = some w) :
    w.tile.code = T.code ∧ w.tile.ctl = T.ctl ∧ w.tile.region = T.region := by
  obtain ⟨d, d', m, _, -, -, -, e⟩ := writeV_parts h; rw [e]; exact ⟨rfl, rfl, rfl⟩

theorem sysAccess_dom : ∀ n : Nat, ((sysAccess n).isSome = true ↔ n < 0x00C ∨ (0x100 ≤ n ∧ n ≤ 0x10E) ∨
      (0x200 ≤ n ∧ n ≤ 0x203) ∨ (0x300 ≤ n ∧ n ≤ 0x305) ∨ (0x400 ≤ n ∧ n ≤ 0x407)) := by
  intro n
  unfold sysAccess
  split
  · simp; omega
  · split <;> simp_all <;> omega

theorem foldl_or_mem (f : Nat → BitVec 64) (sel : Nat) (l : List Nat) (m : BitVec 64) :
    ∀ q ∈ l, q ≠ sel → ∀ v, f q &&& v ≠ 0 → v &&& l.foldl (fun m p => if p = sel then m else m ||| f p) m ≠ 0 := by
  have mono : ∀ (l : List Nat) (m : BitVec 64) (i : Nat), m.getLsbD i = true → (l.foldl (fun m p => if p = sel then m else m ||| f p) m).getLsbD i = true := by
    intro l
    induction l with
    | nil => intro m i h; exact h
    | cons a t ih => intro m i h; rw [List.foldl_cons]; apply ih; split <;> simp [h]
  induction l generalizing m with
  | nil => intro q hq; cases hq
  | cons a t ih =>
    intro q hq hs v hv
    rw [List.foldl_cons]
    rcases List.mem_cons.mp hq with h | h
    · subst h
      rw [if_neg hs]
      have : ∃ i, (f q).getLsbD i = true ∧ v.getLsbD i = true := by
        by_contra hc
        push_neg at hc
        apply hv
        apply BitVec.eq_of_getLsbD_eq
        intro i hi
        simp only [BitVec.getLsbD_and, BitVec.getLsbD_zero]
        cases hx : (f q).getLsbD i
        · simp
        · simpa using hc i hx
      obtain ⟨i, h1, h2⟩ := this
      intro hz
      have h3 := mono t (m ||| f q) i (by simp [h1])
      have h4 := congrArg (fun z => z.getLsbD i) hz
      simp [h2, h3] at h4
    · exact ih _ q h hs v hv

end Sys2Proof.Laws
end

