-- ==== Sys2Proof/Laws/Decode.lean ====
section
/-! SUPPORT. The tail forms of R54 lose nothing: cutting what a form packs gives its fields back; and where each form's heads are
looked up. -/

namespace Sys2Proof.Laws

/-- A guard's five bits give it back (R52). -/
theorem guard_ofBits_bits (g : Guard) : Guard.ofBits g.bits = g := by
  obtain ⟨a, b, c⟩ := g
  cases a <;> cases b <;> revert c <;> decide

/-- A sync tail's 32 bits give it back (R56). -/
theorem sync_ofBits_bits (s : Sync) : Sync.ofBits s.bits = s := by
  obtain ⟨a, b, c, d, e, f⟩ := s
  simp only [Sync.ofBits, Sync.bits, Sync.mk.injEq]
  refine ⟨?_, ?_, ?_, ?_, ?_, ?_⟩ <;>
    simp (disch := omega) only [BitVec.extractLsb'_append_eq_of_le, BitVec.extractLsb'_append_eq_of_add_le, BitVec.getLsbD_append]
  all_goals simp

/-- Bit B 2 of a sync tail is reserved and zero (R56). -/
theorem sync_bits_reserved (s : Sync) : s.bits.getLsbD 18 = false := by
  simp only [Sync.bits, BitVec.getLsbD_append]
  rfl

theorem cut_pack_p (t : TailP) : TailP.cut t.pack = some t := by
  obtain ⟨g, a, b, c⟩ := t
  simp (disch := omega) only [TailP.cut, TailP.pack, BitVec.extractLsb'_append_eq_of_le, BitVec.extractLsb'_append_eq_of_add_le]
  simp [guard_ofBits_bits]

theorem cut_pack_i (t : TailI) : TailI.cut t.pack = some t := by
  obtain ⟨g, a⟩ := t
  simp (disch := omega) only [TailI.cut, TailI.pack, BitVec.extractLsb'_append_eq_of_le, BitVec.extractLsb'_append_eq_of_add_le]
  simp [guard_ofBits_bits]

theorem cut_pack_d (t : TailD) : TailD.cut t.pack = some t := by
  obtain ⟨g, a, b⟩ := t
  simp (disch := omega) only [TailD.cut, TailD.pack, BitVec.extractLsb'_append_eq_of_le, BitVec.extractLsb'_append_eq_of_add_le]
  simp [guard_ofBits_bits]

theorem cut_pack_s3 (t : TailS3) : TailS3.cut t.pack = some t := by
  obtain ⟨g, a, b, c, d⟩ := t
  simp (disch := omega) only [TailS3.cut, TailS3.pack, BitVec.extractLsb'_append_eq_of_le, BitVec.extractLsb'_append_eq_of_add_le]
  simp [guard_ofBits_bits]

theorem cut_pack_si (t : TailSI) : TailSI.cut t.pack = some t := by
  obtain ⟨g, a, b, c⟩ := t
  simp (disch := omega) only [TailSI.cut, TailSI.pack, BitVec.extractLsb'_append_eq_of_le, BitVec.extractLsb'_append_eq_of_add_le]
  simp [guard_ofBits_bits]

theorem cut_pack_sm (t : TailSM) : TailSM.cut t.pack = some t := by
  obtain ⟨g, a, b, c⟩ := t
  simp (disch := omega) only [TailSM.cut, TailSM.pack, BitVec.extractLsb'_append_eq_of_le, BitVec.extractLsb'_append_eq_of_add_le]
  simp [guard_ofBits_bits]

theorem cut_pack_b (t : TailB) : TailB.cut t.pack = some t := by
  obtain ⟨g, a, b, c⟩ := t
  simp (disch := omega) only [TailB.cut, TailB.pack, BitVec.extractLsb'_append_eq_of_le, BitVec.extractLsb'_append_eq_of_add_le]
  simp [guard_ofBits_bits]

theorem cut_pack_v3 (t : TailV3) : TailV3.cut t.pack = some t := by
  obtain ⟨g, a, b, c, d, e⟩ := t
  simp (disch := omega) only [TailV3.cut, TailV3.pack, BitVec.extractLsb'_append_eq_of_le, BitVec.extractLsb'_append_eq_of_add_le]
  simp [guard_ofBits_bits]

theorem cut_pack_vs (t : TailVS) : TailVS.cut t.pack = some t := by
  obtain ⟨g, a, b, c, d⟩ := t
  simp (disch := omega) only [TailVS.cut, TailVS.pack, BitVec.extractLsb'_append_eq_of_le, BitVec.extractLsb'_append_eq_of_add_le]
  simp [guard_ofBits_bits]

theorem cut_pack_vk (t : TailVK) : TailVK.cut t.pack = some t := by
  obtain ⟨g, a, b⟩ := t
  simp (disch := omega) only [TailVK.cut, TailVK.pack, BitVec.extractLsb'_append_eq_of_le, BitVec.extractLsb'_append_eq_of_add_le]
  simp [guard_ofBits_bits]

theorem cut_pack_e (t : TailE) : TailE.cut t.pack = some t := by
  obtain ⟨g, a, b, c, d, s⟩ := t
  have h : (TailE.pack ⟨g, a, b, c, d, s⟩).getLsbD 50 = false := by
    simp only [TailE.pack, BitVec.getLsbD_append]
    exact sync_bits_reserved s
  simp only [TailE.cut, h]
  simp (disch := omega) only [TailE.pack, BitVec.extractLsb'_append_eq_of_le, BitVec.extractLsb'_append_eq_of_add_le]
  simp [guard_ofBits_bits, sync_ofBits_bits]

/-- A row's instruction for a head of its form, under a guard that the head takes. -/
theorem pick_some {F : Type} {rows : Rows F} {g : F → Guard} {t : F} {head : Nat} {f : F → Option Instr}
    (h : rows.lookup head = some f) (hg : guardOk head (g t) = true) : pick rows g (some t) head = some (f t) := by
  simp [pick, h, hg]

/-- No row of the form has the head. -/
theorem pick_none {F : Type} {rows : Rows F} {g : F → Guard} {t : Option F} {head : Nat} (h : rows.lookup head = none) :
    pick rows g t head = none := by
  simp [pick, h]

/-- A head that is no FMT head (R59). -/
theorem decodeFmt_none {h : Nat} (hf : h / 256 ≠ 0xFC) : decodeFmt h = none := by
  simp [decodeFmt, hf]

/-- What a head of form S3 decodes to. -/
theorem decode_s3 {h : Half} {f : TailS3 → Option Instr} (t : TailS3) (hl : h.toNat ≠ 0x1100) (hn : rowsN.lookup h.toNat = none)
    (hf : h.toNat / 256 ≠ 0xFC) 
    (hr : rowsS3.lookup h.toNat = some f) (hg : guardOk h.toNat t.g = true) : decode h t.pack none = f t := by
  simp only [decode, hl, if_false, hn, decodeFmt_none hf, cut_pack_s3, pick_some hr hg]
  rfl

/-- What a head of form SI decodes to. -/
theorem decode_si {h : Half} {f : TailSI → Option Instr} (t : TailSI) (hl : h.toNat ≠ 0x1100) (hn : rowsN.lookup h.toNat = none)
    (hf : h.toNat / 256 ≠ 0xFC) (hs3 : rowsS3.lookup h.toNat = none)
    (hr : rowsSI.lookup h.toNat = some f) (hg : guardOk h.toNat t.g = true) : decode h t.pack none = f t := by
  simp only [decode, hl, if_false, hn, decodeFmt_none hf, pick_none hs3, cut_pack_si, pick_some hr hg]
  rfl

/-- What a head of form B decodes to. -/
theorem decode_b {h : Half} {f : TailB → Option Instr} (t : TailB) (hl : h.toNat ≠ 0x1100) (hn : rowsN.lookup h.toNat = none)
    (hf : h.toNat / 256 ≠ 0xFC) (hs3 : rowsS3.lookup h.toNat = none) (hsi : rowsSI.lookup h.toNat = none)
    (hr : rowsB.lookup h.toNat = some f) (hg : guardOk h.toNat t.g = true) : decode h t.pack none = f t := by
  simp only [decode, hl, if_false, hn, decodeFmt_none hf, pick_none hs3, pick_none hsi, cut_pack_b, pick_some hr hg]
  rfl

/-- What a head of form P decodes to. -/
theorem decode_p {h : Half} {f : TailP → Option Instr} (t : TailP) (hl : h.toNat ≠ 0x1100) (hn : rowsN.lookup h.toNat = none)
    (hf : h.toNat / 256 ≠ 0xFC) (hs3 : rowsS3.lookup h.toNat = none) (hsi : rowsSI.lookup h.toNat = none) (hb : rowsB.lookup h.toNat = none)
    (hr : rowsP.lookup h.toNat = some f) (hg : guardOk h.toNat t.g = true) : decode h t.pack none = f t := by
  simp only [decode, hl, if_false, hn, decodeFmt_none hf, pick_none hs3, pick_none hsi, pick_none hb, cut_pack_p, pick_some hr hg]
  rfl

/-- What a head of form V3 decodes to. -/
theorem decode_v3 {h : Half} {f : TailV3 → Option Instr} (t : TailV3) (hl : h.toNat ≠ 0x1100) (hn : rowsN.lookup h.toNat = none)
    (hf : h.toNat / 256 ≠ 0xFC) (hs3 : rowsS3.lookup h.toNat = none) (hsi : rowsSI.lookup h.toNat = none) (hb : rowsB.lookup h.toNat = none) (hp : rowsP.lookup h.toNat = none)
    (hr : rowsV3.lookup h.toNat = some f) (hg : guardOk h.toNat t.g = true) : decode h t.pack none = f t := by
  simp only [decode, hl, if_false, hn, decodeFmt_none hf, pick_none hs3, pick_none hsi, pick_none hb, pick_none hp, cut_pack_v3, pick_some hr hg]
  rfl

/-- What a head of form VS decodes to. -/
theorem decode_vs {h : Half} {f : TailVS → Option Instr} (t : TailVS) (hl : h.toNat ≠ 0x1100) (hn : rowsN.lookup h.toNat = none)
    (hf : h.toNat / 256 ≠ 0xFC) (hs3 : rowsS3.lookup h.toNat = none) (hsi : rowsSI.lookup h.toNat = none) (hb : rowsB.lookup h.toNat = none) (hp : rowsP.lookup h.toNat = none) (hv3 : rowsV3.lookup h.toNat = none)
    (hr : rowsVS.lookup h.toNat = some f) (hg : guardOk h.toNat t.g = true) : decode h t.pack none = f t := by
  simp only [decode, hl, if_false, hn, decodeFmt_none hf, pick_none hs3, pick_none hsi, pick_none hb, pick_none hp, pick_none hv3, cut_pack_vs, pick_some hr hg]
  rfl

/-- What a head of form E decodes to. -/
theorem decode_e {h : Half} {f : TailE → Option Instr} (t : TailE) (hl : h.toNat ≠ 0x1100) (hn : rowsN.lookup h.toNat = none)
    (hf : h.toNat / 256 ≠ 0xFC) (hs3 : rowsS3.lookup h.toNat = none) (hsi : rowsSI.lookup h.toNat = none) (hb : rowsB.lookup h.toNat = none) (hp : rowsP.lookup h.toNat = none) (hv3 : rowsV3.lookup h.toNat = none) (hvs : rowsVS.lookup h.toNat = none)
    (hr : rowsE.lookup h.toNat = some f) (hg : guardOk h.toNat t.g = true) : decode h t.pack none = f t := by
  simp only [decode, hl, if_false, hn, decodeFmt_none hf, pick_none hs3, pick_none hsi, pick_none hb, pick_none hp, pick_none hv3, pick_none hvs, cut_pack_e, pick_some hr hg]
  rfl

/-- What a head of form D decodes to. -/
theorem decode_d {h : Half} {f : TailD → Option Instr} (t : TailD) (hl : h.toNat ≠ 0x1100) (hn : rowsN.lookup h.toNat = none)
    (hf : h.toNat / 256 ≠ 0xFC) (hs3 : rowsS3.lookup h.toNat = none) (hsi : rowsSI.lookup h.toNat = none) (hb : rowsB.lookup h.toNat = none) (hp : rowsP.lookup h.toNat = none) (hv3 : rowsV3.lookup h.toNat = none) (hvs : rowsVS.lookup h.toNat = none) (he : rowsE.lookup h.toNat = none)
    (hr : rowsD.lookup h.toNat = some f) (hg : guardOk h.toNat t.g = true) : decode h t.pack none = f t := by
  simp only [decode, hl, if_false, hn, decodeFmt_none hf, pick_none hs3, pick_none hsi, pick_none hb, pick_none hp, pick_none hv3, pick_none hvs, pick_none he, cut_pack_d, pick_some hr hg]
  rfl

/-- What a head of form I decodes to. -/
theorem decode_i {h : Half} {f : TailI → Option Instr} (t : TailI) (hl : h.toNat ≠ 0x1100) (hn : rowsN.lookup h.toNat = none)
    (hf : h.toNat / 256 ≠ 0xFC) (hs3 : rowsS3.lookup h.toNat = none) (hsi : rowsSI.lookup h.toNat = none) (hb : rowsB.lookup h.toNat = none) (hp : rowsP.lookup h.toNat = none) (hv3 : rowsV3.lookup h.toNat = none) (hvs : rowsVS.lookup h.toNat = none) (he : rowsE.lookup h.toNat = none) (hd : rowsD.lookup h.toNat = none)
    (hr : rowsI.lookup h.toNat = some f) (hg : guardOk h.toNat t.g = true) : decode h t.pack none = f t := by
  simp only [decode, hl, if_false, hn, decodeFmt_none hf, pick_none hs3, pick_none hsi, pick_none hb, pick_none hp, pick_none hv3, pick_none hvs, pick_none he, pick_none hd, cut_pack_i, pick_some hr hg]
  rfl

/-- What a head of form SM decodes to. -/
theorem decode_sm {h : Half} {f : TailSM → Option Instr} (t : TailSM) (hl : h.toNat ≠ 0x1100) (hn : rowsN.lookup h.toNat = none)
    (hf : h.toNat / 256 ≠ 0xFC) (hs3 : rowsS3.lookup h.toNat = none) (hsi : rowsSI.lookup h.toNat = none) (hb : rowsB.lookup h.toNat = none) (hp : rowsP.lookup h.toNat = none) (hv3 : rowsV3.lookup h.toNat = none) (hvs : rowsVS.lookup h.toNat = none) (he : rowsE.lookup h.toNat = none) (hd : rowsD.lookup h.toNat = none) (hi : rowsI.lookup h.toNat = none)
    (hr : rowsSM.lookup h.toNat = some f) (hg : guardOk h.toNat t.g = true) : decode h t.pack none = f t := by
  simp only [decode, hl, if_false, hn, decodeFmt_none hf, pick_none hs3, pick_none hsi, pick_none hb, pick_none hp, pick_none hv3, pick_none hvs, pick_none he, pick_none hd, pick_none hi, cut_pack_sm, pick_some hr hg]
  rfl

/-- What a head of form VK decodes to. -/
theorem decode_vk {h : Half} {f : TailVK → Option Instr} (t : TailVK) (hl : h.toNat ≠ 0x1100) (hn : rowsN.lookup h.toNat = none)
    (hf : h.toNat / 256 ≠ 0xFC) (hs3 : rowsS3.lookup h.toNat = none) (hsi : rowsSI.lookup h.toNat = none) (hb : rowsB.lookup h.toNat = none) (hp : rowsP.lookup h.toNat = none) (hv3 : rowsV3.lookup h.toNat = none) (hvs : rowsVS.lookup h.toNat = none) (he : rowsE.lookup h.toNat = none) (hd : rowsD.lookup h.toNat = none) (hi : rowsI.lookup h.toNat = none) (hsm : rowsSM.lookup h.toNat = none)
    (hr : rowsVK.lookup h.toNat = some f) (hg : guardOk h.toNat t.g = true) : decode h t.pack none = f t := by
  simp only [decode, hl, if_false, hn, decodeFmt_none hf, pick_none hs3, pick_none hsi, pick_none hb, pick_none hp, pick_none hv3, pick_none hvs, pick_none he, pick_none hd, pick_none hi, pick_none hsm, cut_pack_vk, pick_some hr hg]
  rfl

end Sys2Proof.Laws
end

