-- ==== Sys2Proof/Laws/Engine.lean ====
section
/-! SUPPORT. Sync tails, bales and rings: what waits, signals and updates of the control context leave. -/

namespace Sys2Proof.Laws

open Sys2Proof.Machine Sys2Proof.Safety

theorem me_updMyTile (s : State) (f : Tile → Tile) (h : (f s.myTile).strands = s.myTile.strands) : (s.updMyTile f).me = s.me := by
  simp only [State.me, State.strand, State.updMyTile, State.updTile_curTile, State.updTile_curStrand, State.tile_updTile_self]
  simp only [State.myTile] at h
  rw [h]

theorem memOnly_updMyTile (s : State) (f : Tile → Tile) (h : (f s.myTile).strands = s.myTile.strands) : TileMemOnly s (s.updMyTile f) :=
  ⟨me_updMyTile s f h, rfl, rfl, rfl, fun u hu => State.tile_updTile_ne s hu _⟩

theorem ctlOnly_updMyTile (s : State) (f : Tile → Tile) (h : (f s.myTile).strands = s.myTile.strands) (hm : (f s.myTile).mem = s.myTile.mem) :
    TileCtlOnly s (s.updMyTile f) := by
  refine ⟨memOnly_updMyTile s f h, ?_, ?_⟩
  · simpa only [State.myTile, State.updMyTile, State.updTile_curTile, State.tile_updTile_self] using hm
  · simpa only [State.myTile, State.updMyTile, State.updTile_curTile, State.tile_updTile_self] using h

theorem myTile_updMyTile (s : State) (f : Tile → Tile) : (s.updMyTile f).myTile = f s.myTile := by
  simp only [State.myTile, State.updMyTile, State.updTile_curTile, State.tile_updTile_self]

theorem bale_setBale (T : Tile) (k i : Nat) (b : Bale) : (T.setBale k b).bale i = if i = k then b else T.bale i := by
  simp only [Tile.bale, Tile.setBale, SMap.get_set]

theorem ring_setRing (T : Tile) (k i : Nat) (b : Ring) : (T.setRing k b).ring i = if i = k then b else T.ring i := by
  simp only [Tile.ring, Tile.setRing, SMap.get_set]

theorem bale_setRing (T : Tile) (k i : Nat) (b : Ring) : (T.setRing k b).bale i = T.bale i := rfl

theorem ring_setBale (T : Tile) (k i : Nat) (b : Bale) : (T.setBale k b).ring i = T.ring i := rfl

theorem ofNat_bitsOf {w : Nat} (x : BitVec w) (lo n : Nat) : BitVec.ofNat n (bitsOf x lo n) = x.extractLsb' lo n := by
  apply BitVec.eq_of_toNat_eq
  simp [bitsOf, BitVec.extractLsb'_toNat, Nat.shiftRight_eq_div_pow]

theorem ite_toNat (b : Bool) (n : Nat) : (if b then n else 0) = n * b.toNat := by cases b <;> simp

theorem toNat_le_one (b : Bool) : b.toNat ≤ 1 := by cases b <;> simp

theorem field_of_number (N lo n : Nat) (v : BitVec n) (h : N / 2 ^ lo % 2 ^ n = v.toNat) (h64 : lo + n ≤ 64) : (BitVec.ofNat 64 N).extractLsb' lo n = v := by
  apply BitVec.eq_of_toNat_eq
  rw [BitVec.extractLsb'_toNat, BitVec.toNat_ofNat, Nat.shiftRight_eq_div_pow, ← h]
  have : (2:Nat) ^ 64 = 2 ^ lo * 2 ^ (64 - lo) := by rw [← Nat.pow_add]; congr 1; omega
  rw [this, Nat.mod_mul_right_div_self, Nat.mod_mod_of_dvd]
  exact Nat.pow_dvd_pow 2 (by omega)

theorem bit_of_number (N lo : Nat) (b : Bool) (h : N / 2 ^ lo % 2 = b.toNat) (h64 : lo < 64) : (BitVec.ofNat 64 N).getLsbD lo = b := by
  rw [BitVec.getLsbD_ofNat]
  simp only [h64, decide_true, Bool.true_and, Nat.testBit_eq_decide_div_mod_eq, h]
  cases b <;> simp

theorem bale_low_fields (b : Bale) : b.low.extractLsb' 0 2 = b.state ∧ b.low.getLsbD 2 = b.pend ∧ b.low.getLsbD 3 = b.fault ∧
    b.low.getLsbD 4 = b.next ∧ b.low.getLsbD 5 = b.refill ∧ b.low.extractLsb' 6 11 = b.offset ∧
    b.low.extractLsb' 17 9 = b.size ∧ b.low.extractLsb' 26 3 = b.ring ∧ b.low.getLsbD 29 = b.ringv ∧
    b.low.extractLsb' 30 8 = b.view ∧ b.low.extractLsb' 38 26 = 0 := by
  have := b.state.isLt; have := b.offset.isLt; have := b.size.isLt; have := b.ring.isLt; have := b.view.isLt
  have := toNat_le_one b.pend; have := toNat_le_one b.fault; have := toNat_le_one b.next; have := toNat_le_one b.refill; have := toNat_le_one b.ringv
  refine ⟨?_,?_,?_,?_,?_,?_,?_,?_,?_,?_,?_⟩
  all_goals (unfold Bale.low; first | apply bit_of_number | apply field_of_number)
  all_goals try simp only [ite_toNat]
  all_goals try (have z : ∀ n, (0 : BitVec n).toNat = 0 := fun n => by simp)
  all_goals try rw [z]
  all_goals omega

theorem ring_word_fields (r : Ring) : r.word.extractLsb' 0 6 = r.first ∧ r.word.extractLsb' 6 6 = r.cntm1 ∧ r.word.extractLsb' 12 6 = r.head ∧
    r.word.extractLsb' 18 6 = r.tail ∧ r.word.extractLsb' 24 7 = r.occ ∧ r.word.getLsbD 31 = r.stopin ∧
    r.word.getLsbD 32 = r.subv ∧ r.word.getLsbD 33 = r.v ∧ r.word.extractLsb' 34 30 = 0 := by
  have := r.first.isLt; have := r.cntm1.isLt; have := r.head.isLt; have := r.tail.isLt; have := r.occ.isLt
  have := toNat_le_one r.stopin; have := toNat_le_one r.subv; have := toNat_le_one r.v
  refine ⟨?_,?_,?_,?_,?_,?_,?_,?_,?_⟩
  all_goals (unfold Ring.word; first | apply bit_of_number | apply field_of_number)
  all_goals try simp only [ite_toNat]
  all_goals try (have z : ∀ n, (0 : BitVec n).toNat = 0 := fun n => by simp)
  all_goals try rw [z]
  all_goals omega

theorem lookup_spec (T : Tile) (va : Word) (v : Word) :
    T.lookup va (bitsOf v 0 8) ≤ 64 ∧ (T.lookup va (bitsOf v 0 8) < 64 → (T.bale (T.lookup va (bitsOf v 0 8))).state ≠ 0 ∧
      (T.bale (T.lookup va (bitsOf v 0 8))).tag = va.extractLsb' 7 57 ∧ (T.bale (T.lookup va (bitsOf v 0 8))).view = v.extractLsb' 0 8) ∧
    ∀ j, j < T.lookup va (bitsOf v 0 8) → j < 64 → (T.bale j).state = 0 ∨ (T.bale j).tag ≠ va.extractLsb' 7 57 ∨ (T.bale j).view ≠ v.extractLsb' 0 8 := by
  have e1 : ∀ t : BitVec 57, t.toNat = bitsOf va 7 57 ↔ t = va.extractLsb' 7 57 := by
    intro t; rw [← ofNat_bitsOf]
    constructor
    · intro h; rw [← h]; simp
    · intro h; rw [h]; simp [bitsOf]
  have e2 : ∀ t : BitVec 8, t.toNat = bitsOf v 0 8 ↔ t = v.extractLsb' 0 8 := by
    intro t; rw [← ofNat_bitsOf]
    constructor
    · intro h; rw [← h]; simp
    · intro h; rw [h]; simp [bitsOf]
  unfold Tile.lookup
  generalize hf : (List.range 64).find? _ = r
  cases r with
  | none =>
    simp only [Option.getD_none]
    rw [List.find?_eq_none] at hf
    refine ⟨Nat.le_refl _, fun h => absurd h (by omega), fun j hj _ => ?_⟩
    have := hf j (by simpa using hj)
    simp only [e1, e2, Bool.and_eq_true, decide_eq_true_eq, not_and] at this
    by_cases h0 : (T.bale j).state = 0
    · exact .inl h0
    · by_cases h1 : (T.bale j).tag = va.extractLsb' 7 57
      · exact .inr (.inr (this ⟨h0, h1⟩))
      · exact .inr (.inl h1)
  | some i =>
    simp only [Option.getD_some]
    rw [List.find?_range_eq_some] at hf
    obtain ⟨hp, hi, hn⟩ := hf
    simp only [List.mem_range, e1, e2, Bool.and_eq_true, decide_eq_true_eq] at hp hi
    refine ⟨by omega, fun _ => ⟨hp.1.1, hp.1.2, hp.2⟩, fun j hj hj2 => ?_⟩
    have := hn j hj
    simp only [e1, e2, Bool.not_eq_true', Bool.and_eq_false_iff, decide_eq_false_iff_not, not_not, ] at this
    tauto

theorem takeWait_sems (s : State) (sy : Sync) : ∃ m : SMap (BitVec 16),
    s.takeWait sy = s ∨ s.takeWait sy = s.updMyTile fun T => { T with ctl := { T.ctl with sems := m } } := by
  by_cases h : (sy.wen ∧ !s.me.took) = true
  · refine ⟨s.myTile.ctl.sems.set sy.wsem.toNat 0 (s.myTile.ctl.sems.get sy.wsem.toNat 0 - BitVec.ofNat 16 sy.wthr.toNat), .inr ?_⟩
    simp only [State.takeWait]
    rw [if_pos (by simpa using h)]
    rfl
  · refine ⟨[], .inl ?_⟩
    simp only [State.takeWait]
    rw [if_neg (by simpa using h)]

theorem takeWait_eq (s : State) (sy : Sync) : ∃ f : Ctl → Ctl, (∀ c, (f c).rings = c.rings ∧ (f c).bales = c.bales ∧ (f c).plb = c.plb ∧ (f c).memcfg = c.memcfg ∧ (f c).tables = c.tables) ∧
    (s.takeWait sy = s ∨ s.takeWait sy = s.updMyTile fun T => { T with ctl := f T.ctl }) := by
  by_cases h : (sy.wen ∧ !s.me.took) = true
  · refine ⟨fun c => { c with sems := c.sems.set sy.wsem.toNat 0 (c.sems.get sy.wsem.toNat 0 - BitVec.ofNat 16 sy.wthr.toNat) }, fun c => ⟨rfl, rfl, rfl, rfl, rfl⟩, .inr ?_⟩
    simp only [State.takeWait]
    rw [if_pos (by simpa using h)]
    rfl
  · refine ⟨id, fun c => ⟨rfl, rfl, rfl, rfl, rfl⟩, .inl ?_⟩
    simp only [State.takeWait]
    rw [if_neg (by simpa using h)]

theorem issue_sync {s : State} {sy : Sync} {i : Info} {body : Nat → Nat → State → Eff} {f : State → State} (h : Clears s i) (hf : i.formats = none)
    (hs : i.sync = sy) (hr : SyncReady s sy i.sigNow) (hb : ∀ x, x = s ∨ x = s.takeWait sy → body 0 0 x = .done (f x)) :
    s.issue i body = .next (syncDone s sy i.sigNow f) := by
  subst hs
  rw [issue_clears h, hf]
  rw [settle_done_sync (s' := f (s.takeWait i.sync)) false hr ⟨_, hb s (.inl rfl)⟩ (hb _ (.inr rfl))]
  rfl

theorem takeWait_ring (s : State) (sy : Sync) (r : Nat) : (s.takeWait sy).myTile.ring r = s.myTile.ring r := by
  obtain ⟨f, hf, h | h⟩ := takeWait_eq s sy
  · rw [h]
  · rw [h, myTile_updMyTile]; simp only [Tile.ring, (hf _).1]

theorem takeWait_bale (s : State) (sy : Sync) (r : Nat) : (s.takeWait sy).myTile.bale r = s.myTile.bale r := by
  obtain ⟨f, hf, h | h⟩ := takeWait_eq s sy
  · rw [h]
  · rw [h, myTile_updMyTile]; simp only [Tile.bale, (hf _).2.1]

theorem takeWait_me (s : State) (sy : Sync) : (s.takeWait sy).me = s.me := by
  obtain ⟨f, hf, h | h⟩ := takeWait_eq s sy
  · rw [h]
  · rw [h, me_updMyTile]; rfl

theorem takeWait_cur (s : State) (sy : Sync) : (s.takeWait sy).curTile = s.curTile ∧ (s.takeWait sy).curStrand = s.curStrand ∧ (s.takeWait sy).reqs = s.reqs ∧ (s.takeWait sy).mem = s.mem
   ∧ (s.takeWait sy).gangs = s.gangs ∧ (s.takeWait sy).parts = s.parts ∧ (s.takeWait sy).memKey = s.memKey ∧ OtherTilesSame s (s.takeWait sy) s.curTile := by
  obtain ⟨f, hf, h | h⟩ := takeWait_eq s sy
  · rw [h]; exact ⟨rfl, rfl, rfl, rfl, rfl, rfl, rfl, fun _ _ => rfl⟩
  · rw [h]; exact ⟨rfl, rfl, rfl, rfl, rfl, rfl, rfl, fun u hu => State.tile_updTile_ne s hu _⟩

theorem takeWait_tile (s : State) (sy : Sync) : ∃ f : Ctl → Ctl, (∀ c, (f c).rings = c.rings ∧ (f c).bales = c.bales ∧ (f c).plb = c.plb ∧ (f c).memcfg = c.memcfg ∧ (f c).tables = c.tables) ∧
    (s.takeWait sy).myTile = { s.myTile with ctl := f s.myTile.ctl } := by
  obtain ⟨f, hf, h | h⟩ := takeWait_eq s sy
  · exact ⟨id, fun c => ⟨rfl, rfl, rfl, rfl, rfl⟩, by rw [h]; rfl⟩
  · exact ⟨f, hf, by rw [h, myTile_updMyTile]⟩

theorem issue_engine {s s' : State} {sy : Sync} {i : Info} {body : Nat → Nat → State → Eff} (h : Clears s i) (hf : i.formats = none)
    (hs : i.sync = sy) (hn : i.sigNow = false) (hw : s.waitMet sy = true) (h0 : ∃ z, body 0 0 s = .done z)
    (hb : body 0 0 (s.takeWait sy) = .done s') : s.issue i body = .next (retired s s') := by
  subst hs
  rw [issue_clears h, hf]
  rw [settle_done_sync (s' := s') false ⟨hw, by simp [hn]⟩ h0 hb, hn]
  rfl

theorem clear_members_ctl (ring : BitVec 3) (n : Nat) (T : Tile) :
    ∃ C : Ctl, ((List.range n).foldl (fun (T : Tile) (i : Nat) => let e := T.bale i; if e.ring = ring then T.setBale i { e with ringv := false } else T) T) = { T with ctl := C } ∧
      C.rings = T.ctl.rings ∧ ∀ i, C.bales.get i {} = if i < n ∧ (T.bale i).ring = ring then { T.bale i with ringv := false } else T.bale i := by
  induction n with
  | zero => exact ⟨T.ctl, rfl, rfl, fun i => by simp [Tile.bale]⟩
  | succ n ih =>
    obtain ⟨C, h, hr, hb⟩ := ih
    simp only [List.range_succ, List.foldl_append, List.foldl_cons, List.foldl_nil, h]
    have hn : ({ T with ctl := C } : Tile).bale n = T.bale n := by
      simp only [Tile.bale]; rw [hb n]; simp [Tile.bale]
    rw [hn]
    split
    · rename_i e
      refine ⟨_, rfl, hr, fun i => ?_⟩
      simp only [SMap.get_set, hb]
      by_cases hi : i = n
      · subst hi; simp [e]
      · have : i < n + 1 ↔ i < n := by omega
        simp [hi, this]
    · rename_i e
      refine ⟨C, rfl, hr, fun i => ?_⟩
      rw [hb]
      by_cases hi : i = n
      · subst hi; simp [e]
      · have : i < n + 1 ↔ i < n := by omega
        simp [this]

theorem join_members_ctl (ring : BitVec 3) (l : List Nat) : ∀ (T : Tile),
    ∃ C : Ctl, (l.foldl (fun (T : Tile) (i : Nat) => T.setBale i { T.bale i with ring := ring, ringv := true }) T) = { T with ctl := C } ∧
      C.rings = T.ctl.rings ∧ ∀ i, C.bales.get i {} = if i ∈ l then { T.bale i with ring := ring, ringv := true } else T.bale i := by
  induction l with
  | nil => exact fun T => ⟨T.ctl, rfl, rfl, fun i => by simp [Tile.bale]⟩
  | cons a l ih =>
    intro T
    obtain ⟨C, h, hr, hb⟩ := ih (T.setBale a { T.bale a with ring := ring, ringv := true })
    refine ⟨C, h, hr, fun i => ?_⟩
    rw [hb, bale_setBale]
    by_cases hi : i = a
    · subst hi; simp
    · simp [hi]

theorem setUpRing_ctl (T : Tile) (ring : BitVec 3) (x : Ring) :
    ∃ C : Ctl, T.setUpRing ring x = { T with ctl := C } ∧
      (∀ i, C.rings.get i {} = if i = ring.toNat then { x with pushed := (T.ring ring.toNat).pushed } else T.ring i) ∧
      ∀ i, i < 64 → C.bales.get i {} = if x.v = true ∧ x.first.toNat ≤ i ∧ i ≤ x.first.toNat + x.cntm1.toNat then
            { T.bale i with ring := ring, ringv := true }
          else if (T.bale i).ring = ring then { T.bale i with ringv := false } else T.bale i := by
  obtain ⟨y, hy⟩ : ∃ y : Ring, y = { x with pushed := (T.ring ring.toNat).pushed } := ⟨_, rfl⟩
  obtain ⟨C, h, hr, hb⟩ := clear_members_ctl ring 64 (T.setRing ring.toNat y)
  have hrg : ∀ i, SMap.get (T.setRing ring.toNat y).ctl.rings i {} = if i = ring.toNat then y else T.ring i := fun i => ring_setRing T _ i y
  rw [← hy]
  simp only [Tile.setUpRing, ← hy, h]
  cases hv : x.v
  · refine ⟨C, rfl, fun i => by rw [hr, hrg], fun i hi => ?_⟩
    rw [hb]; simp [hi, bale_setRing]
  · obtain ⟨C2, h2, hr2, hb2⟩ := join_members_ctl ring x.members { (T.setRing ring.toNat y) with ctl := C }
    simp only [if_true, h2]
    refine ⟨C2, rfl, fun i => by rw [hr2, hr, hrg], fun i hi => ?_⟩
    rw [hb2]
    have hm : i ∈ x.members ↔ x.first.toNat ≤ i ∧ i ≤ x.first.toNat + x.cntm1.toNat := by
      simp only [Ring.members, List.mem_map, List.mem_range]
      constructor
      · rintro ⟨a, b, c⟩; omega
      · intro ⟨a, b⟩; exact ⟨i - x.first.toNat, by omega, by omega⟩
    have hbi : ({ (T.setRing ring.toNat y) with ctl := C } : Tile).bale i = if (T.bale i).ring = ring then { T.bale i with ringv := false } else T.bale i := by
      simp only [Tile.bale]; rw [hb]; simp [hi, bale_setRing]; rfl
    rw [hbi]
    by_cases hx : i ∈ x.members
    · simp only [hx, if_true, hm.1 hx, true_and, and_self]
      split <;> rfl
    · simp only [hx, if_false, true_and, if_neg (fun h => hx (hm.2 h))]

theorem fillOk_ctl (s : State) (u : Nat) (m : SMap (BitVec 16)) (t src len view : Nat) :
    (s.updTile u fun T => { T with ctl := { T.ctl with sems := m } }).fillOk t src len view = s.fillOk t src len view := by
  have hg : ((s.updTile u fun T => { T with ctl := { T.ctl with sems := m } }).tile t).gang = (s.tile t).gang := by
    by_cases h : t = u
    · subst h; rw [State.tile_updTile_self]
    · rw [State.tile_updTile_ne s h]
  have hc : ((s.updTile u fun T => { T with ctl := { T.ctl with sems := m } }).tile t).ctl.plb = (s.tile t).ctl.plb ∧
    ((s.updTile u fun T => { T with ctl := { T.ctl with sems := m } }).tile t).ctl.plbctl = (s.tile t).ctl.plbctl := by
    by_cases h : t = u
    · subst h; rw [State.tile_updTile_self]; exact ⟨rfl, rfl⟩
    · rw [State.tile_updTile_ne s h]; exact ⟨rfl, rfl⟩
  simp only [State.fillOk, State.rangeOk, State.tileView, State.partOf, State.gangOf, hg, Ctl.plbOk, Ctl.plbEntryOk, hc]
  rfl

theorem fillOk_wait (s : State) (sy : Sync) (t src len view : Nat) : (s.takeWait sy).fillOk t src len view = s.fillOk t src len view := by
  obtain ⟨m, h | h⟩ := takeWait_sems s sy
  · rw [h]
  · rw [h]; exact fillOk_ctl s _ m t src len view

end Sys2Proof.Laws
end

