-- ==== Sys2Proof/Laws/Lanes.lean ====
section
/-! SUPPORT. Vector results lane by lane: writes, permutes, conversions, scans and gathers. -/

namespace Sys2Proof.Laws

open Sys2Proof.Machine Sys2Proof.Safety

theorem vtags_getLsbD (x : Strand) (vs : List VReg) (i : Nat) : (x.vtags vs).getLsbD i = vs.any fun v => (x.vt v).getLsbD i := by
  have : ∀ (t : BitVec 64), (vs.foldl (fun t v => t ||| x.vt v) t).getLsbD i = (t.getLsbD i || vs.any fun v => (x.vt v).getLsbD i) := by
    induction vs with
    | nil => intro t; simp
    | cons v r ih => intro t; rw [List.foldl_cons, ih]; simp [Bool.or_assoc]
  simp [Strand.vtags, this]

theorem raiseFlags_none (x : Strand) : x.raiseFlags {} = x := by
  simp [Strand.raiseFlags, Flags.bits]

theorem vecDone_lanes {s : State} {g : Guard} {vd : VReg} {v : Vec} {t : BitVec 64} {f : Nat → Nat × Flags} {poison : Nat → Bool}
    {o : Host.Outcome State Fault Refusal} (h : o = .next (retired s (s.updMe fun x => x.vwrLanes (s.me.active g) vd v t)))
    (hv : ∀ i, i < 64 → (s.me.active g).getLsbD i = true → element v.toNat 32 i = (f i).1 % 2 ^ 32) (hf : ∀ i, (f i).2 = {})
    (ht : ∀ i, i < 64 → (s.me.active g).getLsbD i = true → t.getLsbD i = (poison i || (s.me.maskPoison g).getLsbD i)) :
    VecDone s g vd 32 f poison o := by
  refine ⟨(s.me.vrd vd &&& ~~~(laneBits (s.me.active g))) ||| (v &&& laneBits (s.me.active g)),
    (s.me.vt vd &&& ~~~(s.me.active g)) ||| (t &&& s.me.active g), {}, ?_, fun e he => ?_, fun i hi => ?_, fun b hb => ?_⟩
  · rw [h]; exact congrArg (fun t => Host.Outcome.next (retired s t)) (updMe_congr (by simp only [Strand.vwrLanes]; rw [raiseFlags_none]))
  · rw [element_merge _ _ _ (by decide) (by decide)]
    have he' : e < 64 := he
    have : 32 * e / 32 = e := Nat.mul_div_cancel_left _ (by decide)
    rw [this]
    by_cases ha : (s.me.active g).getLsbD e = true
    · rw [if_pos ha, if_pos ha, hv e he' ha]
    · rw [if_neg ha, if_neg ha]
  · rw [getLsbD_mergeTag]
    by_cases ha : (s.me.active g).getLsbD i = true
    · rw [if_pos ha, if_pos ha, ht i hi ha]
    · rw [if_neg ha, if_neg ha]
  · simp only [hf]
    have z : ({} : Flags).bits.testBit b = false := by interval_cases b <;> decide
    simp [z]

theorem vecDone_write {s : State} {g : Guard} {vd : VReg} {srcs : List VReg} {w : Nat} {f : Strand → Nat → Nat × Flags} {f' : Nat → Nat × Flags}
    {poison : Nat → Bool} {o : Host.Outcome State Fault Refusal} (h : o = .next (retired s (s.vecWrite g vd srcs w f)))
    (hw : 0 < w) (hd : w ∣ 32) (hp : poison = lanePoison s srcs)
    (he : ∀ e, e < 2048 / w → (s.me.active g).getLsbD (w * e / 32) = true → (f s.me e).1 % 2 ^ w = (f' e).1 % 2 ^ w ∧ (f s.me e).2 = (f' e).2) :
    VecDone s g vd w f' poison o := by
  obtain ⟨k1, k2⟩ := elementwise_spec w (s.me.active g) (f s.me) (Nat.mul_div_le 2048 w)
  refine ⟨(s.me.vrd vd &&& ~~~(laneBits (s.me.active g))) ||| ((elementwise w (s.me.active g) (f s.me)).1 &&& laneBits (s.me.active g)),
    (s.me.vt vd &&& ~~~(s.me.active g)) ||| ((s.me.vtags srcs ||| s.me.maskPoison g) &&& s.me.active g),
    (elementwise w (s.me.active g) (f s.me)).2, ?_, fun e hee => ?_, fun i hi => ?_, fun b hb => ?_⟩
  · rw [h]; exact congrArg (fun t => Host.Outcome.next (retired s t)) (updMe_congr rfl)
  · rw [element_merge _ _ _ hw hd]
    by_cases ha : (s.me.active g).getLsbD (w * e / 32) = true
    · rw [if_pos ha, if_pos ha, k1 e hee ha, (he e hee ha).1]
    · rw [if_neg ha, if_neg ha]
  · rw [getLsbD_mergeTag, hp]
    by_cases ha : (s.me.active g).getLsbD i = true
    · rw [if_pos ha, if_pos ha, BitVec.getLsbD_or, vtags_getLsbD]; rfl
    · rw [if_neg ha, if_neg ha]
  · rw [k2 b hb]
    constructor
    · rintro ⟨e, h1, h2, h3⟩; exact ⟨e, h1, h2, by rw [← (he e h1 h2).2]; exact h3⟩
    · rintro ⟨e, h1, h2, h3⟩; exact ⟨e, h1, h2, by rw [(he e h1 h2).2]; exact h3⟩

theorem lane_mod (v : Vec) (i : Nat) : (lane v i).toNat % 2 ^ 32 = (lane v i).toNat := Nat.mod_eq_of_lt (lane v i).isLt

theorem vecDone_permute {s : State} {g : Guard} {vd : VReg} {src : Strand → Nat → VReg × Nat} {ix : Option VReg} {f : Nat → Nat × Flags}
    {poison : Nat → Bool} {i : Info} (h : Clears s i) (hf : i.formats = none) (hs : i.sync = Sync.none)
    (hv : ∀ i, i < 64 → f i = ((lane (s.me.vrd (src s.me i).1) (src s.me i).2).toNat, {}))
    (hp : ∀ i, i < 64 → poison i = ((s.me.vt (src s.me i).1).getLsbD (src s.me i).2 || ((ix.map s.me.vt).getD 0).getLsbD i)) :
    VecDone s g vd 32 (fun i => ((f i).1, {})) poison (s.issue i fun _ _ s => s.permute g vd src ix) := by
  have e := issue_done (body := fun _ _ s => s.permute g vd src ix) h hf hs rfl
  refine vecDone_lanes (t := BitVec.ofNat 64 (packElements 1 ((List.range 64).map fun i => if (s.me.vt (src s.me i).1).getLsbD (src s.me i).2 then 1 else 0)) |||
      (ix.map s.me.vt).getD 0 ||| s.me.maskPoison g)
      (v := BitVec.ofNat 2048 (packElements 32 ((List.range 64).map fun i => (lane (s.me.vrd (src s.me i).1) (src s.me i).2).toNat)))
      (e.trans ?_) (fun i hi ha => ?_) (fun _ => rfl) (fun i hi ha => ?_)
  · exact congrArg (fun t => Host.Outcome.next (retired s t)) (updMe_congr (by cases ix <;> rfl))
  · rw [toNat_pack _ _ _ (by simp), element_pack _ _ _ (by simpa using hi), List.getD_eq_getElem _ _ (by simpa using hi)]
    simp only [List.getElem_map, List.getElem_range, hv i hi]
  · rw [BitVec.getLsbD_or, BitVec.getLsbD_or, getLsbD_pack1 64 (fun i => (s.me.vt (src s.me i).1).getLsbD (src s.me i).2) i hi, hp i hi]

theorem vecDone_congr {s : State} {g : Guard} {vd : VReg} {w : Nat} {f f' : Nat → Nat × Flags} {p p' : Nat → Bool} {o : Host.Outcome State Fault Refusal}
    (h : VecDone s g vd w f p o) (h1 : f = f') (h2 : p = p') : VecDone s g vd w f' p' o := by subst h1 h2; exact h

theorem fmtWidth_float {fa : Nat} (h : fa ≤ 2) : 0 < fmtWidth fa ∧ fmtWidth fa ∣ 32 := by
  interval_cases fa <;> decide

theorem pairOf_float {s : State} {g : Guard} (h : Clears s (formatted g floatPairs)) : (pairOf s floatPairs).1 ≤ 2 := by
  obtain ⟨-, h2, -⟩ := h
  simp only [pairOf, Strand.formatPair]
  simp only [Strand.prefixMisuse, formatted, Bool.and_eq_false_iff] at h2
  split
  · rename_i hp
    rcases h2 with h2 | h2
    · rw [hp] at h2; cases h2
    · simp only [floatPairs, Bool.not_eq_false', Bool.and_eq_true, decide_eq_true_eq] at h2
      exact h2.2
  · simp [floatPairs]

theorem compare_int (x y : Int) : (XVal.int x).compare (XVal.int y) = if x < y then .lt else if x = y then .eq else .gt := by
  have hs : ∀ (z : Int) (e0 : Int), 0 ≤ e0 → (XVal.int z).scaled e0 = z := by
    intro z e0 he
    have h0 : (0 - e0).toNat = 0 := by omega
    simp only [XVal.int, XVal.exact, XVal.scaled, h0, pow_zero, Nat.mul_one, decide_eq_true_eq]
    split <;> omega
  have he : 0 ≤ minExp [XVal.int x, XVal.int y] 1024 := by
    simp only [XVal.int, XVal.exact, minExp]
    split <;> split <;> omega
  show (let e0 := minExp [XVal.int x, XVal.int y] 1024
    if (XVal.int x).scaled e0 < (XVal.int y).scaled e0 then Ordering.lt else if (XVal.int x).scaled e0 = (XVal.int y).scaled e0 then .eq else .gt) = _
  simp only [hs _ _ he]

theorem fmtWidth_compare {fa : Nat} (h : fa ≤ 2 ∨ fa = 11) : (fmtWidth fa = 32 ∨ fmtWidth fa = 16) := by
  rcases h with h | rfl
  · interval_cases fa <;> decide
  · decide

theorem pairOf_int {s : State} {g : Guard} (h : Clears s (formatted g intPairs)) : (pairOf s intPairs).1 ∈ [7, 8, 10, 11] := by
  obtain ⟨-, h2, -⟩ := h
  simp only [pairOf, Strand.formatPair]
  simp only [Strand.prefixMisuse, formatted, Bool.and_eq_false_iff] at h2
  split
  · rename_i hp
    rcases h2 with h2 | h2
    · rw [hp] at h2; cases h2
    · simp only [intPairs, Bool.not_eq_false', Bool.and_eq_true, List.contains_iff_mem] at h2
      exact h2.2
  · simp [intPairs]

theorem wrapNat_mod (w : Nat) (v : Int) : wrapNat w v = (v % 2 ^ w).toNat := by
  simp [wrapNat]

theorem laneOnes_spec (v : BitVec 32) : ∀ n k, laneOnes (v.toNat / 2 ^ k) n = (List.range n).countP fun b => v.getLsbD (k + b) := by
  intro n
  induction n with
  | zero => intro k; simp [laneOnes]
  | succ n ih =>
    intro k
    rw [laneOnes, Nat.div_div_eq_div_mul, ← pow_succ, ih (k + 1), List.range_succ_eq_map, List.countP_cons, List.countP_map]
    have e1 : (v.getLsbD (k + 0)) = decide (v.toNat / 2 ^ k % 2 = 1) := by
      rw [Nat.add_zero, BitVec.getLsbD, Nat.testBit_eq_decide_div_mod_eq]
    have e2 : ((fun b => v.getLsbD (k + b)) ∘ Nat.succ) = fun b => v.getLsbD (k + 1 + b) := by
      funext b; simp only [Function.comp]; congr 1; omega
    rw [e1, e2]
    rcases Nat.mod_two_eq_zero_or_one (v.toNat / 2 ^ k) with h | h <;> simp [h]; omega

theorem mem_lanesOf (m : BitVec 64) (i : Nat) : i ∈ lanesOf m ↔ i < 64 ∧ m.getLsbD i = true := by
  simp [lanesOf, List.mem_filter]

theorem firstLane_none {ls : List Nat} {addr : Nat → Int} {bad : Int → Bool} (h : ∀ i ∈ ls, bad (addr i) = false) :
    firstLane ls addr bad = none := by
  simp only [firstLane, Option.map_eq_none_iff, List.find?_eq_none]
  intro i hi; rw [h i hi]; simp

theorem tileAddr_of {a : Nat} (h : a < 0x40000) : tileAddr (a : Int) = some a := by
  simp only [tileAddr]; rw [if_pos (by omega)]; simp

theorem laneBad_of {T : Tile} {ok : Region → Bool} {x : Int} {a : Nat} (h : tileAddr x = some a) : T.laneBad ok x = !ok (T.region a) := by
  unfold Tile.laneBad; rw [h]

theorem loadLanes_reach {s : State} {g : Guard} {vd : VReg} {addr : Nat → Nat} (h : LanesReach s g addr Region.readable) :
    ∃ v p, LanesLoaded s g vd addr v p ∧ s.loadLanes g vd (fun i => (addr i : Int)) = .done (s.updMe fun x => x.vwr vd v p) := by
  have hbad : firstLane (lanesOf (s.me.active g)) (fun i => (addr i : Int)) (s.myTile.laneBad Region.readable) = none := by
    refine firstLane_none fun i hi => ?_
    obtain ⟨h1, h2⟩ := (mem_lanesOf _ _).mp hi
    obtain ⟨a1, a2, -⟩ := h i h1 h2
    rw [laneBad_of (tileAddr_of a1), a2]; rfl
  have hg : ((lanesOf (s.me.active g)).any fun i => s.myTile.gatedAt (addr i)) = false := by
    rw [List.any_eq_false]
    intro i hi
    obtain ⟨h1, h2⟩ := (mem_lanesOf _ _).mp hi
    simpa using (h i h1 h2).2.2.1
  have hp : ((lanesOf (s.me.active g)).any fun i => s.storePending s.curTile (addr i)) = false := by
    rw [List.any_eq_false]
    intro i hi
    obtain ⟨h1, h2⟩ := (mem_lanesOf _ _).mp hi
    simpa using (h i h1 h2).2.2.2
  let v : Vec := BitVec.ofNat 2048 (packElements 32 ((List.range 64).map fun i => if (s.me.active g).getLsbD i then s.myTile.readNat (addr i) 4 else 0))
  let t : BitVec 64 := BitVec.ofNat 64 (packElements 1 ((List.range 64).map fun i => if (s.me.active g).getLsbD i && s.myTile.poisonAt (addr i) then 1 else 0))
  refine ⟨(s.me.vrd vd &&& ~~~(laneBits (s.me.active g))) ||| (v &&& laneBits (s.me.active g)),
    (s.me.vt vd &&& ~~~(s.me.active g)) ||| ((t ||| s.me.maskPoison g) &&& s.me.active g), fun i hi => ⟨?_, ?_⟩, ?_⟩
  · apply BitVec.eq_of_toNat_eq
    rw [lane_eq, element_merge _ _ _ (by decide) (by decide), Nat.mul_div_cancel_left _ (by decide)]
    by_cases ha : (s.me.active g).getLsbD i = true
    · rw [if_pos ha, if_pos ha, toNat_pack _ _ _ (by simp), element_pack _ _ _ (by simpa using hi), List.getD_eq_getElem _ _ (by simpa using hi)]
      simp only [List.getElem_map, List.getElem_range, ha, if_true]
      simp only [Tile.readNat, ofBytes, List.range_succ, List.range_zero, List.nil_append, List.cons_append, List.map_cons, List.map_nil, Nat.add_zero, append_toNat]
      have := (s.myTile.byteAt (addr i)).isLt
      have := (s.myTile.byteAt (addr i + 1)).isLt
      have := (s.myTile.byteAt (addr i + 2)).isLt
      have := (s.myTile.byteAt (addr i + 3)).isLt
      omega
    · rw [if_neg ha, if_neg ha, lane_eq]
  · rw [getLsbD_mergeTag]
    by_cases ha : (s.me.active g).getLsbD i = true
    · rw [if_pos ha, if_pos ha, BitVec.getLsbD_or, getLsbD_pack1 64 (fun i => (s.me.active g).getLsbD i && s.myTile.poisonAt (addr i)) i hi, ha, Bool.true_and]
    · rw [if_neg ha, if_neg ha]
  · simp only [State.loadLanes, hbad, Int.toNat_natCast]
    rw [if_neg (by rw [hg]; simp), if_neg (by rw [hp]; simp)]
    exact congrArg Eff.done (updMe_congr rfl)

theorem baseCheck_ok {s : State} {g : Guard} {b : Option SReg} {ea : Nat} {k : State → Eff} (ha : s.me.active g ≠ 0) (hb : ∀ r, b = some r → s.me.tag r = false) (h8 : ea % 8 = 0) :
    s.baseCheck g b (ea : Int) k = k s := by
  have h8' : (ea : Int) % 8 = 0 := by exact_mod_cast h8
  simp only [State.baseCheck, if_neg ha, h8']
  cases b with
  | none => simp
  | some r => simp [Option.filter, hb r rfl]

theorem advance_spec (x : Strand) (k : BitVec 3) : ∃ kv, x.advance k = x.kwr k kv ∧
    (bitsOf kv 0 18 : Int) = (((bitsOf (x.krd k) 0 18 : Nat) : Int) + (BitVec.ofNat 16 (bitsOf (x.krd k) 18 16)).toInt) % 2 ^ 18 ∧
    bitsOf kv 18 46 = bitsOf (x.krd k) 18 46 := by
  refine ⟨_, rfl, ?_, ?_⟩
  · have : bitsOf (withBits (x.krd k) 0 18 (wrapNat 18 ((bitsOf (x.krd k) 0 18 : Nat) + signedOf 16 (bitsOf (x.krd k) 18 16)))) 0 18 =
        wrapNat 18 ((bitsOf (x.krd k) 0 18 : Nat) + signedOf 16 (bitsOf (x.krd k) 18 16)) % 2 ^ 18 := by
      apply Nat.eq_of_testBit_eq
      intro j
      simp only [bitsOf, Nat.testBit_mod_two_pow, Nat.testBit_div_two_pow, Nat.add_zero]
      by_cases hj : j < 18
      · have := withBits_getLsbD (x.krd k) 0 18 (wrapNat 18 ((bitsOf (x.krd k) 0 18 : Nat) + signedOf 16 (bitsOf (x.krd k) 18 16))) j (by omega)
        rw [if_pos (by omega)] at this
        simp only [BitVec.getLsbD, bitsOf] at this
        rw [this]; simp
      · simp [hj]
    rw [this, wrapNat_mod]
    have hs : signedOf 16 (bitsOf (x.krd k) 18 16) = (BitVec.ofNat 16 (bitsOf (x.krd k) 18 16)).toInt := by
      have hb : bitsOf (x.krd k) 18 16 < 2 ^ 16 := Nat.mod_lt _ (by decide)
      rw [BitVec.toInt_eq_toNat_cond, BitVec.toNat_ofNat]
      simp only [signedOf, Nat.mod_eq_of_lt hb]
      split <;> split <;> omega
    rw [hs]
    generalize ((bitsOf (x.krd k) 0 18 : Nat) : Int) + (BitVec.ofNat 16 (bitsOf (x.krd k) 18 16)).toInt = z
    omega
  · apply Nat.eq_of_testBit_eq
    intro j
    simp only [bitsOf, Nat.testBit_mod_two_pow, Nat.testBit_div_two_pow]
    by_cases hj : j < 46
    · have := withBits_getLsbD (x.krd k) 0 18 (wrapNat 18 ((bitsOf (x.krd k) 0 18 : Nat) + signedOf 16 (bitsOf (x.krd k) 18 16))) (j + 18) (by omega)
      rw [if_neg (by omega)] at this
      simp only [BitVec.getLsbD, bitsOf] at this
      rw [this]
    · simp [hj]

theorem prefixPoison_bit (t : BitVec 64) (i : Nat) (hi : i < 64) : (prefixPoison t).getLsbD i = (List.range (i + 1)).any fun j => t.getLsbD j := by
  have := getLsbD_pack1 64 (fun i => decide (bitsOf t 0 (i + 1) ≠ 0)) i hi
  have e : prefixPoison t = BitVec.ofNat 64 (packElements 1 ((List.range 64).map fun i => if decide (bitsOf t 0 (i + 1) ≠ 0) = true then 1 else 0)) := by
    simp only [prefixPoison, decide_eq_true_eq]
  rw [e, this, Bool.eq_iff_iff]
  simp only [decide_eq_true_eq, List.any_eq_true, List.mem_range]
  constructor
  · intro h
    by_contra hn
    apply h
    apply Nat.eq_of_testBit_eq
    intro j
    simp only [bitsOf, Nat.testBit_mod_two_pow, Nat.testBit_div_two_pow, Nat.zero_testBit, Nat.add_zero]
    by_cases hj : j < i + 1
    · have : ¬ (t.getLsbD j = true) := fun x => hn ⟨j, hj, x⟩
      simp only [BitVec.getLsbD] at this
      simp [hj, this]
    · simp [hj]
  · rintro ⟨j, hj, hb⟩ h
    have : (bitsOf t 0 (i + 1)).testBit j = true := by
      simp only [bitsOf, Nat.testBit_mod_two_pow, Nat.testBit_div_two_pow, Nat.add_zero, hj, decide_true, Bool.true_and]; exact hb
    rw [h] at this; simp at this

/-- The running value of a scan before its n-th element, over the active ones. -/
def scanState (act : Nat → Bool) (raw : Nat → Nat) (step : Option Nat → Nat → Nat × Flags) : Nat → Option Nat
  | 0 => none
  | i + 1 => if act i then some (step (scanState act raw step i) (raw i)).1 else scanState act raw step i

theorem scanRun_cons (act : Nat → Bool) (raw : Nat → Nat) (conv : Nat → Nat × Flags) (node : Nat → Nat → Nat × Flags)
    (step : Option Nat → Nat → Nat × Flags) (h0 : ∀ e, step none (raw e) = conv e) (h1 : ∀ v e, step (some v) (raw e) = node v (raw e))
    (e : Nat) (t : List Nat) (run : Option Nat) (ha : act e = true) : scanRun act raw conv node (e :: t) run =
      ((step run (raw e)).1 :: (scanRun act raw conv node t (some (step run (raw e)).1)).1,
        (step run (raw e)).2.or (scanRun act raw conv node t (some (step run (raw e)).1)).2) := by
  cases run with
  | none => rw [scanRun, if_pos ha, h0]
  | some v => rw [scanRun, if_pos ha, h1]

theorem scanRun_spec (act : Nat → Bool) (raw : Nat → Nat) (conv : Nat → Nat × Flags) (node : Nat → Nat → Nat × Flags)
    (step : Option Nat → Nat → Nat × Flags) (h0 : ∀ e, step none (raw e) = conv e) (h1 : ∀ v e, step (some v) (raw e) = node v (raw e)) :
    ∀ (n k : Nat), (scanRun act raw conv node ((List.range n).map (k + ·)) (scanState act raw step k)).1 =
      (List.range n).map (fun j => if act (k + j) then (step (scanState act raw step (k + j)) (raw (k + j))).1 else 0) ∧
    (∀ b, b < 5 → ((scanRun act raw conv node ((List.range n).map (k + ·)) (scanState act raw step k)).2.bits.testBit b = true ↔
      ∃ j, j < n ∧ act (k + j) = true ∧ (step (scanState act raw step (k + j)) (raw (k + j))).2.bits.testBit b = true)) := by
  intro n
  have one : ∀ b, b < 5 → ∀ x y : Flags, ((x.or y).bits.testBit b = true ↔ x.bits.testBit b = true ∨ y.bits.testBit b = true) := by
    rintro b hb ⟨a1, a2, a3, a4, a5⟩ ⟨b1, b2, b3, b4, b5⟩
    interval_cases b <;> revert a1 a2 a3 a4 a5 b1 b2 b3 b4 b5 <;> decide
  induction n with
  | zero =>
    intro k
    refine ⟨rfl, fun b hb => ?_⟩
    have z : ({} : Flags).bits.testBit b = false := by interval_cases b <;> decide
    simp [scanRun, z]
  | succ n ih =>
    intro k
    have e : (List.range (n + 1)).map (k + ·) = k :: (List.range n).map (k + 1 + ·) := by
      rw [List.range_succ_eq_map, List.map_cons, List.map_map]
      congr 1
      apply List.map_congr_left; intro j _; simp only [Function.comp]; omega
    rw [e]
    obtain ⟨i1, i2⟩ := ih (k + 1)
    have e2 : ∀ (f : Nat → Nat), (List.range (n + 1)).map f = f 0 :: (List.range n).map (fun j => f (j + 1)) := by
      intro f; rw [List.range_succ_eq_map, List.map_cons, List.map_map]; rfl
    have sh : ∀ j, k + 1 + j = k + (j + 1) := by intro j; omega
    by_cases ha : act k = true
    · have hs : scanState act raw step (k + 1) = some (step (scanState act raw step k) (raw k)).1 := by simp only [scanState, ha, if_true]
      rw [hs] at i1 i2
      rw [scanRun_cons act raw conv node step h0 h1 _ _ _ ha]
      rw [e2]
      refine ⟨?_, fun b hb => ?_⟩
      · rw [i1]
        simp only [Nat.add_zero, ha, if_true, sh]
      · rw [one b hb, i2 b hb]
        constructor
        · rintro (h | ⟨j, hj, h2, h3⟩)
          · exact ⟨0, by omega, ha, h⟩
          · exact ⟨j + 1, by omega, by rw [← sh]; exact h2, by rw [← sh]; exact h3⟩
        · rintro ⟨j, hj, h2, h3⟩
          cases j with
          | zero => exact .inl h3
          | succ j => exact .inr ⟨j, by omega, by rw [sh]; exact h2, by rw [sh]; exact h3⟩
    · have hs : scanState act raw step (k + 1) = scanState act raw step k := by simp only [scanState, ha, if_false]; rfl
      rw [hs] at i1 i2
      simp only [scanRun, ha, Bool.false_eq_true, if_false]
      rw [e2]
      refine ⟨?_, fun b hb => ?_⟩
      · rw [i1]
        simp only [Nat.add_zero, ha, Bool.false_eq_true, if_false, sh]
      · rw [i2 b hb]
        constructor
        · rintro ⟨j, hj, h2, h3⟩
          exact ⟨j + 1, by omega, by rw [← sh]; exact h2, by rw [← sh]; exact h3⟩
        · rintro ⟨j, hj, h2, h3⟩
          cases j with
          | zero => exact absurd h2 ha
          | succ j => exact ⟨j, by omega, by rw [sh]; exact h2, by rw [sh]; exact h3⟩

theorem swapping_none {T : Tile} {bs : List Bool} (h : ∀ b ∈ bs, T.swapping b = false) : bs.any T.swapping = false := by
  rw [List.any_eq_false]; intro b hb; rw [h b hb]; simp

theorem invalidTable_none {T : Tile} {bs : List Bool} (h : ∀ b ∈ bs, encodable (T.tabs.of b) = true) : T.invalidTable bs = none := by
  simp only [Tile.invalidTable, Option.map_eq_none_iff, List.find?_eq_none]
  intro b hb; rw [h b hb]; simp

theorem vecDone_convert {s : State} {g : Guard} {vd : VReg} {ws wd : Nat} {po : Strand → Nat → Bool} {f : Strand → Nat → Nat × Flags} {f' : Nat → Nat × Flags}
    {poison : Nat → Bool} {o : Host.Outcome State Fault Refusal} {n : Nat} (hn : n = convertCount ws wd)
    (h : o = .next (retired s (s.updMe fun x =>
    let act := x.active g
    let n := convertCount ws wd
    let r := elementwise wd act fun e => if e < n then f x e else (0, {})
    (x.vwrLanes act vd r.1 (convertPoison n wd (po x) ||| x.maskPoison g)).raiseFlags r.2)))
    (hw : 0 < wd) (hd : wd ∣ 32) (hf : ∀ e, f' e = if e < n then f s.me e else (0, {}))
    (hp : ∀ i, i < 64 → poison i = (convertPoison n wd (po s.me)).getLsbD i) : VecDone s g vd wd f' poison o := by
  obtain ⟨k1, k2⟩ := elementwise_spec wd (s.me.active g) f' (Nat.mul_div_le 2048 wd)
  refine ⟨(s.me.vrd vd &&& ~~~(laneBits (s.me.active g))) ||| ((elementwise wd (s.me.active g) f').1 &&& laneBits (s.me.active g)),
    (s.me.vt vd &&& ~~~(s.me.active g)) ||| ((convertPoison n wd (po s.me) ||| s.me.maskPoison g) &&& s.me.active g),
    (elementwise wd (s.me.active g) f').2, ?_, fun e hee => ?_, fun i hi => ?_, fun b hb => k2 b hb⟩
  · rw [h]
    have hf' : f' = fun e => if e < n then f s.me e else (0, {}) := funext hf
    exact congrArg (fun t => Host.Outcome.next (retired s t)) (updMe_congr (by rw [hf', hn]; rfl))
  · rw [element_merge _ _ _ hw hd]
    by_cases ha : (s.me.active g).getLsbD (wd * e / 32) = true
    · rw [if_pos ha, if_pos ha, k1 e hee ha]
    · rw [if_neg ha, if_neg ha]
  · rw [getLsbD_mergeTag]
    by_cases ha : (s.me.active g).getLsbD i = true
    · rw [if_pos ha, if_pos ha, BitVec.getLsbD_or, hp i hi]
    · rw [if_neg ha, if_neg ha]

theorem convertPoison_getLsbD {n wd i : Nat} {p : Nat → Bool} (hi : i < 64) (hw : 0 < wd) (hd : wd ∣ 32) :
    (convertPoison n wd p).getLsbD i = (List.range n).any fun e => decide (wd * e / 32 = i) && p e := by
  have := getLsbD_pack1 64 (fun i => (List.range (32 / wd)).any fun j => decide (i * (32 / wd) + j < n) && p (i * (32 / wd) + j)) i hi
  rw [convertPoison, this, Bool.eq_iff_iff]
  simp only [List.any_eq_true, List.mem_range, Bool.and_eq_true, decide_eq_true_eq]
  obtain ⟨m, hm⟩ := hd
  have hm0 : 0 < m := by rcases Nat.eq_zero_or_pos m with h | h; · subst h; simp at hm
                         · exact h
  have e1 : 32 / wd = m := by rw [hm, Nat.mul_div_cancel_left _ hw]
  have e2 : ∀ e, wd * e / 32 = e / m := by intro e; rw [hm, ← Nat.div_div_eq_div_mul, Nat.mul_div_cancel_left _ hw]
  rw [e1]
  constructor
  · rintro ⟨j, hj, h1, h2⟩
    refine ⟨i * m + j, h1, ?_, h2⟩
    rw [e2, Nat.mul_comm, Nat.mul_add_div hm0, Nat.div_eq_of_lt hj, Nat.add_zero]
  · rintro ⟨e, he, h1, h2⟩
    rw [e2] at h1
    have := Nat.div_add_mod e m
    refine ⟨e % m, Nat.mod_lt _ hm0, ?_, ?_⟩
    · rw [← h1, Nat.mul_comm]; omega
    · rw [← h1, Nat.mul_comm, this]; exact h2

theorem pairOf_ok {s : State} {g : Guard} {F : Formats} (h : Clears s (formatted g F)) : F.ok (pairOf s F).1 (pairOf s F).2 = true ∨ pairOf s F = (F.dfa, F.dfb) := by
  obtain ⟨-, h2, -⟩ := h
  simp only [Strand.prefixMisuse, formatted, Bool.and_eq_false_iff] at h2
  simp only [pairOf, Strand.formatPair]
  split
  · rename_i hp
    rcases h2 with h2 | h2
    · rw [hp] at h2; cases h2
    · left; simpa using h2
  · right; rfl

theorem fmtWidth_divides {fb : Nat} (h : fb ≤ 12) (h3 : fb ≠ 3) : 0 < fmtWidth fb ∧ fmtWidth fb ∣ 32 := by
  interval_cases fb <;> first | decide | exact absurd rfl h3

theorem treeReduce_none (node : Nat → Nat → Nat × Flags) : ∀ (n : Nat) (l : List (Option Nat)), (∀ x ∈ l, x = none) → (treeReduce node n l).1 = none := by
  have lev : ∀ (m : Nat) (l : List (Option Nat)), l.length ≤ m → (∀ x ∈ l, x = none) → ∀ x ∈ (treeLevel node l).1, x = none := by
    intro m
    induction m with
    | zero => intro l hl h x hx; have : l = [] := List.length_eq_zero_iff.mp (by omega); subst this; simp [treeLevel] at hx
    | succ m ih =>
      intro l hl h
      match l with
      | [] => intro x hx; simp [treeLevel] at hx
      | [a] => intro x hx; exact h x (by simpa [treeLevel] using hx)
      | a :: b :: t =>
        have ha := h a (by simp)
        have hb := h b (by simp)
        subst ha hb
        intro x hx
        simp only [treeLevel, List.mem_cons] at hx
        rcases hx with hx | hx
        · exact hx
        · exact ih t (by simp at hl; omega) (fun y hy => h y (by simp [hy])) x hx
  intro n
  induction n with
  | zero =>
    intro l h
    simp only [treeReduce]
    cases l with
    | nil => rfl
    | cons a t => exact h a (by simp)
  | succ n ih =>
    intro l h
    simp only [treeReduce]
    exact ih _ (lev _ l le_rfl h)

end Sys2Proof.Laws
end

