-- ==== Sys2Proof/Laws/PerInstr.lean ====
section
/-! SUPPORT. Of every instruction, by constructor: it has words exactly when it is an instruction of Belot, and an event of
the device has none. -/

namespace Sys2Proof.Laws

/-- An instruction of Belot has words; an event of the device has none. -/
def Encodes.Statement (i : Instr) : Prop := (encode i).isSome = i.isCode

theorem Encodes.add (g : Guard) (d a b : SReg) : Encodes.Statement (.add g d a b) := rfl
theorem Encodes.sub (g : Guard) (d a b : SReg) : Encodes.Statement (.sub g d a b) := rfl
theorem Encodes.and (g : Guard) (d a b : SReg) : Encodes.Statement (.and g d a b) := rfl
theorem Encodes.or (g : Guard) (d a b : SReg) : Encodes.Statement (.or g d a b) := rfl
theorem Encodes.xor (g : Guard) (d a b : SReg) : Encodes.Statement (.xor g d a b) := rfl
theorem Encodes.andn (g : Guard) (d a b : SReg) : Encodes.Statement (.andn g d a b) := rfl
theorem Encodes.shl (g : Guard) (d a b : SReg) : Encodes.Statement (.shl g d a b) := rfl
theorem Encodes.shr (g : Guard) (d a b : SReg) : Encodes.Statement (.shr g d a b) := rfl
theorem Encodes.sra (g : Guard) (d a b : SReg) : Encodes.Statement (.sra g d a b) := rfl
theorem Encodes.rol (g : Guard) (d a b : SReg) : Encodes.Statement (.rol g d a b) := rfl
theorem Encodes.min (g : Guard) (d a b : SReg) : Encodes.Statement (.min g d a b) := rfl
theorem Encodes.max (g : Guard) (d a b : SReg) : Encodes.Statement (.max g d a b) := rfl
theorem Encodes.minu (g : Guard) (d a b : SReg) : Encodes.Statement (.minu g d a b) := rfl
theorem Encodes.maxu (g : Guard) (d a b : SReg) : Encodes.Statement (.maxu g d a b) := rfl
theorem Encodes.mul (g : Guard) (d a b : SReg) : Encodes.Statement (.mul g d a b) := rfl
theorem Encodes.mulh (g : Guard) (d a b : SReg) : Encodes.Statement (.mulh g d a b) := rfl
theorem Encodes.mulhu (g : Guard) (d a b : SReg) : Encodes.Statement (.mulhu g d a b) := rfl
theorem Encodes.div (g : Guard) (d a b : SReg) : Encodes.Statement (.div g d a b) := rfl
theorem Encodes.divu (g : Guard) (d a b : SReg) : Encodes.Statement (.divu g d a b) := rfl
theorem Encodes.rem (g : Guard) (d a b : SReg) : Encodes.Statement (.rem g d a b) := rfl
theorem Encodes.remu (g : Guard) (d a b : SReg) : Encodes.Statement (.remu g d a b) := rfl
theorem Encodes.addi (g : Guard) (d a : SReg) (imm : BitVec 15) : Encodes.Statement (.addi g d a imm) := rfl
theorem Encodes.andImm (g : Guard) (d a : SReg) (imm : BitVec 15) : Encodes.Statement (.andImm g d a imm) := rfl
theorem Encodes.orImm (g : Guard) (d a : SReg) (imm : BitVec 15) : Encodes.Statement (.orImm g d a imm) := rfl
theorem Encodes.xorImm (g : Guard) (d a : SReg) (imm : BitVec 15) : Encodes.Statement (.xorImm g d a imm) := rfl
theorem Encodes.andnImm (g : Guard) (d a : SReg) (imm : BitVec 15) : Encodes.Statement (.andnImm g d a imm) := rfl
theorem Encodes.shlImm (g : Guard) (d a : SReg) (imm : BitVec 15) : Encodes.Statement (.shlImm g d a imm) := rfl
theorem Encodes.shrImm (g : Guard) (d a : SReg) (imm : BitVec 15) : Encodes.Statement (.shrImm g d a imm) := rfl
theorem Encodes.sraImm (g : Guard) (d a : SReg) (imm : BitVec 15) : Encodes.Statement (.sraImm g d a imm) := rfl
theorem Encodes.rolImm (g : Guard) (d a : SReg) (imm : BitVec 15) : Encodes.Statement (.rolImm g d a imm) := rfl
theorem Encodes.minImm (g : Guard) (d a : SReg) (imm : BitVec 15) : Encodes.Statement (.minImm g d a imm) := rfl
theorem Encodes.maxImm (g : Guard) (d a : SReg) (imm : BitVec 15) : Encodes.Statement (.maxImm g d a imm) := rfl
theorem Encodes.minuImm (g : Guard) (d a : SReg) (imm : BitVec 15) : Encodes.Statement (.minuImm g d a imm) := rfl
theorem Encodes.maxuImm (g : Guard) (d a : SReg) (imm : BitVec 15) : Encodes.Statement (.maxuImm g d a imm) := rfl
theorem Encodes.mulImm (g : Guard) (d a : SReg) (imm : BitVec 15) : Encodes.Statement (.mulImm g d a imm) := rfl
theorem Encodes.clz (g : Guard) (d a : SReg) : Encodes.Statement (.clz g d a) := rfl
theorem Encodes.ctz (g : Guard) (d a : SReg) : Encodes.Statement (.ctz g d a) := rfl
theorem Encodes.popc (g : Guard) (d a : SReg) : Encodes.Statement (.popc g d a) := rfl
theorem Encodes.abs (g : Guard) (d a : SReg) : Encodes.Statement (.abs g d a) := rfl
theorem Encodes.mov (g : Guard) (d a : SReg) : Encodes.Statement (.mov g d a) := rfl
theorem Encodes.sext (g : Guard) (sz : Size) (d a : SReg) : Encodes.Statement (.sext g sz d a) := rfl
theorem Encodes.zext (g : Guard) (sz : Size) (d a : SReg) : Encodes.Statement (.zext g sz d a) := rfl
theorem Encodes.bfx (g : Guard) (d a : SReg) (pos len : BitVec 6) : Encodes.Statement (.bfx g d a pos len) := rfl
theorem Encodes.bfxS (g : Guard) (d a : SReg) (pos len : BitVec 6) : Encodes.Statement (.bfxS g d a pos len) := rfl
theorem Encodes.bfi (g : Guard) (d a : SReg) (pos len : BitVec 6) : Encodes.Statement (.bfi g d a pos len) := rfl
theorem Encodes.lit (g : Guard) (d : SReg) (litLen : BitVec 2) (lit : Word) : Encodes.Statement (.lit g d litLen lit) := rfl
theorem Encodes.lea (g : Guard) (d a b : SReg) (scale : BitVec 2) : Encodes.Statement (.lea g d a b scale) := rfl
theorem Encodes.sel (g : Guard) (d a b : SReg) (n : PReg) : Encodes.Statement (.sel g d a b n) := rfl
theorem Encodes.cmp (g : Guard) (cc : Cond) (pd : PReg) (a b : SReg) : Encodes.Statement (.cmp g cc pd a b) := rfl
theorem Encodes.cmpImm (g : Guard) (cc : Cond) (pd : PReg) (a : SReg) (imm : BitVec 15) : Encodes.Statement (.cmpImm g cc pd a imm) := rfl
theorem Encodes.tst (g : Guard) (pd : PReg) (a b : SReg) : Encodes.Statement (.tst g pd a b) := rfl
theorem Encodes.tstZ (g : Guard) (pd : PReg) (a b : SReg) : Encodes.Statement (.tstZ g pd a b) := rfl
theorem Encodes.tstImm (g : Guard) (pd : PReg) (a : SReg) (imm : BitVec 15) : Encodes.Statement (.tstImm g pd a imm) := rfl
theorem Encodes.tstZImm (g : Guard) (pd : PReg) (a : SReg) (imm : BitVec 15) : Encodes.Statement (.tstZImm g pd a imm) := rfl
theorem Encodes.pand (g : Guard) (x y z : PReg) : Encodes.Statement (.pand g x y z) := rfl
theorem Encodes.por (g : Guard) (x y z : PReg) : Encodes.Statement (.por g x y z) := rfl
theorem Encodes.pxor (g : Guard) (x y z : PReg) : Encodes.Statement (.pxor g x y z) := rfl
theorem Encodes.pnot (g : Guard) (x y : PReg) : Encodes.Statement (.pnot g x y) := rfl
theorem Encodes.pmov (g : Guard) (x y : PReg) : Encodes.Statement (.pmov g x y) := rfl
theorem Encodes.pany (g : Guard) (x y : PReg) : Encodes.Statement (.pany g x y) := rfl
theorem Encodes.br (g : Guard) (target : BitVec 15) : Encodes.Statement (.br g target) := rfl
theorem Encodes.brc (g : Guard) (cc : Cond) (a b : SReg) (target : BitVec 15) : Encodes.Statement (.brc g cc a b target) := rfl
theorem Encodes.jal (g : Guard) (a : SReg) (target : BitVec 15) : Encodes.Statement (.jal g a target) := rfl
theorem Encodes.jr (g : Guard) (a b : SReg) : Encodes.Statement (.jr g a b) := rfl
theorem Encodes.ret (g : Guard) : Encodes.Statement (.ret g) := rfl
theorem Encodes.loop (g : Guard) (a : SReg) (target : BitVec 15) : Encodes.Statement (.loop g a target) := rfl
theorem Encodes.rep (g : Guard) (a : SReg) (len : BitVec 6) (n : BitVec 15) : Encodes.Statement (.rep g a len n) := rfl
theorem Encodes.repStreamLoad (g : Guard) : Encodes.Statement (.repStreamLoad g) := rfl
theorem Encodes.halt : Encodes.Statement .halt := rfl
theorem Encodes.yield : Encodes.Statement .yield := rfl
theorem Encodes.nop : Encodes.Statement .nop := rfl
theorem Encodes.ld (g : Guard) (sz : Size) (d a : SReg) (imm : BitVec 15) : Encodes.Statement (.ld g sz d a imm) := rfl
theorem Encodes.st (g : Guard) (sz : Size) (d a : SReg) (imm : BitVec 15) : Encodes.Statement (.st g sz d a imm) := rfl
theorem Encodes.ldv (g : Guard) (sz : Size) (d a : SReg) (imm : BitVec 15) : Encodes.Statement (.ldv g sz d a imm) := rfl
theorem Encodes.stv (g : Guard) (sz : Size) (d a : SReg) (imm : BitVec 15) : Encodes.Statement (.stv g sz d a imm) := rfl
theorem Encodes.ldsD (g : Guard) (d a : SReg) (imm : BitVec 15) : Encodes.Statement (.ldsD g d a imm) := rfl
theorem Encodes.ldsDE (g : Guard) (d a : SReg) (imm : BitVec 15) : Encodes.Statement (.ldsDE g d a imm) := rfl
theorem Encodes.stfD (g : Guard) (d a : SReg) (imm : BitVec 15) : Encodes.Statement (.stfD g d a imm) := rfl
theorem Encodes.ldc (g : Guard) (sz : Size) (d a : SReg) (imm : BitVec 15) : Encodes.Statement (.ldc g sz d a imm) := rfl
theorem Encodes.stc (g : Guard) (sz : Size) (d a : SReg) (imm : BitVec 15) : Encodes.Statement (.stc g sz d a imm) := rfl
theorem Encodes.sysrd (g : Guard) (d : SReg) (n : BitVec 12) : Encodes.Statement (.sysrd g d n) := rfl
theorem Encodes.syswr (g : Guard) (a : SReg) (n : BitVec 12) : Encodes.Statement (.syswr g a n) := rfl
theorem Encodes.trap (g : Guard) (imm : BitVec 11) : Encodes.Statement (.trap g imm) := rfl
theorem Encodes.brk (g : Guard) (imm : BitVec 11) : Encodes.Statement (.brk g imm) := rfl
theorem Encodes.eret : Encodes.Statement .eret := rfl
theorem Encodes.eretSkip : Encodes.Statement .eretSkip := rfl
theorem Encodes.pclr (g : Guard) (d : SReg) : Encodes.Statement (.pclr g d) := rfl
theorem Encodes.pclrVector (g : Guard) (v : VReg) : Encodes.Statement (.pclrVector g v) := rfl
theorem Encodes.semwait (g : Guard) (m n : BitVec 8) : Encodes.Statement (.semwait g m n) := rfl
theorem Encodes.semsig (g : Guard) (m n : BitVec 8) : Encodes.Statement (.semsig g m n) := rfl
theorem Encodes.semrd (g : Guard) (d : SReg) (m : BitVec 8) : Encodes.Statement (.semrd g d m) := rfl
theorem Encodes.park : Encodes.Statement .park := rfl
theorem Encodes.wake (g : Guard) (n : BitVec 2) : Encodes.Statement (.wake g n) := rfl
theorem Encodes.msg (g : Guard) (a : SReg) : Encodes.Statement (.msg g a) := rfl
theorem Encodes.fence (sc : Scope) : Encodes.Statement (.fence sc) := rfl
theorem Encodes.vfence (sc : Scope) : Encodes.Statement (.vfence sc) := rfl
theorem Encodes.fmt (minor : BitVec 8) : Encodes.Statement (.fmt minor) := rfl
theorem Encodes.vld (g : Guard) (vd : VReg) (ign : BitVec 5) (s : SReg) (imm : BitVec 11) : Encodes.Statement (.vld g vd ign s imm) := rfl
theorem Encodes.vst (g : Guard) (vd : VReg) (ign : BitVec 5) (s : SReg) (imm : BitVec 11) : Encodes.Statement (.vst g vd ign s imm) := rfl
theorem Encodes.vldStream (g : Guard) (vd : VReg) (k : BitVec 3) : Encodes.Statement (.vldStream g vd k) := rfl
theorem Encodes.vstStream (g : Guard) (vd : VReg) (k : BitVec 3) : Encodes.Statement (.vstStream g vd k) := rfl
theorem Encodes.vldb (g : Guard) (vd : VReg) (ign : BitVec 5) (slot : BitVec 6) (imm : BitVec 11) : Encodes.Statement (.vldb g vd ign slot imm) := rfl
theorem Encodes.vstb (g : Guard) (vd : VReg) (ign : BitVec 5) (slot : BitVec 6) (imm : BitVec 11) : Encodes.Statement (.vstb g vd ign slot imm) := rfl
theorem Encodes.vgath (g : Guard) (vd va : VReg) (s : SReg) : Encodes.Statement (.vgath g vd va s) := rfl
theorem Encodes.vscat (g : Guard) (vd va : VReg) (s : SReg) : Encodes.Statement (.vscat g vd va s) := rfl
theorem Encodes.vbcast (g : Guard) (vd : VReg) (s : SReg) : Encodes.Statement (.vbcast g vd s) := rfl
theorem Encodes.vmovs (g : Guard) (d : SReg) (va : VReg) (lane : BitVec 6) : Encodes.Statement (.vmovs g d va lane) := rfl
theorem Encodes.vmovv (g : Guard) (vd va : VReg) : Encodes.Statement (.vmovv g vd va) := rfl
theorem Encodes.vadd (g : Guard) (vd va vb : VReg) (rm : BitVec 3) : Encodes.Statement (.vadd g vd va vb rm) := rfl
theorem Encodes.vsub (g : Guard) (vd va vb : VReg) (rm : BitVec 3) : Encodes.Statement (.vsub g vd va vb rm) := rfl
theorem Encodes.vmul (g : Guard) (vd va vb : VReg) (rm : BitVec 3) : Encodes.Statement (.vmul g vd va vb rm) := rfl
theorem Encodes.vmin (g : Guard) (vd va vb : VReg) (rm : BitVec 3) : Encodes.Statement (.vmin g vd va vb rm) := rfl
theorem Encodes.vmax (g : Guard) (vd va vb : VReg) (rm : BitVec 3) : Encodes.Statement (.vmax g vd va vb rm) := rfl
theorem Encodes.vfma (g : Guard) (vd va vb vc : VReg) (rm : BitVec 3) : Encodes.Statement (.vfma g vd va vb vc rm) := rfl
theorem Encodes.vfms (g : Guard) (vd va vb vc : VReg) (rm : BitVec 3) : Encodes.Statement (.vfms g vd va vb vc rm) := rfl
theorem Encodes.vnfma (g : Guard) (vd va vb vc : VReg) (rm : BitVec 3) : Encodes.Statement (.vnfma g vd va vb vc rm) := rfl
theorem Encodes.vabs (g : Guard) (vd va : VReg) (rm : BitVec 3) : Encodes.Statement (.vabs g vd va rm) := rfl
theorem Encodes.vneg (g : Guard) (vd va : VReg) (rm : BitVec 3) : Encodes.Statement (.vneg g vd va rm) := rfl
theorem Encodes.vrcp (g : Guard) (vd va : VReg) (rm : BitVec 3) : Encodes.Statement (.vrcp g vd va rm) := rfl
theorem Encodes.vrsq (g : Guard) (vd va : VReg) (rm : BitVec 3) : Encodes.Statement (.vrsq g vd va rm) := rfl
theorem Encodes.vexp2 (g : Guard) (vd va : VReg) (rm : BitVec 3) : Encodes.Statement (.vexp2 g vd va rm) := rfl
theorem Encodes.vlog2 (g : Guard) (vd va : VReg) (rm : BitVec 3) : Encodes.Statement (.vlog2 g vd va rm) := rfl
theorem Encodes.vscale (g : Guard) (vd va vb : VReg) (rm : BitVec 3) : Encodes.Statement (.vscale g vd va vb rm) := rfl
theorem Encodes.vclass (g : Guard) (vd va : VReg) : Encodes.Statement (.vclass g vd va) := rfl
theorem Encodes.vcmp (g : Guard) (cc : VCond) (qd : PReg) (va vb : VReg) : Encodes.Statement (.vcmp g cc qd va vb) := rfl
theorem Encodes.vsel (g : Guard) (vd va vb : VReg) (n : PReg) : Encodes.Statement (.vsel g vd va vb n) := rfl
theorem Encodes.vred (g : Guard) (op : RedOp) (d : SReg) (va : VReg) : Encodes.Statement (.vred g op d va) := rfl
theorem Encodes.vscan (g : Guard) (op : RedOp) (vd va : VReg) (vb : VReg) (rm : BitVec 3) : Encodes.Statement (.vscan g op vd va vb rm) := rfl
theorem Encodes.vperm (g : Guard) (vd va vb : VReg) : Encodes.Statement (.vperm g vd va vb) := rfl
theorem Encodes.vshuf (g : Guard) (vd va vb vc : VReg) : Encodes.Statement (.vshuf g vd va vb vc) := rfl
theorem Encodes.vrot (g : Guard) (vd va : VReg) (n : BitVec 6) : Encodes.Statement (.vrot g vd va n) := rfl
theorem Encodes.vdot (g : Guard) (vd va vb vc : VReg) (rm : BitVec 3) : Encodes.Statement (.vdot g vd va vb vc rm) := rfl
theorem Encodes.vcvt (g : Guard) (vd va : VReg) (rm : BitVec 3) : Encodes.Statement (.vcvt g vd va rm) := rfl
theorem Encodes.vbscl (g : Guard) (vd va vb vc : VReg) (rm : BitVec 3) : Encodes.Statement (.vbscl g vd va vb vc rm) := rfl
theorem Encodes.viadd (g : Guard) (vd va vb : VReg) : Encodes.Statement (.viadd g vd va vb) := rfl
theorem Encodes.visub (g : Guard) (vd va vb : VReg) : Encodes.Statement (.visub g vd va vb) := rfl
theorem Encodes.vimul (g : Guard) (vd va vb : VReg) : Encodes.Statement (.vimul g vd va vb) := rfl
theorem Encodes.vimad (g : Guard) (vd va vb vc : VReg) : Encodes.Statement (.vimad g vd va vb vc) := rfl
theorem Encodes.viaddSat (g : Guard) (vd va vb : VReg) : Encodes.Statement (.viaddSat g vd va vb) := rfl
theorem Encodes.visubSat (g : Guard) (vd va vb : VReg) : Encodes.Statement (.visubSat g vd va vb) := rfl
theorem Encodes.vshl (g : Guard) (vd va vb : VReg) : Encodes.Statement (.vshl g vd va vb) := rfl
theorem Encodes.vshr (g : Guard) (vd va vb : VReg) : Encodes.Statement (.vshr g vd va vb) := rfl
theorem Encodes.vsra (g : Guard) (vd va vb : VReg) : Encodes.Statement (.vsra g vd va vb) := rfl
theorem Encodes.vand (g : Guard) (vd va vb : VReg) : Encodes.Statement (.vand g vd va vb) := rfl
theorem Encodes.vor (g : Guard) (vd va vb : VReg) : Encodes.Statement (.vor g vd va vb) := rfl
theorem Encodes.vxor (g : Guard) (vd va vb : VReg) : Encodes.Statement (.vxor g vd va vb) := rfl
theorem Encodes.vpopc (g : Guard) (vd va : VReg) : Encodes.Statement (.vpopc g vd va) := rfl
theorem Encodes.vpand (g : Guard) (x y z : PReg) : Encodes.Statement (.vpand g x y z) := rfl
theorem Encodes.vpor (g : Guard) (x y z : PReg) : Encodes.Statement (.vpor g x y z) := rfl
theorem Encodes.vpnot (g : Guard) (x y : PReg) : Encodes.Statement (.vpnot g x y) := rfl
theorem Encodes.mma (g : Guard) (acc ra rb : BitVec 3) (w : BitVec 6) (sy : Sync) : Encodes.Statement (.mma g acc ra rb w sy) := rfl
theorem Encodes.mman (g : Guard) (acc ra rb : BitVec 3) (w : BitVec 6) (sy : Sync) : Encodes.Statement (.mman g acc ra rb w sy) := rfl
theorem Encodes.mmaq (g : Guard) (acc ra rb : BitVec 3) (w : BitVec 6) (sy : Sync) : Encodes.Statement (.mmaq g acc ra rb w sy) := rfl
theorem Encodes.mmai (g : Guard) (acc ra rb : BitVec 3) (w : BitVec 6) (sy : Sync) : Encodes.Statement (.mmai g acc ra rb w sy) := rfl
theorem Encodes.mmaRetire (t : Nat) : Encodes.Statement (.mmaRetire t) := rfl
theorem Encodes.mmaComplete (t : Nat) (chks : List Check) : Encodes.Statement (.mmaComplete t chks) := rfl
theorem Encodes.accz (g : Guard) (acc : BitVec 3) : Encodes.Statement (.accz g acc) := rfl
theorem Encodes.accsw (g : Guard) (acc : BitVec 3) (sy : Sync) : Encodes.Statement (.accsw g acc sy) := rfl
theorem Encodes.accumulatorSwap (t : Nat) (acc : BitVec 3) : Encodes.Statement (.accumulatorSwap t acc) := rfl
theorem Encodes.accrd (g : Guard) (vd : VReg) (acc : BitVec 3) (row : BitVec 5) : Encodes.Statement (.accrd g vd acc row) := rfl
theorem Encodes.accwr (g : Guard) (vs : VReg) (acc : BitVec 3) (row : BitVec 5) : Encodes.Statement (.accwr g vs acc row) := rfl
theorem Encodes.accst (g : Guard) (acc : BitVec 3) (y z : SReg) (sy : Sync) : Encodes.Statement (.accst g acc y z sy) := rfl
theorem Encodes.accld (g : Guard) (acc : BitVec 3) (y z : SReg) (sy : Sync) : Encodes.Statement (.accld g acc y z sy) := rfl
theorem Encodes.accstComplete (t : Nat) (acc : BitVec 3) : Encodes.Statement (.accstComplete t acc) := rfl
theorem Encodes.tblw (g : Guard) (vs : VReg) (q : BitVec 2) (tbl : Bool) : Encodes.Statement (.tblw g vs q tbl) := rfl
theorem Encodes.tblsw (g : Guard) (tbl : Bool) (sy : Sync) : Encodes.Statement (.tblsw g tbl sy) := rfl
theorem Encodes.tableSwap (t : Nat) (tbl : Bool) : Encodes.Statement (.tableSwap t tbl) := rfl
theorem Encodes.tblrd (g : Guard) (vd : VReg) (q : BitVec 2) (tbl shadow : Bool) : Encodes.Statement (.tblrd g vd q tbl shadow) := rfl
theorem Encodes.bale (g : Guard) (slot : BitVec 6) (a b c : SReg) : Encodes.Statement (.bale g slot a b c) := rfl
theorem Encodes.bstat (g : Guard) (d : SReg) (slot : BitVec 6) : Encodes.Statement (.bstat g d slot) := rfl
theorem Encodes.bset (g : Guard) (slot : BitVec 6) : Encodes.Statement (.bset g slot) := rfl
theorem Encodes.lookup (g : Guard) (d a b : SReg) : Encodes.Statement (.lookup g d a b) := rfl
theorem Encodes.ringcfg (g : Guard) (ring : BitVec 3) (a : SReg) : Encodes.Statement (.ringcfg g ring a) := rfl
theorem Encodes.ringpush (g : Guard) (ring : BitVec 3) (slot : BitVec 6) (sy : Sync) : Encodes.Statement (.ringpush g ring slot sy) := rfl
theorem Encodes.ringpop (g : Guard) (ring : BitVec 3) (slot : BitVec 6) (sy : Sync) : Encodes.Statement (.ringpop g ring slot sy) := rfl
theorem Encodes.ringstat (g : Guard) (d : SReg) (ring : BitVec 3) : Encodes.Statement (.ringstat g d ring) := rfl
theorem Encodes.pflstop (g : Guard) (ring : BitVec 3) (sy : Sync) : Encodes.Statement (.pflstop g ring sy) := rfl
theorem Encodes.pfl (g : Guard) (x : SReg) (sy : Sync) : Encodes.Statement (.pfl g x sy) := rfl
theorem Encodes.pflComplete (t n : Nat) : Encodes.Statement (.pflComplete t n) := rfl
theorem Encodes.put (g : Guard) (x y z : SReg) (sy : Sync) : Encodes.Statement (.put g x y z sy) := rfl
theorem Encodes.get (g : Guard) (x y z : SReg) (sy : Sync) : Encodes.Statement (.get g x y z sy) := rfl
theorem Encodes.putv (g : Guard) (x y z w : SReg) (sy : Sync) : Encodes.Statement (.putv g x y z w sy) := rfl
theorem Encodes.getv (g : Guard) (x y z w : SReg) (sy : Sync) : Encodes.Statement (.getv g x y z w sy) := rfl
theorem Encodes.transferComplete (t n : Nat) (ext : List (Word × Bool)) : Encodes.Statement (.transferComplete t n ext) := rfl
theorem Encodes.xqstat (g : Guard) (d : SReg) : Encodes.Statement (.xqstat g d) := rfl
theorem Encodes.uien (g : Guard) (n : Bool) : Encodes.Statement (.uien g n) := rfl
theorem Encodes.uiret : Encodes.Statement .uiret := rfl
theorem Encodes.userInterruptDelivery (t k : Nat) : Encodes.Statement (.userInterruptDelivery t k) := rfl
theorem Encodes.ist (g : Guard) (sz : Size) (x y : SReg) (sy : Sync) : Encodes.Statement (.ist g sz x y sy) := rfl
theorem Encodes.istfD (g : Guard) (x y : SReg) (sy : Sync) : Encodes.Statement (.istfD g x y sy) := rfl
theorem Encodes.immediateStoreArrival (n : Nat) (ext : Option ExtStore) : Encodes.Statement (.immediateStoreArrival n ext) := rfl
theorem Encodes.immediateStoreComplete (n : Nat) (report : Bool) : Encodes.Statement (.immediateStoreComplete n report) := rfl
theorem Encodes.amo (g : Guard) (op : AmoOp) (word : Bool) (d a b c : SReg) : Encodes.Statement (.amo g op word d a b c) := rfl
theorem Encodes.amof (g : Guard) (op : RedOp) (d a b : SReg) : Encodes.Statement (.amof g op d a b) := rfl
theorem Encodes.atomicPerform (n : Nat) : Encodes.Statement (.atomicPerform n) := rfl
theorem Encodes.amodAdd (g : Guard) (a b : SReg) : Encodes.Statement (.amodAdd g a b) := rfl
theorem Encodes.amodRecordArrival (n : Nat) : Encodes.Statement (.amodRecordArrival n) := rfl
theorem Encodes.evsig (g : Guard) (a : SReg) : Encodes.Statement (.evsig g a) := rfl
theorem Encodes.evarm (g : Guard) (a b : SReg) : Encodes.Statement (.evarm g a b) := rfl
theorem Encodes.mtxrel (g : Guard) (a : SReg) : Encodes.Statement (.mtxrel g a) := rfl
theorem Encodes.chainedArrival (n : Nat) : Encodes.Statement (.chainedArrival n) := rfl
theorem Encodes.barrierRelease (n : Nat) : Encodes.Statement (.barrierRelease n) := rfl
theorem Encodes.sync : Encodes.Statement .sync := rfl
theorem Encodes.syncdown (t : Nat) : Encodes.Statement (.syncdown t) := rfl
theorem Encodes.vote (g : Guard) (v : BitVec 2) (cause : BitVec 8) : Encodes.Statement (.vote g v cause) := rfl
theorem Encodes.redc (g : Guard) (op : SheafOp) (a : SReg) : Encodes.Statement (.redc g op a) := rfl
theorem Encodes.redrd (g : Guard) (d : SReg) : Encodes.Statement (.redrd g d) := rfl
theorem Encodes.xsched (g : Guard) (x : SReg) (sy : Sync) : Encodes.Statement (.xsched g x sy) := rfl
theorem Encodes.xschedComplete (t : Nat) : Encodes.Statement (.xschedComplete t) := rfl
theorem Encodes.gcfg (g : Guard) (plot : BitVec 3) (a : SReg) : Encodes.Statement (.gcfg g plot a) := rfl
theorem Encodes.gsig (g : Guard) (d a : SReg) : Encodes.Statement (.gsig g d a) := rfl
theorem Encodes.gskip (g : Guard) (d a : SReg) : Encodes.Statement (.gskip g d a) := rfl
theorem Encodes.gmap (g : Guard) (d a : SReg) : Encodes.Statement (.gmap g d a) := rfl
theorem Encodes.gforce (g : Guard) (a : SReg) : Encodes.Statement (.gforce g a) := rfl
theorem Encodes.gseal (g : Guard) (plot : BitVec 3) : Encodes.Statement (.gseal g plot) := rfl
theorem Encodes.launch (g : Guard) (d a : SReg) : Encodes.Statement (.launch g d a) := rfl
theorem Encodes.teardown (g : Guard) (d a : SReg) : Encodes.Statement (.teardown g d a) := rfl
theorem Encodes.preempt (g : Guard) (d a : SReg) : Encodes.Statement (.preempt g d a) := rfl
theorem Encodes.barnsv (g : Guard) (d a b : SReg) : Encodes.Statement (.barnsv g d a b) := rfl
theorem Encodes.barnld (g : Guard) (d a b : SReg) : Encodes.Statement (.barnld g d a b) := rfl
theorem Encodes.hmsg (g : Guard) (a b : SReg) : Encodes.Statement (.hmsg g a b) := rfl
theorem Encodes.qcbsv (g : Guard) (d a b : SReg) : Encodes.Statement (.qcbsv g d a b) := rfl
theorem Encodes.qcbld (g : Guard) (d a b : SReg) : Encodes.Statement (.qcbld g d a b) := rfl
theorem Encodes.qpend (g : Guard) (d : SReg) : Encodes.Statement (.qpend g d) := rfl
theorem Encodes.coll (g : Guard) (x y z : SReg) (sy : Sync) : Encodes.Statement (.coll g x y z sy) := rfl
theorem Encodes.collComplete (t n : Nat) (others : List ExtColl) : Encodes.Statement (.collComplete t n others) := rfl
theorem Encodes.rankmap (g : Guard) (d a b : SReg) : Encodes.Statement (.rankmap g d a b) := rfl
theorem Encodes.stepBudget (t : Nat) : Encodes.Statement (.stepBudget t) := rfl
theorem Encodes.startPhase (t : Nat) : Encodes.Statement (.startPhase t) := rfl
theorem Encodes.listDispatch (t : Nat) : Encodes.Statement (.listDispatch t) := rfl
theorem Encodes.exchangePhase (t : Nat) : Encodes.Statement (.exchangePhase t) := rfl
theorem Encodes.transferSendArrival (n : Nat) (ext : Option ExtSend) : Encodes.Statement (.transferSendArrival n ext) := rfl
theorem Encodes.activeMessageArrival (n : Nat) (ext : Option ExtMsg) : Encodes.Statement (.activeMessageArrival n ext) := rfl
theorem Encodes.messageStart (t : Nat) : Encodes.Statement (.messageStart t) := rfl
theorem Encodes.arrive (t : Nat) : Encodes.Statement (.arrive t) := rfl
theorem Encodes.sheafCombine (gang node : Nat) (ext : List Packet) : Encodes.Statement (.sheafCombine gang node ext) := rfl
theorem Encodes.commit (t : Nat) : Encodes.Statement (.commit t) := rfl
theorem Encodes.mirrorAck (gang : Nat) : Encodes.Statement (.mirrorAck gang) := rfl
theorem Encodes.abort (t : Nat) : Encodes.Statement (.abort t) := rfl
theorem Encodes.haltDecision (t : Nat) : Encodes.Statement (.haltDecision t) := rfl
theorem Encodes.deadlock (gang : Nat) : Encodes.Statement (.deadlock gang) := rfl
theorem Encodes.segmentWakeEnd (t seg : Nat) : Encodes.Statement (.segmentWakeEnd t seg) := rfl
theorem Encodes.baleFillComplete (t slot : Nat) : Encodes.Statement (.baleFillComplete t slot) := rfl
theorem Encodes.baleDrainComplete (t slot : Nat) : Encodes.Statement (.baleDrainComplete t slot) := rfl
theorem Encodes.subscriptionPush (t ring : Nat) : Encodes.Statement (.subscriptionPush t ring) := rfl
theorem Encodes.memoryRequest (n : Nat) : Encodes.Statement (.memoryRequest n) := rfl
theorem Encodes.pageFaultAnswer (n : Nat) (resolved : Bool) : Encodes.Statement (.pageFaultAnswer n resolved) := rfl
theorem Encodes.publicationRecord (target : PubTarget) (value : Word) : Encodes.Statement (.publicationRecord target value) := rfl
theorem Encodes.hbmParityAlert (stack bank channel addr count : Nat) (loss : RowLoss) (leaf : Option (Nat × Nat)) (spare : Option Nat) : Encodes.Statement (.hbmParityAlert stack bank channel addr count loss leaf spare) := rfl
theorem Encodes.stackCriticalTemperature (stack : Nat) (celsius : BitVec 8) : Encodes.Statement (.stackCriticalTemperature stack celsius) := rfl
theorem Encodes.stackCooled (stack : Nat) (celsius : BitVec 8) : Encodes.Statement (.stackCooled stack celsius) := rfl
theorem Encodes.nocLinkFail (link : Nat) (gangs : List Nat) : Encodes.Statement (.nocLinkFail link gangs) := rfl
theorem Encodes.eweitLinkFail (port : Nat) (lost : List Nat) (unreachable : List Nat) : Encodes.Statement (.eweitLinkFail port lost unreachable) := rfl
theorem Encodes.resendRequest (port : Nat) (seq : BitVec 12) : Encodes.Statement (.resendRequest port seq) := rfl
theorem Encodes.laneStop (port : Nat) (lane : BitVec 2) : Encodes.Statement (.laneStop port lane) := rfl
theorem Encodes.laneGo (port : Nat) (lane : BitVec 2) : Encodes.Statement (.laneGo port lane) := rfl
theorem Encodes.linkReset (link : LinkRef) : Encodes.Statement (.linkReset link) := rfl
theorem Encodes.packageReset (boot : Bringup) (entry : Pc) : Encodes.Statement (.packageReset boot entry) := rfl
theorem Encodes.partidRst : Encodes.Statement .partidRst := rfl
theorem Encodes.functionLevelReset (part : Nat) : Encodes.Statement (.functionLevelReset part) := rfl
theorem Encodes.hostLinkUncorrectable (part : Nat) : Encodes.Statement (.hostLinkUncorrectable part) := rfl
theorem Encodes.keyslotLoad : Encodes.Statement .keyslotLoad := rfl
theorem Encodes.keyslotErase : Encodes.Statement .keyslotErase := rfl
theorem Encodes.alarm (trig : Trigger) (part : Option Nat) : Encodes.Statement (.alarm trig part) := rfl
theorem Encodes.doorbell (part queue : Nat) (tail : BitVec 32) : Encodes.Statement (.doorbell part queue tail) := rfl
theorem Encodes.hostWake (part gang : Nat) : Encodes.Statement (.hostWake part gang) := rfl
theorem Encodes.hostMemoryWrite (part : Nat) (va : Word) (data : List Byte) : Encodes.Statement (.hostMemoryWrite part va data) := rfl
theorem Encodes.jobSelection : Encodes.Statement .jobSelection := rfl
theorem Encodes.gangLaunch : Encodes.Statement .gangLaunch := rfl
theorem Encodes.resume : Encodes.Statement .resume := rfl
theorem Encodes.jobCompletion (job : Nat) : Encodes.Statement (.jobCompletion job) := rfl
theorem Encodes.chargeUnit (slot : Nat) : Encodes.Statement (.chargeUnit slot) := rfl
theorem Encodes.quantumExpiry (slot : Nat) : Encodes.Statement (.quantumExpiry slot) := rfl
theorem Encodes.timeUnitEnd : Encodes.Statement .timeUnitEnd := rfl
theorem Encodes.spareRemap (site : RemapSite) : Encodes.Statement (.spareRemap site) := rfl
theorem Encodes.hostMessageTaken : Encodes.Statement .hostMessageTaken := rfl
theorem Encodes.scheduleSendCompletion (n : Nat) (report : Bool) : Encodes.Statement (.scheduleSendCompletion n report) := rfl
theorem Encodes.amodAcknowledgement (n : Nat) : Encodes.Statement (.amodAcknowledgement n) := rfl

end Sys2Proof.Laws
end

