-- ==== Sys2Proof/Tests/Slice0.lean ====
section
/-! SUPPORT. Tests: ill-formed terms, words written out from the encoding tables, a few results that the spec states, and a
witness for the hypotheses of every obligation that has any. -/

namespace Sys2Proof.Tests

open Sys2Proof.Machine Sys2Proof.Safety

set_option maxRecDepth 100000
set_option Elab.async false

/-! ## Well-formedness (R52-R64) -/

-- an ill-formed term for each check of WellFormed.lean
theorem test_ill_formed_mask_guard : (Instr.add ⟨false, true, 1⟩ 1 2 3).wf = false := by decide
theorem test_ill_formed_extend : (Instr.sext Guard.always .d 1 2).wf = false ∧ (Instr.zext Guard.always .d 1 2).wf = false := by decide
theorem test_ill_formed_field : (Instr.bfx Guard.always 1 2 60 4).wf = false ∧ (Instr.bfi Guard.always 1 2 1 63).wf = false := by decide
theorem test_ill_formed_literal : (Instr.lit Guard.always 1 1 0x8000).wf = false ∧ (Instr.lit Guard.always 1 0 0).wf = false := by decide
theorem test_ill_formed_repeat : (Instr.rep Guard.always 0 0 0).wf = false ∧ (Instr.rep Guard.always 1 2 3).wf = false := by decide
theorem test_ill_formed_format : (Instr.fmt 0xD0).wf = false ∧ (Instr.fmt 0x0D).wf = false := by decide
theorem test_ill_formed_rounding : (Instr.vadd Guard.always 1 2 3 6).wf = false := by decide
theorem test_ill_formed_site : (Instr.mma Guard.always 0 0 0 0 { Sync.none with site := 1 }).wf = false ∧
    (Instr.ist Guard.always .d 1 2 { Sync.none with site := 2 }).wf = false ∧
    (Instr.put Guard.always 1 2 3 { Sync.none with site := 2, sinc := 1 }).wf = false ∧
    (Instr.put Guard.always 1 2 3 { Sync.none with site := 3 }).wf = false := by decide
theorem test_ill_formed_vote : (Instr.vote Guard.always 2 1).wf = false ∧ (Instr.vote Guard.always 1 0x7F).wf = false := by decide
theorem test_ill_formed_compare_swap : (Instr.amo Guard.always .add false 1 2 3 4).wf = false := by decide

/-! ## Decoding: words written out bit by bit from R52, R54, R56 and R62-R64 -/

/-- Heads with tail values, each with the instruction it stands for; no literal follows. -/
def decodes (l : List (Half × Word × Instr)) : Bool := l.all fun x => decide (decode x.1 x.2.1 none = some x.2.2)

theorem test_decode_scalar : decodes
    ([(0x0200, 0x461035, .add ⟨true, false, 5⟩ 1 2 35),
      (0x0201, 0x461035, .sub ⟨true, false, 5⟩ 1 2 35),
      (0x0202, 0x461035, .and ⟨true, false, 5⟩ 1 2 35),
      (0x0203, 0x461035, .or ⟨true, false, 5⟩ 1 2 35),
      (0x0204, 0x461035, .xor ⟨true, false, 5⟩ 1 2 35),
      (0x0205, 0x461035, .andn ⟨true, false, 5⟩ 1 2 35),
      (0x0206, 0x461035, .shl ⟨true, false, 5⟩ 1 2 35),
      (0x0207, 0x461035, .shr ⟨true, false, 5⟩ 1 2 35),
      (0x0208, 0x461035, .sra ⟨true, false, 5⟩ 1 2 35),
      (0x0209, 0x461035, .rol ⟨true, false, 5⟩ 1 2 35),
      (0x020A, 0x461035, .min ⟨true, false, 5⟩ 1 2 35),
      (0x020B, 0x461035, .max ⟨true, false, 5⟩ 1 2 35),
      (0x020C, 0x461035, .minu ⟨true, false, 5⟩ 1 2 35),
      (0x020D, 0x461035, .maxu ⟨true, false, 5⟩ 1 2 35),
      (0x0210, 0x461035, .mul ⟨true, false, 5⟩ 1 2 35),
      (0x0211, 0x461035, .mulh ⟨true, false, 5⟩ 1 2 35),
      (0x0212, 0x461035, .mulhu ⟨true, false, 5⟩ 1 2 35),
      (0x0214, 0x461035, .div ⟨true, false, 5⟩ 1 2 35),
      (0x0215, 0x461035, .divu ⟨true, false, 5⟩ 1 2 35),
      (0x0216, 0x461035, .rem ⟨true, false, 5⟩ 1 2 35),
      (0x0217, 0x461035, .remu ⟨true, false, 5⟩ 1 2 35)]) = true := by decide +kernel

theorem test_decode_scalar_immediate : decodes
    ([(0x0600, 0xFFFC1035, .addi ⟨true, false, 5⟩ 1 2 0x7FFE),
      (0x0602, 0x80061035, .andImm ⟨true, false, 5⟩ 1 2 0x4003),
      (0x0603, 0x80061035, .orImm ⟨true, false, 5⟩ 1 2 0x4003),
      (0x0604, 0x80061035, .xorImm ⟨true, false, 5⟩ 1 2 0x4003),
      (0x0605, 0x80061035, .andnImm ⟨true, false, 5⟩ 1 2 0x4003),
      (0x0606, 0x80061035, .shlImm ⟨true, false, 5⟩ 1 2 0x4003),
      (0x0607, 0x80061035, .shrImm ⟨true, false, 5⟩ 1 2 0x4003),
      (0x0608, 0x80061035, .sraImm ⟨true, false, 5⟩ 1 2 0x4003),
      (0x0609, 0x80061035, .rolImm ⟨true, false, 5⟩ 1 2 0x4003),
      (0x060A, 0x80061035, .minImm ⟨true, false, 5⟩ 1 2 0x4003),
      (0x060B, 0x80061035, .maxImm ⟨true, false, 5⟩ 1 2 0x4003),
      (0x060C, 0x80061035, .minuImm ⟨true, false, 5⟩ 1 2 0x4003),
      (0x060D, 0x80061035, .maxuImm ⟨true, false, 5⟩ 1 2 0x4003),
      (0x0610, 0x80061035, .mulImm ⟨true, false, 5⟩ 1 2 0x4003)]) = true := by decide +kernel

theorem test_decode_scalar_unary : decodes
    ([(0x0A00, 0x11035, .clz ⟨true, false, 5⟩ 1 34),
      (0x0A01, 0x11035, .ctz ⟨true, false, 5⟩ 1 34),
      (0x0A02, 0x11035, .popc ⟨true, false, 5⟩ 1 34),
      (0x0A03, 0x11035, .abs ⟨true, false, 5⟩ 1 34),
      (0x0A04, 0x11035, .mov ⟨true, false, 5⟩ 1 34),
      (0x0A08, 0x11035, .sext ⟨true, false, 5⟩ .b 1 34),
      (0x0A0C, 0x11035, .zext ⟨true, false, 5⟩ .b 1 34),
      (0x0A09, 0x11035, .sext ⟨true, false, 5⟩ .h 1 34),
      (0x0A0D, 0x11035, .zext ⟨true, false, 5⟩ .h 1 34),
      (0x0A0A, 0x11035, .sext ⟨true, false, 5⟩ .w 1 34),
      (0x0A0E, 0x11035, .zext ⟨true, false, 5⟩ .w 1 34),
      (0x0E00, 0x14291035, .bfx ⟨true, false, 5⟩ 1 34 20 40),
      (0x0E01, 0x14291035, .bfxS ⟨true, false, 5⟩ 1 34 20 40),
      (0x0E02, 0x14291035, .bfi ⟨true, false, 5⟩ 1 34 20 40),
      (0x1201, 0x1071035, .lea ⟨true, false, 5⟩ 1 34 3 2),
      (0x1202, 0x3071035, .sel ⟨true, false, 5⟩ 1 34 3 6)]) = true := by decide +kernel

theorem test_decode_compare : decodes
    ([(0x1210, 0x710D5, .cmp ⟨true, false, 5⟩ .eq 6 34 3),
      (0x1610, 0x800710D5, .cmpImm ⟨true, false, 5⟩ .eq 6 34 0x4003),
      (0x1211, 0x710D5, .cmp ⟨true, false, 5⟩ .ne 6 34 3),
      (0x1611, 0x800710D5, .cmpImm ⟨true, false, 5⟩ .ne 6 34 0x4003),
      (0x1212, 0x710D5, .cmp ⟨true, false, 5⟩ .lt 6 34 3),
      (0x1612, 0x800710D5, .cmpImm ⟨true, false, 5⟩ .lt 6 34 0x4003),
      (0x1213, 0x710D5, .cmp ⟨true, false, 5⟩ .ge 6 34 3),
      (0x1613, 0x800710D5, .cmpImm ⟨true, false, 5⟩ .ge 6 34 0x4003),
      (0x1214, 0x710D5, .cmp ⟨true, false, 5⟩ .ltu 6 34 3),
      (0x1614, 0x800710D5, .cmpImm ⟨true, false, 5⟩ .ltu 6 34 0x4003),
      (0x1215, 0x710D5, .cmp ⟨true, false, 5⟩ .geu 6 34 3),
      (0x1615, 0x800710D5, .cmpImm ⟨true, false, 5⟩ .geu 6 34 0x4003),
      (0x1218, 0x710D5, .tst ⟨true, false, 5⟩ 6 34 3),
      (0x1219, 0x710D5, .tstZ ⟨true, false, 5⟩ 6 34 3),
      (0x1618, 0x800710D5, .tstImm ⟨true, false, 5⟩ 6 34 0x4003),
      (0x1619, 0x800710D5, .tstZImm ⟨true, false, 5⟩ 6 34 0x4003)]) = true := by decide +kernel

theorem test_decode_predicate : decodes
    ([(0x4100, 0x1E35, .pand ⟨true, false, 5⟩ 1 6 3),
      (0x4101, 0x1E35, .por ⟨true, false, 5⟩ 1 6 3),
      (0x4102, 0x1E35, .pxor ⟨true, false, 5⟩ 1 6 3),
      (0x4103, 0x635, .pnot ⟨true, false, 5⟩ 1 6),
      (0x4104, 0x635, .pmov ⟨true, false, 5⟩ 1 6),
      (0x4105, 0x635, .pany ⟨true, false, 5⟩ 1 6)]) = true := by decide +kernel

theorem test_decode_control : decodes
    ([(0x4600, 0x86420015, .br ⟨true, false, 5⟩ 0x4321),
      (0x4601, 0x86420455, .jal ⟨true, false, 5⟩ 34 0x4321),
      (0x4602, 0x1C55, .jr ⟨true, false, 5⟩ 34 3),
      (0x4503, 0x15, .ret ⟨true, false, 5⟩),
      (0x4604, 0x86420455, .loop ⟨true, false, 5⟩ 34 0x4321),
      (0x4605, 0x4C55, .rep ⟨true, false, 5⟩ 34 9 0),
      (0x4605, 0x86424815, .rep ⟨true, false, 5⟩ 0 9 0x4321),
      (0x4605, 0x15, .repStreamLoad ⟨true, false, 5⟩),
      (0x4408, 0x0, .halt),
      (0x4409, 0x0, .yield),
      (0x440A, 0x0, .nop),
      (0x4610, 0x86421C55, .brc ⟨true, false, 5⟩ .eq 34 3 0x4321),
      (0x4611, 0x86421C55, .brc ⟨true, false, 5⟩ .ne 34 3 0x4321),
      (0x4612, 0x86421C55, .brc ⟨true, false, 5⟩ .lt 34 3 0x4321),
      (0x4613, 0x86421C55, .brc ⟨true, false, 5⟩ .ge 34 3 0x4321),
      (0x4614, 0x86421C55, .brc ⟨true, false, 5⟩ .ltu 34 3 0x4321),
      (0x4615, 0x86421C55, .brc ⟨true, false, 5⟩ .geu 34 3 0x4321)]) = true := by decide +kernel

theorem test_decode_memory : decodes
    ([(0x6200, 0x80071035, .ld ⟨true, false, 5⟩ .b 1 34 0x4003),
      (0x6201, 0x80071035, .ld ⟨true, false, 5⟩ .h 1 34 0x4003),
      (0x6202, 0x80071035, .ld ⟨true, false, 5⟩ .w 1 34 0x4003),
      (0x6203, 0x80071035, .ld ⟨true, false, 5⟩ .d 1 34 0x4003),
      (0x6204, 0x80071035, .st ⟨true, false, 5⟩ .b 1 34 0x4003),
      (0x6205, 0x80071035, .st ⟨true, false, 5⟩ .h 1 34 0x4003),
      (0x6206, 0x80071035, .st ⟨true, false, 5⟩ .w 1 34 0x4003),
      (0x6207, 0x80071035, .st ⟨true, false, 5⟩ .d 1 34 0x4003),
      (0x6208, 0x80071035, .ldv ⟨true, false, 5⟩ .b 1 34 0x4003),
      (0x6209, 0x80071035, .ldv ⟨true, false, 5⟩ .h 1 34 0x4003),
      (0x620A, 0x80071035, .ldv ⟨true, false, 5⟩ .w 1 34 0x4003),
      (0x620B, 0x80071035, .ldv ⟨true, false, 5⟩ .d 1 34 0x4003),
      (0x620C, 0x80071035, .stv ⟨true, false, 5⟩ .b 1 34 0x4003),
      (0x620D, 0x80071035, .stv ⟨true, false, 5⟩ .h 1 34 0x4003),
      (0x620E, 0x80071035, .stv ⟨true, false, 5⟩ .w 1 34 0x4003),
      (0x620F, 0x80071035, .stv ⟨true, false, 5⟩ .d 1 34 0x4003),
      (0x6218, 0x80071035, .ldc ⟨true, false, 5⟩ .b 1 34 0x4003),
      (0x6219, 0x80071035, .ldc ⟨true, false, 5⟩ .h 1 34 0x4003),
      (0x621A, 0x80071035, .ldc ⟨true, false, 5⟩ .w 1 34 0x4003),
      (0x621B, 0x80071035, .ldc ⟨true, false, 5⟩ .d 1 34 0x4003),
      (0x621C, 0x80071035, .stc ⟨true, false, 5⟩ .b 1 34 0x4003),
      (0x621D, 0x80071035, .stc ⟨true, false, 5⟩ .h 1 34 0x4003),
      (0x621E, 0x80071035, .stc ⟨true, false, 5⟩ .w 1 34 0x4003),
      (0x621F, 0x80071035, .stc ⟨true, false, 5⟩ .d 1 34 0x4003),
      (0x6210, 0x80071035, .ldsD ⟨true, false, 5⟩ 1 34 0x4003),
      (0x6211, 0x80071035, .ldsDE ⟨true, false, 5⟩ 1 34 0x4003),
      (0x6214, 0x80071035, .stfD ⟨true, false, 5⟩ 1 34 0x4003)]) = true := by decide +kernel

theorem test_decode_system : decodes
    ([(0x7200, 0x106A0035, .sysrd ⟨true, false, 5⟩ 1 0x835),
      (0x7201, 0x106B1015, .syswr ⟨true, false, 5⟩ 34 0x835),
      (0x7102, 0xA875, .trap ⟨true, false, 5⟩ 0x543),
      (0x7103, 0xA875, .brk ⟨true, false, 5⟩ 0x543),
      (0x7004, 0x0, .eret),
      (0x7005, 0x0, .eretSkip),
      (0x7106, 0x455, .pclr ⟨true, false, 5⟩ 34),
      (0x7107, 0x2B5, .pclrVector ⟨true, false, 5⟩ 21),
      (0x7600, 0x21C2815, .semwait ⟨true, false, 5⟩ 0x85 0x43),
      (0x7601, 0x21C2815, .semsig ⟨true, false, 5⟩ 0x85 0x43),
      (0x7602, 0x42C55, .semrd ⟨true, false, 5⟩ 34 0x85),
      (0x7404, 0x0, .park),
      (0x7505, 0x55, .wake ⟨true, false, 5⟩ 2),
      (0x7606, 0x11015, .msg ⟨true, false, 5⟩ 34),
      (0x7800, 0x0, .fence .s),
      (0x7808, 0x0, .vfence .s),
      (0x7801, 0x0, .fence .t),
      (0x7809, 0x0, .vfence .t),
      (0x7802, 0x0, .fence .c),
      (0x780A, 0x0, .vfence .c),
      (0x7803, 0x0, .fence .g),
      (0x780B, 0x0, .vfence .g),
      (0x7804, 0x0, .fence .d),
      (0x780C, 0x0, .vfence .d),
      (0x7805, 0x0, .fence .y),
      (0x780D, 0x0, .vfence .y),
      (0xFC5C, 0x0, .fmt 0x5C)]) = true := by decide +kernel

theorem test_decode_vector_memory : decodes
    ([(0x8200, 0x80718A2B, .vld ⟨false, true, 3⟩ 17 2 35 0x403),
      (0x8201, 0x80718A2B, .vst ⟨false, true, 3⟩ 17 2 35 0x403),
      (0x8202, 0x80718A2B, .vldb ⟨false, true, 3⟩ 17 2 35 0x403),
      (0x8203, 0x80718A2B, .vstb ⟨false, true, 3⟩ 17 2 35 0x403),
      (0x8204, 0x118A2B, .vgath ⟨false, true, 3⟩ 17 2 35),
      (0x8205, 0x118A2B, .vscat ⟨false, true, 3⟩ 17 2 35),
      (0x8108, 0x1A2B, .vldStream ⟨false, true, 3⟩ 17 6),
      (0x8109, 0x1A2B, .vstStream ⟨false, true, 3⟩ 17 6),
      (0x8600, 0x11822B, .vbcast ⟨false, true, 3⟩ 17 35),
      (0x8601, 0x591880B, .vmovs ⟨false, true, 3⟩ 35 2 44),
      (0x8602, 0xA2B, .vmovv ⟨false, true, 3⟩ 17 2)]) = true := by decide +kernel

theorem test_decode_vector_arithmetic : decodes
    ([(0x8A00, 0x8098A2B, .vadd ⟨false, true, 3⟩ 17 2 19 4),
      (0x8A01, 0x8098A2B, .vsub ⟨false, true, 3⟩ 17 2 19 4),
      (0x8A02, 0x8098A2B, .vmul ⟨false, true, 3⟩ 17 2 19 4),
      (0x8A03, 0x8098A2B, .vmin ⟨false, true, 3⟩ 17 2 19 4),
      (0x8A04, 0x8098A2B, .vmax ⟨false, true, 3⟩ 17 2 19 4),
      (0x8A08, 0xE698A2B, .vfma ⟨false, true, 3⟩ 17 2 19 6 7),
      (0x8A09, 0xE698A2B, .vfms ⟨false, true, 3⟩ 17 2 19 6 7),
      (0x8A0A, 0xE698A2B, .vnfma ⟨false, true, 3⟩ 17 2 19 6 7),
      (0x8A10, 0x8000A2B, .vabs ⟨false, true, 3⟩ 17 2 4),
      (0x8A11, 0x8000A2B, .vneg ⟨false, true, 3⟩ 17 2 4),
      (0x8A12, 0x8000A2B, .vrcp ⟨false, true, 3⟩ 17 2 4),
      (0x8A13, 0x8000A2B, .vrsq ⟨false, true, 3⟩ 17 2 4),
      (0x8A14, 0x8000A2B, .vexp2 ⟨false, true, 3⟩ 17 2 4),
      (0x8A15, 0x8000A2B, .vlog2 ⟨false, true, 3⟩ 17 2 4),
      (0x8A18, 0x8098A2B, .vscale ⟨false, true, 3⟩ 17 2 19 4),
      (0x8A19, 0xA2B, .vclass ⟨false, true, 3⟩ 17 2),
      (0x8E00, 0x988CB, .vcmp ⟨false, true, 3⟩ .eq 6 2 19),
      (0x8E01, 0x988CB, .vcmp ⟨false, true, 3⟩ .ne 6 2 19),
      (0x8E02, 0x988CB, .vcmp ⟨false, true, 3⟩ .lt 6 2 19),
      (0x8E03, 0x988CB, .vcmp ⟨false, true, 3⟩ .le 6 2 19),
      (0x8E04, 0x988CB, .vcmp ⟨false, true, 3⟩ .gt 6 2 19),
      (0x8E05, 0x988CB, .vcmp ⟨false, true, 3⟩ .ge 6 2 19),
      (0x8E06, 0x988CB, .vcmp ⟨false, true, 3⟩ .un 6 2 19),
      (0x8E08, 0x698A2B, .vsel ⟨false, true, 3⟩ 17 2 19 6)]) = true := by decide +kernel

theorem test_decode_vector_reduce : decodes
    ([(0x9200, 0x11880B, .vred ⟨false, true, 3⟩ .add 35 2),
      (0x9204, 0x8098A2B, .vscan ⟨false, true, 3⟩ .add 17 2 19 4),
      (0x9201, 0x11880B, .vred ⟨false, true, 3⟩ .min 35 2),
      (0x9205, 0x8098A2B, .vscan ⟨false, true, 3⟩ .min 17 2 19 4),
      (0x9202, 0x11880B, .vred ⟨false, true, 3⟩ .max 35 2),
      (0x9206, 0x8098A2B, .vscan ⟨false, true, 3⟩ .max 17 2 19 4),
      (0x9208, 0x98A2B, .vperm ⟨false, true, 3⟩ 17 2 19),
      (0x9209, 0x698A2B, .vshuf ⟨false, true, 3⟩ 17 2 19 6),
      (0x920A, 0x5800A2B, .vrot ⟨false, true, 3⟩ 17 2 44),
      (0x920C, 0x8698A2B, .vdot ⟨false, true, 3⟩ 17 2 19 6 4),
      (0x9600, 0x8000A2B, .vcvt ⟨false, true, 3⟩ 17 2 4),
      (0x9601, 0x8698A2B, .vbscl ⟨false, true, 3⟩ 17 2 19 6 4)]) = true := by decide +kernel

theorem test_decode_vector_integer : decodes
    ([(0x9A00, 0x98A2B, .viadd ⟨false, true, 3⟩ 17 2 19),
      (0x9A01, 0x98A2B, .visub ⟨false, true, 3⟩ 17 2 19),
      (0x9A02, 0x98A2B, .vimul ⟨false, true, 3⟩ 17 2 19),
      (0x9A80, 0x98A2B, .viaddSat ⟨false, true, 3⟩ 17 2 19),
      (0x9A81, 0x98A2B, .visubSat ⟨false, true, 3⟩ 17 2 19),
      (0x9A08, 0x98A2B, .vand ⟨false, true, 3⟩ 17 2 19),
      (0x9A09, 0x98A2B, .vor ⟨false, true, 3⟩ 17 2 19),
      (0x9A0A, 0x98A2B, .vxor ⟨false, true, 3⟩ 17 2 19),
      (0x9A0C, 0x98A2B, .vshl ⟨false, true, 3⟩ 17 2 19),
      (0x9A0D, 0x98A2B, .vshr ⟨false, true, 3⟩ 17 2 19),
      (0x9A0E, 0x98A2B, .vsra ⟨false, true, 3⟩ 17 2 19),
      (0x9A03, 0x698A2B, .vimad ⟨false, true, 3⟩ 17 2 19 6),
      (0x9A10, 0xA2B, .vpopc ⟨false, true, 3⟩ 17 2),
      (0x9D00, 0x1E35, .vpand ⟨true, false, 5⟩ 1 6 3),
      (0x9D01, 0x1E35, .vpor ⟨true, false, 5⟩ 1 6 3),
      (0x9D02, 0x635, .vpnot ⟨true, false, 5⟩ 1 6)]) = true := by decide +kernel

theorem test_decode_abacus : decodes
    ([(0xC300, 0x65782143160608D5, .mma ⟨true, false, 5⟩ 6 1 3 44 { wsem := 0x21, wthr := 0x43, ssem := 0x65, sinc := 7, wen := true, site := 0 }),
      (0xC301, 0x65782143160608D5, .mman ⟨true, false, 5⟩ 6 1 3 44 { wsem := 0x21, wthr := 0x43, ssem := 0x65, sinc := 7, wen := true, site := 0 }),
      (0xC302, 0x65782143160608D5, .mmaq ⟨true, false, 5⟩ 6 1 3 44 { wsem := 0x21, wthr := 0x43, ssem := 0x65, sinc := 7, wen := true, site := 0 }),
      (0xC303, 0x65782143160608D5, .mmai ⟨true, false, 5⟩ 6 1 3 44 { wsem := 0x21, wthr := 0x43, ssem := 0x65, sinc := 7, wen := true, site := 0 }),
      (0xC500, 0xD5, .accz ⟨true, false, 5⟩ 6),
      (0xC701, 0x65782143000000D5, .accsw ⟨true, false, 5⟩ 6 { wsem := 0x21, wthr := 0x43, ssem := 0x65, sinc := 7, wen := true, site := 0 }),
      (0xC602, 0x2A01A35, .accrd ⟨true, false, 5⟩ 17 6 21),
      (0xC603, 0x2A01A35, .accwr ⟨true, false, 5⟩ 17 6 21),
      (0xC704, 0x65782143004710D5, .accst ⟨true, false, 5⟩ 6 34 35 { wsem := 0x21, wthr := 0x43, ssem := 0x65, sinc := 7, wen := true, site := 0 }),
      (0xC705, 0x65782143004710D5, .accld ⟨true, false, 5⟩ 6 34 35 { wsem := 0x21, wthr := 0x43, ssem := 0x65, sinc := 7, wen := true, site := 0 }),
      (0xCA00, 0xA04415, .tblw ⟨true, false, 5⟩ 17 1 true),
      (0xCB01, 0x6578214300000035, .tblsw ⟨true, false, 5⟩ true { wsem := 0x21, wthr := 0x43, ssem := 0x65, sinc := 7, wen := true, site := 0 }),
      (0xCA02, 0x1200235, .tblrd ⟨true, false, 5⟩ 17 1 false true)]) = true := by decide +kernel

theorem test_decode_bale_and_transfer : decodes
    ([(0xE200, 0x12471435, .bale ⟨true, false, 5⟩ 33 34 35 36),
      (0xE201, 0x12000435, .bstat ⟨true, false, 5⟩ 33 36),
      (0xE202, 0x12000015, .bset ⟨true, false, 5⟩ 36),
      (0xE203, 0x471435, .lookup ⟨true, false, 5⟩ 33 34 35),
      (0xE600, 0x3011015, .ringcfg ⟨true, false, 5⟩ 6 34),
      (0xE701, 0x65782143000110D5, .ringpush ⟨true, false, 5⟩ 6 34 { wsem := 0x21, wthr := 0x43, ssem := 0x65, sinc := 7, wen := true, site := 0 }),
      (0xE702, 0x65782143000110D5, .ringpop ⟨true, false, 5⟩ 6 34 { wsem := 0x21, wthr := 0x43, ssem := 0x65, sinc := 7, wen := true, site := 0 }),
      (0xE603, 0x3000435, .ringstat ⟨true, false, 5⟩ 33 6),
      (0xEB00, 0x6579214300471435, .put ⟨true, false, 5⟩ 33 34 35 { wsem := 0x21, wthr := 0x43, ssem := 0x65, sinc := 7, wen := true, site := 1 }),
      (0xEB01, 0x6579214300471435, .get ⟨true, false, 5⟩ 33 34 35 { wsem := 0x21, wthr := 0x43, ssem := 0x65, sinc := 7, wen := true, site := 1 }),
      (0xEB02, 0x6579214312471435, .putv ⟨true, false, 5⟩ 33 34 35 36 { wsem := 0x21, wthr := 0x43, ssem := 0x65, sinc := 7, wen := true, site := 1 }),
      (0xEB03, 0x6579214312471435, .getv ⟨true, false, 5⟩ 33 34 35 36 { wsem := 0x21, wthr := 0x43, ssem := 0x65, sinc := 7, wen := true, site := 1 }),
      (0xE904, 0x435, .xqstat ⟨true, false, 5⟩ 33),
      (0xE908, 0x815, .uien ⟨true, false, 5⟩ true),
      (0xE809, 0x0, .uiret),
      (0xEF00, 0x6578214300000435, .pfl ⟨true, false, 5⟩ 33 { wsem := 0x21, wthr := 0x43, ssem := 0x65, sinc := 7, wen := true, site := 0 }),
      (0xEF01, 0x65782143000000D5, .pflstop ⟨true, false, 5⟩ 6 { wsem := 0x21, wthr := 0x43, ssem := 0x65, sinc := 7, wen := true, site := 0 })]) = true := by decide +kernel

theorem test_decode_cluster : decodes
    ([(0xF300, 0x6579214300011435, .ist ⟨true, false, 5⟩ .b 33 34 { wsem := 0x21, wthr := 0x43, ssem := 0x65, sinc := 7, wen := true, site := 1 }),
      (0xF301, 0x6579214300011435, .ist ⟨true, false, 5⟩ .h 33 34 { wsem := 0x21, wthr := 0x43, ssem := 0x65, sinc := 7, wen := true, site := 1 }),
      (0xF302, 0x6579214300011435, .ist ⟨true, false, 5⟩ .w 33 34 { wsem := 0x21, wthr := 0x43, ssem := 0x65, sinc := 7, wen := true, site := 1 }),
      (0xF303, 0x6579214300011435, .ist ⟨true, false, 5⟩ .d 33 34 { wsem := 0x21, wthr := 0x43, ssem := 0x65, sinc := 7, wen := true, site := 1 }),
      (0xF304, 0x6579214300011435, .istfD ⟨true, false, 5⟩ 33 34 { wsem := 0x21, wthr := 0x43, ssem := 0x65, sinc := 7, wen := true, site := 1 }),
      (0xF210, 0x471435, .amo ⟨true, false, 5⟩ .add false 33 34 35 0),
      (0xF230, 0x471435, .amo ⟨true, false, 5⟩ .add true 33 34 35 0),
      (0xF211, 0x471435, .amo ⟨true, false, 5⟩ .and false 33 34 35 0),
      (0xF231, 0x471435, .amo ⟨true, false, 5⟩ .and true 33 34 35 0),
      (0xF212, 0x471435, .amo ⟨true, false, 5⟩ .or false 33 34 35 0),
      (0xF232, 0x471435, .amo ⟨true, false, 5⟩ .or true 33 34 35 0),
      (0xF213, 0x471435, .amo ⟨true, false, 5⟩ .xor false 33 34 35 0),
      (0xF233, 0x471435, .amo ⟨true, false, 5⟩ .xor true 33 34 35 0),
      (0xF214, 0x471435, .amo ⟨true, false, 5⟩ .min false 33 34 35 0),
      (0xF234, 0x471435, .amo ⟨true, false, 5⟩ .min true 33 34 35 0),
      (0xF215, 0x471435, .amo ⟨true, false, 5⟩ .max false 33 34 35 0),
      (0xF235, 0x471435, .amo ⟨true, false, 5⟩ .max true 33 34 35 0),
      (0xF216, 0x471435, .amo ⟨true, false, 5⟩ .minu false 33 34 35 0),
      (0xF236, 0x471435, .amo ⟨true, false, 5⟩ .minu true 33 34 35 0),
      (0xF217, 0x471435, .amo ⟨true, false, 5⟩ .maxu false 33 34 35 0),
      (0xF237, 0x471435, .amo ⟨true, false, 5⟩ .maxu true 33 34 35 0),
      (0xF218, 0x471435, .amo ⟨true, false, 5⟩ .swap false 33 34 35 0),
      (0xF238, 0x471435, .amo ⟨true, false, 5⟩ .swap true 33 34 35 0),
      (0xF219, 0x12471435, .amo ⟨true, false, 5⟩ .cas false 33 34 35 36),
      (0xF239, 0x12471435, .amo ⟨true, false, 5⟩ .cas true 33 34 35 36),
      (0xF220, 0x471435, .amof ⟨true, false, 5⟩ .add 33 34 35),
      (0xF221, 0x471435, .amof ⟨true, false, 5⟩ .min 33 34 35),
      (0xF222, 0x471435, .amof ⟨true, false, 5⟩ .max 33 34 35),
      (0xF228, 0x471015, .amodAdd ⟨true, false, 5⟩ 34 35),
      (0xF240, 0x11015, .evsig ⟨true, false, 5⟩ 34),
      (0xF241, 0x471015, .evarm ⟨true, false, 5⟩ 34 35),
      (0xF242, 0x11015, .mtxrel ⟨true, false, 5⟩ 34)]) = true := by decide +kernel

theorem test_decode_superstep : decodes
    ([(0xF400, 0x0, .sync),
      (0xF501, 0x72F5, .vote ⟨true, false, 5⟩ 3 0xE5),
      (0xF603, 0x435, .redrd ⟨true, false, 5⟩ 33),
      (0xF704, 0x6578214300000435, .xsched ⟨true, false, 5⟩ 33 { wsem := 0x21, wthr := 0x43, ssem := 0x65, sinc := 7, wen := true, site := 0 }),
      (0xF610, 0x3011015, .gcfg ⟨true, false, 5⟩ 6 34),
      (0xF611, 0x11435, .gsig ⟨true, false, 5⟩ 33 34),
      (0xF612, 0x11435, .gskip ⟨true, false, 5⟩ 33 34),
      (0xF613, 0x11435, .gmap ⟨true, false, 5⟩ 33 34),
      (0xF614, 0x11015, .gforce ⟨true, false, 5⟩ 34),
      (0xF615, 0x3000015, .gseal ⟨true, false, 5⟩ 6),
      (0xF620, 0x11015, .redc ⟨true, false, 5⟩ .add 34),
      (0xF621, 0x11015, .redc ⟨true, false, 5⟩ .min 34),
      (0xF622, 0x11015, .redc ⟨true, false, 5⟩ .max 34),
      (0xF623, 0x11015, .redc ⟨true, false, 5⟩ .and 34),
      (0xF624, 0x11015, .redc ⟨true, false, 5⟩ .or 34),
      (0xF625, 0x11015, .redc ⟨true, false, 5⟩ .fadd 34)]) = true := by decide +kernel

theorem test_decode_package : decodes
    ([(0xFA00, 0x11435, .launch ⟨true, false, 5⟩ 33 34),
      (0xFA01, 0x11435, .teardown ⟨true, false, 5⟩ 33 34),
      (0xFA02, 0x11435, .preempt ⟨true, false, 5⟩ 33 34),
      (0xFA03, 0x471435, .barnsv ⟨true, false, 5⟩ 33 34 35),
      (0xFA04, 0x471435, .barnld ⟨true, false, 5⟩ 33 34 35),
      (0xFA06, 0x471435, .qcbsv ⟨true, false, 5⟩ 33 34 35),
      (0xFA07, 0x471435, .qcbld ⟨true, false, 5⟩ 33 34 35),
      (0xFA11, 0x471435, .rankmap ⟨true, false, 5⟩ 33 34 35),
      (0xFA05, 0x471015, .hmsg ⟨true, false, 5⟩ 34 35),
      (0xFA08, 0x435, .qpend ⟨true, false, 5⟩ 33),
      (0xFB10, 0x6578214300471435, .coll ⟨true, false, 5⟩ 33 34 35 { wsem := 0x21, wthr := 0x43, ssem := 0x65, sinc := 7, wen := true, site := 0 })]) = true := by decide +kernel

-- literals of one, two and four halfwords (R55)
theorem test_decode_literal :
    decode 0x1100 0x8A0 (some (0xFD00, 0xFFFE)) = none ∧
    decode 0x1100 0x00B5 (some (0xFD00, 0xFFFE)) = some (.lit ⟨true, false, 5⟩ 5 1 0xFFFFFFFFFFFFFFFE) ∧
    decode 0x1100 0x00B5 (some (0xFE00, 0x80000000)) = some (.lit ⟨true, false, 5⟩ 5 2 0xFFFFFFFF80000000) ∧
    decode 0x1100 0x00B5 (some (0xFF00, 0x0123456789ABCDEF)) = some (.lit ⟨true, false, 5⟩ 5 3 0x0123456789ABCDEF) := by
  decide +kernel

-- words that the spec prints beside their assembly text
theorem test_decode_printed_words : decodes
    [(0x6203, 0x00001080, .ld Guard.always .d 4 2 0), (0x6207, 0x00001880, .st Guard.always .d 4 3 0),
      (0x0600, 0x000228A0, .addi Guard.always 5 5 1), (0x4408, 0, .halt), (0x0200, 0x000C2080, .add Guard.always 4 4 6),
      (0x4604, 0x000800A0, .loop Guard.always 5 4), (0x4605, 0x20004000, .rep Guard.always 0 8 4096), (0xFC11, 0, .fmt 0x11),
      (0x1614, 0x20003020, .cmpImm Guard.always .ltu 1 6 4096), (0x920C, 0x0E520CA0, .vdot Guard.always 5 3 4 5 7),
      (0x9600, 0x0E000420, .vcvt Guard.always 1 1 7), (0x8A18, 0x0E010460, .vscale Guard.always 3 1 2 7),
      (0x8601, 0x00038C00, .vmovs Guard.always 7 3 0), (0xF221, 0x000C2880, .amof Guard.always .min 4 5 6),
      (0xC300, 0x018818E0, .mma Guard.always 7 3 4 3 Sync.none),
      (0xF303, 0x02110000000080C0, .ist Guard.always .d 6 16 { Sync.none with ssem := 2, sinc := 1, site := 1 }),
      (0xF501, 0x0040, .vote Guard.always 2 0), (0xF620, 0x00006000, .redc Guard.always .add 12),
      (0xF625, 0x00002000, .redc Guard.always .fadd 4), (0xF610, 0x00802000, .gcfg Guard.always 1 4),
      (0xF612, 0x000048C0, .gskip Guard.always 6 9), (0xF615, 0x00800000, .gseal Guard.always 1),
      (0x7201, 0x08002000, .syswr Guard.always 4 0x400), (0xFA00, 0x000020A0, .launch Guard.always 5 4),
      (0xFA08, 0x00000080, .qpend Guard.always 4), (0xFA06, 0x00103920, .qcbsv Guard.always 9 7 8),
      (0xFA07, 0x00103920, .qcbld Guard.always 9 7 8), (0xFA11, 0x000C2880, .rankmap Guard.always 4 5 6),
      (0xFB10, 0x02100000000C2880, .coll Guard.always 4 5 6 { Sync.none with ssem := 2, sinc := 1 })] = true := by decide +kernel

/-! ## States for the tests and witnesses -/

/-- A strand at slot 1 of code line 0. -/
def strand : Strand := { pc := 2, run := .ready }

/-- The same with privilege level 3. -/
def firmware : Strand := { strand with status := 3 }

/-- A strand with two scalar registers set. -/
def with45 (v w : Word) : Strand := { strand with s := [(4, v), (5, w)] }

/-- A strand with one scalar register set. -/
def with4 (v : Word) : Strand := { strand with s := [(4, v)] }

/-- A steward strand with two scalar registers set. -/
def firm45 (v w : Word) : Strand := { firmware with s := [(4, v), (5, w)] }

/-- Line 0 of the code region holds two instructions, both NOP: header H = 2, heads 0x440A (R47, R80). -/
def nops : List Host.Cell := [(1, 0x10), (2, 0x0A), (3, 0x44), (4, 0x0A), (5, 0x44)]

/-- A tile of gang 1 in its compute phase, with one segment of attribute S at 0x8000 and two free frames. -/
def tile : Tile :=
  { code := nops, gang := 1, segmask := 1, seq := { phase := .compute }, mem := { free := [128, 129] } }

/-- The same, its segment of attribute V. -/
def vtile : Tile := { tile with ctl := { memcfg := 0 } }

/-- A gang of one cluster, tiles 0 to 15. -/
def gang : Gang :=
  { part := 0, clusters := 1, perCluster := 16, rank := 0, ranks := 1, rootPkg := 0, place := List.range 16, stepLimit := 0,
    state := .running, domain := 0, slot := 0, qid := 0, stride := 0, prio := 0, cycles := 0, charged := 0, complva := 0,
    parent := 0, hmsg := none, preempt := false, verdict := none, todo := [], pfl0 := 0, up := [], mismatch := false,
    syncMismatch := false, syncDown := none, syncTodo := [], plots := [], observed := [], launches := [], linkFail := false,
    sample := none, mirrorWait := false, mirrorAt := 0, haltCause := 0, savedStep := 0, aside := [] }

/-- Tile 0 with a strand, in gang 1. -/
def on (T : Tile) (x : Strand) : State :=
  { curTile := 0, tiles := [(0, { T with strands := [(0, x)] })], gangs := [(1, gang)] }

/-- Tiles 0 and 1 of gang 1, with a strand on tile 0. -/
def pair (T U : Tile) (x : Strand) : State :=
  { curTile := 0, tiles := [(0, { T with strands := [(0, x)] }), (1, { U with gti := 1 })], gangs := [(1, gang)] }

/-- Steward tile 0 with a strand. -/
def steward (x : Strand) : State :=
  { curTile := 4624, tiles := [(4624, { code := nops, strands := [(0, x)] })] }

/-- A guard that no lane meets: mask register q1, which is zero. -/
def noLane : Guard := ⟨false, true, 1⟩

/-- An immediate store of tile 0 in flight to tile 1. -/
def ist : Ist :=
  { src := 0, strand := 0, dest := some 1, addr := 0x8000, size := .d, data := 0, sy := Sync.none, fenced := false,
    landed := false, report := false, ord := 0 }

/-- Tile 0 with bales 0 and 1 ready, of the largest size. -/
def baled : Tile :=
  { tile with ctl := { bales := [(0, { state := 2, offset := 256, size := 511 }), (1, { state := 2, offset := 256, size := 511 })] } }

/-- The same with rings 0 and 1, each with one pushed slot. -/
def ringed : Tile :=
  { baled with ctl := { baled.ctl with rings := [(0, { v := true, occ := 1 }), (1, { first := 1, v := true, occ := 1 })] } }

/-- An MMA that has bound bales 0 and 1. -/
def mma : Mma :=
  { form := .mma, acc := 0, ra := 0, rb := 1, slotA := 0, slotB := 1, groups := 1, fa := 2, fb := 2, strand := 0, sy := Sync.none,
    retired := false, bytesA := 0, poisA := 0, bytesB := 0, poisB := 0 }

/-- An ACCLD in flight. -/
def accMove : AccMove :=
  { load := true, addr := 0x8000, stride := 128, fa := 0, fb := 0, rm := 0, strand := 0, routine := 0, sy := Sync.none,
    moved := [], ord := 0 }

/-- A transfer that has moved its words. -/
def xfer : Xfer :=
  { dir := 0, offset := 0x8000, len := 8, view := 0, strand := 0, uipc := 0, va := 0, sy := Sync.none, id := 0, routine := 0, tag := 1,
    begun := true, slot := none, units := 0, moved := [], ord := 0 }

/-- Tiles 0 and 1, with strands 0 at event-space loads parked on tile 1, and event objects of cluster 0. -/
def events (C : Cluster) (x : Strand) : State :=
  { pair tile { tile with strands := [(0, { run := .parked .event })] } x with clusters := [(0, C)] }

/-- Partition 0 with a key, and a table in which one leaf, readable and writable, maps the first 32 MiB. -/
def mapped (s : State) : State :=
  { s with
    mem := [(0x10000, 1), (0x10004, 2), (0x20000, 0x0F), (0x20005, 2)]
    parts := [(0, { Part.reset 0 with root := 0x10000, key := some 0, pquota := 100 })] }

/-- The gang changed, with tile 0 and a strand. -/
def onGang (G : Gang) (T : Tile) (x : Strand) : State := { on T x with gangs := [(1, G)] }

/-- An ARRIVE packet of tile 0 of gang 1 without a contribution. -/
def packet (vote : BitVec 2) : Packet :=
  { gang := 1, step := 0, kind := 0, vote := vote, cause := 0, rop := 0, payload := 0, level := 0, index := 0, ctile := 0, sgen := 0,
    last := true, empty := true, yield := false, reserved := 0 }

/-- A gang of one tile. -/
def lone : Gang := { gang with perCluster := 1, place := [0] }

/-- A message of a kind. -/
def message (desc : BitVec 512) : Msg := { desc := desc, sender := 0, routine := 0, seq := 0 }

/-- A send of one word of tile 0 in flight to tile 1. -/
def sent (landed : Bool) : Send :=
  { src := 0, dest := some 1, doff := 0x8000, words := [(7, false)], landed := landed, report := false, ord := 0,
    from_ := 0x8000, moved := [] }

/-- A mapped queue slot of partition 1, nothing in its ring. -/
def slot : Slot :=
  { rbase := 0, rlog2 := 4, part := 1, qid := 0, cont := false, cgang := 0, cprio := 0, head := 0, tail := 0, tickets := 1, stride := 1,
    qlim := 0, pass := 0, agep := 0, wait := 0, running := false, selected := false }

/-- A job of partition 1 from slot 0. -/
def job : Job := { slot := 0, part := 1, src := .ring, block := some 1, prio := 0, eff := 0 }

/-- A completed job. -/
def done : Done :=
  { job := 7, complva := none, part := 0, status := 0, cause := 0, sstep := 0, gang := 1, parent := 0, hmsg := none, qid := none }

/-- A read request of eight bytes of tile 0. -/
def req : Req :=
  { tile := 0, write := false, va := 0, view := 0, len := 8, off := 0x8000, what := .fill 0, suspended := false, frozen := none,
    part := 0, root := 0x10000, faultVa := 0, badGranules := [], moved := [], opened := [] }

/-- A Barn record of gang 1 on tile 0. -/
def barnRec : BarnRec :=
  { gang := 1, gti := 0, ctl := {}, abortcnt := 0, abortlim := 3, redres := 0, ldec := 0, lcause := 0, cbase := 0, clines := 1,
    segmask := 1, free := [], msgs := [], msgFrames := [], mail := [], dlprior := false, persist := [], parentSigs := [],
    arming := none, key := none }

/-- A mapped package whose leaf has other flags. -/
def flagged (flags : Byte) (s : State) : State :=
  { mapped s with mem := [(0x10000, 1), (0x10004, 2), (0x20000, flags), (0x20005, 2)] }

/-- The leaf of the tables above, with flags, as the page of virtual address 0. -/
def page (flags : Nat) : Page := { num := 0, level := 1, leaf := 0x20000, e := BitVec.ofNat 64 (2 ^ 41 + flags) }

/-- A mapped package that owns cluster 0, with bytes in the page of virtual address 0. -/
def holding (bytes : List Host.Cell) (s : State) : State :=
  { s with
    mem := [(0x10000, 1), (0x10004, 2), (0x20000, 0x0F), (0x20005, 2)] ++ bytes
    parts := [(0, { Part.reset 0 with root := 0x10000, key := some 0, clusters := 1 })] }

/-- A package that owns cluster 0, with the record of `barnRec` for `lone` in
it as 4,096 bytes (R376): gang 1, CLINES 1, SEGMASK 1, MEMCFG after reset. -/
def imaged : State :=
  { steward { firmware with s := [(6, 0x3A)] } with
    mem := [(0x10000, 1), (0x10004, 2), (0x20000, 0x0F), (0x20005, 2), (0x2000000, 0x02), (0x200002F, 0x30), (0x200003A,
      0x80), (0x200003C, 0x02), (0x2000057, 0x54), (0x2000058, 0x55), (0x2000059, 0x55), (0x200005A, 0x29),
      (0x2000067, 0xC0), (0x2000068, 0x01)]
    parts := [(0, { Part.reset 0 with root := 0x10000, key := some 0, clusters := 1 })] }

/-- A launch block of one cluster and one tile: one step at most, MEMCFG after reset, SEGMASK 0x3001, one code line (R366). -/
def blockBytes : List Host.Cell :=
  [(0x2000008, 0x01), (0x2000018, 0x55), (0x2000019, 0x55), (0x200001A, 0x55), (0x200001B, 0x0A), (0x200001D, 0x04), (0x200001E, 0xC0),
   (0x2000028, 0x01)]

/-- A job of partition 0 with the block at virtual address 0. -/
def blockJob : Job := { job with part := 0, block := some 0 }

/-- What a reader of an image asks of its first tile. -/
def imageIs (r : ImageRead) (P : TileImage → Bool) : Bool := match r with
  | .ok (x :: _) => P x
  | _ => false

/-- What holds of an image that is read. -/
theorem image_read {r : ImageRead} {P : TileImage → Bool} (h : imageIs r P = true) : ∃ x l, r = .ok (x :: l) ∧ P x = true := by
  unfold imageIs at h
  split at h
  · exact ⟨_, _, rfl, h⟩
  · cases h

/-- The same in a package in which gang 1 runs. -/
def manned : State := { imaged with gangs := [(1, gang)] }

/-- What the image of `imaged` holds, and where it can go. -/
def imagedIs (x : TileImage) : Bool := decide (x.head.ctx.gang = 1 ∧ imaged.imagePlacement 0 x.head 0 = some [0] ∧
  imaged.imagePlacement 0 x.head 0x3A = none)

/-- What the image of `manned` holds. -/
def mannedIs (x : TileImage) : Bool := decide (x.head.ctx.gang = 1)

theorem imaged_is : imageIs (imaged.readImage 0) imagedIs = true := by decide +kernel

theorem manned_is : imageIs (manned.readImage 0) mannedIs = true := by decide +kernel

/-- That a plan starts a gang. -/
def starts : Plan → Bool
  | .start _ _ _ => true
  | _ => false

/-- A plan to start. -/
theorem plan_start {p : Plan} (h : starts p = true) : ∃ b q cs, p = .start b q cs := by
  unfold starts at h
  split at h
  · exact ⟨_, _, _, rfl⟩
  · cases h

/-- A package in which `blockJob` starts a gang. -/
def launching : State := { holding blockBytes (steward firmware) with pkg := { up := true }, disp := { job := some blockJob } }

/-- A package whose one cluster is taken. -/
def crowded : State := { holding blockBytes (on tile strand) with pkg := { up := true }, disp := { job := some blockJob } }

theorem launching_starts : starts (launching.plan blockJob) = true := by decide +kernel

theorem crowded_full : crowded.plan blockJob = .full := by decide +kernel

/-- The same in a partition of two ranks, of which the other has not placed its part. -/
def awaiting : State :=
  { launching with parts := [(0, { Part.reset 0 with root := 0x10000, key := some 0, clusters := 1, ranks := [(0, 0, 0, 0), (1, 1, 0, 0)] })] }

theorem awaiting_starts : starts (awaiting.plan blockJob) = true := by decide +kernel

/-! ## Results that the spec states -/

/-- What holds of the next state. -/
def gives {α : Type} [DecidableEq α] (o : Host.Outcome State Fault Refusal) (f : State → α) (v : α) : Bool := match o with
  | .next t => decide (f t = v)
  | _ => false

/-- The scalar register 3 that an instruction leaves, run on a tile whose strand has s4 and s5. -/
def s3Is (i : Instr) (x y v : Word) : Bool := gives (exec i (on tile (with45 x y))) (fun t => t.me.rd 3) v

-- the table of R72
theorem test_div : s3Is (.div Guard.always 3 4 5) 7 0 (-1) && s3Is (.div Guard.always 3 4 5) (-7) 2 (-3) &&
    s3Is (.div Guard.always 3 4 5) 0x8000000000000000 (-1) 0x8000000000000000 = true := by decide +kernel
theorem test_rem : s3Is (.rem Guard.always 3 4 5) 7 0 7 && s3Is (.rem Guard.always 3 4 5) (-7) 2 (-1) &&
    s3Is (.rem Guard.always 3 4 5) 0x8000000000000000 (-1) 0 = true := by decide +kernel
theorem test_divu : s3Is (.divu Guard.always 3 4 5) 7 0 (-1) && s3Is (.divu Guard.always 3 4 5) (-7) 2 0x7FFFFFFFFFFFFFFC &&
    s3Is (.divu Guard.always 3 4 5) 0x8000000000000000 (-1) 0 = true := by decide +kernel
theorem test_remu : s3Is (.remu Guard.always 3 4 5) (-7) 2 1 &&
    s3Is (.remu Guard.always 3 4 5) 0x8000000000000000 (-1) 0x8000000000000000 = true := by decide +kernel
-- R71: a shift takes y<5:0>, and ROL by 0 gives x
theorem test_sra : s3Is (.sra Guard.always 3 4 5) 0x8000000000000000 0x44 0xF800000000000000 = true := by decide +kernel
theorem test_rol : s3Is (.rol Guard.always 3 4 5) 0x8000000000000001 0x40 0x8000000000000001 = true := by decide +kernel
theorem test_mulh : s3Is (.mulh Guard.always 3 4 5) (-1) 1 (-1) = true := by decide +kernel
-- R71: an immediate of MAXU is sign-extended first
theorem test_maxu_immediate : s3Is (.maxuImm Guard.always 3 4 0x7FFF) 5 0 (-1) = true := by decide +kernel
-- R73, R74
theorem test_clz_abs : s3Is (.clz Guard.always 3 4) 0 0 64 && s3Is (.abs Guard.always 3 4) 0x8000000000000000 0 0x8000000000000000 = true := by
  decide +kernel
theorem test_bfx_sign : s3Is (.bfxS Guard.always 3 4 4 3) 0xF0 0 (-1) = true := by decide +kernel
-- R41, R91: TRAP saves the next PC, its cause 0x17 and its immediate, and the strand goes to TVEC
theorem test_trap : gives (exec (.trap Guard.always 0x543) (on tile { strand with tvec := 2 }))
    (fun t => (t.me.trappc, t.me.trapcause, t.me.trapval, t.me.pc)) (4, 0x17, 0x543, 2) = true := by decide +kernel
-- R78: JAL links the next PC; the line of two heads has a second slot
theorem test_jal : gives (exec (.jal Guard.always 3 4) (on tile strand)) (fun t => (t.me.rd 3, t.me.pc)) (4, 4) = true := by
  decide +kernel
-- R86: a halfword of the bytes at 0x8002, sign-extended; R4: little-endian; the first data frame is that of line 0x8000
theorem test_ld_h : gives (exec (.ld Guard.always .h 3 4 2) (on { tile with mem := { tile.mem with bytes := [(2, 0x34), (3, 0x92)] } }
    (with4 0x8000))) (fun t => t.me.rd 3) 0xFFFFFFFFFFFF9234 = true := by decide +kernel
-- R76: p0 reads as true, and a compare with it as target is lost
theorem test_cmp_p0 : gives (exec (.cmp Guard.always .ne 0 4 4) (on tile strand)) (fun t => t.me.prd 0) true = true := by decide +kernel

/-! ## Witnesses: states and operands that meet the hypotheses of the obligations, clause by clause -/

theorem test_hypotheses_ScalarRegisterOperations :
    (∃ (s : State) (g : Guard) (d : SReg) (a : SReg) (b : SReg) (x : Word) (y : Word) (tag : Bool), s.me.rd a = x ∧
      s.me.rd b = y ∧ (s.me.tag a || s.me.tag b) = tag ∧ Clears s (inSet g [d, a, b])) :=
  ⟨on tile { with45 (2 ^ 63) 1 with stag := 2 ^ 5 }, Guard.always, 3, 4, 5, _, _, _, rfl, rfl, rfl,
      (by unfold Clears; decide +kernel)⟩

theorem test_hypotheses_ScalarImmediateOperations :
    (∃ (s : State) (g : Guard) (d : SReg) (a : SReg) (imm : BitVec 15) (x : Word) (y : Word) (tag : Bool), s.me.rd a = x ∧
      imm.signExtend 64 = y ∧ s.me.tag a = tag ∧ Clears s (inSet g [d, a])) :=
  ⟨on tile strand, Guard.always, 3, 4, 0, _, _, _, rfl, rfl, rfl, (by unfold Clears; decide +kernel)⟩

theorem test_hypotheses_Division :
    (∃ (s : State) (g : Guard) (d : SReg) (a : SReg) (b : SReg) (x : Word) (y : Word) (tag : Bool), s.me.rd a = x ∧
      s.me.rd b = y ∧ (s.me.tag a || s.me.tag b) = tag ∧ Clears s (inSet g [d, a, b]) ∧ y = 0) ∧
    (∃ (s : State) (g : Guard) (d : SReg) (a : SReg) (b : SReg) (x : Word) (y : Word) (tag : Bool), s.me.rd a = x ∧
      s.me.rd b = y ∧ (s.me.tag a || s.me.tag b) = tag ∧ Clears s (inSet g [d, a, b]) ∧ x.toInt = -2 ^ 63 ∧ y.toInt =
      -1) ∧
    (∃ (s : State) (g : Guard) (d : SReg) (a : SReg) (b : SReg) (x : Word) (y : Word) (tag : Bool), s.me.rd a = x ∧
      s.me.rd b = y ∧ (s.me.tag a || s.me.tag b) = tag ∧ Clears s (inSet g [d, a, b]) ∧ y ≠ 0) :=
  ⟨⟨on tile strand, Guard.always, 3, 4, 5, _, _, _, rfl, rfl, rfl, (by unfold Clears; decide +kernel)⟩,
    ⟨on tile (with45 (2 ^ 63) (2 ^ 64 - 1)), Guard.always, 3, 4, 5, _, _, _, rfl, rfl, rfl,
      (by unfold Clears; decide +kernel)⟩,
    ⟨on tile (with45 7 2), Guard.always, 3, 4, 5, _, _, _, rfl, rfl, rfl, (by unfold Clears; decide +kernel)⟩⟩

theorem test_hypotheses_UnaryAndFieldOperations :
    (∃ (s : State) (g : Guard) (d : SReg) (a : SReg) (pos : BitVec 6) (len : BitVec 6) (x : Word) (tag : Bool), s.me.rd a
      = x ∧ s.me.tag a = tag ∧ Clears s (inSet g [d, a]) ∧ pos.toNat + len.toNat + 1 ≤ 64) :=
  ⟨on tile strand, Guard.always, 3, 4, 63, 0, _, _, rfl, rfl, (by unfold Clears; decide +kernel)⟩

theorem test_hypotheses_LitLeaSel :
    (∃ (s : State) (g : Guard) (d : SReg) (a : SReg) (b : SReg) (x : Word) (y : Word) (tag : Bool), s.me.rd a = x ∧
      s.me.rd b = y ∧ (s.me.tag a || s.me.tag b) = tag ∧ Clears s (inSet g [d])) ∧
    (∃ (s : State) (g : Guard) (d : SReg) (a : SReg) (b : SReg) (x : Word) (y : Word) (tag : Bool), s.me.rd a = x ∧
      s.me.rd b = y ∧ (s.me.tag a || s.me.tag b) = tag ∧ Clears s (inSet g [d, a, b])) :=
  ⟨⟨on tile strand, Guard.always, 3, 4, 5, _, _, _, rfl, rfl, rfl, (by unfold Clears; decide +kernel)⟩,
    ⟨on tile strand, Guard.always, 3, 4, 5, _, _, _, rfl, rfl, rfl, (by unfold Clears; decide +kernel)⟩⟩

theorem test_hypotheses_ComparisonsAndPredicates :
    (∃ (s : State) (g : Guard) (a : SReg) (b : SReg) (imm : BitVec 15) (x : Word) (y : Word) (z : Word), s.me.rd a = x ∧
      s.me.rd b = y ∧ imm.signExtend 64 = z ∧ Clears s (inSet g [a, b])) ∧
    (∃ (s : State) (g : Guard) (a : SReg) (b : SReg) (imm : BitVec 15) (x : Word) (y : Word) (z : Word), s.me.rd a = x ∧
      s.me.rd b = y ∧ imm.signExtend 64 = z ∧ Clears s (inSet g [a])) ∧
    (∃ (s : State) (g : Guard), Clears s (ordinary g)) :=
  ⟨⟨on tile strand, Guard.always, 4, 5, 0, _, _, _, rfl, rfl, rfl, (by unfold Clears; decide +kernel)⟩,
    ⟨on tile strand, Guard.always, 4, 5, 0, _, _, _, rfl, rfl, rfl, (by unfold Clears; decide +kernel)⟩,
    ⟨on tile strand, Guard.always, (by unfold Clears; decide +kernel)⟩⟩

theorem test_hypotheses_Branches :
    (∃ (s : State) (g : Guard) (a : SReg) (target : BitVec 15) (link : Strand → Strand), (∀ x, link x = x.wr a
      (s.seqPc.setWidth 64) false) ∧ Clears s { barred g with msgOk := true } ∧ Landing s target.toNat) ∧
    (∃ (s : State) (g : Guard) (a : SReg) (target : BitVec 15) (link : Strand → Strand), (∀ x, link x = x.wr a
      (s.seqPc.setWidth 64) false) ∧ Clears s { barred g with msgOk := true } ∧ (¬ Landing s target.toNat)) ∧
    (∃ (s : State) (g : Guard) (a : SReg) (target : BitVec 15) (link : Strand → Strand), (∀ x, link x = x.wr a
      (s.seqPc.setWidth 64) false) ∧ Clears s (barred g) ∧ (¬ Landing s target.toNat)) ∧
    (∃ (s : State) (g : Guard) (a : SReg) (b : SReg) (link : Strand → Strand), (∀ x, link x = x.wr a (s.seqPc.setWidth 64)
      false) ∧ Clears s (barred g) ∧ s.me.tag b = false ∧ Landing s (s.me.rd b).toNat) ∧
    (∃ (s : State) (g : Guard) (a : SReg) (b : SReg) (link : Strand → Strand), (∀ x, link x = x.wr a (s.seqPc.setWidth 64)
      false) ∧ Clears s (barred g) ∧ s.me.tag b = false ∧ (¬ Landing s (s.me.rd b).toNat)) ∧
    (∃ (s : State) (g : Guard) (a : SReg) (link : Strand → Strand), (∀ x, link x = x.wr a (s.seqPc.setWidth 64) false) ∧
      Clears s (barred g) ∧ s.me.tag 1 = false ∧ Landing s (s.me.rd 1).toNat) ∧
    (∃ (s : State) (g : Guard) (a : SReg) (link : Strand → Strand), (∀ x, link x = x.wr a (s.seqPc.setWidth 64) false) ∧
      Clears s (barred g) ∧ s.me.tag 1 = false ∧ (¬ Landing s (s.me.rd 1).toNat)) ∧
    (∃ (s : State) (g : Guard) (a : SReg) (link : Strand → Strand), (∀ x, link x = x.wr a (s.seqPc.setWidth 64) false) ∧
      Clears s (barred g) ∧ s.me.tag a = false ∧ (s.me.rd a).toNat ≤ 1) ∧
    (∃ (s : State) (g : Guard) (a : SReg) (target : BitVec 15) (link : Strand → Strand), (∀ x, link x = x.wr a
      (s.seqPc.setWidth 64) false) ∧ Clears s (barred g) ∧ s.me.tag a = false ∧ 1 < (s.me.rd a).toNat ∧ Landing s
      target.toNat) ∧
    (∃ (s : State) (g : Guard) (a : SReg) (target : BitVec 15) (link : Strand → Strand), (∀ x, link x = x.wr a
      (s.seqPc.setWidth 64) false) ∧ Clears s (barred g) ∧ s.me.tag a = false ∧ 1 < (s.me.rd a).toNat ∧ (¬ Landing s
      target.toNat)) ∧
    (∃ (s : State) (g : Guard) (a : SReg) (b : SReg) (link : Strand → Strand) (cc : Cond), (∀ x, link x = x.wr a
      (s.seqPc.setWidth 64) false) ∧ Clears s (barred g) ∧ s.me.tag a = false ∧ s.me.tag b = false ∧ condHolds cc
      (s.me.rd a) (s.me.rd b) = false) ∧
    (∃ (s : State) (g : Guard) (a : SReg) (b : SReg) (target : BitVec 15) (link : Strand → Strand) (cc : Cond), (∀ x, link
      x = x.wr a (s.seqPc.setWidth 64) false) ∧ Clears s (barred g) ∧ s.me.tag a = false ∧ s.me.tag b = false ∧
      condHolds cc (s.me.rd a) (s.me.rd b) = true ∧ Landing s target.toNat) ∧
    (∃ (s : State) (g : Guard) (a : SReg) (b : SReg) (target : BitVec 15) (link : Strand → Strand) (cc : Cond), (∀ x, link
      x = x.wr a (s.seqPc.setWidth 64) false) ∧ Clears s (barred g) ∧ s.me.tag a = false ∧ s.me.tag b = false ∧
      condHolds cc (s.me.rd a) (s.me.rd b) = true ∧ (¬ Landing s target.toNat)) :=
  ⟨⟨{ on tile strand with curStrand := 4, tiles := [(0, { tile with strands := [(4, { run := .ready, slots := [0x4600, 0x1000, 0x440A] })] })] },
      Guard.always, 4, 2, _, fun _ => rfl, (by unfold Clears Landing; decide +kernel)⟩,
    ⟨on tile strand, Guard.always, 4, 0, _, fun _ => rfl, (by unfold Clears Landing; decide +kernel)⟩,
    ⟨on tile strand, Guard.always, 4, 0, _, fun _ => rfl, (by unfold Clears Landing; decide +kernel)⟩,
    ⟨on tile (with45 0 2), Guard.always, 4, 5, _, fun _ => rfl, (by unfold Clears Landing; decide +kernel)⟩,
    ⟨on tile strand, Guard.always, 4, 5, _, fun _ => rfl, (by unfold Clears Landing; decide +kernel)⟩,
    ⟨on tile { strand with s := [(1, 2)] }, Guard.always, 4, _, fun _ => rfl, (by unfold Clears Landing; decide +kernel)⟩,
    ⟨on tile strand, Guard.always, 4, _, fun _ => rfl, (by unfold Clears Landing; decide +kernel)⟩,
    ⟨on tile (with4 1), Guard.always, 4, _, fun _ => rfl, (by unfold Clears; decide +kernel)⟩,
    ⟨on tile (with4 2), Guard.always, 4, 2, _, fun _ => rfl, (by unfold Clears Landing; decide +kernel)⟩,
    ⟨on tile (with4 2), Guard.always, 4, 0, _, fun _ => rfl, (by unfold Clears Landing; decide +kernel)⟩,
    ⟨on tile strand, Guard.always, 4, 5, _, .ne, fun _ => rfl, (by unfold Clears; decide +kernel)⟩,
    ⟨on tile strand, Guard.always, 4, 5, 2, _, .eq, fun _ => rfl, (by unfold Clears Landing; decide +kernel)⟩,
    ⟨on tile strand, Guard.always, 4, 5, 0, _, .eq, fun _ => rfl, (by unfold Clears Landing; decide +kernel)⟩⟩

theorem test_hypotheses_BranchTraps :
    (∃ (s : State) (g : Guard) (b : SReg), Clears s (barred g) ∧ s.me.tag b = true) ∧
    (∃ (s : State) (g : Guard), Clears s (barred g) ∧ s.me.tag 1 = true) ∧
    (∃ (s : State) (g : Guard) (a : SReg), Clears s (barred g) ∧ s.me.tag a = true) ∧
    (∃ (s : State) (g : Guard) (a : SReg) (len : BitVec 6), Clears s (barred g) ∧ s.me.tag a = true ∧ s.me.td = false ∧
      len ≠ 0) ∧
    (∃ (s : State) (g : Guard) (a : SReg) (b : SReg), Clears s (barred g) ∧ s.me.tag a = true ∧ (s.me.tag b = true →
      a.toNat ≤ b.toNat)) ∧
    (∃ (s : State) (g : Guard) (a : SReg) (b : SReg), Clears s (barred g) ∧ s.me.tag b = true ∧ (s.me.tag a = true →
      b.toNat ≤ a.toNat)) ∧
    (∃ (T : Tile) (t : Nat), t < 2 ^ 15 ∧ T.codeOwned (t / 64 * 64) = true) ∧
    (∃ (T : Tile) (t : Nat), t < 2 ^ 15 ∧ T.codeOwned (t / 64 * 64) = false) ∧
    (∃ (t : Nat), 2 ^ 15 ≤ t) :=
  ⟨⟨on tile { strand with stag := 2 ^ 5 }, Guard.always, 5, (by unfold Clears; decide +kernel)⟩,
    ⟨on tile { strand with stag := 2 ^ 1 }, Guard.always, (by unfold Clears; decide +kernel)⟩,
    ⟨on tile { strand with stag := 2 ^ 4 }, Guard.always, 4, (by unfold Clears; decide +kernel)⟩,
    ⟨on tile { strand with stag := 2 ^ 4 }, Guard.always, 4, 1, (by unfold Clears; decide +kernel)⟩,
    ⟨on tile { strand with stag := 2 ^ 4 }, Guard.always, 4, 5, (by unfold Clears; decide +kernel)⟩,
    ⟨on tile { strand with stag := 2 ^ 5 }, Guard.always, 4, 5, (by unfold Clears; decide +kernel)⟩,
    ⟨{}, 2 ^ 15 - 1, (by decide +kernel)⟩,
    ⟨{ clines := 1 }, 64, (by decide +kernel)⟩,
    ⟨2 ^ 15, (by decide +kernel)⟩⟩

theorem test_hypotheses_Repeat :
    (∃ (s : State) (g : Guard) (a : SReg) (len : BitVec 6) (n : BitVec 15) (count : _), (count = (if a = 0 then n.toNat
      else (s.me.rd a).toNat)) ∧ Clears s (barred g) ∧ s.me.td = false ∧ len ≠ 0 ∧ s.me.tag a = false ∧ 0 < count) ∧
    (∃ (s : State) (g : Guard), Clears s (barred g) ∧ s.me.td = false ∧ (∀ r : SReg, 24 ≤ r.toNat → r.toNat < 32 →
      s.me.tag r = false)) ∧
    (∃ (r : Rep), r.active = true ∧ r.idx + 1 < r.len) ∧
    (∃ (r : Rep), r.active = true ∧ r.len ≤ r.idx + 1 ∧ 1 < r.left) ∧
    (∃ (r : Rep), r.active = true ∧ r.len ≤ r.idx + 1 ∧ r.left ≤ 1) ∧
    (∃ (s : State) (g : Guard) (a : SReg) (len : BitVec 6) (n : BitVec 15) (at_ : Nat → Pc), at_ 0 = s.seqPc ∧ (∀ i, at_
      (i + 1) = s.myTile.pcAfter (at_ i) (s.myTile.slotsAt (at_ i))) ∧ Clears s (barred g) ∧ s.me.td = false ∧ len ≠ 0
      ∧ s.me.tag a = false ∧ s.forwarded = false ∧ ((if a = 0 then n.toNat else (s.me.rd a).toNat) = 0) ∧ (∀ i, i <
      len.toNat → s.myTile.badLine (at_ i) = false)) ∧
    (∃ (s : State) (g : Guard) (a : SReg) (len : BitVec 6) (n : BitVec 15) (at_ : Nat → Pc) (j : _), at_ 0 = s.seqPc ∧ (∀
      i, at_ (i + 1) = s.myTile.pcAfter (at_ i) (s.myTile.slotsAt (at_ i))) ∧ Clears s (barred g) ∧ s.me.td = false ∧
      len ≠ 0 ∧ s.me.tag a = false ∧ s.forwarded = false ∧ ((if a = 0 then n.toNat else (s.me.rd a).toNat) = 0) ∧ j <
      len.toNat ∧ (∀ i, i < j → s.myTile.badLine (at_ i) = false) ∧ s.myTile.badLine (at_ j) = true) ∧
    (∃ (s : State) (g : Guard) (len : BitVec 6), Clears s (barred g) ∧ (s.me.td = true ∨ len = 0)) :=
  ⟨⟨on tile strand, Guard.always, 0, 1, 1, _, rfl, (by unfold Clears; decide +kernel)⟩,
    ⟨on tile strand, Guard.always, (by unfold Clears; decide +kernel)⟩,
    ⟨{ active := true, left := 1, len := 2 }, (by decide +kernel)⟩,
    ⟨{ active := true, left := 2, len := 1 }, (by decide +kernel)⟩,
    ⟨{ active := true, left := 1, len := 1 }, (by decide +kernel)⟩,
    ⟨on tile strand, Guard.always, 0, 1, 0, fun i => Nat.rec (on tile strand).seqPc (fun _ p => (on tile
      strand).myTile.pcAfter p ((on tile strand).myTile.slotsAt p)) i, rfl, fun _ => rfl,
      (by unfold Clears; decide +kernel)⟩,
    ⟨on tile { strand with pc := 4 }, Guard.always, 0, 1, 0, fun i => Nat.rec (on tile { strand with pc := 4 }).seqPc (fun
      _ p => (on tile { strand with pc := 4 }).myTile.pcAfter p ((on tile { strand with pc := 4 }).myTile.slotsAt p))
      i, 0, rfl, fun _ => rfl, (by unfold Clears; decide +kernel)⟩,
    ⟨on tile strand, Guard.always, 0, (by unfold Clears; decide +kernel)⟩⟩

theorem test_hypotheses_HaltYieldNopFmt :
    (∃ (s : State), Clears s (barred Guard.always) ∧ s.uiOutstanding = false) ∧
    (∃ (s : State), Clears s (ordinary Guard.always)) ∧
    (∃ (s : State), s.me.pp = false ∧ s.curStrand ≠ 4) :=
  ⟨⟨on tile strand, (by unfold Clears; decide +kernel)⟩,
    ⟨on tile strand, (by unfold Clears; decide +kernel)⟩,
    ⟨on tile strand, (by decide +kernel)⟩⟩

theorem test_hypotheses_TrapEntry :
    (∃ (s : State) (t : Nat) (k : Nat) (cause : Nat) (pc : Pc) (val : Word) (x : Strand) (y : Strand) (i : _), x =
      s.strand t k ∧ y = (s.takeTrap t k cause pc val).strand t k ∧ Handled s t k cause ∧ ((11 ≤ i ∧ i ≤ 20) ∨ 33 ≤
      i)) ∧
    (∃ (s : State) (t : Nat) (k : Nat) (cause : Nat) (pc : Pc) (val : Word) (x : Strand) (y : Strand) (u : _) (j : _), x =
      s.strand t k ∧ y = (s.takeTrap t k cause pc val).strand t k ∧ Handled s t k cause ∧ (u ≠ t ∨ j ≠ k)) ∧
    (∃ (s : State) (t : Nat) (k : Nat) (cause : Nat) (pc : Pc) (val : Word) (x : Strand) (y : Strand) (u : _), x =
      s.strand t k ∧ y = (s.takeTrap t k cause pc val).strand t k ∧ Handled s t k cause ∧ u ≠ t) :=
  ⟨⟨on tile { strand with tvec := 2 }, 0, 0, 1, 0, 0, _, _, 11, rfl, rfl, (by unfold Handled; decide +kernel)⟩,
    ⟨on tile { strand with tvec := 2 }, 0, 0, 1, 0, 0, _, _, 1, 0, rfl, rfl, (by unfold Handled; decide +kernel)⟩,
    ⟨on tile { strand with tvec := 2 }, 0, 0, 1, 0, 0, _, _, 1, rfl, rfl, (by unfold Handled; decide +kernel)⟩⟩

theorem test_hypotheses_TrapStopsAndCalls :
    (∃ (s : State) (t : Nat) (k : Nat) (cause : Nat) (pc : Pc) (val : Word) (x : Strand) (r : State), x = s.strand t k ∧ r
      = s.takeTrap t k cause pc val ∧ isSteward t = false ∧ (vectored cause = false ∨ x.td = true ∨ x.tvec = 0 ∨ k = 4
      ∨ (s.tile t).follower = true)) ∧
    (∃ (s : State) (t : Nat) (k : Nat) (cause : Nat) (pc : Pc) (val : Word) (x : Strand) (r : State), x = s.strand t k ∧ r
      = s.takeTrap t k cause pc val ∧ isSteward t = false ∧ vectored cause = true ∧ x.td = false ∧ x.tvec ≠ 0 ∧ k ≠ 4
      ∧ (s.tile t).follower = false ∧ (s.tile t).badTarget x.tvec.toNat = true) ∧
    (∃ (s : State) (t : Nat) (k : Nat) (cause : Nat) (pc : Pc) (val : Word) (x : Strand) (r : State), x = s.strand t k ∧ r
      = s.takeTrap t k cause pc val ∧ isSteward t = true ∧ (¬ Handled s t k cause)) ∧
    (∃ (s : State) (g : Guard), Clears s (ordinary g)) :=
  ⟨⟨on tile strand, 0, 0, 1, 0, 0, _, _, rfl, rfl, (by decide +kernel)⟩,
    ⟨on tile { strand with tvec := 1 }, 0, 0, 1, 0, 0, _, _, rfl, rfl, (by decide +kernel)⟩,
    ⟨steward strand, 4624, 0, 1, 0, 0, _, _, rfl, rfl, (by unfold Handled; decide +kernel)⟩,
    ⟨on tile strand, Guard.always, (by unfold Clears; decide +kernel)⟩⟩

theorem test_hypotheses_TrapReturn :
    (∃ (s : State), s.me.pp = false ∧ s.curStrand ≠ 4 ∧ s.me.priv ≠ 0 ∧ s.me.td = true ∧ s.me.rep.active = false ∧
      s.myTile.badTarget s.me.trappc.toNat = false) ∧
    (∃ (s : State) (next : _), next = s.myTile.pcAfter s.me.trappc (s.myTile.slotsAt s.me.trappc) ∧ s.me.pp = false ∧
      s.curStrand ≠ 4 ∧ s.me.priv ≠ 0 ∧ s.me.td = true ∧ s.me.rep.active = false ∧ s.myTile.badTarget next.toNat =
      false) ∧
    (∃ (s : State), s.me.pp = false ∧ s.curStrand ≠ 4 ∧ (s.me.rep.active = true → s.me.td = true) ∧ (s.me.priv = 0 ∨
      s.me.td = false)) :=
  ⟨⟨on tile { strand with status := 0x200001, trappc := 2 }, (by decide +kernel)⟩,
    ⟨on tile { strand with status := 0x200001, trappc := 2 }, _, rfl, (by decide +kernel)⟩,
    ⟨on tile strand, (by decide +kernel)⟩⟩

theorem test_hypotheses_SystemRegisterAccess :
    (∃ (s : State) (g : Guard) (n : BitVec 12), Clears s (ordinary g) ∧ sysAccess n.toNat = none) ∧
    (∃ (s : State) (g : Guard) (n : BitVec 12) (r : _) (w : _), Clears s (ordinary g) ∧ sysAccess n.toNat = some (r, w) ∧
      r ≤ s.me.priv) ∧
    (∃ (s : State) (g : Guard) (n : BitVec 12) (r : _) (w : _), Clears s (ordinary g) ∧ sysAccess n.toNat = some (r, w) ∧
      s.me.priv < r) ∧
    (∃ (s : State) (g : Guard) (n : BitVec 12) (r : _) (w : _) (l : _), Clears s (ordinary g) ∧ sysAccess n.toNat = some
      (r, w) ∧ w = some l ∧ s.me.priv < l) ∧
    (∃ (s : State) (g : Guard) (a : SReg) (n : BitVec 12) (r : _) (w : _), (∀ l, w = some l → l ≤ s.me.priv) ∧ Clears s
      (ordinary g) ∧ sysAccess n.toNat = some (r, w) ∧ s.me.tag a = true) ∧
    (∃ (s : State) (g : Guard) (a : SReg) (n : BitVec 12) (r : _) (w : _), Clears s (ordinary g) ∧ sysAccess n.toNat =
      some (r, w) ∧ w = none ∧ s.me.tag a = false) ∧
    (∃ (s : State) (g : Guard) (a : SReg) (n : BitVec 12) (r : _) (w : _) (l : _), Clears s (ordinary g) ∧ sysAccess
      n.toNat = some (r, w) ∧ w = some l ∧ l ≤ s.me.priv ∧ s.me.tag a = false) :=
  ⟨⟨on tile strand, Guard.always, 0x0C, (by unfold Clears; decide +kernel)⟩,
    ⟨on tile { strand with status := 1 }, Guard.always, 0x10B, 1, some 1, (by unfold Clears; decide +kernel)⟩,
    ⟨on tile strand, Guard.always, 0x10B, 1, some 1, (by unfold Clears; decide +kernel)⟩,
    ⟨on tile { strand with status := 2 }, Guard.always, 0x103, 0, some 3, 3, (by unfold Clears; decide +kernel)⟩,
    ⟨on tile { strand with stag := 2 ^ 4 }, Guard.always, 4, 0x100, 0, none, (fun _ h => by cases h),
      (by unfold Clears; decide +kernel)⟩,
    ⟨on tile strand, Guard.always, 4, 0x100, 0, none, (by unfold Clears; decide +kernel)⟩,
    ⟨steward firmware, Guard.always, 4, 0x103, 0, some 3, 3, (by unfold Clears; decide +kernel)⟩⟩

theorem test_hypotheses_SystemRegisters :
    (∃ (s : State) (x : Strand) (i : _), x = s.me ∧ i < 64) ∧
    (∃ (s : State) (x : Strand), x = s.me ∧ 1 ≤ x.priv) ∧
    (∃ (s : State) (x : Strand) (n : _), x = s.me ∧ x.priv = 0 ∧ n ∈ [1, 2, 3, 4, 5]) ∧
    (∃ (s : State) (x : Strand) (n : _), x = s.me ∧ n ∈ [7, 8, 9, 10, 11]) ∧
    (∃ (s : State) (T : Tile), T = s.myTile ∧ isSteward s.curTile = false) ∧
    (∃ (s : State) (T : Tile), T = s.myTile ∧ isSteward s.curTile = true) ∧
    (∃ (s : State) (v : Word) (T : Tile), T = s.myTile ∧ bitsOf v 12 10 < 0x380) ∧
    (∃ (s : State) (v : Word) (T : Tile), T = s.myTile ∧ 0x380 ≤ bitsOf v 12 10) ∧
    (∃ (s : State) (v : Word) (T : Tile) (p : _), T = s.myTile ∧ p = s.pkg.partid.toNat ∧ (∃ q, q < 64 ∧ q ≠ p ∧ (s.part
      q).qslotmap &&& v ≠ 0)) :=
  ⟨⟨on tile strand, _, 63, rfl, (by decide +kernel)⟩,
    ⟨on tile { strand with status := 1 }, _, rfl, (by decide +kernel)⟩,
    ⟨on tile strand, _, 5, rfl, (by decide +kernel)⟩,
    ⟨on tile strand, _, 11, rfl, (by decide +kernel)⟩,
    ⟨on tile strand, _, rfl, (by decide +kernel)⟩,
    ⟨steward firmware, _, rfl, (by decide +kernel)⟩,
    ⟨on tile strand, 0x37F000, _, rfl, (by decide +kernel)⟩,
    ⟨on tile strand, 0x380000, _, rfl, (by decide +kernel)⟩,
    ⟨on tile strand, 0x10, _, _, rfl, rfl, (by decide +kernel)⟩⟩

theorem test_hypotheses_SemaphoresAndWaking :
    (∃ (s : State) (g : Guard) (m : BitVec 8) (n : BitVec 8), Clears s (ordinary g) ∧ n.toNat ≤ (s.myTile.sem
      m.toNat).toNat) ∧
    (∃ (s : State) (g : Guard) (m : BitVec 8) (n : BitVec 8), Clears s (ordinary g) ∧ (s.myTile.sem m.toNat).toNat <
      n.toNat) ∧
    (∃ (s : State) (g : Guard), Clears s (ordinary g) ∧ 1 ≤ s.me.priv) ∧
    (∃ (s : State) (g : Guard), Clears s (ordinary g) ∧ s.me.priv = 0) ∧
    (∃ (s : State) (g : Guard) (m : BitVec 8) (n : BitVec 8), Clears s { ordinary g with msgOk := true } ∧ (s.myTile.sem
      m.toNat).toNat + n.toNat ≤ 65535) ∧
    (∃ (s : State) (g : Guard) (m : BitVec 8) (n : BitVec 8), Clears s { ordinary g with msgOk := true } ∧ 65535 <
      (s.myTile.sem m.toNat).toNat + n.toNat) ∧
    (∃ (s : State), Clears s (ordinary Guard.always) ∧ s.me.wt = true) ∧
    (∃ (s : State), Clears s (ordinary Guard.always) ∧ s.me.wt = false) ∧
    (∃ (s : State) (g : Guard) (n : BitVec 2) (run : _), (s.strand s.curTile n.toNat).run = run ∧ Clears s
      { ordinary g with msgOk := true } ∧ (run = .idle ∨ run = .stopped)) ∧
    (∃ (s : State) (g : Guard) (n : BitVec 2) (run : _), (s.strand s.curTile n.toNat).run = run ∧ (run = .ready ∨ (∃ w,
      run = .parked w ∧ w ≠ .park)) ∧ Clears s { ordinary g with msgOk := true }) ∧
    (∃ (s : State) (g : Guard) (n : BitVec 2) (run : _), (s.strand s.curTile n.toNat).run = run ∧ Clears s
      { ordinary g with msgOk := true } ∧ run = .ready ∧ n.toNat = s.curStrand) ∧
    (∃ (s : State) (g : Guard) (n : BitVec 2) (run : _) (x : Strand) (seq : Pc) (rest : List Fwd) (go : Pc × Rep),
      (s.strand s.curTile n.toNat).run = run ∧ (if s.myTile.follower = true ∧ x.listRoutine = true then ∃ f, x.fwdq =
      f :: rest ∧ seq = f.seq else seq = s.myTile.pcAfter x.pc (s.myTile.slotsAt x.pc) ∧ rest = x.fwdq) ∧ (go = (if
      x.td then (seq, x.rep) else x.rep.next seq)) ∧ Clears s { ordinary g with msgOk := true } ∧ run = .parked .park
      ∧ n.toNat ≠ s.curStrand ∧ x = s.strand s.curTile n.toNat) :=
  ⟨⟨on tile strand, Guard.always, 0, 0, (by unfold Clears; decide +kernel)⟩,
    ⟨on tile strand, Guard.always, 0, 1, (by unfold Clears; decide +kernel)⟩,
    ⟨on tile { strand with status := 1 }, Guard.always, (by unfold Clears; decide +kernel)⟩,
    ⟨on tile strand, Guard.always, (by unfold Clears; decide +kernel)⟩,
    ⟨{ on { tile with ctl := { sems := [(0, 65534)] } } strand with curStrand := 4 }, Guard.always, 0, 1,
      (by unfold Clears; decide +kernel)⟩,
    ⟨{ on { tile with ctl := { sems := [(0, 65534)] } } strand with curStrand := 4 }, Guard.always, 0, 2,
      (by unfold Clears; decide +kernel)⟩,
    ⟨on tile { strand with status := 2 ^ 33 }, (by unfold Clears; decide +kernel)⟩,
    ⟨on tile strand, (by unfold Clears; decide +kernel)⟩,
    ⟨on tile strand, Guard.always, 1, _, rfl, (by unfold Clears; decide +kernel)⟩,
    ⟨on tile strand, Guard.always, 0, _, rfl, .inl rfl, (by unfold Clears; decide +kernel)⟩,
    ⟨on tile strand, Guard.always, 0, _, rfl, (by unfold Clears; decide +kernel)⟩,
    ⟨{ on tile strand with tiles := [(0, { tile with strands := [(0, strand), (1, { pc := 2, run := .parked .park })] })] },
      Guard.always, 1, _, { pc := 2, run := .parked .park }, 4, [], _, rfl,
      (by rw [if_neg (by decide +kernel)]; exact ⟨(by decide +kernel), rfl⟩), rfl, (by unfold Clears; decide +kernel)⟩⟩

theorem test_hypotheses_LoadsFromTileMemory :
    (∃ (s : State) (g : Guard) (sz : Size) (d : SReg) (a : SReg) (imm : BitVec 15) (e : Nat), Reaches s a imm sz.bytes
      Region.readable e ∧ Clears s (inSet g [d, a])) ∧
    (∃ (s : State) (g : Guard) (sz : Size) (a : SReg) (imm : BitVec 15) (e : Nat), Reaches s a imm sz.bytes
      Region.readable e ∧ Clears s (ordinary g)) :=
  ⟨⟨on tile (with4 0x8000), Guard.always, .d, 3, 4, 0, 0x8000, (by unfold Clears Reaches; decide +kernel)⟩,
    ⟨on { tile with clines := 512 } (with4 0x8000), Guard.always, .b, 4, -1, 0x7FFF,
      (by unfold Clears Reaches; decide +kernel)⟩⟩

theorem test_hypotheses_TileMemoryViews :
    (∃ (a : Nat), a < 0x8000) ∧
    (∃ (T : Tile) (a : Nat), T.region a = .seg .v ∧ T.mem.deltas.find (lineOf a) = none) ∧
    (∃ (T : Tile) (a : Nat) (d : _), T.region a = .seg .v ∧ T.mem.deltas.find (lineOf a) = some d ∧ d.own.getLsbD (a %
      128) = true) ∧
    (∃ (T : Tile) (a : Nat) (d : _), T.region a = .seg .v ∧ T.mem.deltas.find (lineOf a) = some d ∧ d.own.getLsbD (a %
      128) = false) ∧
    (∃ (T : Tile) (a : Nat), T.region a = .seg .s) ∧
    (∃ (a : Nat), 0x40000 ≤ a) :=
  ⟨⟨0x7FFF, (by decide +kernel)⟩,
    ⟨vtile, 0xBFFF, (by decide +kernel)⟩,
    ⟨{ vtile with mem := { deltas := [(0, ⟨128, 1, 0, 0, 0⟩)] } }, 0x8000, ⟨128, 1, 0, 0, 0⟩, (by decide +kernel)⟩,
    ⟨{ vtile with mem := { deltas := [(0, ⟨128, 1, 0, 0, 0⟩)] } }, 0x8001, ⟨128, 1, 0, 0, 0⟩, (by decide +kernel)⟩,
    ⟨tile, 0x8000, (by decide +kernel)⟩,
    ⟨0x40000, (by decide +kernel)⟩⟩

theorem test_hypotheses_MemoryAccessChecks :
    (∃ (s : State) (g : Guard) (d : SReg) (a : SReg) (imm : BitVec 15) (ea : Int), ((s.me.rd a).toNat : Int) + imm.toInt =
      ea ∧ Clears s (inSet g [d, a]) ∧ s.me.tag a = true) ∧
    (∃ (s : State) (g : Guard) (sz : Size) (d : SReg) (a : SReg) (imm : BitVec 15) (ea : Int), ((s.me.rd a).toNat : Int) +
      imm.toInt = ea ∧ Clears s (inSet g [d, a]) ∧ s.me.tag a = false ∧ ea % (sz.bytes : Int) ≠ 0) ∧
    (∃ (s : State) (g : Guard) (sz : Size) (d : SReg) (a : SReg) (imm : BitVec 15) (ea : Int), ((s.me.rd a).toNat : Int) +
      imm.toInt = ea ∧ Clears s (inSet g [d, a]) ∧ s.me.tag a = false ∧ ea % (sz.bytes : Int) = 0 ∧ (ea < 0 ∨ 0x40000
      ≤ ea)) ∧
    (∃ (s : State) (g : Guard) (sz : Size) (d : SReg) (a : SReg) (imm : BitVec 15) (ea : Int) (e : Nat), ((s.me.rd
      a).toNat : Int) + imm.toInt = ea ∧ Clears s (inSet g [d, a]) ∧ s.me.tag a = false ∧ ea = e ∧ e < 0x40000 ∧ e %
      sz.bytes = 0 ∧ (s.myTile.region e).readable = false) ∧
    (∃ (s : State) (g : Guard) (sz : Size) (d : SReg) (a : SReg) (imm : BitVec 15) (ea : Int) (e : Nat), ((s.me.rd
      a).toNat : Int) + imm.toInt = ea ∧ Clears s (inSet g [d, a]) ∧ s.me.tag a = false ∧ ea = e ∧ e < 0x40000 ∧ e %
      sz.bytes = 0 ∧ s.storable (s.myTile.region e) = false) ∧
    (∃ (s : State) (g : Guard) (sz : Size) (d : SReg) (a : SReg) (imm : BitVec 15) (ea : Int) (e : Nat), ((s.me.rd
      a).toNat : Int) + imm.toInt = ea ∧ Clears s (inSet g [d, a]) ∧ s.me.tag a = false ∧ ea = e ∧ e < 0x40000 ∧ e %
      sz.bytes = 0 ∧ s.storable (s.myTile.region e) = true ∧ s.me.tag d = true) ∧
    (∃ (s : State) (g : Guard) (sz : Size) (d : SReg) (a : SReg) (imm : BitVec 15) (ea : Int) (e : Nat), ((s.me.rd
      a).toNat : Int) + imm.toInt = ea ∧ Clears s (inSet g [d, a]) ∧ s.me.tag a = false ∧ ea = e ∧ e < 0x40000 ∧ e %
      sz.bytes = 0 ∧ s.storable (s.myTile.region e) = true ∧ s.me.tag d = false ∧ s.myTile.gatedAt e = false ∧
      s.storePending s.curTile e = false ∧ (¬ HasDelta s.myTile e)) :=
  ⟨⟨on tile { strand with stag := 2 ^ 4 }, Guard.always, 3, 4, 0, _, rfl, (by unfold Clears; decide +kernel)⟩,
    ⟨on tile (with4 0x8001), Guard.always, .h, 3, 4, 0, _, rfl, (by unfold Clears; decide +kernel)⟩,
    ⟨on tile (with4 0x40000), Guard.always, .d, 3, 4, 0, _, rfl, (by unfold Clears; decide +kernel)⟩,
    ⟨on tile (with4 0x3FFF8), Guard.always, .d, 3, 4, 0, _, 0x3FFF8, rfl, (by unfold Clears; decide +kernel)⟩,
    ⟨on tile (with4 0x3FFF8), Guard.always, .d, 3, 4, 0, _, 0x3FFF8, rfl, (by unfold Clears; decide +kernel)⟩,
    ⟨on tile { with4 0xBFF8 with stag := 2 ^ 3 }, Guard.always, .d, 3, 4, 0, _, 0xBFF8, rfl,
      (by unfold Clears; decide +kernel)⟩,
    ⟨on { vtile with mem := { free := [] } } (with4 0x8000), Guard.always, .d, 3, 4, 0, _, 0x8000, rfl,
      (by unfold Clears HasDelta; decide +kernel)⟩⟩

theorem test_hypotheses_StoresToTileMemory :
    (∃ (s : State) (g : Guard) (sz : Size) (d : SReg) (a : SReg) (imm : BitVec 15) (e : Nat) (i : Instr), ((i = .st g sz d
      a imm ∧ Clears s (inSet g [d, a])) ∨ (i = .stv g sz d a imm ∧ Clears s (ordinary g))) ∧ Reaches s a imm sz.bytes
      s.storable e ∧ s.me.tag d = false ∧ FramesOk s.myTile ∧ HasDelta s.myTile e) :=
  ⟨on vtile (with4 0xBFF8), Guard.always, .d, 3, 4, 0, 0xBFF8, .st Guard.always .d 3 4 0, .inl ⟨rfl,
      (by unfold Clears; decide +kernel)⟩, (by unfold Reaches FramesOk HasDelta; decide +kernel)⟩

theorem test_hypotheses_FramesKept :
    (∃ (T : Tile), FramesOk T) ∧
    (∃ (T : Tile) (l : _) (d : _), FramesOk T ∧ (l, d) ∈ T.mem.deltas) ∧
    (∃ (T : Tile) (f : _), f ∈ T.mem.free ∧ FramesOk T) ∧
    (∃ (T : Tile) (l : _), FramesOk T ∧ l ∉ T.mem.deltas.map (·.1)) :=
  ⟨⟨vtile, (by unfold FramesOk; decide +kernel)⟩,
    ⟨{ vtile with mem := { deltas := [(0, ⟨128, 1, 0, 0, 0⟩)], free := [] } }, 0, ⟨128, 1, 0, 0, 0⟩,
      (by unfold FramesOk; decide +kernel)⟩,
    ⟨{ vtile with mem := { deltas := [(0, ⟨128, 1, 0, 0, 0⟩)], free := [129] } }, 129,
      (by unfold FramesOk; decide +kernel)⟩,
    ⟨vtile, 127, (by unfold FramesOk; decide +kernel)⟩⟩

theorem test_hypotheses_SynchronisingAccesses :
    (∃ (s : State) (g : Guard) (a : SReg) (imm : BitVec 15) (e : _), Clears s (ordinary g) ∧ Reaches s a imm 8 Region.isS
      e ∧ s.myTile.mem.full.getLsbD (wordIx e) = true) ∧
    (∃ (s : State) (g : Guard) (a : SReg) (imm : BitVec 15) (e : _), Clears s (ordinary g) ∧ Reaches s a imm 8 Region.isS
      e ∧ s.myTile.mem.full.getLsbD (wordIx e) = false) ∧
    (∃ (s : State) (g : Guard) (d : SReg) (a : SReg) (imm : BitVec 15) (e : _), Clears s (ordinary g) ∧ Reaches s a imm 8
      Region.isS e ∧ s.me.tag d = false ∧ s.storesLanded = true ∧ FramesOk s.myTile) ∧
    (∃ (s : State) (g : Guard) (d : SReg) (a : SReg) (imm : BitVec 15) (e : _), Clears s (ordinary g) ∧ Reaches s a imm 8
      Region.isS e ∧ s.me.tag d = false ∧ s.storesLanded = false) ∧
    (∃ (s : State) (g : Guard) (a : SReg) (imm : BitVec 15) (e : Nat), Clears s (ordinary g) ∧ s.me.tag a = false ∧
      ((s.me.rd a).toNat : Int) + imm.toInt = e ∧ e < 0x40000 ∧ e % 8 = 0 ∧ (s.myTile.region e).isS = false) :=
  ⟨⟨on { tile with mem := { full := 1 } } (with4 0x8000), Guard.always, 4, 0, 0x8000,
      (by unfold Clears Reaches; decide +kernel)⟩,
    ⟨on tile (with4 0x8000), Guard.always, 4, 0, 0x8000, (by unfold Clears Reaches; decide +kernel)⟩,
    ⟨on tile (with4 0x8000), Guard.always, 3, 4, 0, 0x8000, (by unfold Clears Reaches FramesOk; decide +kernel)⟩,
    ⟨{ on tile (with4 0x8000) with ists := [ist] }, Guard.always, 3, 4, 0, 0x8000,
      (by unfold Clears Reaches; decide +kernel)⟩,
    ⟨on tile strand, Guard.always, 4, 0, 0, (by unfold Clears; decide +kernel)⟩⟩

theorem test_hypotheses_FencesComplete :
    (∃ (s : State) (sc : _), Clears s (ordinary Guard.always) ∧ sc ∈ [Scope.s, Scope.t, Scope.c]) ∧
    (∃ (s : State) (sc : _), Clears s (ordinary Guard.always) ∧ sc ∈ [Scope.s, Scope.t, Scope.c] ∧ s.transfersDone = true) ∧
    (∃ (s : State) (sc : _), Clears s (ordinary Guard.always) ∧ sc ∈ [Scope.s, Scope.t, Scope.c] ∧ s.transfersDone =
      false) ∧
    (∃ (s : State) (sc : _), Clears s (ordinary Guard.always) ∧ sc ∈ [Scope.g, Scope.d, Scope.y] ∧ s.storesLanded = false) ∧
    (∃ (s : State) (sc : _), Clears s (ordinary Guard.always) ∧ sc ∈ [Scope.g, Scope.d, Scope.y] ∧ s.storesLanded = true ∧
      s.transfersDone = true) ∧
    (∃ (s : State) (sc : _), Clears s (ordinary Guard.always) ∧ sc ∈ [Scope.g, Scope.d, Scope.y] ∧ (s.storesLanded = false
      ∨ s.transfersDone = false)) :=
  ⟨⟨on tile strand, .s, (by unfold Clears; decide +kernel)⟩,
    ⟨on tile strand, .s, (by unfold Clears; decide +kernel)⟩,
    ⟨on { tile with xq := [xfer] } strand, .s, (by unfold Clears; decide +kernel)⟩,
    ⟨{ on tile (with4 0x8000) with ists := [ist] }, .g, (by unfold Clears; decide +kernel)⟩,
    ⟨on tile strand, .g, (by unfold Clears; decide +kernel)⟩,
    ⟨{ on tile (with4 0x8000) with ists := [ist] }, .g, (by unfold Clears; decide +kernel)⟩⟩

theorem test_hypotheses_ClusterAccess :
    (∃ (s : State) (g : Guard) (sz : Size) (d : SReg) (a : SReg) (imm : BitVec 15) (ea : Nat) (h : Nat) (e : Nat), Clears
      s (ordinary g) ∧ s.me.tag a = false ∧ ((s.me.rd a).toNat : Int) + imm.toInt = ea ∧ ea % sz.bytes = 0 ∧ ea <
      0x380000 ∧ s.fullCluster s.curTile = true ∧ s.memberTile s.curTile (ea / 128 % 16) = some h ∧ e = 0x8000 + ea /
      2048 * 128 + ea % 128 ∧ (s.myTile.region e).vs = true ∧ s.me.tag d = true) ∧
    (∃ (s : State) (g : Guard) (sz : Size) (a : SReg) (imm : BitVec 15) (ea : Nat) (h : Nat) (e : Nat), Clears s (ordinary
      g) ∧ s.me.tag a = false ∧ ((s.me.rd a).toNat : Int) + imm.toInt = ea ∧ ea % sz.bytes = 0 ∧ ea < 0x380000 ∧
      s.fullCluster s.curTile = true ∧ s.memberTile s.curTile (ea / 128 % 16) = some h ∧ e = 0x8000 + ea / 2048 * 128
      + ea % 128 ∧ (s.myTile.region e).vs = true ∧ s.behind s.curTile h = false ∧ (s.tile h).gatedAt e = false ∧
      s.storePending h e = false ∧ h = s.curTile) ∧
    (∃ (s : State) (g : Guard) (sz : Size) (a : SReg) (imm : BitVec 15) (ea : Nat) (h : Nat) (e : Nat), Clears s (ordinary
      g) ∧ s.me.tag a = false ∧ ((s.me.rd a).toNat : Int) + imm.toInt = ea ∧ ea % sz.bytes = 0 ∧ ea < 0x380000 ∧
      s.fullCluster s.curTile = true ∧ s.memberTile s.curTile (ea / 128 % 16) = some h ∧ e = 0x8000 + ea / 2048 * 128
      + ea % 128 ∧ (s.myTile.region e).vs = true ∧ s.behind s.curTile h = false ∧ (s.tile h).gatedAt e = false ∧
      s.storePending h e = false ∧ h ≠ s.curTile ∧ ((s.tile h).region e).vs = true) ∧
    (∃ (s : State) (g : Guard) (sz : Size) (a : SReg) (imm : BitVec 15) (ea : Nat) (h : Nat) (e : Nat), Clears s (ordinary
      g) ∧ s.me.tag a = false ∧ ((s.me.rd a).toNat : Int) + imm.toInt = ea ∧ ea % sz.bytes = 0 ∧ ea < 0x380000 ∧
      s.fullCluster s.curTile = true ∧ s.memberTile s.curTile (ea / 128 % 16) = some h ∧ e = 0x8000 + ea / 2048 * 128
      + ea % 128 ∧ (s.myTile.region e).vs = true ∧ s.behind s.curTile h = false ∧ (s.tile h).gatedAt e = false ∧
      s.storePending h e = false ∧ h ≠ s.curTile ∧ ((s.tile h).region e).vs = false ∧ isSteward h = false) ∧
    (∃ (s : State) (g : Guard) (sz : Size) (d : SReg) (a : SReg) (imm : BitVec 15) (ea : Nat) (h : Nat) (e : Nat), Clears
      s (ordinary g) ∧ s.me.tag a = false ∧ ((s.me.rd a).toNat : Int) + imm.toInt = ea ∧ ea % sz.bytes = 0 ∧ ea <
      0x380000 ∧ s.fullCluster s.curTile = true ∧ s.memberTile s.curTile (ea / 128 % 16) = some h ∧ e = 0x8000 + ea /
      2048 * 128 + ea % 128 ∧ (s.myTile.region e).vs = true ∧ s.behind s.curTile h = false ∧ (s.tile h).gatedAt e =
      false ∧ s.storePending h e = false ∧ s.me.tag d = false ∧ h = s.curTile ∧ FramesOk s.myTile ∧ HasDelta s.myTile
      e) ∧
    (∃ (s : State) (g : Guard) (sz : Size) (d : SReg) (a : SReg) (imm : BitVec 15) (ea : Nat) (h : Nat) (e : Nat), Clears
      s (ordinary g) ∧ s.me.tag a = false ∧ ((s.me.rd a).toNat : Int) + imm.toInt = ea ∧ ea % sz.bytes = 0 ∧ ea <
      0x380000 ∧ s.fullCluster s.curTile = true ∧ s.memberTile s.curTile (ea / 128 % 16) = some h ∧ e = 0x8000 + ea /
      2048 * 128 + ea % 128 ∧ (s.myTile.region e).vs = true ∧ s.behind s.curTile h = false ∧ (s.tile h).gatedAt e =
      false ∧ s.storePending h e = false ∧ s.me.tag d = false ∧ h = s.curTile ∧ FramesOk s.myTile ∧ (¬ HasDelta
      s.myTile e)) ∧
    (∃ (s : State) (g : Guard) (sz : Size) (d : SReg) (a : SReg) (imm : BitVec 15) (ea : Nat) (h : Nat) (e : Nat), Clears
      s (ordinary g) ∧ s.me.tag a = false ∧ ((s.me.rd a).toNat : Int) + imm.toInt = ea ∧ ea % sz.bytes = 0 ∧ ea <
      0x380000 ∧ s.fullCluster s.curTile = true ∧ s.memberTile s.curTile (ea / 128 % 16) = some h ∧ e = 0x8000 + ea /
      2048 * 128 + ea % 128 ∧ (s.myTile.region e).vs = true ∧ s.behind s.curTile h = false ∧ (s.tile h).gatedAt e =
      false ∧ s.storePending h e = false ∧ s.me.tag d = false ∧ h ≠ s.curTile ∧ ((s.tile h).region e).vs = false ∧
      isSteward h = false) ∧
    (∃ (s : State) (g : Guard) (sz : Size) (d : SReg) (a : SReg) (imm : BitVec 15) (ea : Nat) (h : Nat) (e : Nat), Clears
      s (ordinary g) ∧ s.me.tag a = false ∧ ((s.me.rd a).toNat : Int) + imm.toInt = ea ∧ ea % sz.bytes = 0 ∧ ea <
      0x380000 ∧ s.fullCluster s.curTile = true ∧ s.memberTile s.curTile (ea / 128 % 16) = some h ∧ e = 0x8000 + ea /
      2048 * 128 + ea % 128 ∧ (s.myTile.region e).vs = true ∧ s.behind s.curTile h = false ∧ (s.tile h).gatedAt e =
      false ∧ s.storePending h e = false ∧ s.me.tag d = false ∧ h ≠ s.curTile ∧ (((s.tile h).region e).isV = true →
      s.commitAhead s.curTile h s.netOrd = false) ∧ FramesOk (s.tile h) ∧ ((s.tile h).region e).vs = true ∧ HasDelta
      (s.tile h) e) ∧
    (∃ (s : State) (g : Guard) (sz : Size) (d : SReg) (a : SReg) (imm : BitVec 15) (ea : Nat) (h : Nat) (e : Nat), Clears
      s (ordinary g) ∧ s.me.tag a = false ∧ ((s.me.rd a).toNat : Int) + imm.toInt = ea ∧ ea % sz.bytes = 0 ∧ ea <
      0x380000 ∧ s.fullCluster s.curTile = true ∧ s.memberTile s.curTile (ea / 128 % 16) = some h ∧ e = 0x8000 + ea /
      2048 * 128 + ea % 128 ∧ (s.myTile.region e).vs = true ∧ s.behind s.curTile h = false ∧ (s.tile h).gatedAt e =
      false ∧ s.storePending h e = false ∧ s.me.tag d = false ∧ h ≠ s.curTile ∧ (((s.tile h).region e).isV = true →
      s.commitAhead s.curTile h s.netOrd = false) ∧ FramesOk (s.tile h) ∧ ((s.tile h).region e).vs = true ∧ (¬
      HasDelta (s.tile h) e) ∧ isSteward h = false) ∧
    (∃ (s : State) (g : Guard) (sz : Size) (a : SReg) (imm : BitVec 15) (ea : Int) (base : Nat), Clears s (ordinary g) ∧
      s.me.tag a = false ∧ ((s.me.rd a).toNat : Int) + imm.toInt = ea ∧ base = s.myTile.ctl.evbase.toNat ∧ ea %
      (sz.bytes : Int) ≠ 0) ∧
    (∃ (s : State) (g : Guard) (sz : Size) (a : SReg) (imm : BitVec 15) (ea : Int) (base : Nat), Clears s (ordinary g) ∧
      s.me.tag a = false ∧ ((s.me.rd a).toNat : Int) + imm.toInt = ea ∧ base = s.myTile.ctl.evbase.toNat ∧ ea %
      (sz.bytes : Int) = 0 ∧ (s.fullCluster s.curTile = false ∨ ea < 0 ∨ (0x380000 ≤ ea ∧ (ea < base ∨ base + 0x1000 ≤
      ea)) ∨ (0 ≤ ea ∧ ea < 0x380000 ∧ (s.myTile.region (0x8000 + ea.toNat / 2048 * 128 + ea.toNat % 128)).vs =
      false))) ∧
    (∃ (s : State) (g : Guard) (sz : Size) (a : SReg) (imm : BitVec 15) (ea : Int) (base : Nat), Clears s (ordinary g) ∧
      s.me.tag a = false ∧ ((s.me.rd a).toNat : Int) + imm.toInt = ea ∧ base = s.myTile.ctl.evbase.toNat ∧ ea %
      (sz.bytes : Int) = 0 ∧ 0x380000 ≤ ea) ∧
    (∃ (s : State) (g : Guard) (sz : Size) (a : SReg) (imm : BitVec 15) (ea : Int) (base : Nat), Clears s (ordinary g) ∧
      s.me.tag a = false ∧ ((s.me.rd a).toNat : Int) + imm.toInt = ea ∧ base = s.myTile.ctl.evbase.toNat ∧ ea %
      (sz.bytes : Int) = 0 ∧ 0x380000 ≤ ea ∧ sz ≠ .d) ∧
    (∃ (s : State) (g : Guard) (a : SReg), Clears s (ordinary g) ∧ s.me.tag a = true) :=
  ⟨⟨pair tile tile { with4 128 with stag := 2 ^ 3 }, Guard.always, .d, 3, 4, 0, 128, 1, 0x8000,
      (by unfold Clears; decide +kernel)⟩,
    ⟨pair tile tile strand, Guard.always, .d, 4, 0, 0, 0, 0x8000, (by unfold Clears; decide +kernel)⟩,
    ⟨pair tile tile (with4 128), Guard.always, .d, 4, 0, 128, 1, 0x8000, (by unfold Clears; decide +kernel)⟩,
    ⟨pair tile { tile with ctl := { memcfg := 2 } } (with4 128), Guard.always, .d, 4, 0, 128, 1, 0x8000,
      (by unfold Clears; decide +kernel)⟩,
    ⟨pair vtile vtile strand, Guard.always, .d, 3, 4, 0, 0, 0, 0x8000,
      (by unfold Clears FramesOk HasDelta; decide +kernel)⟩,
    ⟨pair { vtile with mem := { free := [] } } vtile strand, Guard.always, .d, 3, 4, 0, 0, 0, 0x8000,
      (by unfold Clears FramesOk HasDelta; decide +kernel)⟩,
    ⟨pair tile { tile with ctl := { memcfg := 2 } } (with4 128), Guard.always, .d, 3, 4, 0, 128, 1, 0x8000,
      (by unfold Clears; decide +kernel)⟩,
    ⟨pair tile tile (with4 128), Guard.always, .d, 3, 4, 0, 128, 1, 0x8000,
      (by unfold Clears FramesOk HasDelta; decide +kernel)⟩,
    ⟨pair vtile { vtile with mem := { free := [] } } (with4 128), Guard.always, .d, 3, 4, 0, 128, 1, 0x8000,
      (by unfold Clears FramesOk HasDelta; decide +kernel)⟩,
    ⟨pair tile tile (with4 0x37FFFF), Guard.always, .h, 4, 0, 0x37FFFF, 0x380000, (by unfold Clears; decide +kernel)⟩,
    ⟨on tile strand, Guard.always, .d, 4, -8, -8, 0x380000, (by unfold Clears; decide +kernel)⟩,
    ⟨on tile (with4 0x380000), Guard.always, .w, 4, 0, 0x380000, 0x380000, (by unfold Clears; decide +kernel)⟩,
    ⟨on tile (with4 0x380000), Guard.always, .w, 4, 0, 0x380000, 0x380000, (by unfold Clears; decide +kernel)⟩,
    ⟨on tile { strand with stag := 2 ^ 4 }, Guard.always, 4, (by unfold Clears; decide +kernel)⟩⟩

theorem test_hypotheses_MessageSend :
    (∃ (s : State) (g : Guard) (a : SReg) (e : Nat) (dest : Nat) (q : Gang), dest = bitsOf (s.myTile.descriptor e) 9 23 ∧
      Clears s (ordinary g) ∧ s.me.tag a = false ∧ (s.me.rd a).toNat = e ∧ e < 0x40000 ∧ e % 64 = 0 ∧ s.myTile.rangeIs
      Region.vs e 64 = true ∧ s.myTile.gatedAt e = false ∧ s.sourceReady s.curTile s.curStrand e 64 = true ∧ s.gangOf
      s.curTile = some q ∧ s.myTile.readPoison e 64 = true) ∧
    (∃ (s : State) (g : Guard) (a : SReg) (e : Nat) (dest : Nat) (q : Gang), dest = bitsOf (s.myTile.descriptor e) 9 23 ∧
      Clears s (ordinary g) ∧ s.me.tag a = false ∧ (s.me.rd a).toNat = e ∧ e < 0x40000 ∧ e % 64 = 0 ∧ s.myTile.rangeIs
      Region.vs e 64 = true ∧ s.myTile.gatedAt e = false ∧ s.sourceReady s.curTile s.curStrand e 64 = true ∧ s.gangOf
      s.curTile = some q ∧ s.myTile.readPoison e 64 = false ∧ q.size ≤ dest) ∧
    (∃ (s : State) (g : Guard) (a : SReg) (e : Nat) (dest : Nat) (h : Nat) (q : Gang), dest = bitsOf (s.myTile.descriptor
      e) 9 23 ∧ Clears s (ordinary g) ∧ s.me.tag a = false ∧ (s.me.rd a).toNat = e ∧ e < 0x40000 ∧ e % 64 = 0 ∧
      s.myTile.rangeIs Region.vs e 64 = true ∧ s.myTile.gatedAt e = false ∧ s.sourceReady s.curTile s.curStrand e 64 =
      true ∧ s.gangOf s.curTile = some q ∧ s.myTile.readPoison e 64 = false ∧ dest < q.size ∧ q.tileAt dest = some h ∧
      ((s.myTile.descriptor e).getLsbD 2 = true → s.mailLoad h < 16)) :=
  ⟨⟨on { tile with mem := { poison := 1 } } (with4 0x8000), Guard.always, 4, 0x8000, _, gang, rfl,
      (by unfold Clears; decide +kernel)⟩,
    ⟨on { tile with mem := { bytes := [(1, 0x20)] } } (with4 0x8000), Guard.always, 4, 0x8000, _, gang, rfl,
      (by unfold Clears; decide +kernel)⟩,
    ⟨on tile (with4 0x8000), Guard.always, 4, 0x8000, _, 0, gang, rfl, (by unfold Clears; decide +kernel)⟩⟩

theorem test_hypotheses_VectorLoads :
    (∃ (s : State) (g : Guard) (r : SReg) (imm : BitVec 11) (ea : Nat), Clears s (ordinary g) ∧ s.me.active g ≠ 0 ∧
      s.me.tag r = false ∧ ((s.me.rd r).toNat : Int) + 8 * imm.toInt = ea ∧ ea % 8 = 0 ∧ (LanesReach s g (fun i => ea
      + 4 * i) Region.readable)) ∧
    (∃ (s : State) (g : Guard), Clears s (ordinary g) ∧ s.me.active g = 0) ∧
    (∃ (s : State) (g : Guard) (slot : BitVec 6) (imm : BitVec 11), Clears s (ordinary g) ∧ s.me.active g = 0 ∧
      (s.myTile.bale slot.toNat).state = 2 ∧ 32 * imm.toNat + 256 ≤ (s.myTile.bale slot.toNat).bytes) ∧
    (∃ (s : State) (g : Guard) (k : BitVec 3) (ea : Nat), Clears s (ordinary g) ∧ s.me.active g ≠ 0 ∧ bitsOf (s.me.krd k)
      0 18 = ea ∧ ea % 8 = 0 ∧ (LanesReach s g (fun i => ea + 4 * i) Region.readable)) ∧
    (∃ (s : State) (g : Guard) (slot : BitVec 6) (imm : BitVec 11) (ea : Nat), Clears s (ordinary g) ∧ s.me.active g ≠ 0 ∧
      (s.myTile.bale slot.toNat).state = 2 ∧ 32 * imm.toNat + 256 ≤ (s.myTile.bale slot.toNat).bytes ∧ ea =
      (s.myTile.bale slot.toNat).addr + 32 * imm.toNat ∧ (LanesReach s g (fun i => ea + 4 * i) Region.readable)) ∧
    (∃ (s : State) (g : Guard) (va : VReg) (r : SReg) (addr : Nat → Nat), (∀ i, addr i = (s.me.rd r).toNat + (lane
      (s.me.vrd va) i).toNat) ∧ Clears s (ordinary g) ∧ s.me.active g ≠ 0 ∧ s.me.tag r = false ∧ (∀ i, i < 64 →
      (s.me.active g).getLsbD i = true → (s.me.vt va).getLsbD i = false) ∧ (∀ i, i < 64 → (s.me.active g).getLsbD i =
      true → addr i % 4 = 0) ∧ LanesReach s g addr Region.readable) :=
  ⟨⟨on tile (with4 0x8000), Guard.always, 4, 0, 0x8000, (by unfold Clears LanesReach; decide +kernel)⟩,
    ⟨on tile (with4 0x8000), noLane, (by unfold Clears; decide +kernel)⟩,
    ⟨on { tile with ctl := { tile.ctl with bales := [(0, { state := 2, offset := 256, size := 1 })] } } strand, noLane, 0,
      0, (by unfold Clears; decide +kernel)⟩,
    ⟨on tile { strand with k := [(0, 0x8000)] }, Guard.always, 0, 0x8000, (by unfold Clears LanesReach; decide +kernel)⟩,
    ⟨on { tile with ctl := { tile.ctl with bales := [(0, { state := 2, offset := 256, size := 1 })] } } strand,
      Guard.always, 0, 0, 0x8000, (by unfold Clears LanesReach; decide +kernel)⟩,
    ⟨on tile (with4 0x8000), Guard.always, 2, 4, _, fun _ => rfl, (by unfold Clears LanesReach; decide +kernel)⟩⟩

theorem test_hypotheses_VectorStores :
    (∃ (s : State) (g : Guard), Clears s (ordinary g) ∧ s.me.active g = 0) ∧
    (∃ (s : State) (g : Guard) (slot : BitVec 6) (imm : BitVec 11), Clears s (ordinary g) ∧ s.me.active g = 0 ∧
      (s.myTile.bale slot.toNat).state = 2 ∧ 32 * imm.toNat + 256 ≤ (s.myTile.bale slot.toNat).bytes) ∧
    (∃ (s : State) (g : Guard) (vd : VReg) (r : SReg) (imm : BitVec 11) (ea : Nat), (LanesReach s g (fun i => ea + 4 * i)
      Region.vs) ∧ (LanesStorable s g vd (fun i => ea + 4 * i)) ∧ Clears s (ordinary g) ∧ s.me.active g ≠ 0 ∧ FramesOk
      s.myTile ∧ s.me.tag r = false ∧ ((s.me.rd r).toNat : Int) + 8 * imm.toInt = ea ∧ ea % 8 = 0) ∧
    (∃ (s : State) (g : Guard) (vd : VReg) (k : BitVec 3) (ea : Nat), (LanesReach s g (fun i => ea + 4 * i) Region.vs) ∧
      (LanesStorable s g vd (fun i => ea + 4 * i)) ∧ Clears s (ordinary g) ∧ s.me.active g ≠ 0 ∧ FramesOk s.myTile ∧
      bitsOf (s.me.krd k) 0 18 = ea ∧ ea % 8 = 0) ∧
    (∃ (s : State) (g : Guard) (vd : VReg) (slot : BitVec 6) (imm : BitVec 11) (ea : Nat), (LanesReach s g (fun i => ea +
      4 * i) Region.vs) ∧ (LanesStorable s g vd (fun i => ea + 4 * i)) ∧ Clears s (ordinary g) ∧ s.me.active g ≠ 0 ∧
      FramesOk s.myTile ∧ (s.myTile.bale slot.toNat).state = 2 ∧ 32 * imm.toNat + 256 ≤ (s.myTile.bale
      slot.toNat).bytes ∧ ea = (s.myTile.bale slot.toNat).addr + 32 * imm.toNat) ∧
    (∃ (s : State) (g : Guard) (vd : VReg) (va : VReg) (r : SReg) (addr : Nat → Nat), (∀ i, addr i = (s.me.rd r).toNat +
      (lane (s.me.vrd va) i).toNat) ∧ LanesReach s g addr Region.vs ∧ LanesStorable s g vd addr ∧ Clears s (ordinary
      g) ∧ s.me.active g ≠ 0 ∧ FramesOk s.myTile ∧ s.me.tag r = false ∧ (∀ i, i < 64 → (s.me.active g).getLsbD i =
      true → (s.me.vt va).getLsbD i = false) ∧ (∀ i, i < 64 → (s.me.active g).getLsbD i = true → addr i % 4 = 0)) :=
  ⟨⟨on vtile (with4 0x8000), noLane, (by unfold Clears; decide +kernel)⟩,
    ⟨on { vtile with ctl := { vtile.ctl with bales := [(0, { state := 2, offset := 256, size := 1 })] } } strand, noLane,
      0, 0, (by unfold Clears; decide +kernel)⟩,
    ⟨on vtile (with4 0x8000), Guard.always, 1, 4, 0, 0x8000, (by unfold LanesReach; decide +kernel),
      (by unfold LanesStorable; decide +kernel), (by unfold Clears FramesOk; decide +kernel)⟩,
    ⟨on vtile { strand with k := [(0, 0x8000)] }, Guard.always, 1, 0, 0x8000, (by unfold LanesReach; decide +kernel),
      (by unfold LanesStorable; decide +kernel), (by unfold Clears FramesOk; decide +kernel)⟩,
    ⟨on { vtile with ctl := { vtile.ctl with bales := [(0, { state := 2, offset := 256, size := 1 })] } } strand,
      Guard.always, 1, 0, 0, 0x8000, (by unfold LanesReach; decide +kernel),
      (by unfold LanesStorable; decide +kernel), (by unfold Clears FramesOk; decide +kernel)⟩,
    ⟨on vtile (with4 0x8000), Guard.always, 1, 2, 4, _, fun _ => rfl, (by unfold LanesReach; decide +kernel),
      (by unfold LanesStorable; decide +kernel), (by unfold Clears FramesOk; decide +kernel)⟩⟩

theorem test_hypotheses_VectorMoves :
    (∃ (s : State) (g : Guard) (ln : BitVec 6), Clears s (ordinary g) ∧ (s.me.active g).getLsbD ln.toNat = true) ∧
    (∃ (s : State) (g : Guard) (ln : BitVec 6), Clears s (ordinary g) ∧ (s.me.active g).getLsbD ln.toNat = false) :=
  ⟨⟨on tile strand, Guard.always, 63, (by unfold Clears; decide +kernel)⟩,
    ⟨on tile strand, noLane, 63, (by unfold Clears; decide +kernel)⟩⟩

theorem test_hypotheses_VectorFloat :
    (∃ (s : State) (g : Guard) (rm : BitVec 3) (fa : Nat) (w : Nat) (mode : Nat) (F : FloatFmt) (x : VReg → Nat → XVal) (R
      : XVal × Flags → Nat × Flags), fa = (pairOf s floatPairs).1 ∧ F = layout fa ∧ w = fmtWidth fa ∧ (mode = (if rm =
      7 then s.me.rm else rm.toNat)) ∧ (∀ v e, x v e = F.value (s.me.elem w v e)) ∧ (∀ r, R r = roundedTo F mode
      s.myTile.ctl.seed r) ∧ Clears s (formatted g floatPairs)) ∧
    (∃ (mode : Nat) (a : XVal) (b : XVal) (c : XVal) (np : Bool) (nc : Bool) (p : _) (r : _), p = a.mul b ∧ (r = sumX mode
      [if np then p.1.neg else p.1, if nc then c.neg else c])) ∧
    (∃ (F : FloatFmt), F ∈ [fp32, fp16, bf16, e8m10]) ∧
    (∃ (F : FloatFmt) (x : Nat) (y : Nat), F ∈ [fp32, fp16, bf16, e8m10] ∧ x < 2 ^ (1 + F.exp + F.frac) ∧ y < 2 ^ (1 +
      F.exp + F.frac)) ∧
    (∃ (F : FloatFmt) (neg : Bool) (exp : Nat) (frac : Nat) (b : Nat), F ∈ [fp32, fp16, bf16, e8m10] ∧ b = F.sign neg +
      exp * 2 ^ F.frac + frac ∧ exp < 2 ^ F.exp ∧ frac < 2 ^ F.frac) ∧
    (∃ (F : FloatFmt) (neg : Bool) (exp : Nat) (frac : Nat) (b : Nat), F ∈ [fp32, fp16, bf16, e8m10] ∧ b = F.sign neg +
      exp * 2 ^ F.frac + frac ∧ exp < 2 ^ F.exp ∧ frac < 2 ^ F.frac ∧ exp = 2 ^ F.exp - 1 ∧ frac ≠ 0) ∧
    (∃ (F : FloatFmt) (neg : Bool) (exp : Nat) (frac : Nat) (b : Nat), F ∈ [fp32, fp16, bf16, e8m10] ∧ b = F.sign neg +
      exp * 2 ^ F.frac + frac ∧ exp < 2 ^ F.exp ∧ frac < 2 ^ F.frac ∧ (exp ≠ 2 ^ F.exp - 1 ∨ frac = 0)) :=
  ⟨⟨on tile strand, Guard.always, 7, _, _, _, _, _, _, rfl, rfl, rfl, rfl, fun _ _ => rfl, fun _ => rfl,
      (by unfold Clears; decide +kernel)⟩,
    ⟨0, .inf true, .fin false 0 0 false, .nan true, true, false, _, _, rfl, rfl⟩,
    ⟨e8m10, (by simp)⟩,
    ⟨bf16, 0xFFFF, 0x8000, (by simp), (by decide +kernel)⟩,
    ⟨fp16, true, 30, 1023, _, (by simp), rfl, (by decide +kernel)⟩,
    ⟨fp16, false, 31, 1023, _, (by simp), rfl, (by decide +kernel)⟩,
    ⟨fp16, true, 30, 1023, _, (by simp), rfl, (by decide +kernel)⟩⟩

theorem test_hypotheses_VectorCompare :
    (∃ (s : State) (g : Guard) (cc : VCond) (va : VReg) (vb : VReg) (fa : Nat) (r : Nat → Bool × Bool), (∀ e, r e =
      compareElem fa cc (s.me.elem (fmtWidth fa) va e) (s.me.elem (fmtWidth fa) vb e)) ∧ (Clears s
      { head := 0, guard := g, formats := some ⟨fun a b => a == b && (decide (a ≤ 2) || decide (a = 11)), 0, 0⟩ }) ∧
      (fa = (pairOf s ⟨fun a b => a == b && (decide (a ≤ 2) || decide (a = 11)), 0, 0⟩).1)) ∧
    (∃ (fa : Nat) (a : Nat) (b : Nat), fa ≤ 2 ∧ (((layout fa).value a).isNan = true ∨ ((layout fa).value b).isNan = true)) ∧
    (∃ (fa : Nat) (a : Nat) (b : Nat), fa ≤ 2 ∧ ((layout fa).value a).isNan = false ∧ ((layout fa).value b).isNan = false) :=
  ⟨⟨on tile strand, Guard.always, .eq, 2, 3, 0, _, fun _ => rfl, (by unfold Clears; decide +kernel)⟩,
    ⟨0, 0x7FC00000, 0, (by decide +kernel)⟩,
    ⟨0, 0x7F800000, 0, (by decide +kernel)⟩⟩

theorem test_hypotheses_VectorIntegers :
    (∃ (s : State) (g : Guard) (fa : Nat) (w : Nat) (i : VReg → Nat → Int), fa = (pairOf s intPairs).1 ∧ w = fmtWidth fa ∧
      (∀ v e, i v e = intValue fa (s.me.elem w v e)) ∧ Clears s (formatted g intPairs)) ∧
    (∃ (s : State) (g : Guard), Clears s (ordinary g)) :=
  ⟨⟨on tile strand, Guard.always, _, _, _, rfl, rfl, fun _ _ => rfl, (by unfold Clears; decide +kernel)⟩,
    ⟨on tile strand, Guard.always, (by unfold Clears; decide +kernel)⟩⟩

theorem test_hypotheses_ReductionsAndConversions :
    (∃ (s : State) (g : Guard) (va : VReg) (F : Formats) (fa : Nat) (w : Nat) (leaf : Nat → Option Nat × Flags), (F = ⟨fun
      a b => decide (b = 0) && [0, 1, 2, 4, 5, 7, 8, 10].contains a, 0, 0⟩) ∧ fa = (pairOf s F).1 ∧ w = fmtWidth fa ∧
      (∀ e, leaf e = if (s.me.active g).getLsbD (w * e / 32) then (some (fp32.round (decodeElem s.myTile.tabs fa
      (s.me.elem w va e)) 0 0).1, (fp32.round (decodeElem s.myTile.tabs fa (s.me.elem w va e)) 0 0).2) else (none,
      {})) ∧ Clears s (formatted g F) ∧ (∀ b ∈ boundTables fa 0, s.myTile.swapping b = false)) ∧
    (∃ (s : State) (g : Guard) (op : RedOp) (rm : BitVec 3) (F : Formats) (fa : Nat) (step : Option Nat → Nat → Nat ×
      Flags), (F = ⟨fun a b => a == b && (decide (a = 0) || decide (a = 11)), 0, 0⟩) ∧ (∀ a, step none a = if fa = 11
      then (a, {}) else fp32.round (fp32.value a) (s.me.rmOf rm) s.myTile.ctl.seed) ∧ (∀ v a, step (some v) a = if fa
      = 11 then int32Node op v a else fp32Node op (s.me.rmOf rm) s.myTile.ctl.seed v a) ∧ Clears s (formatted g F) ∧
      fa = (pairOf s F).1) ∧
    (∃ (s : State) (g : Guard) (fa : Nat) (fb : Nat), (fa, fb) = pairOf s dotPairs ∧ Clears s (formatted g dotPairs) ∧ (∀
      b ∈ boundTables fa fb, s.myTile.swapping b = false)) ∧
    (∃ (s : State) (g : Guard) (F : Formats) (fa : Nat) (fb : Nat) (n : Nat), (F = ⟨fun a b => decide (a ≤ 11) && decide
      (a ≠ 3) && decide (b ≤ 11) && decide (b ≠ 3), 11, 0⟩) ∧ (fa, fb) = pairOf s F ∧ n = min (2048 / fmtWidth fa)
      (2048 / fmtWidth fb) ∧ Clears s (formatted g F) ∧ (∀ b ∈ boundTables fa fb, s.myTile.swapping b = false) ∧ (∀ b
      ∈ boundTables 0 fb, encodable (s.myTile.tabs.of b) = true)) ∧
    (∃ (s : State) (g : Guard) (F : Formats) (fa : Nat) (fb : Nat) (n : Nat) (b : _), (F = ⟨fun a b => decide (a ≤ 11) &&
      decide (a ≠ 3) && decide (b ≤ 11) && decide (b ≠ 3), 11, 0⟩) ∧ (fa, fb) = pairOf s F ∧ n = min (2048 / fmtWidth
      fa) (2048 / fmtWidth fb) ∧ Clears s (formatted g F) ∧ (∀ b ∈ boundTables fa fb, s.myTile.swapping b = false) ∧
      boundTables 0 fb = [b] ∧ encodable (s.myTile.tabs.of b) = false) ∧
    (∃ (s : State) (g : Guard) (vc : VReg) (F : Formats) (fa : Nat) (fb : Nat) (n : Nat) (b : _), (F = ⟨fun a b => (decide
      (a = 12) && decide (b ≤ 2)) || (decide (b = 12) && decide (a ≤ 2)), 12, 0⟩) ∧ (fa, fb) = pairOf s F ∧ n = min
      (2048 / fmtWidth fa) (2048 / fmtWidth fb) ∧ Clears s (formatted g F) ∧ (∀ b ∈ s.me.blockTables vc (n / 32),
      s.myTile.swapping b = false) ∧ fb = 12 ∧ b ∈ s.me.blockTables vc (n / 32) ∧ encodable (s.myTile.tabs.of b) =
      false ∧ (b = true → false ∈ s.me.blockTables vc (n / 32) → encodable (s.myTile.tabs.of false) = true)) ∧
    (∃ (s : State) (g : Guard) (vc : VReg) (F : Formats) (fa : Nat) (fb : Nat) (n : Nat), (F = ⟨fun a b => (decide (a =
      12) && decide (b ≤ 2)) || (decide (b = 12) && decide (a ≤ 2)), 12, 0⟩) ∧ (fa, fb) = pairOf s F ∧ n = min (2048 /
      fmtWidth fa) (2048 / fmtWidth fb) ∧ Clears s (formatted g F) ∧ (∀ b ∈ s.me.blockTables vc (n / 32),
      s.myTile.swapping b = false) ∧ (fb = 12 → ∀ b ∈ s.me.blockTables vc (n / 32), encodable (s.myTile.tabs.of b) =
      true)) ∧
    (∃ (t : Tabs) (fa : Nat) (mode : Nat) (a : Nat) (b : Nat) (c : Nat) (w : Nat) (seed : Word) (ps : List (XVal × Flags))
      (r : _ × Flags) (q : _ × Flags), w = fmtWidth fa ∧ (ps = (List.range (32 / w)).map (fun e => (decodeElem t fa
      (element a w e)).mul (decodeElem t fa (element b w e)))) ∧ r = sumX mode (ps.map (·.1) ++ [fp32.value c]) ∧ q =
      fp32.round r.1 mode seed) ∧
    (∃ (t : Tabs) (fa : Nat) (fb : Nat) (mode : Nat) (a : Nat) (b : Nat) (c : Nat) (w : Nat) (seed : Word) (ps : List
      (XVal × Flags)) (r : _ × Flags) (q : _ × Flags), w = fmtWidth fa ∧ (ps = (List.range (32 / w)).map (fun e =>
      (decodeElem t fa (element a w e)).mul (decodeElem t fa (element b w e)))) ∧ r = sumX mode (ps.map (·.1) ++
      [fp32.value c]) ∧ q = fp32.round r.1 mode seed ∧ fb ≠ 11) ∧
    (∃ (t : Tabs) (fa : Nat) (fb : Nat) (mode : Nat) (a : Nat) (b : Nat) (c : Nat) (w : Nat) (seed : Word) (ps : List
      (XVal × Flags)) (r : _ × Flags) (q : _ × Flags) (i : _), w = fmtWidth fa ∧ (ps = (List.range (32 / w)).map (fun
      e => (decodeElem t fa (element a w e)).mul (decodeElem t fa (element b w e)))) ∧ r = sumX mode (ps.map (·.1) ++
      [fp32.value c]) ∧ q = fp32.round r.1 mode seed ∧ fb ≠ 11 ∧ i < 5) ∧
    (∃ (t : Tabs) (fa : Nat) (fb : Nat) (b : Nat), fa = fb ∧ (decodeElem t fa b).isNan = false) ∧
    (∃ (t : Tabs) (fa : Nat) (fb : Nat) (b : Nat), (fa ≠ fb ∨ (decodeElem t fa b).isNan = true)) ∧
    (∃ (tag : Nat), tag ≠ 3) ∧
    (∃ (scale : Nat) (tag : Nat) (v : XVal) (code : _) (neg : _) (m : _) (e : _) (st : _), (tag, code) ∈ [(0, 4), (1, 5),
      (2, 7)] ∧ scale < 255 ∧ v = .fin neg m e st) ∧
    (∃ (scale : Nat) (tag : Nat) (v : XVal) (code : _), (∀ neg m e st, v ≠ .fin neg m e st) ∧ (tag, code) ∈ [(0, 4), (1,
      5), (2, 7)] ∧ scale < 255) ∧
    (∃ (t : Tabs) (b : Nat) (scale : Nat) (tag : Nat) (code : _) (neg : _) (m : _) (e : _) (st : _), (tag, code) ∈ [(0,
      4), (1, 5), (2, 7)] ∧ scale < 255 ∧ decodeElem t code b = .fin neg m e st) ∧
    (∃ (t : Tabs) (b : Nat) (scale : Nat) (tag : Nat) (code : _), (∀ neg m e st, decodeElem t code b ≠ .fin neg m e st) ∧
      (tag, code) ∈ [(0, 4), (1, 5), (2, 7)] ∧ scale < 255) :=
  ⟨⟨on tile strand, Guard.always, 2, _, _, _, _, rfl, rfl, rfl, fun _ => rfl, (by unfold Clears; decide +kernel)⟩,
    ⟨on tile strand, Guard.always, .add, 7, _, 0,
      (fun o a => match o with | none => fp32.round (fp32.value a) ((on tile strand).me.rmOf 7) (on tile strand).myTile.ctl.seed | some v => fp32Node .add ((on tile strand).me.rmOf 7) (on tile strand).myTile.ctl.seed v a),
      rfl, fun _ => rfl, fun _ _ => rfl, (by unfold Clears; decide +kernel)⟩,
    ⟨on tile strand, Guard.always, _, _, rfl, (by unfold Clears; decide +kernel)⟩,
    ⟨on tile strand, Guard.always, _, _, _, _, rfl, rfl, rfl, (by unfold Clears; decide +kernel)⟩,
    ⟨on tile { strand with status := 0x24 }, Guard.always, _, _, _, _, false, rfl, rfl, rfl,
      (by unfold Clears; decide +kernel)⟩,
    ⟨on tile { strand with status := 0x64 }, Guard.always, 4, _, _, _, _, false, rfl, rfl, rfl,
      (by unfold Clears; decide +kernel)⟩,
    ⟨on tile strand, Guard.always, 4, _, _, _, _, rfl, rfl, rfl, (by unfold Clears; decide +kernel)⟩,
    ⟨⟨id, id⟩, 12, 0, 0, 0, 0, _, 0, _, _, _, rfl, rfl, rfl, rfl⟩,
    ⟨⟨id, id⟩, 7, 0, 0, 0, 0, 0, _, 0, _, _, _, rfl, rfl, rfl, rfl, (by decide +kernel)⟩,
    ⟨⟨id, id⟩, 7, 0, 0, 0, 0, 0, _, 0, _, _, _, 4, rfl, rfl, rfl, rfl, (by decide +kernel)⟩,
    ⟨⟨id, id⟩, 3, 3, 5, (by decide +kernel)⟩,
    ⟨⟨id, id⟩, 0, 0, 0x7FC00000, (by decide +kernel)⟩,
    ⟨0, (by decide +kernel)⟩,
    ⟨254, 2, .fin true 3 (-1) false, 7, true, 3, -1, false, (by decide +kernel)⟩,
    ⟨254, 1, .nan true, 5, (fun _ _ _ _ h => nomatch h), (by decide +kernel)⟩,
    ⟨⟨id, id⟩, 0xFD, 254, 2, 7, true, 3, 0, false, (by decide +kernel)⟩,
    ⟨⟨fun _ => 0x3FC01, id⟩, 0, 254, 0, 4,
      (by intro neg m e st h; have hn : (decodeElem ⟨fun _ => 0x3FC01, id⟩ 4 0).isNan = true := (by decide +kernel); rw [h] at hn; cases hn),
      (by decide +kernel)⟩⟩

theorem test_hypotheses_AbacusMultiplications :
    (∃ (s : State) (g : Guard) (acc : BitVec 3) (ra : BitVec 3) (rb : BitVec 3) (w : BitVec 6) (sy : Sync) (form :
      MmaForm) (F : Formats) (i : Instr) (fa : Nat) (fb : Nat) (a : Nat) (b : Nat), ((i = .mma g acc ra rb w sy ∧ form
      = .mma ∧ F = mmaPairs) ∨ (i = .mman g acc ra rb w sy ∧ form = .mman ∧ F = mmaPairs) ∨ (i = .mmaq g acc ra rb w
      sy ∧ form = .mmaq ∧ F = mmaqPairs) ∨ (i = .mmai g acc ra rb w sy ∧ form = .mmai ∧ F = mmaiPairs)) ∧ (fa, fb) =
      pairOf s F ∧ a = (s.myTile.ring ra.toNat).slot ((s.myTile.ring ra.toNat).head.toNat + (s.myTile.ring
      ra.toNat).bound) ∧ (b = (s.myTile.ring rb.toNat).slot ((s.myTile.ring rb.toNat).head.toNat + (s.myTile.ring
      rb.toNat).bound + (if ra = rb then 1 else 0))) ∧ Clears s (formatted g F) ∧ s.waitMet sy = true ∧
      s.myTile.accSwapping acc = false ∧ (∀ x ∈ mmaTables form fa fb, s.myTile.swapping x = false) ∧
      ((s.myTile.mmas.filter fun m => !m.retired).length < 4) ∧ (s.myTile.ring ra.toNat).bound < (s.myTile.ring
      ra.toNat).occ.toNat ∧ ((s.myTile.ring rb.toNat).bound + (if ra = rb then 1 else 0) < (s.myTile.ring
      rb.toNat).occ.toNat) ∧ (s.myTile.bale a).state = 2 ∧ (s.myTile.bale b).state = 2 ∧ operandBytes form fa (w.toNat
      + 1) ≤ (s.myTile.bale a).bytes ∧ operandBytes form fb (w.toNat + 1) ≤ (s.myTile.bale b).bytes) ∧
    (∃ (s : State) (t : Nat) (i : Nat) (na : Nat) (nb : Nat) (m : Mma), na = operandBytes m.form m.fa m.groups ∧ nb =
      operandBytes m.form m.fb m.groups ∧ nextToRetire (s.tile t).mmas = some (i, m) ∧ (s.tile t).gatedIn ((s.tile
      t).bale m.slotA).addr na = none ∧ (s.tile t).gatedIn ((s.tile t).bale m.slotB).addr nb = none ∧ s.sourceReady t
      m.strand ((s.tile t).bale m.slotA).addr na = true ∧ s.sourceReady t m.strand ((s.tile t).bale m.slotB).addr nb =
      true) ∧
    (∃ (s : State) (t : Nat) (m : Mma) (rest : List Mma) (chks : List Check), (s.tile t).mmas = m :: rest ∧ m.retired =
      true ∧ SignalFits s t m.sy ∧ (∀ c ∈ chks, c = .match)) ∧
    (∃ (t : Tabs) (m : Mma) (tag : Nat → Nat → Nat → Nat) (scale : Nat → Nat → Nat → Nat) (value : Nat → Nat → Nat → Nat →
      XVal), (∀ bytes x k, tag bytes x k = bytes / 2 ^ (8 * (1056 * m.groups + (m.groups * x + k / 32) / 4) + 2 *
      ((m.groups * x + k / 32) % 4)) % 4 ∧ scale bytes x k = bytes / 2 ^ (8 * (1024 * m.groups + (m.groups * x + k /
      32))) % 256) ∧ (∀ fmt bytes x k, value fmt bytes x k = if m.form = .mmaq then blockValue t (element bytes
      (fmtWidth fmt) (x * (32 * m.groups) + k)) (scale bytes x k) (tag bytes x k) else decodeElem t fmt (element bytes
      (fmtWidth fmt) (x * (32 * m.groups) + k)))) :=
  ⟨⟨on ringed strand, Guard.always, 0, 0, 1, 0, Sync.none, .mma, mmaPairs, .mma Guard.always 0 0 1 0 Sync.none, _, _, _,
      _, .inl ⟨rfl, rfl, rfl⟩, rfl, rfl, rfl, (by unfold Clears; decide +kernel)⟩,
    ⟨on { ringed with mmas := [mma] } strand, 0, 0, _, _, mma, rfl, rfl, (by decide +kernel)⟩,
    ⟨on { ringed with mmas := [{ mma with retired := true }] } strand, 0, { mma with retired := true }, [], [.match],
      (by unfold SignalFits; decide +kernel)⟩,
    ⟨⟨id, id⟩, mma, _, _, _, (fun _ _ _ => ⟨rfl, rfl⟩), (fun _ _ _ _ => rfl)⟩⟩

theorem test_hypotheses_Accumulators :
    (∃ (s : State) (g : Guard) (acc : BitVec 3) (sy : Sync), s.myTile.accHeld acc = false ∧ Clears s (ordinary g) ∧
      s.waitMet sy = true) ∧
    (∃ (s : State) (t : Nat) (k : Nat) (acc : BitVec 3) (sy : Sync),
      ((s.tile t).holder (fun h => match h with | .accsw a _ => a == acc | _ => false) = some k) ∧ (s.strand t k).hold
      = .accsw acc sy ∧ (∀ m ∈ (s.tile t).mmas, m.acc ≠ acc) ∧ (s.tile t).accMoves.find acc.toNat = none ∧ SignalFits
      s t sy) ∧
    (∃ (s : State) (g : Guard) (acc : BitVec 3) (y : SReg) (z : SReg) (sy : Sync) (fa : Nat) (fb : Nat) (a : Nat) (n :
      Nat), a = (s.me.rd y).toNat ∧ n = (s.me.rd z).toNat ∧ (fa, fb) = pairOf s accIn ∧ s.myTile.accHeld acc = false ∧
      s.me.tag y = false ∧ s.me.tag z = false ∧ a % 8 = 0 ∧ n % 8 = 0 ∧ s.waitMet sy = true ∧ Clears s (formatted g
      accIn) ∧ s.myTile.badRow Region.readable a n (4 * fmtWidth fa) = none) ∧
    (∃ (s : State) (g : Guard) (acc : BitVec 3) (y : SReg) (z : SReg) (sy : Sync) (fa : Nat) (fb : Nat) (a : Nat) (n :
      Nat), a = (s.me.rd y).toNat ∧ n = (s.me.rd z).toNat ∧ (fa, fb) = pairOf s accOut ∧ s.myTile.accHeld acc = false
      ∧ s.me.tag y = false ∧ s.me.tag z = false ∧ a % 8 = 0 ∧ n % 8 = 0 ∧ s.waitMet sy = true ∧ Clears s (formatted g
      accOut) ∧ s.myTile.badRow Region.vs a n (4 * fmtWidth fb) = none ∧ (s.myTile.visible acc.toNat).poison = 0 ∧
      (s.myTile.fullLine ((List.range 32).flatMap fun r => (List.range (4 * fmtWidth fb / 64 + 1)).map fun i => a + r
      * n + (if 64 * i < 4 * fmtWidth fb then 64 * i else 4 * fmtWidth fb - 1)) = none)) ∧
    (∃ (s : State) (t : Nat) (acc : BitVec 3) (m : AccMove) (x : Strand), x = s.strand t m.strand ∧ (s.tile
      t).accMoves.find acc.toNat = some m ∧ m.load = true ∧ m.moved = [] ∧ (∀ r, r < 32 → (s.tile t).gatedAt (m.addr +
      r * m.stride) = false ∧ (s.tile t).gatedAt (m.addr + r * m.stride + 4 * fmtWidth m.fa - 1) = false ∧
      s.storesBefore t m.strand (m.addr + r * m.stride) (4 * fmtWidth m.fa) m.ord = true) ∧ SignalFits s t m.sy) ∧
    (∃ (s : State) (t : Nat) (len : Nat) (acc : BitVec 3) (m : AccMove) (x : Strand) (row : Nat → Nat), x = s.strand t
      m.strand ∧ len = 4 * fmtWidth m.fb ∧ (∀ r, row r = m.addr + r * m.stride) ∧ (s.tile t).accMoves.find acc.toNat =
      some m ∧ m.load = false ∧ m.moved = [] ∧ (len = 64 ∨ len = 128) ∧ m.addr % 8 = 0 ∧ m.stride % 8 = 0 ∧ (∀ r, r <
      32 → (s.tile t).rangeIs Region.vs (row r) len = true ∧ (s.tile t).gatedAt (row r) = false ∧ (s.tile t).gatedAt
      (row r + len - 1) = false ∧ s.storesBefore t m.strand (row r) len m.ord = true) ∧ FramesOk (s.tile t) ∧ ((s.tile
      t).fullLine ((List.range 32).flatMap fun r => (List.range (len / 64 + 1)).map fun i => row r + (if 64 * i < len
      then 64 * i else len - 1)) = none) ∧ SignalFits s t m.sy) :=
  ⟨⟨on tile strand, Guard.always, 0, Sync.none, (by unfold Clears; decide +kernel)⟩,
    ⟨on tile { strand with hold := .accsw 0 Sync.none }, 0, _, 0, Sync.none, rfl, (by unfold SignalFits; decide +kernel)⟩,
    ⟨on tile { strand with s := [(5, 0x8000), (6, 128)] }, Guard.always, 0, 5, 6, Sync.none, _, _, _, _, rfl, rfl, rfl,
      (by unfold Clears; decide +kernel)⟩,
    ⟨on tile { strand with s := [(5, 0x8000), (6, 128)] }, Guard.always, 0, 5, 6, Sync.none, _, _, _, _, rfl, rfl, rfl,
      (by unfold Clears; decide +kernel)⟩,
    ⟨on { tile with accMoves := [(0, accMove)] } strand, 0, 0, accMove, _, rfl, (by unfold SignalFits; decide +kernel)⟩,
    ⟨on
      { vtile with accMoves := [(0, { accMove with load := false, fa := 0, fb := 1 })], mem := { free := List.range 40 |>.map (· + 128) } }
      strand, 0, _, 0, { accMove with load := false, fa := 0, fb := 1 }, _, fun r => 0x8000 + 128 * r, rfl, rfl, fun r
      => by show 0x8000 + 128 * r = 0x8000 + r * 128; omega, (by unfold FramesOk SignalFits; decide +kernel)⟩⟩

theorem test_hypotheses_DecodeTables :
    (∃ (s : State) (g : Guard) (v : VReg), Clears s (ordinary g) ∧ s.me.vt v = 0) ∧
    (∃ (s : State) (g : Guard) (tbl : Bool) (shadow : Bool), (shadow = true ∨ s.myTile.swapping tbl = false) ∧ Clears s
      (ordinary g)) ∧
    (∃ (s : State) (g : Guard) (tbl : Bool) (sy : Sync), Clears s (ordinary g) ∧ s.myTile.swapping tbl = false ∧ s.waitMet
      sy = true) ∧
    (∃ (s : State) (t : Nat) (k : Nat) (tbl : Bool) (sy : Sync),
      ((s.tile t).holder (fun h => match h with | .tblsw b _ => b == tbl | _ => false) = some k) ∧ (s.strand t k).hold
      = .tblsw tbl sy ∧ (∀ m ∈ (s.tile t).mmas, tbl ∉ mmaTables m.form m.fa m.fb) ∧ SignalFits s t sy ∧ SMap.wf 0
      (s.tile t).ctl.tables = true) :=
  ⟨⟨on tile strand, Guard.always, 1, (by unfold Clears; decide +kernel)⟩,
    ⟨on tile strand, Guard.always, false, true, .inl rfl, (by unfold Clears; decide +kernel)⟩,
    ⟨on tile strand, Guard.always, false, Sync.none, (by unfold Clears; decide +kernel)⟩,
    ⟨on tile { strand with hold := .tblsw false Sync.none }, 0, _, false, Sync.none, rfl,
      (by unfold SignalFits; decide +kernel)⟩⟩

theorem test_hypotheses_BalesAndRings :
    (∃ (s : State) (g : Guard) (slot : BitVec 6) (a : SReg) (b : SReg) (c : SReg) (n : Nat), n = bitsOf (s.me.rd b) 0 17 ∧
      Clears s (ordinary g) ∧ s.me.tag a = false ∧ s.me.tag b = false ∧ s.me.tag c = false ∧ bitsOf (s.me.rd a) 0 7 =
      0 ∧ n % 128 = 0 ∧ 0 < n ∧ n ≤ 65536 ∧ bitsOf (s.me.rd b) 17 15 = 0 ∧ bitsOf (s.me.rd b) 40 24 = 0 ∧
      s.myTile.rangeIs Region.vs (s.me.rd a).toNat n = true ∧ ((s.myTile.bale slot.toNat).state = 2 ∧ (s.myTile.bale
      slot.toNat).ringv = false ∨ (s.myTile.bale slot.toNat).state = 0 ∧ (s.myTile.bale slot.toNat).pend = false)) ∧
    (∃ (s : State) (g : Guard) (slot : BitVec 6), Clears s (ordinary g) ∧ (s.myTile.bale slot.toNat).ringv = false ∧
      (s.myTile.bale slot.toNat).state = 2) ∧
    (∃ (s : State) (g : Guard) (slot : BitVec 6), Clears s (ordinary g) ∧ (s.myTile.bale slot.toNat).ringv = false ∧
      (s.myTile.bale slot.toNat).state = 0 ∧ (s.myTile.bale slot.toNat).pend = false) ∧
    (∃ (s : State) (g : Guard) (ring : BitVec 3) (a : SReg) (r : Ring) (e : Nat) (x : Ring) (w : Word), r = s.myTile.ring
      ring.toNat ∧ w = s.me.tested.getD (loadValue s.myTile .d e) ∧ x =
      { first := w.extractLsb' 0 6, cntm1 := w.extractLsb' 6 6, v := w.getLsbD 33 } ∧ Clears s (ordinary g) ∧ Reaches
      s a 0 8 Region.readable e ∧ (s.me.tested = none → s.myTile.poisonAt e = false ∧ s.myTile.badRing ring x = false)
      ∧ r.occ = 0 ∧ r.subv = false ∧ r.bound = 0) ∧
    (∃ (s : State) (g : Guard) (ring : BitVec 3) (slot : BitVec 6) (sy : Sync) (r : Ring), r = s.myTile.ring ring.toNat ∧
      Clears s (ordinary g) ∧ r.v = true ∧ r.stopin = false ∧ r.occ.toNat ≤ r.cntm1.toNat ∧ (s.myTile.bale
      r.tailSlot).state = 0 ∧ (s.myTile.bale r.tailSlot).pend = false ∧ r.tailSlot = slot.toNat ∧ SyncReady s sy true) ∧
    (∃ (s : State) (g : Guard) (ring : BitVec 3) (slot : BitVec 6) (sy : Sync) (r : Ring) (x : Nat) (y : Bale), r =
      s.myTile.ring ring.toNat ∧ x = r.tailSlot ∧ y = s.myTile.bale slot.toNat ∧ Clears s (ordinary g) ∧ r.v = true ∧
      r.stopin = false ∧ r.occ.toNat ≤ r.cntm1.toNat ∧ (s.myTile.bale x).state = 0 ∧ (s.myTile.bale x).pend = false ∧
      x ≠ slot.toNat ∧ slot.toNat ∉ r.members ∧ s.fillOk s.curTile (y.tag.toNat * 128) (s.myTile.bale x).bytes
      y.view.toNat = true ∧ s.waitMet sy = true) ∧
    (∃ (s : State) (g : Guard) (ring : BitVec 3) (slot : BitVec 6) (sy : Sync) (r : Ring), r = s.myTile.ring ring.toNat ∧
      Clears s (ordinary g) ∧ r.v = true ∧ r.bound = 0 ∧ r.occ ≠ 0 ∧ (s.myTile.bale r.headSlot).state = 2 ∧ r.headSlot
      = slot.toNat ∧ SyncReady s sy true) ∧
    (∃ (s : State) (g : Guard) (ring : BitVec 3) (sy : Sync) (r : Ring), r = s.myTile.ring ring.toNat ∧ Clears s (ordinary
      g) ∧ r.v = true ∧ SyncReady s sy true) :=
  ⟨⟨on tile (with45 0x8000 128), Guard.always, 0, 4, 5, 6, _, rfl, (by unfold Clears; decide +kernel)⟩,
    ⟨on baled strand, Guard.always, 0, (by unfold Clears; decide +kernel)⟩,
    ⟨on tile strand, Guard.always, 0, (by unfold Clears; decide +kernel)⟩,
    ⟨on { tile with mem := { bytes := [(4, 2)] } } (with4 0x8000), Guard.always, 0, 4, _, 0x8000, _, _, rfl, rfl, rfl,
      (by unfold Clears Reaches; decide +kernel)⟩,
    ⟨on { tile with ctl := { rings := [(0, { v := true })], bales := [] } } strand, Guard.always, 0, 0, Sync.none, _, rfl,
      (by unfold Clears SyncReady; decide +kernel)⟩,
    ⟨on { tile with ctl := { rings := [(0, { v := true })], bales := [] } } strand, Guard.always, 0, 1, Sync.none, _, _,
      _, rfl, rfl, rfl, (by unfold Clears; decide +kernel)⟩,
    ⟨on { tile with ctl := { rings := [(0, { v := true, occ := 1 })], bales := [(0, { state := 2 })] } } strand,
      Guard.always, 0, 0, Sync.none, _, rfl, (by unfold Clears SyncReady; decide +kernel)⟩,
    ⟨on { tile with ctl := { rings := [(0, { v := true })], bales := [] } } strand, Guard.always, 0, Sync.none, _, rfl,
      (by unfold Clears SyncReady; decide +kernel)⟩⟩

theorem test_hypotheses_LoaderAndStorer :
    (∃ (s : State) (g : Guard) (x : SReg) (sy : Sync) (a : Nat) (n : Nat) (i : _) (e : _), n = s.myTile.readNat a 8 % 4096
      ∧ e = s.myTile.pflEntry (a + 8 + 24 * i) ∧ Clears s (ordinary g) ∧ s.waitMet sy = true ∧ Reaches s x 0 8
      Region.readable a ∧ s.myTile.rangeIs Region.readable a (8 + 24 * n) = true ∧ s.myTile.gatedIn a (8 + 24 * n) =
      none ∧ s.myTile.readPoison a (8 + 24 * n) = false ∧ s.sourceReady s.curTile s.curStrand a (8 + 24 * n) = true ∧
      i < n ∧ (∀ j, j < i → s.pflEntryOk s.curTile (s.myTile.pflEntry (a + 8 + 24 * j)) = true) ∧ s.pflEntryFits
      s.curTile e = false) ∧
    (∃ (s : State) (g : Guard) (x : SReg) (sy : Sync) (a : Nat) (n : Nat), n = s.myTile.readNat a 8 % 4096 ∧ Clears s
      (ordinary g) ∧ s.waitMet sy = true ∧ Reaches s x 0 8 Region.readable a ∧ s.myTile.rangeIs Region.readable a (8 +
      24 * n) = true ∧ s.myTile.gatedIn a (8 + 24 * n) = none ∧ s.myTile.readPoison a (8 + 24 * n) = false ∧
      s.sourceReady s.curTile s.curStrand a (8 + 24 * n) = true ∧ (∀ i, i < n → s.pflEntryOk s.curTile
      (s.myTile.pflEntry (a + 8 + 24 * i)) = true)) ∧
    (∃ (s : State) (t : Nat) (slot : Nat) (b : Bale), b = (s.tile t).bale slot ∧ b.state = 1 ∧ b.pend = true ∧ b.fault =
      false ∧ s.filling t slot = false ∧ (s.tile t).lostFills.getLsbD slot = false ∧ (∀ e ∈ (s.tile t).xq, e.slot ≠
      some slot) ∧ (∀ j ∈ (s.tile t).pfls, slot ∈ j.slots → j.push = false)) ∧
    (∃ (s : State) (t : Nat) (slot : Nat) (b : Bale) (j : _), b = (s.tile t).bale slot ∧ b.state = 1 ∧ b.pend = true ∧
      b.fault = false ∧ s.filling t slot = false ∧ (s.tile t).lostFills.getLsbD slot = false ∧ (∀ e ∈ (s.tile t).xq,
      e.slot ≠ some slot) ∧ (s.tile t).pfls = [j] ∧ j.push = true ∧ slot ∈ j.slots ∧ SignalFits s t j.sy) ∧
    (∃ (s : State) (t : Nat) (slot : Nat) (b : Bale), b = (s.tile t).bale slot ∧ b.state = 3 ∧ s.readOut t slot = true ∧
      b.ringv = true ∧ ((s.tile t).ring b.ring.toNat).headSlot = slot ∧ ((s.tile t).ring b.ring.toNat).occ ≠ 0 ∧ (∀ e
      ∈ (s.tile t).xq, e.slot ≠ some slot)) ∧
    (∃ (s : State) (t : Nat) (slot : Nat) (b : Bale), b = (s.tile t).bale slot ∧ b.state = 3 ∧ s.readOut t slot = true ∧
      (b.ringv = false ∨ (∃ e ∈ (s.tile t).xq, e.slot = some slot))) ∧
    (∃ (s : State) (t : Nat) (n : Nat) (j : PflJob), (s.tile t).pfls[n]? = some j ∧ j.slots = [] ∧ j.push = false ∧
      SignalFits s t j.sy) ∧
    (∃ (s : State) (t : Nat) (ring : Nat) (r : Ring) (e : Bale) (src : Nat), r = (s.tile t).ring ring ∧ e = (s.tile
      t).bale r.tailSlot ∧ src = r.subSrc.toNat + r.subDone * r.subLen ∧ r.subv = true ∧ r.stopin = false ∧
      r.occ.toNat ≤ r.cntm1.toNat ∧ e.state = 0 ∧ e.pend = false ∧ (s.tile t).seq.failed = false ∧ s.fillOk t src
      r.subLen r.subView = true) :=
  ⟨⟨on { tile with mem := { bytes := [(0, 1), (8, 1), (16, 0x80)] } } (with4 0x8000), Guard.always, 4, Sync.none, 0x8000,
      _, 0, _, rfl, rfl, (by unfold Clears Reaches; decide +kernel)⟩,
    ⟨on { tile with mem := { bytes := [(0, 1), (16, 0x80)] } } (with4 0x8000), Guard.always, 4, Sync.none, 0x8000, _, rfl,
      (by unfold Clears Reaches; decide +kernel)⟩,
    ⟨on { tile with ctl := { bales := [(0, { state := 1, pend := true })], rings := [(0, {})] } } strand, 0, 0, _, rfl,
      (by decide +kernel)⟩,
    ⟨on
      { tile with ctl := { bales := [(0, { state := 1, pend := true })], rings := [(0, {})] }, pfls := [⟨[0], Sync.none, 0, true⟩] }
      strand, 0, 0, _, ⟨[0], Sync.none, 0, true⟩, rfl, (by unfold SignalFits; decide +kernel)⟩,
    ⟨on { tile with ctl := { bales := [(0, { state := 3, ringv := true })], rings := [(0, { v := true, occ := 1 })] } }
      strand, 0, 0, _, rfl, (by decide +kernel)⟩,
    ⟨on { tile with ctl := { bales := [(0, { state := 3 })], rings := [(0, {})] } } strand, 0, 0, _, rfl,
      (by decide +kernel)⟩,
    ⟨on { tile with pfls := [⟨[], Sync.none, 0, false⟩] } strand, 0, 0, ⟨[], Sync.none, 0, false⟩,
      (by unfold SignalFits; decide +kernel)⟩,
    ⟨on { tile with ctl := { rings := [(0, { v := true, subv := true, subLen := 128 })], bales := [] } } strand, 0, 0, _,
      _, _, rfl, rfl, rfl, (by decide +kernel)⟩⟩

theorem test_hypotheses_Transfers :
    (∃ (s : State) (g : Guard) (x : SReg) (y : SReg) (z : SReg) (w : SReg) (sy : Sync) (d : Direction) (i : Instr) (len :
      Nat) (hnd : Nat) (v : Option View) (vas : List Nat) (units : Nat), ((i = .put g x y z sy ∧ d = ⟨0, true, false⟩)
      ∨ (i = .get g x y z sy ∧ d = ⟨1, false, false⟩) ∨ (i = .putv g x y z w sy ∧ d = ⟨2, true, true⟩ ∧ s.me.tag w =
      false) ∨ (i = .getv g x y z w sy ∧ d = ⟨3, false, true⟩ ∧ s.me.tag w = false)) ∧ len = bitsOf (s.me.rd z) 0 18 ∧
      (hnd = (if d.view then bitsOf (s.me.rd w) 0 8 else 0)) ∧ (v = (if d.view then s.tileView s.curTile hnd else
      none)) ∧ (d.view = true → ∃ vw, v = some vw ∧ (s.me.rd y).toNat + len ≤ vw.positions) ∧
      (match (if d.view then none else gangTileVa (s.me.rd y)) with | some io => s.gangTileOk s.curTile io.1 io.2 len = true | none => s.rangeOk s.curTile (s.me.rd y).toNat len v d.write = true)
      ∧
      (vas = (match v with | some vw => (List.range len).map fun i => vw.addr ((s.me.rd y).toNat + i) | none => (List.range len).map ((s.me.rd y).toNat + ·)))
      ∧ (units = (if d.write ∧ !isSteward s.curTile ∧ (if d.view then none else gangTileVa (s.me.rd y)).isNone then
      (s.unitsAtIssue s.curTile vas).getD 0 else 0)) ∧ Clears s (ordinary g) ∧ s.waitMet sy = true ∧ s.me.tag x =
      false ∧ s.me.tag y = false ∧ s.me.tag z = false ∧ bitsOf (s.me.rd x) 0 3 = 0 ∧ bitsOf (s.me.rd y) 0 3 = 0 ∧
      s.myTile.badParameters (s.me.rd x) (s.me.rd z) sy.site = false ∧ s.myTile.xq.length < 32 ∧ (units = 0 ∨
      s.quotaHolds (s.partOf s.curTile) s.myTile.gang units = true)) ∧
    (∃ (s : State) (g : Guard), Clears s (ordinary g)) ∧
    (∃ (s : State) (t : Nat) (n : Nat) (e : Xfer), (s.tile t).xq[n]? = some e ∧ e.begun = true ∧ (e.dir = 2 ∨ e.dir = 3 ∨
      gangTileVa e.va = none) ∧ (∀ r ∈ s.reqs, r.tile ≠ t ∨ r.what ≠ .xfer e.tag) ∧ (e.sy.site = 2 ∨ SignalFits s t
      e.sy)) ∧
    (∃ (s : State) (t : Nat) (n : Nat) (d : Nat) (idx : Nat) (off : Nat) (e : Xfer) (w : Wrote), (s.tile d).writeWords
      true off ((s.tile t).readWords e.offset (e.len / 8)) = some w ∧ (s.tile t).xq[n]? = some e ∧ gangTileVa e.va =
      some (idx, off) ∧ (((s.gangOf t).bind fun g => g.tileAt idx) = some d) ∧ d ≠ t ∧ e.moved = [] ∧ s.gangHeld t e
      e.left = false ∧ s.xferWake t e 0 e.len = none ∧ e.len % 8 = 0 ∧ (s.tile d).rangeIs Region.vs off e.len = true ∧
      e.sy.site = 0 ∧ SignalFits s t e.sy ∧ e.dir = 0) ∧
    (∃ (s : State) (t : Nat) (n : Nat) (d : Nat) (idx : Nat) (off : Nat) (e : Xfer) (w : Wrote), ((s.tile t).writeWords
      false e.offset ((List.range (e.len / 8)).map fun i => ((s.tile d).remoteByte (off + 8 * i + 7) ++ (s.tile
      d).remoteByte (off + 8 * i + 6) ++ (s.tile d).remoteByte (off + 8 * i + 5) ++ (s.tile d).remoteByte (off + 8 * i
      + 4) ++ (s.tile d).remoteByte (off + 8 * i + 3) ++ (s.tile d).remoteByte (off + 8 * i + 2) ++ (s.tile
      d).remoteByte (off + 8 * i + 1) ++ (s.tile d).remoteByte (off + 8 * i), (s.tile d).remotePoison (off + 8 * i)))
      = some w) ∧ (s.tile t).xq[n]? = some e ∧ gangTileVa e.va = some (idx, off) ∧ (((s.gangOf t).bind fun g =>
      g.tileAt idx) = some d) ∧ d ≠ t ∧ e.moved = [] ∧ s.gangHeld t e e.left = false ∧ s.xferWake t e 0 e.len = none ∧
      e.len % 8 = 0 ∧ (s.tile d).rangeIs Region.vs off e.len = true ∧ e.sy.site = 0 ∧ SignalFits s t e.sy ∧ e.dir = 1) ∧
    (∃ (s : State) (t : Nat) (k : Nat) (id : BitVec 16) (handler : Pc) (rest : List (BitVec 16 × Pc)), (s.strand t k).uiq
      = (id, handler) :: rest ∧ (s.strand t k).canInterrupt = true ∧ (s.tile t).badTarget handler.toNat = false) ∧
    (∃ (s : State), Clears s (ordinary Guard.always) ∧ s.me.uia = true ∧ s.myTile.badTarget s.me.uipc.toNat = false) :=
  ⟨⟨on tile { strand with s := [(4, 0x8000), (6, 8)] }, Guard.always, 4, 5, 6, 7, Sync.none, ⟨0, true, false⟩, .put
      Guard.always 4 5 6 Sync.none, _, _, _, _, _, .inl ⟨rfl, rfl⟩, rfl, rfl, rfl, (fun h => nomatch h), (rfl : true =
      true), rfl, rfl, (by unfold Clears; decide +kernel)⟩,
    ⟨on tile { strand with s := [(4, 0x8000), (6, 8)] }, Guard.always, (by unfold Clears; decide +kernel)⟩,
    ⟨on { tile with xq := [xfer] } strand, 0, 0, xfer, (by unfold SignalFits; decide +kernel)⟩,
    ⟨pair { tile with xq := [{ xfer with begun := false, va := 15 * 2 ^ 60 + 2 ^ 18 + 0x8000 }] } vtile strand, 0, 0, 1,
      1, 0x8000, { xfer with begun := false, va := 15 * 2 ^ 60 + 2 ^ 18 + 0x8000 }, _, (Option.some_get
      (by decide +kernel)).symm, (by unfold SignalFits; decide +kernel)⟩,
    ⟨pair { tile with xq := [{ xfer with dir := 1, begun := false, va := 15 * 2 ^ 60 + 2 ^ 18 + 0x8000 }] } vtile strand,
      0, 0, 1, 1, 0x8000, { xfer with dir := 1, begun := false, va := 15 * 2 ^ 60 + 2 ^ 18 + 0x8000 }, _,
      (Option.some_get (by decide +kernel)).symm, (by unfold SignalFits; decide +kernel)⟩,
    ⟨on tile { strand with uiq := [(1, 2)], status := 2 ^ 19 }, 0, 0, 1, 2, [], (by decide +kernel)⟩,
    ⟨on tile { strand with uipc := 2, status := 2 ^ 20 }, (by unfold Clears; decide +kernel)⟩⟩

theorem test_hypotheses_ImmediateStores :
    (∃ (s : State) (g : Guard) (x : SReg) (y : SReg) (sy : Sync) (sz : Size) (fenced : Bool) (i : Instr) (q : Gang) (off :
      Nat) (dest : Nat), ((i = .ist g sz x y sy ∧ fenced = false) ∨ (i = .istfD g x y sy ∧ fenced = true ∧ sz = .d)) ∧
      off = bitsOf (s.me.rd y) 0 18 ∧ dest = bitsOf (s.me.rd y) 32 23 ∧ Clears s (ordinary g) ∧ s.waitMet sy = true ∧
      s.me.tag x = false ∧ s.me.tag y = false ∧ s.gangOf s.curTile = some q ∧ off % sz.bytes = 0 ∧ 0x8000 ≤ off ∧
      bitsOf (s.me.rd y) 18 14 = 0 ∧ bitsOf (s.me.rd y) 55 9 = 0 ∧ dest < q.size ∧ ((s.ists.filter fun j => j.src ==
      s.curTile).length < 64)) ∧
    (∃ (s : State) (n : Nat) (d : Nat) (i : Ist), s.ists[n]? = some i ∧ i.landed = false ∧ s.storeReady n i = true ∧
      i.dest = some d ∧ i.addr % i.size.bytes = 0 ∧ s.behind i.src d = false ∧ (s.tile d).gatedAt i.addr = false ∧
      ((s.tile d).region i.addr).vs = true ∧ HasDelta (s.tile d) i.addr ∧ FramesOk (s.tile d) ∧ i.src ≠ d) ∧
    (∃ (s : State) (n : Nat) (i : Ist), s.ists[n]? = some i ∧ i.landed = true ∧ i.report = false ∧ i.sy.site ≠ 1 ∧
      SignalFits s i.src i.sy) ∧
    (∃ (s : State) (n : Nat) (i : Ist) (d : _), s.ists[n]? = some i ∧ i.landed = true ∧ i.report = false ∧ i.sy.site = 1 ∧
      i.dest = some d ∧ SignalFits s d i.sy) :=
  ⟨⟨on tile { strand with s := [(4, 7), (5, 0x8000)] }, Guard.always, 4, 5, Sync.none, .d, false, .ist Guard.always .d 4
      5 Sync.none, gang, _, _, .inl ⟨rfl, rfl⟩, rfl, rfl, (by unfold Clears; decide +kernel)⟩,
    ⟨{ pair tile vtile strand with ists := [ist] }, 0, 1, ist, (by unfold FramesOk HasDelta; decide +kernel)⟩,
    ⟨{ pair tile vtile strand with ists := [{ ist with landed := true }] }, 0, { ist with landed := true },
      (by unfold SignalFits; decide +kernel)⟩,
    ⟨{ pair tile vtile strand with ists := [{ ist with landed := true, sy := { Sync.none with site := 1, sinc := 1 } }] },
      0, { ist with landed := true, sy := { Sync.none with site := 1, sinc := 1 } }, 1,
      (by unfold SignalFits; decide +kernel)⟩⟩

theorem test_hypotheses_Atomics :
    (∃ (s : State) (g : Guard) (op : AmoOp) (fop : RedOp) (word : Bool) (hbm : Bool) (d : SReg) (a : SReg) (b : SReg) (c :
      SReg) (i : Instr) (m : Amo) (v : Word), ((i = .amo g op word d a b c ∧ m = ⟨s.curTile, s.curStrand, hbm, v, op,
      none, word, s.me.rd b, s.me.rd c, false, none, s.partOf s.curTile, s.rootOf (s.partOf s.curTile) s.myTile.gang,
      false⟩ ∧ (op = .cas → s.me.tag c = false)) ∨ (i = .amof g fop d a b ∧ m = ⟨s.curTile, s.curStrand, hbm, v,
      .swap, some fop, true, s.me.rd b, 0, false, none, s.partOf s.curTile, s.rootOf (s.partOf s.curTile)
      s.myTile.gang, false⟩ ∧ word = true)) ∧ v = s.me.rd a ∧ Clears s (ordinary g) ∧ s.me.tag a = false ∧ s.me.tag b
      = false ∧ (v.toNat % (if word then 4 else 8) = 0) ∧ (hbm = false ∧ v.toNat < 0x380000 ∧ s.fullCluster s.curTile
      = true ∧ (s.memberTile s.curTile (csMember v.toNat)).isSome = true ∧ (s.myTile.region (csOffset v.toNat)).isS =
      true ∨ hbm = true ∧ 0x400000 ≤ v.toNat ∧ s.rangeOk s.curTile v.toNat (if word then 4 else 8) none false = true ∧
      s.rangeOk s.curTile v.toNat (if word then 4 else 8) none true = true)) ∧
    (∃ (s : State) (n : Nat) (h : Nat) (a : Nat) (len : Nat) (w : Nat) (m : Amo) (d : SReg) (po : Bool), s.memberTile
      m.src (csMember m.addr.toNat) = some h ∧ a = csOffset m.addr.toNat ∧ (len = (if m.word then 4 else 8)) ∧ po =
      (s.tile h).remotePoison (a / 8 * 8) ∧ (w = ofBytes ((List.range len).map fun i => (s.tile h).remoteByte (a +
      i))) ∧ s.amos[n]? = some m ∧ m.suspended = false ∧ m.hbm = false ∧ a % len = 0 ∧ s.behind m.src h = false ∧
      s.istPending m.src m.strand h (a / 8) = [] ∧ (s.tile h).gatedAt a = false ∧ (s.tile h).region a = .seg .s ∧
      FramesOk (s.tile h) ∧ (s.strand m.src m.strand).hold = .atomic d) ∧
    (∃ (s : State) (n : Nat) (len : Nat) (w : Nat) (a : Nat) (m : Amo) (d : SReg) (pg : Page) (ps : List Page) (bs : List
      (Byte × Bool)) (po : Bool), (len = (if m.word then 4 else 8)) ∧ a = leafPhys pg.level pg.e m.addr ∧ (bs =
      (List.range len).map (fun i => s.readVia m.part 0 (a + i))) ∧ w = ofBytes (bs.map (·.1)) ∧ po = (bs.any (·.2) ||
      m.poisoned) ∧ s.amos[n]? = some m ∧ m.suspended = false ∧ m.hbm = true ∧ s.translate m.root (s.tile m.src).gang
      [m.addr.toNat] = .ok (pg :: ps) ∧ s.pageCause m.src false false pg.e = none ∧ s.pageCause m.src true false pg.e
      = none ∧ entryStep pg.e = false ∧ entryTier pg.e = 0 ∧ s.frozenPage pg = false ∧ (s.strand m.src m.strand).hold
      = .atomic d) ∧
    (∃ (n : Nat), 0 < n) ∧
    (∃ (s : State) (g : Guard) (a : SReg) (b : SReg) (h : Nat), s.memberTile s.curTile (csMember (s.me.rd a).toNat) = some
      h ∧ Clears s (ordinary g) ∧ isSteward s.curTile = false ∧ s.me.tag a = false ∧ s.me.tag b = false ∧ (s.me.rd
      a).toNat % 4 = 0 ∧ (s.me.rd a).toNat < 0x380000 ∧ s.fullCluster s.curTile = true ∧ (s.myTile.region (csOffset
      (s.me.rd a).toNat)).isV = true) ∧
    (∃ (s : State) (n : Nat) (f : AmodFlight), s.amodNet[n]? = some f ∧ f.landed = false ∧ s.behind f.src f.home = false ∧
      s.commitAhead f.src f.home f.ord = false ∧ ((s.tile f.home).region f.item.addr).isV = true ∧ ((s.tile
      f.home).amods.length % 8 ≠ 0 ∨ (s.tile f.home).mem.free ≠ [])) ∧
    (∃ (s : State) (n : Nat) (f : AmodFlight), s.amodNet[n]? = some f ∧ f.landed = true ∧ f.report = false) ∧
    (∃ (m : TMem) (r : AmodRec) (frame : Nat) (phys : Nat) (old : Nat),
      (frame = (match m.deltas.find (lineOf r.addr) with | some d => d.frame | none => m.frameOf (lineOf r.addr))) ∧
      phys = 128 * frame + (r.addr - 0x8000) % 128 ∧ (old = ofBytes ((List.range 4).map fun i => m.byte (phys + i))) ∧
      m.mergedPoison r.addr = true) ∧
    (∃ (m : TMem) (r : AmodRec) (frame : Nat) (phys : Nat) (old : Nat),
      (frame = (match m.deltas.find (lineOf r.addr) with | some d => d.frame | none => m.frameOf (lineOf r.addr))) ∧
      phys = 128 * frame + (r.addr - 0x8000) % 128 ∧ (old = ofBytes ((List.range 4).map fun i => m.byte (phys + i))) ∧
      m.mergedPoison r.addr = false) :=
  ⟨⟨on tile strand, Guard.always, .cas, .add, false, false, 3, 4, 5, 6, _, _, _, .inl ⟨rfl, rfl, (by decide +kernel)⟩,
      rfl, (by unfold Clears; decide +kernel)⟩,
    ⟨{ on tile { strand with hold := .atomic 3 } with amos := [⟨0, 0, false, 0, .add, none, false, 0, 0, false, none, 0, 0, false⟩] },
      0, _, _, _, _, ⟨0, 0, false, 0, .add, none, false, 0, 0, false, none, 0, 0, false⟩, 3, _, rfl, rfl, rfl, rfl,
      rfl, (by unfold FramesOk; decide +kernel)⟩,
    ⟨mapped
      { on { tile with ctl := { tile.ctl with plbctl := 0 } } { strand with hold := .atomic 3 } with amos := [⟨0, 0, true, 0, .add, none, true, 0, 0, false, none, 0, 0x10000, false⟩] },
      0, _, _, _, ⟨0, 0, true, 0, .add, none, true, 0, 0, false, none, 0, 0x10000, false⟩, 3, page 15, [], _, _, rfl,
      rfl, rfl, rfl, rfl, (by decide +kernel)⟩,
    ⟨32, (by decide +kernel)⟩,
    ⟨on vtile strand, Guard.always, 4, 5, _, rfl, (by unfold Clears; decide +kernel)⟩,
    ⟨{ on vtile strand with amodNet := [⟨0, 0, ⟨0x8000, 0, 0, 0, 0⟩, false, false, 0⟩] }, 0, ⟨0, 0, ⟨0x8000, 0, 0, 0, 0⟩,
      false, false, 0⟩, (by decide +kernel)⟩,
    ⟨{ on vtile strand with amodNet := [⟨0, 0, ⟨0x8000, 0, 0, 0, 0⟩, true, false, 0⟩] }, 0, ⟨0, 0, ⟨0x8000, 0, 0, 0, 0⟩,
      true, false, 0⟩, (by decide +kernel)⟩,
    ⟨{ poison := 1 }, ⟨0x8004, 0, 0, 0, 0⟩, _, _, _, rfl, rfl, rfl, (by decide +kernel)⟩,
    ⟨{}, ⟨0xBFFC, 0, 0, 0, 0⟩, _, _, _, rfl, rfl, rfl, (by decide +kernel)⟩⟩

theorem test_hypotheses_EventUnit :
    (∃ (s : State) (g : Guard) (a : SReg) (c : Nat) (i : Nat) (x : Line) (sig : BitVec 16), c = clusterOf s.curTile ∧ x =
      (s.cluster c).line i ∧ (sig = (if x.sig = 65535 then x.sig else x.sig + 1)) ∧ Clears s (inSet g [a]) ∧
      s.storesLanded = true ∧ i < 32 ∧ EventAt s a (0x200 + 8 * i) ∧ x.count ≠ 0 ∧ sig.toNat < x.count.toNat) ∧
    (∃ (s : State) (g : Guard) (a : SReg) (c : Nat) (i : Nat) (x : Line) (sig : BitVec 16) (t : _) (k : _) (d : _), c =
      clusterOf s.curTile ∧ x = (s.cluster c).line i ∧ (sig = (if x.sig = 65535 then x.sig else x.sig + 1)) ∧ Clears s
      (inSet g [a]) ∧ s.storesLanded = true ∧ i < 32 ∧ EventAt s a (0x200 + 8 * i) ∧ x.count ≠ 0 ∧ x.count.toNat ≤
      sig.toNat ∧ x.chain = none ∧ x.waiters = [(t, k, d)] ∧ (t, k) ≠ (s.curTile, s.curStrand) ∧ k ≠ 4 ∧ (s.strand t
      k).run = .parked .event) ∧
    (∃ (s : State) (g : Guard) (a : SReg) (c : Nat) (i : Nat) (x : Barrier), c = clusterOf s.curTile ∧ x = (s.cluster
      c).barrier i ∧ Clears s (inSet g [a]) ∧ s.storesLanded = true ∧ i < 8 ∧ EventAt s a (8 * i) ∧ x.count ≠ 0 ∧
      x.waitup = false ∧ x.arr + 1 < x.count.toNat) ∧
    (∃ (s : State) (g : Guard) (a : SReg) (c : Nat) (i : Nat) (x : Barrier) (t : _) (k : _) (d : _), c = clusterOf
      s.curTile ∧ x = (s.cluster c).barrier i ∧ Clears s (inSet g [a]) ∧ s.storesLanded = true ∧ i < 8 ∧ EventAt s a
      (8 * i) ∧ x.count ≠ 0 ∧ x.waitup = false ∧ x.count.toNat ≤ x.arr + 1 ∧ x.chain = none ∧ x.waiters = [(t, k, d)]
      ∧ (t, k) ≠ (s.curTile, s.curStrand) ∧ k ≠ 4 ∧ (s.strand t k).run = .parked .event) ∧
    (∃ (s : State) (g : Guard) (a : SReg) (b : SReg) (c : Nat) (i : Nat) (n : BitVec 16) (ch : Option (Bool × Nat × Nat)),
      c = clusterOf s.curTile ∧ Clears s (ordinary g) ∧ s.me.tag b = false ∧ i < 8 ∧ EventAt s a (8 * i) ∧ s.armWord
      (.barrier i) (s.me.rd b) = some (n, ch) ∧ ((s.cluster c).barrier i).arr = 0 ∧ ((s.cluster c).barrier i).waitup =
      false ∧ ((s.cluster c).barrier i).waiters = []) ∧
    (∃ (s : State) (g : Guard) (a : SReg) (b : SReg) (c : Nat) (i : Nat) (n : BitVec 16) (ch : Option (Bool × Nat × Nat)),
      c = clusterOf s.curTile ∧ Clears s (ordinary g) ∧ s.me.tag b = false ∧ i < 32 ∧ EventAt s a (0x200 + 8 * i) ∧
      s.armWord (.line i) (s.me.rd b) = some (n, ch) ∧ ((s.cluster c).line i).waiters = []) ∧
    (∃ (w : Word), bitsOf w 41 23 = 0 ∧ w.getLsbD 16 = false) ∧
    (∃ (s : State) (g : Guard) (a : SReg) (c : Nat) (i : Nat), c = clusterOf s.curTile ∧ Clears s (ordinary g) ∧
      s.storesLanded = true ∧ i < 16 ∧ EventAt s a (0x100 + 8 * i) ∧ ((s.cluster c).mutex i).owner = some (s.curTile,
      s.curStrand) ∧ ((s.cluster c).mutex i).queue = []) ∧
    (∃ (s : State) (g : Guard) (a : SReg) (c : Nat) (i : Nat) (t : _) (k : _) (d : _) (rest : _), c = clusterOf s.curTile
      ∧ Clears s (ordinary g) ∧ s.storesLanded = true ∧ i < 16 ∧ EventAt s a (0x100 + 8 * i) ∧ ((s.cluster c).mutex
      i).owner = some (s.curTile, s.curStrand) ∧ ((s.cluster c).mutex i).queue = (t, k, d) :: rest ∧ (t, k) ≠
      (s.curTile, s.curStrand) ∧ k ≠ 4 ∧ (s.strand t k).run = .parked .event) ∧
    (∃ (s : State) (n : Nat) (m : ChainMsg) (x : Barrier), x = (s.cluster m.dstCluster).barrier m.dstObj ∧ s.chains[n]? =
      some m ∧ m.dstLine = false ∧ s.chainAhead n m = false ∧ m.release = false ∧ m.srcLine = false ∧ x.count ≠ 0 ∧
      x.waitup = false ∧ x.arr + 1 < x.count.toNat) ∧
    (∃ (s : State) (n : Nat) (m : ChainMsg) (x : Barrier), x = (s.cluster m.dstCluster).barrier m.dstObj ∧ s.chains[n]? =
      some m ∧ m.dstLine = false ∧ s.chainAhead n m = false ∧ m.release = true ∧ x.waitup = true ∧ x.late = [] ∧
      x.waiters = []) ∧
    (∃ (s : State) (g : Guard) (d : SReg) (a : SReg) (imm : BitVec 15) (c : Nat) (i : Nat) (me : _) (x : _), c = clusterOf
      s.curTile ∧ me = (s.curTile, s.curStrand, d) ∧ EventLoadAt s a imm (0x200 + 8 * i) ∧ x = (s.cluster c).line i ∧
      Clears s (ordinary g) ∧ s.me.standing = none ∧ i < 32 ∧ x.count ≠ 0 ∧ x.count.toNat ≤ x.sig.toNat) ∧
    (∃ (s : State) (g : Guard) (d : SReg) (a : SReg) (imm : BitVec 15) (c : Nat) (i : Nat) (me : _) (x : _), c = clusterOf
      s.curTile ∧ me = (s.curTile, s.curStrand, d) ∧ EventLoadAt s a imm (0x200 + 8 * i) ∧ x = (s.cluster c).line i ∧
      Clears s (ordinary g) ∧ s.me.standing = none ∧ i < 32 ∧ x.count ≠ 0 ∧ x.sig.toNat < x.count.toNat) ∧
    (∃ (s : State) (g : Guard) (d : SReg) (a : SReg) (imm : BitVec 15) (c : Nat) (i : Nat) (me : _) (x : _), c = clusterOf
      s.curTile ∧ me = (s.curTile, s.curStrand, d) ∧ EventLoadAt s a imm (0x100 + 8 * i) ∧ x = (s.cluster c).mutex i ∧
      Clears s (ordinary g) ∧ s.me.standing = none ∧ i < 16 ∧ x.owner = none) ∧
    (∃ (s : State) (g : Guard) (d : SReg) (a : SReg) (imm : BitVec 15) (c : Nat) (i : Nat) (me : _) (x : _), c = clusterOf
      s.curTile ∧ me = (s.curTile, s.curStrand, d) ∧ EventLoadAt s a imm (0x100 + 8 * i) ∧ x = (s.cluster c).mutex i ∧
      Clears s (ordinary g) ∧ s.me.standing = none ∧ i < 16 ∧ x.owner ≠ none) ∧
    (∃ (s : State) (g : Guard) (d : SReg) (a : SReg) (imm : BitVec 15) (c : Nat) (i : Nat) (me : _) (x : _), c = clusterOf
      s.curTile ∧ me = (s.curTile, s.curStrand, d) ∧ EventLoadAt s a imm (8 * i) ∧ x = (s.cluster c).barrier i ∧
      Clears s (ordinary g) ∧ s.me.standing = none ∧ i < 8 ∧ x.count ≠ 0 ∧ x.waitup = false ∧ s.storesLanded = true ∧
      x.arr + 1 < x.count.toNat) ∧
    (∃ (s : State) (g : Guard) (d : SReg) (a : SReg) (imm : BitVec 15) (c : Nat) (i : Nat) (me : _) (x : _), c = clusterOf
      s.curTile ∧ me = (s.curTile, s.curStrand, d) ∧ EventLoadAt s a imm (8 * i) ∧ x = (s.cluster c).barrier i ∧
      Clears s (ordinary g) ∧ s.me.standing = none ∧ i < 8 ∧ x.count ≠ 0 ∧ x.waitup = false ∧ s.storesLanded = true ∧
      x.count.toNat ≤ x.arr + 1 ∧ x.chain = none ∧ x.waiters = []) :=
  ⟨⟨events { lines := [(31, { count := 2 })] } (with4 0x3802F8), Guard.always, 4, _, 31, _, _, rfl, rfl, rfl,
      (by unfold Clears EventAt; decide +kernel)⟩,
    ⟨events { lines := [(31, { count := 1, waiters := [(1, 0, 3)] })] } (with4 0x3802F8), Guard.always, 4, _, 31, _, _, 1,
      0, 3, rfl, rfl, rfl, (by unfold Clears EventAt; decide +kernel)⟩,
    ⟨events { barriers := [(7, { count := 2 })] } (with4 0x380038), Guard.always, 4, _, 7, _, rfl, rfl,
      (by unfold Clears EventAt; decide +kernel)⟩,
    ⟨events { barriers := [(7, { count := 1, waiters := [(1, 0, 3)] })] } (with4 0x380038), Guard.always, 4, _, 7, _, 1,
      0, 3, rfl, rfl, (by unfold Clears EventAt; decide +kernel)⟩,
    ⟨events {} (with45 0x380000 3), Guard.always, 4, 5, _, 0, 3, none, rfl, (by unfold Clears EventAt; decide +kernel)⟩,
    ⟨events {} (with45 0x380200 3), Guard.always, 4, 5, _, 0, 3, none, rfl, (by unfold Clears EventAt; decide +kernel)⟩,
    ⟨0, (by decide +kernel)⟩,
    ⟨events { mutexes := [(15, { owner := some (0, 0) })] } (with4 0x380178), Guard.always, 4, _, 15, rfl,
      (by unfold Clears EventAt; decide +kernel)⟩,
    ⟨events { mutexes := [(15, { owner := some (0, 0), queue := [(1, 0, 3)] })] } (with4 0x380178), Guard.always, 4, _,
      15, 1, 0, 3, [], rfl, (by unfold Clears EventAt; decide +kernel)⟩,
    ⟨{ events { barriers := [(0, { count := 2 })] } strand with chains := [⟨false, 0, false, 0, 0, false, 0⟩] }, 0,
      ⟨false, 0, false, 0, 0, false, 0⟩, _, rfl, (by decide +kernel)⟩,
    ⟨{ events { barriers := [(0, { count := 2, waitup := true })] } strand with chains := [⟨true, 0, false, 0, 0, false, 0⟩] },
      0, ⟨true, 0, false, 0, 0, false, 0⟩, _, rfl, (by decide +kernel)⟩,
    ⟨events { lines := [(31, { count := 1, sig := 1 })] } (with4 0x3802F8), Guard.always, 3, 4, 0, _, 31, _, _, rfl, rfl,
      ⟨(by decide +kernel), (by decide +kernel), (by decide +kernel), 0x3802F8, (by decide +kernel),
      (by decide +kernel), (by decide +kernel), (by decide +kernel)⟩, rfl, (by unfold Clears; decide +kernel)⟩,
    ⟨events { lines := [(31, { count := 2, sig := 1 })] } (with4 0x3802F8), Guard.always, 3, 4, 0, _, 31, _, _, rfl, rfl,
      ⟨(by decide +kernel), (by decide +kernel), (by decide +kernel), 0x3802F8, (by decide +kernel),
      (by decide +kernel), (by decide +kernel), (by decide +kernel)⟩, rfl, (by unfold Clears; decide +kernel)⟩,
    ⟨events {} (with4 0x380178), Guard.always, 3, 4, 0, _, 15, _, _, rfl, rfl, ⟨(by decide +kernel), (by decide +kernel),
      (by decide +kernel), 0x380178, (by decide +kernel), (by decide +kernel), (by decide +kernel),
      (by decide +kernel)⟩, rfl, (by unfold Clears; decide +kernel)⟩,
    ⟨events { mutexes := [(15, { owner := some (1, 0) })] } (with4 0x380178), Guard.always, 3, 4, 0, _, 15, _, _, rfl,
      rfl, ⟨(by decide +kernel), (by decide +kernel), (by decide +kernel), 0x380178, (by decide +kernel),
      (by decide +kernel), (by decide +kernel), (by decide +kernel)⟩, rfl, (by unfold Clears; decide +kernel)⟩,
    ⟨events { barriers := [(7, { count := 2 })] } (with4 0x380038), Guard.always, 3, 4, 0, _, 7, _, _, rfl, rfl,
      ⟨(by decide +kernel), (by decide +kernel), (by decide +kernel), 0x380038, (by decide +kernel),
      (by decide +kernel), (by decide +kernel), (by decide +kernel)⟩, rfl, (by unfold Clears; decide +kernel)⟩,
    ⟨events { barriers := [(7, { count := 2, arr := 1 })] } (with4 0x380038), Guard.always, 3, 4, 0, _, 7, _, _, rfl, rfl,
      ⟨(by decide +kernel), (by decide +kernel), (by decide +kernel), 0x380038, (by decide +kernel),
      (by decide +kernel), (by decide +kernel), (by decide +kernel)⟩, rfl, (by unfold Clears; decide +kernel)⟩⟩

theorem test_hypotheses_SheafInstructions :
    (∃ (s : State) (q : Gang), isSteward s.curTile = false ∧ s.gangOf s.curTile = some q ∧ Clears s (ordinary
      Guard.always) ∧ s.me.standing = none ∧ s.storesLanded = true) ∧
    (∃ (s : State) (gd : Guard) (q : Gang) (op : SheafOp) (a : SReg), isSteward s.curTile = false ∧ s.gangOf s.curTile =
      some q ∧ Clears s (ordinary gd) ∧ s.me.tag a = false ∧ (∀ c ∈ s.myTile.redc, c.op = op) ∧ s.myTile.redc.length <
      64) ∧
    (∃ (s : State) (t : Nat) (q : Gang) (v : Word), s.gangOf t = some q ∧ q.syncDown = some v ∧ t ∈ q.syncTodo) ∧
    (∃ (s : State) (t : Nat) (q : Gang), s.gangOf t = some q ∧ (s.tile t).vote.sent = false ∧ q.mirrorWait = false ∧ t ∉
      q.todo ∧ s.quietTile t = true) ∧
    (∃ (T : Tile), T.redc = []) ∧
    (∃ (T : Tile), T.redc ≠ [] ∧ (∀ c ∈ T.redc, c.op = .add)) :=
  ⟨⟨on tile strand, gang, (by unfold Clears; decide +kernel)⟩,
    ⟨on { tile with redc := List.replicate 63 ⟨.add, 1, 0, 0⟩ } strand, Guard.always, gang, .add, 4,
      (by unfold Clears; decide +kernel)⟩,
    ⟨onGang { gang with syncDown := some 5, syncTodo := [0] } tile strand, 0,
      { gang with syncDown := some 5, syncTodo := [0] }, 5, (by decide +kernel)⟩,
    ⟨on { tile with seq := { phase := .exchange } } {}, 0, gang, (by decide +kernel)⟩,
    ⟨{}, (by decide +kernel)⟩,
    ⟨{ redc := [⟨.add, 1, 0, 0⟩] }, (by decide +kernel)⟩⟩

theorem test_hypotheses_SheafDecision :
    (∃ (s : State) (id : Nat) (node : Nat) (g : Gang) (c : Combined), (c = combine g.size false (((g.children
      node).flatMap g.sent).filter fun p => p.kind == 0#2)) ∧ node = g.root ∧ s.gang id = some g ∧ g.state = .running
      ∧ g.verdict = none ∧ g.linkFail = false ∧ g.arriveReady node = true ∧ g.rank = 0 ∧ (g.mismatch = false) ∧
      (c.mismatched = false)) ∧
    (∃ (s : State) (id : Nat) (node : Nat) (g : Gang) (c : Combined), (c = combine g.size false (((g.children
      node).flatMap g.sent).filter fun p => p.kind == 0#2)) ∧ s.gang id = some g ∧ g.state = .running ∧ g.verdict =
      none ∧ g.linkFail = false ∧ g.arriveReady node = true ∧ node ≠ g.root ∧ node ≠ 2000) ∧
    (∃ (ps : List Packet), ps ≠ []) ∧
    (∃ (ps : List Packet), (∀ p ∈ ps, p.vote = 0)) ∧
    (∃ (size : Nat) (ps : List Packet) (p : _), p ∈ ps ∧ p.vote = (combine size false ps).vote) ∧
    (∃ (ps : List Packet), (∀ p ∈ ps, p.empty = true)) ∧
    (∃ (p : Packet) (q : Packet), (p.level, p.index, p.empty) = (0, 0, false) ∧ (q.level, q.index, q.empty) = (0, 1,
      false) ∧ p.rop = q.rop ∧ p.rop ≠ 0) ∧
    (∃ (g : Gang) (id : Nat) (step : Nat) (n : BitVec 8) (limit : BitVec 8) (v : BitVec 2) (cause : BitVec 8) (ctile :
      Nat) (w : Word) (p : Packet), p = g.decision id step n limit v cause ctile w) ∧
    (∃ (g : Gang) (id : Nat) (step : Nat) (n : BitVec 8) (limit : BitVec 8) (v : BitVec 2) (cause : BitVec 8) (ctile :
      Nat) (w : Word) (p : Packet), p = g.decision id step n limit v cause ctile w ∧ v = 3) ∧
    (∃ (g : Gang) (id : Nat) (step : Nat) (n : BitVec 8) (limit : BitVec 8) (v : BitVec 2) (cause : BitVec 8) (ctile :
      Nat) (w : Word) (p : Packet), p = g.decision id step n limit v cause ctile w ∧ v = 1) ∧
    (∃ (g : Gang) (id : Nat) (step : Nat) (n : BitVec 8) (limit : BitVec 8) (v : BitVec 2) (cause : BitVec 8) (ctile :
      Nat) (w : Word) (p : Packet), p = g.decision id step n limit v cause ctile w ∧ v = 0) ∧
    (∃ (g : Gang) (id : Nat) (step : Nat) (n : BitVec 8) (limit : BitVec 8) (v : BitVec 2) (cause : BitVec 8) (ctile :
      Nat) (w : Word) (p : Packet), p = g.decision id step n limit v cause ctile w ∧ v = 2) ∧
    (∃ (s : State) (id : Nat) (c : Nat) (g : Gang), s.gang id = some g ∧ g.state = .running ∧ g.verdict = none ∧ g.rank =
      0 ∧ s.deadlocked id g = true ∧ (g.sample = some (c, g.place.map fun t => (s.tile t).act)) ∧ g.roundTrip ≤
      s.cycle - c) :=
  ⟨⟨onGang { lone with up := [(10000, [packet 0])] } tile strand, 1, _, { lone with up := [(10000, [packet 0])] }, _,
      rfl, rfl, (by decide +kernel)⟩,
    ⟨onGang { gang with clusters := 2, perCluster := 1, place := [0, 17], up := [(10000, [packet 0])] } tile strand, 1, 0,
      { gang with clusters := 2, perCluster := 1, place := [0, 17], up := [(10000, [packet 0])] }, _, rfl,
      (by decide +kernel)⟩,
    ⟨[packet 0, packet 1], (List.cons_ne_nil _ _)⟩,
    ⟨[packet 0, packet 0], (by decide +kernel)⟩,
    ⟨2, [packet 0, packet 1], packet 1, (by decide +kernel)⟩,
    ⟨[packet 0, { packet 0 with rop := 3 }], (by decide +kernel)⟩,
    ⟨{ packet 0 with rop := 1, payload := 7, empty := false },
      { packet 0 with rop := 1, index := 1, payload := 9, empty := false }, (by decide +kernel)⟩,
    ⟨lone, 1, 0, 0, 0, 1, 0, 0, 0, _, rfl⟩,
    ⟨lone, 1, 0, 0, 0, 3, 0, 0, 0, _, rfl, (by decide +kernel)⟩,
    ⟨lone, 1, 0, 0, 0, 1, 0, 0, 0, _, rfl, (by decide +kernel)⟩,
    ⟨lone, 1, 0, 0, 0, 0, 0, 0, 0, _, rfl, (by decide +kernel)⟩,
    ⟨lone, 1, 0, 0, 0, 2, 0, 0, 0, _, rfl, (by decide +kernel)⟩,
    ⟨{ onGang { lone with sample := some (0, [0]) } tile { strand with run := .parked .park } with cycle := 2 ^ 30 }, 1,
      0, { lone with sample := some (0, [0]) }, (by decide +kernel)⟩⟩

theorem test_hypotheses_Decisions :
    (∃ (s : State) (t : Nat) (g : Gang) (p : Packet) (T : Tile), T = s.tile t ∧ s.gangOf t = some g ∧ g.verdict = some p ∧
      t ∈ g.todo ∧ p.vote = 0) ∧
    (∃ (s : State) (t : Nat) (g : Gang) (p : Packet) (T : Tile), T = s.tile t ∧ s.gangOf t = some g ∧ g.verdict = some p ∧
      t ∈ g.todo ∧ p.vote = 1 ∧ p.yield = false ∧ T.seq.phase ≠ .start) ∧
    (∃ (s : State) (t : Nat) (g : Gang) (p : Packet) (T : Tile), T = s.tile t ∧ s.gangOf t = some g ∧ g.verdict = some p ∧
      t ∈ g.todo ∧ p.vote = 2 ∧ T.ctl.sstep + 1 ≠ g.stepLimit ∧ g.todo = [t] ∧ g.place.Nodup) ∧
    (∃ (s : State) (t : Nat) (g : Gang) (p : Packet) (T : Tile), T = s.tile t ∧ s.gangOf t = some g ∧ g.verdict = some p ∧
      t ∈ g.todo ∧ p.vote = 1 ∧ p.yield = true ∧ T.seq.phase ≠ .start ∧ g.todo = [t] ∧ g.place.Nodup) ∧
    (∃ (s : State) (t : Nat) (g : Gang) (p : Packet) (T : Tile), T = s.tile t ∧ s.gangOf t = some g ∧ g.verdict = some p ∧
      t ∈ g.todo ∧ p.vote = 3) :=
  ⟨⟨onGang { gang with verdict := some (packet 0), todo := [0] } tile strand, 0,
      { gang with verdict := some (packet 0), todo := [0] }, packet 0, _, rfl, (by decide +kernel)⟩,
    ⟨onGang { gang with verdict := some (packet 1), todo := [0] } tile strand, 0,
      { gang with verdict := some (packet 1), todo := [0] }, packet 1, _, rfl, (by decide +kernel)⟩,
    ⟨onGang { lone with verdict := some (packet 2), todo := [0] } tile strand, 0,
      { lone with verdict := some (packet 2), todo := [0] }, (packet 2), _, rfl, (by decide +kernel)⟩,
    ⟨onGang { lone with verdict := some ({ packet 1 with yield := true }), todo := [0] } tile strand, 0,
      { lone with verdict := some ({ packet 1 with yield := true }), todo := [0] }, ({ packet 1 with yield := true }),
      _, rfl, (by decide +kernel)⟩,
    ⟨onGang { gang with verdict := some (packet 3), todo := [0] } tile strand, 0,
      { gang with verdict := some (packet 3), todo := [0] }, packet 3, _, rfl, (by decide +kernel)⟩⟩

theorem test_hypotheses_StartAndDispatch :
    (∃ (s : State) (t : Nat) (T : Tile), T = s.tile t ∧ (∀ q, s.gangOf t = some q → q.pfl0 = 0 ∨ T.ctl.sstep ≠ 0) ∧
      T.seq.phase = .start ∧ T.parentSigs = [] ∧ s.leaderOk t = true ∧ (∀ u ∈ s.clusterMates t, s.behind t u = false)
      ∧ (T.beginStep s.fresh).listCause (s.plotsOf t) = none) ∧
    (∃ (s : State) (t : Nat) (T : Tile) (e : Entry), T = s.tile t ∧ e = T.entryAt (T.seq.laddr + 24 * T.seq.entry) ∧
      T.seq.phase = .compute ∧ T.seq.failed = false ∧ T.msgFirst = false ∧ T.leader = false ∧ T.follower = false ∧
      T.seq.entry < T.seq.count ∧ e.guard T.seq.preds (s.plotsOf t) = false) ∧
    (∃ (s : State) (t : Nat) (T : Tile) (e : Entry) (k : _), T = s.tile t ∧ e = T.entryAt (T.seq.laddr + 24 * T.seq.entry)
      ∧ T.seq.phase = .compute ∧ T.seq.failed = false ∧ T.msgFirst = false ∧ T.leader = false ∧ T.follower = false ∧
      T.seq.entry < T.seq.count ∧ e.guard T.seq.preds (s.plotsOf t) = true ∧ s.idleStrand t = some k ∧ T.badTarget
      e.pc.toNat = false) ∧
    (∃ (s : State) (t : Nat) (st : Bool) (m : Msg) (k : _), (s.tile t).seq.phase = .compute ∧ (s.tile t).nextMsg = some
      (st, m) ∧ bitsOf m.desc 0 2 = 0 ∧ (s.tile t).seq.failed = false ∧ s.idleStrand t = some k ∧ (s.tile t).badTarget
      (bitsOf m.desc 32 15) = false) ∧
    (∃ (s : State) (t : Nat) (st : Bool) (m : Msg), (s.tile t).seq.phase = .compute ∧ (s.tile t).nextMsg = some (st, m) ∧
      bitsOf m.desc 0 2 = 1 ∧ (s.strand t 4).run = .idle) ∧
    (∃ (s : State) (t : Nat) (st : Bool) (m : Msg), (s.tile t).seq.phase = .compute ∧ (s.tile t).nextMsg = some (st, m) ∧
      (bitsOf m.desc 0 2 = 0 → (s.tile t).seq.failed = false ∧ (s.idleStrand t).isSome = true) ∧ (bitsOf m.desc 0 2 ≠
      0 → (s.strand t 4).run = .idle)) :=
  ⟨⟨on { gang := 1, seq := { phase := .start } } {}, 0, _, rfl, (fun q h => Option.some.inj (show some gang = some q from
      h) ▸ .inl rfl), (by decide +kernel)⟩,
    ⟨on { tile with seq := { phase := .compute, count := 1, laddr := 0x8000 }, mem := { bytes := [(2, 2)] } } strand, 0,
      _, _, rfl, rfl, (by decide +kernel)⟩,
    ⟨on { tile with seq := { phase := .compute, count := 1, laddr := 0x8000 }, mem := { bytes := [(0, 2)] } } strand, 0,
      _, _, 1, rfl, rfl, (by decide +kernel)⟩,
    ⟨on { tile with steppedNow := [message (2 ^ 33)] } strand, 0, true, message (2 ^ 33), 1, (by decide +kernel)⟩,
    ⟨on { tile with steppedNow := [message 1] } strand, 0, true, message 1, (by decide +kernel)⟩,
    ⟨on { tile with steppedNow := [message 1] } strand, 0, true, message 1, (by decide +kernel)⟩⟩

theorem test_hypotheses_ExchangeAndMessages :
    (∃ (s : State) (t : Nat) (a : Nat) (T : Tile) (w : Nat × Nat × Bool) (es : List (BitVec 128)) (fs : List Send), T =
      s.tile t ∧ (∀ e ∈ es, T.badSend (s.gangSize t) e = false) ∧ (∀ e ∈ es, T.gatedIn (sendEntry e).src (sendEntry
      e).len = none) ∧ (fs = (List.range es.length).map (fun i => ⟨t, (s.gangOf t).bind fun g => g.tileAt (sendEntry
      (es.getD i 0)).dest, (sendEntry (es.getD i 0)).doff, T.readWords (sendEntry (es.getD i 0)).src ((sendEntry
      (es.getD i 0)).len / 8), false, false, s.netOrd + i, (sendEntry (es.getD i 0)).src, []⟩)) ∧ es.length ≤ 8 ∧ es =
      T.sendEntries w.1 w.2.1 ∧ w = scheduleWord (BitVec.ofNat 64 (T.readNat a 8)) ∧ w.2.2 = false ∧ T.placed a 8 =
      true ∧ T.placed w.1 (16 * w.2.1) = true ∧ T.readPoison a 8 = false ∧ (w.2.1 ≠ 0 → T.readPoison w.1 (16 * w.2.1)
      = false) ∧ (∀ f ∈ s.sends, f.src ≠ t) ∧ T.seq.failed = false ∧ T.seq.sends = [] ∧ T.seq.phase = .compute ∧
      s.computeDone t = true ∧ a = bitsOf T.snap.xschedptr 3 15 * 8 + 8 * (T.ctl.sstep.toNat % listPeriod
      T.snap.listptr)) ∧
    (∃ (s : State) (t : Nat) (a : Nat) (T : Tile) (w : Nat × Nat × Bool) (es : List (BitVec 128)) (fs : List Send) (g :
      Guard) (x : SReg) (sy : Sync), T = s.tile t ∧ (∀ e ∈ es, T.badSend (s.gangSize t) e = false) ∧ (∀ e ∈ es,
      T.gatedIn (sendEntry e).src (sendEntry e).len = none) ∧ (fs = (List.range es.length).map (fun i => ⟨t, (s.gangOf
      t).bind fun g => g.tileAt (sendEntry (es.getD i 0)).dest, (sendEntry (es.getD i 0)).doff, T.readWords (sendEntry
      (es.getD i 0)).src ((sendEntry (es.getD i 0)).len / 8), false, false, s.netOrd + i, (sendEntry (es.getD i
      0)).src, []⟩)) ∧ t = s.curTile ∧ (∀ e ∈ es, s.sourceReady t s.curStrand (sendEntry e).src (sendEntry e).len =
      true) ∧ es.length ≤ 8 ∧ es = T.sendEntries w.1 w.2.1 ∧ w = scheduleWord (BitVec.ofNat 64 (T.readNat a 8)) ∧
      w.2.2 = false ∧ T.placed a 8 = true ∧ T.placed w.1 (16 * w.2.1) = true ∧ T.readPoison a 8 = false ∧ (w.2.1 ≠ 0 →
      T.readPoison w.1 (16 * w.2.1) = false) ∧ (∀ f ∈ s.sends, f.src ≠ t) ∧ isSteward t = false ∧ Clears s (ordinary
      g) ∧ s.waitMet sy = true ∧ s.me.tag x = false ∧ (s.me.rd x).toNat = a ∧ a % 8 = 0 ∧ T.seq.xsched = none ∧
      s.sourceReady t s.curStrand a 8 = true ∧ s.sourceReady t s.curStrand w.1 (16 * w.2.1) = true) ∧
    (∃ (s : State) (t : Nat) (k : Nat) (sy : Sync), (s.tile t).seq.xsched = some (sy, k) ∧ (s.tile t).seq.sends = [] ∧ (∀
      f ∈ s.sends, f.src ≠ t) ∧ SignalFits s t sy) ∧
    (∃ (s : State) (n : Nat) (d : Nat) (f : Send) (w : Wrote), (s.tile d).writeWords true f.doff f.words = some w ∧
      s.sends[n]? = some f ∧ f.landed = false ∧ f.dest = some d ∧ s.behind f.src d = false ∧ s.commitAhead f.src d
      f.ord = false ∧ (s.tile d).rangeIs Region.isV f.doff (8 * f.words.length) = true) ∧
    (∃ (s : State) (n : Nat) (f : Send), s.sends[n]? = some f ∧ f.landed = true ∧ f.report = false ∧ (s.tile
      f.src).seq.sends = []) ∧
    (∃ (s : State) (n : Nat) (f : MsgFlight), s.msgs[n]? = some f ∧ s.behind f.src f.dest = false ∧ msgBad f.msg.desc =
      false ∧ f.msg.desc.getLsbD 2 = false ∧ s.commitAhead f.src f.dest f.ord = false ∧ (s.tile f.dest).mem.free ≠ []) ∧
    (∃ (s : State) (n : Nat) (f : MsgFlight), s.msgs[n]? = some f ∧ s.behind f.src f.dest = false ∧ msgBad f.msg.desc =
      false ∧ f.msg.desc.getLsbD 2 = true ∧ (s.tile f.dest).seq.phase = .compute) ∧
    (∃ (s : State) (t : Nat), isSteward t = false ∧ ((s.tile t).seq.phase = .compute ∨ (s.tile t).seq.phase = .exchange) ∧
      (s.tile t).vote.sent = false ∧ (s.tile t).seq.failed = false ∧ bitsOf (s.tile t).ctl.budget 0 24 ≠ 0 ∧ bitsOf
      (s.tile t).ctl.budget 0 24 ≤ bitsOf (s.tile t).ctl.budget 24 24) ∧
    (∃ (s : State) (t : Nat) (seg : Nat), seg < 14 ∧ (s.tile t).waking.getLsbD seg = true ∧ (s.tile t).gated seg = true) :=
  ⟨⟨on
      { vtile with mem := { bytes := [(0, 128), (1, 128), (2, 4), (129, 129), (130, 32), (132, 16), (137, 129)] }, snap := { xschedptr := 0x8000 } }
      {}, 0, 0x8000, _, (0x8080, 1, false), [BitVec.ofNat 128 0x81000000001000208100], _, rfl,
      List.forall_mem_cons.mpr ⟨(by decide +kernel), (fun _ h => nomatch h)⟩, List.forall_mem_cons.mpr
      ⟨(by decide +kernel), (fun _ h => nomatch h)⟩, rfl, (by decide +kernel)⟩,
    ⟨on
      { vtile with mem := { bytes := [(0, 128), (1, 128), (2, 4), (129, 129), (130, 32), (132, 16), (137, 129)] }, snap := { xschedptr := 0x8000 } }
      (with4 0x8000), _, 0x8000, _, (0x8080, 1, false), [BitVec.ofNat 128 0x81000000001000208100], _, Guard.always, 4,
      Sync.none, rfl, List.forall_mem_cons.mpr ⟨(by decide +kernel), (fun _ h => nomatch h)⟩, List.forall_mem_cons.mpr
      ⟨(by decide +kernel), (fun _ h => nomatch h)⟩, rfl, rfl, List.forall_mem_cons.mpr ⟨(by decide +kernel),
      (fun _ h => nomatch h)⟩, (by unfold Clears; decide +kernel)⟩,
    ⟨on { tile with seq := { phase := .compute, xsched := some (Sync.none, 0) } } strand, 0, 0, Sync.none,
      (by unfold SignalFits; decide +kernel)⟩,
    ⟨{ pair vtile vtile strand with sends := [sent false] }, 0, 1, sent false, _, (Option.some_get
      (by decide +kernel)).symm, (by decide +kernel)⟩,
    ⟨{ pair vtile vtile strand with sends := [sent true] }, 0, sent true, (by decide +kernel)⟩,
    ⟨{ pair tile tile strand with msgs := [⟨0, 1, message 0, 0⟩] }, 0, ⟨0, 1, message 0, 0⟩, (by decide +kernel)⟩,
    ⟨{ pair tile tile strand with msgs := [⟨0, 1, message 4, 0⟩] }, 0, ⟨0, 1, message 4, 0⟩, (by decide +kernel)⟩,
    ⟨on { tile with ctl := { budget := 0x1000001 } } strand, 0, (by decide +kernel)⟩,
    ⟨on { tile with waking := 1, ctl := { memcfg := 2 ^ 28 } } strand, 0, 0, (by decide +kernel)⟩⟩

theorem test_hypotheses_Gleaner :
    (∃ (s : State) (g : Guard) (plot : BitVec 3) (a : SReg) (d : BitVec 512) (G : Gang) (e : _), d = s.myTile.descriptor
      (s.me.rd a).toNat ∧ (d.getLsbD 74 = true ∨ badDescriptor d = false ∧ (plotView d = 0 ∨ viewValid (plotView d)
      (s.viewDesc (s.partOf s.curTile) s.myTile.gang (plotView d)) = true ∧ plotBase d + plotCount d * plotPatch d ≤
      (viewOf (s.viewDesc (s.partOf s.curTile) s.myTile.gang (plotView d))).positions) ∧ s.plotPages s.curTile d = .ok
      ∧ s.recordsFit s.myTile.gang plot.toNat (plotCount d) = true) ∧ (e = (if d.getLsbD 74 then BitVec.ofNat 512 (2 ^
      74) else d)) ∧ isSteward s.curTile = false ∧ Clears s (ordinary g) ∧ s.me.tag a = false ∧ (s.me.rd a).toNat % 8
      = 0 ∧ s.myTile.rangeIs Region.readable (s.me.rd a).toNat 64 = true ∧ s.wakeFor s.curTile (s.me.rd a).toNat 64 =
      none ∧ s.myTile.readPoison (s.me.rd a).toNat 64 = false ∧ s.gang s.myTile.gang = some G ∧ G.pendingConfig
      plot.toNat = none) ∧
    (∃ (s : State) (g : Guard) (plot : BitVec 3) (a : SReg) (d : BitVec 512) (G : Gang) (e : _), d = s.myTile.descriptor
      (s.me.rd a).toNat ∧ (d.getLsbD 74 = true ∨ badDescriptor d = false ∧ (plotView d = 0 ∨ viewValid (plotView d)
      (s.viewDesc (s.partOf s.curTile) s.myTile.gang (plotView d)) = true ∧ plotBase d + plotCount d * plotPatch d ≤
      (viewOf (s.viewDesc (s.partOf s.curTile) s.myTile.gang (plotView d))).positions) ∧ s.plotPages s.curTile d = .ok
      ∧ s.recordsFit s.myTile.gang plot.toNat (plotCount d) = true) ∧ (e = (if d.getLsbD 74 then BitVec.ofNat 512 (2 ^
      74) else d)) ∧ isSteward s.curTile = false ∧ Clears s (ordinary g) ∧ s.me.tag a = false ∧ (s.me.rd a).toNat % 8
      = 0 ∧ s.myTile.rangeIs Region.readable (s.me.rd a).toNat 64 = true ∧ s.wakeFor s.curTile (s.me.rd a).toNat 64 =
      none ∧ s.myTile.readPoison (s.me.rd a).toNat 64 = false ∧ s.gang s.myTile.gang = some G ∧ G.pendingConfig
      plot.toNat = some e) ∧
    (∃ (s : State) (g : Guard) (plot : BitVec 3) (a : SReg) (d : BitVec 512) (G : Gang) (e : _) (f : _), d =
      s.myTile.descriptor (s.me.rd a).toNat ∧ (d.getLsbD 74 = true ∨ badDescriptor d = false ∧ (plotView d = 0 ∨
      viewValid (plotView d) (s.viewDesc (s.partOf s.curTile) s.myTile.gang (plotView d)) = true ∧ plotBase d +
      plotCount d * plotPatch d ≤ (viewOf (s.viewDesc (s.partOf s.curTile) s.myTile.gang (plotView d))).positions) ∧
      s.plotPages s.curTile d = .ok ∧ s.recordsFit s.myTile.gang plot.toNat (plotCount d) = true) ∧ (e = (if d.getLsbD
      74 then BitVec.ofNat 512 (2 ^ 74) else d)) ∧ isSteward s.curTile = false ∧ Clears s (ordinary g) ∧ s.me.tag a =
      false ∧ (s.me.rd a).toNat % 8 = 0 ∧ s.myTile.rangeIs Region.readable (s.me.rd a).toNat 64 = true ∧ s.wakeFor
      s.curTile (s.me.rd a).toNat 64 = none ∧ s.myTile.readPoison (s.me.rd a).toNat 64 = false ∧ s.gang s.myTile.gang
      = some G ∧ G.pendingConfig plot.toNat = some f ∧ f ≠ e) ∧
    (∃ (s : State) (g : Guard) (a : SReg) (d : BitVec 512) (G : Gang), d = s.myTile.descriptor (s.me.rd a).toNat ∧
      isSteward s.curTile = false ∧ Clears s (ordinary g) ∧ s.me.tag a = false ∧ (s.me.rd a).toNat % 8 = 0 ∧
      s.myTile.rangeIs Region.readable (s.me.rd a).toNat 64 = true ∧ s.wakeFor s.curTile (s.me.rd a).toNat 64 = none ∧
      s.myTile.readPoison (s.me.rd a).toNat 64 = false ∧ s.gang s.myTile.gang = some G ∧ d.getLsbD 74 = false ∧
      badDescriptor d = true) ∧
    (∃ (s : State) (g : Guard) (a : SReg) (d : BitVec 512) (G : Gang), d = s.myTile.descriptor (s.me.rd a).toNat ∧
      isSteward s.curTile = false ∧ Clears s (ordinary g) ∧ s.me.tag a = false ∧ (s.me.rd a).toNat % 8 = 0 ∧
      s.myTile.rangeIs Region.readable (s.me.rd a).toNat 64 = true ∧ s.wakeFor s.curTile (s.me.rd a).toNat 64 = none ∧
      s.myTile.readPoison (s.me.rd a).toNat 64 = false ∧ s.gang s.myTile.gang = some G ∧ d.getLsbD 74 = false ∧
      badDescriptor d = false ∧ plotView d ≠ 0 ∧ viewValid (plotView d) (s.viewDesc (s.partOf s.curTile) s.myTile.gang
      (plotView d)) = false) ∧
    (∃ (s : State) (g : Guard) (a : SReg) (q : Selector) (P : Plot) (G : Gang), q = selector (s.me.rd a) ∧ isSteward
      s.curTile = false ∧ Clears s (ordinary g) ∧ s.me.tag a = false ∧ s.gangOf s.curTile = some G ∧ G.plots.find
      q.plot = some P ∧ q.reserved = false ∧ q.all = false ∧ q.word = 0 ∧ q.index ≤ 16 ∧ q.patch < plotCount P.desc) ∧
    (∃ (s : State) (g : Guard) (a : SReg) (q : Selector) (P : Plot) (G : Gang), q = selector (s.me.rd a) ∧ isSteward
      s.curTile = false ∧ Clears s (ordinary g) ∧ s.me.tag a = false ∧ s.gangOf s.curTile = some G ∧ G.plots.find
      q.plot = some P ∧ q.reserved = false ∧ q.all = false ∧ q.word = 0 ∧ q.index = 17 ∧ q.patch = 0) ∧
    (∃ (s : State) (g : Guard) (a : SReg) (q : Selector) (P : Plot) (G : Gang), q = selector (s.me.rd a) ∧ isSteward
      s.curTile = false ∧ Clears s (ordinary g) ∧ s.me.tag a = false ∧ s.gangOf s.curTile = some G ∧ G.plots.find
      q.plot = some P ∧ q.reserved = false ∧ q.all = false ∧ q.word = 0 ∧ q.index = 0 ∧ q.patch < plotCount P.desc) ∧
    (∃ (s : State) (g : Guard) (a : SReg) (q : Selector) (P : Plot) (G : Gang), q = selector (s.me.rd a) ∧ isSteward
      s.curTile = false ∧ Clears s (ordinary g) ∧ s.me.tag a = false ∧ s.gangOf s.curTile = some G ∧ G.plots.find
      q.plot = some P ∧ q.reserved = false ∧ q.all = false ∧ q.patch = 0 ∧ q.index = 0 ∧ 64 * q.word < plotCount
      P.desc) ∧
    (∃ (s : State) (g : Guard) (a : SReg) (q : Selector) (P : Plot) (G : Gang), q = selector (s.me.rd a) ∧ isSteward
      s.curTile = false ∧ Clears s (ordinary g) ∧ s.me.tag a = false ∧ s.gangOf s.curTile = some G ∧ G.plots.find
      q.plot = some P ∧ q.reserved = false ∧ q.word = 0 ∧ q.index = 0 ∧ (if q.all then q.patch = 0 else q.patch <
      plotCount P.desc)) ∧
    (∃ (s : State) (g : Guard) (a : SReg) (G : Gang), isSteward s.curTile = false ∧ Clears s (ordinary g) ∧ s.me.tag a =
      false ∧ s.gangOf s.curTile = some G ∧ G.plots.find (selector (s.me.rd a)).plot = none) ∧
    (∃ (s : State) (g : Guard) (plot : BitVec 3) (G : Gang), isSteward s.curTile = false ∧ Clears s (ordinary g) ∧
      s.gangOf s.curTile = some G ∧ (G.plots.find plot.toNat).isSome = true) ∧
    (∃ (s : State) (g : Guard) (plot : BitVec 3) (G : Gang), isSteward s.curTile = false ∧ Clears s (ordinary g) ∧
      s.gangOf s.curTile = some G ∧ G.plots.find plot.toNat = none) :=
  ⟨⟨on { tile with mem := { bytes := [(9, 4)] } } (with4 0x8000), Guard.always, 0, 4, _, gang, _, rfl, .inl
      (by decide +kernel), rfl, (by unfold Clears; decide +kernel)⟩,
    ⟨onGang { gang with observed := [.config 0 (2 ^ 74)] } { tile with mem := { bytes := [(9, 4)] } } (with4 0x8000),
      Guard.always, 0, 4, _, { gang with observed := [.config 0 (2 ^ 74)] }, _, rfl, .inl (by decide +kernel), rfl,
      (by unfold Clears; decide +kernel)⟩,
    ⟨onGang { gang with observed := [.config 0 0] } { tile with mem := { bytes := [(9, 4)] } } (with4 0x8000),
      Guard.always, 0, 4, _, { gang with observed := [.config 0 0] }, _, 0, rfl, .inl (by decide +kernel), rfl,
      (by unfold Clears; decide +kernel)⟩,
    ⟨on { tile with mem := { bytes := [(9, 3)] } } (with4 0x8000), Guard.always, 4, _, gang, rfl,
      (by unfold Clears; decide +kernel)⟩,
    ⟨on { tile with mem := { bytes := [(8, 1)] } } (with4 0x8000), Guard.always, 4, _, gang, rfl,
      (by unfold Clears; decide +kernel)⟩,
    ⟨onGang { gang with plots := [(0, { desc := 0 })] } tile (with4 (0)), Guard.always, 4, _, { desc := 0 },
      { gang with plots := [(0, { desc := 0 })] }, rfl, (by unfold Clears; decide +kernel)⟩,
    ⟨onGang { gang with plots := [(0, { desc := 0 })] } tile (with4 (17 * 2 ^ 16)), Guard.always, 4, _, { desc := 0 },
      { gang with plots := [(0, { desc := 0 })] }, rfl, (by unfold Clears; decide +kernel)⟩,
    ⟨onGang { gang with plots := [(0, { desc := 0 })] } tile (with4 (0)), Guard.always, 4, _, { desc := 0 },
      { gang with plots := [(0, { desc := 0 })] }, rfl, (by unfold Clears; decide +kernel)⟩,
    ⟨onGang { gang with plots := [(0, { desc := 0 })] } tile (with4 (0)), Guard.always, 4, _, { desc := 0 },
      { gang with plots := [(0, { desc := 0 })] }, rfl, (by unfold Clears; decide +kernel)⟩,
    ⟨onGang { gang with plots := [(0, { desc := 0 })] } tile (with4 (0)), Guard.always, 4, _, { desc := 0 },
      { gang with plots := [(0, { desc := 0 })] }, rfl, (by unfold Clears; decide +kernel)⟩,
    ⟨on tile strand, Guard.always, 4, gang, (by unfold Clears; decide +kernel)⟩,
    ⟨onGang { gang with plots := [(0, { desc := 0 })] } tile strand, Guard.always, 0,
      { gang with plots := [(0, { desc := 0 })] }, (by unfold Clears; decide +kernel)⟩,
    ⟨on tile strand, Guard.always, 0, gang, (by unfold Clears; decide +kernel)⟩⟩

theorem test_hypotheses_Steward :
    (∃ (s : State) (g : Guard) (a : SReg) (p : Nat) (bs : _) (po : _) (w : _), Clears s (ordinary g) ∧ s.me.tag a = false
      ∧ p = s.partOf s.curTile ∧ (s.me.rd a).toNat % 64 = 0 ∧ s.rangeOk s.curTile (s.me.rd a).toNat 256 none false =
      true ∧ (s.jobRead p s.myTile.gang (fun e => (s.pageCause s.curTile false false e).isNone) (s.me.rd a) 8 = .ok bs
      po) ∧ w = wordAt bs 0 ∧ po = true) ∧
    (∃ (s : State) (g : Guard) (a : SReg) (p : Nat) (bs : _) (po : _) (w : _), Clears s (ordinary g) ∧ s.me.tag a = false
      ∧ p = s.partOf s.curTile ∧ (s.me.rd a).toNat % 64 = 0 ∧ s.rangeOk s.curTile (s.me.rd a).toNat 256 none false =
      true ∧ (s.jobRead p s.myTile.gang (fun e => (s.pageCause s.curTile false false e).isNone) (s.me.rd a) 8 = .ok bs
      po) ∧ w = wordAt bs 0 ∧ po = false ∧ bitsOf w 22 6 ≠ p) ∧
    (∃ (s : State) (g : Guard) (a : SReg) (p : Nat) (bs : _) (po : _) (w : _), Clears s (ordinary g) ∧ s.me.tag a = false
      ∧ p = s.partOf s.curTile ∧ (s.me.rd a).toNat % 64 = 0 ∧ s.rangeOk s.curTile (s.me.rd a).toNat 256 none false =
      true ∧ (s.jobRead p s.myTile.gang (fun e => (s.pageCause s.curTile false false e).isNone) (s.me.rd a) 8 = .ok bs
      po) ∧ w = wordAt bs 0 ∧ po = false ∧ bitsOf w 22 6 = p ∧ (s.part p).qslotmap.getLsbD (bitsOf w 30 6) = false) ∧
    (∃ (s : State) (g : Guard) (a : SReg) (p : Nat) (bs : _) (po : _) (w : _), Clears s (ordinary g) ∧ s.me.tag a = false
      ∧ p = s.partOf s.curTile ∧ (s.me.rd a).toNat % 64 = 0 ∧ s.rangeOk s.curTile (s.me.rd a).toNat 256 none false =
      true ∧ (s.jobRead p s.myTile.gang (fun e => (s.pageCause s.curTile false false e).isNone) (s.me.rd a) 8 = .ok bs
      po) ∧ w = wordAt bs 0 ∧ po = false ∧ bitsOf w 22 6 = p ∧ (s.part p).qslotmap.getLsbD (bitsOf w 30 6) = true ∧
      s.ownsCluster p = false) ∧
    (∃ (s : State) (g : Guard) (a : SReg) (p : Nat) (bs : _) (po : _) (w : _) (G : _), Clears s (ordinary g) ∧ s.me.tag a
      = false ∧ p = s.partOf s.curTile ∧ (s.me.rd a).toNat % 64 = 0 ∧ s.rangeOk s.curTile (s.me.rd a).toNat 256 none
      false = true ∧ (s.jobRead p s.myTile.gang (fun e => (s.pageCause s.curTile false false e).isNone) (s.me.rd a) 8
      = .ok bs po) ∧ w = wordAt bs 0 ∧ po = false ∧ bitsOf w 22 6 = p ∧ (s.part p).qslotmap.getLsbD (bitsOf w 30 6) =
      true ∧ s.ownsCluster p = true ∧ isSteward s.curTile = false ∧ s.gang s.myTile.gang = some G) ∧
    (∃ (s : State) (g : Guard) (a : SReg) (p : Nat), Clears s (ordinary g) ∧ s.me.tag a = false ∧ p = s.partOf s.curTile ∧
      (s.me.rd a).toNat % 64 = 0 ∧ s.rangeOk s.curTile (s.me.rd a).toNat 256 none false = true ∧ (s.jobRead p
      s.myTile.gang (fun e => (s.pageCause s.curTile false false e).isNone) (s.me.rd a) 8 = .bad)) ∧
    (∃ (s : State) (g : Guard) (a : SReg) (p : Nat) (va : _), Clears s (ordinary g) ∧ s.me.tag a = false ∧ p = s.partOf
      s.curTile ∧ (s.me.rd a).toNat % 64 = 0 ∧ s.rangeOk s.curTile (s.me.rd a).toNat 256 none false = true ∧
      (s.jobRead p s.myTile.gang (fun e => (s.pageCause s.curTile false false e).isNone) (s.me.rd a) 8 = .fault va)) ∧
    (∃ (s : State) (g : Guard) (a : SReg) (id : Nat), id = bitsOf (s.me.rd a) 0 16 ∧ Clears s (privileged g 3) ∧ s.me.tag
      a = false ∧ s.gang id = none) ∧
    (∃ (s : State) (g : Guard) (a : SReg) (id : Nat) (G : _), id = bitsOf (s.me.rd a) 0 16 ∧ Clears s (privileged g 3) ∧
      s.me.tag a = false ∧ s.gang id = some G ∧ G.state ≠ .running) ∧
    (∃ (s : State) (g : Guard) (a : SReg) (id : Nat) (G : _), id = bitsOf (s.me.rd a) 0 16 ∧ Clears s (privileged g 3) ∧
      s.me.tag a = false ∧ s.gang id = some G ∧ G.state = .running ∧ G.preempt = true) ∧
    (∃ (s : State) (g : Guard) (a : SReg) (id : Nat) (G : _), id = bitsOf (s.me.rd a) 0 16 ∧ Clears s (privileged g 3) ∧
      s.me.tag a = false ∧ s.gang id = some G ∧ G.state = .running ∧ G.preempt = false) ∧
    (∃ (s : State) (g : Guard) (a : SReg) (b : SReg), Clears s (privileged g 3) ∧ s.me.tag a = false ∧ s.me.tag b = false
      ∧ s.hostq.length < 64) ∧
    (∃ (s : State) (g : Guard) (a : SReg) (b : SReg), Clears s (privileged g 3) ∧ s.me.tag a = false ∧ s.me.tag b = false
      ∧ 64 ≤ s.hostq.length) ∧
    (∃ (s : State) (g : Guard) (a : SReg) (b : SReg) (k : Nat), Clears s (privileged g 3) ∧ s.me.tag a = false ∧ s.me.tag
      b = false ∧ k = bitsOf (s.me.rd b) 0 6 ∧ (s.me.rd a).toNat % 64 = 0 ∧ s.slot k = none) ∧
    (∃ (s : State) (g : Guard) (a : SReg) (b : SReg) (k : Nat) (x : _), ((∃ j, s.disp.job = some j ∧ j.slot = k) ∨ (∃ e ∈
      s.disp.done, e.gang = 0 ∧ e.part = x.part ∧ e.qid = some x.qid)) ∧ Clears s (privileged g 3) ∧ s.me.tag a =
      false ∧ s.me.tag b = false ∧ k = bitsOf (s.me.rd b) 0 6 ∧ (s.me.rd a).toNat % 64 = 0 ∧ s.slot k = some x) ∧
    (∃ (s : State) (g : Guard) (a : SReg) (b : SReg) (k : Nat) (x : _) (ps : _), (∀ j, s.disp.job = some j → j.slot ≠ k) ∧
      (∀ e ∈ s.disp.done, e.gang = 0 → e.part = x.part → e.qid ≠ some x.qid) ∧ Clears s (privileged g 3) ∧ s.me.tag a
      = false ∧ s.me.tag b = false ∧ k = bitsOf (s.me.rd b) 0 6 ∧ (s.me.rd a).toNat % 64 = 0 ∧ s.slot k = some x ∧
      s.pages s.pkg.partid.toNat 0 [(s.me.rd a).toNat] = .ok ps ∧ ((ps.all fun q => entryW q.e) = true) ∧ ps.any
      s.frozenPage = false) ∧
    (∃ (s : State) (g : Guard) (a : SReg) (b : SReg) (k : Nat) (bs : List Byte) (w : List Word) (x : Slot), w =
      (List.range 8).map (wordAt bs) ∧ x = Slot.ofQcb w 0 ∧ Clears s (privileged g 3) ∧ s.me.tag a = false ∧ s.me.tag
      b = false ∧ k = bitsOf (s.me.rd b) 0 6 ∧ (s.me.rd a).toNat % 64 = 0 ∧ (s.jobRead s.pkg.partid.toNat 0 (fun _ =>
      true) (s.me.rd a) 64 = .ok bs false) ∧ (s.slot k).isSome = true) ∧
    (∃ (s : State) (g : Guard) (a : SReg) (b : SReg) (k : Nat) (bs : List Byte) (w : List Word) (x : Slot), w =
      (List.range 8).map (wordAt bs) ∧ x = Slot.ofQcb w 0 ∧ Clears s (privileged g 3) ∧ s.me.tag a = false ∧ s.me.tag
      b = false ∧ k = bitsOf (s.me.rd b) 0 6 ∧ (s.me.rd a).toNat % 64 = 0 ∧ (s.jobRead s.pkg.partid.toNat 0 (fun _ =>
      true) (s.me.rd a) 64 = .ok bs false) ∧ s.slot k = none ∧ ((s.part x.part).qslotmap.getLsbD k = false ∨ (s.slotOf
      x.part x.qid).isSome = true)) ∧
    (∃ (s : State) (g : Guard) (a : SReg) (b : SReg) (k : Nat) (bs : List Byte) (w : List Word) (x : Slot), w =
      (List.range 8).map (wordAt bs) ∧ x = Slot.ofQcb w 0 ∧ Clears s (privileged g 3) ∧ s.me.tag a = false ∧ s.me.tag
      b = false ∧ k = bitsOf (s.me.rd b) 0 6 ∧ (s.me.rd a).toNat % 64 = 0 ∧ (s.jobRead s.pkg.partid.toNat 0 (fun _ =>
      true) (s.me.rd a) 64 = .ok bs false) ∧ s.slot k = none ∧ (s.part x.part).qslotmap.getLsbD k = true ∧ s.slotOf
      x.part x.qid = none ∧ badQcb w = true) ∧
    (∃ (s : State) (g : Guard) (a : SReg) (b : SReg) (k : Nat) (bs : List Byte) (w : List Word) (x : Slot), w =
      (List.range 8).map (wordAt bs) ∧ x = Slot.ofQcb w 0 ∧ Clears s (privileged g 3) ∧ s.me.tag a = false ∧ s.me.tag
      b = false ∧ k = bitsOf (s.me.rd b) 0 6 ∧ (s.me.rd a).toNat % 64 = 0 ∧ (s.jobRead s.pkg.partid.toNat 0 (fun _ =>
      true) (s.me.rd a) 64 = .ok bs false) ∧ s.slot k = none ∧ (s.part x.part).qslotmap.getLsbD k = true ∧ s.slotOf
      x.part x.qid = none ∧ badQcb w = false) ∧
    (∃ (s : State) (g : Guard), (∀ p q, p < 64 → q < 64 → (s.part p).qpending.getLsbD q = false) ∧ Clears s (privileged g
      3)) ∧
    (∃ (s : State) (g : Guard) (p : _) (q : _), (∀ i j, i < p → j < 64 → (s.part i).qpending.getLsbD j = false) ∧ Clears s
      (privileged g 3) ∧ p < 64 ∧ q < 64 ∧ (s.part p).qpending.getLsbD q = true ∧ (∀ j, j < q → (s.part
      p).qpending.getLsbD j = false)) ∧
    (∃ (s : State) (g : Guard) (a : SReg), Clears s (privileged g 3) ∧ s.me.tag a = false) :=
  ⟨⟨{ mapped (on tile (with4 0x1000)) with mem := [(0x10000, 1), (0x10004, 2), (0x20000, 0x0F), (0x20005, 2)], memPoison := [(0x400200, true)] },
      Guard.always, 4, 0, List.replicate 8 0, true, 0, (by unfold Clears; decide +kernel)⟩,
    ⟨{ mapped (on tile (with4 0x1000)) with mem := [(0x10000, 1), (0x10004, 2), (0x20000, 0x0F), (0x20005, 2), (0x2001002, 0x40)] },
      Guard.always, 4, 0, [0, 0, 0x40, 0, 0, 0, 0, 0], false, 0x400000, (by unfold Clears; decide +kernel)⟩,
    ⟨{ mapped (on tile (with4 0x1000)) with mem := [(0x10000, 1), (0x10004, 2), (0x20000, 0x0F), (0x20005, 2), (0x2001004, 1)] },
      Guard.always, 4, 0, [0, 0, 0, 0, 1, 0, 0, 0], false, 0x100000000, (by unfold Clears; decide +kernel)⟩,
    ⟨{ mapped (on tile (with4 0x1000)) with mem := [(0x10000, 1), (0x10004, 2), (0x20000, 0x0F), (0x20005, 2)] },
      Guard.always, 4, 0, List.replicate 8 0, false, 0, (by unfold Clears; decide +kernel)⟩,
    ⟨{ mapped (on tile (with4 0x1000)) with parts := [(0, { Part.reset 0 with root := 0x10000, key := some 0, clusters := 1 })] },
      Guard.always, 4, 0, List.replicate 8 0, false, 0, gang, (by unfold Clears; decide +kernel)⟩,
    ⟨flagged 0x0B (on tile (with4 0x1000)), Guard.always, 4, 0, (by unfold Clears; decide +kernel)⟩,
    ⟨mapped (on tile (with4 0x2000000)), Guard.always, 4, 0, 0x2000000, (by unfold Clears; decide +kernel)⟩,
    ⟨steward (firm45 1 0), Guard.always, 4, _, rfl, (by unfold Clears; decide +kernel)⟩,
    ⟨{ steward (firm45 1 0) with gangs := [(1, { gang with state := .inBarn })] }, Guard.always, 4, _,
      { gang with state := .inBarn }, rfl, (by unfold Clears; decide +kernel)⟩,
    ⟨{ steward (firm45 1 0) with gangs := [(1, { gang with preempt := true })] }, Guard.always, 4, _,
      { gang with preempt := true }, rfl, (by unfold Clears; decide +kernel)⟩,
    ⟨{ steward (firm45 1 0) with gangs := [(1, gang)] }, Guard.always, 4, _, gang, rfl,
      (by unfold Clears; decide +kernel)⟩,
    ⟨{ steward firmware with hostq := List.replicate 63 (0, 0, 0) }, Guard.always, 4, 5,
      (by unfold Clears; decide +kernel)⟩,
    ⟨{ steward firmware with hostq := List.replicate 64 (0, 0, 0) }, Guard.always, 4, 5,
      (by unfold Clears; decide +kernel)⟩,
    ⟨steward firmware, Guard.always, 4, 5, 0, (by unfold Clears; decide +kernel)⟩,
    ⟨{ steward firmware with disp := { slots := [(0, slot)], job := some job } }, Guard.always, 4, 5, 0, slot, (.inl ⟨job,
      (by decide +kernel)⟩), (by unfold Clears; decide +kernel)⟩,
    ⟨mapped { steward firmware with disp := { slots := [(0, slot)] } }, Guard.always, 4, 5, 0, slot, [page 15],
      (fun j h => nomatch h), (fun e h => nomatch h), (by unfold Clears; decide +kernel)⟩,
    ⟨mapped { steward firmware with disp := { slots := [(0, slot)] } }, Guard.always, 4, 5, 0, List.replicate 64 0, _, _,
      rfl, rfl, (by unfold Clears; decide +kernel)⟩,
    ⟨mapped (steward (firm45 0 4)), Guard.always, 4, 5, 4, List.replicate 64 0, _, _, rfl, rfl,
      (by unfold Clears; decide +kernel)⟩,
    ⟨mapped (steward firmware), Guard.always, 4, 5, 0, List.replicate 64 0, _, _, rfl, rfl,
      (by unfold Clears; decide +kernel)⟩,
    ⟨{ mapped (steward firmware) with mem := [(0x10000, 1), (0x10004, 2), (0x20000, 0x0F), (0x20005, 2), (0x2000008, 1), (0x2000018, 1)] },
      Guard.always, 4, 5, 0, List.replicate 8 0 ++ [1] ++ List.replicate 15 0 ++ [1] ++ List.replicate 39 0, _, _,
      rfl, rfl, (by unfold Clears; decide +kernel)⟩,
    ⟨steward firmware, Guard.always, (fun p q _ _ => show (Part.reset p).qpending.getLsbD q = false by simp [Part.reset]),
      (by unfold Clears; decide +kernel)⟩,
    ⟨{ steward firmware with parts := [(0, { Part.reset 0 with qpending := 4 })] }, Guard.always, 0, 2, (fun _ _ h =>
      absurd h (Nat.not_lt_zero _)), (by unfold Clears; decide +kernel)⟩,
    ⟨steward firmware, Guard.always, 4, (by unfold Clears; decide +kernel)⟩⟩

theorem test_hypotheses_BarnAndRanks :
    (∃ (s : State) (g : Guard) (a : SReg) (b : SReg), Clears s (privileged g 3) ∧ s.me.tag a = false ∧ s.me.tag b = false
      ∧ (s.me.rd a).toNat % 65536 ≠ 0) ∧
    (∃ (s : State) (g : Guard) (a : SReg) (b : SReg) (id : Nat), id = bitsOf (s.me.rd b) 0 16 ∧ Clears s (privileged g 3)
      ∧ s.me.tag a = false ∧ s.me.tag b = false ∧ (s.me.rd a).toNat % 65536 = 0 ∧ s.gang id = none) ∧
    (∃ (s : State) (g : Guard) (a : SReg) (b : SReg) (id : Nat) (G : _), id = bitsOf (s.me.rd b) 0 16 ∧ Clears s
      (privileged g 3) ∧ s.me.tag a = false ∧ s.me.tag b = false ∧ (s.me.rd a).toNat % 65536 = 0 ∧ s.gang id = some G
      ∧ G.state ≠ .inBarn) ∧
    (∃ (s : State) (g : Guard) (a : SReg) (b : SReg) (id : Nat) (G : _) (ws : _) (ps : _), id = bitsOf (s.me.rd b) 0 16 ∧
      ws = s.gangImage id G ∧ Clears s (privileged g 3) ∧ s.me.tag a = false ∧ s.me.tag b = false ∧ (s.me.rd a).toNat
      % 65536 = 0 ∧ s.gang id = some G ∧ G.state = .inBarn ∧ s.pages s.pkg.partid.toNat 0 (pagesOf (s.me.rd a).toNat
      (8 * ws.length)) = .ok ps ∧ ((ps.all fun q => entryW q.e && decide (entryTier q.e ≤ 1)) = true) ∧ ps.any
      s.frozenPage = false) ∧
    (∃ (s : State) (g : Guard) (a : SReg) (b : SReg), Clears s (privileged g 3) ∧ s.me.tag a = false ∧ s.me.tag b = false
      ∧ (s.me.rd a).toNat % 65536 = 0 ∧ s.readImage (s.me.rd a).toNat = .bad) ∧
    (∃ (s : State) (g : Guard) (a : SReg) (b : SReg) (p : Nat) (rank : Nat) (pkg : BitVec 16) (e : BitVec 16 × BitVec 16 ×
      BitVec 48), p = s.pkg.partid.toNat ∧ rank = bitsOf (s.me.rd a) 0 10 ∧ pkg = (s.me.rd b).extractLsb' 0 16 ∧ e =
      (pkg, (s.me.rd b).extractLsb' 16 16, (s.me.rd a).extractLsb' 16 48) ∧ Clears s (privileged g 3) ∧ s.me.tag a =
      false ∧ s.me.tag b = false ∧ ((s.me.rd a).extractLsb' 10 6 ≠ 0 ∨ (s.me.rd b).extractLsb' 32 32 ≠ 0 ∨ (e.2.1 =
      pkg ∧ e.2.2 ≠ 0))) ∧
    (∃ (s : State) (g : Guard) (a : SReg) (b : SReg) (p : Nat) (rank : Nat) (pkg : BitVec 16) (e : BitVec 16 × BitVec 16 ×
      BitVec 48), p = s.pkg.partid.toNat ∧ pkg = (s.me.rd b).extractLsb' 0 16 ∧ e = (pkg, (s.me.rd b).extractLsb' 16
      16, (s.me.rd a).extractLsb' 16 48) ∧ Clears s (privileged g 3) ∧ s.me.tag a = false ∧ s.me.tag b = false ∧ rank
      = bitsOf (s.me.rd a) 0 10 ∧ (s.me.rd a).extractLsb' 10 6 = 0 ∧ (s.me.rd b).extractLsb' 32 32 = 0 ∧ (e.2.1 ≠ pkg
      ∨ e.2.2 = 0) ∧ s.rankUsed p rank = true) ∧
    (∃ (s : State) (g : Guard) (a : SReg) (b : SReg) (p : Nat) (rank : Nat) (pkg : BitVec 16) (e : BitVec 16 × BitVec 16 ×
      BitVec 48), p = s.pkg.partid.toNat ∧ rank = bitsOf (s.me.rd a) 0 10 ∧ pkg = (s.me.rd b).extractLsb' 0 16 ∧ e =
      (pkg, (s.me.rd b).extractLsb' 16 16, (s.me.rd a).extractLsb' 16 48) ∧ Clears s (privileged g 3) ∧ s.me.tag a =
      false ∧ s.me.tag b = false ∧ (s.me.rd a).extractLsb' 10 6 = 0 ∧ (s.me.rd b).extractLsb' 32 32 = 0 ∧ (e.2.1 ≠ pkg
      ∨ e.2.2 = 0) ∧ s.rankUsed p rank = false ∧ pkg ≠ 0xFFFF ∧ s.reachable pkg = false) ∧
    (∃ (s : State) (g : Guard) (a : SReg) (b : SReg) (p : Nat) (rank : Nat) (pkg : BitVec 16) (e : BitVec 16 × BitVec 16 ×
      BitVec 48), p = s.pkg.partid.toNat ∧ rank = bitsOf (s.me.rd a) 0 10 ∧ pkg = (s.me.rd b).extractLsb' 0 16 ∧ e =
      (pkg, (s.me.rd b).extractLsb' 16 16, (s.me.rd a).extractLsb' 16 48) ∧ Clears s (privileged g 3) ∧ s.me.tag a =
      false ∧ s.me.tag b = false ∧ (s.me.rd a).extractLsb' 10 6 = 0 ∧ (s.me.rd b).extractLsb' 32 32 = 0 ∧ (e.2.1 ≠ pkg
      ∨ e.2.2 = 0) ∧ s.rankUsed p rank = false ∧ pkg ≠ 0xFFFF ∧ s.reachable pkg = true) ∧
    (∃ (s : State) (g : Guard) (a : SReg) (b : SReg) (p : Nat) (rank : Nat) (pkg : BitVec 16) (e : BitVec 16 × BitVec 16 ×
      BitVec 48), p = s.pkg.partid.toNat ∧ rank = bitsOf (s.me.rd a) 0 10 ∧ pkg = (s.me.rd b).extractLsb' 0 16 ∧ e =
      (pkg, (s.me.rd b).extractLsb' 16 16, (s.me.rd a).extractLsb' 16 48) ∧ Clears s (privileged g 3) ∧ s.me.tag a =
      false ∧ s.me.tag b = false ∧ (s.me.rd a).extractLsb' 10 6 = 0 ∧ (s.me.rd b).extractLsb' 32 32 = 0 ∧ (e.2.1 ≠ pkg
      ∨ e.2.2 = 0) ∧ s.rankUsed p rank = false ∧ pkg = 0xFFFF) ∧
    (∃ (s : State) (g : Guard) (a : SReg) (b : SReg) (p : Nat) (rank : Nat) (pkg : BitVec 16) (e : BitVec 16 × BitVec 16 ×
      BitVec 48), p = s.pkg.partid.toNat ∧ rank = bitsOf (s.me.rd a) 0 10 ∧ pkg = (s.me.rd b).extractLsb' 0 16 ∧ e =
      (pkg, (s.me.rd b).extractLsb' 16 16, (s.me.rd a).extractLsb' 16 48) ∧ Clears s (privileged g 3) ∧ s.me.tag a =
      false ∧ s.me.tag b = false) ∧
    (∃ (s : State) (g : Guard) (x : SReg) (y : SReg) (z : SReg) (sy : Sync) (G : Gang), isSteward s.curTile = false ∧
      s.gangOf s.curTile = some G ∧ Clears s (ordinary g) ∧ s.waitMet sy = true ∧ s.me.tag x = false ∧ s.me.tag y =
      false ∧ s.me.tag z = false ∧ (s.me.rd x).toNat % 8 = 0 ∧ (s.me.rd y).toNat % 8 = 0 ∧ badColl (s.me.rd z) G.ranks
      = true) ∧
    (∃ (s : State) (g : Guard) (x : SReg) (y : SReg) (z : SReg) (sy : Sync) (G : Gang), isSteward s.curTile = false ∧
      s.gangOf s.curTile = some G ∧ Clears s (ordinary g) ∧ s.waitMet sy = true ∧ s.me.tag x = false ∧ s.me.tag y =
      false ∧ s.me.tag z = false ∧ (s.me.rd x).toNat % 8 = 0 ∧ (s.me.rd y).toNat % 8 = 0 ∧ badColl (s.me.rd z) G.ranks
      = false ∧ s.myTile.rangeIs Region.vs (s.me.rd x).toNat (collLen (s.me.rd z)) = true ∧ s.myTile.rangeIs Region.vs
      (s.me.rd y).toNat (collOut (s.me.rd z) G.ranks) = true) ∧
    (∃ (s : State) (id : Nat) (g : Gang), s.gang id = some g ∧ g.mirrorWait = true) ∧
    (∃ (s : State) (u : State) (g : Gang) (h : Gang) (buddy : BitVec 16) (base : Nat) (size : Nat) (other : Nat) (image :
      List (Word × Bool)) (header : Nat → Word), (u, h) = s.streamImage g buddy base image ∧ (∀ a, header a =
      (s.farWord buddy g.part a).1) ∧ base % 8 = 0 ∧ size = 65536 + (8 * image.length + 65535) / 65536 * 65536 ∧
      h.mirrorAt + other = 2 * base + size) ∧
    (∃ (s : State) (u : State) (g : Gang) (h : Gang) (buddy : BitVec 16) (base : Nat) (size : Nat) (other : Nat) (image :
      List (Word × Bool)) (header : Nat → Word), (u, h) = s.streamImage g buddy base image ∧ (∀ a, header a =
      (s.farWord buddy g.part a).1) ∧ base % 8 = 0 ∧ size = 65536 + (8 * image.length + 65535) / 65536 * 65536 ∧
      h.mirrorAt + other = 2 * base + size ∧ (header h.mirrorAt).getLsbD 32 = true) ∧
    (∃ (s : State) (u : State) (g : Gang) (h : Gang) (buddy : BitVec 16) (base : Nat) (size : Nat) (other : Nat) (image :
      List (Word × Bool)) (header : Nat → Word) (i : _), (u, h) = s.streamImage g buddy base image ∧ (∀ a, header a =
      (s.farWord buddy g.part a).1) ∧ base % 8 = 0 ∧ size = 65536 + (8 * image.length + 65535) / 65536 * 65536 ∧
      h.mirrorAt + other = 2 * base + size ∧ i < image.length) ∧
    (∃ (s : State) (u : State) (g : Gang) (h : Gang) (buddy : BitVec 16) (base : Nat) (size : Nat) (other : Nat) (image :
      List (Word × Bool)) (header : Nat → Word) (a : _), (u, h) = s.streamImage g buddy base image ∧ (∀ a, header a =
      (s.farWord buddy g.part a).1) ∧ base % 8 = 0 ∧ size = 65536 + (8 * image.length + 65535) / 65536 * 65536 ∧
      h.mirrorAt + other = 2 * base + size ∧ other ≤ a ∧ a < other + size) ∧
    (∃ (s : State) (t : Nat) (n : Nat) (c : Coll) (G : Gang) (others : List ExtColl) (parts : List CollPart) (p : _),
      (parts = (List.range G.ranks).filterMap (fun q => s.collPart t c G.rank q others)) ∧ p ∈ parts ∧ isSteward t =
      false ∧ (s.tile t).colls[n]? = some c ∧ s.gangOf t = some G ∧ parts.length = G.ranks ∧ s.sourceReady t c.strand
      c.src (collLen c.word) = true) ∧
    (∃ (s : State) (t : Nat) (n : Nat) (c : Coll) (G : Gang) (others : List ExtColl) (parts : List CollPart), (parts =
      (List.range G.ranks).filterMap (fun q => s.collPart t c G.rank q others)) ∧ isSteward t = false ∧ (s.tile
      t).colls[n]? = some c ∧ s.gangOf t = some G ∧ parts.length = G.ranks ∧ s.sourceReady t c.strand c.src (collLen
      c.word) = true ∧ ((parts.any fun p => decide (p.word ≠ c.word)) = true)) ∧
    (∃ (s : State) (t : Nat) (n : Nat) (c : Coll) (G : Gang) (others : List ExtColl) (parts : List CollPart) (w : _),
      (s.tile t).writeWords false c.dst (collResult c.word (parts.map (·.words))) = some w ∧ isSteward t = false ∧
      (s.tile t).colls[n]? = some c ∧ s.gangOf t = some G ∧ (parts = (List.range G.ranks).filterMap (fun q =>
      s.collPart t c G.rank q others)) ∧ parts.length = G.ranks ∧ s.sourceReady t c.strand c.src (collLen c.word) =
      true ∧ ((parts.any fun p => decide (p.word ≠ c.word)) = false) ∧ s.wakeFor t c.src (collLen c.word) = none ∧
      s.wakeFor t c.dst (collOut c.word G.ranks) = none ∧ SignalFits s t c.sy) :=
  ⟨⟨steward (firm45 0x8000 0), Guard.always, 4, 5, (by unfold Clears; decide +kernel)⟩,
    ⟨steward (firm45 0 1), Guard.always, 4, 5, _, rfl, (by unfold Clears; decide +kernel)⟩,
    ⟨{ steward (firm45 0 1) with gangs := [(1, gang)] }, Guard.always, 4, 5, _, gang, rfl,
      (by unfold Clears; decide +kernel)⟩,
    ⟨mapped
      { steward (firm45 0 1) with gangs := [(1, { lone with state := .inBarn })], tiles := [(0, { barn := [(0, { barnRec with key := some 0 })] }), (4624, { code := nops, strands := [(0, firm45 0 1)] })] },
      Guard.always, 4, 5, _, { lone with state := .inBarn }, _, [page 15], rfl, rfl,
      (by unfold Clears; decide +kernel)⟩,
    ⟨flagged 0x0B (steward firmware), Guard.always, 4, 5, (by unfold Clears; decide +kernel)⟩,
    ⟨steward (firm45 0x400 0), Guard.always, 4, 5, _, _, _, _, rfl, rfl, rfl, rfl, (by unfold Clears; decide +kernel)⟩,
    ⟨{ steward (firm45 1 0) with gangs := [(1, { gang with ranks := 2 })] }, Guard.always, 4, 5, _, 1, _, _, rfl, rfl,
      rfl, (by unfold Clears; decide +kernel)⟩,
    ⟨{ steward (firm45 0 1) with ports := (List.range 64).map fun i => (i, { inService := false }) }, Guard.always, 4, 5,
      _, _, _, _, rfl, rfl, rfl, rfl, (by unfold Clears; decide +kernel)⟩,
    ⟨steward (firm45 0 1), Guard.always, 4, 5, _, _, _, _, rfl, rfl, rfl, rfl, (by unfold Clears; decide +kernel)⟩,
    ⟨steward (firm45 0 0xFFFF), Guard.always, 4, 5, _, _, _, _, rfl, rfl, rfl, rfl, (by unfold Clears; decide +kernel)⟩,
    ⟨steward (firm45 0 1), Guard.always, 4, 5, _, _, _, _, rfl, rfl, rfl, rfl, (by unfold Clears; decide +kernel)⟩,
    ⟨on tile strand, Guard.always, 4, 5, 6, Sync.none, gang, (by unfold Clears; decide +kernel)⟩,
    ⟨on tile { strand with s := [(4, 0x8000), (5, 0x9000), (6, 8)] }, Guard.always, 4, 5, 6, Sync.none, gang,
      (by unfold Clears; decide +kernel)⟩,
    ⟨onGang { gang with mirrorWait := true } tile strand, 1, { gang with mirrorWait := true }, (by decide +kernel)⟩,
    ⟨{ on tile strand with farTier := [(farKey 0 0 0, (2 ^ 32, false)), (farKey 0 0 131072, (2 ^ 32 + 1, false))] },
      (State.streamImage
      { on tile strand with farTier := [(farKey 0 0 0, (2 ^ 32, false)), (farKey 0 0 131072, (2 ^ 32 + 1, false))] }
      gang 0 0 [(7, false)]).1, gang, (State.streamImage
      { on tile strand with farTier := [(farKey 0 0 0, (2 ^ 32, false)), (farKey 0 0 131072, (2 ^ 32 + 1, false))] }
      gang 0 0 [(7, false)]).2, 0, 0, 131072, 131072, [(7, false)], _, rfl, fun _ => rfl, (by decide +kernel)⟩,
    ⟨{ on tile strand with farTier := [(farKey 0 0 0, (2 ^ 32, false)), (farKey 0 0 131072, (2 ^ 32 + 1, false))] },
      (State.streamImage
      { on tile strand with farTier := [(farKey 0 0 0, (2 ^ 32, false)), (farKey 0 0 131072, (2 ^ 32 + 1, false))] }
      gang 0 0 [(7, false)]).1, gang, (State.streamImage
      { on tile strand with farTier := [(farKey 0 0 0, (2 ^ 32, false)), (farKey 0 0 131072, (2 ^ 32 + 1, false))] }
      gang 0 0 [(7, false)]).2, 0, 0, 131072, 131072, [(7, false)], _, rfl, fun _ => rfl, (by decide +kernel)⟩,
    ⟨{ on tile strand with farTier := [(farKey 0 0 0, (2 ^ 32, false)), (farKey 0 0 131072, (2 ^ 32 + 1, false))] },
      (State.streamImage
      { on tile strand with farTier := [(farKey 0 0 0, (2 ^ 32, false)), (farKey 0 0 131072, (2 ^ 32 + 1, false))] }
      gang 0 0 [(7, false)]).1, gang, (State.streamImage
      { on tile strand with farTier := [(farKey 0 0 0, (2 ^ 32, false)), (farKey 0 0 131072, (2 ^ 32 + 1, false))] }
      gang 0 0 [(7, false)]).2, 0, 0, 131072, 131072, [(7, false)], _, 0, rfl, fun _ => rfl, (by decide +kernel)⟩,
    ⟨{ on tile strand with farTier := [(farKey 0 0 0, (2 ^ 32, false)), (farKey 0 0 131072, (2 ^ 32 + 1, false))] },
      (State.streamImage
      { on tile strand with farTier := [(farKey 0 0 0, (2 ^ 32, false)), (farKey 0 0 131072, (2 ^ 32 + 1, false))] }
      gang 0 0 [(7, false)]).1, gang, (State.streamImage
      { on tile strand with farTier := [(farKey 0 0 0, (2 ^ 32, false)), (farKey 0 0 131072, (2 ^ 32 + 1, false))] }
      gang 0 0 [(7, false)]).2, 0, 0, 131072, 131072, [(7, false)], _, 131072, rfl, fun _ => rfl, (by decide +kernel)⟩,
    ⟨onGang { gang with ranks := 2 } { tile with colls := [⟨0x8000, 0x9000, 8, Sync.none, 0, 0, 0⟩] } strand, 0, 0,
      ⟨0x8000, 0x9000, 8, Sync.none, 0, 0, 0⟩, { gang with ranks := 2 }, [⟨1, 0, 0, 16, [0], 0⟩], _, ⟨8, [(0,
      false)]⟩, rfl, (by decide +kernel)⟩,
    ⟨onGang { gang with ranks := 2 } { tile with colls := [⟨0x8000, 0x9000, 8, Sync.none, 0, 0, 0⟩] } strand, 0, 0,
      ⟨0x8000, 0x9000, 8, Sync.none, 0, 0, 0⟩, { gang with ranks := 2 }, [⟨1, 0, 0, 16, [0], 0⟩], _, rfl,
      (by decide +kernel)⟩,
    ⟨onGang { gang with ranks := 2 } { tile with colls := [⟨0x8000, 0x9000, 8, Sync.none, 0, 0, 0⟩] } strand, 0, 0,
      ⟨0x8000, 0x9000, 8, Sync.none, 0, 0, 0⟩, { gang with ranks := 2 }, [⟨1, 0, 0, 8, [0], 0⟩], [⟨8, [(0, false)]⟩,
      ⟨8, [(0, false)]⟩], _, (Option.some_get (by decide +kernel)).symm, (by unfold SignalFits; decide +kernel)⟩⟩

theorem test_hypotheses_MemorySide :
    (∃ (s : State) (n : Nat) (r : Req) (vas : List Nat) (a : _), (∀ i, s.wordHeld r i = false) ∧ s.reqs[n]? = some r ∧
      r.suspended = false ∧ r.moved = [] ∧ s.inOrder r = true ∧ s.wakeFor r.tile r.off r.len = none ∧ s.reqVas r =
      some vas ∧ s.translate r.root (s.tile r.tile).gang (pageHeads vas) = .fault a) ∧
    (∃ (s : State) (n : Nat) (r : Req) (vas : List Nat) (ps : _) (c : _), (∀ i, s.wordHeld r i = false) ∧ s.reqs[n]? =
      some r ∧ r.suspended = false ∧ r.moved = [] ∧ s.inOrder r = true ∧ s.wakeFor r.tile r.off r.len = none ∧
      s.reqVas r = some vas ∧ s.translate r.root (s.tile r.tile).gang (pageHeads vas) = .ok ps ∧ (ps.findSome? (fun p
      => s.pageCause r.tile r.write (decide (r.view ≠ 0)) p.e) = some c) ∧ isSteward r.tile = false) ∧
    (∃ (s : State) (n : Nat) (r : Req) (vas : List Nat) (ps : _), (∀ i, s.wordHeld r i = false) ∧ s.reqs[n]? = some r ∧
      r.suspended = false ∧ r.moved = [] ∧ s.inOrder r = true ∧ s.wakeFor r.tile r.off r.len = none ∧ s.reqVas r =
      some vas ∧ s.translate r.root (s.tile r.tile).gang (pageHeads vas) = .ok ps ∧ (ps.findSome? (fun p =>
      s.pageCause r.tile r.write (decide (r.view ≠ 0)) p.e) = none) ∧ ps.any s.frozenPage = true ∧ r.frozen = none) ∧
    (∃ (s : State) (n : Nat) (r : Req) (vas : List Nat) (words : List (Nat × Word × Bool)) (ps : _) (w : _), (∀ i,
      s.wordHeld r i = false) ∧ (words = ((List.range (r.len / 8)).zip (chunks 8 (r.len / 8) vas)).map (fun iv =>
      (iv.1, s.readWordVia r.part r.view r.badGranules (iv.2.map (physIn ps))))) ∧ (s.tile r.tile).writeAt r.off words
      = some w ∧ s.reqs[n]? = some r ∧ r.suspended = false ∧ r.moved = [] ∧ s.inOrder r = true ∧ s.wakeFor r.tile
      r.off r.len = none ∧ s.reqVas r = some vas ∧ s.translate r.root (s.tile r.tile).gang (pageHeads vas) = .ok ps ∧
      (ps.findSome? (fun p => s.pageCause r.tile r.write (decide (r.view ≠ 0)) p.e) = none) ∧ ps.any s.frozenPage =
      false ∧ r.write = false ∧ r.opened = []) ∧
    (∃ (s : State) (n : Nat) (r : Req) (vas : List Nat) (ps : _), (∀ i, s.wordHeld r i = false) ∧ s.reqs[n]? = some r ∧
      r.suspended = false ∧ r.moved = [] ∧ s.inOrder r = true ∧ s.wakeFor r.tile r.off r.len = none ∧ s.reqVas r =
      some vas ∧ s.translate r.root (s.tile r.tile).gang (pageHeads vas) = .ok ps ∧ (ps.findSome? (fun p =>
      s.pageCause r.tile r.write (decide (r.view ≠ 0)) p.e) = none) ∧ ps.any s.frozenPage = false ∧ r.write = true ∧
      isSteward r.tile = true) ∧
    (∃ (s : State) (n : Nat) (r : Req) (vas : List Nat) (ps : _), (∀ i, s.wordHeld r i = false) ∧ s.reqs[n]? = some r ∧
      r.suspended = false ∧ r.moved = [] ∧ s.inOrder r = true ∧ s.wakeFor r.tile r.off r.len = none ∧ s.reqVas r =
      some vas ∧ s.translate r.root (s.tile r.tile).gang (pageHeads vas) = .ok ps ∧ (ps.findSome? (fun p =>
      s.pageCause r.tile r.write (decide (r.view ≠ 0)) p.e) = none) ∧ ps.any s.frozenPage = false ∧ r.write = true ∧
      isSteward r.tile = false ∧ (∀ p ∈ ps, entryStep p.e = false) ∧ (∀ a ∈ vas, physIn ps a < 2 ^ 48 ∧ s.keyless
      r.part (physIn ps a) = false)) ∧
    (∃ (s : State), s.viewWrites = []) ∧
    (∃ (s : State) (n : Nat) (r : Req), s.reqs[n]? = some r ∧ r.suspended = true) ∧
    (∃ (s : State) (n : Nat) (r : Req), s.reqs[n]? = some r ∧ r.suspended = true ∧ isSteward r.tile = false) ∧
    (∃ (s : State) (a : _), s.pubs = [] ∧ a < 2 ^ 39 ∧ (s.rawWord a).getLsbD 0 = false) ∧
    (∃ (s : State) (a : _) (id : _) (G : _), s.pubs = [] ∧ a < 2 ^ 39 ∧ (s.rawWord a).getLsbD 0 = true ∧ (id, G) ∈ s.gangs
      ∧ G.state = .running ∧ G.domain.toNat = entryDomain (s.rawWord a)) ∧
    (∃ (s : State) (p : _), s.pubs = [] ∧ (∀ x ∈ s.gangs, x.2.part ≠ p ∨ x.2.state ≠ .running)) ∧
    (∃ (s : State) (p : Nat) (k : BitVec 512) (bs : List (Nat × Byte × Bool)) (b : _), b ∈ bs ∧ (s.part p).key = some k ∧
      (bs.map (·.1)).Nodup ∧ (∀ b ∈ bs, b.2.2 = false ∧ 0x10000 ≤ b.1 ∧ b.1 < 2 ^ 49)) ∧
    (∃ (s : State) (p : Nat) (k : BitVec 512) (bs : List (Nat × Byte × Bool)) (a : _), (s.part p).key = some k ∧ (bs.map
      (·.1)).Nodup ∧ (∀ b ∈ bs, b.2.2 = false ∧ 0x10000 ≤ b.1 ∧ b.1 < 2 ^ 49) ∧ 0x10000 ≤ a ∧ a < 2 ^ 49 ∧ a ∉ bs.map
      (·.1)) ∧
    (∃ (s : State) (p : Nat) (k : BitVec 512) (bs : List (Nat × Byte × Bool)) (a : _), (s.part p).key = some k ∧ (bs.map
      (·.1)).Nodup ∧ (∀ b ∈ bs, b.2.2 = false ∧ 0x10000 ≤ b.1 ∧ b.1 < 2 ^ 49) ∧ (∀ b ∈ bs, b.1 / 64 ≠ a / 64)) :=
  ⟨⟨{ on tile strand with reqs := [req] }, 0, req, List.range 8, 0, (fun _ => rfl), (by decide +kernel)⟩,
    ⟨flagged 0x0B { on tile strand with reqs := [req] }, 0, req, List.range 8, [page 11], 0x06, (fun _ => rfl),
      (by decide +kernel)⟩,
    ⟨{ mapped { on tile strand with reqs := [req] } with pkg := { frozen := 1 } }, 0, req, List.range 8, [page 15], (fun _
      => rfl), (by decide +kernel)⟩,
    ⟨mapped { on tile strand with reqs := [req] }, 0, req, List.range 8, _, [page 15], _, (fun _ => rfl), rfl,
      (Option.some_get (by decide +kernel)).symm, (by decide +kernel)⟩,
    ⟨mapped { steward firmware with reqs := [{ req with write := true, tile := 4624 }] }, 0,
      { req with write := true, tile := 4624 }, List.range 8, [page 15], (fun _ => rfl), (by decide +kernel)⟩,
    ⟨mapped { on tile strand with reqs := [{ req with write := true }] }, 0, { req with write := true }, List.range 8,
      [page 15], (fun _ => rfl), (by decide +kernel)⟩,
    ⟨mapped (on tile strand), (by decide +kernel)⟩,
    ⟨mapped { on tile strand with reqs := [{ req with suspended := true }] }, 0, { req with suspended := true },
      (by decide +kernel)⟩,
    ⟨mapped { on tile strand with reqs := [{ req with suspended := true }] }, 0, { req with suspended := true },
      (by decide +kernel)⟩,
    ⟨on tile strand, 2 ^ 39 - 8, (by decide +kernel)⟩,
    ⟨{ on tile strand with mem := [(0x1000, 1)] }, 0x1000, 1, gang, (by decide +kernel)⟩,
    ⟨steward firmware, 0, (by decide +kernel)⟩,
    ⟨mapped (on tile strand), 0, 0, [(2 ^ 49 - 1, 7, false)], (2 ^ 49 - 1, 7, false), (by decide +kernel)⟩,
    ⟨mapped (on tile strand), 0, 0, [(2 ^ 49 - 1, 7, false)], 2 ^ 49 - 2, (by decide +kernel)⟩,
    ⟨mapped (on tile strand), 0, 0, [(2 ^ 49 - 1, 7, false)], 2 ^ 49 - 65, (by decide +kernel)⟩⟩

theorem test_hypotheses_FabricAndStacks :
    (∃ (s : State) (port : Nat) (seq : _) (n : _), (n = (if (s.port port).resends ≠ 0 ∧ (s.port port).resendSeq = seq then
      (s.port port).resends + 1 else 1))) ∧
    (∃ (s : State) (id : Nat) (g : Gang), s.gang id = some g ∧ g.state = .running ∧ g.verdict = none ∧ g.rank = 0) ∧
    (∃ (s : State) (unreachable : List Nat) (id : Nat) (g : Gang), s.gang id = some g ∧ g.state = .running ∧ g.verdict =
      none ∧ g.rank ≠ 0 ∧ 0 ∈ unreachable ∧ 0 < g.ranks) ∧
    (∃ (x : Port) (a : List (BitVec 12 × BitVec 2)) (b : List (BitVec 12 × BitVec 2)) (seq : BitVec 12) (lane : BitVec 2),
      x.retained = a ++ (seq, lane) :: b ∧ seq ∉ a.map (·.1)) ∧
    (∃ (x : Port) (lane : BitVec 2), x.inService = true ∧ x.stopped.getLsbD lane.toNat = true) ∧
    (∃ (x : Port) (lane : BitVec 2), x.inService = true ∧ x.stopped.getLsbD lane.toNat = false) ∧
    (∃ (x : Port) (seq : BitVec 12) (bad : Bool), x.inService = true ∧ seq = x.expected ∧ bad = false) ∧
    (∃ (x : Port) (seq : BitVec 12) (bad : Bool), x.inService = true ∧ (seq ≠ x.expected ∨ bad = true) ∧ x.asked = 0) ∧
    (∃ (x : Port) (seq : BitVec 12) (bad : Bool), (seq ≠ x.expected ∨ bad = true) ∧ x.inService = true ∧ x.asked = 0) ∧
    (∃ (x : Port) (seq : BitVec 12) (bad : Bool), x.inService = true ∧ seq = x.expected ∧ bad = true ∧ 0 < x.asked) ∧
    (∃ (count : Nat), count < 4) ∧
    (∃ (s : State) (stack : Nat) (bank : Nat) (count : Nat), 4 ≤ count ∧ s.repairs.get (spareKey 0 stack bank) 0 < 4) ∧
    (∃ (s : State) (stack : Nat) (bank : Nat) (channel : Nat) (count : Nat) (rows : Nat) (key : _) (n : _), 4 ≤ count ∧ 4
      ≤ s.repairs.get (spareKey 0 stack bank) 0 ∧ (s.repairs.get (spareKey 1 stack channel) 0 < 32 ∧ key = spareKey 1
      stack channel ∧ n = 1 ∨ 32 ≤ s.repairs.get (spareKey 1 stack channel) 0 ∧ s.repairs.get (spareKey 2 stack bank)
      0 + rows ≤ 8 ∧ key = spareKey 2 stack bank ∧ n = rows)) ∧
    (∃ (s : State) (stack : Nat) (bank : Nat) (channel : Nat) (count : Nat) (rows : Nat), 4 ≤ count ∧ 4 ≤ s.repairs.get
      (spareKey 0 stack bank) 0 ∧ 32 ≤ s.repairs.get (spareKey 1 stack channel) 0 ∧ 8 < s.repairs.get (spareKey 2
      stack bank) 0 + rows) ∧
    (∃ (s : State) (stack : Nat) (celsius : BitVec 8) (k : Pkg), k =
      { s.pkg with temps := s.pkg.temps.set stack 0 celsius } ∧ stack < 8) ∧
    (∃ (s : State) (stack : Nat) (celsius : BitVec 8) (k : Pkg), k =
      { s.pkg with temps := s.pkg.temps.set stack 0 celsius } ∧ stack < 8 ∧ 85 ≤ celsius.toNat) ∧
    (∃ (s : State) (stack : Nat) (celsius : BitVec 8) (k : Pkg) (v : _), k =
      { s.pkg with temps := s.pkg.temps.set stack 0 celsius } ∧ v =
      { s with pkg := { k with frozen := withBit s.pkg.frozen stack false } } ∧ stack < 8 ∧ celsius.toNat < 85 ∧ (∀ r
      ∈ s.reqs, r.frozen = none) ∧ (∀ a ∈ s.amos, a.frozen = none) ∧ s.launchWaiters = []) ∧
    (∃ (s : State) (stack : Nat) (celsius : BitVec 8) (k : Pkg) (v : _) (n : _) (w : _) (r : _), k =
      { s.pkg with temps := s.pkg.temps.set stack 0 celsius } ∧ v =
      { s with pkg := { k with frozen := withBit s.pkg.frozen stack false } } ∧ stack < 8 ∧ celsius.toNat < 85 ∧
      s.waitingAll = [(w, .request n)] ∧ w < s.waits ∧ s.reqs[n]? = some r) ∧
    (∃ (s : State) (stack : Nat) (celsius : BitVec 8) (k : Pkg) (v : _) (n : _) (w : _) (a : _), k =
      { s.pkg with temps := s.pkg.temps.set stack 0 celsius } ∧ v =
      { s with pkg := { k with frozen := withBit s.pkg.frozen stack false } } ∧ stack < 8 ∧ celsius.toNat < 85 ∧
      s.waitingAll = [(w, .atomic n)] ∧ w < s.waits ∧ s.amos[n]? = some a) :=
  ⟨⟨{ on tile strand with gangs := [(1, gang)] }, 0, 5, _, rfl⟩,
    ⟨{ on tile strand with gangs := [(1, gang)] }, 1, gang, (by decide +kernel)⟩,
    ⟨{ on tile strand with gangs := [(1, { gang with rank := 1, ranks := 2 })] }, [0], 1,
      { gang with rank := 1, ranks := 2 }, (by decide +kernel)⟩,
    ⟨{ retained := [(1, 0), (2, 1), (3, 1)] }, [(1, 0)], [(3, 1)], 2, 1, (by decide +kernel)⟩,
    ⟨{ stopped := 8 }, 3, (by decide +kernel)⟩,
    ⟨{ stopped := 7 }, 3, (by decide +kernel)⟩,
    ⟨{ expected := 4095 }, 4095, false, (by decide +kernel)⟩,
    ⟨{}, 1, false, (by decide +kernel)⟩,
    ⟨{}, 0, true, .inr rfl, (by decide +kernel)⟩,
    ⟨{ asked := 3 }, 0, true, (by decide +kernel)⟩,
    ⟨3, (by decide +kernel)⟩,
    ⟨{ steward firmware with repairs := [(spareKey 0 0 0, 3)] }, 0, 0, 4, (by decide +kernel)⟩,
    ⟨{ steward firmware with repairs := [(spareKey 0 0 0, 4), (spareKey 1 0 0, 31)] }, 0, 0, 0, 4, 1, spareKey 1 0 0, 1,
      (by decide +kernel)⟩,
    ⟨{ steward firmware with repairs := [(0, 4), (1, 32), (2, 7)] }, 0, 0, 0, 4, 2, (by decide +kernel)⟩,
    ⟨steward firmware, 7, 0, _, rfl, (by decide +kernel)⟩,
    ⟨steward firmware, 7, 85, _, rfl, (by decide +kernel)⟩,
    ⟨steward firmware, 7, 84, _, _, rfl, rfl, (by decide +kernel)⟩,
    ⟨{ mapped { on tile strand with reqs := [{ req with frozen := some 0 }] } with waits := 1 }, 7, 84, _, _, 0, 0,
      { req with frozen := some 0 }, rfl, rfl, (by decide +kernel)⟩,
    ⟨{ on tile strand with amos := [⟨0, 0, true, 0, .add, none, true, 0, 0, false, some 0, 0, 0x10000, false⟩], waits := 1 },
      7, 84, _, _, 0, 0, ⟨0, 0, true, 0, .add, none, true, 0, 0, false, some 0, 0, 0x10000, false⟩, rfl, rfl,
      (by decide +kernel)⟩⟩

theorem test_hypotheses_PackageEvents :
    (∃ (c : Nat) (m : Nat), c < 272 ∧ m < 16) ∧
    (∃ (s : State) (p : Nat) (rest : _), s.pkg.rst = p :: rest) ∧
    (∃ (s : State), s.pkg.rst = []) ∧
    (∃ (s : State) (p : Nat) (u : _), u = s.resetPartition p ∧ (∀ x ∈ s.gangs, x.2.part ≠ p) ∧ s.pubs = []) ∧
    (∃ (s : State) (p : Nat) (u : _) (k : _) (x : _), u = s.resetPartition p ∧ (∀ x ∈ s.gangs, x.2.part ≠ p) ∧ s.pubs = []
      ∧ u.slot k = some x) ∧
    (∃ (s : State) (p : Nat) (u : _) (j : _), u = s.resetPartition p ∧ (∀ x ∈ s.gangs, x.2.part ≠ p) ∧ s.pubs = [] ∧
      u.disp.job = some j) ∧
    (∃ (s : State) (p : Nat) (u : _) (c : _) (t : _), u = s.resetPartition p ∧ (∀ x ∈ s.gangs, x.2.part ≠ p) ∧ s.pubs = []
      ∧ s.ownerOf c = some p ∧ t / 17 = c ∧ s.gang (s.tile t).gang = none) ∧
    (∃ (s : State) (p : Nat) (u : _) (c : _) (t : _), u = s.resetPartition p ∧ (∀ x ∈ s.gangs, x.2.part ≠ p) ∧ s.pubs = []
      ∧ s.ownerOf c = some p ∧ t / 17 = c ∧ s.gang (s.tile t).gang = none ∧ (s.tile t).barn = []) ∧
    (∃ (s : State) (p : Nat) (k : Nat) (rest : List (Nat × Nat)), s.pkg.load = (p, k) :: rest ∧ (s.part p).key = none) ∧
    (∃ (s : State) (p : Nat) (k : Nat) (rest : List (Nat × Nat)), s.pkg.load = (p, k) :: rest ∧ (s.part p).key ≠ none) ∧
    (∃ (s : State) (p : Nat) (rest : List Nat), s.pkg.erase = p :: rest) ∧
    (∃ (s : State) (t : Trigger) (part : Option Nat) (v : State), v = { s with pkg := s.pkg.noteAlarm t part } ∧ bitsOf
      s.pkg.alarmcfg (2 * triggerIndex t) 2 = 0) ∧
    (∃ (s : State) (t : Trigger) (part : Option Nat) (v : State) (p : _), v = { s with pkg := s.pkg.noteAlarm t part } ∧
      bitsOf s.pkg.alarmcfg (2 * triggerIndex t) 2 = 1 ∧ part = some p ∧ (t = .debug ∨ t = .misuse)) ∧
    (∃ (s : State) (t : Trigger) (part : Option Nat) (v : State), v = { s with pkg := s.pkg.noteAlarm t part } ∧ 2 ≤
      bitsOf s.pkg.alarmcfg (2 * triggerIndex t) 2) ∧
    (∃ (s : State) (part : Nat) (id : _) (G : _), s.gang id = some G ∧ G.part = part) ∧
    (∃ (s : State) (part : Nat) (va : Word) (data : List Byte) (ps : List Page), s.pages part 0 (pagesOf va.toNat
      data.length) = .ok ps ∧ ((ps.all fun q => s.plainPage part q.e) = true) ∧ ps.any s.frozenPage = false) ∧
    (∃ (s : State) (part : Nat) (va : Word) (data : List Byte) (ps : List Page), s.pages part 0 (pagesOf va.toNat
      data.length) = .ok ps ∧ ((ps.all fun q => s.plainPage part q.e) = false)) ∧
    (∃ (s : State) (c : Nat) (m : Nat) (C : Cluster), C = s.cluster c ∧ m = C.newm.toNat ∧ C.req = true ∧ C.spare = true ∧
      (∀ u, u < 17 → s.between (17 * c + u) = true) ∧ (C.due = true ∨ s.clusterRuns c = false) ∧ C.unitOf.get m m <
      16) :=
  ⟨⟨271, 15, (by decide +kernel)⟩,
    ⟨{ steward firmware with pkg := { rst := [3, 4] } }, 3, [4], (by decide +kernel)⟩,
    ⟨steward firmware, (by decide +kernel)⟩,
    ⟨{ steward firmware with gangs := [(1, { gang with part := 1 })] }, 0, _, rfl, (by decide +kernel)⟩,
    ⟨{ steward firmware with disp := { slots := [(0, slot)] } }, 0, _, 0, slot, rfl, (by decide +kernel)⟩,
    ⟨{ steward firmware with disp := { job := some job } }, 0, _, job, rfl, (by decide +kernel)⟩,
    ⟨{ steward firmware with parts := [(0, { Part.reset 0 with clusters := 1 })] }, 0, _, 0, 16, rfl, (by decide +kernel)⟩,
    ⟨{ steward firmware with parts := [(0, { Part.reset 0 with clusters := 1 })] }, 0, _, 0, 16, rfl, (by decide +kernel)⟩,
    ⟨{ steward firmware with pkg := { load := [(3, 5)] } }, 3, 5, [], (by decide +kernel)⟩,
    ⟨{ mapped (steward firmware) with pkg := { load := [(0, 5)] } }, 0, 5, [], (by decide +kernel)⟩,
    ⟨{ steward firmware with pkg := { erase := [3] } }, 3, [], (by decide +kernel)⟩,
    ⟨{ steward firmware with pkg := { alarmcfg := 0 } }, .glitch, none, _, rfl, (by decide +kernel)⟩,
    ⟨steward firmware, .misuse, some 3, _, 3, rfl, (by decide +kernel)⟩,
    ⟨steward firmware, .debug, none, _, rfl, (by decide +kernel)⟩,
    ⟨on tile strand, 0, 1, gang, (by decide +kernel)⟩,
    ⟨mapped (steward firmware), 0, 0xFFFF, [1, 2], [page 15, { page 15 with num := 1 }], (by decide +kernel)⟩,
    ⟨flagged 7 (steward firmware), 0, 0, [1], [page 7], (by decide +kernel)⟩,
    ⟨{ steward firmware with clusters := [(0, { coord := 1, req := true })] }, 0, _, _, rfl, rfl, (by decide +kernel)⟩⟩

theorem test_hypotheses_Dispatcher :
    (∃ (s : State) (part : Nat) (queue : Nat) (k : _) (x : _), s.slotOf part queue = some k ∧ s.slot k = some x) ∧
    (∃ (s : State) (part : Nat) (queue : Nat), s.slotOf part queue = none ∧ queue < 64) ∧
    (∃ (s : State) (slot : Nat) (id : Nat) (g : Gang), s.chargeable slot = some (id, g)) ∧
    (∃ (s : State) (k : Nat) (id : Nat) (x : Slot) (g : Gang), s.slot k = some x ∧ ((s.gangs.find? fun gG => decide
      (gG.2.qpart = x.part) && decide (gG.2.qid = x.qid) && decide (gG.2.state = .running)) = some (id, g)) ∧ x.qlim ≠
      0 ∧ x.qlim ≤ g.charged ∧ (∃ y ∈ s.readySlots, y.1 ≠ k ∧ g.prio ≤ y.2.1)) ∧
    (∃ (s : State) (k : Nat) (id : Nat) (x : Slot) (g : Gang), s.slot k = some x ∧ ((s.gangs.find? fun gG => decide
      (gG.2.qpart = x.part) && decide (gG.2.qid = x.qid) && decide (gG.2.state = .running)) = some (id, g)) ∧ (x.qlim
      = 0 ∨ g.charged < x.qlim)) ∧
    (∃ (s : State), s.disp.units < s.cycle / 65536) ∧
    (∃ (s : State) (k : _) (e : _) (x : _) (rest : _), s.pkg.up = true ∧ s.disp.job = none ∧ s.readySlots = (k, e, x) ::
      rest ∧ s.slot k = some x) ∧
    (∃ (s : State) (k : _) (e : _) (x : _) (rest : _) (y : _), y ∈ s.readySlots ∧ s.pkg.up = true ∧ s.disp.job = none ∧
      s.readySlots = (k, e, x) :: rest ∧ s.slot k = some x) ∧
    (∃ (s : State), s.pkg.up = true ∧ s.disp.job = none ∧ s.readySlots = []) ∧
    (∃ (s : State) (j : Job), (∀ id, j.src ≠ .cont id) ∧ s.disp.job = some j ∧ s.disp.jobFault = false ∧ s.pkg.up = true ∧
      s.ownsCluster j.part = false) ∧
    (∃ (s : State) (j : Job) (b : _), (∀ id, j.src ≠ .cont id) ∧ s.disp.job = some j ∧ s.disp.jobFault = false ∧ s.pkg.up
      = true ∧ s.ownsCluster j.part = true ∧ s.plan j = .invalid b) ∧
    (∃ (s : State) (j : Job) (id : Nat) (g : Gang), s.disp.job = some j ∧ j.src = .cont id ∧ s.gang id = some g ∧
      s.canResume id g = true) ∧
    (∃ (s : State) (s1 : State) (job : Nat) (d : Done) (g : Gang), (s.disp.done.find? (fun d => decide (d.job = job)) =
      some d) ∧ d.gang ≠ 0 ∧ s.gang d.gang.toNat = some g ∧ g.rank = 0 ∧ (d.hmsg = none ∨ s.hostq.length < 64) ∧
      s.writeCompletion d = .inr (some s1)) ∧
    (∃ (s : State) (d : Done) (va : Word) (ps : List Page), d.complva = some va ∧ s.pages d.part 0 [va.toNat] = .ok ps ∧
      ((ps.all fun q => s.plainPage d.part q.e) = true) ∧ ps.any s.frozenPage = false) :=
  ⟨⟨{ steward firmware with disp := { slots := [(0, slot)] } }, 1, 0, 0, slot, (by decide +kernel)⟩,
    ⟨steward firmware, 0, 63, (by decide +kernel)⟩,
    ⟨onGang { gang with cycles := 65536 } tile strand, 0, 1, { gang with cycles := 65536 }, (by decide +kernel)⟩,
    ⟨{ onGang { gang with charged := 1 } tile strand with disp := { slots := [(0, { slot with part := 0, qlim := 1, running := true }), (1, { slot with head := 0, tail := 1 })] } },
      0, 1, { slot with part := 0, qlim := 1, running := true }, { gang with charged := 1 }, (by decide +kernel)⟩,
    ⟨{ on tile strand with disp := { slots := [(0, { slot with part := 0, qlim := 1, running := true })] } }, 0, 1,
      { slot with part := 0, qlim := 1, running := true }, gang, (by decide +kernel)⟩,
    ⟨{ steward firmware with cycle := 65536 }, (by decide +kernel)⟩,
    ⟨{ steward firmware with pkg := { up := true }, disp := { slots := [(0, { slot with head := 0, tail := 1 })] } }, 0,
      0, { slot with head := 0, tail := 1 }, [], (by decide +kernel)⟩,
    ⟨{ steward firmware with pkg := { up := true }, disp := { slots := [(0, { slot with head := 0, tail := 1 })] } }, 0,
      0, { slot with head := 0, tail := 1 }, [], (0, 0, { slot with head := 0, tail := 1 }), (by decide +kernel)⟩,
    ⟨{ steward firmware with pkg := { up := true } }, (by decide +kernel)⟩,
    ⟨{ steward firmware with pkg := { up := true }, disp := { slots := [(0, slot)], job := some job } }, job,
      (fun id h => nomatch h), (by decide +kernel)⟩,
    ⟨{ holding blockBytes (steward firmware) with pkg := { up := true }, disp := { job := some { blockJob with block := some 1 } } },
      { blockJob with block := some 1 }, none, (fun id h => nomatch h), (by decide +kernel)⟩,
    ⟨{ gangs := [(1, { gang with state := .inBarn, place := [0] })], tiles := [(0, { barn := [(0, barnRec)] })], disp := { job := some { job with src := .cont 1 } } },
      { job with src := .cont 1 }, 1, { gang with state := .inBarn, place := [0] }, (by decide +kernel)⟩,
    ⟨{ on tile strand with disp := { done := [done] } },
      (match { on tile strand with disp := { done := [done] } }.writeCompletion done with | .inr (some s) => s | _ => {}),
      7, done, gang, (by decide +kernel)⟩,
    ⟨mapped (steward firmware), { done with complva := some 0 }, 0, [page 15], (by decide +kernel)⟩⟩

theorem test_hypotheses_StepRunsDecoded :
    (∃ (s : State) (v : State) (b : State) (w : State) (x : State) (c : Nat) (t : Nat) (k : Nat) (i : _), b = v.begin ⟨c,
      .strand t k .ok⟩ ∧ w = b.giveTurn t k ∧ (x = w.updMe (fun y => { y with issued := false })) ∧ s.nextTurn = (⟨c,
      .strand t k .ok⟩, v) ∧ w.discarding t = false ∧ w.stopsNow = false ∧ w.canTry = true ∧ w.forwarded = false ∧ k ≠
      4 ∧ w.myTile.badLine w.me.pc = false ∧ decodeSlot (w.myTile.codeHalf w.me.pc) (pcSlot w.me.pc) = some i) ∧
    (∃ (s : State) (v : State) (b : State) (w : State) (x : State) (c : Nat) (t : Nat) (k : Nat), b = v.begin ⟨c, .strand
      t k .ok⟩ ∧ w = b.giveTurn t k ∧ (x = w.updMe (fun y => { y with issued := false })) ∧ s.nextTurn = (⟨c, .strand
      t k .ok⟩, v) ∧ w.discarding t = false ∧ w.stopsNow = false ∧ w.canTry = true ∧ w.forwarded = false ∧ k ≠ 4 ∧
      w.myTile.badLine w.me.pc = false ∧ decodeSlot (w.myTile.codeHalf w.me.pc) (pcSlot w.me.pc) = none) ∧
    (∃ (s : State) (v : State) (b : State) (w : State) (x : State) (c : Nat) (t : Nat) (k : Nat), b = v.begin ⟨c, .strand
      t k .ok⟩ ∧ w = b.giveTurn t k ∧ (x = w.updMe (fun y => { y with issued := false })) ∧ s.nextTurn = (⟨c, .strand
      t k .ok⟩, v) ∧ w.discarding t = false ∧ w.stopsNow = false ∧ w.canTry = true ∧ w.forwarded = false ∧ k ≠ 4 ∧
      w.myTile.badLine w.me.pc = true) ∧
    (∃ (s : State) (v : State) (b : State) (c : Nat) (e : Instr), b = v.begin ⟨c, .event e⟩ ∧ s.nextTurn = (⟨c, .event e⟩,
      v) ∧ e.isCode = false ∧ (∀ t, eventTile e = some t → b.discarding t = false)) ∧
    (∃ (s : State), s.agenda = []) ∧
    (∃ (s : State) (x : Turn) (l : List Turn), s.agenda = x :: l) ∧
    (∃ (x : State), x.leadsList = false ∧ x.forwarded = false) ∧
    (∃ (T : Tile) (pc : Pc) (slot : Nat) (h : Nat) (n : Nat), slot = pc.toNat % 64 / 2 ∧ h = (T.codeHalf pc 0).toNat /
      2048 ∧ (n = (if T.codeHalf pc slot = 0x1100 then 2 else 1)) ∧ pc.toNat % 2 = 0) ∧
    (∃ (T : Tile) (pc : Pc) (slot : Nat) (h : Nat) (n : Nat), slot = pc.toNat % 64 / 2 ∧ h = (T.codeHalf pc 0).toNat /
      2048 ∧ (n = (if T.codeHalf pc slot = 0x1100 then 2 else 1)) ∧ pc.toNat % 2 = 0 ∧ slot + n ≤ h) ∧
    (∃ (T : Tile) (pc : Pc) (slot : Nat) (h : Nat) (n : Nat), slot = pc.toNat % 64 / 2 ∧ h = (T.codeHalf pc 0).toNat /
      2048 ∧ (n = (if T.codeHalf pc slot = 0x1100 then 2 else 1)) ∧ pc.toNat % 2 = 0 ∧ h < slot + n) ∧
    (∃ (s : State), s.curStrand = 4) ∧
    (∃ (s : State), s.curStrand ≠ 4 ∧ s.forwarded = false) ∧
    (∃ (s : State), (s.me.td = true ∨ s.me.rep.active = false)) ∧
    (∃ (s : State) (pc : Pc) (r : Rep) (keep : Bool) (t : State), t = s.retireAt pc r keep) ∧
    (∃ (s : State) (pc : Pc) (r : Rep) (keep : Bool) (t : State), t = s.retireAt pc r keep ∧ (s.curStrand ≠ 4 ∨ pc.toNat <
      s.me.slots.length)) ∧
    (∃ (s : State) (pc : Pc) (r : Rep) (keep : Bool) (t : State), t = s.retireAt pc r keep ∧ s.curStrand = 4 ∧
      s.me.slots.length ≤ pc.toNat) ∧
    (∃ (s : State) (pc : Pc) (r : Rep) (keep : Bool) (t : State), t = s.retireAt pc r keep ∧ keep = false) :=
  ⟨⟨on tile strand, on tile strand, _, _, _, 1, 0, 0, .nop, rfl, rfl, rfl, (by decide +kernel)⟩,
    ⟨on { tile with code := [(1, 0x10), (2, 0xFF), (3, 0xFF), (4, 0x0A), (5, 0x44)] } strand, on
      { tile with code := [(1, 0x10), (2, 0xFF), (3, 0xFF), (4, 0x0A), (5, 0x44)] } strand, _, _, _, 1, 0, 0, rfl,
      rfl, rfl, (by decide +kernel)⟩,
    ⟨on { tile with clines := 0 } strand, on { tile with clines := 0 } strand, _, _, _, 1, 0, 0, rfl, rfl, rfl,
      (by decide +kernel)⟩,
    ⟨{ on tile strand with agenda := [⟨5, .event (.partidRst)⟩] }, on tile strand, _, 5, .partidRst, rfl,
      (by decide +kernel)⟩,
    ⟨on tile strand, (by decide +kernel)⟩,
    ⟨{ on tile strand with agenda := [⟨5, .idle⟩] }, ⟨5, .idle⟩, [], (by decide +kernel)⟩,
    ⟨on tile strand, (by decide +kernel)⟩,
    ⟨tile, 2, _, _, _, rfl, rfl, rfl, (by decide +kernel)⟩,
    ⟨tile, 2, _, _, _, rfl, rfl, rfl, (by decide +kernel)⟩,
    ⟨tile, 4, _, _, _, rfl, rfl, rfl, (by decide +kernel)⟩,
    ⟨{ on tile strand with curStrand := 4, tiles := [(0, { tile with strands := [(4, { run := .ready, slots := [0x440A] })] })] },
      (by decide +kernel)⟩,
    ⟨on tile strand, (by decide +kernel)⟩,
    ⟨on tile { strand with rep := { active := true, left := 2, len := 1 }, status := 0x200000 }, (by decide +kernel)⟩,
    ⟨on tile strand, 4, {}, false, _, rfl⟩,
    ⟨on tile strand, 4, {}, false, _, rfl, (by decide +kernel)⟩,
    ⟨{ on tile strand with curStrand := 4, tiles := [(0, { tile with strands := [(4, { run := .ready, slots := [0x440A] })] })] },
      1, {}, false, _, rfl, (by decide +kernel)⟩,
    ⟨on tile strand, 0, {}, _, _, rfl, rfl⟩⟩

theorem test_hypotheses_IssueOrder :
    (∃ (s : State) (g : Guard) (d : SReg) (a : SReg) (b : SReg) (imm : BitVec 15) (i : Instr) (head : Nat), (i, head) ∈
      [(Instr.add g d a b, 0x0200), (Instr.addi g d a imm, 0x0600), (Instr.ld g .d d a imm, 0x6203), (Instr.preempt g
      d a, 0xFA02), (Instr.hmsg g a b, 0xFA05), (Instr.qpend g d, 0xFA08), (Instr.teardown g d a, 0xFA01),
      (Instr.barnsv g d a b, 0xFA03), (Instr.rankmap g d a b, 0xFA11)] ∧ g.mask = false ∧ s.me.rep.active = false ∧
      s.me.pp = true) ∧
    (∃ (s : State) (g : Guard) (d : SReg) (a : SReg) (b : SReg) (imm : BitVec 15) (i : Instr) (head : Nat), (i, head) ∈
      [(Instr.add g d a b, 0x0200), (Instr.addi g d a imm, 0x0600), (Instr.ld g .d d a imm, 0x6203), (Instr.preempt g
      d a, 0xFA02), (Instr.hmsg g a b, 0xFA05), (Instr.qpend g d, 0xFA08), (Instr.teardown g d a, 0xFA01),
      (Instr.barnsv g d a b, 0xFA03), (Instr.rankmap g d a b, 0xFA11)] ∧ g.mask = false ∧ s.me.rep.active = false ∧
      s.me.pp = false ∧ s.me.pt g.idx = true) ∧
    (∃ (s : State) (g : Guard) (d : SReg) (a : SReg) (b : SReg) (imm : BitVec 15) (i : Instr) (head : Nat), (i, head) ∈
      [(Instr.add g d a b, 0x0200), (Instr.addi g d a imm, 0x0600), (Instr.ld g .d d a imm, 0x6203), (Instr.preempt g
      d a, 0xFA02), (Instr.hmsg g a b, 0xFA05), (Instr.qpend g d, 0xFA08), (Instr.teardown g d a, 0xFA01),
      (Instr.barnsv g d a b, 0xFA03), (Instr.rankmap g d a b, 0xFA11)] ∧ g.mask = false ∧ s.me.rep.active = false ∧
      s.me.pp = false ∧ s.me.pt g.idx = false ∧ s.me.prd g.idx = g.inv) ∧
    (∃ (s : State) (g : Guard) (d : SReg) (a : SReg) (b : SReg) (i : Instr) (head : Nat), (i, head) ∈ [(Instr.preempt g d
      a, 0xFA02), (Instr.hmsg g a b, 0xFA05), (Instr.qpend g d, 0xFA08), (Instr.teardown g d a, 0xFA01), (Instr.barnsv
      g d a b, 0xFA03), (Instr.rankmap g d a b, 0xFA11)] ∧ g.mask = false ∧ s.me.rep.active = false ∧ s.me.pp = false
      ∧ s.me.pt g.idx = false ∧ s.me.prd g.idx ≠ g.inv ∧ s.curStrand = 4) ∧
    (∃ (s : State) (g : Guard) (d : SReg) (a : SReg) (b : SReg) (i : Instr) (head : Nat), (i, head) ∈ [(Instr.preempt g d
      a, 0xFA02), (Instr.hmsg g a b, 0xFA05), (Instr.qpend g d, 0xFA08), (Instr.teardown g d a, 0xFA01), (Instr.barnsv
      g d a b, 0xFA03), (Instr.rankmap g d a b, 0xFA11)] ∧ g.mask = false ∧ s.me.rep.active = false ∧ s.me.pp = false
      ∧ s.me.pt g.idx = false ∧ s.me.prd g.idx ≠ g.inv ∧ s.curStrand ≠ 4 ∧ s.me.priv < 3) ∧
    (∃ (g : Guard), g.mask = true) ∧
    (∃ (s : State) (g : Guard) (acc : BitVec 3) (ra : BitVec 3) (rb : BitVec 3) (ring : BitVec 3) (n : BitVec 6) (slot :
      BitVec 6) (x : SReg) (y : SReg) (z : SReg) (w : SReg) (tbl : Bool) (sz : Size) (sy : Sync) (i : Instr) (F :
      Option Formats), (i, F) ∈ [(Instr.mma g acc ra rb n sy, some mmaPairs), (Instr.mman g acc ra rb n sy, some
      mmaPairs), (Instr.mmaq g acc ra rb n sy, some mmaqPairs), (Instr.mmai g acc ra rb n sy, some mmaiPairs),
      (Instr.accsw g acc sy, none), (Instr.accst g acc y z sy, some accOut), (Instr.accld g acc y z sy, some accIn),
      (Instr.tblsw g tbl sy, none), (Instr.ringpush g ring slot sy, none), (Instr.ringpop g ring slot sy, none),
      (Instr.pflstop g ring sy, none), (Instr.pfl g x sy, none), (Instr.put g x y z sy, none), (Instr.get g x y z sy,
      none), (Instr.putv g x y z w sy, none), (Instr.getv g x y z w sy, none), (Instr.ist g sz x y sy, none),
      (Instr.istfD g x y sy, none), (Instr.xsched g x sy, none), (Instr.coll g x y z sy, none)] ∧ g.mask = false ∧
      s.me.prefixMisuse { head := 0, guard := g, formats := F } = false ∧ s.me.pt g.idx = false ∧ s.me.prd g.idx =
      g.inv ∧ SyncReady s sy true) ∧
    (∃ (s : State) (g : Guard) (acc : BitVec 3) (ra : BitVec 3) (rb : BitVec 3) (ring : BitVec 3) (n : BitVec 6) (slot :
      BitVec 6) (x : SReg) (y : SReg) (z : SReg) (w : SReg) (tbl : Bool) (sz : Size) (sy : Sync) (i : Instr) (F :
      Option Formats), (i, F) ∈ [(Instr.mma g acc ra rb n sy, some mmaPairs), (Instr.mman g acc ra rb n sy, some
      mmaPairs), (Instr.mmaq g acc ra rb n sy, some mmaqPairs), (Instr.mmai g acc ra rb n sy, some mmaiPairs),
      (Instr.accsw g acc sy, none), (Instr.accst g acc y z sy, some accOut), (Instr.accld g acc y z sy, some accIn),
      (Instr.tblsw g tbl sy, none), (Instr.ringpush g ring slot sy, none), (Instr.ringpop g ring slot sy, none),
      (Instr.pflstop g ring sy, none), (Instr.pfl g x sy, none), (Instr.put g x y z sy, none), (Instr.get g x y z sy,
      none), (Instr.putv g x y z w sy, none), (Instr.getv g x y z w sy, none), (Instr.ist g sz x y sy, none),
      (Instr.istfD g x y sy, none), (Instr.xsched g x sy, none), (Instr.coll g x y z sy, none)] ∧ g.mask = false ∧
      s.me.prefixMisuse { head := 0, guard := g, formats := F } = false ∧ s.me.pt g.idx = false ∧ s.me.prd g.idx =
      g.inv ∧ s.waitMet sy = false) ∧
    (∃ (s : State) (g : Guard) (acc : BitVec 3) (ra : BitVec 3) (rb : BitVec 3) (ring : BitVec 3) (n : BitVec 6) (slot :
      BitVec 6) (x : SReg) (y : SReg) (z : SReg) (w : SReg) (tbl : Bool) (sz : Size) (sy : Sync) (i : Instr) (F :
      Option Formats), (i, F) ∈ [(Instr.mma g acc ra rb n sy, some mmaPairs), (Instr.mman g acc ra rb n sy, some
      mmaPairs), (Instr.mmaq g acc ra rb n sy, some mmaqPairs), (Instr.mmai g acc ra rb n sy, some mmaiPairs),
      (Instr.accsw g acc sy, none), (Instr.accst g acc y z sy, some accOut), (Instr.accld g acc y z sy, some accIn),
      (Instr.tblsw g tbl sy, none), (Instr.ringpush g ring slot sy, none), (Instr.ringpop g ring slot sy, none),
      (Instr.pflstop g ring sy, none), (Instr.pfl g x sy, none), (Instr.put g x y z sy, none), (Instr.get g x y z sy,
      none), (Instr.putv g x y z w sy, none), (Instr.getv g x y z w sy, none), (Instr.ist g sz x y sy, none),
      (Instr.istfD g x y sy, none), (Instr.xsched g x sy, none), (Instr.coll g x y z sy, none)] ∧ g.mask = false ∧
      s.me.prefixMisuse { head := 0, guard := g, formats := F } = false ∧ s.me.pt g.idx = false ∧ s.me.prd g.idx =
      g.inv ∧ s.waitMet sy = true ∧ sy.sinc ≠ 0 ∧ s.myTile.semOver sy.ssem.toNat sy.sinc.toNat = true) :=
  ⟨⟨on tile { strand with status := 4 }, Guard.always, 3, 4, 5, 0, .add Guard.always 3 4 5, 0x0200, (by decide +kernel)⟩,
    ⟨on tile { strand with ptag := 2 }, ⟨false, false, 1⟩, 3, 4, 5, 0, .hmsg ⟨false, false, 1⟩ 4 5, 0xFA05,
      (by decide +kernel)⟩,
    ⟨on tile strand, ⟨false, false, 1⟩, 3, 4, 5, 0, .qpend ⟨false, false, 1⟩ 3, 0xFA08, (by decide +kernel)⟩,
    ⟨{ on tile strand with curStrand := 4 }, Guard.always, 3, 4, 5, .qpend Guard.always 3, 0xFA08, (by decide +kernel)⟩,
    ⟨on tile strand, Guard.always, 3, 4, 5, .rankmap Guard.always 3 4 5, 0xFA11, (by decide +kernel)⟩,
    ⟨noLane, (by decide +kernel)⟩,
    ⟨on tile strand, ⟨false, false, 1⟩, 0, 0, 0, 0, 0, 0, 4, 5, 6, 7, false, .d, Sync.none, .mmaq ⟨false, false, 1⟩ 0 0 0
      0 Sync.none, some mmaqPairs, (by simp), (by unfold SyncReady; decide +kernel)⟩,
    ⟨on tile strand, ⟨false, false, 1⟩, 0, 0, 0, 0, 0, 0, 4, 5, 6, 7, false, .d, ⟨0, 1, 0, 0, true, 0⟩, .mmaq ⟨false,
      false, 1⟩ 0 0 0 0 ⟨0, 1, 0, 0, true, 0⟩, some mmaqPairs, (by simp), (by decide +kernel)⟩,
    ⟨on { tile with ctl := { sems := [(0, 65535)] } } strand, ⟨false, false, 1⟩, 0, 0, 0, 0, 0, 0, 4, 5, 6, 7, false, .d,
      ⟨0, 0, 0, 1, false, 0⟩, .mmaq ⟨false, false, 1⟩ 0 0 0 0 ⟨0, 0, 0, 1, false, 0⟩, some mmaqPairs, (by simp),
      (by decide +kernel)⟩⟩

theorem test_hypotheses_HardwiredRegisters :
    (∃ (d : SReg), d ≠ 0) ∧
    (∃ (d : PReg), d ≠ 0) :=
  ⟨⟨31, (by decide +kernel)⟩,
    ⟨15, (by decide +kernel)⟩⟩

theorem test_hypotheses_ResetState :
    (∃ (p : _) (q : _), p < 64 ∧ q < 64) :=
  ⟨63, 63, (by decide +kernel)⟩

theorem test_hypotheses_EncodeDecode :
    (∃ (i : Instr), i.wf = true ∧ i.isCode = true) ∧
    (∃ (head : Half) (tv : Word) (l : Option (Half × Word)) (i : Instr), decode head tv l = some i) :=
  ⟨⟨.add Guard.always 3 4 5, (by decide +kernel)⟩,
    ⟨0x0200, 0x00061020, none, .add ⟨false, false, 0⟩ 1 2 3, (by decide +kernel)⟩⟩

theorem test_hypotheses_MemoryKept :
    (∃ (s : State) (t : State), step s = .next t ∧ Memory.wf s.mem) :=
  ⟨{ on tile strand with agenda := [⟨0, .idle⟩] }, _, rfl, (by unfold Memory.wf; decide +kernel)⟩

theorem test_hypotheses_BarnAndRanks_image :
    (∃ (s : State) (g : Guard) (a b : SReg) (x : TileImage) (rest : List TileImage) (id : Nat) (G : Gang),
      Clears s (privileged g 3) ∧ s.me.tag a = false ∧ s.me.tag b = false ∧ (s.me.rd a).toNat % 65536 = 0 ∧
      s.readImage (s.me.rd a).toNat = .ok (x :: rest) ∧ id = x.head.ctx.gang ∧ id ≠ 0 ∧ s.gang id = some G ∧ G.state ≠ .out) ∧
    (∃ (s : State) (g : Guard) (a b : SReg) (x : TileImage) (rest : List TileImage) (id : Nat),
      Clears s (privileged g 3) ∧ s.me.tag a = false ∧ s.me.tag b = false ∧ (s.me.rd a).toNat % 65536 = 0 ∧
      s.readImage (s.me.rd a).toNat = .ok (x :: rest) ∧ id = x.head.ctx.gang ∧ id ≠ 0 ∧
      (∀ G, s.gang id = some G → G.state = .out ∧ G.part = s.pkg.partid.toNat) ∧
      s.imagePlacement s.pkg.partid.toNat x.head (s.me.rd b) = none) ∧
    (∃ (s : State) (g : Guard) (a b : SReg) (x : TileImage) (rest : List TileImage) (id : Nat) (cs : List Nat),
      Clears s (privileged g 3) ∧ s.me.tag a = false ∧ s.me.tag b = false ∧ (s.me.rd a).toNat % 65536 = 0 ∧
      s.readImage (s.me.rd a).toNat = .ok (x :: rest) ∧ id = x.head.ctx.gang ∧ id ≠ 0 ∧
      (∀ G, s.gang id = some G → G.state = .out ∧ G.part = s.pkg.partid.toNat) ∧
      s.imagePlacement s.pkg.partid.toNat x.head (s.me.rd b) = some cs) := by
  obtain ⟨x, l, h, hp⟩ := image_read imaged_is
  obtain ⟨x', l', h', hp'⟩ := image_read manned_is
  replace hp := of_decide_eq_true hp
  replace hp' := of_decide_eq_true hp'
  have hi : (imaged.me.rd 4).toNat = 0 := by decide +kernel
  have hm : (manned.me.rd 4).toNat = 0 := by decide +kernel
  refine ⟨⟨manned, Guard.always, 4, 5, x', l', 1, gang, (by unfold Clears; decide +kernel),
      (by decide +kernel), (by decide +kernel), (by decide +kernel), (by rw [hm]; exact h'), hp'.symm, (by decide),
      (by decide +kernel), (by decide)⟩,
    ⟨imaged, Guard.always, 4, 6, x, l, 1, (by unfold Clears; decide +kernel), (by decide +kernel), (by decide +kernel),
      (by decide +kernel), (by rw [hi]; exact h), hp.1.symm, (by decide), (fun G h => nomatch h), ?_⟩,
    ⟨imaged, Guard.always, 4, 5, x, l, 1, [0], (by unfold Clears; decide +kernel), (by decide +kernel), (by decide +kernel),
      (by decide +kernel), (by rw [hi]; exact h), hp.1.symm, (by decide), (fun G h => nomatch h), ?_⟩⟩
  · have h6 : imaged.me.rd 6 = 0x3A := by decide +kernel
    have hq : imaged.pkg.partid.toNat = 0 := by decide +kernel
    rw [h6, hq]; exact hp.2.2
  · have h5 : imaged.me.rd 5 = 0 := by decide +kernel
    have hq : imaged.pkg.partid.toNat = 0 := by decide +kernel
    rw [h5, hq]; exact hp.2.1

theorem test_hypotheses_Dispatcher_plan :
    (∃ (s : State) (j : Job) (b : List Word) (p : Payload) (cs : List Nat), s.disp.job = some j ∧ (∀ id, j.src ≠ .cont id) ∧
      s.disp.jobFault = false ∧ s.pkg.up = true ∧ s.ownsCluster j.part = true ∧ s.plan j = .start b p cs ∧ s.peersPlaced j.part = true ∧
      (∃ i, 1 ≤ i ∧ i ≤ 65535 ∧ s.gang i = none ∧ ((s.part j.part).rankCount = 1 ∨ i ∉ s.peerGangs))) ∧
    (∃ (s : State) (j : Job) (b : List Word) (p : Payload) (cs : List Nat), s.disp.job = some j ∧ (∀ id, j.src ≠ .cont id) ∧
      s.disp.jobFault = false ∧ s.pkg.up = true ∧ s.ownsCluster j.part = true ∧ s.plan j = .start b p cs ∧
      s.peersPlaced j.part = false) ∧
    (∃ (s : State) (j : Job), s.disp.job = some j ∧ (∀ id, j.src ≠ .cont id) ∧ s.disp.jobFault = false ∧ s.pkg.up = true ∧
      s.ownsCluster j.part = true ∧ s.plan j = .full) := by
  obtain ⟨b, p, cs, h⟩ := plan_start launching_starts
  obtain ⟨b', p', cs', h'⟩ := plan_start awaiting_starts
  exact ⟨⟨launching, blockJob, b, p, cs, rfl, (fun id h => nomatch h), rfl, rfl, (by decide +kernel), h, (by decide +kernel), 1,
      (by decide), (by decide), rfl, (by decide +kernel)⟩,
    ⟨awaiting, blockJob, b', p', cs', rfl, (fun id h => nomatch h), rfl, rfl, (by decide +kernel), h', (by decide +kernel)⟩,
    ⟨crowded, blockJob, rfl, (fun id h => nomatch h), rfl, rfl, (by decide +kernel), crowded_full⟩⟩

theorem test_hypotheses_VectorFloat_rounding :
    (∃ (F : FloatFmt) (m : Nat) (e k : Int) (a limit : Nat), k = min e F.unit ∧ a = m * 2 ^ (e - k).toNat ∧
      limit = 2 ^ (F.emax + 1 - k).toNat ∧ limit ≤ a) ∧
    (∃ (F : FloatFmt) (m : Nat) (e k : Int) (a limit c : Nat), k = min e F.unit ∧ a = m * 2 ^ (e - k).toNat ∧
      limit = 2 ^ (F.emax + 1 - k).toNat ∧ a < limit ∧ c ≤ F.max false ∧ a = codeMag F k c) ∧
    (∃ (F : FloatFmt) (m : Nat) (e k : Int) (a limit c : Nat), k = min e F.unit ∧ a = m * 2 ^ (e - k).toNat ∧
      limit = 2 ^ (F.emax + 1 - k).toNat ∧ a < limit ∧ c ≤ F.max false ∧ codeMag F k c < a ∧ a < codeMag F k (c + 1)) ∧
    (∃ (F : FloatFmt) (x y : Nat), (F.value x).snan = true ∧ (F.value y).snan = false) ∧
    (∃ (F : FloatFmt) (x y : Nat), (F.value x).snan = false ∧ (F.value y).snan = false ∧ (F.value x).isNan = true) ∧
    (∃ (F : FloatFmt) (x y : Nat), (F.value x).snan = false ∧ (F.value y).snan = false ∧ (F.value x).isNan = false ∧
      (F.value y).isNan = true) ∧
    (∃ (F : FloatFmt) (x y : Nat), (F.value x).snan = false ∧ (F.value y).snan = false ∧ (F.value x).isNan = false ∧
      (F.value y).isNan = false ∧ x = F.sign true ∧ y = 0) :=
  ⟨⟨fp16, 1, 16, -24, _, _, (by decide), rfl, rfl, (by decide +kernel)⟩,
    ⟨fp16, 3, -24, -24, _, _, 3, (by decide), rfl, rfl, (by decide +kernel)⟩,
    ⟨fp16, 3, -25, -25, _, _, 1, (by decide), rfl, rfl, (by decide +kernel)⟩,
    ⟨fp16, 0x7C01, 0, (by decide +kernel)⟩, ⟨fp16, 0x7E00, 0, (by decide +kernel)⟩, ⟨fp16, 0, 0x7E00, (by decide +kernel)⟩,
    ⟨fp16, 0x8000, 0, (by decide +kernel)⟩⟩

/-! The cases of `SumsRight`, `ProductRight` and `IntRoundsRight`. -/

theorem test_hypotheses_VectorFloat_sums :
    (∃ xs : List XVal, (∃ x ∈ xs, x.isNan = true)) ∧
    (∃ xs : List XVal, (∀ x ∈ xs, x.isNan = false) ∧ .inf true ∈ xs ∧ .inf false ∈ xs) ∧
    (∃ (xs : List XVal) (n : Bool), (∀ x ∈ xs, x.isNan = false) ∧ .inf n ∈ xs ∧ .inf (!n) ∉ xs) ∧
    (∃ (xs : List XVal) (k total : Int), (∀ x ∈ xs, x.isNan = false) ∧ (∀ n, .inf n ∉ xs) ∧
      (∀ n m e st, .fin n m e st ∈ xs → m ≠ 0 → k ≤ e) ∧ k ≤ 1024 ∧ total = (xs.map fun x => x.scaled k).sum ∧ total ≠ 0) ∧
    (∃ (xs : List XVal) (k total : Int), (∀ x ∈ xs, x.isNan = false) ∧ (∀ n, .inf n ∉ xs) ∧
      (∀ n m e st, .fin n m e st ∈ xs → m ≠ 0 → k ≤ e) ∧ k ≤ 1024 ∧ total = (xs.map fun x => x.scaled k).sum ∧ total = 0 ∧
      (∀ x ∈ xs, ∃ e st, x = .fin true 0 e st) ∧ xs ≠ []) ∧
    (∃ (xs : List XVal) (k total : Int), (∀ x ∈ xs, x.isNan = false) ∧ (∀ n, .inf n ∉ xs) ∧
      (∀ n m e st, .fin n m e st ∈ xs → m ≠ 0 → k ≤ e) ∧ k ≤ 1024 ∧ total = (xs.map fun x => x.scaled k).sum ∧ total = 0 ∧
      (∀ z, ∃ x ∈ xs, ∀ e st, x ≠ .fin z 0 e st)) :=
  ⟨⟨[.nan true], _, List.mem_singleton.2 rfl, rfl⟩, ⟨[.inf true, .inf false], by simp [XVal.isNan], by simp, by simp⟩,
    ⟨[.inf true], true, by simp [XVal.isNan], by simp, by simp⟩,
    ⟨[.fin false 3 2 false], 1, _, by simp [XVal.isNan], by simp, by simp, by decide, rfl, by decide⟩,
    ⟨[.fin true 0 0 false], 0, _, by simp [XVal.isNan], by simp, by simp, by decide, rfl, by decide, by simp, by simp⟩,
    ⟨[.fin false 1 0 false, .fin true 1 0 false], 0, _, by simp [XVal.isNan], by simp, by simp, by decide, rfl, by decide, by simp⟩⟩

theorem test_hypotheses_ReductionsAndConversions_integers :
    (∃ (k : Int) (a unit limit cap m : Nat) (e : Int), k = min e 0 ∧ a = m * 2 ^ (e - k).toNat ∧ unit = 2 ^ (0 - k).toNat ∧
      (7, 128, limit) ∈ [(7, 128, 127), (8, 0, 255)] ∧ cap = limit + 1 ∧ cap * unit ≤ a) ∧
    (∃ (k : Int) (a unit limit cap m q : Nat) (e : Int), k = min e 0 ∧ a = m * 2 ^ (e - k).toNat ∧ unit = 2 ^ (0 - k).toNat ∧
      (7, 128, limit) ∈ [(7, 128, 127), (8, 0, 255)] ∧ cap = limit + 1 ∧ a < cap * unit ∧ q * unit < a ∧ a < (q + 1) * unit ∧
      q + 1 = cap) :=
  ⟨⟨0, _, _, 127, _, 128, 0, by decide, rfl, rfl, by decide, rfl, by decide⟩,
    ⟨-1, _, _, 127, _, 255, 127, -1, by decide, rfl, rfl, by decide, rfl, by decide, by decide, by decide, by decide⟩⟩

end Sys2Proof.Tests
end

section
/-! PROOFS. SYSRD and SYSWR: one law for each of R90's answers, in its order of causes, and the obligation put together
from them. -/

namespace Sys2Proof.Proofs

open Sys2Proof.Machine Sys2Proof.Safety Sys2Proof.Laws

theorem exec_sysrd (s : State) (g : Guard) (d : SReg) (n : BitVec 12) : exec (.sysrd g d n) s = execSysrd g d n s := rfl

theorem exec_syswr (s : State) (g : Guard) (a : SReg) (n : BitVec 12) : exec (.syswr g a n) s = execSyswr g a n s := rfl

section
variable {s : State} {g : Guard} {n : BitVec 12} {r : Nat} {w : Option Nat} (h : Clears s (ordinary g))
include h

/-! ## SYSRD (R90) -/

theorem sysrd_of_unlisted (d : SReg) (hn : sysAccess n.toNat = none) :
    exec (.sysrd g d n) s = .next (traps s 0x01 (sysVal 0x7200 n.toNat)) := by
  rw [exec_sysrd]
  exact issue_trap (clears_as h _) rfl (by simp [hn])

theorem sysrd_below_level (d : SReg) (hn : sysAccess n.toNat = some (r, w)) (hr : s.me.priv < r) :
    exec (.sysrd g d n) s = .next (traps s 0x04 (sysVal 0x7200 n.toNat)) := by
  rw [exec_sysrd]
  exact issue_trap (clears_as h _) rfl (by simp [hn, hr])

theorem sysrd_at_level (d : SReg) (hn : sysAccess n.toNat = some (r, w)) (hr : r ≤ s.me.priv) :
    exec (.sysrd g d n) s = .next (regResult s d (s.sysRead n.toNat) false) := by
  rw [exec_sysrd]
  exact issue_done (clears_as h _) rfl rfl (by simp [hn, Nat.not_lt.mpr hr])

/-! ## SYSWR (R90) -/

theorem syswr_of_unlisted (a : SReg) (hn : sysAccess n.toNat = none) :
    exec (.syswr g a n) s = .next (traps s 0x01 (sysVal 0x7201 n.toNat)) := by
  rw [exec_syswr]
  exact issue_trap (clears_as h _) rfl (by simp [hn])

theorem syswr_below_level {l : Nat} (a : SReg) (hn : sysAccess n.toNat = some (r, some l)) (hl : s.me.priv < l) :
    exec (.syswr g a n) s = .next (traps s 0x04 (sysVal 0x7201 n.toNat)) := by
  rw [exec_syswr]
  exact issue_trap (clears_as h _) rfl (by simp [hn, hl])

/-- A read-only register has no write level to fall below, so there too the poison is what is found. -/
theorem syswr_of_poisoned (a : SReg) (hn : sysAccess n.toNat = some (r, w)) (hw : ∀ l, w = some l → l ≤ s.me.priv)
    (ha : s.me.tag a = true) : exec (.syswr g a n) s = .next (traps s 0x07 (n.setWidth 64)) := by
  rw [exec_syswr]
  refine issue_trap (clears_as h _) rfl ?_
  cases w with
  | none => simp [hn, ha]
  | some l => simp [hn, ha, Nat.not_lt.mpr (hw l rfl)]

theorem syswr_of_read_only (a : SReg) (hn : sysAccess n.toNat = some (r, none)) (ha : s.me.tag a = false) :
    exec (.syswr g a n) s = .next (retired s s) := by
  rw [exec_syswr]
  exact issue_done (clears_as h _) rfl rfl (by simp [hn, ha])

theorem syswr_at_level {l : Nat} (a : SReg) (hn : sysAccess n.toNat = some (r, some l)) (hl : l ≤ s.me.priv)
    (ha : s.me.tag a = false) :
    exec (.syswr g a n) s = .next (retired s (s.sysWrite n.toNat (s.me.rd a))) := by
  rw [exec_syswr]
  exact issue_done (clears_as h _) rfl rfl (by simp [hn, ha, Nat.not_lt.mpr hl])

end

/-- Settles O14: the listed numbers are those of `sysAccess_dom`, and each clause is one of R90's answers. -/
theorem systemRegisterAccess : Obligations.SystemRegisterAccess := by
  intro s g d a n h
  refine ⟨sysAccess_dom n.toNat, fun hn => ⟨sysrd_of_unlisted h d hn, syswr_of_unlisted h a hn⟩, fun r w hn => ?_⟩
  refine ⟨sysrd_at_level h d hn, sysrd_below_level h d hn, ?_, syswr_of_poisoned h a hn, ?_, ?_⟩
  · rintro l rfl hl
    exact syswr_below_level h a hn hl
  · rintro rfl ha
    exact syswr_of_read_only h a hn ha
  · rintro l rfl hl ha
    exact syswr_at_level h a hn hl ha

end Sys2Proof.Proofs
end

section
/-! PROOFS. The package's memory and the operations that leave it alone: one law for each, so that a statement about memory
unfolds none of them (R25). -/

namespace Sys2Proof.Machine

open Sys2Proof.Safety

/-! ## What an effect and an outcome leave in memory -/

/-- Every state that an effect carries has a package memory with property Q. -/
def Eff.MemSat (Q : List Host.Cell → Prop) : Eff → Prop
  | .done s => Q s.mem
  | .goto s _ _ => Q s.mem
  | .retry s => Q s.mem
  | .parked s _ => Q s.mem
  | .hold s _ => Q s.mem
  | .final s => Q s.mem
  | _ => True

/-- The next state that an outcome answers, if any, has a package memory with property Q. -/
def MemSat (Q : List Host.Cell → Prop) : Host.Outcome State Fault Refusal → Prop
  | .next s => Q s.mem
  | _ => True

section
variable (Q : List Host.Cell → Prop) (s : State)

@[simp] theorem Eff.memSat_done : (Eff.done s).MemSat Q ↔ Q s.mem := Iff.rfl
@[simp] theorem Eff.memSat_goto (pc : Pc) (r : Rep) : (Eff.goto s pc r).MemSat Q ↔ Q s.mem := Iff.rfl
@[simp] theorem Eff.memSat_retry : (Eff.retry s).MemSat Q ↔ Q s.mem := Iff.rfl
@[simp] theorem Eff.memSat_parked (w : Reason) : (Eff.parked s w).MemSat Q ↔ Q s.mem := Iff.rfl
@[simp] theorem Eff.memSat_hold (h : Hold) : (Eff.hold s h).MemSat Q ↔ Q s.mem := Iff.rfl
@[simp] theorem Eff.memSat_final : (Eff.final s).MemSat Q ↔ Q s.mem := Iff.rfl
@[simp] theorem Eff.memSat_trap (c : Nat) (v : Word) : (Eff.trap c v).MemSat Q := trivial
@[simp] theorem Eff.memSat_trapLate (c : Nat) (v : Word) : (Eff.trapLate c v).MemSat Q := trivial
@[simp] theorem Eff.memSat_trapNext (c : Nat) (v : Word) : (Eff.trapNext c v).MemSat Q := trivial
@[simp] theorem Eff.memSat_trapAt (pc : Pc) (c : Nat) (v : Word) : (Eff.trapAt pc c v).MemSat Q := trivial
@[simp] theorem Eff.memSat_park (w : Reason) : (Eff.park w).MemSat Q := trivial
@[simp] theorem Eff.memSat_parkTested (w : Reason) (v : Word) : (Eff.parkTested w v).MemSat Q := trivial
@[simp] theorem Eff.memSat_fault (f : Fault) : (Eff.fault f).MemSat Q := trivial
@[simp] theorem memSat_next : MemSat Q (.next s) ↔ Q s.mem := Iff.rfl
@[simp] theorem memSat_fault (f : Fault) : MemSat Q (.fault f) := trivial
@[simp] theorem memSat_refused (r : Refusal) : MemSat Q (.refused r) := trivial

end

/-- A fold of steps that leave memory as it is. -/
theorem mem_foldl {β : Type} {f : State → β → State} (hf : ∀ s b, (f s b).mem = s.mem) (l : List β) (s : State) :
    (l.foldl f s).mem = s.mem :=
  foldl_keeps (P := fun x : State => x.mem = s.mem) (fun a b h => (hf a b).trans h) l s rfl

@[simp] theorem mem_foldl_updTile {β : Type} (k : β → Nat) (g : State → β → Tile → Tile) (l : List β) (s : State) :
    (l.foldl (fun s b => s.updTile (k b) (g s b)) s).mem = s.mem :=
  mem_foldl (fun s b => s.updTile_mem (k b) (g s b)) l s

/-! ## Tiles, strands, votes, traps and semaphores -/

@[simp] theorem State.setGang_mem (s : State) (g : Nat) (x : Gang) : (s.setGang g x).mem = s.mem := rfl

@[simp] theorem State.updGang_mem (s : State) (g : Nat) (f : Gang → Gang) : (s.updGang g f).mem = s.mem := by
  unfold State.updGang
  split <;> rfl

@[simp] theorem State.updPart_mem (s : State) (p : Nat) (f : Part → Part) : (s.updPart p f).mem = s.mem := rfl

@[simp] theorem State.updCluster_mem (s : State) (c : Nat) (f : Cluster → Cluster) : (s.updCluster c f).mem = s.mem := rfl

@[simp] theorem State.report_mem (s : State) (r : Report) : (s.report r).mem = s.mem := rfl

@[simp] theorem State.raiseVote_mem (s : State) (t : Nat) (v : BitVec 2) (cause : BitVec 8) :
    (s.raiseVote t v cause).mem = s.mem := by
  unfold State.raiseVote
  split <;> rfl

@[simp] theorem State.cancelWork_mem (s : State) (t : Nat) : (s.cancelWork t).mem = s.mem := rfl

@[simp] theorem State.resetSteward_mem (s : State) (t : Nat) : (s.resetSteward t).mem = s.mem := rfl

@[simp] theorem State.failTile_mem (s : State) (t : Nat) (v : BitVec 2) (cause : BitVec 8) :
    (s.failTile t v cause).mem = s.mem := by
  unfold State.failTile
  split <;> simp

@[simp] theorem State.stopStrand_mem (s : State) (t k : Nat) (cause : Nat) : (s.stopStrand t k cause).mem = s.mem := by
  unfold State.stopStrand
  split <;> simp

@[simp] theorem State.takeTrap_mem (s : State) (t k : Nat) (cause : Nat) (pc : Pc) (val : Word) :
    (s.takeTrap t k cause pc val).mem = s.mem := by
  simp only [State.takeTrap]
  split
  · simp
  · split <;> simp

@[simp] theorem State.engineSignal_mem (s : State) (t : Nat) (sy : Sync) : (s.engineSignal t sy).mem = s.mem := by
  simp [State.engineSignal, apply_ite State.mem]

@[simp] theorem State.noteIssue_mem (s : State) : (s.noteIssue).mem = s.mem := by
  simp [State.noteIssue, mem_foldl, apply_ite State.mem]

@[simp] theorem State.signalMe_mem (s : State) (sy : Sync) : (s.signalMe sy).mem = s.mem := by
  unfold State.signalMe
  split <;> rfl

@[simp] theorem State.takeWait_mem (s : State) (sy : Sync) : (s.takeWait sy).mem = s.mem := by
  unfold State.takeWait
  split <;> rfl

@[simp] theorem State.refundWait_mem (s : State) (sy : Sync) : (s.refundWait sy).mem = s.mem := by
  unfold State.refundWait
  split <;> rfl

@[simp] theorem State.trapMe_mem (s : State) (cause : Nat) (pc : Pc) (val : Word) : (s.trapMe cause pc val).mem = s.mem := by
  simp [State.trapMe]

@[simp] theorem State.parkMe_mem (s : State) (why : Reason) : (s.parkMe why).mem = s.mem := rfl

@[simp] theorem State.retireHeld_mem (s : State) (t k : Nat) (sy : Sync) : (s.retireHeld t k sy).mem = s.mem := by
  simp [State.retireHeld]

@[simp] theorem State.trapHeld_mem (s : State) (t k : Nat) (cause : Nat) (val : Word) :
    (s.trapHeld t k cause val).mem = s.mem := by
  simp [State.trapHeld]

/-! ## Tile memory -/

@[simp] theorem State.noteConflict_mem (s : State) (t : Nat) (c : Bool) : (s.noteConflict t c).mem = s.mem := by
  unfold State.noteConflict
  split <;> simp

@[simp] theorem State.startWake_mem (s : State) (t a : Nat) : (s.startWake t a).mem = s.mem := by
  simp only [State.startWake]
  split <;> simp

@[simp] theorem State.releaseHeld_mem (s : State) (t seg : Nat) : (s.releaseHeld t seg).mem = s.mem := rfl

theorem State.wakeFor_mem {s u : State} {t a len : Nat} (h : s.wakeFor t a len = some u) : u.mem = s.mem := by
  obtain ⟨g, -, rfl⟩ := Option.map_eq_some_iff.mp h
  exact s.startWake_mem t g

@[simp] theorem State.wakeFor_getD_mem (s : State) (t a len : Nat) : ((s.wakeFor t a len).getD s).mem = s.mem := by
  cases h : s.wakeFor t a len with
  | none => rfl
  | some u => exact State.wakeFor_mem h

/-! ## What a gang and its tiles know of each other -/

@[simp] theorem State.disarmWake_mem (s : State) (g : Nat) : (s.disarmWake g).mem = s.mem := by
  unfold State.disarmWake
  split <;> rfl

@[simp] theorem State.dropTraffic_mem (s : State) (t : Nat) : (s.dropTraffic t).mem = s.mem := rfl

/-! ## The Abacus -/

theorem State.retireSwap_mem (s : State) (t k : Nat) (sy : Sync) {effect : State → State} (he : (effect s).mem = s.mem) :
    (s.retireSwap t k sy effect).mem = s.mem := by
  unfold State.retireSwap
  split
  · simp
  · simp [he]

@[simp] theorem State.lateFlags_mem (s : State) (t k : Nat) (routine : BitVec 16) (f : Flags) :
    (s.lateFlags t k routine f).mem = s.mem := by
  simp only [State.lateFlags]
  split <;> simp

@[simp] theorem State.moveAccWord_mem (s : State) (t : Nat) (acc : Nat) (i : Nat) : (s.moveAccWord t acc i).mem = s.mem := by
  simp only [State.moveAccWord]
  repeat' split
  all_goals simp

/-! ## Scalar loads, stores and fences -/

@[simp] theorem State.loadInto_mem (s : State) (d : SReg) (n e : Nat) : (s.loadInto d n e).mem = s.mem := rfl

@[simp] theorem State.pushViews_mem (s : State) : (s.pushViews).mem = s.mem := rfl

/-! ## Translation and poison marks -/

@[simp] theorem State.drawn_mem (s : State) : (s.drawn).mem = s.mem := by
  unfold State.drawn
  split <;> rfl

/-! ## Bales and rings -/

@[simp] theorem State.fillRequest_mem (s : State) (t slot : Nat) : (s.fillRequest t slot).mem = s.mem := rfl

@[simp] theorem State.startFill_mem (s : State) (t slot : Nat) (tag : BitVec 57) (view : BitVec 8) (next : Bool) :
    (s.startFill t slot tag view next).mem = s.mem := rfl

@[simp] theorem State.claimSlots_mem (s : State) (slots : List Nat) : (s.claimSlots slots).mem = s.mem := rfl

@[simp] theorem State.pflStart_mem (s : State) (t : Nat) (e : PflEntry) : (s.pflStart t e).mem = s.mem := by
  unfold State.pflStart
  split <;> rfl

/-! ## What the Gleaner sees -/

@[simp] theorem State.observe_mem (s : State) (part : Nat) (w : Seen) : (s.observe part w).mem = s.mem := by
  simp only [State.observe]
  split <;> simp

/-! ## Requests, faults, release entries and frames -/

@[simp] theorem State.dropReq_mem (s : State) (n : Nat) : (s.dropReq n).mem = s.mem := rfl

@[simp] theorem State.dropWork_mem (s : State) (n : Nat) (r : Req) : (s.dropWork n r).mem = s.mem := rfl

@[simp] theorem State.recordWork_mem (s : State) (r : Req) (cause va : Nat) : (s.recordWork r cause va).mem = s.mem := by
  unfold State.recordWork
  split <;> rfl

@[simp] theorem State.failReq_mem (s : State) (n : Nat) (r : Req) (cause va : Nat) : (s.failReq n r cause va).mem = s.mem := by
  unfold State.failReq
  split <;> simp

@[simp] theorem State.suspendReq_mem (s : State) (n : Nat) (r : Req) (va : Nat) : (s.suspendReq n r va).mem = s.mem := by
  simp only [State.suspendReq]
  split <;> simp

theorem State.takeFrame_mem {s u : State} {stack f : Nat} (h : s.takeFrame stack = some (f, u)) : u.mem = s.mem := by
  unfold State.takeFrame at h
  split at h
  · cases h
    rfl
  · obtain ⟨fk, -, h⟩ := Option.map_eq_some_iff.mp h
    cases h
    rfl

@[simp] theorem State.beginWork_mem (s : State) (r : Req) : (s.beginWork r).mem = s.mem := by
  unfold State.beginWork
  split <;> rfl

@[simp] theorem State.moveOn_mem (s : State) (n : Nat) (r : Req) (only : Option Nat) (words : List (Nat × Word × Bool))
    (units : List (Nat × Option (BitVec 512))) :
    (s.moveOn n r only words units).mem = s.mem := by
  unfold State.moveOn
  split <;> rfl

@[simp] theorem State.performRead_mem (s : State) (n : Nat) (r : Req) (only : Option Nat) (ps : List Page) (vas : List Nat) :
    (s.performRead n r only ps vas).mem = s.mem := by
  simp only [State.performRead]
  split <;> simp

@[simp] theorem State.enterRelease_mem (s : State) (r : Req) (units : Nat) (bytes : List (Nat × Byte × Bool)) :
    (s.enterRelease r units bytes).mem = s.mem := by
  simp only [State.enterRelease]
  split
  · simp
  · split <;> simp

@[simp] theorem State.settleMarks_mem (s : State) (before now : List (Nat × Byte × Bool)) :
    (s.settleMarks before now).mem = s.mem := by
  unfold State.settleMarks
  split
  · rfl
  · refine mem_foldl (fun s w => ?_) _ _
    dsimp only
    split <;> rfl

@[simp] theorem State.freezeReq_mem (s : State) (n : Nat) (r : Req) : (s.freezeReq n r).mem = s.mem := by
  unfold State.freezeReq
  split <;> rfl

@[simp] theorem State.answerReq_mem (s : State) (n : Nat) (r : Req) (resolved : Bool) :
    (s.answerReq n r resolved).mem = s.mem := by
  simp only [State.answerReq]
  repeat' split
  all_goals simp

@[simp] theorem State.poisonFrame_mem (s : State) (frame bytes : Nat) : (s.poisonFrame frame bytes).mem = s.mem :=
  mem_foldl (fun s i => s.setPoisonMark_mem (frame + 8 * i) true) _ _

@[simp] theorem State.poisonWords_mem (s : State) (as : List Nat) : (s.poisonWords as).mem = s.mem :=
  mem_foldl (fun s a => s.setPoisonMark_mem a true) _ _

@[simp] theorem State.dropRead_mem (s : State) (addr : Nat) (dropped : Option MemAccess) :
    (s.dropRead addr dropped).mem = s.mem := by
  simp only [State.dropRead]
  repeat' split
  all_goals simp

@[simp] theorem State.stackTemp_mem (s : State) (stack : Nat) (celsius : BitVec 8) : (s.stackTemp stack celsius).mem = s.mem :=
  rfl

/-! ## Put, get and drains -/

@[simp] theorem State.enqueue_mem (s : State) (d : Direction) (off len : Nat) (va : Word) (view : Nat) (uipc : Pc)
    (sy : Sync) (units : Nat) :
    (s.enqueue d off len va view uipc sy units).mem = s.mem := by
  simp only [State.enqueue]
  split <;> simp

@[simp] theorem State.noteRemote_mem (s : State) (src t : Nat) (c : Bool) : (s.noteRemote src t c).mem = s.mem := by
  simp [State.noteRemote, apply_ite State.mem]

@[simp] theorem State.landWords_mem (t : Nat) (remote : Bool) : ∀ (ws : List (Word × Bool)) (s : State) (a : Nat),
    (s.landWords t remote a ws).1.mem = s.mem
  | [], _, _ => rfl
  | w :: ws, s, a => by
    have ih := State.landWords_mem t remote ws
    unfold State.landWords
    dsimp only
    split
    · simp [ih]
    · split <;> simp [ih]

@[simp] theorem State.landRead_mem (s : State) (t a : Nat) (w : Word × Bool) : (s.landRead t a w).1.mem = s.mem := by
  unfold State.landRead
  split <;> simp

@[simp] theorem State.gangWord_mem (s : State) (t : Nat) (e : Xfer) (idx off : Nat) (ext : List (Word × Bool)) (i : Nat) :
    (s.gangWord t e idx off ext i).1.mem = s.mem := by
  unfold State.gangWord
  repeat' split
  all_goals simp

@[simp] theorem State.gangTransfer_mem (s : State) (t : Nat) (e : Xfer) (idx off : Nat) (ext : List (Word × Bool)) :
    (s.gangTransfer t e idx off ext).1.mem = s.mem :=
  foldl_keeps (P := fun r : State × Bool => r.1.mem = s.mem)
    (f := fun r i => ((r.1.gangWord t e idx off ext i).1, r.2 || (r.1.gangWord t e idx off ext i).2))
    (fun r i h => (r.1.gangWord_mem t e idx off ext i).trans h) _ _ rfl

@[simp] theorem State.xferSignal_mem (s : State) (t : Nat) (e : Xfer) : (s.xferSignal t e).mem = s.mem := by
  simp only [State.xferSignal]
  repeat' split
  all_goals simp

theorem State.xferWake_mem {s u : State} {t i len : Nat} {e : Xfer} (h : s.xferWake t e i len = some u) : u.mem = s.mem := by
  unfold State.xferWake at h
  split at h
  · rename_i hw
    cases h
    exact State.wakeFor_mem hw
  · split at h
    · exact State.wakeFor_mem h
    · cases h

@[simp] theorem State.fetchFailed_mem (s : State) (t : Nat) (e : Xfer) : (s.fetchFailed t e).mem = s.mem := by
  simp [State.fetchFailed]

@[simp] theorem State.startedXfer_mem (s : State) (t n : Nat) (e : Xfer) : (s.startedXfer t n e).1.mem = s.mem := rfl

@[simp] theorem State.moveWord_mem (s : State) (t n i : Nat) : (s.moveWord t n i).mem = s.mem := by
  unfold State.moveWord
  split
  · rfl
  · split
    · split
      · rfl
      · split
        · rename_i h
          exact State.xferWake_mem h
        · dsimp only
          split <;> simp
    · rfl

@[simp] theorem State.finishXfer_mem (s : State) (t : Nat) (e : Xfer) : (s.finishXfer t e).mem = s.mem := by
  simp [State.finishXfer]

@[simp] theorem State.beginDrain_mem (s : State) (t ring : Nat) : (s.beginDrain t ring).mem = s.mem := by
  simp only [State.beginDrain]
  split <;> simp

/-! ## Cluster space, the event unit, immediate stores and atomics -/

@[simp] theorem State.loadCluster_mem (s : State) (d : SReg) (n h a : Nat) : (s.loadCluster d n h a).mem = s.mem := by
  simp [State.loadCluster, apply_ite State.mem]

@[simp] theorem State.finishEvent_mem (s : State) (t k : Nat) (d : SReg) (v : Word) : (s.finishEvent t k d v).mem = s.mem := by
  simp only [State.finishEvent]
  split
  · simp
  · split <;> simp

@[simp] theorem State.sendChain_mem (s : State) (c : Nat) (line : Bool) (obj : Nat) (target : Option (Bool × Nat × Nat)) :
    (s.sendChain c line obj target).mem = s.mem := by
  simp only [State.sendChain]
  split
  · simp
  · split <;> simp

@[simp] theorem State.fireBarrier_mem (s : State) (c b : Nat) : (s.fireBarrier c b).mem = s.mem := by
  simp [State.fireBarrier, mem_foldl]

@[simp] theorem State.countArrival_mem (s : State) (c b : Nat) (w : Option (Nat × Nat × SReg)) (child : Option (Nat × Nat)) :
    (s.countArrival c b w child).mem = s.mem := by
  simp only [State.countArrival]
  split
  · simp
  · split <;> simp

@[simp] theorem State.arriveBarrier_mem (s : State) (c b : Nat) (w : Option (Nat × Nat × SReg)) (child : Option (Nat × Nat)) :
    (s.arriveBarrier c b w child).mem = s.mem := by
  simp only [State.arriveBarrier]
  split <;> simp

@[simp] theorem State.releaseBarrier_mem (s : State) (c b : Nat) : (s.releaseBarrier c b).mem = s.mem := by
  simp [State.releaseBarrier, mem_foldl, apply_ite State.mem]

@[simp] theorem State.signalLine_mem (s : State) (c e : Nat) : (s.signalLine c e).mem = s.mem := by
  simp [State.signalLine, mem_foldl, apply_ite State.mem]

@[simp] theorem State.failCluster_mem (s : State) (c : Nat) : (s.failCluster c).mem = s.mem := by
  simp [State.failCluster, mem_foldl, apply_ite State.mem]

@[simp] theorem State.landStore_mem (s : State) (remote : Bool) (d a n : Nat) (v : Word) :
    (s.landStore remote d a n v).1.mem = s.mem := by
  simp only [State.landStore]
  repeat' split
  all_goals simp

theorem State.accept_mem {s u : State} {dest : Nat} {f : Flit} (h : s.accept dest f = some u) : u.mem = s.mem := by
  unfold State.accept at h
  grind

@[simp] theorem State.landForeign_mem (s : State) (e : ExtStore) : (s.landForeign e).mem = s.mem := by
  unfold State.landForeign
  split
  · rfl
  · rename_i u hu
    have h : u.mem = s.mem := by
      split at hu
      · exact State.accept_mem hu
      · cases hu
        rfl
    simp [apply_ite State.mem, h]

@[simp] theorem State.finishAtomic_mem (s : State) (m : Amo) (v : Word) (tag : Bool) : (s.finishAtomic m v tag).mem = s.mem :=
  by
  unfold State.finishAtomic
  split <;> rfl

@[simp] theorem State.trapAtomic_mem (s : State) (m : Amo) (cause : Nat) : (s.trapAtomic m cause).mem = s.mem := by
  unfold State.trapAtomic
  split <;> simp

@[simp] theorem State.atomicHome_mem (s : State) (m : Amo) (h a : Nat) : (s.atomicHome m h a).mem = s.mem := by
  simp [State.atomicHome, apply_ite State.mem]

@[simp] theorem State.answerAtomic_mem (s : State) (n : Nat) (m : Amo) (resolved : Bool) :
    (s.answerAtomic n m resolved).mem = s.mem := by
  unfold State.answerAtomic
  split <;> simp

/-! ## System registers -/

@[simp] theorem State.writeMemcfg_mem (s : State) (v : Word) : (s.writeMemcfg v).mem = s.mem := by
  simp [State.writeMemcfg, apply_ite State.mem]

@[simp] theorem State.packageWrite_mem (s : State) (n : Nat) (v : Word) : (s.packageWrite n v).mem = s.mem := by
  unfold State.packageWrite
  split <;> simp [apply_ite State.mem]

@[simp] theorem State.tileWrite_mem (s : State) (n : Nat) (v : Word) : (s.tileWrite n v).mem = s.mem := by
  unfold State.tileWrite
  split <;> simp [apply_ite State.mem]

@[simp] theorem State.sysWrite_mem (s : State) (n : Nat) (v : Word) : (s.sysWrite n v).mem = s.mem := by
  simp [State.sysWrite, apply_ite State.mem]

/-! ## System instructions -/

@[simp] theorem State.wakeStrand_mem (s : State) (t k : Nat) : (s.wakeStrand t k).mem = s.mem := by
  unfold State.wakeStrand
  split <;> rfl

/-! ## The sequencer -/

@[simp] theorem State.issuePfl0_mem (s : State) (t a : Nat) : (s.issuePfl0 t a).mem = s.mem := by
  simp [State.issuePfl0, mem_foldl, apply_ite State.mem]

theorem State.pfl0Wake_mem {s u : State} {t : Nat} (h : s.pfl0Wake t = some u) : u.mem = s.mem := by
  unfold State.pfl0Wake at h
  split at h
  · split at h
    · exact State.wakeFor_mem h
    · cases h
  · cases h

@[simp] theorem State.dispatchTo_mem (s : State) (t k : Nat) (pc : Pc) (routine : BitVec 16) (a0 a1 : Word) (check : Bool) :
    (s.dispatchTo t k pc routine a0 a1 check).mem = s.mem := by
  simp only [State.dispatchTo]
  split <;> simp

@[simp] theorem State.examine_mem (s : State) (t : Nat) : (s.examine t).mem = s.mem := by
  simp only [State.examine]
  split
  · rfl
  · split
    · rfl
    · simp [apply_ite State.mem]

@[simp] theorem State.follow_mem (s : State) (t : Nat) : (s.follow t).mem = s.mem := by
  simp only [State.follow]
  repeat' split
  all_goals simp

@[simp] theorem State.receiveMsg_mem (s : State) (t : Nat) (m : Msg) : (s.receiveMsg t m).mem = s.mem := by
  simp only [State.receiveMsg]
  repeat' split
  all_goals simp

@[simp] theorem State.issueSends_mem (t : Nat) : ∀ (n : Nat) (s : State), (s.issueSends t n).mem = s.mem
  | 0, _ => rfl
  | n + 1, s => by
    have ih := State.issueSends_mem t n
    unfold State.issueSends
    split
    · rfl
    · dsimp only
      split
      · rfl
      · split
        · rename_i h
          exact State.wakeFor_mem h
        · exact ih _

@[simp] theorem State.beginExchange_mem (s : State) (t : Nat) : (s.beginExchange t).mem = s.mem := by
  simp only [State.beginExchange, apply_ite State.mem, State.failTile_mem, State.issueSends_mem, State.updTile_mem, ite_self]

@[simp] theorem State.landSend_mem (s : State) (d doff n : Nat) (words : List (Nat × Word × Bool)) :
    (s.landSend d doff n words).1.mem = s.mem := by
  simp only [State.landSend]
  repeat' split
  all_goals simp

@[simp] theorem State.readSendWord_mem (s : State) (n i : Nat) : (s.readSendWord n i).mem = s.mem := by
  unfold State.readSendWord
  split <;> simp [apply_ite State.mem]

@[simp] theorem State.landSendWord_mem (s : State) (n i : Nat) : (s.landSendWord n i).mem = s.mem := by
  simp only [State.landSendWord]
  repeat' split
  all_goals simp

/-! ## Vector moves and arithmetic -/

@[simp] theorem State.vecWrite_mem (s : State) (g : Guard) (vd : VReg) (srcs : List VReg) (w : Nat)
    (f : Strand → Nat → Nat × Flags) :
    (s.vecWrite g vd srcs w f).mem = s.mem := rfl

/-! ## Votes, reductions and the Sheaf -/

@[simp] theorem State.syncArrive_mem (s : State) (t : Nat) : (s.syncArrive t).mem = s.mem := by
  simp only [State.syncArrive]
  split <;> simp

@[simp] theorem State.finishSync_mem (s : State) (t k : Nat) : (s.finishSync t k).mem = s.mem := by
  simp only [State.finishSync]
  split
  · simp
  · split <;> simp

@[simp] theorem State.broadcast_mem (s : State) (id : Nat) (p : Packet) : (s.broadcast id p).mem = s.mem := by
  simp only [State.broadcast]
  split
  · split
    · exact (mem_foldl State.dropTraffic_mem _ _).trans (by simp)
    · simp
  · simp

@[simp] theorem State.rootDecides_mem (s : State) (id : Nat) (vote : BitVec 2) (cause : BitVec 8) (ctile : Nat)
    (payload : Word) :
    (s.rootDecides id vote cause ctile payload).mem = s.mem := by
  unfold State.rootDecides
  split <;> simp

@[simp] theorem State.rootYields_mem (s : State) (id : Nat) (ctile : Nat) : (s.rootYields id ctile).mem = s.mem := by
  unfold State.rootYields
  split <;> simp

@[simp] theorem State.takePackets_mem (s : State) (id : Nat) (ext : List Packet) : (s.takePackets id ext).mem = s.mem := by
  refine mem_foldl (fun s p => ?_) _ _
  split
  · simp
  · split <;> simp

@[simp] theorem State.combineAt_mem (s : State) (id node : Nat) (g : Gang) : (s.combineAt id node g).mem = s.mem := by
  simp only [State.combineAt]
  repeat' split
  all_goals simp

@[simp] theorem State.raiseDeadlock_mem (s : State) (id : Nat) (g : Gang) : (s.raiseDeadlock id g).mem = s.mem := by
  simp [State.raiseDeadlock]

/-! ## The Gleaner -/

@[simp] theorem State.note_mem (s : State) (id : Nat) (o : Observation) : (s.note id o).mem = s.mem := by
  simp [State.note]

@[simp] theorem State.configure_mem (s : State) (t plot : Nat) (d : BitVec 512) : (s.configure t plot d).mem = s.mem := by
  simp only [State.configure]
  repeat' split
  all_goals simp

@[simp] theorem State.gleanerAbort_mem (s : State) (id : Nat) : (s.gleanerAbort id).mem = s.mem := by
  simp [State.gleanerAbort]

/-! ## Queues -/

@[simp] theorem State.updSlot_mem (s : State) (k : Nat) (f : Slot → Slot) : (s.updSlot k f).mem = s.mem := by
  unfold State.updSlot
  split <;> rfl

@[simp] theorem State.noteReady_mem (s u : State) : (State.noteReady s u).mem = u.mem := by
  simp [State.noteReady, mem_foldl, apply_ite State.mem]

@[simp] theorem State.updHeld_mem (s : State) (part qid : Nat) (f : Held → Held) : (s.updHeld part qid f).mem = s.mem := by
  unfold State.updHeld
  split <;> rfl

@[simp] theorem State.chargeOne_mem (s : State) (id : Nat) (g : Gang) : (s.chargeOne id g).mem = s.mem := by
  simp only [State.chargeOne]
  split <;> simp

@[simp] theorem State.chargeRest_mem (s : State) (id : Nat) : (s.chargeRest id).mem = s.mem := by
  unfold State.chargeRest
  split
  · rfl
  · refine mem_foldl (fun s _ => ?_) _ _
    split <;> simp

@[simp] theorem State.takeJob_mem (s : State) (k e : Nat) (x : Slot) : (s.takeJob k e x).mem = s.mem := by
  simp only [State.takeJob]
  repeat' split
  all_goals simp

@[simp] theorem State.dropJob_mem (s : State) (j : Job) : (s.dropJob j).mem = s.mem := by
  simp [State.dropJob]

@[simp] theorem State.selectJob_mem (s : State) (placed : Job → Bool) : (s.selectJob placed).mem = s.mem := by
  simp only [State.selectJob]
  repeat' split
  all_goals simp

@[simp] theorem State.endUnstarted_mem (s : State) (part : Nat) (block : Option (List Word)) (status : BitVec 8)
    (queue : Option (Nat × Nat)) :
    (s.endUnstarted part block status queue).mem = s.mem := rfl

@[simp] theorem State.submitLaunch_mem (s : State) (block : Word) (slot part : Nat) :
    (s.submitLaunch block slot part).mem = s.mem := by
  simp [State.submitLaunch, apply_ite State.mem]

@[simp] theorem State.answerLaunch_mem (s : State) (t k : Nat) (resolved : Bool) : (s.answerLaunch t k resolved).mem = s.mem :=
  by
  unfold State.answerLaunch
  split <;> simp [apply_ite State.mem]

@[simp] theorem State.unmapSlot_mem (s : State) (k : Nat) (x : Slot) : (s.unmapSlot k x).mem = s.mem := rfl

@[simp] theorem State.mapSlot_mem (s : State) (k : Nat) (x : Slot) : (s.mapSlot k x).mem = s.mem := by
  simp [State.mapSlot]

/-! ## Launch, resume and completion -/

@[simp] theorem State.placeGang_mem (s : State) (j : Job) (id : Nat) (b : List Word) (p : Payload) (clusters : List Nat) :
    (s.placeGang j id b p clusters).mem = s.mem := by
  simp only [State.placeGang, State.setGang_mem, State.updPart_mem]
  exact (mem_foldl (fun s c => s.updCluster_mem c Cluster.disarm) _ _).trans (by simp)

@[simp] theorem State.startGang_mem (s : State) (j : Job) (b : List Word) (p : Payload) (clusters : List Nat) :
    (s.startGang j b p clusters).mem = s.mem := by
  simp [State.startGang]

@[simp] theorem State.startPeer_mem (s : State) (x : PeerJob) : (s.startPeer x).mem = s.mem := by
  simp only [State.startPeer]
  split
  · simp
  · split <;> simp

@[simp] theorem State.refill_mem (s : State) (t : Nat) : (s.refill t).mem = s.mem := by
  simp [State.refill, mem_foldl, apply_ite State.mem]

@[simp] theorem State.restoreTile_mem (s : State) (g : Gang) (bslot t : Nat) : (s.restoreTile g bslot t).mem = s.mem := by
  unfold State.restoreTile
  split <;> simp [apply_ite State.mem]

@[simp] theorem State.resumeGang_mem (s : State) (id : Nat) (g : Gang) (j : Job) : (s.resumeGang id g j).mem = s.mem := by
  simp [State.resumeGang, mem_foldl]

@[simp] theorem State.resumePeer_mem (s : State) (id : Nat) : (s.resumePeer id).mem = s.mem := by
  unfold State.resumePeer
  split <;> simp [apply_ite State.mem]

@[simp] theorem State.signalParent_mem (s : State) (part : Nat) (w : Word) : (s.signalParent part w).mem = s.mem := by
  simp only [State.signalParent]
  repeat' split
  all_goals simp

@[simp] theorem State.hostMessage_mem (s : State) (part : Nat) (msg : Option Word) : (s.hostMessage part msg).mem = s.mem := by
  unfold State.hostMessage
  split <;> simp [apply_ite State.mem]

/-! ## Decisions -/

@[simp] theorem State.dropTwins_mem (s : State) (id : Nat) : (s.dropTwins id).mem = s.mem := rfl

@[simp] theorem State.dropRelease_mem (s : State) (id : Nat) : (s.dropRelease id).mem = s.mem := rfl

@[simp] theorem State.decideEvents_mem (s : State) (g : Gang) (commit : Bool) : (s.decideEvents g commit).mem = s.mem :=
  mem_foldl (f := fun s c => s.updCluster c fun C => C.arm (if commit then C.arming else C.armed)) (fun _ _ => rfl) _ _

@[simp] theorem State.abortGang_mem (s : State) (id : Nat) (g : Gang) : (s.abortGang id g).mem = s.mem := by
  simp [State.abortGang]

@[simp] theorem State.reportBarn_mem (s : State) (p b t : Nat) : (s.reportBarn p b t).mem = s.mem := by
  unfold State.reportBarn
  split <;> rfl

@[simp] theorem State.saveTile_mem (s : State) (g : Gang) (b t : Nat) : (s.saveTile g b t).mem = s.mem := by
  simp [State.saveTile]

@[simp] theorem State.orphanViews_mem (s : State) (id : Nat) : (s.orphanViews id).mem = s.mem := by
  unfold State.orphanViews
  split <;> rfl

@[simp] theorem State.putFar_mem (s : State) (pkg : BitVec 16) (p va : Nat) (ws : List (Word × Bool)) :
    (s.putFar pkg p va ws).mem = s.mem := rfl

@[simp] theorem State.streamImage_mem (s : State) (g : Gang) (buddy : BitVec 16) (base : Nat) (image : List (Word × Bool)) :
    (s.streamImage g buddy base image).1.mem = s.mem := rfl

@[simp] theorem State.mirrorGang_mem (s : State) (g : Gang) : (s.mirrorGang g).1.mem = s.mem := by
  unfold State.mirrorGang
  split <;> rfl

/-! ## Gang images -/

@[simp] theorem State.takeOut_mem (s : State) (id : Nat) (g : Gang) : (s.takeOut id g).mem = s.mem := by
  simp [State.takeOut]

@[simp] theorem State.loadImage_mem (s : State) (p id : Nat) (g : Gang) (ts : List TileImage) (clusters : List Nat) :
    (s.loadImage p id g ts clusters).mem = s.mem := by
  simp only [State.loadImage, State.noteReady_mem]
  split <;> simp [mem_foldl]

/-! ## Package events -/

@[simp] theorem State.retireCluster_mem (s : State) (c : Nat) : (s.retireCluster c).mem = s.mem := by
  simp only [State.retireCluster]
  repeat' split
  all_goals simp

@[simp] theorem State.failTest_mem (s : State) (t : Nat) : (s.failTest t).mem = s.mem := by
  simp only [State.failTest]
  repeat' split
  all_goals simp

@[simp] theorem State.selfTest_mem (s : State) (failing : List Nat) (lanes : List (Nat × Nat)) :
    (s.selfTest failing lanes).mem = s.mem := by
  simp [State.selfTest, mem_foldl, apply_ite State.mem]

@[simp] theorem State.wipeTile_mem (s : State) (p t : Nat) : (s.wipeTile p t).mem = s.mem := rfl

@[simp] theorem State.cancelLaunches_mem (s : State) (p : Nat) (blocks : List Word) :
    (s.cancelLaunches p blocks).mem = s.mem :=
  mem_foldl (fun s _ => s.endUnstarted_mem p _ 3 none) _ _

@[simp] theorem State.cancelJobs_mem (s : State) (p : Nat) : (s.cancelJobs p).mem = s.mem := by
  simp only [State.cancelJobs]
  refine (mem_foldl (fun s (kx : Nat × Slot) => s.unmapSlot_mem kx.1 kx.2) _ _).trans ?_
  repeat' split
  all_goals simp

@[simp] theorem State.eraseKey_mem (s : State) (p : Nat) : (s.eraseKey p).mem = s.mem := rfl

@[simp] theorem State.remapTile_mem (s : State) (c m : Nat) (lost : List Nat) : (s.remapTile c m lost).mem = s.mem := by
  simp [State.remapTile]

@[simp] theorem State.requestRemap_mem (s : State) (cluster member : Nat) : (s.requestRemap cluster member).mem = s.mem := by
  simp only [State.requestRemap]
  split <;> simp

@[simp] theorem State.checkpoint_mem (s : State) (p : Nat) : (s.checkpoint p).mem = s.mem := rfl

@[simp] theorem State.checkpointAll_mem (s : State) : s.checkpointAll.mem = s.mem :=
  mem_foldl State.checkpoint_mem _ _

@[simp] theorem State.warned_mem (s u : State) : (State.warned s u).mem = u.mem := by
  simp [State.warned, mem_foldl, apply_ite State.mem]

theorem State.countTo64_mem {get : State → Nat → Nat} {put : State → Nat → Nat → State}
    (hp : ∀ s p n, (put s p n).mem = s.mem) (s : State) : (s.countTo64 get put).mem = s.mem := by
  refine mem_foldl (fun s p => ?_) _ _
  split
  · exact hp s p _
  · exact s.checkpoint_mem p

@[simp] theorem State.rowError_mem (s : State) (stack row : Nat) : (s.rowError stack row).mem = s.mem := by
  simp only [State.rowError]
  rw [State.countTo64_mem fun s p n => by rfl]
  split
  · exact State.checkpointAll_mem _
  · rfl

@[simp] theorem State.channelError_mem (s : State) (channel : Nat) : (s.channelError channel).mem = s.mem := by
  simp only [State.channelError]
  rw [State.countTo64_mem fun s p n => by rfl]

/-! ## The fabric -/

@[simp] theorem State.endColl_mem (s : State) (t n : Nat) : (s.endColl t n).mem = s.mem := rfl

@[simp] theorem State.bindRank_mem (s : State) (p rank : Nat) (entry : Option (BitVec 16 × BitVec 16 × BitVec 48)) :
    (s.bindRank p rank entry).mem = s.mem := rfl

@[simp] theorem State.updPort_mem (s : State) (i : Nat) (f : Port → Port) : (s.updPort i f).mem = s.mem := rfl

@[simp] theorem State.rerouteFlit_mem (s : State) (port other : Nat) : (s.rerouteFlit port other).mem = s.mem := by
  simp only [State.rerouteFlit]
  split
  · simp
  · split <;> simp

@[simp] theorem State.loseTraffic_mem (s : State) (id : Nat) (g : Gang) : (s.loseTraffic id g).mem = s.mem := rfl

@[simp] theorem State.stopByLink_mem (s : State) (id : Nat) : (s.stopByLink id).mem = s.mem := by
  unfold State.stopByLink
  split <;> simp [apply_ite State.mem]

@[simp] theorem State.setRoute_mem (s : State) (pkg : BitVec 16) (reached : Bool) : (s.setRoute pkg reached).mem = s.mem := rfl

@[simp] theorem State.landPut_mem (s : State) (e : ExtPut) : (s.landPut e).mem = s.mem := by
  unfold State.landPut
  split
  · rename_i h
    exact State.wakeFor_mem h
  · split
    · rfl
    · rename_i u hu
      have h : u.mem = s.mem := by
        split at hu
        · exact State.accept_mem hu
        · cases hu
          rfl
      simp [apply_ite State.mem, h]

/-! ## Vector access to tile memory -/

@[simp] theorem State.wakeLanes_mem (s : State) (as : List Nat) : (s.wakeLanes as).mem = s.mem := by
  simp [State.wakeLanes, mem_foldl]

/-! ## Turns -/

@[simp] theorem State.passTime_mem (s : State) (c : Nat) : (s.passTime c).mem = s.mem := rfl

@[simp] theorem State.giveTurn_mem (s : State) (t k : Nat) : (s.giveTurn t k).mem = s.mem := rfl

@[simp] theorem State.prepare_mem (s : State) : (s.prepare).mem = s.mem := by
  unfold State.prepare
  split <;> rfl

@[simp] theorem State.sendFwd_mem (s : State) (t k : Nat) (f : Fwd) : (s.sendFwd t k f).mem = s.mem := by
  refine mem_foldl (fun s u => ?_) _ _
  rfl

@[simp] theorem State.forward_mem (s : State) (i : Instr) (r : State) : (s.forward i r).mem = r.mem := by
  simp [State.forward, apply_ite State.mem]

@[simp] theorem State.releaseFwd_mem (s : State) (t k : Nat) : (s.releaseFwd t k).mem = s.mem := by
  simp only [State.releaseFwd]
  repeat' split
  all_goals simp

@[simp] theorem State.granuleError_mem (s : State) (addr : Nat) : (s.granuleError addr).mem = s.mem := rfl

@[simp] theorem State.stopFollowers_mem (s u : State) (t : Nat) : (State.stopFollowers s u t).mem = u.mem := by
  unfold State.stopFollowers
  split
  · refine mem_foldl (fun s k => ?_) _ _
    dsimp only
    split
    · exact mem_foldl_updTile _ _ _ _
    · rfl
  · rfl

@[simp] theorem State.begin_mem (s : State) (x : Turn) : (s.begin x).mem = s.mem := rfl

end Sys2Proof.Machine
end

section
/-! PROOFS. Instructions and events that write no package memory: whatever holds of the memory before one holds of it after. -/

namespace Sys2Proof.Machine

open Sys2Proof.Safety

section
variable {Q : List Host.Cell → Prop} {s : State}

/-! ## Tiles, strands, votes, traps and semaphores -/

/-- A case distinction of which both sides leave memory with the property. -/
theorem Eff.ite_memSat {c : Prop} [Decidable c] {a b : Eff} (ha : a.MemSat Q) (hb : b.MemSat Q) :
    (if c then a else b).MemSat Q := by
  split <;> assumption

@[simp] theorem State.guardOff_memSat (i : Info) (hs : Q s.mem) : MemSat Q (s.guardOff i) := by
  unfold State.guardOff
  repeat' split
  all_goals simpa using hs

/-- What settling an effect leaves in memory is what the effect leaves there. -/
@[simp] theorem State.settle_memSat (i : Info) {body : State → Eff} (keep : Bool) (hs : Q s.mem)
    (hb : ∀ u : State, Q u.mem → (body u).MemSat Q) : MemSat Q (s.settle i body keep) := by
  have h1 := hb s hs
  have h2 := hb (s.takeWait i.sync) (by simpa using hs)
  unfold State.settle
  split
  case h_2 | h_6 => split <;> simpa using hs
  case h_7 e =>
    rw [e] at h1
    split
    · simpa using h1
    · simpa using hs
  case h_9 =>
    split
    · simpa using hs
    · split
      · simpa using hs
      · dsimp only
        split <;> rename_i e <;> rw [e] at h2 <;> simp_all [apply_ite State.mem]
  all_goals simp [hs]

@[simp] theorem State.issue_memSat (i : Info) {body : Nat → Nat → State → Eff} (hs : Q s.mem)
    (hb : ∀ (a b : Nat) (u : State), Q u.mem → (body a b u).MemSat Q) : MemSat Q (s.issue i body) := by
  have hg := State.guardOff_memSat i hs
  have hb := fun a b => State.settle_memSat i false hs (hb a b)
  unfold State.issue
  dsimp only
  repeat' split
  all_goals simp [hs, hg, hb]

/-! ## Shapes of effects -/

@[simp] theorem scalarBody_memSat (d : SReg) (v : Strand → Word) (rs : List SReg) (a b : Nat) (hs : Q s.mem) :
    (scalarBody d v rs a b s).MemSat Q := hs

@[simp] theorem predBody_memSat (d : PReg) (v tag : Strand → Bool) (a b : Nat) (hs : Q s.mem) :
    (predBody d v tag a b s).MemSat Q :=
  hs

theorem Tile.baleWait_memSat {T : Tile} {slot : Nat} {e : Eff} (h : T.baleWait slot = some e) : e.MemSat Q := by
  simp only [Tile.baleWait] at h
  split at h
  · cases h
  · split at h <;> cases h <;> trivial

/-! ## The Abacus -/

@[simp] theorem Ring.emptyWait_memSat (x : Ring) : x.emptyWait.MemSat Q := by
  unfold Ring.emptyWait
  split <;> trivial

@[simp] theorem Eff.late_memSat {e : Eff} (h : e.MemSat Q) : e.late.MemSat Q := by
  unfold Eff.late
  split
  · trivial
  · exact h

theorem Tile.bindSlot_memSat {T : Tile} {r skip : Nat} {e : Eff} (h : T.bindSlot r skip = .inl e) : e.MemSat Q := by
  simp only [Tile.bindSlot] at h
  split at h
  · split at h
    · rename_i hw
      cases h
      exact Eff.late_memSat (Tile.baleWait_memSat hw)
    · cases h
  · cases h
    exact Ring.emptyWait_memSat _

@[simp] theorem State.mmaIssue_memSat (form : MmaForm) (acc ra rb : BitVec 3) (w : BitVec 6) (sy : Sync) (fa fb : Nat)
    (hs : Q s.mem) :
    (s.mmaIssue form acc ra rb w sy fa fb).MemSat Q := by
  simp only [State.mmaIssue]
  split
  · simpa using hs
  · split
    · rename_i h
      exact Tile.bindSlot_memSat h
    · split
      · rename_i h
        exact Tile.bindSlot_memSat h
      · repeat' split
        all_goals simp [hs]

theorem execMma_memSat (g : Guard) (acc ra rb : BitVec 3) (w : BitVec 6) (sy : Sync) (hs : Q s.mem) :
    MemSat Q (execMma g acc ra rb w sy s) := by
  refine State.issue_memSat _ hs fun _ _ u hu => ?_
  simp [hu]

theorem execMman_memSat (g : Guard) (acc ra rb : BitVec 3) (w : BitVec 6) (sy : Sync) (hs : Q s.mem) :
    MemSat Q (execMman g acc ra rb w sy s) := by
  refine State.issue_memSat _ hs fun _ _ u hu => ?_
  simp [hu]

theorem execMmaq_memSat (g : Guard) (acc ra rb : BitVec 3) (w : BitVec 6) (sy : Sync) (hs : Q s.mem) :
    MemSat Q (execMmaq g acc ra rb w sy s) := by
  refine State.issue_memSat _ hs fun _ _ u hu => ?_
  simp [hu]

theorem execMmai_memSat (g : Guard) (acc ra rb : BitVec 3) (w : BitVec 6) (sy : Sync) (hs : Q s.mem) :
    MemSat Q (execMmai g acc ra rb w sy s) := by
  refine State.issue_memSat _ hs fun _ _ u hu => ?_
  simp [hu]

theorem execMmaRetire_memSat (t : Nat) (hs : Q s.mem) : MemSat Q (execMmaRetire t s) := by
  simp only [execMmaRetire]
  split
  · exact hs
  · split
    case h_1 h => simpa [State.wakeFor_mem h] using hs
    case h_2 h => simpa [State.wakeFor_mem h] using hs
    case h_3 => split <;> simp [hs, apply_ite State.mem]

theorem execMmaComplete_memSat (t : Nat) (chks : List Check) (hs : Q s.mem) : MemSat Q (execMmaComplete t chks s) := by
  simp only [execMmaComplete]
  repeat' split
  all_goals simp [hs]

theorem execAccz_memSat (g : Guard) (acc : BitVec 3) (hs : Q s.mem) : MemSat Q (execAccz g acc s) := by
  refine State.issue_memSat _ hs fun _ _ u hu => ?_
  repeat' split
  all_goals simp [hu]

theorem execAccsw_memSat (g : Guard) (acc : BitVec 3) (sy : Sync) (hs : Q s.mem) : MemSat Q (execAccsw g acc sy s) := by
  refine State.issue_memSat _ hs fun _ _ u hu => ?_
  repeat' split
  all_goals simp [hu]

theorem execAccumulatorSwap_memSat (t : Nat) (acc : BitVec 3) (hs : Q s.mem) : MemSat Q (execAccumulatorSwap t acc s) := by
  simp only [execAccumulatorSwap]
  split
  · exact hs
  · split
    · exact hs
    · split
      · rw [memSat_next, State.retireSwap_mem]
        · exact hs
        · rfl
      · exact hs

theorem execAccrd_memSat (g : Guard) (vd : VReg) (acc : BitVec 3) (row : BitVec 5) (hs : Q s.mem) :
    MemSat Q (execAccrd g vd acc row s) := by
  refine State.issue_memSat _ hs fun _ _ u hu => ?_
  dsimp only
  split <;> simp [hu]

theorem execAccwr_memSat (g : Guard) (vs : VReg) (acc : BitVec 3) (row : BitVec 5) (hs : Q s.mem) :
    MemSat Q (execAccwr g vs acc row s) := by
  refine State.issue_memSat _ hs fun _ _ u hu => ?_
  dsimp only
  split <;> simp [hu]

@[simp] theorem State.accMove_memSat (load : Bool) (acc : BitVec 3) (y z : SReg) (sy : Sync) (fa fb : Nat) (hs : Q s.mem) :
    (s.accMove load acc y z sy fa fb).MemSat Q := by
  simp only [State.accMove]
  repeat' split
  all_goals simp [hs, mem_foldl]

theorem execAccst_memSat (g : Guard) (acc : BitVec 3) (y z : SReg) (sy : Sync) (hs : Q s.mem) :
    MemSat Q (execAccst g acc y z sy s) := by
  refine State.issue_memSat _ hs fun _ _ u hu => ?_
  simp [hu]

theorem execAccld_memSat (g : Guard) (acc : BitVec 3) (y z : SReg) (sy : Sync) (hs : Q s.mem) :
    MemSat Q (execAccld g acc y z sy s) := by
  refine State.issue_memSat _ hs fun _ _ u hu => ?_
  simp [hu]

theorem execAccstComplete_memSat (t : Nat) (acc : BitVec 3) (hs : Q s.mem) : MemSat Q (execAccstComplete t acc s) := by
  have hw (m : AccMove) (len : Nat) :
      ((List.range 32).foldl (fun s r => (s.wakeFor t (m.addr + r * m.stride) len).getD s) s).mem = s.mem :=
    mem_foldl (fun u r => u.wakeFor_getD_mem t _ _) _ _
  simp only [execAccstComplete]
  repeat' split
  all_goals simp [hs, hw]

theorem execTblw_memSat (g : Guard) (vs : VReg) (q : BitVec 2) (tbl : Bool) (hs : Q s.mem) :
    MemSat Q (execTblw g vs q tbl s) := by
  refine State.issue_memSat _ hs fun _ _ u hu => ?_
  dsimp only
  split <;> simp [hu]

theorem execTblsw_memSat (g : Guard) (tbl : Bool) (sy : Sync) (hs : Q s.mem) : MemSat Q (execTblsw g tbl sy s) := by
  refine State.issue_memSat _ hs fun _ _ u hu => ?_
  repeat' split
  all_goals simp [hu]

theorem execTableSwap_memSat (t : Nat) (tbl : Bool) (hs : Q s.mem) : MemSat Q (execTableSwap t tbl s) := by
  simp only [execTableSwap]
  split
  · exact hs
  · split
    · exact hs
    · split
      · rw [memSat_next, State.retireSwap_mem]
        · exact hs
        · rfl
      · exact hs

theorem execTblrd_memSat (g : Guard) (vd : VReg) (q : BitVec 2) (tbl shadow : Bool) (hs : Q s.mem) :
    MemSat Q (execTblrd g vd q tbl shadow s) := by
  refine State.issue_memSat _ hs fun _ _ u hu => ?_
  dsimp only
  split <;> simp [hu]

/-! ## Scalar loads, stores and fences -/

@[simp] theorem State.memAccess_memSat (a : SReg) (imm : BitVec 15) (n : Nat) (ok : Region → Bool) (data : Option SReg) {k :
    Nat → Eff} (hs : Q s.mem)
    (hk : ∀ e, (k e).MemSat Q) : (s.memAccess a imm n ok data k).MemSat Q := by
  simp only [State.memAccess]
  repeat' split
  all_goals simp [hs, hk]

@[simp] theorem State.load_memSat (sz : Size) (d a : SReg) (imm : BitVec 15) (hs : Q s.mem) : (s.load sz d a imm).MemSat Q := by
  simp only [State.load]
  all_goals simp [hs]

@[simp] theorem State.storeAt_memSat (n e : Nat) (v : Word) (hs : Q s.mem) : (s.storeAt n e v).MemSat Q := by
  simp only [State.storeAt]
  repeat' split
  all_goals simp [hs]

@[simp] theorem State.storeReg_memSat (sz : Size) (d a : SReg) (imm : BitVec 15) (hs : Q s.mem) :
    (s.storeReg sz d a imm).MemSat Q := by
  simp only [State.storeReg]
  all_goals simp [hs]

theorem execLd_memSat (g : Guard) (sz : Size) (d a : SReg) (imm : BitVec 15) (hs : Q s.mem) :
    MemSat Q (execLd g sz d a imm s) := by
  refine State.issue_memSat _ hs fun _ _ u hu => ?_
  simp [hu]

theorem execSt_memSat (g : Guard) (sz : Size) (d a : SReg) (imm : BitVec 15) (hs : Q s.mem) :
    MemSat Q (execSt g sz d a imm s) := by
  refine State.issue_memSat _ hs fun _ _ u hu => ?_
  simp [hu]

theorem execLdv_memSat (g : Guard) (sz : Size) (d a : SReg) (imm : BitVec 15) (hs : Q s.mem) :
    MemSat Q (execLdv g sz d a imm s) := by
  refine State.issue_memSat _ hs fun _ _ u hu => ?_
  simp [hu]

theorem execStv_memSat (g : Guard) (sz : Size) (d a : SReg) (imm : BitVec 15) (hs : Q s.mem) :
    MemSat Q (execStv g sz d a imm s) := by
  refine State.issue_memSat _ hs fun _ _ u hu => ?_
  simp [hu]

@[simp] theorem State.loadSync_memSat (empty : Bool) (d a : SReg) (imm : BitVec 15) (hs : Q s.mem) :
    (s.loadSync empty d a imm).MemSat Q := by
  refine State.memAccess_memSat _ _ _ _ _ hs fun e => ?_
  split
  · simp [hs, apply_ite State.mem]
  · trivial

theorem execLdsD_memSat (g : Guard) (d a : SReg) (imm : BitVec 15) (hs : Q s.mem) : MemSat Q (execLdsD g d a imm s) := by
  refine State.issue_memSat _ hs fun _ _ u hu => ?_
  simp [hu]

theorem execLdsDE_memSat (g : Guard) (d a : SReg) (imm : BitVec 15) (hs : Q s.mem) : MemSat Q (execLdsDE g d a imm s) := by
  refine State.issue_memSat _ hs fun _ _ u hu => ?_
  simp [hu]

theorem execStfD_memSat (g : Guard) (d a : SReg) (imm : BitVec 15) (hs : Q s.mem) : MemSat Q (execStfD g d a imm s) := by
  refine State.issue_memSat _ hs fun _ _ u hu => ?_
  repeat' split
  all_goals simp [hu]

theorem execFence_memSat (sc : Scope) (hs : Q s.mem) : MemSat Q (execFence sc s) := by
  refine State.issue_memSat _ hs fun _ _ u hu => ?_
  repeat' split
  all_goals simp [hu]

theorem execVfence_memSat (sc : Scope) (hs : Q s.mem) : MemSat Q (execVfence sc s) := by
  refine State.issue_memSat _ hs fun _ _ u hu => ?_
  repeat' split
  all_goals simp [hu]

/-! ## Bales and rings -/

theorem execBale_memSat (g : Guard) (slot : BitVec 6) (a b c : SReg) (hs : Q s.mem) : MemSat Q (execBale g slot a b c s) := by
  refine State.issue_memSat _ hs fun _ _ u hu => ?_
  dsimp only
  repeat' split
  all_goals simp [hu]

theorem execBstat_memSat (g : Guard) (d : SReg) (slot : BitVec 6) (hs : Q s.mem) : MemSat Q (execBstat g d slot s) :=
  State.issue_memSat _ hs fun _ _ _ hu => hu

theorem execBset_memSat (g : Guard) (slot : BitVec 6) (hs : Q s.mem) : MemSat Q (execBset g slot s) := by
  refine State.issue_memSat _ hs fun _ _ u hu => ?_
  dsimp only
  repeat' split
  all_goals simp [hu]

theorem execLookup_memSat (g : Guard) (d a b : SReg) (hs : Q s.mem) : MemSat Q (execLookup g d a b s) :=
  State.issue_memSat _ hs fun _ _ _ hu => hu

theorem execRingcfg_memSat (g : Guard) (ring : BitVec 3) (a : SReg) (hs : Q s.mem) : MemSat Q (execRingcfg g ring a s) := by
  refine State.issue_memSat _ hs fun _ _ u hu => ?_
  simp only []
  refine State.memAccess_memSat _ _ _ _ _ hu fun e => ?_
  repeat' split
  all_goals simp [hu]

theorem execRingpush_memSat (g : Guard) (ring : BitVec 3) (slot : BitVec 6) (sy : Sync) (hs : Q s.mem) :
    MemSat Q (execRingpush g ring slot sy s) := by
  unfold execRingpush
  refine State.issue_memSat _ hs fun _ _ u hu => ?_
  dsimp only
  split
  · trivial
  split
  · trivial
  split
  · trivial
  split
  · rw [Eff.memSat_done, State.updMyTile_mem, State.claimSlots_mem]
    exact hu
  split
  · trivial
  · rw [Eff.memSat_done, State.startFill_mem, State.updMyTile_mem, State.claimSlots_mem]
    exact hu

theorem execRingpop_memSat (g : Guard) (ring : BitVec 3) (slot : BitVec 6) (sy : Sync) (hs : Q s.mem) :
    MemSat Q (execRingpop g ring slot sy s) := by
  refine State.issue_memSat _ hs fun _ _ u hu => ?_
  dsimp only
  split
  · trivial
  · split
    · exact hu
    · split
      · exact Ring.emptyWait_memSat _
      · split
        · rename_i h
          exact Eff.late_memSat (Tile.baleWait_memSat h)
        · split <;> simp [hu]

theorem execRingstat_memSat (g : Guard) (d : SReg) (ring : BitVec 3) (hs : Q s.mem) : MemSat Q (execRingstat g d ring s) :=
  State.issue_memSat _ hs fun _ _ _ hu => hu

theorem execPflstop_memSat (g : Guard) (ring : BitVec 3) (sy : Sync) (hs : Q s.mem) : MemSat Q (execPflstop g ring sy s) := by
  refine State.issue_memSat _ hs fun _ _ u hu => ?_
  dsimp only
  split <;> simp [hu]

theorem execPfl_memSat (g : Guard) (x : SReg) (sy : Sync) (hs : Q s.mem) : MemSat Q (execPfl g x sy s) := by
  refine State.issue_memSat _ hs fun _ _ u hu => ?_
  refine State.memAccess_memSat _ _ _ _ _ hu fun a => ?_
  dsimp only
  repeat' split
  all_goals simp [hu, mem_foldl]

theorem execPflComplete_memSat (t n : Nat) (hs : Q s.mem) : MemSat Q (execPflComplete t n s) := by
  simp only [execPflComplete]
  repeat' split
  all_goals simp [hs]

theorem execBaleFillComplete_memSat (t slot : Nat) (hs : Q s.mem) : MemSat Q (execBaleFillComplete t slot s) := by
  simp only [execBaleFillComplete]
  repeat' split
  all_goals simp [hs, mem_foldl]

theorem execSubscriptionPush_memSat (t ring : Nat) (hs : Q s.mem) : MemSat Q (execSubscriptionPush t ring s) := by
  simp only [execSubscriptionPush]
  repeat' split
  all_goals simp [hs]

theorem execXqstat_memSat (g : Guard) (d : SReg) (hs : Q s.mem) : MemSat Q (execXqstat g d s) :=
  State.issue_memSat _ hs fun _ _ _ hu => hu

theorem execUien_memSat (g : Guard) (n : Bool) (hs : Q s.mem) : MemSat Q (execUien g n s) :=
  State.issue_memSat _ hs fun _ _ _ hu => hu

theorem execUiret_memSat (hs : Q s.mem) : MemSat Q (execUiret s) := by
  refine State.issue_memSat _ hs fun _ _ u hu => ?_
  dsimp only
  repeat' split
  all_goals simp [hu]

theorem execUserInterruptDelivery_memSat (t k : Nat) (hs : Q s.mem) : MemSat Q (execUserInterruptDelivery t k s) := by
  simp only [execUserInterruptDelivery]
  repeat' split
  all_goals simp [hs]

/-! ## Requests, faults, release entries and frames -/

theorem execStackCriticalTemperature_memSat (stack : Nat) (celsius : BitVec 8) (hs : Q s.mem) :
    MemSat Q (execStackCriticalTemperature stack celsius s) := hs

/-! ## Put, get and drains -/

@[simp] theorem State.transfer_memSat (d : Direction) (x y z w : SReg) (sy : Sync) (hs : Q s.mem) :
    (s.transfer d x y z w sy).MemSat Q := by
  simp only [State.transfer]
  repeat' split
  all_goals simp [hs]

theorem execPut_memSat (g : Guard) (x y z : SReg) (sy : Sync) (hs : Q s.mem) : MemSat Q (execPut g x y z sy s) := by
  refine State.issue_memSat _ hs fun _ _ u hu => ?_
  simp [hu]

theorem execGet_memSat (g : Guard) (x y z : SReg) (sy : Sync) (hs : Q s.mem) : MemSat Q (execGet g x y z sy s) := by
  refine State.issue_memSat _ hs fun _ _ u hu => ?_
  simp [hu]

theorem execPutv_memSat (g : Guard) (x y z w : SReg) (sy : Sync) (hs : Q s.mem) : MemSat Q (execPutv g x y z w sy s) := by
  refine State.issue_memSat _ hs fun _ _ u hu => ?_
  simp [hu]

theorem execGetv_memSat (g : Guard) (x y z w : SReg) (sy : Sync) (hs : Q s.mem) : MemSat Q (execGetv g x y z w sy s) := by
  refine State.issue_memSat _ hs fun _ _ u hu => ?_
  simp [hu]

theorem execTransferComplete_memSat (t n : Nat) (ext : List (Word × Bool)) (hs : Q s.mem) :
    MemSat Q (execTransferComplete t n ext s) := by
  simp only [execTransferComplete]
  split
  · exact hs
  · split
    · split
      · exact hs
      · split
        · rename_i h
          simpa [State.xferWake_mem h] using hs
        · simp [hs, apply_ite State.mem]
    · split <;> simp [hs]

theorem execBaleDrainComplete_memSat (t slot : Nat) (hs : Q s.mem) : MemSat Q (execBaleDrainComplete t slot s) := by
  simp only [execBaleDrainComplete]
  repeat' split
  all_goals simp [hs]

theorem execSegmentWakeEnd_memSat (t seg : Nat) (hs : Q s.mem) : MemSat Q (execSegmentWakeEnd t seg s) := by
  simp only [execSegmentWakeEnd]
  repeat' split
  all_goals simp [hs]

/-! ## Cluster space, the event unit, immediate stores and atomics -/

@[simp] theorem State.csAccess_memSat (a : SReg) (imm : BitVec 15) (n : Nat) {k : Int → CsPlace → Eff}
    (hk : ∀ ea p, (k ea p).MemSat Q) : (s.csAccess a imm n k).MemSat Q := by
  simp only [State.csAccess]
  repeat' split
  all_goals simp [hk]

@[simp] theorem State.storeCluster_memSat (n h a : Nat) (v ea : Word) (hs : Q s.mem) : (s.storeCluster n h a v ea).MemSat Q :=
  by
  simp only [State.storeCluster]
  repeat' split
  all_goals simp [hs]

@[simp] theorem State.eventLoad_memSat (d : SReg) (off : Nat) (val : Word) (hs : Q s.mem) : (s.eventLoad d off val).MemSat Q :=
  by
  simp only [State.eventLoad]
  repeat' split
  all_goals simp [hs]

theorem execLdc_memSat (g : Guard) (sz : Size) (d a : SReg) (imm : BitVec 15) (hs : Q s.mem) :
    MemSat Q (execLdc g sz d a imm s) := by
  refine State.issue_memSat _ hs fun _ _ u hu => ?_
  refine State.csAccess_memSat _ _ _ fun ea p => ?_
  repeat' split
  all_goals simp [hu]

theorem execStc_memSat (g : Guard) (sz : Size) (d a : SReg) (imm : BitVec 15) (hs : Q s.mem) :
    MemSat Q (execStc g sz d a imm s) := by
  refine State.issue_memSat _ hs fun _ _ u hu => ?_
  refine State.csAccess_memSat _ _ _ fun ea p => ?_
  repeat' split
  all_goals simp [hu]

@[simp] theorem State.eventAccess_memSat (rs : List SReg) (a : SReg) {k : EvObj → Eff}
    (hk : ∀ o, (k o).MemSat Q) : (s.eventAccess rs a k).MemSat Q := by
  simp only [State.eventAccess]
  repeat' split
  all_goals simp [hk]

theorem execEvsig_memSat (g : Guard) (a : SReg) (hs : Q s.mem) : MemSat Q (execEvsig g a s) := by
  refine State.issue_memSat _ hs fun _ _ u hu => ?_
  simp only []
  refine State.eventAccess_memSat _ _ fun o => ?_
  repeat' split
  all_goals simp [hu]

theorem execEvarm_memSat (g : Guard) (a b : SReg) (hs : Q s.mem) : MemSat Q (execEvarm g a b s) := by
  refine State.issue_memSat _ hs fun _ _ u hu => ?_
  simp only []
  refine State.eventAccess_memSat _ _ fun o => ?_
  repeat' split
  all_goals simp [hu]

theorem execMtxrel_memSat (g : Guard) (a : SReg) (hs : Q s.mem) : MemSat Q (execMtxrel g a s) := by
  refine State.issue_memSat _ hs fun _ _ u hu => ?_
  simp only []
  refine State.eventAccess_memSat _ _ fun o => ?_
  repeat' split
  all_goals simp [hu]

theorem execChainedArrival_memSat (n : Nat) (hs : Q s.mem) : MemSat Q (execChainedArrival n s) := by
  simp only [execChainedArrival]
  repeat' split
  all_goals simp [hs]

theorem execBarrierRelease_memSat (n : Nat) (hs : Q s.mem) : MemSat Q (execBarrierRelease n s) := by
  simp only [execBarrierRelease]
  repeat' split
  all_goals simp [hs]

@[simp] theorem State.immediateStore_memSat (fenced : Bool) (sz : Size) (x y : SReg) (sy : Sync) (hs : Q s.mem) :
    (s.immediateStore fenced sz x y sy).MemSat Q := by
  simp only [State.immediateStore]
  repeat' split
  all_goals simp [hs]

theorem execIst_memSat (g : Guard) (sz : Size) (x y : SReg) (sy : Sync) (hs : Q s.mem) : MemSat Q (execIst g sz x y sy s) := by
  refine State.issue_memSat _ hs fun _ _ u hu => ?_
  simp [hu]

theorem execIstfD_memSat (g : Guard) (x y : SReg) (sy : Sync) (hs : Q s.mem) : MemSat Q (execIstfD g x y sy s) := by
  refine State.issue_memSat _ hs fun _ _ u hu => ?_
  simp [hu]

theorem execImmediateStoreArrival_memSat (n : Nat) (ext : Option ExtStore) (hs : Q s.mem) :
    MemSat Q (execImmediateStoreArrival n ext s) := by
  simp only [execImmediateStoreArrival]
  repeat' split
  all_goals simp [hs]

theorem execImmediateStoreComplete_memSat (n : Nat) (report : Bool) (hs : Q s.mem) :
    MemSat Q (execImmediateStoreComplete n report s) := by
  simp only [execImmediateStoreComplete]
  repeat' split
  all_goals simp [hs]

@[simp] theorem State.atomic_memSat (op : AmoOp) (float : Option RedOp) (word : Bool) (d a b c : SReg) (hs : Q s.mem) :
    (s.atomic op float word d a b c).MemSat Q := by
  simp only [State.atomic]
  repeat' split
  all_goals simp [hs]

theorem execAmo_memSat (g : Guard) (op : AmoOp) (word : Bool) (d a b c : SReg) (hs : Q s.mem) :
    MemSat Q (execAmo g op word d a b c s) := by
  refine State.issue_memSat _ hs fun _ _ u hu => ?_
  simp [hu]

theorem execAmof_memSat (g : Guard) (op : RedOp) (d a b : SReg) (hs : Q s.mem) : MemSat Q (execAmof g op d a b s) := by
  refine State.issue_memSat _ hs fun _ _ u hu => ?_
  simp [hu]

theorem execAmodAdd_memSat (g : Guard) (a b : SReg) (hs : Q s.mem) : MemSat Q (execAmodAdd g a b s) := by
  refine State.issue_memSat _ hs fun _ _ u hu => ?_
  dsimp only
  repeat' split
  all_goals simp [hu]

theorem execAmodRecordArrival_memSat (n : Nat) (hs : Q s.mem) : MemSat Q (execAmodRecordArrival n s) := by
  simp only [execAmodRecordArrival]
  repeat' split
  all_goals simp [hs]

theorem execAmodAcknowledgement_memSat (n : Nat) (hs : Q s.mem) : MemSat Q (execAmodAcknowledgement n s) := by
  simp only [execAmodAcknowledgement]
  repeat' split
  all_goals simp [hs]

/-! ## System instructions -/

theorem execSysrd_memSat (g : Guard) (d : SReg) (n : BitVec 12) (hs : Q s.mem) : MemSat Q (execSysrd g d n s) := by
  refine State.issue_memSat _ hs fun _ _ u hu => ?_
  repeat' split
  all_goals simp [hu]

theorem execSyswr_memSat (g : Guard) (a : SReg) (n : BitVec 12) (hs : Q s.mem) : MemSat Q (execSyswr g a n s) := by
  refine State.issue_memSat _ hs fun _ _ u hu => ?_
  repeat' split
  all_goals simp [hu]

theorem execTrap_memSat (g : Guard) (imm : BitVec 11) (hs : Q s.mem) : MemSat Q (execTrap g imm s) := by
  refine State.issue_memSat _ hs fun _ _ u hu => ?_
  simp

theorem execBrk_memSat (g : Guard) (imm : BitVec 11) (hs : Q s.mem) : MemSat Q (execBrk g imm s) := by
  refine State.issue_memSat _ hs fun _ _ u hu => ?_
  simp

@[simp] theorem State.trapReturn_memSat (head : Word) (skip : Bool) (hs : Q s.mem) : (s.trapReturn head skip).MemSat Q := by
  simp only [State.trapReturn]
  repeat' split
  all_goals simp [hs]

theorem execEret_memSat (hs : Q s.mem) : MemSat Q (execEret s) := by
  have h := State.settle_memSat (s := s) { head := 0x7004 } true hs fun u hu => State.trapReturn_memSat (s := u) 0x7004 false hu
  simp only [execEret]
  repeat' split
  all_goals simp [hs]
  exact h

theorem execEretSkip_memSat (hs : Q s.mem) : MemSat Q (execEretSkip s) := by
  have h := State.settle_memSat (s := s) { head := 0x7005 } true hs fun u hu => State.trapReturn_memSat (s := u) 0x7005 true hu
  simp only [execEretSkip]
  repeat' split
  all_goals simp [hs]
  exact h

theorem execPclr_memSat (g : Guard) (d : SReg) (hs : Q s.mem) : MemSat Q (execPclr g d s) :=
  State.issue_memSat _ hs fun _ _ _ hu => hu

theorem execPclrVector_memSat (g : Guard) (v : VReg) (hs : Q s.mem) : MemSat Q (execPclrVector g v s) :=
  State.issue_memSat _ hs fun _ _ _ hu => hu

theorem execSemwait_memSat (g : Guard) (m n : BitVec 8) (hs : Q s.mem) : MemSat Q (execSemwait g m n s) := by
  refine State.issue_memSat _ hs fun _ _ u hu => ?_
  repeat' split
  all_goals simp [hu]

theorem execSemsig_memSat (g : Guard) (m n : BitVec 8) (hs : Q s.mem) : MemSat Q (execSemsig g m n s) := by
  refine State.issue_memSat _ hs fun _ _ u hu => ?_
  repeat' split
  all_goals simp [hu]

theorem execSemrd_memSat (g : Guard) (d : SReg) (m : BitVec 8) (hs : Q s.mem) : MemSat Q (execSemrd g d m s) :=
  State.issue_memSat _ hs fun _ _ _ hu => hu

theorem execPark_memSat (hs : Q s.mem) : MemSat Q (execPark s) := by
  refine State.issue_memSat _ hs fun _ _ u hu => ?_
  repeat' split
  all_goals simp [hu]

theorem execWake_memSat (g : Guard) (n : BitVec 2) (hs : Q s.mem) : MemSat Q (execWake g n s) := by
  refine State.issue_memSat _ hs fun _ _ u hu => ?_
  simp [hu]

theorem execMsg_memSat (g : Guard) (a : SReg) (hs : Q s.mem) : MemSat Q (execMsg g a s) := by
  refine State.issue_memSat _ hs fun _ _ u hu => ?_
  simp only []
  refine  ?_
  repeat' split
  all_goals simp [hu]

/-! ## The sequencer -/

theorem execStartPhase_memSat (t : Nat) (hs : Q s.mem) : MemSat Q (execStartPhase t s) := by
  simp only [execStartPhase]
  split
  · exact hs
  · split
    · rename_i h
      simpa [State.pfl0Wake_mem h] using hs
    · repeat' split
      all_goals simp [hs]

theorem execListDispatch_memSat (t : Nat) (hs : Q s.mem) : MemSat Q (execListDispatch t s) := by
  simp only [execListDispatch]
  repeat' split
  all_goals simp [hs]

theorem execActiveMessageArrival_memSat (n : Nat) (ext : Option ExtMsg) (hs : Q s.mem) :
    MemSat Q (execActiveMessageArrival n ext s) := by
  simp only [execActiveMessageArrival]
  split
  case h_1 e =>
    split
    · exact hs
    · have hv : (if e.host then s.disarmWake (s.tile e.dest).gang else s).mem = s.mem := by split <;> simp
      split
      · rename_i u hu
        split at hu
        · cases hu
          simpa [hv] using hs
        · simpa [State.accept_mem hu, hv] using hs
      · simpa [hv] using hs
  case h_2 =>
    repeat' split
    all_goals simp [hs]

theorem execMessageStart_memSat (t : Nat) (hs : Q s.mem) : MemSat Q (execMessageStart t s) := by
  simp only [execMessageStart]
  repeat' split
  all_goals simp [hs]

theorem execExchangePhase_memSat (t : Nat) (hs : Q s.mem) : MemSat Q (execExchangePhase t s) := by
  simp only [execExchangePhase]
  repeat' split
  all_goals simp [hs]

theorem execTransferSendArrival_memSat (n : Nat) (ext : Option ExtSend) (hs : Q s.mem) :
    MemSat Q (execTransferSendArrival n ext s) := by
  simp only [execTransferSendArrival]
  split
  · split
    · rename_i h
      simpa [State.accept_mem h] using hs
    · exact hs
  · repeat' split
    all_goals simp [hs]

theorem execScheduleSendCompletion_memSat (n : Nat) (report : Bool) (hs : Q s.mem) :
    MemSat Q (execScheduleSendCompletion n report s) := by
  simp only [execScheduleSendCompletion]
  repeat' split
  all_goals simp [hs]

theorem execXsched_memSat (g : Guard) (x : SReg) (sy : Sync) (hs : Q s.mem) : MemSat Q (execXsched g x sy s) := by
  refine State.issue_memSat _ hs fun _ _ u hu => ?_
  refine Eff.ite_memSat trivial (Eff.ite_memSat trivial (Eff.ite_memSat trivial (Eff.ite_memSat trivial (Eff.ite_memSat hu
    (Eff.ite_memSat trivial (Eff.ite_memSat hu (Eff.ite_memSat trivial ?_)))))))
  extract_lets es
  split
  · trivial
  · refine Eff.ite_memSat hu ?_
    rw [Eff.memSat_done, State.issueSends_mem, State.updMyTile_mem]
    exact hu

theorem execXschedComplete_memSat (t : Nat) (hs : Q s.mem) : MemSat Q (execXschedComplete t s) := by
  simp only [execXschedComplete]
  repeat' split
  all_goals simp [hs]

theorem execStepBudget_memSat (t : Nat) (hs : Q s.mem) : MemSat Q (execStepBudget t s) := by
  simp only [execStepBudget]
  repeat' split
  all_goals simp [hs]

/-! ## Vector moves and arithmetic -/

@[simp] theorem State.laneOp_memSat (g : Guard) (vd : VReg) (srcs : List VReg) (f : Strand → Nat → Nat) (hs : Q s.mem) :
    (s.laneOp g vd srcs f).MemSat Q := hs

theorem execVbcast_memSat (g : Guard) (vd : VReg) (r : SReg) (hs : Q s.mem) : MemSat Q (execVbcast g vd r s) :=
  State.issue_memSat _ hs fun _ _ _ hu => hu

theorem execVmovs_memSat (g : Guard) (d : SReg) (va : VReg) (ln : BitVec 6) (hs : Q s.mem) :
    MemSat Q (execVmovs g d va ln s) := by
  refine State.issue_memSat _ hs fun _ _ u hu => ?_
  dsimp only
  split <;> simp [hu]

theorem execVmovv_memSat (g : Guard) (vd va : VReg) (hs : Q s.mem) : MemSat Q (execVmovv g vd va s) :=
  State.issue_memSat _ hs fun _ _ _ hu => hu

@[simp] theorem State.floatOp_memSat (g : Guard) (vd : VReg) (srcs : List VReg) (rm : BitVec 3) (fa : Nat)
    (op : Nat → List XVal → XVal × Flags) (hs : Q s.mem) :
    (s.floatOp g vd srcs rm fa op).MemSat Q := hs

@[simp] theorem State.bitsOp_memSat (g : Guard) (vd : VReg) (srcs : List VReg) (fa : Nat)
    (op : FloatFmt → List Nat → Nat × Flags) (hs : Q s.mem) :
    (s.bitsOp g vd srcs fa op).MemSat Q := hs

theorem execVadd_memSat (g : Guard) (vd va vb : VReg) (rm : BitVec 3) (hs : Q s.mem) : MemSat Q (execVadd g vd va vb rm s) :=
  State.issue_memSat _ hs fun _ _ _ hu => hu

theorem execVsub_memSat (g : Guard) (vd va vb : VReg) (rm : BitVec 3) (hs : Q s.mem) : MemSat Q (execVsub g vd va vb rm s) :=
  State.issue_memSat _ hs fun _ _ _ hu => hu

theorem execVmul_memSat (g : Guard) (vd va vb : VReg) (rm : BitVec 3) (hs : Q s.mem) : MemSat Q (execVmul g vd va vb rm s) :=
  State.issue_memSat _ hs fun _ _ _ hu => hu

theorem execVmin_memSat (g : Guard) (vd va vb : VReg) (rm : BitVec 3) (hs : Q s.mem) : MemSat Q (execVmin g vd va vb rm s) :=
  State.issue_memSat _ hs fun _ _ _ hu => hu

theorem execVmax_memSat (g : Guard) (vd va vb : VReg) (rm : BitVec 3) (hs : Q s.mem) : MemSat Q (execVmax g vd va vb rm s) :=
  State.issue_memSat _ hs fun _ _ _ hu => hu

theorem execVfma_memSat (g : Guard) (vd va vb vc : VReg) (rm : BitVec 3) (hs : Q s.mem) :
    MemSat Q (execVfma g vd va vb vc rm s) := State.issue_memSat _ hs fun _ _ _ hu => hu

theorem execVfms_memSat (g : Guard) (vd va vb vc : VReg) (rm : BitVec 3) (hs : Q s.mem) :
    MemSat Q (execVfms g vd va vb vc rm s) := State.issue_memSat _ hs fun _ _ _ hu => hu

theorem execVnfma_memSat (g : Guard) (vd va vb vc : VReg) (rm : BitVec 3) (hs : Q s.mem) :
    MemSat Q (execVnfma g vd va vb vc rm s) := State.issue_memSat _ hs fun _ _ _ hu => hu

theorem execVabs_memSat (g : Guard) (vd va : VReg) (rm : BitVec 3) (hs : Q s.mem) : MemSat Q (execVabs g vd va rm s) :=
  State.issue_memSat _ hs fun _ _ _ hu => hu

theorem execVneg_memSat (g : Guard) (vd va : VReg) (rm : BitVec 3) (hs : Q s.mem) : MemSat Q (execVneg g vd va rm s) :=
  State.issue_memSat _ hs fun _ _ _ hu => hu

theorem execVrcp_memSat (g : Guard) (vd va : VReg) (rm : BitVec 3) (hs : Q s.mem) : MemSat Q (execVrcp g vd va rm s) :=
  State.issue_memSat _ hs fun _ _ _ hu => hu

theorem execVrsq_memSat (g : Guard) (vd va : VReg) (rm : BitVec 3) (hs : Q s.mem) : MemSat Q (execVrsq g vd va rm s) :=
  State.issue_memSat _ hs fun _ _ _ hu => hu

theorem execVexp2_memSat (g : Guard) (vd va : VReg) (rm : BitVec 3) (hs : Q s.mem) : MemSat Q (execVexp2 g vd va rm s) :=
  State.issue_memSat _ hs fun _ _ _ hu => hu

theorem execVlog2_memSat (g : Guard) (vd va : VReg) (rm : BitVec 3) (hs : Q s.mem) : MemSat Q (execVlog2 g vd va rm s) :=
  State.issue_memSat _ hs fun _ _ _ hu => hu

theorem execVscale_memSat (g : Guard) (vd va vb : VReg) (rm : BitVec 3) (hs : Q s.mem) :
    MemSat Q (execVscale g vd va vb rm s) := State.issue_memSat _ hs fun _ _ _ hu => hu

theorem execVclass_memSat (g : Guard) (vd va : VReg) (hs : Q s.mem) : MemSat Q (execVclass g vd va s) :=
  State.issue_memSat _ hs fun _ _ _ hu => hu

theorem execVcmp_memSat (g : Guard) (cc : VCond) (qd : PReg) (va vb : VReg) (hs : Q s.mem) :
    MemSat Q (execVcmp g cc qd va vb s) := State.issue_memSat _ hs fun _ _ _ hu => hu

theorem execVsel_memSat (g : Guard) (vd va vb : VReg) (n : PReg) (hs : Q s.mem) : MemSat Q (execVsel g vd va vb n s) :=
  State.issue_memSat _ hs fun _ _ _ hu => hu

@[simp] theorem State.permute_memSat (g : Guard) (vd : VReg) (src : Strand → Nat → VReg × Nat) (index : Option VReg)
    (hs : Q s.mem) :
    (s.permute g vd src index).MemSat Q := hs

theorem execVperm_memSat (g : Guard) (vd va vb : VReg) (hs : Q s.mem) : MemSat Q (execVperm g vd va vb s) :=
  State.issue_memSat _ hs fun _ _ _ hu => hu

theorem execVshuf_memSat (g : Guard) (vd va vb vc : VReg) (hs : Q s.mem) : MemSat Q (execVshuf g vd va vb vc s) :=
  State.issue_memSat _ hs fun _ _ _ hu => hu

theorem execVrot_memSat (g : Guard) (vd va : VReg) (n : BitVec 6) (hs : Q s.mem) : MemSat Q (execVrot g vd va n s) :=
  State.issue_memSat _ hs fun _ _ _ hu => hu

/-! ## Vector reductions, conversions and masks -/

theorem execVred_memSat (g : Guard) (op : RedOp) (d : SReg) (va : VReg) (hs : Q s.mem) : MemSat Q (execVred g op d va s) := by
  refine State.issue_memSat _ hs fun _ _ u hu => ?_
  dsimp only
  split <;> simp [hu]

theorem execVscan_memSat (g : Guard) (op : RedOp) (vd va vb : VReg) (rm : BitVec 3) (hs : Q s.mem) :
    MemSat Q (execVscan g op vd va vb rm s) := State.issue_memSat _ hs fun _ _ _ hu => hu

theorem execVdot_memSat (g : Guard) (vd va vb vc : VReg) (rm : BitVec 3) (hs : Q s.mem) :
    MemSat Q (execVdot g vd va vb vc rm s) := by
  refine State.issue_memSat _ hs fun _ _ u hu => ?_
  dsimp only
  split <;> simp [hu]

@[simp] theorem State.convert_memSat (g : Guard) (vd : VReg) (ws wd : Nat) (poison : Strand → Nat → Bool)
    (f : Strand → Nat → Nat × Flags) (hs : Q s.mem) :
    (s.convert g vd ws wd poison f).MemSat Q := hs

theorem execVcvt_memSat (g : Guard) (vd va : VReg) (rm : BitVec 3) (hs : Q s.mem) : MemSat Q (execVcvt g vd va rm s) := by
  refine State.issue_memSat _ hs fun _ _ u hu => ?_
  dsimp only
  repeat' split
  all_goals simp [hu]

theorem execVbscl_memSat (g : Guard) (vd va vb vc : VReg) (rm : BitVec 3) (hs : Q s.mem) :
    MemSat Q (execVbscl g vd va vb vc rm s) := by
  refine State.issue_memSat _ hs fun _ _ u hu => ?_
  dsimp only
  repeat' split
  all_goals simp [hu]

@[simp] theorem State.intOp_memSat (g : Guard) (vd : VReg) (srcs : List VReg) (fa : Nat) (op : List Int → List Nat → Int)
    (hs : Q s.mem) :
    (s.intOp g vd srcs fa op).MemSat Q := hs

theorem execViadd_memSat (g : Guard) (vd va vb : VReg) (hs : Q s.mem) : MemSat Q (execViadd g vd va vb s) :=
  State.issue_memSat _ hs fun _ _ _ hu => hu

theorem execVisub_memSat (g : Guard) (vd va vb : VReg) (hs : Q s.mem) : MemSat Q (execVisub g vd va vb s) :=
  State.issue_memSat _ hs fun _ _ _ hu => hu

theorem execVimul_memSat (g : Guard) (vd va vb : VReg) (hs : Q s.mem) : MemSat Q (execVimul g vd va vb s) :=
  State.issue_memSat _ hs fun _ _ _ hu => hu

theorem execVimad_memSat (g : Guard) (vd va vb vc : VReg) (hs : Q s.mem) : MemSat Q (execVimad g vd va vb vc s) :=
  State.issue_memSat _ hs fun _ _ _ hu => hu

theorem execViaddSat_memSat (g : Guard) (vd va vb : VReg) (hs : Q s.mem) : MemSat Q (execViaddSat g vd va vb s) :=
  State.issue_memSat _ hs fun _ _ _ hu => hu

theorem execVisubSat_memSat (g : Guard) (vd va vb : VReg) (hs : Q s.mem) : MemSat Q (execVisubSat g vd va vb s) :=
  State.issue_memSat _ hs fun _ _ _ hu => hu

theorem execVshl_memSat (g : Guard) (vd va vb : VReg) (hs : Q s.mem) : MemSat Q (execVshl g vd va vb s) :=
  State.issue_memSat _ hs fun _ _ _ hu => hu

theorem execVshr_memSat (g : Guard) (vd va vb : VReg) (hs : Q s.mem) : MemSat Q (execVshr g vd va vb s) :=
  State.issue_memSat _ hs fun _ _ _ hu => hu

theorem execVsra_memSat (g : Guard) (vd va vb : VReg) (hs : Q s.mem) : MemSat Q (execVsra g vd va vb s) :=
  State.issue_memSat _ hs fun _ _ _ hu => hu

@[simp] theorem State.bitwise_memSat (g : Guard) (vd va vb : VReg) (op : Vec → Vec → Vec) (hs : Q s.mem) :
    (s.bitwise g vd va vb op).MemSat Q := hs

theorem execVand_memSat (g : Guard) (vd va vb : VReg) (hs : Q s.mem) : MemSat Q (execVand g vd va vb s) :=
  State.issue_memSat _ hs fun _ _ _ hu => hu

theorem execVor_memSat (g : Guard) (vd va vb : VReg) (hs : Q s.mem) : MemSat Q (execVor g vd va vb s) :=
  State.issue_memSat _ hs fun _ _ _ hu => hu

theorem execVxor_memSat (g : Guard) (vd va vb : VReg) (hs : Q s.mem) : MemSat Q (execVxor g vd va vb s) :=
  State.issue_memSat _ hs fun _ _ _ hu => hu

theorem execVpopc_memSat (g : Guard) (vd va : VReg) (hs : Q s.mem) : MemSat Q (execVpopc g vd va s) :=
  State.issue_memSat _ hs fun _ _ _ hu => hu

@[simp] theorem maskBody_memSat (qx : PReg) (srcs : List PReg) (op : Strand → BitVec 64) (a b : Nat) (hs : Q s.mem) :
    (maskBody qx srcs op a b s).MemSat Q := hs

theorem execVpand_memSat (g : Guard) (qx y z : PReg) (hs : Q s.mem) : MemSat Q (execVpand g qx y z s) :=
  State.issue_memSat _ hs fun _ _ _ hu => hu

theorem execVpor_memSat (g : Guard) (qx y z : PReg) (hs : Q s.mem) : MemSat Q (execVpor g qx y z s) :=
  State.issue_memSat _ hs fun _ _ _ hu => hu

theorem execVpnot_memSat (g : Guard) (qx y : PReg) (hs : Q s.mem) : MemSat Q (execVpnot g qx y s) :=
  State.issue_memSat _ hs fun _ _ _ hu => hu

/-! ## Votes, reductions and the Sheaf -/

theorem execArrive_memSat (t : Nat) (hs : Q s.mem) : MemSat Q (execArrive t s) := by
  simp only [execArrive]
  repeat' split
  all_goals simp [hs]

theorem execSync_memSat (hs : Q s.mem) : MemSat Q (execSync s) := by
  refine State.issue_memSat _ hs fun _ _ u hu => ?_
  repeat' split
  all_goals simp [hu]

theorem execSyncdown_memSat (t : Nat) (hs : Q s.mem) : MemSat Q (execSyncdown t s) := by
  simp only [execSyncdown]
  repeat' split
  all_goals simp [hs, mem_foldl]

theorem execVote_memSat (g : Guard) (v : BitVec 2) (cause : BitVec 8) (hs : Q s.mem) : MemSat Q (execVote g v cause s) := by
  refine State.issue_memSat _ hs fun _ _ u hu => ?_
  repeat' split
  all_goals simp [hu]

theorem execRedc_memSat (g : Guard) (op : SheafOp) (a : SReg) (hs : Q s.mem) : MemSat Q (execRedc g op a s) := by
  refine State.issue_memSat _ hs fun _ _ u hu => ?_
  dsimp only
  repeat' split
  all_goals simp [hu]

theorem execRedrd_memSat (g : Guard) (d : SReg) (hs : Q s.mem) : MemSat Q (execRedrd g d s) := by
  refine State.issue_memSat _ hs fun _ _ u hu => ?_
  repeat' split
  all_goals simp [hu]

theorem execSheafCombine_memSat (gang node : Nat) (ext : List Packet) (hs : Q s.mem) :
    MemSat Q (execSheafCombine gang node ext s) := by
  simp only [execSheafCombine]
  repeat' split
  all_goals simp [hs]

theorem execDeadlock_memSat (gang : Nat) (hs : Q s.mem) : MemSat Q (execDeadlock gang s) := by
  simp only [execDeadlock]
  repeat' split
  all_goals simp [hs]

/-! ## The Gleaner -/

theorem execGcfg_memSat (g : Guard) (plot : BitVec 3) (a : SReg) (hs : Q s.mem) : MemSat Q (execGcfg g plot a s) := by
  refine State.issue_memSat _ hs fun _ _ u hu => ?_
  dsimp only
  split
  · trivial
  split
  · trivial
  split
  · trivial
  split
  · trivial
  split
  · rename_i h
    simpa [State.wakeFor_mem h] using hu
  · repeat' split
    all_goals simp [hu]

@[simp] theorem State.selected_memSat (a : SReg) (bad : Selector → Plot → Bool) {k : Selector → Plot → Eff}
    (hk : ∀ q P, (k q P).MemSat Q) : (s.selected a bad k).MemSat Q := by
  simp only [State.selected]
  repeat' split
  all_goals simp [hk]

theorem execGsig_memSat (g : Guard) (d a : SReg) (hs : Q s.mem) : MemSat Q (execGsig g d a s) := by
  refine State.issue_memSat _ hs fun _ _ u hu => ?_
  simp [hu]

theorem execGskip_memSat (g : Guard) (d a : SReg) (hs : Q s.mem) : MemSat Q (execGskip g d a s) := by
  refine State.issue_memSat _ hs fun _ _ u hu => ?_
  simp [hu]

theorem execGmap_memSat (g : Guard) (d a : SReg) (hs : Q s.mem) : MemSat Q (execGmap g d a s) := by
  refine State.issue_memSat _ hs fun _ _ u hu => ?_
  simp [hu]

theorem execGforce_memSat (g : Guard) (a : SReg) (hs : Q s.mem) : MemSat Q (execGforce g a s) := by
  refine State.issue_memSat _ hs fun _ _ u hu => ?_
  simp [hu]

theorem execGseal_memSat (g : Guard) (plot : BitVec 3) (hs : Q s.mem) : MemSat Q (execGseal g plot s) := by
  refine State.issue_memSat _ hs fun _ _ u hu => ?_
  repeat' split
  all_goals simp [hu]

/-! ## Queues -/

theorem execDoorbell_memSat (part queue : Nat) (tail : BitVec 32) (hs : Q s.mem) : MemSat Q (execDoorbell part queue tail s) :=
  by
  simp only [execDoorbell]
  repeat' split
  all_goals simp [hs]

theorem execChargeUnit_memSat (slot : Nat) (hs : Q s.mem) : MemSat Q (execChargeUnit slot s) := by
  simp only [execChargeUnit]
  repeat' split
  all_goals simp [hs]

theorem execQuantumExpiry_memSat (slot : Nat) (hs : Q s.mem) : MemSat Q (execQuantumExpiry slot s) := by
  simp only [execQuantumExpiry]
  repeat' split
  all_goals simp [hs]

theorem execTimeUnitEnd_memSat (hs : Q s.mem) : MemSat Q (execTimeUnitEnd s) := by
  simp only [execTimeUnitEnd]
  repeat' split
  all_goals simp [hs]

@[simp] theorem State.launchRead_memSat (d a : SReg) (hs : Q s.mem) : (s.launchRead d a).MemSat Q := by
  rw [State.launchRead]
  generalize State.jobRead _ _ _ _ _ _ = r
  cases r with
  | beyond b => trivial
  | wait => exact hs
  | bad => exact hs
  | fault va => exact hs
  | ok bs po =>
    dsimp only
    split
    · exact hs
    split
    · exact hs
    split
    · exact hs
    split
    · exact hs
    split
    · rw [Eff.memSat_done, State.submitLaunch_mem, State.updMe_mem]
      exact hs
    · rw [Eff.memSat_done, State.updGang_mem, State.updMe_mem]
      exact hs

theorem execLaunch_memSat (g : Guard) (d a : SReg) (hs : Q s.mem) : MemSat Q (execLaunch g d a s) := by
  refine State.issue_memSat _ hs fun _ _ u hu => ?_
  dsimp only
  repeat' split
  all_goals simp [hu]

theorem execPreempt_memSat (g : Guard) (d a : SReg) (hs : Q s.mem) : MemSat Q (execPreempt g d a s) := by
  refine State.issue_memSat _ hs fun _ _ u hu => ?_
  dsimp only
  repeat' split
  all_goals simp [hu]

theorem execHmsg_memSat (g : Guard) (a b : SReg) (hs : Q s.mem) : MemSat Q (execHmsg g a b s) := by
  refine State.issue_memSat _ hs fun _ _ u hu => ?_
  dsimp only
  repeat' split
  all_goals simp [hu]

theorem execHostMessageTaken_memSat (hs : Q s.mem) : MemSat Q (execHostMessageTaken s) := hs

@[simp] theorem State.qcbAccess_memSat (a b : SReg) {k : Word → Nat → Eff}
    (hk : ∀ w n, (k w n).MemSat Q) : (s.qcbAccess a b k).MemSat Q := by
  simp only [State.qcbAccess]
  repeat' split
  all_goals simp [hk]

@[simp] theorem State.answerMe_memSat (d : SReg) (c : Word) (hs : Q s.mem) : (s.answerMe d c).MemSat Q := hs

theorem execQcbld_memSat (g : Guard) (d a b : SReg) (hs : Q s.mem) : MemSat Q (execQcbld g d a b s) := by
  refine State.issue_memSat _ hs fun _ _ u hu => ?_
  refine State.qcbAccess_memSat _ _ fun va k => ?_
  split
  · exact hu
  · split
    case h_3 =>
      dsimp only
      repeat' split
      all_goals simp [hu]
    all_goals simp [hu]

theorem execQpend_memSat (g : Guard) (d : SReg) (hs : Q s.mem) : MemSat Q (execQpend g d s) := by
  refine State.issue_memSat _ hs fun _ _ u hu => ?_
  split
  · trivial
  · exact hu

/-! ## Launch, resume and completion -/

theorem execGangLaunch_memSat (hs : Q s.mem) : MemSat Q (execGangLaunch s) := by
  simp only [execGangLaunch]
  repeat' split
  all_goals simp [hs]

theorem execResume_memSat (hs : Q s.mem) : MemSat Q (execResume s) := by
  simp only [execResume]
  repeat' split
  all_goals simp [hs]

theorem execJobSelection_memSat (hs : Q s.mem) : MemSat Q (execJobSelection s) := by
  simp only [execJobSelection]
  repeat' split
  all_goals simp [hs]

/-! ## Decisions -/

theorem execMirrorAck_memSat (gang : Nat) (hs : Q s.mem) : MemSat Q (execMirrorAck gang s) := by
  simp only [execMirrorAck]
  repeat' split
  all_goals simp [hs]

/-! ## Gang images -/

@[simp] theorem State.imageAccess_memSat (a b : SReg) {k : Nat → Word → Eff}
    (hk : ∀ n w, (k n w).MemSat Q) : (s.imageAccess a b k).MemSat Q := by
  simp only [State.imageAccess]
  repeat' split
  all_goals simp [hk]

theorem execBarnld_memSat (g : Guard) (d a b : SReg) (hs : Q s.mem) : MemSat Q (execBarnld g d a b s) := by
  refine State.issue_memSat _ hs fun _ _ u hu => ?_
  simp only []
  refine State.imageAccess_memSat _ _ fun n w => ?_
  repeat' split
  all_goals simp [hu]

/-! ## Scalar instructions -/

theorem execAdd_memSat (g : Guard) (d a b : SReg) (hs : Q s.mem) : MemSat Q (execAdd g d a b s) :=
  State.issue_memSat _ hs fun _ _ _ hu => hu

theorem execSub_memSat (g : Guard) (d a b : SReg) (hs : Q s.mem) : MemSat Q (execSub g d a b s) :=
  State.issue_memSat _ hs fun _ _ _ hu => hu

theorem execAnd_memSat (g : Guard) (d a b : SReg) (hs : Q s.mem) : MemSat Q (execAnd g d a b s) :=
  State.issue_memSat _ hs fun _ _ _ hu => hu

theorem execOr_memSat (g : Guard) (d a b : SReg) (hs : Q s.mem) : MemSat Q (execOr g d a b s) :=
  State.issue_memSat _ hs fun _ _ _ hu => hu

theorem execXor_memSat (g : Guard) (d a b : SReg) (hs : Q s.mem) : MemSat Q (execXor g d a b s) :=
  State.issue_memSat _ hs fun _ _ _ hu => hu

theorem execAndn_memSat (g : Guard) (d a b : SReg) (hs : Q s.mem) : MemSat Q (execAndn g d a b s) :=
  State.issue_memSat _ hs fun _ _ _ hu => hu

theorem execShl_memSat (g : Guard) (d a b : SReg) (hs : Q s.mem) : MemSat Q (execShl g d a b s) :=
  State.issue_memSat _ hs fun _ _ _ hu => hu

theorem execShr_memSat (g : Guard) (d a b : SReg) (hs : Q s.mem) : MemSat Q (execShr g d a b s) :=
  State.issue_memSat _ hs fun _ _ _ hu => hu

theorem execSra_memSat (g : Guard) (d a b : SReg) (hs : Q s.mem) : MemSat Q (execSra g d a b s) :=
  State.issue_memSat _ hs fun _ _ _ hu => hu

theorem execRol_memSat (g : Guard) (d a b : SReg) (hs : Q s.mem) : MemSat Q (execRol g d a b s) :=
  State.issue_memSat _ hs fun _ _ _ hu => hu

theorem execMin_memSat (g : Guard) (d a b : SReg) (hs : Q s.mem) : MemSat Q (execMin g d a b s) :=
  State.issue_memSat _ hs fun _ _ _ hu => hu

theorem execMax_memSat (g : Guard) (d a b : SReg) (hs : Q s.mem) : MemSat Q (execMax g d a b s) :=
  State.issue_memSat _ hs fun _ _ _ hu => hu

theorem execMinu_memSat (g : Guard) (d a b : SReg) (hs : Q s.mem) : MemSat Q (execMinu g d a b s) :=
  State.issue_memSat _ hs fun _ _ _ hu => hu

theorem execMaxu_memSat (g : Guard) (d a b : SReg) (hs : Q s.mem) : MemSat Q (execMaxu g d a b s) :=
  State.issue_memSat _ hs fun _ _ _ hu => hu

theorem execMul_memSat (g : Guard) (d a b : SReg) (hs : Q s.mem) : MemSat Q (execMul g d a b s) :=
  State.issue_memSat _ hs fun _ _ _ hu => hu

theorem execMulh_memSat (g : Guard) (d a b : SReg) (hs : Q s.mem) : MemSat Q (execMulh g d a b s) :=
  State.issue_memSat _ hs fun _ _ _ hu => hu

theorem execMulhu_memSat (g : Guard) (d a b : SReg) (hs : Q s.mem) : MemSat Q (execMulhu g d a b s) :=
  State.issue_memSat _ hs fun _ _ _ hu => hu

theorem execDiv_memSat (g : Guard) (d a b : SReg) (hs : Q s.mem) : MemSat Q (execDiv g d a b s) :=
  State.issue_memSat _ hs fun _ _ _ hu => hu

theorem execDivu_memSat (g : Guard) (d a b : SReg) (hs : Q s.mem) : MemSat Q (execDivu g d a b s) :=
  State.issue_memSat _ hs fun _ _ _ hu => hu

theorem execRem_memSat (g : Guard) (d a b : SReg) (hs : Q s.mem) : MemSat Q (execRem g d a b s) :=
  State.issue_memSat _ hs fun _ _ _ hu => hu

theorem execRemu_memSat (g : Guard) (d a b : SReg) (hs : Q s.mem) : MemSat Q (execRemu g d a b s) :=
  State.issue_memSat _ hs fun _ _ _ hu => hu

theorem execAddi_memSat (g : Guard) (d a : SReg) (imm : BitVec 15) (hs : Q s.mem) : MemSat Q (execAddi g d a imm s) :=
  State.issue_memSat _ hs fun _ _ _ hu => hu

theorem execAndImm_memSat (g : Guard) (d a : SReg) (imm : BitVec 15) (hs : Q s.mem) : MemSat Q (execAndImm g d a imm s) :=
  State.issue_memSat _ hs fun _ _ _ hu => hu

theorem execOrImm_memSat (g : Guard) (d a : SReg) (imm : BitVec 15) (hs : Q s.mem) : MemSat Q (execOrImm g d a imm s) :=
  State.issue_memSat _ hs fun _ _ _ hu => hu

theorem execXorImm_memSat (g : Guard) (d a : SReg) (imm : BitVec 15) (hs : Q s.mem) : MemSat Q (execXorImm g d a imm s) :=
  State.issue_memSat _ hs fun _ _ _ hu => hu

theorem execAndnImm_memSat (g : Guard) (d a : SReg) (imm : BitVec 15) (hs : Q s.mem) : MemSat Q (execAndnImm g d a imm s) :=
  State.issue_memSat _ hs fun _ _ _ hu => hu

theorem execShlImm_memSat (g : Guard) (d a : SReg) (imm : BitVec 15) (hs : Q s.mem) : MemSat Q (execShlImm g d a imm s) :=
  State.issue_memSat _ hs fun _ _ _ hu => hu

theorem execShrImm_memSat (g : Guard) (d a : SReg) (imm : BitVec 15) (hs : Q s.mem) : MemSat Q (execShrImm g d a imm s) :=
  State.issue_memSat _ hs fun _ _ _ hu => hu

theorem execSraImm_memSat (g : Guard) (d a : SReg) (imm : BitVec 15) (hs : Q s.mem) : MemSat Q (execSraImm g d a imm s) :=
  State.issue_memSat _ hs fun _ _ _ hu => hu

theorem execRolImm_memSat (g : Guard) (d a : SReg) (imm : BitVec 15) (hs : Q s.mem) : MemSat Q (execRolImm g d a imm s) :=
  State.issue_memSat _ hs fun _ _ _ hu => hu

theorem execMinImm_memSat (g : Guard) (d a : SReg) (imm : BitVec 15) (hs : Q s.mem) : MemSat Q (execMinImm g d a imm s) :=
  State.issue_memSat _ hs fun _ _ _ hu => hu

theorem execMaxImm_memSat (g : Guard) (d a : SReg) (imm : BitVec 15) (hs : Q s.mem) : MemSat Q (execMaxImm g d a imm s) :=
  State.issue_memSat _ hs fun _ _ _ hu => hu

theorem execMinuImm_memSat (g : Guard) (d a : SReg) (imm : BitVec 15) (hs : Q s.mem) : MemSat Q (execMinuImm g d a imm s) :=
  State.issue_memSat _ hs fun _ _ _ hu => hu

theorem execMaxuImm_memSat (g : Guard) (d a : SReg) (imm : BitVec 15) (hs : Q s.mem) : MemSat Q (execMaxuImm g d a imm s) :=
  State.issue_memSat _ hs fun _ _ _ hu => hu

theorem execMulImm_memSat (g : Guard) (d a : SReg) (imm : BitVec 15) (hs : Q s.mem) : MemSat Q (execMulImm g d a imm s) :=
  State.issue_memSat _ hs fun _ _ _ hu => hu

theorem execClz_memSat (g : Guard) (d a : SReg) (hs : Q s.mem) : MemSat Q (execClz g d a s) :=
  State.issue_memSat _ hs fun _ _ _ hu => hu

theorem execCtz_memSat (g : Guard) (d a : SReg) (hs : Q s.mem) : MemSat Q (execCtz g d a s) :=
  State.issue_memSat _ hs fun _ _ _ hu => hu

theorem execPopc_memSat (g : Guard) (d a : SReg) (hs : Q s.mem) : MemSat Q (execPopc g d a s) :=
  State.issue_memSat _ hs fun _ _ _ hu => hu

theorem execAbs_memSat (g : Guard) (d a : SReg) (hs : Q s.mem) : MemSat Q (execAbs g d a s) :=
  State.issue_memSat _ hs fun _ _ _ hu => hu

theorem execMov_memSat (g : Guard) (d a : SReg) (hs : Q s.mem) : MemSat Q (execMov g d a s) :=
  State.issue_memSat _ hs fun _ _ _ hu => hu

theorem execSext_memSat (g : Guard) (sz : Size) (d a : SReg) (hs : Q s.mem) : MemSat Q (execSext g sz d a s) :=
  State.issue_memSat _ hs fun _ _ _ hu => hu

theorem execZext_memSat (g : Guard) (sz : Size) (d a : SReg) (hs : Q s.mem) : MemSat Q (execZext g sz d a s) :=
  State.issue_memSat _ hs fun _ _ _ hu => hu

theorem execBfx_memSat (g : Guard) (d a : SReg) (pos len : BitVec 6) (hs : Q s.mem) : MemSat Q (execBfx g d a pos len s) :=
  State.issue_memSat _ hs fun _ _ _ hu => hu

theorem execBfxS_memSat (g : Guard) (d a : SReg) (pos len : BitVec 6) (hs : Q s.mem) : MemSat Q (execBfxS g d a pos len s) :=
  State.issue_memSat _ hs fun _ _ _ hu => hu

theorem execBfi_memSat (g : Guard) (d a : SReg) (pos len : BitVec 6) (hs : Q s.mem) : MemSat Q (execBfi g d a pos len s) :=
  State.issue_memSat _ hs fun _ _ _ hu => hu

theorem execLit_memSat (g : Guard) (d : SReg) (len : BitVec 2) (l : Word) (hs : Q s.mem) : MemSat Q (execLit g d len l s) :=
  State.issue_memSat _ hs fun _ _ _ hu => hu

theorem execLea_memSat (g : Guard) (d a b : SReg) (scale : BitVec 2) (hs : Q s.mem) : MemSat Q (execLea g d a b scale s) :=
  State.issue_memSat _ hs fun _ _ _ hu => hu

theorem execSel_memSat (g : Guard) (d a b : SReg) (n : PReg) (hs : Q s.mem) : MemSat Q (execSel g d a b n s) :=
  State.issue_memSat _ hs fun _ _ _ hu => hu

theorem execCmp_memSat (g : Guard) (cc : Cond) (pd : PReg) (a b : SReg) (hs : Q s.mem) : MemSat Q (execCmp g cc pd a b s) :=
  State.issue_memSat _ hs fun _ _ _ hu => hu

theorem execCmpImm_memSat (g : Guard) (cc : Cond) (pd : PReg) (a : SReg) (imm : BitVec 15) (hs : Q s.mem) :
    MemSat Q (execCmpImm g cc pd a imm s) := State.issue_memSat _ hs fun _ _ _ hu => hu

theorem execTst_memSat (g : Guard) (pd : PReg) (a b : SReg) (hs : Q s.mem) : MemSat Q (execTst g pd a b s) :=
  State.issue_memSat _ hs fun _ _ _ hu => hu

theorem execTstZ_memSat (g : Guard) (pd : PReg) (a b : SReg) (hs : Q s.mem) : MemSat Q (execTstZ g pd a b s) :=
  State.issue_memSat _ hs fun _ _ _ hu => hu

theorem execTstImm_memSat (g : Guard) (pd : PReg) (a : SReg) (imm : BitVec 15) (hs : Q s.mem) :
    MemSat Q (execTstImm g pd a imm s) := State.issue_memSat _ hs fun _ _ _ hu => hu

theorem execTstZImm_memSat (g : Guard) (pd : PReg) (a : SReg) (imm : BitVec 15) (hs : Q s.mem) :
    MemSat Q (execTstZImm g pd a imm s) := State.issue_memSat _ hs fun _ _ _ hu => hu

/-! ## Control transfer -/

@[simp] theorem State.jump_memSat {u : State} (target : Nat) (hu : Q u.mem) : (s.jump u target).MemSat Q := by
  unfold State.jump
  dsimp only
  generalize (if s.curStrand = 4 then _ else _ : Bool) = bad
  cases bad
  · exact hu
  · trivial

theorem execBr_memSat (g : Guard) (target : BitVec 15) (hs : Q s.mem) : MemSat Q (execBr g target s) := by
  refine State.issue_memSat _ hs fun _ _ u hu => ?_
  simp [hu]

theorem execBrc_memSat (g : Guard) (cc : Cond) (a b : SReg) (target : BitVec 15) (hs : Q s.mem) :
    MemSat Q (execBrc g cc a b target s) := by
  refine State.issue_memSat _ hs fun _ _ u hu => ?_
  repeat' split
  all_goals simp [hu]

theorem execJal_memSat (g : Guard) (a : SReg) (target : BitVec 15) (hs : Q s.mem) : MemSat Q (execJal g a target s) :=
  State.issue_memSat _ hs fun _ _ u hu => State.jump_memSat _ (by simpa using hu)

theorem execJr_memSat (g : Guard) (a b : SReg) (hs : Q s.mem) : MemSat Q (execJr g a b s) := by
  refine State.issue_memSat _ hs fun _ _ u hu => ?_
  split
  · trivial
  · exact State.jump_memSat _ (by simpa using hu)

theorem execRet_memSat (g : Guard) (hs : Q s.mem) : MemSat Q (execRet g s) := by
  refine State.issue_memSat _ hs fun _ _ u hu => ?_
  repeat' split
  all_goals simp [hu]

theorem execLoop_memSat (g : Guard) (a : SReg) (target : BitVec 15) (hs : Q s.mem) : MemSat Q (execLoop g a target s) := by
  refine State.issue_memSat _ hs fun _ _ u hu => ?_
  split
  · trivial
  · split
    · exact hu
    · exact State.jump_memSat _ (by simpa using hu)

theorem execRep_memSat (g : Guard) (a : SReg) (len : BitVec 6) (n : BitVec 15) (hs : Q s.mem) :
    MemSat Q (execRep g a len n s) := by
  refine State.issue_memSat _ hs fun _ _ u hu => ?_
  dsimp only
  repeat' split
  all_goals simp [hu]

theorem execRepStreamLoad_memSat (g : Guard) (hs : Q s.mem) : MemSat Q (execRepStreamLoad g s) := by
  refine State.issue_memSat _ hs fun _ _ u hu => ?_
  repeat' split
  all_goals simp [hu]

@[simp] theorem State.halt_memSat (hs : Q s.mem) : (s.halt).MemSat Q := by
  simp only [State.halt]
  repeat' split
  all_goals simp [hs]

theorem execHalt_memSat (hs : Q s.mem) : MemSat Q (execHalt s) := by
  simp only [execHalt]
  split
  · exact State.settle_memSat _ _ hs fun _ hu => State.halt_memSat hu
  · exact State.issue_memSat _ hs fun _ _ _ hu => State.halt_memSat hu

theorem execYield_memSat (hs : Q s.mem) : MemSat Q (execYield s) := State.issue_memSat _ hs fun _ _ _ hu => hu

theorem execNop_memSat (hs : Q s.mem) : MemSat Q (execNop s) := State.issue_memSat _ hs fun _ _ _ hu => hu

theorem execFmt_memSat (minor : BitVec 8) (hs : Q s.mem) : MemSat Q (execFmt minor s) := by
  simp only [execFmt]
  repeat' split
  all_goals simp [hs]

/-! ## Package events -/

theorem execKeyslotErase_memSat (hs : Q s.mem) : MemSat Q (execKeyslotErase s) := by
  simp only [execKeyslotErase]
  repeat' split
  all_goals simp [hs]

theorem execHostWake_memSat (part gang : Nat) (hs : Q s.mem) : MemSat Q (execHostWake part gang s) := hs

theorem execPageFaultAnswer_memSat (n : Nat) (resolved : Bool) (hs : Q s.mem) : MemSat Q (execPageFaultAnswer n resolved s) :=
  by
  simp only [execPageFaultAnswer]
  repeat' split
  all_goals simp [hs]

theorem execSpareRemap_memSat (site : RemapSite) (hs : Q s.mem) : MemSat Q (execSpareRemap site s) := by
  simp only [execSpareRemap]
  repeat' split
  all_goals simp [hs]

/-! ## The fabric -/

theorem execColl_memSat (g : Guard) (x y z : SReg) (sy : Sync) (hs : Q s.mem) : MemSat Q (execColl g x y z sy s) := by
  refine State.issue_memSat _ hs fun _ _ u hu => ?_
  dsimp only
  repeat' split
  all_goals simp [hu]

theorem execCollComplete_memSat (t n : Nat) (others : List ExtColl) (hs : Q s.mem) : MemSat Q (execCollComplete t n others s) :=
  by
  simp only [execCollComplete]
  split
  · split
    · exact hs
    split
    · simpa using hs
    split
    case h_1 h => simpa [State.wakeFor_mem h] using hs
    case h_2 h => simpa [State.wakeFor_mem h] using hs
    case h_3 => split <;> simp [hs]
  · exact hs

theorem execRankmap_memSat (g : Guard) (d a b : SReg) (hs : Q s.mem) : MemSat Q (execRankmap g d a b s) := by
  refine State.issue_memSat _ hs fun _ _ u hu => ?_
  dsimp only
  split
  · trivial
  split
  · trivial
  split
  · exact hu
  split
  · exact hu
  · exact State.answerMe_memSat _ _ ((State.bindRank_mem u _ _ _).symm ▸ hu)

theorem execResendRequest_memSat (port : Nat) (seq : BitVec 12) (hs : Q s.mem) : MemSat Q (execResendRequest port seq s) := hs

theorem execLaneStop_memSat (port : Nat) (lane : BitVec 2) (hs : Q s.mem) : MemSat Q (execLaneStop port lane s) := hs

theorem execLaneGo_memSat (port : Nat) (lane : BitVec 2) (hs : Q s.mem) : MemSat Q (execLaneGo port lane s) := hs

theorem execNocLinkFail_memSat (link : Nat) (gangs : List Nat) (hs : Q s.mem) : MemSat Q (execNocLinkFail link gangs s) := by
  simp only [execNocLinkFail]
  repeat' split
  all_goals simp [hs, mem_foldl]

theorem execLinkReset_memSat (link : LinkRef) (hs : Q s.mem) : MemSat Q (execLinkReset link s) := by
  simp only [execLinkReset]
  repeat' split
  all_goals simp [hs, mem_foldl]

/-! ## Predicates -/

theorem execPand_memSat (g : Guard) (px y z : PReg) (hs : Q s.mem) : MemSat Q (execPand g px y z s) :=
  State.issue_memSat _ hs fun _ _ _ hu => hu

theorem execPor_memSat (g : Guard) (px y z : PReg) (hs : Q s.mem) : MemSat Q (execPor g px y z s) :=
  State.issue_memSat _ hs fun _ _ _ hu => hu

theorem execPxor_memSat (g : Guard) (px y z : PReg) (hs : Q s.mem) : MemSat Q (execPxor g px y z s) :=
  State.issue_memSat _ hs fun _ _ _ hu => hu

theorem execPnot_memSat (g : Guard) (px y : PReg) (hs : Q s.mem) : MemSat Q (execPnot g px y s) :=
  State.issue_memSat _ hs fun _ _ _ hu => hu

theorem execPmov_memSat (g : Guard) (px y : PReg) (hs : Q s.mem) : MemSat Q (execPmov g px y s) :=
  State.issue_memSat _ hs fun _ _ _ hu => hu

theorem execPany_memSat (g : Guard) (px y : PReg) (hs : Q s.mem) : MemSat Q (execPany g px y s) :=
  State.issue_memSat _ hs fun _ _ _ hu => hu

/-! ## Vector access to tile memory -/

@[simp] theorem State.loadLanes_memSat (g : Guard) (vd : VReg) (addr : Nat → Int) (hs : Q s.mem) :
    (s.loadLanes g vd addr).MemSat Q := by
  simp only [State.loadLanes]
  repeat' split
  all_goals simp [hs]

@[simp] theorem State.storeLanes_memSat (g : Guard) (vs : VReg) (addr : Nat → Int) (hs : Q s.mem) :
    (s.storeLanes g vs addr).MemSat Q := by
  simp only [State.storeLanes]
  repeat' split
  all_goals simp [hs]

@[simp] theorem State.baseCheck_memSat (g : Guard) (base : Option SReg) (ea : Int) {k : State → Eff} (hs : Q s.mem)
    (hk : (k s).MemSat Q) : (s.baseCheck g base ea k).MemSat Q := by
  simp only [State.baseCheck]
  repeat' split
  all_goals simp [hs, hk]

theorem execVld_memSat (g : Guard) (vd : VReg) (ign : BitVec 5) (r : SReg) (imm : BitVec 11) (hs : Q s.mem) :
    MemSat Q (execVld g vd ign r imm s) := by
  refine State.issue_memSat _ hs fun _ _ u hu => ?_
  simp [hu]

theorem execVst_memSat (g : Guard) (vd : VReg) (ign : BitVec 5) (r : SReg) (imm : BitVec 11) (hs : Q s.mem) :
    MemSat Q (execVst g vd ign r imm s) := by
  refine State.issue_memSat _ hs fun _ _ u hu => ?_
  simp [hu]

@[simp] theorem Eff.advancing_memSat (k : BitVec 3) {e : Eff} (h : e.MemSat Q) : (e.advancing k).MemSat Q := by
  unfold Eff.advancing
  split
  · simpa using h
  · exact h

theorem execVldStream_memSat (g : Guard) (vd : VReg) (k : BitVec 3) (hs : Q s.mem) : MemSat Q (execVldStream g vd k s) :=
  State.issue_memSat _ hs fun _ _ _ hu =>
    Eff.advancing_memSat k (State.baseCheck_memSat _ _ _ hu (State.loadLanes_memSat g vd _ hu))

theorem execVstStream_memSat (g : Guard) (vs : VReg) (k : BitVec 3) (hs : Q s.mem) : MemSat Q (execVstStream g vs k s) :=
  State.issue_memSat _ hs fun _ _ _ hu =>
    Eff.advancing_memSat k (State.baseCheck_memSat _ _ _ hu (State.storeLanes_memSat g vs _ hu))

@[simp] theorem State.baleAccess_memSat (slot : BitVec 6) (imm : BitVec 11) {k : Int → Eff} (hk : ∀ a, (k a).MemSat Q) :
    (s.baleAccess slot imm k).MemSat Q := by
  simp only [State.baleAccess]
  split
  · rename_i h
    exact Tile.baleWait_memSat h
  · split
    · trivial
    · exact hk _

theorem execVldb_memSat (g : Guard) (vd : VReg) (ign : BitVec 5) (slot : BitVec 6) (imm : BitVec 11) (hs : Q s.mem) :
    MemSat Q (execVldb g vd ign slot imm s) := by
  refine State.issue_memSat _ hs fun _ _ u hu => ?_
  refine State.baleAccess_memSat _ _ fun a => ?_
  all_goals simp [hu]

theorem execVstb_memSat (g : Guard) (vd : VReg) (ign : BitVec 5) (slot : BitVec 6) (imm : BitVec 11) (hs : Q s.mem) :
    MemSat Q (execVstb g vd ign slot imm s) := by
  refine State.issue_memSat _ hs fun _ _ u hu => ?_
  refine State.baleAccess_memSat _ _ fun a => ?_
  all_goals simp [hu]

@[simp] theorem State.indexCheck_memSat (g : Guard) (va : VReg) (r : SReg) {k : (Nat → Int) → Eff} (hs : Q s.mem)
    (hk : ∀ f, (k f).MemSat Q) : (s.indexCheck g va r k).MemSat Q := by
  simp only [State.indexCheck]
  repeat' split
  all_goals simp [hs, hk]

theorem execVgath_memSat (g : Guard) (vd va : VReg) (r : SReg) (hs : Q s.mem) : MemSat Q (execVgath g vd va r s) := by
  refine State.issue_memSat _ hs fun _ _ u hu => ?_
  simp [hu]

theorem execVscat_memSat (g : Guard) (vd va : VReg) (r : SReg) (hs : Q s.mem) : MemSat Q (execVscat g vd va r s) := by
  refine State.issue_memSat _ hs fun _ _ u hu => ?_
  simp [hu]

end

end Sys2Proof.Machine
end

section
/-! PROOFS. What writes package memory keeps its canonical form: the memory side, publication, the commit, gang images, keys and
resets; then every instruction, every event, every turn, and the obligation. -/

namespace Sys2Proof.Machine

open Sys2Proof.Safety

/-! ## Operations that write the package's memory keep its canonical form (R285-R301, R345-R349) -/

/-- A fold whose every step keeps the package's memory canonical. -/
theorem foldl_mem_wf {β : Type} {f : State → β → State} (hf : ∀ s b, Memory.wf s.mem → Memory.wf (f s b).mem) (l : List β)
    (s : State) (h : Memory.wf s.mem) : Memory.wf (l.foldl f s).mem :=
  foldl_keeps (P := fun s : State => Memory.wf s.mem) hf l s h

/-- A state with the memory of another has it in the same form. -/
theorem mem_wf_of_eq {s t : State} (e : t.mem = s.mem) (h : Memory.wf s.mem) : Memory.wf t.mem := e ▸ h

/-- A case distinction of which both sides are canonical. -/
theorem mem_wf_ite {c : Prop} [Decidable c] {a b : State} (ha : Memory.wf a.mem) (hb : Memory.wf b.mem) :
    Memory.wf (if c then a else b).mem := by
  split <;> assumption

/-- A case distinction of which both sides leave memory with a property. -/
theorem ite_memSat {Q : List Host.Cell → Prop} {c : Prop} [Decidable c] {a b : Host.Outcome State Fault Refusal}
    (ha : MemSat Q a) (hb : MemSat Q b) : MemSat Q (if c then a else b) := by
  split <;> assumption

section
variable {s : State} (h : Memory.wf s.mem)
include h

theorem State.allocTwin_mem_wf {g : Nat} {p : Page} {t : State} (e : s.allocTwin g p = .inr t) : Memory.wf t.mem := by
  simp only [State.allocTwin] at e
  split at e
  · split at e <;> cases e
    exact h
  · split at e
    · cases e
    · split at e
      · cases e
      · rename_i hf
        cases e
        exact State.copyFrame_mem_wf _ _ _ (mem_wf_of_eq (State.takeFrame_mem hf) h)

omit h in
theorem State.allocTwins_mem_wf {g : Nat} : ∀ {ps : List Page} {s t : State}, Memory.wf s.mem → s.allocTwins g ps = .inr t →
    Memory.wf t.mem
  | [], _, _, h, e => by cases e; exact h
  | p :: ps, s, t, h, e => by
    unfold State.allocTwins at e
    split at e
    · split at e
      · cases e
      · rename_i hu
        exact State.allocTwins_mem_wf (State.allocTwin_mem_wf h hu) e
    · exact State.allocTwins_mem_wf h e

theorem State.writeTwins_mem_wf (p i : Nat) (ps : List Page) (bs : List (Nat × Byte × Bool)) :
    Memory.wf (s.writeTwins p i ps bs).1.mem := by
  refine foldl_keeps (P := fun r : State × Bool => Memory.wf r.1.mem) (fun r pg hr => ?_) ps _ h
  dsimp only
  split
  · split
    · exact State.writeBytesAs_mem_wf _ _ _ hr
    · exact hr
  · exact hr

theorem State.writeInView_mem_wf (r : Req) (bs : List (Nat × Byte × Bool)) : Memory.wf (s.writeInView r bs).mem :=
  State.writeBytesAs_mem_wf _ _ _ h

theorem State.performWrite_mem_wf (n : Nat) (r : Req) (only : Option Nat) (ps : List Page) (vas : List Nat) :
    Memory.wf (s.performWrite n r only ps vas).mem := by
  refine mem_wf_ite ?_ (mem_wf_ite ?_ ?_)
  · rw [State.moveOn_mem, State.observe_mem, State.settleMarks_mem]
    exact State.writeInView_mem_wf h r _
  · rw [State.failReq_mem]
    exact h
  · have hr : ∀ as, Memory.wf (s.reportDiscarded r.part as).mem := fun as => mem_wf_of_eq (s.reportDiscarded_mem _ as) h
    dsimp only
    split
    · rw [State.failReq_mem]
      exact hr _
    · rename_i e
      rw [State.moveOn_mem, State.noteConflict_mem, State.enterRelease_mem, State.observe_mem, State.settleMarks_mem]
      exact State.writeTwins_mem_wf (State.writeInView_mem_wf (State.allocTwins_mem_wf (hr _) e) r _) _ _ _ _

theorem State.serve_memSat (n : Nat) (only : Option Nat) : MemSat Memory.wf (s.serve n only) := by
  simp only [State.serve]
  split
  · exact h
  · split
    · exact h
    · split
      · rename_i e
        exact mem_wf_of_eq (State.wakeFor_mem e) h
      · split
        · simpa using h
        · split
          · trivial
          · simpa using h
          · simpa using h
          · split
            · simpa using h
            · split
              · simpa using h
              · split
                · exact State.performWrite_mem_wf (by simpa using h) _ _ _ _ _
                · simpa using h

theorem State.writeTarget_mem_wf (t : PubTarget) (v : Word) : Memory.wf (s.writeTarget t v).mem := by
  cases t with
  | entry a => exact s.setRawWord_mem_wf a v h
  | view p hd dw => exact h
  | pcb p dw => exact h

omit h in
theorem State.settlePubs_mem_wf : ∀ (n : Nat) {s : State}, Memory.wf s.mem → Memory.wf (s.settlePubs n).mem
  | 0, _, h => h
  | n + 1, s, h => by
    unfold State.settlePubs
    split
    · exact h
    · split
      · exact h
      · exact State.settlePubs_mem_wf n (State.writeTarget_mem_wf h _ _)

theorem State.publishFor_mem_wf (g : Nat) : Memory.wf (s.publishFor g).mem :=
  State.settlePubs_mem_wf _ h

theorem execPublicationRecord_memSat (target : PubTarget) (value : Word) :
    MemSat Memory.wf (execPublicationRecord target value s) :=
  by
  unfold execPublicationRecord
  split
  · split
    · trivial
    · exact State.settlePubs_mem_wf _ h
  · exact State.settlePubs_mem_wf _ h

theorem State.invalidateLeaf_mem_wf (l : Nat) : Memory.wf (s.invalidateLeaf l).mem :=
  State.settlePubs_mem_wf _ h

theorem State.retireFrame_mem_wf (addr : Nat) (leaf : Option (Nat × Nat)) (spare : Option Nat) :
    Memory.wf (s.retireFrame addr leaf spare).mem := by
  simp only [State.retireFrame]
  split
  · rw [State.poisonFrame_mem]
    exact State.setRawWord_mem_wf _ _ _ h
  · refine State.invalidateLeaf_mem_wf ?_ _
    exact h
  · rw [State.poisonFrame_mem]
    exact h
  · split
    · refine State.invalidateLeaf_mem_wf ?_ _
      exact h
    · exact h

theorem execHbmParityAlert_memSat (stack bank channel addr count : Nat) (loss : RowLoss) (leaf : Option (Nat × Nat))
    (spare : Option Nat) : MemSat Memory.wf (execHbmParityAlert stack bank channel addr count loss leaf spare s) := by
  have hd := mem_wf_of_eq (s.dropRead_mem addr loss.dropped) h
  simp only [execHbmParityAlert]
  split
  · exact h
  · split
    · rw [memSat_next, State.poisonWords_mem]
      exact hd
    · exact State.retireFrame_mem_wf hd _ _ _

theorem State.atomicHbm_memSat (n : Nat) (m : Amo) : MemSat Memory.wf (s.atomicHbm n m) := by
  simp only [State.atomicHbm]
  split
  · trivial
  · simpa using h
  · exact h
  · split
    · exact h
    · split
      · simpa using h
      · split
        · rw [memSat_next]
          split <;> exact h
        · have hd : Memory.wf s.drawn.mem := mem_wf_of_eq s.drawn_mem h
          rw [memSat_next, State.finishAtomic_mem]
          refine mem_wf_ite hd ?_
          rw [State.observe_mem]
          exact State.writeBytesAs_mem_wf _ _ _ hd

theorem execAtomicPerform_memSat (n : Nat) : MemSat Memory.wf (execAtomicPerform n s) := by
  rw [execAtomicPerform]
  split
  · exact h
  · refine ite_memSat h (ite_memSat (State.atomicHbm_memSat h _ _) ?_)
    split
    · exact h
    · refine ite_memSat h (ite_memSat ?_ ?_)
      · rw [memSat_next, State.startWake_mem]
        exact h
      · rw [memSat_next, State.atomicHome_mem]
        exact h

theorem State.writeRow_mem_wf (id : Nat) (g : Gang) (P : Plot) : Memory.wf (s.writeRow id g P).mem := by
  -- the walk is a name of its own, so that nothing tries to compute it
  obtain ⟨walk, hw⟩ : ∃ walk, s.pages g.part id = walk := ⟨_, rfl⟩
  simp only [State.writeRow, hw]
  split
  · exact h
  · split
    · exact State.writeBytesAs_mem_wf _ _ _ h
    · exact h

theorem State.gleanerCommit_mem_wf (id : Nat) : Memory.wf (s.gleanerCommit id).mem := by
  unfold State.gleanerCommit
  split
  · exact h
  · rename_i g _
    refine foldl_mem_wf (f := fun s (d : Nat × Plot × Bool) => if d.2.2 then s.writeRow id g d.2.1 else s) (fun s d hs => ?_) _ _ h
    split
    · exact State.writeRow_mem_wf hs _ _ _
    · exact hs

theorem execQcbsv_memSat (g : Guard) (d a b : SReg) : MemSat Memory.wf (execQcbsv g d a b s) := by
  refine State.issue_memSat _ h fun _ _ u hu => ?_
  refine State.qcbAccess_memSat _ _ fun va k => ?_
  dsimp only
  split
  · exact hu
  · split
    · exact hu
    · split
      · trivial
      · split
        · exact hu
        · split
          · exact hu
          · refine State.answerMe_memSat _ _ ?_
            rw [State.unmapSlot_mem, State.observe_mem]
            exact State.writeBytesAs_mem_wf _ _ _ hu
      · exact hu

theorem State.freeGang_mem_wf (id : Nat) : Memory.wf (s.freeGang id).mem := by
  unfold State.freeGang
  split
  · exact h
  · refine State.settlePubs_mem_wf _ ?_
    rw [State.updPart_mem]
    exact mem_wf_of_eq (mem_foldl_updTile _ _ _ _) h

theorem State.writeCompletion_mem_wf {d : Done} {t : State} (e : s.writeCompletion d = .inr (some t)) : Memory.wf t.mem := by
  unfold State.writeCompletion at e
  split at e
  · cases e
    exact h
  · split at e
    · cases e
    · dsimp only at e
      split at e
      · cases e
        exact h
      · split at e
        · cases e
        · cases e
          rw [State.observe_mem]
          exact State.writeBytesAs_mem_wf _ _ _ h
    · cases e
      exact h

theorem execJobCompletion_memSat (job : Nat) : MemSat Memory.wf (execJobCompletion job s) := by
  unfold execJobCompletion
  split
  · exact h
  · rename_i d _
    extract_lets foreign quiet
    refine ite_memSat h ?_
    split
    · trivial
    · exact h
    · rename_i s1 e
      have h1 : Memory.wf s1.mem := by
        split at e
        · cases e
          exact h
        · exact State.writeCompletion_mem_wf h e
      have h2 := mem_wf_ite (c := d.gang = 0) h1 (State.freeGang_mem_wf h1 d.gang.toNat)
      have h3 := mem_wf_ite (c := quiet = true) h2 (b := State.hostMessage _ d.part d.hmsg)
        (mem_wf_of_eq ((State.hostMessage_mem _ _ _).trans (State.signalParent_mem _ d.part d.parent)) h2)
      rw [memSat_next]
      dsimp only
      split
      · rw [State.updSlot_mem]
        exact h3
      · exact h3

theorem State.promote_mem_wf (id : Nat) : Memory.wf (s.promote id).mem :=
  foldl_mem_wf (f := fun (s : State) (w : Twin) => s.setRawWord w.leaf (withBits (s.rawWord w.leaf) 28 36 (w.frame / 4096)))
    (fun s _ hs => s.setRawWord_mem_wf _ _ hs) _ _ h

theorem State.performRelease_mem_wf (id : Nat) : Memory.wf (s.performRelease id).mem :=
  foldl_mem_wf (f := fun (s : State) (r : Rel) => s.writeBytesAs r.part r.bytes)
    (fun s _ hs => s.writeBytesAs_mem_wf _ _ hs) _ _ h

theorem State.commitGang_mem_wf (id : Nat) (g : Gang) : Memory.wf (s.commitGang id g).mem := by
  have h1 := State.publishFor_mem_wf (State.performRelease_mem_wf (State.gleanerCommit_mem_wf (State.promote_mem_wf h id) id) id) id
  simp only [State.commitGang, State.updGang_mem]
  refine mem_wf_of_eq (mem_foldl (fun s (l : PendLaunch) => s.submitLaunch_mem l.block l.slot l.part) _ _) ?_
  exact mem_wf_of_eq (State.decideEvents_mem _ _ _) h1

theorem State.saveGang_mem_wf (id : Nat) (g : Gang) : Memory.wf (s.saveGang id g).mem := by
  unfold State.saveGang
  extract_lets b step s1 s2 s3 s4 s5
  have e1 : s1.mem = s.mem := mem_foldl (fun s t => s.saveTile_mem g b t) _ _
  have e2 : s2.mem = s1.mem := mem_foldl (fun s c => s.updCluster_mem c Cluster.disarm) _ _
  have h4 : Memory.wf s4.mem := by
    refine mem_wf_of_eq (s := s) ?_ h
    simp [s4, s3, e1, e2]
  have h5 : Memory.wf s5.mem := State.settlePubs_mem_wf _ h4
  split
  · rw [State.updSlot_mem]
    exact h5
  · rw [State.updHeld_mem]
    exact h5

theorem State.endGang_mem_wf (id : Nat) (g : Gang) (status cause : BitVec 8) (sstep : BitVec 32) :
    Memory.wf (s.endGang id g status cause sstep).mem := by
  refine State.settlePubs_mem_wf _ (mem_wf_of_eq (s := s) ?_ h)
  simp

theorem State.applied_mem_wf (id t : Nat) (p : Packet) : Memory.wf (s.applied id t p).mem := by
  unfold State.applied
  split
  · exact h
  · rename_i g _
    extract_lets todo s1 step
    refine mem_wf_ite h ?_
    have h1 : Memory.wf s1.mem := mem_wf_of_eq (mem_foldl (fun s c => s.updCluster_mem c fun C => { C with due := C.req }) _ _) h
    split
    · rw [State.report_mem]
      exact State.endGang_mem_wf h1 _ _ _ _ _
    · exact mem_wf_ite (State.saveGang_mem_wf h1 _ _) h1
    · refine mem_wf_ite (State.endGang_mem_wf h1 _ _ _ _ _) ?_
      have hm := mem_wf_of_eq (State.mirrorGang_mem s1 g) h1
      exact mem_wf_ite (State.saveGang_mem_wf hm _ _) hm

theorem State.commitTile_mem_wf (t : Nat) (g : Gang) (p : Packet) : Memory.wf (s.commitTile t g p).mem := by
  refine State.applied_mem_wf ?_ _ _ _
  rw [State.updTile_mem]
  exact mem_wf_ite (State.commitGang_mem_wf h _ _) h

theorem State.discard_mem_wf (t : Nat) (g : Gang) (p : Packet) : Memory.wf (s.discard t g p).mem := by
  have h1 : Memory.wf (if g.todo = g.place then s.abortGang (s.tile t).gang g else s).mem :=
    mem_wf_ite (mem_wf_of_eq (State.abortGang_mem _ _ _) h) h
  refine State.applied_mem_wf (mem_wf_ite ?_ ?_) _ _ _
  · rw [State.refill_mem, State.updTile_mem, State.dropTraffic_mem]
    exact h1
  · rw [State.updTile_mem, State.dropTraffic_mem]
    exact h1

theorem execCommit_memSat (t : Nat) : MemSat Memory.wf (execCommit t s) := by
  unfold execCommit
  split
  · exact h
  · exact ite_memSat h (State.commitTile_mem_wf h _ _ _)

theorem execAbort_memSat (t : Nat) : MemSat Memory.wf (execAbort t s) := by
  unfold execAbort
  split
  · exact h
  · exact ite_memSat (State.discard_mem_wf h _ _ _) h

theorem execHaltDecision_memSat (t : Nat) : MemSat Memory.wf (execHaltDecision t s) := by
  unfold execHaltDecision
  split
  · exact h
  · exact ite_memSat (State.discard_mem_wf h _ _ _) h

theorem State.decideTile_mem_wf (t : Nat) : Memory.wf (s.decideTile t).mem := by
  unfold State.decideTile
  split
  · exact h
  · exact mem_wf_ite (State.discard_mem_wf h _ _ _) (State.commitTile_mem_wf h _ _ _)

omit h in
theorem State.putWords_mem_wf (p : Nat) (ps : List Page) : ∀ (ws : List (Word × Bool)) {s : State} (va : Nat), Memory.wf s.mem →
    Memory.wf (s.putWords p ps va ws).mem
  | [], _, _, h => h
  | _ :: ws, _, va, h => State.putWords_mem_wf p ps ws (va + 8) (State.writeBytesAs_mem_wf _ _ _ h)

theorem execBarnsv_memSat (g : Guard) (d a b : SReg) : MemSat Memory.wf (execBarnsv g d a b s) := by
  refine State.issue_memSat _ h fun _ _ u hu => ?_
  refine State.imageAccess_memSat _ _ fun va w => ?_
  extract_lets id
  split
  · exact hu
  · refine Eff.ite_memSat hu ?_
    extract_lets ws p
    split
    · trivial
    · refine Eff.ite_memSat hu (Eff.ite_memSat hu (State.answerMe_memSat _ _ ?_))
      rw [State.takeOut_mem, State.observe_mem]
      exact State.putWords_mem_wf _ _ _ _ hu
    · exact hu

omit h in
theorem execPackageReset_memSat (boot : Bringup) (entry : Pc) : MemSat Memory.wf (execPackageReset boot entry s) := by
  rw [execPackageReset, memSat_next, State.selfTest_mem]
  exact State.reset_mem_wf

theorem State.endTorn_mem_wf (id : Nat) : Memory.wf (s.endTorn id).mem := by
  unfold State.endTorn
  extract_lets s1
  have h1 : Memory.wf s1.mem := by
    simp only [s1]
    split
    · exact foldl_mem_wf (fun s t hs => State.decideTile_mem_wf hs t) _ _ h
    · exact h
  split
  · exact h1
  · split
    · exact mem_wf_ite h1 (State.endGang_mem_wf h1 _ _ _ _ _)
    · refine State.endGang_mem_wf ?_ _ _ _ _ _
      exact mem_wf_of_eq ((mem_foldl (fun s t => s.dropTraffic_mem t) _ _).trans (State.abortGang_mem _ _ _)) h1
    · exact State.endGang_mem_wf h1 _ _ _ _ _

theorem State.tearGang_mem_wf (id : Nat) : Memory.wf (s.tearGang id).mem := by
  rw [State.tearGang, State.updGang_mem]
  exact State.endTorn_mem_wf h id

theorem State.tearGangs_mem_wf (p : Nat) (ids : List Nat) : Memory.wf (s.tearGangs p ids).mem := by
  rw [State.tearGangs, State.cancelLaunches_mem]
  exact foldl_mem_wf (fun s id hs => State.tearGang_mem_wf hs id) _ _
    (mem_wf_of_eq (mem_foldl (fun s id => s.updGang_mem id fun g => { g with launches := [] }) _ _) h)

theorem State.resetPartition_mem_wf (p : Nat) : Memory.wf (s.resetPartition p).mem := by
  have hw : ∀ (c : Nat) (u : State), ((List.range 17).foldl (fun s v => s.wipeTile p (17 * c + v)) u).mem = u.mem :=
    fun c u => mem_foldl (fun s v => s.wipeTile_mem p (17 * c + v)) _ u
  refine State.settlePubs_mem_wf _ ?_
  rw [State.updPart_mem]
  refine mem_wf_of_eq (mem_foldl (fun u c => ?_) _ _) ?_
  · rw [State.updCluster_mem]
    exact hw c u
  · rw [State.cancelJobs_mem]
    exact State.tearGangs_mem_wf h _ _

theorem execPartidRst_memSat : MemSat Memory.wf (execPartidRst s) := by
  unfold execPartidRst
  split
  · exact h
  · refine State.resetPartition_mem_wf ?_ _
    exact h

theorem execTeardown_memSat (g : Guard) (d a : SReg) : MemSat Memory.wf (execTeardown g d a s) :=
  State.issue_memSat _ h fun _ _ _ hu =>
    Eff.ite_memSat trivial (State.answerMe_memSat _ _ (State.resetPartition_mem_wf hu _))

theorem State.eraseAll_mem_wf : Memory.wf s.eraseAll.mem := by
  rw [State.eraseAll, State.report_mem]
  dsimp only
  exact foldl_mem_wf (fun s p hs => State.resetPartition_mem_wf (mem_wf_of_eq (s.eraseKey_mem p) hs) p) _ _ h

theorem State.raiseAlarm_mem_wf (t : Trigger) (part : Option Nat) : Memory.wf (s.raiseAlarm t part).mem := by
  unfold State.raiseAlarm
  extract_lets policy s1 target
  have h1 : Memory.wf s1.mem := h
  refine mem_wf_ite h1 ?_
  split
  · exact State.resetPartition_mem_wf (mem_wf_of_eq (s1.eraseKey_mem _) h1) _
  · exact State.eraseAll_mem_wf h1

theorem execKeyslotLoad_memSat : MemSat Memory.wf (execKeyslotLoad s) := by
  unfold execKeyslotLoad
  split
  · exact h
  · refine ite_memSat (State.raiseAlarm_mem_wf ?_ _ _) ?_
    · exact h
    · rw [memSat_next]
      refine foldl_mem_wf (fun s i hs => s.setRawWord_mem_wf _ _ hs) _ _ ?_
      exact h

theorem execHostMemoryWrite_memSat (part : Nat) (va : Word) (data : List Byte) :
    MemSat Memory.wf (execHostMemoryWrite part va data s) := by
  rw [execHostMemoryWrite]
  split
  · trivial
  · refine ite_memSat h (ite_memSat h ?_)
    rw [memSat_next, State.observe_mem]
    exact State.writeBytesAs_mem_wf _ _ _ h
  · exact h

theorem State.serveLaunch_memSat (t k : Nat) : MemSat Memory.wf (s.serveLaunch t k) := by
  have hl (d a : SReg) := State.launchRead_memSat (Q := Memory.wf) (s := { s with curTile := t, curStrand := k }) d a h
  -- the read is a name of its own, so that nothing tries to compute it
  obtain ⟨read, hr⟩ : ∃ read, State.launchRead { s with curTile := t, curStrand := k } = read := ⟨_, rfl⟩
  rw [hr] at hl
  simp only [State.serveLaunch, hr]
  split
  · rename_i d a _ _
    have hl := hl d a
    split
    · rename_i e
      rw [e] at hl
      rw [memSat_next, State.retireHeld_mem]
      exact hl
    · rename_i e
      rw [e] at hl
      exact hl
    · trivial
    · exact h
  · exact h

theorem State.serveWaiter_memSat (w : Waiter) : MemSat Memory.wf (s.serveWaiter w) := by
  unfold State.serveWaiter
  cases w with
  | request n =>
    dsimp only
    split
    · refine State.serve_memSat ?_ _ _
      exact h
    · exact h
  | atomic n =>
    dsimp only
    split
    · refine execAtomicPerform_memSat ?_ _
      exact h
    · exact h
  | launch t k => exact State.serveLaunch_memSat h t k

omit h in
theorem State.serveWaiting_memSat (bound : Nat) : ∀ (n : Nat) {s :
    State}, Memory.wf s.mem → MemSat Memory.wf (s.serveWaiting bound n)
  | 0, _, h => h
  | n + 1, s, h => by
    unfold State.serveWaiting
    split
    · exact h
    · rename_i w _
      have hw := State.serveWaiter_memSat h w
      split
      · rename_i e
        rw [e] at hw
        exact State.serveWaiting_memSat bound n hw
      · trivial
      · trivial

theorem execStackCooled_memSat (stack : Nat) (celsius : BitVec 8) : MemSat Memory.wf (execStackCooled stack celsius s) := by
  have h1 := mem_wf_of_eq (s.stackTemp_mem stack celsius) h
  exact ite_memSat h1 (State.serveWaiting_memSat _ _ h1)

theorem State.holdGang_mem_wf (id : Nat) (g : Gang) : Memory.wf (s.holdGang id g).mem := by
  refine State.settlePubs_mem_wf _ ?_
  rw [State.updGang_mem]
  refine mem_wf_of_eq ((mem_foldl (fun s t => ?_) _ _).trans (s.abortGang_mem id g)) h
  rw [State.updTile_mem, State.dropTraffic_mem]

theorem State.loseLink_mem_wf (unreachable : List Nat) (id : Nat) : Memory.wf (s.loseLink unreachable id).mem := by
  unfold State.loseLink
  split
  · exact h
  · refine mem_wf_ite h (mem_wf_ite h (mem_wf_ite ?_ (mem_wf_ite ?_ h)))
    · rw [State.rootYields_mem]
      exact h
    · refine State.holdGang_mem_wf ?_ _ _
      exact h

theorem State.settleLink_mem_wf (id : Nat) : Memory.wf (s.settleLink id).mem := by
  unfold State.settleLink
  split
  · exact h
  · split
    · exact h
    · refine mem_wf_ite h (State.loseLink_mem_wf ?_ _ _)
      exact h

theorem execEweitLinkFail_memSat (port : Nat) (lost unreachable : List Nat) :
    MemSat Memory.wf (execEweitLinkFail port lost unreachable s) := by
  refine foldl_mem_wf (f := fun s id => State.loseLink s unreachable id) (fun s id hs => State.loseLink_mem_wf hs _ _) lost _ ?_
  exact h

theorem State.receiveMirror_mem_wf (p va : Nat) (ws : List (Word × Bool)) : Memory.wf (s.receiveMirror p va ws).mem := by
  unfold State.receiveMirror
  split
  · exact mem_wf_ite (State.putWords_mem_wf _ _ _ _ h) h
  · exact h

end

/-! ## Every instruction, every event and every turn (R25) -/

section
variable {s : State} (h : Memory.wf s.mem)
include h

/-- Every instruction and every event keeps the package's memory canonical. -/
theorem exec_memSat (i : Instr) : MemSat Memory.wf (exec i s) := by
  cases i with
  | add => exact execAdd_memSat (hs := h) ..
  | sub => exact execSub_memSat (hs := h) ..
  | and => exact execAnd_memSat (hs := h) ..
  | or => exact execOr_memSat (hs := h) ..
  | xor => exact execXor_memSat (hs := h) ..
  | andn => exact execAndn_memSat (hs := h) ..
  | shl => exact execShl_memSat (hs := h) ..
  | shr => exact execShr_memSat (hs := h) ..
  | sra => exact execSra_memSat (hs := h) ..
  | rol => exact execRol_memSat (hs := h) ..
  | min => exact execMin_memSat (hs := h) ..
  | max => exact execMax_memSat (hs := h) ..
  | minu => exact execMinu_memSat (hs := h) ..
  | maxu => exact execMaxu_memSat (hs := h) ..
  | mul => exact execMul_memSat (hs := h) ..
  | mulh => exact execMulh_memSat (hs := h) ..
  | mulhu => exact execMulhu_memSat (hs := h) ..
  | div => exact execDiv_memSat (hs := h) ..
  | divu => exact execDivu_memSat (hs := h) ..
  | rem => exact execRem_memSat (hs := h) ..
  | remu => exact execRemu_memSat (hs := h) ..
  | addi => exact execAddi_memSat (hs := h) ..
  | andImm => exact execAndImm_memSat (hs := h) ..
  | orImm => exact execOrImm_memSat (hs := h) ..
  | xorImm => exact execXorImm_memSat (hs := h) ..
  | andnImm => exact execAndnImm_memSat (hs := h) ..
  | shlImm => exact execShlImm_memSat (hs := h) ..
  | shrImm => exact execShrImm_memSat (hs := h) ..
  | sraImm => exact execSraImm_memSat (hs := h) ..
  | rolImm => exact execRolImm_memSat (hs := h) ..
  | minImm => exact execMinImm_memSat (hs := h) ..
  | maxImm => exact execMaxImm_memSat (hs := h) ..
  | minuImm => exact execMinuImm_memSat (hs := h) ..
  | maxuImm => exact execMaxuImm_memSat (hs := h) ..
  | mulImm => exact execMulImm_memSat (hs := h) ..
  | clz => exact execClz_memSat (hs := h) ..
  | ctz => exact execCtz_memSat (hs := h) ..
  | popc => exact execPopc_memSat (hs := h) ..
  | abs => exact execAbs_memSat (hs := h) ..
  | mov => exact execMov_memSat (hs := h) ..
  | sext => exact execSext_memSat (hs := h) ..
  | zext => exact execZext_memSat (hs := h) ..
  | bfx => exact execBfx_memSat (hs := h) ..
  | bfxS => exact execBfxS_memSat (hs := h) ..
  | bfi => exact execBfi_memSat (hs := h) ..
  | lit g d len l => exact execLit_memSat (len := len) (hs := h) ..
  | lea => exact execLea_memSat (hs := h) ..
  | sel => exact execSel_memSat (hs := h) ..
  | cmp => exact execCmp_memSat (hs := h) ..
  | cmpImm => exact execCmpImm_memSat (hs := h) ..
  | tst => exact execTst_memSat (hs := h) ..
  | tstZ => exact execTstZ_memSat (hs := h) ..
  | tstImm => exact execTstImm_memSat (hs := h) ..
  | tstZImm => exact execTstZImm_memSat (hs := h) ..
  | pand => exact execPand_memSat (hs := h) ..
  | por => exact execPor_memSat (hs := h) ..
  | pxor => exact execPxor_memSat (hs := h) ..
  | pnot => exact execPnot_memSat (hs := h) ..
  | pmov => exact execPmov_memSat (hs := h) ..
  | pany => exact execPany_memSat (hs := h) ..
  | br => exact execBr_memSat (hs := h) ..
  | brc => exact execBrc_memSat (hs := h) ..
  | jal => exact execJal_memSat (hs := h) ..
  | jr => exact execJr_memSat (hs := h) ..
  | ret => exact execRet_memSat (hs := h) ..
  | loop => exact execLoop_memSat (hs := h) ..
  | rep => exact execRep_memSat (hs := h) ..
  | repStreamLoad => exact execRepStreamLoad_memSat (hs := h) ..
  | halt => exact execHalt_memSat (hs := h) ..
  | yield => exact execYield_memSat (hs := h) ..
  | nop => exact execNop_memSat (hs := h) ..
  | ld => exact execLd_memSat (hs := h) ..
  | st => exact execSt_memSat (hs := h) ..
  | ldv => exact execLdv_memSat (hs := h) ..
  | stv => exact execStv_memSat (hs := h) ..
  | ldsD => exact execLdsD_memSat (hs := h) ..
  | ldsDE => exact execLdsDE_memSat (hs := h) ..
  | stfD => exact execStfD_memSat (hs := h) ..
  | ldc => exact execLdc_memSat (hs := h) ..
  | stc => exact execStc_memSat (hs := h) ..
  | sysrd => exact execSysrd_memSat (hs := h) ..
  | syswr => exact execSyswr_memSat (hs := h) ..
  | trap => exact execTrap_memSat (hs := h) ..
  | brk => exact execBrk_memSat (hs := h) ..
  | eret => exact execEret_memSat (hs := h) ..
  | eretSkip => exact execEretSkip_memSat (hs := h) ..
  | pclr => exact execPclr_memSat (hs := h) ..
  | pclrVector => exact execPclrVector_memSat (hs := h) ..
  | semwait => exact execSemwait_memSat (hs := h) ..
  | semsig => exact execSemsig_memSat (hs := h) ..
  | semrd => exact execSemrd_memSat (hs := h) ..
  | park => exact execPark_memSat (hs := h) ..
  | wake => exact execWake_memSat (hs := h) ..
  | msg => exact execMsg_memSat (hs := h) ..
  | fence => exact execFence_memSat (hs := h) ..
  | vfence => exact execVfence_memSat (hs := h) ..
  | fmt => exact execFmt_memSat (hs := h) ..
  | vld g vd ign r imm => exact execVld_memSat (ign := ign) (hs := h) ..
  | vst g vd ign r imm => exact execVst_memSat (ign := ign) (hs := h) ..
  | vldStream => exact execVldStream_memSat (hs := h) ..
  | vstStream => exact execVstStream_memSat (hs := h) ..
  | vldb g vd ign slot imm => exact execVldb_memSat (ign := ign) (hs := h) ..
  | vstb g vd ign slot imm => exact execVstb_memSat (ign := ign) (hs := h) ..
  | vgath => exact execVgath_memSat (hs := h) ..
  | vscat => exact execVscat_memSat (hs := h) ..
  | vbcast => exact execVbcast_memSat (hs := h) ..
  | vmovs => exact execVmovs_memSat (hs := h) ..
  | vmovv => exact execVmovv_memSat (hs := h) ..
  | vadd => exact execVadd_memSat (hs := h) ..
  | vsub => exact execVsub_memSat (hs := h) ..
  | vmul => exact execVmul_memSat (hs := h) ..
  | vmin g vd va vb rm => exact execVmin_memSat (rm := rm) (hs := h) ..
  | vmax g vd va vb rm => exact execVmax_memSat (rm := rm) (hs := h) ..
  | vfma => exact execVfma_memSat (hs := h) ..
  | vfms => exact execVfms_memSat (hs := h) ..
  | vnfma => exact execVnfma_memSat (hs := h) ..
  | vabs g vd va rm => exact execVabs_memSat (rm := rm) (hs := h) ..
  | vneg g vd va rm => exact execVneg_memSat (rm := rm) (hs := h) ..
  | vrcp => exact execVrcp_memSat (hs := h) ..
  | vrsq => exact execVrsq_memSat (hs := h) ..
  | vexp2 => exact execVexp2_memSat (hs := h) ..
  | vlog2 => exact execVlog2_memSat (hs := h) ..
  | vscale => exact execVscale_memSat (hs := h) ..
  | vclass => exact execVclass_memSat (hs := h) ..
  | vcmp => exact execVcmp_memSat (hs := h) ..
  | vsel => exact execVsel_memSat (hs := h) ..
  | vred => exact execVred_memSat (hs := h) ..
  | vscan g op vd va vb => exact execVscan_memSat (vb := vb) (hs := h) ..
  | vperm => exact execVperm_memSat (hs := h) ..
  | vshuf => exact execVshuf_memSat (hs := h) ..
  | vrot => exact execVrot_memSat (hs := h) ..
  | vdot => exact execVdot_memSat (hs := h) ..
  | vcvt => exact execVcvt_memSat (hs := h) ..
  | vbscl => exact execVbscl_memSat (hs := h) ..
  | viadd => exact execViadd_memSat (hs := h) ..
  | visub => exact execVisub_memSat (hs := h) ..
  | vimul => exact execVimul_memSat (hs := h) ..
  | vimad => exact execVimad_memSat (hs := h) ..
  | viaddSat => exact execViaddSat_memSat (hs := h) ..
  | visubSat => exact execVisubSat_memSat (hs := h) ..
  | vshl => exact execVshl_memSat (hs := h) ..
  | vshr => exact execVshr_memSat (hs := h) ..
  | vsra => exact execVsra_memSat (hs := h) ..
  | vand => exact execVand_memSat (hs := h) ..
  | vor => exact execVor_memSat (hs := h) ..
  | vxor => exact execVxor_memSat (hs := h) ..
  | vpopc => exact execVpopc_memSat (hs := h) ..
  | vpand => exact execVpand_memSat (hs := h) ..
  | vpor => exact execVpor_memSat (hs := h) ..
  | vpnot => exact execVpnot_memSat (hs := h) ..
  | mma => exact execMma_memSat (hs := h) ..
  | mman => exact execMman_memSat (hs := h) ..
  | mmaq => exact execMmaq_memSat (hs := h) ..
  | mmai => exact execMmai_memSat (hs := h) ..
  | mmaRetire => exact execMmaRetire_memSat (hs := h) ..
  | mmaComplete => exact execMmaComplete_memSat (hs := h) ..
  | accz => exact execAccz_memSat (hs := h) ..
  | accsw => exact execAccsw_memSat (hs := h) ..
  | accumulatorSwap => exact execAccumulatorSwap_memSat (hs := h) ..
  | accrd => exact execAccrd_memSat (hs := h) ..
  | accwr => exact execAccwr_memSat (hs := h) ..
  | accst => exact execAccst_memSat (hs := h) ..
  | accld => exact execAccld_memSat (hs := h) ..
  | accstComplete => exact execAccstComplete_memSat (hs := h) ..
  | tblw => exact execTblw_memSat (hs := h) ..
  | tblsw => exact execTblsw_memSat (hs := h) ..
  | tableSwap => exact execTableSwap_memSat (hs := h) ..
  | tblrd => exact execTblrd_memSat (hs := h) ..
  | bale => exact execBale_memSat (hs := h) ..
  | bstat => exact execBstat_memSat (hs := h) ..
  | bset => exact execBset_memSat (hs := h) ..
  | lookup => exact execLookup_memSat (hs := h) ..
  | ringcfg => exact execRingcfg_memSat (hs := h) ..
  | ringpush => exact execRingpush_memSat (hs := h) ..
  | ringpop => exact execRingpop_memSat (hs := h) ..
  | ringstat => exact execRingstat_memSat (hs := h) ..
  | pflstop => exact execPflstop_memSat (hs := h) ..
  | pfl => exact execPfl_memSat (hs := h) ..
  | pflComplete => exact execPflComplete_memSat (hs := h) ..
  | put => exact execPut_memSat (hs := h) ..
  | get => exact execGet_memSat (hs := h) ..
  | putv => exact execPutv_memSat (hs := h) ..
  | getv => exact execGetv_memSat (hs := h) ..
  | transferComplete => exact execTransferComplete_memSat (hs := h) ..
  | xqstat => exact execXqstat_memSat (hs := h) ..
  | uien => exact execUien_memSat (hs := h) ..
  | uiret => exact execUiret_memSat (hs := h) ..
  | userInterruptDelivery => exact execUserInterruptDelivery_memSat (hs := h) ..
  | ist => exact execIst_memSat (hs := h) ..
  | istfD => exact execIstfD_memSat (hs := h) ..
  | immediateStoreArrival => exact execImmediateStoreArrival_memSat (hs := h) ..
  | immediateStoreComplete => exact execImmediateStoreComplete_memSat (hs := h) ..
  | amo => exact execAmo_memSat (hs := h) ..
  | amof => exact execAmof_memSat (hs := h) ..
  | atomicPerform => exact execAtomicPerform_memSat (h := h) ..
  | amodAdd => exact execAmodAdd_memSat (hs := h) ..
  | amodRecordArrival => exact execAmodRecordArrival_memSat (hs := h) ..
  | evsig => exact execEvsig_memSat (hs := h) ..
  | evarm => exact execEvarm_memSat (hs := h) ..
  | mtxrel => exact execMtxrel_memSat (hs := h) ..
  | chainedArrival => exact execChainedArrival_memSat (hs := h) ..
  | barrierRelease => exact execBarrierRelease_memSat (hs := h) ..
  | sync => exact execSync_memSat (hs := h) ..
  | syncdown => exact execSyncdown_memSat (hs := h) ..
  | vote => exact execVote_memSat (hs := h) ..
  | redc => exact execRedc_memSat (hs := h) ..
  | redrd => exact execRedrd_memSat (hs := h) ..
  | xsched => exact execXsched_memSat (hs := h) ..
  | xschedComplete => exact execXschedComplete_memSat (hs := h) ..
  | gcfg => exact execGcfg_memSat (hs := h) ..
  | gsig => exact execGsig_memSat (hs := h) ..
  | gskip => exact execGskip_memSat (hs := h) ..
  | gmap => exact execGmap_memSat (hs := h) ..
  | gforce => exact execGforce_memSat (hs := h) ..
  | gseal => exact execGseal_memSat (hs := h) ..
  | launch => exact execLaunch_memSat (hs := h) ..
  | teardown => exact execTeardown_memSat (h := h) ..
  | preempt => exact execPreempt_memSat (hs := h) ..
  | barnsv => exact execBarnsv_memSat (h := h) ..
  | barnld => exact execBarnld_memSat (hs := h) ..
  | hmsg => exact execHmsg_memSat (hs := h) ..
  | qcbsv => exact execQcbsv_memSat (h := h) ..
  | qcbld => exact execQcbld_memSat (hs := h) ..
  | qpend => exact execQpend_memSat (hs := h) ..
  | coll => exact execColl_memSat (hs := h) ..
  | collComplete => exact execCollComplete_memSat (hs := h) ..
  | rankmap => exact execRankmap_memSat (hs := h) ..
  | stepBudget => exact execStepBudget_memSat (hs := h) ..
  | startPhase => exact execStartPhase_memSat (hs := h) ..
  | listDispatch => exact execListDispatch_memSat (hs := h) ..
  | exchangePhase => exact execExchangePhase_memSat (hs := h) ..
  | transferSendArrival => exact execTransferSendArrival_memSat (hs := h) ..
  | activeMessageArrival => exact execActiveMessageArrival_memSat (hs := h) ..
  | messageStart => exact execMessageStart_memSat (hs := h) ..
  | arrive => exact execArrive_memSat (hs := h) ..
  | sheafCombine => exact execSheafCombine_memSat (hs := h) ..
  | commit => exact execCommit_memSat (h := h) ..
  | mirrorAck => exact execMirrorAck_memSat (hs := h) ..
  | abort => exact execAbort_memSat (h := h) ..
  | haltDecision => exact execHaltDecision_memSat (h := h) ..
  | deadlock => exact execDeadlock_memSat (hs := h) ..
  | segmentWakeEnd => exact execSegmentWakeEnd_memSat (hs := h) ..
  | baleFillComplete => exact execBaleFillComplete_memSat (hs := h) ..
  | baleDrainComplete => exact execBaleDrainComplete_memSat (hs := h) ..
  | subscriptionPush => exact execSubscriptionPush_memSat (hs := h) ..
  | memoryRequest => exact State.serve_memSat h _ _
  | pageFaultAnswer => exact execPageFaultAnswer_memSat (hs := h) ..
  | publicationRecord => exact execPublicationRecord_memSat (h := h) ..
  | hbmParityAlert => exact execHbmParityAlert_memSat (h := h) ..
  | stackCriticalTemperature => exact execStackCriticalTemperature_memSat (hs := h) ..
  | stackCooled => exact execStackCooled_memSat (h := h) ..
  | nocLinkFail => exact execNocLinkFail_memSat (hs := h) ..
  | eweitLinkFail => exact execEweitLinkFail_memSat (h := h) ..
  | resendRequest => exact execResendRequest_memSat (hs := h) ..
  | laneStop => exact execLaneStop_memSat (hs := h) ..
  | laneGo => exact execLaneGo_memSat (hs := h) ..
  | linkReset => exact execLinkReset_memSat (hs := h) ..
  | packageReset => exact execPackageReset_memSat ..
  | partidRst => exact execPartidRst_memSat (h := h) ..
  | functionLevelReset => exact State.resetPartition_mem_wf h _
  | hostLinkUncorrectable => exact State.resetPartition_mem_wf h _
  | keyslotLoad => exact execKeyslotLoad_memSat (h := h) ..
  | keyslotErase => exact execKeyslotErase_memSat (hs := h) ..
  | alarm => exact State.raiseAlarm_mem_wf h _ _
  | doorbell => exact execDoorbell_memSat (hs := h) ..
  | hostWake => exact execHostWake_memSat (hs := h) ..
  | hostMemoryWrite => exact execHostMemoryWrite_memSat (h := h) ..
  | jobSelection => exact execJobSelection_memSat (hs := h) ..
  | gangLaunch => exact execGangLaunch_memSat (hs := h) ..
  | resume => exact execResume_memSat (hs := h) ..
  | jobCompletion => exact execJobCompletion_memSat (h := h) ..
  | chargeUnit => exact execChargeUnit_memSat (hs := h) ..
  | quantumExpiry => exact execQuantumExpiry_memSat (hs := h) ..
  | timeUnitEnd => exact execTimeUnitEnd_memSat (hs := h) ..
  | spareRemap => exact execSpareRemap_memSat (hs := h) ..
  | hostMessageTaken => exact execHostMessageTaken_memSat (hs := h) ..
  | scheduleSendCompletion => exact execScheduleSendCompletion_memSat (hs := h) ..
  | amodAcknowledgement => exact execAmodAcknowledgement_memSat (hs := h) ..

omit h in
/-- What the end of an issue adds leaves the memory of before or after the issue. -/
theorem State.issued_mem (hw : Hw) (i : Instr) (r : State) : (s.issued hw i r).mem = s.mem ∨ (s.issued hw i r).mem = r.mem := by
  unfold State.issued
  split
  · exact .inr rfl
  · split
    · left
      simp
    · split
      · left
        simp
      · right
        rw [State.noteIssue_mem, State.forward_mem]
        split <;> rfl

theorem State.tryIssue_memSat (hw : Hw) : MemSat Memory.wf (s.tryIssue hw) := by
  unfold State.tryIssue
  split
  · exact h
  · simpa using h
  · rename_i i _
    split
    · simpa using h
    · have hi := exec_memSat h i
      split
      · rename_i r e
        rw [e] at hi
        rcases State.issued_mem (s := s) hw i r with e | e
        · exact mem_wf_of_eq e h
        · exact mem_wf_of_eq e hi
      · trivial
      · trivial

theorem State.strandTurn_memSat (t k : Nat) (hw : Hw) : MemSat Memory.wf (s.strandTurn t k hw) := by
  have hg : Memory.wf (s.giveTurn t k).mem := h
  have ht := State.tryIssue_memSat (mem_wf_of_eq (State.prepare_mem _) hg) hw
  simp only [State.strandTurn]
  generalize s.giveTurn t k = u at hg ht ⊢
  split
  · exact hg
  · split
    · exact hg
    · split
      · exact execUserInterruptDelivery_memSat _ _ hg
      · split
        · exact ht
        · exact hg

theorem State.eventTurn_memSat (i : Instr) : MemSat Memory.wf (s.eventTurn i) := by
  unfold State.eventTurn
  refine ite_memSat h ?_
  split
  · exact ite_memSat h (exec_memSat h i)
  · exact exec_memSat h i

theorem State.peerTurn_mem_wf (w : What) : Memory.wf (s.peerTurn w).mem := by
  unfold State.peerTurn
  split
  case h_2 => exact State.receiveMirror_mem_wf h _ _ _
  all_goals simpa using h

theorem State.act_memSat (w : What) : MemSat Memory.wf (s.act w) := by
  have keep {u : State} (e : u.mem = s.mem) : Memory.wf u.mem := mem_wf_of_eq e h
  cases w with
  | strand t k hw => exact State.strandTurn_memSat h t k hw
  | event i => exact State.eventTurn_memSat h i
  | requestWord n i => exact State.serve_memSat h n (some i)
  | transferWord t n i => exact mem_wf_ite h (keep (s.moveWord_mem t n i))
  | accWord t acc i => exact mem_wf_ite h (keep (s.moveAccWord_mem t acc i))
  | sendRead n i => exact keep (s.readSendWord_mem n i)
  | sendWord n i => exact keep (s.landSendWord_mem n i)
  | retryRequest r => exact ite_memSat (State.serve_memSat h _ none) h
  | retryAtomic a => exact ite_memSat (execAtomicPerform_memSat h _) h
  | retryStore i => exact ite_memSat (execImmediateStoreArrival_memSat _ none h) h
  | tileWordError t a delta => exact keep (s.updTile_mem t _)
  | tileWordCorrected t => exact keep (s.updTile_mem t _)
  | tileControlError t _ _ => exact keep (s.failTile_mem t 1 0x0E)
  | tileRestoreError t => exact keep (s.failTile_mem t 3 0x0E)
  | tileSramFault t => exact keep (s.updTile_mem t _)
  | rowCorrected stack row => exact keep (s.rowError_mem stack row)
  | channelCorrected c => exact keep (s.channelError_mem c)
  | memGranuleError a => exact keep (s.granuleError_mem a)
  | storer t ring => exact mem_wf_ite h (keep (s.beginDrain_mem t ring))
  | remapRequest c m => exact keep (s.requestRemap_mem c m)
  | sensors die stack hbm => exact keep (State.stackTemp_mem { s with pkg := { s.pkg with diemax := die } } stack hbm)
  | flitSent port _ => exact keep (s.updPort_mem port _)
  | flitAck port _ => exact keep (s.updPort_mem port _)
  | flitReceived port _ _ => exact keep (s.updPort_mem port _)
  | laneFull port _ _ => exact keep (s.updPort_mem port _)
  | flitRerouted port other => exact keep (s.rerouteFlit_mem port other)
  | route pkg reached => exact keep (s.setRoute_mem pkg reached)
  | peerPut e => exact State.peerTurn_mem_wf h (.peerPut e)
  | peerWrite p va ws => exact State.peerTurn_mem_wf h (.peerWrite p va ws)
  | peerTier k p va ws => exact State.peerTurn_mem_wf h (.peerTier k p va ws)
  | peerJob j => exact State.peerTurn_mem_wf h (.peerJob j)
  | peerResume g => exact State.peerTurn_mem_wf h (.peerResume g)
  | peerLines g r x => exact State.peerTurn_mem_wf h (.peerLines g r x)
  | peerGang g held => exact State.peerTurn_mem_wf h (.peerGang g held)
  | peerPlaced r => exact State.peerTurn_mem_wf h (.peerPlaced r)
  | peerRank p r e => exact State.peerTurn_mem_wf h (.peerRank p r e)
  | idle => exact h

theorem State.tryWake_mem_wf {t k : Nat} {u : State} (e : s.tryWake t k = some u) : Memory.wf u.mem := by
  unfold State.tryWake at e
  split at e
  · split at e
    · cases e
    · have hi := State.tryIssue_memSat (s := (s.giveTurn t k).prepare) (mem_wf_of_eq ((s.giveTurn t k).prepare_mem) h) .ok
      split at e
      · rename_i r hr
        rw [hr] at hi
        split at e <;> cases e
        exact hi
      · cases e
        exact h
  · cases e

omit h in
/-- Waking strands sets their run states only: what they would do is tried on a copy. -/
@[simp] theorem State.wakeStrands_mem : s.wakeStrands.mem = s.mem := by
  refine foldl_keeps (P := fun x : State × State => x.1.mem = s.mem) (fun x tk hx => ?_) _ _ rfl
  split
  · rw [State.updStrand_mem]
    exact hx
  · exact hx

theorem State.watch_mem_wf (old : State) : Memory.wf (State.watch old s).mem := by
  simp only [State.watch, State.warned_mem, State.wakeStrands_mem]
  refine mem_wf_of_eq (mem_foldl (State.stopFollowers_mem old) _ _) ?_
  refine foldl_mem_wf (fun u id hu => State.settleLink_mem_wf hu id) _ _ ?_
  exact mem_wf_of_eq (mem_foldl (fun u t => mem_foldl (fun v k => v.releaseFwd_mem t k) _ u) _ s) h

theorem State.take_memSat (x : Turn) : MemSat Memory.wf (s.take x) := by
  have hb : Memory.wf (s.begin x).mem := mem_wf_of_eq (s.begin_mem x) h
  have ha := State.act_memSat hb x.what
  unfold State.take
  split
  · rename_i r e
    rw [e] at ha
    exact State.watch_mem_wf ha _
  · trivial
  · trivial

omit h in
theorem State.nextTurn_mem : s.nextTurn.2.mem = s.mem := by
  unfold State.nextTurn
  split <;> rfl

theorem step_memSat : MemSat Memory.wf (step s) :=
  State.take_memSat (mem_wf_of_eq State.nextTurn_mem h) _

end

end Sys2Proof.Machine

namespace Sys2Proof.Proofs

open Sys2Proof.Machine Sys2Proof.Safety

/-- Settles O60: what writes package memory goes through operations that keep the form, and every other operation leaves it alone. -/
theorem memoryKept : Obligations.MemoryKept := by
  intro s t h e
  have hs := step_memSat h
  rw [e] at hs
  exact hs

end Sys2Proof.Proofs
end

section
/-! PROOFS. Traps that reach no handler, and TRAP and BRK (R42, R91). -/

namespace Sys2Proof.Proofs

open Sys2Proof.Machine Sys2Proof.Safety Sys2Proof.Laws

/-- The conditions of R42 under which a trap does not go to TVEC at all. -/
def Unvectored (s : State) (t k cause : Nat) : Prop :=
  vectored cause = false ∨ (s.strand t k).td = true ∨ (s.strand t k).tvec = 0 ∨ k = 4 ∨ (s.tile t).follower = true

theorem takeTrap_unvectored {s : State} {t k cause : Nat} {pc : Pc} {val : Word} (h : Unvectored s t k cause) :
    s.takeTrap t k cause pc val = (s.setStrand t k ((s.strand t k).record cause pc val)).stopStrand t k cause := by
  have hc : (!vectored cause || ((s.strand t k).record cause pc val).td ||
      decide (((s.strand t k).record cause pc val).tvec = 0) || decide (k = 4) || (s.tile t).follower) = true := by
    simp only [Bool.or_eq_true, Bool.not_eq_true', decide_eq_true_eq]
    unfold Unvectored at h
    simp only [Strand.td] at h
    tauto
  unfold State.takeTrap
  rw [if_pos hc]

theorem takeTrap_badTvec {s : State} {t k cause : Nat} {pc : Pc} {val : Word} (hu : ¬ Unvectored s t k cause)
    (hb : (s.tile t).badTarget (s.strand t k).tvec.toNat = true) :
    s.takeTrap t k cause pc val =
      (s.setStrand t k ((s.strand t k).record 0x03 pc ((s.strand t k).tvec.setWidth 64))).stopStrand t k 0x03 := by
  have hc : ¬ (!vectored cause || ((s.strand t k).record cause pc val).td ||
      decide (((s.strand t k).record cause pc val).tvec = 0) || decide (k = 4) || (s.tile t).follower) = true := by
    simp only [Bool.or_eq_true, Bool.not_eq_true', decide_eq_true_eq]
    intro hc
    apply hu
    unfold Unvectored
    simp only [Strand.td]
    tauto
  unfold State.takeTrap
  rw [if_neg hc]
  exact if_pos hb

/-- A trap that does not reach its handler goes one of the two ways of `takeTrap_unvectored` and `takeTrap_badTvec`. -/
theorem not_handled_iff {s : State} {t k cause : Nat} :
    ¬ Handled s t k cause ↔
      Unvectored s t k cause ∨ (¬ Unvectored s t k cause ∧ (s.tile t).badTarget (s.strand t k).tvec.toNat = true) := by
  by_cases hu : Unvectored s t k cause
  · simp only [hu, true_or, iff_true]
    rintro ⟨h1, h2, h3, h4, h5, -⟩
    rcases hu with h | h | h | h | h
    · rw [h1] at h; cases h
    · rw [h2] at h; cases h
    · exact h3 h
    · exact h4 h
    · rw [h5] at h; cases h
  · simp only [hu, false_or, not_false_eq_true, true_and]
    unfold Unvectored at hu
    simp only [not_or, Bool.not_eq_false, Bool.not_eq_true] at hu
    simp only [Handled, hu, true_and, not_false_eq_true, ne_eq, Bool.not_eq_false]

/-- What a gang tile keeps of a strand whose trap has been recorded and that is then stopped. -/
theorem stopStrand_recorded (s : State) {t : Nat} (k cause : Nat) (x : Strand) (ht : isSteward t = false) (r : State)
    (hr : r = (s.setStrand t k x).stopStrand t k cause) :
    (r.strand t k).trapcause = x.trapcause ∧ (r.strand t k).trappc = x.trappc ∧ (r.strand t k).trapval = x.trapval ∧
    (r.strand t k).status = x.status ∧ (r.strand t k).run = (if k = 4 then .idle else .stopped) ∧
    (r.tile t).vote = (s.tile t).vote.raise 1 (BitVec.ofNat 8 cause) ∧ (r.tile t).seq.failed = true := by
  obtain ⟨hstrand, hvote, hfailed⟩ := stopStrand_spec (s.setStrand t k x) t k cause ht
  rw [State.strand_setStrand_self] at hstrand
  subst hr
  rw [hstrand]
  exact ⟨rfl, rfl, rfl, rfl, rfl, by rw [hvote]; simp [State.setStrand], hfailed⟩

theorem resetSteward_spec (s : State) (t : Nat) :
    (s.resetSteward t).tile t = bootTile s.pkg ∧ (s.resetSteward t).reports = s.reports ++ [.firmwareFault t] := by
  unfold State.resetSteward
  exact ⟨by simp [State.report, State.tile, State.setTile], rfl⟩

theorem stopStrand_steward (s : State) {t : Nat} (k cause : Nat) (x : Strand) (ht : isSteward t = true) :
    ((s.setStrand t k x).stopStrand t k cause).tile t = bootTile s.pkg ∧
    ((s.setStrand t k x).stopStrand t k cause).reports = s.reports ++ [.firmwareFault t] := by
  unfold State.stopStrand
  rw [if_pos ht]
  exact resetSteward_spec (s.setStrand t k x) t

/-- A trap instruction's turn: the trap of the next instruction, and where it goes when its handler takes it. -/
theorem issue_trapNext_spec {s : State} {i : Info} {c : Nat} {v : Word} {body : Nat → Nat → State → Eff} (h : Clears s i)
    (hf : i.formats = none) (hb : body 0 0 s = .trapNext c v) :
    ∃ t, s.issue i body = .next t ∧ (Handled s s.curTile s.curStrand c →
      t.me.pc = s.me.tvec ∧ t.me.trapcause = BitVec.ofNat 8 c ∧ t.me.trappc = s.nextOf.1 ∧ t.me.trapval = v ∧
      t.me.td = true ∧ t.me.rep = s.nextOf.2 ∧ t.me.s = s.me.s ∧ t.me.stag = s.me.stag) :=
  ⟨_, issue_trapNext h hf hb, fun hh => trapNext_spec hh _ rfl⟩

/-- Settles O12: a trap without a handler is recorded and stops its strand (`stopStrand_recorded`, `resetSteward_spec`);
TRAP and BRK are the trap of the next instruction (`issue_trapNext_spec`). -/
theorem trapStopsAndCalls : Obligations.TrapStopsAndCalls := by
  unfold Obligations.TrapStopsAndCalls
  refine ⟨?_, fun s g imm h => ⟨?_, ?_⟩⟩
  rotate_left
  · exact issue_trapNext_spec (i := { head := 0x7102, guard := g }) (c := 0x17) (v := imm.setWidth 64)
      (body := fun _ _ _ => .trapNext 0x17 (imm.setWidth 64)) (clears_as h _) rfl rfl
  · exact issue_trapNext_spec (i := { head := 0x7103, guard := g }) (c := 0x16) (v := imm.setWidth 64)
      (body := fun _ _ _ => .trapNext 0x16 (imm.setWidth 64)) (clears_as h _) rfl rfl
  intro s t k cause pc val x r hx hr
  subst hx
  refine ⟨fun ht hu => ?_, fun ht h1 h2 h3 h4 h5 hb => ?_, fun ht hn => ?_⟩
  · rw [takeTrap_unvectored hu] at hr
    exact stopStrand_recorded s k cause _ ht r hr
  · have hu : ¬ Unvectored s t k cause := by simpa [Unvectored, h1, h2, h4, h5] using h3
    rw [takeTrap_badTvec hu hb] at hr
    have hs := stopStrand_recorded s k 0x03 _ ht r hr
    rwa [if_neg h4] at hs
  · subst hr
    rcases not_handled_iff.1 hn with hu | ⟨hu, hb⟩
    · rw [takeTrap_unvectored hu]; exact stopStrand_steward s k _ _ ht
    · rw [takeTrap_badTvec hu hb]; exact stopStrand_steward s k _ _ ht

end Sys2Proof.Proofs
end

section
/-! PROOFS. A turn of the agenda: what it fetches, what it runs, and where the strand goes on (R38, R50, R60). -/

namespace Sys2Proof.Proofs

open Sys2Proof.Machine Sys2Proof.Safety Sys2Proof.Laws

/-! ## The step as its turn -/

/-- What a step makes of the outcome of its turn's agent, whose turn began at b. -/
def watched (b : State) : Host.Outcome State Fault Refusal → Host.Outcome State Fault Refusal
  | .next r => .next (State.watch b r)
  | .fault f => .fault f
  | .refused f => .refused f

theorem step_of_nextTurn {s v b : State} {x : Turn} (h : s.nextTurn = (x, v)) (hb : b = v.begin x) :
    step s = watched b (b.act x.what) := by
  unfold step State.take
  rw [h, hb]
  rfl

theorem act_strand (b : State) (t k : Nat) (hw : Hw) : b.act (.strand t k hw) = b.strandTurn t k hw := rfl

theorem act_event (b : State) (e : Instr) : b.act (.event e) = b.eventTurn e := rfl

/-! ## What a strand's turn fetches -/

theorem interruptDue_of_canTry {w : State} (h : w.canTry = true) : w.interruptDue = false := by
  unfold State.canTry at h
  simp only [Bool.and_eq_true, Bool.not_eq_true'] at h
  exact h.1.2

theorem strandTurn_of_canTry {b w : State} {t k : Nat} (hw : Hw) (hg : w = b.giveTurn t k) (hd : w.discarding t = false)
    (hs : w.stopsNow = false) (hc : w.canTry = true) : b.strandTurn t k hw = w.prepare.tryIssue hw := by
  unfold State.strandTurn
  simp only [← hg, hd, hs, hc, interruptDue_of_canTry hc, Bool.false_eq_true, if_false, if_true]

theorem prepare_of_not_forwarded {w : State} (h : w.forwarded = false) :
    w.prepare = w.updMe (fun y => { y with issued := false }) := by
  unfold State.prepare
  rw [if_neg (by simp [h])]

/-- Clearing the mark of an issue changes nothing that a fetch looks at. -/
theorem fetch_notIssued {w : State} (hf : w.forwarded = false) (hk : w.curStrand ≠ 4) :
    (w.updMe fun y => { y with issued := false }).fetch = w.myTile.fetchAt w.me.pc := by
  have hme : (w.updMe fun y => { y with issued := false }).me = { w.me with issued := false } := State.me_updMe _ _
  have hfw : (w.updMe fun y => { y with issued := false }).forwarded = w.forwarded := by
    have hfwd : (w.updMe fun y => { y with issued := false }).myTile.fwd = w.myTile.fwd := by simp
    unfold State.forwarded Tile.follower
    rw [hme, hfwd]
    rfl
  have hcode : (w.updMe fun y => { y with issued := false }).myTile.codeHalf = w.myTile.codeHalf :=
    Tile.codeHalf_congr (by simp) (by simp)
  unfold State.fetch
  rw [if_neg (by simpa using hk), if_neg (by simp [hfw, hf]), hme]
  simp [Tile.fetchAt, Tile.badLine, Tile.codeOwned, hcode]

theorem fetchAt_instr {T : Tile} {pc : Pc} {i : Instr} (hb : T.badLine pc = false)
    (hi : decodeSlot (T.codeHalf pc) (pcSlot pc) = some i) : T.fetchAt pc = .instr i := by
  simp [Tile.fetchAt, hb, hi]

theorem fetchAt_illegalHead {T : Tile} {pc : Pc} (hb : T.badLine pc = false)
    (hi : decodeSlot (T.codeHalf pc) (pcSlot pc) = none) :
    T.fetchAt pc = .trap 0x01 pc ((T.codeHalf pc (pcSlot pc)).setWidth 64) := by
  simp [Tile.fetchAt, hb, hi]

theorem fetchAt_illegalLine {T : Tile} {pc : Pc} (hb : T.badLine pc = true) :
    T.fetchAt pc = .trap 0x02 (BitVec.ofNat 15 (pcLine pc)) (BitVec.ofNat 64 (pcLine pc)) := by
  simp [Tile.fetchAt, hb]

/-- What an issue makes of the outcome of its instruction i, issued at x. -/
def ended (x : State) (i : Instr) : Host.Outcome State Fault Refusal → Host.Outcome State Fault Refusal
  | .next r => .next (x.issued .ok i r)
  | .fault f => .fault f
  | .refused f => .refused f

theorem tryIssue_instr {x : State} {i : Instr} (h : x.fetch = .instr i) : x.tryIssue .ok = ended x i (exec i x) := by
  simp only [State.tryIssue, h]
  cases exec i x <;> rfl

theorem tryIssue_trap {x : State} {c : Nat} {pc : Pc} {v : Word} (hw : Hw) (h : x.fetch = .trap c pc v) :
    x.tryIssue hw = .next (x.trapMe c pc v) := by
  unfold State.tryIssue
  rw [h]

theorem eventTurn_of_not_discarding {b : State} {e : Instr} (hc : e.isCode = false)
    (hd : ∀ t, eventTile e = some t → b.discarding t = false) : b.eventTurn e = exec e b := by
  unfold State.eventTurn
  rw [if_neg (by simp [hc])]
  cases ht : eventTile e with
  | none => rfl
  | some t => exact if_neg (by simp [hd t ht])

/-! ## The end of an issue -/

theorem issued_unled {x : State} (r : State) (i : Instr) (hl : x.leadsList = false) (hf : x.forwarded = false) :
    x.issued .ok i r = if (r.strand x.curTile x.curStrand).issued then r.noteIssue else r := by
  have hfw : x.forward i r = r := by simp [State.forward, State.leads, hl]
  have hdiv : x.diverged i = false := by simp [State.diverged, hf]
  unfold State.issued
  cases (r.strand x.curTile x.curStrand).issued
  · rfl
  · simp [hdiv, hfw]

/-! ## The next PC -/

theorem lineH_eq (h : Half) : lineH h = h.toNat / 2048 := by
  have := h.isLt
  simp only [lineH, BitVec.extractLsb'_toNat, Nat.shiftRight_eq_div_pow]
  omega

theorem pcAfter_in_line {T : Tile} {pc : Pc} {n : Nat} (he : pc.toNat % 2 = 0)
    (h : pc.toNat % 64 / 2 + n ≤ (T.codeHalf pc 0).toNat / 2048) : (T.pcAfter pc n).toNat = pc.toNat + 2 * n := by
  have hh := (T.codeHalf pc 0).isLt
  have hp := pc.isLt
  unfold Tile.pcAfter pcSlot
  rw [lineH_eq, if_pos h, BitVec.toNat_ofNat]
  omega

theorem pcAfter_next_line {T : Tile} {pc : Pc} {n : Nat} (h : (T.codeHalf pc 0).toNat / 2048 < pc.toNat % 64 / 2 + n) :
    (T.pcAfter pc n).toNat = (pc.toNat / 64 * 64 + 66) % 2 ^ 15 := by
  unfold Tile.pcAfter pcSlot pcLine
  rw [lineH_eq, if_neg (Nat.not_le.2 h), BitVec.toNat_ofNat]

theorem seqPc_message {s : State} (h : s.curStrand = 4) : s.seqPc = s.me.pc + 1 := by
  unfold State.seqPc
  exact if_pos h

theorem seqPc_code {s : State} (h : s.curStrand ≠ 4) (hf : s.forwarded = false) :
    s.seqPc = s.myTile.pcAfter s.me.pc (s.myTile.slotsAt s.me.pc) := by
  unfold State.seqPc
  simp only [h, hf, if_false, Bool.false_eq_true]

theorem nextOf_outside_body {s : State} (h : s.me.td = true ∨ s.me.rep.active = false) : s.nextOf = (s.seqPc, s.me.rep) := by
  unfold State.nextOf
  rcases h with h | h
  · exact if_pos h
  · simp [Rep.next, h]

/-! ## Retirement -/

theorem clearPrefix_bits (x : Strand) : x.clearPrefix.pp = false ∧ x.clearPrefix.pfmt = 0 := by
  simp only [Strand.clearPrefix, Strand.setSt, Strand.pp, Strand.pfmt]
  refine ⟨?_, ?_⟩
  · rw [getLsbD_withBits _ _ _ _ _ (by omega), if_pos (by omega), Nat.zero_testBit]
  · apply Nat.eq_of_testBit_eq
    intro i
    simp only [bitsOf, Nat.testBit_mod_two_pow, Nat.testBit_div_two_pow, Nat.zero_testBit]
    by_cases hi : i < 8
    · have e : ∀ y : Word, y.toNat.testBit (i + 3) = y.getLsbD (i + 3) := fun _ => rfl
      rw [e, getLsbD_withBits _ _ _ _ _ (by omega), if_pos (by omega), Nat.zero_testBit, Bool.and_false]
    · simp [hi]

theorem retireAt_goes_on {s : State} {pc : Pc} (r : Rep) (keep : Bool) (h : s.curStrand ≠ 4 ∨ pc.toNat < s.me.slots.length) :
    (s.retireAt pc r keep).me.pc = pc ∧ (s.retireAt pc r keep).me.rep = r ∧ (s.retireAt pc r keep).me.run = .ready ∧
      (s.retireAt pc r keep).me.hold = .none := by
  have hlast : ¬ (s.curStrand = 4 ∧ s.me.slots.length ≤ pc.toNat) := by omega
  rw [me_retireAt]
  cases keep <;> simp [hlast]

theorem retireAt_ends_message {s : State} {pc : Pc} (r : Rep) (keep : Bool) (h : s.curStrand = 4)
    (hl : s.me.slots.length ≤ pc.toNat) : (s.retireAt pc r keep).me.run = .idle ∧ (s.retireAt pc r keep).me.slots = [] := by
  rw [me_retireAt]
  cases keep <;> simp [h, hl]

theorem retireAt_prefix (s : State) (pc : Pc) (r : Rep) :
    (s.retireAt pc r false).me.pp = false ∧ (s.retireAt pc r false).me.pfmt = 0 := by
  have hst : (s.retireAt pc r false).me.status = s.me.clearPrefix.status := by
    rw [me_retireAt]
    simp only [Bool.false_eq_true, if_false]
    split <;> rfl
  unfold Strand.pp Strand.pfmt
  rw [hst]
  exact clearPrefix_bits s.me

theorem retireAt_registers (s : State) (pc : Pc) (r : Rep) (keep : Bool) (y : Strand) (hy : y = (s.retireAt pc r keep).me) :
    y.s = s.me.s ∧ y.stag = s.me.stag ∧ y.p = s.me.p ∧ y.ptag = s.me.ptag ∧ y.v = s.me.v ∧ y.vtag = s.me.vtag ∧
      y.q = s.me.q ∧ y.qtag = s.me.qtag ∧ y.k = s.me.k := by
  rw [hy, me_retireAt]
  cases keep <;> simp only [Bool.false_eq_true, if_false, if_true] <;> split <;>
    exact ⟨rfl, rfl, rfl, rfl, rfl, rfl, rfl, rfl, rfl⟩

/-- Settles O54: a strand's turn is the issue of what it fetches (`strandTurn_of_canTry`, `fetch_notIssued`), an event's is
exec of the event, and the next PC is the following slot or the next line's first. -/
theorem stepRunsDecoded : Obligations.StepRunsDecoded := by
  unfold Obligations.StepRunsDecoded
  refine ⟨?_, ?_, ?_, ?_, ?_, ?_, ?_, ?_, ?_⟩
  · intro s v b w x c t k hn hb hw hd hs hc hf hk hx
    have hk' : w.curStrand ≠ 4 := by rw [hw]; exact hk
    have hfetch : x.fetch = w.myTile.fetchAt w.me.pc := by rw [hx]; exact fetch_notIssued hf hk'
    have hstep : step s = watched b (x.tryIssue .ok) := by
      rw [step_of_nextTurn hn hb, act_strand, strandTurn_of_canTry .ok hw hd hs hc, prepare_of_not_forwarded hf, hx]
    refine ⟨fun i hl hi => ?_, fun hl hi => ?_, fun hl => ?_⟩
    · rw [hstep, tryIssue_instr (hfetch.trans (fetchAt_instr hl hi))]
      cases exec i x <;> rfl
    · rw [hstep, tryIssue_trap .ok (hfetch.trans (fetchAt_illegalHead hl hi))]
      rfl
    · rw [hstep, tryIssue_trap .ok (hfetch.trans (fetchAt_illegalLine hl))]
      rfl
  · intro s v b c e hn hb hc hd
    rw [step_of_nextTurn hn hb, act_event, eventTurn_of_not_discarding hc hd]
    cases exec e b <;> rfl
  · intro s x
    refine ⟨?_, rfl⟩
    simp [State.begin, State.passTime]
  · intro s h
    simp [State.nextTurn, h]
  · intro s x l h
    simp [State.nextTurn, h]
  · intro x r i hl hf
    exact issued_unled r i hl hf
  · intro T pc slot h n he hslot hh hn
    subst hslot hh
    refine ⟨hn.symm, fun hle => pcAfter_in_line he hle, fun hlt => pcAfter_next_line hlt⟩
  · intro s
    exact ⟨seqPc_message, seqPc_code, nextOf_outside_body⟩
  · intro s pc r keep t ht
    obtain ⟨hs, hst, hp, hpt, hv, hvt, hq, hqt, hkk⟩ := retireAt_registers s pc r keep t.me (by rw [ht])
    subst ht
    refine ⟨retireAt_goes_on r keep, retireAt_ends_message r keep, ?_, hs, hst, hp, hpt, hv, hvt, hq, hqt, hkk,
      fun u hu => retireAt_tile_ne s hu pc r keep, retireAt_mem s pc r keep⟩
    rintro rfl
    exact retireAt_prefix s pc r

end Sys2Proof.Proofs
end

section
/-! PROOFS. The deadlock detector of a gang of two ranks (R257): the agreed sample holds the other rank's activity counts too. -/

namespace Sys2Proof.Proofs

open Sys2Proof.Machine Sys2Proof.Safety Sys2Proof.Laws

/-- Tile 0 of the gang: computing, its list at an end, its only strand parked in SYNC, its vote not sent. -/
def parkedTile : Tile := { gang := 1, seq := { phase := .compute }, strands := [(0, { run := .parked .sync })] }

/-- A gang of one tile on each of two packages, on its rank 0: the tile of rank 1 shows every condition of R257 with activity
count 3, and the latest sample, of cycle 0, lists the count of the tile of this package only. -/
def twoRankGang : Gang :=
  { part := 0, clusters := 1, perCluster := 1, rank := 0, ranks := 2, rootPkg := 0, place := [0], stepLimit := 0, state := .running,
    domain := 0, slot := 0, qid := 0, stride := 0, prio := 0, cycles := 0, charged := 0, complva := 0, parent := 0, hmsg := none,
    preempt := false, verdict := none, todo := [], pfl0 := 0, up := [], mismatch := false, syncMismatch := false, syncDown := none,
    syncTodo := [], plots := [], observed := [], launches := [], linkFail := false, sample := some (0, [0]), mirrorWait := false,
    mirrorAt := 0, haltCause := 0, savedStep := 0, aside := [], lines := [(1, { acts := [3], unvoted := some 1 })] }

/-- The package of rank 0, long after the sample. -/
def twoRankState : State := { cycle := 100000, tiles := [(0, parkedTile)], gangs := [(1, twoRankGang)] }

/-- The decision that gang `id` has after an outcome, and its sample. -/
def sampleAfter (id : Nat) : Host.Outcome State Fault Refusal → Option (Option Packet × Option (Nat × List (BitVec 16)))
  | .next u => (u.gang id).map fun h => (h.verdict, h.sample)
  | _ => none

theorem twoRankState_deadlocked : twoRankState.deadlocked 1 twoRankGang = true := by decide +kernel

/-- The older sample lacks the other rank's count, so DEADLOCK takes a new sample and decides nothing. -/
theorem deadlock_twoRankState : sampleAfter 1 (exec (.deadlock 1) twoRankState) = some (none, some (100000, [0, 3])) := by
  decide +kernel

/-- Refutes O43, in its last clause: the clause takes `g.sample` to be the counts of this package's tiles (`g.place`), but in a
gang of more than one rank the agreed sample also lists the other ranks' counts (`g.lines`). On `twoRankState` every hypothesis
of the clause holds, and DEADLOCK only samples again. The clause wants a gang of one rank, or the counts of `g.lines` in its
premise and their tiles among those that have not voted. -/
theorem not_sheafDecision : ¬ Obligations.SheafDecision := by
  unfold Obligations.SheafDecision
  rintro ⟨-, -, -, -, hdeadlock⟩
  obtain ⟨u, h, p, hexec, hgang, hverdict, -⟩ :=
    hdeadlock twoRankState 1 0 twoRankGang rfl rfl rfl rfl twoRankState_deadlocked rfl (by decide +kernel)
  have hsample := deadlock_twoRankState
  simp [hexec, sampleAfter, hgang, hverdict] at hsample

end Sys2Proof.Proofs
end

section
/-! PROOFS. The Sheaf instructions of a tile, SYNCDOWN, ARRIVE, and the partial that a tile sends (R308, R317-R321). -/

namespace Sys2Proof.Proofs

open Sys2Proof.Machine Sys2Proof.Safety Sys2Proof.Laws

/-! ## Gangs -/

theorem gang_of_gangOf {s : State} {t : Nat} {q : Gang} (h : s.gangOf t = some q) : s.gang (s.tile t).gang = some q := by
  unfold State.gangOf at h
  split at h
  · cases h
  · exact h

theorem updGang_of_gang {s : State} {id : Nat} {g : Gang} (h : s.gang id = some g) (f : Gang → Gang) :
    s.updGang id f = s.setGang id (f g) := by
  unfold State.gang at h
  simp only [State.updGang, h]

@[simp] theorem gang_setGang_self (s : State) (id : Nat) (g : Gang) : (s.setGang id g).gang id = some g :=
  SMap.find_insert_self s.gangs id g

@[simp] theorem setGang_tile (s : State) (id : Nat) (g : Gang) (t : Nat) : (s.setGang id g).tile t = s.tile t := rfl
@[simp] theorem setGang_strand (s : State) (id : Nat) (g : Gang) (t k : Nat) : (s.setGang id g).strand t k = s.strand t k := rfl

/-- A change of a tile that leaves its strands leaves the strand whose turn it is. -/
theorem me_updTile {s : State} {t : Nat} {f : Tile → Tile} (h : (f (s.tile t)).strands = (s.tile t).strands) :
    (s.updTile t f).me = s.me := by
  have hs : ∀ u k, (s.updTile t f).strand u k = s.strand u k := by
    intro u k
    by_cases hu : u = t
    · subst hu; simp only [State.strand, State.tile_updTile_self, h]
    · simp only [State.strand, State.tile_updTile_ne s hu]
  exact hs s.curTile s.curStrand

/-! ## SYNC -/

theorem syncArrive_again {s : State} {t : Nat} (h : (s.tile t).syncArrived = true) : s.syncArrive t = s := if_pos h

theorem syncArrive_first {s : State} {t : Nat} {q : Gang} (hq : s.gangOf t = some q) (h : (s.tile t).syncArrived = false) :
    s.syncArrive t = (s.setGang (s.tile t).gang (q.push (10000 + t) [(s.tile t).packet 2])).updTile t fun T =>
      { T with redc := [], syncArrived := true } := by
  unfold State.syncArrive
  rw [if_neg (by simp [h]), updGang_of_gang (gang_of_gangOf hq)]

/-- The first SYNC of a generation at a tile sends its partial; each one leaves the tile arrived. -/
theorem syncArrive_spec {s : State} {t : Nat} {q : Gang} (hq : s.gangOf t = some q) :
    (s.syncArrive t).me = s.me ∧ ((s.syncArrive t).tile t).syncArrived = true ∧ OtherTilesSame s (s.syncArrive t) t ∧
    (s.syncArrive t).curTile = s.curTile ∧
    (s.syncArrive t).gang (s.tile t).gang =
      some (if (s.tile t).syncArrived then q else q.push (10000 + t) [(s.tile t).packet 2]) := by
  cases ha : (s.tile t).syncArrived
  · rw [syncArrive_first hq ha]
    refine ⟨?_, by simp, fun u hu => ?_, rfl, gang_setGang_self _ _ _⟩
    · rw [me_updTile (by rfl)]; rfl
    · rw [State.tile_updTile_ne _ hu, setGang_tile]
  · rw [syncArrive_again ha]
    exact ⟨rfl, ha, fun _ _ => rfl, rfl, gang_of_gangOf hq⟩

theorem exec_sync_parks {s : State} {q : Gang} (hns : isSteward s.curTile = false) (hq : s.gangOf s.curTile = some q)
    (hc : Clears s (ordinary Guard.always)) (hst : s.me.standing = none) (hl : s.storesLanded = true) :
    ∃ t, exec .sync s = .next t ∧ t.me = { s.me with run := .parked .sync, took := false, issued := true } ∧
      t.myTile.syncArrived = true ∧ OtherTilesSame s t s.curTile ∧ t.mem = s.mem ∧
      t.gang s.myTile.gang = some (if s.myTile.syncArrived then q else q.push (10000 + s.curTile) [s.myTile.packet 2]) := by
  obtain ⟨hme, harr, hoth, hct, hgang⟩ := syncArrive_spec hq
  have hres : s.me.resumed .sync = none := by simp [Strand.resumed, hst]
  have hexec : exec .sync s = .next ((s.syncArrive s.curTile).updMe fun x =>
      { x with run := .parked .sync, took := false, issued := true }) := by
    change execSync s = _
    rw [execSync, issue_clears (clears_as hc _)]
    refine settle_parked _ rfl ?_
    simp only [hns, hres, hl, Bool.false_eq_true, if_false, if_true]
  refine ⟨_, hexec, ?_, ?_, fun u hu => ?_, ?_, hgang⟩
  · rw [State.me_updMe, hme]
  · simpa [State.myTile, hct] using harr
  · rw [State.tile_updMe_ne _ (by rw [hct]; exact hu), hoth u hu]
  · simp

/-! ## VOTE, REDC, REDRD -/

theorem exec_vote_raises {s : State} {g : Guard} (v : BitVec 2) (cause : BitVec 8) (hns : isSteward s.curTile = false)
    (hc : Clears s (ordinary g)) : exec (.vote g v cause) s = .next (retired s (s.raiseVote s.curTile v cause)) := by
  change execVote g v cause s = _
  rw [execVote, issue_done (clears_as hc _) rfl rfl]
  · rfl
  · simp only [hns, Bool.false_eq_true, if_false]

theorem raiseVote_curTile (s : State) (t : Nat) (v : BitVec 2) (cause : BitVec 8) : (s.raiseVote t v cause).curTile = s.curTile := by
  unfold State.raiseVote
  split <;> rfl

theorem raiseVote_spec {s : State} {t : Nat} (v : BitVec 2) (cause : BitVec 8) (hns : isSteward t = false) :
    (s.raiseVote t v cause).me = s.me ∧ OtherTilesSame s (s.raiseVote t v cause) t ∧
      ((s.raiseVote t v cause).tile t).mem = (s.tile t).mem ∧
      ((s.raiseVote t v cause).tile t).vote = (s.tile t).vote.raise v cause := by
  simp only [State.raiseVote, hns, Bool.false_eq_true, if_false]
  exact ⟨me_updTile rfl, fun u hu => State.tile_updTile_ne s hu _, by simp, by simp⟩

/-- The state with one more contribution of the strand whose turn it is. -/
def contributed (s : State) (op : SheafOp) (a : SReg) : State :=
  (s.updMe fun x => { x with redcCount := x.redcCount + 1 }).updMyTile fun T =>
    { T with redc := s.myTile.redc ++ [⟨op, s.me.rd a, s.me.routine, s.me.redcCount⟩] }

theorem exec_redc_adds {s : State} {g : Guard} {op : SheafOp} {a : SReg} (hns : isSteward s.curTile = false)
    (hc : Clears s (ordinary g)) (ha : s.me.tag a = false) (hop : ∀ c ∈ s.myTile.redc, c.op = op)
    (hlen : s.myTile.redc.length < 64) : exec (.redc g op a) s = .next (retired s (contributed s op a)) := by
  have hfind : s.myTile.redc.find? (fun c => decide (c.op ≠ op)) = none := by
    rw [List.find?_eq_none]
    intro c hcm
    simp [hop c hcm]
  have hredc : (s.updMe fun x => { x with redcCount := x.redcCount + 1 }).myTile.redc = s.myTile.redc := by simp
  change execRedc g op a s = _
  rw [execRedc, issue_done (clears_as hc _) rfl rfl]
  · rfl
  · simp only [hns, ha, hfind, Nat.not_le.2 hlen, Bool.false_eq_true, if_false, contributed, State.updMyTile, State.updTile]
    rw [show (State.tile _ _).redc = _ from hredc]

theorem contributed_spec (s : State) (op : SheafOp) (a : SReg) :
    (contributed s op a).me = { s.me with redcCount := s.me.redcCount + 1 } ∧
      (contributed s op a).myTile.redc = s.myTile.redc ++ [⟨op, s.me.rd a, s.me.routine, s.me.redcCount⟩] ∧
      (contributed s op a).mem = s.mem ∧ OtherTilesSame s (contributed s op a) s.curTile ∧
      (contributed s op a).myTile.mem = s.myTile.mem := by
  unfold contributed State.updMyTile
  refine ⟨?_, by simp [State.myTile], by simp, fun u hu => ?_, by simp [State.myTile]⟩
  · rw [me_updTile rfl, State.me_updMe]
  · rw [State.tile_updTile_ne _ (by simpa using hu), State.tile_updMe_ne _ hu]

theorem exec_redrd_reads {s : State} {g : Guard} (d : SReg) (hns : isSteward s.curTile = false) (hc : Clears s (ordinary g)) :
    exec (.redrd g d) s = .next (regResult s d (s.myTile.syncres.getD s.myTile.redres) false) := by
  change execRedrd g d s = _
  rw [execRedrd, issue_done (clears_as hc _) rfl rfl]
  · rfl
  · simp only [hns, Bool.false_eq_true, if_false]

/-! ## SYNCDOWN -/

/-- An instruction that retires for an event writes its own strand only. -/
theorem retireHeld_none_eq (s : State) (t k : Nat) :
    ∃ x, s.retireHeld t k Sync.none = s.setStrand t k x ∧
      (k ≠ 4 → x.run = .ready ∧ x.hold = .none ∧ ∀ r, x.rd r = (s.strand t k).rd r) := by
  have hg := retireAt_goes_on (s := s.giveTurn t k) (pc := (s.giveTurn t k).nextOf.1) (s.giveTurn t k).nextOf.2 false
  have hr := retireAt_rd (s.giveTurn t k) (s.giveTurn t k).nextOf.1 (s.giveTurn t k).nextOf.2 false
  refine ⟨((s.giveTurn t k).retireAt (s.giveTurn t k).nextOf.1 (s.giveTurn t k).nextOf.2 false).me, ?_, fun hk => ?_⟩
  · rw [me_retireAt]; rfl
  · obtain ⟨-, -, hrun, hhold⟩ := hg (Or.inl hk)
    exact ⟨hrun, hhold, hr⟩

theorem finishSync_eq (s : State) (t k : Nat) : s.finishSync t k = s ∨ ∃ x, s.finishSync t k = s.setStrand t k x := by
  unfold State.finishSync
  by_cases hr : (s.strand t k).run = .parked .sync
  · obtain ⟨x, hx, -⟩ := retireHeld_none_eq s t k
    simp only [hr, if_true]
    exact .inr ⟨x, hx⟩
  · simp only [hr, if_false]
    split
    · exact .inr ⟨_, rfl⟩
    · exact .inl rfl

theorem finishSync_parked {s : State} {t k : Nat} (hk : k ≠ 4) (h : (s.strand t k).run = .parked .sync) :
    ((s.finishSync t k).strand t k).run = .ready ∧ ((s.finishSync t k).strand t k).hold = .none ∧
      ∀ r, ((s.finishSync t k).strand t k).rd r = (s.strand t k).rd r := by
  obtain ⟨x, hx, hspec⟩ := retireHeld_none_eq s t k
  simp only [State.finishSync, h, if_true, hx, State.strand_setStrand_self]
  exact hspec hk

theorem finishSync_strand_ne (s : State) (t : Nat) {k j : Nat} (h : j ≠ k) : (s.finishSync t k).strand t j = s.strand t j := by
  obtain he | ⟨x, he⟩ := finishSync_eq s t k
  · rw [he]
  · rw [he, State.strand_setStrand_ne s (.inr h)]

theorem foldl_finishSync_strand_notMem (t : Nat) {k : Nat} {l : List Nat} (hk : k ∉ l) (s : State) :
    (l.foldl (fun s k => s.finishSync t k) s).strand t k = s.strand t k := by
  induction l generalizing s with
  | nil => rfl
  | cons j l ih =>
    obtain ⟨hj, hl⟩ := not_or.1 (List.mem_cons.not.1 hk)
    rw [List.foldl_cons, ih hl, finishSync_strand_ne s t hj]

/-- Every strand of a list that is parked in SYNC goes on; the strands before and after it do not touch it. -/
theorem foldl_finishSync_parked (t : Nat) {k : Nat} (hk : k ≠ 4) {l : List Nat} (hn : l.Nodup) (hm : k ∈ l) (s : State)
    (h : (s.strand t k).run = .parked .sync) :
    ∀ y, y = (l.foldl (fun s k => s.finishSync t k) s).strand t k →
      y.run = .ready ∧ y.hold = .none ∧ ∀ r, y.rd r = (s.strand t k).rd r := by
  induction l generalizing s with
  | nil => cases hm
  | cons j l ih =>
    obtain ⟨hj, hl⟩ := List.nodup_cons.1 hn
    intro y hy
    rw [List.foldl_cons] at hy
    by_cases hkj : k = j
    · subst hkj
      rw [foldl_finishSync_strand_notMem t hj] at hy
      subst hy
      exact finishSync_parked hk h
    · have hstep := finishSync_strand_ne s t hkj
      have hrest := ih hl ((List.mem_cons.1 hm).resolve_left hkj) (s.finishSync t j) (by rw [hstep]; exact h) y hy
      rwa [hstep] at hrest

theorem foldl_finishSync_keeps {P : State → Prop} (t : Nat) (hP : ∀ s k x, P s → P (s.setStrand t k x)) (l : List Nat) (s : State)
    (h : P s) : P (l.foldl (fun s k => s.finishSync t k) s) :=
  foldl_keeps (fun s k hs => by
    obtain he | ⟨x, he⟩ := finishSync_eq s t k
    · rw [he]; exact hs
    · rw [he]; exact hP s k x hs) l s h

/-- The state with the result of SYNCDOWN at tile t, before its parked strands go on. -/
def syncDelivered (s : State) (t : Nat) (q : Gang) (v : Word) : State :=
  (s.setGang (s.tile t).gang { q with syncTodo := q.syncTodo.erase t, syncDown := if (q.syncTodo.erase t).isEmpty then none else some v }).updTile t
    fun T => { T with syncres := some v, syncArrived := false, vote := { T.vote with sgen := T.vote.sgen + 1 } }

theorem exec_syncdown {s : State} {t : Nat} {q : Gang} {v : Word} (hq : s.gangOf t = some q) (hv : q.syncDown = some v)
    (ht : t ∈ q.syncTodo) :
    exec (.syncdown t) s = .next ((List.range 4).foldl (fun s k => s.finishSync t k) (syncDelivered s t q v)) := by
  change execSyncdown t s = _
  have hc : q.syncTodo.contains t = true := List.contains_iff_mem.2 ht
  simp only [execSyncdown, hq, hv, hc, if_true, updGang_of_gang (gang_of_gangOf hq), syncDelivered]

theorem syncdown_spec {s : State} {t : Nat} {q : Gang} {v : Word} (hq : s.gangOf t = some q) (hv : q.syncDown = some v)
    (ht : t ∈ q.syncTodo) :
    ∃ u, exec (.syncdown t) s = .next u ∧ (u.tile t).syncres = some v ∧ (u.tile t).syncArrived = false ∧
      (u.tile t).vote = { (s.tile t).vote with sgen := (s.tile t).vote.sgen + 1 } ∧ u.mem = s.mem ∧
      ∀ k, k < 4 → (s.strand t k).run = .parked .sync → (u.strand t k).run = .ready ∧ (u.strand t k).hold = .none ∧
        ∀ r, (u.strand t k).rd r = (s.strand t k).rd r := by
  have hstrand : ∀ k, (syncDelivered s t q v).strand t k = s.strand t k := fun k => by
    simp only [State.strand, syncDelivered, State.tile_updTile_self, setGang_tile]
  refine ⟨_, exec_syncdown hq hv ht, ?_, ?_, ?_, ?_, fun k hk hr => ?_⟩
  · exact foldl_finishSync_keeps (P := fun u => (u.tile t).syncres = some v) t (fun u k x h => by simpa using h) _ _
      (by simp [syncDelivered])
  · exact foldl_finishSync_keeps (P := fun u => (u.tile t).syncArrived = false) t (fun u k x h => by simpa using h) _ _
      (by simp [syncDelivered])
  · exact foldl_finishSync_keeps (P := fun u => (u.tile t).vote = { (s.tile t).vote with sgen := (s.tile t).vote.sgen + 1 }) t
      (fun u k x h => by simpa using h) _ _ (by simp [syncDelivered])
  · exact foldl_finishSync_keeps (P := fun u => u.mem = s.mem) t (fun u k x h => by simpa using h) _ _
      (by simp [syncDelivered])
  · have h := foldl_finishSync_parked t (by omega : k ≠ 4) List.nodup_range (List.mem_range.2 hk)
      (syncDelivered s t q v) (by rw [hstrand]; exact hr) _ rfl
    rwa [hstrand] at h

/-! ## ARRIVE -/

theorem arrive_spec {s : State} {t : Nat} {q : Gang} (hq : s.gangOf t = some q) (hs : (s.tile t).vote.sent = false)
    (hm : q.mirrorWait = false) (ht : t ∉ q.todo) (hquiet : s.quietTile t = true) :
    ∃ u, exec (.arrive t) s = .next u ∧ (u.tile t).vote = { (s.tile t).vote with sent := true } ∧
      (u.tile t).seq.phase = .arrived ∧ (u.tile t).redc = [] ∧ u.mem = s.mem ∧ OtherTilesSame s u t ∧
      u.gang (s.tile t).gang = some (q.push (10000 + t) [(s.tile t).packet 0]) := by
  have hc : q.todo.contains t = false := by simpa using ht
  have hexec : exec (.arrive t) s = .next
      ((s.setGang (s.tile t).gang (q.push (10000 + t) [(s.tile t).packet 0])).updTile t fun T =>
        { T with vote := { T.vote with sent := true }, redc := [], seq := { T.seq with phase := .arrived } }) := by
    change execArrive t s = _
    simp only [execArrive, hq, hs, hm, hc, hquiet, Bool.not_true, Bool.or_false, Bool.false_eq_true, if_false,
      updGang_of_gang (gang_of_gangOf hq)]
  refine ⟨_, hexec, by simp, by simp, by simp, by simp, fun u hu => ?_, gang_setGang_self _ _ _⟩
  rw [State.tile_updTile_ne _ hu, setGang_tile]

/-! ## The partial of a tile -/

theorem insertBy_perm {α : Type} (le : α → α → Bool) (x : α) : ∀ l : List α, (insertBy le x l).Perm (x :: l)
  | [] => .refl _
  | y :: t => by
    unfold insertBy
    split
    · exact .refl _
    · exact ((insertBy_perm le x t).cons y).trans (.swap x y t)

theorem sortBy_perm {α : Type} (le : α → α → Bool) : ∀ l : List α, (sortBy le l).Perm l
  | [] => .refl _
  | x :: t => (insertBy_perm le x _).trans ((sortBy_perm le t).cons x)

theorem foldl_sheafNode_add (l : List Contrib) (a : Word) :
    l.foldl (fun a d => sheafNode 1 a d.value) a = a + (l.map (·.value)).sum := by
  induction l generalizing a with
  | nil => simp
  | cons c l ih =>
    have hadd : sheafNode 1 a c.value = a + c.value := rfl
    rw [List.foldl_cons, ih, hadd, List.map_cons, List.sum_cons, BitVec.add_assoc]

theorem closeReduction_nil : closeReduction [] = (0, none) := rfl

/-- Sorting does not change a sum, so the order of the contributions (R320) does not matter for ADD. -/
theorem closeReduction_add {cs : List Contrib} (hne : cs ≠ []) (hadd : ∀ c ∈ cs, c.op = .add) :
    closeReduction cs = (1, some (cs.map (·.value)).sum) := by
  have hperm := sortBy_perm Contrib.before cs
  have hsum : ((sortBy Contrib.before cs).map (·.value)).sum = (cs.map (·.value)).sum := (hperm.map _).sum_eq
  unfold closeReduction
  cases hsort : sortBy Contrib.before cs with
  | nil => rw [hsort] at hperm; exact absurd hperm.symm.eq_nil hne
  | cons c rest =>
    have hop : ropOf c.op = 1 := by rw [hadd c (hperm.subset (hsort ▸ List.mem_cons_self))]; rfl
    rw [hsort, List.map_cons, List.sum_cons] at hsum
    have h6 : ¬ (1 : BitVec 4) = 6 := by decide
    simp only [hop, h6, if_false, sheafLeaf, foldl_sheafNode_add, hsum]

theorem packet_arrive_spec (T : Tile) :
    (T.packet 0).kind = 0 ∧ (T.packet 0).vote = T.vote.vote ∧ (T.packet 0).cause = T.vote.cause ∧
      (T.packet 0).ctile = T.gti ∧ (T.packet 0).step = T.ctl.sstep.toNat ∧
      (T.redc = [] → (T.packet 0).empty = true ∧ (T.packet 0).rop = 0) ∧
      (T.redc ≠ [] → (∀ c ∈ T.redc, c.op = .add) → (T.packet 0).empty = false ∧ (T.packet 0).rop = 1 ∧
        (T.packet 0).payload = (T.redc.map (·.value)).sum) := by
  refine ⟨rfl, rfl, rfl, rfl, rfl, fun h => ?_, fun hne hadd => ?_⟩
  · simp [Tile.packet, h, closeReduction_nil]
  · simp [Tile.packet, closeReduction_add hne hadd]

/-- Settles O42: each instruction by its effect, SYNCDOWN by induction over the four strands, and the partial of ADD
contributions by `closeReduction_add`. -/
theorem sheafInstructions : Obligations.SheafInstructions := by
  unfold Obligations.SheafInstructions
  refine ⟨?_, ?_, packet_arrive_spec⟩
  · intro s gd q v cause op a d hns hq
    refine ⟨exec_sync_parks hns hq, fun hc => ?_, fun hc ha hop hlen => ?_, exec_redrd_reads d hns⟩
    · obtain ⟨hme, hoth, hmem, hvote⟩ := raiseVote_spec v cause hns
      refine ⟨_, exec_vote_raises v cause hns hc, hme, by simp, hoth, ?_, ?_⟩
      · rw [State.myTile, raiseVote_curTile, hmem, State.myTile]
      · rw [State.myTile, raiseVote_curTile, hvote, State.myTile, Vote.raise]
    · obtain ⟨hme, hredc, hmem, hoth, htmem⟩ := contributed_spec s op a
      exact ⟨_, exec_redc_adds hns hc ha hop hlen, hme, hredc, hmem, hoth, htmem⟩
  · intro s t q v hq
    exact ⟨syncdown_spec hq, arrive_spec hq⟩

end Sys2Proof.Proofs
end

section
/-! PROOFS. ABORT at a tile whose snapshot gives its segments other kinds than its present MEMCFG does (R128, R137). -/

namespace Sys2Proof.Proofs

open Sys2Proof.Machine Sys2Proof.Safety Sys2Proof.Laws

/-- The decision ABORT, without a pre-emption. -/
def abortPacket : Packet :=
  { gang := 1, step := 0, kind := 1, vote := 1, cause := 6, rop := 0, payload := 0, level := 0, index := 0, ctile := 0, sgen := 0,
    last := true, empty := false, yield := false, reserved := 0 }

/-- A computing tile whose first twelve segments are scratch by its MEMCFG (the reset value), and versioned by its snapshot's. -/
def respunTile : Tile := { gang := 1, seq := { phase := .compute }, ctl := { memcfg := memcfgReset }, snap := { memcfg := 0 } }

/-- A gang of that tile, which has still to apply ABORT. -/
def abortingGang : Gang :=
  { part := 0, clusters := 1, perCluster := 1, rank := 0, ranks := 1, rootPkg := 0, place := [0], stepLimit := 0, state := .running,
    domain := 0, slot := 0, qid := 0, stride := 0, prio := 0, cycles := 0, charged := 0, complva := 0, parent := 0, hmsg := none,
    preempt := false, verdict := some abortPacket, todo := [0], pfl0 := 0, up := [], mismatch := false, syncMismatch := false,
    syncDown := none, syncTodo := [], plots := [], observed := [], launches := [], linkFail := false, sample := none,
    mirrorWait := false, mirrorAt := 0, haltCause := 0, savedStep := 0, aside := [] }

/-- The package with that tile and gang. -/
def respunState : State := { tiles := [(0, respunTile)], gangs := [(1, abortingGang)] }

/-- Whether the word of tile t at a data address is stale after an outcome. -/
def staleAfter (t a : Nat) : Host.Outcome State Fault Refusal → Option Bool
  | .next u => some ((u.tile t).mem.stale.getLsbD (wordIx a))
  | _ => none

theorem respunTile_scratch : respunTile.region 0x8000 = .seg .s := by decide +kernel

/-- ABORT marks the scratch words of the snapshot's segments (`Tile.abortStep`), so this one is not marked. -/
theorem abort_respunState : staleAfter 0 0x8000 (exec (.abort 0) respunState) = some false := by decide +kernel

/-- Refutes O44, in its clause on ABORT: the clause takes the scratch words that turn stale by the tile's present MEMCFG
(`ScratchStale` of the tile as it stands), the model by the MEMCFG of the snapshot that the tile goes back to. Nothing in the
clause makes the two agree on V and S, and at `respunState` they differ: its scratch word at 0x8000 is not stale after ABORT. A gang
tile's SYSWR changes only GATE (R128), so what the clause lacks is the premise that they agree; its clause on HALT_DECISION
lacks it too. -/
theorem not_decisions : ¬ Obligations.Decisions := by
  unfold Obligations.Decisions
  intro h
  obtain ⟨-, habort, -⟩ := h respunState 0 abortingGang abortPacket respunTile rfl rfl List.mem_cons_self rfl
  obtain ⟨u, hexec, -, -, -, -, -, -, -, -, -, -, hscratch, -⟩ := habort rfl rfl (by decide)
  obtain ⟨hstale, -⟩ := hscratch 0x8000 respunTile_scratch
  have hfresh := abort_respunState
  simp only [hexec, staleAfter, hstale] at hfresh
  cases hfresh

end Sys2Proof.Proofs
end

section
/-! PROOFS. The register files of a strand (R27), and the instructions that end a routine, give way, do nothing or set a prefix
(R43, R45, R59, R80). -/

namespace Sys2Proof.Proofs

open Sys2Proof.Machine Sys2Proof.Safety Sys2Proof.Laws

/-! ## Register files (R27) -/

/-- A register file read at one register after a write to another or to the same. -/
theorem get_set_register {α : Type} [DecidableEq α] {n : Nat} (m : SMap α) (d r : BitVec n) (z v : α) :
    (m.set d.toNat z v).get r.toNat z = if r = d then v else m.get r.toNat z := by
  simp only [SMap.get_set, BitVec.toNat_inj]

theorem rd_wr {d : SReg} (hd : d ≠ 0) (x : Strand) (v : Word) (t : Bool) (r : SReg) :
    (x.wr d v t).rd r = if r = d then v else x.rd r := by
  by_cases h : r = d
  · rw [h, Strand.rd_wr_self, if_neg hd, if_pos rfl]
  · rw [Strand.rd_wr_ne x h, if_neg h]

theorem tag_wr {d : SReg} (hd : d ≠ 0) (x : Strand) (v : Word) (t : Bool) (r : SReg) :
    (x.wr d v t).tag r = if r = d then t else x.tag r := by
  by_cases h : r = d
  · rw [h, Strand.tag_wr_self, if_neg hd, if_pos rfl]
  · rw [Strand.tag_wr_ne x h, if_neg h]

theorem prd_pwr {d : PReg} (hd : d ≠ 0) (x : Strand) (v t : Bool) (r : PReg) :
    (x.pwr d v t).prd r = if r = d then v else x.prd r := by
  by_cases h : r = d
  · rw [h, Strand.prd_pwr_self, if_neg hd, if_pos rfl]
  · rw [Strand.prd_pwr_ne x h, if_neg h]

theorem pt_pwr {d : PReg} (hd : d ≠ 0) (x : Strand) (v t : Bool) (r : PReg) :
    (x.pwr d v t).pt r = if r = d then t else x.pt r := by
  have hr : r.toNat < 8 := r.isLt
  simp only [Strand.pt, Strand.pwr, if_neg hd, getLsbD_withBit, BitVec.toNat_inj, hr, and_true]
  by_cases h : r = d
  · simp only [h, hd, if_true, if_false]
  · simp only [h, if_false]

theorem wr_writes_only (d : SReg) (x : Strand) (v : Word) (t : Bool) :
    x.wr d v t = { x with s := (x.wr d v t).s, stag := (x.wr d v t).stag } := by
  unfold Strand.wr
  split <;> rfl

theorem pwr_writes_only (d : PReg) (x : Strand) (v t : Bool) :
    x.pwr d v t = { x with p := (x.pwr d v t).p, ptag := (x.pwr d v t).ptag } := by
  unfold Strand.pwr
  split <;> rfl

/-- Settles O56: each register file reads back by the law of its write (`rd_wr`, `prd_pwr`, `get_set_register`). -/
theorem hardwiredRegisters : Obligations.HardwiredRegisters := by
  unfold Obligations.HardwiredRegisters
  refine ⟨fun x v b t => ⟨rfl, rfl, rfl, rfl, rfl, rfl⟩, fun x d v t hd => ?_, fun x d v t hd => ?_, fun x d v t => ?_,
    fun x d v t => ?_, fun x d v => ?_⟩
  · exact ⟨fun r => ⟨rd_wr hd x v t r, tag_wr hd x v t r⟩, wr_writes_only d x v t⟩
  · exact ⟨fun r => ⟨prd_pwr hd x v t r, pt_pwr hd x v t r⟩, pwr_writes_only d x v t⟩
  · exact ⟨fun r => ⟨get_set_register x.v d r 0 v, get_set_register x.vtag d r 0 t⟩, rfl⟩
  · exact ⟨fun r => ⟨get_set_register x.q d r 0 v, get_set_register x.qtag d r 0 t⟩, rfl⟩
  · exact ⟨fun r => get_set_register x.k d r 0 v, rfl⟩

/-! ## HALT (R43, R45, R80) -/

/-- The strand whose routine HALT has ended. -/
def endedRoutine (s : State) : Strand :=
  { s.me with run := .idle, took := false, uiq := [], fwdq := if s.forwarded then s.me.fwdq.drop 1 else s.me.fwdq, rep := {} }

/-- The state after HALT, which in a trap handler fails the tile with the trap's cause (R43). -/
def halted (s : State) : State :=
  (if s.me.td then (s.setMe (endedRoutine s)).failTile s.curTile 1 s.me.trapcause else s.setMe (endedRoutine s)).updMe
    fun x => { x with issued := true }

/-- HALT issues past the checks, on a follower too, and has its effect. -/
theorem exec_halt {s : State} (h : Clears s (barred Guard.always)) (hu : s.uiOutstanding = false) :
    exec .halt s = .next (halted s) := by
  have heff : State.halt s = .final (if s.me.td then (s.setMe (endedRoutine s)).failTile s.curTile 1 s.me.trapcause
      else s.setMe (endedRoutine s)) := by
    unfold State.halt
    rw [if_neg (by simp [hu])]
    rfl
  change execHalt s = _
  unfold execHalt
  split
  · exact settle_final false rfl heff
  · exact issue_final (clears_as h _) rfl rfl heff

@[simp] theorem myTile_setMe_vote (s : State) (x : Strand) : (s.setMe x).myTile.vote = s.myTile.vote :=
  State.setStrand_tile_vote s _ _ _ x

@[simp] theorem myTile_setMe_mem (s : State) (x : Strand) : (s.setMe x).myTile.mem = s.myTile.mem :=
  State.setStrand_tile_mem s _ _ _ x

theorem tile_setMe_ne (s : State) {u : Nat} (h : u ≠ s.curTile) (x : Strand) : (s.setMe x).tile u = s.tile u :=
  State.tile_setStrand_ne s h _ x

theorem halted_outside_handler {s : State} (htd : s.me.td = false) :
    (halted s).me.run = .idle ∧ (halted s).myTile.vote = s.myTile.vote ∧ (halted s).myTile.mem = s.myTile.mem ∧
      (∀ r, (halted s).me.rd r = s.me.rd r) ∧ OtherTilesSame s (halted s) s.curTile := by
  simp only [halted, htd, Bool.false_eq_true, if_false]
  refine ⟨?_, ?_, ?_, fun r => ?_, fun u hne => ?_⟩
  · simp [endedRoutine]
  · simp
  · simp
  · simp [endedRoutine, Strand.rd]
  · rw [State.tile_updMe_ne _ (by exact hne), tile_setMe_ne s hne]

/-- The strand that HALT has made IDLE stays so when its tile fails. -/
theorem halted_in_handler {s : State} (htd : s.me.td = true) (hns : isSteward s.curTile = false) :
    (halted s).me.run = .idle ∧ (halted s).myTile.vote = s.myTile.vote.raise 1 s.me.trapcause ∧
      (halted s).myTile.seq.failed = true := by
  have hrun : ((s.setMe (endedRoutine s)).strand s.curTile s.curStrand).run = .idle := by
    rw [State.setMe, State.strand_setStrand_self]
    rfl
  obtain ⟨hct, hcs⟩ := failTile_turn (s.setMe (endedRoutine s)) s.curTile hns 1 s.me.trapcause
  obtain ⟨hvote, hfailed⟩ := failTile_vote (s.setMe (endedRoutine s)) s.curTile hns 1 s.me.trapcause
  have hidle := failTile_keeps_idle (s.setMe (endedRoutine s)) s.curTile s.curStrand hns 1 s.me.trapcause hrun
  have hv : ((s.setMe (endedRoutine s)).tile s.curTile).vote = s.myTile.vote := myTile_setMe_vote s _
  rw [halted, htd, if_pos rfl]
  generalize (s.setMe (endedRoutine s)).failTile s.curTile 1 s.me.trapcause = u at *
  change u.curTile = s.curTile at hct
  change u.curStrand = s.curStrand at hcs
  refine ⟨?_, ?_, ?_⟩
  · rw [State.me_updMe, State.me, hct, hcs]
    exact hidle
  · rw [State.updMe_myTile_vote, State.myTile, hct, hvote, hv]
  · rw [State.updMe_myTile_seq, State.myTile, hct, hfailed]

/-! ## YIELD, NOP, FMT (R59, R80) -/

/-- A mask built by setting the bits of the numbers of a list that pass a test. -/
theorem getLsbD_foldl_withBit {w : Nat} (P : Nat → Prop) [DecidablePred P] {k : Nat} (hk : k < w) (l : List Nat) :
    ∀ m : BitVec w, (l.foldl (fun m i => if P i then withBit m i true else m) m).getLsbD k = true ↔
      m.getLsbD k = true ∨ (k ∈ l ∧ P k) := by
  induction l with
  | nil => simp
  | cons i l ih =>
    intro m
    rw [List.foldl_cons, ih]
    by_cases hP : P i
    · rw [if_pos hP, getLsbD_withBit]
      by_cases hi : k = i
      · subst hi; simp [hk, hP]
      · simp [hi]
    · rw [if_neg hP]
      by_cases hi : k = i
      · subst hi; simp [hP]
      · simp [hi]

/-- The mask of the strands that YIELD gives way to: the other READY ones of strands 0 to 3. -/
def readyOthers (s : State) : BitVec 8 :=
  (List.range 4).foldl (fun m k =>
    if k ≠ s.curStrand ∧ (s.strand s.curTile k).run = .ready then withBit m k true else m) 0

theorem getLsbD_readyOthers (s : State) {k : Nat} (hk : k < 8) :
    (readyOthers s).getLsbD k = true ↔ k < 4 ∧ k ≠ s.curStrand ∧ (s.strand s.curTile k).run = .ready := by
  rw [readyOthers, getLsbD_foldl_withBit (fun k => k ≠ s.curStrand ∧ (s.strand s.curTile k).run = .ready) hk]
  simp

theorem exec_yield {s : State} (h : Clears s (barred Guard.always)) :
    exec .yield s = .next (retired s (s.updMe fun x => { x with yieldTo := readyOthers s })) := by
  change execYield s = _
  exact issue_done (clears_as h _) rfl rfl rfl

theorem exec_nop {s : State} (h : Clears s (ordinary Guard.always)) : exec .nop s = .next (retired s s) := by
  change execNop s = _
  exact issue_done (clears_as h _) rfl rfl rfl

theorem exec_fmt {s : State} (minor : BitVec 8) (hpp : s.me.pp = false) (hk : s.curStrand ≠ 4) :
    exec (.fmt minor) s =
      .next ((s.updMe fun x => x.setSt 2 9 (1 + 2 * minor.toNat)).retireAt s.nextOf.1 s.nextOf.2 true) := by
  change execFmt minor s = _
  unfold execFmt
  rw [if_neg (by simp [hpp]), if_neg hk]
  exact settle_done true rfl rfl

/-- PP and PFMT are one field of nine bits, PP the lowest. -/
theorem prefix_setSt (x : Strand) (minor : BitVec 8) :
    (x.setSt 2 9 (1 + 2 * minor.toNat)).pp = true ∧ (x.setSt 2 9 (1 + 2 * minor.toNat)).pfmt = minor.toNat := by
  have hfield : bitsOf (x.setSt 2 9 (1 + 2 * minor.toNat)).status 2 9 = 1 + 2 * minor.toNat :=
    (bitsOf_withBits_self _ _ _ _ (by omega)).trans (Nat.mod_eq_of_lt (by have := minor.isLt; omega))
  constructor
  · show (x.setSt 2 9 (1 + 2 * minor.toNat)).status.toNat.testBit 2 = true
    simp only [bitsOf] at hfield
    rw [Nat.testBit_eq_decide_div_mod_eq]
    simp only [decide_eq_true_eq]
    omega
  · simp only [Strand.pfmt, bitsOf] at *
    omega

theorem fmt_sets_prefix {s : State} (minor : BitVec 8) (hpp : s.me.pp = false) (hk : s.curStrand ≠ 4) :
    ∃ t, exec (.fmt minor) s = .next t ∧
      t = (s.updMe fun x => x.setSt 2 9 (1 + 2 * minor.toNat)).retireAt s.nextOf.1 s.nextOf.2 true ∧
      t.me.pp = true ∧ t.me.pfmt = minor.toNat := by
  refine ⟨_, exec_fmt minor hpp hk, rfl, ?_⟩
  have hst : ((s.updMe fun x => x.setSt 2 9 (1 + 2 * minor.toNat)).retireAt s.nextOf.1 s.nextOf.2 true).me.status =
      (s.me.setSt 2 9 (1 + 2 * minor.toNat)).status := by
    rw [me_retireAt, if_neg (fun hc => hk hc.1), if_pos rfl, State.me_updMe]
  simp only [Strand.pp, Strand.pfmt, hst]
  exact prefix_setSt s.me minor

/-- Settles O10: HALT outside a handler and in one, YIELD, NOP and FMT, each by its own law. -/
theorem haltYieldNopFmt : Obligations.HaltYieldNopFmt := by
  unfold Obligations.HaltYieldNopFmt
  refine ⟨fun s h hu => ⟨halted s, exec_halt h hu, halted_outside_handler, halted_in_handler⟩, fun s h => exec_nop h,
    fun s h => ⟨readyOthers s, exec_yield h, fun k hk => getLsbD_readyOthers s hk⟩,
    fun s minor hpp hk => fmt_sets_prefix minor hpp hk⟩

end Sys2Proof.Proofs
end

section
/-! PROOFS. Entry to a trap's handler, and ERET and ERET.SKIP (R42, R43). -/

namespace Sys2Proof.Proofs

open Sys2Proof.Machine Sys2Proof.Safety Sys2Proof.Laws

/-! ## Entry to the handler (R42) -/

/-- Settles O11: a trap that reaches its handler writes one strand (`takeTrap_handled`), whose STATUS is that of
`enterHandler_bits`. -/
theorem trapEntry : Obligations.TrapEntry := by
  unfold Obligations.TrapEntry
  intro s t k cause pc val x y h hx hy
  have htrap := takeTrap_handled (pc := pc) (val := val) h
  have hyx : y = (x.record cause pc val).enterHandler := by
    rw [hy, hx, htrap, State.strand_setStrand_self]
  obtain ⟨hpriv, hpp, hpfmt, hpp0, hpfmt0, hpriv1, htd, hbits⟩ := enterHandler_bits (x.record cause pc val)
  rw [htrap]
  subst hyx
  refine ⟨rfl, rfl, rfl, rfl, rfl, hpriv, hpp, hpfmt, hpp0, hpfmt0, hpriv1, htd, hbits,
    rfl, rfl, rfl, rfl, rfl, rfl, rfl, rfl, rfl, rfl, rfl, ?_, ?_, ?_, rfl⟩
  · exact fun u j hne => State.strand_setStrand_ne s hne _
  · exact fun u hne => State.tile_setStrand_ne s hne k _
  · exact State.setStrand_tile_mem s t k t _

/-! ## ERET and ERET.SKIP (R43) -/

/-- Where ERET, or ERET.SKIP, goes from a handler that interrupted no repeat. -/
def returnPc (s : State) (skip : Bool) : Pc :=
  if skip then s.myTile.pcAfter s.me.trappc (s.myTile.slotsAt s.me.trappc) else s.me.trappc

theorem trapReturn_lands {s : State} (head : Word) {skip : Bool} (hpriv : s.me.priv ≠ 0) (htd : s.me.td = true)
    (hrep : s.me.rep.active = false) (hb : s.myTile.badTarget (returnPc s skip).toNat = false) :
    s.trapReturn head skip = .goto (s.setMe s.me.leaveHandler) (returnPc s skip) s.me.rep := by
  have hat : s.myTile.repAt s.me.rep s.me.trappc = s.me.rep := by simp [Tile.repAt, hrep]
  have hdest : (if skip then s.me.rep.next (s.myTile.pcAfter s.me.trappc (s.myTile.slotsAt s.me.trappc))
      else (s.me.trappc, s.me.rep)) = (returnPc s skip, s.me.rep) := by
    cases skip <;> simp [returnPc, Rep.next, hrep]
  unfold State.trapReturn
  rw [if_neg (by simp [hpriv, htd])]
  simp only [hat, hdest, hb, Bool.false_eq_true, if_false]

theorem trapReturn_refused {s : State} (head : Word) (skip : Bool) (h : s.me.priv = 0 ∨ s.me.td = false) :
    s.trapReturn head skip = .trap 0x04 head := if_pos h

/-- ERET and ERET.SKIP have no guard and take no prefix: past the checks of a body, of a prefix and of the message context they
have their effect. -/
theorem exec_eret {s : State} (hpp : s.me.pp = false) (hk : s.curStrand ≠ 4) (hrep : s.me.rep.active = true → s.me.td = true) :
    exec .eret s = s.settle { head := 0x7004 } (fun s => s.trapReturn 0x7004 false) true ∧
      exec .eretSkip s = s.settle { head := 0x7005 } (fun s => s.trapReturn 0x7005 true) true := by
  have hbody : ¬ (s.me.rep.active = true ∧ (!s.me.td) = true) := fun hc => by simp [hrep hc.1] at hc
  constructor
  · change execEret s = _
    unfold execEret
    rw [if_neg hbody, if_neg (by simp [hpp]), if_neg hk]
  · change execEretSkip s = _
    unfold execEretSkip
    rw [if_neg hbody, if_neg (by simp [hpp]), if_neg hk]

/-- What the return leaves: STATUS of `leaveHandler_bits`, the registers, and every other tile. -/
theorem returned_spec {s : State} (pc : Pc) (r : Rep) (hk : s.curStrand ≠ 4) (t : State)
    (ht : t = (s.setMe s.me.leaveHandler).retireAt pc r true) :
    t.me.pc = pc ∧ t.me.priv = bitsOf s.me.status 22 2 ∧ t.me.pp = s.me.status.getLsbD 24 ∧
      t.me.pfmt = bitsOf s.me.status 25 8 ∧ t.me.td = false ∧ bitsOf t.me.status 22 11 = 0 ∧
      (∀ i, (11 ≤ i ∧ i ≤ 20) ∨ 33 ≤ i → t.me.status.getLsbD i = s.me.status.getLsbD i) ∧
      t.me.s = s.me.s ∧ t.me.stag = s.me.stag ∧ t.me.run = .ready ∧ OtherTilesSame s t s.curTile := by
  have hme : t.me = { s.me.leaveHandler with
      pc := pc, rep := r, run := .ready, hold := .none, took := false, tested := none
      fwdq := t.me.fwdq, issued := true } := by
    rw [ht, me_retireAt, if_neg (fun hc => hk hc.1), if_pos rfl, State.me_setMe]
  obtain ⟨hpriv, hpp, hpfmt, htd, hsaved, hbits⟩ := leaveHandler_bits s.me
  have hoth : OtherTilesSame s t s.curTile := fun u hne => by
    rw [ht, retireAt_tile_ne _ (by exact hne), tile_setMe_ne s hne]
  rw [hme]
  exact ⟨rfl, hpriv, hpp, hpfmt, htd, hsaved, hbits, rfl, rfl, rfl, hoth⟩

/-- Settles O13: the return lands or is refused (`trapReturn_lands`, `trapReturn_refused`), and what it leaves is
`returned_spec`. -/
theorem trapReturn : Obligations.TrapReturn := by
  unfold Obligations.TrapReturn
  intro s hpp hk
  refine ⟨fun hpriv htd hrep => ⟨fun hb => ?_, fun next hn hb => ?_⟩, fun hrep hlow => ?_⟩
  · have heff := trapReturn_lands (skip := false) 0x7004 hpriv htd hrep hb
    refine ⟨_, ?_, returned_spec s.me.trappc s.me.rep hk _ rfl⟩
    rw [(exec_eret hpp hk fun _ => htd).1]
    exact settle_goto true rfl heff
  · subst hn
    have heff := trapReturn_lands (skip := true) 0x7005 hpriv htd hrep hb
    refine ⟨_, ?_, returned_spec _ s.me.rep hk _ rfl⟩
    rw [(exec_eret hpp hk fun _ => htd).2]
    exact settle_goto true rfl heff
  · obtain ⟨heret, hskip⟩ := exec_eret hpp hk hrep
    rw [heret, hskip]
    exact ⟨settle_trap true (trapReturn_refused _ false hlow), settle_trap true (trapReturn_refused _ true hlow)⟩

end Sys2Proof.Proofs
end

section
/-! PROOFS. What the system registers of the strand and of the tile read, and what a write of each changes (R34-R36, R90). -/

namespace Sys2Proof.Proofs

open Sys2Proof.Machine Sys2Proof.Safety Sys2Proof.Laws

/-! ## The strand's registers (R34, R35) -/

theorem ofNat_toNat_same (x : Word) : BitVec.ofNat 64 x.toNat = x :=
  (BitVec.ofNat_toNat 64 x).trans (BitVec.setWidth_eq x)

theorem sysRead_strand (s : State) (x : Strand) (hx : x = s.me) :
    s.sysRead 0x000 = x.status ∧ s.sysRead 0x001 = x.trappc.setWidth 64 ∧ s.sysRead 0x002 = x.trapcause.setWidth 64 ∧
    s.sysRead 0x003 = x.trapval ∧ s.sysRead 0x004 = x.tvec.setWidth 64 ∧ s.sysRead 0x005 = x.scratchsv ∧
    s.sysRead 0x006 = x.uipc.setWidth 64 ∧ s.sysRead 0x007 = x.xferid.setWidth 64 ∧
    s.sysRead 0x008 = x.routine.setWidth 64 ∧ s.sysRead 0x009 = x.rseq.setWidth 64 ∧
    s.sysRead 0x00A = BitVec.ofNat 64 s.curStrand ∧ s.sysRead 0x00B = BitVec.ofNat 64 s.cycle := by
  subst hx
  exact ⟨ofNat_toNat_same _, BitVec.ofNat_toNat 64 _, BitVec.ofNat_toNat 64 _, ofNat_toNat_same _,
    BitVec.ofNat_toNat 64 _, ofNat_toNat_same _, BitVec.ofNat_toNat 64 _, BitVec.ofNat_toNat 64 _,
    BitVec.ofNat_toNat 64 _, BitVec.ofNat_toNat 64 _, rfl, rfl⟩

/-- A bit after a field has been replaced by the same field of another word. -/
theorem getLsbD_withBits_bitsOf (x v : Word) (lo len : Nat) {i : Nat} (hi : i < 64) :
    (withBits x lo len (bitsOf v lo len)).getLsbD i = if lo ≤ i ∧ i < lo + len then v.getLsbD i else x.getLsbD i := by
  rw [getLsbD_withBits _ _ _ _ _ hi]
  by_cases h : lo ≤ i ∧ i < lo + len
  · rw [if_pos h, if_pos h, bitsOf, Nat.testBit_mod_two_pow, Nat.testBit_div_two_pow, Nat.sub_add_cancel h.1]
    simp only [show i - lo < len by omega, decide_true, Bool.true_and]
    rfl
  · rw [if_neg h, if_neg h]

/-- A write of STATUS by its fields: RM when it is a rounding mode, the flags and UIE, and above user level SPP and SPFMT. -/
theorem writeStatus_bits (x : Strand) (v : Word) {i : Nat} (hi : i < 64) :
    (x.writeStatus v).status.getLsbD i =
      if (11 ≤ i ∧ i ≤ 13 ∧ bitsOf v 11 3 < 6) ∨ (14 ≤ i ∧ i ≤ 19) ∨ (24 ≤ i ∧ i ≤ 32 ∧ 1 ≤ x.priv) then v.getLsbD i
      else x.status.getLsbD i := by
  have hrm : (if bitsOf v 11 3 < 6 then withBits x.status 11 3 (bitsOf v 11 3) else x.status).getLsbD i =
      if 11 ≤ i ∧ i ≤ 13 ∧ bitsOf v 11 3 < 6 then v.getLsbD i else x.status.getLsbD i := by
    by_cases hv : bitsOf v 11 3 < 6
    · rw [if_pos hv, getLsbD_withBits_bitsOf _ _ _ _ hi]
      exact if_congr (by omega) rfl rfl
    · rw [if_neg hv, if_neg (fun hc => hv hc.2.2)]
  have hflags := getLsbD_withBits_bitsOf
    (if bitsOf v 11 3 < 6 then withBits x.status 11 3 (bitsOf v 11 3) else x.status) v 14 6 hi
  rw [hrm] at hflags
  simp only [Strand.writeStatus]
  by_cases hp : 1 ≤ x.priv
  · rw [if_pos hp, getLsbD_withBits_bitsOf _ _ _ _ hi, hflags, ← ite_or, ← ite_or]
    exact if_congr (by omega) rfl rfl
  · rw [if_neg hp, hflags, ← ite_or]
    exact if_congr (by omega) rfl rfl

/-- What a write of the strand's other registers does: nothing at user level, but for UIPC. -/
theorem sysWrite_strand (s : State) (v : Word) (x : Strand) (hx : x = s.me) :
    (1 ≤ x.priv →
      s.sysWrite 0x001 v = s.setMe { x with trappc := v.setWidth 15 } ∧
      s.sysWrite 0x002 v = s.setMe { x with trapcause := v.setWidth 8 } ∧
      s.sysWrite 0x003 v = s.setMe { x with trapval := v } ∧
      s.sysWrite 0x004 v = s.setMe { x with tvec := v.setWidth 15 } ∧
      s.sysWrite 0x005 v = s.setMe { x with scratchsv := v }) ∧
    (x.priv = 0 → ∀ n, n ∈ [1, 2, 3, 4, 5] → s.sysWrite n v = s.setMe x) ∧
    s.sysWrite 0x006 v = s.setMe { x with uipc := v.setWidth 15 } ∧
    (∀ n, n ∈ [7, 8, 9, 10, 11] → s.sysWrite n v = s.setMe x) := by
  have hw : ∀ n, n < 0x0C → s.sysWrite n v = s.setMe (x.writeReg n v) := fun n hn => by
    rw [hx]
    exact if_pos hn
  have hmem : ∀ {n : Nat} {l : List Nat}, n ∈ l → (∀ m ∈ l, m < 0x0C ∧ x.writeReg m v = x) → s.sysWrite n v = s.setMe x :=
    fun hn hl => by rw [hw _ (hl _ hn).1, (hl _ hn).2]
  refine ⟨fun hp => ?_, fun hp n hn => hmem hn ?_, hw 6 (by omega), fun n hn => hmem hn ?_⟩
  · have hup : ¬ x.priv = 0 := by omega
    simp only [hw, Strand.writeReg, hup, if_false, Nat.reduceLT, and_self]
  · simp [Strand.writeReg, hp]
  · by_cases hp : x.priv = 0 <;> simp [Strand.writeReg, hp]

/-! ## The tile's registers (R36, R128, R136, R138, R153, R211, R305, R313, R401) -/

theorem sysRead_tile (s : State) (T : Tile) (hT : T = s.myTile) :
    s.sysRead 0x100 = BitVec.ofNat 64 T.gti ∧ s.sysRead 0x101 = BitVec.ofNat 64 s.curTile ∧ s.sysRead 0x103 = T.ctl.seed ∧
    s.sysRead 0x104 = T.ctl.hkey ∧ s.sysRead 0x105 = T.ctl.memcfg ∧ s.sysRead 0x107 = T.ctl.listptr ∧
    s.sysRead 0x108 = T.ctl.xschedptr ∧ s.sysRead 0x10B = T.chkstat ∧ s.sysRead 0x201 = T.ctl.evbase ∧
    s.sysRead 0x106 = BitVec.ofNat 64 (T.mem.free.length + T.poolSize * 2 ^ 11 + T.mem.low * 2 ^ 22) := by
  subst hT
  exact ⟨rfl, rfl, ofNat_toNat_same _, ofNat_toNat_same _, ofNat_toNat_same _, ofNat_toNat_same _, ofNat_toNat_same _,
    ofNat_toNat_same _, ofNat_toNat_same _, rfl⟩

/-- The registers of a gang's step read 0 on a steward tile. -/
theorem sysRead_gang (s : State) {n : Nat} (hn : n ∈ [0x102, 0x10D, 0x10E, 0x200, 0x300, 0x301, 0x302, 0x303, 0x304]) :
    s.sysRead n = BitVec.ofNat 64 (if isSteward s.curTile then 0 else s.gangRead s.curTile n s.me.priv) := by
  simp only [List.mem_cons, List.not_mem_nil, or_false] at hn
  rcases hn with rfl | rfl | rfl | rfl | rfl | rfl | rfl | rfl | rfl <;> rfl

theorem sysRead_gang_of_tile (s : State) (T : Tile) (hT : T = s.myTile) (hns : isSteward s.curTile = false) :
    s.sysRead 0x102 = T.ctl.sstep.setWidth 64 ∧ s.sysRead 0x300 = BitVec.ofNat 64 T.gang ∧ s.sysRead 0x302 = T.redres ∧
      s.sysRead 0x303 = BitVec.ofNat 64 (T.abortcnt.toNat + T.abortlim.toNat * 2 ^ 8) := by
  have hr : ∀ n, n ∈ [0x102, 0x10D, 0x10E, 0x200, 0x300, 0x301, 0x302, 0x303, 0x304] →
      s.sysRead n = BitVec.ofNat 64 (s.gangRead s.curTile n s.me.priv) := fun n hn => by
    rw [sysRead_gang s hn, if_neg (by simp [hns])]
  subst hT
  rw [hr _ (by simp), hr _ (by simp), hr _ (by simp), hr _ (by simp)]
  exact ⟨BitVec.ofNat_toNat 64 _, rfl, ofNat_toNat_same _, rfl⟩

theorem sysRead_gang_of_steward (s : State) (hst : isSteward s.curTile = true) {n : Nat}
    (hn : n ∈ [0x102, 0x10D, 0x10E, 0x200, 0x300, 0x301, 0x302, 0x303, 0x304]) : s.sysRead n = 0 := by
  rw [sysRead_gang s hn, if_pos hst]
  rfl

/-- HKEY's writable fields, 9:0 and 31:16, as the mask that keeps them. -/
theorem getLsbD_hkey_mask {i : Nat} (hi : i < 64) :
    (0xFFFF03FF : Word).getLsbD i = (decide (i ≤ 9) || (decide (16 ≤ i) && decide (i ≤ 31))) := by
  revert i
  decide

/-- A write of a field of the tile's control context changes that field and nothing else of the machine. -/
theorem tileWrite_ctl (s : State) (v : Word) (T : Tile) (hT : T = s.myTile) :
    s.sysWrite 0x103 v = s.setTile s.curTile { T with ctl := { T.ctl with seed := v } } ∧
    s.sysWrite 0x104 v = s.setTile s.curTile { T with ctl := { T.ctl with hkey := v &&& 0xFFFF03FF } } ∧
    s.sysWrite 0x107 v = s.setTile s.curTile { T with ctl := { T.ctl with listptr := v &&& 0xFFFFFF } } ∧
    s.sysWrite 0x108 v = s.setTile s.curTile { T with ctl := { T.ctl with xschedptr := v &&& 0x3FFFF } } ∧
    s.sysWrite 0x10C v = s.setTile s.curTile { T with ctl := { T.ctl with plbctl := v &&& 0x1FFFF } } := by
  subst hT
  exact ⟨rfl, rfl, rfl, rfl, rfl⟩

theorem sysWrite_budget (s : State) (v : Word) (T : Tile) (hT : T = s.myTile) (hns : isSteward s.curTile = false) :
    s.sysWrite 0x10D v =
      s.setTile s.curTile { T with ctl := { T.ctl with budget := withBits T.ctl.budget 0 24 (bitsOf v 0 24) } } := by
  have hw : s.sysWrite 0x10D v = if isSteward s.curTile then s else
      s.setTile s.curTile { s.myTile with ctl := { s.myTile.ctl with budget := withBits s.myTile.ctl.budget 0 24 (bitsOf v 0 24) } } := rfl
  rw [hw, if_neg (by simp [hns]), hT]

theorem sysWrite_budget_steward (s : State) (v : Word) (hst : isSteward s.curTile = true) : s.sysWrite 0x10D v = s :=
  if_pos hst

/-- EVBASE takes an address of the upper half of cluster space only (R237). -/
theorem sysWrite_evbase (s : State) (v : Word) (T : Tile) (hT : T = s.myTile) :
    (bitsOf v 12 10 < 0x380 → s.sysWrite 0x201 v = s) ∧
    (0x380 ≤ bitsOf v 12 10 →
      s.sysWrite 0x201 v = s.setTile s.curTile { T with ctl := { T.ctl with evbase := v &&& 0x3FF000 } }) := by
  have hw : s.sysWrite 0x201 v = if bitsOf v 12 10 < 0x380 then s else
      s.setTile s.curTile { s.myTile with ctl := { s.myTile.ctl with evbase := v &&& 0x3FF000 } } := rfl
  rw [hw, hT]
  exact ⟨fun h => if_pos h, fun h => if_neg (Nat.not_lt.2 h)⟩

/-! ## QSLOTMAP (R346) -/

/-- A mask gathered from the masks of all but one of some numbers has each of their bits. -/
theorem getLsbD_foldl_or {w : Nat} (f : Nat → BitVec w) (p b : Nat) (l : List Nat) : ∀ m : BitVec w,
    (m.getLsbD b = true ∨ ∃ i ∈ l, i ≠ p ∧ (f i).getLsbD b = true) →
      (l.foldl (fun m i => if i = p then m else m ||| f i) m).getLsbD b = true := by
  induction l with
  | nil => simp
  | cons j l ih =>
    intro m h
    rw [List.foldl_cons]
    apply ih
    rcases h with hm | ⟨i, hi, hip, hb⟩
    · left
      by_cases hj : j = p <;> simp [hj, hm]
    · rcases List.mem_cons.1 hi with rfl | hi
      · left
        simp [hip, hb]
      · exact Or.inr ⟨i, hi, hip, hb⟩

/-- Two masks that meet have a bit in common. -/
theorem exists_getLsbD_of_and_ne_zero {w : Nat} {x y : BitVec w} (h : x &&& y ≠ 0) :
    ∃ b, x.getLsbD b = true ∧ y.getLsbD b = true := by
  by_contra hc
  refine h (BitVec.eq_of_getLsbD_eq fun b _ => ?_)
  rw [BitVec.getLsbD_and, BitVec.ofNat_eq_ofNat, BitVec.getLsbD_zero, Bool.and_eq_false_iff, ← Bool.not_eq_true,
    ← Bool.not_eq_true, ← not_and_or]
  exact fun hb => hc ⟨b, hb⟩

/-- The slots that partitions other than p have. -/
def otherSlots (s : State) (p : Nat) : BitVec 64 :=
  (List.range 64).foldl (fun m i => if i = p then m else m ||| (s.part i).qslotmap) 0

theorem sysWrite_qslotmap (s : State) (v : Word) :
    s.sysWrite 0x404 v = if v &&& otherSlots s s.pkg.partid.toNat = 0 then
      s.updPart s.pkg.partid.toNat fun x => { x with qslotmap := v } else s := rfl

/-- QSLOTMAP refuses a slot that another partition has. -/
theorem sysWrite_qslotmap_refused (s : State) (v : Word) (p : Nat) (hp : p = s.pkg.partid.toNat)
    (h : ∃ q, q < 64 ∧ q ≠ p ∧ (s.part q).qslotmap &&& v ≠ 0) : s.sysWrite 0x404 v = s := by
  obtain ⟨q, hq, hqp, hmeet⟩ := h
  obtain ⟨b, hb, hvb⟩ := exists_getLsbD_of_and_ne_zero hmeet
  have hothers : (otherSlots s p).getLsbD b = true :=
    getLsbD_foldl_or (fun i => (s.part i).qslotmap) p b _ 0 (Or.inr ⟨q, List.mem_range.2 hq, hqp, hb⟩)
  rw [sysWrite_qslotmap, ← hp, if_neg]
  intro hz
  have hbit := congrArg (·.getLsbD b) hz
  simp [hvb, hothers] at hbit

/-! ## The obligation -/

/-- Settles O15: what each register reads and takes, by the laws above for the strand's and for the tile's. -/
theorem systemRegisters : Obligations.SystemRegisters := by
  unfold Obligations.SystemRegisters
  refine ⟨fun s v x hx => ?_, fun s v T hT => ?_⟩
  · obtain ⟨h0, h1, h2, h3, h4, h5, h6, h7, h8, h9, hA, hB⟩ := sysRead_strand s x hx
    have hstatus : s.sysWrite 0x000 v = s.setMe (x.writeStatus v) := by rw [hx]; rfl
    refine ⟨h0, h1, h2, h3, h4, h5, h6, h7, h8, h9, hA, hB, fun i hi => ?_, sysWrite_strand s v x hx⟩
    rw [hstatus, State.me_setMe]
    exact writeStatus_bits x v hi
  · obtain ⟨r100, r101, r103, r104, r105, r107, r108, r10B, r201, r106⟩ := sysRead_tile s T hT
    obtain ⟨w103, w104, w107, w108, w10C⟩ := tileWrite_ctl s v T hT
    obtain ⟨hlow, hhigh⟩ := sysWrite_evbase s v T hT
    refine ⟨r100, r101, r103, r104, r105, r107, r108, r10B, r201, r106, sysRead_gang_of_tile s T hT, fun hst => ?_, w103,
      ⟨_, w104, fun i hi => ?_⟩, sysWrite_budget_steward s v, fun hns => ⟨_, sysWrite_budget s v T hT hns, fun i hi => ?_⟩,
      w107, w108, w10C, hlow, hhigh, sysWrite_qslotmap_refused s v⟩
    · have hr := fun n hn => sysRead_gang_of_steward s hst (n := n) hn
      exact ⟨hr _ (by simp), hr _ (by simp), hr _ (by simp), hr _ (by simp), hr _ (by simp), hr _ (by simp), hr _ (by simp),
        hr _ (by simp), hr _ (by simp)⟩
    · rw [BitVec.getLsbD_and, getLsbD_hkey_mask hi, Bool.and_comm]
    · rw [getLsbD_withBits_bitsOf _ _ _ _ hi]
      exact if_congr (by omega) rfl rfl

end Sys2Proof.Proofs
end

section
/-! PROOFS. Semaphores, poison repair, parking and waking (R38, R39, R92-R94). -/

namespace Sys2Proof.Proofs

open Sys2Proof.Machine Sys2Proof.Safety Sys2Proof.Laws

/-! ## Issue below a privilege level (R60) -/

/-- What is outside the restricted set of R227 does not clear the checks in the message context. -/
theorem clears_not_message {s : State} {i : Info} (h : Clears s i) (hm : i.msgOk = false) : s.curStrand ≠ 4 := by
  intro hk
  obtain ⟨-, -, -, -, hctx, -⟩ := h
  have := (hctx hk).1
  simp [hm] at this

/-- An instruction that clears every check but that of its privilege level traps PRIVILEGE. -/
theorem issue_below_level {s : State} {i : Info} {body : Nat → Nat → State → Eff} (h : Clears s { i with priv := 0 })
    (hk : s.curStrand ≠ 4) (hp : s.me.priv < i.priv) :
    s.issue i body = .next (traps s 0x04 (BitVec.ofNat 64 i.head)) := by
  obtain ⟨hbody, hprefix, hpoison, hoff, -, -⟩ := h
  have hb : (s.me.rep.active && !s.me.td && !i.bodyOk) = false := by
    cases ha : s.me.rep.active
    · rfl
    · cases ht : s.me.td
      · rw [show i.bodyOk = true from hbody ha ht]; rfl
      · rfl
  have hpre : s.me.prefixMisuse i = false := hprefix
  simp only [State.issue, hb, hpre, hpoison, hoff, hk, hp, decide_false, Bool.false_and, Bool.false_eq_true, if_false, if_true,
    traps]

/-! ## Semaphores (R57, R93) -/

theorem sub_ofNat_16 {x : BitVec 16} {n : BitVec 8} (h : n.toNat ≤ x.toNat) :
    x - BitVec.ofNat 16 n.toNat = BitVec.ofNat 16 (x.toNat - n.toNat) := by
  have hn := n.isLt
  apply BitVec.eq_of_toNat_eq
  simp only [BitVec.toNat_sub, BitVec.toNat_ofNat]
  omega

section
variable {s : State} {g : Guard}

theorem semwait_met {m n : BitVec 8} (h : Clears s (ordinary g)) (hn : n.toNat ≤ (s.myTile.sem m.toNat).toNat) :
    exec (.semwait g m n) s = .next (retired s (s.setTile s.curTile
      (s.myTile.setSem m.toNat (BitVec.ofNat 16 ((s.myTile.sem m.toNat).toNat - n.toNat))))) := by
  change execSemwait g m n s = _
  rw [← sub_ofNat_16 hn]
  exact issue_done (clears_as h _) rfl rfl (if_pos hn)

theorem semwait_waits {m n : BitVec 8} (h : Clears s (ordinary g)) (hn : (s.myTile.sem m.toNat).toNat < n.toNat) :
    exec (.semwait g m n) s = .next (s.updMe fun x => { x with run := .parked .sem }) := by
  change execSemwait g m n s = _
  exact issue_park (clears_as h _) rfl (if_neg (Nat.not_le.2 hn))

theorem semrd_reads (d : SReg) (m : BitVec 8) (h : Clears s (ordinary g)) :
    exec (.semrd g d m) s = .next (regResult s d ((s.myTile.sem m.toNat).setWidth 64) false) := by
  change execSemrd g d m s = _
  exact issue_done (clears_as h _) rfl rfl rfl

theorem semsig_adds {m n : BitVec 8} (h : Clears s { ordinary g with msgOk := true })
    (hn : (s.myTile.sem m.toNat).toNat + n.toNat ≤ 65535) :
    exec (.semsig g m n) s = .next (retired s (s.setTile s.curTile
      (s.myTile.setSem m.toNat (BitVec.ofNat 16 ((s.myTile.sem m.toNat).toNat + n.toNat))))) := by
  change execSemsig g m n s = _
  refine issue_done (clears_as h _) rfl rfl (if_neg ?_)
  simpa [Tile.semOver] using hn

theorem semsig_overflows {m n : BitVec 8} (h : Clears s { ordinary g with msgOk := true })
    (hn : 65535 < (s.myTile.sem m.toNat).toNat + n.toNat) :
    exec (.semsig g m n) s = .next (traps s 0x14 (m.setWidth 64)) := by
  change execSemsig g m n s = _
  refine issue_trap (clears_as h _) rfl (if_pos ?_)
  simpa [Tile.semOver] using hn

/-! ## PCLR (R92) -/

/-- At supervisor level the checks of PCLR are those of an ordinary instruction. -/
theorem clears_supervisor (h : Clears s (ordinary g)) (hp : 1 ≤ s.me.priv) (head : Nat) :
    Clears s { head := head, guard := g, priv := 1 } := by
  obtain ⟨h1, h2, h3, h4, h5, -⟩ := h
  exact ⟨h1, h2, h3, h4, h5, hp⟩

theorem pclr_at_level (d : SReg) (v : VReg) (h : Clears s (ordinary g)) (hp : 1 ≤ s.me.priv) :
    exec (.pclr g d) s = .next (regResult s d (s.me.rd d) false) ∧
      exec (.pclrVector g v) s = .next (retired s (s.updMe fun x => x.vwr v (x.vrd v) 0)) := by
  constructor
  · change execPclr g d s = _
    exact issue_done (clears_supervisor h hp _) rfl rfl rfl
  · change execPclrVector g v s = _
    exact issue_done (clears_supervisor h hp _) rfl rfl rfl

theorem pclr_below_level (d : SReg) (v : VReg) (h : Clears s (ordinary g)) (hp : s.me.priv = 0) :
    exec (.pclr g d) s = .next (traps s 0x04 0x7106) ∧ exec (.pclrVector g v) s = .next (traps s 0x04 0x7107) := by
  have hk := clears_not_message h rfl
  constructor
  · change execPclr g d s = _
    exact issue_below_level (clears_as h _) hk (by rw [hp]; exact Nat.one_pos)
  · change execPclrVector g v s = _
    exact issue_below_level (clears_as h _) hk (by rw [hp]; exact Nat.one_pos)

end

/-! ## PARK and WAKE (R38, R39, R94, R99, R227) -/

theorem park_takes_token {s : State} (h : Clears s (ordinary Guard.always)) (hwt : s.me.wt = true) :
    exec .park s = .next (retired s (s.updMe fun x => x.setWt false)) := by
  change execPark s = _
  exact issue_done (clears_as h _) rfl rfl (if_pos hwt)

theorem park_parks {s : State} (h : Clears s (ordinary Guard.always)) (hwt : s.me.wt = false) :
    exec .park s = .next (s.updMe fun x => { x with run := .parked .park, took := false, issued := true }) := by
  change execPark s = _
  exact issue_parked (clears_as h _) rfl rfl (if_neg (by simp [hwt]))

theorem exec_wake {s : State} {g : Guard} (n : BitVec 2) (h : Clears s { ordinary g with msgOk := true }) :
    exec (.wake g n) s = .next (retired s (s.wakeStrand s.curTile n.toNat)) := by
  change execWake g n s = _
  exact issue_done (clears_as h _) rfl rfl rfl

theorem wakeStrand_of_ended {s : State} {t k : Nat} {run : Run} (hr : (s.strand t k).run = run)
    (h : run = .idle ∨ run = .stopped) : s.wakeStrand t k = s := by
  unfold State.wakeStrand
  rcases h with rfl | rfl <;> simp only [hr]

theorem wakeStrand_of_live {s : State} {t k : Nat} {run : Run} (hr : (s.strand t k).run = run)
    (h : run = .ready ∨ ∃ w, run = .parked w ∧ w ≠ .park) : s.wakeStrand t k = s.updStrand t k fun x => x.setWt true := by
  unfold State.wakeStrand
  rcases h with rfl | ⟨w, rfl, hw⟩
  · simp only [hr]
  · cases w
    case park => exact absurd rfl hw
    all_goals simp only [hr]

/-- A strand as the end of its PARK leaves it, at a PC with a repeat state and the rest of its leader's forwards. -/
def wokenAt (x : Strand) (go : Pc × Rep) (rest : List Fwd) : Strand :=
  { x.clearPrefix with
    pc := go.1, rep := go.2, run := .ready, hold := .none, took := false, tested := none, fwdq := rest, issued := true }

/-- Outside the message context a retirement writes the strand that has the turn and nothing else. -/
theorem retireAt_eq_setMe (s : State) (go : Pc × Rep) (hk : s.curStrand ≠ 4) :
    s.retireAt go.1 go.2 false = s.setMe (wokenAt s.me go (if s.forwarded then s.me.fwdq.drop 1 else s.me.fwdq)) := by
  unfold State.retireAt State.updMe
  simp only [hk, false_and, if_false]
  rfl

/-- The woken strand's PARK retires as if the strand had the turn: only that strand changes. -/
theorem wakeStrand_of_park {s : State} {t k : Nat} {x : Strand} {seq : Pc} {rest : List Fwd} {go : Pc × Rep} (hk : k < 4)
    (hr : (s.strand t k).run = .parked .park) (hx : x = s.strand t k)
    (hseq : if (s.tile t).follower = true ∧ x.listRoutine = true then ∃ f, x.fwdq = f :: rest ∧ seq = f.seq
      else seq = (s.tile t).pcAfter x.pc ((s.tile t).slotsAt x.pc) ∧ rest = x.fwdq)
    (hgo : go = if x.td then (seq, x.rep) else x.rep.next seq) :
    s.wakeStrand t k = s.setStrand t k (wokenAt x go rest) := by
  have hk4 : k ≠ 4 := by omega
  have hforwarded : State.forwarded { s with curTile := t, curStrand := k } = ((s.tile t).follower && x.listRoutine) := by
    rw [hx]
    show ((s.tile t).follower && decide (k < 4) && !(s.strand t k).routine.getLsbD 15) = _
    rw [decide_eq_true hk, Bool.and_true]
    rfl
  have hnext : State.seqPc { s with curTile := t, curStrand := k } = seq ∧
      (if (s.tile t).follower && x.listRoutine then x.fwdq.drop 1 else x.fwdq) = rest := by
    unfold State.seqPc
    simp only [hk4, if_false, hforwarded]
    by_cases hf : (s.tile t).follower = true ∧ x.listRoutine = true
    · rw [if_pos hf] at hseq
      obtain ⟨f, hq, rfl⟩ := hseq
      have hme : (State.me { s with curTile := t, curStrand := k }).fwdq = f :: rest := by rw [← hq, hx]; rfl
      simp [hf, hq, hme]
    · rw [if_neg hf] at hseq
      obtain ⟨rfl, rfl⟩ := hseq
      have hf' : ((s.tile t).follower && x.listRoutine) = false := by
        rw [← Bool.not_eq_true, Bool.and_eq_true]
        exact hf
      rw [hf', hx]
      exact ⟨rfl, rfl⟩
  have hnextOf : State.nextOf { s with curTile := t, curStrand := k } = go := by
    rw [hgo, hx, ← hnext.1]
    rfl
  have hwake : s.wakeStrand t k = s.retireHeld t k Sync.none := by
    unfold State.wakeStrand
    simp only [hr]
  have hretire := retireAt_eq_setMe { s with curTile := t, curStrand := k } go hk4
  rw [hforwarded] at hretire
  rw [hwake, ← hnext.2, hx]
  unfold State.retireHeld
  simp only [hnextOf]
  rw [show ∀ w : State, w.signalMe Sync.none = w from fun _ => rfl, hretire, hx]
  rfl

/-- Settles O16: each instruction by its own law; a wake of a strand parked by PARK is `wakeStrand_of_park`. -/
theorem semaphoresAndWaking : Obligations.SemaphoresAndWaking := by
  unfold Obligations.SemaphoresAndWaking
  refine ⟨fun s g d v m n h => ?_, fun s g m n h => ⟨semsig_adds h, semsig_overflows h⟩, fun s g n => ⟨fun h => ?_, fun h => ?_⟩⟩
  · exact ⟨semwait_met h, semwait_waits h, semrd_reads d m h, pclr_at_level d v h, pclr_below_level d v h⟩
  · exact ⟨park_takes_token h, park_parks h⟩
  · rw [exec_wake n h]
    rintro run hr
    refine ⟨fun he => ?_, fun hl => ?_, fun hready hme => ?_, ?_⟩
    · rw [wakeStrand_of_ended hr he]
    · rw [wakeStrand_of_live hr hl]
    · rw [wakeStrand_of_live hr (Or.inl hready), hme]
      rfl
    · rintro rfl - x seq rest hx hseq go hgo
      rw [wakeStrand_of_park n.isLt hr hx hseq hgo]
      rfl

end Sys2Proof.Proofs
end

section
/-! PROOFS. The machine at package reset (R34, R35, R128, R345, R346). -/

namespace Sys2Proof.Proofs

open Sys2Proof.Machine Sys2Proof.Safety Sys2Proof.Laws

/-! ## The reset tile's frames (R128, R129, R136) -/

theorem tile_reset (t : Nat) : State.reset.tile t = {} := rfl

theorem strand_reset (t k : Nat) : State.reset.strand t k = Strand.reset (resetPriv t k) := rfl

/-- MEMCFG after reset makes segments 12 and 13 the pool. -/
theorem attrOf_reset_pool {i : Nat} (h : 12 ≤ i ∧ i < 14) : attrOf memcfgReset i = .d := by
  obtain ⟨h1, h2⟩ := h
  interval_cases i <;> rfl

/-- The data lines of the reset tile are those of segments 0 to 11. -/
theorem dataLine_reset {l : Nat} (hl : l < 1792) (h : dataLine {} l = true) : l < 1536 := by
  by_contra hc
  have hregion : Tile.region {} (0x8000 + 128 * l) = .seg .d ∨ Tile.region {} (0x8000 + 128 * l) = .none := by
    unfold Tile.region
    rw [if_neg (by omega), if_pos (by omega)]
    have hseg : segOf (0x8000 + 128 * l) = l / 128 := by unfold segOf; omega
    rw [hseg, attrOf_reset_pool (by omega)]
    split
    · exact Or.inl rfl
    · exact Or.inr rfl
  unfold dataLine at h
  rcases hregion with hr | hr <;> rw [hr] at h <;> cases h

theorem framesOk_reset : FramesOk {} := by
  have hmap : (dataLines {}).map (TMem.frameOf {}) = dataLines {} :=
    (List.map_congr_left fun l _ => show TMem.frameOf {} l = l from rfl).trans (List.map_id _)
  refine ⟨List.Pairwise.nil, fun x hx => absurd hx List.not_mem_nil, ?_⟩
  show ((dataLines {}).map (TMem.frameOf {}) ++ [] ++ (List.range 256).map (· + 1536)).Nodup
  rw [hmap, List.append_nil, List.nodup_append]
  refine ⟨List.nodup_range.filter _, List.nodup_range.map fun a b h => by omega, fun l hl f hf => ?_⟩
  obtain ⟨hlr, hd⟩ := List.mem_filter.1 hl
  obtain ⟨j, -, rfl⟩ := List.mem_map.1 hf
  have := dataLine_reset (List.mem_range.1 hlr) hd
  omega

/-! ## Partitions (R345, R346) -/

theorem part_reset (p : Nat) : State.reset.part p = Part.reset p := rfl

/-- Partition p below 16 has the four slots from 4p on. -/
theorem getLsbD_qslotmap_reset {p q : Nat} (hq : q < 64) :
    (State.reset.part p).qslotmap.getLsbD q = true ↔ p < 16 ∧ q / 4 = p := by
  rw [part_reset]
  unfold Part.reset
  by_cases hp : p < 16
  · have h15 : Nat.testBit 15 (q - 4 * p) = decide (q - 4 * p < 4) := Nat.testBit_two_pow_sub_one 4 _
    simp only [hp, if_true, BitVec.getLsbD_ofNat, hq, decide_true, Bool.true_and, Nat.testBit_shiftLeft, h15, Bool.and_eq_true,
      decide_eq_true_eq, true_and]
    omega
  · simp [hp]

/-- Settles O57: the reset state lists nothing, so every field reads as its default. -/
theorem resetState : Obligations.ResetState := by
  unfold Obligations.ResetState
  refine ⟨rfl, rfl, rfl, rfl, rfl, rfl, fun a => rfl, fun t => ?_, fun t k => ⟨rfl, rfl, rfl⟩, fun p => ⟨rfl, rfl, rfl⟩,
    fun p q _ hq => getLsbD_qslotmap_reset hq⟩
  exact ⟨rfl, rfl, rfl, rfl, rfl, rfl, rfl, ⟨rfl, rfl⟩, framesOk_reset⟩

end Sys2Proof.Proofs
end

section
/-! PROOFS. QCBSV beside a job that another partition's queue has started (R371, R381): the model counts a completion to the queue
whose slot the job held (`Done.qpart`), the statement to the partition of the job itself (`Done.part`). -/

namespace Sys2Proof.Proofs

open Sys2Proof.Machine Sys2Proof.Safety Sys2Proof.Laws

/-- Slot 0 holds queue 0 of partition 1. -/
def queueOne : Slot := { Slot.ofQcb [] 0 with part := 1 }

/-- A job of partition 1, placed nowhere, that waits for its completion: it came from queue 0 of partition 2. -/
def foreignDone : Done :=
  { job := 0, complva := none, part := 1, status := 0, cause := 0, sstep := 0, gang := 0, parent := 0, hmsg := none,
    qid := some 0, qpart := 2 }

/-- A steward strand with these in the dispatcher, and no page mapped. -/
def foreignState : State := { State.reset with disp := { slots := [(0, queueOne)], done := [foreignDone] } }

theorem foreignState_clears : Clears foreignState (privileged Guard.always 3) := by
  unfold Clears
  decide

/-- The queue of partition 1 has no job that has not ended, so QCBSV goes on to its write, whose page is not mapped: code 4. -/
theorem exec_qcbsv_foreignState :
    exec (.qcbsv Guard.always 1 0 0) foreignState = .next (answers foreignState foreignState 1 4) := by
  change execQcbsv Guard.always 1 0 0 foreignState = _
  exact issue_done (clears_as foreignState_clears _) rfl rfl rfl

theorem answers_rd (s u : State) {d : SReg} (hd : d ≠ 0) (c : Word) : (answers s u d c).me.rd d = c := by
  rw [answers, retired, retireAt_rd, State.me_updMe, rd_wr hd, if_pos rfl]

/-- Refutes O48, in its clause on QCBSV: the clause asks for answer 2 whenever a job of the queue's partition and with the queue's
number waits for its completion unplaced, though the job held the slot of another partition's queue. -/
theorem not_steward : ¬ Obligations.Steward := by
  unfold Obligations.Steward
  rintro ⟨-, -, -, hqcbsv, -⟩
  have hcode := (hqcbsv foreignState Guard.always 1 0 0 0 foreignState_clears rfl rfl rfl rfl).2.1 queueOne rfl
    (Or.inr ⟨foreignDone, List.mem_singleton.2 rfl, rfl, rfl, rfl⟩)
  rw [exec_qcbsv_foreignState] at hcode
  have hrd := congrArg (·.me.rd 1) (Host.Outcome.next.inj hcode)
  simp only [answers_rd _ _ (show (1 : SReg) ≠ 0 by decide)] at hrd
  cases hrd

end Sys2Proof.Proofs
end

section
/-! PROOFS. MESSAGE_START of a routine that traps at once on a steward tile (R226, R401): the trap resets the tile, its mail
with it. -/

namespace Sys2Proof.Proofs

open Sys2Proof.Machine Sys2Proof.Safety Sys2Proof.Laws

/-- A message of KIND 0 whose routine starts at PC 0, which R51 rejects. -/
def badRoutineMsg : Msg := { desc := 0, sender := 0, routine := 0, seq := 0 }

/-- A steward tile in its compute phase, with two such messages waiting and no trap handler. -/
def mailedSteward : Tile := { seq := { phase := .compute }, mail := [badRoutineMsg, badRoutineMsg] }

/-- The package with that tile. -/
def mailedState : State := State.reset.setTile 4624 mailedSteward

/-- Strand 0 as the dispatch of the first message leaves it, before the trap of its PC. -/
def dispatchedState : State :=
  (mailedState.updTile 4624 fun T => T.takeMsg false).updStrand 4624 0 fun x => x.dispatched 0 0 0xC000 0 0

theorem mailedState_tile : mailedState.tile 4624 = mailedSteward := State.tile_setTile_self _ _ _

theorem badRoutineMsg_field (lo len : Nat) : bitsOf badRoutineMsg.desc lo len = 0 := by
  unfold bitsOf
  rw [show badRoutineMsg.desc = 0#512 from rfl, BitVec.toNat_zero, Nat.zero_div, Nat.zero_mod]

theorem mailedState_idle : mailedState.idleStrand 4624 = some 0 := by
  unfold State.idleStrand State.strand
  rw [mailedState_tile]
  rfl

/-- Slot 0 lies below PC 0x80, so no tile takes it as a target. -/
theorem badTarget_zero (T : Tile) : T.badTarget (0#15).toNat = true := by
  simp [Tile.badTarget, pcSlot]

theorem exec_messageStart (t : Nat) (s : State) : exec (.messageStart t) s = execMessageStart t s := rfl

theorem exec_messageStart_mailedState :
    exec (.messageStart 4624) mailedState = .next (dispatchedState.takeTrap 4624 0 0x03 0 0) := by
  have hnext : (mailedState.tile 4624).nextMsg = some (false, badRoutineMsg) := by rw [mailedState_tile]; rfl
  rw [exec_messageStart]
  unfold execMessageStart
  rw [if_neg (by rw [mailedState_tile]; simp [mailedSteward])]
  simp only [hnext, badRoutineMsg_field, if_true, mailedState_idle]
  rw [if_neg (by rw [mailedState_tile]; simp [mailedSteward])]
  unfold State.dispatchTo
  rw [if_pos (by rw [badTarget_zero, Bool.and_true]), State.tile_updTile_self, mailedState_tile]
  rfl

/-- The trap finds no handler, so the tile is as the boot ROM starts it: without mail. -/
theorem mail_after_trap : ((dispatchedState.takeTrap 4624 0 0x03 0 0).tile 4624).mail = [] := by
  have hu : Unvectored dispatchedState 4624 0 0x03 := by
    refine Or.inr (Or.inr (Or.inl ?_))
    rw [dispatchedState, State.strand_updStrand_self]
    rfl
  rw [takeTrap_unvectored hu, (stopStrand_steward _ _ _ _ rfl).1]
  rfl

/-- Refutes O45, in its last clause, which asks that the other mail be left: it says so of every tile, and the reset of a steward
tile leaves none. -/
theorem not_startAndDispatch : ¬ Obligations.StartAndDispatch := by
  unfold Obligations.StartAndDispatch
  rintro ⟨-, -, hmessage⟩
  obtain ⟨u, hexec, -, hmail⟩ := (hmessage mailedState 4624 false badRoutineMsg (by rw [mailedState_tile]; rfl) (by rw [mailedState_tile]; rfl)).2.2
    (fun _ => ⟨by rw [mailedState_tile]; rfl, by rw [mailedState_idle]; rfl⟩)
    (fun hk => absurd (badRoutineMsg_field 0 2) hk)
  rw [exec_messageStart_mailedState] at hexec
  have hleft := hmail rfl
  rw [← Host.Outcome.next.inj hexec, mail_after_trap, mailedState_tile] at hleft
  cases hleft

end Sys2Proof.Proofs
end

section
/-! PROOFS. A transfer whose wait is taken over a list of tiles that is out of order (R206, R314). -/

namespace Sys2Proof.Proofs

open Sys2Proof.Machine Sys2Proof.Safety Sys2Proof.Laws

/-- The body of an instruction that would retire, and that traps once its wait has been subtracted, traps. -/
theorem settle_done_then_trap {s s' : State} {i : Info} {body : State → Eff} {c : Nat} {v : Word} {keep : Bool} (hbefore : body s = .done s')
    (hwait : s.waitMet i.sync = true) (hsig : i.sigNow = false) (hafter : body (s.takeWait i.sync) = .trap c v) :
    s.settle i body keep = .next (s.trapMe c s.me.pc v) := by
  simp [State.settle, hbefore, hafter, hwait, hsig]

/-- A wait for a count of 0, which every semaphore meets. -/
def zeroWait : Sync := { Sync.none with wen := true }

/-- A transfer in the queue that holds all but two units of the package's release queue. -/
def largeXfer : Xfer :=
  { dir := 0, offset := 0x8000, len := 8, view := 0, strand := 0, uipc := 0, va := 0, sy := Sync.none, id := 0, routine := 0, tag := 0,
    begun := false, slot := none, units := 2 ^ 20 - 2, moved := [], ord := 0 }

/-- A tile with that transfer, whose strand 0 has the operands of a PUT of 8 bytes from 0x8000 to virtual address 0. -/
def puttingTile : Tile := { strands := [(0, { s := [(1, 0x8000), (2, 8)], run := .ready })], xq := [largeXfer], xtag := 1 }

/-- Virtual address 0 is mapped to the second tier (root table at 0x20000, leaf at 0x30000). The list of tiles is out of the order of its
keys, so that a write of tile 5 enters it before tile 9 and its old entry stays: its queue is then counted twice. -/
def puttingState : State :=
  { curTile := 5, tiles := [(9, {}), (5, puttingTile)], parts := [(0, { Part.reset 0 with root := 0x20000, rquota := 2 ^ 31 })],
    mem := [⟨0x20000, 1⟩, ⟨0x20004, 3⟩, ⟨0x30000, 0x2F⟩] }

theorem puttingState_clears : Clears puttingState (ordinary Guard.always) := by
  unfold Clears
  exact ⟨fun _ _ => rfl, rfl, rfl, rfl, fun h => absurd h (by decide), Nat.zero_le _⟩

/-- The first evaluation of the PUT finds that its two units fit. -/
theorem put_enqueues : ∃ u, puttingState.transfer ⟨0, true, false⟩ 1 0 2 0 zeroWait = .done u := ⟨_, rfl⟩

/-- The second, made once the wait has been subtracted, counts the queued transfer twice. -/
theorem put_over_quota : (puttingState.takeWait zeroWait).transfer ⟨0, true, false⟩ 1 0 2 0 zeroWait = .trap 0x19 0 := rfl

theorem exec_put (g : Guard) (x y z : SReg) (sy : Sync) (s : State) :
    exec (.put g x y z sy) s = s.issue (xferInfo 0xEB00 g sy) fun _ _ s => s.transfer ⟨0, true, false⟩ x y z 0 sy := rfl

theorem exec_put_puttingState :
    exec (.put Guard.always 1 0 2 zeroWait) puttingState = .next (puttingState.trapMe 0x19 puttingState.me.pc 0) := by
  obtain ⟨u, hdone⟩ := put_enqueues
  rw [exec_put, issue_clears (clears_as puttingState_clears _)]
  exact settle_done_then_trap hdone rfl rfl put_over_quota

theorem xferCount_after_trap : (puttingState.trapMe 0x19 puttingState.me.pc 0).me.xferCount = 0 := rfl

theorem retired_xferCount (s t : State) : (retired s t).me.xferCount = t.me.xferCount := by
  rw [retired, me_retireAt]
  simp only [Bool.false_eq_true, if_false]
  split <;> rfl

/-- Refutes O38, in its first clause: it is said of every list of tiles, and over one out of the order of its keys the wait of a
PUT doubles what its tile holds of the release quota, so that it traps RELEASE_FULL and does not enter the queue. -/
theorem not_transfers : ¬ Obligations.Transfers := by
  unfold Obligations.Transfers
  rintro ⟨⟨hput, -⟩, -⟩
  obtain ⟨t, hexec, hme, -⟩ := hput puttingState Guard.always 1 0 2 0 zeroWait ⟨0, true, false⟩ (.put Guard.always 1 0 2 zeroWait)
    8 0 none _ 2 (Or.inl ⟨rfl, rfl⟩) puttingState_clears rfl rfl rfl rfl rfl rfl rfl rfl (by decide) rfl rfl
    (fun h => by cases h) rfl rfl rfl (Or.inr rfl)
  rw [exec_put_puttingState] at hexec
  have hcount := congrArg (fun u => u.me.xferCount) (Host.Outcome.next.inj hexec)
  simp only [xferCount_after_trap, retired_xferCount, hme] at hcount
  exact absurd hcount (by decide)

end Sys2Proof.Proofs
end

section
/-! PROOFS. The encoder and the decoder (R52-R64): the heads of the forms are apart, every instruction of Belot stands in the row
that its words name, and what a row gives is well formed. -/

namespace Sys2Proof.Proofs

open Sys2Proof.Machine Sys2Proof.Safety Sys2Proof.Laws
open Bool (and_elim_left and_elim_right and_intro)

/-! ## Decoding what encode gives -/

/-- The instruction has words, and they decode to it. -/
def RoundTrips (i : Instr) : Prop := ∃ w, encode i = some w ∧ decode w.head w.tv w.lit = some i

theorem row_mem {α : Type} {rows : List (Nat × α)} {h : Nat} {x : α} (hr : rows.lookup h = some x) : (h, x) ∈ rows := by
  obtain ⟨l₁, l₂, rfl, -⟩ := List.lookup_eq_some_iff.1 hr
  exact List.mem_append_right l₁ List.mem_cons_self

theorem head_mem {α : Type} {rows : List (Nat × α)} {h : Nat} {x : α} (hr : rows.lookup h = some x) : h ∈ rows.map Prod.fst :=
  List.mem_map_of_mem (f := Prod.fst) (row_mem hr)

/-! For each form: its heads are not LIT's, no head without a tail, no FMT head, and in no form that the decoder looks at before;
so an instruction that a row of the form gives on its own fields round trips. -/

theorem heads_s3 : ∀ h ∈ rowsS3.map Prod.fst,
    h ≠ 0x1100 ∧ rowsN.lookup h = none ∧ h / 256 ≠ 0xFC := by
  decide

theorem roundTrips_s3 {i : Instr} {h : Half} {t : TailS3} {f : TailS3 → Option Instr} (hw : encode i = plain h t.pack)
    (hr : rowsS3.lookup h.toNat = some f) (hg : guardOk h.toNat t.g = true) (hrow : f t = some i) : RoundTrips i := by
  obtain ⟨hl, hn, hf⟩ := heads_s3 _ (head_mem hr)
  exact ⟨_, hw, (decode_s3 t hl hn hf hr hg).trans hrow⟩

theorem heads_si : ∀ h ∈ rowsSI.map Prod.fst,
    h ≠ 0x1100 ∧ rowsN.lookup h = none ∧ h / 256 ≠ 0xFC ∧ rowsS3.lookup h = none := by
  decide

theorem roundTrips_si {i : Instr} {h : Half} {t : TailSI} {f : TailSI → Option Instr} (hw : encode i = plain h t.pack)
    (hr : rowsSI.lookup h.toNat = some f) (hg : guardOk h.toNat t.g = true) (hrow : f t = some i) : RoundTrips i := by
  obtain ⟨hl, hn, hf, hs3⟩ := heads_si _ (head_mem hr)
  exact ⟨_, hw, (decode_si t hl hn hf hs3 hr hg).trans hrow⟩

theorem heads_b : ∀ h ∈ rowsB.map Prod.fst,
    h ≠ 0x1100 ∧ rowsN.lookup h = none ∧ h / 256 ≠ 0xFC ∧ rowsS3.lookup h = none ∧ rowsSI.lookup h = none := by
  decide

theorem roundTrips_b {i : Instr} {h : Half} {t : TailB} {f : TailB → Option Instr} (hw : encode i = plain h t.pack)
    (hr : rowsB.lookup h.toNat = some f) (hg : guardOk h.toNat t.g = true) (hrow : f t = some i) : RoundTrips i := by
  obtain ⟨hl, hn, hf, hs3, hsi⟩ := heads_b _ (head_mem hr)
  exact ⟨_, hw, (decode_b t hl hn hf hs3 hsi hr hg).trans hrow⟩

theorem heads_p : ∀ h ∈ rowsP.map Prod.fst,
    h ≠ 0x1100 ∧ rowsN.lookup h = none ∧ h / 256 ≠ 0xFC ∧ rowsS3.lookup h = none ∧ rowsSI.lookup h = none ∧
      rowsB.lookup h = none := by
  decide

theorem roundTrips_p {i : Instr} {h : Half} {t : TailP} {f : TailP → Option Instr} (hw : encode i = plain h t.pack)
    (hr : rowsP.lookup h.toNat = some f) (hg : guardOk h.toNat t.g = true) (hrow : f t = some i) : RoundTrips i := by
  obtain ⟨hl, hn, hf, hs3, hsi, hb⟩ := heads_p _ (head_mem hr)
  exact ⟨_, hw, (decode_p t hl hn hf hs3 hsi hb hr hg).trans hrow⟩

theorem heads_v3 : ∀ h ∈ rowsV3.map Prod.fst,
    h ≠ 0x1100 ∧ rowsN.lookup h = none ∧ h / 256 ≠ 0xFC ∧ rowsS3.lookup h = none ∧ rowsSI.lookup h = none ∧
      rowsB.lookup h = none ∧ rowsP.lookup h = none := by
  decide

theorem roundTrips_v3 {i : Instr} {h : Half} {t : TailV3} {f : TailV3 → Option Instr} (hw : encode i = plain h t.pack)
    (hr : rowsV3.lookup h.toNat = some f) (hg : guardOk h.toNat t.g = true) (hrow : f t = some i) : RoundTrips i := by
  obtain ⟨hl, hn, hf, hs3, hsi, hb, hp⟩ := heads_v3 _ (head_mem hr)
  exact ⟨_, hw, (decode_v3 t hl hn hf hs3 hsi hb hp hr hg).trans hrow⟩

theorem heads_vs : ∀ h ∈ rowsVS.map Prod.fst,
    h ≠ 0x1100 ∧ rowsN.lookup h = none ∧ h / 256 ≠ 0xFC ∧ rowsS3.lookup h = none ∧ rowsSI.lookup h = none ∧
      rowsB.lookup h = none ∧ rowsP.lookup h = none ∧ rowsV3.lookup h = none := by
  decide

theorem roundTrips_vs {i : Instr} {h : Half} {t : TailVS} {f : TailVS → Option Instr} (hw : encode i = plain h t.pack)
    (hr : rowsVS.lookup h.toNat = some f) (hg : guardOk h.toNat t.g = true) (hrow : f t = some i) : RoundTrips i := by
  obtain ⟨hl, hn, hf, hs3, hsi, hb, hp, hv3⟩ := heads_vs _ (head_mem hr)
  exact ⟨_, hw, (decode_vs t hl hn hf hs3 hsi hb hp hv3 hr hg).trans hrow⟩

theorem heads_e : ∀ h ∈ rowsE.map Prod.fst,
    h ≠ 0x1100 ∧ rowsN.lookup h = none ∧ h / 256 ≠ 0xFC ∧ rowsS3.lookup h = none ∧ rowsSI.lookup h = none ∧
      rowsB.lookup h = none ∧ rowsP.lookup h = none ∧ rowsV3.lookup h = none ∧ rowsVS.lookup h = none := by
  decide

theorem roundTrips_e {i : Instr} {h : Half} {t : TailE} {f : TailE → Option Instr} (hw : encode i = plain h t.pack)
    (hr : rowsE.lookup h.toNat = some f) (hg : guardOk h.toNat t.g = true) (hrow : f t = some i) : RoundTrips i := by
  obtain ⟨hl, hn, hf, hs3, hsi, hb, hp, hv3, hvs⟩ := heads_e _ (head_mem hr)
  exact ⟨_, hw, (decode_e t hl hn hf hs3 hsi hb hp hv3 hvs hr hg).trans hrow⟩

theorem heads_d : ∀ h ∈ rowsD.map Prod.fst,
    h ≠ 0x1100 ∧ rowsN.lookup h = none ∧ h / 256 ≠ 0xFC ∧ rowsS3.lookup h = none ∧ rowsSI.lookup h = none ∧
      rowsB.lookup h = none ∧ rowsP.lookup h = none ∧ rowsV3.lookup h = none ∧ rowsVS.lookup h = none ∧
      rowsE.lookup h = none := by
  decide

theorem roundTrips_d {i : Instr} {h : Half} {t : TailD} {f : TailD → Option Instr} (hw : encode i = plain h t.pack)
    (hr : rowsD.lookup h.toNat = some f) (hg : guardOk h.toNat t.g = true) (hrow : f t = some i) : RoundTrips i := by
  obtain ⟨hl, hn, hf, hs3, hsi, hb, hp, hv3, hvs, he⟩ := heads_d _ (head_mem hr)
  exact ⟨_, hw, (decode_d t hl hn hf hs3 hsi hb hp hv3 hvs he hr hg).trans hrow⟩

theorem heads_i : ∀ h ∈ rowsI.map Prod.fst,
    h ≠ 0x1100 ∧ rowsN.lookup h = none ∧ h / 256 ≠ 0xFC ∧ rowsS3.lookup h = none ∧ rowsSI.lookup h = none ∧
      rowsB.lookup h = none ∧ rowsP.lookup h = none ∧ rowsV3.lookup h = none ∧ rowsVS.lookup h = none ∧
      rowsE.lookup h = none ∧ rowsD.lookup h = none := by
  decide

theorem roundTrips_i {i : Instr} {h : Half} {t : TailI} {f : TailI → Option Instr} (hw : encode i = plain h t.pack)
    (hr : rowsI.lookup h.toNat = some f) (hg : guardOk h.toNat t.g = true) (hrow : f t = some i) : RoundTrips i := by
  obtain ⟨hl, hn, hf, hs3, hsi, hb, hp, hv3, hvs, he, hd⟩ := heads_i _ (head_mem hr)
  exact ⟨_, hw, (decode_i t hl hn hf hs3 hsi hb hp hv3 hvs he hd hr hg).trans hrow⟩

theorem heads_sm : ∀ h ∈ rowsSM.map Prod.fst,
    h ≠ 0x1100 ∧ rowsN.lookup h = none ∧ h / 256 ≠ 0xFC ∧ rowsS3.lookup h = none ∧ rowsSI.lookup h = none ∧
      rowsB.lookup h = none ∧ rowsP.lookup h = none ∧ rowsV3.lookup h = none ∧ rowsVS.lookup h = none ∧
      rowsE.lookup h = none ∧ rowsD.lookup h = none ∧ rowsI.lookup h = none := by
  decide

theorem roundTrips_sm {i : Instr} {h : Half} {t : TailSM} {f : TailSM → Option Instr} (hw : encode i = plain h t.pack)
    (hr : rowsSM.lookup h.toNat = some f) (hg : guardOk h.toNat t.g = true) (hrow : f t = some i) : RoundTrips i := by
  obtain ⟨hl, hn, hf, hs3, hsi, hb, hp, hv3, hvs, he, hd, hi⟩ := heads_sm _ (head_mem hr)
  exact ⟨_, hw, (decode_sm t hl hn hf hs3 hsi hb hp hv3 hvs he hd hi hr hg).trans hrow⟩

theorem heads_vk : ∀ h ∈ rowsVK.map Prod.fst,
    h ≠ 0x1100 ∧ rowsN.lookup h = none ∧ h / 256 ≠ 0xFC ∧ rowsS3.lookup h = none ∧ rowsSI.lookup h = none ∧
      rowsB.lookup h = none ∧ rowsP.lookup h = none ∧ rowsV3.lookup h = none ∧ rowsVS.lookup h = none ∧
      rowsE.lookup h = none ∧ rowsD.lookup h = none ∧ rowsI.lookup h = none ∧ rowsSM.lookup h = none := by
  decide

theorem roundTrips_vk {i : Instr} {h : Half} {t : TailVK} {f : TailVK → Option Instr} (hw : encode i = plain h t.pack)
    (hr : rowsVK.lookup h.toNat = some f) (hg : guardOk h.toNat t.g = true) (hrow : f t = some i) : RoundTrips i := by
  obtain ⟨hl, hn, hf, hs3, hsi, hb, hp, hv3, hvs, he, hd, hi, hsm⟩ := heads_vk _ (head_mem hr)
  exact ⟨_, hw, (decode_vk t hl hn hf hs3 hsi hb hp hv3 hvs he hd hi hsm hr hg).trans hrow⟩

/-- A head without a tail (form N). -/
theorem roundTrips_n {i : Instr} {h : Half} (hw : encode i = plain h 0) (hl : h.toNat ≠ 0x1100)
    (hr : rowsN.lookup h.toNat = some i) : RoundTrips i :=
  ⟨_, hw, by simp only [decode, hl, if_false, hr]⟩

/-- FMT's two nibbles are its head's (R59). -/
theorem roundTrips_fmt {m : BitVec 8} (hw : (Instr.fmt m).wf = true) : RoundTrips (.fmt m) := by
  obtain ⟨hhi, hlo⟩ : hi m 4 ≤ 12 ∧ m.toNat % 16 ≤ 12 := by
    exact ⟨of_decide_eq_true (and_elim_left hw), of_decide_eq_true (and_elim_right hw)⟩
  have hm := m.isLt
  have hhead : (0xFC00 + m.setWidth 16 : Half).toNat = 0xFC00 + m.toNat := by
    rw [BitVec.toNat_add, BitVec.toNat_setWidth]
    show (0xFC00 + m.toNat % 2 ^ 16) % 2 ^ 16 = _
    omega
  have hn : rowsN.lookup (0xFC00 + m.toNat) = none := by
    refine List.lookup_eq_none_iff.2 fun p hp => ?_
    have hrow : ∀ p ∈ rowsN, p.1 < 0xFC00 := by decide
    have hlt := hrow p hp
    exact bne_iff_ne.2 (by omega)
  have hf : decodeFmt (0xFC00 + m.toNat) = some (some (.fmt m)) := by
    rw [decodeFmt, if_pos (by omega), if_pos (by simp only [hi] at hhi; omega)]
    congr 3
    exact BitVec.eq_of_toNat_eq (by rw [BitVec.toNat_ofNat]; omega)
  have hl : ¬ 0xFC00 + m.toNat = 0x1100 := by omega
  refine ⟨_, rfl, ?_⟩
  show decode (0xFC00 + m.setWidth 16) 0 none = some (.fmt m)
  simp only [decode, hhead, hl, if_false, hn, hf]
  rfl

/-! ## Operands in fields wider than themselves -/

theorem hi_setWidth {w : Nat} (x : BitVec w) (v : Nat) : hi (x.setWidth v) w = 0 := by
  simp only [hi, BitVec.toNat_setWidth]
  exact Nat.div_eq_of_lt (lt_of_le_of_lt (Nat.mod_le _ _) x.isLt)

theorem ifOk_of_true {c : Bool} {i : Instr} (h : c = true) : ifOk c i = some i := if_pos h

/-- The upper bits of a field are zero when its operand is narrower than it. -/
theorem extractLsb'_setWidth_above {w v : Nat} (x : BitVec w) (n : Nat) : (x.setWidth v).extractLsb' w n = 0 := by
  apply BitVec.eq_of_getLsbD_eq
  intro i _
  simp [BitVec.getLsbD_extractLsb', BitVec.getLsbD_setWidth]

/-! ## Immediates of several operands -/

/-- VOTE's immediate holds the vote in bits 1:0 and the cause in bits 9:2 (R64). -/
theorem vote_imm (v : BitVec 2) (cause : BitVec 8) :
    ((cause ++ v).setWidth 11).setWidth 2 = v ∧ ((cause ++ v).setWidth 11).extractLsb' 2 8 = cause ∧
      ((cause ++ v).setWidth 11).getLsbD 10 = false := by
  refine ⟨?_, ?_, ?_⟩
  · rw [BitVec.setWidth_setWidth_of_le _ (by omega), BitVec.setWidth_append_eq_right]
  · apply BitVec.eq_of_getLsbD_eq
    intro i hi
    have hlt : 2 + i < 11 := by omega
    rw [BitVec.getLsbD_extractLsb', BitVec.getLsbD_setWidth, BitVec.getLsbD_append]
    have hge : ¬ 2 + i < 2 := by omega
    simp only [hi, hlt, hge, decide_true, Bool.true_and, if_false, Nat.add_sub_cancel_left]
  · simp

/-- TBLW's immediate holds the quarter in bits 1:0 and the table in bit 2 (R64). -/
theorem tblw_imm (q : BitVec 2) (tbl : Bool) :
    (BitVec.ofBool tbl ++ q).setWidth 2 = q ∧ (BitVec.ofBool tbl ++ q)[2] = tbl := by
  revert q tbl
  decide

/-- TBLRD's immediate holds the bank in bit 3 as well (R64). -/
theorem tblrd_imm (q : BitVec 2) (tbl shadow : Bool) :
    (BitVec.ofBool shadow ++ BitVec.ofBool tbl ++ q).setWidth 2 = q ∧ (BitVec.ofBool shadow ++ BitVec.ofBool tbl ++ q)[2] = tbl ∧
      (BitVec.ofBool shadow ++ BitVec.ofBool tbl ++ q)[3] = shadow := by
  revert q tbl shadow
  decide

/-! ## Guards (R53) -/

theorem guardOk_of_scalar {h : Nat} {g : Guard} (hg : (!g.mask) = true) : guardOk h g = true := by
  simp [guardOk, hg]

theorem guardOk_of_vector {h : Nat} {g : Guard} (hh : (decide (0x20 ≤ h / 1024) && decide (h / 1024 ≤ 0x26)) = true) :
    guardOk h g = true := by
  simp only [guardOk, hh, Bool.or_true]

/-! ## LIT and its literal (R55, R75) -/

/-- The literal head of a LEN. -/
def literalHead (len : BitVec 2) : Half := 0xFC00 + (len.setWidth 16 <<< 8)

theorem literalHead_len {len : BitVec 2} (h : len ≠ 0) :
    isLiteralHead (literalHead len) = true ∧ (literalHead len).extractLsb' 8 2 = len := by
  revert len
  decide

/-- The raw literal that encode gives reads back as the literal. -/
theorem literal_of_litOk {len : BitVec 2} {l : Word} (h : litOk len l = true) :
    literal len (if len = 1 then (l.setWidth 16).setWidth 64 else if len = 2 then (l.setWidth 32).setWidth 64 else l) = l := by
  have hlen : len = 0 ∨ len = 1 ∨ len = 2 ∨ len = 3 := by clear h; revert len; decide
  rcases hlen with rfl | rfl | rfl | rfl
  · cases h
  · have hl : (l.setWidth 16).signExtend 64 = l := of_decide_eq_true h
    simp [literal, hl]
  · have hl : (l.setWidth 32).signExtend 64 = l := of_decide_eq_true h
    simp [literal, hl]
  · simp [literal]

theorem roundTrips_lit {g : Guard} {d : SReg} {len : BitVec 2} {l : Word} (hw : (Instr.lit g d len l).wf = true) :
    RoundTrips (.lit g d len l) := by
  have hm : g.mask = false := by simpa using and_elim_left hw
  have hl : litOk len l = true := and_elim_right hw
  have hlen : len ≠ 0 := by rintro rfl; cases hl
  obtain ⟨hhead, hcode⟩ := literalHead_len hlen
  have hlit := literal_of_litOk hl
  refine ⟨_, rfl, ?_⟩
  show (TailD.cut (TailD.mk g d 0).pack).bind (fun t => decodeLit t (some (literalHead len, _))) = _
  rw [cut_pack_d, Option.bind_some, decodeLit]
  dsimp only
  rw [if_pos ⟨hhead, rfl, hm⟩, hcode, hlit]

/-! ## Every instruction of Belot -/

/-- Each instruction stands in the row of its head; what is left is the row's condition on its fields. -/
theorem roundTrips_of_wf {i : Instr} (hw : i.wf = true) (hc : i.isCode = true) : RoundTrips i := by
  cases i with
  -- form S3
  | add | sub | and | or | xor | andn | shl | shr | sra | rol | min | max | minu | maxu | mul | mulh | mulhu | div | divu | rem | remu
  | clz | ctz | popc | abs | mov | msg | bale | bstat | bset | lookup | amodAdd | evsig | evarm | mtxrel | redrd | gsig | gskip | gmap
  | gforce | launch | teardown | preempt | barnsv | barnld | hmsg | qcbsv | qcbld | qpend | rankmap =>
    exact roundTrips_s3 rfl rfl (guardOk_of_scalar hw) rfl
  | bfx | bfxS | bfi => exact roundTrips_s3 rfl rfl (guardOk_of_scalar (and_elim_left hw)) (ifOk_of_true (and_elim_right hw))
  | lea | sel | tst | tstZ | ringcfg | ringstat | gcfg | gseal =>
    exact roundTrips_s3 rfl rfl (guardOk_of_scalar hw) (by simp [ifOk, hi_setWidth])
  | cmp g cc => cases cc <;> exact roundTrips_s3 rfl rfl (guardOk_of_scalar hw) (by simp [ifOk, hi_setWidth])
  | amof g op | redc g op => cases op <;> exact roundTrips_s3 rfl rfl (guardOk_of_scalar hw) rfl
  | amo g op word d a b c =>
    obtain rfl | rfl := of_decide_eq_true (and_elim_right hw)
    · cases word <;> exact roundTrips_s3 rfl rfl (guardOk_of_scalar (and_elim_left hw)) rfl
    · cases op <;> cases word <;> exact roundTrips_s3 rfl rfl (guardOk_of_scalar (and_elim_left hw)) rfl
  | sext g sz | zext g sz =>
    cases sz with
    | d => cases and_elim_right hw
    | _ => exact roundTrips_s3 rfl rfl (guardOk_of_scalar (and_elim_left hw)) rfl
  -- form SI
  | addi | andImm | orImm | xorImm | andnImm | shlImm | shrImm | sraImm | rolImm | minImm | maxImm | minuImm | maxuImm | mulImm
  | ldsD | ldsDE | stfD => exact roundTrips_si rfl rfl (guardOk_of_scalar hw) rfl
  | tstImm | tstZImm | sysrd | syswr =>
    exact roundTrips_si rfl rfl (guardOk_of_scalar hw) (by simp [ifOk, hi_setWidth, extractLsb'_setWidth_above])
  | cmpImm g cc => cases cc <;> exact roundTrips_si rfl rfl (guardOk_of_scalar hw) (by simp [ifOk, hi_setWidth])
  | ld g sz | st g sz | ldv g sz | stv g sz | ldc g sz | stc g sz =>
    cases sz <;> exact roundTrips_si rfl rfl (guardOk_of_scalar hw) rfl
  -- form SM
  | semwait | semsig | semrd => exact roundTrips_sm rfl rfl (guardOk_of_scalar hw) rfl
  -- form B
  | br | jal | jr | loop | repStreamLoad => exact roundTrips_b rfl rfl (guardOk_of_scalar hw) rfl
  | brc g cc => cases cc <;> exact roundTrips_b rfl rfl (guardOk_of_scalar hw) rfl
  | rep g a len n =>
    have hrep := of_decide_eq_true (and_elim_right hw)
    refine roundTrips_b rfl rfl (guardOk_of_scalar (and_elim_left hw)) ?_
    by_cases hlen : len = 0
    · rw [if_pos hlen] at hrep
      simp only [hlen, if_true]
      rw [if_neg (not_and_or.2 hrep)]
    · rw [if_neg hlen] at hrep
      simp only [hlen, if_false]
      rw [if_neg (by tauto)]
  -- form P
  | pand | por | pxor | pnot | pmov | pany | vpand | vpor | vpnot => exact roundTrips_p rfl rfl (guardOk_of_scalar hw) rfl
  -- form I
  | ret | trap | brk => exact roundTrips_i rfl rfl (guardOk_of_scalar hw) rfl
  | wake => exact roundTrips_i rfl rfl (guardOk_of_scalar hw) (by simp [ifOk, extractLsb'_setWidth_above])
  | vote g v cause =>
    obtain ⟨hv, hcause, htop⟩ := vote_imm v cause
    exact roundTrips_i rfl rfl (guardOk_of_scalar (and_elim_left hw)) (by simp only [hv, hcause, htop]; exact ifOk_of_true (and_elim_right hw))
  -- form D
  | pclr | xqstat => exact roundTrips_d rfl rfl (guardOk_of_scalar hw) rfl
  | pclrVector | accz | uien => exact roundTrips_d rfl rfl (guardOk_of_scalar hw) (by simp [ifOk, hi_setWidth])
  -- form V3
  | vmovv | vclass | vperm | vshuf | viadd | visub | vimul | vimad | viaddSat | visubSat | vshl | vshr | vsra | vand | vor | vxor | vpopc =>
    exact roundTrips_v3 rfl rfl (guardOk_of_vector rfl) rfl
  | vadd | vsub | vmul | vmin | vmax | vfma | vfms | vnfma | vabs | vneg | vrcp | vrsq | vexp2 | vlog2 | vscale | vdot | vcvt | vbscl =>
    exact roundTrips_v3 rfl rfl (guardOk_of_vector rfl) (ifOk_of_true hw)
  | vscan g op => cases op <;> exact roundTrips_v3 rfl rfl (guardOk_of_vector rfl) (ifOk_of_true hw)
  | vsel => exact roundTrips_v3 rfl rfl (guardOk_of_vector rfl) (by simp [ifOk, hi_setWidth])
  | vcmp g cc => cases cc <;> exact roundTrips_v3 rfl rfl (guardOk_of_vector rfl) (by simp [ifOk, hi_setWidth])
  -- form VK
  | vldStream | vstStream => exact roundTrips_vk rfl rfl (guardOk_of_vector rfl) rfl
  -- form VS
  | vld | vst | vldb | vstb | vgath | vscat | vbcast => exact roundTrips_vs rfl rfl (guardOk_of_vector rfl) rfl
  | vred g op => cases op <;> exact roundTrips_vs rfl rfl (guardOk_of_vector rfl) rfl
  | vmovs | vrot => exact roundTrips_vs rfl rfl (guardOk_of_vector rfl) (by simp [ifOk, extractLsb'_setWidth_above])
  | accrd | accwr =>
    exact roundTrips_vs rfl rfl (guardOk_of_scalar hw) (by simp [ifOk, hi_setWidth, extractLsb'_setWidth_above])
  | tblw g vs q tbl => exact roundTrips_vs rfl rfl (guardOk_of_scalar hw) (by simp [ifOk, extractLsb'_setWidth_above, tblw_imm])
  | tblrd g vd q tbl shadow => exact roundTrips_vs rfl rfl (guardOk_of_scalar hw) (by simp [ifOk, extractLsb'_setWidth_above, tblrd_imm])
  -- form E
  | put | get | putv | getv | pfl | xsched | coll | istfD =>
    exact roundTrips_e rfl rfl (guardOk_of_scalar (and_elim_left hw)) (ifOk_of_true (and_elim_right hw))
  | ist g sz => cases sz <;> exact roundTrips_e rfl rfl (guardOk_of_scalar (and_elim_left hw)) (ifOk_of_true (and_elim_right hw))
  | mma | mman | mmaq | mmai | accsw | accst | accld | tblsw | ringpush | ringpop | pflstop =>
    exact roundTrips_e rfl rfl (guardOk_of_scalar (and_elim_left hw)) (by simp [ifOk, hi_setWidth, and_elim_right hw])
  -- form N, FMT and LIT
  | halt | yield | nop | eret | eretSkip | park | uiret | sync => exact roundTrips_n rfl (by decide) rfl
  | fence sc | vfence sc => cases sc <;> exact roundTrips_n rfl (by decide) rfl
  | fmt => exact roundTrips_fmt hw
  | lit => exact roundTrips_lit hw
  | _ => cases hc

/-! ## What decodes is well formed -/

/-- Well formed, and an instruction of Belot. -/
def WfCode (i : Instr) : Prop := i.wf = true ∧ i.isCode = true

/-- What is given, if anything, is a well-formed instruction of Belot. -/
def GivesWf (o : Option Instr) : Prop := ∀ i, o = some i → WfCode i

@[simp] theorem givesWf_none : GivesWf none := by rintro i ⟨⟩

@[simp] theorem givesWf_some {i : Instr} : GivesWf (some i) ↔ WfCode i := by
  simp [GivesWf]

@[simp] theorem givesWf_ifOk {c : Bool} {i : Instr} : GivesWf (ifOk c i) ↔ (c = true → WfCode i) := by
  cases c <;> simp [ifOk]

theorem givesWf_orElse {a b : Option (Option Instr)} (ha : GivesWf a.join) (hb : GivesWf b.join) :
    GivesWf (a.orElse fun _ => b).join := by
  cases a with
  | none => exact hb
  | some _ => exact ha

/-- Every row of a form gives well-formed instructions under the guards that its head takes. -/
def RowsWf {F : Type} (rows : Rows F) (g : F → Guard) : Prop :=
  ∀ p ∈ rows, ∀ t, guardOk p.1 (g t) = true → GivesWf (p.2 t)

theorem givesWf_pick {F : Type} {rows : Rows F} {g : F → Guard} (hrows : RowsWf rows g) (t : Option F) (head : Nat) :
    GivesWf (pick rows g t head).join := by
  unfold pick
  cases hr : rows.lookup head with
  | none => exact givesWf_none
  | some f =>
    cases t with
    | none => exact givesWf_none
    | some t =>
      show GivesWf (if guardOk head (g t) then f t else none)
      split
      · exact hrows _ (row_mem hr) t ‹_›
      · exact givesWf_none

/-- Outside the vector majors a guard that a head takes is a scalar one (R53). -/
theorem scalar_of_guardOk {h : Nat} {g : Guard} (hg : guardOk h g = true) (hh : h / 1024 < 0x20 ∨ 0x26 < h / 1024) :
    g.mask = false := by
  simp only [guardOk, Bool.or_eq_true, Bool.and_eq_true, Bool.not_eq_true', decide_eq_true_eq] at hg
  rcases hg with hg | hg
  · exact hg
  · omega

/-- A form whose heads take scalar guards only. -/
theorem rowsWf_scalar {F : Type} {rows : Rows F} {g : F → Guard} (heads : ∀ p ∈ rows, p.1 / 1024 < 0x20 ∨ 0x26 < p.1 / 1024)
    (give : ∀ t, (g t).mask = false → ∀ p ∈ rows, GivesWf (p.2 t)) : RowsWf rows g :=
  fun p hp t hg => give t (scalar_of_guardOk hg (heads p hp)) p hp

/-- REP and its stream-load form (R81): the row refuses what `Instr.wf` refuses. -/
theorem givesWf_rep (t : TailB) (hm : t.g.mask = false) :
    GivesWf (if t.b = 0 then some (if t.a = 0 ∧ t.target = 0 then .repStreamLoad t.g else .rep t.g t.a t.b t.target)
      else if t.a ≠ 0 ∧ t.target ≠ 0 then none else some (.rep t.g t.a t.b t.target)) := by
  have hg : (!t.g.mask) = true := by rw [hm]; rfl
  have hrep (h : if t.b = 0 then t.a ≠ 0 ∨ t.target ≠ 0 else t.a = 0 ∨ t.target = 0) : WfCode (.rep t.g t.a t.b t.target) :=
    ⟨and_intro hg (decide_eq_true h), rfl⟩
  by_cases hb : t.b = 0
  · rw [if_pos hb] at hrep ⊢
    rw [givesWf_some]
    split
    · exact ⟨hg, rfl⟩
    · exact hrep (by tauto)
  · rw [if_neg hb] at hrep ⊢
    split
    · exact givesWf_none
    · exact givesWf_some.2 (hrep (by tauto))

/-! Row by row, the condition under which the row gives its instruction is what `Instr.wf` asks of its fields beside the guard.
`delta` opens the two tests at once; their equations by constructor would be costly to derive. -/

theorem rowsS3_wf : RowsWf rowsS3 (·.g) := by
  refine rowsWf_scalar (by decide) fun t hm => ?_
  simp only [rowsS3, rowsS3a, rowsS3b, rowsS3c, List.forall_mem_append, List.forall_mem_cons, givesWf_ifOk, givesWf_some]
  delta WfCode Instr.wf Instr.isCode
  simp +contextual [hm]

theorem rowsSI_wf : RowsWf rowsSI (·.g) := by
  refine rowsWf_scalar (by decide) fun t hm => ?_
  simp only [rowsSI, rowsSIa, rowsSIb, List.forall_mem_append, List.forall_mem_cons, givesWf_ifOk, givesWf_some]
  delta WfCode Instr.wf Instr.isCode
  simp +contextual [hm]

theorem rowsB_wf : RowsWf rowsB (·.g) := by
  refine rowsWf_scalar (by decide) fun t hm => ?_
  simp only [rowsB, List.forall_mem_cons, givesWf_ifOk, givesWf_some, givesWf_rep t hm]
  delta WfCode Instr.wf Instr.isCode
  simp +contextual [hm]

theorem rowsP_wf : RowsWf rowsP (·.g) := by
  refine rowsWf_scalar (by decide) fun t hm => ?_
  simp only [rowsP, List.forall_mem_cons, givesWf_ifOk, givesWf_some]
  delta WfCode Instr.wf Instr.isCode
  simp +contextual [hm]

theorem rowsI_wf : RowsWf rowsI (·.g) := by
  refine rowsWf_scalar (by decide) fun t hm => ?_
  simp only [rowsI, List.forall_mem_cons, givesWf_ifOk, givesWf_some]
  delta WfCode Instr.wf Instr.isCode
  simp +contextual [hm]

theorem rowsD_wf : RowsWf rowsD (·.g) := by
  refine rowsWf_scalar (by decide) fun t hm => ?_
  simp only [rowsD, List.forall_mem_cons, givesWf_ifOk]
  delta WfCode Instr.wf Instr.isCode
  simp +contextual [hm]

theorem rowsSM_wf : RowsWf rowsSM (·.g) := by
  refine rowsWf_scalar (by decide) fun t hm => ?_
  simp only [rowsSM, List.forall_mem_cons, givesWf_ifOk]
  delta WfCode Instr.wf Instr.isCode
  simp +contextual [hm]

theorem rowsE_wf : RowsWf rowsE (·.g) := by
  refine rowsWf_scalar (by decide) fun t hm => ?_
  simp only [rowsE, List.forall_mem_cons, givesWf_ifOk]
  delta WfCode Instr.wf Instr.isCode
  simp +contextual [hm]

theorem rowsV3_wf : RowsWf rowsV3 (·.g) := by
  simp only [RowsWf, rowsV3, rowsV3a, rowsV3b, List.forall_mem_append, List.forall_mem_cons, givesWf_ifOk]
  delta WfCode Instr.wf Instr.isCode
  simp +contextual

theorem rowsVS_wf : RowsWf rowsVS (·.g) := by
  simp only [RowsWf, rowsVS, List.forall_mem_cons, givesWf_ifOk, givesWf_some]
  delta WfCode Instr.wf Instr.isCode
  simp +contextual [guardOk]

theorem rowsVK_wf : RowsWf rowsVK (·.g) := by
  simp only [RowsWf, rowsVK, List.forall_mem_cons, givesWf_some]
  delta WfCode Instr.wf Instr.isCode
  simp +contextual

theorem rowsN_wf : ∀ p ∈ rowsN, p.2.wf = true ∧ p.2.isCode = true := by
  decide

theorem givesWf_fmt (h : Nat) : GivesWf (decodeFmt h).join := by
  unfold decodeFmt
  split
  · show GivesWf (if h / 16 % 16 ≤ 12 ∧ h % 16 ≤ 12 then _ else none)
    split
    · rename_i hn
      obtain ⟨hhigh, hlow⟩ := hn
      refine givesWf_some.2 ⟨and_intro (decide_eq_true ?_) (decide_eq_true ?_), rfl⟩
      · rw [hi, BitVec.toNat_ofNat]
        omega
      · rw [BitVec.toNat_ofNat]
        omega
    · exact givesWf_none
  · exact givesWf_none

theorem setWidth_signExtend {n m : Nat} (h : n ≤ m) (x : BitVec n) : (x.signExtend m).setWidth n = x := by
  apply BitVec.eq_of_getLsbD_eq
  intro i hi
  have hm : i < m := by omega
  simp only [BitVec.getLsbD_setWidth, BitVec.getLsbD_signExtend, hi, hm, decide_true, Bool.true_and, if_true]

/-- The literal of a literal head is one that its LEN can hold (R55). -/
theorem litOk_literal {h : Half} (hh : isLiteralHead h = true) (raw : Word) :
    litOk (h.extractLsb' 8 2) (literal (h.extractLsb' 8 2) raw) = true := by
  rcases of_decide_eq_true hh with rfl | rfl | rfl
  · exact decide_eq_true (congrArg (BitVec.signExtend 64) (setWidth_signExtend (by omega) (raw.setWidth 16)))
  · exact decide_eq_true (congrArg (BitVec.signExtend 64) (setWidth_signExtend (by omega) (raw.setWidth 32)))
  · rfl

theorem givesWf_lit (t : TailD) (l : Option (Half × Word)) : GivesWf (decodeLit t l) := by
  unfold decodeLit
  split
  · exact givesWf_none
  · rename_i h raw
    split
    · rename_i hl
      obtain ⟨hh, -, hm⟩ := hl
      exact givesWf_some.2 ⟨and_intro (by rw [hm]; rfl) (litOk_literal hh raw), rfl⟩
    · exact givesWf_none

/-- What decodes is LIT, a head without a tail, an FMT head, or what a row of a form gives. -/
theorem givesWf_decode (head : Half) (tv : Word) (l : Option (Half × Word)) : GivesWf (decode head tv l) := by
  unfold decode
  dsimp only
  split
  · cases TailD.cut tv with
    | none => exact givesWf_none
    | some t => exact givesWf_lit t l
  · split
    · rename_i i hn
      exact givesWf_some.2 (rowsN_wf _ (row_mem hn))
    · exact givesWf_orElse (givesWf_fmt _) <|
        givesWf_orElse (givesWf_pick rowsS3_wf _ _) <|
        givesWf_orElse (givesWf_pick rowsSI_wf _ _) <| givesWf_orElse (givesWf_pick rowsB_wf _ _) <|
        givesWf_orElse (givesWf_pick rowsP_wf _ _) <|
        givesWf_orElse (givesWf_pick rowsV3_wf _ _) <|
        givesWf_orElse (givesWf_pick rowsVS_wf _ _) <| givesWf_orElse (givesWf_pick rowsE_wf _ _) <|
        givesWf_orElse (givesWf_pick rowsD_wf _ _) <| givesWf_orElse (givesWf_pick rowsI_wf _ _) <|
        givesWf_orElse (givesWf_pick rowsSM_wf _ _) <| givesWf_pick rowsVK_wf _ _

/-- Settles O59: an instruction stands in the row that its words name (`roundTrips_of_wf`), and a row gives only what is well
formed (`givesWf_decode`). -/
theorem encodeDecode : Obligations.EncodeDecode := by
  unfold Obligations.EncodeDecode
  exact ⟨fun i hw hc => roundTrips_of_wf hw hc, fun head tv l i h => givesWf_decode head tv l i h⟩

end Sys2Proof.Proofs
end

section
/-! PROOFS. Words written out from the encoding tables (R49-R64). -/

namespace Sys2Proof.Proofs

/-- Settles O58: the decoder computes on each word. -/
theorem decodeWords : Obligations.DecodeWords := by
  unfold Obligations.DecodeWords
  exact ⟨rfl, rfl, rfl, rfl, rfl, rfl, rfl, rfl, rfl, rfl, rfl, rfl, rfl, rfl, rfl, rfl, rfl, rfl, rfl, rfl, rfl, rfl, rfl, rfl⟩

end Sys2Proof.Proofs
end

section
/-! PROOFS. The order of the checks at issue (R53, R57-R60), and what a form E instruction that is guarded off still does (R58). -/

namespace Sys2Proof.Proofs

open Sys2Proof.Machine Sys2Proof.Safety Sys2Proof.Laws

/-- What an instruction does at s is an issue by the checks of R60 with this information. -/
def IssuesWith (s : State) (i : Instr) (f : Info) : Prop := ∃ body, exec i s = s.issue f body

/-! ## A guarded-off instruction (R58) -/

/-- An instruction that may stand in a REP body, with no misused prefix and a scalar guard that is false and not poisoned. -/
theorem issue_guardOff {s : State} {f : Info} {body : Nat → Nat → State → Eff} (hb : f.bodyOk = true)
    (hp : s.me.prefixMisuse f = false) (ht : s.me.pt f.guard.idx = false) (hm : f.guard.mask = false)
    (hr : s.me.prd f.guard.idx = f.guard.inv) : s.issue f body = s.guardOff f := by
  have hpoison : s.me.guardPoison f.guard = false := by rw [Strand.guardPoison, ht, Bool.and_false]
  have hoff : s.me.guardedOff f.guard = true := by simp [Strand.guardedOff, hm, hr]
  simp only [State.issue, hb, hp, hpoison, hoff, Bool.not_true, Bool.and_false, Bool.false_eq_true, if_false, if_true]

theorem guardOff_ready {s : State} {f : Info} (h : SyncReady s f.sync true) :
    s.guardOff f = .next (retired s ((s.takeWait f.sync).signalMe f.sync)) := by
  obtain ⟨hw, ho⟩ := h
  have hfits : (decide (f.sync.sinc ≠ 0) && s.myTile.semOver f.sync.ssem.toNat f.sync.sinc.toNat) = false := by
    by_cases hs : f.sync.sinc = 0
    · simp [hs]
    · rw [ho rfl hs, Bool.and_false]
  simp only [State.guardOff, hw, hfits, Bool.not_true, Bool.false_eq_true, if_false, retired]

theorem guardOff_waits {s : State} {f : Info} (hw : s.waitMet f.sync = false) : s.guardOff f = .next (s.parkMe .sem) := by
  simp only [State.guardOff, hw, Bool.not_false, if_true]

theorem guardOff_overflows {s : State} {f : Info} (hw : s.waitMet f.sync = true) (hs : f.sync.sinc ≠ 0)
    (ho : s.myTile.semOver f.sync.ssem.toNat f.sync.sinc.toNat = true) :
    s.guardOff f = .next ((s.refundWait f.sync).trapMe 0x14 s.me.pc (f.sync.ssem.setWidth 64)) := by
  simp only [State.guardOff, hw, hs, ho, Bool.not_true, Bool.false_eq_true, if_false, ne_eq, not_false_eq_true, decide_true,
    Bool.true_and, if_true, BitVec.ofNat_toNat]

/-! ## The information of the listed instructions -/

/-- The nine instructions take no prefix and have no sync tail. -/
theorem issuesWith_of_nine (s : State) {g : Guard} {d a b : SReg} {imm : BitVec 15} {i : Instr} {head : Nat}
    (h : (i, head) ∈ [(Instr.add g d a b, 0x0200), (Instr.addi g d a imm, 0x0600), (Instr.ld g .d d a imm, 0x6203),
      (Instr.preempt g d a, 0xFA02), (Instr.hmsg g a b, 0xFA05), (Instr.qpend g d, 0xFA08), (Instr.teardown g d a, 0xFA01),
      (Instr.barnsv g d a b, 0xFA03), (Instr.rankmap g d a b, 0xFA11)]) :
    ∃ f, IssuesWith s i f ∧ f.head = head ∧ f.guard = g ∧ f.formats = none ∧ f.sync = Sync.none := by
  fin_cases h <;> delta IssuesWith exec <;> exact ⟨_, ⟨_, rfl⟩, rfl, rfl, rfl, rfl⟩

/-- The six privileged ones need level 3, and the message context has none of them. -/
theorem issuesWith_of_privileged (s : State) {g : Guard} {d a b : SReg} {i : Instr} {head : Nat}
    (h : (i, head) ∈ [(Instr.preempt g d a, 0xFA02), (Instr.hmsg g a b, 0xFA05), (Instr.qpend g d, 0xFA08),
      (Instr.teardown g d a, 0xFA01), (Instr.barnsv g d a b, 0xFA03), (Instr.rankmap g d a b, 0xFA11)]) :
    ∃ f, IssuesWith s i f ∧ f.head = head ∧ f.guard = g ∧ f.msgOk = false ∧ f.priv = 3 := by
  fin_cases h <;> delta IssuesWith exec <;> exact ⟨_, ⟨_, rfl⟩, rfl, rfl, rfl, rfl⟩

/-- The twenty form E instructions may stand in a REP body and have the tail's sync. -/
theorem issuesWith_of_formE (s : State) {g : Guard} {acc ra rb ring : BitVec 3} {n slot : BitVec 6} {x y z w : SReg} {tbl : Bool} {sz : Size}
    {sy : Sync} {i : Instr} {F : Option Formats}
    (h : (i, F) ∈ [(Instr.mma g acc ra rb n sy, some mmaPairs), (Instr.mman g acc ra rb n sy, some mmaPairs), (Instr.mmaq g acc ra rb n sy, some mmaqPairs),
      (Instr.mmai g acc ra rb n sy, some mmaiPairs), (Instr.accsw g acc sy, none), (Instr.accst g acc y z sy, some accOut),
      (Instr.accld g acc y z sy, some accIn), (Instr.tblsw g tbl sy, none), (Instr.ringpush g ring slot sy, none),
      (Instr.ringpop g ring slot sy, none), (Instr.pflstop g ring sy, none), (Instr.pfl g x sy, none), (Instr.put g x y z sy, none),
      (Instr.get g x y z sy, none), (Instr.putv g x y z w sy, none), (Instr.getv g x y z w sy, none), (Instr.ist g sz x y sy, none),
      (Instr.istfD g x y sy, none), (Instr.xsched g x sy, none), (Instr.coll g x y z sy, none)]) :
    ∃ f, IssuesWith s i f ∧ f.guard = g ∧ f.sync = sy ∧ f.formats = F ∧ f.bodyOk = true := by
  fin_cases h <;> delta IssuesWith exec execRingpush <;> exact ⟨_, ⟨_, rfl⟩, rfl, rfl, rfl, rfl⟩

/-- Whether a prefix is misused rests on the formats alone. -/
theorem prefixMisuse_congr (x : Strand) {f f' : Info} (h : f.formats = f'.formats) : x.prefixMisuse f = x.prefixMisuse f' := by
  rw [Strand.prefixMisuse, Strand.prefixMisuse, h]

/-- Settles O55: every listed instruction is an issue with the information of its family, so each answer is that of the first
check of R60 that stops it. -/
theorem issueOrder : Obligations.IssueOrder := by
  unfold Obligations.IssueOrder
  refine ⟨?_, ?_, ?_, ?_⟩
  · intro s g d a b imm i head hi hm hrep
    obtain ⟨f, ⟨body, he⟩, rfl, rfl, hf, hs⟩ := issuesWith_of_nine s hi
    rw [he]
    exact ⟨issue_misused_prefix hrep hf, fun hpp => issue_poisoned_guard hrep hpp hm,
      fun hpp ht hr => issue_guarded_off hrep hpp hm ht hr hs⟩
  · intro s g d a b i head hi hm hrep hpp ht hr
    obtain ⟨f, ⟨body, he⟩, rfl, rfl, hmsg, hlevel⟩ := issuesWith_of_privileged s hi
    rw [he]
    exact ⟨issue_restricted hrep hpp hm ht hr hmsg,
      fun hk hp => issue_privilege hrep hpp hm ht hr hk (by rw [hlevel]; exact hp)⟩
  · intro x g hm
    exact ⟨by rw [Strand.guardedOff, hm]; rfl, by rw [Strand.guardPoison, hm]; rfl⟩
  · intro s g acc ra rb ring n slot x y z w tbl sz sy i F hi hm hp ht hr
    obtain ⟨f, ⟨body, he⟩, rfl, rfl, hF, hb⟩ := issuesWith_of_formE s hi
    rw [he, issue_guardOff hb ((prefixMisuse_congr s.me hF).trans hp) ht hm hr]
    exact ⟨guardOff_ready, guardOff_waits, guardOff_overflows⟩

end Sys2Proof.Proofs
end

section
/-! PROOFS. Control transfer and REP (R51, R78-R84): where each branch goes, what REP starts and ends, and the traps that have no effect. -/

namespace Sys2Proof.Proofs

open Sys2Proof.Machine Sys2Proof.Safety Sys2Proof.Laws

theorem exec_br (s : State) (g : Guard) (target : BitVec 15) : exec (.br g target) s = execBr g target s := rfl

theorem exec_brc (s : State) (g : Guard) (cc : Cond) (a b : SReg) (target : BitVec 15) :
    exec (.brc g cc a b target) s = execBrc g cc a b target s := rfl

theorem exec_jal (s : State) (g : Guard) (a : SReg) (target : BitVec 15) : exec (.jal g a target) s = execJal g a target s := rfl

theorem exec_jr (s : State) (g : Guard) (a b : SReg) : exec (.jr g a b) s = execJr g a b s := rfl

theorem exec_ret (s : State) (g : Guard) : exec (.ret g) s = execRet g s := rfl

theorem exec_loop (s : State) (g : Guard) (a : SReg) (target : BitVec 15) : exec (.loop g a target) s = execLoop g a target s := rfl

/-- The control instructions but BR share their checks at issue. -/
theorem clears_control {s : State} {g : Guard} (h : Clears s (barred g)) (head : Nat) : Clears s (controlInfo head g) :=
  clears_congr h rfl rfl rfl rfl rfl rfl

/-- A jump to a target as the effect of an issue: it goes there, or traps BAD_TARGET with no other effect (R51). -/
theorem issue_jump {s s' : State} {i : Info} {body : Nat → Nat → State → Eff} {target : Nat} (h : Clears s i)
    (hf : i.formats = none) (hs : i.sync = Sync.none) (hb : body 0 0 s = s.jump s' target) :
    (Landing s target → s.issue i body = .next (goesTo s s' target)) ∧
      (¬ Landing s target → s.issue i body = .next (traps s 0x03 (BitVec.ofNat 64 target))) :=
  ⟨fun hl => issue_goto h hf hs (hb.trans (jump_ok hl)), fun hl => issue_trap h hf (hb.trans (jump_bad hl))⟩

/-- The same for a target in a register, which is then TRAPVAL. -/
theorem issue_jump_register {s s' : State} {i : Info} {body : Nat → Nat → State → Eff} {v : Word} (h : Clears s i)
    (hf : i.formats = none) (hs : i.sync = Sync.none) (hb : body 0 0 s = s.jump s' v.toNat) :
    (Landing s v.toNat → s.issue i body = .next (goesTo s s' v.toNat)) ∧
      (¬ Landing s v.toNat → s.issue i body = .next (traps s 0x03 v)) := by
  have hj := issue_jump h hf hs hb
  rwa [BitVec.ofNat_toNat, BitVec.setWidth_eq] at hj

theorem br_jumps {s : State} {g : Guard} (h : Clears s { barred g with msgOk := true }) (target : BitVec 15) :
    (Landing s target.toNat → exec (.br g target) s = .next (goesTo s s target.toNat)) ∧
      (¬ Landing s target.toNat → exec (.br g target) s = .next (traps s 0x03 (BitVec.ofNat 64 target.toNat))) := by
  rw [exec_br]
  exact issue_jump (clears_congr h rfl rfl rfl rfl rfl rfl) rfl rfl rfl

section
variable {s : State} {g : Guard} (h : Clears s (barred g))
include h

theorem jal_jumps (a : SReg) (target : BitVec 15) {link : Strand → Strand} (hlink : ∀ x, link x = x.wr a (s.seqPc.setWidth 64) false) :
    (Landing s target.toNat → exec (.jal g a target) s = .next (goesTo s (s.updMe link) target.toNat)) ∧
      (¬ Landing s target.toNat → exec (.jal g a target) s = .next (traps s 0x03 (BitVec.ofNat 64 target.toNat))) := by
  obtain rfl := funext hlink
  rw [exec_jal]
  exact issue_jump (clears_control h _) rfl rfl rfl

theorem jr_jumps (a : SReg) {b : SReg} (hb : s.me.tag b = false) {link : Strand → Strand}
    (hlink : ∀ x, link x = x.wr a (s.seqPc.setWidth 64) false) :
    (Landing s (s.me.rd b).toNat → exec (.jr g a b) s = .next (goesTo s (s.updMe link) (s.me.rd b).toNat)) ∧
      (¬ Landing s (s.me.rd b).toNat → exec (.jr g a b) s = .next (traps s 0x03 (s.me.rd b))) := by
  obtain rfl := funext hlink
  rw [exec_jr]
  exact issue_jump_register (clears_control h _) rfl rfl (if_neg (Bool.eq_false_iff.1 hb))

theorem ret_jumps (h1 : s.me.tag 1 = false) :
    (Landing s (s.me.rd 1).toNat → exec (.ret g) s = .next (goesTo s s (s.me.rd 1).toNat)) ∧
      (¬ Landing s (s.me.rd 1).toNat → exec (.ret g) s = .next (traps s 0x03 (s.me.rd 1))) := by
  rw [exec_ret]
  exact issue_jump_register (clears_control h _) rfl rfl (if_neg (Bool.eq_false_iff.1 h1))

theorem loop_ends {a : SReg} (ha : s.me.tag a = false) (hc : (s.me.rd a).toNat ≤ 1) (target : BitVec 15) :
    exec (.loop g a target) s = .next (retired s (s.updMe fun x => x.wr a 0 false)) := by
  rw [exec_loop]
  exact issue_done (clears_control h _) rfl rfl ((if_neg (Bool.eq_false_iff.1 ha)).trans (if_pos hc))

theorem loop_jumps {a : SReg} (ha : s.me.tag a = false) (hc : 1 < (s.me.rd a).toNat) (target : BitVec 15) :
    (Landing s target.toNat →
        exec (.loop g a target) s = .next (goesTo s (s.updMe fun x => x.wr a (s.me.rd a - 1) false) target.toNat)) ∧
      (¬ Landing s target.toNat → exec (.loop g a target) s = .next (traps s 0x03 (BitVec.ofNat 64 target.toNat))) := by
  rw [exec_loop, updMe_congr (g := fun x => x.wr a (x.rd a - 1) false) rfl]
  exact issue_jump (clears_control h _) rfl rfl ((if_neg (Bool.eq_false_iff.1 ha)).trans (if_neg (by omega)))

/-- BRC past its operands' poison: the jump when its condition holds, else on (R76). -/
theorem brc_effect (cc : Cond) {a b : SReg} (ha : s.me.tag a = false) (hb : s.me.tag b = false) (target : BitVec 15) :
    (condHolds cc (s.me.rd a) (s.me.rd b) = false → exec (.brc g cc a b target) s = .next (retired s s)) ∧
      (condHolds cc (s.me.rd a) (s.me.rd b) = true →
        (Landing s target.toNat → exec (.brc g cc a b target) s = .next (goesTo s s target.toNat)) ∧
          (¬ Landing s target.toNat → exec (.brc g cc a b target) s = .next (traps s 0x03 (BitVec.ofNat 64 target.toNat)))) := by
  have hp : s.me.lowPoison [a, b] = none := lowPoison_none _ _ (by simp [ha, hb])
  rw [exec_brc]
  refine ⟨fun hc => issue_done (clears_control h _) rfl rfl ?_, fun hc => issue_jump (clears_control h _) rfl rfl ?_⟩
  · simp only [hp, hc, Bool.false_eq_true, if_false]
  · simp only [hp, hc, if_true]

end

/-- Settles O7: each transfer is a jump by `issue_jump`, beside LOOP at its end and BRC without its condition. -/
theorem branches : Obligations.Branches := by
  unfold Obligations.Branches
  intro s g a b target link hlink
  refine ⟨fun h => br_jumps h target, fun h => ?_⟩
  obtain ⟨hjal, hjal'⟩ := jal_jumps h a target hlink
  refine ⟨hjal, hjal', fun hb => jr_jumps h a hb hlink, ret_jumps h, fun ha => ?_, fun ha hb cc => ?_⟩
  · exact ⟨fun hc => loop_ends h ha hc target, fun hc => (loop_jumps h ha hc target).1, fun hc => (loop_jumps h ha hc target).2⟩
  · obtain ⟨hon, htaken⟩ := brc_effect h cc ha hb target
    exact ⟨hon, fun hc => (htaken hc).1, fun hc => (htaken hc).2⟩

/-! ## Poisoned operands (R78, R79, R81) -/

/-- Of two registers the lower-numbered poisoned one is reported. -/
theorem lowPoison_pair (x : Strand) (a b : SReg) :
    (x.tag a = true → (x.tag b = true → a.toNat ≤ b.toNat) → x.lowPoison [a, b] = some a) ∧
      (x.tag b = true → (x.tag a = true → b.toNat ≤ a.toNat) → x.lowPoison [a, b] = some b) := by
  unfold Strand.lowPoison
  cases ha : x.tag a <;> cases hb : x.tag b <;> simp [ha, hb]
  refine ⟨fun hle hlt => absurd hlt (by omega), fun hle hge => BitVec.eq_of_toNat_eq (by omega)⟩

section
variable {s : State} {g : Guard} (h : Clears s (barred g))
include h

theorem jr_poisoned (a : SReg) {b : SReg} (hb : s.me.tag b = true) : exec (.jr g a b) s = .next (traps s 0x08 (b.setWidth 64)) := by
  rw [exec_jr]
  exact issue_trap (clears_control h _) rfl (if_pos hb)

theorem ret_poisoned (h1 : s.me.tag 1 = true) : exec (.ret g) s = .next (traps s 0x08 1) := by
  rw [exec_ret]
  exact issue_trap (clears_control h _) rfl (if_pos h1)

theorem loop_poisoned {a : SReg} (ha : s.me.tag a = true) (target : BitVec 15) :
    exec (.loop g a target) s = .next (traps s 0x08 (a.setWidth 64)) := by
  rw [exec_loop]
  exact issue_trap (clears_control h _) rfl (if_pos ha)

theorem brc_poisoned (cc : Cond) {a b r : SReg} (hr : s.me.lowPoison [a, b] = some r) (target : BitVec 15) :
    exec (.brc g cc a b target) s = .next (traps s 0x08 (r.setWidth 64)) := by
  rw [exec_brc]
  exact issue_trap (clears_control h _) rfl (by simp only [hr])

end

/-! ## REP (R81) -/

theorem exec_rep (s : State) (g : Guard) (a : SReg) (len : BitVec 6) (n : BitVec 15) :
    exec (.rep g a len n) s = execRep g a len n s := rfl

theorem rep_allowed {x : Strand} {len : BitVec 6} (htd : x.td = false) (hlen : len ≠ 0) : ¬ (x.td = true ∨ len = 0) :=
  not_or.2 ⟨Bool.eq_false_iff.1 htd, hlen⟩

theorem exec_repStreamLoad (s : State) (g : Guard) : exec (.repStreamLoad g) s = execRepStreamLoad g s := rfl

section
variable {s : State} {g : Guard} (h : Clears s (barred g))
include h

theorem rep_refused {len : BitVec 6} (hr : s.me.td = true ∨ len = 0) (a : SReg) (n : BitVec 15) :
    exec (.rep g a len n) s = .next (traps s 0x01 0x4605) := by
  rw [exec_rep]
  exact issue_trap (clears_control h _) rfl (if_pos hr)

variable {len : BitVec 6} (hr : ¬ (s.me.td = true ∨ len = 0))
include hr

theorem rep_poisoned {a : SReg} (ha : s.me.tag a = true) (n : BitVec 15) :
    exec (.rep g a len n) s = .next (traps s 0x08 (a.setWidth 64)) := by
  rw [exec_rep]
  exact issue_trap (clears_control h _) rfl ((if_neg hr).trans (if_pos ha))

variable {a : SReg} (ha : s.me.tag a = false) {n : BitVec 15}
include ha

theorem rep_starts {count : Nat} (hc : count = if a = 0 then n.toNat else (s.me.rd a).toNat) (hpos : 0 < count) :
    exec (.rep g a len n) s = .next (retiredAt s s.seqPc ⟨true, count, s.seqPc, len.toNat, 0⟩) := by
  subst hc
  rw [exec_rep]
  exact issue_goto (clears_control h _) rfl rfl
    ((if_neg hr).trans ((if_neg (Bool.eq_false_iff.1 ha)).trans (if_neg (by omega))))

variable (hf : s.forwarded = false) (hc : (if a = 0 then n.toNat else (s.me.rd a).toNat) = 0)
include hf hc

theorem rep_passes_over {pc : Pc} (hp : s.myTile.skipBody s.seqPc len.toNat = .inr pc) :
    exec (.rep g a len n) s = .next (retiredAt s pc {}) := by
  rw [exec_rep]
  refine issue_goto (clears_control h _) rfl rfl
    ((if_neg hr).trans ((if_neg (Bool.eq_false_iff.1 ha)).trans ((if_pos hc).trans ?_)))
  simp only [hf, hp]

theorem rep_meets_illegal_line {pc : Pc} (hp : s.myTile.skipBody s.seqPc len.toNat = .inl pc) :
    exec (.rep g a len n) s = .next (s.trapMe 0x02 (BitVec.ofNat 15 (pcLine pc)) (BitVec.ofNat 64 (pcLine pc))) := by
  rw [exec_rep]
  refine issue_trapAt (clears_control h _) rfl
    ((if_neg hr).trans ((if_neg (Bool.eq_false_iff.1 ha)).trans ((if_pos hc).trans ?_)))
  simp only [hf, hp]

end

/-! ## The test of a target (R51, R373) -/

theorem isLiteralHead_iff (h : Half) : isLiteralHead h = true ↔ h ∈ ([0xFD00, 0xFE00, 0xFF00] : List Half) := by
  simp [isLiteralHead]

section
variable {t : Nat} (ht : t < 2 ^ 15)
include ht

theorem pcSlot_ofNat : pcSlot (BitVec.ofNat 15 t) = t % 64 / 2 := by
  rw [pcSlot, BitVec.toNat_ofNat, Nat.mod_eq_of_lt ht]

theorem pcLine_ofNat : pcLine (BitVec.ofNat 15 t) = t / 64 * 64 := by
  rw [pcLine, BitVec.toNat_ofNat, Nat.mod_eq_of_lt ht]

theorem odd_ofNat : (BitVec.ofNat 15 t).getLsbD 0 = true ↔ t % 2 = 1 := by
  rw [BitVec.getLsbD, BitVec.toNat_ofNat, Nat.mod_eq_of_lt ht, Nat.testBit_zero, decide_eq_true_eq]

theorem badTarget_of_owned {T : Tile} (ho : T.codeOwned (t / 64 * 64) = true) :
    T.badTarget t = true ↔ t % 2 = 1 ∨ t % 64 / 2 = 0 ∨ (malformed (T.codeHalf (BitVec.ofNat 15 t)) = false ∧
      ((T.codeHalf (BitVec.ofNat 15 t) 0).toNat / 2048 < t % 64 / 2 ∨
        T.codeHalf (BitVec.ofNat 15 t) (t % 64 / 2) ∈ ([0xFD00, 0xFE00, 0xFF00] : List Half))) := by
  have hlt : ¬ 2 ^ 15 ≤ t := Nat.not_le.2 ht
  simp only [Tile.badTarget, pcSlot_ofNat ht, pcLine_ofNat ht, ho, hlt, Bool.or_eq_true, Bool.and_eq_true, Bool.not_eq_true',
    decide_eq_true_eq, odd_ofNat ht, lineH_eq, isLiteralHead_iff]
  simp [or_assoc]

theorem badTarget_of_not_owned {T : Tile} (ho : T.codeOwned (t / 64 * 64) = false) : T.badTarget t = true := by
  simp [Tile.badTarget, pcLine_ofNat ht, ho]

end

theorem badTarget_above {T : Tile} {t : Nat} (ht : 2 ^ 15 ≤ t) : T.badTarget t = true := by
  simp only [Tile.badTarget, ht, decide_true, Bool.true_or]

/-- Settles O8: each poisoned operand by its instruction's law, and R51's test by its terms (`badTarget_of_owned`). -/
theorem branchTraps : Obligations.BranchTraps := by
  unfold Obligations.BranchTraps
  refine ⟨fun s g cc a b len target h => ⟨jr_poisoned h a, ret_poisoned h, fun ha => loop_poisoned h ha target,
    fun ha htd hlen => rep_poisoned h (rep_allowed htd hlen) ha target, fun ha hle => ?_, fun hb hle => ?_⟩, fun T t => ?_⟩
  · exact brc_poisoned h cc ((lowPoison_pair s.me a b).1 ha hle) target
  · exact brc_poisoned h cc ((lowPoison_pair s.me a b).2 hb hle) target
  · exact ⟨fun ht ho => badTarget_of_owned ht ho, fun ht ho => badTarget_of_not_owned ht ho, badTarget_above⟩

/-! ## The stream-load form of REP, and the repeat's advance (R29, R81) -/

/-- The strand with bits 33:0 of s24-s31 in k0-k7. -/
def streamsLoaded (x : Strand) : Strand :=
  (List.range 8).foldl (fun x i => x.kwr (BitVec.ofNat 3 i) (BitVec.ofNat 64 (bitsOf (x.rd (BitVec.ofNat 6 (24 + i))) 0 34))) x

theorem exec_repStreamLoad_clean {s : State} {g : Guard} (h : Clears s (barred g)) (htd : s.me.td = false)
    (hclean : ∀ r : SReg, 24 ≤ r.toNat → r.toNat < 32 → s.me.tag r = false) :
    exec (.repStreamLoad g) s = .next (retired s (s.setMe (streamsLoaded s.me))) := by
  have hp : s.me.lowPoison [24, 25, 26, 27, 28, 29, 30, 31] = none :=
    lowPoison_none _ _ (by
      intro r hr
      have hrange : ∀ r ∈ ([24, 25, 26, 27, 28, 29, 30, 31] : List SReg), 24 ≤ r.toNat ∧ r.toNat < 32 := by decide
      exact hclean r (hrange r hr).1 (hrange r hr).2)
  rw [exec_repStreamLoad]
  refine issue_done (clears_control h _) rfl rfl ((if_neg (Bool.eq_false_iff.1 htd)).trans ?_)
  simp only [hp]
  rfl

theorem rep_next_in_body {r : Rep} (seq : Pc) (ha : r.active = true) (hi : r.idx + 1 < r.len) :
    r.next seq = (seq, { r with idx := r.idx + 1 }) := by
  rw [Rep.next, if_pos ha, if_pos hi]

theorem rep_next_again {r : Rep} (seq : Pc) (ha : r.active = true) (hi : r.len ≤ r.idx + 1) (hl : 1 < r.left) :
    r.next seq = (r.first, { r with left := r.left - 1, idx := 0 }) := by
  rw [Rep.next, if_pos ha, if_neg (Nat.not_lt.2 hi), if_pos hl]

theorem rep_next_ends {r : Rep} (seq : Pc) (ha : r.active = true) (hi : r.len ≤ r.idx + 1) (hl : r.left ≤ 1) :
    r.next seq = (seq, {}) := by
  rw [Rep.next, if_pos ha, if_neg (Nat.not_lt.2 hi), if_neg (Nat.not_lt.2 hl)]

/-- Settles O9: REP by its count, with the skipped body walked by `skipBody_ok` and `skipBody_bad`, and the repeat by `Rep.next`'s cases. -/
theorem repeat_ : Obligations.Repeat := by
  unfold Obligations.Repeat
  refine ⟨⟨?_, ?_, ?_⟩, ?_, ?_⟩
  · intro s g a len n h htd hlen ha count hc hpos
    exact rep_starts h (rep_allowed htd hlen) ha hc hpos
  · intro s g h htd hclean
    obtain ⟨-, hk, hframe⟩ := streams_loaded s.me 8 (Nat.le_refl 8)
    exact ⟨streamsLoaded s.me, exec_repStreamLoad_clean h htd hclean, hk, hframe⟩
  · intro r seq ha
    refine ⟨rep_next_in_body seq ha, rep_next_again seq ha, fun hi hl => ?_⟩
    rw [rep_next_ends seq ha hi hl]
    exact ⟨rfl, rfl⟩
  · intro s g a len n h htd hlen ha hf hc at_ h0 hnext
    refine ⟨fun hok => ?_, fun j hj hok hbad => ?_⟩
    · have hskip := skipBody_ok s.myTile at_ len.toNat 0 hnext (by simpa using hok)
      rw [h0, Nat.zero_add] at hskip
      exact rep_passes_over h (rep_allowed htd hlen) ha hf hc hskip
    · have hskip := skipBody_bad s.myTile at_ len.toNat 0 j hnext hj (by simpa using hok) (by simpa using hbad)
      rw [h0, Nat.zero_add] at hskip
      exact rep_meets_illegal_line h (rep_allowed htd hlen) ha hf hc hskip
  · intro s g a len n h hr
    exact rep_refused h hr a n

end Sys2Proof.Proofs
end

section
/-! PROOFS. Scalar and predicate instructions (R70-R77, R181): one law for each shape of instruction, and one equation for each function
that the model writes in its own way. -/

namespace Sys2Proof.Proofs

open Sys2Proof.Machine Sys2Proof.Safety Sys2Proof.Laws

/-! ## The checks at issue (R60) -/

/-- What the checks of R60 look at is the same of two instructions. -/
theorem clears_with {s : State} {i : Info} (h : Clears s i) (j : Info) (hj : (i.bodyOk, i.formats, i.guard, i.msgOk, i.regs, i.priv) =
    (j.bodyOk, j.formats, j.guard, j.msgOk, j.regs, j.priv)) : Clears s j := by
  simp only [Prod.mk.injEq] at hj
  obtain ⟨hb, hf, hg, hm, hr, hp⟩ := hj
  exact clears_congr h hb hf hg hm hr hp

/-! ## One result in a scalar register (R27, R30, R71) -/

section
variable {s : State} {g : Guard} {d a b : SReg} {x y w : Word} {tag : Bool}

/-- An instruction of two sources clears the checks; its sources hold these values, and this is the OR of their tags (R30, R60). -/
structure TwoSources (s : State) (g : Guard) (d a b : SReg) (x y : Word) (tag : Bool) : Prop where
  clears : Clears s (inSet g [d, a, b])
  first : s.me.rd a = x
  second : s.me.rd b = y
  tags : (s.me.tag a || s.me.tag b) = tag

/-- The same of an instruction of one source. -/
structure OneSource (s : State) (g : Guard) (d a : SReg) (x : Word) (tag : Bool) : Prop where
  clears : Clears s (inSet g [d, a])
  value : s.me.rd a = x
  tags : s.me.tag a = tag

/-- An instruction of two sources writes its function of them, tagged with the OR of their tags. -/
theorem binary_writes (h : TwoSources s g d a b x y tag) (head : Nat) (f : Word → Word → Word) (hw : f x y = w) :
    s.issue (scalarInfo head g [d, a, b]) (scalarBody d (fun m => f (m.rd a) (m.rd b)) [a, b]) = .next (regResult s d w tag) := by
  obtain ⟨hclears, rfl, rfl, ht⟩ := h
  exact issue_scalar (clears_with hclears _ rfl) rfl rfl hw ((tags_pair _ _ _).trans ht)

/-- An instruction of one source writes its function of it, with its tag. -/
theorem unary_writes (h : OneSource s g d a x tag) (head : Nat) (f : Word → Word) (hw : f x = w) :
    s.issue (scalarInfo head g [d, a]) (scalarBody d (fun m => f (m.rd a)) [a]) = .next (regResult s d w tag) := by
  obtain ⟨hclears, rfl, ht⟩ := h
  exact issue_scalar (clears_with hclears _ rfl) rfl rfl hw ((tags_one _ _).trans ht)

end

theorem shift_lt (y : Word) : y.toNat % 64 < 64 := Nat.mod_lt _ (by decide)

/-- Settles O1: each instruction is an issue of two sources (`binary_writes`), with R71's function. -/
theorem scalarRegisterOperations : Obligations.ScalarRegisterOperations := by
  unfold Obligations.ScalarRegisterOperations
  intro s g d a b x y tag h hx hy ht
  have op := fun head f w hw => binary_writes (w := w) ⟨h, hx, hy, ht⟩ head f hw
  refine ⟨op _ (· + ·) _ rfl, op _ (· - ·) _ rfl, op _ (· &&& ·) _ rfl, op _ (· ||| ·) _ rfl, op _ (· ^^^ ·) _ rfl,
    op _ (fun x y => x &&& ~~~y) _ rfl, op _ (fun x y => x <<< bitsOf y 0 6) _ ?_, op _ (fun x y => x >>> bitsOf y 0 6) _ ?_,
    op _ (fun x y => x.sshiftRight (bitsOf y 0 6)) _ ?_, op _ (fun x y => rolWord x (bitsOf y 0 6)) _ ?_,
    op _ minS _ (minS_eq x y), op _ maxS _ (maxS_eq x y), op _ minU _ (minU_eq x y), op _ maxU _ (maxU_eq x y),
    op _ (· * ·) _ rfl, op _ mulHigh _ rfl, op _ mulHighU _ rfl⟩
  · rw [shift_amount]
  · rw [shift_amount]
  · rw [shift_amount]
  · rw [shift_amount, rolWord_eq _ _ (shift_lt y)]

/-- Settles O2: each instruction is an issue of one source (`unary_writes`), with R71's function of it and the immediate. -/
theorem scalarImmediateOperations : Obligations.ScalarImmediateOperations := by
  unfold Obligations.ScalarImmediateOperations
  intro s g d a imm x y tag h hx hy ht
  subst hy
  have op := fun head f w hw => unary_writes (w := w) ⟨h, hx, ht⟩ head f hw
  refine ⟨op _ (· + simm imm) _ rfl, op _ (· &&& simm imm) _ rfl, op _ (· ||| simm imm) _ rfl, op _ (· ^^^ simm imm) _ rfl,
    op _ (· &&& ~~~(simm imm)) _ rfl, op _ (· <<< bitsOf (simm imm) 0 6) _ ?_, op _ (· >>> bitsOf (simm imm) 0 6) _ ?_,
    op _ (·.sshiftRight (bitsOf (simm imm) 0 6)) _ ?_, op _ (rolWord · (bitsOf (simm imm) 0 6)) _ ?_,
    op _ (minS · (simm imm)) _ (minS_eq x _), op _ (maxS · (simm imm)) _ (maxS_eq x _), op _ (minU · (simm imm)) _ (minU_eq x _),
    op _ (maxU · (simm imm)) _ (maxU_eq x _), op _ (· * simm imm) _ rfl⟩
  · rw [shift_amount]; rfl
  · rw [shift_amount]; rfl
  · rw [shift_amount]; rfl
  · rw [shift_amount, rolWord_eq _ _ (shift_lt _)]; rfl

/-! ## Division (R72) -/

theorem divS_zero (x : Word) : divS x 0 = BitVec.ofInt 64 (-1) := by
  rw [divS, if_pos rfl]; decide

theorem divU_zero (x : Word) : divU x 0 = BitVec.ofInt 64 (-1) := by
  rw [divU, if_pos rfl]; decide

theorem remS_zero (x : Word) : remS x 0 = x := if_pos rfl

theorem remU_zero (x : Word) : remU x 0 = x := if_pos rfl

section
variable {y : Word} (hy : y ≠ 0) (x : Word)
include hy

theorem divS_of_ne_zero : divS x y = BitVec.ofInt 64 (x.toInt.tdiv y.toInt) := if_neg hy

theorem divU_of_ne_zero : divU x y = BitVec.ofNat 64 (x.toNat / y.toNat) := if_neg hy

theorem remS_of_ne_zero : remS x y = BitVec.ofInt 64 (x.toInt.tmod y.toInt) := by
  rw [remS, if_neg hy, Int.tmod_def]

theorem remU_of_ne_zero : remU x y = BitVec.ofNat 64 (x.toNat % y.toNat) := if_neg hy

end

/-- Settles O3: the three cases of R72 by the value of its divisor; −2^63 by −1 is a case of the truncated quotient. -/
theorem division : Obligations.Division := by
  unfold Obligations.Division
  intro s g d a b x y tag h hx hy ht
  have op := fun head f w hw => binary_writes (w := w) ⟨h, hx, hy, ht⟩ head f hw
  refine ⟨?_, fun hmin hone => ?_, fun hne => ?_⟩
  · rintro rfl
    exact ⟨op _ divS _ (divS_zero x), op _ divU _ (divU_zero x), op _ remS _ (remS_zero x), op _ remU _ (remU_zero x)⟩
  · have hne : y ≠ 0 := by rintro rfl; simp at hone
    refine ⟨op _ divS _ ?_, op _ remS _ ?_⟩
    · rw [divS_of_ne_zero hne, hmin, hone]; decide
    · rw [remS_of_ne_zero hne, hmin, hone]; decide
  · exact ⟨op _ divS _ (divS_of_ne_zero hne x), op _ divU _ (divU_of_ne_zero hne x), op _ remS _ (remS_of_ne_zero hne x),
      op _ remU _ (remU_of_ne_zero hne x)⟩

/-! ## Counts, extensions and bit fields (R73, R74) -/

theorem toNat_ne_zero_iff {x : Word} : x.toNat ≠ 0 ↔ x ≠ 0 :=
  not_congr ⟨fun h => BitVec.eq_of_toNat_eq h, fun h => congrArg BitVec.toNat h⟩

theorem clz_count (x : Word) : ∃ n, leadingZeros x.toNat 64 = n ∧ n ≤ 64 ∧ x.toNat < 2 ^ (64 - n) ∧
    (x ≠ 0 → 2 ^ (63 - n) ≤ x.toNat) ∧ (x = 0 → n = 64) := by
  obtain ⟨hle, hlt, hne, hzero⟩ := leadingZeros_spec x.toNat 64 x.isLt
  exact ⟨_, rfl, hle, hlt, fun h => (hne (toNat_ne_zero_iff.2 h)).2, fun h => hzero (by rw [h]; rfl)⟩

theorem ctz_count (x : Word) : ∃ n, trailingZeros x.toNat 64 = n ∧ n ≤ 64 ∧ x.toNat % 2 ^ n = 0 ∧
    (x ≠ 0 → x.getLsbD n = true) ∧ (x = 0 → n = 64) := by
  obtain ⟨hle, hmod, hne, hzero⟩ := trailingZeros_spec 64 x.toNat x.isLt
  exact ⟨_, rfl, hle, hmod, fun h => hne (toNat_ne_zero_iff.2 h), fun h => hzero (by rw [h]; rfl)⟩

theorem absWord_eq (x : Word) : absWord x = if x.msb then -x else x := by
  rw [absWord, BitVec.msb_eq_toInt]
  simp only [decide_eq_true_eq]

/-- Zero extension from n bits is the AND with n ones. -/
theorem setWidth_setWidth_eq_and (x : Word) {n : Nat} (hn : n ≤ 64) :
    (x.setWidth n).setWidth 64 = x &&& BitVec.ofNat 64 (2 ^ n - 1) := by
  have hlt : 2 ^ n - 1 < 2 ^ 64 := lt_of_lt_of_le (Nat.sub_lt (Nat.two_pow_pos n) Nat.one_pos) (Nat.pow_le_pow_right (by decide) hn)
  apply BitVec.eq_of_toNat_eq
  rw [BitVec.toNat_and, BitVec.toNat_ofNat, Nat.mod_eq_of_lt hlt, Nat.and_two_pow_sub_one_eq_mod, BitVec.toNat_setWidth,
    BitVec.toNat_setWidth]
  exact Nat.mod_eq_of_lt (lt_of_le_of_lt (Nat.mod_le _ _) x.isLt)

/-- The signed reading of n bits is the integer that they stand for. -/
theorem signedOf_toNat {n : Nat} (hn : 0 < n) (x : BitVec n) : signedOf n x.toNat = x.toInt := by
  have hpow : 2 ^ n = 2 * 2 ^ (n - 1) := by rw [← pow_succ']; congr 1; omega
  have hx := x.isLt
  rw [BitVec.toInt_eq_toNat_cond, signedOf, Nat.mod_eq_of_lt hx]
  split <;> split <;> omega

theorem bitsOf_eq_extract (x : Word) (lo len : Nat) : bitsOf x lo len = (x.extractLsb' lo len).toNat := by
  rw [BitVec.extractLsb'_toNat, Nat.shiftRight_eq_div_pow, bitsOf]

theorem field_extended (x : Word) (pos len : BitVec 6) :
    BitVec.ofNat 64 (fieldOf x pos len) = (x.extractLsb' pos.toNat (len.toNat + 1)).setWidth 64 := by
  rw [fieldOf, bitsOf_eq_extract, BitVec.ofNat_toNat]

theorem field_sign_extended (x : Word) (pos len : BitVec 6) :
    BitVec.ofInt 64 (signedOf (len.toNat + 1) (fieldOf x pos len)) = (x.extractLsb' pos.toNat (len.toNat + 1)).signExtend 64 := by
  rw [fieldOf, bitsOf_eq_extract, signedOf_toNat (Nat.succ_pos _)]
  rfl

/-- BFI reads its destination too. -/
theorem bfi_writes {s : State} {g : Guard} {d a : SReg} (h : Clears s (inSet g [d, a])) (pos len : BitVec 6) :
    exec (.bfi g d a pos len) s = .next (regResult s d (withBits (s.me.rd d) pos.toNat (len.toNat + 1) (s.me.rd a).toNat)
      (s.me.tag d || s.me.tag a)) :=
  issue_scalar (clears_with h _ rfl) rfl rfl rfl (tags_pair _ _ _)

/-- Settles O4: the counts by the laws of their recursions, the fields by their bits. -/
theorem unaryAndFieldOperations : Obligations.UnaryAndFieldOperations := by
  unfold Obligations.UnaryAndFieldOperations
  intro s g d a pos len x tag h hx ht _
  have op := fun head f w hw => unary_writes (w := w) ⟨h, hx, ht⟩ head f hw
  refine ⟨?_, ?_, op _ (fun x => BitVec.ofNat 64 (onesCount x.toNat 64)) _ ?_, op _ absWord _ (absWord_eq x), op _ (fun x => x) _ rfl,
    op _ (sextSize .b) _ rfl, op _ (sextSize .h) _ rfl, op _ (sextSize .w) _ rfl,
    op _ (zextSize .b) _ (setWidth_setWidth_eq_and x (by decide)), op _ (zextSize .h) _ (setWidth_setWidth_eq_and x (by decide)),
    op _ (zextSize .w) _ (setWidth_setWidth_eq_and x (by decide)),
    op _ (fun x => BitVec.ofNat 64 (fieldOf x pos len)) _ (field_extended x pos len),
    op _ (fun x => BitVec.ofInt 64 (signedOf (len.toNat + 1) (fieldOf x pos len))) _ (field_sign_extended x pos len), ?_⟩
  · obtain ⟨n, hn, hcount⟩ := clz_count x
    exact ⟨n, op _ (fun x => BitVec.ofNat 64 (leadingZeros x.toNat 64)) _ (congrArg _ hn), hcount⟩
  · obtain ⟨n, hn, hcount⟩ := ctz_count x
    exact ⟨n, op _ (fun x => BitVec.ofNat 64 (trailingZeros x.toNat 64)) _ (congrArg _ hn), hcount⟩
  · rw [onesCount_spec]; rfl
  · subst hx ht
    refine ⟨_, bfi_writes h pos len, fun i hi => ?_⟩
    rw [withBits_getLsbD _ _ _ _ _ hi, Nat.add_assoc]
    rfl

/-- Settles O5: LIT has no source, LEA two, and SEL three, of which the predicate is one. -/
theorem litLeaSel : Obligations.LitLeaSel := by
  unfold Obligations.LitLeaSel
  intro s g d a b x y tag hx hy ht
  refine ⟨fun len l h => issue_scalar (clears_with h _ rfl) rfl rfl rfl rfl,
    fun scale h => binary_writes ⟨h, hx, hy, ht⟩ _ (fun x y => x + y <<< scale.toNat) rfl, fun n h => ?_⟩
  subst hx hy ht
  change execSel g d a b n s = _
  refine (issue_done (clears_with h _ (by rfl)) rfl rfl rfl).trans ?_
  rw [← tags_pair]
  exact congrArg (fun t => Host.Outcome.next (retired s t)) (updMe_congr rfl)

/-! ## One result in a predicate (R76, R77, R181) -/

theorem condHolds_ge (x y : Word) : condHolds .ge x y = !x.slt y := by
  simp only [condHolds, BitVec.slt, ← decide_not, not_lt]

theorem condHolds_geu (x y : Word) : condHolds .geu x y = !x.ult y := by
  simp only [condHolds, BitVec.ult, ← decide_not, not_lt]

section
variable {s : State} {g : Guard} {a b : SReg} {x y : Word}

/-- A comparison of two registers writes its truth, tagged with the OR of their tags. -/
theorem compare_writes (h : Clears s (inSet g [a, b])) (hx : s.me.rd a = x) (hy : s.me.rd b = y) (head : Nat) (pd : PReg)
    (f : Word → Word → Bool) {w : Bool} (hw : f x y = w) :
    s.issue (scalarInfo head g [a, b]) (predBody pd (fun m => f (m.rd a) (m.rd b)) (fun m => m.tags [a, b])) =
      .next (predResult s pd w (s.me.tag a || s.me.tag b)) := by
  subst hx hy
  exact issue_predicate (clears_with h _ rfl) rfl rfl hw (tags_pair _ _ _)

/-- A comparison with an immediate writes its truth, with the register's tag. -/
theorem compare_immediate_writes (h : Clears s (inSet g [a])) (hx : s.me.rd a = x) (head : Nat) (pd : PReg)
    (f : Word → Bool) {w : Bool} (hw : f x = w) :
    s.issue (scalarInfo head g [a]) (predBody pd (fun m => f (m.rd a)) (fun m => m.tags [a])) =
      .next (predResult s pd w (s.me.tag a)) := by
  subst hx
  exact issue_predicate (clears_with h _ rfl) rfl rfl hw (tags_one _ _)

end

/-- A mask instruction writes all 64 bits, each with the poison of its source bits. -/
theorem mask_writes {s : State} {g : Guard} (h : Clears s (ordinary g)) (head : Nat) (q : PReg) (srcs : List PReg)
    (f t : Strand → BitVec 64) (ht : srcs.foldl (fun t q => t ||| s.me.qt q) 0 = t s.me) :
    s.issue { head := head, guard := g } (maskBody q srcs f) = .next (retired s (s.updMe fun m => m.qwr q (f m) (t m))) := by
  refine (issue_done (clears_with h _ (by rfl)) rfl rfl rfl).trans ?_
  rw [updMe_congr (g := fun m => m.qwr q (f m) (t m)) (by rw [ht])]
  rfl

/-- Settles O6: comparisons by the number of their registers, predicates and masks by their source bits. -/
theorem comparisonsAndPredicates : Obligations.ComparisonsAndPredicates := by
  unfold Obligations.ComparisonsAndPredicates
  refine ⟨fun s g pd a b imm x y z hx hy hz => ⟨fun h => ?_, fun h => ?_⟩, fun s g x y z h => ?_⟩
  · have op := fun head f w hw => compare_writes (w := w) h hx hy head pd f hw
    exact ⟨op _ (condHolds .eq) _ rfl, op _ (condHolds .ne) _ rfl, op _ (condHolds .lt) _ rfl,
      op _ (condHolds .ge) _ (condHolds_ge x y), op _ (condHolds .ltu) _ rfl, op _ (condHolds .geu) _ (condHolds_geu x y),
      op _ (fun x y => decide (x &&& y ≠ 0)) _ rfl, op _ (fun x y => decide (x &&& y = 0)) _ rfl⟩
  · subst hz
    have op := fun head f w hw => compare_immediate_writes (w := w) h hx head pd f hw
    exact ⟨op _ (condHolds .eq · (simm imm)) _ rfl, op _ (condHolds .ne · (simm imm)) _ rfl, op _ (condHolds .lt · (simm imm)) _ rfl,
      op _ (condHolds .ge · (simm imm)) _ (condHolds_ge x _), op _ (condHolds .ltu · (simm imm)) _ rfl,
      op _ (condHolds .geu · (simm imm)) _ (condHolds_geu x _), op _ (fun x => decide (x &&& simm imm ≠ 0)) _ rfl,
      op _ (fun x => decide (x &&& simm imm = 0)) _ rfl⟩
  · have op := fun head f t => issue_predicate (d := x) (v := f) (t := t) (i := { head := head, guard := g }) (clears_with h _ rfl) rfl rfl rfl rfl
    have mask := fun head srcs f t ht => mask_writes h head x srcs f t ht
    exact ⟨op _ _ _, op _ _ _, op _ _ _, op _ _ _, op _ _ _, op _ _ _, mask _ [y, z] _ (fun m => m.qt y ||| m.qt z) (by simp),
      mask _ [y, z] _ (fun m => m.qt y ||| m.qt z) (by simp), mask _ [y] _ (fun m => m.qt y) (by simp)⟩

end Sys2Proof.Proofs
end

section
/-! PROOFS. Loads, stores and fences of the tile (R85-R88, R96, R97, R127-R132, R276): what each region reads, the causes of an access in
their order, what a store leaves, and the views that a fence pushes. -/

namespace Sys2Proof.Proofs

open Sys2Proof.Machine Sys2Proof.Safety Sys2Proof.Laws

/-! ## What a tile reads (R85, R129, R132) -/

theorem committed_eq (m : TMem) {a : Nat} (h : 0x8000 ≤ a) : m.committed a = m.byte (128 * m.frameOf (lineOf a) + a % 128) := by
  rw [TMem.committed, physOf_eq _ _ h]

theorem committedPoison_eq (m : TMem) {a : Nat} (h : 0x8000 ≤ a) :
    m.committedPoison a = m.poison.getLsbD (16 * m.frameOf (lineOf a) + a % 128 / 8) := by
  rw [TMem.committedPoison, physOf_eq _ _ h]
  congr 1
  omega

theorem own_without_delta {m : TMem} {a : Nat} (h : m.deltas.find (lineOf a) = none) : m.own a = m.committed a := by
  rw [TMem.own, h]

theorem own_unwritten {m : TMem} {a : Nat} {d : Delta} (h : m.deltas.find (lineOf a) = some d) (hd : d.own.getLsbD (a % 128) = false) :
    m.own a = m.committed a := by
  simp only [TMem.own, h, hd, Bool.false_eq_true, if_false]

theorem ownPoison_without_delta {m : TMem} {a : Nat} (h : m.deltas.find (lineOf a) = none) : m.ownPoison a = m.committedPoison a := by
  rw [TMem.ownPoison, h]

theorem byteAt_code {T : Tile} {a : Nat} (h : a < 0x8000) : T.byteAt a = SMap.get T.code (64 * T.cbase + a) 0 := if_pos h

theorem poisonAt_code {T : Tile} {a : Nat} (h : a < 0x8000) : T.poisonAt a = false := if_pos h

section
variable {T : Tile} {a : Nat}

theorem byteAt_versioned (h : T.region a = .seg .v) : T.byteAt a = T.mem.own a := by
  rw [Tile.byteAt, if_neg (Nat.not_lt.2 (region_data h).1), h]

theorem poisonAt_versioned (h : T.region a = .seg .v) : T.poisonAt a = T.mem.ownPoison a := by
  rw [Tile.poisonAt, if_neg (Nat.not_lt.2 (region_data h).1), h]

theorem byteAt_scratch (h : T.region a = .seg .s) : T.byteAt a = T.mem.committed a := by
  rw [Tile.byteAt, if_neg (Nat.not_lt.2 (region_data h).1), h]

theorem poisonAt_scratch (h : T.region a = .seg .s) : T.poisonAt a = (T.mem.committedPoison a || T.mem.stale.getLsbD (wordIx a)) := by
  rw [Tile.poisonAt, if_neg (Nat.not_lt.2 (region_data h).1), h]

theorem region_beyond (h : 0x40000 ≤ a) : T.region a = .none := by
  rw [Tile.region, if_neg (by omega), if_neg (by omega)]

end

theorem readable_iff (r : Region) : r.readable = true ↔ r = .code ∨ r = .seg .v ∨ r = .seg .s := by
  rcases r with _ | (_ | _ | _) | _ <;> simp [Region.readable]

theorem vs_iff (r : Region) : r.vs = true ↔ r = .seg .v ∨ r = .seg .s := by
  rcases r with _ | (_ | _ | _) | _ <;> simp [Region.vs]

/-- Settles O18: each region by the laws of its reads. -/
theorem tileMemoryViews : Obligations.TileMemoryViews := by
  unfold Obligations.TileMemoryViews
  intro T a
  refine ⟨fun hc => ⟨byteAt_code hc, poisonAt_code hc⟩, fun hv => ?_, fun hs => ?_, readable_iff _, region_beyond⟩
  · have hdata := (region_data hv).1
    refine ⟨hdata, committed_eq _ hdata, fun hnone => ?_, fun d hd => ⟨fun hown => ?_, fun hown => ?_⟩⟩
    · exact ⟨(byteAt_versioned hv).trans (own_without_delta hnone),
        (poisonAt_versioned hv).trans ((ownPoison_without_delta hnone).trans (committedPoison_eq _ hdata))⟩
    · exact (byteAt_versioned hv).trans (own_ok _ T _ _ hd hown)
    · exact (byteAt_versioned hv).trans (own_unwritten hd hown)
  · have hdata := (region_data hs).1
    exact ⟨hdata, (byteAt_scratch hs).trans (committed_eq _ hdata), (byteAt_scratch hs).symm,
      (poisonAt_scratch hs).trans (by rw [committedPoison_eq _ hdata])⟩

/-! ## Loads (R85-R87) -/

theorem exec_ld (s : State) (g : Guard) (sz : Size) (d a : SReg) (imm : BitVec 15) :
    exec (.ld g sz d a imm) s = execLd g sz d a imm s := rfl

theorem exec_st (s : State) (g : Guard) (sz : Size) (d a : SReg) (imm : BitVec 15) :
    exec (.st g sz d a imm) s = execSt g sz d a imm s := rfl

theorem exec_ldv (s : State) (g : Guard) (sz : Size) (d a : SReg) (imm : BitVec 15) :
    exec (.ldv g sz d a imm) s = execLdv g sz d a imm s := rfl

theorem exec_stv (s : State) (g : Guard) (sz : Size) (d a : SReg) (imm : BitVec 15) :
    exec (.stv g sz d a imm) s = execStv g sz d a imm s := rfl

section
variable {s : State} {a : SReg} {imm : BitVec 15} {n e : Nat} {ok : Region → Bool} (h : Reaches s a imm n ok e)
include h

theorem memAccess_load (k : Nat → Eff) : s.memAccess a imm n ok none k = k e := memAccess_reaches h nofun

theorem memAccess_store {d : SReg} (hd : s.me.tag d = false) (k : Nat → Eff) : s.memAccess a imm n ok (some d) k = k e :=
  memAccess_reaches h fun _ hx => Option.some.inj hx ▸ hd

end

theorem load_reads {s : State} {sz : Size} {a : SReg} {imm : BitVec 15} {e : Nat} (h : Reaches s a imm sz.bytes Region.readable e)
    (d : SReg) : s.load sz d a imm = .done (s.updMe fun x => x.wr d (loadValue s.myTile sz e) (s.myTile.poisonAt e)) := by
  rw [State.load, memAccess_load h, State.loadInto, loadExtend_readNat]

/-- Settles O17: both instructions have the effect of `load_reads`. -/
theorem loadsFromTileMemory : Obligations.LoadsFromTileMemory := by
  unfold Obligations.LoadsFromTileMemory
  intro s g sz d a imm e he
  rw [exec_ld, exec_ldv]
  exact ⟨fun h => issue_done2 (clears_with h _ rfl) rfl rfl (load_reads he d), fun h => issue_done2 (clears_with h _ rfl) rfl rfl (load_reads he d)⟩

/-! ## The causes of an access (R85) -/

section
variable {s : State} {a : SReg} {imm : BitVec 15} {n : Nat} {ok : Region → Bool} {data : Option SReg} {k : Nat → Eff}

theorem memAccess_poisoned (ha : s.me.tag a = true) : s.memAccess a imm n ok data k = .trap 0x09 (a.setWidth 64) := if_pos ha

variable {ea : Int} (ha : s.me.tag a = false) (hea : ((s.me.rd a).toNat : Int) + imm.toInt = ea)
include ha hea

theorem memAccess_misaligned (hm : ea % (n : Int) ≠ 0) : s.memAccess a imm n ok data k = .trap 0x05 (BitVec.ofInt 64 ea) := by
  subst hea
  exact (if_neg (Bool.eq_false_iff.1 ha)).trans (if_pos hm)

variable (hm : ea % (n : Int) = 0)
include hm

theorem memAccess_outside (ho : ea < 0 ∨ 0x40000 ≤ ea) : s.memAccess a imm n ok data k = .trap 0x06 (BitVec.ofInt 64 ea) := by
  subst hea
  have hnone : tileAddr (eaOf (s.me.rd a) imm.toInt) = none := if_neg (by rw [eaOf]; omega)
  refine (if_neg (Bool.eq_false_iff.1 ha)).trans ((if_neg (not_not.2 hm)).trans ?_)
  rw [hnone]
  rfl

theorem memAccess_store_poisoned {e : Nat} {d : SReg} (he : ea = e) (hlt : e < 0x40000) (hr : ok (s.myTile.region e) = true)
    (hd : s.me.tag d = true) : s.memAccess a imm n ok (some d) k = .trap 0x07 (BitVec.ofNat 64 e) := by
  subst he
  have hea' : eaOf (s.me.rd a) imm.toInt = e := hea
  simp only [State.memAccess, ha, hea', hm, tileAddr_of hlt, hr, hd, wordOf, BitVec.ofInt_natCast, Bool.false_eq_true, if_false,
    ne_eq, not_true_eq_false, Bool.not_true, if_true]

end

section
variable {s : State} {g : Guard} {sz : Size} {d a : SReg} {imm : BitVec 15} (h : Clears s (inSet g [d, a]))
include h

theorem ld_traps {c : Nat} {v : Word} (ht : ∀ k, s.memAccess a imm sz.bytes Region.readable none k = .trap c v) :
    exec (.ld g sz d a imm) s = .next (traps s c v) := by
  rw [exec_ld]
  exact issue_trap (clears_with h _ rfl) rfl (ht _)

theorem st_traps {c : Nat} {v : Word} (ht : s.storeReg sz d a imm = .trap c v) : exec (.st g sz d a imm) s = .next (traps s c v) := by
  rw [exec_st]
  exact issue_trap (clears_with h _ rfl) rfl ht

end

theorem storable_vs {s : State} {r : Region} (h : s.storable r = true) : r.vs = true :=
  (Bool.and_eq_true_iff.1 h).1

/-- Where the store finds no delta, its segment is versioned, and every frame is taken. -/
theorem versioned_of_no_delta {T : Tile} {e : Nat} (hr : (T.region e).vs = true) (h : ¬ HasDelta T e) : T.region e = .seg .v :=
  ((vs_iff _).1 hr).resolve_right fun hs => h (.inl hs)

theorem storeAt_full {s : State} {e : Nat} (hr : (s.myTile.region e).vs = true) (h : ¬ HasDelta s.myTile e) (n : Nat) (v : Word) :
    s.storeAt n e v = .trap 0x0B (BitVec.ofNat 64 e) := by
  rw [State.storeAt, newd (versioned_of_no_delta hr h) h]

/-- Settles O19: each clause is one cause of R85, met by both instructions at the same check. -/
theorem memoryAccessChecks : Obligations.MemoryAccessChecks := by
  unfold Obligations.MemoryAccessChecks
  intro s g sz d a imm ea h hea
  refine ⟨fun ha => ⟨ld_traps h fun _ => memAccess_poisoned ha, st_traps h (memAccess_poisoned ha)⟩,
    fun ha hm => ⟨ld_traps h fun _ => memAccess_misaligned ha hea hm, st_traps h (memAccess_misaligned ha hea hm)⟩,
    fun ha hm ho => ⟨ld_traps h fun _ => memAccess_outside ha hea hm ho, st_traps h (memAccess_outside ha hea hm ho)⟩, ?_⟩
  intro e ha he hlt hm
  have hm' : ea % (sz.bytes : Int) = 0 := by rw [he]; exact_mod_cast hm
  refine ⟨fun hr => ld_traps h fun _ => ?_, fun hr => st_traps h ?_, fun hr hd => st_traps h ?_, fun hr hd hg hp hfull => st_traps h ?_⟩
  · exact memAccess_protection ha (hea.trans he) hlt hm hr
  · exact memAccess_protection ha (hea.trans he) hlt hm hr
  · exact memAccess_store_poisoned ha hea hm' he hlt hr hd
  · have hreach : Reaches s a imm sz.bytes s.storable e := ⟨ha, hea.trans he, hlt, hm, hr, hg, hp⟩
    rw [State.storeReg, memAccess_store hreach hd]
    exact storeAt_full (storable_vs hr) hfull _ _

/-! ## Stores (R85-R87, R129-R131) -/

theorem size_bytes_le (sz : Size) : sz.bytes ≤ 8 := by cases sz <;> decide

/-- A store of a register's bytes at the tile's own memory, with its frames and the bytes that other loads read. -/
theorem store_word {T : Tile} {e n : Nat} {v : Word} {w : Wrote} (hf : FramesOk T) (hr : (T.region e).vs = true)
    (hlen : e % 128 + n ≤ 128) (hw : T.store e (toBytes n v.toNat) = some w) : StoredAt T w.tile e n v ∧ FramesOk w.tile := by
  have hl := toBytes_length n v.toNat
  obtain ⟨hin, hout, hreg, hframes⟩ := store_reads hf hr (by rw [hl]; exact hlen) hw
  rw [hl] at hin hout
  exact ⟨⟨fun i hi => (hin i hi).trans (toBytes_word n v i hi), hout, hreg⟩, hframes⟩

/-- A conflict raises a vote and nothing else: the tile that is set reads as it is given. -/
theorem noteConflict_setTile (s : State) {T : Tile} (c : Bool) (hT : T.strands = s.myTile.strands) (u : State)
    (hu : u = (s.setTile s.curTile T).noteConflict s.curTile c) :
    TileMemOnly s u ∧ u.myTile.byteAt = T.byteAt ∧ u.myTile.region = T.region ∧ u.myTile.poisonAt = T.poisonAt ∧
      u.myTile.mem = T.mem ∧ (FramesOk u.myTile ↔ FramesOk T) := by
  obtain ⟨hmem, hcode, hctl, hcbase, hclines, hseg, hstrands, -, hcur, hk, hpkg⟩ :=
    noteConflict_fields (s.setTile s.curTile T) s.curTile c s.curTile
  subst hu
  have hself : (s.setTile s.curTile T).tile s.curTile = T := State.tile_setTile_self _ _ _
  rw [hself] at hmem hcode hctl hcbase hclines hseg hstrands
  have hmine : ((s.setTile s.curTile T).noteConflict s.curTile c).myTile =
      ((s.setTile s.curTile T).noteConflict s.curTile c).tile s.curTile := by rw [State.myTile, hcur]; rfl
  have hreads := byteAt_congr hmem hcode hctl hcbase hclines hseg
  rw [← hmine] at hreads hmem hstrands
  obtain ⟨hbyte, hregion, hpoison, hframes⟩ := hreads
  refine ⟨⟨?_, hpkg, hcur, hk, fun t ht => ?_⟩, hbyte, hregion, hpoison, hmem, hframes⟩
  · rw [State.me, State.strand, hcur, hk]
    have : (((s.setTile s.curTile T).noteConflict s.curTile c).tile s.curTile).strands = s.myTile.strands := by
      rw [← hmine, hstrands, hT]
    exact congrArg (fun m => SMap.get m s.curStrand (Strand.reset (resetPriv s.curTile s.curStrand))) this
  · obtain ⟨-, -, -, -, -, -, -, hne, -⟩ := noteConflict_fields (s.setTile s.curTile T) s.curTile c t
    rw [hne ht, State.tile_setTile_ne s ht]

/-- A store of the strand at an address of its own tile that has or gets its delta. -/
theorem storeAt_stores {s : State} {sz : Size} {e : Nat} (v : Word) (hr : (s.myTile.region e).vs = true) (hm : e % sz.bytes = 0)
    (hf : FramesOk s.myTile) (hd : HasDelta s.myTile e) :
    ∃ u, s.storeAt sz.bytes e v = .done u ∧ TileMemOnly s u ∧ StoredAt s.myTile u.myTile e sz.bytes v ∧
      (sz = .d → u.myTile.poisonAt e = false) ∧ FramesOk u.myTile := by
  obtain ⟨w, hw⟩ := store_isSome (bs := toBytes sz.bytes v.toNat) hr hd
  obtain ⟨⟨hin, hout, hreg⟩, hframes⟩ := store_word hf hr (size_fits_line sz e hm) hw
  obtain ⟨honly, hbyte, hregion, hpoison, -, hfr⟩ := noteConflict_setTile s w.conflict (store_keeps hw).1 _ rfl
  refine ⟨_, store_done hw, honly, ⟨?_, ?_, hregion.trans hreg⟩, fun hsz => ?_, hfr.2 hframes⟩
  · rw [hbyte]; exact hin
  · rw [hbyte]; exact hout
  · subst hsz
    rw [hpoison]
    exact store_poison hf hr (toBytes_length _ _) hm hw

theorem storeReg_stores {s : State} {sz : Size} {d a : SReg} {imm : BitVec 15} {e : Nat} (h : Reaches s a imm sz.bytes s.storable e)
    (htag : s.me.tag d = false) (hf : FramesOk s.myTile) (hd : HasDelta s.myTile e) :
    ∃ u, s.storeReg sz d a imm = .done u ∧ TileMemOnly s u ∧ StoredAt s.myTile u.myTile e sz.bytes (s.me.rd d) ∧
      (sz = .d → u.myTile.poisonAt e = false) ∧ FramesOk u.myTile := by
  rw [State.storeReg, memAccess_store h htag]
  obtain ⟨-, -, -, hm, hr, -, -⟩ := h
  exact storeAt_stores _ (storable_vs hr) hm hf hd

/-- What retirement leaves of the strand's tile. -/
theorem retired_reads_same (s u : State) : (retired s u).myTile.byteAt = u.myTile.byteAt ∧ (retired s u).myTile.region = u.myTile.region ∧
    (retired s u).myTile.poisonAt = u.myTile.poisonAt ∧ (FramesOk (retired s u).myTile ↔ FramesOk u.myTile) :=
  byteAt_congr (T := (retired s u).myTile) (U := u.myTile) (retireAt_tile_mem u _ _ _ _) (retireAt_tile_code u _ _ _ _)
    (retireAt_tile_ctl u _ _ _ _) (retireAt_tile_cbase u _ _ _ _) (retireAt_tile_clines u _ _ _ _) (retireAt_tile_segmask u _ _ _ _)

theorem storedAt_retired {s u : State} {T : Tile} {e n : Nat} {v : Word} (h : StoredAt T u.myTile e n v) :
    StoredAt T (retired s u).myTile e n v := by
  obtain ⟨hbyte, hregion, -, -⟩ := retired_reads_same s u
  rw [StoredAt, hbyte, hregion]
  exact h

theorem otherTilesSame_retired {s u : State} (h : OtherTilesSame s u s.curTile) (hc : u.curTile = s.curTile) :
    OtherTilesSame s (retired s u) s.curTile := fun t ht =>
  (retireAt_tile_ne u (by rw [hc]; exact ht) _ _ _).trans (h t ht)

/-- What retirement leaves of the strand, which an effect on its tile's memory has left alone. -/
theorem retired_keeps_registers {s u : State} (h : TileMemOnly s u) :
    (∀ r, (retired s u).me.rd r = s.me.rd r ∧ (retired s u).me.tag r = s.me.tag r) ∧
      (∀ n, (retired s u).me.prd n = s.me.prd n ∧ (retired s u).me.pt n = s.me.pt n) ∧ OtherRegsSame s.me (retired s u).me ∧
      (retired s u).curTile = s.curTile ∧ (retired s u).curStrand = s.curStrand ∧ OtherTilesSame s (retired s u) s.curTile ∧
      (retired s u).mem = s.mem := by
  obtain ⟨hme, hmem, hcur, hk, hother⟩ := h
  refine ⟨fun r => ?_, fun n => ?_, ?_, hcur, hk, otherTilesSame_retired hother hcur, hmem⟩
  · rw [retired, retireAt_rd, retireAt_tag, hme]; exact ⟨rfl, rfl⟩
  · rw [retired, retireAt_prd, retireAt_pt, hme]; exact ⟨rfl, rfl⟩
  · rw [← hme]; exact retireAt_others u _ _

/-- Settles O20: both instructions have the effect of `storeReg_stores`. -/
theorem storesToTileMemory : Obligations.StoresToTileMemory := by
  unfold Obligations.StoresToTileMemory
  intro s g sz d a imm e i hi hreach htag hf hd
  obtain ⟨u, hdone, honly, hstored, hpoison, hframes⟩ := storeReg_stores hreach htag hf hd
  have hexec : exec i s = .next (retired s u) := by
    rcases hi with ⟨rfl, h⟩ | ⟨rfl, h⟩
    · rw [exec_st]
      exact issue_done2 (clears_with h _ rfl) rfl rfl hdone
    · rw [exec_stv]
      exact issue_done2 (clears_with h _ rfl) rfl rfl hdone
  obtain ⟨-, -, hp, hfr⟩ := retired_reads_same s u
  refine ⟨_, hexec, storedAt_retired hstored, fun hsz => ?_, hfr.2 hframes, retired_keeps_registers honly⟩
  rw [hp]
  exact hpoison hsz

/-! ## Synchronising accesses (R88) -/

theorem exec_ldsD (s : State) (g : Guard) (d a : SReg) (imm : BitVec 15) : exec (.ldsD g d a imm) s = execLdsD g d a imm s := rfl

theorem exec_ldsDE (s : State) (g : Guard) (d a : SReg) (imm : BitVec 15) : exec (.ldsDE g d a imm) s = execLdsDE g d a imm s := rfl

theorem exec_stfD (s : State) (g : Guard) (d a : SReg) (imm : BitVec 15) : exec (.stfD g d a imm) s = execStfD g d a imm s := rfl

section
variable {s : State} {a : SReg} {imm : BitVec 15} {e : Nat} (h : Reaches s a imm 8 Region.isS e)
include h

theorem loadSync_full (hfull : s.myTile.mem.full.getLsbD (wordIx e) = true) (empty : Bool) (d : SReg) :
    s.loadSync empty d a imm = .done (if empty then
        (s.updMe fun x => x.wr d (loadValue s.myTile .d e) (s.myTile.poisonAt e)).updMyTile fun T => T.setFull e false
      else s.updMe fun x => x.wr d (loadValue s.myTile .d e) (s.myTile.poisonAt e)) := by
  have hvalue : loadExtend 8 (s.myTile.readNat e 8) = loadValue s.myTile .d e := loadExtend_readNat s.myTile .d e
  rw [State.loadSync, memAccess_load h]
  refine (if_pos hfull).trans ?_
  rw [State.loadInto, hvalue]

theorem loadSync_empty (hfull : s.myTile.mem.full.getLsbD (wordIx e) = false) (empty : Bool) (d : SReg) :
    s.loadSync empty d a imm = .park .word := by
  rw [State.loadSync, memAccess_load h]
  exact if_neg (Bool.eq_false_iff.1 hfull)

end

/-- LDS.D.E of a full word: it is loaded, and set empty. -/
theorem ldsDE_empties {s : State} (d : SReg) (v : Word) (tag : Bool) (e : Nat) (u : State)
    (hu : u = retired s ((s.updMe fun x => x.wr d v tag).updMyTile fun T => T.setFull e false)) :
    u.me.rd d = (if d = 0 then 0 else v) ∧ u.myTile.mem.full = withBit s.myTile.mem.full (wordIx e) false ∧
      u.myTile.byteAt = s.myTile.byteAt := by
  subst hu
  refine ⟨?_, ?_, ?_⟩
  · rw [retired, retireAt_rd, me_updMyTile _ _ rfl, State.me_updMe, Strand.rd_wr_self]
  · rw [retired, State.myTile, retireAt_tile_mem]
    refine (congrArg (fun T : Tile => T.mem.full) (myTile_updMyTile _ _)).trans ?_
    simp only [Tile.setFull, (updMe_reads s _).2.2.1]
  · rw [(retired_reads_same s _).1, myTile_updMyTile, setFull_byteAt, (updMe_reads s _).1]

/-- STF.D writes its word and fills it. -/
theorem stfD_fills {s : State} {e : Nat} (v : Word) (hr : s.myTile.region e = .seg .s) (hm : e % 8 = 0) (hf : FramesOk s.myTile) (u : State)
    (hu : u = s.updMyTile fun T => (T.writeS false e (toBytes 8 v.toNat) false).setFull e true) :
    TileMemOnly s u ∧ StoredAt s.myTile u.myTile e 8 v ∧ u.myTile.mem.full.getLsbD (wordIx e) = true := by
  have hvs : (s.myTile.region e).vs = true := (vs_iff _).2 (.inr hr)
  have hstore : s.myTile.store e (toBytes 8 v.toNat) = some ⟨s.myTile.writeS false e (toBytes 8 v.toNat) false, false⟩ := by
    rw [Tile.store, Tile.writeLine, hr]
  obtain ⟨⟨hin, hout, hreg⟩, -⟩ := store_word hf hvs (by omega) hstore
  subst hu
  refine ⟨memOnly_updMyTile s _ rfl, ?_, ?_⟩
  · rw [myTile_updMyTile]
    exact ⟨hin, hout, hreg⟩
  · rw [myTile_updMyTile]
    have hix : wordIx e < 28672 := by have := region_data hr; rw [wordIx]; omega
    simp only [Tile.setFull, getLsbD_withBit, hix, and_self, if_true]

theorem isS_iff (r : Region) : r.isS = true ↔ r = .seg .s := by
  rcases r with _ | (_ | _ | _) | _ <;> simp [Region.isS]

/-- Settles O22: the loads by `loadSync_full` and `loadSync_empty`, the store by `stfD_fills`, the rest by R85's checks. -/
theorem synchronisingAccesses : Obligations.SynchronisingAccesses := by
  unfold Obligations.SynchronisingAccesses
  intro s g d a imm h
  rw [exec_ldsD, exec_ldsDE, exec_stfD]
  refine ⟨fun e he => ⟨fun hfull => ?_, fun hfull => ?_, fun htag hl hf => ?_, fun htag hl => ?_⟩, fun e ha hea hlt hm hr => ?_⟩
  · exact ⟨issue_done2 (clears_with h _ rfl) rfl rfl (loadSync_full he hfull false d), _,
      issue_done2 (clears_with h _ rfl) rfl rfl (loadSync_full he hfull true d), ldsDE_empties d _ _ e _ rfl⟩
  · exact ⟨issue_park (clears_with h _ rfl) rfl (loadSync_empty he hfull false d), issue_park (clears_with h _ rfl) rfl (loadSync_empty he hfull true d)⟩
  · have ⟨_, _, _, hm, hr, _, _⟩ := he
    obtain ⟨⟨-, hmem, hcur, -, hother⟩, hstored, hfull⟩ := stfD_fills (s.me.rd d) ((isS_iff _).1 hr) hm hf _ rfl
    refine ⟨_, issue_done2 (clears_with h _ rfl) rfl rfl ((memAccess_store he htag _).trans (if_pos hl)),
      storedAt_retired hstored, ?_, otherTilesSame_retired hother hcur, hmem⟩
    rw [retired, State.myTile, retireAt_tile_mem]
    exact hfull
  · exact issue_retry (clears_with h _ rfl) rfl rfl ((memAccess_store he htag _).trans (if_neg (Bool.eq_false_iff.1 hl)))
  · have hprot := fun data k => memAccess_protection (data := data) (k := k) ha hea hlt hm hr
    exact ⟨issue_trap (clears_with h _ rfl) rfl (hprot none _), issue_trap (clears_with h _ rfl) rfl (hprot none _),
      issue_trap (clears_with h _ rfl) rfl (hprot (some d) _)⟩

/-! ## Fences (R96, R97, R268, R276) -/

theorem exec_fence (s : State) (sc : Scope) : exec (.fence sc) s = execFence sc s := rfl

theorem exec_vfence (s : State) (sc : Scope) : exec (.vfence sc) s = execVfence sc s := rfl

/-- A write in a view stays pending unless a write that every view now sees is it, or comes later on its byte. -/
theorem mem_leftViews {gone : ViewWrite → Bool} {w : ViewWrite} : ∀ l : List ViewWrite, w ∈ leftViews gone l ↔
    ∃ before after, l = before ++ w :: after ∧ gone w = false ∧ ∀ x ∈ after, gone x = true → x.addr ≠ w.addr
  | [] => by simp [leftViews]
  | v :: rest => by
    have hrest : (∃ before after, v :: rest = before ++ w :: after ∧ gone w = false ∧ ∀ x ∈ after, gone x = true → x.addr ≠ w.addr) ↔
        (v = w ∧ gone w = false ∧ ∀ x ∈ rest, gone x = true → x.addr ≠ w.addr) ∨ w ∈ leftViews gone rest := by
      rw [mem_leftViews rest]
      constructor
      · rintro ⟨before, after, hl, hw⟩
        cases before with
        | nil => cases hl; exact .inl ⟨rfl, hw⟩
        | cons b before => cases hl; exact .inr ⟨before, after, rfl, hw⟩
      · rintro (⟨rfl, hw⟩ | ⟨before, after, rfl, hw⟩)
        · exact ⟨[], rest, rfl, hw⟩
        · exact ⟨v :: before, after, rfl, hw⟩
    rw [hrest, leftViews]
    split
    · rename_i hgone
      refine ⟨.inr, fun h => h.resolve_left ?_⟩
      rintro ⟨rfl, hw, hafter⟩
      rw [hw, Bool.false_or, List.any_eq_true] at hgone
      obtain ⟨x, hx, hsame⟩ := hgone
      obtain ⟨haddr, hx'⟩ := Bool.and_eq_true_iff.1 hsame
      exact hafter x hx hx' (of_decide_eq_true haddr)
    · rename_i hstays
      rw [Bool.not_eq_true, Bool.or_eq_false_iff, List.any_eq_false] at hstays
      obtain ⟨hv, hany⟩ := hstays
      rw [List.mem_cons]
      refine or_congr_left ⟨?_, fun h => h.1.symm⟩
      rintro rfl
      exact ⟨rfl, hv, fun x hx hx' haddr => hany x hx (by simp [haddr, hx'])⟩

/-- The views that are left when the strand's own writes are pushed. -/
theorem pushViews_left (s : State) {mine : ViewWrite → Prop}
    (hmine : ∀ w, mine w ↔ (w.gang, w.gti) = s.viewer s.curTile ∧ w.strand = s.curStrand) (w : ViewWrite) :
    w ∈ s.pushViews.viewWrites ↔
      ∃ before after, s.viewWrites = before ++ w :: after ∧ ¬ mine w ∧ ∀ x ∈ after, mine x → x.addr ≠ w.addr := by
  have hgone : ∀ x, (decide (x.gang = (s.viewer s.curTile).1) && decide (x.gti = (s.viewer s.curTile).2) &&
      decide (x.strand = s.curStrand)) = true ↔ mine x := by
    intro x
    rw [hmine, Prod.ext_iff]
    simp
  rw [State.pushViews, mem_leftViews]
  simp only [← hgone, Bool.not_eq_true]

section
variable {s : State} (h : Clears s (ordinary Guard.always)) {sc : Scope}
include h

theorem fence_completes (hc : s.fenceClear sc = true) : exec (.fence sc) s = .next (retired s s) := by
  rw [exec_fence]
  exact issue_done2 (clears_with h _ rfl) rfl rfl (if_pos hc)

theorem fence_waits (hc : s.fenceClear sc = false) : exec (.fence sc) s = .next (s.updMe fun x => { x with run := .ready }) := by
  rw [exec_fence]
  exact issue_retry (clears_with h _ rfl) rfl rfl (if_neg (Bool.eq_false_iff.1 hc))

theorem vfence_completes (hc : s.fenceClear sc = true) (ht : s.transfersDone = true) :
    exec (.vfence sc) s = .next (retired s (if reachesViews sc then s.pushViews else s)) := by
  rw [exec_vfence]
  exact issue_done2 (clears_with h _ rfl) rfl rfl (if_pos ⟨hc, ht⟩)

theorem vfence_waits (hw : ¬ (s.fenceClear sc = true ∧ s.transfersDone = true)) :
    exec (.vfence sc) s = .next (s.updMe fun x => { x with run := .ready }) := by
  rw [exec_vfence]
  exact issue_retry (clears_with h _ rfl) rfl rfl (if_neg hw)

end

theorem fenceClear_within (s : State) {sc : Scope} (h : sc ∈ [Scope.s, Scope.t, Scope.c]) :
    s.fenceClear sc = true ∧ reachesViews sc = false := by
  simp only [List.mem_cons, List.not_mem_nil, or_false] at h
  rcases h with rfl | rfl | rfl <;> exact ⟨rfl, rfl⟩

theorem fenceClear_beyond (s : State) {sc : Scope} (h : sc ∈ [Scope.g, Scope.d, Scope.y]) :
    s.fenceClear sc = s.storesLanded ∧ (reachesViews sc = true ↔ sc ≠ .g) := by
  simp only [List.mem_cons, List.not_mem_nil, or_false] at h
  rcases h with rfl | rfl | rfl <;> exact ⟨rfl, by decide⟩

/-- Settles O23: what a fence waits for by its scope, and the views that VFENCE.d and .y leave (`pushViews_left`). -/
theorem fencesComplete : Obligations.FencesComplete := by
  unfold Obligations.FencesComplete
  intro s h
  refine ⟨fun sc hsc => ?_, fun sc hsc => ?_⟩
  · obtain ⟨hc, hviews⟩ := fenceClear_within s hsc
    refine ⟨fence_completes h hc, fun ht => ?_, fun ht => vfence_waits h fun hw => ?_⟩
    · rw [vfence_completes h hc ht, hviews]; rfl
    · rw [ht] at hw; exact absurd hw.2 Bool.false_ne_true
  · obtain ⟨hc, hviews⟩ := fenceClear_beyond s hsc
    refine ⟨fun hl => fence_completes h (hc.trans hl), fun hl => fence_waits h (hc.trans hl), fun hl ht => ?_,
      fun hw => vfence_waits h fun hboth => ?_⟩
    · rw [vfence_completes h (hc.trans hl) ht]
      by_cases hg : sc = .g
      · have hno : reachesViews sc = false := Bool.eq_false_iff.2 fun hr => hviews.1 hr hg
        rw [hno]
        exact ⟨s.viewWrites, rfl, fun _ => rfl, fun hne => absurd hg hne⟩
      · rw [if_pos (hviews.2 hg)]
        exact ⟨s.pushViews.viewWrites, rfl, fun he => absurd he hg, fun _ mine hmine w => pushViews_left s hmine w⟩
    · rw [hc] at hboth
      rcases hw with hw | hw
      · rw [hw] at hboth; exact absurd hboth.1 Bool.false_ne_true
      · rw [hw] at hboth; exact absurd hboth.2 Bool.false_ne_true

end Sys2Proof.Proofs
end

section
/-! PROOFS. Cluster space (R89, R236-R238): what an address names, the traps of LDC and STC, and what a load or a store leaves at the
home tile. -/

namespace Sys2Proof.Proofs

open Sys2Proof.Machine Sys2Proof.Safety Sys2Proof.Laws

/-! ## What an address names (R89, R236, R237) -/

section
variable {s : State} {t : Nat}

theorem csPlace_home {ea h : Nat} (hf : s.fullCluster t = true) (hlt : ea < 0x380000) (hm : s.memberTile t (csMember ea) = some h) :
    s.csPlace t ea = .home h (csOffset ea) := by
  have hin : (0 : Int) ≤ ea ∧ (ea : Int) < 0x380000 := by omega
  simp only [State.csPlace, hf, Bool.not_true, Bool.false_eq_true, if_false, if_pos hin, Int.toNat_natCast, hm]

theorem csPlace_event {ea off : Nat} (hf : s.fullCluster t = true) (hge : 0x380000 ≤ ea) (hea : ea = (s.tile t).ctl.evbase.toNat + off)
    (hoff : off < 0x1000) : s.csPlace t ea = .event off := by
  have hout : ¬ ((0 : Int) ≤ ea ∧ (ea : Int) < 0x380000) := by omega
  have hin : ((s.tile t).ctl.evbase.toNat : Int) ≤ ea ∧ (ea : Int) < (s.tile t).ctl.evbase.toNat + 0x1000 := by omega
  have hsub : ea - (s.tile t).ctl.evbase.toNat = off := by omega
  simp only [State.csPlace, hf, Bool.not_true, Bool.false_eq_true, if_false, if_neg hout, if_pos hin, Int.toNat_natCast, hsub]

theorem csPlace_unowned (hf : s.fullCluster t = false) (ea : Int) : s.csPlace t ea = .none := by
  simp only [State.csPlace, hf, Bool.not_false, if_true]

theorem csPlace_outside {ea : Int} (hout : ea < 0 ∨ 0x380000 ≤ ea)
    (hw : ea < (s.tile t).ctl.evbase.toNat ∨ (s.tile t).ctl.evbase.toNat + 0x1000 ≤ ea) : s.csPlace t ea = .none := by
  have hout : ¬ (0 ≤ ea ∧ ea < 0x380000) := by omega
  have hw : ¬ (((s.tile t).ctl.evbase.toNat : Int) ≤ ea ∧ ea < (s.tile t).ctl.evbase.toNat + 0x1000) := by omega
  simp only [State.csPlace, if_neg hout, if_neg hw, ite_self]

/-- In cluster space an address names a home tile or nothing. -/
theorem csPlace_within {ea : Int} (hin : 0 ≤ ea ∧ ea < 0x380000) :
    s.csPlace t ea = .none ∨ ∃ h, s.csPlace t ea = .home h (csOffset ea.toNat) := by
  unfold State.csPlace
  split_ifs
  · exact .inl rfl
  · split
    · exact .inr ⟨_, rfl⟩
    · exact .inl rfl

/-- Outside cluster space an address names an offset of the event window or nothing. -/
theorem csPlace_beyond {ea : Int} (hout : ¬ (0 ≤ ea ∧ ea < 0x380000)) :
    s.csPlace t ea = .none ∨ ∃ off, s.csPlace t ea = .event off := by
  simp only [State.csPlace, if_neg hout]
  split_ifs
  · exact .inl rfl
  · exact .inr ⟨_, rfl⟩
  · exact .inl rfl

end

/-! ## The traps of LDC and STC (R85, R89) -/

theorem exec_ldc (s : State) (g : Guard) (sz : Size) (d a : SReg) (imm : BitVec 15) :
    exec (.ldc g sz d a imm) s = execLdc g sz d a imm s := rfl

theorem exec_stc (s : State) (g : Guard) (sz : Size) (d a : SReg) (imm : BitVec 15) :
    exec (.stc g sz d a imm) s = execStc g sz d a imm s := rfl

section
variable {s : State} {a : SReg} {imm : BitVec 15} {n : Nat} {k : Int → CsPlace → Eff}

theorem csAccess_poisoned (ha : s.me.tag a = true) : s.csAccess a imm n k = .trap 0x09 (a.setWidth 64) := if_pos ha

variable {ea : Int} (ha : s.me.tag a = false) (hea : ((s.me.rd a).toNat : Int) + imm.toInt = ea)
include ha hea

theorem csAccess_misaligned (hm : ea % (n : Int) ≠ 0) : s.csAccess a imm n k = .trap 0x05 (BitVec.ofInt 64 ea) := by
  subst hea
  exact (if_neg (Bool.eq_false_iff.1 ha)).trans (if_pos hm)

theorem csAccess_reaches (hm : ea % (n : Int) = 0) : s.csAccess a imm n k = k ea (s.csPlace s.curTile ea) := by
  subst hea
  exact (if_neg (Bool.eq_false_iff.1 ha)).trans (if_neg (not_not.2 hm))

end

section
variable {s : State} {g : Guard} {sz : Size} {d a : SReg} {imm : BitVec 15} {ea : Int} (h : Clears s (ordinary g))
  (ha : s.me.tag a = false) (hea : ((s.me.rd a).toNat : Int) + imm.toInt = ea) (hm : ea % (sz.bytes : Int) = 0)
include h ha hea hm

/-- Outside cluster space, and outside the event window for a doubleword load, both trap; so does a segment that serves no such access. -/
theorem ldc_unserved (hp : s.csPlace s.curTile ea = .none ∨ ((∃ off, s.csPlace s.curTile ea = .event off) ∧ sz ≠ .d) ∨
      ∃ t e, s.csPlace s.curTile ea = .home t e ∧ (s.myTile.region e).vs = false) :
    exec (.ldc g sz d a imm) s = .next (traps s 0x06 (BitVec.ofInt 64 ea)) := by
  rw [exec_ldc]
  refine issue_trap (clears_with h _ rfl) rfl ((csAccess_reaches ha hea hm).trans ?_)
  rcases hp with hp | ⟨⟨off, hp⟩, hsz⟩ | ⟨t, e, hp, hr⟩
  · simp only [hp, wordOf]
  · simp only [hp, wordOf, if_neg hsz]
  · simp only [hp, wordOf, hr, Bool.not_false, if_true]

theorem stc_unserved (hp : s.csPlace s.curTile ea = .none ∨ (∃ off, s.csPlace s.curTile ea = .event off) ∨
      ∃ t e, s.csPlace s.curTile ea = .home t e ∧ (s.myTile.region e).vs = false) :
    exec (.stc g sz d a imm) s = .next (traps s 0x06 (BitVec.ofInt 64 ea)) := by
  rw [exec_stc]
  refine issue_trap (clears_with h _ rfl) rfl ((csAccess_reaches ha hea hm).trans ?_)
  rcases hp with hp | ⟨off, hp⟩ | ⟨t, e, hp, hr⟩
  · simp only [hp, wordOf]
  · simp only [hp, wordOf]
  · simp only [hp, wordOf, hr, Bool.not_false, if_true]

end

/-! ## LDC and STC at their home tile (R89, R131, R132) -/

/-- An LDC or STC clears the checks, and names an aligned address in cluster space of a segment that the issuer's MEMCFG serves (R89). -/
structure NamesHome (s : State) (g : Guard) (sz : Size) (a : SReg) (imm : BitVec 15) (ea h e : Nat) : Prop where
  clears : Clears s (ordinary g)
  base : s.me.tag a = false
  address : ((s.me.rd a).toNat : Int) + imm.toInt = ea
  aligned : ea % sz.bytes = 0
  place : s.csPlace s.curTile ea = .home h e
  offset : e % sz.bytes = 0
  served : (s.myTile.region e).vs = true

/-- The home tile is not behind a decision, its segment is not gated, and no immediate store of the strand is on its way to the word. -/
structure HomeReady (s : State) (h e : Nat) : Prop where
  behind : s.behind s.curTile h = false
  gated : (s.tile h).gatedAt e = false
  stores : s.storePending h e = false

section
variable {s : State} {g : Guard} {sz : Size} {d a : SReg} {imm : BitVec 15} {ea h e : Nat} (hn : NamesHome s g sz a imm ea h e)
include hn

theorem csAccess_home (k : Int → CsPlace → Eff) : s.csAccess a imm sz.bytes k = k ea (.home h e) := by
  rw [csAccess_reaches hn.base hn.address (by exact_mod_cast hn.aligned), hn.place]

theorem stc_poisoned (hd : s.me.tag d = true) : exec (.stc g sz d a imm) s = .next (traps s 0x07 (BitVec.ofNat 64 ea)) := by
  rw [exec_stc]
  refine issue_trap (clears_with hn.clears _ rfl) rfl ((csAccess_home hn _).trans ?_)
  simp only [hn.served, hd, wordOf, BitVec.ofInt_natCast, Bool.not_true, Bool.false_eq_true, if_false, if_true]

variable (hh : HomeReady s h e)
include hh

theorem ldc_loads : exec (.ldc g sz d a imm) s = .next (retired s (s.loadCluster d sz.bytes h e)) := by
  rw [exec_ldc]
  refine issue_done2 (clears_with hn.clears _ rfl) rfl rfl ((csAccess_home hn _).trans ?_)
  simp only [hn.served, hh.behind, hh.gated, hh.stores, Bool.not_true, Bool.false_eq_true, if_false]

variable (hd : s.me.tag d = false) (hq : h ≠ s.curTile → ((s.tile h).region e).isV = true → s.commitAhead s.curTile h s.netOrd = false)
include hd hq

/-- Nothing stands before the store: what it gives at its home tile is what STC gives. -/
theorem stc_stores :
    (∀ u, s.storeCluster sz.bytes h e (s.me.rd d) (BitVec.ofNat 64 ea) = .done u →
      exec (.stc g sz d a imm) s = .next (retired s u)) ∧
    (∀ c v, s.storeCluster sz.bytes h e (s.me.rd d) (BitVec.ofNat 64 ea) = .trap c v →
      exec (.stc g sz d a imm) s = .next (traps s c v)) := by
  have hfree : ¬ (h ≠ s.curTile ∧ ((s.tile h).region e).isV = true ∧ s.commitAhead s.curTile h s.netOrd = true) := by
    rintro ⟨hne, hv, hahead⟩
    rw [hq hne hv] at hahead
    exact Bool.false_ne_true hahead
  rw [exec_stc]
  refine ⟨fun u hu => issue_done2 (clears_with hn.clears _ rfl) rfl rfl ((csAccess_home hn _).trans ?_),
    fun c v hv => issue_trap (clears_with hn.clears _ rfl) rfl ((csAccess_home hn _).trans ?_)⟩
  · simp only [hn.served, hd, hh.behind, hh.gated, hh.stores, if_neg hfree, wordOf, BitVec.ofInt_natCast, Bool.not_true,
      Bool.false_eq_true, if_false, hu]
  · simp only [hn.served, hd, hh.behind, hh.gated, hh.stores, if_neg hfree, wordOf, BitVec.ofInt_natCast, Bool.not_true,
      Bool.false_eq_true, if_false, hv]

end

/-! ### What a failure at another tile leaves -/

section
variable {s : State} {t : Nat} (hst : isSteward t = false) (v : BitVec 2) (c : BitVec 8)
include hst

theorem failTile_otherTiles : OtherTilesSame s (s.failTile t v c) t := by
  intro u hu
  simp only [State.failTile, hst, Bool.false_eq_true, if_false, State.cancelWork, State.raiseVote]
  exact (State.tile_updTile_ne _ hu _).trans (State.tile_updTile_ne s hu _)

theorem failTile_mem : (s.failTile t v c).mem = s.mem ∧ ((s.failTile t v c).tile t).mem = (s.tile t).mem := by
  simp only [State.failTile, hst, Bool.false_eq_true, if_false, State.cancelWork, State.raiseVote]
  refine ⟨rfl, ?_⟩
  change (State.tile (State.updTile _ t Tile.fail) t).mem = _
  rw [State.tile_updTile_self, State.tile_updTile_self]
  rfl

theorem failTile_me (ht : t ≠ s.curTile) : (s.failTile t v c).myTile = s.myTile ∧ (s.failTile t v c).me = s.me := by
  obtain ⟨hcur, hk⟩ := failTile_turn s t hst v c
  have htile : (s.failTile t v c).tile s.curTile = s.tile s.curTile := failTile_otherTiles hst v c _ ht.symm
  refine ⟨?_, ?_⟩
  · rw [State.myTile, hcur, htile]; rfl
  · rw [State.me, State.strand, hcur, hk, htile]; rfl

theorem failTile_nextOf (ht : t ≠ s.curTile) : (s.failTile t v c).nextOf = s.nextOf := by
  obtain ⟨htile, hme⟩ := failTile_me hst v c ht
  simp only [State.nextOf, State.seqPc, State.forwarded, hme, htile, (failTile_turn s t hst v c).2]
  rfl

end

/-! ### LDC -/

section
variable {s : State} {h e : Nat} (sz : Size) (d : SReg)

theorem loadCluster_own (hh : h = s.curTile) :
    s.loadCluster d sz.bytes h e = s.updMe fun x => x.wr d (loadValue s.myTile sz e) (s.myTile.poisonAt e) := by
  subst hh
  rw [State.loadCluster, if_pos rfl]
  simp only [loadExtend_readNat]
  rfl

variable (hh : h ≠ s.curTile)
include hh

theorem loadCluster_remote (hr : ((s.tile h).region e).vs = true) : s.loadCluster d sz.bytes h e =
    s.updMe fun x => x.wr d (bytesValue (s.tile h).remoteByte sz e) ((s.tile h).remotePoison e) := by
  simp only [State.loadCluster, if_neg hh, hr, if_true, loadExtend_bytes]

theorem loadCluster_pool (hr : ((s.tile h).region e).vs = false) : s.loadCluster d sz.bytes h e =
    (s.failTile h 1 0x06).updMe fun x => x.wr d (bytesValue (s.tile h).remoteByte sz e) true := by
  have hpoison : (s.tile h).remotePoison e = true := by
    rw [Tile.remotePoison]
    split
    · rename_i hs; rw [hs] at hr; cases hr
    · rename_i hv; rw [hv] at hr; cases hr
    · rfl
  simp only [State.loadCluster, if_neg hh, hr, Bool.false_eq_true, if_false, loadExtend_bytes, hpoison]

end

/-! ### A write of another tile -/

theorem writeLine_full {T : Tile} {e : Nat} (hr : (T.region e).vs = true) (h : ¬ HasDelta T e) (remote engine : Bool) (bs : List Byte)
    (poison : Bool) : T.writeLine remote engine e bs poison = none := by
  have hv := versioned_of_no_delta hr h
  simp only [HasDelta, hv, not_or, ne_eq, not_not, Bool.not_eq_true, Option.isSome_eq_false_iff, Option.isNone_iff_eq_none] at h
  obtain ⟨-, hnone, hfree⟩ := h
  simp only [Tile.writeLine, hv, Tile.writeV, TMem.delta, hnone, TMem.alloc, hfree, Option.map_none]

theorem writeLine_isSome {T : Tile} {e : Nat} (hr : (T.region e).vs = true) (h : HasDelta T e) (remote engine : Bool) (bs : List Byte)
    (poison : Bool) : ∃ w, T.writeLine remote engine e bs poison = some w := by
  rcases (vs_iff _).1 hr with hv | hs
  · rcases h with hs | h
    · rw [hv] at hs; cases hs
    · obtain ⟨d, m, hd⟩ := delta_some h
      exact ⟨_, by rw [Tile.writeLine, hv, Tile.writeV, hd]; rfl⟩
  · exact ⟨_, by rw [Tile.writeLine, hs]⟩

section
variable {T : Tile} {e n : Nat} {v : Word} {w : Wrote} (hf : FramesOk T) (hlen : e % 128 + n ≤ 128)
include hf hlen

theorem remoteStored_scratch (hr : T.region e = .seg .s) :
    StoredAt T (T.writeS false e (toBytes n v.toNat) false) e n v ∧ FramesOk (T.writeS false e (toBytes n v.toNat) false) := by
  have hstore : T.store e (toBytes n v.toNat) = some ⟨T.writeS false e (toBytes n v.toNat) false, false⟩ := by
    rw [Tile.store, Tile.writeLine, hr]
  exact store_word hf ((vs_iff _).2 (.inr hr)) hlen hstore

variable (hr : T.region e = .seg .v) (hw : T.writeV true false e (toBytes n v.toNat) false = some w)
include hr hw

theorem remoteStored_commits {i : Nat} (hi : i < n) : w.tile.mem.commit.committed (e + i) = v.extractLsb' (8 * i) 8 := by
  have hdata := (region_data hr).1
  have hl := toBytes_length n v.toNat
  obtain ⟨-, -, -, d, hd, hbytes⟩ := writeV_other (b := e) hf hr hw (by rw [hl]; exact hlen) ((vs_iff _).2 (.inl hr))
  obtain ⟨-, hframe, hsame⟩ := commit_frames (writeV_frames hf hr hw).1
  have hline : lineOf (e + i) = lineOf e := by simp only [lineOf]; omega
  have hoff : (e + i) % 128 = e % 128 + i := by omega
  rw [committed_eq _ (by omega), hframe, hline, hd, hoff]
  exact (congrArg (fun m : SMap Byte => SMap.get m (128 * d.frame + (e % 128 + i)) 0) hsame).trans
    ((hbytes i (by rw [hl]; exact hi)).trans (toBytes_word n v i hi))

theorem remoteStored_committed {b : Nat} (hb : (T.region b).vs = true) : w.tile.remoteByte b = T.remoteByte b := by
  have hl := toBytes_length n v.toNat
  exact (writeV_other hf hr hw (by rw [hl]; exact hlen) hb).1

theorem remoteStored_own {b : Nat} (hb : (T.region b).readable = true) (ho : b < e ∨ e + n ≤ b ∨ ownWritten T b = false) :
    w.tile.byteAt b = T.byteAt b := by
  have hdata := (region_data hr).1
  have hl := toBytes_length n v.toNat
  obtain ⟨-, hreg⟩ := writeV_frames hf hr hw
  have hother := fun hvs => writeV_other (b := b) hf hr hw (by rw [hl]; exact hlen) hvs
  rcases (readable_iff _).1 hb with hcode | hv | hs
  · obtain ⟨d, d', m, fu, -, -, -, htile⟩ := writeV_parts hw
    have hlt : b < 0x8000 := by
      by_contra hge
      simp only [Tile.region, if_neg hge] at hcode
      split_ifs at hcode
    rw [byteAt_code hlt, byteAt_code hlt, htile]
  · have hdb := (region_data hv).1
    rw [byteAt_versioned (by rw [hreg]; exact hv), byteAt_versioned hv]
    obtain ⟨-, hfar, hnear, -⟩ := hother ((vs_iff _).2 (.inl hv))
    by_cases hline : lineOf b = lineOf e
    · refine (hnear hline).trans ?_
      rw [if_neg (by simp), if_neg]
      rintro ⟨hown, hin⟩
      rw [hl] at hin
      rcases ho with ho | ho | ho
      · simp only [lineOf] at hline; omega
      · simp only [lineOf] at hline; omega
      · rw [ownWritten, hline] at ho
        exact Bool.false_ne_true (ho.symm.trans hown)
    · exact hfar hline
  · rw [byteAt_scratch (by rw [hreg]; exact hs), byteAt_scratch hs]
    exact (hother ((vs_iff _).2 (.inr hs))).1

end

/-- What a write of another tile leaves of the tile that it is made at. -/
theorem writeLine_remote {T : Tile} {e n : Nat} {v : Word} {w : Wrote} (hf : FramesOk T) (hr : (T.region e).vs = true)
    (hlen : e % 128 + n ≤ 128) (hw : T.writeLine true false e (toBytes n v.toNat) false = some w) :
    RemoteStored T w.tile e n v ∧ FramesOk w.tile := by
  rcases (vs_iff _).1 hr with hv | hs
  · rw [Tile.writeLine, hv] at hw
    exact ⟨⟨fun hs => (by rw [hv] at hs; cases hs), fun _ => ⟨fun i hi => remoteStored_commits hf hlen hv hw hi,
      fun b hb => remoteStored_committed hf hlen hv hw hb, fun b hb ho => remoteStored_own hf hlen hv hw hb ho⟩⟩,
      (writeV_frames hf hv hw).1⟩
  · rw [Tile.writeLine, hs] at hw
    obtain ⟨hstored, hframes⟩ := remoteStored_scratch (v := v) hf hlen hs
    cases hw
    exact ⟨⟨fun _ => hstored, fun hv => by rw [hs] at hv; cases hv⟩, hframes⟩

theorem raiseVote_me (s : State) (t : Nat) (v : BitVec 2) (c : BitVec 8) : (s.raiseVote t v c).me = s.me := by
  rw [State.raiseVote]
  split
  · rfl
  · exact me_updTile rfl

theorem noteRemote_me (s : State) (src t : Nat) (c : Bool) : (s.noteRemote src t c).me = s.me := by
  rw [State.noteRemote]
  split
  · rfl
  · split
    · exact raiseVote_me s src 3 0x0C
    · exact raiseVote_me s t 3 0x0C

/-- A conflict raises votes and nothing else: the other tile reads as it is given. -/
theorem noteRemote_setTile {s : State} {h e n : Nat} {v : Word} {T : Tile} (c : Bool) (hh : h ≠ s.curTile)
    (hT : RemoteStored (s.tile h) T e n v) (hf : FramesOk T) (u : State) (hu : u = (s.setTile h T).noteRemote s.curTile h c) :
    u.me = s.me ∧ FramesOk (u.tile h) ∧ RemoteStored (s.tile h) (u.tile h) e n v ∧ u.myTile.mem = s.myTile.mem ∧
      (∀ t, t ≠ h → t ≠ s.curTile → u.tile t = s.tile t) ∧ u.mem = s.mem := by
  subst hu
  obtain ⟨hmem, hcode, hctl, hcbase, hclines, hseg, -, hcur, hpkg⟩ := noteRemote_fields (s.setTile h T) s.curTile h c h
  rw [State.tile_setTile_self] at hmem hcode hctl hcbase hclines hseg
  obtain ⟨hbyte, hregion, -, hframes⟩ := byteAt_congr hmem hcode hctl hcbase hclines hseg
  refine ⟨?_, hframes.2 hf, ?_, ?_, fun t ht hc => ?_, hpkg⟩
  · rw [noteRemote_me]
    exact congrArg (fun U : Tile => SMap.get U.strands s.curStrand (Strand.reset (resetPriv s.curTile s.curStrand)))
      (State.tile_setTile_ne s hh.symm T)
  · simpa only [RemoteStored, StoredAt, Tile.remoteByte, hbyte, hregion, hmem] using hT
  · rw [State.myTile, hcur]
    refine (noteRemote_fields (s.setTile h T) s.curTile h c s.curTile).1.trans ?_
    rw [State.tile_setTile_ne s hh.symm]; rfl
  · obtain ⟨-, -, -, -, -, -, hne, -⟩ := noteRemote_fields (s.setTile h T) s.curTile h c t
    rw [hne ht hc, State.tile_setTile_ne s ht]

/-! ### STC -/

section
variable {s : State} {n h e : Nat} {v ea : Word}

theorem storeCluster_own (hh : h = s.curTile) :
    (∀ u, s.storeAt n e v = .done u → s.storeCluster n h e v ea = .done u) ∧
      (∀ c x, s.storeAt n e v = .trap c x → s.storeCluster n h e v ea = .trap c ea) := by
  rw [State.storeCluster]
  exact ⟨fun u hu => by simp only [if_pos hh, hu], fun c x hx => by simp only [if_pos hh, hx]⟩

variable (hh : h ≠ s.curTile)
include hh

theorem storeCluster_pool (hr : ((s.tile h).region e).vs = false) : s.storeCluster n h e v ea = .done (s.failTile h 1 0x06) := by
  simp only [State.storeCluster, if_neg hh, hr, Bool.not_false, if_true]

variable (hr : ((s.tile h).region e).vs = true)
include hr

theorem storeCluster_full (hd : ¬ HasDelta (s.tile h) e) : s.storeCluster n h e v ea = .done (s.failTile h 1 0x0B) := by
  simp only [State.storeCluster, if_neg hh, hr, Bool.not_true, Bool.false_eq_true, if_false, writeLine_full hr hd]

theorem storeCluster_remote {w : Wrote} (hw : (s.tile h).writeLine true false e (toBytes n v.toNat) false = some w) :
    s.storeCluster n h e v ea = .done ((s.setTile h w.tile).noteRemote s.curTile h w.conflict) := by
  simp only [State.storeCluster, if_neg hh, hr, Bool.not_true, Bool.false_eq_true, if_false, hw]

end

/-- STC to another tile's segment that has or gets its delta. -/
theorem storeCluster_stores {s : State} {sz : Size} {h e : Nat} {v ea : Word} (hh : h ≠ s.curTile) (hr : ((s.tile h).region e).vs = true)
    (hm : e % sz.bytes = 0) (hf : FramesOk (s.tile h)) (hd : HasDelta (s.tile h) e) :
    ∃ u, s.storeCluster sz.bytes h e v ea = .done u ∧ u.me = s.me ∧ FramesOk (u.tile h) ∧
      RemoteStored (s.tile h) (u.tile h) e sz.bytes v ∧ u.myTile.mem = s.myTile.mem ∧
      (∀ t, t ≠ h → t ≠ s.curTile → u.tile t = s.tile t) ∧ u.mem = s.mem := by
  obtain ⟨w, hw⟩ := writeLine_isSome hr hd true false (toBytes sz.bytes v.toNat) false
  obtain ⟨hstored, hframes⟩ := writeLine_remote hf hr (size_fits_line sz e hm) hw
  exact ⟨_, storeCluster_remote hh hr hw, noteRemote_setTile w.conflict hh hstored hframes _ rfl⟩

theorem isV_vs {r : Region} (h : r.isV = true) : r.vs = true := by
  rcases r with _ | (_ | _ | _) | _ <;> simp_all [Region.isV, Region.vs]

theorem csOffset_mod_size {ea : Nat} {sz : Size} (hm : ea % sz.bytes = 0) : csOffset ea % sz.bytes = 0 := by
  rw [csOffset]
  cases sz <;> simp only [Size.bytes] at * <;> omega

/-! ### Each kind of home -/

section
variable {s : State} {g : Guard} {sz : Size} {d a : SReg} {imm : BitVec 15} {ea h e : Nat} (hn : NamesHome s g sz a imm ea h e)
  (hh : HomeReady s h e)
include hn hh

theorem ldc_own (ho : h = s.curTile) : exec (.ldc g sz d a imm) s =
    .next (regResult s d (loadValue s.myTile sz e) (s.myTile.poisonAt e)) := by
  rw [ldc_loads hn hh, loadCluster_own sz d ho]; rfl

theorem ldc_remote (ho : h ≠ s.curTile) (hr : ((s.tile h).region e).vs = true) : exec (.ldc g sz d a imm) s =
    .next (regResult s d (bytesValue (s.tile h).remoteByte sz e) ((s.tile h).remotePoison e)) := by
  rw [ldc_loads hn hh, loadCluster_remote sz d ho hr]; rfl

theorem ldc_pool (ho : h ≠ s.curTile) (hr : ((s.tile h).region e).vs = false) (hst : isSteward h = false) :
    exec (.ldc g sz d a imm) s =
      .next (regResult (s.failTile h 1 0x06) d (bytesValue (s.tile h).remoteByte sz e) true) := by
  rw [ldc_loads hn hh, loadCluster_pool sz d ho hr, regResult, retired, retired, failTile_nextOf hst _ _ ho]

variable (hd : s.me.tag d = false)
include hd

theorem stc_own (ho : h = s.curTile) (hf : FramesOk s.myTile) :
    (HasDelta s.myTile e → ∃ u, exec (.stc g sz d a imm) s = .next (retired s u) ∧ u.me = s.me ∧
      StoredAt s.myTile u.myTile e sz.bytes (s.me.rd d) ∧ (sz = .d → u.myTile.poisonAt e = false) ∧ FramesOk u.myTile ∧
      OtherTilesSame s u s.curTile ∧ u.mem = s.mem) ∧
    (¬ HasDelta s.myTile e → exec (.stc g sz d a imm) s = .next (traps s 0x0B (BitVec.ofNat 64 ea))) := by
  obtain ⟨hdone, htrap⟩ := stc_stores hn hh hd fun hne => absurd ho hne
  obtain ⟨hown, hfull⟩ := storeCluster_own (n := sz.bytes) (e := e) (v := s.me.rd d) (ea := BitVec.ofNat 64 ea) ho
  refine ⟨fun hdelta => ?_, fun hdelta => htrap _ _ (hfull _ _ (storeAt_full hn.served hdelta _ _))⟩
  obtain ⟨u, hu, ⟨hsame, hpkg, -, -, hother⟩, hstored, hpoison, hframes⟩ :=
    storeAt_stores (s.me.rd d) hn.served hn.offset hf hdelta
  exact ⟨u, hdone u (hown u hu), hsame, hstored, hpoison, hframes, hother, hpkg⟩

theorem stc_pool (ho : h ≠ s.curTile) (hr : ((s.tile h).region e).vs = false) :
    exec (.stc g sz d a imm) s = .next (retired s (s.failTile h 1 0x06)) := by
  have hnone : ((s.tile h).region e).isV = true → s.commitAhead s.curTile h s.netOrd = false := by
    intro hv
    rw [isV_vs hv] at hr
    cases hr
  exact (stc_stores hn hh hd fun _ => hnone).1 _ (storeCluster_pool ho hr)

theorem stc_remote (ho : h ≠ s.curTile) (hq : ((s.tile h).region e).isV = true → s.commitAhead s.curTile h s.netOrd = false)
    (hr : ((s.tile h).region e).vs = true) (hf : FramesOk (s.tile h)) :
    (HasDelta (s.tile h) e → ∃ u, exec (.stc g sz d a imm) s = .next (retired s u) ∧ u.me = s.me ∧ FramesOk (u.tile h) ∧
      RemoteStored (s.tile h) (u.tile h) e sz.bytes (s.me.rd d) ∧ u.myTile.mem = s.myTile.mem ∧
      (∀ t, t ≠ h → t ≠ s.curTile → u.tile t = s.tile t) ∧ u.mem = s.mem) ∧
    (¬ HasDelta (s.tile h) e → exec (.stc g sz d a imm) s = .next (retired s (s.failTile h 1 0x0B))) := by
  obtain ⟨hdone, -⟩ := stc_stores hn hh hd fun _ => hq
  refine ⟨fun hdelta => ?_, fun hdelta => hdone _ (storeCluster_full ho hr hdelta)⟩
  obtain ⟨u, hu, hrest⟩ := storeCluster_stores (v := s.me.rd d) (ea := BitVec.ofNat 64 ea) ho hr hn.offset hf hdelta
  exact ⟨u, hdone u hu, hrest⟩

end

/-- The causes of LDC and STC by what the address names (R85, R89). -/
theorem cluster_traps {s : State} {g : Guard} {sz : Size} {d a : SReg} {imm : BitVec 15} {ea : Int} (hc : Clears s (ordinary g))
    (ha : s.me.tag a = false) (hea : ((s.me.rd a).toNat : Int) + imm.toInt = ea) (hm : ea % (sz.bytes : Int) = 0) :
    ((s.csPlace s.curTile ea = .none ∨ ∃ t e, s.csPlace s.curTile ea = .home t e ∧ (s.myTile.region e).vs = false) →
      exec (.ldc g sz d a imm) s = .next (traps s 0x06 (BitVec.ofInt 64 ea)) ∧
      exec (.stc g sz d a imm) s = .next (traps s 0x06 (BitVec.ofInt 64 ea))) ∧
    (0x380000 ≤ ea → exec (.stc g sz d a imm) s = .next (traps s 0x06 (BitVec.ofInt 64 ea)) ∧
      (sz ≠ .d → exec (.ldc g sz d a imm) s = .next (traps s 0x06 (BitVec.ofInt 64 ea)))) := by
  refine ⟨fun hp => ⟨ldc_unserved hc ha hea hm (hp.imp_right .inr), stc_unserved hc ha hea hm (hp.imp_right .inr)⟩, fun hge => ?_⟩
  have hp := csPlace_beyond (s := s) (t := s.curTile) (ea := ea) (by omega)
  exact ⟨stc_unserved hc ha hea hm (hp.imp_right .inl), fun hsz => ldc_unserved hc ha hea hm (hp.imp_right fun h => .inl ⟨h, hsz⟩)⟩

/-- Settles O24: LDC and STC at each kind of home, and their traps by what the address names. -/
theorem clusterAccess : Obligations.ClusterAccess := by
  unfold Obligations.ClusterAccess
  refine ⟨?_, ?_, ?_⟩
  · intro s g sz d a imm ea h e hc ha hea hm hlt hf hmem he hr
    have hn : NamesHome s g sz a imm ea h e :=
      ⟨hc, ha, hea, hm, he ▸ csPlace_home hf hlt hmem, he ▸ csOffset_mod_size hm, hr⟩
    refine ⟨stc_poisoned hn, fun hb hg hi => ?_⟩
    have hh : HomeReady s h e := ⟨hb, hg, hi⟩
    refine ⟨ldc_own hn hh, ldc_remote hn hh, fun ho hpool hst => ?_, fun hd => ⟨stc_own hn hh hd, fun ho hpool hst => ?_,
      fun ho hq hframes hvs => ?_⟩⟩
    · obtain ⟨hpkg, hsame⟩ := failTile_mem (s := s) hst 1 0x06
      exact ⟨_, _, ldc_pool hn hh ho hpool hst, (failTile_me hst _ _ ho).2, hpkg, (failTile_vote s h hst _ _).1, hsame,
        failTile_otherTiles hst _ _⟩
    · obtain ⟨hpkg, hsame⟩ := failTile_mem (s := s) hst 1 0x06
      exact ⟨_, stc_pool hn hh hd ho hpool, (failTile_me hst _ _ ho).2, hpkg, (failTile_vote s h hst _ _).1, hsame,
        failTile_otherTiles hst _ _⟩
    · obtain ⟨hstores, hfull⟩ := stc_remote hn hh hd ho hq hvs hframes
      refine ⟨hstores, fun hdelta hst => ?_⟩
      obtain ⟨hpkg, hsame⟩ := failTile_mem (s := s) hst 1 0x0B
      exact ⟨_, hfull hdelta, (failTile_me hst _ _ ho).2, (failTile_vote s h hst _ _).1, hsame, failTile_otherTiles hst _ _, hpkg⟩
  · intro s g sz d a imm ea base hc ha hea hbase
    refine ⟨fun hm => ?_, fun hm => ⟨fun hcause => (cluster_traps hc ha hea hm).1 ?_, (cluster_traps hc ha hea hm).2⟩⟩
    · rw [exec_ldc, exec_stc]
      exact ⟨issue_trap (clears_with hc _ rfl) rfl (csAccess_misaligned ha hea hm), issue_trap (clears_with hc _ rfl) rfl (csAccess_misaligned ha hea hm)⟩
    · rcases hcause with hf | hneg | ⟨hge, hw⟩ | ⟨h0, hlt, hr⟩
      · exact .inl (csPlace_unowned hf ea)
      · exact .inl (csPlace_outside (.inl hneg) (.inl (by omega)))
      · exact .inl (csPlace_outside (.inr hge) (by rw [hbase] at hw; exact hw))
      · exact (csPlace_within ⟨h0, hlt⟩).imp_right fun ⟨t, ht⟩ => ⟨t, _, ht, hr⟩
  · intro s g sz d a imm hc ha
    rw [exec_ldc, exec_stc]
    exact ⟨issue_trap (clears_with hc _ rfl) rfl (csAccess_poisoned ha), issue_trap (clears_with hc _ rfl) rfl (csAccess_poisoned ha)⟩

end Sys2Proof.Proofs
end

section
/-! PROOFS. MSG (R95, R225): its checks in order, and the message that it puts in flight. -/

namespace Sys2Proof.Proofs

open Sys2Proof.Machine Sys2Proof.Safety Sys2Proof.Laws

/-! ## What a change outside the tiles leaves -/

theorem tile_of_tiles {s t : State} (h : t.tiles = s.tiles) (u : Nat) : t.tile u = s.tile u :=
  congrArg (fun m : SMap Tile => SMap.get m u {}) h

theorem strand_of_tiles {s t : State} (h : t.tiles = s.tiles) (u k : Nat) : t.strand u k = s.strand u k := by
  rw [State.strand, State.strand, tile_of_tiles h]

theorem me_of_tiles {s t : State} (h : t.tiles = s.tiles) (hc : t.curTile = s.curTile) (hk : t.curStrand = s.curStrand) : t.me = s.me := by
  rw [State.me, State.me, strand_of_tiles h, hc, hk]

/-! ## MSG -/

theorem exec_msg (s : State) (g : Guard) (a : SReg) : exec (.msg g a) s = execMsg g a s := rfl

/-- The state with one more message of the strand in flight. -/
def sent (s : State) (h : Nat) (d : BitVec 512) : State :=
  { (s.updMe fun x => { x with msgCount := x.msgCount + 1 }) with
    msgs := s.msgs ++ [⟨s.curTile, h, ⟨d, s.myTile.gti, s.me.routine, s.me.msgCount⟩, s.netOrd⟩], netOrd := s.netOrd + 1 }

theorem sent_me (s : State) (h : Nat) (d : BitVec 512) : (sent s h d).me = { s.me with msgCount := s.me.msgCount + 1 } :=
  (me_of_tiles (s := s.updMe fun x => { x with msgCount := x.msgCount + 1 }) rfl rfl rfl).trans (State.me_updMe s _)

theorem sent_mem (s : State) (h : Nat) (d : BitVec 512) : (sent s h d).myTile.mem = s.myTile.mem :=
  (congrArg Tile.mem (tile_of_tiles (s := s.updMe fun x => { x with msgCount := x.msgCount + 1 }) rfl s.curTile)).trans
    (updMe_reads s _).2.2.1

section
variable {s : State} {g : Guard} {a : SReg} {e : Nat} (hc : Clears s (ordinary g)) (ha : s.me.tag a = false)
  (he : (s.me.rd a).toNat = e) (hlt : e < 0x40000) (hm : e % 64 = 0) (hr : s.myTile.rangeIs Region.vs e 64 = true)
  (hg : s.myTile.gatedAt e = false) (hs : s.sourceReady s.curTile s.curStrand e 64 = true)
include hc ha he hlt hm hr hg hs

theorem msg_poisoned (hp : s.myTile.readPoison e 64 = true) : exec (.msg g a) s = .next (traps s 0x07 (s.me.rd a)) := by
  rw [exec_msg]
  refine issue_trap (clears_with hc _ rfl) rfl ?_
  simp only [ha, he, hm, tileAddr_of hlt, hr, hg, hs, hp, Bool.not_true, Bool.false_eq_true, if_false, if_true, ne_eq, not_true_eq_false]

variable (hp : s.myTile.readPoison e 64 = false) {q : Gang} (hq : s.gangOf s.curTile = some q)
include hp hq

theorem msg_beyond (hd : q.size ≤ bitsOf (s.myTile.descriptor e) 9 23) : exec (.msg g a) s = .next (traps s 0x06 (s.me.rd a)) := by
  rw [exec_msg]
  refine issue_trap (clears_with hc _ rfl) rfl ?_
  simp only [ha, he, hm, tileAddr_of hlt, hr, hg, hs, hp, hq, hd, Bool.not_true, Bool.false_eq_true, if_false, if_true, ne_eq,
    not_true_eq_false]

theorem msg_sends {h : Nat} (hd : bitsOf (s.myTile.descriptor e) 9 23 < q.size) (ht : q.tileAt (bitsOf (s.myTile.descriptor e) 9 23) = some h)
    (hroom : (s.myTile.descriptor e).getLsbD 2 = true → s.mailLoad h < 16) :
    exec (.msg g a) s = .next (retired s (sent s h (s.myTile.descriptor e))) := by
  have hfree : ¬ ((s.myTile.descriptor e).getLsbD 2 = true ∧ 16 ≤ s.mailLoad h) := fun ⟨hi, hfull⟩ => Nat.not_le.2 (hroom hi) hfull
  rw [exec_msg]
  refine issue_done2 (clears_with hc _ rfl) rfl rfl ?_
  simp only [ha, he, hm, tileAddr_of hlt, hr, hg, hs, hp, hq, Nat.not_le.2 hd, ht, hfree, Option.bind_some, Bool.not_true,
    Bool.false_eq_true, if_false, ne_eq, not_true_eq_false]
  rfl

end

/-- Settles O25. -/
theorem messageSend : Obligations.MessageSend := by
  unfold Obligations.MessageSend
  intro s g a e dest h q hc ha he hlt hm hr hg hs hq hdest
  subst hdest
  refine ⟨fun hp => msg_poisoned hc ha he hlt hm hr hg hs hp, fun hp hd => msg_beyond hc ha he hlt hm hr hg hs hp hq hd,
    fun hp hd ht hroom => ⟨sent s h (s.myTile.descriptor e), msg_sends hc ha he hlt hm hr hg hs hp hq hd ht hroom, sent_mem s h _,
      fun r => ?_, rfl, ?_⟩⟩
  · rw [sent_me]; rfl
  · rw [sent_me]

end Sys2Proof.Proofs
end

section
/-! PROOFS. The event unit (R238-R247): what an answer to a parked load leaves, the rules of its lines, barriers and mutexes, and the
instructions and messages that reach them. -/

namespace Sys2Proof.Proofs

open Sys2Proof.Machine Sys2Proof.Safety Sys2Proof.Laws

/-! ## Clusters and their objects -/

@[simp] theorem cluster_updCluster_self (s : State) (c : Nat) (f : Cluster → Cluster) : (s.updCluster c f).cluster c = f (s.cluster c) :=
  SMap.get_set_self _ _ _ _

theorem cluster_of_clusters {s t : State} (h : t.clusters = s.clusters) (c : Nat) : t.cluster c = s.cluster c :=
  congrArg (fun m : SMap Cluster => SMap.get m c (Cluster.reset c)) h

theorem retired_cluster (s u : State) (c : Nat) : (retired s u).cluster c = u.cluster c := cluster_of_clusters rfl c

theorem parked_cluster (u : State) (f : Strand → Strand) (c : Nat) : (u.updMe f).cluster c = u.cluster c := cluster_of_clusters rfl c

@[simp] theorem line_setLine_self (C : Cluster) (i : Nat) (x : Line) : (C.setLine i x).line i = x := SMap.get_set_self _ _ _ _

@[simp] theorem barrier_setBarrier_self (C : Cluster) (i : Nat) (x : Barrier) : (C.setBarrier i x).barrier i = x :=
  SMap.get_set_self _ _ _ _

@[simp] theorem mutex_setMutex_self (C : Cluster) (i : Nat) (x : Mutex) : (C.setMutex i x).mutex i = x := SMap.get_set_self _ _ _ _

/-! ## Offsets of the event window (R238) -/

theorem evObj_barrier {i : Nat} (hi : i < 8) : evObj (8 * i) = some (.barrier i) := by
  have h8 : 8 * i / 8 = i := by omega
  rw [evObj, if_neg (by omega), if_pos (by omega), h8]

theorem evObj_mutex {i : Nat} (hi : i < 16) : evObj (0x100 + 8 * i) = some (.mutex i) := by
  have h8 : (0x100 + 8 * i - 0x100) / 8 = i := by omega
  rw [evObj, if_neg (by omega), if_neg (by omega), if_pos (by omega), h8]

theorem evObj_line {i : Nat} (hi : i < 32) : evObj (0x200 + 8 * i) = some (.line i) := by
  have h8 : (0x200 + 8 * i - 0x200) / 8 = i := by omega
  rw [evObj, if_neg (by omega), if_neg (by omega), if_neg (by omega), if_pos (by omega), h8]

/-! ## The answer to a parked load (R240-R242) -/

theorem retireAt_message_over {s : State} {pc : Pc} (r : Rep) (keep : Bool) (h4 : s.curStrand = 4) (hl : s.me.slots.length ≤ pc.toNat) :
    (s.retireAt pc r keep).me.hold = .none := by
  rw [me_retireAt]
  cases keep <;> simp [h4, hl]

theorem retireAt_hold (s : State) (pc : Pc) (r : Rep) (keep : Bool) : (s.retireAt pc r keep).me.hold = .none := by
  by_cases hlast : s.curStrand = 4 ∧ s.me.slots.length ≤ pc.toNat
  · exact retireAt_message_over r keep hlast.1 hlast.2
  · exact (retireAt_goes_on r keep (by omega)).2.2.2

/-- An instruction that retires for an event leaves its registers and their tags. -/
theorem retireHeld_releases (s : State) (t k : Nat) : ∃ x, s.retireHeld t k Sync.none = s.setStrand t k x ∧ x.hold = .none ∧
    (k ≠ 4 → x.run = .ready) ∧ ∀ r, x.rd r = (s.strand t k).rd r ∧ x.tag r = (s.strand t k).tag r := by
  have hgoes := retireAt_goes_on (s := s.giveTurn t k) (pc := (s.giveTurn t k).nextOf.1) (s.giveTurn t k).nextOf.2 false
  have hrd := retireAt_rd (s.giveTurn t k) (s.giveTurn t k).nextOf.1 (s.giveTurn t k).nextOf.2 false
  have htag := retireAt_tag (s.giveTurn t k) (s.giveTurn t k).nextOf.1 (s.giveTurn t k).nextOf.2 false
  refine ⟨((s.giveTurn t k).retireAt (s.giveTurn t k).nextOf.1 (s.giveTurn t k).nextOf.2 false).me, ?_, retireAt_hold _ _ _ _,
    fun hk => ?_, fun r => ⟨hrd r, htag r⟩⟩
  · rw [me_retireAt]; rfl
  · obtain ⟨-, -, hrun, -⟩ := hgoes (.inl hk)
    exact hrun

section
variable {s : State} {t k : Nat} {d : SReg} {v : Word}

theorem finishEvent_parked (hrun : (s.strand t k).run = .parked .event) : ∃ x, s.finishEvent t k d v =
    (s.setStrand t k ((s.strand t k).wr d v false)).setStrand t k x ∧ x.hold = .none ∧ (k ≠ 4 → x.run = .ready) ∧
      ∀ r, x.rd r = ((s.strand t k).wr d v false).rd r ∧ x.tag r = ((s.strand t k).wr d v false).tag r := by
  obtain ⟨x, hx, hhold, hgoes, hregs⟩ := retireHeld_releases (s.setStrand t k ((s.strand t k).wr d v false)) t k
  rw [State.strand_setStrand_self] at hregs
  exact ⟨x, (if_pos hrun).trans hx, hhold, hgoes, hregs⟩

theorem finishEvent_standing {pc : Pc} (hrun : (s.strand t k).run ≠ .parked .event)
    (hst : (s.strand t k).standing = some (pc, .event, none)) :
    s.finishEvent t k d v = s.setStrand t k { s.strand t k with standing := some (pc, .event, some v) } := by
  simp only [State.finishEvent, if_neg hrun, hst]

/-- An answer reaches a strand, and nothing but tiles. -/
theorem finishEvent_keeps (s : State) (t k : Nat) (d : SReg) (v : Word) : (s.finishEvent t k d v).clusters = s.clusters ∧
    (s.finishEvent t k d v).chains = s.chains ∧ (s.finishEvent t k d v).curTile = s.curTile ∧
    (s.finishEvent t k d v).curStrand = s.curStrand := by
  rw [State.finishEvent]
  split
  · obtain ⟨x, hx, -⟩ := retireHeld_releases (s.setStrand t k ((s.strand t k).wr d v false)) t k
    rw [hx]
    exact ⟨rfl, rfl, rfl, rfl⟩
  · split <;> exact ⟨rfl, rfl, rfl, rfl⟩

theorem foldl_finishEvent_keeps (v : Word) (l : List (Nat × Nat × SReg)) (s u : State)
    (hu : u = l.foldl (fun s w => s.finishEvent w.1 w.2.1 w.2.2 v) s) :
    u.clusters = s.clusters ∧ u.chains = s.chains ∧ u.curTile = s.curTile ∧ u.curStrand = s.curStrand := by
  subst hu
  induction l generalizing s with
  | nil => exact ⟨rfl, rfl, rfl, rfl⟩
  | cons w l ih =>
    obtain ⟨hclusters, hchains, hcur, hk⟩ := ih (s.finishEvent w.1 w.2.1 w.2.2 v)
    obtain ⟨hclusters', hchains', hcur', hk'⟩ := finishEvent_keeps s w.1 w.2.1 w.2.2 v
    exact ⟨hclusters.trans hclusters', hchains.trans hchains', hcur.trans hcur', hk.trans hk'⟩

theorem finishEvent_answers (hk : k ≠ 4) (hrun : (s.strand t k).run = .parked .event) : Answered (s.finishEvent t k d v) t k d v := by
  obtain ⟨x, hx, hhold, hgoes, hregs⟩ := finishEvent_parked (d := d) (v := v) hrun
  rw [hx, Answered, State.strand_setStrand_self]
  obtain ⟨hrd, htag⟩ := hregs d
  refine ⟨hgoes hk, hhold, hrd.trans (Strand.rd_wr_self _ _ _ _), htag.trans ?_⟩
  rw [Strand.tag_wr_self]
  exact ite_self _

theorem answered_of_tiles {u w : State} (h : w.tiles = u.tiles) (ha : Answered u t k d v) : Answered w t k d v := by
  rw [Answered, strand_of_tiles h]
  exact ha

/-- The strand that has answered retires on its own. -/
theorem answered_retired {u : State} (s : State) (hne : (t, k) ≠ (u.curTile, u.curStrand)) (ha : Answered u t k d v) :
    Answered (retired s u) t k d v := by
  have hne' : t ≠ u.curTile ∨ k ≠ u.curStrand := by
    by_contra h
    push Not at h
    exact hne (Prod.ext h.1 h.2)
  have hstrand : (retired s u).strand t k = u.strand t k := State.strand_updMe_ne u hne' _
  rw [Answered, hstrand]
  exact ha

end

/-! ## Event lines (R241) -/

section
variable {s : State} {c i : Nat} {x : Line} {sig : BitVec 16} (hx : x = (s.cluster c).line i)
  (hsig : sig = if x.sig = 65535 then x.sig else x.sig + 1)
include hx hsig

theorem signalLine_counts (hlt : sig.toNat < x.count.toNat) :
    s.signalLine c i = s.updCluster c fun C => C.setLine i { x with sig := sig } := by
  subst hx hsig
  exact if_neg (Nat.not_le.2 hlt)

theorem signalLine_fires (hle : x.count.toNat ≤ sig.toNat) (hchain : x.chain = none) {w : Nat × Nat × SReg} (hw : x.waiters = [w]) :
    s.signalLine c i = (s.updCluster c fun C => C.setLine i { x with sig := sig, waiters := [], sent := true }).finishEvent
      w.1 w.2.1 w.2.2 (sig.setWidth 64) := by
  subst hx hsig
  refine (if_pos hle).trans ?_
  simp only [hchain, State.sendChain, ite_self, hw, List.foldl_cons, List.foldl_nil]

end

/-! ## Barriers (R240) -/

/-- A barrier that has fired. -/
def fired (x : Barrier) : Barrier :=
  { x with gen := x.gen + 1, arr := 0, waitup := false, waiters := [], children := [], late := [] }

section
variable {s : State} {c b : Nat} {x : Barrier}

theorem fireBarrier_spec (hx : x = (s.cluster c).barrier b) (u : State) (hu : u = s.fireBarrier c b) :
    (u.cluster c).barrier b = fired x ∧ u.chains = s.chains ++ x.children.map (fun ch => ⟨true, c, false, b, ch.1, false, ch.2⟩) ∧
      u.curTile = s.curTile ∧ u.curStrand = s.curStrand := by
  subst hx hu
  obtain ⟨hclusters, hchains, hcur, hk⟩ := foldl_finishEvent_keeps ((((s.cluster c).barrier b).gen + 1).setWidth 64)
    ((s.cluster c).barrier b).waiters (s.updCluster c fun C => C.setBarrier b (fired ((s.cluster c).barrier b))) _ rfl
  refine ⟨?_, congrArg (· ++ _) hchains, hcur, hk⟩
  refine (congrArg (Cluster.barrier · b) (cluster_of_clusters hclusters c)).trans ?_
  rw [cluster_updCluster_self, barrier_setBarrier_self]

theorem fireBarrier_tiles (hx : x = (s.cluster c).barrier b) {w : Nat × Nat × SReg} (hw : x.waiters = [w]) :
    (s.fireBarrier c b).tiles =
      ((s.updCluster c fun C => C.setBarrier b (fired x)).finishEvent w.1 w.2.1 w.2.2 ((x.gen + 1).setWidth 64)).tiles := by
  subst hx
  rw [State.fireBarrier, hw]
  rfl

variable (hx : x = (s.cluster c).barrier b) (hup : x.waitup = false)
include hx hup

/-- An arrival short of COUNT is counted, with the load that waits and the barrier that it came from. -/
theorem arriveBarrier_counts (hlt : x.arr + 1 < x.count.toNat) (w : Option (Nat × Nat × SReg)) (child : Option (Nat × Nat)) :
    s.arriveBarrier c b w child = s.updCluster c fun C => C.setBarrier b
      { x with arr := x.arr + 1, waiters := x.waiters ++ w.toList, children := x.children ++ child.toList } := by
  subst hx
  rw [State.arriveBarrier, if_neg (Bool.eq_false_iff.1 hup)]
  exact if_pos hlt

/-- The arrival that makes COUNT fires a barrier without a chain. -/
theorem arriveBarrier_fires (hge : x.count.toNat ≤ x.arr + 1) (hchain : x.chain = none) (w : Option (Nat × Nat × SReg)) :
    s.arriveBarrier c b w none = (s.updCluster c fun C => C.setBarrier b
      { x with arr := x.arr + 1, waiters := x.waiters ++ w.toList }).fireBarrier c b := by
  subst hx
  rw [State.arriveBarrier, if_neg (Bool.eq_false_iff.1 hup)]
  refine (if_neg (Nat.not_lt.2 hge)).trans ?_
  simp only [hchain, Option.toList_none, List.append_nil, State.sendChain]

end

/-! ## EVSIG, EVARM, MTXREL (R246, R247) -/

theorem exec_evsig (s : State) (g : Guard) (a : SReg) : exec (.evsig g a) s = execEvsig g a s := rfl

theorem exec_evarm (s : State) (g : Guard) (a b : SReg) : exec (.evarm g a b) s = execEvarm g a b s := rfl

theorem exec_mtxrel (s : State) (g : Guard) (a : SReg) : exec (.mtxrel g a) s = execMtxrel g a s := rfl

section
variable {s : State} {a : SReg} {off : Nat} (h : EventAt s a off) {o : EvObj} (ho : evObj off = some o) (hoff : off < 0x1000)
include h ho hoff

theorem eventAccess_at {rs : List SReg} (hrs : ∀ r ∈ rs, s.me.tag r = false) (k : EvObj → Eff) : s.eventAccess rs a k = k o := by
  obtain ⟨-, hfull, hge, hea, -, hm⟩ := h
  simp only [State.eventAccess, lowPoison_none _ _ hrs, hm, csPlace_event hfull hge hea hoff, ho, ne_eq, not_true_eq_false, if_false]

variable {g : Guard} (hc : Clears s (inSet g [a])) (hl : s.storesLanded = true)
  (harm : (s.cluster (clusterOf s.curTile)).disarmed o = false)
include hc hl harm

theorem evsig_line {i : Nat} (hi : o = .line i) : exec (.evsig g a) s = .next (retired s (s.signalLine (clusterOf s.curTile) i)) := by
  subst hi
  rw [exec_evsig]
  refine issue_done2 (clears_with hc _ rfl) rfl rfl ((eventAccess_at h ho hoff (by simpa using h.1) _).trans ?_)
  simp only [harm, hl, Bool.false_eq_true, if_false, if_true]

theorem evsig_barrier {i : Nat} (hi : o = .barrier i) :
    exec (.evsig g a) s = .next (retired s (s.arriveBarrier (clusterOf s.curTile) i none none)) := by
  subst hi
  rw [exec_evsig]
  refine issue_done2 (clears_with hc _ rfl) rfl rfl ((eventAccess_at h ho hoff (by simpa using h.1) _).trans ?_)
  simp only [harm, hl, Bool.false_eq_true, if_false, if_true]

end

section
variable {s : State} {g : Guard} {a b : SReg} {i : Nat} {n : BitVec 16} {ch : Option (Bool × Nat × Nat)}
  (hc : Clears s (ordinary g)) (hb : s.me.tag b = false)
include hc hb

theorem evarm_barrier (hi : i < 8) (h : EventAt s a (8 * i)) (hw : s.armWord (.barrier i) (s.me.rd b) = some (n, ch))
    (harr : ((s.cluster (clusterOf s.curTile)).barrier i).arr = 0)
    (hup : ((s.cluster (clusterOf s.curTile)).barrier i).waitup = false)
    (hwait : ((s.cluster (clusterOf s.curTile)).barrier i).waiters = []) :
    exec (.evarm g a b) s =
      .next (retired s (s.updCluster (clusterOf s.curTile) fun C => C.setBarrier i { count := n, chain := ch })) := by
  have hidle : ¬ (((s.cluster (clusterOf s.curTile)).barrier i).arr ≠ 0 ∨ ((s.cluster (clusterOf s.curTile)).barrier i).waitup = true ∨
      (!((s.cluster (clusterOf s.curTile)).barrier i).waiters.isEmpty) = true) := by
    rw [harr, hup, hwait]
    decide
  rw [exec_evarm]
  refine issue_done2 (clears_with hc _ rfl) rfl rfl ((eventAccess_at h (evObj_barrier hi) (by omega) (by simpa [h.1] using hb) _).trans ?_)
  simp only [hw, if_neg hidle]

theorem evarm_line (hi : i < 32) (h : EventAt s a (0x200 + 8 * i)) (hw : s.armWord (.line i) (s.me.rd b) = some (n, ch))
    (hwait : ((s.cluster (clusterOf s.curTile)).line i).waiters = []) :
    exec (.evarm g a b) s =
      .next (retired s (s.updCluster (clusterOf s.curTile) fun C => C.setLine i { count := n, chain := ch })) := by
  rw [exec_evarm]
  refine issue_done2 (clears_with hc _ rfl) rfl rfl ((eventAccess_at h (evObj_line hi) (by omega) (by simpa [h.1] using hb) _).trans ?_)
  simp only [hw, hwait, List.isEmpty_nil, Bool.not_true, Bool.false_eq_true, if_false]

end

/-- Without a chain an arming word is its COUNT. -/
theorem armWord_unchained (s : State) (o : EvObj) {w : Word} (hz : bitsOf w 41 23 = 0) (hchv : w.getLsbD 16 = false) :
    s.armWord o w = some (w.extractLsb' 0 16, none) := by
  have hcount : w.setWidth 16 = w.extractLsb' 0 16 := BitVec.setWidth_eq_extractLsb' (by decide)
  simp only [State.armWord, hz, hchv, hcount, ne_eq, not_true_eq_false, if_false, Bool.not_false, if_true]

section
variable {s : State} {g : Guard} {a : SReg} {i : Nat} (hc : Clears s (ordinary g)) (hl : s.storesLanded = true) (hi : i < 16)
  (h : EventAt s a (0x100 + 8 * i))
  (hown : ((s.cluster (clusterOf s.curTile)).mutex i).owner = some (s.curTile, s.curStrand))
include hc hl hi h hown

theorem mtxrel_frees (hq : ((s.cluster (clusterOf s.curTile)).mutex i).queue = []) :
    exec (.mtxrel g a) s = .next (retired s (s.updCluster (clusterOf s.curTile) fun C => C.setMutex i {})) := by
  rw [exec_mtxrel]
  refine issue_done2 (clears_with hc _ rfl) rfl rfl ((eventAccess_at h (evObj_mutex hi) (by omega) (by simpa using h.1) _).trans ?_)
  simp only [hown, hl, hq, ne_eq, not_true_eq_false, Bool.not_true, Bool.false_eq_true, if_false]

theorem mtxrel_passes {t k : Nat} {d : SReg} {rest : List (Nat × Nat × SReg)}
    (hq : ((s.cluster (clusterOf s.curTile)).mutex i).queue = (t, k, d) :: rest) :
    exec (.mtxrel g a) s = .next (retired s
      ((s.updCluster (clusterOf s.curTile) fun C => C.setMutex i ⟨some (t, k), rest⟩).finishEvent t k d 0)) := by
  rw [exec_mtxrel]
  refine issue_done2 (clears_with hc _ rfl) rfl rfl ((eventAccess_at h (evObj_mutex hi) (by omega) (by simpa using h.1) _).trans ?_)
  simp only [hown, hl, hq, ne_eq, not_true_eq_false, Bool.not_true, Bool.false_eq_true, if_false]

end

/-! ## Event-space loads (R238, R240-R242) -/

section
variable {s : State} {g : Guard} {d a : SReg} {imm : BitVec 15} {off : Nat} (hc : Clears s (ordinary g))
  (h : EventLoadAt s a imm off) (hoff : off < 0x1000) {u : State}
include hc h hoff

theorem ldc_event_done (hu : ∀ val, s.eventLoad d off val = .done u) : exec (.ldc g .d d a imm) s = .next (retired s u) := by
  obtain ⟨ha, hfull, -, ea, hea, hge, hwin, hm⟩ := h
  rw [exec_ldc]
  refine issue_done2 (clears_with hc _ rfl) rfl rfl ((csAccess_reaches ha hea ?_).trans ?_)
  · simp only [Size.bytes]; omega
  · simp only [csPlace_event hfull hge hwin hoff, if_true, hu]

theorem ldc_event_parked (hu : ∀ val, s.eventLoad d off val = .parked u .event) :
    exec (.ldc g .d d a imm) s = .next (u.updMe fun x => { x with run := .parked .event, took := false, issued := true }) := by
  obtain ⟨ha, hfull, -, ea, hea, hge, hwin, hm⟩ := h
  rw [exec_ldc]
  refine issue_parked (clears_with hc _ rfl) rfl rfl ((csAccess_reaches ha hea ?_).trans ?_)
  · simp only [Size.bytes]; omega
  · simp only [csPlace_event hfull hge hwin hoff, if_true, hu]

end

theorem waits_of_parked {s w : State} (hme : { w.me with run := .parked .event, took := false, issued := true } =
      { s.me with run := .parked .event, took := false, issued := true }) (hcur : w.curTile = s.curTile)
    (hk : w.curStrand = s.curStrand) (hpkg : w.mem = s.mem) (hmem : w.myTile.mem = s.myTile.mem) (hother : OtherTilesSame s w s.curTile) :
    WaitsForEvent s (w.updMe fun x => { x with run := .parked .event, took := false, issued := true }) := by
  refine ⟨?_, hcur, hk, hpkg, (updMe_reads w _).2.2.1.trans hmem, fun t ht => ?_⟩
  · rw [State.me_updMe, hme]
  · rw [State.tile_updMe_ne w (by rw [hcur]; exact ht), hother t ht]

/-- The strand as it waits while its arrival is counted. -/
def awaiting (x : Strand) : Strand := { x with standing := some (x.pc, .event, none), run := .ready }

section
variable {s : State} {d : SReg} {off i : Nat} (val : Word) (hst : s.me.standing = none)
include hst

theorem resumed_none (why : Reason) : s.me.resumed why = none := by rw [Strand.resumed, hst]

theorem eventLoad_line {x : Line} (ho : evObj off = some (.line i)) (hx : x = (s.cluster (clusterOf s.curTile)).line i)
    (harm : x.count ≠ 0) :
    (x.count.toNat ≤ x.sig.toNat → s.eventLoad d off val = .done (s.updMe fun y => y.wr d (x.sig.setWidth 64) false)) ∧
    (x.sig.toNat < x.count.toNat → s.eventLoad d off val = .parked (s.updCluster (clusterOf s.curTile) fun C =>
      C.setLine i { x with waiters := x.waiters ++ [(s.curTile, s.curStrand, d)] }) .event) := by
  subst hx
  have harmed : (s.cluster (clusterOf s.curTile)).disarmed (.line i) = false := decide_eq_false harm
  refine ⟨fun hle => ?_, fun hlt => ?_⟩
  · simp only [State.eventLoad, resumed_none hst, ho, harmed, hle, Bool.false_eq_true, if_false, if_true]
  · simp only [State.eventLoad, resumed_none hst, ho, harmed, Nat.not_le.2 hlt, Bool.false_eq_true, if_false]

theorem eventLoad_mutex {x : Mutex} (ho : evObj off = some (.mutex i)) (hx : x = (s.cluster (clusterOf s.curTile)).mutex i) :
    (x.owner = none → s.eventLoad d off val = .done ((s.updCluster (clusterOf s.curTile) fun C =>
      C.setMutex i { x with owner := some (s.curTile, s.curStrand) }).updMe fun y => y.wr d 0 false)) ∧
    (x.owner ≠ none → s.eventLoad d off val = .parked (s.updCluster (clusterOf s.curTile) fun C =>
      C.setMutex i { x with queue := x.queue ++ [(s.curTile, s.curStrand, d)] }) .event) := by
  subst hx
  have harmed : (s.cluster (clusterOf s.curTile)).disarmed (.mutex i) = false := rfl
  refine ⟨fun hfree => ?_, fun hheld => ?_⟩
  · simp only [State.eventLoad, resumed_none hst, ho, harmed, hfree, Option.isNone_none, Bool.false_eq_true, if_false, if_true]
  · have hheld' : ((s.cluster (clusterOf s.curTile)).mutex i).owner.isNone = false := by
      rw [Option.isNone_eq_false_iff, Option.isSome_iff_ne_none]; exact hheld
    simp only [State.eventLoad, resumed_none hst, ho, harmed, hheld', Bool.false_eq_true, if_false]

/-- The load of an armed barrier arrives as a strand that waits; if the barrier has answered it by then, it does not park. -/
theorem eventLoad_barrier (ho : evObj off = some (.barrier i)) (harm : ((s.cluster (clusterOf s.curTile)).barrier i).count ≠ 0)
    (hl : s.storesLanded = true) {w : State}
    (hw : (s.updMe awaiting).arriveBarrier (clusterOf s.curTile) i (some (s.curTile, s.curStrand, d)) none = w) {pc : Pc} {why : Reason} :
    (∀ v, w.me.standing = some (pc, why, some v) →
      s.eventLoad d off val = .done (w.updMe fun x => { x.wr d v false with standing := none })) ∧
    (w.me.standing = some (pc, why, none) → s.eventLoad d off val = .parked (w.updMe fun x => { x with standing := none }) .event) := by
  have harmed : (s.cluster (clusterOf s.curTile)).disarmed (.barrier i) = false := decide_eq_false harm
  unfold awaiting at hw
  refine ⟨fun v hv => ?_, fun hv => ?_⟩
  · simp only [State.eventLoad, resumed_none hst, ho, harmed, hl, hw, hv, Bool.not_true, Bool.false_eq_true, if_false]
  · simp only [State.eventLoad, resumed_none hst, ho, harmed, hl, hw, hv, Bool.not_true, Bool.false_eq_true, if_false]

end

/-- A strand whose arrival has changed nothing but event-unit objects parks. -/
theorem waits_of_arrival {s w : State} (hst : s.me.standing = none) (htiles : w.tiles = (s.updMe awaiting).tiles)
    (hcur : w.curTile = s.curTile) (hk : w.curStrand = s.curStrand) (hpkg : w.mem = s.mem) :
    w.me = awaiting s.me ∧ WaitsForEvent s ((w.updMe fun x => { x with standing := none }).updMe
      fun x => { x with run := .parked .event, took := false, issued := true }) := by
  have hme : w.me = awaiting s.me := (me_of_tiles htiles hcur hk).trans (State.me_updMe s awaiting)
  refine ⟨hme, waits_of_parked ?_ hcur hk hpkg ?_ fun t ht => ?_⟩
  · rw [State.me_updMe, hme, ← hst]; rfl
  · rw [(updMe_reads w _).2.2.1, State.myTile, hcur, tile_of_tiles htiles]
    exact (updMe_reads s awaiting).2.2.1
  · rw [State.tile_updMe_ne w (by rw [hcur]; exact ht), tile_of_tiles htiles, State.tile_updMe_ne s ht]

/-- A strand that its own arrival has answered goes on with the answer. -/
theorem goesOn_of_arrival {s u w : State} {d : SReg} {v : Word} (hst : s.me.standing = none) (hu : u.tiles = (s.updMe awaiting).tiles)
    (hucur : u.curTile = s.curTile) (huk : u.curStrand = s.curStrand)
    (htiles : w.tiles = (u.finishEvent s.curTile s.curStrand d v).tiles) (hcur : w.curTile = s.curTile) (hk : w.curStrand = s.curStrand) :
    w.me.standing = some (s.me.pc, .event, some v) ∧
      (w.updMe fun x => { x.wr d v false with standing := none }).me = { s.me.wr d v false with run := .ready } ∧
      OtherTilesSame s (w.updMe fun x => { x.wr d v false with standing := none }) s.curTile := by
  have hme : u.strand s.curTile s.curStrand = awaiting s.me := by
    have := (me_of_tiles hu hucur huk).trans (State.me_updMe s awaiting)
    rwa [State.me, hucur, huk] at this
  rw [finishEvent_standing (by rw [hme]; exact nofun) (congrArg Strand.standing hme), hme] at htiles
  have hanswered : w.me = { awaiting s.me with standing := some (s.me.pc, .event, some v) } := by
    rw [me_of_tiles htiles (hcur.trans hucur.symm) (hk.trans huk.symm), State.me]
    change (u.setStrand _ _ _).strand u.curTile u.curStrand = _
    rw [hucur, huk, State.strand_setStrand_self]
  refine ⟨by rw [hanswered], ?_, fun t ht => ?_⟩
  · rw [State.me_updMe, hanswered, ← hst, Strand.wr, Strand.wr]
    split <;> rfl
  · rw [State.tile_updMe_ne w (by rw [hcur]; exact ht), tile_of_tiles htiles, State.tile_setStrand_ne u ht, tile_of_tiles hu,
      State.tile_updMe_ne s ht]

section
variable {s : State} {g : Guard} {d a : SReg} {imm : BitVec 15} {c i : Nat} {x : Barrier} (hc : Clears s (ordinary g))
  (hcl : c = clusterOf s.curTile) (hst : s.me.standing = none) (hi : i < 8) (h : EventLoadAt s a imm (8 * i))
  (hx : x = (s.cluster c).barrier i) (harm : x.count ≠ 0) (hup : x.waitup = false) (hl : s.storesLanded = true)
include hc hcl hst hi h hx harm hup hl

theorem ldc_barrier_waits (hlt : x.arr + 1 < x.count.toNat) : ∃ u, exec (.ldc g .d d a imm) s = .next u ∧ WaitsForEvent s u ∧
    (u.cluster c).barrier i = { x with arr := x.arr + 1, waiters := x.waiters ++ [(s.curTile, s.curStrand, d)] } := by
  have hw := arriveBarrier_counts (s := s.updMe awaiting) hx hup hlt (some (s.curTile, s.curStrand, d)) none
  simp only [Option.toList_some, Option.toList_none, List.append_nil] at hw
  generalize hy : ({ x with arr := x.arr + 1, waiters := x.waiters ++ [(s.curTile, s.curStrand, d)] } : Barrier) = y at hw ⊢
  have hbarrier : (((s.updMe awaiting).updCluster c fun C => C.setBarrier i y).cluster c).barrier i = y := by
    rw [cluster_updCluster_self, barrier_setBarrier_self]
  obtain ⟨hme, hwaits⟩ := waits_of_arrival (w := (s.updMe awaiting).updCluster c fun C => C.setBarrier i y) hst rfl rfl rfl rfl
  generalize (s.updMe awaiting).updCluster c (fun C => C.setBarrier i y) = w at *
  subst hcl hx
  refine ⟨_, ldc_event_parked hc h (by omega) fun val => (eventLoad_barrier val hst (evObj_barrier hi) harm hl hw).2
    (congrArg Strand.standing hme), hwaits, ?_⟩
  exact (congrArg (Cluster.barrier · i) (cluster_of_clusters rfl _)).trans hbarrier

theorem ldc_barrier_fires (hge : x.count.toNat ≤ x.arr + 1) (hchain : x.chain = none) (hempty : x.waiters = []) :
    ∃ u, exec (.ldc g .d d a imm) s = .next (retired s u) ∧
      u.me = { s.me.wr d ((x.gen + 1).setWidth 64) false with run := .ready } ∧
      (u.cluster c).barrier i = { x with gen := x.gen + 1, arr := 0, waiters := [], children := [], late := [] } ∧
      u.mem = s.mem ∧ OtherTilesSame s u s.curTile := by
  have hw := arriveBarrier_fires (s := s.updMe awaiting) hx hup hge hchain (some (s.curTile, s.curStrand, d))
  simp only [Option.toList_some, hempty, List.nil_append] at hw
  generalize hy : ({ x with arr := x.arr + 1, waiters := [(s.curTile, s.curStrand, d)] } : Barrier) = y at hw
  have hbarrier : y = (((s.updMe awaiting).updCluster c fun C => C.setBarrier i y).cluster c).barrier i := by
    rw [cluster_updCluster_self, barrier_setBarrier_self]
  have htiles := fireBarrier_tiles (w := (s.curTile, s.curStrand, d)) hbarrier (by rw [← hy])
  obtain ⟨hfired, -, hcur, hk⟩ := fireBarrier_spec hbarrier _ rfl
  obtain ⟨hst', hme, hother⟩ := goesOn_of_arrival
    (u := ((s.updMe awaiting).updCluster c fun C => C.setBarrier i y).updCluster c fun C => C.setBarrier i (fired y))
    hst rfl rfl rfl htiles hcur hk
  have hpkg : (((s.updMe awaiting).updCluster c fun C => C.setBarrier i y).fireBarrier c i).mem = s.mem :=
    State.fireBarrier_mem _ c i
  generalize ((s.updMe awaiting).updCluster c fun C => C.setBarrier i y).fireBarrier c i = w at *
  have hgen : fired y = { x with gen := x.gen + 1, arr := 0, waiters := [], children := [], late := [] } := by
    rw [← hy, fired, ← hup]
  have hgen' : y.gen = x.gen := by rw [← hy]
  rw [hgen'] at hst' hme hother
  subst hcl hx
  exact ⟨_, ldc_event_done hc h (by omega) fun val => (eventLoad_barrier val hst (evObj_barrier hi) harm hl hw).1 _ hst', hme,
    (congrArg (Cluster.barrier · i) (cluster_of_clusters rfl _)).trans (hfired.trans hgen), hpkg, hother⟩

end

/-! ## Chain messages (R240) -/

theorem exec_chainedArrival (s : State) (n : Nat) : exec (.chainedArrival n) s = execChainedArrival n s := rfl

theorem exec_barrierRelease (s : State) (n : Nat) : exec (.barrierRelease n) s = execBarrierRelease n s := rfl

section
variable {s : State} {n : Nat} {m : ChainMsg} {x : Barrier} (hm : s.chains[n]? = some m) (hahead : s.chainAhead n m = false)
  (hx : x = (s.cluster m.dstCluster).barrier m.dstObj)
include hm hahead hx

theorem chainedArrival_counts (hline : m.dstLine = false) (hrel : m.release = false) (hsrc : m.srcLine = false) (harm : x.count ≠ 0)
    (hup : x.waitup = false) (hlt : x.arr + 1 < x.count.toNat) :
    exec (.chainedArrival n) s = .next (({ s with chains := s.chains.eraseIdx n } : State).updCluster m.dstCluster fun C =>
      C.setBarrier m.dstObj { x with arr := x.arr + 1, children := x.children ++ [(m.srcCluster, m.srcObj)] }) := by
  have hcounts := arriveBarrier_counts (s := { s with chains := s.chains.eraseIdx n }) hx hup hlt none (some (m.srcCluster, m.srcObj))
  simp only [Option.toList_none, Option.toList_some, List.append_nil] at hcounts
  have harmed : (State.cluster { s with chains := s.chains.eraseIdx n } m.dstCluster).disarmed (.barrier m.dstObj) = false :=
    decide_eq_false (hx ▸ harm)
  simp only [exec_chainedArrival, execChainedArrival, hm, hrel, hahead, hline, hsrc, harmed, hcounts, Bool.false_eq_true, or_self,
    if_false]

theorem barrierRelease_fires (hrel : m.release = true) (hup : x.waitup = true) (hlate : x.late = []) :
    exec (.barrierRelease n) s =
      .next (({ s with chains := s.chains.eraseIdx n } : State).fireBarrier m.dstCluster m.dstObj) := by
  subst hx
  have hrelease : State.releaseBarrier { s with chains := s.chains.eraseIdx n } m.dstCluster m.dstObj =
      ({ s with chains := s.chains.eraseIdx n } : State).fireBarrier m.dstCluster m.dstObj := by
    refine (if_pos hup).trans ?_
    rw [show ((State.cluster { s with chains := s.chains.eraseIdx n } m.dstCluster).barrier m.dstObj).late = [] from hlate]
    rfl
  simp only [exec_barrierRelease, execBarrierRelease, hm, hrel, hahead, hrelease, Bool.not_false, and_self, if_true]

end

/-! ## Answers while another strand's instruction retires -/

section
variable {s w u : State} {t k : Nat} {d : SReg} {v : Word} (htiles : w.tiles = s.tiles) (hu : u.tiles = (w.finishEvent t k d v).tiles)
  (hcur : u.curTile = s.curTile) (hk : u.curStrand = s.curStrand) (hne : (t, k) ≠ (s.curTile, s.curStrand)) (h4 : k ≠ 4)
  (hrun : (s.strand t k).run = .parked .event)
include htiles hu hcur hk hne h4 hrun

theorem retired_answers : Answered (retired s u) t k d v := by
  refine answered_retired s (by rw [hcur, hk]; exact hne) (answered_of_tiles hu (finishEvent_answers h4 ?_))
  rw [strand_of_tiles htiles]
  exact hrun

end

theorem evsig_answers_line {s : State} {g : Guard} {a : SReg} {i t k : Nat} {d : SReg} {x : Line} {sig : BitVec 16}
    (hexec : exec (.evsig g a) s = .next (retired s (s.signalLine (clusterOf s.curTile) i)))
    (hx : x = (s.cluster (clusterOf s.curTile)).line i) (hsig : sig = if x.sig = 65535 then x.sig else x.sig + 1)
    (hle : x.count.toNat ≤ sig.toNat) (hchain : x.chain = none) (hw : x.waiters = [(t, k, d)])
    (hne : (t, k) ≠ (s.curTile, s.curStrand)) (h4 : k ≠ 4) (hrun : (s.strand t k).run = .parked .event) :
    ∃ u, exec (.evsig g a) s = .next u ∧
      (u.cluster (clusterOf s.curTile)).line i = { x with sig := sig, waiters := [], sent := true } ∧
      Answered u t k d (sig.setWidth 64) := by
  rw [signalLine_fires hx hsig hle hchain hw] at hexec
  obtain ⟨hclusters, -, hcur, hk⟩ := finishEvent_keeps (s.updCluster (clusterOf s.curTile) fun C =>
    C.setLine i { x with sig := sig, waiters := [], sent := true }) t k d (sig.setWidth 64)
  refine ⟨_, hexec, ?_, retired_answers (w := s.updCluster (clusterOf s.curTile) fun C =>
    C.setLine i { x with sig := sig, waiters := [], sent := true }) rfl rfl hcur hk hne h4 hrun⟩
  rw [retired_cluster, cluster_of_clusters hclusters, cluster_updCluster_self, line_setLine_self]

theorem evsig_answers_barrier {s : State} {g : Guard} {a : SReg} {i t k : Nat} {d : SReg} {x : Barrier}
    (hexec : exec (.evsig g a) s = .next (retired s (s.arriveBarrier (clusterOf s.curTile) i none none)))
    (hx : x = (s.cluster (clusterOf s.curTile)).barrier i) (hup : x.waitup = false) (hge : x.count.toNat ≤ x.arr + 1)
    (hchain : x.chain = none) (hw : x.waiters = [(t, k, d)])
    (hne : (t, k) ≠ (s.curTile, s.curStrand)) (h4 : k ≠ 4) (hrun : (s.strand t k).run = .parked .event) :
    ∃ u, exec (.evsig g a) s = .next u ∧ (u.cluster (clusterOf s.curTile)).barrier i =
        { x with gen := x.gen + 1, arr := 0, waiters := [], children := [], late := [] } ∧
      Answered u t k d ((x.gen + 1).setWidth 64) := by
  rw [arriveBarrier_fires hx hup hge hchain none] at hexec
  simp only [Option.toList_none, List.append_nil] at hexec
  generalize hy : ({ x with arr := x.arr + 1 } : Barrier) = y at hexec
  have hbarrier : y = ((s.updCluster (clusterOf s.curTile) fun C => C.setBarrier i y).cluster (clusterOf s.curTile)).barrier i := by
    rw [cluster_updCluster_self, barrier_setBarrier_self]
  have htiles := fireBarrier_tiles hbarrier (by rw [← hy]; exact hw)
  obtain ⟨hfired, -, hcur, hk⟩ := fireBarrier_spec hbarrier _ rfl
  have hgen : fired y = { x with gen := x.gen + 1, arr := 0, waiters := [], children := [], late := [] } := by
    rw [← hy, fired, ← hup]
  have hgen' : y.gen = x.gen := by rw [← hy]
  rw [hgen'] at htiles
  exact ⟨_, hexec, (congrArg (Cluster.barrier · i) (retired_cluster _ _ _)).trans (hfired.trans hgen),
    retired_answers (w := (s.updCluster (clusterOf s.curTile) fun C => C.setBarrier i y).updCluster (clusterOf s.curTile)
      fun C => C.setBarrier i (fired y)) rfl htiles hcur hk hne h4 hrun⟩

/-- Settles O41: each clause is the rule of its object, with the answer that a parked load takes. -/
theorem eventUnit : Obligations.EventUnit := by
  unfold Obligations.EventUnit
  refine ⟨?_, ?_, ?_, fun s o w hz hchv => armWord_unchained s o hz hchv, ?_, ?_, ?_⟩
  · intro s g a c i x hc hl hcl hi h hx harm sig hsig
    subst hcl
    have hexec := evsig_line h (evObj_line hi) (by omega) hc hl (decide_eq_false (hx ▸ harm)) rfl
    exact ⟨fun hlt => by rw [hexec, signalLine_counts hx hsig hlt],
      fun t k d hle hchain hw hne hk hrun => evsig_answers_line hexec hx hsig hle hchain hw hne hk hrun⟩
  · intro s g a c i x hc hl hcl hi h hx harm hup
    subst hcl
    have hexec := evsig_barrier h (evObj_barrier hi) (by omega) hc hl (decide_eq_false (hx ▸ harm)) rfl
    refine ⟨fun hlt => ?_, fun t k d hge hchain hw hne hk hrun => evsig_answers_barrier hexec hx hup hge hchain hw hne hk hrun⟩
    rw [hexec, arriveBarrier_counts hx hup hlt none none]
    simp only [Option.toList_none, List.append_nil]
  · intro s g a b c i n ch hc hcl hb
    subst hcl
    exact ⟨fun hi h hw harr hup hwait => evarm_barrier hc hb hi h hw harr hup hwait,
      fun hi h hw hwait => evarm_line hc hb hi h hw hwait⟩
  · intro s g a c i hc hl hcl hi h hown
    subst hcl
    refine ⟨mtxrel_frees hc hl hi h hown, fun t k d rest hq hne hk hrun => ?_⟩
    obtain ⟨hclusters, -, hcur, hcurk⟩ := finishEvent_keeps (s.updCluster (clusterOf s.curTile) fun C =>
      C.setMutex i ⟨some (t, k), rest⟩) t k d 0
    refine ⟨_, mtxrel_passes hc hl hi h hown hq, ?_, retired_answers (w := s.updCluster (clusterOf s.curTile) fun C =>
      C.setMutex i ⟨some (t, k), rest⟩) rfl rfl hcur hcurk hne hk hrun⟩
    rw [retired_cluster, cluster_of_clusters hclusters, cluster_updCluster_self, mutex_setMutex_self]
  · intro s n m x hm hline hahead hx
    refine ⟨fun hrel hsrc harm hup hlt => chainedArrival_counts hm hahead hx hline hrel hsrc harm hup hlt,
      fun hrel hup hlate hw => ⟨_, barrierRelease_fires hm hahead hx hrel hup hlate, ?_⟩⟩
    obtain ⟨hfired, hchains, -, -⟩ := fireBarrier_spec (s := { s with chains := s.chains.eraseIdx n }) hx _ rfl
    refine ⟨hfired.trans ?_, hchains⟩
    rw [fired, ← hlate]
  · intro s g d a imm c i hc hcl hst me hme
    subst hcl hme
    refine ⟨fun x hi h hx harm => ⟨fun hle => ?_, fun hlt => ?_⟩, fun x hi h hx => ⟨fun hfree => ?_, fun hheld => ?_⟩,
      fun x hi h hx harm hup hl => ⟨ldc_barrier_waits hc rfl hst hi h hx harm hup hl, ldc_barrier_fires hc rfl hst hi h hx harm hup hl⟩⟩
    · exact ldc_event_done hc h (by omega) fun val => (eventLoad_line val hst (evObj_line hi) hx harm).1 hle
    · refine ⟨_, ldc_event_parked hc h (by omega) fun val => (eventLoad_line val hst (evObj_line hi) hx harm).2 hlt,
        waits_of_parked rfl rfl rfl rfl rfl fun _ _ => rfl, ?_⟩
      rw [parked_cluster, cluster_updCluster_self, line_setLine_self]
    · exact ldc_event_done hc h (by omega) fun val => (eventLoad_mutex val hst (evObj_mutex hi) hx).1 hfree
    · refine ⟨_, ldc_event_parked hc h (by omega) fun val => (eventLoad_mutex val hst (evObj_mutex hi) hx).2 hheld,
        waits_of_parked rfl rfl rfl rfl rfl fun _ _ => rfl, ?_⟩
      rw [parked_cluster, cluster_updCluster_self, mutex_setMutex_self]

end Sys2Proof.Proofs
end

section
/-! PROOFS. Immediate atomics (R89, R251-R253): their issue, what they store and return, at a home tile and in package memory. -/

namespace Sys2Proof.Proofs

open Sys2Proof.Machine Sys2Proof.Safety Sys2Proof.Laws

/-! ## Issue (R251) -/

theorem exec_amo (s : State) (g : Guard) (op : AmoOp) (word : Bool) (d a b c : SReg) :
    exec (.amo g op word d a b c) s = execAmo g op word d a b c s := rfl

theorem exec_amof (s : State) (g : Guard) (op : RedOp) (d a b : SReg) : exec (.amof g op d a b) s = execAmof g op d a b s := rfl

theorem issue_hold {s s' : State} {i : Info} {k : Hold} {body : Nat → Nat → State → Eff} (h : Clears s i) (hf : i.formats = none)
    (hs : i.sync = Sync.none) (hb : body 0 0 s = .hold s' k) :
    s.issue i body = .next (s'.updMe fun x => { x with run := .ready, hold := k, took := false, issued := true }) := by
  rw [issue_clears h, hf]
  exact settle_hold _ hs hb

/-- The state with one more atomic of the strand in flight. -/
def inFlight (s : State) (op : AmoOp) (float : Option RedOp) (word hbm : Bool) (a b c : SReg) : State :=
  { s with amos := s.amos ++ [⟨s.curTile, s.curStrand, hbm, s.me.rd a, op, float, word, s.me.rd b, s.me.rd c, false, none,
      s.partOf s.curTile, s.rootOf (s.partOf s.curTile) s.myTile.gang, false⟩] }

/-- Where an atomic may go: a scratch word of a member tile, or memory that the tile may read and write. -/
theorem atomicPlace_serves {s : State} {v : Word} {n : Nat} {hbm : Bool}
    (h : hbm = false ∧ v.toNat < 0x380000 ∧ s.fullCluster s.curTile = true ∧ (s.memberTile s.curTile (csMember v.toNat)).isSome = true ∧
        (s.myTile.region (csOffset v.toNat)).isS = true ∨
      hbm = true ∧ 0x400000 ≤ v.toNat ∧ s.rangeOk s.curTile v.toNat n none false = true ∧
        s.rangeOk s.curTile v.toNat n none true = true) : s.atomicPlace s.curTile v n = some hbm := by
  rcases h with ⟨rfl, hlt, hfull, hmem, hr⟩ | ⟨rfl, hge, hread, hwrite⟩
  · obtain ⟨t, ht⟩ := Option.isSome_iff_exists.1 hmem
    rw [State.atomicPlace, if_pos hlt, csPlace_home hfull hlt ht]
    exact if_pos hr
  · rw [State.atomicPlace, if_neg (by omega), if_neg (by omega), if_pos ⟨hread, hwrite⟩]

theorem atomic_flies {s : State} {op : AmoOp} {word hbm : Bool} {a b c : SReg} (float : Option RedOp) (d : SReg)
    (ha : s.me.tag a = false) (hb : s.me.tag b = false) (hcas : op = .cas → s.me.tag c = false)
    (hm : (s.me.rd a).toNat % (if word then 4 else 8) = 0)
    (hp : s.atomicPlace s.curTile (s.me.rd a) (if word then 4 else 8) = some hbm) :
    s.atomic op float word d a b c = .hold (inFlight s op float word hbm a b c) (.atomic d) := by
  have hdata : (s.me.tag b || (decide (op = .cas) && s.me.tag c)) = false := by
    by_cases h : op = .cas
    · rw [hb, hcas h, Bool.and_false, Bool.or_false]
    · rw [hb, decide_eq_false h, Bool.false_and, Bool.or_false]
  simp only [State.atomic, ha, hm, hp, hdata, ne_eq, not_true_eq_false, Bool.false_eq_true, if_false]
  rfl

theorem inFlight_held (s : State) (op : AmoOp) (float : Option RedOp) (word hbm : Bool) (d a b c : SReg) (t : State)
    (ht : t = (inFlight s op float word hbm a b c).updMe fun x =>
      { x with run := .ready, hold := .atomic d, took := false, issued := true }) :
    HeldBy s t (.atomic d) Sync.none ∧ t.myTile.mem = s.myTile.mem := by
  subst ht
  refine ⟨⟨?_, rfl, rfl, fun u hu => State.tile_updMe_ne (inFlight s op float word hbm a b c) hu _, rfl⟩, (updMe_reads _ _).2.2.1⟩
  rw [State.me_updMe, me_of_tiles (s := s) rfl rfl rfl]
  rfl

section
variable {s : State} {g : Guard} {hbm : Bool} {d a b c : SReg} (hc : Clears s (ordinary g)) (ha : s.me.tag a = false)
  (hb : s.me.tag b = false)
include hc ha hb

theorem amo_issues {op : AmoOp} {word : Bool} (hcas : op = .cas → s.me.tag c = false)
    (hm : (s.me.rd a).toNat % (if word then 4 else 8) = 0)
    (hp : s.atomicPlace s.curTile (s.me.rd a) (if word then 4 else 8) = some hbm) :
    ∃ t, exec (.amo g op word d a b c) s = .next t ∧ HeldBy s t (.atomic d) Sync.none ∧
      t.amos = (inFlight s op none word hbm a b c).amos ∧ t.myTile.mem = s.myTile.mem := by
  obtain ⟨hheld, hmem⟩ := inFlight_held s op none word hbm d a b c _ rfl
  rw [exec_amo]
  exact ⟨_, issue_hold (clears_with hc _ rfl) rfl rfl (atomic_flies none d ha hb hcas hm hp), hheld, rfl, hmem⟩

theorem amof_issues {op : RedOp} (hm : (s.me.rd a).toNat % 4 = 0) (hp : s.atomicPlace s.curTile (s.me.rd a) 4 = some hbm) :
    ∃ t, exec (.amof g op d a b) s = .next t ∧ HeldBy s t (.atomic d) Sync.none ∧
      t.amos = (inFlight s .swap (some op) true hbm a b 0).amos ∧ t.myTile.mem = s.myTile.mem := by
  obtain ⟨hheld, hmem⟩ := inFlight_held s .swap (some op) true hbm d a b 0 _ rfl
  rw [exec_amof]
  exact ⟨_, issue_hold (clears_with hc _ rfl) rfl rfl (atomic_flies (some op) d ha hb nofun hm hp), hheld, rfl, hmem⟩

end

/-! ## The value that an integer atomic leaves (R252) -/

theorem signedOf_le_iff {n : Nat} (hn : 0 < n) (x y : BitVec n) : signedOf n x.toNat ≤ signedOf n y.toNat ↔ x.sle y = true := by
  rw [signedOf_toNat hn, signedOf_toNat hn, BitVec.sle_iff_toInt_le]

theorem amoNew_word {n : Nat} (hn : 0 < n) (op : AmoOp) (w x y : BitVec n) :
    amoNew op n w.toNat x.toNat y.toNat = (amoValue op w x y).toNat := by
  cases op with
  | add => exact (BitVec.toNat_add w x).symm
  | and => exact (BitVec.toNat_and w x).symm
  | or => exact (BitVec.toNat_or w x).symm
  | xor => exact (BitVec.toNat_xor w x).symm
  | min => simp only [amoNew, amoValue, signedOf_le_iff hn]; split <;> rfl
  | max => simp only [amoNew, amoValue, signedOf_le_iff hn]; split <;> rfl
  | minu =>
    simp only [amoNew, amoValue, BitVec.ule_iff_le, BitVec.le_def]
    split
    · exact Nat.min_eq_left ‹_›
    · exact Nat.min_eq_right (by omega)
  | maxu =>
    simp only [amoNew, amoValue, BitVec.ule_iff_le, BitVec.le_def]
    split
    · exact Nat.max_eq_left ‹_›
    · exact Nat.max_eq_right (by omega)
  | swap => rfl
  | cas =>
    simp only [amoNew, amoValue, BitVec.toNat_inj]
    split <;> rfl

/-! ## What an atomic stores and returns (R252) -/

section
variable {m : Amo} {len : Nat} (hlen : len = if m.word then 4 else 8) (w : Nat) (po : Bool)
include hlen

theorem result_integer (hf : m.float = none) : m.result w po =
    (amoNew m.op (8 * len) w (m.x.toNat % 2 ^ (8 * len)) (m.y.toNat % 2 ^ (8 * len)), BitVec.ofInt 64 (signedOf (8 * len) w), po) := by
  subst hlen
  rw [Amo.result, hf]
  cases m.word <;> rfl

omit hlen in
theorem result_float {op : RedOp} (hf : m.float = some op) : m.result w po = ((amofNew op w (m.x.toNat % 2 ^ 32)).1,
    BitVec.ofNat 64 ((if po then 0 else (amofNew op w (m.x.toNat % 2 ^ 32)).2.atomic) * 2 ^ 32 + w), po) := by
  rw [Amo.result, hf]

theorem result_tag : (m.result w po).2.2 = po := by
  cases hf : m.float with
  | none => rw [result_integer hlen w po hf]
  | some op => rw [result_float w po hf]

end

/-! ## The return to the strand (R251) -/

/-- Two states differ in tiles at most by their strands. -/
def StrandsOnly (s u : State) : Prop := ∀ t, ∃ x, u.tile t = { s.tile t with strands := x }

theorem strandsOnly_setStrand (s : State) (t k : Nat) (x : Strand) : StrandsOnly s (s.setStrand t k x) := by
  intro u
  by_cases hu : u = t
  · subst hu
    exact ⟨_, State.tile_setTile_self _ _ _⟩
  · exact ⟨_, State.tile_setStrand_ne s hu k x⟩

theorem StrandsOnly.trans {s u w : State} (h : StrandsOnly s u) (h' : StrandsOnly u w) : StrandsOnly s w := by
  intro t
  obtain ⟨x, hx⟩ := h t
  obtain ⟨y, hy⟩ := h' t
  exact ⟨y, by rw [hy, hx]⟩

/-- The old value and its tag reach the strand that the atomic held, which goes on. -/
theorem finishAtomic_returns {s : State} {m : Amo} {d : SReg} (v : Word) (tag : Bool)
    (hhold : (s.strand m.src m.strand).hold = .atomic d) (u : State) (hu : u = s.finishAtomic m v tag) :
    (u.strand m.src m.strand).hold = .none ∧ (u.strand m.src m.strand).rd d = (if d = 0 then 0 else v) ∧
      (u.strand m.src m.strand).tag d = (decide (d ≠ 0) && tag) ∧ StrandsOnly s u ∧ u.amos = s.amos ∧ u.mem = s.mem := by
  obtain ⟨x, hx, hnone, -, hregs⟩ := retireHeld_releases
    (s.setStrand m.src m.strand ((s.strand m.src m.strand).wr d v tag)) m.src m.strand
  have hfinish : s.finishAtomic m v tag =
      (s.setStrand m.src m.strand ((s.strand m.src m.strand).wr d v tag)).setStrand m.src m.strand x := by
    rw [State.finishAtomic, hhold]
    exact hx
  rw [State.strand_setStrand_self] at hregs
  obtain ⟨hrd, htag⟩ := hregs d
  rw [hu, hfinish, State.strand_setStrand_self]
  refine ⟨hnone, hrd.trans (Strand.rd_wr_self _ _ _ _), htag.trans ?_,
    (strandsOnly_setStrand s _ _ _).trans (strandsOnly_setStrand _ _ _ _), rfl, rfl⟩
  rw [Strand.tag_wr_self]
  by_cases hd : d = 0
  · rw [if_pos hd, decide_eq_false (not_not.2 hd), Bool.false_and]
  · rw [if_neg hd, decide_eq_true hd, Bool.true_and]

/-- What an atomic returns, told by its operation. -/
theorem finishAtomic_result {s : State} {m : Amo} {d : SReg} {len : Nat} (hlen : len = if m.word then 4 else 8) (w : Nat) (po : Bool)
    (hhold : (s.strand m.src m.strand).hold = .atomic d) (u : State)
    (hu : u = s.finishAtomic m (m.result w po).2.1 (m.result w po).2.2) :
    (u.strand m.src m.strand).hold = .none ∧ (u.strand m.src m.strand).tag d = (decide (d ≠ 0) && po) ∧
      (m.float = none →
        (m.result w po).1 = amoNew m.op (8 * len) w (m.x.toNat % 2 ^ (8 * len)) (m.y.toNat % 2 ^ (8 * len)) ∧
        (u.strand m.src m.strand).rd d = if d = 0 then 0 else BitVec.ofInt 64 (signedOf (8 * len) w)) ∧
      (∀ op, m.float = some op → (m.result w po).1 = (amofNew op w (m.x.toNat % 2 ^ 32)).1 ∧
        (u.strand m.src m.strand).rd d = if d = 0 then 0 else
          BitVec.ofNat 64 ((if po then 0 else (amofNew op w (m.x.toNat % 2 ^ 32)).2.atomic) * 2 ^ 32 + w)) := by
  obtain ⟨hnone, hrd, htag, -, -, -⟩ := finishAtomic_returns (m.result w po).2.1 (m.result w po).2.2 hhold u hu
  refine ⟨hnone, by rw [htag, result_tag hlen], fun hf => ?_, fun op hf => ?_⟩
  · rw [hrd, result_integer hlen w po hf]
    exact ⟨rfl, rfl⟩
  · rw [hrd, result_float w po hf]
    exact ⟨rfl, rfl⟩

/-! ## At a home tile (R89, R252, R253) -/

theorem exec_atomicPerform (s : State) (n : Nat) : exec (.atomicPerform n) s = execAtomicPerform n s := rfl

theorem byte_of_word (v : Nat) {i : Nat} (h : i < 8) :
    BitVec.ofNat 8 ((BitVec.ofNat 64 v).toNat / 256 ^ i) = BitVec.ofNat 8 (v / 256 ^ i) := by
  apply BitVec.eq_of_getLsbD_eq
  intro j hj
  have hin : j + 8 * i < 64 := by omega
  have hpow : 256 ^ i = 2 ^ (8 * i) := by rw [pow_mul]; norm_num
  simp only [BitVec.getLsbD_ofNat, BitVec.toNat_ofNat, hpow, Nat.testBit_div_two_pow, Nat.testBit_mod_two_pow, hin, decide_true,
    Bool.true_and]

/-- The bytes of a number are those of its word. -/
theorem toBytes_word_of_nat {len : Nat} (h : len ≤ 8) (v : Nat) : toBytes len (BitVec.ofNat 64 v).toNat = toBytes len v := by
  refine List.ext_getElem (by rw [toBytes_length, toBytes_length]) fun i hi hi' => ?_
  have hget : ∀ (x : Nat) (hx : i < (toBytes len x).length), (toBytes len x)[i] = BitVec.ofNat 8 (x / 256 ^ i) := by
    intro x hx
    rw [← toBytes_getD len x i (by rwa [toBytes_length] at hx), List.getD_eq_getElem]
  rw [toBytes_length] at hi'
  rw [hget, hget, byte_of_word v (by omega)]

/-- The tile after an atomic has stored its new value. -/
theorem writeS_stores {T : Tile} {a len : Nat} (new : Nat) (hf : FramesOk T) (hr : T.region a = .seg .s) (hlen : len = 4 ∨ len = 8)
    (hm : a % len = 0) : StoredAt T (T.writeS false a (toBytes len new) false) a len (BitVec.ofNat 64 new) := by
  have hfits : a % 128 + len ≤ 128 := by rcases hlen with rfl | rfl <;> omega
  rw [← toBytes_word_of_nat (by omega)]
  exact (remoteStored_scratch hf hfits hr).1

theorem storedAt_strands {T U : Tile} {a len : Nat} {v : Word} (h : StoredAt T U a len v) (x : SMap Strand) :
    StoredAt T { U with strands := x } a len v := h

section
variable {s : State} {n h a len : Nat} {m : Amo} (hm : s.amos[n]? = some m) (hsus : m.suspended = false)
include hm hsus

theorem atomicPerform_home (hhbm : m.hbm = false) (hmem : s.memberTile m.src (csMember m.addr.toNat) = some h)
    (ha : a = csOffset m.addr.toNat) (hb : s.behind m.src h = false) (hi : s.istPending m.src m.strand h (a / 8) = [])
    (hg : (s.tile h).gatedAt a = false) :
    exec (.atomicPerform n) s = .next (State.atomicHome { s with amos := s.amos.eraseIdx n } m h a) := by
  subst ha
  have hwait : ¬ (s.behind m.src h = true ∨ s.istPending m.src m.strand h (csOffset m.addr.toNat / 8) ≠ []) := by
    rw [hb, hi]; simp
  simp only [exec_atomicPerform, execAtomicPerform, hm, hsus, hhbm, hmem, if_neg hwait, hg, Bool.false_eq_true, if_false]

end

/-- An atomic at a scratch word of tile h: a poisoned word stays. -/
theorem atomicHome_scratch {s : State} {m : Amo} {h a w len : Nat} {po : Bool} (hr : (s.tile h).region a = .seg .s)
    (hlen : len = if m.word then 4 else 8) (hpo : po = (s.tile h).remotePoison (a / 8 * 8))
    (hw : w = ofBytes ((List.range len).map fun i => (s.tile h).remoteByte (a + i))) :
    s.atomicHome m h a = State.finishAtomic
      (if po then s else s.updTile h fun T => T.writeS false a (toBytes len (m.result w po).1) false)
      m (m.result w po).2.1 (m.result w po).2.2 := by
  subst hpo hw hlen
  simp only [State.atomicHome, hr, Region.isS, Bool.not_true, Bool.false_eq_true, if_false]

theorem bytesValue_word (f : Nat → Byte) {word : Bool} {len a : Nat} (hlen : len = if word then 4 else 8) :
    BitVec.ofInt 64 (signedOf (8 * len) (ofBytes ((List.range len).map fun i => f (a + i)))) =
      bytesValue f (if word then .w else .d) a := by
  subst hlen
  cases word
  · exact loadExtend_bytes f .d a
  · exact loadExtend_bytes f .w a

/-- The strand that the atomic holds is as it was in a state whose tiles differ in memory only. -/
theorem strand_updTile {s : State} {t : Nat} {f : Tile → Tile} (h : (f (s.tile t)).strands = (s.tile t).strands) (u k : Nat) :
    (s.updTile t f).strand u k = s.strand u k := by
  by_cases hu : u = t
  · subst hu
    rw [State.strand, State.tile_updTile_self, h, State.strand]
  · rw [State.strand, State.tile_updTile_ne s hu, State.strand]

/-- What an atomic at a scratch word of tile h leaves. -/
theorem atomicHome_leaves {s : State} {m : Amo} {d : SReg} {h a w len : Nat} {po : Bool} (hr : (s.tile h).region a = .seg .s)
    (hlen : len = if m.word then 4 else 8) (halign : a % len = 0) (hf : FramesOk (s.tile h))
    (hhold : (s.strand m.src m.strand).hold = .atomic d) (hpo : po = (s.tile h).remotePoison (a / 8 * 8))
    (hw : w = ofBytes ((List.range len).map fun i => (s.tile h).remoteByte (a + i))) :
    ∃ s' : State, s.atomicHome m h a = s'.finishAtomic m (m.result w po).2.1 (m.result w po).2.2 ∧ s'.amos = s.amos ∧ s'.mem = s.mem ∧
      (s'.strand m.src m.strand).hold = .atomic d ∧
      (po = false → StoredAt (s.tile h) (s'.tile h) a len (BitVec.ofNat 64 (m.result w po).1)) ∧
      (po = true → (s'.tile h).mem = (s.tile h).mem) := by
  have hlen48 : len = 4 ∨ len = 8 := by
    rw [hlen]
    split
    · exact .inl rfl
    · exact .inr rfl
  rw [atomicHome_scratch hr hlen hpo hw]
  cases po with
  | true => exact ⟨s, rfl, rfl, rfl, hhold, nofun, fun _ => rfl⟩
  | false =>
    refine ⟨_, rfl, rfl, rfl, ?_, fun _ => ?_, nofun⟩
    · rw [if_neg (by decide), strand_updTile (by rfl), hhold]
    · rw [if_neg (by decide), State.tile_updTile_self]
      exact writeS_stores _ hf hr hlen48 halign

/-! ## In package memory (R251, R252) -/

/-- A state with other tiles and other atomics in flight. -/
def restamped (s : State) (tiles : SMap Tile) (amos : List Amo) : State := { s with tiles := tiles, amos := amos }

section
variable (s : State) (tiles : SMap Tile) (amos : List Amo)

theorem rekey_restamped (u : KeyUse) (a : Nat) : (restamped s tiles amos).rekey u a = restamped (s.rekey u a) tiles amos := by
  cases u with
  | key k =>
    by_cases h : s.memKey.get (a / 64) 0 = k.toNat + 1
    · have h' : (restamped s tiles amos).memKey.get (a / 64) 0 = k.toNat + 1 := h
      simp only [State.rekey, if_pos h, if_pos h']
    · have h' : ¬ (restamped s tiles amos).memKey.get (a / 64) 0 = k.toNat + 1 := h
      simp only [State.rekey, if_neg h, if_neg h']
      rfl
  | plain => rfl
  | absent => rfl

theorem setMemByte_restamped (a : Nat) (b : Byte) :
    (restamped s tiles amos).setMemByte a b = restamped (s.setMemByte a b) tiles amos := by
  by_cases h : a < 0x1000
  · simp only [State.setMemByte, if_pos h]
    rfl
  · simp only [State.setMemByte, if_neg h]
    rfl

theorem writeByteAs_restamped (p a : Nat) (b : Byte) :
    (restamped s tiles amos).writeByteAs p a b = restamped (s.writeByteAs p a b) tiles amos := by
  have hkey : (restamped s tiles amos).keyUse p a = s.keyUse p a := rfl
  simp only [State.writeByteAs, hkey, rekey_restamped, setMemByte_restamped]
  split
  · rfl
  · rfl

theorem keyless_restamped (p : Nat) : (restamped s tiles amos).keyless p = s.keyless p := rfl

theorem reportDiscarded_restamped (p : Nat) (as : List Nat) :
    (restamped s tiles amos).reportDiscarded p as = restamped (s.reportDiscarded p as) tiles amos :=
  List.foldl_hom (restamped · tiles amos) fun _ _ => rfl

theorem viewWrites_restamped (keep : ViewWrite → Bool) :
    (if (restamped s tiles amos).viewWrites.isEmpty then restamped s tiles amos
      else { restamped s tiles amos with viewWrites := (restamped s tiles amos).viewWrites.filter keep }) =
    restamped (if s.viewWrites.isEmpty then s else { s with viewWrites := s.viewWrites.filter keep }) tiles amos := by
  by_cases h : s.viewWrites.isEmpty = true
  · rw [if_pos h]
    exact if_pos h
  · rw [if_neg h]
    exact if_neg h

/-- Writing bytes of package memory neither reads nor changes the tiles and the atomics in flight. -/
theorem writeBytesAs_restamped (p : Nat) (bs : List (Nat × Byte × Bool)) :
    (restamped s tiles amos).writeBytesAs p bs = restamped (s.writeBytesAs p bs) tiles amos := by
  simp only [State.writeBytesAs, keyless_restamped, reportDiscarded_restamped, viewWrites_restamped]
  refine List.foldl_hom (restamped · tiles amos) fun u w => ?_
  split_ifs
  · rfl
  · rw [List.foldl_hom (restamped · tiles amos) fun u b => writeByteAs_restamped u tiles amos p b.1 b.2.1]
    rfl

end

theorem writeBytesAs_keeps (s : State) (p : Nat) (bs : List (Nat × Byte × Bool)) :
    (s.writeBytesAs p bs).tiles = s.tiles ∧ (s.writeBytesAs p bs).amos = s.amos := by
  have h := writeBytesAs_restamped s s.tiles s.amos p bs
  have htiles := congrArg State.tiles h
  have hamos := congrArg State.amos h
  exact ⟨htiles, hamos⟩

theorem observe_keeps (s : State) (p : Nat) (w : Seen) : (s.observe p w).tiles = s.tiles ∧ (s.observe p w).amos = s.amos := by
  simp only [State.observe]
  split
  · exact ⟨rfl, rfl⟩
  · exact ⟨rfl, rfl⟩

theorem drawn_keeps (s : State) : s.drawn.tiles = s.tiles ∧ s.drawn.amos = s.amos ∧ s.drawn.mem = s.mem := by
  rw [State.drawn]
  split
  · exact ⟨rfl, rfl, rfl⟩
  · exact ⟨rfl, rfl, rfl⟩

/-- The state that an atomic in package memory leaves before its old value returns: it is in flight no more, and its bytes are written
unless a word was poisoned. -/
def performed (s : State) (n : Nat) (m : Amo) (po : Bool) (bs : List (Nat × Byte × Bool)) (w : Seen) : State :=
  if po then { s.drawn with amos := s.drawn.amos.eraseIdx n }
  else (State.writeBytesAs { s.drawn with amos := s.drawn.amos.eraseIdx n } m.part bs).observe m.part w

theorem performed_spec (s : State) (n : Nat) (m : Amo) (po : Bool) (bs : List (Nat × Byte × Bool)) (w : Seen) :
    (performed s n m po bs w).tiles = s.tiles ∧ (performed s n m po bs w).amos = s.amos.eraseIdx n ∧
      (performed s n m po bs w).mem = if po then s.mem else (s.drawn.writeBytesAs m.part bs).mem := by
  obtain ⟨htiles, hamos, hmem⟩ := drawn_keeps s
  cases po with
  | true =>
    refine ⟨htiles, ?_, hmem⟩
    rw [← hamos]; rfl
  | false =>
    obtain ⟨htiles', hamos'⟩ := observe_keeps (State.writeBytesAs { s.drawn with amos := s.drawn.amos.eraseIdx n } m.part bs) m.part w
    obtain ⟨htiles'', hamos''⟩ := writeBytesAs_keeps { s.drawn with amos := s.drawn.amos.eraseIdx n } m.part bs
    refine ⟨htiles'.trans (htiles''.trans htiles), hamos'.trans (hamos''.trans ?_), (State.observe_mem _ _ _).trans ?_⟩
    · exact congrArg (List.eraseIdx · n) hamos
    · have hbytes := congrArg State.mem (writeBytesAs_restamped s.drawn s.drawn.tiles (s.drawn.amos.eraseIdx n) m.part bs)
      exact hbytes

theorem atomicPerform_memory {s : State} {n : Nat} {m : Amo} (hm : s.amos[n]? = some m) (hsus : m.suspended = false)
    (hhbm : m.hbm = true) : exec (.atomicPerform n) s = s.atomicHbm n m := by
  simp only [exec_atomicPerform, execAtomicPerform, hm, hsus, hhbm, Bool.false_eq_true, if_false, if_true]

/-- An atomic whose page passes its checks. -/
theorem atomicHbm_performs {s : State} {n len w a : Nat} {m : Amo} {pg : Page} {ps : List Page} {bs : List (Byte × Bool)} {po : Bool}
    (hlen : len = if m.word then 4 else 8) (ht : s.translate m.root (s.tile m.src).gang [m.addr.toNat] = .ok (pg :: ps))
    (hread : s.pageCause m.src false false pg.e = none) (hwrite : s.pageCause m.src true false pg.e = none)
    (hstep : entryStep pg.e = false) (htier : entryTier pg.e = 0) (hfrozen : s.frozenPage pg = false)
    (ha : a = leafPhys pg.level pg.e m.addr) (hbs : bs = (List.range len).map (fun i => s.readVia m.part 0 (a + i)))
    (hw : w = ofBytes (bs.map (·.1))) (hpo : po = (bs.any (·.2) || m.poisoned)) :
    s.atomicHbm n m = .next (State.finishAtomic
      (performed s n m po (((List.range len).zip (toBytes len (m.result w po).1)).map fun ib => (a + ib.1, ib.2, false))
        (Seen.plain (s.tile m.src).gang m.addr.toNat len ((List.range len).map (a + ·))))
      m (m.result w po).2.1 (m.result w po).2.2) := by
  subst hpo hw hbs ha hlen
  simp only [State.atomicHbm, ht, List.head?_cons, hread, hwrite, hstep, htier, hfrozen, Bool.false_eq_true, if_false]
  rfl

end Sys2Proof.Proofs
end

section
/-! PROOFS. Deferred atomics (R126, R133, R254, R255): AMOD.ADD, the records at their home, and the Reckoner's order and sum. -/

namespace Sys2Proof.Proofs

open Sys2Proof.Machine Sys2Proof.Safety Sys2Proof.Laws

/-! ## AMOD.ADD (R254) -/

theorem exec_amodAdd (s : State) (g : Guard) (a b : SReg) : exec (.amodAdd g a b) s = execAmodAdd g a b s := rfl

/-- The state with one more record of the strand in flight. -/
def recorded (s : State) (h e : Nat) (x : BitVec 32) : State :=
  { (s.updMe fun y => { y with rseq := y.rseq + 1 }) with
    amodNet := s.amodNet ++ [⟨s.curTile, h, ⟨e, x, s.myTile.gti, s.me.routine, s.me.rseq⟩, false, false, s.netOrd⟩]
    netOrd := s.netOrd + 1 }

theorem recorded_spec (s : State) (h e : Nat) (x : BitVec 32) : (recorded s h e x).me = { s.me with rseq := s.me.rseq + 1 } ∧
    OtherTilesSame s (recorded s h e x) s.curTile ∧ (recorded s h e x).myTile.mem = s.myTile.mem := by
  have htiles : (recorded s h e x).tiles = (s.updMe fun y => { y with rseq := y.rseq + 1 }).tiles := rfl
  refine ⟨(me_of_tiles htiles rfl rfl).trans (State.me_updMe s _), fun t ht => ?_, ?_⟩
  · rw [tile_of_tiles htiles, State.tile_updMe_ne s ht]
  · exact (congrArg Tile.mem (tile_of_tiles htiles s.curTile)).trans (updMe_reads s _).2.2.1

theorem amodAdd_records {s : State} {g : Guard} {a b : SReg} {h : Nat} (hc : Clears s (ordinary g)) (hst : isSteward s.curTile = false)
    (ha : s.me.tag a = false) (hb : s.me.tag b = false) (hm : (s.me.rd a).toNat % 4 = 0) (hlt : (s.me.rd a).toNat < 0x380000)
    (hfull : s.fullCluster s.curTile = true) (hmem : s.memberTile s.curTile (csMember (s.me.rd a).toNat) = some h)
    (hr : (s.myTile.region (csOffset (s.me.rd a).toNat)).isV = true) : exec (.amodAdd g a b) s =
      .next (retired s (recorded s h (csOffset (s.me.rd a).toNat) ((s.me.rd b).setWidth 32))) := by
  rw [exec_amodAdd]
  refine issue_done2 (clears_with hc _ rfl) rfl rfl ?_
  simp only [hst, ha, hb, hm, csPlace_home hfull hlt hmem, hr, ne_eq, not_true_eq_false, Bool.not_true, Bool.false_eq_true, if_false]
  rfl

/-! ## A record at its home (R133, R254) -/

theorem exec_amodRecordArrival (s : State) (n : Nat) : exec (.amodRecordArrival n) s = execAmodRecordArrival n s := rfl

theorem exec_amodAcknowledgement (s : State) (n : Nat) : exec (.amodAcknowledgement n) s = execAmodAcknowledgement n s := rfl

/-- A tile with room in its last record frame, or with a free frame, takes a record. -/
theorem amodFrame_room {T : Tile} (h : T.amods.length % 8 ≠ 0 ∨ T.mem.free ≠ []) : ∃ U, T.amodFrame = some U ∧ U.amods = T.amods ∧
    U.mem.bytes = T.mem.bytes ∧ U.mem.deltas = T.mem.deltas := by
  by_cases hlast : T.amods.length % 8 ≠ 0
  · exact ⟨T, if_pos hlast, rfl, rfl, rfl⟩
  · obtain ⟨f, fs, hfree⟩ := List.exists_cons_of_ne_nil (h.resolve_left hlast)
    have halloc : ∃ m, T.mem.alloc = some (f, m) ∧ m.bytes = T.mem.bytes ∧ m.deltas = T.mem.deltas := by
      rw [TMem.alloc, hfree]
      exact ⟨_, rfl, rfl, rfl⟩
    obtain ⟨m, hm, hbytes, hdeltas⟩ := halloc
    refine ⟨{ T with mem := m, amodFrames := T.amodFrames ++ [f] }, (if_neg hlast).trans ?_, rfl, hbytes, hdeltas⟩
    rw [hm]; rfl

theorem raiseVote_leaves (s : State) (t : Nat) (v : BitVec 2) (c : BitVec 8) :
    (∃ x, (s.raiseVote t v c).tile t = { s.tile t with vote := x }) ∧ OtherTilesSame s (s.raiseVote t v c) t ∧
      (s.raiseVote t v c).amodNet = s.amodNet ∧ (s.raiseVote t v c).mem = s.mem := by
  rw [State.raiseVote]
  split
  · exact ⟨⟨_, rfl⟩, fun _ _ => rfl, rfl, rfl⟩
  · exact ⟨⟨_, State.tile_updTile_self s t _⟩, fun u hu => State.tile_updTile_ne s hu _, rfl, rfl⟩

/-- The home tile with a record of its own, its vote raised when the record completes a conflict before its arrival (R133). -/
def withRecord (s : State) (h : Nat) (T : Tile) (r : AmodRec) : State :=
  if T.mem.masked r.addr ∧ !T.vote.sent then (s.setTile h { T with amods := T.amods ++ [r] }).raiseVote h 3 0x0C
  else s.setTile h { T with amods := T.amods ++ [r] }

theorem withRecord_spec (s : State) (h : Nat) (T : Tile) (r : AmodRec) :
    ((withRecord s h T r).tile h).amods = T.amods ++ [r] ∧ ((withRecord s h T r).tile h).mem = T.mem ∧
      OtherTilesSame s (withRecord s h T r) h ∧ (withRecord s h T r).amodNet = s.amodNet ∧ (withRecord s h T r).mem = s.mem := by
  have hself := State.tile_setTile_self s h { T with amods := T.amods ++ [r] }
  have hother : OtherTilesSame s (s.setTile h { T with amods := T.amods ++ [r] }) h := fun u hu => State.tile_setTile_ne s hu _
  rw [withRecord]
  split
  · obtain ⟨⟨x, hx⟩, hne, hnet, hmem⟩ := raiseVote_leaves (s.setTile h { T with amods := T.amods ++ [r] }) h 3 0x0C
    rw [hx, hself]
    exact ⟨rfl, rfl, fun u hu => (hne u hu).trans (hother u hu), hnet, hmem⟩
  · rw [hself]
    exact ⟨rfl, rfl, hother, rfl, rfl⟩

theorem masked_of_no_delta {m : TMem} {a : Nat} (h : m.deltas.find (lineOf a) = none) : m.masked a = false := by
  rw [TMem.masked, h]

section
variable {s : State} {n : Nat} {f : AmodFlight} (hf : s.amodNet[n]? = some f)
include hf

/-- A record lands at its home: it reports a conflict at most where its line has a delta. -/
theorem recordArrival_lands (hland : f.landed = false) (hb : s.behind f.src f.home = false)
    (hahead : s.commitAhead f.src f.home f.ord = false) (hr : ((s.tile f.home).region f.item.addr).isV = true) {T : Tile}
    (hT : (s.tile f.home).amodFrame = some T) : ∃ report, (T.mem.masked f.item.addr = false → report = false) ∧
      exec (.amodRecordArrival n) s = .next { withRecord s f.home T f.item with
        amodNet := (withRecord s f.home T f.item).amodNet.set n { f with landed := true, report := report } } := by
  have hfree : ¬ (f.landed = true ∨ s.behind f.src f.home = true ∨ s.commitAhead f.src f.home f.ord = true) := by
    rw [hland, hb, hahead]; decide
  have hstate : ∀ o, execAmodRecordArrival n s = o → exec (.amodRecordArrival n) s = o := fun _ ho => ho
  rw [withRecord]
  by_cases hvote : T.mem.masked f.item.addr = true ∧ (!T.vote.sent) = true
  · refine ⟨false, fun _ => rfl, hstate _ ?_⟩
    simp only [execAmodRecordArrival, hf, if_neg hfree, hr, hT, if_pos hvote, Bool.not_true, Bool.false_eq_true, if_false]
  · refine ⟨T.mem.masked f.item.addr, fun hm => hm, hstate _ ?_⟩
    simp only [execAmodRecordArrival, hf, if_neg hfree, hr, hT, if_neg hvote, Bool.not_true, Bool.false_eq_true, if_false]

theorem acknowledgement_drops (hland : f.landed = true) (hrep : f.report = false) :
    exec (.amodAcknowledgement n) s = .next { s with amodNet := s.amodNet.eraseIdx n } := by
  simp only [exec_amodAcknowledgement, execAmodAcknowledgement, hf, hland, hrep, if_true]
  rfl

end

/-! ## The Reckoner (R134, R255) -/

/-- The order of the Reckoner, field by field. -/
theorem before_iff (x y : AmodRec) : x.before y = true ↔ x.addr < y.addr ∨ x.addr = y.addr ∧ (x.tile < y.tile ∨ x.tile = y.tile ∧
    (x.routine.toNat < y.routine.toNat ∨ x.routine = y.routine ∧ x.seq.toNat ≤ y.seq.toNat)) := by
  rw [AmodRec.before]
  split
  · rename_i h; rw [decide_eq_true_iff]; simp [h]
  · rename_i h
    rw [ne_eq, not_not] at h
    split
    · rename_i ht; rw [decide_eq_true_iff]; simp [h, ht]
    · rename_i ht
      rw [ne_eq, not_not] at ht
      split
      · rename_i hr; rw [decide_eq_true_iff]; simp [h, ht, hr]
      · rename_i hr
        rw [ne_eq, not_not] at hr
        rw [decide_eq_true_iff]; simp [h, ht, hr]

theorem before_total (x y : AmodRec) : x.before y = true ∨ y.before x = true := by
  have hroutine : x.routine.toNat = y.routine.toNat ↔ x.routine = y.routine := BitVec.toNat_inj
  simp only [before_iff, ← hroutine, eq_comm (a := y.routine)]
  omega

theorem before_trans {x y z : AmodRec} (h : x.before y = true) (h' : y.before z = true) : x.before z = true := by
  simp only [before_iff, ← BitVec.toNat_inj] at h h' ⊢
  omega

theorem insertBy_sorted (x : AmodRec) : ∀ l : List AmodRec, l.Pairwise (fun a b => a.before b = true) →
    (insertBy AmodRec.before x l).Pairwise fun a b => a.before b = true
  | [], _ => List.pairwise_singleton _ _
  | y :: t, h => by
    obtain ⟨hy, ht⟩ := List.pairwise_cons.1 h
    rw [insertBy]
    split
    · rename_i hxy
      refine List.pairwise_cons.2 ⟨fun z hz => ?_, h⟩
      rcases List.mem_cons.1 hz with rfl | hz
      · exact hxy
      · exact before_trans hxy (hy z hz)
    · rename_i hxy
      refine List.pairwise_cons.2 ⟨fun z hz => ?_, insertBy_sorted x t ht⟩
      rcases List.mem_cons.1 ((insertBy_perm _ x t).mem_iff.1 hz) with rfl | hz
      · exact (before_total z y).resolve_left hxy
      · exact hy z hz

theorem sortBy_sorted : ∀ l : List AmodRec, (sortBy AmodRec.before l).Pairwise fun a b => a.before b = true
  | [] => List.Pairwise.nil
  | x :: t => insertBy_sorted x _ (sortBy_sorted t)

/-- The sum of two FP32 words is rounded once to nearest even. -/
theorem fp32Node_add (a b : Nat) : (fp32Node .add 0 0 a b).1 = (fp32.round (sumX 0 [fp32.value a, fp32.value b]).1 0 0).1 := rfl

section
variable {m : TMem} {r : AmodRec} {frame phys old : Nat} (hdelta : ∀ d, m.deltas.find (lineOf r.addr) = some d → frame = d.frame)
  (hnone : m.deltas.find (lineOf r.addr) = none → frame = m.frameOf (lineOf r.addr))
  (hphys : phys = 128 * frame + (r.addr - 0x8000) % 128) (hold : old = ofBytes ((List.range 4).map fun i => m.byte (phys + i)))
include hdelta hnone hphys hold

/-- A record's word lies in the frame that its line will have. -/
theorem applyAmod_writes (hp : m.mergedPoison r.addr = false) : m.applyAmod r =
    m.putBytes phys (toBytes 4 (fp32.round (sumX 0 [fp32.value old, fp32.value r.operand.toNat]).1 0 0).1) := by
  have hnode : m.applyAmod r = m.putBytes phys (toBytes 4 (fp32Node .add 0 0 old r.operand.toNat).1) := by
    cases hd : m.deltas.find (lineOf r.addr) with
    | none =>
      rw [hold, hphys, hnone hd, TMem.applyAmod, hd, hp]
      rfl
    | some d =>
      rw [hold, hphys, hdelta d hd, TMem.applyAmod, hd, hp]
      rfl
  exact hnode.trans (congrArg (fun v => m.putBytes phys (toBytes 4 v)) (fp32Node_add _ _))

end

theorem applyAmod_poisoned {m : TMem} {r : AmodRec} (hp : m.mergedPoison r.addr = true) : m.applyAmod r = m := if_pos hp

theorem putBytes_bytes : ∀ (bs : List Byte) (m : TMem) (p : Nat),
    m.putBytes p bs = { m with bytes := (m.putBytes p bs).bytes }
  | [], _, _ => rfl
  | b :: t, m, p => putBytes_bytes t (m.setByte p b) (p + 1)

theorem byte_putBytes_word (m : TMem) (phys v p : Nat) : (m.putBytes phys (toBytes 4 v)).byte p =
    if phys ≤ p ∧ p < phys + 4 then BitVec.ofNat 8 (v / 2 ^ (8 * (p - phys))) else m.byte p := by
  rw [byte_putBytes, toBytes_length]
  split
  · rename_i h
    rw [toBytes_getD 4 v _ (by omega), pow_mul]
    norm_num
  · rfl

/-- Settles O40: the issue (`amo_issues`, `amof_issues`), the two places where an atomic is performed (`atomicHome_leaves`, `atomicHbm_performs`) with
what it returns (`finishAtomic_result`), and the records with the Reckoner's order and sum. -/
theorem atomics : Obligations.Atomics := by
  unfold Obligations.Atomics
  refine ⟨⟨?_, ?_, ?_, fun n op w x y hn => amoNew_word hn op w x y⟩, ?_, ?_, ?_, before_iff, ?_⟩
  · intro s g op fop word hbm d a b c i m v hi hc ha hb hv hm hp
    subst hv
    rcases hi with ⟨rfl, rfl, hcas⟩ | ⟨rfl, rfl, rfl⟩
    · exact amo_issues hc ha hb hcas hm (atomicPlace_serves hp)
    · exact amof_issues hc ha hb hm (atomicPlace_serves hp)
  · intro s n h a len w m d po hm hsus hhbm hmem ha hlen halign hb hi hg hr hf hhold hpo hw
    obtain ⟨s', hdone, hamos, hpkg, hhold', hstored, hstays⟩ :=
      atomicHome_leaves (s := { s with amos := s.amos.eraseIdx n }) hr hlen halign hf hhold hpo hw
    obtain ⟨hnone, htag, hint, hfloat⟩ := finishAtomic_result hlen w po hhold' _ rfl
    obtain ⟨-, -, -, htiles, hamos', hpkg'⟩ := finishAtomic_returns (m.result w po).2.1 (m.result w po).2.2 hhold' _ rfl
    obtain ⟨x, hx⟩ := htiles h
    refine ⟨_, (m.result w po).1, (atomicPerform_home hm hsus hhbm hmem ha hb hi hg).trans (by rw [hdone]), hamos'.trans hamos,
      hpkg'.trans hpkg, fun h0 => ?_, fun h1 => ?_, hnone, htag, fun hf => ⟨(hint hf).1, ?_⟩, fun op hf _ => hfloat op hf⟩
    · rw [hx]; exact storedAt_strands (hstored h0) x
    · rw [hx]; exact hstays h1
    · rw [(hint hf).2, hw, bytesValue_word _ hlen]
  · intro s n len w a m d pg ps bs po hm hsus hhbm hlen ht hread hwrite hstep htier hfrozen ha hhold hbs hw hpo
    have hexec := (atomicPerform_memory hm hsus hhbm).trans
      (atomicHbm_performs hlen ht hread hwrite hstep htier hfrozen ha hbs hw hpo)
    obtain ⟨htiles, hamos, hpkg⟩ := performed_spec s n m po
      (((List.range len).zip (toBytes len (m.result w po).1)).map fun ib => (a + ib.1, ib.2, false))
      (Seen.plain (s.tile m.src).gang m.addr.toNat len ((List.range len).map (a + ·)))
    generalize performed s n m po _ _ = s' at *
    have hhold' : (s'.strand m.src m.strand).hold = .atomic d := by rw [strand_of_tiles htiles, hhold]
    obtain ⟨hnone, htag, hint, hfloat⟩ := finishAtomic_result hlen w po hhold' _ rfl
    obtain ⟨-, -, -, hstrands, hamos', hpkg'⟩ := finishAtomic_returns (m.result w po).2.1 (m.result w po).2.2 hhold' _ rfl
    refine ⟨_, (m.result w po).1, hexec, hamos'.trans hamos, hpkg'.trans hpkg, hnone, htag, fun t => ?_, hint,
      fun op hf _ => hfloat op hf⟩
    obtain ⟨x, hx⟩ := hstrands t
    rw [hx, tile_of_tiles htiles]
  · intro s g a b h hc hst ha hb hm hlt hfull hmem hr
    obtain ⟨hme, hother, hsame⟩ := recorded_spec s h (csOffset (s.me.rd a).toNat) ((s.me.rd b).setWidth 32)
    have hword : (s.me.rd b).setWidth 32 = (s.me.rd b).extractLsb' 0 32 := BitVec.setWidth_eq_extractLsb' (by decide)
    exact ⟨_, amodAdd_records hc hst ha hb hm hlt hfull hmem hr, hme, rfl, hother, hsame, by rw [← hword]; rfl⟩
  · intro s n f hf
    refine ⟨fun hland hb hahead hr hroom => ?_, fun hland hrep => acknowledgement_drops hf hland hrep⟩
    obtain ⟨T, hT, hamods, hbytes, hdeltas⟩ := amodFrame_room hroom
    obtain ⟨report, hreport, hexec⟩ := recordArrival_lands hf hland hb hahead hr hT
    obtain ⟨hrecords, hmem, hother, hnet, hpkg⟩ := withRecord_spec s f.home T f.item
    refine ⟨_, report, hexec, hrecords.trans (by rw [hamods]), fun hnone => hreport (masked_of_no_delta (by rw [hdeltas, hnone])), hpkg,
      congrArg (List.set · n _) hnet, hother, ?_, ?_⟩
    · exact (congrArg TMem.bytes hmem).trans hbytes
    · exact (congrArg TMem.deltas hmem).trans hdeltas
  · exact fun T => ⟨_, sortBy_perm _ _, sortBy_sorted _, rfl⟩
  · intro m r frame phys old hframe hphys hold
    refine ⟨applyAmod_poisoned, fun hp => ?_⟩
    rw [applyAmod_writes (fun d hd => by rw [hframe, hd]) (fun hd => by rw [hframe, hd]) hphys hold hp]
    exact ⟨byte_putBytes_word m phys _, putBytes_bytes _ _ _⟩

end Sys2Proof.Proofs
end

section
/-! PROOFS. Commands that an event completes (R57, R183, R190, R195): what their issue leaves, and what the event leaves when it delivers the
signal and lets the strand go on. -/

namespace Sys2Proof.Proofs

open Sys2Proof.Machine Sys2Proof.Safety Sys2Proof.Laws

/-! ## Issue (R25, R57, R59) -/

/-- The format codes that an instruction works in: those in force or its own, and none when it takes no codes (R59). -/
def pairIn (s : State) (i : Info) : Nat × Nat := match i.formats with | some f => s.me.formatPair f | none => (0, 0)

theorem issue_settles {s : State} {i : Info} (h : Clears s i) (body : Nat → Nat → State → Eff) :
    s.issue i body = s.settle i (body (pairIn s i).1 (pairIn s i).2) false := issue_clears h body

theorem not_guardedOff {s : State} {g : Guard} (h : Clears s (ordinary g)) : s.me.guardedOff g = false := by
  obtain ⟨-, -, -, hg, -, -⟩ := h
  exact hg

theorem takeWait_memOnly (s : State) (sy : Sync) : TileMemOnly s (s.takeWait sy) := by
  obtain ⟨htile, hstrand, -, hmem, -, -, -, hother⟩ := takeWait_cur s sy
  exact ⟨takeWait_me s sy, hmem, htile, hstrand, hother⟩

theorem memOnly_then_updMyTile {s u : State} (h : TileMemOnly s u) {f : Tile → Tile} (hf : (f u.myTile).strands = u.myTile.strands) :
    TileMemOnly s (u.updMyTile f) := by
  obtain ⟨hme, hmem, htile, hstrand, hother⟩ := h
  refine ⟨(me_updMyTile u f hf).trans hme, hmem, htile, hstrand, fun v hv => ?_⟩
  rw [State.updMyTile, State.tile_updTile_ne u (by rwa [htile]), hother v hv]

/-- An instruction with a sync tail whose effect holds its strand for an event. -/
theorem issue_holds {s u : State} {i : Info} {sy : Sync} {k : Hold} {body : Nat → Nat → State → Eff} {f : Nat × Nat} (h : Clears s i)
    (hf : pairIn s i = f) (hs : i.sync = sy) (hn : i.sigNow = false) (hw : s.waitMet sy = true) (h0 : ∃ z, body f.1 f.2 s = .hold z k)
    (hb : body f.1 f.2 (s.takeWait sy) = .hold u k) (hu : TileMemOnly s u) :
    ∃ t x, s.issue i body = .next t ∧ HeldBy s t k sy ∧ t.myTile = { u.myTile with strands := x } := by
  subst hs hf
  obtain ⟨z, hz⟩ := h0
  obtain ⟨hme, hmem, htile, hstrand, hother⟩ := hu
  refine ⟨u.updMe fun x => { x with run := .ready, hold := k, took := i.sync.wen, issued := true }, _, ?_,
    ⟨(State.me_updMe u _).trans (by rw [hme]), htile, hstrand, fun v hv => ?_, hmem⟩, (State.tile_updTile_self u _ _)⟩
  · rw [issue_settles h]
    simp only [State.settle, hz, hb, hw, hn, Bool.not_true, Bool.false_and, Bool.false_eq_true, if_false]
  · rw [State.tile_updMe_ne u (by rwa [htile]), hother v hv]

/-! ## Completion (R57) -/

/-- The state with a signal delivered to tile t. -/
def signalled (s : State) (t : Nat) (sy : Sync) : State :=
  if sy.sinc = 0 then s else s.updTile t fun T => T.addSem sy.ssem.toNat sy.sinc.toNat

section
variable {s : State} {t : Nat} {sy : Sync}

theorem signalled_updTile (s : State) (t : Nat) (sy : Sync) :
    ∃ m, (signalled s t sy).tile t = { s.tile t with ctl := { (s.tile t).ctl with sems := m } } ∧
      (∀ i, SMap.get m i 0 = if sy.sinc ≠ 0 ∧ i = sy.ssem.toNat then BitVec.ofNat 16 (((s.tile t).sem i).toNat + sy.sinc.toNat)
        else (s.tile t).sem i) := by
  by_cases h0 : sy.sinc = 0
  · exact ⟨(s.tile t).ctl.sems, by rw [signalled, if_pos h0], fun i => by rw [if_neg (fun h => h.1 h0)]; rfl⟩
  · refine ⟨_, by rw [signalled, if_neg h0, State.tile_updTile_self]; rfl, fun i => ?_⟩
    rw [SMap.get_set]
    by_cases hi : i = sy.ssem.toNat
    · rw [if_pos hi, if_pos ⟨h0, hi⟩, hi]
    · rw [if_neg hi, if_neg (fun h => hi h.2)]; rfl

theorem signalled_strand (s : State) (t : Nat) (sy : Sync) (u k : Nat) : (signalled s t sy).strand u k = s.strand u k := by
  rw [signalled]; split
  · rfl
  · exact strand_updTile rfl u k

/-- An engine completion whose signal fits delivers it. -/
theorem engineSignal_fits (h : SignalFits s t sy) : s.engineSignal t sy = signalled s t sy := by
  rw [State.engineSignal, signalled]
  rcases h with h | h <;> simp [h]

/-- The strand that an event completes writes its own registers no more: it goes on with its signal delivered. -/
theorem retireHeld_signals (s : State) (t k : Nat) (sy : Sync) : ∃ x, s.retireHeld t k sy = (signalled s t sy).setStrand t k x ∧
    x.hold = .none ∧ ∀ r, x.rd r = (s.strand t k).rd r ∧ x.tag r = (s.strand t k).tag r := by
  obtain ⟨w, hw⟩ : ∃ w, w = (signalled s t sy).giveTurn t k := ⟨_, rfl⟩
  obtain ⟨n, hn⟩ : ∃ n, n = (s.giveTurn t k).nextOf := ⟨_, rfl⟩
  have hsignal : (s.giveTurn t k).signalMe sy = w := by
    subst hw
    rw [State.signalMe, signalled]
    split <;> rfl
  have hme : w.me = s.strand t k := by rw [hw]; exact signalled_strand s t sy t k
  refine ⟨(w.retireAt n.1 n.2 false).me, ?_, retireAt_hold _ _ _ _, fun r => ?_⟩
  · have hretire : s.retireHeld t k sy =
        { ((s.giveTurn t k).signalMe sy).retireAt n.1 n.2 false with curTile := s.curTile, curStrand := s.curStrand } := by
      rw [hn]; rfl
    have hcur : (signalled s t sy).curTile = s.curTile ∧ (signalled s t sy).curStrand = s.curStrand := by
      rw [signalled]; split <;> exact ⟨rfl, rfl⟩
    rw [hretire, hsignal, me_retireAt, ← hcur.1, ← hcur.2]
    subst hw
    rfl
  · rw [retireAt_rd, retireAt_tag, hme]
    exact ⟨rfl, rfl⟩

theorem setStrand_tile (s : State) (t k : Nat) (x : Strand) (u : Nat) : ∃ z, (s.setStrand t k x).tile u = { s.tile u with strands := z } := by
  by_cases hu : u = t
  · subst hu
    exact ⟨_, State.tile_updTile_self s u _⟩
  · exact ⟨(s.tile u).strands, State.tile_setStrand_ne s hu k x⟩

/-- A signal after an update of tile t that leaves its semaphores and strands. -/
theorem signalled_after {f : Tile → Tile} (hsems : (f (s.tile t)).ctl.sems = (s.tile t).ctl.sems) (v : State) (hv : v = s.updTile t f) :
    Signalled s (signalled v t sy) t sy ∧
      ∃ m, (signalled v t sy).tile t = { f (s.tile t) with ctl := { (f (s.tile t)).ctl with sems := m } } := by
  have htile : v.tile t = f (s.tile t) := by rw [hv, State.tile_updTile_self]
  obtain ⟨m, hm, hget⟩ := signalled_updTile v t sy
  refine ⟨fun i => ?_, m, by rw [hm, htile]⟩
  have hi := hget i
  rw [htile] at hi
  simp only [Tile.sem, hsems] at hi ⊢
  rw [hm]
  exact hi

/-- A swap whose signal fits: its effect on tile t is made, the signal delivered, and the strand goes on (R190, R195). -/
theorem retireSwap_spec {k : Nat} {f : Tile → Tile} (hfit : SignalFits s t sy) (hsems : (f (s.tile t)).ctl.sems = (s.tile t).ctl.sems)
    (hstrands : (f (s.tile t)).strands = (s.tile t).strands) (u : State) (hu : u = s.retireSwap t k sy fun s => s.updTile t f) :
    GoesOn s u t k ∧ Signalled s u t sy ∧
      ∃ x m, u.tile t = { f (s.tile t) with strands := x, ctl := { (f (s.tile t)).ctl with sems := m } } := by
  obtain ⟨x, hx, hhold, hregs⟩ := retireHeld_signals (s.updTile t f) t k sy
  obtain ⟨hsignalled, m, hm⟩ := signalled_after (sy := sy) hsems _ rfl
  have hu' : u = (signalled (s.updTile t f) t sy).setStrand t k x := by
    rw [hu, State.retireSwap, if_neg, hx]
    rintro ⟨h0, hover⟩
    rcases hfit with h | h
    · exact h0 h
    · rw [h] at hover; cases hover
  obtain ⟨z, hz⟩ := setStrand_tile (signalled (s.updTile t f) t sy) t k x t
  rw [strand_updTile hstrands] at hregs
  refine ⟨⟨?_, ?_⟩, fun i => ?_, z, m, ?_⟩
  · rw [hu', State.strand_setStrand_self, hhold]
  · rw [hu', State.strand_setStrand_self]; exact hregs
  · rw [← hsignalled i, hu', hz]; rfl
  · rw [hu', hz, hm]

end

end Sys2Proof.Proofs
end

section
/-! PROOFS. Decode tables (R111, R116, R193-R196): writing and reading the arrays, and their exchange. -/

namespace Sys2Proof.Proofs

open Sys2Proof.Machine Sys2Proof.Safety Sys2Proof.Laws

/-! ## Sparse maps cut and moved -/

section
variable {α : Type}

theorem find_append (a b : SMap α) (k : Nat) : SMap.find (a ++ b) k = (a.find k).or (b.find k) := by
  induction a with
  | nil => rfl
  | cons x a ih =>
    rw [List.cons_append, SMap.find, SMap.find]
    split
    · rfl
    · exact ih

theorem find_filter (p : Nat → Bool) (m : SMap α) (k : Nat) :
    SMap.find (m.filter fun kv => p kv.1) k = if p k then m.find k else none := by
  induction m with
  | nil => simp
  | cons x m ih =>
    rw [List.filter_cons, SMap.find]
    by_cases hx : x.1 = k
    · subst hx
      by_cases hp : p x.1 = true
      · simp [hp, SMap.find]
      · simp [hp, ih]
    · by_cases hp : p x.1 = true
      · simp [hp, SMap.find, hx, ih]
      · simp [hp, hx, ih]

/-- Moving every listed key by a map that is injective on them. -/
theorem find_map_key (f : Nat → Nat) (m : SMap α) (j : Nat) (h : ∀ x ∈ m, f x.1 = f j → x.1 = j) :
    SMap.find (m.map fun kv => (f kv.1, kv.2)) (f j) = m.find j := by
  induction m with
  | nil => rfl
  | cons x m ih =>
    have htail := ih fun y hy => h y (List.mem_cons_of_mem _ hy)
    rw [List.map_cons, SMap.find, SMap.find, htail]
    by_cases hx : x.1 = j
    · rw [if_pos (by rw [hx]), if_pos hx]
    · rw [if_neg (fun e => hx (h x (List.mem_cons_self ..) e)), if_neg hx]

theorem find_map_key_none (f : Nat → Nat) (m : SMap α) (j : Nat) (h : ∀ x ∈ m, f x.1 ≠ j) :
    SMap.find (m.map fun kv => (f kv.1, kv.2)) j = none := by
  refine find_none_of_notMem fun hj => ?_
  rw [List.map_map, List.mem_map] at hj
  obtain ⟨x, hx, he⟩ := hj
  exact h x hx he

/-- A run of n writes to consecutive keys. -/
theorem get_foldl_set [DecidableEq α] (d : α) (f : Nat → α) (m : SMap α) (base n key : Nat) :
    SMap.get ((List.range n).foldl (fun m i => m.set (base + i) d (f i)) m) key d =
      if base ≤ key ∧ key < base + n then f (key - base) else m.get key d := by
  induction n with
  | zero => rw [if_neg (by omega)]; rfl
  | succ n ih =>
    rw [List.range_succ, List.foldl_append, List.foldl_cons, List.foldl_nil, SMap.get_set, ih]
    by_cases hk : key = base + n
    · rw [if_pos hk, if_pos (by omega)]
      congr 1; omega
    · rw [if_neg hk]
      by_cases hin : base ≤ key ∧ key < base + n
      · rw [if_pos hin, if_pos (by omega)]
      · rw [if_neg hin, if_neg (by omega)]

end

/-! ## The exchange of a table's arrays (R116) -/

/-- The key whose entry stands at a key after the exchange of the arrays from base and from base + 256. -/
def swappedKey (base key : Nat) : Nat :=
  if base ≤ key ∧ key < base + 256 then key + 256 else if base + 256 ≤ key ∧ key < base + 512 then key - 256 else key

theorem find_swapArrays (tbl : Bool) (m : SMap (BitVec 19)) (key : Nat) :
    SMap.find (swapArrays tbl m) key = m.find (swappedKey (if tbl then 512 else 0) key) := by
  obtain ⟨base, hbase⟩ : ∃ base, base = if tbl then 512 else 0 := ⟨_, rfl⟩
  have hinside : ∀ lo j, SMap.find (m.filter fun kv => decide (lo ≤ kv.1) && decide (kv.1 < lo + 256)) j =
      if lo ≤ j ∧ j < lo + 256 then m.find j else none := fun lo j => by
    rw [find_filter (fun k => decide (lo ≤ k) && decide (k < lo + 256))]
    simp only [Bool.and_eq_true, decide_eq_true_eq]
  have hbounds : ∀ lo, ∀ x ∈ m.filter fun kv => decide (lo ≤ kv.1) && decide (kv.1 < lo + 256), lo ≤ x.1 ∧ x.1 < lo + 256 := fun lo x hx => by
    simpa using (List.mem_filter.1 hx).2
  have hlower : SMap.find ((m.filter fun kv => decide (base + 256 ≤ kv.1) && decide (kv.1 < base + 256 + 256)).map
      fun kv => (kv.1 - 256, kv.2)) key = if base ≤ key ∧ key < base + 256 then m.find (key + 256) else none := by
    by_cases hk : base ≤ key ∧ key < base + 256
    · have hmoved := find_map_key (· - 256) (m.filter fun kv => decide (base + 256 ≤ kv.1) && decide (kv.1 < base + 256 + 256)) (key + 256)
        fun x hx he => by have := hbounds _ x hx; omega
      simp only [Nat.add_sub_cancel] at hmoved
      rw [hmoved, hinside, if_pos (by omega), if_pos hk]
    · rw [if_neg hk, find_map_key_none (· - 256) _ _ fun x hx he => by have := hbounds _ x hx; omega]
  have hupper : SMap.find ((m.filter fun kv => decide (base ≤ kv.1) && decide (kv.1 < base + 256)).map
      fun kv => (kv.1 + 256, kv.2)) key = if base + 256 ≤ key ∧ key < base + 512 then m.find (key - 256) else none := by
    by_cases hk : base + 256 ≤ key ∧ key < base + 512
    · have hmoved := find_map_key (· + 256) (m.filter fun kv => decide (base ≤ kv.1) && decide (kv.1 < base + 256)) (key - 256)
        fun x _ he => by omega
      simp only [Nat.sub_add_cancel (show 256 ≤ key by omega)] at hmoved
      rw [hmoved, hinside, if_pos (by omega), if_pos hk]
    · rw [if_neg hk, find_map_key_none (· + 256) _ _ fun x hx he => by have := hbounds _ x hx; omega]
  have hbelow := find_filter (fun k => decide (k < base)) m key
  have habove := find_filter (fun k => decide (base + 512 ≤ k)) m key
  simp only [decide_eq_true_eq] at hbelow habove
  simp only [swapArrays, ← hbase, find_append, hlower, hupper, hbelow, habove, swappedKey]
  by_cases h1 : base ≤ key ∧ key < base + 256
  · rw [if_neg (by omega), if_pos h1, if_neg (by omega), if_neg (by omega), if_pos h1]; simp
  · by_cases h2 : base + 256 ≤ key ∧ key < base + 512
    · rw [if_neg (by omega), if_neg h1, if_pos h2, if_neg (by omega), if_neg h1, if_pos h2]; simp
    · rw [if_neg h1, if_neg h2, if_neg h1, if_neg h2]
      by_cases h3 : key < base
      · rw [if_pos h3, if_neg (by omega)]; simp
      · rw [if_neg h3, if_pos (by omega)]; simp

theorem swappedKey_tableKey (tbl b sh : Bool) {c : Nat} (hc : c < 256) :
    swappedKey (if tbl then 512 else 0) (tableKey b sh c) = tableKey b (if b = tbl then !sh else sh) c := by
  unfold swappedKey tableKey
  cases tbl <;> cases b <;> cases sh <;>
    simp only [Bool.false_eq_true, Bool.true_eq_false, if_true, if_false, Bool.not_true, Bool.not_false] <;> split_ifs <;> omega

/-! ## The instructions (R193-R196) -/

theorem exec_tblw (s : State) (g : Guard) (v : VReg) (q : BitVec 2) (tbl : Bool) : exec (.tblw g v q tbl) s = execTblw g v q tbl s := rfl

theorem exec_tblrd (s : State) (g : Guard) (v : VReg) (q : BitVec 2) (tbl shadow : Bool) :
    exec (.tblrd g v q tbl shadow) s = execTblrd g v q tbl shadow s := rfl

theorem exec_tblsw (s : State) (g : Guard) (tbl : Bool) (sy : Sync) : exec (.tblsw g tbl sy) s = execTblsw g tbl sy s := rfl

theorem exec_tableSwap (s : State) (t : Nat) (tbl : Bool) : exec (.tableSwap t tbl) s = execTableSwap t tbl s := rfl

section
variable {s : State} {g : Guard} (hc : Clears s (ordinary g))
include hc

/-- The 64 entries that TBLW writes stand from key `tableKey tbl true (64q)` on. -/
theorem tblw_writes {v : VReg} (q : BitVec 2) (tbl : Bool) (hv : s.me.vt v = 0) :
    ∃ t, exec (.tblw g v q tbl) s = .next (retired s t) ∧ t.me = s.me ∧ OtherTilesSame s t s.curTile ∧
      ∀ key, t.myTile.ctl.tables.get key 0 =
        if tableKey tbl true (64 * q.toNat) ≤ key ∧ key < tableKey tbl true (64 * q.toNat) + 64 then
          (lane (s.me.vrd v) (key - tableKey tbl true (64 * q.toNat))).setWidth 19
        else s.myTile.ctl.tables.get key 0 := by
  have hclean : (List.range 64).find? (s.me.vt v).getLsbD = none := by rw [hv]; rfl
  have hkey : ∀ i, tableKey tbl true (64 * q.toNat + i) = tableKey tbl true (64 * q.toNat) + i := fun i => (Nat.add_assoc _ _ _).symm
  obtain ⟨tables, htables⟩ : ∃ m, m = (List.range 64).foldl (fun (m : SMap (BitVec 19)) i =>
      m.set (tableKey tbl true (64 * q.toNat) + i) 0 ((lane (s.me.vrd v) i).setWidth 19)) s.myTile.ctl.tables := ⟨_, rfl⟩
  refine ⟨s.updMyTile fun T => { T with ctl := { T.ctl with tables := tables } }, ?_, me_updMyTile s _ rfl,
    fun u hu => State.tile_updTile_ne s hu _, fun key => ?_⟩
  · rw [exec_tblw]
    refine issue_done (clears_with hc _ rfl) rfl rfl ?_
    simp only [hclean, hkey, htables]
    rfl
  · rw [State.myTile_updMyTile, htables]
    exact get_foldl_set _ _ _ _ _ _

theorem tblrd_reads {tbl shadow : Bool} (v : VReg) (q : BitVec 2) (h : shadow = true ∨ s.myTile.swapping tbl = false) :
    ∃ x, exec (.tblrd g v q tbl shadow) s = .next (retired s (s.updMe fun y => y.vwr v x 0)) ∧
      ∀ i, i < 64 → lane x i = (s.myTile.ctl.tables.get (tableKey tbl shadow (64 * q.toNat + i)) 0).setWidth 32 := by
  have hserved : (!shadow && s.myTile.swapping tbl) = false := by rcases h with h | h <;> simp [h]
  refine ⟨BitVec.ofNat 2048 (packElements 32 ((List.range 64).map fun i =>
    (s.myTile.ctl.tables.get (tableKey tbl shadow (64 * q.toNat + i)) 0).toNat)), ?_, fun i hi => BitVec.eq_of_toNat_eq ?_⟩
  · rw [exec_tblrd]
    refine issue_done (clears_with hc _ rfl) rfl rfl ?_
    simp only [hserved, Bool.false_eq_true, if_false]
  · rw [lane_eq, toNat_pack _ _ _ (by simp), element_pack _ _ _ (by simpa using hi), List.getD_eq_getElem _ _ (by simpa using hi),
      List.getElem_map, List.getElem_range, BitVec.toNat_setWidth]

theorem tblsw_holds {tbl : Bool} {sy : Sync} (h : s.myTile.swapping tbl = false) (hw : s.waitMet sy = true) :
    ∃ t, exec (.tblsw g tbl sy) s = .next t ∧ HeldBy s t (.tblsw tbl sy) sy ∧ t.myTile.ctl.tables = s.myTile.ctl.tables := by
  obtain ⟨f, hf, htile⟩ := takeWait_tile s sy
  obtain ⟨-, -, -, -, htables⟩ := hf s.myTile.ctl
  have hafter : (s.takeWait sy).myTile.swapping tbl = false := by rw [htile]; exact h
  obtain ⟨t, x, hexec, hheld, ht⟩ := issue_holds (k := .tblsw tbl sy) (u := s.takeWait sy)
    (body := fun _ _ s => if s.myTile.swapping tbl then .retry s else .hold s (.tblsw tbl sy))
    (clears_with hc { head := 0xCB01, guard := g, sync := sy, sigNow := s.me.guardedOff g } rfl) rfl rfl (not_guardedOff hc) hw
    ⟨s, by simp only [h, Bool.false_eq_true, if_false]⟩ (by simp only [hafter, Bool.false_eq_true, if_false]) (takeWait_memOnly s sy)
  exact ⟨t, (exec_tblsw s g tbl sy).trans hexec, hheld, by rw [ht, htile]; exact htables⟩

end

/-- A strand held by a TBLSW on a table. -/
def tblswOf (tbl : Bool) : Hold → Bool
  | .tblsw b _ => b == tbl
  | _ => false

theorem tableSwap_exchanges {s : State} {t k : Nat} {tbl : Bool} {sy : Sync}
    (hholder : (s.tile t).holder (tblswOf tbl) = some k)
    (hhold : (s.strand t k).hold = .tblsw tbl sy) (hmmas : ∀ m ∈ (s.tile t).mmas, tbl ∉ mmaTables m.form m.fa m.fb)
    (hfit : SignalFits s t sy) :
    ∃ u, exec (.tableSwap t tbl) s = .next u ∧ GoesOn s u t k ∧ Signalled s u t sy ∧
      (u.tile t).ctl.tables = swapArrays tbl (s.tile t).ctl.tables := by
  have hfree : ((s.tile t).mmas.any fun m => (mmaTables m.form m.fa m.fb).contains tbl) = false := by
    rw [List.any_eq_false]
    exact fun m hm => by simpa using hmmas m hm
  obtain ⟨hgoes, hsignal, x, m, hu⟩ := retireSwap_spec (k := k)
    (f := fun T => { T with ctl := { T.ctl with tables := swapArrays tbl T.ctl.tables } }) hfit rfl rfl _ rfl
  refine ⟨_, ?_, hgoes, hsignal, by rw [hu]⟩
  rw [exec_tableSwap, execTableSwap]
  split
  next hnone => exact absurd (hholder.symm.trans hnone) (by simp)
  next j hj =>
    obtain rfl : k = j := Option.some.inj (hholder.symm.trans hj)
    simp only [hfree, hhold, Bool.false_eq_true, if_false]

/-- Settles O35: the shadow array takes the lanes by `get_foldl_set`, and the exchange moves each entry by `find_swapArrays`. -/
theorem decodeTables : Obligations.DecodeTables := by
  unfold Obligations.DecodeTables
  refine ⟨fun s g v q tbl shadow sy hc => ⟨tblw_writes hc q tbl, tblrd_reads hc v q, tblsw_holds hc⟩, ?_⟩
  intro s t k tbl sy hholder hhold hmmas hfit _
  obtain ⟨u, hexec, hgoes, hsignal, htables⟩ := tableSwap_exchanges hholder hhold hmmas hfit
  refine ⟨u, hexec, hgoes, hsignal, fun b sh c hcode => ?_⟩
  rw [htables, SMap.get, find_swapArrays, swappedKey_tableKey tbl b sh hcode, SMap.get]

end Sys2Proof.Proofs
end

section
/-! PROOFS. The moves between an accumulator and tile memory (R192), where a statement does not hold: a row that does not begin at a
multiple of 8. -/

namespace Sys2Proof.Proofs

open Sys2Proof.Machine Sys2Proof.Safety Sys2Proof.Laws

/-- An ACCLD of FP32 rows that all begin at 0x8004, in the middle of a word of a versioned segment. -/
def skewedMove : AccMove := ⟨true, 0x8004, 0, 0, 0, 0, 0, 0, Sync.none, [], 0⟩

/-- A tile on which that move is under way and the second word of data memory, at 0x8008, is poisoned. -/
def skewedTile : Tile := { ctl := { memcfg := 0 }, mem := { poison := 2 }, accMoves := [(0, skewedMove)] }

/-- The state that the refutation of O34 runs. -/
def skewedState : State := { tiles := [(0, skewedTile)] }

/-- The poison of element (0, 1) of the visible bank of accumulator 0 of tile 0 after an outcome. -/
def poisonAfter : Host.Outcome State Fault Refusal → Option Bool
  | .next u => some (((u.tile 0).visible 0).po 0 1)
  | _ => none

theorem skewedTile_poison : skewedTile.poisonAt 0x8008 = true := by decide +kernel

theorem accstComplete_skewedState : poisonAfter (exec (.accstComplete 0 0) skewedState) = some false := by decide +kernel

/-- Refutes O34, in its clause on the completion of an ACCLD: the clause gives element (i, j) the poison of the word at the element's own
address, addr + i × stride + j × width / 8, without asking, as its clause on ACCST does, that addr and stride be multiples of 8. For a row
that begins in the middle of a word, as `skewedMove`'s does, that address may lie in the word after the one that the element is read from:
element (0, 1) is read from the clean word at 0x8004, and the clause names the poisoned one at 0x8008. -/
theorem not_accumulators : ¬ Obligations.Accumulators := by
  unfold Obligations.Accumulators
  rintro ⟨-, -, -, -, hload, -⟩
  have hungated : ∀ r, skewedTile.gatedAt (skewedMove.addr + r * skewedMove.stride) = false ∧
      skewedTile.gatedAt (skewedMove.addr + r * skewedMove.stride + 4 * fmtWidth skewedMove.fa - 1) = false := fun r => by
    rw [show skewedMove.stride = 0 from rfl, Nat.mul_zero]
    decide +kernel
  obtain ⟨u, fl, hexec, -, -, -, -, -, hbank⟩ := hload skewedState 0 0 skewedMove (skewedState.strand 0 0) rfl rfl rfl rfl
    (fun r _ => ⟨(hungated r).1, (hungated r).2, rfl⟩) (.inl rfl)
  obtain ⟨-, hpoison⟩ := hbank 0 1 (by decide) (by decide)
  have hclean : ((u.tile 0).visible 0).po 0 1 = false := by
    have hrun := accstComplete_skewedState
    rw [hexec] at hrun
    exact Option.some.inj hrun
  exact absurd (hclean.symm.trans (hpoison.trans skewedTile_poison)) (by decide)

end Sys2Proof.Proofs
end

section
/-! PROOFS. The Abacus array (R119, R121, R122, R183-R188): the issue, the retirement and the completion of an MMA form, and the value of
an element. -/

namespace Sys2Proof.Proofs

open Sys2Proof.Machine Sys2Proof.Safety Sys2Proof.Laws

/-! ## Banks (R184) -/

theorem bankOf_el (el : Nat → Nat → Nat × Bool) {i j : Nat} (hi : i < 32) (hj : j < 32) : (Bank.of el).el i j = (el i j).1 % 2 ^ 32 := by
  have hn : 32 * i + j < 1024 := by omega
  have hdiv : (32 * i + j) / 32 = i := by omega
  have hmod : (32 * i + j) % 32 = j := by omega
  change element (BitVec.ofNat 32768 (packElements 32 _)).toNat 32 (32 * i + j) = _
  rw [toNat_pack _ _ _ (by simp), element_pack _ _ _ (by simpa using hn), List.getD_eq_getElem _ _ (by simpa using hn)]
  simp only [List.getElem_map, List.getElem_range, hdiv, hmod]

theorem bankOf_po (el : Nat → Nat → Nat × Bool) {i j : Nat} (hi : i < 32) (hj : j < 32) : (Bank.of el).po i j = (el i j).2 := by
  have hbit := getLsbD_pack1 1024 (fun n => (el (n / 32) (n % 32)).2) (32 * i + j) (by omega)
  simp only [Bank.po, Bank.of, List.map_map]
  refine hbit.trans ?_
  rw [show (32 * i + j) / 32 = i by omega, show (32 * i + j) % 32 = j by omega]

theorem bankKey_inj (acc a : Nat) (b c : Bool) : 2 * a + (if c then 1 else 0) = 2 * acc + (if b then 1 else 0) ↔ a = acc ∧ c = b := by
  cases b <;> cases c <;> simp <;> omega

theorem bank_setBank (T : Tile) (acc a : Nat) (b c : Bool) (x : Bank) :
    (T.setBank acc b x).bank a c = if a = acc ∧ c = b then x else T.bank a c := by
  simp only [Tile.bank, Tile.setBank, SMap.get_set, bankKey_inj]

/-! ## Issue (R183, R187) -/

theorem bindSlot_ready {T : Tile} {r skip slot : Nat} (hb : (T.ring r).bound + skip < (T.ring r).occ.toNat)
    (hs : slot = (T.ring r).slot ((T.ring r).head.toNat + (T.ring r).bound + skip)) (h2 : (T.bale slot).state = 2) :
    T.bindSlot r skip = .inr slot := by
  have hwait : T.baleWait slot = none := if_pos h2
  simp only [Tile.bindSlot, if_pos hb, ← hs, hwait]

/-- What an MMA form needs of its tile to issue bound to slots a and b (R187). -/
structure MmaReady (T : Tile) (form : MmaForm) (acc ra rb : BitVec 3) (groups fa fb a b : Nat) : Prop where
  noSwap : T.accSwapping acc = false
  noTableSwap : ∀ x ∈ mmaTables form fa fb, T.swapping x = false
  room : (T.mmas.filter fun m => !m.retired).length < 4
  boundA : (T.ring ra.toNat).bound < (T.ring ra.toNat).occ.toNat
  slotA : a = (T.ring ra.toNat).slot ((T.ring ra.toNat).head.toNat + (T.ring ra.toNat).bound)
  boundB : (T.ring rb.toNat).bound + (if ra = rb then 1 else 0) < (T.ring rb.toNat).occ.toNat
  slotB : b = (T.ring rb.toNat).slot ((T.ring rb.toNat).head.toNat + (T.ring rb.toNat).bound + (if ra = rb then 1 else 0))
  readyA : (T.bale a).state = 2
  readyB : (T.bale b).state = 2
  fitsA : operandBytes form fa groups ≤ (T.bale a).bytes
  fitsB : operandBytes form fb groups ≤ (T.bale b).bytes

section
variable {T : Tile} {form : MmaForm} {acc ra rb : BitVec 3} {groups fa fb a b : Nat}

/-- The control context counts by its rings and its bales only. -/
theorem MmaReady.withCtl (h : MmaReady T form acc ra rb groups fa fb a b) {c : Ctl} (hr : c.rings = T.ctl.rings) (hb : c.bales = T.ctl.bales) :
    MmaReady { T with ctl := c } form acc ra rb groups fa fb a b := by
  have hring : ∀ r, ({ T with ctl := c } : Tile).ring r = T.ring r := fun r => by rw [Tile.ring, hr, Tile.ring]
  have hbale : ∀ n, ({ T with ctl := c } : Tile).bale n = T.bale n := fun n => by rw [Tile.bale, hb, Tile.bale]
  constructor
  · exact h.noSwap
  · exact h.noTableSwap
  · exact h.room
  all_goals simp only [hring, hbale]
  · exact h.boundA
  · exact h.slotA
  · exact h.boundB
  · exact h.slotB
  · exact h.readyA
  · exact h.readyB
  · exact h.fitsA
  · exact h.fitsB

end

/-- One more slot of ring r is bound. -/
def bindRing (r : Nat) (T : Tile) : Tile := T.setRing r { T.ring r with bound := (T.ring r).bound + 1 }

/-- The state with an MMA form in the queue of its tile and bound to its slots. -/
def queued (s : State) (m : Mma) : State :=
  s.updMyTile fun T => { bindRing m.rb.toNat (bindRing m.ra.toNat T) with mmas := T.mmas ++ [m] }

theorem ring_bindRing (r n : Nat) (T : Tile) :
    (bindRing r T).ring n = { T.ring n with bound := (T.ring n).bound + if n = r then 1 else 0 } := by
  rw [bindRing, ring_setRing]
  by_cases h : n = r
  · rw [if_pos h, if_pos h, h]
  · rw [if_neg h, if_neg h, Nat.add_zero]

theorem mmaIssue_queues {s : State} {form : MmaForm} {acc ra rb : BitVec 3} {w : BitVec 6} {fa fb a b : Nat}
    (h : MmaReady s.myTile form acc ra rb (w.toNat + 1) fa fb a b) (sy : Sync) :
    s.mmaIssue form acc ra rb w sy fa fb =
      .hold (queued s ⟨form, acc, ra, rb, a, b, w.toNat + 1, fa, fb, s.curStrand, sy, false, 0, 0, 0, 0⟩) .mma := by
  have hready : (s.myTile.accSwapping acc || (mmaTables form fa fb).any s.myTile.swapping ||
      decide (4 ≤ (s.myTile.mmas.filter (!·.retired)).length)) = false := by
    rw [h.noSwap, swapping_none h.noTableSwap, decide_eq_false (by have := h.room; omega)]; rfl
  have ha : s.myTile.bindSlot ra.toNat 0 = .inr a := bindSlot_ready h.boundA h.slotA h.readyA
  have hb : s.myTile.bindSlot rb.toNat (if ra = rb then 1 else 0) = .inr b := bindSlot_ready h.boundB h.slotB h.readyB
  simp only [State.mmaIssue, hready, ha, hb, if_neg (Nat.not_lt.2 h.fitsA), if_neg (Nat.not_lt.2 h.fitsB), Bool.false_eq_true, if_false]
  rfl

/-- An instruction of major 0x30 issues as one of the four forms of MMA. -/
theorem mma_issues {s : State} {g : Guard} {acc ra rb : BitVec 3} {w : BitVec 6} {sy : Sync} {form : MmaForm} {F : Formats} {fa fb a b : Nat}
    (head : Nat) (hc : Clears s (formatted g F)) (hp : (fa, fb) = pairOf s F) (hw : s.waitMet sy = true)
    (h : MmaReady s.myTile form acc ra rb (w.toNat + 1) fa fb a b) :
    ∃ t, s.issue (mmaInfo head g sy F) (fun fa fb s => s.mmaIssue form acc ra rb w sy fa fb) = .next t ∧ HeldBy s t .mma sy ∧
      t.myTile.mmas = s.myTile.mmas ++ [⟨form, acc, ra, rb, a, b, w.toNat + 1, fa, fb, s.curStrand, sy, false, 0, 0, 0, 0⟩] ∧
      (∀ r, t.myTile.ring r = { s.myTile.ring r with
        bound := (s.myTile.ring r).bound + (if r = ra.toNat then 1 else 0) + (if r = rb.toNat then 1 else 0) }) ∧
      t.myTile.mem = s.myTile.mem ∧ t.myTile.banks = s.myTile.banks := by
  obtain ⟨f, hf, htile⟩ := takeWait_tile s sy
  obtain ⟨hrings, hbales, -, -, -⟩ := hf s.myTile.ctl
  have hafter : MmaReady (s.takeWait sy).myTile form acc ra rb (w.toNat + 1) fa fb a b := by rw [htile]; exact h.withCtl hrings hbales
  obtain ⟨-, -, -, hstrand, -⟩ := takeWait_memOnly s sy
  obtain ⟨t, x, hexec, hheld, ht⟩ := issue_holds (i := mmaInfo head g sy F)
    (body := fun fa fb s => s.mmaIssue form acc ra rb w sy fa fb) (clears_with hc _ rfl) (f := (fa, fb)) hp.symm rfl rfl hw
    ⟨_, mmaIssue_queues h sy⟩ (mmaIssue_queues hafter sy) (memOnly_then_updMyTile (takeWait_memOnly s sy) rfl)
  rw [queued, State.myTile_updMyTile, hstrand] at ht
  refine ⟨t, hexec, hheld, by rw [ht, htile], fun r => ?_, by rw [ht, htile]; rfl, by rw [ht, htile]; rfl⟩
  rw [ht, htile]
  change (bindRing rb.toNat (bindRing ra.toNat _)).ring r = _
  rw [ring_bindRing, ring_bindRing, Tile.ring, hrings]
  rfl

/-! ## Retirement (R187) -/

theorem popRing_ctl (T : Tile) (r : Nat) : ∃ c, T.popRing r = { T with ctl := c } := by
  unfold Tile.popRing
  by_cases h : (T.bale (T.ring r).headSlot).state = 2
  · exact ⟨_, by simp only [h, if_true]; rfl⟩
  · exact ⟨_, by simp only [h, if_false]; rfl⟩

/-- The head slot of ring r, bound to a form, is popped. -/
def releaseRing (r : Nat) (T : Tile) : Tile := Tile.popRing (T.setRing r { T.ring r with bound := (T.ring r).bound - 1 }) r

theorem releaseRing_ctl (r : Nat) (T : Tile) : ∃ c, releaseRing r T = { T with ctl := c } := by
  obtain ⟨c, hc⟩ := popRing_ctl (T.setRing r { T.ring r with bound := (T.ring r).bound - 1 }) r
  exact ⟨c, hc⟩

/-- The form with the operand bytes and poison that tile T holds (R187). -/
def readOperands (T : Tile) (m : Mma) : Mma :=
  { m with
    retired := true
    bytesA := T.readNat (T.bale m.slotA).addr (operandBytes m.form m.fa m.groups)
    poisA := T.poisonBits (T.bale m.slotA).addr (operandBytes m.form m.fa m.groups / 8)
    bytesB := T.readNat (T.bale m.slotB).addr (operandBytes m.form m.fb m.groups)
    poisB := T.poisonBits (T.bale m.slotB).addr (operandBytes m.form m.fb m.groups / 8) }

/-- The tile after form i of its queue has retired. -/
def withRetired (i : Nat) (m : Mma) (T : Tile) : Tile :=
  { releaseRing m.rb.toNat (releaseRing m.ra.toNat T) with mmas := T.mmas.set i (readOperands T m) }

theorem withRetired_ctl (i : Nat) (m : Mma) (T : Tile) :
    ∃ c, withRetired i m T = { T with ctl := c, mmas := T.mmas.set i (readOperands T m) } := by
  obtain ⟨c, hc⟩ := releaseRing_ctl m.ra.toNat T
  obtain ⟨c', hc'⟩ := releaseRing_ctl m.rb.toNat (releaseRing m.ra.toNat T)
  exact ⟨c', by rw [withRetired, hc', hc]⟩

theorem mmaRetire_retires {s : State} {t i : Nat} {m : Mma} (hm : nextToRetire (s.tile t).mmas = some (i, m))
    (hga : (s.tile t).gatedIn ((s.tile t).bale m.slotA).addr (operandBytes m.form m.fa m.groups) = none)
    (hgb : (s.tile t).gatedIn ((s.tile t).bale m.slotB).addr (operandBytes m.form m.fb m.groups) = none)
    (hsa : s.sourceReady t m.strand ((s.tile t).bale m.slotA).addr (operandBytes m.form m.fa m.groups) = true)
    (hsb : s.sourceReady t m.strand ((s.tile t).bale m.slotB).addr (operandBytes m.form m.fb m.groups) = true)
    (v : State) (hv : v = s.updTile t (withRetired i m)) :
    exec (.mmaRetire t) s = .next (if (v.strand t m.strand).hold = .mma then v.retireHeld t m.strand Sync.none else v) := by
  obtain ⟨c, hc⟩ := releaseRing_ctl m.ra.toNat (s.tile t)
  obtain ⟨c', hc'⟩ := releaseRing_ctl m.rb.toNat (releaseRing m.ra.toNat (s.tile t))
  have hmmas : (releaseRing m.rb.toNat (releaseRing m.ra.toNat (s.tile t))).mmas = (s.tile t).mmas := by rw [hc', hc]
  have hmodel : v = s.updTile t fun T => { releaseRing m.rb.toNat (releaseRing m.ra.toNat T) with
      mmas := (releaseRing m.rb.toNat (releaseRing m.ra.toNat T)).mmas.set i (readOperands (s.tile t) m) } := by
    rw [hv, State.updTile, State.updTile, withRetired, hmmas]
  rw [hmodel]
  change execMmaRetire t s = _
  simp only [execMmaRetire, hm, State.wakeFor, hga, hgb, hsa, hsb, Option.map_none, Bool.not_true, Bool.false_eq_true, or_self, if_false]
  rfl

theorem mmaRetire_spec {s : State} {t i : Nat} {m : Mma} (v : State) (hv : v = s.updTile t (withRetired i m)) (u : State)
    (hu : u = if (v.strand t m.strand).hold = .mma then v.retireHeld t m.strand Sync.none else v) :
    (u.tile t).mmas = (s.tile t).mmas.set i (readOperands (s.tile t) m) ∧ (u.tile t).banks = (s.tile t).banks ∧
      (u.tile t).mem = (s.tile t).mem ∧ ((s.strand t m.strand).hold = .mma → GoesOn s u t m.strand) := by
  obtain ⟨c, hc⟩ := withRetired_ctl i m (s.tile t)
  have htile : v.tile t = { s.tile t with ctl := c, mmas := (s.tile t).mmas.set i (readOperands (s.tile t) m) } := by
    rw [hv, State.tile_updTile_self, hc]
  have hstrand : v.strand t m.strand = s.strand t m.strand := by
    rw [hv]
    exact strand_updTile (by rw [hc]) t m.strand
  by_cases hhold : (s.strand t m.strand).hold = .mma
  · obtain ⟨x, hx, hnone, hregs⟩ := retireHeld_signals v t m.strand Sync.none
    rw [hstrand, if_pos hhold, hx] at hu
    rw [hstrand] at hregs
    obtain ⟨z, hz⟩ := setStrand_tile v t m.strand x t
    have hut : u.tile t = { v.tile t with strands := z } := by rw [hu]; exact hz
    rw [hut, htile]
    refine ⟨rfl, rfl, rfl, fun _ => ⟨?_, ?_⟩⟩
    · rw [hu, State.strand_setStrand_self, hnone]
    · rw [hu, State.strand_setStrand_self]; exact hregs
  · rw [hstrand, if_neg hhold] at hu
    rw [hu, htile]
    exact ⟨rfl, rfl, rfl, fun h => absurd h hhold⟩

/-! ## Completion (R187, R188) -/

theorem noteChecks_match {chks : List Check} (h : ∀ c ∈ chks, c = .match) (T : Tile) : T.noteChecks chks = (T, false) := by
  induction chks with
  | nil => rfl
  | cons c rest ih =>
    obtain rfl : c = .match := h c (List.mem_cons_self ..)
    exact ih fun d hd => h d (List.mem_cons_of_mem _ hd)

/-- A tile whose queue is rest, with a bank replaced. -/
def replaceBank (acc : Nat) (b : Bool) (x : Bank) (rest : List Mma) (T : Tile) : Tile := { T.setBank acc b x with mmas := rest }

/-- The tile after the first form of its queue has completed. -/
def withResult (m : Mma) (rest : List Mma) (T : Tile) : Tile :=
  replaceBank m.acc.toNat (T.workingBank m.acc.toNat) (mmaBank T.tabs m (T.bank m.acc.toNat (T.workingBank m.acc.toNat))) rest T

theorem bank_replaceBank (acc a : Nat) (b c : Bool) (x : Bank) (rest : List Mma) (T : Tile) :
    (replaceBank acc b x rest T).bank a c = if a = acc ∧ c = b then x else T.bank a c := bank_setBank T acc a b c x

theorem semOver_replaceBank (acc : Nat) (b : Bool) (x : Bank) (rest : List Mma) (T : Tile) :
    (replaceBank acc b x rest T).semOver = T.semOver := rfl

theorem signalled_replaceBank (s : State) (t acc : Nat) (b : Bool) (x : Bank) (rest : List Mma) (sy : Sync) {f : Tile → Tile}
    (hf : f (s.tile t) = replaceBank acc b x rest (s.tile t)) (u : State) (hu : u = signalled (s.updTile t f) t sy) :
    (u.tile t).mmas = rest ∧ Signalled s u t sy ∧ (u.tile t).working = (s.tile t).working ∧
      ∀ a c, (u.tile t).bank a c = if a = acc ∧ c = b then x else (s.tile t).bank a c := by
  obtain ⟨hsignalled, z, hz⟩ := signalled_after (s := s) (t := t) (sy := sy) (f := f) (by rw [hf]; rfl) _ rfl
  rw [hf, ← hu] at hz
  rw [← hu] at hsignalled
  rw [hz]
  exact ⟨rfl, hsignalled, rfl, fun a c => bank_replaceBank acc a b c x rest (s.tile t)⟩

theorem mmaComplete_completes {s : State} {t : Nat} {m : Mma} {rest : List Mma} {chks : List Check} (hm : (s.tile t).mmas = m :: rest)
    (hr : m.retired = true) (hfit : SignalFits s t m.sy) (hchks : ∀ c ∈ chks, c = .match) :
    exec (.mmaComplete t chks) s = .next (signalled (s.updTile t (withResult m rest)) t m.sy) := by
  have hfit' : SignalFits (s.updTile t (withResult m rest)) t m.sy := by
    rw [SignalFits, State.tile_updTile_self, withResult, semOver_replaceBank]
    exact hfit
  rw [← engineSignal_fits hfit']
  change execMmaComplete t chks s = _
  simp only [execMmaComplete, hm, hr, noteChecks_match hchks, Bool.not_true, Bool.false_eq_true, if_false]
  rfl

/-! ## The value of an element (R119, R121, R122, R188) -/

theorem foldl_add_eq_sum {α : Type} (f : α → Int) (l : List α) (z : Int) : l.foldl (fun v k => v + f k) z = z + (l.map f).sum := by
  induction l generalizing z with
  | nil => simp
  | cons x l ih => rw [List.foldl_cons, ih, List.map_cons, List.sum_cons, add_assoc]

theorem abacusInt_eq (m : Mma) (i j acc : Nat) : abacusInt m i j acc = ((signedOf 32 acc + ((List.range (32 * m.groups)).map fun k =>
    intValue m.fa (element m.bytesA (fmtWidth m.fa) (i * (32 * m.groups) + k)) *
      intValue m.fb (element m.bytesB (fmtWidth m.fb) (j * (32 * m.groups) + k))).sum) % 2 ^ 32).toNat := by
  rw [abacusInt, wrapNat_mod, foldl_add_eq_sum]

/-- The products that group g of an element's dot product counts. -/
def groupProducts (t : Tabs) (m : Mma) (i j g : Nat) : List XVal :=
  if m.form = .mmaq ∧
      (operandTag m.bytesA m.groups (blockNum m.groups i g) = 3 ∨ operandTag m.bytesB m.groups (blockNum m.groups j g) = 3) then []
  else (List.range 32).map fun k =>
    let p := (operandValue t m.form m.fa m.bytesA m.groups i (32 * g + k)).mul (operandValue t m.form m.fb m.bytesB m.groups j (32 * g + k))
    if m.form = .mman then p.1.neg else p.1

/-- An element after the first g groups. -/
def groupRun (t : Tabs) (m : Mma) (i j acc : Nat) : Nat → Nat
  | 0 => acc
  | g + 1 => (fp32.round (sumX 0 [fp32.value (groupRun t m i j acc g),
      fp32.value (fp32.round (sumX 0 (groupProducts t m i j g)).1 0 0).1]).1 0 0).1

theorem abacusElement_groupRun (t : Tabs) (m : Mma) (i j acc : Nat) : ∀ left, left ≤ m.groups →
    abacusElement t m i j left (groupRun t m i j acc (m.groups - left)) = groupRun t m i j acc m.groups
  | 0, _ => rfl
  | left + 1, h => by
    have hnext : m.groups - left = m.groups - (left + 1) + 1 := by omega
    rw [← abacusElement_groupRun t m i j acc left (by omega), hnext, groupRun, abacusElement]
    rfl

theorem abacusElement_eq (t : Tabs) (m : Mma) (i j acc : Nat) : abacusElement t m i j m.groups acc = groupRun t m i j acc m.groups := by
  have h := abacusElement_groupRun t m i j acc m.groups le_rfl
  rwa [Nat.sub_self] at h

section
variable {t : Tabs} {m : Mma} {tag scale : Nat → Nat → Nat → Nat} {value : Nat → Nat → Nat → Nat → XVal}
  (hblock : ∀ bytes x k, tag bytes x k = operandTag bytes m.groups (blockNum m.groups x (k / 32)) ∧
    scale bytes x k = operandScale bytes m.groups (blockNum m.groups x (k / 32)))
  (hvalue : ∀ fmt bytes x k, value fmt bytes x k = if m.form = .mmaq then
      blockValue t (element bytes (fmtWidth fmt) (x * (32 * m.groups) + k)) (scale bytes x k) (tag bytes x k)
    else decodeElem t fmt (element bytes (fmtWidth fmt) (x * (32 * m.groups) + k)))
include hblock hvalue

theorem operandValue_eq (fmt bytes x k : Nat) : operandValue t m.form fmt bytes m.groups x k = value fmt bytes x k := by
  obtain ⟨htag, hscale⟩ := hblock bytes x k
  rw [hvalue, htag, hscale]
  rfl

theorem groupProducts_eq (i j g : Nat) : groupProducts t m i j g =
    if m.form = .mmaq ∧ (tag m.bytesA i (32 * g) = 3 ∨ tag m.bytesB j (32 * g) = 3) then [] else
      (List.range 32).map fun k => let p := ((value m.fa m.bytesA i (32 * g + k)).mul (value m.fb m.bytesB j (32 * g + k))).1
        if m.form = .mman then p.neg else p := by
  have htag : ∀ bytes x, tag bytes x (32 * g) = operandTag bytes m.groups (blockNum m.groups x g) := fun bytes x => by
    rw [(hblock bytes x (32 * g)).1, Nat.mul_div_cancel_left _ (by decide)]
  simp only [groupProducts, operandValue_eq hblock hvalue, htag]

end

/-- Settles O33: an MMA form queues when its tile is `MmaReady`, retires with `readOperands`, completes with `withResult`, and an element runs
over its groups by `groupRun`. -/
theorem abacusMultiplications : Obligations.AbacusMultiplications := by
  unfold Obligations.AbacusMultiplications
  refine ⟨?_, ?_, ?_, ?_⟩
  · intro s g acc ra rb w sy form F i fa fb a b hi hc hp hw hswap htables hroom hba ha hbb hb h2a h2b hfa hfb
    have hready : MmaReady s.myTile form acc ra rb (w.toNat + 1) fa fb a b := ⟨hswap, htables, hroom, hba, ha, hbb, hb, h2a, h2b, hfa, hfb⟩
    rcases hi with ⟨rfl, rfl, rfl⟩ | ⟨rfl, rfl, rfl⟩ | ⟨rfl, rfl, rfl⟩ | ⟨rfl, rfl, rfl⟩
    · exact mma_issues 0xC300 hc hp hw hready
    · exact mma_issues 0xC301 hc hp hw hready
    · exact mma_issues 0xC302 hc hp hw hready
    · exact mma_issues 0xC303 hc hp hw hready
  · intro s t i na nb m hm hna hnb hga hgb hsa hsb
    subst hna hnb
    exact ⟨_, mmaRetire_retires hm hga hgb hsa hsb _ rfl, mmaRetire_spec _ rfl _ rfl⟩
  · intro s t m rest chks hm hr hfit hchks
    have hother : (!(s.tile t).workingBank m.acc.toNat) ≠ (s.tile t).workingBank m.acc.toNat := by cases (s.tile t).workingBank m.acc.toNat <;> decide
    obtain ⟨hmmas, hsignalled, hworking, hbank⟩ := signalled_replaceBank s t _ _ _ rest m.sy (f := withResult m rest) rfl _ rfl
    refine ⟨_, mmaComplete_completes hm hr hfit hchks, hmmas, hsignalled, hworking, ?_, fun i j hi hj => ?_⟩
    · rw [Tile.visible, Tile.workingBank, hworking, hbank, ← Tile.workingBank, if_neg fun h => hother h.2, Tile.visible]
    · rw [hbank, if_pos ⟨rfl, rfl⟩, mmaBank, bankOf_el _ hi hj, bankOf_po _ hi hj]
      exact ⟨rfl, rfl⟩
  · intro t m i j acc tag scale value hblock hvalue
    exact ⟨abacusInt_eq m i j acc, groupRun t m i j acc, groupProducts t m i j, rfl, abacusElement_eq t m i j acc,
      groupProducts_eq hblock hvalue i j, fun g _ => rfl⟩

end Sys2Proof.Proofs
end

section
/-! PROOFS. Vector instructions that combine or convert elements (R110, R123, R124, R173, R174, R176, R177, R178): what VRED, VSCAN, VDOT,
VCVT and VBSCL write. -/

namespace Sys2Proof.Proofs

open Sys2Proof.Machine Sys2Proof.Safety Sys2Proof.Laws

section
variable {s : State} {g : Guard} {F : Formats}

/-- What an instruction does once its format codes are known (R59). -/
theorem issue_in_formats {i : Info} {fa fb : Nat} {body : Nat → Nat → State → Eff} (h : Clears s i) (hF : i.formats = some F)
    (hp : s.me.formatPair F = (fa, fb)) : s.issue i body = s.settle i (body fa fb) false := by
  rw [issue_settles h, pairIn, hF]
  simp only [hp]

theorem issue_done_in {i : Info} {fa fb : Nat} {u : State} {body : Nat → Nat → State → Eff} (h : Clears s i) (hF : i.formats = some F)
    (hp : s.me.formatPair F = (fa, fb)) (hs : i.sync = Sync.none) (hb : body fa fb s = .done u) : s.issue i body = .next (retired s u) := by
  rw [issue_in_formats h hF hp]
  exact settle_done _ hs hb

theorem issue_traps_in {i : Info} {fa fb c : Nat} {v : Word} {body : Nat → Nat → State → Eff} (h : Clears s i) (hF : i.formats = some F)
    (hp : s.me.formatPair F = (fa, fb)) (hb : body fa fb s = .trap c v) : s.issue i body = .next (traps s c v) := by
  rw [issue_in_formats h hF hp]
  exact settle_trap _ hb

/-! ## VRED (R123, R173) -/

theorem treeReduce_inactive (op : RedOp) (n k : Nat) {l : Nat → Option Nat × Flags} (h : ∀ e, (l e).1 = none) :
    (treeReduce (fp32Node op 0 0) n ((List.range k).map fun e => (l e).1)).1 = none :=
  treeReduce_none _ n _ fun x hx => by
    obtain ⟨e, -, rfl⟩ := List.mem_map.mp hx
    exact h e

theorem exists_bit_iff (x : BitVec 64) : decide (x ≠ 0) = true ↔ ∃ i, i < 64 ∧ x.getLsbD i = true := by
  rw [decide_eq_true_eq]
  refine ⟨fun h => ?_, ?_⟩
  · by_contra hn
    refine h (BitVec.eq_of_getLsbD_eq fun i hi => ?_)
    have hx : x.getLsbD i = false := by
      by_contra hb
      exact hn ⟨i, hi, by simpa using hb⟩
    simp [hx]
  · rintro ⟨i, -, hi⟩ rfl
    simp at hi

/-! ## VSCAN (R124, R174) -/

theorem vecDone_scan {vd va : VReg} {conv : Nat → Nat × Flags} {node : Nat → Nat → Nat × Flags} {step : Option Nat → Nat → Nat × Flags}
    {o : Host.Outcome State Fault Refusal} (h0 : ∀ e, step none (s.me.elem 32 va e) = conv e)
    (h1 : ∀ v e, step (some v) (s.me.elem 32 va e) = node v (s.me.elem 32 va e)) (r : List Nat × Flags)
    (hr : r = scanRun (s.me.active g).getLsbD (s.me.elem 32 va) conv node (List.range 64) none)
    (ho : o = .next (retired s (s.setMe ((s.me.vwrLanes (s.me.active g) vd (BitVec.ofNat 2048 (packElements 32 r.1))
      (prefixPoison (s.me.vt va &&& s.me.active g) ||| s.me.maskPoison g)).raiseFlags r.2)))) :
    VecDone s g vd 32 (fun i => step (scanState (s.me.active g).getLsbD (s.me.elem 32 va) step i) (s.me.elem 32 va i))
      (fun i => (List.range (i + 1)).any fun j => (s.me.active g).getLsbD j && (s.me.vt va).getLsbD j) o := by
  obtain ⟨hvalues, hflags⟩ := scanRun_spec (s.me.active g).getLsbD (s.me.elem 32 va) conv node step h0 h1 64 0
  have hstart : scanRun (s.me.active g).getLsbD (s.me.elem 32 va) conv node ((List.range 64).map (0 + ·))
      (scanState (s.me.active g).getLsbD (s.me.elem 32 va) step 0) = r := by
    rw [hr, scanState]; simp only [Nat.zero_add, List.map_id']
  rw [hstart] at hvalues hflags
  simp only [Nat.zero_add] at hvalues hflags
  have hlane : ∀ e, 32 * e / 32 = e := fun e => Nat.mul_div_cancel_left e (by decide)
  refine ⟨(s.me.vrd vd &&& ~~~(laneBits (s.me.active g))) ||| (BitVec.ofNat 2048 (packElements 32 r.1) &&& laneBits (s.me.active g)),
    (s.me.vt vd &&& ~~~(s.me.active g)) ||| ((prefixPoison (s.me.vt va &&& s.me.active g) ||| s.me.maskPoison g) &&& s.me.active g), r.2,
    ?_, fun e he => ?_, fun i hi => ?_, fun b hb => ?_⟩
  · rw [ho]; rfl
  · rw [element_merge _ _ _ (by decide) (by decide), hlane]
    split
    case isTrue ha =>
      rw [hvalues, toNat_pack _ _ _ (by simp), element_pack _ _ _ (by simpa using he), List.getD_eq_getElem _ _ (by simpa using he)]
      simp only [List.getElem_map, List.getElem_range, ha, if_true]
    case isFalse => rfl
  · rw [getLsbD_mergeTag, BitVec.getLsbD_or, prefixPoison_bit _ _ hi]
    simp only [BitVec.getLsbD_and, Bool.and_comm]
  · simp only [hflags b hb, hlane]

/-! ## VDOT, VCVT and VBSCL (R110, R158, R176, R177, R178) -/

theorem invalidTable_first {T : Tile} {bs : List Bool} {b : Bool} (h : bs.find? (fun b => !encodable (T.tabs.of b)) = some b) :
    T.invalidTable bs = some (if b then 1 else 0) := by
  rw [Tile.invalidTable, h]; rfl

theorem blockTables_order (x : Strand) (vc : VReg) (n : Nat) : x.blockTables vc n = [] ∨ x.blockTables vc n = [false] ∨
    x.blockTables vc n = [true] ∨ x.blockTables vc n = [false, true] := by
  rw [Strand.blockTables]
  split <;> split <;> simp

/-- A table that is not encodable is the first such of those that a block's tag selects, unless table A is another. -/
theorem blockTables_first {x : Strand} {vc : VReg} {n : Nat} {ok : Bool → Bool} {b : Bool} (hb : b ∈ x.blockTables vc n) (hno : ok b = false)
    (hA : b = true → false ∈ x.blockTables vc n → ok false = true) : (x.blockTables vc n).find? (fun b => !ok b) = some b := by
  rcases blockTables_order x vc n with h | h | h | h <;> rw [h] at hb hA ⊢ <;> cases b <;> simp_all

/-- A conversion that no swap and no table stops. -/
theorem vecDone_converts {vd : VReg} {fa fb wd n ws : Nat} {i : Info} {body : Nat → Nat → State → Eff} {po : Strand → Nat → Bool}
    {f : Strand → Nat → Nat × Flags} {f' : Nat → Nat × Flags} {p' : Nat → Bool} (h : Clears s i) (hF : i.formats = some F)
    (hpair : s.me.formatPair F = (fa, fb)) (hs : i.sync = Sync.none) (hb : body fa fb s = s.convert g vd ws wd po f)
    (hw : 0 < wd ∧ wd ∣ 32) (hn : n = min (2048 / ws) (2048 / wd)) (hf : ∀ e, e < n → f' e = f s.me e) (hp : ∀ e, p' e = po s.me e) :
    VecDone s g vd wd (fun e => if e < n then f' e else (0, {})) (fun i => (List.range n).any fun e => decide (wd * e / 32 = i) && p' e)
      (s.issue i body) := by
  refine vecDone_convert (po := po) (f := f) hn ?_ hw.1 hw.2 (fun e => ?_) (fun i hi => ?_)
  · exact issue_done_in h hF hpair hs hb
  · split
    · exact hf e ‹_›
    · rfl
  · rw [convertPoison_getLsbD hi hw.1 hw.2]
    simp only [hp]

end

end Sys2Proof.Proofs
end

section
/-! PROOFS. One rounding step (R105, R106): a magnitude cut into units and a rest, and the way its mode sends it. -/

namespace Sys2Proof.Proofs

open Sys2Proof.Machine Sys2Proof.Safety Sys2Proof.Laws

theorem toNat_sub_add {x y z : Int} (hxy : y ≤ x) (hyz : z ≤ y) : (x - z).toNat = (x - y).toNat + (y - z).toNat := by omega

theorem pow_toNat_sub {x y z : Int} (hxy : y ≤ x) (hyz : z ≤ y) : 2 ^ (x - z).toNat = 2 ^ (x - y).toNat * 2 ^ (y - z).toNat := by
  rw [toNat_sub_add hxy hyz, pow_add]

/-- The mode's word on a magnitude a between lo and hi, told by its place in that span. -/
theorem roundsUp_roundUp {d : Disc} {c lo a hi : Nat} (hsticky : d.sticky = false) (hc : 0 < c) (ha : a = lo + d.num * c)
    (hhi : hi = lo + d.den * c) (mode : Nat) (seed : Word) (neg hiEven : Bool) :
    RoundsUp mode neg hiEven lo a hi (roundUp mode seed neg hiEven d) := by
  have hover : d.den < 2 * d.num ↔ d.den * c < 2 * (d.num * c) := by rw [← mul_assoc, Nat.mul_lt_mul_right hc]
  have htie : 2 * d.num = d.den ↔ 2 * (d.num * c) = d.den * c := by rw [← mul_assoc, Nat.mul_left_inj (by omega)]
  refine ⟨?_, ?_, ?_, ?_, ?_⟩ <;> rintro rfl
  · simp only [roundUp, Disc.over, Disc.tie, hsticky, Bool.or_eq_true, Bool.and_eq_true, decide_eq_true_eq, Bool.not_false, and_true,
      Bool.false_eq_true, and_false, or_false, hover, htie]
    constructor
    · rintro (h | ⟨h, heven⟩)
      · omega
      · exact .inr ⟨by omega, heven⟩
    · rintro (h | ⟨h, heven⟩)
      · omega
      · by_cases hsame : 2 * (d.num * c) = d.den * c
        · exact .inr ⟨hsame, heven⟩
        · omega
  · rfl
  · rfl
  · rfl
  · simp only [roundUp, Disc.over, Disc.tie, hsticky, Bool.or_eq_true, Bool.and_eq_true, decide_eq_true_eq, Bool.not_false, and_true,
      Bool.false_eq_true, and_false, or_false, hover, htie]
    omega

/-- An exact magnitude m × 2^e in units of 2^u, both counted in a common unit 2^k: its whole units, whether anything is left, and where
the mode sends it. -/
theorem splitAt_spec {m : Nat} {e u k : Int} (hke : k ≤ e) (hku : k ≤ u) (a U : Nat) (ha : a = m * 2 ^ (e - k).toNat)
    (hU : U = 2 ^ (u - k).toNat) :
    (splitAt m e false u).1 = a / U ∧ (splitAt m e false u).2.none? = decide (a % U = 0) ∧
      ∀ mode seed neg hiEven, RoundsUp mode neg hiEven (a / U * U) a ((a / U + 1) * U) (roundUp mode seed neg hiEven (splitAt m e false u).2) := by
  have hparts : ∃ c, 0 < c ∧ (splitAt m e false u).1 = a / U ∧ (splitAt m e false u).2.sticky = false ∧
      a % U = (splitAt m e false u).2.num * c ∧ U = (splitAt m e false u).2.den * c := by
    by_cases hue : u ≤ e
    · have ha' : a = m * 2 ^ (e - u).toNat * U := by rw [ha, hU, pow_toNat_sub hue hku, mul_assoc]
      have hpos : 0 < U := hU ▸ Nat.two_pow_pos _
      simp only [splitAt, if_pos hue]
      exact ⟨U, hpos, by rw [ha', Nat.mul_div_cancel _ hpos], trivial, by rw [ha', Nat.mul_mod_left, Nat.zero_mul], (Nat.one_mul U).symm⟩
    · have hU' : U = 2 ^ (u - e).toNat * 2 ^ (e - k).toNat := by rw [hU, pow_toNat_sub (by omega) hke]
      have hpos : 0 < 2 ^ (e - k).toNat := Nat.two_pow_pos _
      simp only [splitAt, if_neg hue]
      exact ⟨2 ^ (e - k).toNat, hpos, by rw [ha, hU', Nat.mul_div_mul_right _ _ hpos], trivial,
        by rw [ha, hU', Nat.mul_mod_mul_right], hU'⟩
  obtain ⟨c, hc, hq, hsticky, hrest, hunit⟩ := hparts
  have hcut := Nat.div_add_mod a U
  refine ⟨hq, ?_, fun mode seed neg hiEven => roundsUp_roundUp hsticky hc ?_ ?_ mode seed neg hiEven⟩
  · simp only [Disc.none?, hsticky, Bool.not_false, Bool.and_true, hrest, Nat.mul_eq_zero, Nat.ne_of_gt hc, or_false]
  · rw [← hrest, Nat.mul_comm, hcut]
  · rw [← hunit, Nat.add_mul, Nat.one_mul]

theorem odd_iff_next_even (q : Nat) : decide (q % 2 = 1) = decide ((q + 1) % 2 = 0) := by
  rw [decide_eq_decide]; omega

/-- A nonzero magnitude's leading bit. -/
theorem bitLen_bounds {m : Nat} (h : m ≠ 0) : 2 ^ (bitLen m - 1) ≤ m ∧ m < 2 ^ bitLen m ∧ 0 < bitLen m := by
  rw [bitLen, if_neg h]
  exact ⟨Nat.log2_self_le h, Nat.lt_log2_self, Nat.succ_pos _⟩

end Sys2Proof.Proofs
end

section
/-! PROOFS. Reductions and conversions (R104, R110, R112, R119, R120, R176): the dot product, the integer rounding and the block codec,
and the obligation that puts the instructions with them. -/

namespace Sys2Proof.Proofs

open Sys2Proof.Machine Sys2Proof.Safety Sys2Proof.Laws

/-! ## Dot products (R176) -/

theorem testBit_or (a b : Flags) (i : Nat) (hi : i < 5) :
    ((a.or b).bits.testBit i = true ↔ a.bits.testBit i = true ∨ b.bits.testBit i = true) := by
  simpa using bits_foldl_or [(0, b)] i hi a

theorem dotLane_int (t : Tabs) (fa mode a b c : Nat) (seed : Word) : dotLane t fa 11 mode seed a b c =
    (((signedOf 32 c + ((List.range (32 / fmtWidth fa)).map fun e =>
      intValue fa (element a (fmtWidth fa) e) * intValue fa (element b (fmtWidth fa) e)).sum) % 2 ^ 32).toNat, {}) := by
  simp only [dotLane, if_true, wrapNat_mod, foldl_add_eq_sum]

theorem dotLane_float {t : Tabs} {fa fb mode a b c : Nat} {seed : Word} {ps : List (XVal × Flags)} {r : XVal × Flags} {q : Nat × Flags}
    (hb : fb ≠ 11) (hps : ps = (List.range (32 / fmtWidth fa)).map fun e =>
      (decodeElem t fa (element a (fmtWidth fa) e)).mul (decodeElem t fa (element b (fmtWidth fa) e)))
    (hr : r = sumX mode (ps.map (·.1) ++ [fp32.value c])) (hq : q = fp32.round r.1 mode seed) :
    (dotLane t fa fb mode seed a b c).1 = q.1 ∧ ∀ i, i < 5 → ((dotLane t fa fb mode seed a b c).2.bits.testBit i = true ↔
      (∃ p ∈ ps, p.2.bits.testBit i = true) ∨ r.2.bits.testBit i = true ∨ q.2.bits.testBit i = true) := by
  have hlane : dotLane t fa fb mode seed a b c = (q.1, ((ps.foldl (fun (f : Flags) p => f.or p.2) {}).or r.2).or q.2) := by
    simp only [dotLane, if_neg hb, hq, hr, hps]
  have hproducts : ∀ i, i < 5 → ((ps.foldl (fun (f : Flags) p => f.or p.2) {}).bits.testBit i = true ↔ ∃ p ∈ ps, p.2.bits.testBit i = true) := by
    intro i hi
    have hnone : ({} : Flags).bits.testBit i = false := Nat.zero_testBit i
    have hfold : ps.foldl (fun (f : Flags) p => f.or p.2) {} = (ps.map fun p => (0, p.2)).foldl (fun f p => f.or p.2) {} := by
      rw [List.foldl_map]
    rw [hfold, bits_foldl_or _ i hi, hnone]
    simp only [Bool.false_eq_true, false_or, List.mem_map, exists_exists_and_eq_and]
  rw [hlane]
  refine ⟨rfl, fun i hi => ?_⟩
  rw [testBit_or _ _ i hi, testBit_or _ _ i hi, hproducts i hi, or_assoc]

/-! ## Integers (R104, R106, R107) -/

theorem intRange_bounds {code low high : Nat}
    (h : (code, low, high) ∈ [(7, 128, 127), (8, 0, 255), (9, 8, 7), (10, 2 ^ 15, 2 ^ 15 - 1), (11, 2 ^ 31, 2 ^ 31 - 1)]) :
    intRange code = (low, high) ∧ high < 2 ^ fmtWidth code ∧ low ≤ 2 ^ 31 ∧ high ≤ 2 ^ 31 := by
  simp only [List.mem_cons, Prod.mk.injEq, List.not_mem_nil, or_false] at h
  rcases h with ⟨rfl, rfl, rfl⟩ | ⟨rfl, rfl, rfl⟩ | ⟨rfl, rfl, rfl⟩ | ⟨rfl, rfl, rfl⟩ | ⟨rfl, rfl, rfl⟩ <;> decide

/-- A magnitude whose leading bit lies above bit 63 is past every range. -/
theorem le_of_bitLen {m : Nat} {e k : Int} (hm : m ≠ 0) (he : 64 < e + (bitLen m : Int)) (hke : k ≤ e) (hk : k ≤ 0) {cap : Nat}
    (hcap : cap ≤ 2 ^ 64) : cap * 2 ^ (0 - k).toNat ≤ m * 2 ^ (e - k).toNat := by
  obtain ⟨hlead, -, hpos⟩ := bitLen_bounds hm
  calc cap * 2 ^ (0 - k).toNat ≤ 2 ^ 64 * 2 ^ (0 - k).toNat := Nat.mul_le_mul_right _ hcap
    _ = 2 ^ (64 + (0 - k).toNat) := (pow_add 2 64 _).symm
    _ ≤ 2 ^ (bitLen m - 1 + (e - k).toNat) := Nat.pow_le_pow_right (by decide) (by omega)
    _ = 2 ^ (bitLen m - 1) * 2 ^ (e - k).toNat := pow_add 2 _ _
    _ ≤ m * 2 ^ (e - k).toNat := Nat.mul_le_mul_right _ hlead

theorem roundInt_rounds (code : Nat) (neg : Bool) (m : Nat) (e : Int) (mode : Nat) (seed : Word) :
    IntRoundsRight code neg m e mode seed := by
  intro k a unit low high cap limit bits r hk ha hunit hcode hlimit hcap hbits hr
  obtain ⟨hrange, hwidth, hlow, hhigh⟩ := intRange_bounds hcode
  have hke : k ≤ e := by omega
  have hk0 : k ≤ 0 := by omega
  have hpos : 0 < unit := hunit ▸ Nat.two_pow_pos _
  have hput : ∀ q, q < cap → (if neg = true then wrapNat (fmtWidth code) (-(q : Int)) else q) = bits q := by
    intro q hq
    rw [hbits, wrapNat_mod]
    cases neg
    case true => rfl
    case false =>
      rw [if_neg (by decide), if_neg (by decide)]
      have hlt : q < 2 ^ fmtWidth code := by rw [hcap, hlimit, if_neg (by decide)] at hq; omega
      rw [← Nat.cast_ofNat, ← Nat.cast_pow, ← Int.natCast_mod, Int.toNat_natCast, Nat.mod_eq_of_lt hlt]
  have hlim : (if neg = true then wrapNat (fmtWidth code) (-((intRange code).1 : Int)) else (intRange code).2) = bits limit := by
    rw [← hput limit (by omega), hlimit, hrange]
    cases neg <;> rfl
  have hbound : (if neg = true then (intRange code).1 else (intRange code).2) + 1 = cap := by rw [hcap, hlimit, hrange]
  obtain ⟨hq, hexact, hup⟩ := splitAt_spec (m := m) hke hk0 a unit ha hunit
  simp only [roundInt, hlim, hbound, hq, hexact, decide_eq_true_eq, odd_iff_next_even] at hr
  refine ⟨fun hover => ?_, fun hin => ?_⟩
  · rw [if_pos ((Nat.le_div_iff_mul_le hpos).mpr hover), ite_self] at hr
    exact hr
  · have hlt : a / unit < cap := (Nat.div_lt_iff_lt_mul hpos).mpr hin
    have hearly : ¬(m ≠ 0 ∧ 64 < e + (bitLen m : Int)) := by
      rintro ⟨hm, he⟩
      have hcap64 : cap ≤ 2 ^ 64 := by rw [hcap, hlimit]; split <;> omega
      have := le_of_bitLen hm he hke hk0 hcap64
      rw [← ha, ← hunit] at this
      omega
    rw [if_neg hearly, if_neg (by omega)] at hr
    refine ⟨a / unit, hlt, Nat.div_mul_le_self a unit, ?_, fun heq => ?_, fun hne => ⟨_, hup mode seed neg _, ?_, ?_, ?_⟩⟩
    · rw [Nat.add_mul, Nat.one_mul]; exact Nat.lt_div_mul_add hpos
    · rw [if_pos (by rw [heq, Nat.mul_mod_left]), hput _ hlt] at hr
      exact hr
    all_goals
      have hrest : ¬a % unit = 0 := fun h0 => by
        have := Nat.div_add_mod a unit
        rw [h0, Nat.mul_comm] at this
        omega
      rw [if_neg hrest] at hr
    · intro hdown
      simp only [hdown, Bool.false_eq_true, if_false] at hr
      rw [if_neg (by omega), hput _ hlt] at hr
      exact hr
    · intro hgoes hroom
      simp only [hgoes, if_true] at hr
      rw [if_neg (by omega), hput _ hroom] at hr
      exact hr
    · intro hgoes hfull
      simp only [hgoes, if_true, if_pos hfull] at hr
      exact hr

/-! ## Codecs (R102, R104, R110, R112, R119, R120) -/

theorem codecOf (t : Tabs) (code : Nat) : CodecOf t code := by
  refine ⟨fun F hF b v mode seed => ?_, fun T hT b v mode seed => ?_, fun hcode b v mode seed => ?_⟩
  · simp only [decodeElem, roundElem, hF, and_self]
  · rcases hT with ⟨rfl, rfl⟩ | ⟨rfl, rfl⟩ <;> exact ⟨rfl, rfl⟩
  · have hfloat : floatFmt code = none ∧ code ≠ 4 ∧ code ≠ 5 := by
      simp only [List.mem_cons, List.not_mem_nil, or_false] at hcode
      rcases hcode with rfl | rfl | rfl | rfl | rfl <;> decide
    obtain ⟨hnone, h4, h5⟩ := hfloat
    refine ⟨by simp only [roundElem, hnone, if_neg h4, if_neg h5], fun i hi => ?_⟩
    subst hi
    exact ⟨by simp only [decodeElem, hnone, if_neg h4, if_neg h5]; rfl, rfl⟩

theorem scale2_near {n : Int} (h : -2000 ≤ n ∧ n ≤ 2000) (neg : Bool) (m : Nat) (e : Int) (st : Bool) :
    (XVal.fin neg m e st).scale2 n = .fin neg m (if m = 0 then e else e + n) st := by
  simp only [XVal.scale2, if_neg (show ¬n < -2000 by omega), if_neg (show ¬2000 < n by omega)]

theorem scale2_special {x : XVal} (h : ∀ neg m e st, x ≠ .fin neg m e st) (n : Int) : x.scale2 n = x := by
  cases x with
  | nan | inf => rfl
  | fin neg m e st => exact absurd rfl (h neg m e st)

section
variable {t : Tabs} {v : XVal} {b scale tag mode code : Nat} {seed : Word}

theorem blockEncode_eq (hcode : (tag, code) ∈ [(0, 4), (1, 5), (2, 7)]) (hs : scale < 255) :
    blockEncode t v scale tag mode seed = roundElem t code (v.scale2 (127 - (scale : Int))) mode seed := by
  simp only [List.mem_cons, Prod.mk.injEq, List.not_mem_nil, or_false] at hcode
  rw [blockEncode]
  rcases hcode with ⟨rfl, rfl⟩ | ⟨rfl, rfl⟩ | ⟨rfl, rfl⟩ <;> rw [if_neg (by decide), if_neg (by omega)] <;> rfl

theorem blockValue_eq (hcode : (tag, code) ∈ [(0, 4), (1, 5), (2, 7)]) (hs : scale < 255) :
    blockValue t b scale tag = (decodeElem t code b).scale2 ((scale : Int) - 127) := by
  simp only [List.mem_cons, Prod.mk.injEq, List.not_mem_nil, or_false] at hcode
  rw [blockValue]
  rcases hcode with ⟨rfl, rfl⟩ | ⟨rfl, rfl⟩ | ⟨rfl, rfl⟩ <;> rw [if_neg (by decide), if_neg (by omega)] <;> rfl

end

/-- The formats of VRED, VCVT and VBSCL have elements that fill lanes. -/
theorem fmtWidth_block {fa fb : Nat} (h : (fa = 12 ∧ fb ≤ 2) ∨ (fb = 12 ∧ fa ≤ 2)) : 0 < fmtWidth fb ∧ fmtWidth fb ∣ 32 :=
  fmtWidth_divides (by omega) (by omega)

end Sys2Proof.Proofs
end

section
/-! PROOFS. The obligation on reductions and conversions. -/

namespace Sys2Proof.Proofs

open Sys2Proof.Machine Sys2Proof.Safety Sys2Proof.Laws

/-- The format pairs of VRED (R157). -/
def redPairs : Formats := ⟨fun a b => decide (b = 0) && [0, 1, 2, 4, 5, 7, 8, 10].contains a, 0, 0⟩

/-- The format pairs of VSCAN (R157). -/
def scanPairs : Formats := ⟨fun a b => a == b && (decide (a = 0) || decide (a = 11)), 0, 0⟩

/-- The format pairs of VCVT (R157). -/
def cvtPairs : Formats := ⟨fun a b => decide (a ≤ 11) && decide (a ≠ 3) && decide (b ≤ 11) && decide (b ≠ 3), 11, 0⟩

/-- The format pairs of VBSCL (R157). -/
def bsclPairs : Formats := ⟨fun a b => (decide (a = 12) && decide (b ≤ 2)) || (decide (b = 12) && decide (a ≤ 2)), 12, 0⟩

section
variable {s : State} {g : Guard}

theorem vred_spec {op : RedOp} {d : SReg} {va : VReg} {fa w : Nat} {leaf : Nat → Option Nat × Flags}
    (hc : Clears s (formatted g redPairs)) (hfa : fa = (pairOf s redPairs).1) (hw : w = fmtWidth fa)
    (hswap : ∀ b ∈ boundTables fa 0, s.myTile.swapping b = false) (hleaf : ∀ e, leaf e = if (s.me.active g).getLsbD (w * e / 32) then
        (some (fp32.round (decodeElem s.myTile.tabs fa (s.me.elem w va e)) 0 0).1,
          (fp32.round (decodeElem s.myTile.tabs fa (s.me.elem w va e)) 0 0).2)
      else (none, {})) :
    ∃ v tag fl, exec (.vred g op d va) s = .next (retired s (s.updMe fun x => (x.wr d v tag).raiseFlags fl)) ∧
      v = BitVec.ofNat 64 ((treeReduce (fp32Node op 0 0) (Nat.log2 (2048 / w)) ((List.range (2048 / w)).map fun e => (leaf e).1)).1.getD
        (emptyResult op)) ∧
      (tag = true ↔ ∃ i, i < 64 ∧ ((s.me.active g).getLsbD i = true ∧ (s.me.vt va).getLsbD i = true ∨ (s.me.maskPoison g).getLsbD i = true)) ∧
      (s.me.active g = 0 → v = BitVec.ofNat 64 (match op with | .add => 0 | .min => 0x7F800000 | .max => 0xFF800000)) := by
  subst hw
  have hexec : exec (.vred g op d va) s = execVred g op d va s := rfl
  have hclears : Clears s { head := 0x9200 + op.code.toNat, guard := g, formats := some redPairs } := clears_with hc _ rfl
  have htree : ((List.range (2048 / fmtWidth fa)).map leaf).map (·.1) = (List.range (2048 / fmtWidth fa)).map fun e => (leaf e).1 :=
    List.map_map
  rw [hexec, execVred]
  refine ⟨_, decide (((s.me.vt va &&& s.me.active g) ||| s.me.maskPoison g) ≠ 0),
    (((List.range (2048 / fmtWidth fa)).map leaf).foldl (fun (f : Flags) l => f.or l.2) {}).or
      (treeReduce (fp32Node op 0 0) (log2Count (2048 / fmtWidth fa)) (((List.range (2048 / fmtWidth fa)).map leaf).map (·.1))).2,
    ?_, rfl, ?_, fun hnone => ?_⟩
  · refine issue_done_in (F := redPairs) (fa := fa) hclears rfl (Prod.ext hfa.symm rfl) rfl ?_
    simp only [swapping_none hswap, Bool.false_eq_true, if_false]
    rw [← htree, funext hleaf]
    rfl
  · rw [exists_bit_iff]
    simp only [BitVec.getLsbD_or, BitVec.getLsbD_and, Bool.or_eq_true, Bool.and_eq_true, and_comm]
  · have hempty : ∀ e, (leaf e).1 = none := fun e => by
      rw [hleaf, hnone, if_neg (by simp)]
    rw [treeReduce_inactive op _ _ hempty, Option.getD_none]
    cases op <;> rfl

theorem vscan_spec {op : RedOp} {vd va vb : VReg} {rm : BitVec 3} {fa : Nat} {step : Option Nat → Nat → Nat × Flags}
    (hc : Clears s (formatted g scanPairs)) (hfa : fa = (pairOf s scanPairs).1)
    (hfirst : ∀ a, step none a = if fa = 11 then (a, {}) else fp32.round (fp32.value a) (s.me.rmOf rm) s.myTile.ctl.seed)
    (hnext : ∀ v a, step (some v) a = if fa = 11 then int32Node op v a else fp32Node op (s.me.rmOf rm) s.myTile.ctl.seed v a) :
    VecDone s g vd 32 (fun i => step (scanState (s.me.active g).getLsbD (s.me.elem 32 va) step i) (s.me.elem 32 va i))
      (fun i => (List.range (i + 1)).any fun j => (s.me.active g).getLsbD j && (s.me.vt va).getLsbD j)
      (exec (.vscan g op vd va vb rm) s) := by
  have hexec : exec (.vscan g op vd va vb rm) s = execVscan g op vd va vb rm s := rfl
  have hclears : Clears s { head := 0x9204 + op.code.toNat, guard := g, formats := some scanPairs } := clears_with hc _ rfl
  rw [hexec, execVscan]
  refine vecDone_scan (conv := fun e => if fa = 11 then (s.me.elem 32 va e, {}) else
      fp32.round (fp32.value (s.me.elem 32 va e)) (s.me.rmOf rm) s.myTile.ctl.seed)
    (node := fun v c => if fa = 11 then int32Node op v c else fp32Node op (s.me.rmOf rm) s.myTile.ctl.seed v c)
    (fun e => hfirst _) (fun v e => hnext v _) _ rfl ?_
  rw [hfa]
  exact issue_done_in (F := scanPairs) hclears rfl rfl rfl rfl

theorem vdot_spec {vd va vb vc : VReg} {rm : BitVec 3} {fa fb : Nat} (hc : Clears s (formatted g dotPairs)) (hf : (fa, fb) = pairOf s dotPairs)
    (hswap : ∀ b ∈ boundTables fa fb, s.myTile.swapping b = false) :
    VecDone s g vd 32 (fun i => dotLane s.myTile.tabs fa fb (s.me.rmOf rm) s.myTile.ctl.seed (s.me.elem 32 va i) (s.me.elem 32 vb i)
      (s.me.elem 32 vc i)) (lanePoison s [va, vb, vc]) (exec (.vdot g vd va vb vc rm) s) := by
  have hexec : exec (.vdot g vd va vb vc rm) s = execVdot g vd va vb vc rm s := rfl
  have hclears : Clears s { head := 0x920C, guard := g, formats := some dotPairs } := clears_with hc _ rfl
  have hpair : s.me.formatPair dotPairs = (fa, fb) := hf.symm
  rw [hexec, execVdot]
  refine vecDone_write (srcs := [va, vb, vc]) (f := fun x i => dotLane s.myTile.tabs fa fb (s.me.rmOf rm) s.myTile.ctl.seed (x.elem 32 va i)
    (x.elem 32 vb i) (x.elem 32 vc i)) (issue_done_in hclears rfl hpair rfl ?_) (by decide) (dvd_refl 32) rfl (fun _ _ _ => ⟨rfl, rfl⟩)
  simp only [swapping_none hswap, Bool.false_eq_true, if_false]

theorem vcvt_widths {fa fb : Nat} (hc : Clears s (formatted g cvtPairs)) (hf : (fa, fb) = pairOf s cvtPairs) : 0 < fmtWidth fb ∧ fmtWidth fb ∣ 32 := by
  have hok := pairOf_ok hc
  rw [← hf] at hok
  simp only [cvtPairs, Bool.and_eq_true, decide_eq_true_eq, Prod.mk.injEq] at hok
  exact fmtWidth_divides (by omega) (by omega)

theorem vbscl_codes {fa fb : Nat} (hc : Clears s (formatted g bsclPairs)) (hf : (fa, fb) = pairOf s bsclPairs) :
    (fa = 12 ∧ fb ≤ 2) ∨ (fb = 12 ∧ fa ≤ 2) := by
  have hok := pairOf_ok hc
  rw [← hf] at hok
  simp only [bsclPairs, Bool.and_eq_true, Bool.or_eq_true, decide_eq_true_eq, Prod.mk.injEq] at hok
  omega

theorem vcvt_spec {vd va : VReg} {rm : BitVec 3} {fa fb n : Nat}
    (hc : Clears s (formatted g cvtPairs)) (hf : (fa, fb) = pairOf s cvtPairs) (hswap : ∀ b ∈ boundTables fa fb, s.myTile.swapping b = false)
    (hn : n = min (2048 / fmtWidth fa) (2048 / fmtWidth fb)) :
    ((∀ b ∈ boundTables 0 fb, encodable (s.myTile.tabs.of b) = true) →
      VecDone s g vd (fmtWidth fb)
        (fun e => if e < n then convertElem s.myTile.tabs fa fb (s.me.elem (fmtWidth fa) va e) (s.me.rmOf rm) s.myTile.ctl.seed
          else (0, {}))
        (fun i => (List.range n).any fun e => decide (fmtWidth fb * e / 32 = i) && (s.me.vt va).getLsbD (fmtWidth fa * e / 32))
        (exec (.vcvt g vd va rm) s)) ∧
    (∀ b, boundTables 0 fb = [b] → encodable (s.myTile.tabs.of b) = false →
      exec (.vcvt g vd va rm) s = .next (traps s 0x0F (if b then 1 else 0))) := by
  have hwidth := vcvt_widths hc hf
  have hexec : exec (.vcvt g vd va rm) s = execVcvt g vd va rm s := rfl
  have hclears : Clears s { head := 0x9600, guard := g, formats := some cvtPairs } := clears_with hc _ rfl
  have hpair : s.me.formatPair cvtPairs = (fa, fb) := hf.symm
  rw [hexec, execVcvt]
  refine ⟨fun hok => ?_, fun b hb hno => ?_⟩
  · refine vecDone_converts (ws := fmtWidth fa) (po := fun x e => (x.vt va).getLsbD (fmtWidth fa * e / 32))
      (f := fun x e => convertElem s.myTile.tabs fa fb (x.elem (fmtWidth fa) va e) (s.me.rmOf rm) s.myTile.ctl.seed)
      hclears rfl hpair rfl ?_ hwidth hn (fun _ _ => rfl) fun _ => rfl
    simp only [swapping_none hswap, invalidTable_none hok, Bool.false_eq_true, if_false]
  · have hfirst : s.myTile.invalidTable (boundTables 0 fb) = some (if b then 1 else 0) :=
      invalidTable_first (by rw [hb]; simp [hno])
    refine issue_traps_in hclears rfl hpair ?_
    simp only [swapping_none hswap, hfirst, Bool.false_eq_true, if_false]

theorem vbscl_spec {vd va vb vc : VReg} {rm : BitVec 3} {fa fb n : Nat}
    (hc : Clears s (formatted g bsclPairs)) (hf : (fa, fb) = pairOf s bsclPairs) (hn : n = min (2048 / fmtWidth fa) (2048 / fmtWidth fb))
    (hswap : ∀ b ∈ s.me.blockTables vc (n / 32), s.myTile.swapping b = false) :
    (∀ b, fb = 12 → b ∈ s.me.blockTables vc (n / 32) → encodable (s.myTile.tabs.of b) = false →
      (b = true → false ∈ s.me.blockTables vc (n / 32) → encodable (s.myTile.tabs.of false) = true) →
      exec (.vbscl g vd va vb vc rm) s = .next (traps s 0x0F (if b then 1 else 0))) ∧
    ((fb = 12 → ∀ b ∈ s.me.blockTables vc (n / 32), encodable (s.myTile.tabs.of b) = true) →
    VecDone s g vd (fmtWidth fb)
      (fun e => if e < n then
          (if fa = 12 then (layout fb).round (blockValue s.myTile.tabs (s.me.elem 8 va e) (s.me.elem 8 vb (e / 32))
              (bitsOf (s.me.vrd vc) (2 * (e / 32)) 2)) (s.me.rmOf rm) s.myTile.ctl.seed
            else blockEncode s.myTile.tabs ((layout fa).value (s.me.elem (fmtWidth fa) va e)) (s.me.elem 8 vb (e / 32))
              (bitsOf (s.me.vrd vc) (2 * (e / 32)) 2) (s.me.rmOf rm) s.myTile.ctl.seed)
        else (0, {}))
      (fun i => (List.range n).any fun e => decide (fmtWidth fb * e / 32 = i) &&
        ((s.me.vt va).getLsbD (fmtWidth fa * e / 32) || (s.me.vt vb).getLsbD (e / 32 / 4) || (s.me.vt vc).getLsbD 0))
      (exec (.vbscl g vd va vb vc rm) s)) := by
  have hcodes := vbscl_codes hc hf
  have hexec : exec (.vbscl g vd va vb vc rm) s = execVbscl g vd va vb vc rm s := rfl
  have hclears : Clears s { head := 0x9601, guard := g, formats := some bsclPairs } := clears_with hc _ rfl
  have hpair : s.me.formatPair bsclPairs = (fa, fb) := hf.symm
  have hcount : convertCount (fmtWidth fa) (fmtWidth fb) = n := hn.symm
  rw [hexec, execVbscl]
  refine ⟨fun b hfb hb hno hA => ?_, fun hok => ?_⟩
  · have hfirst : s.myTile.invalidTable (s.me.blockTables vc (n / 32)) = some (if b then 1 else 0) :=
      invalidTable_first (blockTables_first hb hno hA)
    refine issue_traps_in hclears rfl hpair ?_
    simp only [hcount, swapping_none hswap, if_pos hfb, hfirst, Bool.false_eq_true, if_false]
  · have hvalid : (if fb = 12 then s.myTile.invalidTable (s.me.blockTables vc (n / 32)) else none) = none := by
      split
      · exact invalidTable_none (hok ‹_›)
      · rfl
    refine vecDone_converts (ws := fmtWidth fa)
      (po := fun x e => (x.vt va).getLsbD (fmtWidth fa * e / 32) || (x.vt vb).getLsbD (e / 32 / 4) || (x.vt vc).getLsbD 0)
      (f := fun x e => if fa = 12 then (layout fb).round (blockValue s.myTile.tabs (x.elem 8 va e) (x.blockScale vb (e / 32))
            (x.blockTag vc (e / 32))) (s.me.rmOf rm) s.myTile.ctl.seed
          else blockEncode s.myTile.tabs ((layout fa).value (x.elem (fmtWidth fa) va e)) (x.blockScale vb (e / 32)) (x.blockTag vc (e / 32))
            (s.me.rmOf rm) s.myTile.ctl.seed)
      hclears rfl hpair rfl ?_ (fmtWidth_block hcodes) hn (fun _ _ => rfl) fun _ => rfl
    simp only [hcount, swapping_none hswap, hvalid, Bool.false_eq_true, if_false]

end

/-- Settles O32: each instruction by its own lemma; a dot product by `dotLane_float`, a rounding into an integer by `roundInt_rounds`, the
codecs by their layout, and a block element as its scaled value. -/
theorem reductionsAndConversions : Obligations.ReductionsAndConversions := by
  unfold Obligations.ReductionsAndConversions
  refine ⟨?_, ?_, ?_, ?_, ?_, ?_, ?_⟩
  · intro s g op d va F fa w leaf rfl hc hfa hw hswap hleaf
    exact vred_spec hc hfa hw hswap hleaf
  · intro s g op vd va vb rm F fa step rfl hc hfa hfirst hnext
    exact ⟨scanState (s.me.active g).getLsbD (s.me.elem 32 va) step, rfl, fun i _ => rfl, vscan_spec hc hfa hfirst hnext⟩
  · intro s g vd va vb vc rm fa fb hc hf hswap
    exact vdot_spec hc hf hswap
  · intro s g vd va rm F fa fb n rfl hc hf hswap hn
    exact vcvt_spec hc hf hswap hn
  · intro s g vd va vb vc rm F fa fb n rfl hc hf hn hswap
    exact vbscl_spec hc hf hn hswap
  · intro t fa fb mode a b c w seed ps r q hw hps hr hq
    subst hw
    exact ⟨dotLane_int t fa mode a b c seed, fun hfb => dotLane_float hfb hps hr hq⟩
  · intro t fa fb b mode scale tag seed v
    refine ⟨codecOf t fa, fun hsame hnan => if_pos ⟨hsame, hnan⟩, fun hdiff => if_neg ?_, fun neg m e => roundInt_rounds fa neg m e mode seed,
      rfl, fun h3 => ?_, rfl, fun h3 => ?_, fun code hcode hs => ⟨fun neg m e st hv => ?_, fun hv => ?_, fun neg m e st hv => ?_, fun hv => ?_⟩⟩
    · rintro ⟨hsame, hnan⟩
      rcases hdiff with hne | hisNan
      · exact hne hsame
      · rw [hnan] at hisNan; cases hisNan
    · rw [blockEncode, if_neg h3, if_pos rfl]
    · rw [blockValue, if_neg h3, if_pos rfl]
    · rw [blockEncode_eq hcode hs, hv, scale2_near (by omega)]
    · rw [blockEncode_eq hcode hs, scale2_special hv]
    · rw [blockValue_eq hcode hs, hv, scale2_near (by omega)]
    · rw [blockValue_eq hcode hs, scale2_special hv]

end Sys2Proof.Proofs
end

section
/-! PROOFS. The vector floating-point instructions (R156, R165-R170): what each writes to the elements of vd. -/

namespace Sys2Proof.Proofs

open Sys2Proof.Machine Sys2Proof.Safety Sys2Proof.Laws

section
variable {s : State} {g : Guard} {vd va vb vc : VReg} {fa w mode : Nat} {F : FloatFmt}

/-- An instruction of major 0x22 gives vd the elements that it computes from those of its sources. -/
theorem vecDone_float {head : Nat} {srcs : List VReg} {body : Nat → Nat → State → Eff} {f : Strand → Nat → Nat × Flags}
    {f' : Nat → Nat × Flags} {o : Host.Outcome State Fault Refusal} (hc : Clears s (formatted g floatPairs))
    (hfa : fa = (pairOf s floatPairs).1) (p : Host.Outcome State Fault Refusal) (ho : o = p) (hp : p = s.issue (floatInfo head g) body)
    (hb : ∀ fb, body fa fb s = .done (s.vecWrite g vd srcs (fmtWidth fa) f)) (hf : ∀ e, f' e = f s.me e) :
    VecDone s g vd (fmtWidth fa) f' (lanePoison s srcs) o := by
  have hle : fa ≤ 2 := hfa ▸ pairOf_float hc
  obtain ⟨hpos, hdvd⟩ := fmtWidth_float hle
  have hclears : Clears s (floatInfo head g) := clears_with hc _ rfl
  refine vecDone_write (srcs := srcs) (f := f) ?_ hpos hdvd rfl fun e _ _ => by rw [hf]; exact ⟨rfl, rfl⟩
  rw [ho, hp]
  exact issue_done_in hclears rfl (Prod.ext hfa.symm rfl) rfl (hb _)

theorem vectorFloat_instructions {rm : BitVec 3} {x : VReg → Nat → XVal} {R : XVal × Flags → Nat × Flags}
    (hc : Clears s (formatted g floatPairs)) (hfa : fa = (pairOf s floatPairs).1) (hF : F = layout fa) (hw : w = fmtWidth fa)
    (hmode : mode = (if rm = 7 then s.me.rm else rm.toNat)) (hx : ∀ v e, x v e = F.value (s.me.elem w v e))
    (hR : ∀ r, R r = roundedTo F mode s.myTile.ctl.seed r) :
    VecDone s g vd w (fun e => R (sumX mode [x va e, x vb e])) (lanePoison s [va, vb]) (exec (.vadd g vd va vb rm) s) ∧
    VecDone s g vd w (fun e => R (sumX mode [x va e, (x vb e).neg])) (lanePoison s [va, vb]) (exec (.vsub g vd va vb rm) s) ∧
    VecDone s g vd w (fun e => R ((x va e).mul (x vb e))) (lanePoison s [va, vb]) (exec (.vmul g vd va vb rm) s) ∧
    VecDone s g vd w (fun e => R (fmaX mode (x va e) (x vb e) (x vc e) false false)) (lanePoison s [va, vb, vc])
      (exec (.vfma g vd va vb vc rm) s) ∧
    VecDone s g vd w (fun e => R (fmaX mode (x va e) (x vb e) (x vc e) false true)) (lanePoison s [va, vb, vc])
      (exec (.vfms g vd va vb vc rm) s) ∧
    VecDone s g vd w (fun e => R (fmaX mode (x va e) (x vb e) (x vc e) true false)) (lanePoison s [va, vb, vc])
      (exec (.vnfma g vd va vb vc rm) s) ∧
    VecDone s g vd w (fun e => R (x va e).rcp) (lanePoison s [va]) (exec (.vrcp g vd va rm) s) ∧
    VecDone s g vd w (fun e => R (x va e).rsq) (lanePoison s [va]) (exec (.vrsq g vd va rm) s) ∧
    VecDone s g vd w (fun e => R (x va e).exp2) (lanePoison s [va]) (exec (.vexp2 g vd va rm) s) ∧
    VecDone s g vd w (fun e => R (x va e).log2) (lanePoison s [va]) (exec (.vlog2 g vd va rm) s) ∧
    VecDone s g vd w (fun e => F.round ((x va e).scale2 (signedOf w (s.me.elem w vb e))) mode s.myTile.ctl.seed)
      (lanePoison s [va, vb]) (exec (.vscale g vd va vb rm) s) ∧
    VecDone s g vd w (fun e => F.minMax false (s.me.elem w va e) (s.me.elem w vb e)) (lanePoison s [va, vb])
      (exec (.vmin g vd va vb rm) s) ∧
    VecDone s g vd w (fun e => F.minMax true (s.me.elem w va e) (s.me.elem w vb e)) (lanePoison s [va, vb])
      (exec (.vmax g vd va vb rm) s) ∧
    VecDone s g vd w (fun e => F.signOp false (s.me.elem w va e)) (lanePoison s [va]) (exec (.vabs g vd va rm) s) ∧
    VecDone s g vd w (fun e => F.signOp true (s.me.elem w va e)) (lanePoison s [va]) (exec (.vneg g vd va rm) s) ∧
    VecDone s g vd w (fun e => (F.cls (s.me.elem w va e), {})) (lanePoison s [va]) (exec (.vclass g vd va) s) := by
  obtain rfl : x = fun v e => F.value (s.me.elem w v e) := funext fun v => funext (hx v)
  obtain rfl : R = roundedTo F mode s.myTile.ctl.seed := funext hR
  subst hF hw hmode
  exact ⟨vecDone_float hc hfa (execVadd g vd va vb rm s) rfl rfl (fun _ => rfl) fun _ => rfl,
    vecDone_float hc hfa (execVsub g vd va vb rm s) rfl rfl (fun _ => rfl) fun _ => rfl,
    vecDone_float hc hfa (execVmul g vd va vb rm s) rfl rfl (fun _ => rfl) fun _ => rfl,
    vecDone_float hc hfa (execVfma g vd va vb vc rm s) rfl rfl (fun _ => rfl) fun _ => rfl,
    vecDone_float hc hfa (execVfms g vd va vb vc rm s) rfl rfl (fun _ => rfl) fun _ => rfl,
    vecDone_float hc hfa (execVnfma g vd va vb vc rm s) rfl rfl (fun _ => rfl) fun _ => rfl,
    vecDone_float hc hfa (execVrcp g vd va rm s) rfl rfl (fun _ => rfl) fun _ => rfl,
    vecDone_float hc hfa (execVrsq g vd va rm s) rfl rfl (fun _ => rfl) fun _ => rfl,
    vecDone_float hc hfa (execVexp2 g vd va rm s) rfl rfl (fun _ => rfl) fun _ => rfl,
    vecDone_float hc hfa (execVlog2 g vd va rm s) rfl rfl (fun _ => rfl) fun _ => rfl,
    vecDone_float hc hfa (execVscale g vd va vb rm s) rfl rfl (fun _ => rfl) fun _ => rfl,
    vecDone_float hc hfa (execVmin g vd va vb rm s) rfl rfl (fun _ => rfl) fun _ => rfl,
    vecDone_float hc hfa (execVmax g vd va vb rm s) rfl rfl (fun _ => rfl) fun _ => rfl,
    vecDone_float hc hfa (execVabs g vd va rm s) rfl rfl (fun _ => rfl) fun _ => rfl,
    vecDone_float hc hfa (execVneg g vd va rm s) rfl rfl (fun _ => rfl) fun _ => rfl,
    vecDone_float hc hfa (execVclass g vd va s) rfl rfl (fun _ => rfl) fun _ => rfl⟩

end

end Sys2Proof.Proofs
end

section
/-! PROOFS. Exact sums and products (R103, R165). -/

namespace Sys2Proof.Proofs

open Sys2Proof.Machine Sys2Proof.Safety Sys2Proof.Laws

/-! ## The common unit of a sum -/

theorem minExp_le_start (xs : List XVal) (e0 : Int) : minExp xs e0 ≤ e0 := by
  induction xs generalizing e0 with
  | nil => exact le_rfl
  | cons x xs ih =>
    cases x with
    | nan | inf => exact ih e0
    | fin n m e st =>
      refine (ih _).trans ?_
      split
      · next h => exact h.2.le
      · exact le_rfl

theorem minExp_le {xs : List XVal} {n : Bool} {m : Nat} {e : Int} {st : Bool} (hx : .fin n m e st ∈ xs) (hm : m ≠ 0) (e0 : Int) :
    minExp xs e0 ≤ e := by
  induction xs generalizing e0 with
  | nil => cases hx
  | cons x xs ih =>
    rcases List.mem_cons.mp hx with rfl | htail
    · refine (minExp_le_start xs _).trans ?_
      split
      · exact le_rfl
      · next h => exact not_lt.mp fun hlt => h ⟨hm, hlt⟩
    · cases x <;> exact ih htail _

theorem le_minExp {xs : List XVal} {k e0 : Int} (h : ∀ n m e st, .fin n m e st ∈ xs → m ≠ 0 → k ≤ e) (h0 : k ≤ e0) : k ≤ minExp xs e0 := by
  induction xs generalizing e0 with
  | nil => exact h0
  | cons x xs ih =>
    have htail := fun n m e st hx => h n m e st (List.mem_cons_of_mem x hx)
    cases x with
    | nan | inf => exact ih htail h0
    | fin n m e st =>
      refine ih htail ?_
      split
      · next hm => exact h n m e st (List.mem_cons_self ..) hm.1
      · exact h0

/-- A term in a finer unit. -/
theorem scaled_finer {x : XVal} {k e0 : Int} (hk : k ≤ e0) (hx : ∀ n m e st, x = .fin n m e st → m ≠ 0 → e0 ≤ e) :
    x.scaled k = x.scaled e0 * 2 ^ (e0 - k).toNat := by
  cases x with
  | nan | inf => exact (Int.zero_mul _).symm
  | fin n m e st =>
    have hmag : m * 2 ^ (e - k).toNat = m * 2 ^ (e - e0).toNat * 2 ^ (e0 - k).toNat := by
      by_cases hm : m = 0
      · rw [hm, Nat.zero_mul, Nat.zero_mul, Nat.zero_mul]
      · have he : (e - k).toNat = (e - e0).toNat + (e0 - k).toNat := by have := hx n m e st rfl hm; omega
        rw [he, pow_add, mul_assoc]
    simp only [XVal.scaled, hmag]
    split <;> push_cast <;> ring

theorem sum_scaled_finer {xs : List XVal} {k e0 : Int} (hk : k ≤ e0) (h : ∀ n m e st, .fin n m e st ∈ xs → m ≠ 0 → e0 ≤ e) :
    (xs.map fun x => x.scaled k).sum = (xs.map fun x => x.scaled e0).sum * 2 ^ (e0 - k).toNat := by
  rw [← List.sum_map_mul_right]
  refine congrArg List.sum (List.map_congr_left fun x hx => scaled_finer hk fun n m e st he => ?_)
  subst he
  exact h n m e st hx

/-! ## What a sum is, case by case -/

/-- A zero of one sign. -/
def isZero (n : Bool) : XVal → Bool
  | .fin n' m _ _ => (n' == n) && decide (m = 0)
  | _ => false

/-- The sign of a sum that is zero. -/
def zeroSign (mode : Nat) (xs : List XVal) : Bool :=
  if xs.all (isZero false) then false else if xs.all (isZero true) then true else decide (mode = 3)

theorem isZero_iff (n : Bool) (x : XVal) : isZero n x = true ↔ ∃ e st, x = .fin n 0 e st := by
  cases x with
  | nan | inf => simp [isZero]
  | fin n' m e st => simp [isZero]

section
variable {mode : Nat} {xs : List XVal}

theorem any_inf (n : Bool) (xs : List XVal) : (xs.any fun x => decide (x = .inf n)) = decide (XVal.inf n ∈ xs) := by
  rw [Bool.eq_iff_iff]; simp

theorem any_isNan_false (h : ∀ x ∈ xs, x.isNan = false) : xs.any XVal.isNan = false := by
  rw [List.any_eq_false]; intro x hx; rw [h x hx]; decide

theorem sumX_nan (mode : Nat) (h : ∃ x ∈ xs, x.isNan = true) :
    sumX mode xs = (.nan false, { nv := xs.any XVal.snan || (decide (XVal.inf false ∈ xs) && decide (XVal.inf true ∈ xs)) }) := by
  have hany : xs.any XVal.isNan = true := List.any_eq_true.mpr h
  simp only [sumX, hany, if_true, any_inf]
  rfl

theorem sumX_infs (mode : Nat) (h : ∀ x ∈ xs, x.isNan = false) (hneg : .inf true ∈ xs) (hpos : .inf false ∈ xs) :
    sumX mode xs = (.nan false, { nv := true }) := by
  simp [sumX, any_isNan_false h, any_inf, hneg, hpos]

theorem sumX_inf (mode : Nat) (h : ∀ x ∈ xs, x.isNan = false) {n : Bool} (hin : .inf n ∈ xs) (hout : .inf (!n) ∉ xs) :
    sumX mode xs = (.inf n, {}) := by
  cases n <;> simp only [Bool.not_false, Bool.not_true] at hout <;> simp [sumX, any_isNan_false h, any_inf, hin, hout]

theorem sumX_finite (mode : Nat) (h : ∀ x ∈ xs, x.isNan = false) (hinf : ∀ n, .inf n ∉ xs) (v : Int)
    (hv : v = (xs.map fun x => x.scaled (minExp xs 1024)).sum) : sumX mode xs =
      if v = 0 then (.fin (zeroSign mode xs) 0 0 false, {}) else (.fin (decide (v < 0)) v.natAbs (minExp xs 1024) false, {}) := by
  have hfold : xs.foldl (fun (a : Int) x => a + x.scaled (minExp xs 1024)) 0 = v := by rw [foldl_add_eq_sum, hv, zero_add]
  simp only [sumX, any_isNan_false h, any_inf, hinf, decide_false, Bool.and_self, Bool.false_eq_true, if_false, hfold]
  rfl

end

/-- A sum is the exact total of its terms. -/
theorem sumX_right (mode : Nat) (xs : List XVal) : SumsRight mode xs := by
  refine ⟨fun hnan => ⟨_, sumX_nan mode hnan, ?_⟩, fun h => ⟨sumX_infs mode h, fun n => sumX_inf mode h, fun hinf k total hk hk0 htotal => ?_⟩⟩
  · simp [and_comm]
  · have hle := le_minExp hk hk0
    obtain ⟨v, hv⟩ : ∃ v, v = (xs.map fun x => x.scaled (minExp xs 1024)).sum := ⟨_, rfl⟩
    have hpow : (0 : Int) < 2 ^ (minExp xs 1024 - k).toNat := by positivity
    have hscale : total = v * 2 ^ (minExp xs 1024 - k).toNat := by
      rw [htotal, hv, sum_scaled_finer hle fun n m e st hx hm => minExp_le hx hm 1024]
    have hzero : total = 0 ↔ v = 0 := by rw [hscale, mul_eq_zero, or_iff_left hpow.ne']
    rw [sumX_finite mode h hinf v hv]
    refine ⟨fun hne => ?_, fun hz => ?_⟩
    · have hsign : v < 0 ↔ total < 0 := by rw [hscale, mul_neg_iff]; simp [hpow, hpow.le.not_gt]
      refine ⟨v.natAbs, minExp xs 1024, ?_, hle, ?_⟩
      · rw [if_neg fun hv0 => hne (hzero.mpr hv0)]
        simp only [hsign]
      · rw [hscale, Int.natAbs_mul, Int.natAbs_pow]; rfl
    · rw [if_pos (hzero.mp hz)]
      have hall : ∀ z, xs.all (isZero z) = true ↔ ∀ x ∈ xs, ∃ e st, x = .fin z 0 e st := fun z => by simp only [List.all_eq_true, isZero_iff]
      refine ⟨zeroSign mode xs, rfl, fun hnil => by subst hnil; rfl, fun z hz hne => ?_, fun hmixed => ?_⟩
      · have hz' := (hall z).mpr hz
        cases z
        case false => rw [zeroSign, if_pos hz']
        case true =>
          have hnot : ¬xs.all (isZero false) = true := fun hf => by
            obtain ⟨x, hx⟩ := List.exists_mem_of_ne_nil xs hne
            obtain ⟨e, st, rfl⟩ := hz x hx
            obtain ⟨e', st', he⟩ := (hall false).mp hf _ hx
            cases he
          rw [zeroSign, if_neg hnot, if_pos hz']
      · have hnot : ∀ z, ¬xs.all (isZero z) = true := fun z hz => by
          obtain ⟨x, hx, hother⟩ := hmixed z
          obtain ⟨e, st, he⟩ := (hall z).mp hz x hx
          exact hother e st he
        rw [zeroSign, if_neg (hnot false), if_neg (hnot true)]

/-! ## Products -/

theorem mul_right (a b : XVal) : ProductRight a b := by
  refine ⟨fun h => ?_, fun n z => ⟨?_, ?_, ?_⟩⟩
  · cases a with
    | nan s => rfl
    | inf | fin =>
      cases b with
      | nan s => rfl
      | inf | fin => rcases h with h | h <;> cases h
  · rintro rfl rfl; rfl
  · rintro m e st (⟨rfl, rfl⟩ | ⟨rfl, rfl⟩)
    · rfl
    · rw [show (n != z) = (z != n) from Bool.xor_comm n z]; rfl
  · rintro m e st m' e' st' rfl rfl; rfl

theorem mul_flags (a b : XVal) : ∃ nv, (a.mul b).2 = { nv := nv } := by
  cases a with
  | nan s => exact ⟨_, rfl⟩
  | inf n =>
    cases b with
    | nan | inf => exact ⟨_, rfl⟩
    | fin z m e st => by_cases hm : m = 0 <;> simp [XVal.mul, hm]
  | fin n m e st =>
    cases b with
    | nan | fin => exact ⟨_, rfl⟩
    | inf z => by_cases hm : m = 0 <;> simp [XVal.mul, hm]

theorem sumX_flags (mode : Nat) (xs : List XVal) : ∃ nv, (sumX mode xs).2 = { nv := nv } := by
  by_cases hnan : ∃ x ∈ xs, x.isNan = true
  · exact ⟨_, by rw [sumX_nan mode hnan]⟩
  · have h : ∀ x ∈ xs, x.isNan = false := fun x hx => by simpa using fun hb => hnan ⟨x, hx, hb⟩
    by_cases hinf : ∃ n, XVal.inf n ∈ xs
    · obtain ⟨n, hn⟩ := hinf
      by_cases hother : XVal.inf (!n) ∈ xs
      · have hboth : XVal.inf true ∈ xs ∧ XVal.inf false ∈ xs := by cases n <;> exact ⟨‹_›, ‹_›⟩
        exact ⟨true, by rw [sumX_infs mode h hboth.1 hboth.2]⟩
      · exact ⟨false, by rw [sumX_inf mode h hn hother]⟩
    · refine ⟨false, ?_⟩
      rw [sumX_finite mode h (not_exists.mp hinf) _ rfl]
      split <;> rfl

theorem fmaX_right (mode : Nat) (a b c : XVal) (np nc : Bool) {p r : XVal × Flags} (hp : p = a.mul b)
    (hr : r = sumX mode [if np then p.1.neg else p.1, if nc then c.neg else c]) :
    (fmaX mode a b c np nc).1 = r.1 ∧ (fmaX mode a b c np nc).2 = { nv := p.2.nv || r.2.nv || c.snan } := by
  obtain ⟨x, hx⟩ := mul_flags a b
  obtain ⟨y, hy⟩ := sumX_flags mode [if np then p.1.neg else p.1, if nc then c.neg else c]
  rw [← hp] at hx
  rw [← hr] at hy
  have hfma : fmaX mode a b c np nc = (r.1, (p.2.or r.2).or (snanFlags [c])) := by rw [hr, hp]; rfl
  rw [hfma, hx, hy]
  refine ⟨rfl, ?_⟩
  simp [Flags.or, snanFlags]

end Sys2Proof.Proofs
end

section
/-! PROOFS. The floating-point formats with infinities (R102): their bit fields, what a pattern stands for, its class (R169) and its sign
(R167). -/

namespace Sys2Proof.Proofs

open Sys2Proof.Machine Sys2Proof.Safety Sys2Proof.Laws

/-- A format with infinities and NaNs, of two exponent bits and one fraction bit at least. -/
structure Ieee (F : FloatFmt) : Prop where
  special : F.special = true
  two_le_exp : 2 ≤ F.exp
  one_le_frac : 1 ≤ F.frac

theorem ieee_of_mem {F : FloatFmt} (h : F ∈ [fp32, fp16, bf16, e8m10]) : Ieee F := by
  simp only [List.mem_cons, List.not_mem_nil, or_false] at h
  rcases h with rfl | rfl | rfl | rfl <;> exact ⟨rfl, by decide, by decide⟩

section
variable {F : FloatFmt}

/-! ## Constants of a format -/

theorem Ieee.pow_exp (hF : Ieee F) : 2 ^ F.exp = 2 * F.bias + 2 := by
  have hpos : 0 < 2 ^ (F.exp - 1) := Nat.two_pow_pos _
  have hdouble : 2 ^ F.exp = 2 * 2 ^ (F.exp - 1) := by
    rw [← pow_succ', Nat.sub_add_cancel (by have := hF.two_le_exp; omega)]
  rw [hdouble, FloatFmt.bias]
  omega

theorem Ieee.one_le_bias (hF : Ieee F) : 1 ≤ F.bias := by
  have : 2 ^ 1 ≤ 2 ^ (F.exp - 1) := Nat.pow_le_pow_right (by decide) (by have := hF.two_le_exp; omega)
  rw [FloatFmt.bias]
  omega

theorem Ieee.emax_eq (hF : Ieee F) : F.emax = F.bias := by
  rw [FloatFmt.emax, hF.special, if_pos rfl, hF.pow_exp]
  omega

theorem Ieee.pow_frac (hF : Ieee F) : ∃ h, 2 ^ F.frac = 2 * h ∧ 0 < h :=
  ⟨2 ^ (F.frac - 1), by rw [← pow_succ', Nat.sub_add_cancel hF.one_le_frac], Nat.two_pow_pos _⟩

/-- The patterns below this one are finite magnitudes, this one is infinity. -/
def infCode (F : FloatFmt) : Nat := (2 * F.bias + 1) * 2 ^ F.frac

theorem Ieee.max_false (hF : Ieee F) : F.max false = infCode F - 1 := by
  rw [FloatFmt.max, hF.special, hF.pow_exp, infCode]
  simp [FloatFmt.sign]

theorem infCode_pos (F : FloatFmt) : 0 < infCode F := Nat.mul_pos (Nat.succ_pos _) (Nat.two_pow_pos _)

/-! ## Fields of a pattern -/

theorem sign_eq (F : FloatFmt) (neg : Bool) : F.sign neg = neg.toNat * 2 ^ F.exp * 2 ^ F.frac := by
  cases neg
  · simp [FloatFmt.sign]
  · simp [FloatFmt.sign, pow_add]

theorem pattern_eq (F : FloatFmt) (neg : Bool) (E q : Nat) :
    F.sign neg + E * 2 ^ F.frac + q = (neg.toNat * 2 ^ F.exp + E) * 2 ^ F.frac + q := by rw [sign_eq, Nat.add_mul]

section
variable {neg : Bool} {E q : Nat} (hE : E < 2 ^ F.exp) (hq : q < 2 ^ F.frac)
include hq

theorem pattern_frac : (F.sign neg + E * 2 ^ F.frac + q) % 2 ^ F.frac = q := by
  rw [pattern_eq, Nat.mul_comm, Nat.mul_add_mod, Nat.mod_eq_of_lt hq]

theorem pattern_high : (F.sign neg + E * 2 ^ F.frac + q) / 2 ^ F.frac = neg.toNat * 2 ^ F.exp + E := by
  rw [pattern_eq, Nat.mul_comm, Nat.mul_add_div (Nat.two_pow_pos _), Nat.div_eq_of_lt hq, Nat.add_zero]

include hE

theorem pattern_exp : (F.sign neg + E * 2 ^ F.frac + q) / 2 ^ F.frac % 2 ^ F.exp = E := by
  rw [pattern_high hq, Nat.mul_comm, Nat.mul_add_mod, Nat.mod_eq_of_lt hE]

theorem pattern_sign : (F.sign neg + E * 2 ^ F.frac + q) / 2 ^ (F.exp + F.frac) = neg.toNat := by
  rw [Nat.add_comm F.exp, pow_add, ← Nat.div_div_eq_div_mul, pattern_high hq, Nat.mul_comm, Nat.mul_add_div (Nat.two_pow_pos _),
    Nat.div_eq_of_lt hE, Nat.add_zero]

theorem pattern_magnitude_lt : E * 2 ^ F.frac + q < 2 ^ (F.exp + F.frac) := by
  rw [pow_add]
  calc E * 2 ^ F.frac + q < (E + 1) * 2 ^ F.frac := by rw [Nat.add_mul, Nat.one_mul]; omega
    _ ≤ 2 ^ F.exp * 2 ^ F.frac := Nat.mul_le_mul_right _ hE

theorem pattern_magnitude : (F.sign neg + E * 2 ^ F.frac + q) % 2 ^ (F.exp + F.frac) = E * 2 ^ F.frac + q := by
  have hlt := pattern_magnitude_lt hE hq
  rw [sign_eq, Nat.add_assoc, Nat.mul_assoc, ← pow_add, Nat.mul_comm, Nat.mul_add_mod, Nat.mod_eq_of_lt hlt]

end

/-- Every pattern has a sign, an exponent field and a fraction. -/
theorem pattern_exists {b : Nat} (hb : b < 2 ^ (1 + F.exp + F.frac)) :
    ∃ neg E q, E < 2 ^ F.exp ∧ q < 2 ^ F.frac ∧ b = F.sign neg + E * 2 ^ F.frac + q := by
  have hfrac := Nat.div_add_mod b (2 ^ F.frac)
  have hexp := Nat.div_add_mod (b / 2 ^ F.frac) (2 ^ F.exp)
  have hbit : b / 2 ^ F.frac / 2 ^ F.exp < 2 := by
    have hwidth : F.frac + F.exp + 1 = 1 + F.exp + F.frac := by omega
    rw [Nat.div_div_eq_div_mul, Nat.div_lt_iff_lt_mul (by positivity), ← pow_add, ← pow_succ', hwidth]
    exact hb
  refine ⟨decide (b / 2 ^ F.frac / 2 ^ F.exp = 1), b / 2 ^ F.frac % 2 ^ F.exp, b % 2 ^ F.frac, Nat.mod_lt _ (Nat.two_pow_pos _),
    Nat.mod_lt _ (Nat.two_pow_pos _), ?_⟩
  have hneg : (decide (b / 2 ^ F.frac / 2 ^ F.exp = 1)).toNat = b / 2 ^ F.frac / 2 ^ F.exp := by
    rcases Nat.lt_succ_iff_lt_or_eq.mp hbit with h | h
    · simp [Nat.lt_one_iff.mp h]
    · simp [h]
  rw [pattern_eq, hneg, Nat.mul_comm _ (2 ^ F.exp), hexp, Nat.mul_comm, hfrac]

/-! ## Value, class and sign -/

section
variable {neg : Bool} {E q : Nat}

theorem Ieee.value_pattern (hF : Ieee F) (hE : E < 2 ^ F.exp) (hq : q < 2 ^ F.frac) :
    F.value (F.sign neg + E * 2 ^ F.frac + q) =
      if E = 2 ^ F.exp - 1 then (if q = 0 then .inf neg else .nan (decide (q / 2 ^ (F.frac - 1) = 0)))
      else if E = 0 then .fin neg q F.unit false else .fin neg (q + 2 ^ F.frac) (F.unit + (E : Int) - 1) false := by
  have hneg : decide (neg.toNat % 2 = 1) = neg := by cases neg <;> rfl
  simp only [FloatFmt.value, pattern_sign hE hq, pattern_exp hE hq, pattern_frac hq, hF.special, Bool.true_and, decide_eq_true_eq, hneg]
  rfl

theorem Ieee.cls_pattern (hF : Ieee F) (hE : E < 2 ^ F.exp) (hq : q < 2 ^ F.frac) :
    F.cls (F.sign neg + E * 2 ^ F.frac + q) = classCode F neg E q := by
  have hpos : 0 < 2 ^ F.frac := Nat.two_pow_pos _
  rw [FloatFmt.cls, hF.value_pattern hE hq, classCode]
  by_cases htop : E = 2 ^ F.exp - 1
  · by_cases hq0 : q = 0
    · simp only [if_pos htop, if_pos hq0]
    · simp only [if_pos htop, if_neg hq0, decide_eq_true_eq]
  · by_cases hE0 : E = 0
    · simp only [if_neg htop, if_pos hE0, if_pos hq]
    · simp only [if_neg htop, if_neg hE0, if_neg (show ¬q + 2 ^ F.frac = 0 by omega), if_neg (show ¬q + 2 ^ F.frac < 2 ^ F.frac by omega)]

theorem Ieee.signOp_nan (hF : Ieee F) (hE : E < 2 ^ F.exp) (hq : q < 2 ^ F.frac) (htop : E = 2 ^ F.exp - 1) (hq0 : q ≠ 0) (n : Bool) :
    F.signOp n (F.sign neg + E * 2 ^ F.frac + q) = (F.nan, { nv := decide (q / 2 ^ (F.frac - 1) = 0) }) := by
  rw [FloatFmt.signOp, hF.value_pattern hE hq, if_pos htop, if_neg hq0]

/-- Away from the NaNs a sign operation works on the sign bit alone. -/
theorem Ieee.signOp_pattern (hF : Ieee F) (hE : E < 2 ^ F.exp) (hq : q < 2 ^ F.frac) (h : E ≠ 2 ^ F.exp - 1 ∨ q = 0) (n : Bool) :
    F.signOp n (F.sign neg + E * 2 ^ F.frac + q) = (F.sign (n && !neg) + E * 2 ^ F.frac + q, {}) := by
  have hnan : ∀ sg, F.value (F.sign neg + E * 2 ^ F.frac + q) ≠ .nan sg := by
    intro sg
    rw [hF.value_pattern hE hq]
    rcases h with htop | hq0
    · rw [if_neg htop]; split <;> exact XVal.noConfusion
    · rw [if_pos hq0]; split
      · exact XVal.noConfusion
      · split <;> exact XVal.noConfusion
  have hsign : 0 < F.sign true := Nat.two_pow_pos _
  have hzero : F.sign false = 0 := rfl
  have hop : F.signOp n (F.sign neg + E * 2 ^ F.frac + q) =
      if n then (if E * 2 ^ F.frac + q = F.sign neg + E * 2 ^ F.frac + q then F.sign neg + E * 2 ^ F.frac + q + F.sign true
        else E * 2 ^ F.frac + q, {}) else (E * 2 ^ F.frac + q, {}) := by
    rw [FloatFmt.signOp, pattern_magnitude hE hq]
    split
    · next sg hsg => exact absurd hsg (hnan sg)
    · rfl
  rw [hop]
  cases n <;> cases neg <;> simp [hzero] <;> omega

end

/-! ## Magnitudes of codes -/

/-- The code j × 2^frac + q stands for q units of 2^j, the unit being that of the subnormals: for q below 2^frac when j is 0, and for q from
2^frac to 2 × 2^frac, the next code's unit included. -/
theorem Ieee.codeMag_eq (hF : Ieee F) {k : Int} (hk : k ≤ F.unit) {j q : Nat} (hq : q ≤ 2 * 2 ^ F.frac) (hj : j = 0 ∨ 2 ^ F.frac ≤ q)
    (hc : j * 2 ^ F.frac + q < infCode F) : codeMag F k (j * 2 ^ F.frac + q) = q * 2 ^ (F.unit + j - k).toNat := by
  have hpos : 0 < 2 ^ F.frac := Nat.two_pow_pos _
  have hmag : ∀ E f, E < 2 * F.bias + 1 → f < 2 ^ F.frac → j * 2 ^ F.frac + q = E * 2 ^ F.frac + f → codeMag F k (j * 2 ^ F.frac + q) =
      if E = 0 then f * 2 ^ (F.unit - k).toNat else (f + 2 ^ F.frac) * 2 ^ (F.unit + (E : Int) - 1 - k).toNat := by
    intro E f hE hf he
    have hE' : E < 2 ^ F.exp := by rw [hF.pow_exp]; omega
    have hpattern : j * 2 ^ F.frac + q = F.sign false + E * 2 ^ F.frac + f := by rw [he]; simp [FloatFmt.sign]
    rw [codeMag, hpattern, hF.value_pattern hE' hf, if_neg (by rw [hF.pow_exp]; omega)]
    by_cases hE0 : E = 0
    · rw [if_pos hE0, if_pos hE0]
    · rw [if_neg hE0, if_neg hE0]
  have hlt : ∀ E f, j * 2 ^ F.frac + q = E * 2 ^ F.frac + f → E < 2 * F.bias + 1 := by
    intro E f he
    have : E * 2 ^ F.frac < (2 * F.bias + 1) * 2 ^ F.frac := by rw [← infCode]; omega
    exact Nat.lt_of_mul_lt_mul_right this
  rcases Nat.lt_or_ge q (2 ^ F.frac) with hsmall | hlarge
  · have hj0 : j = 0 := hj.resolve_right (by omega)
    rw [hmag 0 q (by omega) hsmall (by rw [hj0]), if_pos rfl, hj0]
    simp
  · rcases Nat.lt_or_ge q (2 * 2 ^ F.frac) with hin | hend
    · have he : j * 2 ^ F.frac + q = (j + 1) * 2 ^ F.frac + (q - 2 ^ F.frac) := by rw [Nat.add_mul, Nat.one_mul]; omega
      rw [hmag _ _ (hlt _ _ he) (by omega) he, if_neg (by omega), Nat.sub_add_cancel hlarge]
      congr 2; omega
    · have hq2 : q = 2 * 2 ^ F.frac := by omega
      have he : j * 2 ^ F.frac + q = (j + 2) * 2 ^ F.frac + 0 := by rw [Nat.add_mul]; omega
      have hexp : (F.unit + ((j + 2 : Nat) : Int) - 1 - k).toNat = (F.unit + j - k).toNat + 1 := by omega
      rw [hmag _ _ (hlt _ _ he) hpos he, if_neg (by omega), hexp, pow_succ, hq2]
      ring

/-- Every finite magnitude has such a code. -/
theorem code_exists {c : Nat} (hc : c < infCode F) :
    ∃ j q, c = j * 2 ^ F.frac + q ∧ q < 2 * 2 ^ F.frac ∧ (j = 0 ∨ 2 ^ F.frac ≤ q) ∧ j ≤ 2 * F.bias - 1 := by
  have hpos : 0 < 2 ^ F.frac := Nat.two_pow_pos _
  have hcut := Nat.div_add_mod c (2 ^ F.frac)
  have hmod := Nat.mod_lt c hpos
  have hE : c / 2 ^ F.frac < 2 * F.bias + 1 := (Nat.div_lt_iff_lt_mul hpos).mpr hc
  rcases Nat.eq_zero_or_pos (c / 2 ^ F.frac) with h0 | h0
  · rw [h0, Nat.mul_zero] at hcut
    exact ⟨0, c, by omega, by omega, .inl rfl, by omega⟩
  · have hE1 : c / 2 ^ F.frac = c / 2 ^ F.frac - 1 + 1 := by omega
    refine ⟨c / 2 ^ F.frac - 1, c % 2 ^ F.frac + 2 ^ F.frac, ?_, by omega, .inr (by omega), by omega⟩
    rw [hE1, Nat.mul_add] at hcut
    rw [Nat.mul_comm (c / 2 ^ F.frac - 1)]
    omega

end

end Sys2Proof.Proofs
end

section
/-! PROOFS. Rounding into a format with infinities (R106, R107): where a magnitude lies among the codes, and what `round` makes of it. -/

namespace Sys2Proof.Proofs

open Sys2Proof.Machine Sys2Proof.Safety Sys2Proof.Laws

/-! ## Where a magnitude lies -/

/-- The leading bit of m × 2^e is that of 2^top. -/
theorem lead_bounds {m : Nat} {e k top : Int} (hm : m ≠ 0) (htop : top = e + (bitLen m : Int) - 1) (hk : k ≤ e) :
    k ≤ top ∧ 2 ^ (top - k).toNat ≤ m * 2 ^ (e - k).toNat ∧ m * 2 ^ (e - k).toNat < 2 ^ (top + 1 - k).toNat := by
  obtain ⟨hlow, hhigh, hpos⟩ := bitLen_bounds hm
  have h1 : (top - k).toNat = bitLen m - 1 + (e - k).toNat := by omega
  have h2 : (top + 1 - k).toNat = bitLen m + (e - k).toNat := by omega
  rw [h1, h2, pow_add, pow_add]
  exact ⟨by omega, Nat.mul_le_mul_right _ hlow, Nat.mul_lt_mul_of_pos_right hhigh (Nat.two_pow_pos _)⟩

/-- From the powers of two, the exponents. -/
theorem exponent_lt {x y k : Int} {a : Nat} (hlow : 2 ^ (x - k).toNat ≤ a) (hhigh : a < 2 ^ (y - k).toNat) (hx : k ≤ x) : x < y := by
  have := (Nat.pow_lt_pow_iff_right (by decide)).mp (hlow.trans_lt hhigh)
  omega

section
variable {F : FloatFmt} {k top u : Int} {a : Nat}

/-- The unit in which a magnitude is rounded, and its place there among the codes. -/
theorem Ieee.place (hF : Ieee F) (hku : k ≤ F.unit) (hkt : k ≤ top) (hlow : 2 ^ (top - k).toNat ≤ a) (hhigh : a < 2 ^ (top + 1 - k).toNat)
    (hle : top ≤ F.bias) (hu : u = if F.unit ≤ top - F.frac then top - (F.frac : Int) else F.unit) :
    ∃ j : Nat, u = F.unit + j ∧ j ≤ 2 * F.bias - 1 ∧ a / 2 ^ (u - k).toNat < 2 * 2 ^ F.frac ∧
      (j = 0 ∨ 2 ^ F.frac ≤ a / 2 ^ (u - k).toNat) ∧ (j = 2 * F.bias - 1 ↔ top = F.bias) := by
  have hbias := hF.one_le_bias
  have hunit : F.unit = 1 - (F.bias : Int) - F.frac := rfl
  have hpos : 0 < 2 ^ (u - k).toNat := Nat.two_pow_pos _
  have hdouble : 2 * 2 ^ F.frac * 2 ^ (u - k).toNat = 2 ^ (F.frac + 1 + (u - k).toNat) := by rw [← pow_succ', ← pow_add]
  by_cases hnormal : F.unit ≤ top - F.frac
  · rw [if_pos hnormal] at hu
    refine ⟨(top - F.frac - F.unit).toNat, by omega, by omega, ?_, .inr ?_, by omega⟩
    · rw [Nat.div_lt_iff_lt_mul hpos, hdouble]
      exact hhigh.trans_le (Nat.pow_le_pow_right (by decide) (by omega))
    · rw [Nat.le_div_iff_mul_le hpos, ← pow_add]
      exact (Nat.pow_le_pow_right (by decide) (by omega)).trans hlow
  · rw [if_neg hnormal] at hu
    refine ⟨0, by omega, by omega, ?_, .inl rfl, by omega⟩
    rw [Nat.div_lt_iff_lt_mul hpos, hdouble]
    exact hhigh.trans_le (Nat.pow_le_pow_right (by decide) (by omega))

/-- The two ways to write the code of infinity. -/
theorem Ieee.infCode_parts (hF : Ieee F) {j q : Nat} (hq : q ≤ 2 * 2 ^ F.frac) (hj : j = 0 ∨ 2 ^ F.frac ≤ q)
    (hc : j * 2 ^ F.frac + q = infCode F) : (q = 2 ^ F.frac ∧ j = 2 * F.bias) ∨ (q = 2 * 2 ^ F.frac ∧ j = 2 * F.bias - 1) := by
  have hpos : 0 < 2 ^ F.frac := Nat.two_pow_pos _
  have hbias := hF.one_le_bias
  rw [infCode] at hc
  have hjle : j ≤ 2 * F.bias + 1 := by
    refine Nat.le_of_mul_le_mul_right ?_ hpos
    omega
  obtain ⟨d, hd⟩ : ∃ d, d + j = 2 * F.bias + 1 := ⟨2 * F.bias + 1 - j, by omega⟩
  have hqd : q = d * 2 ^ F.frac := by rw [← hd, Nat.add_mul] at hc; omega
  have hd2 : d ≤ 2 := Nat.le_of_mul_le_mul_right (hqd ▸ hq) hpos
  have hd1 : 1 ≤ d := by
    refine Nat.one_le_iff_ne_zero.mpr ?_
    rintro rfl
    rcases hj with rfl | hj
    · omega
    · rw [Nat.zero_mul] at hqd; omega
  interval_cases d
  · exact .inl ⟨by omega, by omega⟩
  · exact .inr ⟨hqd, by omega⟩

/-- At the code of infinity the magnitude is OVER. -/
theorem Ieee.over_eq (hF : Ieee F) (hk : k ≤ F.unit) {j q : Nat} (hq : q ≤ 2 * 2 ^ F.frac) (hj : j = 0 ∨ 2 ^ F.frac ≤ q)
    (hc : j * 2 ^ F.frac + q = infCode F) : q * 2 ^ (F.unit + j - k).toNat = 2 ^ (F.emax + 1 - k).toNat := by
  have hbias := hF.one_le_bias
  have hunit : F.unit = 1 - (F.bias : Int) - F.frac := rfl
  rw [hF.emax_eq]
  rcases hF.infCode_parts hq hj hc with ⟨rfl, rfl⟩ | ⟨rfl, rfl⟩
  · rw [← pow_add]
    congr 1; omega
  · rw [← pow_succ', ← pow_add]
    congr 1; omega

/-- The magnitude after a code: the next code's, or OVER after the largest. -/
theorem Ieee.next_eq (hF : Ieee F) (hk : k ≤ F.unit) {j q limit : Nat} (hq : q < 2 * 2 ^ F.frac) (hj : j = 0 ∨ 2 ^ F.frac ≤ q)
    (hc : j * 2 ^ F.frac + q < infCode F) (hlimit : limit = 2 ^ (F.emax + 1 - k).toNat) :
    (if j * 2 ^ F.frac + q = F.max false then limit else codeMag F k (j * 2 ^ F.frac + q + 1)) = (q + 1) * 2 ^ (F.unit + j - k).toNat := by
  have hj' : j = 0 ∨ 2 ^ F.frac ≤ q + 1 := hj.imp_right (·.trans (Nat.le_succ q))
  have hmax := hF.max_false
  by_cases hlast : j * 2 ^ F.frac + q = F.max false
  · rw [if_pos hlast, hlimit, hF.over_eq hk hq hj' (by omega)]
  · rw [if_neg hlast]
    exact hF.codeMag_eq hk hq hj' (by omega)

end

/-! ## Tininess (R106) -/

/-- A magnitude above the middle of a span goes up when the same mode sends it up in a narrower span with the same upper end. -/
theorem goesUp_of_above_middle {mode : Nat} {neg h1 h2 up : Bool} {lo lo' a hi : Nat} (hmode : mode ≤ 4) (h : RoundsUp mode neg h1 lo' a hi true)
    (hup : RoundsUp mode neg h2 lo a hi up) (habove : hi - a < a - lo) : up = true := by
  obtain ⟨hnear, hzero, hupward, hdown, haway⟩ := hup
  interval_cases mode
  · exact (hnear rfl).mpr (.inl habove)
  · exact absurd (h.2.1 rfl) (by decide)
  · rw [hupward rfl, ← h.2.2.1 rfl]
  · rw [hdown rfl, ← h.2.2.2.1 rfl]
  · exact (haway rfl).mpr habove.le

section
variable {F : FloatFmt} {neg st : Bool} {m mode : Nat} {e top : Int} {seed : Word}

theorem tiny_lt (h : F.tiny neg m e st top mode seed = true) : top < 1 - (F.bias : Int) := by
  simp only [FloatFmt.tiny, decide_eq_true_eq] at h
  split at h <;> omega

/-- A magnitude that the subnormal grid keeps below the smallest normal is tiny. -/
theorem tiny_of_subnormal (hm : m ≠ 0) (hmode : mode ≤ 4) (htop : top = e + (bitLen m : Int) - 1) {q : Nat} {up : Bool}
    (hq : q = (splitAt m e false F.unit).1) (hup : up = roundUp mode seed neg (decide (q % 2 = 1)) (splitAt m e false F.unit).2)
    (hbelow : (if up then q + 1 else q) < 2 ^ F.frac) : F.tiny neg m e false top mode seed = true := by
  obtain ⟨k, hk⟩ : ∃ k, k = min e (F.unit - 1) := ⟨_, rfl⟩
  obtain ⟨a, ha⟩ : ∃ a, a = m * 2 ^ (e - k).toNat := ⟨_, rfl⟩
  obtain ⟨V, hV⟩ : ∃ V, V = 2 ^ (F.unit - 1 - k).toNat := ⟨_, rfl⟩
  have hunit : F.unit = 1 - (F.bias : Int) - F.frac := rfl
  have hVpos : 0 < V := hV ▸ Nat.two_pow_pos _
  have hU : V * 2 = 2 ^ (F.unit - k).toNat := by
    rw [hV, ← pow_succ]
    congr 1; omega
  obtain ⟨hq0, -, hcoarse⟩ := splitAt_spec (m := m) (e := e) (u := F.unit) (k := k) (by omega) (by omega) a (V * 2) ha hU
  obtain ⟨hq1, hrest, hfine⟩ := splitAt_spec (m := m) (e := e) (u := F.unit - 1) (k := k) (by omega) (by omega) a V ha hV
  have hcoarse := hcoarse mode seed neg (decide (q % 2 = 1))
  rw [← hup] at hcoarse
  rw [hq0] at hq
  have hqB : q + 1 ≤ 2 ^ F.frac := by split at hbelow <;> omega
  have hlt : a < 2 ^ F.frac * (V * 2) := by
    calc a < (q + 1) * (V * 2) := by rw [hq, Nat.add_mul, Nat.one_mul]; exact Nat.lt_div_mul_add (by omega)
      _ ≤ 2 ^ F.frac * (V * 2) := Nat.mul_le_mul_right _ hqB
  obtain ⟨hkt, hlow, -⟩ := lead_bounds hm htop (show k ≤ e by omega)
  rw [← ha] at hlow
  have hsub : top < F.unit + F.frac := by
    refine exponent_lt hlow ?_ hkt
    have hexp : (F.unit + F.frac - k).toNat = F.frac + (F.unit - k).toNat := by omega
    rwa [hexp, pow_add, ← hU]
  simp only [FloatFmt.tiny, decide_eq_true_eq]
  by_cases hdeep : top + 1 < 1 - (F.bias : Int)
  · split <;> omega
  · have hgrid : top - F.frac = F.unit - 1 := by omega
    rw [hgrid, hq1, if_neg]
    · omega
    · intro hcarry
      have hin : a / V < 2 * 2 ^ F.frac := by
        rw [Nat.div_lt_iff_lt_mul hVpos]
        calc a < 2 ^ F.frac * (V * 2) := hlt
          _ = 2 * 2 ^ F.frac * V := by ring
      have hgoes : (!(splitAt m e false (F.unit - 1)).2.none? &&
          roundUp mode seed neg (decide (a / V % 2 = 1)) (splitAt m e false (F.unit - 1)).2) = true := by
        by_contra hn
        rw [if_neg hn, pow_succ'] at hcarry
        omega
      rw [if_pos hgoes, pow_succ'] at hcarry
      obtain ⟨hsome, hround⟩ := (Bool.and_eq_true _ _).mp hgoes
      have hfine := hfine mode seed neg (decide (a / V % 2 = 1))
      have hover : ¬a % V = 0 := by simpa [hrest] using hsome
      have hhalf : a / (V * 2) = 2 ^ F.frac - 1 := by rw [← Nat.div_div_eq_div_mul]; omega
      have hBpos : 0 < 2 ^ F.frac := Nat.two_pow_pos _
      have hcut := Nat.div_add_mod a V
      have hmod := Nat.mod_lt a hVpos
      have h2 : a / V = 2 * 2 ^ F.frac - 1 := by omega
      have hhi : (2 ^ F.frac - 1 + 1) * (V * 2) = (2 * 2 ^ F.frac - 1 + 1) * V := by
        rw [Nat.sub_add_cancel hBpos, Nat.sub_add_cancel (by omega)]; ring
      have hmul : V * (2 * 2 ^ F.frac - 1) + V = (2 * 2 ^ F.frac - 1 + 1) * V := by rw [Nat.add_mul, Nat.one_mul, Nat.mul_comm]
      have hlo : (2 ^ F.frac - 1) * (V * 2) + V = V * (2 * 2 ^ F.frac - 1) := by
        have : 2 * 2 ^ F.frac - 1 = 2 * (2 ^ F.frac - 1) + 1 := by omega
        rw [this]; ring
      rw [h2] at hcut
      rw [hround, h2] at hfine
      rw [hhalf, hhi] at hcoarse
      have := goesUp_of_above_middle hmode hfine hcoarse (by omega)
      rw [this, if_pos rfl] at hbelow
      omega

end

end Sys2Proof.Proofs
end

section
/-! PROOFS. `round` brings a magnitude into a format with infinities as R106 and R107 say. -/

namespace Sys2Proof.Proofs

open Sys2Proof.Machine Sys2Proof.Safety Sys2Proof.Laws

section
variable {F : FloatFmt} {neg : Bool} {m mode j q : Nat} {e top u : Int} {seed : Word} {up : Bool}

/-- `round` of a magnitude below 2^(emax + 1), its unit u, its whole units q and the mode's word `up` given. -/
theorem round_eq (hm : m ≠ 0) (htop : top = e + (bitLen m : Int) - 1) (hfin : ¬F.emax < top)
    (hu : u = if F.unit ≤ top - F.frac then top - (F.frac : Int) else F.unit) (hj : u = F.unit + j) (hq : q = (splitAt m e false u).1)
    (hup : up = roundUp mode seed neg (decide (q % 2 = 1)) (splitAt m e false u).2) :
    F.round (.fin neg m e false) mode seed =
      if (splitAt m e false u).2.none? then (F.sign neg + (j * 2 ^ F.frac + q), {})
      else if (if up then q + 1 else q) = 2 ^ (F.frac + 1) ∧ top = F.emax then F.overflow neg mode
      else (F.sign neg + (j * 2 ^ F.frac + (if up then q + 1 else q)),
        { nx := true, uf := decide ((if up then q + 1 else q) ≠ 0) && F.tiny neg m e false top mode seed }) := by
  have hexp : (F.unit + (j : Int) - F.unit).toNat = j := by omega
  simp only [FloatFmt.round, if_neg hm, ← htop, if_neg hfin, ← hu, ← hq, ← hup]
  rw [hj, hexp]
  simp only [Nat.add_assoc]

theorem round_overflows (hm : m ≠ 0) (htop : top = e + (bitLen m : Int) - 1) (hover : F.emax < top) :
    F.round (.fin neg m e false) mode seed = F.overflow neg mode := by
  simp only [FloatFmt.round, if_neg hm, ← htop, if_pos hover]

theorem round_zero : F.round (.fin neg 0 e false) mode seed = (F.sign neg, {}) := rfl

/-- Zero keeps its sign, below the smallest subnormal. -/
theorem Ieee.round_zero_right (hF : Ieee F) : RoundsRight F neg 0 e mode seed := by
  intro k a limit r hk ha hlimit hr
  have hku : k ≤ F.unit := by omega
  have hlimpos : 0 < limit := hlimit ▸ Nat.two_pow_pos _
  have hinf := infCode_pos F
  rw [Nat.zero_mul] at ha
  have hmag : codeMag F k 0 = 0 := by
    have := hF.codeMag_eq hku (j := 0) (q := 0) (by omega) (.inl rfl) (by omega)
    simpa using this
  have hnext := hF.next_eq hku (j := 0) (q := 0) (by have := Nat.two_pow_pos F.frac; omega) (.inl rfl) (by omega) hlimit
  simp only [Nat.zero_mul, Nat.zero_add] at hnext
  refine ⟨fun h => absurd h (by omega), fun _ => ⟨0, _, Nat.zero_le _, rfl, by omega, ?_, fun _ => hr.trans round_zero,
    fun h => absurd h (by omega)⟩⟩
  rw [ha, hnext, Nat.one_mul]
  exact Nat.two_pow_pos _

/-- The codes up to infinity's: a last full binade above the others. -/
theorem Ieee.infCode_split (hF : Ieee F) : infCode F = (2 * F.bias - 1) * 2 ^ F.frac + 2 * 2 ^ F.frac := by
  have hbias := hF.one_le_bias
  rw [infCode, ← Nat.add_mul]
  congr 1; omega

/-- Rounding carries out of the last binade just when it reaches the code of infinity. -/
theorem Ieee.carry_iff (hF : Ieee F) (hq : q < 2 * 2 ^ F.frac) (hjq : j = 0 ∨ 2 ^ F.frac ≤ q) (hj : j ≤ 2 * F.bias - 1)
    (hlast : j = 2 * F.bias - 1 ↔ top = F.bias) :
    (if up then q + 1 else q) = 2 ^ (F.frac + 1) ∧ top = F.emax ↔ j * 2 ^ F.frac + (if up then q + 1 else q) = infCode F := by
  have hbias := hF.one_le_bias
  rw [hF.emax_eq, ← hlast, pow_succ']
  refine ⟨fun ⟨hcarry, hend⟩ => by rw [hcarry, hend, hF.infCode_split], fun hcode => ?_⟩
  have hle : (if up then q + 1 else q) ≤ 2 * 2 ^ F.frac := by split <;> omega
  have hge : j = 0 ∨ 2 ^ F.frac ≤ (if up then q + 1 else q) := by rcases hjq with h | h; exact .inl h; right; split <;> omega
  exact (hF.infCode_parts hle hge hcode).resolve_left fun h => by omega

end

/-- `round` of an exact magnitude into a format with infinities (R106, R107). -/
theorem Ieee.round_right {F : FloatFmt} (hF : Ieee F) (neg : Bool) (m : Nat) (e : Int) (mode : Nat) (seed : Word) :
    RoundsRight F neg m e mode seed := by
  intro k a limit r hk ha hlimit hr
  have hku : k ≤ F.unit := by omega
  have hke : k ≤ e := by omega
  by_cases hm : m = 0
  · subst hm
    exact hF.round_zero_right k a limit r hk ha hlimit hr
  obtain ⟨top, htop⟩ : ∃ top, top = e + (bitLen m : Int) - 1 := ⟨_, rfl⟩
  obtain ⟨hkt, hlow, hhigh⟩ := lead_bounds hm htop hke
  rw [← ha] at hlow hhigh
  have hemax := hF.emax_eq
  have hunit : F.unit = 1 - (F.bias : Int) - F.frac := rfl
  refine ⟨fun hover => ?_, fun hin => ?_⟩
  · rw [hlimit] at hover
    have := exponent_lt hover hhigh (by omega)
    rw [hr, round_overflows hm htop (by omega)]
  · rw [hlimit] at hin
    have hfin : top < F.emax + 1 := exponent_lt hlow hin hkt
    obtain ⟨u, hu⟩ : ∃ u, u = if F.unit ≤ top - F.frac then top - (F.frac : Int) else F.unit := ⟨_, rfl⟩
    obtain ⟨j, huj, hj, hq2, hjq, hlast⟩ := hF.place hku hkt hlow hhigh (by omega) hu
    obtain ⟨U, hU⟩ : ∃ U, U = 2 ^ (u - k).toNat := ⟨_, rfl⟩
    obtain ⟨hq, hexact, hround⟩ := splitAt_spec (m := m) hke (show k ≤ u by omega) a U ha hU
    obtain ⟨q, hqdef⟩ : ∃ q, q = a / U := ⟨_, rfl⟩
    rw [← hU, ← hqdef] at hq2 hjq
    rw [← hqdef] at hq hround
    obtain ⟨up, hup⟩ : ∃ up, up = roundUp mode seed neg (decide (q % 2 = 1)) (splitAt m e false u).2 := ⟨_, rfl⟩
    have hB : 0 < 2 ^ F.frac := Nat.two_pow_pos _
    have hbias := hF.one_le_bias
    have hUpos : 0 < U := hU ▸ Nat.two_pow_pos _
    have hc : j * 2 ^ F.frac + q < infCode F := by
      have hmul : j * 2 ^ F.frac ≤ (2 * F.bias - 1) * 2 ^ F.frac := Nat.mul_le_mul_right _ hj
      have hsplit := hF.infCode_split
      omega
    have hmax := hF.max_false
    have hUj : 2 ^ (F.unit + (j : Int) - k).toNat = U := by rw [hU, huj]
    have hmag := hF.codeMag_eq hku hq2.le hjq hc
    have hnext := hF.next_eq hku hq2 hjq hc hlimit
    rw [hUj] at hmag hnext
    have heven : decide (q % 2 = 1) = decide ((j * 2 ^ F.frac + q + 1) % 2 = 0) := by
      obtain ⟨h, hh, -⟩ := hF.pow_frac
      have : j * 2 ^ F.frac = 2 * (j * h) := by rw [hh]; ring
      rw [decide_eq_decide]; omega
    have hcut := Nat.div_add_mod a U
    have hmod := Nat.mod_lt a hUpos
    rw [← hqdef, Nat.mul_comm] at hcut
    have hr' := round_eq (neg := neg) (mode := mode) (seed := seed) hm htop (by omega) hu huj hq.symm hup
    rw [← hr, hexact] at hr'
    refine ⟨j * 2 ^ F.frac + q, _, by omega, rfl, by omega, ?_, fun heq => ?_, fun hlt => ⟨up, ?_, fun hgoes hend => ?_, fun p hp hple => ?_⟩⟩
    · rw [hnext, Nat.add_mul, Nat.one_mul]; omega
    · have h0 : a % U = 0 := by omega
      rw [hr', if_pos (decide_eq_true h0)]
    · rw [hmag, hnext, ← heven, hup]
      exact hround mode seed neg _
    all_goals
      have hsome : ¬decide (a % U = 0) = true := by rw [decide_eq_true_eq]; omega
      rw [if_neg hsome] at hr'
    · have hcode : j * 2 ^ F.frac + (if up then q + 1 else q) = infCode F := by rw [if_pos hgoes]; omega
      rw [hr', if_pos ((hF.carry_iff hq2 hjq hj hlast).mpr hcode)]
    · have hpq : p = j * 2 ^ F.frac + (if up then q + 1 else q) := by rw [hp]; cases up <;> rfl
      have hnot : ¬((if up then q + 1 else q) = 2 ^ (F.frac + 1) ∧ top = F.emax) := fun h => by
        have := (hF.carry_iff hq2 hjq hj hlast).mp h
        omega
      rw [if_neg hnot, ← hpq] at hr'
      rw [hr']
      refine ⟨rfl, rfl, rfl, fun huf => ?_, fun hmode hp0 hpB => ?_⟩
      · have htiny := tiny_lt ((Bool.and_eq_true _ _).mp huf).2
        exact hhigh.trans_le (Nat.pow_le_pow_right (by decide) (by omega))
      · have hj0 : j = 0 := by
          by_contra hne
          have := Nat.le_mul_of_pos_left (2 ^ F.frac) (Nat.pos_of_ne_zero hne)
          omega
        have hu0 : u = F.unit := by omega
        rw [hj0, Nat.zero_mul, Nat.zero_add] at hpq
        rw [hu0] at hq hup
        have htiny := tiny_of_subnormal hm hmode htop hq.symm hup (hpq ▸ hpB)
        simp only [Bool.and_eq_true, decide_eq_true_eq]
        exact ⟨by omega, htiny⟩

end Sys2Proof.Proofs
end

section
/-! PROOFS. The lesser and the greater of two elements (R166): the order of the patterns is the order of their values. -/

namespace Sys2Proof.Proofs

open Sys2Proof.Machine Sys2Proof.Safety Sys2Proof.Laws

section
variable {F : FloatFmt}

/-! ## Values in units of the smallest subnormal -/

/-- OVER in units of the smallest subnormal. -/
def overUnits (F : FloatFmt) : Nat := 2 ^ (F.emax + 1 - F.unit).toNat

/-- A value in those units, an infinity lying past OVER. -/
def level (F : FloatFmt) : XVal → Int
  | .nan _ => 0
  | .inf n => if n then -((overUnits F : Int) + 1) else (overUnits F : Int) + 1
  | x => x.scaled F.unit

theorem level_inf (F : FloatFmt) (n : Bool) :
    level F (.inf n) = if n then -((overUnits F : Int) + 1) else (overUnits F : Int) + 1 := rfl

theorem compare_inf_inf (n n' : Bool) : (XVal.inf n).compare (.inf n') = if n = n' then .eq else if n then .lt else .gt := rfl

theorem compare_inf_fin (n n' : Bool) (m : Nat) (e : Int) (st : Bool) :
    (XVal.inf n).compare (.fin n' m e st) = if n then .lt else .gt := rfl

theorem compare_fin_inf (n n' : Bool) (m : Nat) (e : Int) (st : Bool) :
    (XVal.fin n m e st).compare (.inf n') = if n' then .gt else .lt := rfl

/-- The level of a magnitude code. -/
def codeLevel (F : FloatFmt) (c : Nat) : Nat := if c < infCode F then codeMag F F.unit c else overUnits F + 1

theorem Ieee.unit_le (hF : Ieee F) : F.unit ≤ 1024 := by
  have := hF.one_le_bias
  rw [FloatFmt.unit]
  omega

/-- Two finite values compare as their counts of any unit that measures both. -/
theorem compare_scaled {a b : XVal} {k e e' : Int} {n n' st st' : Bool} {m m' : Nat} (hk : k ≤ 1024) (ha : a = .fin n m e st)
    (hb : b = .fin n' m' e' st') (hea : k ≤ e) (heb : k ≤ e') :
    (a.compare b = .lt → a.scaled k < b.scaled k) ∧ (a.compare b = .gt → b.scaled k < a.scaled k) := by
  obtain ⟨e0, he0⟩ : ∃ e0, e0 = minExp [a, b] 1024 := ⟨_, rfl⟩
  have hterms : ∀ x ∈ [a, b], ∀ n m e st, x = .fin n m e st → k ≤ e := by
    intro x hx z i f s hz
    subst ha hb
    rcases List.mem_pair.mp hx with rfl | rfl <;> cases hz <;> assumption
  have hle : k ≤ e0 := he0 ▸ le_minExp (fun n m e st hx _ => hterms _ hx n m e st rfl) hk
  have hpow : (0 : Int) < 2 ^ (e0 - k).toNat := by positivity
  have hfiner : ∀ x ∈ [a, b], x.scaled k = x.scaled e0 * 2 ^ (e0 - k).toNat := fun x hx =>
    scaled_finer hle fun n m e st hz hm => he0 ▸ minExp_le (hz ▸ hx) hm 1024
  have hcompare : a.compare b = if a.scaled e0 < b.scaled e0 then .lt else if a.scaled e0 = b.scaled e0 then .eq else .gt := by
    subst ha hb he0; rfl
  rw [hfiner a (by simp), hfiner b (by simp), hcompare, Int.mul_lt_mul_right hpow, Int.mul_lt_mul_right hpow]
  split
  · next h => exact ⟨fun _ => h, nofun⟩
  · split
    · exact ⟨nofun, nofun⟩
    · exact ⟨nofun, fun _ => by omega⟩

theorem Ieee.codeMag_le_over (hF : Ieee F) {c : Nat} (hc : c < infCode F) : codeMag F F.unit c ≤ overUnits F := by
  obtain ⟨j, q, rfl, hq, hj, hjle⟩ := code_exists hc
  have hbias := hF.one_le_bias
  have hpos : 0 < 2 ^ F.frac := Nat.two_pow_pos _
  rw [hF.codeMag_eq le_rfl hq.le hj hc, overUnits, ← hF.over_eq le_rfl le_rfl (.inr (by omega)) hF.infCode_split.symm]
  exact Nat.mul_le_mul hq.le (Nat.pow_le_pow_right (by decide) (by omega))

theorem Ieee.codeMag_le_succ (hF : Ieee F) {c : Nat} (hc : c + 1 < infCode F) : codeMag F F.unit c ≤ codeMag F F.unit (c + 1) := by
  obtain ⟨j, q, rfl, hq, hj, -⟩ := code_exists (Nat.lt_of_succ_lt hc)
  rw [hF.codeMag_eq le_rfl hq.le hj (Nat.lt_of_succ_lt hc), Nat.add_assoc,
    hF.codeMag_eq le_rfl hq (hj.imp_right (·.trans (Nat.le_succ q))) hc]
  exact Nat.mul_le_mul_right _ (Nat.le_succ q)

theorem Ieee.codeLevel_mono (hF : Ieee F) : Monotone (codeLevel F) := by
  refine monotone_nat_of_le_succ fun c => ?_
  rw [codeLevel, codeLevel]
  by_cases h1 : c + 1 < infCode F
  · rw [if_pos (Nat.lt_of_succ_lt h1), if_pos h1]
    exact hF.codeMag_le_succ h1
  · rw [if_neg h1]
    split
    · next h => exact (hF.codeMag_le_over h).trans (Nat.le_succ _)
    · exact le_rfl

/-! ## Patterns in order -/

/-- The order of sign and magnitude, −0 below +0. -/
def orderKey (F : FloatFmt) (b : Nat) : Int :=
  if b / 2 ^ (F.exp + F.frac) % 2 = 1 then -((b % 2 ^ (F.exp + F.frac) : Nat) : Int) - 1 else (b % 2 ^ (F.exp + F.frac) : Nat)

section
variable {neg : Bool} {E q : Nat} (hE : E < 2 ^ F.exp) (hq : q < 2 ^ F.frac)
include hE hq

theorem orderKey_pattern : orderKey F (F.sign neg + E * 2 ^ F.frac + q) =
    if neg then -((E * 2 ^ F.frac + q : Nat) : Int) - 1 else (E * 2 ^ F.frac + q : Nat) := by
  rw [orderKey, pattern_sign hE hq, pattern_magnitude hE hq]
  cases neg <;> rfl

theorem Ieee.finite_code_lt (hF : Ieee F) (htop : E ≠ 2 ^ F.exp - 1) : E * 2 ^ F.frac + q < infCode F := by
  have hpow := hF.pow_exp
  rw [infCode]
  calc E * 2 ^ F.frac + q < (E + 1) * 2 ^ F.frac := by rw [Nat.add_mul, Nat.one_mul]; omega
    _ ≤ (2 * F.bias + 1) * 2 ^ F.frac := Nat.mul_le_mul_right _ (by omega)

theorem Ieee.level_pattern (hF : Ieee F) (hnan : (F.value (F.sign neg + E * 2 ^ F.frac + q)).isNan = false) :
    level F (F.value (F.sign neg + E * 2 ^ F.frac + q)) =
      if neg then -(codeLevel F (E * 2 ^ F.frac + q) : Int) else codeLevel F (E * 2 ^ F.frac + q) := by
  have hmagnitude : E * 2 ^ F.frac + q = F.sign false + E * 2 ^ F.frac + q := by simp [FloatFmt.sign]
  have hpow := hF.pow_exp
  rw [hF.value_pattern hE hq] at hnan ⊢
  by_cases htop : E = 2 ^ F.exp - 1
  · rw [if_pos htop] at hnan ⊢
    by_cases hq0 : q = 0
    · have hcode : E * 2 ^ F.frac + q = infCode F := by rw [hq0, htop, hpow, infCode]; rfl
      rw [if_pos hq0, codeLevel, hcode, if_neg (lt_irrefl _)]
      cases neg <;> rfl
    · rw [if_neg hq0] at hnan; cases hnan
  · have hlt := hF.finite_code_lt hE hq htop
    rw [if_neg htop, codeLevel, if_pos hlt, codeMag, hmagnitude, hF.value_pattern hE hq, if_neg htop]
    by_cases hE0 : E = 0
    · simp only [if_pos hE0]; cases neg <;> rfl
    · simp only [if_neg hE0]; cases neg <;> rfl

end

section
variable {x y : Nat} (hx : x < 2 ^ (1 + F.exp + F.frac)) (hy : y < 2 ^ (1 + F.exp + F.frac)) (hnx : (F.value x).isNan = false)
  (hny : (F.value y).isNan = false)
include hx hnx

/-- A finite pattern's exponent is no less than the unit, and its magnitude at most OVER. -/
theorem Ieee.finite_bounds (hF : Ieee F) {n : Bool} {m : Nat} {e : Int} {st : Bool} (hv : F.value x = .fin n m e st) :
    F.unit ≤ e ∧ level F (F.value x) ≤ overUnits F ∧ -(overUnits F : Int) ≤ level F (F.value x) := by
  obtain ⟨neg, E, q, hE, hq, rfl⟩ := pattern_exists hx
  have hlevel := hF.level_pattern hE hq hnx
  rw [hF.value_pattern hE hq] at hv
  have htop : E ≠ 2 ^ F.exp - 1 := by
    intro h
    rw [if_pos h] at hv
    split at hv <;> cases hv
  have hlt := hF.finite_code_lt hE hq htop
  have hle := hF.codeMag_le_over hlt
  rw [codeLevel, if_pos hlt] at hlevel
  refine ⟨?_, by rw [hlevel]; split <;> omega, by rw [hlevel]; split <;> omega⟩
  rw [if_neg htop] at hv
  split at hv <;> cases hv
  · exact le_rfl
  · omega

include hy hny

theorem Ieee.level_mono (hF : Ieee F) (h : orderKey F x ≤ orderKey F y) : level F (F.value x) ≤ level F (F.value y) := by
  obtain ⟨n, E, q, hE, hq, rfl⟩ := pattern_exists hx
  obtain ⟨n', E', q', hE', hq', rfl⟩ := pattern_exists hy
  rw [orderKey_pattern hE hq, orderKey_pattern hE' hq'] at h
  rw [hF.level_pattern hE hq hnx, hF.level_pattern hE' hq' hny]
  have hmono : ∀ {c d : Nat}, c ≤ d → (codeLevel F c : Int) ≤ codeLevel F d := fun hcd => Int.ofNat_le.mpr (hF.codeLevel_mono hcd)
  cases n <;> cases n' <;> simp only [if_true, Bool.false_eq_true, if_false] at h ⊢
  · exact hmono (by omega)
  · omega
  · omega
  · exact neg_le_neg (hmono (by omega))

/-- `compare` goes by the levels. -/
theorem Ieee.compare_level (hF : Ieee F) :
    ((F.value x).compare (F.value y) = .lt → level F (F.value x) < level F (F.value y)) ∧
      ((F.value x).compare (F.value y) = .gt → level F (F.value y) < level F (F.value x)) := by
  have hbx := fun n m e st => hF.finite_bounds hx hnx (n := n) (m := m) (e := e) (st := st)
  have hby := fun n m e st => hF.finite_bounds hy hny (n := n) (m := m) (e := e) (st := st)
  revert hnx hny hbx hby
  generalize F.value x = a
  generalize F.value y = b
  intro hna hnb hba hbb
  cases a with
  | nan => cases hna
  | inf n =>
    cases b with
    | nan => cases hnb
    | inf n' =>
      rw [compare_inf_inf, level_inf, level_inf]
      cases n <;> cases n' <;> simp <;> omega
    | fin n' m e st =>
      obtain ⟨-, hhigh, hlow⟩ := hbb n' m e st rfl
      rw [compare_inf_fin, level_inf]
      cases n <;> simp <;> omega
  | fin n m e st =>
    obtain ⟨hea, hhigh, hlow⟩ := hba n m e st rfl
    cases b with
    | nan => cases hnb
    | inf n' =>
      rw [compare_fin_inf, level_inf]
      cases n' <;> simp <;> omega
    | fin n' m' e' st' =>
      obtain ⟨heb, -, -⟩ := hbb n' m' e' st' rfl
      exact compare_scaled hF.unit_le rfl rfl hea heb

end

/-! ## The lesser and the greater -/

theorem snan_of_isNan {x : XVal} (h : x.isNan = false) : x.snan = false := by
  cases x with
  | nan => cases h
  | inf | fin => rfl

/-- The second of two elements is the one that is given. -/
def picksSecond (F : FloatFmt) (mx : Bool) (x y : Nat) : Bool :=
  if mx then decide (orderKey F x < orderKey F y) else decide (orderKey F y < orderKey F x)

theorem minMax_ordered {x y : Nat} (hx : (F.value x).isNan = false) (hy : (F.value y).isNan = false) (mx : Bool) :
    F.minMax mx x y = (if picksSecond F mx x y then y else x, {}) := by
  simp only [FloatFmt.minMax, snan_of_isNan hx, snan_of_isNan hy, hx, hy, Bool.or_self, Bool.and_self, Bool.false_eq_true, if_false]
  cases mx
  case false =>
    change (if orderKey F y < orderKey F x then (y, ({} : Flags)) else (x, {})) = _
    by_cases h : orderKey F y < orderKey F x <;> simp [picksSecond, h]
  case true =>
    change (if orderKey F x < orderKey F y then (y, ({} : Flags)) else (x, {})) = _
    by_cases h : orderKey F x < orderKey F y <;> simp [picksSecond, h]

/-- The pick comes last, or first, in the order of the patterns. -/
theorem picksSecond_order (F : FloatFmt) (mx : Bool) {x y r z : Nat} (hr : r = if picksSecond F mx x y then y else x) (hz : z = x ∨ z = y) :
    if mx then orderKey F z ≤ orderKey F r else orderKey F r ≤ orderKey F z := by
  subst hr
  cases mx <;> simp only [picksSecond, if_true, Bool.false_eq_true, if_false, decide_eq_true_eq] <;> rcases hz with rfl | rfl <;>
    split <;> omega

theorem orderKey_zero (F : FloatFmt) (neg : Bool) : orderKey F (F.sign neg) = if neg then -1 else 0 := by
  have := orderKey_pattern (F := F) (neg := neg) (E := 0) (q := 0) (Nat.two_pow_pos _) (Nat.two_pow_pos _)
  simpa using this

theorem Ieee.minMax_right (hF : Ieee F) (mx : Bool) {x y : Nat} (hx : x < 2 ^ (1 + F.exp + F.frac)) (hy : y < 2 ^ (1 + F.exp + F.frac)) :
    MinMaxRight F mx x y (F.minMax mx x y) := by
  refine ⟨fun h => ?_, fun hsx hsy => ⟨fun h => ?_, fun h hny => ?_, fun hnx hny => ?_⟩⟩
  · have : ((F.value x).snan || (F.value y).snan) = true := by rwa [Bool.or_eq_true]
    simp only [FloatFmt.minMax, this, if_true]
  · cases hny : (F.value y).isNan <;> simp [FloatFmt.minMax, hsx, hsy, h, hny]
  · simp [FloatFmt.minMax, hsx, hsy, h, hny]
  · rw [minMax_ordered hnx hny]
    have hsign := orderKey_zero F true
    have hzero : orderKey F 0 = 0 := orderKey_zero F false
    refine ⟨?_, fun z hz => ?_, ?_, ?_⟩
    · split
      · exact .inr rfl
      · exact .inl rfl
    · obtain ⟨r, hr⟩ : ∃ r, r = if picksSecond F mx x y then y else x := ⟨_, rfl⟩
      have horder := picksSecond_order F mx hr hz
      have hpick : ∀ w, w = x ∨ w = y → w < 2 ^ (1 + F.exp + F.frac) ∧ (F.value w).isNan = false := by
        rintro w (rfl | rfl) <;> exact ⟨‹_›, ‹_›⟩
      obtain ⟨hrlt, hrnan⟩ := hpick r (by rw [hr]; split <;> simp)
      obtain ⟨hzlt, hznan⟩ := hpick z hz
      obtain ⟨hbelow, habove⟩ := hF.compare_level hrlt hzlt hrnan hznan
      rw [← hr]
      cases mx
      · exact fun h => (habove h).not_ge (hF.level_mono hrlt hzlt hrnan hznan horder)
      · exact fun h => (hbelow h).not_ge (hF.level_mono hzlt hrlt hznan hrnan horder)
    · rintro rfl rfl
      rw [picksSecond, hsign, hzero]
      cases mx <;> rfl
    · rintro rfl rfl
      rw [picksSecond, hsign, hzero]
      cases mx <;> rfl

end

end Sys2Proof.Proofs
end

section
/-! PROOFS. The obligation on the vector floating-point instructions. -/

namespace Sys2Proof.Proofs

open Sys2Proof.Machine Sys2Proof.Safety Sys2Proof.Laws

section
variable {F : FloatFmt}

theorem Ieee.round_nan (hF : Ieee F) (sg : Bool) (mode : Nat) (seed : Word) : F.round (.nan sg) mode seed = (F.nan, { nv := sg }) := by
  simp only [FloatFmt.round, hF.special, if_true]

theorem Ieee.round_inf (hF : Ieee F) (neg : Bool) (mode : Nat) (seed : Word) : F.round (.inf neg) mode seed = (F.inf neg, {}) := by
  simp only [FloatFmt.round, hF.special, if_true]

theorem Ieee.overflow_eq (hF : Ieee F) (neg : Bool) (mode : Nat) : F.overflow neg mode =
    (if mode = 1 ∨ (mode = 2 ∧ neg = true) ∨ (mode = 3 ∧ neg = false) then F.max neg else F.inf neg, { of := true, nx := true }) := by
  simp only [FloatFmt.overflow, hF.special, Bool.true_and]
  by_cases h1 : mode = 1
  · subst h1; rfl
  · by_cases h2 : mode = 2
    · subst h2; cases neg <;> rfl
    · by_cases h3 : mode = 3
      · subst h3; cases neg <;> rfl
      · simp [h1, h2, h3]

end

/-- Settles O29: each instruction by `vecDone_float`; sums, products and their fusion by `sumX_right`, `mul_right` and `fmaX_right`; rounding
by `Ieee.round_right`, the order of the patterns by `Ieee.minMax_right`, classes and signs by the fields of a pattern. -/
theorem vectorFloat : Obligations.VectorFloat := by
  unfold Obligations.VectorFloat
  refine ⟨?_, ?_, ?_⟩
  · intro s g vd va vb vc rm fa w mode F x R hc hfa hF hw hmode hx hR
    exact vectorFloat_instructions hc hfa hF hw hmode hx hR
  · intro mode xs a b c np nc
    exact ⟨sumX_right mode xs, mul_right a b, fun p r => fmaX_right mode a b c np nc⟩
  · intro F hmem
    have hF := ieee_of_mem hmem
    refine ⟨hF.round_right, fun x mode seed => ⟨hF.round_nan x mode seed, hF.round_inf x mode seed, hF.overflow_eq x mode⟩,
      fun mx x y => hF.minMax_right mx, fun neg E q b hE hq hb => ?_⟩
    subst hb
    refine ⟨hF.cls_pattern hE hq, hF.signOp_nan hE hq, fun h => ⟨?_, ?_⟩⟩
    · rw [hF.signOp_pattern hE hq h]; simp [FloatFmt.sign]
    · rw [hF.signOp_pattern hE hq h]; rfl

end Sys2Proof.Proofs
end

section
/-! PROOFS. The frames of a tile (R134-R136): what the commit and the abort of its deltas leave in each place. -/

namespace Sys2Proof.Proofs

open Sys2Proof.Machine Sys2Proof.Safety Sys2Proof.Laws

section
variable {T : Tile} (hf : FramesOk T)
include hf

/-- The former frames of the lines with a delta follow what was free (R134). -/
theorem commit_free : T.mem.commit.free = T.mem.free ++ T.mem.deltas.map fun x => T.mem.frameOf x.1 :=
  (commitAll T.mem.deltas T.mem hf.1).2.1

theorem commit_frameOf_delta {l : Nat} {d : Delta} (h : (l, d) ∈ T.mem.deltas) : T.mem.commit.frameOf l = d.frame := by
  rw [(commit_frames hf).2.1, find_of_mem hf.1 h]

theorem commit_frameOf_kept {l : Nat} (h : l ∉ T.mem.deltas.map (·.1)) : T.mem.commit.frameOf l = T.mem.frameOf l := by
  rw [(commit_frames hf).2.1, find_none_of_notMem h]

/-- A commit exchanges the frames of each line with a delta and of that delta: it loses and invents none (R134, R136). -/
theorem commit_owners_perm : (frameOwners { T with mem := T.mem.commit }).Perm (frameOwners T) := by
  have hlines : T.mem.commit.frameOf = fun l => match T.mem.deltas.find l with | some d => d.frame | none => T.mem.frameOf l :=
    funext (commit_frames hf).2.1
  have hmoved := frames_moved T.mem.deltas T.mem.frameOf (dataLines T) hf.1 (List.nodup_range.filter _) hf.2.1
  change ((dataLines T).map T.mem.commit.frameOf ++ [] ++ T.mem.commit.free).Perm _
  rw [List.append_nil, commit_free hf, hlines]
  refine List.Perm.trans ?_ (hmoved.append_right T.mem.free)
  rw [List.append_assoc]
  exact List.perm_append_comm.append_left _

end

/-- An abort moves the frames of the deltas to the pool (R135, R136). -/
theorem abort_owners_perm (T : Tile) : (frameOwners { T with mem := T.mem.abort }).Perm (frameOwners T) := by
  change ((dataLines T).map T.mem.frameOf ++ [] ++ (T.mem.free ++ T.mem.deltas.map fun x : Nat × Delta => x.2.frame)).Perm
    ((dataLines T).map T.mem.frameOf ++ T.mem.deltas.map (fun x : Nat × Delta => x.2.frame) ++ T.mem.free)
  rw [List.append_nil, List.append_assoc]
  exact List.perm_append_comm.append_left _

/-- Settles O21: reset by `framesOk_reset`; the commit and the abort by `commitAll`, which tells the line map and the pool after them. -/
theorem framesKept : Obligations.FramesKept := by
  unfold Obligations.FramesKept
  refine ⟨framesOk_reset, fun T hf => ⟨(commit_frames hf).1, abort_frames hf, commit_owners_perm hf, abort_owners_perm T,
    fun l d hd => ⟨commit_frameOf_delta hf hd, ?_, ?_⟩, fun f h => ⟨?_, List.mem_append_left _ h⟩,
    fun l hl => commit_frameOf_kept hf hl, fun l => rfl, rfl, rfl⟩⟩
  · rw [commit_free hf]
    exact List.mem_append_right _ (List.mem_map_of_mem (f := fun x : Nat × Delta => T.mem.frameOf x.1) hd)
  · exact List.mem_append_right _ (List.mem_map_of_mem (f := fun x : Nat × Delta => x.2.frame) hd)
  · rw [commit_free hf]
    exact List.mem_append_left _ h

end Sys2Proof.Proofs
end

section
/-! PROOFS. The arrival of a schedule send of which a word has landed ahead of the rest (R220, R270). -/

namespace Sys2Proof.Proofs

open Sys2Proof.Machine Sys2Proof.Safety Sys2Proof.Laws

/-- A tile whose segments are all versioned, with the reset pool of free frames. -/
def versionedTile : Tile := { ctl := { memcfg := 0 } }

/-- A send of one word from tile 0 to tile 1. The word has landed ahead of the rest (R270), and nothing is left. -/
def aheadSend : Send :=
  { src := 0, dest := some 1, doff := 0x8000, words := [(5, false)], landed := false, report := false, ord := 0, from_ := 0x8000
    moved := [0] }

/-- The package with that send on its way; what the word left at tile 1 has been decided since. -/
def aheadState : State := { State.reset.setTile 1 versionedTile with sends := [aheadSend] }

theorem aheadState_tile : aheadState.tile 1 = versionedTile := State.tile_setTile_self State.reset 1 versionedTile

/-- An arrival that nothing holds back lands what is left of its send (R220, R283). -/
theorem exec_transferSendArrival {s : State} {n d : Nat} {f : Send} {r : State × Bool} (hf : s.sends[n]? = some f)
    (hl : f.landed = false) (hd : f.dest = some d) (hb : s.behind f.src d = false) (hc : s.commitAhead f.src d f.ord = false)
    (hr : s.landSend d f.doff f.words.length f.left = r) : exec (.transferSendArrival n none) s =
      .next { r.1 with sends := r.1.sends.set n { f with landed := true, report := f.report || r.2 } } := by
  change execTransferSendArrival n none s = _
  simp only [execTransferSendArrival, hf, hl, hd, hb, hc, hr, Bool.false_eq_true, or_self, if_false]

/-- Nothing is left of `aheadSend`, so its arrival only marks it. -/
theorem exec_arrival_aheadState : exec (.transferSendArrival 0 none) aheadState =
    .next { aheadState.setTile 1 versionedTile with sends := [{ aheadSend with landed := true }] } := by
  have hrange : versionedTile.rangeIs Region.isV 0x8000 (8 * 1) = true := by decide
  have hland : aheadState.landSend 1 0x8000 1 aheadSend.left = (aheadState.setTile 1 versionedTile, false) := by
    unfold State.landSend
    simp only [aheadState_tile, hrange]
    rfl
  exact exec_transferSendArrival (s := aheadState) (n := 0) (d := 1) (f := aheadSend) rfl rfl rfl rfl rfl hland

/-- Written whole, the send gives its line a delta (R130). -/
theorem writeWords_versionedTile :
    (versionedTile.writeWords true 0x8000 aheadSend.words).map (fun w => w.tile.mem.deltas.length) = some 1 := by
  decide

/-- Refutes O46, in its clause on the arrival of a send, which asks nothing of the words that have landed ahead of the rest: it has
`aheadSend` write its word once more. -/
theorem not_exchangeAndMessages : ¬ Obligations.ExchangeAndMessages := by
  unfold Obligations.ExchangeAndMessages
  rintro ⟨-, -, hsend, -⟩
  obtain ⟨w, hw, hdelta⟩ := Option.map_eq_some_iff.1 writeWords_versionedTile
  obtain ⟨u, report, hexec, hmem, -⟩ := (hsend aheadState 0 1 aheadSend w rfl).1 rfl rfl rfl rfl
    (by rw [aheadState_tile]; decide) (by rw [aheadState_tile]; exact hw)
  rw [exec_arrival_aheadState] at hexec
  have hleft : (u.tile 1).mem = versionedTile.mem := by
    rw [← Host.Outcome.next.inj hexec]
    exact congrArg Tile.mem (State.tile_setTile_self aheadState 1 versionedTile)
  rw [← hmem, hleft] at hdelta
  cases hdelta

end Sys2Proof.Proofs
end


section
/-! PROOFS. Bale and ring instructions (R141-R149, R197-R204). -/

namespace Sys2Proof.Proofs

open Sys2Proof.Machine Sys2Proof.Safety Sys2Proof.Laws

/-! ## The tile map: a second write of a key -/

theorem insert_insert_same {α : Type} (m : SMap α) (k : Nat) (v w : α) : (m.insert k v).insert k w = m.insert k w := by
  induction m with
  | nil => simp [SMap.insert]
  | cons x t ih =>
    obtain ⟨j, u⟩ := x
    rcases Nat.lt_trichotomy k j with hlt | rfl | hgt
    · simp [SMap.insert, hlt]
    · simp [SMap.insert]
    · simp [SMap.insert, Nat.not_lt_of_gt hgt, Nat.ne_of_gt hgt, ih]

theorem erase_insert_same {α : Type} (m : SMap α) (k : Nat) (v : α) : (m.insert k v).erase k = m.erase k := by
  induction m with
  | nil => simp [SMap.insert, SMap.erase]
  | cons x t ih =>
    obtain ⟨j, u⟩ := x
    rcases Nat.lt_trichotomy k j with hlt | rfl | hgt
    · simp [SMap.insert, SMap.erase, hlt]
    · simp [SMap.insert, SMap.erase]
    · simp [SMap.insert, SMap.erase, Nat.not_lt_of_gt hgt, Nat.ne_of_gt hgt, Nat.ne_of_lt hgt, ih]

theorem set_set_same {α : Type} [DecidableEq α] (m : SMap α) (k : Nat) {d v : α} (w : α) (hv : v ≠ d) :
    (m.set k d v).set k d w = m.set k d w := by
  simp only [SMap.set, if_neg hv, erase_insert_same, insert_insert_same]

/-- A state with another next order number (log 108). -/
def withOrd (s : State) (n : Nat) : State := { s with netOrd := n }

theorem setTile_withOrd (x : State) (t n : Nat) (T : Tile) : (withOrd x n).setTile t T = withOrd (x.setTile t T) n := rfl

theorem setTile_twice (x : State) (t : Nat) (T U : Tile) (h : T ≠ {}) : (x.setTile t T).setTile t U = x.setTile t U := by
  simp only [State.setTile, set_set_same _ _ _ h]

/-- Two changes of the tile whose turn it is are one, where the first leaves a tile that is not as at reset. -/
theorem updMyTile_twice (x : State) (f g : Tile → Tile) (n : Nat) (h : f x.myTile ≠ {}) :
    (withOrd (x.updMyTile f) n).updMyTile g = withOrd (x.updMyTile fun T => g (f T)) n := by
  have hg : (withOrd (x.updMyTile f) n).tile x.curTile = f x.myTile := State.tile_updTile_self ..
  change (withOrd (x.updMyTile f) n).setTile x.curTile (g ((withOrd (x.updMyTile f) n).tile x.curTile)) = _
  rw [hg, setTile_withOrd]
  exact congrArg (withOrd · n) (setTile_twice x _ _ _ h)

/-! ## Bale instructions (R197-R200) -/

theorem setUp_fields (e : Bale) (off sz tag : Word) : e.setUp off sz tag =
    { state := 0, pend := false, fault := false, next := false, refill := false, offset := off.extractLsb' 7 11
      size := BitVec.ofNat 9 (bitsOf sz 0 17 / 128 - 1), ring := e.ring, ringv := e.ringv
      view := sz.extractLsb' 32 8, tag := tag.extractLsb' 7 57 } := by
  simp only [Bale.setUp, ofNat_bitsOf]

theorem badBale_false {T : Tile} {off sz : Word} {n : Nat} (hn : n = bitsOf sz 0 17) (ho : bitsOf off 0 7 = 0) (hm : n % 128 = 0)
    (hp : 0 < n) (hl : n ≤ 65536) (h1 : bitsOf sz 17 15 = 0) (h2 : bitsOf sz 40 24 = 0)
    (hr : T.rangeIs Region.vs off.toNat n = true) : T.badBale off sz = false := by
  subst hn
  simp [Tile.badBale, ho, hm, h1, h2, hr, Nat.ne_of_gt hp, Nat.not_lt.mpr hl]

/-- A change of one slot, told by slots. -/
theorem setBale_told (s : State) (k : Nat) (b : Bale) :
    TileCtlOnly s (s.updMyTile fun T => T.setBale k b) ∧
      ∀ i, (s.updMyTile fun T => T.setBale k b).myTile.bale i = if i = k then b else s.myTile.bale i :=
  ⟨ctlOnly_updMyTile s _ rfl rfl, fun i => by rw [myTile_updMyTile, bale_setBale]⟩

theorem exec_bale {s : State} {g : Guard} {slot : BitVec 6} {a b c : SReg} (h : Clears s (ordinary g))
    (hp : s.me.lowPoison [a, b, c] = none) (hb : s.myTile.badBale (s.me.rd a) (s.me.rd b) = false)
    (hs : (s.myTile.bale slot.toNat).state = 2 ∧ (s.myTile.bale slot.toNat).ringv = false ∨
      (s.myTile.bale slot.toNat).state = 0 ∧ (s.myTile.bale slot.toNat).pend = false) :
    exec (.bale g slot a b c) s = .next (retired s (s.updMyTile fun T =>
      T.setBale slot.toNat ((s.myTile.bale slot.toNat).setUp (s.me.rd a) (s.me.rd b) (s.me.rd c)))) := by
  change execBale g slot a b c s = _
  refine issue_done2 (i := { head := 0xE200, guard := g }) h rfl rfl ?_
  simp only [hp, hb, Bool.and_false, Bool.false_eq_true, if_false]
  rcases hs with ⟨h2, hv⟩ | ⟨h0, hpend⟩
  · simp [h2, hv]
  · simp [h0, hpend]

theorem exec_bstat {s : State} {g : Guard} {d : SReg} {slot : BitVec 6} (h : Clears s (ordinary g)) :
    exec (.bstat g d slot) s = .next (regResult s d (s.myTile.bale slot.toNat).low false) := by
  change execBstat g d slot s = _
  exact issue_done2 (i := { head := 0xE201, guard := g }) h rfl rfl rfl

theorem exec_bset_ready {s : State} {g : Guard} {slot : BitVec 6} (h : Clears s (ordinary g))
    (hv : (s.myTile.bale slot.toNat).ringv = false) (h2 : (s.myTile.bale slot.toNat).state = 2) :
    exec (.bset g slot) s = .next (retired s (s.updMyTile fun T =>
      T.setBale slot.toNat { s.myTile.bale slot.toNat with state := 0 })) := by
  change execBset g slot s = _
  refine issue_done2 (i := { head := 0xE202, guard := g }) h rfl rfl ?_
  simp [hv, h2]

theorem exec_bset_empty {s : State} {g : Guard} {slot : BitVec 6} (h : Clears s (ordinary g))
    (hv : (s.myTile.bale slot.toNat).ringv = false) (h0 : (s.myTile.bale slot.toNat).state = 0)
    (hp : (s.myTile.bale slot.toNat).pend = false) : exec (.bset g slot) s = .next (retired s s) := by
  change execBset g slot s = _
  refine issue_done2 (i := { head := 0xE202, guard := g }) h rfl rfl ?_
  simp [hv, h0, hp]

theorem exec_lookup {s : State} {g : Guard} {d a b : SReg} (h : Clears s (ordinary g)) :
    exec (.lookup g d a b) s = .next (regResult s d (BitVec.ofNat 64 (s.myTile.lookup (s.me.rd a) (bitsOf (s.me.rd b) 0 8)))
      (s.me.tag a || s.me.tag b)) := by
  have ht : s.me.tags [a, b] = (s.me.tag a || s.me.tag b) := by simp [Strand.tags]
  rw [← ht]
  change execLookup g d a b s = _
  exact issue_done2 (i := { head := 0xE203, guard := g }) h rfl rfl rfl

/-! ## Ring instructions (R201-R204) -/

theorem fromWord_fields (w : Word) :
    Ring.fromWord w = { first := w.extractLsb' 0 6, cntm1 := w.extractLsb' 6 6, v := w.getLsbD 33 } := by
  simp only [Ring.fromWord, ofNat_bitsOf]

/-- Eight bytes have nothing to extend. -/
theorem loadExtend_eight (v : Nat) : loadExtend 8 v = BitVec.ofNat 64 v := by
  have hv : loadExtend 8 v = BitVec.ofInt 64 (v % 18446744073709551616 : Nat) ∨
      loadExtend 8 v = BitVec.ofInt 64 ((v % 18446744073709551616 : Nat) - 18446744073709551616) := by
    unfold loadExtend signedOf
    split
    · exact .inl rfl
    · exact .inr rfl
  apply BitVec.eq_of_toNat_eq
  rcases hv with h | h <;> rw [h, BitVec.toNat_ofInt, BitVec.toNat_ofNat] <;> omega

theorem readNat_loadValue (T : Tile) (e : Nat) : BitVec.ofNat 64 (T.readNat e 8) = loadValue T .d e := by
  rw [← loadExtend_readNat]
  exact (loadExtend_eight _).symm

theorem exec_ringcfg {s : State} {g : Guard} {ring : BitVec 3} {a : SReg} {e : Nat} {x : Ring} {w : Word} (h : Clears s (ordinary g))
    (he : Reaches s a 0 8 Region.readable e) (hw : w = s.me.tested.getD (loadValue s.myTile .d e))
    (ht : s.me.tested = none → s.myTile.poisonAt e = false ∧ s.myTile.badRing ring x = false)
    (hx : x = { first := w.extractLsb' 0 6, cntm1 := w.extractLsb' 6 6, v := w.getLsbD 33 })
    (ho : (s.myTile.ring ring.toNat).occ = 0) (hsub : (s.myTile.ring ring.toNat).subv = false)
    (hb : (s.myTile.ring ring.toNat).bound = 0) :
    exec (.ringcfg g ring a) s = .next (retired s (s.updMyTile fun T => T.setUpRing ring x)) := by
  change execRingcfg g ring a s = _
  refine issue_done2 (i := { head := 0xE600, guard := g }) h rfl rfl ?_
  rw [← fromWord_fields] at hx
  simp only [memAccess_reaches he (data := none) (fun d hd => absurd hd (by simp)), readNat_loadValue, ← hw, ← hx]
  cases htest : s.me.tested with
  | none => simp [ht htest, ho, hsub, hb]
  | some z => simp [ho, hsub, hb]

theorem setUpRing_told (s : State) (ring : BitVec 3) (x : Ring) :
    TileCtlOnly s (s.updMyTile fun T => T.setUpRing ring x) ∧
      (∀ i, (s.updMyTile fun T => T.setUpRing ring x).myTile.ring i =
        if i = ring.toNat then { x with pushed := (s.myTile.ring ring.toNat).pushed } else s.myTile.ring i) ∧
      ∀ i, i < 64 → (s.updMyTile fun T => T.setUpRing ring x).myTile.bale i =
        if x.v = true ∧ x.first.toNat ≤ i ∧ i ≤ x.first.toNat + x.cntm1.toNat then
          { s.myTile.bale i with ring := ring, ringv := true }
        else if (s.myTile.bale i).ring = ring then { s.myTile.bale i with ringv := false } else s.myTile.bale i := by
  obtain ⟨C, hC, hring, hbale⟩ := setUpRing_ctl s.myTile ring x
  rw [myTile_updMyTile, hC]
  exact ⟨ctlOnly_updMyTile s _ (by rw [hC]) (by rw [hC]), hring, hbale⟩

/-- A ring after a push of its tail slot (R148). -/
def pushedRing (r : Ring) : Ring :=
  { r with tail := BitVec.ofNat 6 ((r.tail.toNat + 1) % (r.cntm1.toNat + 1)), occ := r.occ + 1, pushed := true }

theorem pushRing_eq (T : Tile) (n : Nat) : T.pushRing n = T.setRing n (pushedRing (T.ring n)) := rfl

/-- A tile with the claims of its slots replaced. -/
def withClaims (claims : SMap (Nat × Nat)) (T : Tile) : Tile := { T with slotBy := claims }

/-- The tile after its tail slot `k` has become READY in ring `n` (R202). -/
def pushedReady (n k : Nat) (r : Ring) (b : Bale) (claims : SMap (Nat × Nat)) (T : Tile) : Tile :=
  withClaims claims ((T.setBale k { b with state := 2, refill := false }).setRing n (pushedRing r))

/-- A tile with a configured ring is not as at reset. -/
theorem ne_reset_of_ring {T : Tile} {n : Nat} (h : (T.ring n).v = true) : T ≠ {} := by
  rintro rfl
  simp [Tile.ring, SMap.get] at h

theorem claimSlots_one (s : State) (k : Nat) :
    s.claimSlots [k] = withOrd (s.updMyTile fun T => withClaims (T.slotBy.set k (0, 0) (s.curStrand, s.netOrd)) T) (s.netOrd + 1) := rfl

theorem takeWait_order (s : State) (sy : Sync) : (s.takeWait sy).netOrd = s.netOrd ∧ (s.takeWait sy).curStrand = s.curStrand ∧
    (s.takeWait sy).curTile = s.curTile ∧ (s.takeWait sy).myTile.slotBy = s.myTile.slotBy := by
  obtain ⟨m, h | h⟩ := takeWait_sems s sy
  · rw [h]; exact ⟨rfl, rfl, rfl, rfl⟩
  · rw [h, myTile_updMyTile]; exact ⟨rfl, rfl, rfl, rfl⟩

/-- What the ring instructions read is the same before and after the wait is taken. -/
def RingsAs (s x : State) : Prop :=
  (∀ i, x.myTile.ring i = s.myTile.ring i) ∧ (∀ i, x.myTile.bale i = s.myTile.bale i) ∧ x.me = s.me ∧
    x.netOrd = s.netOrd ∧ x.curStrand = s.curStrand ∧ x.myTile.slotBy = s.myTile.slotBy

theorem ringsAs_of_wait {s x : State} {sy : Sync} (h : x = s ∨ x = s.takeWait sy) : RingsAs s x := by
  rcases h with rfl | rfl
  · exact ⟨fun _ => rfl, fun _ => rfl, rfl, rfl, rfl, rfl⟩
  · obtain ⟨hn, hc, -, hs⟩ := takeWait_order s sy
    exact ⟨takeWait_ring s sy, takeWait_bale s sy, takeWait_me s sy, hn, hc, hs⟩

/-- The push of a READY tail slot, with the claim of it, is one change of the tile. -/
theorem push_of_claimed {x : State} {n k : Nat} {r : Ring} (b : Bale) (hr : x.myTile.ring n = r) (hv : r.v = true) :
    (x.claimSlots [k]).updMyTile (fun T => (T.setBale k { b with state := 2, refill := false }).pushRing n) =
      withOrd (x.updMyTile (pushedReady n k r b (x.myTile.slotBy.set k (0, 0) (x.curStrand, x.netOrd)))) (x.netOrd + 1) := by
  subst hr
  rw [claimSlots_one, updMyTile_twice]
  · rfl
  · exact ne_reset_of_ring (n := n) hv

theorem exec_ringpush_ready {s : State} {g : Guard} {ring : BitVec 3} {slot : BitVec 6} {sy : Sync} {r : Ring} (h : Clears s (ordinary g))
    (hr : r = s.myTile.ring ring.toNat) (hv : r.v = true) (hstop : r.stopin = false) (hocc : r.occ.toNat ≤ r.cntm1.toNat)
    (hst : (s.myTile.bale r.tailSlot).state = 0) (hpend : (s.myTile.bale r.tailSlot).pend = false) (ht : r.tailSlot = slot.toNat)
    (hsy : SyncReady s sy true) :
    exec (.ringpush g ring slot sy) s = .next (syncDone s sy true fun x =>
      withOrd (x.updMyTile (pushedReady ring.toNat slot.toNat r (s.myTile.bale slot.toNat)
        (s.myTile.slotBy.set slot.toNat (0, 0) (s.curStrand, s.netOrd)))) (s.netOrd + 1)) := by
  change execRingpush g ring slot sy s = _
  unfold execRingpush
  rw [ht] at hst hpend
  simp only [← hr, ht, decide_true]
  refine issue_sync (i := { head := 0xE701, guard := g, sync := sy, sigNow := true }) h rfl rfl hsy fun x hx => ?_
  obtain ⟨hring, hbale, -, hnet, hcs, hby⟩ := ringsAs_of_wait hx
  have hx : x.myTile.ring ring.toNat = r := (hring _).trans hr.symm
  have hpush := push_of_claimed (k := slot.toNat) (s.myTile.bale slot.toNat) hx hv
  rw [hby, hcs, hnet] at hpush
  rw [← hpush]
  simp [hx, hbale, ht, hv, hstop, hocc, hst, hpend]

theorem updMyTile_congr {x : State} {f g : Tile → Tile} (h : f x.myTile = g x.myTile) : x.updMyTile f = x.updMyTile g :=
  congrArg (x.setTile x.curTile) h

theorem exec_ringpop {s : State} {g : Guard} {ring : BitVec 3} {slot : BitVec 6} {sy : Sync} {r : Ring} (h : Clears s (ordinary g))
    (hr : r = s.myTile.ring ring.toNat) (hv : r.v = true) (hb : r.bound = 0) (hocc : r.occ ≠ 0)
    (hst : (s.myTile.bale r.headSlot).state = 2) (hh : r.headSlot = slot.toNat) (hsy : SyncReady s sy true) :
    exec (.ringpop g ring slot sy) s = .next (syncDone s sy true fun x => x.updMyTile fun T =>
      (T.setBale slot.toNat { T.bale slot.toNat with state := 0 }).setRing ring.toNat
        { r with head := BitVec.ofNat 6 ((r.head.toNat + 1) % (r.cntm1.toNat + 1)), occ := r.occ - 1 }) := by
  change execRingpop g ring slot sy s = _
  refine issue_sync (i := { head := 0xE702, guard := g, sync := sy }) h rfl rfl hsy fun x hx => ?_
  obtain ⟨hring, hbale, -⟩ := ringsAs_of_wait hx
  have hx : x.myTile.ring ring.toNat = r := (hring _).trans hr.symm
  have hs : (x.myTile.bale slot.toNat).state = 2 := by rw [hbale, ← hh]; exact hst
  simp only [hx, hv, hb, hocc, hh, Tile.baleWait, hs, Bool.not_true, Bool.false_eq_true, if_false, if_true, ne_eq, not_true_eq_false]
  refine congrArg Eff.done (updMyTile_congr ?_)
  simp only [Tile.popRing, hx, hh, hs, if_true, hv, hb]

theorem exec_ringstat {s : State} {g : Guard} {d : SReg} {ring : BitVec 3} (h : Clears s (ordinary g)) :
    exec (.ringstat g d ring) s = .next (regResult s d (s.myTile.ring ring.toNat).word false) := by
  change execRingstat g d ring s = _
  exact issue_done2 (i := { head := 0xE603, guard := g }) h rfl rfl rfl

theorem exec_pflstop {s : State} {g : Guard} {ring : BitVec 3} {sy : Sync} {r : Ring} (h : Clears s (ordinary g))
    (hr : r = s.myTile.ring ring.toNat) (hv : r.v = true) (hsy : SyncReady s sy true) :
    exec (.pflstop g ring sy) s = .next (syncDone s sy true fun x => x.updMyTile fun T =>
      T.setRing ring.toNat { r with stopin := true, subv := r.subv && !r.subForever }) := by
  change execPflstop g ring sy s = _
  refine issue_sync (i := { head := 0xEF01, guard := g, sync := sy }) h rfl rfl hsy fun x hx => ?_
  obtain ⟨hring, -⟩ := ringsAs_of_wait hx
  have hx : x.myTile.ring ring.toNat = r := (hring _).trans hr.symm
  simp [hx, hv]

/-! ## What the loader's start of a fill leaves (R142, R299) -/

/-- The states differ at most in the control context, the lists and the claims of tile t, in the requests and in the model's orders. -/
def LoaderOnly (s x : State) (t : Nat) : Prop :=
  (x.curTile = s.curTile ∧ x.curStrand = s.curStrand ∧ x.mem = s.mem ∧ x.gangs = s.gangs ∧ x.parts = s.parts ∧ x.pubs = s.pubs ∧
    x.pkg = s.pkg) ∧ OtherTilesSame s x t ∧
    (x.tile t).strands = (s.tile t).strands ∧ (x.tile t).gang = (s.tile t).gang ∧ (x.tile t).mem = (s.tile t).mem

section
variable {s x y : State} {t : Nat}

theorem LoaderOnly.trans (h : LoaderOnly s x t) (k : LoaderOnly x y t) : LoaderOnly s y t := by
  obtain ⟨⟨h1, h2, h3, h4, h5, h6, h7⟩, ho, ht1, ht2, ht3⟩ := h
  obtain ⟨⟨k1, k2, k3, k4, k5, k6, k7⟩, ko, kt1, kt2, kt3⟩ := k
  exact ⟨⟨k1.trans h1, k2.trans h2, k3.trans h3, k4.trans h4, k5.trans h5, k6.trans h6, k7.trans h7⟩,
    fun u hu => (ko u hu).trans (ho u hu), kt1.trans ht1, kt2.trans ht2, kt3.trans ht3⟩

theorem LoaderOnly.refl (s : State) (t : Nat) : LoaderOnly s s t :=
  ⟨⟨rfl, rfl, rfl, rfl, rfl, rfl, rfl⟩, fun _ _ => rfl, rfl, rfl, rfl⟩

theorem loaderOnly_updTile (s : State) (t : Nat) {f : Tile → Tile}
    (h : (f (s.tile t)).strands = (s.tile t).strands ∧ (f (s.tile t)).gang = (s.tile t).gang ∧ (f (s.tile t)).mem = (s.tile t).mem) :
    LoaderOnly s (s.updTile t f) t := by
  refine ⟨⟨rfl, rfl, rfl, rfl, rfl, rfl, rfl⟩, fun u hu => State.tile_updTile_ne s hu f, ?_⟩
  rw [State.tile_updTile_self]
  exact h

theorem LoaderOnly.curTile (h : LoaderOnly s x t) : x.curTile = s.curTile := h.1.1

theorem LoaderOnly.curStrand (h : LoaderOnly s x t) : x.curStrand = s.curStrand := h.1.2.1

theorem LoaderOnly.others (h : LoaderOnly s x t) : OtherTilesSame s x t := h.2.1

theorem LoaderOnly.me (h : LoaderOnly s x s.curTile) : x.me = s.me := by
  obtain ⟨⟨hc, hk, -⟩, -, hs, -⟩ := h
  simp only [State.me, State.strand, hc, hk, hs]

/-- The partition and the root table of a tile's requests stay. -/
theorem LoaderOnly.request (h : LoaderOnly s x t) (write : Bool) (va : Word) (view len off : Nat) (what : ReqFor) :
    x.request t write va view len off what = s.request t write va view len off what := by
  obtain ⟨⟨-, -, -, hg, hp, hpub, hpkg⟩, -, -, hgang, -⟩ := h
  have hpart : x.partOf t = s.partOf t := by simp only [State.partOf, State.gangOf, hgang, hg, hpkg]
  simp only [State.request, hpart, State.rootOf, State.published, State.part, hgang, hpub, hp]

/-- A slot whose fill the loader starts (R299). -/
def filled (b : Bale) (tag : BitVec 57) (view : BitVec 8) (next : Bool) : Bale :=
  { b with tag := tag, view := view, pend := true, refill := true, next := next || b.next }

theorem startFill_eq (s : State) (t k : Nat) (tag : BitVec 57) (view : BitVec 8) (next : Bool) :
    s.startFill t k tag view next = (s.updTile t fun T => T.setBale k (filled (T.bale k) tag view next)).fillRequest t k := rfl

theorem startFill_tile (s : State) (t k : Nat) (tag : BitVec 57) (view : BitVec 8) (next : Bool) :
    (s.startFill t k tag view next).tile t = (s.tile t).setBale k (filled ((s.tile t).bale k) tag view next) :=
  State.tile_updTile_self s t fun T => T.setBale k (filled (T.bale k) tag view next)

theorem loaderOnly_startFill (s : State) (t k : Nat) (tag : BitVec 57) (view : BitVec 8) (next : Bool) :
    LoaderOnly s (s.startFill t k tag view next) t :=
  loaderOnly_updTile s t (f := fun T => T.setBale k (filled (T.bale k) tag view next)) ⟨rfl, rfl, rfl⟩

/-- The start of a fill asks for the range that the slot's tag names. -/
theorem startFill_reqs (s : State) (t k : Nat) (tag : BitVec 57) (view : BitVec 8) (next : Bool) :
    (s.startFill t k tag view next).reqs = s.reqs ++ [s.request t false (BitVec.ofNat 64 (tag.toNat * 128)) view.toNat
      ((s.tile t).bale k).bytes ((s.tile t).bale k).addr (.fill k)] := by
  obtain ⟨x, hx⟩ : ∃ x, x = s.updTile t fun T => T.setBale k (filled (T.bale k) tag view next) := ⟨_, rfl⟩
  have hbale : (x.tile t).bale k = filled ((s.tile t).bale k) tag view next := by
    rw [hx, State.tile_updTile_self, bale_setBale, if_pos rfl]
  have honly : LoaderOnly s x t := by rw [hx]; exact loaderOnly_updTile s t ⟨rfl, rfl, rfl⟩
  rw [startFill_eq, ← hx]
  have hreqs : x.reqs = s.reqs := by rw [hx]; rfl
  rw [State.fillRequest, hbale, honly.request, hreqs]
  rfl

theorem loaderOnly_claimSlots (s : State) (slots : List Nat) : LoaderOnly s (s.claimSlots slots) s.curTile :=
  loaderOnly_updTile s s.curTile
    (f := fun T => withClaims (slots.foldl (fun m i => m.set i (0, 0) (s.curStrand, s.netOrd)) T.slotBy) T) ⟨rfl, rfl, rfl⟩

theorem loaderOnly_takeWait (s : State) (sy : Sync) : LoaderOnly s (s.takeWait sy) s.curTile := by
  obtain ⟨m, h | h⟩ := takeWait_sems s sy
  · rw [h]; exact LoaderOnly.refl s _
  · rw [h]; exact loaderOnly_updTile s _ ⟨rfl, rfl, rfl⟩

end

/-! ## The loader's push (R202) -/

theorem claimSlots_myTile (s : State) (l : List Nat) : (s.claimSlots l).myTile =
    withClaims (l.foldl (fun m i => m.set i (0, 0) (s.curStrand, s.netOrd)) s.myTile.slotBy) s.myTile :=
  State.tile_updTile_self s s.curTile fun T => withClaims (l.foldl (fun m i => m.set i (0, 0) (s.curStrand, s.netOrd)) T.slotBy) T

/-- The tile that a loader's push of slot `k` leaves to the start of the fill: `slot`, whose tag has moved on, stands for what comes next. -/
def pushLoader (n slot : Nat) (y : Bale) (j : PflJob) (T : Tile) : Tile :=
  { (T.setBale slot y).pushRing n with pfls := T.pfls ++ [j] }

theorem pushLoader_fields (n slot : Nat) (y : Bale) (j : PflJob) (T : Tile) :
    (pushLoader n slot y j T).strands = T.strands ∧ (pushLoader n slot y j T).gang = T.gang ∧ (pushLoader n slot y j T).mem = T.mem ∧
      (pushLoader n slot y j T).pfls = T.pfls ++ [j] ∧ (pushLoader n slot y j T).ring n = pushedRing (T.ring n) ∧
      ∀ i, (pushLoader n slot y j T).bale i = if i = slot then y else T.bale i :=
  ⟨rfl, rfl, rfl, rfl, by simp only [pushLoader, pushRing_eq]; exact (ring_setRing ..).trans (if_pos rfl), fun i => bale_setBale T slot i y⟩

/-- The state that a loader's push leaves. -/
def loaderPushed (s : State) (n slot k : Nat) (sy : Sync) : State :=
  ((s.claimSlots [k]).updMyTile (pushLoader n slot
    { s.myTile.bale slot with tag := (s.myTile.bale slot).tag + BitVec.ofNat 57 ((s.myTile.bale k).size.toNat + 1) }
    ⟨[k], sy, s.curStrand, true⟩)).startFill s.curTile k (s.myTile.bale slot).tag (s.myTile.bale slot).view false

theorem loaderPushed_told (s : State) {n slot k : Nat} (sy : Sync) (hk : k ≠ slot) :
    LoaderOnly s (loaderPushed s n slot k sy) s.curTile ∧
      (loaderPushed s n slot k sy).myTile.ring n = pushedRing (s.myTile.ring n) ∧
      (loaderPushed s n slot k sy).myTile.bale k = filled (s.myTile.bale k) (s.myTile.bale slot).tag (s.myTile.bale slot).view false ∧
      (loaderPushed s n slot k sy).myTile.bale slot =
        { s.myTile.bale slot with tag := (s.myTile.bale slot).tag + BitVec.ofNat 57 ((s.myTile.bale k).size.toNat + 1) } ∧
      (loaderPushed s n slot k sy).myTile.pfls = s.myTile.pfls ++ [⟨[k], sy, s.curStrand, true⟩] ∧
      (loaderPushed s n slot k sy).reqs = s.reqs ++ [s.request s.curTile false
        (BitVec.ofNat 64 ((s.myTile.bale slot).tag.toNat * 128)) (s.myTile.bale slot).view.toNat
        (s.myTile.bale k).bytes (s.myTile.bale k).addr (.fill k)] := by
  obtain ⟨y, hy⟩ : ∃ y : Bale, y =
    { s.myTile.bale slot with tag := (s.myTile.bale slot).tag + BitVec.ofNat 57 ((s.myTile.bale k).size.toNat + 1) } := ⟨_, rfl⟩
  obtain ⟨x, hx⟩ : ∃ x, x = (s.claimSlots [k]).updMyTile (pushLoader n slot y ⟨[k], sy, s.curStrand, true⟩) := ⟨_, rfl⟩
  have hpushed : loaderPushed s n slot k sy =
      x.startFill s.curTile k (s.myTile.bale slot).tag (s.myTile.bale slot).view false := by rw [hx, hy]; rfl
  have hclaim := claimSlots_myTile s [k]
  obtain ⟨hf1, hf2, hf3, hpfls, hring, hbale⟩ :=
    pushLoader_fields n slot y ⟨[k], sy, s.curStrand, true⟩ (s.claimSlots [k]).myTile
  have htile : x.tile s.curTile = pushLoader n slot y ⟨[k], sy, s.curStrand, true⟩ (s.claimSlots [k]).myTile := by
    rw [hx]; exact myTile_updMyTile ..
  have honly : LoaderOnly s x s.curTile := by
    rw [hx]
    exact (loaderOnly_claimSlots s [k]).trans (loaderOnly_updTile _ s.curTile ⟨hf1, hf2, hf3⟩)
  have hreqs : x.reqs = s.reqs := by rw [hx]; rfl
  have hmy : (loaderPushed s n slot k sy).myTile = (x.tile s.curTile).setBale k
      (filled ((x.tile s.curTile).bale k) (s.myTile.bale slot).tag (s.myTile.bale slot).view false) := by
    rw [hpushed, State.myTile, (honly.trans (loaderOnly_startFill ..)).curTile, startFill_tile]
  have hxk : (x.tile s.curTile).bale k = s.myTile.bale k := by rw [htile, hbale, if_neg hk, hclaim]; rfl
  have hxslot : (x.tile s.curTile).bale slot = y := by rw [htile, hbale, if_pos rfl]
  have hxring : (x.tile s.curTile).ring n = pushedRing (s.myTile.ring n) := by rw [htile, hring, hclaim]; rfl
  have hxlist : (x.tile s.curTile).pfls = s.myTile.pfls ++ [⟨[k], sy, s.curStrand, true⟩] := by rw [htile, hpfls, hclaim]; rfl
  refine ⟨by rw [hpushed]; exact honly.trans (loaderOnly_startFill ..), ?_, ?_, ?_, ?_, ?_⟩
  · rw [hmy, ring_setBale, hxring]
  · rw [hmy, bale_setBale, if_pos rfl, hxk]
  · rw [hmy, bale_setBale, if_neg (Ne.symm hk), hxslot, hy]
  · rw [hmy]; exact hxlist
  · rw [hpushed, startFill_reqs, honly.request, hreqs, hxk]

theorem exec_ringpush_loader {s : State} {g : Guard} {ring : BitVec 3} {slot : BitVec 6} {sy : Sync} {r : Ring} (h : Clears s (ordinary g))
    (hr : r = s.myTile.ring ring.toNat) (hv : r.v = true) (hstop : r.stopin = false) (hocc : r.occ.toNat ≤ r.cntm1.toNat)
    (hst : (s.myTile.bale r.tailSlot).state = 0) (hpend : (s.myTile.bale r.tailSlot).pend = false) (ht : r.tailSlot ≠ slot.toNat)
    (hm : slot.toNat ∉ r.members)
    (hfill : s.fillOk s.curTile ((s.myTile.bale slot.toNat).tag.toNat * 128) (s.myTile.bale r.tailSlot).bytes
      (s.myTile.bale slot.toNat).view.toNat = true) (hw : s.waitMet sy = true) :
    exec (.ringpush g ring slot sy) s =
      .next (retired s (loaderPushed (s.takeWait sy) ring.toNat slot.toNat r.tailSlot sy)) := by
  change execRingpush g ring slot sy s = _
  unfold execRingpush
  simp only [← hr, ht, decide_false]
  have hbody : ∀ x, x = s ∨ x = s.takeWait sy → x.myTile.ring ring.toNat = r ∧ (∀ i, x.myTile.bale i = s.myTile.bale i) ∧
      x.fillOk x.curTile ((s.myTile.bale slot.toNat).tag.toNat * 128) (s.myTile.bale r.tailSlot).bytes
        (s.myTile.bale slot.toNat).view.toNat = true := by
    intro x hx
    obtain ⟨hring, hbale, -⟩ := ringsAs_of_wait hx
    refine ⟨(hring _).trans hr.symm, hbale, ?_⟩
    rcases hx with rfl | rfl
    · exact hfill
    · rw [fillOk_wait, (takeWait_cur s sy).1]
      exact hfill
  refine issue_engine (i := { head := 0xE701, guard := g, sync := sy, sigNow := false }) h rfl rfl rfl hw
    ⟨loaderPushed s ring.toNat slot.toNat r.tailSlot sy, ?_⟩ ?_
  · obtain ⟨hring, hbale, hok⟩ := hbody s (.inl rfl)
    simp [hring, hok, hv, hstop, hocc, hst, hpend, hm, ht.symm]
    rfl
  · obtain ⟨hring, hbale, hok⟩ := hbody _ (.inr rfl)
    simp [hring, hbale, hok, hv, hstop, hocc, hst, hpend, hm, ht.symm]
    simp only [loaderPushed, hbale]
    rfl

/-! ## The obligation -/

/-- Settles O36: each bale instruction changes the one slot it names, and each ring instruction the ring and the slots that it moves. -/
theorem balesAndRings : Obligations.BalesAndRings := by
  unfold Obligations.BalesAndRings
  refine ⟨⟨fun s g slot d a b c n h => ⟨?_, exec_bstat h, ?_, exec_bset_empty h, ?_⟩, bale_low_fields⟩,
    fun s g ring slot d a sy r e h hr => ⟨?_, ?_, ?_, ?_, ?_, ?_⟩, ring_word_fields⟩
  · intro ha hb hc hn ho hm hp hl h1 h2 hrange hslot
    have hlow : s.me.lowPoison [a, b, c] = none := lowPoison_none _ _ (by simp [ha, hb, hc])
    have hset := setUp_fields (s.myTile.bale slot.toNat) (s.me.rd a) (s.me.rd b) (s.me.rd c)
    rw [← hn] at hset
    rw [← hset]
    exact ⟨_, exec_bale h hlow (badBale_false hn ho hm hp hl h1 h2 hrange) hslot, setBale_told s slot.toNat _⟩
  · intro hv h2
    exact ⟨_, exec_bset_ready h hv h2, setBale_told s slot.toNat _⟩
  · exact ⟨_, exec_lookup h, lookup_spec s.myTile (s.me.rd a) (s.me.rd b)⟩
  · intro x w he hw htest hx ho hsub hbound
    subst hr
    exact ⟨_, exec_ringcfg h he hw htest hx ho hsub hbound, setUpRing_told s ring x⟩
  · intro hv hstop hocc hst hpend ht hsy
    exact ⟨_, _, exec_ringpush_ready h hr hv hstop hocc hst hpend ht hsy⟩
  · rintro x y hv hstop hocc rfl rfl hst hpend ht hm hfill hw
    have hwait := loaderOnly_takeWait s sy
    obtain ⟨hring, hbale, -⟩ := ringsAs_of_wait (s := s) (x := s.takeWait sy) (sy := sy) (.inr rfl)
    obtain ⟨honly, hr', hk, hs', hpfls, hreqs⟩ := loaderPushed_told (s.takeWait sy) (n := ring.toNat) sy ht
    obtain ⟨C, -, htile⟩ := takeWait_tile s sy
    have hcur : (s.takeWait sy).curTile = s.curTile := hwait.curTile
    obtain ⟨-, -, hwaitReqs, -⟩ := takeWait_cur s sy
    have hkept := hwait.trans (hcur ▸ honly)
    rw [hring, ← hr] at hr'
    rw [hbale, hbale] at hk
    rw [hbale, hbale] at hs'
    rw [htile, hwait.curStrand] at hpfls
    rw [hcur, hwait.request, hbale, hbale, hwaitReqs] at hreqs
    refine ⟨_, exec_ringpush_loader h hr hv hstop hocc hst hpend ht hm hfill hw, hkept.me, hkept.others, hr', ?_, hs', hpfls, _, hreqs⟩
    rw [hk]; rfl
  · exact exec_ringpop h hr
  · rw [hr]; exact exec_ringstat h
  · exact exec_pflstop h hr

end Sys2Proof.Proofs
end


section
/-! PROOFS. Page-fetch lists, and the events that end fills, drains and lists (R142, R148, R205, R298, R299). -/

namespace Sys2Proof.Proofs

open Sys2Proof.Machine Sys2Proof.Safety Sys2Proof.Laws

/-! ## What the wait of a list leaves -/

/-- A tile with other semaphores. -/
def withSems (m : SMap (BitVec 16)) (T : Tile) : Tile := { T with ctl := { T.ctl with sems := m } }

theorem takeWait_withSems (s : State) (sy : Sync) : s.takeWait sy = s ∨ ∃ m, s.takeWait sy = s.updMyTile (withSems m) := by
  obtain ⟨m, h | h⟩ := takeWait_sems s sy
  · exact .inl h
  · exact .inr ⟨m, h⟩

/-- What PFL reads before its entries: the list is readable, unpoisoned and ungated, and no store of the strand is on its way to it. -/
structure ListReadable (s : State) (x : SReg) (a n : Nat) : Prop where
  reaches : Reaches s x 0 8 Region.readable a
  count : n = s.myTile.readNat a 8 % 4096
  range : s.myTile.rangeIs Region.readable a (8 + 24 * n) = true
  gated : s.myTile.gatedIn a (8 + 24 * n) = none
  poison : s.myTile.readPoison a (8 + 24 * n) = false
  ready : s.sourceReady s.curTile s.curStrand a (8 + 24 * n) = true

theorem ListReadable.wait {s : State} {x : SReg} {a n : Nat} (h : ListReadable s x a n) (sy : Sync) : ListReadable (s.takeWait sy) x a n := by
  obtain ⟨⟨h1, h2, h3, h4, h5, h6, h7⟩, hc, hr, hg, hp, hs⟩ := h
  have hme := takeWait_me s sy
  rcases takeWait_withSems s sy with hw | ⟨m, hw⟩
  · rw [hw]; exact ⟨⟨h1, h2, h3, h4, h5, h6, h7⟩, hc, hr, hg, hp, hs⟩
  · have htile : (s.takeWait sy).myTile = withSems m s.myTile := by rw [hw, myTile_updMyTile]
    refine ⟨⟨?_, ?_, h3, h4, ?_, ?_, ?_⟩, ?_, ?_, ?_, ?_, ?_⟩
    · rw [hme]; exact h1
    · rw [hme]; exact h2
    · rw [htile]; exact h5
    · rw [htile]; exact h6
    · rw [hw]; exact h7
    · rw [htile]; exact hc
    · rw [htile]; exact hr
    · rw [htile]; exact hg
    · rw [htile]; exact hp
    · rw [hw]; exact hs

theorem LoaderOnly.tileView {s x : State} {t : Nat} (h : LoaderOnly s x t) (handle : Nat) : x.tileView t handle = s.tileView t handle := by
  obtain ⟨⟨-, -, -, hg, hp, hpub, hpkg⟩, -, -, hgang, -⟩ := h
  have hpart : x.partOf t = s.partOf t := by simp only [State.partOf, State.gangOf, hgang, hg, hpkg]
  have hpublished : ∀ g target old, x.published g target old = s.published g target old := fun g target old => by
    rw [State.published, State.published, hpub]
  have hpartition : ∀ p, x.part p = s.part p := fun p => by rw [State.part, State.part, hp]
  have hdesc : ∀ p g, x.viewDesc p g handle = s.viewDesc p g handle := fun p g => by
    simp only [State.viewDesc, hpublished, hpartition]
  rw [State.tileView, State.tileView, State.gangView, State.gangView, hpart, hgang, hdesc]

theorem pflEntryFits_wait (s : State) (sy : Sync) (e : PflEntry) :
    (s.takeWait sy).pflEntryFits s.curTile e = s.pflEntryFits s.curTile e := by
  have htarget : ((s.takeWait sy).tile s.curTile).pflTargetOk e = (s.tile s.curTile).pflTargetOk e := by
    rcases takeWait_withSems s sy with hw | ⟨m, hw⟩
    · rw [hw]
    · have htile : (s.takeWait sy).tile s.curTile = withSems m (s.tile s.curTile) := by rw [hw]; exact State.tile_updTile_self ..
      rw [htile]; rfl
  simp only [State.pflEntryFits, htarget, (loaderOnly_takeWait s sy).tileView]

theorem pflEntryOk_wait (s : State) (sy : Sync) (e : PflEntry) : (s.takeWait sy).pflEntryOk s.curTile e = s.pflEntryOk s.curTile e := by
  simp only [State.pflEntryOk, pflEntryFits_wait, fillOk_wait]

/-! ## PFL: the entries in order (R205, R298) -/

/-- The entries of a list of n at an address. -/
def pflEntries (T : Tile) (a n : Nat) : List PflEntry := (List.range n).map fun i => T.pflEntry (a + 8 + 24 * i)

theorem pflEntries_wait (s : State) (sy : Sync) (a n : Nat) : pflEntries (s.takeWait sy).myTile a n = pflEntries s.myTile a n := by
  rcases takeWait_withSems s sy with hw | ⟨m, hw⟩
  · rw [hw]
  · have htile : (s.takeWait sy).myTile = withSems m s.myTile := by rw [hw, myTile_updMyTile]
    rw [htile]; rfl

/-- The tile with one more list. -/
def addList (j : PflJob) (T : Tile) : Tile := { T with pfls := T.pfls ++ [j] }

/-- The slots that the entries of a list fill. -/
def fillSlots (es : List PflEntry) : List Nat := (es.filter fun e => decide (e.mode ≠ 2)).map (·.tgt)

/-- The state in which the entries of a list have been started. -/
def listStarted (s : State) (es : List PflEntry) (sy : Sync) : State :=
  es.foldl (fun x e => x.pflStart x.curTile e)
    ((s.claimSlots (fillSlots es)).updMyTile (addList ⟨fillSlots es, sy, s.curStrand, false⟩))

/-- What PFL does once its list can be read: it traps for the first entry that fails, or starts them all. -/
def pflEffect (s : State) (sy : Sync) (es : List PflEntry) : Eff :=
  match es.find? fun e => !s.pflEntryOk s.curTile e with
  | some e => .trapLate 0x06 (s.pflVal s.curTile e)
  | none => .done (listStarted s es sy)

/-- The instruction, with its effect told by name, as issued. -/
theorem exec_pfl_eq (s : State) (g : Guard) (x : SReg) (sy : Sync) :
    ∃ body : State → Eff, exec (.pfl g x sy) s = s.issue { head := 0xEF00, guard := g, sync := sy, sigNow := false } (fun _ _ => body) ∧
      ∀ {y : State} {a n : Nat}, ListReadable y x a n → body y = pflEffect y sy (pflEntries y.myTile a n) := by
  refine ⟨_, rfl, fun {y a n} h => ?_⟩
  obtain ⟨hreach, hc, hr, hg, hp, hs⟩ := h
  rw [memAccess_reaches hreach (fun d hd => absurd hd (by simp))]
  simp only [← hc, hr, hg, hp, hs, Bool.not_true, Bool.false_eq_true, if_false, Option.isSome_none]
  rfl

theorem issue_trapLate {s : State} {i : Info} {c : Nat} {v : Word} {body : Nat → Nat → State → Eff} (h : Clears s i)
    (hf : i.formats = none) (hw : s.waitMet i.sync = true) (hb : body 0 0 s = .trapLate c v) :
    s.issue i body = .next ((s.refundWait i.sync).trapMe c s.me.pc v) := by
  rw [issue_clears h, hf]
  simp only [State.settle, hb, hw, if_true]

/-- The first entry that fails is the one that is found. -/
theorem find_first_entry {T : Tile} {a n i : Nat} {p : PflEntry → Bool} (hi : i < n)
    (hbefore : ∀ j, j < i → p (T.pflEntry (a + 8 + 24 * j)) = true) (hfail : p (T.pflEntry (a + 8 + 24 * i)) = false) :
    (pflEntries T a n).find? (fun e => !p e) = some (T.pflEntry (a + 8 + 24 * i)) := by
  rw [pflEntries, List.find?_map]
  have hfind : (List.range n).find? ((fun e => !p e) ∘ fun i => T.pflEntry (a + 8 + 24 * i)) = some i := by
    rw [List.find?_range_eq_some]
    exact ⟨by simp [hfail], List.mem_range.mpr hi, fun j hj => by simp [hbefore j hj]⟩
  rw [hfind]
  rfl

theorem find_no_entry {T : Tile} {a n : Nat} {p : PflEntry → Bool} (h : ∀ i, i < n → p (T.pflEntry (a + 8 + 24 * i)) = true) :
    (pflEntries T a n).find? (fun e => !p e) = none := by
  rw [List.find?_eq_none]
  intro e he
  obtain ⟨i, hi, rfl⟩ := List.mem_map.mp he
  simp [h i (List.mem_range.mp hi)]

theorem exec_pfl_fails {s : State} {g : Guard} {x : SReg} {sy : Sync} {a n i : Nat} (h : Clears s (ordinary g)) (hw : s.waitMet sy = true)
    (hl : ListReadable s x a n) (hi : i < n)
    (hbefore : ∀ j, j < i → s.pflEntryOk s.curTile (s.myTile.pflEntry (a + 8 + 24 * j)) = true)
    (hfail : s.pflEntryFits s.curTile (s.myTile.pflEntry (a + 8 + 24 * i)) = false) :
    exec (.pfl g x sy) s =
      .next ((s.refundWait sy).trapMe 0x06 s.me.pc (BitVec.ofNat 64 (s.myTile.pflEntry (a + 8 + 24 * i)).src)) := by
  obtain ⟨body, hexec, hbody⟩ := exec_pfl_eq s g x sy
  rw [hexec]
  refine issue_trapLate (i := { head := 0xEF00, guard := g, sync := sy, sigNow := false }) h rfl hw ((hbody hl).trans ?_)
  rw [pflEffect, find_first_entry hi hbefore (by simp [State.pflEntryOk, hfail])]
  simp [State.pflVal, hfail]

theorem exec_pfl_starts {s : State} {g : Guard} {x : SReg} {sy : Sync} {a n : Nat} (h : Clears s (ordinary g)) (hw : s.waitMet sy = true)
    (hl : ListReadable s x a n) (hok : ∀ i, i < n → s.pflEntryOk s.curTile (s.myTile.pflEntry (a + 8 + 24 * i)) = true) :
    exec (.pfl g x sy) s = .next (retired s (listStarted (s.takeWait sy) (pflEntries s.myTile a n) sy)) := by
  obtain ⟨body, hexec, hbody⟩ := exec_pfl_eq s g x sy
  rw [hexec]
  refine issue_engine (i := { head := 0xEF00, guard := g, sync := sy, sigNow := false }) h rfl rfl rfl hw
    ⟨listStarted s (pflEntries s.myTile a n) sy, (hbody hl).trans ?_⟩ ((hbody (hl.wait sy)).trans ?_)
  · rw [pflEffect, find_no_entry hok]
  · have hnone : (pflEntries s.myTile a n).find? (fun e => !(s.takeWait sy).pflEntryOk (s.takeWait sy).curTile e) = none := by
      rw [(takeWait_cur s sy).1]
      exact find_no_entry fun i hi => (pflEntryOk_wait s sy _).trans (hok i hi)
    rw [pflEffect, pflEntries_wait, hnone]

/-! ## PFL: what the started entries have (R299) -/

/-- From x to y, the loader has started entries at tile t: no subscription and no fill has gone. -/
def FillsKept (x y : State) (t : Nat) : Prop :=
  LoaderOnly x y t ∧ (y.tile t).pfls = (x.tile t).pfls ∧
    (∀ i, ((x.tile t).ring i).subv = true → ((y.tile t).ring i).subv = true) ∧
    ∀ i, ((x.tile t).bale i).pend = true ∧ ((x.tile t).bale i).refill = true →
      ((y.tile t).bale i).pend = true ∧ ((y.tile t).bale i).refill = true

/-- An entry's fill is pending, or its subscription runs. -/
def Begun (T : Tile) (e : PflEntry) : Prop :=
  (e.mode = 2 → (T.ring e.tgt).subv = true) ∧ (e.mode ≠ 2 → (T.bale e.tgt).pend = true ∧ (T.bale e.tgt).refill = true)

section
variable {x y z : State} {t : Nat}

theorem FillsKept.trans (h : FillsKept x y t) (k : FillsKept y z t) : FillsKept x z t := by
  obtain ⟨ho, hp, hr, hb⟩ := h
  obtain ⟨ko, kp, kr, kb⟩ := k
  exact ⟨ho.trans ko, kp.trans hp, fun i hi => kr i (hr i hi), fun i hi => kb i (hb i hi)⟩

theorem FillsKept.begun (h : FillsKept x y t) {e : PflEntry} (he : Begun (x.tile t) e) : Begun (y.tile t) e := by
  obtain ⟨-, -, hr, hb⟩ := h
  exact ⟨fun hm => hr _ (he.1 hm), fun hm => hb _ (he.2 hm)⟩

/-- The ring of a subscription that an entry starts. -/
def subscribed (e : PflEntry) (r : Ring) : Ring :=
  { r with
    subv := true, subSrc := BitVec.ofNat 64 e.src, subLen := e.len, subView := e.view, subLeft := e.npush
    subForever := decide (e.npush = 0), subDone := 0 }

theorem pflStart_subscription {e : PflEntry} (h : e.mode = 2) (x : State) (t : Nat) :
    x.pflStart t e = x.updTile t fun T => T.setRing e.tgt (subscribed e (T.ring e.tgt)) := by
  rw [State.pflStart, if_pos h]; rfl

theorem pflStart_fill {e : PflEntry} (h : e.mode ≠ 2) (x : State) (t : Nat) :
    x.pflStart t e = x.startFill t e.tgt (BitVec.ofNat 57 (e.src / 128)) (BitVec.ofNat 8 e.view) (decide (e.mode = 1)) := by
  rw [State.pflStart, if_neg h]

theorem pflStart_begun (x : State) (t : Nat) (e : PflEntry) : FillsKept x (x.pflStart t e) t ∧ Begun ((x.pflStart t e).tile t) e := by
  by_cases h : e.mode = 2
  · rw [pflStart_subscription h]
    have htile := State.tile_updTile_self x t fun T => T.setRing e.tgt (subscribed e (T.ring e.tgt))
    refine ⟨⟨loaderOnly_updTile x t ⟨rfl, rfl, rfl⟩, ?_, fun i hi => ?_, fun i hi => ?_⟩, fun _ => ?_, fun hne => absurd h hne⟩
    · rw [htile]; rfl
    · rw [htile, ring_setRing]
      split
      · rfl
      · exact hi
    · rw [htile, bale_setRing]; exact hi
    · rw [htile, ring_setRing, if_pos rfl]; rfl
  · rw [pflStart_fill h]
    have htile := startFill_tile x t e.tgt (BitVec.ofNat 57 (e.src / 128)) (BitVec.ofNat 8 e.view) (decide (e.mode = 1))
    refine ⟨⟨loaderOnly_startFill .., ?_, fun i hi => ?_, fun i hi => ?_⟩, fun he => absurd he h, fun _ => ?_⟩
    · rw [htile]; rfl
    · rw [htile, ring_setBale]; exact hi
    · rw [htile, bale_setBale]
      split
      · exact ⟨rfl, rfl⟩
      · exact hi
    · rw [htile, bale_setBale, if_pos rfl]; exact ⟨rfl, rfl⟩

theorem pflStarts_begun (es : List PflEntry) (t : Nat) : ∀ x : State, x.curTile = t →
    FillsKept x (es.foldl (fun x e => x.pflStart x.curTile e) x) t ∧
      ∀ e ∈ es, Begun ((es.foldl (fun x e => x.pflStart x.curTile e) x).tile t) e := by
  induction es with
  | nil => exact fun x _ => ⟨⟨LoaderOnly.refl x t, rfl, fun _ h => h, fun _ h => h⟩, fun e he => absurd he (by simp)⟩
  | cons a es ih =>
    intro x hx
    obtain ⟨hkept, hbegun⟩ := pflStart_begun x t a
    obtain ⟨hrest, hall⟩ := ih (x.pflStart t a) (hkept.1.curTile.trans hx)
    rw [List.foldl_cons, hx]
    refine ⟨hkept.trans hrest, fun e he => ?_⟩
    rcases List.mem_cons.mp he with rfl | he
    · exact hrest.begun hbegun
    · exact hall e he

end

theorem listStarted_told (s : State) (es : List PflEntry) (sy : Sync) :
    LoaderOnly s (listStarted s es sy) s.curTile ∧
      (listStarted s es sy).myTile.pfls = s.myTile.pfls ++ [⟨fillSlots es, sy, s.curStrand, false⟩] ∧
      ∀ e ∈ es, Begun (listStarted s es sy).myTile e := by
  obtain ⟨x, hx⟩ : ∃ x, x = (s.claimSlots (fillSlots es)).updMyTile (addList ⟨fillSlots es, sy, s.curStrand, false⟩) := ⟨_, rfl⟩
  have hadd : LoaderOnly s x s.curTile := by
    rw [hx]
    exact (loaderOnly_claimSlots s _).trans (loaderOnly_updTile _ s.curTile ⟨rfl, rfl, rfl⟩)
  have hpfls : (x.tile s.curTile).pfls = s.myTile.pfls ++ [⟨fillSlots es, sy, s.curStrand, false⟩] := by
    have hclaims : (s.claimSlots (fillSlots es)).myTile.pfls = s.myTile.pfls := by
      rw [claimSlots_myTile]; rfl
    rw [hx, ← hclaims]
    exact congrArg Tile.pfls (myTile_updMyTile ..)
  obtain ⟨hkept, hbegun⟩ := pflStarts_begun es s.curTile x hadd.curTile
  have hlist : listStarted s es sy = es.foldl (fun x e => x.pflStart x.curTile e) x := by rw [hx]; rfl
  rw [hlist, State.myTile, (hadd.trans hkept.1).curTile]
  exact ⟨hadd.trans hkept.1, hkept.2.1.trans hpfls, hbegun⟩

/-! ## Ends of fills, drains and lists (R142, R148, R205) -/

section
variable {s : State} {t slot : Nat}

/-- The tile whose slot's loader fill has ended. -/
def fillEnded (slot : Nat) (b : Bale) (T : Tile) : Tile :=
  { T.setBale slot { b with state := 2, pend := false } with
    pfls := (T.pfls.filter fun j => !(j.push && j.slots.contains slot)).map fun j => { j with slots := j.slots.filter (· ≠ slot) } }

theorem exec_fillComplete {b : Bale} (hb : b = (s.tile t).bale slot) (h1 : b.state = 1) (hp : b.pend = true) (hf : b.fault = false)
    (hfill : s.filling t slot = false) (hlost : (s.tile t).lostFills.getLsbD slot = false) (hq : ∀ e ∈ (s.tile t).xq, e.slot ≠ some slot) :
    exec (.baleFillComplete t slot) s = .next (((s.tile t).pfls.filter fun j => j.push && j.slots.contains slot).foldl
      (fun x j => x.engineSignal t j.sy) (s.updTile t (fillEnded slot b))) := by
  subst hb
  change execBaleFillComplete t slot s = _
  have hall : (s.tile t).xq.all (fun e => decide (e.slot ≠ some slot)) = true := by simpa [List.all_eq_true] using hq
  rw [execBaleFillComplete, if_pos ⟨h1, hp, hf, hfill, hlost, hall⟩]
  rfl

theorem fillEnded_bale (slot : Nat) (b : Bale) (T : Tile) (i : Nat) :
    (fillEnded slot b T).bale i = if i = slot then { b with state := 2, pend := false } else T.bale i := bale_setBale T slot i _

theorem exec_drainComplete_pops {b : Bale} (hb : b = (s.tile t).bale slot) (h3 : b.state = 3) (hout : s.readOut t slot = true)
    (hv : b.ringv = true) (hhead : ((s.tile t).ring b.ring.toNat).headSlot = slot) (hocc : ((s.tile t).ring b.ring.toNat).occ ≠ 0)
    (hq : ∀ e ∈ (s.tile t).xq, e.slot ≠ some slot) :
    exec (.baleDrainComplete t slot) s =
      .next (s.updTile t fun T => (T.setBale slot { b with state := 0 }).popRing b.ring.toNat) := by
  subst hb
  change execBaleDrainComplete t slot s = _
  have hany : (s.tile t).xq.any (fun e => decide (e.slot = some slot)) = false := by simpa [List.any_eq_false] using hq
  rw [execBaleDrainComplete, if_pos ⟨h3, hout⟩]
  simp only [hany, hv, hhead, hocc, Bool.not_false, ne_eq, not_false_eq_true, and_self, if_true]

/-- The tile whose slot's drain has ended without a pop. -/
def drainEnded (slot : Nat) (b : Bale) (T : Tile) : Tile :=
  { T.setBale slot { b with state := 0 } with xq := T.xq.map fun e => if e.slot = some slot then { e with slot := none } else e }

theorem exec_drainComplete_keeps {b : Bale} (hb : b = (s.tile t).bale slot) (h3 : b.state = 3) (hout : s.readOut t slot = true)
    (hkeep : b.ringv = false ∨ ∃ e ∈ (s.tile t).xq, e.slot = some slot) :
    exec (.baleDrainComplete t slot) s = .next (s.updTile t (drainEnded slot b)) := by
  subst hb
  change execBaleDrainComplete t slot s = _
  have hno : ¬ ((!(s.tile t).xq.any fun e => decide (e.slot = some slot)) = true ∧ ((s.tile t).bale slot).ringv = true ∧
      ((s.tile t).ring ((s.tile t).bale slot).ring.toNat).headSlot = slot ∧ ((s.tile t).ring ((s.tile t).bale slot).ring.toNat).occ ≠ 0) := by
    rintro ⟨hany, hv, -⟩
    rcases hkeep with hv' | ⟨e, he, hes⟩
    · rw [hv'] at hv; exact absurd hv (by simp)
    · simp only [Bool.not_eq_true', List.any_eq_false, decide_eq_true_eq] at hany
      exact hany e he hes
  rw [execBaleDrainComplete, if_pos ⟨h3, hout⟩]
  exact if_neg hno

theorem drainEnded_slots (slot : Nat) (b : Bale) (T : Tile) : ∀ e ∈ (drainEnded slot b T).xq, e.slot ≠ some slot := by
  intro e he
  obtain ⟨e', -, rfl⟩ := List.mem_map.mp he
  split
  · simp
  · assumption

/-- The pop of a ring whose head slot is not READY moves only its HEAD and OCC. -/
theorem popRing_fields {T : Tile} {n : Nat} (h : (T.bale (T.ring n).headSlot).state ≠ 2) : T.popRing n = T.setRing n { T.ring n with
    head := BitVec.ofNat 6 (((T.ring n).head.toNat + 1) % ((T.ring n).cntm1.toNat + 1)), occ := (T.ring n).occ - 1 } := by
  simp only [Tile.popRing, if_neg h]

theorem exec_pflComplete {n : Nat} {j : PflJob} (hj : (s.tile t).pfls[n]? = some j) (hslots : j.slots = []) (hpush : j.push = false) :
    exec (.pflComplete t n) s = .next ((s.updTile t fun T => { T with pfls := T.pfls.eraseIdx n }).engineSignal t j.sy) := by
  change execPflComplete t n s = _
  simp only [execPflComplete, hj, hslots, hpush, List.isEmpty_nil, Bool.not_false, Bool.and_true, if_true]

end

/-! ## Subscriptions (R299) -/

/-- A subscribed ring r, of which `y` has been pushed, with its range moved on (R299). -/
def rangeMoved (r y : Ring) : Ring :=
  { y with
    subDone := r.subDone + 1, subLeft := r.subLeft - 1
    subv := !(!r.subForever && decide (r.subLeft = 1)), stopin := !r.subForever && decide (r.subLeft = 1) }

/-- The tile whose subscribed ring, r, the loader has pushed. -/
def subPushed (n : Nat) (r : Ring) (T : Tile) : Tile := (T.pushRing n).setRing n (rangeMoved r ((T.pushRing n).ring n))

theorem subPushed_ring (n : Nat) (r : Ring) (T : Tile) : (subPushed n r T).ring n = rangeMoved r (pushedRing (T.ring n)) := by
  rw [subPushed, ring_setRing, if_pos rfl, pushRing_eq, ring_setRing, if_pos rfl]

theorem exec_subscriptionPush {s : State} {t ring : Nat} {r : Ring} {e : Bale} {src : Nat} (hr : r = (s.tile t).ring ring)
    (he : e = (s.tile t).bale r.tailSlot) (hsub : r.subv = true) (hstop : r.stopin = false) (hocc : r.occ.toNat ≤ r.cntm1.toNat)
    (hst : e.state = 0) (hpend : e.pend = false) (hrun : (s.tile t).seq.failed = false)
    (hsrc : src = r.subSrc.toNat + r.subDone * r.subLen) (hok : s.fillOk t src r.subLen r.subView = true) :
    exec (.subscriptionPush t ring) s = .next ((s.updTile t (subPushed ring r)).startFill t r.tailSlot
      (BitVec.ofNat 57 (src / 128)) (BitVec.ofNat 8 r.subView) false) := by
  subst he hsrc
  change execSubscriptionPush t ring s = _
  simp only [execSubscriptionPush, ← hr, hsub, hstop, hocc, hst, hpend, hrun, hok, Bool.not_false, Bool.not_true, and_self, if_true,
    Bool.false_eq_true, if_false]
  rfl

/-! ## The obligation -/

/-- Settles O37: the entries of a list are started in order, and each end event changes the one slot or list that it ends. -/
theorem loaderAndStorer : Obligations.LoaderAndStorer := by
  unfold Obligations.LoaderAndStorer
  refine ⟨fun s g x sy a n h hw hreach hc hr hg hp hs => ?_, fun s t slot b hb => ⟨?_, ?_, fun h3 hout => ⟨?_, ?_⟩⟩, ?_, ?_⟩
  · have hl : ListReadable s x a n := ⟨hreach, hc, hr, hg, hp, hs⟩
    refine ⟨?_, fun hok => ?_⟩
    · rintro i e hi hbefore rfl hfail
      exact exec_pfl_fails h hw hl hi hbefore hfail
    · have hwait := loaderOnly_takeWait s sy
      obtain ⟨honly, hpfls, hbegun⟩ := listStarted_told (s.takeWait sy) (pflEntries s.myTile a n) sy
      have hcur : (s.takeWait sy).curTile = s.curTile := hwait.curTile
      obtain ⟨C, -, htile⟩ := takeWait_tile s sy
      rw [htile, hwait.curStrand] at hpfls
      have hkept := hwait.trans (hcur ▸ honly)
      obtain ⟨⟨hcur', -, hmem, -⟩, hother, -, -, htmem⟩ := id hkept
      refine ⟨_, _, exec_pfl_starts h hw hl hok, hkept.me, hother, hmem, ?_, hpfls, ?_⟩
      · rw [State.myTile, hcur']; exact htmem
      · rintro i e hi rfl
        have hmem : s.myTile.pflEntry (a + 8 + 24 * i) ∈ pflEntries s.myTile a n :=
          List.mem_map.mpr ⟨i, List.mem_range.mpr hi, rfl⟩
        obtain ⟨h2, hfill⟩ := hbegun _ hmem
        exact ⟨h2, fun hne => ⟨List.mem_map.mpr ⟨_, List.mem_filter.mpr ⟨hmem, by simpa using hne⟩, rfl⟩, hfill hne⟩⟩
  · intro h1 hp hf hfill hlost hq hpush
    have hnone : (s.tile t).pfls.filter (fun j => j.push && j.slots.contains slot) = [] := by
      rw [List.filter_eq_nil_iff]
      intro j hj
      by_cases hs : slot ∈ j.slots
      · simp [hpush j hj hs]
      · simp [hs]
    have hexec := exec_fillComplete hb h1 hp hf hfill hlost hq
    rw [hnone] at hexec
    refine ⟨_, hexec, ?_, rfl, fun i => ?_⟩
    · rw [List.foldl_nil, State.tile_updTile_self]; rfl
    · rw [List.foldl_nil, State.tile_updTile_self, fillEnded_bale]
  · intro j h1 hp hf hfill hlost hq hone hpush hs hfit
    have hmine : (s.tile t).pfls.filter (fun j => j.push && j.slots.contains slot) = [j] := by
      rw [hone]; simp [hpush, hs]
    have hfit' : SignalFits (s.updTile t (fillEnded slot b)) t j.sy := by
      rw [SignalFits, State.tile_updTile_self]; exact hfit
    obtain ⟨hsig, m, htile⟩ := signalled_after (s := s) (t := t) (sy := j.sy) (f := fillEnded slot b) rfl _ rfl
    refine ⟨_, (exec_fillComplete hb h1 hp hf hfill hlost hq).trans (by rw [hmine, List.foldl_cons, List.foldl_nil, engineSignal_fits hfit']),
      ?_, hsig, ?_⟩
    · rw [htile]; simp [fillEnded, hone, hpush, hs]
    · rw [htile]; exact (fillEnded_bale slot b (s.tile t) slot).trans (if_pos rfl)
  · intro hv hhead hocc hq
    obtain ⟨T, hT⟩ : ∃ T, T = (s.tile t).setBale slot { b with state := 0 } := ⟨_, rfl⟩
    have hring : T.ring b.ring.toNat = (s.tile t).ring b.ring.toNat := by rw [hT]; rfl
    have hbale : T.bale slot = { b with state := 0 } := by rw [hT, bale_setBale, if_pos rfl]
    have hpop := popRing_fields (T := T) (n := b.ring.toNat) (by rw [hring, hhead, hbale]; simp)
    refine ⟨_, exec_drainComplete_pops hb h3 hout hv hhead hocc hq, ?_, ?_⟩
    · rw [State.tile_updTile_self, ← hT, hpop, bale_setRing, hbale]
    · rw [State.tile_updTile_self, ← hT, hpop, ring_setRing, if_pos rfl, hring]
  · intro hkeep
    refine ⟨_, exec_drainComplete_keeps hb h3 hout hkeep, ?_, ?_, fun i => ?_⟩
    · rw [State.tile_updTile_self]; rfl
    · rw [State.tile_updTile_self]; exact drainEnded_slots slot b _
    · rw [State.tile_updTile_self]; exact bale_setBale (s.tile t) slot i _
  · intro s t n j hj hslots hpush hfit
    have hfit' : SignalFits (s.updTile t fun T => { T with pfls := T.pfls.eraseIdx n }) t j.sy := by
      rw [SignalFits, State.tile_updTile_self]; exact hfit
    obtain ⟨hsig, m, htile⟩ :=
      signalled_after (s := s) (t := t) (sy := j.sy) (f := fun T => { T with pfls := T.pfls.eraseIdx n }) rfl _ rfl
    refine ⟨_, (exec_pflComplete hj hslots hpush).trans (by rw [engineSignal_fits hfit']), ?_, hsig⟩
    rw [htile]
  · intro s t ring r e src hr he hsub hstop hocc hst hpend hrun hsrc hok
    have htile := State.tile_updTile_self s t (subPushed ring r)
    have hbale : (subPushed ring r (s.tile t)).bale r.tailSlot = e := he.symm
    refine ⟨_, exec_subscriptionPush hr he hsub hstop hocc hst hpend hrun hsrc hok, ?_, ?_⟩
    · rw [startFill_tile, bale_setBale, if_pos rfl, htile, hbale]; rfl
    · rw [startFill_tile, ring_setBale, htile, subPushed_ring, ← hr]
      simp [rangeMoved, pushedRing]

end Sys2Proof.Proofs
end


section
/-! PROOFS. Immediate stores (R131, R132, R248-R250). -/

namespace Sys2Proof.Proofs

open Sys2Proof.Machine Sys2Proof.Safety Sys2Proof.Laws

/-! ## Marks that no byte depends on -/

/-- A tile with other poison marks and full bits. -/
def remarked (po fu : BitVec 28672) (T : Tile) : Tile := { T with mem := { T.mem with poison := po, full := fu } }

section
variable {T : Tile} (po fu : BitVec 28672)

theorem remarked_committed (a : Nat) (hf : FramesOk T) (ha : 0x8000 ≤ a) :
    (remarked po fu T).mem.commit.committed a = T.mem.commit.committed a := by
  obtain ⟨-, hframe, hbytes⟩ := commit_frames hf
  obtain ⟨-, hframe', hbytes'⟩ := commit_frames (T := remarked po fu T) hf
  have hline : (remarked po fu T).mem.commit.frameOf (lineOf a) = T.mem.commit.frameOf (lineOf a) := by
    rw [hframe, hframe']; rfl
  rw [committed_eq _ ha, committed_eq _ ha, hline]
  exact congrArg (fun m : SMap Byte => SMap.get m _ 0) (hbytes'.trans hbytes.symm)

theorem framesOk_remarked (h : FramesOk T) : FramesOk (remarked po fu T) := h

theorem storedAt_remarked {U : Tile} {e n : Nat} {v : Word} (h : StoredAt U T e n v) : StoredAt U (remarked po fu T) e n v := h

theorem remoteStored_remarked {U : Tile} {e n : Nat} {v : Word} (hf : FramesOk T) (h : RemoteStored U T e n v) :
    RemoteStored U (remarked po fu T) e n v := by
  obtain ⟨hs, hv⟩ := h
  refine ⟨hs, fun hr => ?_⟩
  obtain ⟨hcommit, hother, hown⟩ := hv hr
  have he := (region_data hr).1
  exact ⟨fun i hi => (remarked_committed po fu _ hf (by omega)).trans (hcommit i hi), hother, hown⟩

end

/-! ## The store at its destination (R249) -/

/-- An engine's write makes what a strand's write makes, and beside it sets full bits. -/
theorem writeV_engine {T : Tile} {remote poison : Bool} {a : Nat} {bs : List Byte} {w : Wrote} (h : T.writeV remote true a bs poison = some w) :
    ∃ w' fu, T.writeV remote false a bs poison = some w' ∧ w.tile = remarked w'.tile.mem.poison fu w'.tile := by
  unfold Tile.writeV at h ⊢
  obtain ⟨x, hx, rfl⟩ := Option.map_eq_some_iff.mp h
  exact ⟨_, _, Option.map_eq_some_iff.mpr ⟨x, hx, rfl⟩, rfl⟩

/-- Stores of bytes at once differ only in the marks that they give. -/
theorem writeS_remarked (T : Tile) (a : Nat) (bs : List Byte) (poison : Bool) :
    T.writeS true a bs poison =
      remarked (T.writeS true a bs poison).mem.poison (T.writeS true a bs poison).mem.full (T.writeS false a bs false) := rfl

/-- An engine's store of an aligned word sets its full bit. -/
theorem writeS_full (T : Tile) {a : Nat} {bs : List Byte} (poison : Bool) (hl : bs.length = 8) (ha : 0x8000 ≤ a) (hlt : a < 0x40000) :
    (T.writeS true (a / 8 * 8) bs poison).mem.full.getLsbD (wordIx a) = true := by
  have hone : (a / 8 * 8 - 0x8000 + bs.length) / 8 - (a / 8 * 8 - 0x8000 + 7) / 8 = 1 := by omega
  have hix : wordIx a = (a / 8 * 8 - 0x8000 + 7) / 8 := by simp only [wordIx]; omega
  change (withBits (T.mem.putBytes _ bs).full ((a / 8 * 8 - 0x8000 + 7) / 8)
    ((a / 8 * 8 - 0x8000 + bs.length) / 8 - (a / 8 * 8 - 0x8000 + 7) / 8)
    (2 ^ ((a / 8 * 8 - 0x8000 + bs.length) / 8 - (a / 8 * 8 - 0x8000 + 7) / 8) - 1)).getLsbD (wordIx a) = true
  rw [hone, ← hix, getLsbD_withBits _ _ _ _ _ (by simp only [wordIx]; omega), if_pos (by omega), Nat.sub_self]
  rfl

/-- The bytes of the word that a store of n bytes falls in. -/
def mergedWord (T : Tile) (a n : Nat) (v : Word) : List Byte :=
  (List.range 8).map fun i =>
    if a ≤ a / 8 * 8 + i ∧ a / 8 * 8 + i < a + n then BitVec.ofNat 8 (v.toNat / 256 ^ (a / 8 * 8 + i - a)) else T.byteAt (a / 8 * 8 + i)

theorem mergedWord_getD (T : Tile) (a n : Nat) (v : Word) {i : Nat} (hi : i < 8) : (mergedWord T a n v).getD i 0 =
    if a ≤ a / 8 * 8 + i ∧ a / 8 * 8 + i < a + n then BitVec.ofNat 8 (v.toNat / 256 ^ (a / 8 * 8 + i - a)) else T.byteAt (a / 8 * 8 + i) := by
  simp [mergedWord, List.getD_eq_getElem?_getD, hi]

theorem wordByte_extract (v : Word) (i : Nat) : BitVec.ofNat 8 (v.toNat / 256 ^ i) = v.extractLsb' (8 * i) 8 := by
  apply BitVec.eq_of_toNat_eq
  rw [BitVec.toNat_ofNat, BitVec.extractLsb'_toNat, Nat.shiftRight_eq_div_pow, Nat.pow_mul]

theorem performStore_scratch {T : Tile} {a : Nat} {n : Nat} {v : Word} (hf : FramesOk T) (hr : T.region a = .seg .s) (hn : a % 8 + n ≤ 8) :
    ∃ w, T.performStore true a n v = some w ∧ w.conflict = false ∧ StoredAt T w.tile a n v ∧ FramesOk w.tile ∧
      w.tile.mem.full.getLsbD (wordIx a) = true := by
  obtain ⟨hge, hlt⟩ := region_data hr
  obtain ⟨poison, hpoison⟩ : ∃ poison, poison = (decide (n < 8) && T.poisonAt (a / 8 * 8)) := ⟨_, rfl⟩
  have hword : T.region (a / 8 * 8) = .seg .s := by
    have hline : lineOf (a / 8 * 8) = lineOf a := by simp only [lineOf]; omega
    rw [← hr, ← region_line T a hge, ← region_line T (a / 8 * 8) (by omega), hline]
  have hlen : (mergedWord T a n v).length = 8 := by simp [mergedWord]
  have hstore : T.store (a / 8 * 8) (mergedWord T a n v) = some ⟨T.writeS false (a / 8 * 8) (mergedWord T a n v) false, false⟩ := by
    rw [Tile.store, Tile.writeLine, hword]
  obtain ⟨hin, hout, hreg, hframes⟩ := store_reads hf ((vs_iff _).2 (.inr hword)) (by rw [hlen]; omega) hstore
  rw [hlen] at hin hout
  refine ⟨⟨T.writeS true (a / 8 * 8) (mergedWord T a n v) poison, false⟩, ?_, rfl, ?_, ?_, writeS_full T poison hlen hge hlt⟩
  · rw [Tile.performStore, hr, hpoison]; rfl
  · rw [writeS_remarked]
    refine storedAt_remarked _ _ ⟨fun i hi => ?_, fun b hb ho => ?_, hreg⟩
    · have hb := hin (a % 8 + i) (by omega)
      rw [mergedWord_getD _ _ _ _ (by omega), if_pos (by omega), show a / 8 * 8 + (a % 8 + i) = a + i by omega,
        show a + i - a = i by omega] at hb
      exact hb.trans (wordByte_extract v i)
    · by_cases hw : a / 8 * 8 ≤ b ∧ b < a / 8 * 8 + 8
      · have hb' := hin (b - a / 8 * 8) (by omega)
        rw [mergedWord_getD _ _ _ _ (by omega), if_neg (by omega), show a / 8 * 8 + (b - a / 8 * 8) = b by omega] at hb'
        exact hb'
      · exact hout b hb (by omega)
  · rw [writeS_remarked]; exact framesOk_remarked _ _ hframes

theorem performStore_versioned {T : Tile} {a n : Nat} {v : Word} (hf : FramesOk T) (hr : T.region a = .seg .v) (hd : HasDelta T a)
    (hlen : a % 128 + n ≤ 128) : ∃ w, T.performStore true a n v = some w ∧ RemoteStored T w.tile a n v ∧ FramesOk w.tile := by
  have hvs : (T.region a).vs = true := (vs_iff _).2 (.inl hr)
  obtain ⟨w, hw⟩ := writeLine_isSome hvs hd true true (toBytes n v.toNat) false
  rw [Tile.writeLine, hr] at hw
  obtain ⟨w', fu, hw', htile⟩ := writeV_engine hw
  have hline : T.writeLine true false a (toBytes n v.toNat) false = some w' := by rw [Tile.writeLine, hr]; exact hw'
  obtain ⟨hstored, hframes⟩ := writeLine_remote hf hvs hlen hline
  refine ⟨w, by rw [Tile.performStore, hr]; exact hw, ?_, ?_⟩
  · rw [htile]; exact remoteStored_remarked _ fu hframes hstored
  · rw [htile]; exact framesOk_remarked _ fu hframes

theorem performStore_told {T : Tile} {a : Nat} {sz : Size} {v : Word} (hf : FramesOk T) (hr : (T.region a).vs = true) (hd : HasDelta T a)
    (ha : a % sz.bytes = 0) : ∃ w, T.performStore true a sz.bytes v = some w ∧ RemoteStored T w.tile a sz.bytes v ∧ FramesOk w.tile ∧
      (T.region a = .seg .s → w.conflict = false ∧ w.tile.mem.full.getLsbD (wordIx a) = true) := by
  have hword : a % 8 + sz.bytes ≤ 8 := by cases sz <;> simp only [Size.bytes] at ha ⊢ <;> omega
  rcases (vs_iff _).1 hr with hv | hs
  · obtain ⟨w, hw, hstored, hframes⟩ := performStore_versioned (v := v) (n := sz.bytes) hf hv hd (by omega)
    exact ⟨w, hw, hstored, hframes, fun hs => by rw [hv] at hs; cases hs⟩
  · obtain ⟨w, hw, hc, hstored, hframes, hfull⟩ := performStore_scratch (v := v) hf hs hword
    exact ⟨w, hw, ⟨fun _ => hstored, fun hv => by rw [hs] at hv; cases hv⟩, hframes, fun _ => ⟨hc, hfull⟩⟩

/-! ## IST and ISTF.D (R248) -/

/-- A store put in flight. -/
def storeSent (s : State) (i : Ist) : State := { s with ists := s.ists ++ [i], netOrd := s.netOrd + 1 }

section
variable {s : State} {q : Gang} {sz : Size} {x y : SReg} {off dest : Nat}

theorem immediateStore_sends (sy : Sync) (fenced : Bool) (hx : s.me.tag x = false) (hy : s.me.tag y = false) (hq : s.gangOf s.curTile = some q)
    (hoff : off = bitsOf (s.me.rd y) 0 18) (hdest : dest = bitsOf (s.me.rd y) 32 23) (hal : off % sz.bytes = 0) (hlow : 0x8000 ≤ off)
    (h1 : bitsOf (s.me.rd y) 18 14 = 0) (h2 : bitsOf (s.me.rd y) 55 9 = 0) (hsize : dest < q.size)
    (hfew : (s.ists.filter fun j => j.src == s.curTile).length < 64) :
    s.immediateStore fenced sz x y sy = .done (storeSent s
      ⟨s.curTile, s.curStrand, q.tileAt dest, off, sz, s.me.rd x, sy, fenced, false, false, s.netOrd⟩) := by
  subst hoff hdest
  have hfew' : ¬ 64 ≤ (s.ists.filter fun i => decide (i.src = s.curTile)).length := by
    simpa only [beq_eq_decide] using Nat.not_le.mpr hfew
  have hdest : ¬ (bitsOf (s.me.rd y) 18 14 ≠ 0 ∨ bitsOf (s.me.rd y) 55 9 ≠ 0 ∨ q.size ≤ bitsOf (s.me.rd y) 32 23 ∨
      bitsOf (s.me.rd y) 0 18 < 0x8000) := by
    rintro (h | h | h | h) <;> omega
  simp only [State.immediateStore, hx, hy, hq, hal, hdest, hfew', Bool.false_eq_true, if_false, ne_eq, not_true_eq_false, Option.bind_some]
  rfl

theorem takeWait_gangOf (s : State) (sy : Sync) : (s.takeWait sy).gangOf s.curTile = s.gangOf s.curTile := by
  obtain ⟨⟨-, -, -, hg, -⟩, -, -, hgang, -⟩ := loaderOnly_takeWait s sy
  simp only [State.gangOf, hg, hgang]

theorem takeWait_ists (s : State) (sy : Sync) : (s.takeWait sy).ists = s.ists := by
  rcases takeWait_withSems s sy with h | ⟨m, h⟩
  · rw [h]
  · rw [h]; rfl

end

theorem exec_store {s : State} {g : Guard} {sz : Size} {x y : SReg} {sy : Sync} {fenced : Bool} {i : Instr}
    (hi : (i = .ist g sz x y sy ∧ fenced = false) ∨ (i = .istfD g x y sy ∧ fenced = true ∧ sz = .d)) (h : Clears s (ordinary g))
    (hw : s.waitMet sy = true) {z u : State} (h0 : s.immediateStore fenced sz x y sy = .done z)
    (h1 : (s.takeWait sy).immediateStore fenced sz x y sy = .done u) : exec i s = .next (retired s u) := by
  rcases hi with ⟨rfl, rfl⟩ | ⟨rfl, rfl, rfl⟩
  · change execIst g sz x y sy s = _
    exact issue_engine (i := { head := 0xF300 + sz.code.toNat, guard := g, sync := sy, sigNow := false }) h rfl rfl rfl hw ⟨z, h0⟩ h1
  · change execIstfD g x y sy s = _
    exact issue_engine (i := { head := 0xF304, guard := g, sync := sy, sigNow := false }) h rfl rfl rfl hw ⟨z, h0⟩ h1

/-! ## Arrival and completion (R249, R250) -/

section
variable {s : State} {n d : Nat} {i : Ist}

theorem exec_storeArrival (hi : s.ists[n]? = some i) (hl : i.landed = false) (hready : s.storeReady n i = true) (hd : i.dest = some d)
    (hb : s.behind i.src d = false) (hg : (s.tile d).gatedAt i.addr = false) (hne : i.src ≠ d) (r : State × Bool)
    (hr : r = s.landStore true d i.addr i.size.bytes i.data) :
    exec (.immediateStoreArrival n none) s =
      .next { r.1 with ists := r.1.ists.set n { i with landed := true, report := r.2 } } := by
  subst hr
  change execImmediateStoreArrival n none s = _
  simp only [execImmediateStoreArrival, hi, hl, hready, hd, hb, hg, Bool.false_eq_true, Bool.not_true, or_self, if_false, ne_eq,
    Ne.symm hne, not_false_eq_true, decide_true]

/-- Where a store lands, its tile holds what the store makes of it, with a vote of its own at most. -/
theorem landStore_told {a k : Nat} {v : Word} {w : Wrote} (hr : ((s.tile d).region a).vs = true)
    (hw : (s.tile d).performStore true a k v = some w) (r : State × Bool) (hland : r = s.landStore true d a k v) :
    (∃ x, r.1.tile d = { w.tile with vote := x }) ∧ OtherTilesSame s r.1 d ∧ r.1.mem = s.mem ∧ r.1.ists = s.ists ∧
      (w.conflict = false → r.2 = false) := by
  have hset : ∀ z, z = s.setTile d w.tile → z.tile d = w.tile ∧ OtherTilesSame s z d := by
    rintro z rfl
    exact ⟨State.tile_setTile_self .., fun u hu => State.tile_updTile_ne s hu fun _ => w.tile⟩
  obtain ⟨htile, hother⟩ := hset _ rfl
  simp only [State.landStore, hr, hw, Bool.not_true, Bool.false_eq_true, if_false] at hland
  split at hland
  · rename_i hc
    split at hland
    · rw [hland]
      exact ⟨⟨w.tile.vote, htile⟩, hother, rfl, rfl, fun h => by rw [hc] at h; cases h⟩
    · obtain ⟨⟨x, hx⟩, hvote, -, hmem⟩ := raiseVote_leaves (s.setTile d w.tile) d 3 0x0C
      rw [hland]
      refine ⟨⟨x, hx.trans (by rw [htile])⟩, fun u hu => (hvote u hu).trans (hother u hu), hmem, ?_, fun _ => rfl⟩
      rw [State.raiseVote]; split <;> rfl
  · rw [hland]
    exact ⟨⟨w.tile.vote, htile⟩, hother, rfl, rfl, fun _ => rfl⟩

/-- A completion delivers its signal and drops the store. -/
theorem signalled_told {x : State} {t : Nat} {sy : Sync} (hx : x.tiles = s.tiles) :
    (signalled x t sy).ists = x.ists ∧ Signalled s (signalled x t sy) t sy ∧ OtherTilesSame s (signalled x t sy) t := by
  obtain ⟨m, hm, hget⟩ := signalled_updTile x t sy
  refine ⟨?_, fun k => ?_, fun u hu => ?_⟩
  · rw [signalled]; split <;> rfl
  · have hk := hget k
    rw [tile_of_tiles hx] at hk
    simp only [Tile.sem, hm] at hk ⊢
    exact hk
  · rw [← tile_of_tiles hx u, signalled]
    split
    · rfl
    · exact State.tile_updTile_ne x hu _

theorem exec_storeComplete (hi : s.ists[n]? = some i) (hl : i.landed = true) (hr : i.report = false) (t : Nat)
    (ht : t = i.src ∧ i.sy.site ≠ 1 ∨ i.sy.site = 1 ∧ i.dest = some t) :
    exec (.immediateStoreComplete n false) s = .next ({ s with ists := s.ists.eraseIdx n }.engineSignal t i.sy) := by
  change execImmediateStoreComplete n false s = _
  rcases ht with ⟨rfl, hsite⟩ | ⟨hsite, hdest⟩
  · simp only [execImmediateStoreComplete, hi, hl, hr, hsite, State.noteConflict, Bool.and_false, Bool.or_false, Bool.not_true,
      Bool.false_eq_true, if_false]
  · simp only [execImmediateStoreComplete, hi, hl, hr, hsite, hdest, State.noteConflict, Bool.and_false, Bool.or_false, Bool.not_true,
      Bool.false_eq_true, if_false, if_true]

end

theorem storeComplete_told {s : State} {n : Nat} {i : Ist} (hi : s.ists[n]? = some i) (hl : i.landed = true) (hr : i.report = false) (t : Nat)
    (ht : t = i.src ∧ i.sy.site ≠ 1 ∨ i.sy.site = 1 ∧ i.dest = some t) (hfit : SignalFits s t i.sy) :
    ∃ u, exec (.immediateStoreComplete n false) s = .next u ∧ u.ists = s.ists.eraseIdx n ∧ Signalled s u t i.sy ∧ OtherTilesSame s u t := by
  obtain ⟨x, hx⟩ : ∃ x : State, x = { s with ists := s.ists.eraseIdx n } := ⟨_, rfl⟩
  have hfit' : SignalFits x t i.sy := by rw [hx]; exact hfit
  obtain ⟨hists, hsig, hother⟩ := signalled_told (s := s) (x := x) (t := t) (sy := i.sy) (by rw [hx])
  refine ⟨_, (exec_storeComplete hi hl hr t ht).trans ?_, hists.trans (by rw [hx]), hsig, hother⟩
  rw [← hx, engineSignal_fits hfit']

/-! ## The obligation -/

/-- Settles O39: a store is put in flight, is performed at its destination as another tile's write, and completes with its signal. -/
theorem immediateStores : Obligations.ImmediateStores := by
  unfold Obligations.ImmediateStores
  refine ⟨?_, ?_, fun s n i hi hl hr => ⟨fun hsite hfit => ?_, fun d hsite hd hfit => ?_⟩⟩
  · intro s g x y sy sz fenced i q off dest hi h hw hx hy hq hoff hdest hal hlow h1 h2 hsize hfew
    obtain ⟨⟨hcur, hk, hmem, -⟩, hother, -, -, htmem⟩ := loaderOnly_takeWait s sy
    have hme := takeWait_me s sy
    have hists := takeWait_ists s sy
    obtain ⟨hord, -⟩ := takeWait_order s sy
    have hnow := immediateStore_sends (sz := sz) sy fenced hx hy hq hoff hdest hal hlow h1 h2 hsize hfew
    have hthen := immediateStore_sends (s := s.takeWait sy) (x := x) (y := y) (sz := sz) (q := q) (off := off) (dest := dest) sy fenced
      (by rw [hme]; exact hx) (by rw [hme]; exact hy) (by rw [hcur, takeWait_gangOf]; exact hq) (by rw [hme]; exact hoff)
      (by rw [hme]; exact hdest) hal hlow (by rw [hme]; exact h1) (by rw [hme]; exact h2) hsize (by rw [hists, hcur]; exact hfew)
    rw [hcur, hk, hme, hord] at hthen
    refine ⟨_, exec_store hi h hw hnow hthen, (me_of_tiles rfl rfl rfl).trans hme, hmem, ?_, hother, ?_⟩
    · change ((s.takeWait sy).tile (s.takeWait sy).curTile).mem = _
      rw [hcur]; exact htmem
    · rw [← hists]; rfl
  · intro s n d i hi hl hready hd hal hb hg hr hdelta hf hne
    obtain ⟨w, hw, hstored, hframes, hs⟩ := performStore_told (v := i.data) hf hr hdelta hal
    obtain ⟨⟨x, hx⟩, hother, hmem, hists, hreport⟩ := landStore_told hr hw _ rfl
    refine ⟨_, _, exec_storeArrival hi hl hready hd hb hg hne _ rfl, ?_, ?_, fun hseg => ⟨hreport (hs hseg).1, ?_⟩, ?_, hother, hmem⟩
    · change RemoteStored _ ((s.landStore true d i.addr i.size.bytes i.data).1.tile d) _ _ _
      rw [hx]; exact hstored
    · change FramesOk ((s.landStore true d i.addr i.size.bytes i.data).1.tile d)
      rw [hx]; exact hframes
    · change ((s.landStore true d i.addr i.size.bytes i.data).1.tile d).mem.full.getLsbD _ = true
      rw [hx]; exact (hs hseg).2
    · exact congrArg (fun l : List Ist => l.set n _) hists
  · exact storeComplete_told hi hl hr i.src (.inl ⟨rfl, hsite⟩) hfit
  · exact storeComplete_told hi hl hr d (.inr ⟨hsite, hd⟩) hfit

end Sys2Proof.Proofs
end


section
/-! PROOFS. A request at the memory side: suspended, refused, waiting or served (R270, R287, R290). -/

namespace Sys2Proof.Proofs

open Sys2Proof.Machine Sys2Proof.Safety Sys2Proof.Laws

/-! ## The turn of a request -/

/-- The n-th request, of which no word has moved, can take its turn: nothing holds it, and its view gives its addresses. -/
structure Servable (s : State) (n : Nat) (r : Req) (vas : List Nat) : Prop where
  listed : s.reqs[n]? = some r
  awake : r.suspended = false
  whole : r.moved = []
  order : s.inOrder r = true
  free : ∀ i, s.wordHeld r i = false
  ungated : s.wakeFor r.tile r.off r.len = none
  placed : s.reqVas r = some vas

/-- What the base die does for a request once its pages are known (R287). -/
def answerPages (s : State) (n : Nat) (r : Req) (vas : List Nat) : Pages → Host.Outcome State Fault Refusal
  | .beyond a => .fault (.noSuchTierAddress a)
  | .nonCanonical a => .next (s.failReq n r 0x18 a)
  | .fault a => .next (s.suspendReq n r a)
  | .ok ps =>
    match ps.findSome? fun p => s.pageCause r.tile r.write (decide (r.view ≠ 0)) p.e with
    | some c => .next (s.failReq n r c r.va.toNat)
    | none =>
      if ps.any s.frozenPage then .next (s.freezeReq n r)
      else .next (if r.write then (s.beginWork r).performWrite n r none ps vas else (s.beginWork r).performRead n r none ps vas)

theorem exec_memoryRequest {s : State} {n : Nat} {r : Req} {vas : List Nat} (h : Servable s n r vas) :
    exec (.memoryRequest n) s = answerPages s n r vas (s.translate r.root (s.tile r.tile).gang (pageHeads vas)) := by
  obtain ⟨hn, hs, -, ho, hw, hg, hv⟩ := h
  have hheld : ((List.range (r.len / 8)).filter (r.due none)).any (s.wordHeld r) = false := by
    simp only [List.any_eq_false, hw, Bool.false_eq_true, not_false_eq_true, implies_true]
  change s.serve n none = _
  simp only [State.serve, hn, hs, ho, hheld, hv, Option.isSome_none, Bool.false_eq_true, Bool.not_true, false_and, or_self, if_false,
    Option.getD_none, Nat.mul_zero, Nat.add_zero, hg]
  cases s.translate r.root (s.tile r.tile).gang (pageHeads vas) <;> rfl

/-! ## A fault (R290) -/

/-- A tile with other bale entries and another transfer queue. -/
def engaged (bales : SMap Bale) (q : List Xfer) (T : Tile) : Tile := { T with ctl := { T.ctl with bales := bales }, xq := q }

theorem setBale_engaged (T : Tile) (k : Nat) (b : Bale) : ∃ bales, T.setBale k b = engaged bales T.xq T := ⟨_, rfl⟩

theorem beginFill_engaged (T : Tile) (k : Nat) : ∃ bales, T.beginFill k = engaged bales T.xq T := by
  rw [Tile.beginFill]
  split
  · exact ⟨_, rfl⟩
  · exact ⟨T.ctl.bales, rfl⟩

theorem setFault_engaged (T : Tile) (k : Nat) (v : Bool) : ∃ bales, T.setFault k v = engaged bales T.xq T := by
  rw [Tile.setFault]
  split
  · exact ⟨_, rfl⟩
  · exact ⟨T.ctl.bales, rfl⟩

section
variable {s : State} {n : Nat} {r : Req}

theorem faulted_engaged (T : Tile) (k : Nat) : ∃ bales, (T.beginFill k).setFault k true = engaged bales T.xq T := by
  obtain ⟨bales, hbegin⟩ := beginFill_engaged T k
  obtain ⟨bales', hfault⟩ := setFault_engaged (T.beginFill k) k true
  exact ⟨bales', by rw [hfault, hbegin]; rfl⟩

/-- A state with other requests. -/
def withReqs (s : State) (l : List Req) : State := { s with reqs := l }

/-- A tile that a suspended request fills takes FAULT, when it fills one of its bales. -/
def faulted (s : State) (t : Nat) (slot : Option Nat) : State :=
  match slot with
  | some b => s.updTile t fun T => (T.beginFill b).setFault b true
  | none => s

theorem faulted_told (s : State) (t : Nat) (slot : Option Nat) : (faulted s t slot).reqs = s.reqs ∧ (faulted s t slot).mem = s.mem ∧
    (faulted s t slot).reports = s.reports ∧ OtherTilesSame s (faulted s t slot) t ∧
    ∃ bales, (faulted s t slot).tile t = engaged bales (s.tile t).xq (s.tile t) := by
  cases slot with
  | none => exact ⟨rfl, rfl, rfl, fun _ _ => rfl, (s.tile t).ctl.bales, rfl⟩
  | some b =>
    obtain ⟨bales, hbales⟩ := faulted_engaged (s.tile t) b
    exact ⟨rfl, rfl, rfl, fun u hu => State.tile_updTile_ne s hu _, bales, (State.tile_updTile_self s t _).trans hbales⟩

theorem suspendReq_told (s : State) (n : Nat) (r : Req) (a : Nat) :
    (s.suspendReq n r a).reqs = s.reqs.set n { r with suspended := true, faultVa := a } ∧ (s.suspendReq n r a).mem = s.mem ∧
      OtherTilesSame s (s.suspendReq n r a) r.tile ∧ ((s.suspendReq n r a).tile r.tile).mem = (s.tile r.tile).mem ∧
      (s.suspendReq n r a).reports = s.reports ++ [.pageFault (s.tile r.tile).gang (bitsOf (s.tile r.tile).ctl.plbctl 0 16)
        (BitVec.ofNat 64 a) r.write] := by
  obtain ⟨l, hl⟩ : ∃ l, l = s.reqs.set n { r with suspended := true, faultVa := a } := ⟨_, rfl⟩
  obtain ⟨x, hx⟩ : ∃ x, x = faulted (withReqs s l) r.tile ((withReqs s l).filledSlot r) := ⟨_, rfl⟩
  have hsuspend : s.suspendReq n r a = x.report (.pageFault (s.tile r.tile).gang (bitsOf (x.tile r.tile).ctl.plbctl 0 16)
      (BitVec.ofNat 64 a) r.write) := by
    rw [hx, hl]; rfl
  obtain ⟨hreqs, hmem, hreports, hother, bales, htile⟩ := faulted_told (withReqs s l) r.tile ((withReqs s l).filledSlot r)
  rw [← hx] at hreqs hmem hreports hother htile
  rw [hsuspend, ← hl, htile]
  refine ⟨hreqs, hmem, hother, ?_, ?_⟩
  · have hkept : (x.tile r.tile).mem = (s.tile r.tile).mem := by rw [htile]; rfl
    exact hkept
  · rw [State.report, hreports]; rfl

/-! ## A request that fails (R287) -/

theorem dropWork_told (s : State) (n : Nat) (r : Req) :
    (s.dropWork n r).reqs = s.reqs.eraseIdx n ∧ (s.dropWork n r).mem = s.mem ∧ OtherTilesSame s (s.dropWork n r) r.tile ∧
      ∃ lost q, (s.dropWork n r).tile r.tile = { s.tile r.tile with lostFills := lost, xq := q } := by
  refine ⟨rfl, rfl, fun u hu => State.tile_updTile_ne _ hu _, ?_⟩
  rw [State.dropWork, State.tile_updTile_self]
  cases s.filledSlot r <;> cases r.what <;> exact ⟨_, _, rfl⟩

/-- A tile's failure drops requests of its own only. -/
theorem failTile_reqs (s : State) {t : Nat} (hst : isSteward t = false) (v : BitVec 2) (c : BitVec 8) :
    (s.failTile t v c).reqs.Sublist s.reqs ∧ ∀ q ∈ s.reqs, q.tile ≠ t → q ∈ (s.failTile t v c).reqs := by
  simp only [State.failTile, hst, Bool.false_eq_true, if_false, State.cancelWork, State.raiseVote]
  refine ⟨List.filter_sublist, fun q hq hne => List.mem_filter.mpr ⟨hq, ?_⟩⟩
  simp only [hne, if_false]

/-- A failed request is gone, with it what its tile drops, and its tile votes ABORT; only its tile changes. -/
def FailedReq (s u : State) (n : Nat) (r : Req) (c : BitVec 8) : Prop :=
  (u.tile r.tile).vote = (s.tile r.tile).vote.raise 1 c ∧ (u.tile r.tile).seq.failed = true ∧ OtherTilesSame s u r.tile ∧ u.mem = s.mem ∧
    u.reqs.Sublist (s.reqs.eraseIdx n) ∧ ∀ q ∈ s.reqs.eraseIdx n, q.tile ≠ r.tile → q ∈ u.reqs

theorem dropWork_fails (hst : isSteward r.tile = false) (c : BitVec 8) : FailedReq s ((s.dropWork n r).failTile r.tile 1 c) n r c := by
  obtain ⟨hreqs, hmem, hother, lost, q, htile⟩ := dropWork_told s n r
  obtain ⟨hvote, hfailed⟩ := failTile_vote (s.dropWork n r) r.tile hst 1 c
  obtain ⟨hsub, hkept⟩ := failTile_reqs (s.dropWork n r) hst 1 c
  rw [htile] at hvote
  rw [hreqs] at hsub hkept
  exact ⟨hvote, hfailed, fun u hu => (failTile_otherTiles hst 1 c u hu).trans (hother u hu), (failTile_mem hst 1 c).1.trans hmem, hsub, hkept⟩

theorem failReq_plain {c : Nat} (h : c ≠ 0x18) (h' : c ≠ 0x0B) (va : Nat) :
    s.failReq n r c va = (s.dropWork n r).failTile r.tile 1 (BitVec.ofNat 8 c) := by
  rw [State.failReq, if_neg (by rintro (e | e); exacts [h e, h' e])]

/-- The causes of a page's checks are PROTECTION and UNIMPLEMENTED. -/
theorem pageCause_cases {t : Nat} {write view : Bool} {e : Word} {c : Nat} (h : s.pageCause t write view e = some c) : c = 0x06 ∨ c = 0x1B := by
  rw [State.pageCause] at h
  split_ifs at h <;> simp_all

end

/-! ## Work that begins (R142, R152) -/

theorem startXfer_engaged (T : Tile) (tag : Nat) : ∃ bales q, T.startXfer tag = engaged bales q T := by
  rw [Tile.startXfer]
  cases T.xq.find? (fun e => decide (e.tag = tag)) with
  | none => exact ⟨_, _, rfl⟩
  | some e =>
    simp only []
    split
    · split
      · exact ⟨_, _, rfl⟩
      · split
        · obtain ⟨bales, h⟩ := beginFill_engaged (T := _) (k := _)
          exact ⟨bales, _, h⟩
        · exact ⟨_, _, rfl⟩
    · exact ⟨_, _, rfl⟩

/-- The work of a request that begins changes the tile's queue and its bales at most. -/
theorem beginWork_engaged (s : State) (r : Req) : s.beginWork r = s ∨
    ∃ bales q, s.beginWork r = s.setTile r.tile (engaged bales q (s.tile r.tile)) := by
  rw [State.beginWork]
  cases r.what with
  | xfer g =>
    obtain ⟨bales, q, h⟩ := startXfer_engaged (s.tile r.tile) g
    exact .inr ⟨bales, q, congrArg (s.setTile r.tile) h⟩
  | fill b =>
    obtain ⟨bales, h⟩ := beginFill_engaged (s.tile r.tile) b
    exact .inr ⟨bales, _, congrArg (s.setTile r.tile) h⟩
  | drain b => exact .inl rfl

/-! ## Words that the tile takes (R129, R145) -/

/-- A write with the bale entries and the queue of the tile replaced. -/
def engagedWrote (bales : SMap Bale) (q : List Xfer) (w : Wrote) : Wrote := ⟨engaged bales q w.tile, w.conflict⟩

section
variable (bales : SMap Bale) (q : List Xfer)

theorem writeLine_engaged (T : Tile) (remote engine : Bool) (a : Nat) (bs : List Byte) (poison : Bool) :
    (engaged bales q T).writeLine remote engine a bs poison = (T.writeLine remote engine a bs poison).map (engagedWrote bales q) := by
  have hregion : (engaged bales q T).region a = T.region a := rfl
  rw [Tile.writeLine, Tile.writeLine, hregion]
  cases T.region a with
  | code => rfl
  | none => rfl
  | seg x =>
    cases x with
    | v => rw [Tile.writeV, Tile.writeV, Option.map_map]; rfl
    | s => rfl
    | d => rfl

theorem putWords_engaged (ws : List (Nat × Word × Bool)) : ∀ T : Tile,
    (engaged bales q T).putWords ws = (T.putWords ws).map (engagedWrote bales q) := by
  induction ws with
  | nil => exact fun T => rfl
  | cons w rest ih =>
    intro T
    simp only [Tile.putWords, Tile.writeWords, writeLine_engaged]
    cases T.writeLine false true w.1 (toBytes 8 w.2.1.toNat) w.2.2 with
    | none => rfl
    | some v =>
      simp only [Option.map_some, Option.bind_some, engagedWrote, ih]
      cases v.tile.putWords rest <;> rfl

end

/-! ## The words of a request that has moved none -/

theorem chunks_length {α : Type} (n : Nat) : ∀ (k : Nat) (l : List α), (chunks n k l).length = k
  | 0, _ => rfl
  | k + 1, l => congrArg (· + 1) (chunks_length n k (l.drop n))

theorem chunks_flatten {α : Type} (n : Nat) : ∀ (k : Nat) (l : List α), (chunks n k l).flatten = l.take (n * k)
  | 0, l => by simp [chunks]
  | k + 1, l => by
    rw [chunks, List.flatten_cons, chunks_flatten n k (l.drop n), Nat.mul_succ, Nat.add_comm, List.take_add]

/-- The words of a request with the virtual addresses of their bytes. -/
def wordVas (r : Req) (vas : List Nat) : List (Nat × List Nat) := (List.range (r.len / 8)).zip (chunks 8 (r.len / 8) vas)

theorem pick_all {r : Req} (h : r.moved = []) (vas : List Nat) : r.pick none vas = wordVas r vas := by
  rw [Req.pick, wordVas, List.filter_eq_self]
  intro iv _
  simp [Req.due, h]

theorem wordVas_flat (r : Req) (vas : List Nat) : (wordVas r vas).flatMap (·.2) = vas.take (8 * (r.len / 8)) := by
  have hsnd : (wordVas r vas).map (·.2) = chunks 8 (r.len / 8) vas := by
    rw [wordVas, List.map_snd_zip]
    rw [chunks_length, List.length_range]
  rw [List.flatMap_def, hsnd, chunks_flatten]

theorem wordVas_numbers {α : Type} (r : Req) (vas : List Nat) (f : Nat → α) :
    (wordVas r vas).map (fun iv => f iv.1) = (List.range (r.len / 8)).map f := by
  have hfst : (wordVas r vas).map (·.1) = List.range (r.len / 8) := by
    rw [wordVas, List.map_fst_zip]
    rw [chunks_length, List.length_range]
  rw [← hfst, List.map_map]
  rfl

/-- A word of bytes that one unit after another supplies is read as the whole word is (R276, R294). -/
theorem readWordOf_unopened {s : State} {r : Req} (h : r.opened = []) (as : List Nat) :
    s.readWordOf r as = s.readWordVia r.part r.view r.badGranules as := by
  have hopen : ∀ a, s.asOpened r a = s := fun a => by rw [State.asOpened, h]; rfl
  have hbyte : ∀ b : Byte, (BitVec.ofNat 64 (ofBytes [b])).setWidth 8 = b := fun b => by
    apply BitVec.eq_of_toNat_eq
    simp [ofBytes]
  simp only [State.readWordOf, hopen, State.readWordVia, List.map_map, List.map_cons, List.map_nil, List.any_cons, List.any_nil, Bool.or_false]
  refine Prod.ext ?_ ?_
  · refine congrArg (fun l => BitVec.ofNat 64 (ofBytes l)) (List.map_congr_left fun a _ => ?_)
    exact hbyte _
  · induction as with
    | nil => rfl
    | cons a as ih =>
      simp only [List.map_cons, List.any_cons] at ih ⊢
      rw [ih]
      simp only [Bool.or_assoc, Bool.or_left_comm]

/-! ## A read (R145) -/

theorem noteConflict_reqs (s : State) (t : Nat) (c : Bool) : (s.noteConflict t c).reqs = s.reqs := by
  rw [State.noteConflict, State.raiseVote]
  split_ifs <;> rfl

/-- The words that a whole request reads. -/
def readWords (s : State) (r : Req) (ps : List Page) (vas : List Nat) : List (Nat × Word × Bool) :=
  (wordVas r vas).map fun iv => (iv.1, s.readWordVia r.part r.view r.badGranules (iv.2.map (physIn ps)))

theorem performRead_eq {s : State} {n : Nat} {r : Req} {ps : List Page} {vas : List Nat} {w : Wrote} (hm : r.moved = []) (ho : r.opened = [])
    (hw : (s.tile r.tile).writeAt r.off (readWords s r ps vas) = some w) :
    s.performRead n r none ps vas = ((s.drawn.setTile r.tile w.tile).noteConflict r.tile w.conflict).dropReq n := by
  have hwords : ((r.pick none vas).map fun iv => (iv.1, iv.2.map (physIn ps))).map (fun ia => (ia.1, s.readWordOf r ia.2)) =
      readWords s r ps vas := by
    rw [pick_all hm, List.map_map]
    exact List.map_congr_left fun iv _ => congrArg (Prod.mk iv.1) (readWordOf_unopened ho _)
  simp only [State.performRead, hwords, hw]
  rfl

theorem drawn_reqs (s : State) : s.drawn.reqs = s.reqs := by
  rw [State.drawn]; split <;> rfl

/-- What a read whose words the tile takes leaves. -/
theorem performRead_told {s : State} {n : Nat} {r : Req} {ps : List Page} {vas : List Nat} {w : Wrote} (hm : r.moved = []) (ho : r.opened = [])
    (hw : (s.tile r.tile).writeAt r.off (readWords s r ps vas) = some w) (u : State) (hu : u = s.performRead n r none ps vas) :
    u.reqs = s.reqs.eraseIdx n ∧ (u.tile r.tile).mem = w.tile.mem ∧ u.mem = s.mem ∧ OtherTilesSame s u r.tile := by
  obtain ⟨htiles, -, hmem⟩ := drawn_keeps s
  obtain ⟨x, hx⟩ : ∃ x, x = s.drawn.setTile r.tile w.tile := ⟨_, rfl⟩
  have hxtile : x.tile r.tile = w.tile := by rw [hx, State.tile_setTile_self]
  have hxother : OtherTilesSame s x r.tile := fun t ht => by
    rw [hx, ← tile_of_tiles htiles t]
    exact State.tile_updTile_ne s.drawn ht fun _ => w.tile
  obtain ⟨hwmem, -, -, -, -, -, -, -, -, -, hmem'⟩ := noteConflict_fields x r.tile w.conflict r.tile
  have hother : OtherTilesSame x (x.noteConflict r.tile w.conflict) r.tile := fun t ht => by
    obtain ⟨-, -, -, -, -, -, -, hne, -⟩ := noteConflict_fields x r.tile w.conflict t
    exact hne ht
  rw [performRead_eq hm ho hw, ← hx] at hu
  subst hu
  refine ⟨?_, hwmem.trans (by rw [hxtile]), hmem'.trans (by rw [hx]; exact hmem), fun t ht => (hother t ht).trans (hxother t ht)⟩
  change (x.noteConflict r.tile w.conflict).reqs.eraseIdx n = _
  rw [noteConflict_reqs, hx]
  exact congrArg (·.eraseIdx n) (drawn_reqs s)

/-- A read gives its words whatever its work has begun. -/
theorem performRead_begun {s : State} {n : Nat} {r : Req} {ps : List Page} {vas : List Nat} {w : Wrote} (hm : r.moved = []) (ho : r.opened = [])
    (hw : (s.tile r.tile).writeAt r.off (readWords s r ps vas) = some w) (u : State) (hu : u = (s.beginWork r).performRead n r none ps vas) :
    u.reqs = s.reqs.eraseIdx n ∧ (u.tile r.tile).mem = w.tile.mem ∧ u.mem = s.mem ∧ OtherTilesSame s u r.tile := by
  rcases beginWork_engaged s r with hb | ⟨bales, q, hb⟩
  · rw [hb] at hu
    exact performRead_told hm ho hw u hu
  · have htile : (s.beginWork r).tile r.tile = engaged bales q (s.tile r.tile) := by rw [hb, State.tile_setTile_self]
    have hother : OtherTilesSame s (s.beginWork r) r.tile := fun t ht => by
      rw [hb]; exact State.tile_updTile_ne s ht fun _ => engaged bales q (s.tile r.tile)
    have hwords : readWords (s.beginWork r) r ps vas = readWords s r ps vas := by rw [hb]; rfl
    have hw' : ((s.beginWork r).tile r.tile).writeAt r.off (readWords (s.beginWork r) r ps vas) = some (engagedWrote bales q w) := by
      rw [htile, hwords, Tile.writeAt, putWords_engaged]
      rw [Tile.writeAt] at hw
      rw [hw]; rfl
    obtain ⟨hreqs, hmem, hpkg, hsame⟩ := performRead_told hm ho hw' u hu
    refine ⟨hreqs.trans (by rw [hb]; rfl), hmem, hpkg.trans (by rw [hb]; rfl), fun t ht => (hsame t ht).trans (hother t ht)⟩

/-! ## A write (R276, R294, R295) -/

/-- The tiles, the requests and the release queue are the same. -/
def StoreOnly (s x : State) : Prop := x.tiles = s.tiles ∧ x.reqs = s.reqs ∧ x.release = s.release

theorem StoreOnly.trans {s x y : State} (h : StoreOnly s x) (k : StoreOnly x y) : StoreOnly s y :=
  ⟨k.1.trans h.1, k.2.1.trans h.2.1, k.2.2.trans h.2.2⟩

theorem StoreOnly.foldl {α : Type} {f : State → α → State} (h : ∀ x a, StoreOnly x (f x a)) (l : List α) : ∀ s, StoreOnly s (l.foldl f s) := by
  induction l with
  | nil => exact fun s => ⟨rfl, rfl, rfl⟩
  | cons a l ih => exact fun s => (h s a).trans (ih (f s a))

theorem rekey_storeOnly (s : State) (u : KeyUse) (a : Nat) : StoreOnly s (s.rekey u a) := by
  cases u with
  | key k =>
    by_cases h : s.memKey.get (a / 64) 0 = k.toNat + 1
    · simp only [State.rekey, if_pos h]
      exact ⟨rfl, rfl, rfl⟩
    · simp only [State.rekey, if_neg h]
      exact ⟨rfl, rfl, rfl⟩
  | plain => exact ⟨rfl, rfl, rfl⟩
  | absent => exact ⟨rfl, rfl, rfl⟩

theorem setMemByte_storeOnly (s : State) (a : Nat) (b : Byte) : StoreOnly s (s.setMemByte a b) := by
  rw [State.setMemByte]; split <;> exact ⟨rfl, rfl, rfl⟩

theorem writeByteAs_storeOnly (s : State) (p a : Nat) (b : Byte) : StoreOnly s (s.writeByteAs p a b) := by
  simp only [State.writeByteAs]
  split
  · exact ⟨rfl, rfl, rfl⟩
  · exact (rekey_storeOnly s _ a).trans (setMemByte_storeOnly _ a b)

/-- What bytes that are written at once have in a word. -/
def bytesOfWord (bs : List (Nat × Byte × Bool)) (w : Nat) : List (Nat × Byte × Bool) := bs.filter fun b => decide (b.1 / 8 = w)

/-- The bytes of one word are written, with its mark (R294, R301). -/
def writeWordAs (p : Nat) (bs : List (Nat × Byte × Bool)) (s : State) (w : Nat) : State :=
  if 2 ^ 49 ≤ 8 * w ∧ (bytesOfWord bs w).any (fun b => b.2.2) then s.report (.poisonedHostWord (8 * w - 2 ^ 49))
  else State.setPoisonMark ((bytesOfWord bs w).foldl (fun s b => s.writeByteAs p b.1 b.2.1) s) (8 * w)
    ((bytesOfWord bs w).any (fun b => b.2.2) ||
      (!decide (((bytesOfWord bs w).map (·.1)).eraseDups.length = 8) && s.memPoison.get w false))

/-- What earlier writes in views had to show of some bytes is gone. -/
def dropViews (bs : List (Nat × Byte × Bool)) (s : State) : State :=
  if s.viewWrites.isEmpty then s else { s with viewWrites := s.viewWrites.filter fun w => !bs.any fun b => decide (b.1 = w.addr) }

/-- The bytes that are written: those for which the partition has a key. -/
def keyedBytes (s : State) (p : Nat) (bs : List (Nat × Byte × Bool)) : List (Nat × Byte × Bool) := bs.filter fun b => !s.keyless p b.1

/-- Bytes are written word by word. -/
theorem writeBytesAs_words (s : State) (p : Nat) (bs : List (Nat × Byte × Bool)) (x : State)
    (hx : x = s.reportDiscarded p ((bs.map (·.1)).filter (s.keyless p))) :
    s.writeBytesAs p bs = (((keyedBytes x p bs).map fun b => b.1 / 8).eraseDups).foldl (writeWordAs p (keyedBytes x p bs))
      (dropViews (keyedBytes x p bs) x) := by
  subst hx; rfl

theorem writeWordAs_storeOnly (p : Nat) (bs : List (Nat × Byte × Bool)) (s : State) (w : Nat) : StoreOnly s (writeWordAs p bs s w) := by
  rw [writeWordAs]
  split
  · exact ⟨rfl, rfl, rfl⟩
  · exact (StoreOnly.foldl (f := fun s (b : Nat × Byte × Bool) => s.writeByteAs p b.1 b.2.1)
      (fun y b => writeByteAs_storeOnly y p b.1 b.2.1) _ s).trans ⟨rfl, rfl, rfl⟩

theorem reportDiscarded_storeOnly (s : State) (p : Nat) (as : List Nat) : StoreOnly s (s.reportDiscarded p as) :=
  StoreOnly.foldl (f := fun (s : State) (r : Nat × Nat) => s.report (.discardedWrite p r.1 (r.2 + 1 - r.1))) (fun _ _ => ⟨rfl, rfl, rfl⟩) (runs as) s

theorem dropViews_storeOnly (bs : List (Nat × Byte × Bool)) (s : State) : StoreOnly s (dropViews bs s) := by
  rw [dropViews]; split <;> exact ⟨rfl, rfl, rfl⟩

/-- Bytes of package memory are written without a change of the tiles and the queues. -/
theorem writeBytesAs_storeOnly (s : State) (p : Nat) (bs : List (Nat × Byte × Bool)) : StoreOnly s (s.writeBytesAs p bs) := by
  rw [writeBytesAs_words s p bs _ rfl]
  exact (reportDiscarded_storeOnly s p _).trans ((dropViews_storeOnly _ _).trans (StoreOnly.foldl (writeWordAs_storeOnly p _) _ _))

theorem observe_storeOnly (s : State) (p : Nat) (w : Seen) : StoreOnly s (s.observe p w) ∧ (s.observe p w).mem = s.mem := by
  simp only [State.observe]
  split <;> exact ⟨⟨rfl, rfl, rfl⟩, rfl⟩

theorem writeInView_told (s : State) (r : Req) (bs : List (Nat × Byte × Bool)) :
    StoreOnly s (s.writeInView r bs) ∧ (s.writeInView r bs).mem = (s.writeBytesAs r.part bs).mem :=
  ⟨writeBytesAs_storeOnly s r.part bs, rfl⟩

/-- The bytes that a whole request writes, at their virtual addresses. -/
def writtenBytes (s : State) (r : Req) (vas : List Nat) : List (Nat × Byte × Bool) :=
  spread vas ((s.tile r.tile).readWords r.off (r.len / 8))

/-- Bytes at the addresses where some pages place them. -/
def placed (ps : List Page) (bs : List (Nat × Byte × Bool)) : List (Nat × Byte × Bool) := bs.map fun b => (physIn ps b.1, b.2)

theorem spread_take (vas : List Nat) (words : List (Word × Bool)) : spread (vas.take (8 * words.length)) words = spread vas words := by
  have hlen : (words.flatMap fun w => (toBytes 8 w.1.toNat).map fun b => (b, w.2)).length = 8 * words.length := by
    induction words with
    | nil => rfl
    | cons w ws ih => simp only [List.flatMap_cons, List.length_append, List.length_map, toBytes_length, ih, List.length_cons]; omega
  rw [spread, spread, List.zip_eq_zip_take_min, hlen]
  conv_rhs => rw [List.zip_eq_zip_take_min, hlen]
  rw [List.length_take, List.take_take]
  congr 2 <;> omega

theorem wordVas_spread (T : Tile) (r : Req) (vas : List Nat) (f : Nat → Word × Bool)
    (hf : ∀ i, f i = (BitVec.ofNat 64 (T.readNat (r.off + 8 * i) 8), T.poisonAt (r.off + 8 * i))) :
    spread ((wordVas r vas).flatMap (·.2)) ((wordVas r vas).map fun iv => f iv.1) = spread vas (T.readWords r.off (r.len / 8)) := by
  have hwords : (List.range (r.len / 8)).map f = T.readWords r.off (r.len / 8) := List.map_congr_left fun i _ => hf i
  have hlen : (T.readWords r.off (r.len / 8)).length = r.len / 8 := by rw [Tile.readWords, List.length_map, List.length_range]
  have h := spread_take vas (T.readWords r.off (r.len / 8))
  rw [hlen] at h
  rw [wordVas_flat, wordVas_numbers, hwords, h]

theorem movedBytes_none {r : Req} (h : r.moved = []) (ps : List Page) (vas : List Nat) : r.movedBytes ps vas = [] := by
  simp [Req.movedBytes, h, spread]

theorem settleMarks_none (s : State) (now : List (Nat × Byte × Bool)) : s.settleMarks [] now = s := rfl

section
variable {s : State} {n : Nat} {r : Req} {ps : List Page} {vas : List Nat} (hm : r.moved = [])
include hm

/-- The bytes that the words of a whole request give. -/
theorem pick_spread : spread ((r.pick none vas).flatMap (·.2)) (((r.pick none vas).map fun iv =>
    (iv.1, BitVec.ofNat 64 ((s.tile r.tile).readNat (r.off + 8 * iv.1) 8), (s.tile r.tile).poisonAt (r.off + 8 * iv.1))).map (·.2)) =
      writtenBytes s r vas := by
  rw [pick_all hm, List.map_map]
  exact wordVas_spread (s.tile r.tile) r vas _ fun _ => rfl

/-- A steward tile's write is made at once (R401). -/
theorem performWrite_steward (hst : isSteward r.tile = true) : ∃ z, s.performWrite n r none ps vas =
    ((s.writeInView r (placed ps (writtenBytes s r vas))).observe r.part z).dropReq n := by
  simp only [State.performWrite, hst, if_true, pick_spread hm, movedBytes_none hm, List.map_nil, settleMarks_none]
  exact ⟨_, rfl⟩

end

theorem spread_mem {vas : List Nat} {words : List (Word × Bool)} {b : Nat × Byte × Bool} (h : b ∈ spread vas words) : b.1 ∈ vas :=
  (List.of_mem_zip h).1

/-- Bytes that all lie in plain HBM leave nothing to select out. -/
theorem spread_filter_all {vas : List Nat} {words : List (Word × Bool)} {f : Nat × Byte × Bool → Bool} (h : ∀ b, b.1 ∈ vas → f b = true) :
    (spread vas words).filter f = spread vas words := by
  rw [List.filter_eq_self]
  exact fun b hb => h b (spread_mem hb)

theorem spread_filter_none {vas : List Nat} {words : List (Word × Bool)} {f : Nat × Byte × Bool → Bool} (h : ∀ b, b.1 ∈ vas → f b = false) :
    (spread vas words).filter f = [] := by
  rw [List.filter_eq_nil_iff]
  exact fun b hb => by simp [h b (spread_mem hb)]

theorem releaseBytes_none {ps : List Page} {vas : List Nat} (h : ∀ a ∈ vas, physIn ps a < 2 ^ 48) : releaseBytes ps vas = 0 := by
  rw [releaseBytes, List.length_eq_zero_iff, List.filter_eq_nil_iff]
  exact fun a ha => by simpa using h a ha

theorem allocTwins_plain (s : State) (g : Nat) {ps : List Page} (h : ∀ p ∈ ps, entryStep p.e = false) : s.allocTwins g ps = .inr s := by
  induction ps with
  | nil => rfl
  | cons p ps ih =>
    simp only [State.allocTwins, h p (by simp), Bool.false_eq_true, if_false]
    exact ih fun q hq => h q (by simp [hq])

theorem writeTwins_plain (s : State) (p i : Nat) {ps : List Page} (bs : List (Nat × Byte × Bool)) (h : ∀ p ∈ ps, entryStep p.e = false) :
    s.writeTwins p i ps bs = (s, false) := by
  rw [State.writeTwins]
  induction ps with
  | nil => rfl
  | cons q ps ih =>
    simp only [List.foldl_cons, h q (by simp), Bool.false_eq_true, if_false]
    exact ih fun q hq => h q (by simp [hq])

theorem enterRelease_none (s : State) (r : Req) (units : Nat) : s.enterRelease r units [] = s := rfl

/-- A gang tile's write to plain HBM pages, under the key that its partition has, is made at once. -/
theorem performWrite_plain {s : State} {n : Nat} {r : Req} {ps : List Page} {vas : List Nat} (hm : r.moved = [])
    (hst : isSteward r.tile = false) (hstep : ∀ p ∈ ps, entryStep p.e = false)
    (hplain : ∀ a ∈ vas, physIn ps a < 2 ^ 48 ∧ s.keyless r.part (physIn ps a) = false) : ∃ z, s.performWrite n r none ps vas =
      ((s.writeInView r (placed ps (writtenBytes s r vas))).observe r.part z).dropReq n := by
  have hneed : entryUnits (releaseBytes ps vas) = 0 := by rw [releaseBytes_none fun a ha => (hplain a ha).1]; rfl
  have hlost : (writtenBytes s r vas).filter (fun b => decide (physIn ps b.1 < 2 ^ 48) && s.keyless r.part (physIn ps b.1)) = [] :=
    spread_filter_none fun b hb => by rw [(hplain _ hb).2, Bool.and_false]
  have hkept : (writtenBytes s r vas).filter (fun b => !(decide (physIn ps b.1 < 2 ^ 48) && s.keyless r.part (physIn ps b.1))) =
      writtenBytes s r vas := spread_filter_all fun b hb => by rw [(hplain _ hb).2, Bool.and_false]; rfl
  have htouched : ∀ f : Page → Bool, ∀ p ∈ ps.filter f, entryStep p.e = false := fun f p hp => hstep p (List.mem_filter.mp hp).1
  have hstepped : ∀ a : Nat, (ps.any fun pg => decide (pg.num = a / 65536) && entryStep pg.e) = false := fun a => by
    simp only [List.any_eq_false, Bool.and_eq_true, not_and, Bool.not_eq_true]
    exact fun p hp _ => hstep p hp
  have hhbm : (writtenBytes s r vas).filter (fun b => !false && decide (physIn ps b.1 < 2 ^ 48)) = writtenBytes s r vas :=
    spread_filter_all fun b hb => by rw [decide_eq_true (hplain _ hb).1]; rfl
  have hout : ∀ ws, (spread vas ws).filter (fun b => decide (2 ^ 48 ≤ physIn ps b.1)) = [] := fun ws =>
    spread_filter_none fun b hb => by simpa using (hplain _ hb).1
  have hreport : ∀ p, s.reportDiscarded p [] = s := fun _ => rfl
  simp only [State.performWrite, hst, Bool.false_eq_true, if_false, pick_spread hm, movedBytes_none hm, List.map_nil, List.filter_nil,
    settleMarks_none, Option.isNone_none, if_true, hneed, Nat.not_lt_zero, false_and, hlost, hkept, hreport, allocTwins_plain _ _ (htouched _),
    hstepped, hhbm, hout, writeTwins_plain _ _ _ _ (htouched _), enterRelease_none, State.noteConflict]
  exact ⟨_, rfl⟩

/-- What a write that is made at once leaves. -/
theorem madeAtOnce_told (s : State) (n : Nat) (r : Req) (bs : List (Nat × Byte × Bool)) (z : Seen) (u : State)
    (hu : u = ((s.writeInView r bs).observe r.part z).dropReq n) :
    u.reqs = s.reqs.eraseIdx n ∧ u.release = s.release ∧ u.tiles = s.tiles ∧ u.mem = (s.writeBytesAs r.part bs).mem := by
  obtain ⟨⟨htiles, hreqs, hrelease⟩, hmem⟩ := writeInView_told s r bs
  obtain ⟨⟨htiles', hreqs', hrelease'⟩, hmem'⟩ := observe_storeOnly (s.writeInView r bs) r.part z
  subst hu
  exact ⟨congrArg (·.eraseIdx n) (hreqs'.trans hreqs), hrelease'.trans hrelease, htiles'.trans htiles, hmem'.trans hmem⟩

/-- A write's bytes are those of the tile before its work has begun. -/
theorem beginWork_writes (s : State) (r : Req) (vas : List Nat) (bs : List (Nat × Byte × Bool)) :
    writtenBytes (s.beginWork r) r vas = writtenBytes s r vas ∧
      ((s.beginWork r).writeBytesAs r.part bs).mem = (s.writeBytesAs r.part bs).mem ∧ (s.beginWork r).reqs = s.reqs ∧
      (s.beginWork r).release = s.release ∧ (∀ p, (s.beginWork r).keyless p = s.keyless p) ∧ OtherTilesSame s (s.beginWork r) r.tile ∧
      ((s.beginWork r).tile r.tile).mem = (s.tile r.tile).mem := by
  rcases beginWork_engaged s r with hb | ⟨bales, q, hb⟩
  · rw [hb]
    exact ⟨rfl, rfl, rfl, rfl, fun _ => rfl, fun _ _ => rfl, rfl⟩
  · have htile : (s.beginWork r).tile r.tile = engaged bales q (s.tile r.tile) := by rw [hb, State.tile_setTile_self]
    refine ⟨?_, ?_, by rw [hb]; rfl, by rw [hb]; rfl, fun p => by rw [hb]; rfl, fun t ht => ?_, by rw [htile]; rfl⟩
    · rw [writtenBytes, htile]; rfl
    · have hset : s.beginWork r = restamped s (s.tiles.set r.tile {} (engaged bales q (s.tile r.tile))) s.amos := by rw [hb]; rfl
      rw [hset, writeBytesAs_restamped]; rfl
    · rw [hb]; exact State.tile_updTile_ne s ht fun _ => engaged bales q (s.tile r.tile)

/-! ## The outcomes of a request's turn (R287) -/

section
variable {s : State} {n : Nat} {r : Req} {vas : List Nat} (h : Servable s n r vas)
include h

theorem request_faults {a : Nat} (ha : s.translate r.root (s.tile r.tile).gang (pageHeads vas) = .fault a) :
    exec (.memoryRequest n) s = .next (s.suspendReq n r a) := by
  rw [exec_memoryRequest h, ha]; rfl

variable {ps : List Page} (hps : s.translate r.root (s.tile r.tile).gang (pageHeads vas) = .ok ps)
include hps

theorem request_refused {c : Nat} (hc : ps.findSome? (fun p => s.pageCause r.tile r.write (decide (r.view ≠ 0)) p.e) = some c)
    (hst : isSteward r.tile = false) : ∃ u, exec (.memoryRequest n) s = .next u ∧ FailedReq s u n r (BitVec.ofNat 8 c) := by
  obtain ⟨p, -, hp⟩ := List.exists_of_findSome?_eq_some hc
  have hplain : s.failReq n r c r.va.toNat = (s.dropWork n r).failTile r.tile 1 (BitVec.ofNat 8 c) := by
    rcases pageCause_cases hp with rfl | rfl <;> exact failReq_plain (by decide) (by decide) _
  refine ⟨_, ?_, dropWork_fails hst _⟩
  rw [exec_memoryRequest h, hps, answerPages, hc]
  exact congrArg Host.Outcome.next hplain

variable (hc : ps.findSome? (fun p => s.pageCause r.tile r.write (decide (r.view ≠ 0)) p.e) = none)
include hc

theorem request_waits (hf : ps.any s.frozenPage = true) (hr : r.frozen = none) : exec (.memoryRequest n) s =
    .next { s with reqs := s.reqs.set n { r with frozen := some s.waits }, waits := s.waits + 1 } := by
  rw [exec_memoryRequest h, hps, answerPages, hc]
  simp only [hf, if_true, State.freezeReq, hr]

variable (hf : ps.any s.frozenPage = false)
include hf

theorem request_reads {w : Wrote} (hr : r.write = false) (ho : r.opened = [])
    (hw : (s.tile r.tile).writeAt r.off (readWords s r ps vas) = some w) : ∃ u, exec (.memoryRequest n) s = .next u ∧
      u.reqs = s.reqs.eraseIdx n ∧ (u.tile r.tile).mem = w.tile.mem ∧ u.mem = s.mem ∧ OtherTilesSame s u r.tile := by
  refine ⟨_, ?_, performRead_begun h.whole ho hw _ rfl⟩
  rw [exec_memoryRequest h, hps, answerPages, hc]
  simp only [hf, hr, Bool.false_eq_true, if_false]

theorem request_writes (hr : r.write = true) :
    exec (.memoryRequest n) s = .next ((s.beginWork r).performWrite n r none ps vas) := by
  rw [exec_memoryRequest h, hps, answerPages, hc]
  simp only [hf, hr, Bool.false_eq_true, if_false, if_true]

theorem request_stewardWrite (hr : r.write = true) (hst : isSteward r.tile = true) : ∃ u, exec (.memoryRequest n) s = .next u ∧
    u.reqs = s.reqs.eraseIdx n ∧ u.mem = (s.writeBytesAs r.part (placed ps (writtenBytes s r vas))).mem := by
  obtain ⟨z, hz⟩ := performWrite_steward (s := s.beginWork r) (n := n) (ps := ps) (vas := vas) h.whole hst
  obtain ⟨hbytes, hmem, hreqs, -⟩ := beginWork_writes s r vas (placed ps (writtenBytes s r vas))
  obtain ⟨hr', -, -, hm'⟩ := madeAtOnce_told _ n r _ z _ hz
  rw [hbytes, hmem] at hm'
  exact ⟨_, request_writes h hps hc hf hr, hr'.trans (by rw [hreqs]), hm'⟩

theorem request_plainWrite (hr : r.write = true) (hst : isSteward r.tile = false) (hstep : ∀ p ∈ ps, entryStep p.e = false)
    (hplain : ∀ a ∈ vas, physIn ps a < 2 ^ 48 ∧ s.keyless r.part (physIn ps a) = false) : ∃ u, exec (.memoryRequest n) s = .next u ∧
      u.reqs = s.reqs.eraseIdx n ∧ u.release = s.release ∧ (u.tile r.tile).mem = (s.tile r.tile).mem ∧ OtherTilesSame s u r.tile ∧
      u.mem = (s.writeBytesAs r.part (placed ps (writtenBytes s r vas))).mem := by
  obtain ⟨hbytes, hmem, hreqs, hrelease, hkey, hother, htmem⟩ := beginWork_writes s r vas (placed ps (writtenBytes s r vas))
  obtain ⟨z, hz⟩ := performWrite_plain (s := s.beginWork r) (n := n) h.whole hst hstep
    fun a ha => ⟨(hplain a ha).1, (congrFun (hkey r.part) _).trans (hplain a ha).2⟩
  obtain ⟨hr', hrel', htiles, hm'⟩ := madeAtOnce_told _ n r _ z _ hz
  rw [hbytes, hmem] at hm'
  refine ⟨_, request_writes h hps hc hf hr, hr'.trans (by rw [hreqs]), hrel'.trans hrelease, ?_, fun t ht => ?_, hm'⟩
  · rw [tile_of_tiles htiles, htmem]
  · rw [tile_of_tiles htiles, hother t ht]

end

end Sys2Proof.Proofs
end


section
/-! PROOFS. Reads without unpushed view writes, answers to faults, and publication records (R276, R288, R290, R345). -/

namespace Sys2Proof.Proofs

open Sys2Proof.Machine Sys2Proof.Safety Sys2Proof.Laws

/-! ## A word as a request reads it (R276, R294, R302) -/

theorem readVia_pushed {s : State} (h : s.viewWrites = []) (p view a : Nat) : s.readVia p view a = (s.readByteAs p a, s.poisonAs p a) := by
  simp only [State.readVia, State.unpushed, h, List.filter_nil, List.reverse_nil]
  rfl

theorem readWordVia_pushed {s : State} (h : s.viewWrites = []) (p view : Nat) (bad as : List Nat) :
    (s.readWordVia p view bad as).1 = BitVec.ofNat 64 (ofBytes (as.map (s.readByteAs p))) ∧
      ((s.readWordVia p view bad as).2 = true ↔ ∃ a ∈ as, s.poisonAs p a = true ∨ a / 32 ∈ bad) := by
  have hread : as.map (s.readVia p view) = as.map fun a => (s.readByteAs p a, s.poisonAs p a) :=
    List.map_congr_left fun a _ => readVia_pushed h p view a
  simp only [State.readWordVia, hread, List.map_map, Bool.or_eq_true, List.any_eq_true]
  refine ⟨rfl, ?_⟩
  simp only [List.mem_map, List.contains_eq_mem, decide_eq_true_eq]
  constructor
  · rintro (⟨b, ⟨a, ha, rfl⟩, hb⟩ | ⟨a, ha, hb⟩)
    · exact ⟨a, ha, .inl hb⟩
    · exact ⟨a, ha, .inr hb⟩
  · rintro ⟨a, ha, hb | hb⟩
    · exact .inl ⟨_, ⟨a, ha, rfl⟩, hb⟩
    · exact .inr ⟨a, ha, hb⟩

/-! ## Answers to a fault (R290) -/

section
variable {s : State} {n : Nat} {r : Req} (hn : s.reqs[n]? = some r) (hs : r.suspended = true)
include hn hs

theorem exec_pageFaultAnswer (resolved : Bool) : exec (.pageFaultAnswer n resolved) s = .next (s.answerReq n r resolved) := by
  have hlt : n < s.reqs.length := (List.getElem?_eq_some_iff.mp hn).1
  change execPageFaultAnswer n resolved s = _
  simp only [execPageFaultAnswer, hlt, if_true, hn, hs]

/-- A resolved fault lets the request be tried again. -/
theorem faultResolved_told : ∃ u, exec (.pageFaultAnswer n true) s = .next u ∧ u.reqs = s.reqs.set n { r with suspended := false } ∧
    OtherTilesSame s u r.tile ∧ u.mem = s.mem := by
  obtain ⟨x, hx⟩ : ∃ x, x = withReqs s (s.reqs.set n { r with suspended := false }) := ⟨_, rfl⟩
  have hanswer : s.answerReq n r true = match x.filledSlot r with
      | some b => x.updTile r.tile fun T => T.setFault b false
      | none => x := by rw [hx]; rfl
  refine ⟨_, exec_pageFaultAnswer hn hs true, ?_⟩
  rw [hanswer]
  cases x.filledSlot r with
  | none => exact ⟨by rw [hx]; rfl, fun u _ => by rw [hx]; rfl, by rw [hx]; rfl⟩
  | some b =>
    refine ⟨?_, fun u hu => (State.tile_updTile_ne x hu _).trans (by rw [hx]; rfl), ?_⟩
    · have hreqs : x.reqs = s.reqs.set n { r with suspended := false } := congrArg State.reqs hx
      exact hreqs
    · have hmem : x.mem = s.mem := by rw [hx]; rfl
      exact hmem

end

/-- A strand of a tile that fails: one that is parked stops, but for the message context (R46, R216). -/
def stopParked (k : Nat) (x : Strand) : Strand :=
  match x.run with
  | .parked _ => if k = 4 then x else { x with run := .stopped }
  | _ => x

theorem fail_strands (T : Tile) : T.fail.strands = T.strands.map fun x => (x.1, stopParked x.1 x.2) := rfl

theorem stopParked_record (k : Nat) (x : Strand) : (stopParked k x).trapcause = x.trapcause ∧ (stopParked k x).trapval = x.trapval := by
  rw [stopParked]
  split
  · split <;> exact ⟨rfl, rfl⟩
  · exact ⟨rfl, rfl⟩

theorem failTile_strand (s : State) {t : Nat} (k : Nat) (hst : isSteward t = false) (v : BitVec 2) (c : BitVec 8) :
    (s.failTile t v c).strand t k = stopParked k (s.strand t k) := by
  obtain ⟨x, hx⟩ : ∃ x, x = (s.raiseVote t v c).updTile t Tile.fail := ⟨_, rfl⟩
  have htile : x.tile t = Tile.fail ((s.raiseVote t v c).tile t) := by rw [hx, State.tile_updTile_self]
  have hfail : (s.failTile t v c).tile t = x.tile t := by
    rw [hx, State.failTile, hst]; rfl
  obtain ⟨⟨z, hz⟩, -⟩ := raiseVote_leaves s t v c
  rw [State.strand, hfail, htile, hz, fail_strands]
  exact get_map_values (s.tile t).strands (fun x => stopParked x.1 x.2) k (Strand.reset (resetPriv t k)) _ rfl

section
variable {s : State} {n : Nat} {r : Req}

/-- A strand with the record of a trap. -/
def trapRecorded (c va : Nat) (x : Strand) : Strand := { x with trapcause := BitVec.ofNat 8 c, trapval := BitVec.ofNat 64 va }

/-- The trap record of a failing transfer is made on its strand, and nothing else changes (R290, R295). -/
theorem recordWork_told (s : State) (r : Req) (c va : Nat) : OtherTilesSame s (s.recordWork r c va) r.tile ∧
    (s.recordWork r c va).mem = s.mem ∧ (s.recordWork r c va).reqs = s.reqs ∧
    ((s.recordWork r c va).tile r.tile).vote = (s.tile r.tile).vote ∧
    ∀ e, s.xferOf r = some e → ((s.recordWork r c va).strand r.tile e.strand).trapcause = BitVec.ofNat 8 c ∧
      ((s.recordWork r c va).strand r.tile e.strand).trapval = BitVec.ofNat 64 va := by
  rw [State.recordWork]
  cases hx : s.xferOf r with
  | none => exact ⟨fun _ _ => rfl, rfl, rfl, rfl, fun e he => by cases he⟩
  | some e =>
    obtain ⟨z, hz⟩ := setStrand_tile s r.tile e.strand (trapRecorded c va (s.strand r.tile e.strand)) r.tile
    refine ⟨fun u hu => State.tile_updTile_ne s hu _, rfl, rfl, ?_, fun e' he => ?_⟩
    · change ((s.setStrand r.tile e.strand (trapRecorded c va (s.strand r.tile e.strand))).tile r.tile).vote = _
      rw [hz]
    · cases he
      rw [State.strand_updStrand_self]
      exact ⟨rfl, rfl⟩

theorem dropWork_strand (s : State) (n : Nat) (r : Req) (k : Nat) : (s.dropWork n r).strand r.tile k = s.strand r.tile k := by
  obtain ⟨-, -, -, lost, q, htile⟩ := dropWork_told s n r
  rw [State.strand, htile]; rfl

/-- An unresolved fault fails the request, and the strand of its transfer holds the record. -/
theorem failReq_records {c : Nat} (hc : c = 0x18 ∨ c = 0x0B) (va : Nat) (hst : isSteward r.tile = false) :
    FailedReq s (s.failReq n r c va) n r (BitVec.ofNat 8 c) ∧ ∀ e, s.xferOf r = some e →
      ((s.failReq n r c va).strand r.tile e.strand).trapcause = BitVec.ofNat 8 c ∧
        ((s.failReq n r c va).strand r.tile e.strand).trapval = BitVec.ofNat 64 va := by
  obtain ⟨hother, hmem, hreqs, hvote, hrecord⟩ := recordWork_told s r c va
  obtain ⟨kvote, kfailed, kother, kmem, ksub, kkept⟩ := dropWork_fails (s := s.recordWork r c va) (n := n) hst (BitVec.ofNat 8 c)
  have hfail : s.failReq n r c va = ((s.recordWork r c va).dropWork n r).failTile r.tile 1 (BitVec.ofNat 8 c) := by
    rw [State.failReq, if_pos hc]
  rw [hvote] at kvote
  rw [hreqs] at ksub kkept
  rw [hfail]
  refine ⟨⟨kvote, kfailed, fun u hu => (kother u hu).trans (hother u hu), kmem.trans hmem, ksub, kkept⟩, fun e he => ?_⟩
  obtain ⟨hcause, hval⟩ := stopParked_record e.strand (((s.recordWork r c va).dropWork n r).strand r.tile e.strand)
  rw [failTile_strand _ _ hst, hcause, hval, dropWork_strand]
  exact hrecord e he

end

/-! ## Publication records (R288, R291, R345) -/

/-- A state with other publication records. -/
def withPubs (s : State) (l : List Pub) : State := { s with pubs := l }

theorem setMemByte_withPubs (s : State) (l : List Pub) (a : Nat) (b : Byte) :
    (withPubs s l).setMemByte a b = withPubs (s.setMemByte a b) l := by
  by_cases h : a < 0x1000
  · simp only [State.setMemByte, if_pos h]; rfl
  · simp only [State.setMemByte, if_neg h]; rfl

theorem writeTarget_withPubs (s : State) (l : List Pub) (target : PubTarget) (v : Word) :
    (withPubs s l).writeTarget target v = withPubs (s.writeTarget target v) l := by
  cases target with
  | entry a => exact List.foldl_hom (withPubs · l) fun x i => setMemByte_withPubs x l (a + i) _
  | view p h dw => rfl
  | pcb p dw => rfl

theorem writeTarget_pubs (s : State) (target : PubTarget) (v : Word) : (s.writeTarget target v).pubs = s.pubs := by
  have h := congrArg State.pubs (writeTarget_withPubs s s.pubs target v)
  exact h

/-- The record of a target to which no other is put. -/
def pubOf (s : State) (target : PubTarget) (v : Word) : Pub := ⟨target, s.targetWord target, v, []⟩

section
variable {s : State} {target : PubTarget} {v : Word}

theorem retirable_one (p : Pub) : (withPubs s [p]).retirable =
    if s.targetInvalid p.target || (s.pubGangs p).all p.done.contains then some 0 else none := by
  have hinvalid : (withPubs s [p]).targetInvalid p.target = s.targetInvalid p.target := by cases p.target <;> rfl
  have hrange : List.range (withPubs s [p]).pubs.length = [0] := rfl
  have hgangs : (withPubs s [p]).pubGangs p = s.pubGangs p := rfl
  simp only [State.retirable, hrange, List.find?_cons, List.find?_nil]
  change (match (true && ((withPubs s [p]).targetInvalid p.target || ((withPubs s [p]).pubGangs p).all p.done.contains)) with
    | true => some 0 | false => none) = _
  rw [hinvalid, hgangs, Bool.true_and]
  cases s.targetInvalid p.target || (s.pubGangs p).all p.done.contains <;> rfl

/-- A record that nothing holds back takes effect at once. -/
theorem settlePubs_retires (hp : s.pubs = []) (hr : s.targetInvalid target = true ∨ s.pubGangs (pubOf s target v) = []) :
    (withPubs s [pubOf s target v]).settlePubs 1 = s.writeTarget target v := by
  have hnow : (withPubs s [pubOf s target v]).retirable = some 0 := by
    rw [retirable_one, if_pos]
    rcases hr with h | h
    · exact Bool.or_eq_true_iff.mpr (.inl h)
    · rw [h]; exact Bool.or_true _
  have hsettle : (withPubs s [pubOf s target v]).settlePubs 1 = withPubs ((withPubs s [pubOf s target v]).writeTarget target v) [] := by
    simp only [State.settlePubs, hnow]
    rfl
  rw [hsettle, writeTarget_withPubs]
  have hpubs : (s.writeTarget target v).pubs = [] := (writeTarget_pubs s target v).trans hp
  change withPubs (s.writeTarget target v) [] = _
  rw [← hpubs]
  rfl

/-- A record that has not been published for some running gang waits. -/
theorem settlePubs_waits {g : Nat} (hi : s.targetInvalid target = false) (hg : g ∈ s.pubGangs (pubOf s target v)) :
    (withPubs s [pubOf s target v]).settlePubs 1 = withPubs s [pubOf s target v] := by
  have hnone : (withPubs s [pubOf s target v]).retirable = none := by
    rw [retirable_one, if_neg]
    rw [Bool.or_eq_true_iff]
    rintro (h | h)
    · exact Bool.false_ne_true (hi.symm.trans h)
    · exact absurd (List.all_eq_true.mp h g hg) (by simp [pubOf])
  simp only [State.settlePubs, hnone]

theorem exec_publicationEntry {a : Nat} (hp : s.pubs = []) (ha : a < 2 ^ 39) : exec (.publicationRecord (.entry a) v) s =
    .next ((withPubs s [pubOf s (.entry a) v]).settlePubs 1) := by
  have hholds : tierHolds 0 a = true := decide_eq_true ha
  change execPublicationRecord (.entry a) v s = _
  simp only [execPublicationRecord, hholds, hp, Bool.not_true, Bool.false_eq_true, if_false]
  rfl

theorem exec_publicationPcb {p dw : Nat} (hp : s.pubs = []) : exec (.publicationRecord (.pcb p dw) v) s =
    .next ((withPubs s [pubOf s (.pcb p dw) v]).settlePubs 1) := by
  change execPublicationRecord (.pcb p dw) v s = _
  simp only [execPublicationRecord, hp]
  rfl

theorem exec_publicationView {p h dw : Nat} (hp : s.pubs = []) : exec (.publicationRecord (.view p h dw) v) s =
    .next ((withPubs s [pubOf s (.view p h dw) v]).settlePubs 1) := by
  change execPublicationRecord (.view p h dw) v s = _
  simp only [execPublicationRecord, hp]
  rfl

/-- No record for a partition waits whose gangs do not run. -/
theorem pubGangs_idle {q : Nat} {p : Pub} (hq : (∃ dw, p.target = .pcb q dw) ∨ ∃ h dw, p.target = .view q h dw)
    (hidle : ∀ x ∈ s.gangs, x.2.part ≠ q ∨ x.2.state ≠ .running) : s.pubGangs p = [] := by
  rw [State.pubGangs, List.map_eq_nil_iff, List.filter_eq_nil_iff]
  intro x hx hboth
  rw [Bool.and_eq_true, decide_eq_true_eq] at hboth
  obtain ⟨hrun, hpart⟩ := hboth
  have hq' : x.2.part = q := by
    rcases hq with ⟨dw, h⟩ | ⟨hd, dw, h⟩ <;> (rw [h] at hpart; exact of_decide_eq_true hpart)
  rcases hidle x hx with h | h
  · exact h hq'
  · exact h hrun

/-- A record of an entry is to be published for the running gangs of its former domain. -/
theorem pubGangs_domain {a id : Nat} {G : Gang} (hG : (id, G) ∈ s.gangs) (hrun : G.state = .running)
    (hd : G.domain.toNat = entryDomain (s.rawWord a)) : id ∈ s.pubGangs (pubOf s (.entry a) v) := by
  refine List.mem_map.mpr ⟨(id, G), List.mem_filter.mpr ⟨hG, ?_⟩, rfl⟩
  simp only [hrun, decide_true, Bool.true_and]
  exact Bool.or_eq_true_iff.mpr (.inl (decide_eq_true hd))

end

theorem publicationRecords_told {s : State} (v : Word) (hp : s.pubs = []) :
    (∀ a, a < 2 ^ 39 → (s.rawWord a).getLsbD 0 = false → exec (.publicationRecord (.entry a) v) s = .next (s.setRawWord a v)) ∧
    (∀ a id G, a < 2 ^ 39 → (s.rawWord a).getLsbD 0 = true → (id, G) ∈ s.gangs → G.state = .running →
      G.domain.toNat = entryDomain (s.rawWord a) →
      exec (.publicationRecord (.entry a) v) s = .next { s with pubs := [⟨.entry a, s.rawWord a, v, []⟩] }) ∧
    (∀ p dw, (∀ x ∈ s.gangs, x.2.part ≠ p ∨ x.2.state ≠ .running) →
      exec (.publicationRecord (.pcb p dw) v) s = .next (s.updPart p fun q => q.setPcb dw v)) ∧
    (∀ p h dw, (∀ x ∈ s.gangs, x.2.part ≠ p ∨ x.2.state ≠ .running) →
      exec (.publicationRecord (.view p h dw) v) s = .next (s.updPart p fun q =>
        { q with views := q.views.set h 0 (withBits (q.views.get h 0) (64 * dw) 64 v.toNat) })) := by
  refine ⟨fun a ha hv => ?_, fun a id G ha hv hG hrun hd => ?_, fun p dw hidle => ?_, fun p h dw hidle => ?_⟩
  · have hinvalid : s.targetInvalid (.entry a) = true := by
      change (!(s.rawWord a).getLsbD 0) = true
      rw [hv]; rfl
    rw [exec_publicationEntry hp ha, settlePubs_retires hp (.inl hinvalid)]
    rfl
  · have hvalid : s.targetInvalid (.entry a) = false := by
      change (!(s.rawWord a).getLsbD 0) = false
      rw [hv]; rfl
    rw [exec_publicationEntry hp ha, settlePubs_waits hvalid (pubGangs_domain hG hrun hd)]
    rfl
  · rw [exec_publicationPcb hp, settlePubs_retires hp (.inr (pubGangs_idle (.inl ⟨dw, rfl⟩) hidle))]
    rfl
  · rw [exec_publicationView hp, settlePubs_retires hp (.inr (pubGangs_idle (.inr ⟨h, dw, rfl⟩) hidle))]
    rfl

end Sys2Proof.Proofs
end


section
/-! PROOFS. Bytes written under a partition's key (R294, R347). -/

namespace Sys2Proof.Proofs

open Sys2Proof.Machine Sys2Proof.Safety Sys2Proof.Laws

/-! ## A unit as bytes -/

theorem ofBytes_digit (l : List Byte) : ∀ i, ofBytes l / 256 ^ i % 256 = (l.getD i 0).toNat := by
  induction l with
  | nil => intro i; simp [ofBytes]
  | cons b t ih =>
    intro i
    have hb : b.toNat < 256 := b.isLt
    cases i with
    | zero => simp only [ofBytes, Nat.pow_zero, Nat.div_one, List.getD_cons_zero]; omega
    | succ i =>
      rw [List.getD_cons_succ, ← ih i, ofBytes, Nat.pow_succ', ← Nat.div_div_eq_div_mul]
      congr 2
      omega

theorem unit_byte (f : Nat → Byte) {i : Nat} (hi : i < 64) :
    (BitVec.ofNat 512 (ofBytes ((List.range 64).map f))).extractLsb' (8 * i) 8 = f i := by
  apply BitVec.eq_of_toNat_eq
  have hd := ofBytes_digit ((List.range 64).map f) i
  have hget : ((List.range 64).map f).getD i 0 = f i := by simp [List.getD_eq_getElem?_getD, hi]
  have hsplit : (2 : Nat) ^ 512 = 2 ^ (8 * i) * 2 ^ (512 - 8 * i) := by rw [← Nat.pow_add]; congr 1; omega
  rw [BitVec.extractLsb'_toNat, BitVec.toNat_ofNat, Nat.shiftRight_eq_div_pow, hsplit, Nat.mod_mul_right_div_self,
    Nat.mod_mod_of_dvd _ (Nat.pow_dvd_pow 2 (by omega)), Nat.pow_mul]
  exact hd.trans (congrArg BitVec.toNat hget)

/-! ## Reads within one unit -/

section
variable {s x : State} {p : Nat} {k : BitVec 512}

theorem memByte_high (s : State) {a : Nat} (h : 0x10000 ≤ a) : s.memByte a = SMap.get s.mem a 0 := by
  rw [State.memByte, if_neg (by omega)]

theorem keyUse_key (hk : (s.part p).key = some k) {a : Nat} (h : 0x10000 ≤ a) (h' : a < 2 ^ 49) : s.keyUse p a = .key k := by
  simp only [State.keyUse, if_neg (Nat.not_lt.mpr h), hk, if_neg (Nat.not_le.mpr h')]

theorem readByteAs_stored (hk : (s.part p).key = some k) {a : Nat} (h : 0x10000 ≤ a) (h' : a < 2 ^ 49)
    (hw : s.memKey.get (a / 64) 0 = 0 ∨ s.memKey.get (a / 64) 0 = k.toNat + 1) : s.readByteAs p a = SMap.get s.mem a 0 := by
  have hstored : s.readsAsStored (.key k) a = true := by
    simp only [State.readsAsStored, Bool.or_eq_true, decide_eq_true_eq]
    exact hw
  simp only [State.readByteAs, keyUse_key hk h h', hstored, if_true, memByte_high s h]

theorem readByteAs_enciphered (hk : (s.part p).key = some k) {a : Nat} (h : 0x10000 ≤ a) (h' : a < 2 ^ 49)
    (hw : s.memKey.get (a / 64) 0 ≠ 0) (hw' : s.memKey.get (a / 64) 0 ≠ k.toNat + 1) :
    s.readByteAs p a = (s.unitAs (.key k) a).extractLsb' (8 * (a % 64)) 8 := by
  have hstored : s.readsAsStored (.key k) a = false := by simp [State.readsAsStored, hw, hw']
  simp only [State.readByteAs, keyUse_key hk h h', hstored, Bool.false_eq_true, if_false]

theorem unit_same (s : State) {a b : Nat} (h : a / 64 = b / 64) : s.unit a = s.unit b := by rw [State.unit, State.unit, h]

theorem unitTweak_same {a b : Nat} (h : a / 64 = b / 64) : unitTweak a = unitTweak b := by
  have hside : 2 ^ 48 ≤ a ↔ 2 ^ 48 ≤ b := by omega
  by_cases ha : 2 ^ 48 ≤ a
  · rw [unitTweak, unitTweak, if_pos ha, if_pos (hside.mp ha)]; omega
  · rw [unitTweak, unitTweak, if_neg ha, if_neg (fun hb => ha (hside.mpr hb)), h]

theorem unitAs_same (s : State) (u : KeyUse) {a b : Nat} (h : a / 64 = b / 64) : s.unitAs u a = s.unitAs u b := by
  cases u with
  | plain => exact unit_same s h
  | absent => simp only [State.unitAs, unit_same s h, unitTweak_same h]
  | key k => simp only [State.unitAs, unit_same s h, unitTweak_same h, h]

/-- The unit as a request with the key reads it gives the bytes that it reads. -/
theorem unitAs_byte (hk : (s.part p).key = some k) {a : Nat} (h : 0x10000 ≤ a) (h' : a < 2 ^ 49)
    (hw : s.memKey.get (a / 64) 0 ≠ k.toNat + 1) : (s.unitAs (.key k) a).extractLsb' (8 * (a % 64)) 8 = s.readByteAs p a := by
  by_cases h0 : s.memKey.get (a / 64) 0 = 0
  · rw [readByteAs_stored hk h h' (.inl h0)]
    have hunit : s.unitAs (.key k) a = s.unit a := by simp only [State.unitAs, h0, if_true]
    have haddr : a / 64 * 64 + a % 64 = a := by omega
    rw [hunit, State.unit, unit_byte _ (Nat.mod_lt a (by omega)), haddr, memByte_high s h]
  · rw [readByteAs_enciphered hk h h' h0 hw]

/-- A byte is read alike where its unit stands alike. -/
theorem readByteAs_unit (hparts : x.parts = s.parts) (hk : (s.part p).key = some k) {a : Nat} (h : 0x10000 ≤ a) (h' : a < 2 ^ 49)
    (hkey : x.memKey.get (a / 64) 0 = s.memKey.get (a / 64) 0)
    (hmem : ∀ b, b / 64 = a / 64 → SMap.get x.mem b 0 = SMap.get s.mem b 0) : x.readByteAs p a = s.readByteAs p a := by
  have hkx : (x.part p).key = some k := by rw [State.part, hparts]; exact hk
  by_cases hw : s.memKey.get (a / 64) 0 = k.toNat + 1
  · rw [readByteAs_stored hk h h' (.inr hw), readByteAs_stored hkx h h' (.inr (hkey.trans hw)), hmem a rfl]
  · have hunit : x.unit a = s.unit a := by
      rw [State.unit, State.unit]
      refine congrArg (fun l => BitVec.ofNat 512 (ofBytes l)) (List.map_congr_left fun i hi => ?_)
      have hi' := List.mem_range.mp hi
      rw [memByte_high x (by omega), memByte_high s (by omega), hmem _ (by omega)]
    rw [← unitAs_byte hk h h' hw, ← unitAs_byte hkx h h' (by rw [hkey]; exact hw)]
    simp only [State.unitAs, hkey, hunit]

end

/-! ## One byte written -/

/-- From s to x, some bytes are written for partition p: they read back, other bytes read as before, and other units stand as before. -/
structure Updated (s x : State) (p : Nat) (l : List (Nat × Byte × Bool)) : Prop where
  parts : x.parts = s.parts
  written : ∀ b ∈ l, x.readByteAs p b.1 = b.2.1
  kept : ∀ a, 0x10000 ≤ a → a < 2 ^ 49 → a ∉ l.map (·.1) → x.readByteAs p a = s.readByteAs p a
  units : ∀ a, (∀ b ∈ l, b.1 / 64 ≠ a / 64) → SMap.get x.mem a 0 = SMap.get s.mem a 0

section
variable {s : State} {p : Nat} {k : BitVec 512} (hk : (s.part p).key = some k)
include hk

/-- To encipher a unit anew changes no byte as the partition reads it. -/
theorem rekey_told {a : Nat} (h : 0x10000 ≤ a) (h' : a < 2 ^ 49) (x : State) (hx : x = s.rekey (.key k) a) :
    x.parts = s.parts ∧ x.memKey.get (a / 64) 0 = k.toNat + 1 ∧
      (∀ b, b / 64 ≠ a / 64 → x.memKey.get (b / 64) 0 = s.memKey.get (b / 64) 0 ∧ SMap.get x.mem b 0 = SMap.get s.mem b 0) ∧
      ∀ b, b / 64 = a / 64 → b < 2 ^ 49 → SMap.get x.mem b 0 = s.readByteAs p b := by
  by_cases hw : s.memKey.get (a / 64) 0 = k.toNat + 1
  · have hsame : x = s := by rw [hx]; simp only [State.rekey, if_pos hw]
    subst hsame
    exact ⟨rfl, hw, fun b _ => ⟨rfl, rfl⟩, fun b hb hb' => (readByteAs_stored hk (by omega) hb' (.inr (by rw [hb]; exact hw))).symm⟩
  · have hmem : x.mem = (List.range 64).foldl (fun m i => SMap.set m (a / 64 * 64 + i) 0 ((s.unitAs (.key k) a).extractLsb' (8 * i) 8)) s.mem := by
      rw [hx]; simp only [State.rekey, if_neg hw]
    have hkey : x.memKey = s.memKey.set (a / 64) 0 (k.toNat + 1) := by rw [hx]; simp only [State.rekey, if_neg hw]
    have hparts : x.parts = s.parts := by rw [hx]; simp only [State.rekey, if_neg hw]
    refine ⟨hparts, ?_, fun b hb => ⟨?_, ?_⟩, fun b hb hb' => ?_⟩
    · rw [hkey, SMap.get_set, if_pos rfl]
    · rw [hkey, SMap.get_set, if_neg hb]
    · rw [hmem, get_foldl_set, if_neg (by omega)]
    · have hoff : b - a / 64 * 64 = b % 64 := by omega
      rw [hmem, get_foldl_set, if_pos (by omega), hoff, unitAs_same s _ hb.symm]
      exact unitAs_byte hk (by omega) hb' (by rw [hb]; exact hw)

theorem writeByteAs_updated {a : Nat} (h : 0x10000 ≤ a) (h' : a < 2 ^ 49) (v : Byte) (po : Bool) :
    Updated s (s.writeByteAs p a v) p [(a, v, po)] := by
  obtain ⟨x, hx⟩ : ∃ x, x = s.rekey (.key k) a := ⟨_, rfl⟩
  obtain ⟨hparts, hkey, hother, hunit⟩ := rekey_told hk h h' x hx
  obtain ⟨y, hy⟩ : ∃ y, y = s.writeByteAs p a v := ⟨_, rfl⟩
  have hset : y = { x with mem := SMap.set x.mem a 0 v } := by
    rw [hy, hx]
    simp only [State.writeByteAs, keyUse_key hk h h', reduceCtorEq, if_false, State.setMemByte, if_neg (show ¬ a < 0x1000 by omega)]
  have hyparts : y.parts = s.parts := by rw [hset]; exact hparts
  have hykey : y.memKey = x.memKey := by rw [hset]
  have hymem : ∀ b, SMap.get y.mem b 0 = if b = a then v else SMap.get x.mem b 0 := fun b => by
    rw [hset]; exact SMap.get_set ..
  have hyk : (y.part p).key = some k := by rw [State.part, hyparts]; exact hk
  rw [← hy]
  refine ⟨hyparts, fun b hb => ?_, fun b hb hb' hne => ?_, fun b hb => ?_⟩
  · rw [List.mem_singleton.mp hb, readByteAs_stored hyk h h' (.inr (by rw [hykey]; exact hkey)), hymem, if_pos rfl]
  · have hba : b ≠ a := by simpa using hne
    by_cases hu : b / 64 = a / 64
    · rw [readByteAs_stored hyk hb hb' (.inr (by rw [hykey, hu]; exact hkey)), hymem, if_neg hba, hunit b hu hb']
    · refine readByteAs_unit hyparts hk hb hb' (by rw [hykey]; exact (hother b hu).1) fun c hc => ?_
      rw [hymem, if_neg (by rintro rfl; exact hu hc.symm), (hother c (by rw [hc]; exact hu)).2]
  · have hu : b / 64 ≠ a / 64 := fun e => hb _ (List.mem_singleton.mpr rfl) e.symm
    rw [hymem, if_neg (by rintro rfl; exact hu rfl), (hother b hu).2]

end

/-! ## Bytes written word by word -/

section
variable {p : Nat} {k : BitVec 512} {bs : List (Nat × Byte × Bool)} (hdistinct : (bs.map (·.1)).Nodup)
  (hrange : ∀ b ∈ bs, b.2.2 = false ∧ 0x10000 ≤ b.1 ∧ b.1 < 2 ^ 49)

theorem Updated.refl (s : State) : Updated s s p [] := ⟨rfl, nofun, fun _ _ _ _ => rfl, fun _ _ => rfl⟩

include hdistinct hrange in
/-- Writes of some of the bytes one after another: where two of them write one byte, they are the same write. -/
theorem Updated.trans {s x y : State} {l l' : List (Nat × Byte × Bool)} (hl : ∀ b ∈ l, b ∈ bs) (hl' : ∀ b ∈ l', b ∈ bs)
    (h : Updated s x p l) (h' : Updated x y p l') : Updated s y p (l ++ l') := by
  refine ⟨h'.parts.trans h.parts, fun b hb => ?_, fun a ha ha' hne => ?_, fun a ha => ?_⟩
  · by_cases hagain : b.1 ∈ l'.map (·.1)
    · obtain ⟨c, hc, hcb⟩ := List.mem_map.mp hagain
      have hbs : b ∈ bs := by
        rcases List.mem_append.mp hb with hb | hb
        · exact hl b hb
        · exact hl' b hb
      have hsame : c = b := List.inj_on_of_nodup_map hdistinct (hl' c hc) hbs hcb
      rw [← hsame]
      exact h'.written c hc
    · have hb' : b ∈ l := (List.mem_append.mp hb).resolve_right fun hin => hagain (List.mem_map_of_mem hin)
      obtain ⟨-, hlow, hhigh⟩ := hrange b (hl b hb')
      rw [h'.kept b.1 hlow hhigh hagain]
      exact h.written b hb'
  · rw [List.map_append, List.mem_append, not_or] at hne
    rw [h'.kept a ha ha' hne.2, h.kept a ha ha' hne.1]
  · rw [h'.units a fun b hb => ha b (List.mem_append_right _ hb), h.units a fun b hb => ha b (List.mem_append_left _ hb)]

include hdistinct hrange in
theorem writeBytes_updated (l : List (Nat × Byte × Bool)) : ∀ s : State, (s.part p).key = some k → (∀ b ∈ l, b ∈ bs) →
    Updated s (l.foldl (fun s b => s.writeByteAs p b.1 b.2.1) s) p l := by
  induction l with
  | nil => exact fun s _ _ => Updated.refl s
  | cons b l ih =>
    intro s hk hl
    obtain ⟨-, hlow, hhigh⟩ := hrange b (hl b (by simp))
    have hfirst := writeByteAs_updated hk hlow hhigh b.2.1 b.2.2
    have hk' : ((s.writeByteAs p b.1 b.2.1).part p).key = some k := by rw [State.part, hfirst.parts]; exact hk
    exact Updated.trans hdistinct hrange (l := [b]) (fun c hc => hl c (by rw [List.mem_singleton.mp hc]; simp))
      (fun c hc => hl c (by simp [hc])) hfirst (ih _ hk' fun c hc => hl c (by simp [hc]))

include hdistinct hrange in
theorem writeWordAs_updated {s : State} (hk : (s.part p).key = some k) (w : Nat) :
    Updated s (writeWordAs p bs s w) p (bytesOfWord bs w) := by
  have hmine : ∀ b ∈ bytesOfWord bs w, b ∈ bs := fun b hb => (List.mem_filter.mp hb).1
  have hclean : (bytesOfWord bs w).any (fun b => b.2.2) = false := by
    rw [List.any_eq_false]
    exact fun b hb => by simp [(hrange b (hmine b hb)).1]
  have hbytes := writeBytes_updated hdistinct hrange (bytesOfWord bs w) s hk hmine
  rw [writeWordAs, hclean, if_neg (fun h => Bool.false_ne_true h.2)]
  exact ⟨hbytes.parts, hbytes.written, hbytes.kept, hbytes.units⟩

include hdistinct hrange in
theorem writeWords_updated (ws : List Nat) : ∀ s : State, (s.part p).key = some k →
    Updated s (ws.foldl (writeWordAs p bs) s) p (ws.flatMap (bytesOfWord bs)) := by
  induction ws with
  | nil => exact fun s _ => Updated.refl s
  | cons w ws ih =>
    intro s hk
    have hfirst := writeWordAs_updated hdistinct hrange hk w
    have hk' : ((writeWordAs p bs s w).part p).key = some k := by rw [State.part, hfirst.parts]; exact hk
    refine Updated.trans hdistinct hrange (fun b hb => (List.mem_filter.mp hb).1) (fun b hb => ?_) hfirst (ih _ hk')
    obtain ⟨v, -, hb⟩ := List.mem_flatMap.mp hb
    exact (List.mem_filter.mp hb).1

include hrange in
/-- A partition with a key writes all its bytes. -/
theorem keyedBytes_all {s : State} (hk : (s.part p).key = some k) :
    (bs.map (·.1)).filter (s.keyless p) = [] ∧ keyedBytes s p bs = bs := by
  have hkeyed : ∀ b ∈ bs, s.keyless p b.1 = false := fun b hb => by
    obtain ⟨-, hlow, hhigh⟩ := hrange b hb
    simp only [State.keyless, keyUse_key hk hlow hhigh, reduceCtorEq, decide_false]
  refine ⟨?_, List.filter_eq_self.mpr fun b hb => by rw [hkeyed b hb]; rfl⟩
  rw [List.filter_eq_nil_iff]
  intro a ha
  obtain ⟨b, hb, rfl⟩ := List.mem_map.mp ha
  rw [hkeyed b hb]
  exact Bool.false_ne_true

theorem dropViews_updated (s : State) (l : List (Nat × Byte × Bool)) : Updated s (dropViews l s) p [] := by
  rw [dropViews]
  split
  · exact Updated.refl s
  · exact ⟨rfl, nofun, fun _ _ _ _ => rfl, fun _ _ => rfl⟩

include hdistinct hrange in
/-- What bytes written under a partition's key leave: they read back, and no other byte reads otherwise (R294, R347). -/
theorem writeBytesAs_told {s : State} (hk : (s.part p).key = some k) :
    (∀ b ∈ bs, (s.writeBytesAs p bs).readByteAs p b.1 = b.2.1) ∧
    (∀ a, 0x10000 ≤ a → a < 2 ^ 49 → a ∉ bs.map (·.1) → (s.writeBytesAs p bs).readByteAs p a = s.readByteAs p a) ∧
    ∀ a, (∀ b ∈ bs, b.1 / 64 ≠ a / 64) → SMap.get (s.writeBytesAs p bs).mem a 0 = SMap.get s.mem a 0 := by
  obtain ⟨hnone, hall⟩ := keyedBytes_all hrange hk
  have hstart : s = s.reportDiscarded p ((bs.map (·.1)).filter (s.keyless p)) := by rw [hnone]; rfl
  have hdrop := dropViews_updated (p := p) s bs
  have hk' : ((dropViews bs s).part p).key = some k := by rw [State.part, hdrop.parts]; exact hk
  have hwords := Updated.trans hdistinct hrange (l := []) (fun b hb => absurd hb (by simp)) (fun b hb => ?_) hdrop
    (writeWords_updated hdistinct hrange ((bs.map fun b => b.1 / 8).eraseDups) _ hk')
  · rw [List.nil_append] at hwords
    rw [writeBytesAs_words s p bs s hstart, hall]
    have hmem : ∀ b, b ∈ ((bs.map fun b => b.1 / 8).eraseDups).flatMap (bytesOfWord bs) ↔ b ∈ bs := by
      intro b
      simp only [List.mem_flatMap, List.mem_eraseDups, bytesOfWord, List.mem_filter, decide_eq_true_eq, List.mem_map]
      exact ⟨fun ⟨_, _, hb, _⟩ => hb, fun hb => ⟨_, ⟨b, hb, rfl⟩, hb, rfl⟩⟩
    refine ⟨fun b hb => hwords.written b ((hmem b).mpr hb), fun a ha ha' hne => hwords.kept a ha ha' fun hin => ?_,
      fun a ha => hwords.units a fun b hb => ha b ((hmem b).mp hb)⟩
    obtain ⟨b, hb, rfl⟩ := List.mem_map.mp hin
    exact hne (List.mem_map_of_mem ((hmem b).mp hb))
  · obtain ⟨w, -, hb⟩ := List.mem_flatMap.mp hb
    exact (List.mem_filter.mp hb).1

end

/-! ## The obligation -/

/-- Settles O50: a request's turn goes by its pages, an answer by what it says, and bytes are written under the partition's key. -/
theorem memorySide : Obligations.MemorySide := by
  unfold Obligations.MemorySide
  refine ⟨?_, fun s p view bad as hv => readWordVia_pushed hv p view bad as, fun s n r hn hs => ⟨faultResolved_told hn hs, fun hst => ?_⟩,
    fun s v hp => publicationRecords_told v hp, fun s p k bs hk hd hr => writeBytesAs_told hd hr hk⟩
  · intro s n r vas words hn hs hm ho hw hg hv
    have h : Servable s n r vas := ⟨hn, hs, hm, ho, hw, hg, hv⟩
    refine ⟨fun a ha => ?_, fun ps hps => ⟨fun c hc hst => ?_, fun hc hf hr => request_waits h hps hc hf hr,
      fun hc hf => ⟨fun w hr hopen hwords hwrote => ?_, fun hr hst => request_stewardWrite h hps hc hf hr hst,
        fun hr hst hstep hplain => request_plainWrite h hps hc hf hr hst hstep hplain⟩⟩⟩
    · obtain ⟨hreqs, hmem, hother, htile, hreports⟩ := suspendReq_told s n r a
      exact ⟨_, request_faults h ha, hreqs, hmem, hother, htile, hreports⟩
    · exact request_refused h hps hc hst
    · rw [hwords] at hwrote
      exact request_reads h hps hc hf hr hopen hwrote
  · obtain ⟨⟨hvote, hfailed, hother, hmem, hsub, hkept⟩, hrecord⟩ := failReq_records (s := s) (n := n) (.inl rfl) r.faultVa hst
    exact ⟨_, exec_pageFaultAnswer hn hs false, hvote, hfailed, hother, hmem, hsub, hkept, hrecord⟩

end Sys2Proof.Proofs
end
